-- ==== Sys2Proof/Word.lean ====
section
/-!
DEFINITION. The word types of the Z768 (R3, R46) and their plainest arithmetic.
-/
namespace Sys2Proof

/-- A byte of memory, of scratchpad or of a record (R3). -/
abbrev Byte := BitVec 8
/-- A 32-bit word: an instruction word (R199), an accumulator element (R67). -/
abbrev W32 := BitVec 32
/-- A 64-bit register word or virtual address (R46). -/
abbrev Word := BitVec 64
/-- A mask of up to 64 lanes of a group, bit i naming lane i (R34). -/
abbrev Lanes := BitVec 64

/-- A sparse table of entries keyed by number, keys strictly rising: registers by number, bytes by
address, records by identity. -/
abbrev SMap (α : Type) := List (Nat × α)

end Sys2Proof
end

