-- ==== Sys2Proof/Syntax.lean ====
section
/-!
DEFINITION. The steps of the Z768 as syntax: one constructor of Instr for each row of the table of
operations and events. Instruction rows carry their guard and decoded operands (R202-R207); event rows
carry the identity of the agent that takes the step and the data the outside world supplies.
-/
namespace Sys2Proof

/-- The guard fields PG and PN of an instruction (R203, R204, R206). -/
structure Guard where
  pg : BitVec 4
  pn : Bool
  deriving DecidableEq, Repr

/-- A direct vector register number, V0-V639 (R51). -/
abbrev VReg := BitVec 10
/-- A uniform register number, S0-S63 (R51). -/
abbrev SReg := BitVec 6
/-- A predicate register number, P0-P15 (R221). -/
abbrev PReg := BitVec 4
/-- A join-mask register number, J0-J7 (R221). -/
abbrev JReg := BitVec 3

/-- A register field that accepts either class (R51). -/
inductive Reg where
  | v (n : VReg)
  | s (n : SReg)
  deriving DecidableEq, Repr

/-- The last value source: a register, or the literal of the literal form (R205, R221). -/
inductive Opnd where
  | reg (r : Reg)
  | lit (x : W32)
  deriving DecidableEq, Repr

/-- The last value source of a uniform instruction (R221, R229). -/
inductive SOpnd where
  | reg (r : SReg)
  | lit (x : W32)
  deriving DecidableEq, Repr

/-- An immediate in IMM10 or in the literal (R230, R237). -/
inductive Imm where
  | short (x : BitVec 10)
  | lit (x : W32)
  deriving DecidableEq, Repr

/-- The types of R114. -/
inductive Ty where
  | b64 | i8x8 | n8x8 | i16x4 | n16x4 | i32x2 | n32x2 | i64 | n64
  | f16x4 | bf16x4 | f32x2 | f64 | f32
  deriving DecidableEq, Repr

/-- Lookahead LA and counter field DCN of a long-latency instruction (R207). -/
structure Ll where
  la : BitVec 4
  dc : Option (BitVec 3)
  deriving DecidableEq, Repr

/-- The logic operations of R232. -/
inductive LogOp where
  | and | or | xor | andn | orn | xnor | nand | nor
  deriving DecidableEq, Repr

/-- The shift operations of SSHF (R229). -/
inductive ShfOp where
  | shl | shr | sar | rotl | rotr
  deriving DecidableEq, Repr

/-- The integer condition codes of R235. -/
inductive Cc where
  | eq | ne | lt | le | gt | ge
  deriving DecidableEq, Repr

/-- The floating-point condition codes of R242. -/
inductive Fcc where
  | eq | ne | lt | le | gt | ge | un | ord
  deriving DecidableEq, Repr

/-- The rounding modes of FRND (R243). -/
inductive Rnd where
  | rn | rz | rd | ru
  deriving DecidableEq, Repr

/-- The widths of the narrow family (R248). -/
inductive NWidth where
  | n8 | n6 | n4
  deriving DecidableEq, Repr

/-- The system registers of R57, CAP in two halves. -/
inductive SysReg where
  | capLo | capHi | ctxid | grpid | teamid | laneid | prio | flags | mode | gts | tick | faultinfo
  | faultlanes | trappc | tvec | rastthr | trvcfg | swpcfg | lease | stopat
  deriving DecidableEq, Repr

/-- The member-mask field of a cross-lane instruction (R250). -/
structure Mbr where
  m : SReg
  po : PReg
  deriving DecidableEq, Repr

/-- The source-lane modes of PERM (R250). -/
inductive PermMd where
  | idx | xor | up | dn
  deriving DecidableEq, Repr

/-- The modes of BCAST (R250). -/
inductive BcastMd where
  | lane | first | last
  deriving DecidableEq, Repr

/-- The predicate modes of VOTE (R250). -/
inductive VoteMd where
  | all | any | uni
  deriving DecidableEq, Repr

/-- The destination and mode of VOTE (R250). -/
inductive VoteDst where
  | pred (md : VoteMd) (pd : PReg)
  | ballot (d : Reg)
  deriving DecidableEq, Repr

/-- The operations R of REDU, SCAN, XRED, XSCAN and MRED (R252). -/
inductive RedOp where
  | add | min | max | and | or | xor
  deriving DecidableEq, Repr

/-- The modes of QSWAP (R250). -/
inductive QMd where
  | h | v | d
  deriving DecidableEq, Repr

/-- The operations of XALU (R254). -/
inductive XOp where
  | add | sub | mul | min | max | and | or | xor
  deriving DecidableEq, Repr

/-- Access sizes 1 to 32 bytes (R257). -/
inductive Sz where
  | b1 | b2 | b4 | b8 | b16 | b32
  deriving DecidableEq, Repr

/-- A memory operand [base + index*scale + off]; off is given by the literal form (R257). -/
structure MemOp where
  base : Reg
  index : Reg
  scl : BitVec 2
  off : Option (BitVec 28)
  deriving DecidableEq, Repr

/-- The levels of PREF (R262). -/
inductive PrefLvl where
  | l1 | llc | pc
  deriving DecidableEq, Repr

/-- The operations of ATOM and ATOMS (R267). -/
inductive AtomOp where
  | iadd | and | or | xor | min | max | xchg | fadd | fmin | fmax | cas
  deriving DecidableEq, Repr

/-- The encoded scopes of an atomic and of FENCE (R266, R269). -/
inductive Scope where
  | dev | host | pool
  deriving DecidableEq, Repr

/-- The offset of WAITA and WAKE: IMM10 in 8-byte units, or a byte offset in the literal (R270). -/
inductive WOff where
  | short (x : BitVec 10)
  | lit (x : W32)
  deriving DecidableEq, Repr

/-- The source of MSTART (R280). -/
inductive MSrc where
  | addr (a : SReg)
  | rel (off : BitVec 28)
  deriving DecidableEq, Repr

/-- An operand map of a stream instruction, slot-relative when a shelf is named (R283). -/
structure MapOp where
  map : BitVec 4
  shelf : Option (BitVec 4)
  deriving DecidableEq, Repr

/-- The operand kinds of MMA (R284). -/
inductive MmaKind where
  | bf16 | f16
  | int8 (uns sat bx : Bool)
  | narrow (w : NWidth)
  deriving DecidableEq, Repr

/-- The source of FMTSET (R247). -/
inductive FmtSrc where
  | reg (a : SReg)
  | lit (x : BitVec 16)
  deriving DecidableEq, Repr

/-- The set operand of TDWAIT (R294). -/
inductive TdSrc where
  | imm (s : BitVec 6)
  | reg (a : SReg)
  deriving DecidableEq, Repr

/-- The modes of PSWEEP (R295). -/
inductive SweepMode where
  | one | n | quiet
  deriving DecidableEq, Repr

/-- The operations of PATOM (R315). -/
inductive PatomOp where
  | cas | iadd | xchg | ld
  deriving DecidableEq, Repr

/-- What the outside supplies to a cold or warm start (R366-R369): the flash images, and the outcomes of
self-test and training. -/
structure StartIn where
  /-- The primary firmware image as it stands in flash (R367). -/
  primary : List Byte
  /-- The recovery image (R368). -/
  recovery : List Byte
  /-- The management controller's firmware, extended into M2 (R372). -/
  mgmt : List Byte
  /-- Self-test and repair succeed on cluster 0 of every die (R368, R369). -/
  testOk : Bool
  /-- Self-test and repair succeed on the rest of the device (R368, R369). -/
  testRestOk : Bool
  /-- Which ports train (R356, R366 step 6). -/
  portsUp : BitVec 4
  /-- GDDR 7 trains, or its saved values load (R366 step 5). -/
  gddrOk : Bool
  /-- Die temperature differs by more than 15 degrees from the saved point (R366 step 5). -/
  retrain : Bool
  deriving DecidableEq, Repr

/-- A control context that firmware sets up: its partition and slot, page-table root, save area, binding table, and the
kernel of its one team with its parameter block and replay areas (R334); or a team of firmware itself, at machine level
(R20). -/
structure ControlIn where
  part : Nat
  slot : Nat
  ptroot : Word
  savea : Word
  bindt : Word
  code : Word
  param : Word
  replay : Word
  machine : Bool
  deriving DecidableEq, Repr

/-- What firmware does at step 8 of a start (R366, R352): security version reported, the memory configuration record, the
partition configuration (the cluster lists) with the bytes that it extends M4 with, the context table's place, the words
that it has stored in device memory (page tables and control programs), and the control contexts. -/
structure CompleteIn where
  svn : Nat
  record : BitVec 512
  parts : List (List Nat)
  measured : List Byte
  ctxTable : Nat
  stores : List (Nat × Word)
  controls : List ControlIn
  deriving DecidableEq, Repr

/-- Readings of the module's sensors (R398, R400, R401), in whole units of degrees and tenths of L/min. -/
structure Sensors where
  junction : List Nat
  inlet : Nat
  outlet : Nat
  flow : Nat
  watts : Nat
  rails : List Nat
  deriving DecidableEq, Repr

/-- The steps of the machine: one constructor for each row of the table of operations and events. -/
inductive Instr where
  -- events of the device's own agents
  | issueSelection (core : Nat)
  | agingCredit (team grp : Nat)
  | longLatencyCompletion (team grp id : Nat) (lanes : Lanes)
  | fenceComplete (team grp id : Nat)
  | presenceResume (team grp : Nat)
  | sleepExpiry (team grp : Nat) (lanes : Lanes)
  | waitaRetest (team grp : Nat) (lanes : Lanes)
  | shelfFire (team shelf : Nat)
  | shelfCommitEffect (team shelf : Nat)
  | ownershipGrant (op : Nat)
  | parkedFaultDelivery (team grp : Nat)
  | userInterruptTake (team grp : Nat)
  | gangPlacement (part : Nat)
  | extraGroupStart (sweep : Bool) (id rank : Nat)
  | groupEnd (team grp : Nat)
  | gridCompletion (grid : Nat)
  | copyBegin (op : Nat)
  | copyRow (op : Nat)
  | pageCacheFillDone (sector : Nat)
  | coalescerBatchClose (die : Nat)
  | traverseStep (op : Nat)
  | pairStep (op : Nat)
  | textureQuad (op : Nat)
  | rasterTriangle (op : Nat)
  | sweepClaim (sweep rank : Nat)
  | sweepWriteback (sweep rank : Nat)
  | passBarrier (sweep : Nat)
  -- the host and the pool
  | hostSnoop (line : Nat) (data : Option (BitVec 512))
  | backInvalidation (line : Nat)
  | hostWindowRead (port off size : Nat)
  | hostWindowWrite (port off size : Nat) (data : BitVec 512)
  | signalWakeAll (port entry : Nat) (data : Word)
  | signalWakeOne (port entry : Nat) (data : Word)
  | signalRegisterHostWait (port entry : Nat) (data : Word)
  | signalPostInterrupt (port entry : Nat) (data : Word)
  | signalApertureIgnored (port off : Nat)
  | heartbeat
  | portLoss (port : Nat)
  -- scheduling
  | schedulerDecision (part : Nat)
  | quantumExpiry (part : Nat)
  | preemptHalt (part : Nat)
  | preemptSwap (part : Nat)
  | contextStaging (part : Nat)
  -- start-up and security
  | coldStart (x : StartIn)
  | warmStart (x : StartIn)
  | startComplete (x : CompleteIn)
  | startTimeout
  | fullServiceTransition
  | attestationReport (nonce : BitVec 256)
  | securityAlarm1 (sensor : Nat)
  | securityAlarm2 (sensor : Nat)
  | securityAlarm3 (sensor : Nat)
  -- observation
  | traceControlRead (die : Nat)
  | counterSnapshot (die : Nat)
  | preciseStop
  | jtagIdcode
  | jtagStopreq (tick : Word)
  | jtagChsel (chain : BitVec 16)
  | jtagChread (nbits : Nat)
  | jtagResume
  | jtagBypass (code : BitVec 8)
  -- operation
  | powerLimitSet (watts : Nat)
  | powerThrottle (kHz : Nat)
  | thermalThrottle (x : Sensors)
  | thermalShutdown (x : Sensors)
  | coolantFlowLow
  | deepPowerEntry
  | deepPowerExit (cycles : Nat)
  | telemetryRefresh (x : Sensors)
  -- control and synchronisation (R223-R228, R302)
  | nop (g : Guard)
  | bra (g : Guard) (off : BitVec 40)
  | brx (g : Guard) (t : Reg)
  | btab (g : Guard) (k : JReg) (idx : Reg) (tab : SReg) (cnt : BitVec 10)
  | call (g : Guard) (d : VReg) (off : BitVec 30)
  | callx (g : Guard) (d : VReg) (t : Reg)
  | ret (g : Guard) (t : Reg)
  | exit (g : Guard)
  | jmask (g : Guard) (k : JReg) (a : SReg)
  | jmaskAct (g : Guard) (k : JReg)
  | jmaskOr (g : Guard) (k : JReg)
  | join (k : JReg)
  | jany (g : Guard) (pd : PReg) (k : JReg)
  | yield (g : Guard)
  | waitd (g : Guard) (mask : BitVec 8)
  | setprio (g : Guard) (n : BitVec 4)
  | setprioS (g : Guard) (a : SReg)
  | sleep (g : Guard) (a : SReg) (lit : Option W32)
  | bararv (g : Guard) (d : SReg) (b : BitVec 4) (n : BitVec 10)
  | barwait (g : Guard) (b : BitVec 4) (a : SReg)
  | ordwait (g : Guard)
  | ordrel (g : Guard)
  | srd (g : Guard) (d : Reg) (r : SysReg)
  | swr (g : Guard) (r : SysReg) (a : Reg)
  | swrFlags (g : Guard) (a : Reg)
  | swrMode (g : Guard) (a : Reg)
  | swrLease (g : Guard) (a : Reg)
  | swrStopat (g : Guard) (a : Reg)
  -- uniform (R229, R230)
  | smov (g : Guard) (d a : SReg)
  | sli (g : Guard) (ty : Ty) (d : SReg) (x : Imm)
  | sliHi (g : Guard) (d : SReg) (x : W32)
  | sadd (g : Guard) (ty : Ty) (d a : SReg) (b : SOpnd)
  | ssub (g : Guard) (ty : Ty) (d a : SReg) (b : SOpnd)
  | smul (g : Guard) (ty : Ty) (d a : SReg) (b : SOpnd)
  | smad (g : Guard) (ty : Ty) (d a b : SReg) (c : SOpnd)
  | slog (g : Guard) (op : LogOp) (d a : SReg) (b : SOpnd)
  | sshf (g : Guard) (op : ShfOp) (ty : Ty) (d a : SReg) (b : SOpnd)
  | scmp (g : Guard) (cc : Cc) (ty : Ty) (d a : SReg) (b : SOpnd)
  | ssel (g : Guard) (d a b : SReg) (c : SOpnd)
  -- integer and address (R232-R237)
  | mov (g : Guard) (d : VReg) (a : Reg)
  | li (g : Guard) (ty : Ty) (d : VReg) (x : Imm)
  | liHi (g : Guard) (ty : Ty) (d : VReg) (x : W32)
  | iadd (g : Guard) (ty : Ty) (sat : Bool) (d : VReg) (a : Reg) (b : Opnd)
  | isub (g : Guard) (ty : Ty) (sat : Bool) (d : VReg) (a : Reg) (b : Opnd)
  | imul (g : Guard) (ty : Ty) (sat : Bool) (d : VReg) (a : Reg) (b : Opnd)
  | imulh (g : Guard) (ty : Ty) (d : VReg) (a : Reg) (b : Opnd)
  | imad (g : Guard) (ty : Ty) (sat : Bool) (d : VReg) (a b : Reg) (c : Opnd)
  | imin (g : Guard) (ty : Ty) (d : VReg) (a : Reg) (b : Opnd)
  | imax (g : Guard) (ty : Ty) (d : VReg) (a : Reg) (b : Opnd)
  | iabs (g : Guard) (ty : Ty) (sat : Bool) (d : VReg) (a : Reg)
  | ineg (g : Guard) (ty : Ty) (sat : Bool) (d : VReg) (a : Reg)
  | log (g : Guard) (op : LogOp) (d : VReg) (a : Reg) (b : Opnd)
  | shl (g : Guard) (ty : Ty) (d : VReg) (a : Reg) (b : Opnd)
  | shr (g : Guard) (ty : Ty) (d : VReg) (a : Reg) (b : Opnd)
  | sar (g : Guard) (ty : Ty) (d : VReg) (a : Reg) (b : Opnd)
  | rot (g : Guard) (right : Bool) (d : VReg) (a : Reg) (b : Opnd)
  | popc (g : Guard) (ty : Ty) (d : VReg) (a : Reg)
  | clz (g : Guard) (ty : Ty) (d : VReg) (a : Reg)
  | brev (g : Guard) (d : VReg) (a : Reg)
  | bfe (g : Guard) (ty : Ty) (d : VReg) (a : Reg) (b : Opnd)
  | bfi (g : Guard) (d : VReg) (a b : Reg) (c : Opnd)
  | bperm (g : Guard) (d : VReg) (a b : Reg) (c : Opnd)
  | icmp (g : Guard) (cc : Cc) (any : Bool) (ty : Ty) (pd : PReg) (a : Reg) (b : Opnd)
  | sel (g : Guard) (d : VReg) (a b : Reg) (pc : PReg)
  | lea (g : Guard) (scl : BitVec 2) (d : VReg) (a b : Reg) (off : Option W32)
  | iaddx (g : Guard) (nc : Bool) (d : VReg) (pco : PReg) (a b : Reg) (pci : PReg)
  -- predicates and indirect registers (R238, R239)
  | plog (g : Guard) (op : LogOp) (pd pa pb : PReg)
  | pmov (g : Guard) (pd pa : PReg)
  | pmovS (g : Guard) (pd : PReg) (a : SReg)
  | pcnt (g : Guard) (d : SReg) (pa : PReg)
  | rget (g : Guard) (ll : Ll) (d : VReg) (idx : Reg)
  | rput (g : Guard) (idx src : Reg)
  -- floating point (R241-R244)
  | fadd (g : Guard) (ty : Ty) (d : VReg) (a : Reg) (b : Opnd)
  | fsub (g : Guard) (ty : Ty) (d : VReg) (a : Reg) (b : Opnd)
  | fmul (g : Guard) (ty : Ty) (d : VReg) (a : Reg) (b : Opnd)
  | ffma (g : Guard) (ty : Ty) (d : VReg) (a b : Reg) (c : Opnd)
  | fmin (g : Guard) (ty : Ty) (d : VReg) (a : Reg) (b : Opnd)
  | fmax (g : Guard) (ty : Ty) (d : VReg) (a : Reg) (b : Opnd)
  | fcmp (g : Guard) (cc : Fcc) (any : Bool) (ty : Ty) (pd : PReg) (a : Reg) (b : Opnd)
  | fclass (g : Guard) (ty : Ty) (d : VReg) (a : Reg)
  | frnd (g : Guard) (m : Rnd) (x : Bool) (ty : Ty) (d : VReg) (a : Reg)
  | fscale (g : Guard) (ty : Ty) (d : VReg) (a : Reg) (b : Opnd)
  | fdot (g : Guard) (ty : Ty) (d : VReg) (a b : Reg) (c : Opnd)
  -- special functions (R245)
  | rcp (g : Guard) (ll : Ll) (ty : Ty) (d : VReg) (a : Reg)
  | rsq (g : Guard) (ll : Ll) (ty : Ty) (d : VReg) (a : Reg)
  | sqrt (g : Guard) (ll : Ll) (ty : Ty) (d : VReg) (a : Reg)
  | exp2 (g : Guard) (ll : Ll) (ty : Ty) (d : VReg) (a : Reg)
  | log2 (g : Guard) (ll : Ll) (ty : Ty) (d : VReg) (a : Reg)
  | sin (g : Guard) (ll : Ll) (ty : Ty) (d : VReg) (a : Reg)
  | cos (g : Guard) (ll : Ll) (ty : Ty) (d : VReg) (a : Reg)
  | tanh (g : Guard) (ll : Ll) (ty : Ty) (d : VReg) (a : Reg)
  -- conversions and narrow formats (R246-R249)
  | fcvt (g : Guard) (dt st : Ty) (d : VReg) (a : Reg) (sf df : BitVec 4)
  | ftoi (g : Guard) (dt st : Ty) (d : VReg) (a : Reg) (sf df : BitVec 4)
  | icvt (g : Guard) (sat : Bool) (dt st : Ty) (d : VReg) (a : Reg) (sf df : BitVec 4)
  | fmtset (g : Guard) (k : BitVec 4) (x : FmtSrc)
  | ncvtDec (g : Guard) (w : NWidth) (ty : Ty) (d : VReg) (a b : Reg) (k : BitVec 4) (s p : BitVec 3)
  | ncvtEnc (g : Guard) (w : NWidth) (ty : Ty) (d : VReg) (a b : Reg) (k : BitVec 4) (s p : BitVec 3)
  | ndot (g : Guard) (ll : Ll) (w : NWidth) (d : VReg) (a b : Reg) (sen : Bool) (s : BitVec 2) (fs : Option (BitVec 4 × BitVec 4))
  -- cross-lane (R250-R253)
  | perm (g : Guard) (md : PermMd) (d : VReg) (a b : Reg) (x : Mbr)
  | bcast (g : Guard) (md : BcastMd) (d : Reg) (a : VReg) (b : SReg) (x : Mbr)
  | vote (g : Guard) (d : VoteDst) (pa : PReg) (x : Mbr)
  | redu (g : Guard) (op : RedOp) (ty : Ty) (d : Reg) (a : VReg) (x : Mbr)
  | scan (g : Guard) (op : RedOp) (excl : Bool) (ty : Ty) (d a : VReg) (x : Mbr)
  | matchLanes (g : Guard) (d a : VReg) (x : Mbr)
  | derivx (g : Guard) (coarse : Bool) (ty : Ty) (d a : VReg) (x : Mbr)
  | derivy (g : Guard) (coarse : Bool) (ty : Ty) (d a : VReg) (x : Mbr)
  | qswap (g : Guard) (md : QMd) (d a : VReg) (x : Mbr)
  -- streaming vector (R254, R255)
  | xalu (g : Guard) (ll : Ll) (ty : Ty) (op : XOp) (sat : Bool) (d a b : SReg) (n : BitVec 12)
  | xfma (g : Guard) (ll : Ll) (ty : Ty) (d a b : SReg) (n : BitVec 12)
  | xcvt (g : Guard) (ll : Ll) (dt st : Ty) (sat : Bool) (d a : SReg) (n : BitVec 12)
  | xred (g : Guard) (ll : Ll) (ty : Ty) (op : RedOp) (d : VReg) (a : SReg) (n : BitVec 12)
  | xscan (g : Guard) (ll : Ll) (ty : Ty) (op : RedOp) (excl : Bool) (d a : SReg) (n : BitVec 12)
  | xsel (g : Guard) (ll : Ll) (ty : Ty) (d a b : SReg) (n : BitVec 12)
  -- memory (R257-R262)
  | ld (g : Guard) (ll : Ll) (sz : Sz) (sx : Bool) (d : VReg) (m : MemOp)
  | st (g : Guard) (ll : Ll) (sz : Sz) (d : Reg) (m : MemOp)
  | lds (g : Guard) (ll : Ll) (sz : Sz) (sx : Bool) (d : VReg) (m : MemOp)
  | sts (g : Guard) (ll : Ll) (sz : Sz) (d : Reg) (m : MemOp)
  | ldt (g : Guard) (ll : Ll) (sx : Bool) (d : VReg) (h : SReg) (c : Reg)
  | stt (g : Guard) (ll : Ll) (d : Reg) (h : SReg) (c : Reg)
  | pref (g : Guard) (lvl : PrefLvl) (m : MemOp)
  | cp (g : Guard) (ll : Ll) (out : Bool) (sh : Option (BitVec 4)) (d h c : SReg)
  | cpw (g : Guard) (ll : Ll) (out : Bool) (sh : Option (BitVec 4)) (d a n : SReg)
  | atom (g : Guard) (ll : Ll) (op : AtomOp) (ty : Ty) (sc : Scope) (d : Option VReg) (a : Reg) (off : Option (BitVec 28)) (b : Reg)
  | atomc (g : Guard) (ll : Ll) (ty : Ty) (sc : Scope) (d : Option VReg) (a : Reg) (off : Option (BitVec 28)) (b : Reg)
  | atoms (g : Guard) (ll : Ll) (op : AtomOp) (ty : Ty) (d : Option VReg) (a : Reg) (off : Option (BitVec 28)) (b : Reg)
  | fence (g : Guard) (sc : Scope)
  | waita (g : Guard) (cc : Cc) (ty : Ty) (d : Option VReg) (a : Reg) (off : WOff) (b : Reg)
  | wake (g : Guard) (d : Option VReg) (a : Reg) (off : WOff) (b : Reg)
  | mfill (g : Guard) (ll : Ll) (d b : SReg)
  | mcopy (g : Guard) (ll : Ll) (d a b : SReg)
  | mcmp (g : Guard) (ll : Ll) (d a b : SReg)
  | mred (g : Guard) (ll : Ll) (op : RedOp) (ty : Ty) (d a b : SReg)
  | lrbind (g : Guard) (ll : Ll) (d a : SReg)
  | lrfree (g : Guard) (ll : Ll) (a : SReg)
  | lrqry (g : Guard) (ll : Ll) (d a : SReg) (w : BitVec 6)
  -- shelves (R276-R278)
  | shcfg (g : Guard) (k : BitVec 4) (a : SReg)
  | shcfgOff (g : Guard) (k : BitVec 4)
  | shacq (g : Guard) (d : SReg) (k : BitVec 4) (c : BitVec 7)
  | shcom (g : Guard) (k : BitVec 4) (c : BitVec 7)
  | shwait (g : Guard) (d : SReg) (k : BitVec 4) (c : BitVec 7)
  | shrel (g : Guard) (k : BitVec 4) (c : BitVec 7)
  | prwait (g : Guard) (a b : Reg) (off : Option W32)
  -- matrix (R280-R289)
  | mstart (g : Guard) (ll : Ll) (x : MSrc)
  | mstop (g : Guard)
  | mma (kind : MmaKind) (d : BitVec 5) (a b : MapOp)
  | mzero (d : BitVec 5)
  | mload (d : BitVec 5) (m : MapOp)
  | mdrain (sat : Bool) (amax : Option (BitVec 21)) (t : BitVec 5) (m : MapOp)
  | mdrainMem (sat amax : Bool) (desc : BitVec 21) (t : BitVec 5)
  | mshrTake (k : BitVec 4) (c : BitVec 7)
  | mshrRel (k : BitVec 4) (c : BitVec 7)
  | mshwAcq (k : BitVec 4) (c : BitVec 7)
  | mshwCom (k : BitVec 4) (c : BitVec 7)
  | mbarArv (b : BitVec 4) (n : BitVec 10)
  | mbarSync (b : BitVec 4) (n : BitVec 10)
  | mloop (n : Imm)
  | mend
  | tbind (g : Guard) (k : BitVec 4) (a : SReg)
  | tqry (g : Guard) (d : SReg) (k : BitVec 4) (w : BitVec 2)
  -- work lists (R290-R294)
  | wlcfg (g : Guard) (a b : SReg)
  | wlapp (g : Guard) (ll : Ll) (z : BitVec 2) (po : PReg) (d : Option VReg) (a b : Reg)
  | wltake (g : Guard) (ll : Ll) (z : BitVec 2) (po : PReg) (d : VReg) (a : Reg)
  | wldone (g : Guard) (a b : Reg)
  | tdwait (g : Guard) (d : SReg) (x : TdSrc)
  -- parcels (R295-R297)
  | psweep (g : Guard) (ll : Ll) (md : SweepMode) (build : Bool) (role : BitVec 3) (d h b : SReg)
  | pwait (g : Guard) (kind : BitVec 3) (a b : Reg)
  | pwake (g : Guard) (d : Option VReg) (h : SReg) (b : Reg)
  | pctx (g : Guard) (ll : Ll) (d : Option VReg) (h : SReg) (b : Reg)
  | pqryCtx (g : Guard) (ll : Ll) (d : VReg) (h : SReg) (b : Reg)
  | pqrySweep (g : Guard) (ll : Ll) (d h : SReg)
  | pstop (g : Guard) (h : SReg)
  -- graphics (R299-R305)
  | rast (g : Guard) (ll : Ll) (frag cullb : Bool) (role : BitVec 3) (d a : SReg)
  | rsetup (g : Guard) (ll : Ll) (cullb : Bool) (d a : VReg)
  | rcover (g : Guard) (ll : Ll) (po : PReg) (d a b : VReg)
  | tex (g : Guard) (ll : Ll) (d a : VReg) (b : SReg)
  | texg (g : Guard) (ll : Ll) (c : BitVec 2) (d a : VReg) (b : SReg)
  | texl (g : Guard) (ll : Ll) (d a : VReg) (b : SReg)
  | texd (g : Guard) (ll : Ll) (d a : VReg) (b : SReg)
  | tlod (g : Guard) (ll : Ll) (d a : VReg) (b : SReg)
  | imgst (g : Guard) (ll : Ll) (d a : VReg) (b : SReg)
  -- traverse (R306-R310)
  | trace (g : Guard) (ll : Ll) (any : Bool) (p : BitVec 4) (d a : VReg) (b : SReg)
  | trcont (g : Guard) (ll : Ll) (d : VReg)
  | trpair (g : Guard) (ll : Ll) (self resume : Bool) (d a b : SReg)
  | trqry (g : Guard) (ll : Ll) (w : BitVec 2) (d : VReg)
  | trcommit (g : Guard) (ll : Ll)
  | boxt (g : Guard) (ll : Ll) (po : PReg) (d a b : VReg)
  | trit (g : Guard) (ll : Ll) (po : PReg) (d a b : VReg)
  -- system and security (R311-R316)
  | trap (g : Guard) (n : BitVec 10)
  | brk (g : Guard) (n : BitVec 10)
  | eret
  | uiret
  | launch (g : Guard) (ll : Ll) (d a : SReg)
  | csave (g : Guard) (ll : Ll) (d a b : SReg)
  | crest (g : Guard) (ll : Ll) (d a b : SReg)
  | tick (g : Guard) (d : Reg)
  | mark (g : Guard) (n : BitVec 10) (a : Reg)
  | patom (g : Guard) (ll : Ll) (op : PatomOp) (d : VReg) (a b : Reg)
  | fuserd (g : Guard) (d : SReg) (n : BitVec 8)
  | lmsver (g : Guard) (ll : Ll) (token : Bool) (d a b : SReg)
  | kwipe (g : Guard) (d : SReg) (a : Option SReg)
  | measureExt (g : Guard) (ll : Ll) (d : SReg) (m : BitVec 3) (b : SReg)
  | measureRd (g : Guard) (ll : Ll) (d : SReg) (m : BitVec 3) (b : SReg)
  | dbgopen (g : Guard) (d : SReg)
  -- short forms (R203, R213)
  | iaddShort (g : Guard) (t : BitVec 3) (d a b : BitVec 6)
  | isubShort (g : Guard) (t : BitVec 3) (d a b : BitVec 6)
  | imulShort (g : Guard) (t : BitVec 3) (d a b : BitVec 6)
  | iminShort (g : Guard) (t : BitVec 3) (d a b : BitVec 6)
  | imaxShort (g : Guard) (t : BitVec 3) (d a b : BitVec 6)
  | shlShort (g : Guard) (t : BitVec 3) (d a b : BitVec 6)
  | shrShort (g : Guard) (t : BitVec 3) (d a b : BitVec 6)
  | sarShort (g : Guard) (t : BitVec 3) (d a b : BitVec 6)
  | faddF16x4Short (g : Guard) (d a b : BitVec 6)
  | faddBf16x4Short (g : Guard) (d a b : BitVec 6)
  | faddF32x2Short (g : Guard) (d a b : BitVec 6)
  | faddF32Short (g : Guard) (d a b : BitVec 6)
  | faddF64Short (g : Guard) (d a b : BitVec 6)
  | fsubF16x4Short (g : Guard) (d a b : BitVec 6)
  | fsubBf16x4Short (g : Guard) (d a b : BitVec 6)
  | fsubF32x2Short (g : Guard) (d a b : BitVec 6)
  | fsubF32Short (g : Guard) (d a b : BitVec 6)
  | fsubF64Short (g : Guard) (d a b : BitVec 6)
  | fmulF16x4Short (g : Guard) (d a b : BitVec 6)
  | fmulBf16x4Short (g : Guard) (d a b : BitVec 6)
  | fmulF32x2Short (g : Guard) (d a b : BitVec 6)
  | fmulF32Short (g : Guard) (d a b : BitVec 6)
  | fmulF64Short (g : Guard) (d a b : BitVec 6)
  | fminF16x4Short (g : Guard) (d a b : BitVec 6)
  | fminBf16x4Short (g : Guard) (d a b : BitVec 6)
  | fminF32x2Short (g : Guard) (d a b : BitVec 6)
  | fminF32Short (g : Guard) (d a b : BitVec 6)
  | fminF64Short (g : Guard) (d a b : BitVec 6)
  | fmaxF16x4Short (g : Guard) (d a b : BitVec 6)
  | fmaxBf16x4Short (g : Guard) (d a b : BitVec 6)
  | fmaxF32x2Short (g : Guard) (d a b : BitVec 6)
  | fmaxF32Short (g : Guard) (d a b : BitVec 6)
  | fmaxF64Short (g : Guard) (d a b : BitVec 6)
  | movShort (g : Guard) (d a : BitVec 6)
  | nopShort (g : Guard)
  | exitShort (g : Guard)
  | yieldShort (g : Guard)
  | popcShort (g : Guard) (d a : BitVec 6)
  | clzShort (g : Guard) (d a : BitVec 6)
  | brevShort (g : Guard) (d a : BitVec 6)
  | logAndShort (g : Guard) (d a b : BitVec 6)
  | logOrShort (g : Guard) (d a b : BitVec 6)
  | logXorShort (g : Guard) (d a b : BitVec 6)
  | rotShort (g : Guard) (d a b : BitVec 6)
  | iabsI32x2Short (g : Guard) (d a : BitVec 6)
  | inegI32x2Short (g : Guard) (d a : BitVec 6)
  | iabsI64Short (g : Guard) (d a : BitVec 6)
  | inegI64Short (g : Guard) (d a : BitVec 6)
  -- events that close the table
  | instructionCacheFill (core ctx : Nat) (line : Word)
  | fuseProgramming (bit : Nat)
  | gddr7TrainingComplete
  | powerFailure
  | patomHeartbeatDeadline (team grp port : Nat)
  deriving DecidableEq, Repr

end Sys2Proof
end

