-- ==== Sys2Proof/WellFormed.lean ====
section
/-!
DEFINITION. Which instructions of the syntax an encoding can carry: the operand limits that the entries
state and that are not visible in the operand types (R51, R114, R214 and the entry of each instruction),
as the name of the first limit an instruction breaks.
-/
namespace Sys2Proof

/-- Why a word, or a term of Instr, is no instruction (R214). Every case but `length` and `truncated` is an
Illegal-Instruction fault; `length` is Clause-Format (R202). -/
inductive DecodeErr where
  /-- Length code 11 (R202). -/
  | length
  /-- The bytes end before the instruction does. -/
  | truncated
  /-- The opcode is unassigned (R212, R213). -/
  | opcode
  /-- A register field holds 640-959 (R51). -/
  | regReserved
  /-- A register of a class the instruction does not accept (R51). -/
  | regClass
  /-- A field the entry leaves unused is not zero (R203, R221). -/
  | unusedField
  /-- `TY` is reserved or not listed for the entry (R114). -/
  | ty
  /-- `MOD`, `IMM10`, or another operand field holds a value that the entry does not define. -/
  | value
  /-- `DCN` is 0b0001-0b0111 (R207). -/
  | dcn
  /-- The entry does not accept the literal form, or accepts only it. -/
  | form
  /-- A run of registers passes the last register of its class. -/
  | run
  /-- The guard is not `P15` where it must be (R206, R226, R311). -/
  | guard
  /-- The term is an event of the table, which has no encoding. -/
  | event
  deriving DecidableEq, Repr

/-- The `TY` code of a type (R114). -/
def Ty.code : Ty → BitVec 4
  | .b64 => 0 | .i8x8 => 1 | .n8x8 => 2 | .i16x4 => 3 | .n16x4 => 4 | .i32x2 => 5 | .n32x2 => 6
  | .i64 => 7 | .n64 => 8 | .f16x4 => 9 | .bf16x4 => 10 | .f32x2 => 11 | .f64 => 12 | .f32 => 13

/-- The number of elements of a type (R114). -/
def Ty.count : Ty → Nat
  | .b64 => 1 | .i8x8 => 8 | .n8x8 => 8 | .i16x4 => 4 | .n16x4 => 4 | .i32x2 => 2 | .n32x2 => 2
  | .i64 => 1 | .n64 => 1 | .f16x4 => 4 | .bf16x4 => 4 | .f32x2 => 2 | .f64 => 1 | .f32 => 1

/-- The width of an element of a type (R114). -/
def Ty.width : Ty → Nat
  | .b64 => 64 | .i8x8 => 8 | .n8x8 => 8 | .i16x4 => 16 | .n16x4 => 16 | .i32x2 => 32 | .n32x2 => 32
  | .i64 => 64 | .n64 => 64 | .f16x4 => 16 | .bf16x4 => 16 | .f32x2 => 32 | .f64 => 64 | .f32 => 32

/-- An integer type, `TY` 1-8. -/
def Ty.isInt : Ty → Bool
  | .i8x8 | .n8x8 | .i16x4 | .n16x4 | .i32x2 | .n32x2 | .i64 | .n64 => true
  | .b64 | .f16x4 | .bf16x4 | .f32x2 | .f64 | .f32 => false

/-- A floating-point type, `TY` 9-13. -/
def Ty.isFp : Ty → Bool
  | .f16x4 | .bf16x4 | .f32x2 | .f64 | .f32 => true
  | .b64 | .i8x8 | .n8x8 | .i16x4 | .n16x4 | .i32x2 | .n32x2 | .i64 | .n64 => false

/-- A signed integer type. -/
def Ty.signed : Ty → Bool
  | .i8x8 | .i16x4 | .i32x2 | .i64 => true
  | .b64 | .n8x8 | .n16x4 | .n32x2 | .n64 | .f16x4 | .bf16x4 | .f32x2 | .f64 | .f32 => false

/-- Guard `P15`, not negated: every lane (R48, R206). -/
def Guard.always : Guard := { pg := 15, pn := false }

/-- The limit `c` holds, or the instruction is ill formed for the reason `e`. -/
def need (c : Bool) (e : DecodeErr) : Option DecodeErr := if c then none else some e

/-- The first defect of two lists of limits. -/
def both (a b : Option DecodeErr) : Option DecodeErr :=
  match a with
  | some e => some e
  | none => b

/-- A direct vector register: below 640 (R51). -/
def vOk (r : VReg) : Option DecodeErr :=
  if r.toNat < 640 then none else if r.toNat < 960 then some .regReserved else some .regClass

/-- A run of `k` vector registers from `r`: each exists (R51, R256, R279, R298, R317). -/
def vRun (r : VReg) (k : Nat) : Option DecodeErr := both (vOk r) (need (r.toNat + k ≤ 640) .run)

/-- A run of `k` uniform registers from `r` ends at `S63` or before. -/
def sRun (r : SReg) (k : Nat) : Option DecodeErr := need (r.toNat + k ≤ 64) .run

/-- A texture instruction's destination run must not overlap its source run (R198). -/
def apart (d : VReg) (n : Nat) (a : VReg) (k : Nat) : Option DecodeErr :=
  need (d.toNat + n ≤ a.toNat || a.toNat + k ≤ d.toNat) .value

/-- A register of either class. -/
def rOk : Reg → Option DecodeErr
  | .v n => vOk n
  | .s _ => none

/-- A run of registers of either class. -/
def rRun (r : Reg) (k : Nat) : Option DecodeErr :=
  match r with
  | .v n => vRun n k
  | .s n => sRun n k

/-- An operand that may be the literal. -/
def oOk : Opnd → Option DecodeErr
  | .reg r => rOk r
  | .lit _ => none

/-- An optional vector destination. -/
def dOk : Option VReg → Option DecodeErr
  | some r => vOk r
  | none => none

/-- The type is an integer type. -/
def intTy (t : Ty) : Option DecodeErr := need t.isInt .ty
/-- The type is a floating-point type. -/
def fpTy (t : Ty) : Option DecodeErr := need t.isFp .ty
/-- The type is `.b64` or an integer type. -/
def bitTy (t : Ty) : Option DecodeErr := need (t.isInt || t == .b64) .ty
/-- The type is `.i64` or `.n64`. -/
def wideTy (t : Ty) : Option DecodeErr := need (t == .i64 || t == .n64) .ty
/-- The type is an unsigned integer type: `TY` 2, 4, 6, 8. -/
def unsTy (t : Ty) : Option DecodeErr := need (t.isInt && !t.signed) .ty
/-- The type is a signed integer type: `TY` 1, 3, 5, 7. -/
def sgnTy (t : Ty) : Option DecodeErr := need t.signed .ty
/-- The types of the special-function instructions (R245). -/
def sfuTy (t : Ty) : Option DecodeErr := need (t.isFp && t != .f64) .ty

/-- The types that R252 lists for an operation. -/
def redTy (op : RedOp) (t : Ty) : Option DecodeErr :=
  match op with
  | .add | .min | .max => need (t.isInt || t.isFp) .ty
  | .and | .or | .xor => need (t.isInt || t == .b64) .ty

/-- The widest registers of an access: registers of `SZ` (R257). -/
def Sz.regs : Sz → Nat
  | .b1 | .b2 | .b4 | .b8 => 1
  | .b16 => 2
  | .b32 => 4

/-- Sign extension applies to loads of 1, 2 or 4 bytes (R257). -/
def Sz.sxOk : Sz → Bool
  | .b1 | .b2 | .b4 => true
  | .b8 | .b16 | .b32 => false

/-- The registers of a memory operand (R257). -/
def memOk (m : MemOp) : Option DecodeErr := both (rOk m.base) (rOk m.index)

/-- The types of R267 for an operation. -/
def atomTy (op : AtomOp) (t : Ty) : Option DecodeErr :=
  match op with
  | .iadd | .min | .max => need (t == .i32x2 || t == .n32x2 || t == .i64 || t == .n64) .ty
  | .and | .or | .xor =>
    need (t == .b64 || t == .i32x2 || t == .n32x2 || t == .i64 || t == .n64) .ty
  | .xchg | .cas =>
    need (t == .b64 || t == .i32x2 || t == .n32x2 || t == .i64 || t == .n64 || t == .f64 || t == .f32) .ty
  | .fadd | .fmin | .fmax => need (t == .f64 || t == .f32) .ty

/-- A count of shelf slots, 1-64 (R276). -/
def cntOk (c : BitVec 7) : Option DecodeErr := need (1 ≤ c.toNat && c.toNat ≤ 64) .value

/-- An operand map names a shelf only when it is slot-relative, so every `MapOp` has an encoding. -/
def tileOk (_ : BitVec 5) : Option DecodeErr := none

/-- The narrow element count of a lane word (R128). -/
def NWidth.count : NWidth → Nat
  | .n8 => 8
  | .n6 => 8
  | .n4 => 16

/-- The conversion pairs of R246 for `FCVT`, `FTOI` and `ICVT`, with element selects in range. -/
def cvtOk (dst src : Ty) (dFp sFp sInt : Bool) (sf df : BitVec 4) : Option DecodeErr :=
  both (need (if dFp then dst.isFp else dst.isInt) .ty)
    (both (need ((sFp && src.isFp) || (sInt && src.isInt)) .ty)
      (need (decide (sf.toNat < src.count) && decide (df.toNat < dst.count)) .value))

/-- The pairs of `XCVT` (R254): a pair of R246, with `.sat` for integer pairs only. -/
def xcvtOk (dst src : Ty) (sat : Bool) : Option DecodeErr :=
  both (need ((dst.isFp && (src.isFp || src.isInt)) || (dst.isInt && (src.isFp || src.isInt))) .ty)
    (need (!sat || (dst.isInt && src.isInt)) .value)

/-- The number of steps of a streaming-vector instruction: not 0 (R254). -/
def stepsOk (n : BitVec 12) : Option DecodeErr := need (n != 0) .value

/-- A system register that has a writer of its own constructor. -/
def swrOk : SysReg → Option DecodeErr
  | .prio | .faultinfo | .faultlanes | .trappc | .tvec | .rastthr | .trvcfg | .swpcfg => none
  | .capLo | .capHi | .ctxid | .grpid | .teamid | .laneid | .gts | .tick => some .value
  | .flags | .mode | .lease | .stopat => some .value

/-- The first limit that the operands of an instruction break, or none. -/
def Instr.defect : Instr → Option DecodeErr
  | .issueSelection _ | .agingCredit _ _ | .longLatencyCompletion _ _ _ _ | .fenceComplete _ _ _
  | .presenceResume _ _ | .sleepExpiry _ _ _ | .waitaRetest _ _ _ | .shelfFire _ _ | .shelfCommitEffect _ _
  | .ownershipGrant _ | .parkedFaultDelivery _ _ | .userInterruptTake _ _ | .gangPlacement _
  | .extraGroupStart _ _ _ | .groupEnd _ _ | .gridCompletion _ | .copyBegin _ | .copyRow _
  | .pageCacheFillDone _ | .coalescerBatchClose _ | .traverseStep _ | .pairStep _ | .textureQuad _
  | .rasterTriangle _ | .sweepClaim _ _ | .sweepWriteback _ _ | .passBarrier _ | .hostSnoop _ _
  | .backInvalidation _ | .hostWindowRead _ _ _ | .hostWindowWrite _ _ _ _ | .signalWakeAll _ _ _
  | .signalWakeOne _ _ _ | .signalRegisterHostWait _ _ _ | .signalPostInterrupt _ _ _
  | .signalApertureIgnored _ _ | .heartbeat | .portLoss _ | .schedulerDecision _ | .quantumExpiry _
  | .preemptHalt _ | .preemptSwap _ | .contextStaging _ | .coldStart _ | .warmStart _ | .startComplete _
  | .startTimeout | .fullServiceTransition | .attestationReport _ | .securityAlarm1 _ | .securityAlarm2 _
  | .securityAlarm3 _ | .traceControlRead _ | .counterSnapshot _ | .preciseStop | .jtagIdcode
  | .jtagStopreq _ | .jtagChsel _ | .jtagChread _ | .jtagResume | .jtagBypass _ | .powerLimitSet _
  | .powerThrottle _ | .thermalThrottle _ | .thermalShutdown _ | .coolantFlowLow | .deepPowerEntry
  | .deepPowerExit _ | .telemetryRefresh _ | .instructionCacheFill _ _ _ | .fuseProgramming _
  | .gddr7TrainingComplete | .powerFailure | .patomHeartbeatDeadline _ _ _ => some .event
  | .nop _ | .bra _ _ | .exit _ | .jmask _ _ _ | .jmaskAct _ _ | .jmaskOr _ _ | .join _ | .jany _ _ _
  | .yield _ | .waitd _ _ | .setprio _ _ | .setprioS _ _ | .sleep _ _ _ | .barwait _ _ _ | .ordwait _
  | .ordrel _ => none
  | .brx _ t | .ret _ t => rOk t
  | .btab _ _ i _ _ => rOk i
  | .call _ d _ => vOk d
  | .callx _ d t => both (vOk d) (rOk t)
  | .bararv _ _ _ n => need (n != 0) .value
  | .srd _ d r =>
    match d with
    | .v n => vOk n
    | .s _ => need (r != .laneid) .regClass
  | .swr _ r a => both (swrOk r) (rOk a)
  | .swrFlags _ a | .swrMode _ a | .swrLease _ a | .swrStopat _ a => rOk a
  | .smov _ _ _ | .sliHi _ _ _ | .slog _ _ _ _ _ | .ssel _ _ _ _ _ => none
  | .sli _ ty _ _ => need (ty == .b64 || ty == .i64 || ty == .n64) .ty
  | .sadd _ ty _ _ _ | .ssub _ ty _ _ _ | .smul _ ty _ _ _ | .smad _ ty _ _ _ _ => wideTy ty
  | .sshf _ _ ty _ _ _ => need (ty == .b64 || ty == .i64 || ty == .n64) .ty
  | .scmp _ _ ty _ _ _ => wideTy ty
  | .mov _ d a => both (vOk d) (rOk a)
  | .li _ ty d _ => both (intTy ty) (vOk d)
  | .liHi _ ty d _ => both (wideTy ty) (vOk d)
  | .iadd _ ty _ d a b | .isub _ ty _ d a b | .imul _ ty _ d a b =>
    both (intTy ty) (both (vOk d) (both (rOk a) (oOk b)))
  | .imulh _ ty d a b | .imin _ ty d a b | .imax _ ty d a b | .shl _ ty d a b | .shr _ ty d a b
  | .sar _ ty d a b => both (intTy ty) (both (vOk d) (both (rOk a) (oOk b)))
  | .imad _ ty _ d a b c => both (intTy ty) (both (vOk d) (both (rOk a) (both (rOk b) (oOk c))))
  | .iabs _ ty _ d a | .ineg _ ty _ d a => both (sgnTy ty) (both (vOk d) (rOk a))
  | .log _ _ d a b | .rot _ _ d a b => both (vOk d) (both (rOk a) (oOk b))
  | .popc _ ty d a | .clz _ ty d a => both (unsTy ty) (both (vOk d) (rOk a))
  | .brev _ d a => both (vOk d) (rOk a)
  | .bfe _ ty d a b => both (wideTy ty) (both (vOk d) (both (rOk a) (oOk b)))
  | .bfi _ d a b c | .bperm _ d a b c => both (vOk d) (both (rOk a) (both (rOk b) (oOk c)))
  | .icmp _ _ _ ty _ a b => both (intTy ty) (both (rOk a) (oOk b))
  | .sel _ d a b _ => both (vOk d) (both (rOk a) (rOk b))
  | .lea _ _ d a b _ => both (vOk d) (both (rOk a) (rOk b))
  | .iaddx _ _ d _ a b _ => both (vOk d) (both (rOk a) (rOk b))
  | .plog _ _ _ _ _ | .pmov _ _ _ | .pmovS _ _ _ | .pcnt _ _ _ => none
  | .rget _ _ d i => both (vOk d) (rOk i)
  | .rput _ i a => both (rOk i) (rOk a)
  | .fadd _ ty d a b | .fsub _ ty d a b | .fmul _ ty d a b | .fmin _ ty d a b | .fmax _ ty d a b
  | .fscale _ ty d a b => both (fpTy ty) (both (vOk d) (both (rOk a) (oOk b)))
  | .ffma _ ty d a b c => both (fpTy ty) (both (vOk d) (both (rOk a) (both (rOk b) (oOk c))))
  | .fcmp _ _ _ ty _ a b => both (fpTy ty) (both (rOk a) (oOk b))
  | .fclass _ ty d a | .frnd _ _ _ ty d a => both (fpTy ty) (both (vOk d) (rOk a))
  | .fdot _ ty d a b c =>
    both (need (ty == .f16x4 || ty == .bf16x4 || ty == .f32x2) .ty)
      (both (vOk d) (both (rOk a) (both (rOk b) (oOk c))))
  | .rcp _ _ ty d a | .rsq _ _ ty d a | .sqrt _ _ ty d a | .exp2 _ _ ty d a | .log2 _ _ ty d a
  | .sin _ _ ty d a | .cos _ _ ty d a | .tanh _ _ ty d a => both (sfuTy ty) (both (vOk d) (rOk a))
  | .fcvt _ dt so d a sf df => both (cvtOk dt so true true true sf df) (both (vOk d) (rOk a))
  | .ftoi _ dt so d a sf df => both (cvtOk dt so false true false sf df) (both (vOk d) (rOk a))
  | .icvt _ _ dt so d a sf df => both (cvtOk dt so false false true sf df) (both (vOk d) (rOk a))
  | .fmtset _ _ _ => none
  | .ncvtDec _ w ty d a b _ _ p | .ncvtEnc _ w ty d a b _ _ p =>
    both (sfuTy ty) (both (need (decide ((p.toNat + 1) * ty.count ≤ w.count)) .value)
      (both (vOk d) (both (rOk a) (rOk b))))
  | .ndot _ _ _ d a b sen _ _ => both (vOk d) (both (rOk a) (rRun b (if sen then 2 else 1)))
  | .perm _ _ d a b _ => both (vOk d) (both (rOk a) (rOk b))
  | .bcast _ md d a b _ =>
    both (rOk d) (both (vOk a) (need (md == .lane || b == 0) .unusedField))
  | .vote _ d _ x =>
    match d with
    | .pred _ _ => need (x.po == 15) .value
    | .ballot r => rOk r
  | .redu _ op ty d a _ => both (redTy op ty) (both (rOk d) (vOk a))
  | .scan _ op _ ty d a _ => both (redTy op ty) (both (vOk d) (vOk a))
  | .matchLanes _ d a _ | .qswap _ _ d a _ => both (vOk d) (vOk a)
  | .derivx _ _ ty d a _ | .derivy _ _ ty d a _ => both (fpTy ty) (both (vOk d) (vOk a))
  | .xalu _ _ ty op sat _ _ _ n =>
    both (stepsOk n) (both (match op with
      | .and | .or | .xor => bitTy ty
      | .add | .sub | .mul | .min | .max => need (ty.isInt || ty.isFp) .ty)
      (need (!sat || (ty.isInt && (op == .add || op == .sub || op == .mul))) .value))
  | .xfma _ _ ty _ _ b n => both (stepsOk n) (both (need (ty.isInt || ty.isFp) .ty) (sRun b 2))
  | .xcvt _ _ dt so sat _ _ n => both (stepsOk n) (xcvtOk dt so sat)
  | .xred _ _ ty op d _ n => both (stepsOk n) (both (redTy op ty) (vOk d))
  | .xscan _ _ ty op _ _ _ n => both (stepsOk n) (redTy op ty)
  | .xsel _ _ ty _ _ b n => both (stepsOk n) (both (bitTy ty) (sRun b 2))
  | .ld _ _ sz sx d m | .lds _ _ sz sx d m =>
    both (need (!sx || sz.sxOk) .value) (both (vRun d sz.regs) (memOk m))
  | .st _ _ sz d m | .sts _ _ sz d m => both (rRun d sz.regs) (memOk m)
  | .ldt _ _ _ d _ c => both (vOk d) (rRun c 3)
  | .stt _ _ d _ c => both (rOk d) (rRun c 3)
  | .pref _ _ m => memOk m
  | .cp _ _ _ sh d _ c => both (need (sh.isNone || d == 0) .value) (sRun c 3)
  | .cpw _ _ _ sh d _ _ => need (sh.isNone || d == 0) .value
  | .atom _ _ op ty _ d a _ b =>
    both (need (op != .cas) .value) (both (atomTy op ty) (both (dOk d) (both (rOk a) (rOk b))))
  | .atomc _ _ ty _ d a _ b => both (atomTy .cas ty) (both (dOk d) (both (rOk a) (rRun b 2)))
  | .atoms _ _ op ty d a _ b =>
    both (atomTy op ty) (both (dOk d) (both (rOk a) (rRun b (if op == .cas then 2 else 1))))
  | .fence _ _ => none
  | .waita _ cc ty d a _ b =>
    both (need (ty == .i64 || ty == .n64 || (ty == .b64 && (cc == .eq || cc == .ne))) .ty)
      (both (dOk d) (both (rOk a) (rOk b)))
  | .wake _ d a _ b => both (dOk d) (both (rOk a) (rOk b))
  | .mfill _ _ _ b => sRun b 2
  | .mcopy _ _ _ _ _ => none
  | .mcmp _ _ _ _ b => sRun b 2
  | .mred _ _ op ty _ _ _ => redTy op ty
  | .lrbind _ _ _ _ | .lrfree _ _ _ => none
  | .lrqry _ _ _ _ w => need (w.toNat < 12) .value
  | .shcfg _ _ _ | .shcfgOff _ _ => none
  | .shacq _ _ _ c | .shcom _ _ c | .shwait _ _ _ c | .shrel _ _ c => cntOk c
  | .prwait _ a b _ => both (rOk a) (rOk b)
  | .mstart _ _ _ | .mstop _ => none
  | .mma _ _ _ _ | .mzero _ | .mload _ _ | .mdrain _ _ _ _ | .mdrainMem _ _ _ _ | .mend => none
  | .mshrTake _ c | .mshrRel _ c | .mshwAcq _ c | .mshwCom _ c => cntOk c
  | .mbarArv _ n | .mbarSync _ n => need (n != 0) .value
  | .mloop n =>
    match n with
    | .short x => need (x != 0) .value
    | .lit x => need (x != 0) .value
  | .tbind _ _ a => sRun a 4
  | .tqry _ _ _ _ => none
  | .wlcfg _ _ b => sRun b 2
  | .wlapp _ _ z _ d a b => both (dOk d) (both (rOk a) (rRun b (2 ^ z.toNat)))
  | .wltake _ _ z _ d a => both (vRun d (2 ^ z.toNat)) (rOk a)
  | .wldone _ a b => both (rOk a) (rOk b)
  | .tdwait _ _ _ => none
  | .psweep _ _ _ _ _ _ _ b => sRun b 3
  | .pwait _ k a b => both (need (k.toNat < 6) .value) (both (rOk a) (rOk b))
  | .pwake _ d _ b => both (dOk d) (rOk b)
  | .pctx _ _ d _ b => both (dOk d) (rRun b 2)
  | .pqryCtx _ _ d _ b => both (vOk d) (rOk b)
  | .pqrySweep _ _ d _ => sRun d 2
  | .pstop _ _ => none
  | .rast _ _ frag _ role _ _ => need (frag || role == 0) .unusedField
  | .rsetup _ _ _ d a => both (vRun d 7) (vRun a 5)
  | .rcover _ _ _ d a b => both (vOk d) (both (vRun a 7) (vRun b 2))
  | .tex _ _ d a b | .texg _ _ _ d a b =>
    both (vRun d 2) (both (vRun a 2) (both (sRun b 2) (apart d 2 a 2)))
  | .texl _ _ d a b => both (vRun d 2) (both (vRun a 3) (both (sRun b 2) (apart d 2 a 3)))
  | .texd _ _ d a b => both (vRun d 2) (both (vRun a 4) (both (sRun b 2) (apart d 2 a 4)))
  | .tlod _ _ d a b => both (vOk d) (both (vRun a 2) (both (sRun b 2) (apart d 1 a 2)))
  | .imgst _ _ d a _ => both (vRun d 2) (vRun a 2)
  | .trace _ _ _ p d a b => both (vRun d (5 + p.toNat)) (both (vRun a 4) (sRun b 3))
  | .trcont _ _ d => vRun d 5
  | .trpair _ _ _ _ _ _ b => sRun b 3
  | .trqry _ _ w d => both (need (w != 3) .value) (vOk d)
  | .trcommit _ _ => none
  | .boxt _ _ _ d a b => both (vOk d) (both (vRun a 4) (vRun b 3))
  | .trit _ _ _ d a b => both (vRun d 2) (both (vRun a 4) (vRun b 5))
  | .trap _ _ | .brk _ _ | .eret | .uiret | .launch _ _ _ _ | .csave _ _ _ _ _ | .crest _ _ _ _ _ => none
  | .tick _ d => rOk d
  | .mark _ _ a => rOk a
  | .patom _ _ op d a b =>
    both (vOk d) (both (rOk a) (match op with
      | .cas => rRun b 2
      | .iadd | .xchg => rOk b
      | .ld => need (b == .s 0) .value))
  | .fuserd _ _ _ | .kwipe _ _ _ | .measureRd _ _ _ _ _ | .dbgopen _ _ => none
  | .lmsver _ _ _ _ _ b => sRun b 3
  | .measureExt _ _ _ _ b => sRun b 2
  | .iaddShort _ _ _ _ _ | .isubShort _ _ _ _ _ | .imulShort _ _ _ _ _ | .iminShort _ _ _ _ _
  | .imaxShort _ _ _ _ _ | .shlShort _ _ _ _ _ | .shrShort _ _ _ _ _ | .sarShort _ _ _ _ _
  | .faddF16x4Short _ _ _ _ | .faddBf16x4Short _ _ _ _ | .faddF32x2Short _ _ _ _ | .faddF32Short _ _ _ _
  | .faddF64Short _ _ _ _ | .fsubF16x4Short _ _ _ _ | .fsubBf16x4Short _ _ _ _ | .fsubF32x2Short _ _ _ _
  | .fsubF32Short _ _ _ _ | .fsubF64Short _ _ _ _ | .fmulF16x4Short _ _ _ _ | .fmulBf16x4Short _ _ _ _
  | .fmulF32x2Short _ _ _ _ | .fmulF32Short _ _ _ _ | .fmulF64Short _ _ _ _ | .fminF16x4Short _ _ _ _
  | .fminBf16x4Short _ _ _ _ | .fminF32x2Short _ _ _ _ | .fminF32Short _ _ _ _ | .fminF64Short _ _ _ _
  | .fmaxF16x4Short _ _ _ _ | .fmaxBf16x4Short _ _ _ _ | .fmaxF32x2Short _ _ _ _ | .fmaxF32Short _ _ _ _
  | .fmaxF64Short _ _ _ _ | .movShort _ _ _ | .nopShort _ | .exitShort _ | .yieldShort _ | .popcShort _ _ _
  | .clzShort _ _ _ | .brevShort _ _ _ | .logAndShort _ _ _ _ | .logOrShort _ _ _ _ | .logXorShort _ _ _ _
  | .rotShort _ _ _ _ | .iabsI32x2Short _ _ _ | .inegI32x2Short _ _ _ | .iabsI64Short _ _ _
  | .inegI64Short _ _ _ => none

/-- The instruction has an encoding (R203-R207 and the entries). -/
def Instr.wf (i : Instr) : Bool := i.defect.isNone

end Sys2Proof
end

