-- ==== Sys2Proof/Machine/Num.lean ====
section
/-!
DEFINITION. Exact values and the one rounding of the IEEE formats (R114-R120): values are sign, integer and
power of two, so sums and products are exact; quotients and roots keep one sticky bit below the bits that a
rounding can look at.
-/
namespace Sys2Proof.Machine

/-- The flags IV, DZ, OF, UF, NX in bits 0-4 (R58, R118). -/
abbrev Flags := BitVec 5

/-- Invalid operation. -/
def fIV : Flags := 1
/-- Division by zero. -/
def fDZ : Flags := 2
/-- Overflow. -/
def fOF : Flags := 4
/-- Underflow. -/
def fUF : Flags := 8
/-- Inexact. -/
def fNX : Flags := 16

/-- A flag raised or not. -/
def flagIf (c : Bool) (f : Flags) : Flags := if c then f else 0

/-- An IEEE format: exponent and fraction widths (R116). -/
structure Fmt where
  eb : Nat
  fb : Nat
  deriving DecidableEq, Repr

/-- FP64 (R116). -/
def Fmt.f64 : Fmt := { eb := 11, fb := 52 }
/-- FP32 (R116). -/
def Fmt.f32 : Fmt := { eb := 8, fb := 23 }
/-- FP16 (R116). -/
def Fmt.f16 : Fmt := { eb := 5, fb := 10 }
/-- BF16 (R116). -/
def Fmt.bf16 : Fmt := { eb := 8, fb := 7 }

/-- The element format of a floating-point type (R114); FP32 for every other type. -/
def tyFmt : Ty → Fmt
  | .f64 => .f64
  | .f16x4 => .f16
  | .bf16x4 => .bf16
  | .f32x2 | .f32 | .b64 | .i8x8 | .n8x8 | .i16x4 | .n16x4 | .i32x2 | .n32x2 | .i64 | .n64 => .f32

/-- The exponent bias. -/
def Fmt.bias (f : Fmt) : Nat := 2 ^ (f.eb - 1) - 1
/-- The exponent of the smallest normal value. -/
def Fmt.emin (f : Fmt) : Int := 1 - (f.bias : Int)
/-- The sign bit. -/
def Fmt.signBit (f : Fmt) : Nat := 2 ^ (f.eb + f.fb)
/-- Positive infinity. -/
def Fmt.infBits (f : Fmt) : Nat := (2 ^ f.eb - 1) * 2 ^ f.fb
/-- The canonical NaN (R116). -/
def Fmt.nanBits (f : Fmt) : Nat := f.infBits + 2 ^ (f.fb - 1)

/-- A value: a NaN, signalling or not, an infinity, or sign, integer and power of two. -/
inductive Val where
  | nan (signalling : Bool)
  | inf (neg : Bool)
  | fin (neg : Bool) (m : Nat) (e : Int)
  deriving DecidableEq, Repr

/-- The value that bits encode (R116). -/
def Fmt.val (f : Fmt) (x : Nat) : Val :=
  let neg := x / f.signBit % 2 == 1
  let e := x / 2 ^ f.fb % 2 ^ f.eb
  let m := x % 2 ^ f.fb
  if e = 2 ^ f.eb - 1 then
    if m = 0 then .inf neg else .nan (m < 2 ^ (f.fb - 1))
  else if e = 0 then .fin neg m (f.emin - f.fb)
  else .fin neg (m + 2 ^ f.fb) (f.emin - f.fb + (e - 1))

/-- A signalling NaN. -/
def Val.isSnan : Val → Bool
  | .nan s => s
  | .inf _ | .fin _ _ _ => false
/-- A NaN. -/
def Val.isNan : Val → Bool
  | .nan _ => true
  | .inf _ | .fin _ _ _ => false
/-- A zero of either sign. -/
def Val.isZero : Val → Bool
  | .fin _ m _ => m == 0
  | .inf _ | .nan _ => false
/-- The sign of a value; a NaN has sign 0 (R117). -/
def Val.neg : Val → Bool
  | .fin n _ _ => n
  | .inf n => n
  | .nan _ => false

/-- The integer `m * 2^k`, or `m / 2^(-k)` rounded down. -/
def scaleNat (m : Nat) (k : Int) : Nat := if k < 0 then m / 2 ^ k.natAbs else m * 2 ^ k.toNat

/-- Shift right by `s` bits, to nearest, ties to even. -/
def shiftRne (m s : Nat) : Nat :=
  let q := m / 2 ^ s
  let r := 2 * (m % 2 ^ s)
  if 2 ^ s < r || (r == 2 ^ s && q % 2 == 1) then q + 1 else q

/-- Whether a shift right by `s` bits loses something. -/
def loses (m s : Nat) : Bool := m % 2 ^ s != 0

/-- The exponent of a non-zero value: the power of two of its top bit. -/
def topExp (m : Nat) (e : Int) : Int := Nat.log2 m + e

/-- Tininess after rounding: rounded to the format's precision with an unbounded exponent, the value lies
below the smallest normal value (R118). DEDUCED (entry 12). -/
def Fmt.tiny (f : Fmt) (m : Nat) (e : Int) : Bool :=
  let top := topExp m e
  if f.emin ≤ top then false
  else if top < f.emin - 1 then true
  else
    let s := Nat.log2 m - f.fb
    !(decide (f.fb ≤ Nat.log2 m) && shiftRne m s == 2 ^ (f.fb + 1))

/-- A non-negative value rounded once to the format: bits of the magnitude, and the flags OF, UF, NX
(R117, R118). -/
def Fmt.roundMag (f : Fmt) (m : Nat) (e : Int) : Nat × Flags :=
  if m = 0 then (0, 0)
  else
    let top := topExp m e
    let q : Int := (if top < f.emin then f.emin else top) - f.fb
    let step := (q - (f.emin - f.fb)).toNat * 2 ^ f.fb
    let r := if e < q then shiftRne m (q - e).toNat else m * 2 ^ (e - q).toNat
    let lost := if e < q then loses m (q - e).toNat else false
    let x := step + r
    if f.infBits ≤ x then (f.infBits, fOF ||| fNX)
    else (x, flagIf lost (fNX ||| flagIf (f.tiny m e) fUF))

/-- Bits with a sign. -/
def Fmt.sign (f : Fmt) (neg : Bool) (x : Nat) : Nat := if neg then f.signBit + x else x

/-- A value delivered in the format, rounded once (R117). -/
def Fmt.round (f : Fmt) (v : Val) : Nat × Flags :=
  match v with
  | .nan _ => (f.nanBits, 0)
  | .inf n => (f.sign n f.infBits, 0)
  | .fin n m e =>
    let r := f.roundMag m e
    (f.sign n r.1, r.2)

/-- The exact product, and whether it is invalid: 0 times infinity (R117, R118). -/
def mulVal (a b : Val) : Val × Bool :=
  match a, b with
  | .nan _, .inf _ => (.nan false, false)
  | .nan _, .fin _ _ _ => (.nan false, false)
  | .nan _, .nan _ => (.nan false, false)
  | .inf _, .nan _ => (.nan false, false)
  | .fin _ _ _, .nan _ => (.nan false, false)
  | .inf x, .inf y => (.inf (x != y), false)
  | .inf x, .fin y m _ => if m = 0 then (.nan false, true) else (.inf (x != y), false)
  | .fin y m _, .inf x => if m = 0 then (.nan false, true) else (.inf (x != y), false)
  | .fin x m e, .fin y n k => (.fin (x != y) (m * n) (e + k), false)

/-- The signed integer of a finite value in units of `2^lo`, for `lo` at or below its exponent. -/
def toUnits (neg : Bool) (m : Nat) (e lo : Int) : Int :=
  let x : Int := (m * 2 ^ (e - lo).toNat : Nat)
  if neg then -x else x

/-- The least exponent among finite values. -/
def minExp : List Val → Int → Int
  | [], lo => lo
  | .fin _ _ e :: vs, lo => minExp vs (if e < lo then e else lo)
  | .inf _ :: vs, lo => minExp vs lo
  | .nan _ :: vs, lo => minExp vs lo

/-- The sum of the finite values in units of `2^lo`. -/
def sumUnits (lo : Int) : List Val → Int
  | [] => 0
  | .fin n m e :: vs => toUnits n m e lo + sumUnits lo vs
  | .inf _ :: vs => sumUnits lo vs
  | .nan _ :: vs => sumUnits lo vs

/-- A finite value from signed units. -/
def ofUnits (x lo : Int) : Val := .fin (x < 0) x.natAbs lo

/-- The terms hold infinities of both signs (R117, R129). -/
def bothInf (vs : List Val) : Bool := vs.contains (.inf false) && vs.contains (.inf true)

/-- The exact sum of values, and whether the terms hold infinities of both signs, beside a NaN too (R117, R129). A sum
that is exactly zero is -0 only when every term is -0. -/
def sumVal (vs : List Val) : Val × Bool :=
  if vs.any Val.isNan || bothInf vs then (.nan false, bothInf vs)
  else if vs.any (fun v => v == .inf false) then (.inf false, false)
  else if vs.any (fun v => v == .inf true) then (.inf true, false)
  else
    let lo := minExp vs 0
    let x := sumUnits lo vs
    if x = 0 then (.fin (!vs.isEmpty && vs.all (fun v => v.isZero && v.neg)) 0 0, false)
    else (ofUnits x lo, false)

/-- The sum rounded once, with flags: IV also for signalling operands (R117, R118). -/
def Fmt.sum (f : Fmt) (vs : List Val) : Nat × Flags :=
  let s := sumVal vs
  let r := f.round s.1
  (r.1, r.2 ||| flagIf (s.2 || vs.any Val.isSnan) fIV)

/-- The value with its sign changed. -/
def Val.negate : Val → Val
  | .nan s => .nan s
  | .inf n => .inf (!n)
  | .fin n m e => .fin (!n) m e

/-- `FADD` on one element (R241). -/
def fpAdd (f : Fmt) (x y : Nat) : Nat × Flags := f.sum [f.val x, f.val y]
/-- `FSUB` on one element (R241). -/
def fpSub (f : Fmt) (x y : Nat) : Nat × Flags := f.sum [f.val x, (f.val y).negate]

/-- `FMUL` on one element (R241). -/
def fpMul (f : Fmt) (x y : Nat) : Nat × Flags :=
  let p := mulVal (f.val x) (f.val y)
  let r := f.round p.1
  (r.1, r.2 ||| flagIf (p.2 || (f.val x).isSnan || (f.val y).isSnan) fIV)

/-- `FFMA` on one element: one rounding, IV for 0 times infinity whatever z is (R241). -/
def fpFma (f : Fmt) (x y z : Nat) : Nat × Flags :=
  let p := mulVal (f.val x) (f.val y)
  let s := sumVal [p.1, f.val z]
  let r := f.round s.1
  (r.1, r.2 ||| flagIf (p.2 || s.2 || (f.val x).isSnan || (f.val y).isSnan || (f.val z).isSnan) fIV)

/-- Order of two values that are not NaN: negative, zero or positive (R119). -/
def cmpVal (a b : Val) : Int :=
  let rank (v : Val) : Int := match v with
    | .inf true => -1
    | .inf false => 1
    | .fin _ _ _ => 0
    | .nan _ => 0
  if rank a != rank b then rank a - rank b
  else match a, b with
    | .fin n m e, .fin k l d =>
      let lo := if e < d then e else d
      toUnits n m e lo - toUnits k l d lo
    | .fin _ _ _, .inf _ => 0
    | .fin _ _ _, .nan _ => 0
    | .inf _, _ => 0
    | .nan _, _ => 0

/-- `FMIN` and `FMAX`: minimumNumber and maximumNumber (R119). -/
def fpMinMax (f : Fmt) (max : Bool) (x y : Nat) : Nat × Flags :=
  let a := f.val x
  let b := f.val y
  let fl := flagIf (a.isSnan || b.isSnan) fIV
  if a.isNan && b.isNan then (f.nanBits, fl)
  else if a.isNan then (y, fl)
  else if b.isNan then (x, fl)
  else
    let c := cmpVal a b
    let first := if c = 0 then (if max then !a.neg else a.neg) else if max then decide (0 < c) else decide (c < 0)
    (if first then x else y, fl)

/-- Whether a floating-point condition holds (R242). -/
def fpCmp (f : Fmt) (cc : Fcc) (x y : Nat) : Bool × Flags :=
  let a := f.val x
  let b := f.val y
  let fl := flagIf (a.isSnan || b.isSnan) fIV
  let un := a.isNan || b.isNan
  let c := cmpVal a b
  (match cc with
    | .eq => !un && c == 0
    | .ne => un || c != 0
    | .lt => !un && decide (c < 0)
    | .le => !un && decide (c ≤ 0)
    | .gt => !un && decide (0 < c)
    | .ge => !un && decide (0 ≤ c)
    | .un => un
    | .ord => !un, fl)

/-- The class number of `FCLASS` (R243). -/
def fpClass (f : Fmt) (x : Nat) : Nat :=
  match f.val x with
  | .nan s => if s then 8 else 9
  | .inf n => if n then 0 else 7
  | .fin n m e =>
    let normal := decide (f.emin ≤ topExp m e)
    if m = 0 then (if n then 3 else 4)
    else if n then (if normal then 1 else 2)
    else (if normal then 6 else 5)

/-- A magnitude `m / 2^s` rounded to an integer in a given direction (R243). -/
def roundInt (md : Rnd) (neg : Bool) (m s : Nat) : Nat :=
  let q := m / 2 ^ s
  match md with
  | .rn => shiftRne m s
  | .rz => q
  | .rd => if neg && loses m s then q + 1 else q
  | .ru => if !neg && loses m s then q + 1 else q

/-- `FRND` on one element (R243). -/
def fpRound (f : Fmt) (md : Rnd) (x : Bool) (v : Nat) : Nat × Flags :=
  match f.val v with
  | .nan s => (f.nanBits, flagIf s fIV)
  | .inf _ => (v, 0)
  | .fin n m e =>
    if m = 0 ∨ 0 ≤ e then (v, 0)
    else
      let s := e.natAbs
      let r := (f.roundMag (roundInt md n m s) 0).1
      (f.sign n r, flagIf (x && loses m s) fNX)

/-- `FSCALE` on one element: x times 2^n, rounded once (R243). -/
def fpScale (f : Fmt) (v : Nat) (n : Int) : Nat × Flags :=
  match f.val v with
  | .nan s => (f.nanBits, flagIf s fIV)
  | .inf _ => (v, 0)
  | .fin neg m e =>
    if m = 0 then (v, 0)
    else
      -- beyond these bounds the result no longer depends on n: it overflows, or rounds to zero
      let big : Int := 4 * 2 ^ f.eb
      let k := if big < n then big else if n < -big then -big else n
      let r := f.roundMag m (e + k)
      (f.sign neg r.1, r.2)

/-- A value converted to another format (R120). -/
def fpConv (src dst : Fmt) (x : Nat) : Nat × Flags :=
  let v := src.val x
  let r := dst.round v
  (r.1, r.2 ||| flagIf v.isSnan fIV)

/-- An integer converted to a format (R120). -/
def intToFp (dst : Fmt) (x : Int) : Nat × Flags :=
  let r := dst.roundMag x.natAbs 0
  (dst.sign (x < 0) r.1, r.2)

/-- The bounds of an integer element (R115). -/
def intLo (signed : Bool) (w : Nat) : Int := if signed then -(2 ^ (w - 1) : Int) else 0
/-- The upper bound of an integer element (R115). -/
def intHi (signed : Bool) (w : Nat) : Int := if signed then 2 ^ (w - 1) - 1 else 2 ^ w - 1

/-- A value converted to an integer toward zero, saturating (R120). -/
def fpToInt (src : Fmt) (signed : Bool) (w : Nat) (x : Nat) : Int × Flags :=
  match src.val x with
  | .nan _ => (0, fIV)
  | .inf n => (if n then intLo signed w else intHi signed w, fIV)
  | .fin n m e =>
    let mag := if e < 0 then m / 2 ^ e.natAbs else m * 2 ^ e.toNat
    let frac := if e < 0 then loses m e.natAbs else false
    let r : Int := if n then -(mag : Int) else mag
    if r < intLo signed w then (intLo signed w, fIV)
    else if intHi signed w < r then (intHi signed w, fIV)
    else (r, flagIf frac fNX)

/-- The quotient `n / d` of positive numbers as a magnitude with a sticky bit, exact when it divides. -/
def ratio (n d : Nat) : Nat × Int :=
  let k := 160 + Nat.log2 d
  let q := n * 2 ^ k / d
  if n * 2 ^ k % d = 0 then (q, -(k : Int)) else (2 * q + 1, -(k : Int) - 1)

/-- The integer square root by binary digits from `2^k` down. -/
def isqrtFrom : Nat → Nat → Nat → Nat
  | 0, r, n => if (r + 1) * (r + 1) ≤ n then r + 1 else r
  | k + 1, r, n => isqrtFrom k (if (r + 2 ^ (k + 1)) * (r + 2 ^ (k + 1)) ≤ n then r + 2 ^ (k + 1) else r) n

/-- The integer square root. -/
def isqrt (n : Nat) : Nat := isqrtFrom (Nat.log2 n / 2 + 1) 0 n

/-- The square root of a positive magnitude with a sticky bit. -/
def sqrtMag (m : Nat) (e : Int) : Nat × Int :=
  let m0 := if e % 2 = 0 then m else 2 * m
  let e0 := if e % 2 = 0 then e else e - 1
  let n := m0 * 2 ^ 256
  let r := isqrt n
  let k := e0 / 2 - 128
  if r * r = n then (r, k) else (2 * r + 1, k - 1)

/-- The place value of the last bit of a format at a positive magnitude: its power of two (R132). -/
def Fmt.ulpExp (f : Fmt) (m : Nat) (e : Int) : Int :=
  (if topExp m e < f.emin then f.emin else topExp m e) - f.fb

/-- The bits of a format are a number within `tol.1 * 2^tol.2` of the value `m * 2^e` with a sign. -/
def Fmt.near (f : Fmt) (x : Nat) (neg : Bool) (m : Nat) (e : Int) (tol : Nat × Int) : Bool :=
  match f.val x with
  | .fin n k d =>
    let lo := minExp [.fin n k d, .fin neg m e, .fin false tol.1 tol.2] 0
    decide ((toUnits n k d lo - toUnits neg m e lo).natAbs ≤ tol.1 * 2 ^ (tol.2 - lo).toNat)
  | .inf _ => false
  | .nan _ => false

/-- The reciprocal of a positive magnitude with a sticky bit. -/
def recipMag (m : Nat) (e : Int) : Nat × Int :=
  let r := ratio 1 m
  (r.1, r.2 - e)

end Sys2Proof.Machine
end

