-- ==== Sys2Proof/Machine/Narrow.lean ====
section
/-!
DEFINITION. The narrow family: format registers, decode and encode, scale bytes (R121-R128), and the blocks of a
dot product (R129, R131).
-/
namespace Sys2Proof.Machine

/-- Bits `hi - lo + 1` of a number from bit `lo`. -/
def field (x lo n : Nat) : Nat := x / 2 ^ lo % 2 ^ n

/-- `EB` of a format register (R121). -/
def fmtEb (f : BitVec 16) : Nat := field f.toNat 0 4
/-- `SGN` of a format register (R121). -/
def fmtSgn (f : BitVec 16) : Nat := field f.toNat 4 1
/-- `SPEC` of a format register (R121). -/
def fmtSpec (f : BitVec 16) : Nat := field f.toNat 5 2
/-- `OVF` of a format register (R121). -/
def fmtOvf (f : BitVec 16) : Bool := f.getLsbD 7
/-- `BIAS` of a format register, signed (R121). -/
def fmtBias (f : BitVec 16) : Int := (f.extractLsb' 8 8).toInt
/-- Mantissa bits for a width (R121). -/
def fmtMb (f : BitVec 16) (w : Nat) : Nat := w - fmtSgn f - fmtEb f

/-- The format register is valid for a width (R122). -/
def fmtValid (f : BitVec 16) (w : Nat) : Bool :=
  decide (fmtEb f ≤ 8) && decide (fmtSgn f + fmtEb f ≤ w) && fmtSpec f != 3
    && (fmtSpec f != 1 || decide (2 ≤ fmtEb f)) && (fmtSpec f != 2 || decide (1 ≤ fmtEb f))

/-- The width in bits of a narrow code. -/
def nBits : NWidth → Nat
  | .n8 => 8
  | .n6 => 6
  | .n4 => 4

/-- NarrowDecode of R123. -/
def narrowDecode (x : Nat) (f : BitVec 16) (w : Nat) : Val :=
  let mb := fmtMb f w
  let s := fmtSgn f == 1 && x / 2 ^ (w - 1) % 2 == 1
  let e := field x mb (fmtEb f)
  let m := field x 0 mb
  let emax := 2 ^ fmtEb f - 1
  if fmtSpec f = 1 ∧ e = emax then (if m = 0 then .inf s else .nan false)
  else if fmtSpec f = 2 ∧ e = emax ∧ m = 2 ^ mb - 1 then .nan false
  else if fmtEb f = 0 then .fin s m (-fmtBias f)
  else if e = 0 then .fin s m (1 - fmtBias f - mb)
  else .fin s (2 ^ mb + m) (e - fmtBias f - mb)

/-- The largest finite code, without its sign (R124). -/
def fmtMaxCode (f : BitVec 16) (w : Nat) : Nat :=
  let mb := fmtMb f w
  match fmtSpec f with
  | 1 => (2 ^ fmtEb f - 1) * 2 ^ mb - 1
  | 2 => 2 ^ (fmtEb f + mb) - 2
  | _ => 2 ^ (fmtEb f + mb) - 1

/-- The code of the grid point nearest to a magnitude, ties to the even code, and whether the point differs
from the magnitude; codes continue above the largest finite one (R124). -/
def roundGrid (f : BitVec 16) (w m : Nat) (e : Int) : Nat × Bool :=
  if m = 0 then (0, false)
  else
    let mb := fmtMb f w
    let low : Int := if fmtEb f = 0 then -fmtBias f else 1 - fmtBias f - mb
    let q : Int := if fmtEb f = 0 then low
      else
        let top := topExp m e - mb
        if top < low then low else top
    let up := (q - low).toNat * 2 ^ mb
    if e < q then
      let s := (q - e).toNat
      let c := up + m / 2 ^ s
      let r := 2 * (m % 2 ^ s)
      (if 2 ^ s < r || (r == 2 ^ s && c % 2 == 1) then c + 1 else c, loses m s)
    else (up + m * 2 ^ (e - q).toNat, false)

/-- A code with its sign bit. -/
def fmtCode (f : BitVec 16) (w : Nat) (s : Bool) (c : Nat) : Nat :=
  if s && fmtSgn f == 1 then c + 2 ^ (w - 1) else c

/-- Overflowed of R124. -/
def narrowOver (f : BitVec 16) (w : Nat) (s : Bool) : Nat × Flags :=
  (if fmtOvf f && fmtSpec f == 1 then fmtCode f w s ((2 ^ fmtEb f - 1) * 2 ^ fmtMb f w)
   else if fmtOvf f && fmtSpec f == 2 then 2 ^ (fmtEb f + fmtMb f w) - 1
   else fmtCode f w s (fmtMaxCode f w), fOF ||| fNX)

/-- NarrowEncode of R124: the code and the flags. -/
def narrowEncode (v : Val) (f : BitVec 16) (w : Nat) : Nat × Flags :=
  let mb := fmtMb f w
  match v with
  | .nan sig =>
    if fmtSpec f = 0 ∨ (fmtSpec f = 1 ∧ mb = 0) then (0, fIV)
    else (2 ^ (fmtEb f + mb) - 1, flagIf sig fIV)
  | .inf s =>
    if fmtSgn f = 0 ∧ s = true then (0, fNX)
    else if fmtSpec f = 1 then (fmtCode f w s ((2 ^ fmtEb f - 1) * 2 ^ mb), 0)
    else narrowOver f w s
  | .fin s m e =>
    if fmtSgn f = 0 ∧ s = true then (0, flagIf (m != 0) fNX)
    else
      let r := roundGrid f w m e
      if fmtMaxCode f w < r.1 then narrowOver f w s
      else
        let small := decide (r.1 < (if fmtEb f = 0 then 1 else 2 ^ mb))
        (fmtCode f w s r.1, flagIf r.2 (fNX ||| flagIf small fUF))

/-- The value of a scale byte: `(8 + G) / 8 * 2^(E - 20)` (R126). -/
def scaleVal (b : Nat) : Val := .fin false (8 + b % 8) (field b 3 5 - 23)

/-- A value divided by a scale byte, exactly or with a sticky bit (R127). -/
def unscale (v : Val) (b : Nat) : Val :=
  match v with
  | .nan s => .nan s
  | .inf s => .inf s
  | .fin s m e =>
    if m = 0 then .fin s 0 e
    else
      let r := ratio m (8 + b % 8)
      .fin s r.1 (r.2 + e - (field b 3 5 - 23))

/-- One: the scale where none is named. -/
def Val.one : Val := .fin false 1 0

/-- One block of a dot product: the accumulator and exact products, rounded once to FP32, with its flags
(R129). -/
def dotBlock (acc : Nat) (ps : List (Val × Val)) (s : Val) : Nat × Flags :=
  let prods := ps.map (fun p => mulVal p.1 p.2)
  let scaled := prods.map (fun p => (mulVal p.1 s).1)
  let sum := sumVal (Fmt.f32.val acc :: scaled)
  let r := Fmt.f32.round sum.1
  let iv := sum.2 || prods.any (·.2) || (Fmt.f32.val acc).isSnan || ps.any (fun p => p.1.isSnan || p.2.isSnan)
  (r.1, r.2 ||| flagIf iv fIV)

/-- `DotBlocks` of R129: blocks of 16 terms in ascending order, with the product of the two scales of each. -/
def dotBlocks : Nat → List (List (Val × Val) × Val) → Nat × Flags
  | acc, [] => (acc, 0)
  | acc, (ps, s) :: bs =>
    let r := dotBlock acc ps s
    let t := dotBlocks r.1 bs
    (t.1, r.2 ||| t.2)

/-- One block of INT8 products into INT32 (R131). -/
def intBlock (sat : Bool) (acc : Int) (ps : List (Int × Int)) : Int :=
  let x := acc + ps.foldl (fun t p => t + p.1 * p.2) 0
  if sat then (if x < -(2 ^ 31) then -(2 ^ 31) else if 2 ^ 31 - 1 < x then 2 ^ 31 - 1 else x)
  else (BitVec.ofInt 32 x).toInt

end Sys2Proof.Machine
end

