-- ==== Sys2Proof/Config.lean ====
section
/-!
DEFINITION. What the specification leaves free. Each constant has no body, so nothing in Lean can evaluate it
or prove a value of it; State.fresh is the argument that makes successive values independent. The sizes that
the specification fixes for every module are here too.
-/
namespace Sys2Proof.Config

/-- Which of several agents that can run takes the next step (R29 leaves engines and cores unordered; entry 5). -/
opaque pick : Nat → Nat

/-- The number of datum ticks that pass during a step (entry 6). -/
opaque elapse : Nat → Nat

/-- Whether an L1 copy, a TLB entry or an instruction-cache line has survived replacement (R68, R69, R350;
entry 7). -/
opaque keeps : Nat → Bool

/-- A value that the specification leaves undefined, of 64 bits: applied to a fresh number (entry 8). -/
opaque word : Nat → Word

/-- The bits that a special function delivers for an input that no exact rule of R132 covers, while they lie within its
bound there: function code, format code, input bits (entry 9). -/
opaque sfu : Nat → Nat → Nat → Nat

/-- The byte read from a line under a key other than the one it was written under (R375; entry 10). -/
opaque cipher : Nat → Nat → Byte

/-- Manufacturer code and stepping of the JTAG identification (R385). -/
opaque idcode : BitVec 32

/-- A byte of the signature that the identity key makes with an index over bytes: its seed is not stated (R371;
entry 16). -/
opaque sign : Nat → List Byte → Nat → Byte

/-- A bit shifted out of a scan chain whose contents the specification does not list (R385; entry 8). -/
opaque scan : Nat → Bool

/-- How many bits a scan chain holds beyond those that the specification lists (R385; entry 8). -/
opaque scanLength : Nat → Nat

/-- The fixed hash of a line's physical address that chooses its home slice, before the remainder by 192 (R13;
entry 11). -/
opaque slice : Nat → Nat

/-- The fixed hash of a pool address that chooses its set of page-cache frames (R353; entry 11). -/
opaque set : Nat → Nat

/-- What the device does on its own between steps, which the specification leaves open: evictions, write-backs, the
arrival of posted writes, hardware errors (entry 136). -/
opaque drift : Nat → Nat

/-- The fixed hash that spreads pool and host requests over the ports (R356; entry 11). -/
opaque port : Nat → Nat

/-- The device physical address of a die's trace control block, which the management controller reports (R380). -/
opaque traceBlock : Nat → Nat

/-- Cores of the device: 96 clusters of 8 (R11). -/
def cores : Nat := 768
/-- Clusters of the device (R11). -/
def clusters : Nat := 96
/-- Bytes of scratchpad per core (R60). -/
def scratch : Nat := 2097152
/-- Accumulator tiles per core (R67). -/
def tiles : Nat := 24
/-- Column-rows of a core's vector register file (R325). -/
def rows : Nat := 8192
/-- The age in datum ticks at which L1 copies and translations end (R94, R350). -/
def maxAge : Nat := 2048
/-- Home slices (R13). -/
def slices : Nat := 192
/-- Lines of 64 bytes in an L1 (R11, R68). -/
def l1Lines : Nat := 4096
/-- Lines of 128 bytes in an instruction cache (R11, R69). -/
def icLines : Nat := 1024
/-- Entries of an L1 TLB and of an L2 TLB (R11, R12). -/
def tlbEntries : Nat := 128
/-- Entries of an L2 TLB (R12). -/
def l2Entries : Nat := 4096
/-- Memory requests of a core that can be outstanding (R11). -/
def requests : Nat := 1024
/-- The largest timestamp (R96). -/
def maxTime : Nat := 0x7FFFFFFFFFFFFFFF

end Sys2Proof.Config
end

