-- ==== Sys2Proof/Machine/Map.lean ====
section
/-!
DEFINITION. Sparse tables: association lists with strictly rising keys. A table with a default value lists no
entry equal to it, so equal tables are equal lists.
-/
namespace Sys2Proof.Machine

/-- The entry of a key. -/
def find {α : Type} (k : Nat) : SMap α → Option α
  | [] => none
  | (i, a) :: m => if k = i then some a else find k m

/-- The entry of a key, or the default. -/
def get {α : Type} (d : α) (k : Nat) (m : SMap α) : α := (find k m).getD d

/-- The table with an entry written. -/
def put {α : Type} (k : Nat) (v : α) : SMap α → SMap α
  | [] => [(k, v)]
  | (i, a) :: m => if k < i then (k, v) :: (i, a) :: m else if k = i then (k, v) :: m else (i, a) :: put k v m

/-- The table without a key. -/
def del {α : Type} (k : Nat) : SMap α → SMap α
  | [] => []
  | (i, a) :: m => if k = i then del k m else (i, a) :: del k m

/-- The table with a value written; writing the default removes the entry. -/
def set {α : Type} [DecidableEq α] (d : α) (k : Nat) (v : α) (m : SMap α) : SMap α :=
  if v = d then del k m else put k v m

/-- An entry changed, if it is there. -/
def adjust {α : Type} (k : Nat) (f : α → α) : SMap α → SMap α
  | [] => []
  | (i, a) :: m => if k = i then (i, f a) :: m else (i, a) :: adjust k f m

/-- The keys of a table. -/
def keys {α : Type} (m : SMap α) : List Nat := m.map (·.1)

/-- Every key of the table is above `k`, and the keys rise strictly. -/
def risesFrom {α : Type} (k : Nat) : SMap α → Bool
  | [] => true
  | (i, _) :: m => decide (k < i) && risesFrom i m

/-- The keys of the table rise strictly. -/
def sorted {α : Type} : SMap α → Bool
  | [] => true
  | (i, _) :: m => risesFrom i m

/-- A table with a default value is in canonical form. -/
def canonical {α : Type} [DecidableEq α] (d : α) (m : SMap α) : Bool :=
  sorted m && m.all (fun e => decide (e.2 ≠ d))

/-- An entry put into an arranged list, before the entries that it is not after. -/
def insertBy {α : Type} (le : α → α → Bool) (a : α) : List α → List α
  | [] => [a]
  | b :: l => if le a b then a :: b :: l else b :: insertBy le a l

/-- A list arranged in an order; entries equal in it keep their places. -/
def arrange {α : Type} (le : α → α → Bool) : List α → List α
  | [] => []
  | a :: l => insertBy le a (arrange le l)

/-- A number that no key of the table uses. -/
def freeKey {α : Type} : SMap α → Nat
  | [] => 0
  | (i, _) :: m => Nat.max (i + 1) (freeKey m)

end Sys2Proof.Machine
end

