-- ==== Sys2Proof/Machine/State.lean ====
section
/-!
DEFINITION. The state of the machine, all of it plain data: lanes, groups, teams, cores, contexts, memory with
its clocks, engines, the device, and what watches it. INVENTORY.md lists each piece with its rule and reset.
-/
namespace Sys2Proof.Machine

/-- Fault codes of R183. -/
inductive Kind where
  | none | illegal | clauseFormat | registerRange | invalidHandle | permission | illegalOperand | tileMap
  | layoutRecord | shelfConfig | shelfState | memberMask | tableIndex | scratchRange | bounds | unmapped
  | protection | hostLost | poison | traverseStack | recursionLimit | parcelState | softError | trap | brk
  | userInterrupt
  deriving DecidableEq, Repr

/-- The code of a kind (R183). -/
def Kind.code : Kind → Nat
  | .none => 0x00 | .illegal => 0x01 | .clauseFormat => 0x02 | .registerRange => 0x03
  | .invalidHandle => 0x04 | .permission => 0x05 | .illegalOperand => 0x06 | .tileMap => 0x07
  | .layoutRecord => 0x08 | .shelfConfig => 0x09 | .shelfState => 0x0A | .memberMask => 0x0B
  | .tableIndex => 0x0C | .scratchRange => 0x0D | .bounds => 0x0E | .unmapped => 0x10
  | .protection => 0x11 | .hostLost => 0x12 | .poison => 0x13 | .traverseStack => 0x14
  | .recursionLimit => 0x15 | .parcelState => 0x16 | .softError => 0x17 | .trap => 0x18 | .brk => 0x19
  | .userInterrupt => 0x1A

/-- A fault that an instruction or an engine raises: kind, detail and offending lanes (R183). -/
structure Trap where
  kind : Kind
  detail : Nat
  lanes : Lanes
  deriving DecidableEq, Repr

/-- Privilege levels (R20). -/
inductive Level where
  | user | control | machine
  deriving DecidableEq, Repr

/-- What a lane waits for, beyond its lane state code (R34, R35, R227, R228, R271, R277, R278, R294, R302). -/
inductive Wait where
  /-- At `BARWAIT` b, until the phase differs from the operand (R228). -/
  | barrier (b : Nat) (phase : Bool)
  /-- At `SHACQ` or `SHWAIT` on shelf k, until the operation with this number fires (R277). -/
  | shelf (k ticket : Nat)
  /-- At `WAITA`: condition, type, comparand, destination, key address (R271). -/
  | word (cc : Cc) (ty : Ty) (cmp : Word) (d : Option VReg) (a : Word)
  /-- At `TDWAIT` on a set, with its destination (R294). -/
  | quiet (set : Nat) (d : SReg)
  /-- At `ORDWAIT` (R302). -/
  | order
  /-- At `PRWAIT`, or parked at an access, until lines of a team's share are present (R66, R278). -/
  | lines (team : Nat) (ls : List Nat) (resume : Bool)
  /-- At an access to lines that another operation owns (R100). -/
  | owned (ls : List Nat)
  /-- Asleep until a datum tick (R227). -/
  | sleep (until_ : Nat)
  deriving DecidableEq, Repr

/-- One outstanding long-latency instruction of a group (R207-R209). -/
structure Pend where
  /-- Lanes whose writes are outstanding, and every lane that it was active in. -/
  lanes : Lanes
  all : Lanes
  la : Nat
  /-- Instructions that each lane has issued since. -/
  dist : SMap Nat
  dc : Option (BitVec 3)
  /-- Destination writes by `register * 64 + lane`. -/
  vw : SMap Word
  pw : SMap Bool
  sw : SMap Word
  /-- Destinations that a later instruction has written since (R64). -/
  deadV : SMap Unit
  deadS : SMap Unit
  flags : BitVec 5
  /-- Program calls of R308 by lane: target and link register. -/
  calls : SMap (Word × Nat)
  /-- The group has left the instruction and is to issue it again: what it waits for, lookahead apart. -/
  left_ : Bool
  /-- The instruction's work is done, so that it may complete. -/
  ready : Bool
  /-- The group waits at the instruction: no lane of it leaves the clause before completion (R194, R308). -/
  holds : Bool
  /-- A handle that `LRFREE` has freed: completion waits for every operation that resolved it; and a handle that the
  instruction has resolved (R85). -/
  frees : Option Word
  uses : Option Word
  /-- It holds a memory request of the core in each lane (R11). -/
  reqs : Bool
  deriving DecidableEq, Repr

/-- A ray of the traverse unit (R153-R160, R196, R306). -/
structure Ray where
  org : List Nat
  dir : List Nat
  tmin : Nat
  /-- Current tmax (FP32 bits), status and best hit (R196). -/
  tmax : Nat
  status : Nat
  bestT : Nat
  bestValid : Bool
  prim : Nat
  geom : Nat
  inst : List Nat
  /-- Weights of v1 and v2 of the candidate, FP32 bits (R309). -/
  w1 : Nat
  w2 : Nat
  /-- The candidate a ray stands at: distance, primitive, geometry, instance identifiers (R307). -/
  cand : Option (Nat × Nat × Nat × List Nat)
  committed : Bool
  /-- Node in progress, instance records, level, next child, next triangle (R196). -/
  node : Option Nat
  recs : List Nat
  level : Nat
  child : Nat
  tri : Nat
  /-- Entries of the hardware stack, top first: node address, near bound, level; and the number of older entries in the
  replay area (R157). -/
  stack : List (Nat × Nat × Nat)
  spilled : Nat
  any : Bool
  mask : Nat
  root : Nat
  /-- Programs for a miss and for a hit; 0 for none (R308). -/
  table : Nat × Nat
  dst : Nat
  deriving DecidableEq, Repr

/-- What kind of group this is (R171, R300). -/
inductive Sort_ where
  | normal
  /-- A sweep group: sweep, engine rank, place, continuation, storage index of each lane's parcel. -/
  | sweep (sweep rank place cont : Nat) (parcels : SMap Nat)
  /-- A fragment group: rasteriser operation, place, triangle, pixel of each lane. -/
  | frag (op place tri : Nat) (pix : SMap (Nat × Nat))
  deriving DecidableEq, Repr

/-- The sources of a cross-lane instruction kept for the second half of a 64-lane group: clause header, vector,
predicate and uniform registers, and active lanes of the first half (R251). -/
structure Snap where
  hdr : Word
  v : SMap Word
  p : SMap (BitVec 16)
  s : SMap Word
  act : Lanes
  deriving DecidableEq, Repr

/-- A group (R23, R46). -/
structure Group where
  role : Nat
  width : Nat
  /-- Declared vector count N (R47). -/
  n : Nat
  sort : Sort_
  /-- First lane column and column-rows held (R27). -/
  col : Nat
  rows : Nat
  v : SMap Word
  p : SMap (BitVec 16)
  s : SMap Word
  j : SMap Word
  d : SMap Nat
  pc : SMap Word
  /-- Lane state codes of R55. -/
  st : SMap Nat
  wait : SMap Wait
  /-- By clause header: the member mask that a cross-lane instruction read at the first arrival (R251); the lanes that a
  `JOIN` has let go and that have not executed it (R34). -/
  arrive : SMap Lanes
  /-- Clause header, and body length in words, of each lane that stands at an instruction of a clause (R66). -/
  hdr : SMap (Word × Nat)
  /-- The same for the lanes of the trap frame and of the user-interrupt frame. -/
  trapHdr : SMap (Word × Nat)
  uiHdr : SMap (Word × Nat)
  prio : Nat
  credit : Nat
  flags : BitVec 5
  dmr : Bool
  uien : Bool
  uipend : BitVec 16
  gts : Nat
  trappc : Word
  faultinfo : Word
  faultlanes : Lanes
  level : Level
  /-- Replay-area address set at group start (R48). -/
  s2 : Word
  /-- Arithmetic clock of the last issue, and clocks counted towards aging credit (R30). -/
  issued : Nat
  aged : Nat
  /-- `YIELDH` of the last clause, and the mark of `YIELD`: both for the next selection (R200, R227). -/
  lower : Nat
  passed : Bool
  pend : SMap Pend
  /-- Paths of `BTAB` not yet released, in order: lanes, target, already released (R224). -/
  btab : List (Lanes × Word × Bool)
  /-- Outstanding fences: lanes and scope (R107). -/
  fences : SMap (Lanes × Scope)
  /-- Recursion depth by lane and return address by `lane * 32 + depth` (R308). -/
  depth : SMap Nat
  rets : SMap Word
  rays : SMap Ray
  /-- Program calls due when a lane leaves its clause, target and link register; those of the lanes of the trap frame
  and of the user-interrupt frame (R308). -/
  calls : SMap (Word × Nat)
  trapCalls : SMap (Word × Nat)
  uiCalls : SMap (Word × Nat)
  /-- A pair stack that `OVERFLOW` returned is kept in the record of unit 2 (R164, R306). -/
  kept : Bool
  /-- Helper lanes (R143), lanes that have performed ORDREL (R145). -/
  helper : Lanes
  relDone : Lanes
  /-- Values carried by `PWAIT`: c', kind, WARG (R173, R296). -/
  carry : SMap (Nat × Nat × Nat)
  /-- Sources of a cross-lane instruction kept for the second half of a 64-lane group (R251). -/
  xsrc : Option Snap
  /-- Trace ordinal of the group's recorded accesses (R389). -/
  ordinal : Nat
  /-- A trap that is due: when the second half of a 64-lane group has issued (R251), and every earlier instruction that
  writes registers has completed (R186 step 1): kind, detail, lanes, address. -/
  late : Option (Kind × Nat × Lanes × Word)
  /-- By counter, the grids that have completed while the group lay in a save area (R313, R339). -/
  owed : SMap Nat
  deriving DecidableEq, Repr

/-- Who waits for a shelf operation (R41): a group, the matrix sequencer, or a copy. -/
inductive Who where
  | group (grp : Nat)
  | seq
  | op (id : Nat)
  deriving DecidableEq, Repr

/-- A waiting acquire or take (R41, R277). -/
structure ShelfWant where
  ticket : Nat
  take : Bool
  count : Nat
  who : Who
  /-- Destination uniform register of a group's operation, and the lanes blocked. -/
  d : SReg
  lanes : Lanes
  deriving DecidableEq, Repr

/-- A recorded commit or release, and the copies it still waits for (R72). -/
structure ShelfDue where
  place : Nat
  release : Bool
  count : Nat
  /-- Timestamp that a commit gives its slots at the least; those that the sequencer's commit gives them (R103). -/
  time : Nat
  slots : Option (List Nat)
  /-- The group that recorded it; for a copy's, the group and the outstanding copy that it completes. -/
  grp : Nat
  pend : Option Nat
  /-- The copies of the group that it waits for, by the step of their issue. -/
  ops : List Nat
  deriving DecidableEq, Repr

/-- A shelf register (R70) with its slot timestamps (R103) and its queues (R41, R72). -/
structure Shelf where
  base : Nat
  slotl : Nat
  nslot : Nat
  cfg : Bool
  /-- Pointers ACQ, COM, TAK, REL: index and wrap. -/
  acq : Nat × Bool
  com : Nat × Bool
  tak : Nat × Bool
  rel : Nat × Bool
  phase : BitVec 64
  times : SMap Nat
  /-- Waiting acquires and takes in the order of their places. -/
  wants : List ShelfWant
  /-- Recorded commits and releases not yet in effect, in order. -/
  dues : List ShelfDue
  deriving DecidableEq, Repr

/-- An unconfigured shelf (R46). -/
def Shelf.off : Shelf :=
  { base := 0, slotl := 0, nslot := 0, cfg := false, acq := (0, false), com := (0, false),
    tak := (0, false), rel := (0, false), phase := 0, times := [], wants := [], dues := [] }

/-- A numbered barrier (R228) with its timestamp (R103). -/
structure Bar where
  count : Nat
  expect : Nat
  phase : Bool
  time : Nat
  deriving DecidableEq, Repr

/-- How a unit stands parked (R192, R193). -/
structure Park where
  kind : Kind
  detail : Nat
  va : Word
  /-- Sector whose fill the unit waits for, while `PCWAIT` is 1. -/
  sector : Option Nat
  preempt : Bool
  delivered : Bool
  tick : Nat
  deriving DecidableEq, Repr

/-- States of the matrix sequencer (R198). -/
inductive SeqSt where
  | idle | running | atBarrier | atShelf | parked
  deriving DecidableEq, Repr

/-- The matrix sequencer of a team (R198, R280-R288). -/
structure Seq where
  st : SeqSt
  /-- The state to which a parked sequencer goes back. -/
  back : SeqSt
  /-- Address of the stream instruction in progress, stream start, clause header. -/
  at_ : Word
  start : Word
  hdr : Word
  /-- Clause bytes and the offset of the next instruction in them. -/
  body : List Byte
  pos : Nat
  /-- Loop levels, innermost first: remaining count and body start. -/
  loops : List (Nat × Nat)
  cursor : Nat
  /-- Format registers read at the start, A then B (R125). -/
  fmtA : BitVec 16
  fmtB : BitVec 16
  amax : Nat
  /-- Phase at arrival of `MBAR.SYNC`. -/
  phase : Bool
  barrier : Nat
  ticket : Nat
  grp : Nat
  pend : Option Nat
  /-- The engine operation that owns the lines of a drain to memory. -/
  op : Option Nat
  park : Option Park
  /-- `MSTOP` has been executed while an instruction runs (R281). -/
  stop : Bool
  /-- The instruction in progress has begun, and has read its format registers (R125). -/
  begun : Bool
  read : Bool
  /-- Slots that its maps were resolved to, as share offsets, and the maps it uses (R283, R289). -/
  slotA : Nat
  slotB : Nat
  maps : List Nat
  /-- The bound of its cursor (R195). -/
  bound : Nat
  /-- The drain descriptor as read (R285). -/
  desc : BitVec 256
  /-- Level and ordinal of the `MSTART` (R348, R389). -/
  level : Level
  ord : Nat
  /-- Address of the `MSTART` (R192). -/
  token : Word
  /-- A replay record of the sequencer has `VALID` 1 (R193). -/
  held : Bool
  deriving DecidableEq, Repr

/-- A sequencer that is idle (R46). -/
def Seq.idle : Seq :=
  { st := .idle, back := .idle, at_ := 0, start := 0, hdr := 0, body := [], pos := 0, loops := [], cursor := 0, fmtA := 0,
    fmtB := 0, amax := 0, phase := false, barrier := 0, ticket := 0, grp := 0, pend := none, op := none,
    park := none, stop := false, begun := false, read := false, slotA := 0, slotB := 0, maps := [], bound := 128, desc := 0,
    level := .user, ord := 0, token := 0, held := false }

/-- A team (R23, R56). -/
structure Team where
  grid : Nat
  ctx : Nat
  /-- Core the team occupies; none while it is swapped out (R25, R339). -/
  core : Option Nat
  no : Nat
  gang : Nat
  rank : Nat
  gsize : Nat
  /-- Declared share size and accumulator tiles (R50, R60). -/
  size : Nat
  ntiles : Nat
  scratch : SMap Byte
  /-- Lines of the share that are absent, with the number of copies that cleared each (R65). -/
  absent : SMap Nat
  /-- Line clocks wts and rts (R103); an unlisted line has `base` for both. -/
  clocks : SMap (Nat × Nat)
  base : Nat
  /-- The largest t of the sequencer's writes to each line of the share (R103). -/
  wrote : SMap Nat
  /-- Poisoned 8-byte words of the share (R393). -/
  bad : SMap Unit
  t : SMap (BitVec 256)
  f : SMap (BitVec 16)
  h : SMap Shelf
  bars : SMap Bar
  /-- Accumulator words by `tile * 16384 + 128 * row + column` (R67); one that nothing has written since placement
  is undefined (R46), a free value told apart by `accId`. -/
  acc : SMap W32
  accId : Nat
  /-- Poisoned words of the accumulator, numbered in the same way (R393). -/
  accBad : SMap Unit
  pkten : Bool
  sprio : BitVec 4
  groups : SMap Group
  seq : Seq
  /-- Groups of the launch that have ended (R225). -/
  ended : Nat
  deriving DecidableEq, Repr

/-- A copy of a memory line in a core's L1 (R90, R94, R97). -/
structure Copy where
  data : BitVec 512
  wts : Nat
  rts : Nat
  tick : Nat
  high : Nat
  deriving DecidableEq, Repr

/-- A leaf translation held in a TLB (R347, R350). -/
structure Leaf where
  /-- Physical page address, memory class, permissions, datum of the walk. -/
  pa : Nat
  cls : Nat
  w : Bool
  x : Bool
  u : Bool
  tick : Nat
  deriving DecidableEq, Repr

/-- A non-leaf entry held in a walk cache: location and address of the table that it names, and the datum of the oldest walk
read behind it (R345, R350). -/
structure Mid where
  loc : Nat
  table : Nat
  tick : Nat
  deriving DecidableEq, Repr

/-- A bundle member: team, group and the lanes of its path that are still in the clause (R28, R29). -/
structure Member where
  team : Nat
  grp : Nat
  lanes : Lanes
  deriving DecidableEq, Repr

/-- The clause in issue on a core (R31, R201). -/
structure Issue where
  members : List Member
  hdr : Word
  /-- The clause's instructions, and the offset of the next. -/
  body : List Byte
  pos : Nat
  /-- Encoding version of the code object (R215), and body length in words (R199). -/
  ver : Nat
  bodyw : Nat
  /-- `YIELDH` (R200). -/
  yieldh : Nat
  deriving DecidableEq, Repr

/-- A core (R9, R12). -/
structure Core where
  issue : Option Issue
  l1 : SMap Copy
  tlb : SMap Leaf
  /-- Instruction-cache lines of 128 bytes, by context and line address (R69). -/
  ic : SMap (List Byte)
  /-- The physical lanes whose two copies of the next compared instruction differ, those whose operand registers hold a poisoned
  word for the next instruction, and an uncorrectable error that comes between its checks and its accesses (R37, R393, R394,
  R402). -/
  upset : BitVec 32
  marred : BitVec 32
  struck : Bool
  /-- The high half of a 64-lane group that issues next (R251). -/
  second : Option (Nat × Nat × Word)
  /-- Arithmetic clocks elapsed, the clock in kHz, and the top-down counters (R10, R386). -/
  clocks : Nat
  khz : Nat
  leaves : SMap Nat
  dmrcmp : Nat
  dmrmis : Nat
  dmrunc : Nat
  /-- Clauses issued, for sampling (R380). -/
  sampled : Nat
  deriving DecidableEq, Repr

/-- A 64-byte line at its home slice (R90, R97, R375, R393). -/
structure Line where
  wts : Nat
  rts : Nat
  poison : Bool
  /-- Generation of the key that the line was last written under; 0 is no encryption. -/
  key : Nat
  /-- Sharer cores of a device-sync line, earliest fill first. -/
  sharers : List Nat
  deriving DecidableEq, Repr

/-- What lies below a dirty line: data, key generation, poison (R353, R375, R394). -/
structure Below where
  data : BitVec 512
  key : Nat
  poison : Bool
  deriving DecidableEq, Repr

/-- A copy in progress (R198, R264). -/
structure CopyOp where
  form : Nat
  handle : Word
  /-- The layout record that the handle resolved to; 0 for `CPW`. -/
  record : BitVec 768
  org : List Int
  share : Nat
  mem : Nat
  count : Nat
  row : Nat
  rows : Nat
  shelf : Option Nat
  slot : Option Nat
  /-- Lines of the share whose presence the copy cleared and has not restored. -/
  clears : List Nat
  /-- The order in which copies cleared their lines (R65). -/
  stamp : Nat
  /-- The largest t of the writes to the slot being filled (R103). -/
  time : Nat
  deriving DecidableEq, Repr

/-- The texture instructions of R304, `TEXG` with its channel. -/
inductive TexKind where
  | tex
  | texg (chan : Nat)
  | texl
  | texd
  | tlod
  deriving DecidableEq, Repr

/-- A texture instruction in progress (R198, R304). -/
structure TexOp where
  kind : TexKind
  desc : BitVec 512
  samp : BitVec 256
  lanes : Lanes
  done : Lanes
  quad : Nat
  /-- First source register, and the source registers by `index * 64 + lane`. -/
  a : Nat
  src : SMap Word
  d : Nat
  deriving DecidableEq, Repr

/-- A triangle after snapping and exchange (R135, R136): x, y and z of each vertex, facing, and area A. -/
structure Tri where
  v0 : Int × Int × Nat
  v1 : Int × Int × Nat
  v2 : Int × Int × Nat
  back : Bool
  area : Int
  deriving DecidableEq, Repr

/-- A rasteriser stream in progress (R198, R299, R300). -/
structure RastOp where
  record : BitVec 512
  addr : Word
  frag : Bool
  cullb : Bool
  role : Nat
  area : Nat
  tri : Nat
  /-- The triangle in progress, once it has been set up. -/
  setup : Option Tri
  stage : Nat
  px : Nat
  py : Nat
  appended : Nat
  fixed : Nat
  d : SReg
  /-- Fragment groups resident, by place. -/
  places : SMap Nat
  /-- Quads of the triangle in progress not yet launched: pixel and covered bits. -/
  quads : List (Nat × Nat × Nat)
  /-- The largest timestamp at which a fragment released a pixel, by `py * 2^16 + px` (R145). -/
  rel : SMap Nat
  deriving DecidableEq, Repr

/-- A ray operation in progress (R196, R307). -/
structure RayOp where
  lanes : Lanes
  live : Lanes
  cont : Bool
  packet : Bool
  deriving DecidableEq, Repr

/-- A pair traverse in progress (R162-R164, R197, R310). -/
structure PairOp where
  f : Nat
  g : Nat
  self : Bool
  list : Word
  tag : Nat
  seqno : Nat
  /-- Entries in hardware, top first, and the number of older ones in the replay area (R164). -/
  stack : List (Nat × Nat)
  spilled : Nat
  pending : Option (Nat × Nat)
  /-- The traverse has returned OVERFLOW (R197, R310). -/
  overflowed : Bool
  appended : Nat
  d : SReg
  deriving DecidableEq, Repr

/-- A `CSAVE` or a `CREST` that is not done: which it is, the context slot, and the address of the image (R314). -/
structure SaveOp where
  save : Bool
  slot : Nat
  image : Word
  deriving DecidableEq, Repr

/-- The units that a near-memory command or an `IMGST` reads and writes, as class, backing address and bytes (R98, R99, R274,
R305). -/
structure NearOp where
  into : List (Nat × Nat × Nat)
  /-- The values to write; for `MCOPY` none, and the places that they are read from. -/
  vals : List Nat
  src : List (Nat × Nat × Nat)
  deriving DecidableEq, Repr

/-- What an engine operation does. -/
inductive Body where
  | copy (c : CopyOp)
  | tex (t : TexOp)
  | rast (r : RastOp)
  | ray (r : RayOp)
  | pair (p : PairOp)
  /-- The owned lines of a matrix drain (R98, R285). -/
  | drain
  /-- A near-memory command or an `IMGST` that waits (R99). -/
  | near (n : NearOp)
  /-- `CSAVE` waits for the halt of its context, or `CREST` for the placement of its teams (R314, R341, R342). -/
  | crest (x : SaveOp)
  deriving DecidableEq, Repr

/-- An engine operation (R98-R101, R192, R193). -/
structure Op where
  /-- Its number in the table of operations. -/
  no : Nat
  team : Nat
  grp : Nat
  core : Nat
  ctx : Nat
  level : Level
  /-- Address of the instruction that began it (R192). -/
  token : Word
  pend : Option Nat
  begun : Bool
  /-- The issuing group's pts at issue and the operation's timestamp E, once fixed (R99). -/
  pts : Nat
  e : Option Nat
  /-- Lines requested and not granted; lines owned and not written. -/
  need : List Nat
  own : List Nat
  /-- The E of owned lines that an earlier request was granted, where it differs (R99), and the translations that the
  operation holds (R350). -/
  etimes : SMap Nat
  pages : SMap Leaf
  park : Option Park
  /-- A replay record of the operation has `VALID` 1 (R193). -/
  held : Bool
  /-- Clause header and body length of the instruction that began it, and the lanes of the issuing path. -/
  clause : Word × Nat
  path : Lanes
  /-- The group is to issue that instruction again, and the operation is over before it has (R194, R195). -/
  await : Bool
  spent : Bool
  /-- The ordinal of the instruction that began it (R389). -/
  ord : Nat
  body : Body
  deriving DecidableEq, Repr

/-- Phases of a sweep engine (R198). -/
inductive SweepPhase where
  | build | claim | admission | writeback | barrier1 | barrier2 | barrier3 | done
  deriving DecidableEq, Repr

/-- One sweep engine of a sweep (R170-R178, R198). -/
structure Engine where
  team : Nat
  phase : SweepPhase
  cc : Nat
  /-- Cursor plus 1: storage indices below it have been passed. -/
  cursor : Nat
  /-- Bits claimed and not admitted: word index and bits. -/
  claimed : Nat × Word
  /-- Parcels of the forming group, in lane order, and its continuation-table entry (R169); the groups formed that wait to
  start. -/
  forming : List Nat
  entry : Word
  formed : List (Word × List Nat)
  /-- The build has cleared the rows. -/
  cleared : Bool
  admitted : Nat
  /-- Write-backs by place: group number, next lane, next step (R198). -/
  wb : SMap (Nat × Nat × Nat)
  /-- Sweep groups resident, by place. -/
  places : SMap Nat
  /-- Index of the next parcel of the build, or of the next row word of the rows' clearing or of a barrier step. -/
  next : Nat
  /-- `PASS` (R198). -/
  pass : Nat
  /-- The operation that owns the lines of its write-back (R98). -/
  op : Option Nat
  park : Option Park
  held : Bool
  abandoned : Bool
  deriving DecidableEq, Repr

/-- A running sweep (R170, R295). -/
structure Sweep where
  grid : Nat
  team : Nat
  grp : Nat
  ctx : Nat
  pend : Option Nat
  d : SReg
  token : Word
  handle : Word
  record : BitVec 768
  table : Word
  area : Word
  role : Nat
  mode : SweepMode
  left : Nat
  build : Bool
  passes : Nat
  stop : Bool
  /-- Ended by an abandoned engine record (R182). -/
  broken : Bool
  /-- `NC` of the plat header, `S1`, level and ordinal of the issuing group (R171, R389). -/
  nc : Nat
  s1 : Word
  level : Level
  ord : Nat
  engines : SMap Engine
  deriving DecidableEq, Repr

/-- A role of a kernel header (R321). -/
structure Role where
  entry : Nat
  ngrp : Nat
  vcnt : Nat
  deriving DecidableEq, Repr

/-- The parts of a kernel header that the machine uses after `LAUNCH` (R321). -/
structure Header where
  ver : Nat
  wcode : Nat
  codelen : Nat
  scratch : Nat
  accn : Nat
  z : Nat
  payload : Nat
  recurse : Nat
  uient : Nat
  roles : List Role
  /-- Shelves configured at team start: number, base, slot lines, slots. -/
  shelves : List (Nat × Nat × Nat × Nat)
  deriving DecidableEq, Repr

/-- A grid accepted by `LAUNCH` (R313, R335). -/
structure Grid where
  ctx : Nat
  part : Nat
  /-- The issuing context, team and group, and the dependency counter that the grid's completion lowers. -/
  from_ : Nat
  team : Nat
  grp : Nat
  dc : Option Nat
  /-- The launch record as accepted. -/
  record : BitVec 1024
  code : Word
  hdr : Header
  teams : Nat
  next : Nat
  gangs : Nat
  /-- Teams placed and not ended. -/
  live : Nat
  queued : Bool
  deriving DecidableEq, Repr

/-- States of a context slot (R331). -/
inductive CtxSt where
  | free | idle | running | shadowed | spilled | halted
  deriving DecidableEq, Repr

/-- A context slot (R332, R57). -/
structure Ctx where
  st : CtxSt
  light : Bool
  ctrl : Bool
  prio : Nat
  quant : Nat
  part : Nat
  ptroot : Word
  savea : Word
  bindt : Word
  gen : BitVec 16
  tvec : Word
  area : BitVec 32
  lease : BitVec 32
  err : Option (Nat × Nat × Nat × Nat × Word)
  /-- Work-list set counts and the sets for which quiescence is not reported (R42, R290). -/
  counts : SMap Nat
  busy : SMap Unit
  /-- Items of the lists of each set published and not taken: the sum of `PUB` - `GET` (R294). -/
  avail : SMap Nat
  /-- Tenant key pair: its generation (R374). -/
  key : Option Nat
  deriving DecidableEq, Repr

/-- A partition (R331, R333, R337). -/
structure Part where
  clusters : List Nat
  running : Option Nat
  next : Option Nat
  /-- Datum at which the running context began its quantum. -/
  began : Nat
  /-- A pre-emption in progress: the halt is complete or not. -/
  halting : Bool
  swapping : Bool
  deciding : Bool
  halted : Bool
  /-- The distributor waits for a team of the partition to leave (R39). -/
  waits : Bool
  deriving DecidableEq, Repr

/-- A waiter of the wait-and-wake table (R271, R175, R360). -/
inductive Waiter where
  /-- Lanes of a group. -/
  | lanes (team grp : Nat) (ls : Lanes)
  /-- A parcel in kind 2 or kind 3: sweep-independent, by context, handle record and index. -/
  | parcel (record : BitVec 768) (index : Nat) (kind : Nat)
  /-- A host-wait entry. -/
  | host (port : Nat) (entry : Nat)
  deriving DecidableEq, Repr

/-- One registration: context, key address, waiter, and whether it is on the retry list (R272). -/
structure Reg_ where
  ctx : Nat
  key : Word
  who : Waiter
  retry : Bool
  woken : Bool
  deriving DecidableEq, Repr

/-- A port (R356, R357, R361). -/
structure Port where
  up : Bool
  window : Bool
  hts : Nat
  /-- Posted writes of host-posted pages on their way to the host, oldest first: address, bytes, value (R106, R107). -/
  posted : List (Nat × Nat × Nat)
  /-- The answer to the port's last host read or write: its data, or none for completer abort (R357, R359). -/
  reply : Option (BitVec 512)
  deriving DecidableEq, Repr

/-- A page-cache frame: the sectors present, and the number of the step that last used it (R353). Dirty bits are the lines of
`State.frameOld`; a frame is pinned by the parked units and fills that the state holds. -/
structure Frame where
  present : BitVec 16
  used : Nat
  deriving DecidableEq, Repr

/-- A page-cache fill that is issued: its sector, whether a unit has missed it or it is predicted, and the sectors demanded in
its batch (R355). -/
structure Fill where
  sector : Nat
  demand : Bool
  batch : List Nat
  deriving DecidableEq, Repr

/-- A trace control block as the die last read it, with the datum of that read and of the snapshot due (R380, R388). -/
structure Trace where
  en : Bool
  wrap : Bool
  kmask : Nat
  sample : Nat
  bufb : Nat
  bufs : Nat
  wptr : Nat
  lost : Nat
  snap : Bool
  snapb : Nat
  rrmode : Nat
  rrctx : Nat
  rrlog : Nat
  rrlogs : Nat
  rrptr : Nat
  rrst : Nat
  rrstb : Nat
  read : Nat
  snapTick : Nat
  deriving DecidableEq, Repr

/-- A stream's last datum, records lost since, whether it has written a record, and the sixteenth of the buffer
in which it last wrote (R382, R383). -/
structure Stream where
  last : Nat
  lost : Nat
  begun : Bool
  part : Nat
  deriving DecidableEq, Repr

/-- Recording state of a line or chunk (R389): last store and readers, as (team, group, ordinal, t). -/
structure Recorded where
  store : Option (Nat × Nat × Nat × Nat)
  readers : List (Nat × Nat × Nat × Nat)
  deriving DecidableEq, Repr

/-- How far the device has started (R366-R369). -/
inductive Service where
  /-- Power has not been applied, or the module stays off (R398). -/
  | off
  /-- A start is in progress. -/
  | starting
  /-- Reduced service (R369). -/
  | reduced
  | normal
  /-- A start failed (R368), or the boot ROM stops (R365). -/
  | failed (step : Nat)
  deriving DecidableEq, Repr

/-- The device as a whole (R352, R364-R401). -/
structure Device where
  datum : Nat
  stopat : Nat
  stopped : Bool
  halted : Bool
  service : Service
  starts : Nat
  recovery : Bool
  warm : Bool
  svn : Nat
  deadline : Nat
  /-- GDDR 7 training and the rest of self-test are complete (R369). -/
  trained : Bool
  tested : Bool
  fuses : SMap Word
  latched : SMap Word
  m : SMap (BitVec 256)
  identity : Bool
  nextIndex : Nat
  armed : Option (BitVec 512)
  jtag : Bool
  chain : Nat
  shifted : List Bool
  /-- Platform key generation and the last generation drawn (R374). -/
  platform : Nat
  keygen : Nat
  /-- Key generations that have been erased. -/
  erased : SMap Unit
  config : BitVec 512
  /-- The partition configuration and the control contexts of the last start complete (R366 step 8, R369). -/
  plan : List (List Nat)
  controls : List ControlIn
  /-- Device address of the context table, once firmware has placed it (R332). -/
  ctxTable : Option Nat
  /-- Launches are refused after a timestamp ran out (R96). -/
  exhausted : Bool
  /-- The count of `DEVBEAT`, and the datum of `DEVTICK` (R361). -/
  devbeat : Nat
  /-- Datum of the last heartbeat, `HOSTBEAT` as last read, and the reads since that returned the same (R361). -/
  beat : Nat
  hostbeat : Word
  same : Nat
  fenced : Bool
  recovered : Nat
  watts : Nat
  pwrover : Bool
  throttle : Nat
  sensors : Option Sensors
  deep : Bool
  deepTick : Nat
  ignored : Nat
  badBlocks : Nat
  /-- Error log, newest first (R395). -/
  log : List (BitVec 256)
  alarms : List (Nat × Nat × Nat)
  reports : List (List Byte)
  deriving DecidableEq, Repr

/-- What takes the next step (entry 5). -/
inductive Turn where
  | core (c : Nat)
  | seq (team : Nat)
  | inner
  deriving DecidableEq, Repr

/-- The whole state of the machine. -/
structure State where
  /-- Bytes of the three backings: device, pool and host memory (R87, R347). -/
  mem : List Host.Cell
  lines : SMap Line
  /-- The floor `mts` of each home slice (R90). -/
  floors : SMap Nat
  /-- Lines that differ from the level below them: what that level holds of a line dirty in its home slice, and what the pool
  holds of a line dirty in its page-cache frame (R353). -/
  homeOld : SMap Below
  frameOld : SMap Below
  /-- The L2 TLB and the walk cache of each cluster (R12, R350). -/
  l2 : SMap (SMap Leaf)
  mids : SMap (SMap Mid)
  cores : SMap Core
  teams : SMap Team
  ops : SMap Op
  sweeps : SMap Sweep
  grids : SMap Grid
  ctxs : SMap Ctx
  parts : SMap Part
  regs : List Reg_
  ports : SMap Port
  /-- Page-cache frames by region of 64 KiB (R353). -/
  frames : SMap Frame
  /-- Open coalescer batch of each die: datum of its first miss, and sectors demanded, oldest first (R355). -/
  batches : SMap (Nat × List Nat)
  /-- Fills that are issued, in order (R355). -/
  fills : List Fill
  traces : SMap Trace
  streams : SMap Stream
  recorded : SMap Recorded
  /-- Pairs logged by a group from a writer group: largest writer ordinal (R390). -/
  writers : SMap (SMap Nat)
  dev : Device
  agenda : List Instr
  /-- Requests of the host and the pool that wait for a line, in order of arrival (R100, R104, R105). -/
  waiting : List Instr
  turn : Turn
  fresh : Nat
  deriving DecidableEq, Repr

/-- Why a step faults. -/
inductive Fault where
  /-- Raised by step when the device has halted (R187, R362, R376) or is off, and nothing from outside is due:
  it takes no further step of its own. Safe: the hardware does nothing either. -/
  | deviceHalted
  deriving DecidableEq, Repr

/-- Why a step is refused. -/
inductive Refusal where
  /-- Raised by exec for an instruction without a meaning. Safe: it allows nothing. -/
  | notModelled (mnemonic : String)
  deriving DecidableEq, Repr

/-- A device that has not been started (entries 2, 3). -/
def Device.reset : Device :=
  { datum := 0, stopat := 0, stopped := false, halted := false, service := .off, starts := 0,
    recovery := false, warm := false, svn := 0, deadline := 0, trained := false, tested := false,
    fuses := [], latched := [], m := [], identity := false, nextIndex := 0, armed := none, jtag := false,
    chain := 0, shifted := [], platform := 0, keygen := 0, erased := [], config := 0, plan := [], controls := [], ctxTable := none,
    exhausted := false, devbeat := 0, beat := 0, hostbeat := 0, same := 0, fenced := false, recovered := 0, watts := 1200,
    pwrover := false, throttle := 0, sensors := none, deep := false, deepTick := 0, ignored := 0,
    badBlocks := 0, log := [], alarms := [], reports := [] }

/-- The machine as power finds it: memory lists nothing, no context, no team, the start not begun (entry 3). -/
def State.reset : State :=
  { mem := [], lines := [], floors := [], homeOld := [], frameOld := [], l2 := [], mids := [], cores := [], teams := [], ops := [], sweeps := [], grids := [], ctxs := [],
    parts := [], regs := [], ports := [], frames := [], batches := [], fills := [], traces := [], streams := [],
    recorded := [], writers := [], dev := .reset, agenda := [], waiting := [], turn := .inner, fresh := 0 }

/-- A context slot that is free (R331). -/
def Ctx.free : Ctx :=
  { st := .free, light := false, ctrl := false, prio := 0, quant := 0, part := 0, ptroot := 0, savea := 0,
    bindt := 0, gen := 0, tvec := 0, area := 0x100, lease := 0x400, err := none, counts := [], busy := [], avail := [],
    key := none }

/-- A core with nothing on it, at the clock of normal service (R10). -/
def Core.empty : Core :=
  { issue := none, l1 := [], tlb := [], ic := [], second := none, clocks := 0, khz := 1400000, leaves := [],
    dmrcmp := 0, dmrmis := 0, dmrunc := 0, sampled := 0, upset := 0, marred := 0, struck := false }

/-- A barrier as a team starts with it (R228). -/
def Bar.start (time : Nat) : Bar := { count := 0, expect := 0, phase := false, time := time }

/-- A port that is down (R356). -/
def Port.down : Port := { up := false, window := false, hts := 0, posted := [], reply := none }

/-- A line with both clocks at the floor (R90). -/
def Line.at (mts : Nat) : Line := { wts := mts, rts := mts, poison := false, key := 0, sharers := [] }

/-- A trace control block of zeros (R380). -/
def Trace.zero : Trace :=
  { en := false, wrap := false, kmask := 0, sample := 0, bufb := 0, bufs := 0, wptr := 0, lost := 0,
    snap := false, snapb := 0, rrmode := 0, rrctx := 0, rrlog := 0, rrlogs := 0, rrptr := 0, rrst := 0,
    rrstb := 0, read := 0, snapTick := 0 }

/-- A group as R46 gives it at its start, with nothing launched. -/
def Group.zero : Group :=
  { role := 0, width := 8, n := 0, sort := .normal, col := 0, rows := 0, v := [], p := [], s := [], j := [],
    d := [], pc := [], st := [], wait := [], arrive := [], hdr := [], trapHdr := [], uiHdr := [], prio := 0,
    credit := 0, flags := 0, dmr := false, uien := false, uipend := 0, gts := 0, trappc := 0, faultinfo := 0,
    faultlanes := 0, level := .user, s2 := 0, issued := 0, aged := 0, lower := 0, passed := false, pend := [],
    btab := [], fences := [], depth := [], rets := [], rays := [], calls := [], trapCalls := [], uiCalls := [], kept := false, helper := 0, relDone := 0, carry := [],
    xsrc := none, ordinal := 0, late := none, owed := [] }

/-- A team that holds nothing. -/
def Team.zero : Team :=
  { grid := 0, ctx := 0, core := none, no := 0, gang := 0, rank := 0, gsize := 1, size := 0, ntiles := 0,
    scratch := [], absent := [], clocks := [], base := 0, wrote := [], bad := [], t := [], f := [], h := [], bars := [],
    acc := [], accId := 0, accBad := [], pkten := true, sprio := 8, groups := [], seq := .idle, ended := 0 }

end Sys2Proof.Machine
end

