-- ==== Sys2Proof/Machine/Access.lean ====
section
/-!
DEFINITION. Reading and changing the parts of the state: bytes, teams, groups, cores, and the register file with
the hard-wired registers of R48. Every access to a register goes through here.
-/
namespace Sys2Proof.Machine

/-- The numbers of the lanes in a mask, ascending (R34). -/
def lanesOf (m : Lanes) : List Nat := (List.range 64).filter (fun i => m.getLsbD i)

/-- The mask with one lane. -/
def laneBit (i : Nat) : Lanes := BitVec.ofNat 64 (2 ^ i)

/-- The mask of lanes for which a condition holds. -/
def maskOf (p : Nat → Bool) : Lanes :=
  (List.range 64).foldl (fun m i => if p i then m ||| laneBit i else m) 0

/-- The mask of the lowest `w` lanes. -/
def lowMask (w : Nat) : Lanes := BitVec.ofNat 64 (2 ^ w - 1)

/-- The lowest lane of a mask; 0 for none. -/
def lowest (m : Lanes) : Nat := (lanesOf m).headD 0

/-- The number of lanes in a mask. -/
def countLanes (m : Lanes) : Nat := (lanesOf m).length

/-- Little-endian bytes of a sparse memory, as a number (R3). -/
def readN (m : SMap Byte) (a : Nat) : Nat → Nat
  | 0 => 0
  | n + 1 => (get 0 a m).toNat + 256 * readN m (a + 1) n

/-- Little-endian bytes written to a sparse memory; a byte of 0 is not listed (entry 1). -/
def writeN (m : SMap Byte) (a : Nat) : Nat → Nat → SMap Byte
  | 0, _ => m
  | n + 1, v => writeN (set 0 a (BitVec.ofNat 8 v) m) (a + 1) n (v / 256)

/-- The canonical form of a memory: addresses rise strictly, and no byte equal to what an unlisted one reads as. -/
def Memory.wf (m : SMap Byte) : Bool := canonical 0 m

/-- The team with an identity. -/
def State.team (s : State) (t : Nat) : Team := get Team.zero t s.teams
/-- The group of a team. -/
def Team.group (t : Team) (g : Nat) : Group := get Group.zero g t.groups
/-- The group of a team by identity. -/
def State.group (s : State) (t g : Nat) : Group := (s.team t).group g
/-- The group of a team is there. -/
def State.has (s : State) (t k : Nat) : Bool := (find t s.teams).isSome && (find k (s.team t).groups).isSome
/-- A core; one that nothing has touched holds nothing. -/
def State.core (s : State) (c : Nat) : Core := get Core.empty c s.cores
/-- A context slot (R331). -/
def State.ctx (s : State) (c : Nat) : Ctx := get Ctx.free c s.ctxs

/-- A team changed. -/
def State.onTeam (s : State) (t : Nat) (f : Team → Team) : State := { s with teams := adjust t f s.teams }
/-- A group changed. -/
def Team.onGroup (t : Team) (g : Nat) (f : Group → Group) : Team := { t with groups := adjust g f t.groups }
/-- A group changed, by identity. -/
def State.onGroup (s : State) (t g : Nat) (f : Group → Group) : State := s.onTeam t (fun x => x.onGroup g f)
/-- A core changed. -/
def State.onCore (s : State) (c : Nat) (f : Core → Core) : State :=
  { s with cores := put c (f (s.core c)) s.cores }
/-- A context changed. -/
def State.onCtx (s : State) (c : Nat) (f : Ctx → Ctx) : State := { s with ctxs := put c (f (s.ctx c)) s.ctxs }
/-- The device changed. -/
def State.onDev (s : State) (f : Device → Device) : State := { s with dev := f s.dev }
/-- An engine operation changed. -/
def State.onOp (s : State) (o : Nat) (f : Op → Op) : State := { s with ops := adjust o f s.ops }

/-- The number of the `k`-th free value that a step uses: no two steps and no two places in a step share one (entry 4). -/
def State.free (s : State) (k : Nat) : Nat := s.fresh * 2 ^ 24 + k

/-- The context that a team belongs to. -/
def State.ctxOf (s : State) (t : Nat) : Nat := (s.team t).ctx

/-- A vector register of a lane (R46). -/
def Group.vreg (g : Group) (r lane : Nat) : Word := get 0 (r * 64 + lane) g.v

/-- A predicate register of a lane; `P15` reads true (R48). -/
def Group.preg (g : Group) (p lane : Nat) : Bool := p == 15 || (get 0 lane g.p).getLsbD p

/-- A uniform register; `S0` reads zero, `S2` the address of the replay area (R48). -/
def Group.sreg (g : Group) (r : Nat) : Word := if r = 0 then 0 else if r = 2 then g.s2 else get 0 r g.s

/-- A join-mask register (R34). -/
def Group.jreg (g : Group) (k : Nat) : Lanes := get 0 k g.j

/-- A dependency counter (R46). -/
def Group.dreg (g : Group) (k : Nat) : Nat := get 0 k g.d

/-- A source register in a lane; a uniform register is broadcast (R51). -/
def Group.reg (g : Group) (r : Reg) (lane : Nat) : Word :=
  match r with
  | .v n => g.vreg n.toNat lane
  | .s n => g.sreg n.toNat

/-- Key of a predicate among the destinations of an outstanding instruction. -/
def predKey (p lane : Nat) : Nat := (640 + p) * 64 + lane

/-- A later write to a lane's register: the outstanding instructions that have the register as a destination no
longer write it (R64). -/
def Pend.kill (key : Nat) (p : Pend) : Pend :=
  if (find key p.vw).isSome || (find (key - 640 * 64) p.pw).isSome && decide (640 * 64 ≤ key)
  then { p with deadV := put key () p.deadV } else p

/-- The same for a uniform register. -/
def Pend.killS (r : Nat) (p : Pend) : Pend :=
  if (find r p.sw).isSome then { p with deadS := put r () p.deadS } else p

/-- Every outstanding instruction of a group changed. -/
def Group.mapPend (g : Group) (f : Pend → Pend) : Group := { g with pend := g.pend.map (fun e => (e.1, f e.2)) }

/-- A vector register written, with nothing else changed. -/
def Group.putV (g : Group) (r lane : Nat) (x : Word) : Group := { g with v := set 0 (r * 64 + lane) x g.v }

/-- A predicate written, with nothing else changed; `P15` ignores writes (R48). -/
def Group.putP (g : Group) (p lane : Nat) (x : Bool) : Group :=
  if p = 15 then g
  else
    let old := get 0 lane g.p
    let bit := BitVec.ofNat 16 (2 ^ p)
    { g with p := set 0 lane (if x then old ||| bit else old &&& ~~~bit) g.p }

/-- A uniform register written, with nothing else changed; `S0` and `S2` ignore writes (R48). -/
def Group.putS (g : Group) (r : Nat) (x : Word) : Group :=
  if r = 0 ∨ r = 2 then g else { g with s := set 0 r x g.s }

/-- A lane's vector register written in program order (R64). -/
def Group.setV (g : Group) (r lane : Nat) (x : Word) : Group :=
  (g.mapPend (Pend.kill (r * 64 + lane))).putV r lane x

/-- A lane's predicate written in program order. -/
def Group.setP (g : Group) (p lane : Nat) (x : Bool) : Group :=
  (g.mapPend (Pend.kill (predKey p lane))).putP p lane x

/-- A uniform register written in program order. -/
def Group.setS (g : Group) (r : Nat) (x : Word) : Group := (g.mapPend (Pend.killS r)).putS r x

/-- A join-mask register written. -/
def Group.setJ (g : Group) (k : Nat) (x : Lanes) : Group := { g with j := set 0 k x g.j }

/-- A dependency counter raised or lowered; none goes below zero (R49). -/
def Group.setD (g : Group) (k n : Nat) : Group := { g with d := set 0 k n g.d }

/-- A vector register written in each lane of a mask. -/
def Group.setVs (g : Group) (r : Nat) (m : Lanes) (f : Nat → Word) : Group :=
  (lanesOf m).foldl (fun g i => g.setV r i (f i)) g

/-- A predicate written in each lane of a mask. -/
def Group.setPs (g : Group) (p : Nat) (m : Lanes) (f : Nat → Bool) : Group :=
  (lanesOf m).foldl (fun g i => g.setP p i (f i)) g

/-- Flags gathered into `FLAGS` (R58, R118). -/
def Group.raise (g : Group) (f : Flags) : Group := { g with flags := g.flags ||| f }

/-- The state code of a lane (R55). -/
def Group.state (g : Group) (lane : Nat) : Nat := get 0 lane g.st

/-- Lane state, waits and clause header of a lane set. -/
def Group.setState (g : Group) (lane code : Nat) : Group := { g with st := set 0 lane code g.st }

/-- The program counter of a lane. -/
def Group.lanePc (g : Group) (lane : Nat) : Word := get 0 lane g.pc

/-- The program counter of a lane set. -/
def Group.setPc (g : Group) (lane : Nat) (x : Word) : Group := { g with pc := set 0 lane x g.pc }

/-- The lanes launched: every lane not in state 0 (R55). -/
def Group.launched (g : Group) : Lanes := maskOf (fun i => g.state i != 0)
/-- The lanes launched and not exited (R226). -/
def Group.live (g : Group) : Lanes := maskOf (fun i => g.state i != 0 && g.state i != 2)
/-- The lanes in a state. -/
def Group.inState (g : Group) (code : Nat) : Lanes := maskOf (fun i => g.state i == code)

/-- The width code of a group (R58). -/
def widthCode (w : Nat) : Nat := if w = 8 then 0 else if w = 16 then 1 else if w = 32 then 2 else 3

/-- Each lane of a mask placed at a header in lane state 1, with no wait and no memory of a clause. -/
def Group.goTo (g : Group) (m : Lanes) (f : Nat → Word) : Group :=
  (lanesOf m).foldl (fun g i =>
    { (g.setPc i (f i)).setState i 1 with wait := del i g.wait, hdr := del i g.hdr }) g

/-- Each lane of a mask standing at an instruction of a clause in a lane state, with what it waits for. -/
def Group.standAt (g : Group) (m : Lanes) (code : Nat) (pc : Word) (hdr : Word × Nat) (w : Option Wait) : Group :=
  (lanesOf m).foldl (fun g i =>
    { (g.setPc i pc).setState i code with
      hdr := put i hdr g.hdr
      wait := match w with
        | some x => put i x g.wait
        | none => del i g.wait }) g

end Sys2Proof.Machine
end

