-- ==== Sys2Proof/Machine/Memory.lean ====
section
/-!
DEFINITION. Memory: backings and keys (R87, R375), translation (R345-R350), lease timestamps and L1 copies
(R90-R97), the scratchpad share with its clocks (R60-R66, R103), poison (R394), and the recording of accesses
(R389, R390).
-/
namespace Sys2Proof.Machine

/-- For whom an access is made: context, core, issuing group and its level (R348). -/
structure Agent where
  core : Nat
  ctx : Nat
  team : Nat
  grp : Nat
  level : Level
  /-- The ordinal of an engine operation's instruction; none for the group's own access (R389). -/
  ord : Option Nat := none
  /-- The engine operation that makes the access, if one does: it holds its translations (R350). -/
  op : Option Nat := none
  deriving DecidableEq, Repr

/-- Addresses of a backing start at `space * 2^60`: 0 device, 1 pool, 2 host. -/
def backing (space a : Nat) : Nat := space * 2 ^ 60 + a

/-- The backing of a memory class (R347). -/
def classSpace (cls : Nat) : Nat := cls / 2

/-- The class takes part in the order of R88. -/
def ordered (cls : Nat) : Bool := cls != 3 && cls != 5

/-- Bytes of device memory: `DEVGIB` (R352). -/
def State.devBytes (s : State) : Nat := (s.dev.config.extractLsb' 0 8).toNat * 2 ^ 30
/-- Bytes of the allotment: `ALLOTS` (R352). -/
def State.allotBytes (s : State) : Nat := (s.dev.config.extractLsb' 128 32).toNat * 2 ^ 30

/-- The number of the 64-byte line of a backing address. -/
def lineNo (a : Nat) : Nat := a / 64

/-- The home slice of a line (R13). -/
def sliceOf (l : Nat) : Nat := Config.slice l % Config.slices

/-- The floor `mts` of a line's home slice (R90). -/
def State.floor (s : State) (l : Nat) : Nat := get 0 (sliceOf l) s.floors

/-- The state of a line (R90). -/
def State.line (s : State) (l : Nat) : Line := get (Line.at (s.floor l)) l s.lines
/-- A line's state written. -/
def State.setLine (s : State) (l : Nat) (x : Line) : State :=
  { s with lines := set (Line.at (s.floor l)) l x s.lines }

/-- The number of one of the things that may or may not have survived: a kind of cache and a key (R68, R69, R350;
entry 7). -/
def State.survives (s : State) (kind key : Nat) : Bool := Config.keeps ((s.fresh * 8 + kind) * 2 ^ 90 + key)

/-- A cache with no more entries than it holds: which one goes is not stated (R11, R12; entry 7). -/
def trimTo {α : Type} (n k : Nat) (m : SMap α) : SMap α :=
  if m.length ≤ n then m else m.eraseIdx (Config.pick k % m.length)

/-- The key generation of a context's accesses: the slot's key, or the platform key for a control context
(R375). -/
def State.keyOf (s : State) (c : Nat) : Nat :=
  if (s.ctx c).ctrl then s.dev.platform else (s.ctx c).key.getD 0

/-- Bytes as an access under a key reads them, and whether they are delivered as poison (R375). -/
def State.readKey (s : State) (key a n : Nat) : Nat × Bool :=
  let k := (s.line (lineNo a)).key
  if k = 0 ∨ k = key ∨ 2 ^ 61 ≤ a then (readN s.mem a n, false)
  else if (find k s.dev.erased).isSome then (0, true)
  else ((List.range n).foldr (fun i x => (Config.cipher (a + i) s.fresh).toNat + 256 * x) 0, false)

/-- The memory with a line's bytes as an access under another key finds them (R375; entry 10). -/
def State.rekey (s : State) (key l : Nat) : State :=
  let x := s.line l
  if 2 ^ 61 ≤ l * 64 ∨ x.key = key then s
  else
    let s := if x.key = 0 then s else { s with mem := writeN s.mem (l * 64) 64 (s.readKey key (l * 64) 64).1 }
    s.setLine l { x with key := key }

/-- A line of the pool. -/
def poolLine (l : Nat) : Bool := decide (2 ^ 54 ≤ l) && decide (l < 2 ^ 55)

/-- What a line holds, as the level below its home slice would keep it. -/
def State.below (s : State) (l : Nat) : Below :=
  { data := BitVec.ofNat 512 (readN s.mem (l * 64) 64), key := (s.line l).key, poison := (s.line l).poison }

/-- A pool line that is about to change in its home slice is dirty from then on (R353). -/
def State.soil (s : State) (l : Nat) : State :=
  if poolLine l && (find l s.homeOld).isNone then { s with homeOld := put l (s.below l) s.homeOld } else s

/-- Bytes written within one line under a key, at whatever level holds it; a whole line written clears its poison
(R394). -/
def State.plainWrite (s : State) (key a n v : Nat) : State :=
  let s := s.rekey key (lineNo a)
  let s := { s with mem := writeN s.mem a n v }
  if n = 64 then s.setLine (lineNo a) { s.line (lineNo a) with poison := false } else s

/-- Bytes written within one line under a key at its home slice (R353, R394). -/
def State.writeKey (s : State) (key a n v : Nat) : State := (s.soil (lineNo a)).plainWrite key a n v

/-- The line is poisoned for an access under a key (R375, R394). -/
def State.poisoned (s : State) (key l : Nat) : Bool := (s.line l).poison || (s.readKey key (l * 64) 1).2

/-- Device memory that reduced service holds accesses from, until GDDR 7 training ends (R369). -/
def State.untrained (s : State) (l : Nat) : Bool :=
  s.dev.service == .reduced && !s.dev.trained && decide (l < 2 ^ 54)

/-- A line is held from an access: an engine operation owns it and has not written it (R98-R100), or its memory is not
there yet. -/
def State.ownedBut (s : State) (o : Option Nat) (l : Nat) : Bool :=
  s.untrained l ||
  s.ops.any (fun e => (some e.1 != o) && e.2.own.contains l)

/-- A line that some operation owns and has not written. -/
def State.owned (s : State) (l : Nat) : Bool := s.ownedBut none l

/-- The lease length in effect (R95). -/
def State.lease (s : State) (c : Nat) : Nat := Nat.min (s.ctx c).lease.toNat 4096

/-- The timestamp of a group (R90). -/
def State.pts (s : State) (a : Agent) : Nat := (s.group a.team a.grp).gts
/-- A group's timestamp raised; it never decreases (R93). -/
def State.raisePts (s : State) (a : Agent) (t : Nat) : State :=
  s.onGroup a.team a.grp (fun g => { g with gts := Nat.max g.gts t })

/-- A record of the error log: severity, structure, unit, context slot, location and datum; one occurrence (R395). -/
def errorRecord (sev struct unit ctx loc tick : Nat) : BitVec 256 :=
  BitVec.ofNat 256 (sev % 4 + struct % 256 * 2 ^ 8 + unit % 2 ^ 16 * 2 ^ 16 + ctx % 1024 * 2 ^ 32 + loc % 2 ^ 64 * 2 ^ 64
    + tick % 2 ^ 64 * 2 ^ 128 + 2 ^ 192)

/-- The log keeps 4,096 records; the oldest goes first (R395). -/
def Device.logError (d : Device) (r : BitVec 256) : Device := { d with log := (r :: d.log).take 4096 }

/-- An error is logged now, with severity, structure, unit, context slot and location (R395). -/
def State.logEvent (s : State) (sev struct unit ctx loc : Nat) : State :=
  s.onDev (fun d => d.logError (errorRecord sev struct unit ctx loc d.datum))

/-- An event of a context or partition is logged with severity 2. The specification gives it no structure, unit or
location: those are free values (entry 8). -/
def State.logHalt (s : State) (ctx : Nat) : State :=
  let w := (Config.word (s.free (2 ^ 20))).toNat
  s.onDev (fun d => d.logError (errorRecord 2 w (w / 2 ^ 8) ctx (Config.word (s.free (2 ^ 20 + 1))).toNat d.datum))

/-- A timestamp beyond the last: every partition halts as for pre-emption, a Timestamp-Exhausted error is reported, and
`LAUNCH` is refused until a warm start (R96). -/
def State.checkTime (s : State) (t : Nat) : State :=
  if Config.maxTime < t ∧ s.dev.exhausted = false then
    { (s.logHalt 0x3FF).onDev (fun d => { d with exhausted := true }) with
      parts := s.parts.map (fun e => (e.1, { e.2 with halting := true, halted := true })) }
  else s

/-- The port that carries an access to a backing address, if any trained (R356; entry 11). -/
def State.portOf (s : State) (a : Nat) : Option Nat :=
  let ps := keys s.ports
  if ps.isEmpty then none else ps[Config.port (lineNo a) % ps.length]?

/-- The port that raises Host-Lost for an access of a class, if one does (R356, R362). -/
def State.hostLost (s : State) (cls a : Nat) : Option Nat :=
  if cls < 2 then none
  else
    match s.portOf a with
    | none => none
    | some p =>
      if (s.dev.fenced && decide (4 ≤ cls)) || !(get Port.down p s.ports).up then some p else none

/-! ### Recording (R389-R392) -/

/-- The trace control block of die 0 as last read. -/
def State.trace0 (s : State) : Trace := get Trace.zero 0 s.traces

/-- The context is being recorded. -/
def State.recording (s : State) (c : Nat) : Bool :=
  let t := s.trace0
  t.rrmode == 1 && t.rrst == 1 && t.rrctx == c

/-- The context is being replayed (R392). -/
def State.replaying (s : State) (c : Nat) : Bool :=
  let t := s.trace0
  t.rrmode == 2 && t.rrst == 3 && t.rrctx == c

/-- The team and group numbers by which records name a group. -/
def State.groupName (s : State) (a : Agent) : Nat × Nat := ((s.team a.team).no, a.grp)

/-- A key for a pair of group names. -/
def nameKey (n : Nat × Nat) : Nat := n.1 * 16 + n.2

/-- `RRPTR` and `RRST` as the block of die 0 holds them (R380). -/
def State.showReplay (s : State) : State :=
  let t := s.trace0
  (s.writeKey s.dev.platform (backing 0 (Config.traceBlock 0 + 72)) 8 t.rrptr).writeKey s.dev.platform
    (backing 0 (Config.traceBlock 0 + 80)) 1 t.rrst

/-- A pair of the log, unless R390 omits it: kind, predecessor (team, group, ordinal, t), access (ordinal, t). -/
def State.logPair (s : State) (a : Agent) (kind : Nat) (b : Nat × Nat × Nat × Nat) (ord t : Nat) : State :=
  let me := s.groupName a
  let mine := get [] (nameKey me) s.writers
  let other := nameKey (b.1, b.2.1)
  if (b.1, b.2.1) = me ∨ b.2.2.1 ≤ get 0 other mine then s
  else
    let tr := s.trace0
    if tr.rrlogs * 4096 ≤ tr.rrptr then { s with traces := put 0 { tr with rrst := 2 } s.traces }.showReplay
    else
      let w0 := b.1 + b.2.1 * 2 ^ 24 + me.2 * 2 ^ 28 + me.1 * 2 ^ 32 + kind * 2 ^ 56
      let v := w0 + b.2.2.2 * 2 ^ 64 + t * 2 ^ 128 + b.2.2.1 * 2 ^ 192 + ord * 2 ^ 224
      let s := s.writeKey s.dev.platform (backing 0 (tr.rrlog + tr.rrptr)) 32 v
      let mine := put other b.2.2.1 (if decide (64 ≤ mine.length) && (find other mine).isNone then mine.drop 1 else mine)
      let tr := { tr with rrptr := tr.rrptr + 32, rrst := if tr.rrlogs * 4096 ≤ tr.rrptr + 32 then 2 else tr.rrst }
      { s with traces := put 0 tr s.traces, writers := put (nameKey me) mine s.writers }.showReplay

/-- In a replay, an access of this ordinal has been performed by the group so named (R392). -/
def State.performed (s : State) (name : Nat × Nat) (ord : Nat) : Bool :=
  (find ord (get [] (nameKey name) s.writers)).isSome

/-- An access noted while its context is recorded: a load, a store, or an atomic as both (R389). The key names a
line, or a scratchpad chunk. In a replay, the ordinal of the access is noted (R392). -/
def State.note (s : State) (a : Agent) (key : Nat) (load store : Bool) (t : Nat) : State :=
  if s.recording a.ctx then
    let ord := a.ord.getD (s.group a.team a.grp).ordinal
    let me := s.groupName a
    let e : Nat × Nat × Nat × Nat := (me.1, me.2, ord, t)
    let r := get { store := none, readers := [] } key s.recorded
    let s := match r.store with
      | some b => s.logPair a (if store then 1 else 0) b ord t
      | none => s
    let s := if store then r.readers.foldl (fun s b => s.logPair a 2 b ord t) s else s
    if store then { s with recorded := put key { store := some e, readers := [] } s.recorded }
    else if load then
      if r.readers.length < 8 then { s with recorded := put key { r with readers := r.readers ++ [e] } s.recorded }
      else
        let s := match r.readers.head? with
          | some b => s.logPair a 3 b ord t
          | none => s
        { s with recorded := put key { r with readers := r.readers.drop 1 ++ [e] } s.recorded }
    else s
  else if s.replaying a.ctx then
    let me := nameKey (s.groupName a)
    let ord := a.ord.getD (s.group a.team a.grp).ordinal
    { s with writers := put me (put ord 1 (get [] me s.writers)) s.writers }
  else s

/-! ### Translation -/

/-- Bits of an address or entry, as a number. -/
def bits (x : Word) (lo n : Nat) : Nat := (x.extractLsb' lo n).toNat

/-- The address is canonical (R258). -/
def canonicalVa (a : Word) : Bool := (a.extractLsb' 57 7) == (if a.getLsbD 56 then 127 else 0)

/-- An address with bits 63-57 copied from bit 56. -/
def signVa (a : Word) : Word := (a.setWidth 57).signExtend 64

/-- What a walk finds: a leaf, or the level of the failing entry; the lines of the entries read, and the non-leaf entries
by their walk-cache keys. -/
structure Walk where
  leaf : Except Nat Leaf
  lines : List Nat
  mids : List (Nat × Mid)
  deriving Repr

/-- The physical bound of a location (R347). -/
def State.inBound (s : State) (cls a : Nat) : Bool :=
  match classSpace cls with
  | 0 => decide (a < s.devBytes)
  | 1 => decide (a < s.allotBytes)
  | _ => true

/-- A page-table entry, and the line that holds it. -/
def State.entry (s : State) (loc table index : Nat) : Word × Nat :=
  let a := backing loc (table + 8 * index)
  (BitVec.ofNat 64 (s.readKey s.dev.platform a 8).1, lineNo a)

/-- The walk-cache key of a context's non-leaf entry at a level. -/
def midKey (c level : Nat) (va : Word) : Nat := (c * 4 + level) * 2 ^ 64 + va.toNat / 2 ^ (12 + 9 * level)

/-- The entry of a level-0 table that serves an index: its own, or, where some entry of its block of sixteen is part of a
page of 64 KiB, any of the sixteen (R349): its index. -/
def State.blockEntry (s : State) (va : Word) (loc table index : Nat) : Nat :=
  let base := index / 16 * 16
  if (List.range 16).any (fun k => (s.entry loc table (base + k)).1.getLsbD 2) then
    base + Config.pick (4 * (s.fresh * 2 ^ 64 + va.toNat / 4096) + 2) % 16
  else index

/-- One level of a walk, with its table's location and address and the datum of the oldest read behind them, and how it
goes on below (R345, R347-R349). -/
def State.walkLevel (s : State) (c : Nat) (va : Word) (level loc table tick : Nat) (below : Option (Nat → Nat → Walk)) :
    Walk :=
  let own := if level = 3 then bits va 39 18 else bits va (12 + 9 * level) 9
  let index := if level = 0 then s.blockEntry va loc table own else own
  let r := s.entry loc table index
  let e := r.1
  let cls := bits e 6 3
  let pa := bits e 12 40 * 4096
  -- an entry of a 64 KiB page names its own 4 KiB of it: the address's lie as far on as its index does
  let page := if level = 0 then pa + own * 4096 - index * 4096 else pa + (va.toNat % 2 ^ (12 + 9 * level)) / 4096 * 4096
  let bad : Walk := { leaf := .error level, lines := [r.2], mids := [] }
  if !e.getLsbD 0 || bits e 9 3 != 0 || bits e 52 12 != 0 then bad
  else if e.getLsbD 1 then
    if level = 3 ∨ 6 ≤ cls ∨ (e.getLsbD 2 ∧ level ≠ 0) ∨ pa % 2 ^ (12 + 9 * level) ≠ 0 ∨ !s.inBound cls pa ∨ !s.inBound cls page then bad
    else
      { leaf := .ok { pa := page, cls := cls, w := e.getLsbD 3, x := e.getLsbD 4, u := e.getLsbD 5, tick := tick }
        lines := [r.2], mids := [] }
  else
    match below with
    | none => bad
    | some next =>
      if e.getLsbD 2 || (cls != 0 && cls != 2) || !s.inBound cls pa then bad
      else
        let w := next (classSpace cls) pa
        { w with lines := r.2 :: w.lines, mids := (midKey c level va, { loc := classSpace cls, table := pa, tick := tick }) :: w.mids }

/-- The walk from a level down. -/
def State.walkFrom (s : State) (c : Nat) (va : Word) (tick : Nat) : Nat → Nat → Nat → Walk
  | 0, loc, table => s.walkLevel c va 0 loc table tick none
  | level + 1, loc, table => s.walkLevel c va (level + 1) loc table tick (some (s.walkFrom c va tick level))

/-- A translation that was read at a datum still serves (R350). -/
def State.serves (s : State) (tick : Nat) : Bool := decide (s.dev.datum < tick + Config.maxAge)

/-- The entry of a cluster's walk cache from which a walk can start, the lowest that serves: its level and itself (R350;
entry 7). -/
def State.midFor (s : State) (core c : Nat) (va : Word) : Option (Nat × Mid) :=
  [1, 2, 3].findSome? (fun level => match find (midKey c level va) (get [] (core / 8) s.mids) with
    | none => none
    | some m => if s.serves m.tick && s.survives 3 (midKey c level va) then some (level, m) else none)

/-- The walk of a context's table, for a core (R345, R350). -/
def State.walk (s : State) (core c : Nat) (va : Word) : Walk :=
  match s.midFor core c va with
  | some m => s.walkFrom c va m.2.tick (m.1 - 1) m.2.loc m.2.table
  | none =>
    let root := (s.ctx c).ptroot
    s.walkFrom c va s.dev.datum 3 (bits root 0 2) (bits root 21 31 * 2 ^ 21)

/-- The TLB key of a context's page. -/
def tlbKey (c : Nat) (va : Word) : Nat := c * 2 ^ 52 + va.toNat / 4096

/-- A translated place: memory class, backing address, leaf, and the walk that found it if one was made: the lines that it
read, and its non-leaf entries. A place that is `held` is that of a walk's entry which an engine operation owns: the walk
waits for that line (R91, R100, R345). -/
structure Spot where
  cls : Nat
  addr : Nat
  leaf : Leaf
  walk : Option (List Nat × List (Nat × Mid))
  held : Bool := false
  deriving DecidableEq, Repr

/-- What kind of access asks (R348). -/
inductive Use where
  | read | write | fetch
  deriving DecidableEq, Repr

/-- The translation that an engine operation holds of a page, for 2,048 ticks from its first use of it (R350). -/
def State.heldLeaf (s : State) (op : Option Nat) (key : Nat) : Option Leaf :=
  match (op.bind (fun o => find o s.ops)).bind (fun o => find key o.pages) with
  | some f => if s.serves f.tick then some f else none
  | none => none

/-- The leaf that a TLB serves, if it does (R350; entry 7). -/
def State.tlbLeaf (s : State) (kind key : Nat) (m : SMap Leaf) : Option Leaf :=
  match find key m with
  | some f => if s.serves f.tick && s.survives kind key then some f else none
  | none => none

/-- A leaf: held by the operation, or from the core's L1 TLB or its cluster's L2 TLB, else from a walk; and whether a walk
was made (R12, R350). -/
def State.leafFor (s : State) (core c : Nat) (op : Option Nat) (va : Word) : Walk × Bool :=
  let key := tlbKey c va
  match s.heldLeaf op key with
  | some f => ({ leaf := .ok f, lines := [], mids := [] }, false)
  | none =>
    match s.tlbLeaf 0 key (s.core core).tlb with
    | some f => ({ leaf := .ok f, lines := [], mids := [] }, false)
    | none =>
      match s.tlbLeaf 1 key (get [] (core / 8) s.l2) with
      | some f => ({ leaf := .ok f, lines := [], mids := [] }, false)
      | none => (s.walk core c va, true)

/-- Translation of an address with the permission checks of R348; changes nothing. Where `wait` is set, an entry of the
walk that an engine operation owns is answered with a held place. -/
def State.look (s : State) (core c : Nat) (level : Level) (use : Use) (va : Word) (op : Option Nat := none)
    (wait : Bool := false) : Except (Kind × Nat) Spot :=
  let wr := if use == .write then 1 else 0
  if !canonicalVa va then .error (.unmapped, wr)
  else
    let r := s.leafFor core c op va
    match if wait then r.1.lines.find? s.owned else none with
    | some l => .ok { cls := 0, addr := l * 64, leaf := { pa := 0, cls := 0, w := false, x := false, u := false, tick := 0 }
                      walk := none, held := true }
    | none =>
      match r.1.leaf with
      | .error lv => .error (.unmapped, wr + (if lv = 0 then 0 else 2) + 4 * lv)
      | .ok f =>
        let noU := level == .user && !f.u
        let noX := use == .fetch && (!f.x || f.cls == 3 || f.cls == 4 || f.cls == 5)
        let noW := use == .write && !f.w
        if noU || noX || noW then
          .error (.protection, (if noW then 1 else 0) + (if noX then 2 else 0) + (if noU then 4 else 0))
        else
          let a := backing (classSpace f.cls) (f.pa + va.toNat % 4096)
          match s.hostLost f.cls a with
          | some p => .error (.hostLost, p)
          | none => .ok { cls := f.cls, addr := a, leaf := f, walk := if r.2 then some (r.1.lines, r.1.mids) else none }

/-- The memory class of a page, whatever an access to it would raise; none where it has no leaf. -/
def State.pageClass (s : State) (core c : Nat) (va : Word) : Option Nat :=
  if canonicalVa va then
    match (s.leafFor core c none va).1.leaf with
    | .ok f => some f.cls
    | .error _ => none
  else none

/-- A load's clocks at the home slice: lease and time (R91). -/
def State.homeClock (s : State) (a : Agent) (l : Nat) : State :=
  let x := s.line l
  let p := s.pts a
  let rts := Nat.max x.rts (p + s.lease a.ctx)
  ((s.setLine l { x with rts := rts }).raisePts a (Nat.max p x.wts)).checkTime rts

/-! ### The page cache (R353, R355) -/

/-- The sector of 4 KiB of a backing address in the pool, and the region of 64 KiB of a sector. -/
def sectorOf (addr : Nat) : Nat := addr % 2 ^ 60 / 4096
/-- The region of a sector: the tag of its frame (R353). -/
def regionOf (sector : Nat) : Nat := sector / 16

/-- A sector is present in the page cache. -/
def State.sectorIn (s : State) (sector : Nat) : Bool :=
  match find (regionOf sector) s.frames with
  | some f => f.present.getLsbD (sector % 16)
  | none => false

/-- The lines of a sector. -/
def sectorLines (sector : Nat) : List Nat := (List.range 64).map (fun k => 2 ^ 54 + sector * 64 + k)

/-- The frames of the page cache (R353). -/
def State.frameCount (s : State) : Nat := (192 - (s.dev.config.extractLsb' 0 8).toNat) * 16384

/-- The set of 16 frames that a region goes to (R353). -/
def State.frameSet (s : State) (region : Nat) : Nat := Config.set region % Nat.max 1 (s.frameCount / 16)

/-- Sectors that some unit waits for (R194). -/
def State.awaited (s : State) : List Nat :=
  let of (p : Option Park) : List Nat := match p with
    | some p => p.sector.toList
    | none => []
  s.ops.flatMap (fun o => of o.2.park) ++ s.teams.flatMap (fun t => of t.2.seq.park)
    ++ s.sweeps.flatMap (fun w => w.2.engines.flatMap (fun e => of e.2.park))

/-- A frame is pinned: a unit waits on one of its sectors, or a fill of it runs (R353). -/
def State.pinned (s : State) (region : Nat) : Bool :=
  s.awaited.any (fun x => regionOf x == region) || s.fills.any (fun f => regionOf f.sector == region)

/-- A line dirty in its frame is written to the pool: the frame differs from the pool in it no more (R353). -/
def State.cleanFrame (s : State) (ls : List Nat) : State :=
  { s with frameOld := s.frameOld.filter (fun e => !ls.contains e.1) }

/-- A dirty line leaves its home slice: into its frame when the sector is present, to the pool otherwise (R353). -/
def State.cleanHome (s : State) (l : Nat) : State :=
  match find l s.homeOld with
  | none => s
  | some x =>
    let s := { s with homeOld := del l s.homeOld }
    if s.sectorIn (sectorOf (l * 64)) && (find l s.frameOld).isNone then { s with frameOld := put l x s.frameOld } else s

/-- Every copy of a pool line that differs from the pool is written back. -/
def State.writeBack (s : State) (l : Nat) : State := (s.cleanHome l).cleanFrame [l]

/-- What the device holds of the pool is discarded, without a write back: memory is as the pool has it (R363, R371). -/
def State.discardAll (s : State) : State :=
  let back (s : State) (l : Nat) (b : Below) : State :=
    { s with mem := writeN s.mem (l * 64) 64 b.data.toNat }.setLine l { s.line l with key := b.key, poison := b.poison }
  let s := s.homeOld.foldl (fun s e => back s e.1 e.2) s
  let s := s.frameOld.foldl (fun s e => back s e.1 e.2) s
  { s with homeOld := [], frameOld := [] }

/-- Every dirty pool line of the home slices and of the page cache is written back (R107, R362). -/
def State.writeBackAll (s : State) : State := { s with homeOld := [], frameOld := [] }

/-- A sector leaves the page cache: its dirty lines are written to the pool first (R353, R354). -/
def State.dropSector (s : State) (sector : Nat) : State :=
  let s := s.cleanFrame (sectorLines sector)
  { s with frames := adjust (regionOf sector) (fun f =>
      { f with present := f.present &&& ~~~(BitVec.ofNat 16 (2 ^ (sector % 16))) }) s.frames }

/-- A frame leaves the page cache. -/
def State.dropFrame (s : State) (region : Nat) : State :=
  let s := s.cleanFrame ((List.range 16).flatMap (fun k => sectorLines (16 * region + k)))
  { s with frames := del region s.frames }

/-- The frame that a new one of a set takes the place of: the least recently used that is not pinned, among those that an
allocation may evict (R353). -/
def State.victim (s : State) (set_ : Nat) (may : Nat → Bool) : Option Nat :=
  ((s.frames.filter (fun e => s.frameSet e.1 == set_ && !s.pinned e.1 && may e.1)).foldl
    (fun (b : Option (Nat × Frame)) e => match b with
      | none => some e
      | some x => if e.2.used < x.2.used then some e else b) none).map (·.1)

/-- A frame for a region: the one it has, a free one of its set, or that of the victim; none where every other is pinned
or kept (R353). -/
def State.allotFrame (s : State) (region : Nat) (may : Nat → Bool) : Option State :=
  let fresh_ : Frame := { present := 0, used := s.fresh }
  if (find region s.frames).isSome then some s
  else if (s.frames.filter (fun e => s.frameSet e.1 == s.frameSet region)).length < 16 then
    some { s with frames := put region fresh_ s.frames }
  else
    match s.victim (s.frameSet region) may with
    | none => none
    | some v => some { s.dropFrame v with frames := put region fresh_ (del v s.frames) }

/-- A frame has been used (R353). -/
def State.useFrame (s : State) (sector : Nat) : State :=
  { s with frames := adjust (regionOf sector) (fun f => { f with used := s.fresh }) s.frames }

/-- The page-cache sector of a translated place that is not in the page cache: class 2 or 3, in normal service
(R353, R355). -/
def State.pcMiss (s : State) (p : Spot) : Option Nat :=
  if classSpace p.cls = 1 ∧ s.dev.service = .normal ∧ s.sectorIn (sectorOf p.addr) = false then some (sectorOf p.addr) else none

/-- The fills of a batch are issued in the order of their first miss, behind those already issued (R355). -/
def State.closeBatch (s : State) (die : Nat) (b : List Nat) : State :=
  { s with
    batches := del die s.batches
    fills := s.fills ++ (b.filter (fun x => !s.fills.any (fun f => f.sector == x && f.demand))).map (fun x => { sector := x, demand := true, batch := b }) }

/-- A sector that is missed joins the demand batch of the die, unless it is asked for already; its frame is allocated at the
first miss, and at 64 sectors the batch closes (R353, R355). -/
def State.demandSector (s : State) (core sector : Nat) : State :=
  let die := core / 96
  let b := get (s.dev.datum, []) die s.batches
  if b.2.contains sector || s.fills.any (fun f => f.sector == sector && f.demand) then s
  else
    let s := (s.allotFrame (regionOf sector) (fun _ => true)).getD s
    if 63 ≤ b.2.length then s.closeBatch die (b.2 ++ [sector])
    else { s with batches := put die (b.1, b.2 ++ [sector]) s.batches }

/-- A unit uses a place: its sector is asked for where the page cache lacks it (R355). -/
def State.demand (s : State) (core : Nat) (p : Spot) : State :=
  match s.pcMiss p with
  | none => if classSpace p.cls = 1 then s.useFrame (sectorOf p.addr) else s
  | some sector => s.demandSector core sector

/-- A walker's read of a line of the pool asks for its sector in the same way (R345, R355). -/
def State.demandLine (s : State) (core l : Nat) : State :=
  if poolLine l then s.demand core { cls := 2, addr := l * 64, leaf := ⟨0, 2, false, false, false, 0⟩, walk := none } else s

/-- An operation holds the translation of a page from its first use (R350). -/
def State.holdLeaf (s : State) (op : Option Nat) (key : Nat) (f : Leaf) : State :=
  match op with
  | none => s
  | some o =>
    if (s.heldLeaf op key).isSome then s
    else s.onOp o (fun x => { x with pages := put key { f with tick := s.dev.datum } x.pages })

/-- The effects of a translation. A walk's reads are loads at the home slice, and the caches keep what it found (R345, R350);
a leaf from the cluster goes to the core's L1 TLB; an access that misses the page cache asks for its sector. -/
def State.walked (s : State) (a : Agent) (va : Word) (p : Spot) : State :=
  let key := tlbKey a.ctx va
  let s := (s.demand a.core p).holdLeaf a.op key p.leaf
  match p.walk with
  | none => s
  | some ls =>
    let s := ls.1.foldl (fun s l => (s.demandLine a.core l).homeClock a l) s
    let cl := a.core / 8
    let s := { s with
      l2 := put cl (trimTo Config.l2Entries (s.free 8) (put key p.leaf (get [] cl s.l2))) s.l2
      mids := put cl (ls.2.foldl (fun (m : SMap Mid) (x : Nat × Mid) => put x.1 x.2 m) (get [] cl s.mids)) s.mids }
    s.onCore a.core (fun k => { k with tlb := trimTo Config.tlbEntries (s.free 9) (put key p.leaf k.tlb) })

/-! ### L1 and the home slices -/

/-- The L1 key of a line, by context. -/
def l1Key (c l : Nat) : Nat := c * 2 ^ 70 + l

/-- An L1 without its copies of a line, under any context. -/
def Core.dropLine (k : Core) (l : Nat) : Core := { k with l1 := k.l1.filter (fun e => e.1 % 2 ^ 70 != l) }

/-- One more than the largest t that a core's copies of a line have served since their last update; 0 for no copy (R97). -/
def Core.served (k : Core) (l : Nat) : Nat :=
  k.l1.foldl (fun t e => if e.1 % 2 ^ 70 = l then Nat.max t (e.2.high + 1) else t) 0

/-- The L1 copy that serves a load, if one does (R91, R94, R97; entry 7). -/
def State.copyFor (s : State) (a : Agent) (cls l : Nat) : Option Copy :=
  if s.recording a.ctx then none
  else
    match find (l1Key a.ctx l) (s.core a.core).l1 with
    | none => none
    | some c =>
      if cls = 1 then some c
      else if s.pts a ≤ c.rts ∧ s.serves c.tick = true ∧ s.survives 2 (l1Key a.ctx l) = true then some c else none

/-- A line as the context reads it. -/
def State.lineData (s : State) (c l : Nat) : BitVec 512 := BitVec.ofNat 512 (s.readKey (s.keyOf c) (l * 64) 64).1

/-- A line filled into an L1; a device-sync line records its sharer, the ninth ending the earliest (R91, R97). -/
def State.fillL1 (s : State) (a : Agent) (cls l : Nat) : State :=
  let x := s.line l
  let c : Copy := { data := s.lineData a.ctx l, wts := x.wts, rts := x.rts, tick := s.dev.datum, high := 0 }
  let s := s.onCore a.core (fun k => { k with l1 := trimTo Config.l1Lines (s.free 10) (put (l1Key a.ctx l) c k.l1) })
  if cls = 1 then
    let sh := x.sharers.filter (· != a.core)
    if sh.length < 8 then s.setLine l { x with sharers := sh ++ [a.core] }
    else
      let out := sh.headD 0
      (s.onCore out (fun k => k.dropLine l)).setLine l
        { x with sharers := sh.drop 1 ++ [a.core] }
  else s

/-! ### Posted writes (R106, R107) -/

/-- The first posted writes of a port arrive at the host. -/
def State.land (s : State) (p n : Nat) : State :=
  let x := get Port.down p s.ports
  let s := (x.posted.take n).foldl (fun s w => s.plainWrite 0 w.1 w.2.1 w.2.2) s
  { s with ports := adjust p (fun x => { x with posted := x.posted.drop n }) s.ports }

/-- A posted write leaves for the host, behind those already on their way through its port. -/
def State.postWrite (s : State) (addr n v : Nat) : State :=
  match s.portOf addr with
  | none => s.plainWrite 0 addr n v
  | some p => { s with ports := adjust p (fun x => { x with posted := x.posted ++ [(addr, n, v)] }) s.ports }

/-- The posted writes that a read of host memory follows through its port have arrived. -/
def State.landBefore (s : State) (addr : Nat) : State :=
  match s.portOf addr with
  | none => s
  | some p => s.land p (get Port.down p s.ports).posted.length

/-- A load of up to 8 bytes within one line, by R91 (`useL1`) or at the home slice alone (R110). -/
def State.load (s : State) (a : Agent) (useL1 : Bool) (cls addr n : Nat) : Nat × State :=
  let l := lineNo addr
  let key := s.keyOf a.ctx
  if cls = 5 then let s := s.landBefore addr; ((s.readKey key addr n).1, s)
  else if !ordered cls then ((s.readKey key addr n).1, s)
  else
    match if useL1 then s.copyFor a cls l else none with
    | some c =>
      let t := Nat.max (s.pts a) c.wts
      let v := c.data.toNat / 2 ^ (8 * (addr % 64)) % 2 ^ (8 * n)
      let s := s.raisePts a t
      (v, s.onCore a.core (fun k => { k with l1 := put (l1Key a.ctx l) { c with high := Nat.max c.high t } k.l1 }))
    | none =>
      let v := (s.readKey key addr n).1
      let t := Nat.max (s.pts a) (s.line l).wts
      let s := s.homeClock a l
      let s := if useL1 && !s.recording a.ctx then s.fillL1 a cls l else s
      (v, s.note a l true false t)

/-- A time that lies beyond what every sharer of a line has served (R97). -/
def State.sharedTime (s : State) (l t : Nat) : Nat :=
  (s.line l).sharers.foldl (fun t c => Nat.max t ((s.core c).served l)) t

/-- The time of a store or atomic (R92, R97). -/
def State.storeTime (s : State) (a : Agent) (cls l : Nat) : Nat :=
  let t := Nat.max (s.pts a) ((s.line l).rts + 1)
  if cls = 1 then s.sharedTime l t else t

/-- The copies of a line in some cores' L1 after a store at a time, each under its own context (R92, R97). -/
def State.pushCores (s : State) (cs : List Nat) (l t : Nat) : State :=
  cs.foldl (fun s c => s.onCore c (fun k => { k with l1 := k.l1.map (fun (e : Nat × Copy) =>
    if e.1 % 2 ^ 70 = l then (e.1, { e.2 with data := s.lineData (e.1 / 2 ^ 70) l, wts := t, rts := t, high := 0 })
    else e) })) s

/-- The L1 copies of a line after a store at a time: the issuing core's, and every sharer's of a device-sync line
(R92, R97). -/
def State.pushL1 (s : State) (a : Agent) (cls l t : Nat) : State :=
  s.pushCores (if cls = 1 then (s.line l).sharers else [a.core]) l t

/-- A record whose read-only bytes ignore stores: its address and size, and the mask of its read-only bits. -/
structure Guarded where
  base : Nat
  size : Nat
  ro : Nat
  deriving DecidableEq, Repr

/-- The records in memory with read-only fields: the descriptor of the context table that an address lies in, of which only
`PRIO` and `QUANT` take a value (R332); the trace control blocks that the dies have read, with `WPTR`, `LOST`, `RRPTR` and
`RRST` (R380); the heartbeat block's `DEVBEAT` and `DEVTICK` (R361). -/
def State.guarded (s : State) (addr : Nat) : List Guarded :=
  (match s.dev.ctxTable with
    | none => []
    | some b => if b ≤ addr ∧ addr < b + 65536 then
        [{ base := b + (addr - b) / 64 * 64, size := 64, ro := 2 ^ 512 - 1 - 0xFFFFFFFF00000F00 }] else [])
  ++ s.traces.map (fun e => { base := backing 0 (Config.traceBlock e.1), size := 128
                              ro := (2 ^ 96 - 1) * 2 ^ 192 + (if e.1 = 0 then (2 ^ 72 - 1) * 2 ^ 576 else 0) })
  ++ (if 2 ^ 60 ≤ addr then
      [{ base := backing 1 (s.dev.config.extractLsb' 192 64).toNat, size := 40, ro := (2 ^ 128 - 1) * 2 ^ 64 }] else [])

/-- The bits of a run of bytes that a record keeps from stores. -/
def Guarded.mask (g : Guarded) (addr n : Nat) : Nat :=
  if addr + n ≤ g.base ∨ g.base + g.size ≤ addr then 0
  else if g.base ≤ addr then g.ro / 2 ^ (8 * (addr - g.base)) % 2 ^ (8 * n)
  else g.ro * 2 ^ (8 * (g.base - addr)) % 2 ^ (8 * n)

/-- What a store leaves in memory: read-only fields keep their values (R4). -/
def State.tableMask (s : State) (addr n v : Nat) : Nat :=
  let m := (s.guarded addr).foldl (fun m g => m ||| g.mask addr n) 0
  if m = 0 then v
  else
    let old := readN s.mem addr n
    (old &&& m) ||| (v ^^^ (v &&& m))

/-- A store of bytes within one line at a given time (R92, R99); to a host-posted page it is a posted write (R106). -/
def State.storeAt (s : State) (a : Agent) (cls addr n v t : Nat) : State :=
  let l := lineNo addr
  if cls = 5 then s.postWrite addr n v
  else
  let s := s.writeKey (s.keyOf a.ctx) addr n (s.tableMask addr n v)
  if !ordered cls then s
  else
    let s := s.setLine l { s.line l with wts := t, rts := t }
    (s.pushL1 a cls l t).checkTime t

/-- A store of up to 8 bytes within one word by a group (R92). -/
def State.store (s : State) (a : Agent) (cls addr n v : Nat) : State :=
  if !ordered cls then s.storeAt a cls addr n v 0
  else
    let t := s.storeTime a cls (lineNo addr)
    ((s.storeAt a cls addr n v t).raisePts a t).note a (lineNo addr) false true t

/-- An atomic: the old value, and the state with the new one; it takes its time whatever it writes (R92). -/
def State.rmw (s : State) (a : Agent) (cls addr n : Nat) (f : Nat → Nat) : Nat × State :=
  let old := (s.readKey (s.keyOf a.ctx) addr n).1
  let t := s.storeTime a cls (lineNo addr)
  (old, ((s.storeAt a cls addr n (f old) t).raisePts a t).note a (lineNo addr) true true t)

/-- A line leaves its home slice, whose floor keeps its clocks in order (R90). -/
def State.toFloor (s : State) (l t : Nat) : State :=
  let x := s.line l
  let s := { s with floors := put (sliceOf l) (Nat.max (s.floor l) t) s.floors }
  s.setLine l { Line.at (s.floor l) with poison := x.poison, key := x.key }

/-- A line is evicted from its home slice: the sharers' copies of a device-sync line end with it, and a dirty pool line is
written below (R90, R97, R353). -/
def State.evict (s : State) (l : Nat) : State :=
  let t := s.sharedTime l (s.line l).rts
  let s := (s.line l).sharers.foldl (fun s c => s.onCore c (fun k => k.dropLine l)) s
  (s.cleanHome l).toFloor l t

/-- Every device copy of a line ends: it is written back, and leaves the L1 caches, the page cache and its home slice (R90,
R105, R109, R354). -/
def State.invalidate (s : State) (l : Nat) : State :=
  let t := s.cores.foldl (fun t e => Nat.max t (e.2.served l)) (s.line l).rts
  let s := { s with cores := s.cores.map (fun (e : Nat × Core) => (e.1, e.2.dropLine l)) }
  let s := s.writeBack l
  (if poolLine l then s.dropSector (sectorOf (l * 64)) else s).toFloor l t

/-- A word written by the device itself, under the platform key (R375), as a store at the home slice. -/
def State.deviceStore (s : State) (addr n v : Nat) : State :=
  let l := lineNo addr
  let t := s.sharedTime l ((s.line l).rts + 1)
  let s := s.writeKey s.dev.platform addr n v
  ((s.setLine l { s.line l with wts := t, rts := t }).pushCores (s.line l).sharers l t).checkTime t

/-- A run of bytes written by the device, word by word. -/
def State.deviceWrite (s : State) (addr : Nat) (bs : List Byte) : State :=
  (bs.foldl (fun p b => (p.1.deviceStore p.2 1 b.toNat, p.2 + 1)) (s, addr)).1

/-- A number read by the device under the platform key. -/
def State.deviceRead (s : State) (addr n : Nat) : Nat := (s.readKey s.dev.platform addr n).1

/-! ### The scratchpad share -/

/-- Clocks of a line of a share: wts, rts (R103). -/
def Team.clock (t : Team) (l : Nat) : Nat × Nat := get (t.base, t.base) l t.clocks
/-- Clocks of a line written. -/
def Team.setClock (t : Team) (l : Nat) (c : Nat × Nat) : Team :=
  { t with clocks := set (t.base, t.base) l c t.clocks }

/-- A line of the share is present (R65). -/
def Team.present (t : Team) (l : Nat) : Bool := (find l t.absent).isNone

/-- The lines of 256 bytes that a range of bytes touches. -/
def shareLines (a n : Nat) : List Nat :=
  if n = 0 then [] else (List.range ((a + n - 1) / 256 - a / 256 + 1)).map (· + a / 256)

/-- Poison on any word of a range of the share (R394). -/
def Team.badIn (t : Team) (a n : Nat) : Bool :=
  if n = 0 then false else t.bad.any (fun e => decide (a / 8 ≤ e.1) && decide (e.1 ≤ (a + n - 1) / 8))

/-- Bytes of the share written; a whole word written clears its poison. -/
def Team.write (t : Team) (a n v : Nat) : Team :=
  let t := { t with scratch := writeN t.scratch a n v }
  if a % 8 = 0 ∧ n % 8 = 0 then { t with bad := t.bad.filter (fun e => !(decide (a / 8 ≤ e.1) && decide (e.1 < (a + n) / 8))) } else t

/-- A number standing for a chunk of 32 bytes of a share among recorded keys. -/
def chunkKey (team off : Nat) : Nat := 2 ^ 62 + team * 2 ^ 20 + off / 32

/-- A scratchpad load within one line, performed for a group (R103). -/
def State.sload (s : State) (a : Agent) (team off n : Nat) : Nat × State :=
  let tm := s.team team
  let c := tm.clock (off / 256)
  let t := Nat.max (s.pts a) c.1
  let s := s.onTeam team (fun x => x.setClock (off / 256) (c.1, Nat.max c.2 t))
  (readN tm.scratch off n, ((s.raisePts a t).checkTime t).note a (chunkKey team off) true false t)

/-- A scratchpad store within one line (R103). -/
def State.sstore (s : State) (a : Agent) (team off n v : Nat) : State :=
  let c := (s.team team).clock (off / 256)
  let t := Nat.max (s.pts a) (c.2 + 1)
  let s := s.onTeam team (fun x => (x.write off n v).setClock (off / 256) (t, t))
  ((s.raisePts a t).checkTime t).note a (chunkKey team off) false true t

/-- A scratchpad atomic within one word (R103, R268). -/
def State.srmw (s : State) (a : Agent) (team off n : Nat) (f : Nat → Nat) : Nat × State :=
  let old := readN (s.team team).scratch off n
  let c := (s.team team).clock (off / 256)
  let t := Nat.max (s.pts a) (c.2 + 1)
  let s := s.onTeam team (fun x => (x.write off n (f old)).setClock (off / 256) (t, t))
  (old, ((s.raisePts a t).checkTime t).note a (chunkKey team off) true true t)

/-- The team of a gang with a rank, while it is resident (R38, R260). -/
def State.peer (s : State) (team rank : Nat) : Option Nat :=
  let me := s.team team
  (s.teams.find? (fun e => e.2.grid == me.grid && e.2.gang == me.gang && e.2.rank == rank)).map (·.1)

end Sys2Proof.Machine
end

