-- ==== Sys2Proof/Machine/Trace.lean ====
section
/-!
DEFINITION. Trace records: streams, the buffer and lost records (R380-R383).
-/
namespace Sys2Proof.Machine

/-- The die of a core (R9). -/
def dieOf (core : Nat) : Nat := core / 96

/-- The die that a stream writes through: stream 0 core, 1 cluster, 2 die (R381). -/
def streamDie (sunit src : Nat) : Nat := if sunit = 0 then src / 96 else if sunit = 1 then src / 12 else src

/-- The key of a stream. -/
def streamKey (sunit src : Nat) : Nat := sunit * 1024 + src

/-- A stream that has written nothing. -/
def Stream.zero : Stream := { last := 0, lost := 0, begun := false, part := 0 }

/-- One record put into the buffer, or dropped and counted (R383). -/
def State.putRecord (s : State) (die key : Nat) (w0 w1 w2 w3 : Nat) : State :=
  let tr := get Trace.zero die s.traces
  let st := get Stream.zero key s.streams
  let size := tr.bufs * 4096
  if size = 0 ∨ (tr.wrap = false ∧ size < tr.wptr + 32) then
    let lost := Nat.min (tr.lost + 1) 0xFFFFFFFF
    let s := { s with traces := put die { tr with lost := lost } s.traces,
                      streams := put key { st with lost := st.lost + 1 } s.streams }
    s.deviceStore (backing 0 (Config.traceBlock die + 32)) 4 lost
  else
    let base := backing 0 (tr.bufb + tr.wptr % size)
    let s := ((s.deviceStore base 8 w0).deviceStore (base + 8) 8 w1).deviceStore (base + 16) 8 w2
    let s := s.deviceStore (base + 24) 8 w3
    let s := s.deviceStore (backing 0 (Config.traceBlock die + 24)) 8 (tr.wptr + 32)
    { s with traces := put die { tr with wptr := tr.wptr + 32 } s.traces,
             streams := put key { st with last := s.dev.datum, begun := true, part := tr.wptr / (size / 16) } s.streams }

/-- The first word of a record (R381). -/
def recordWord (sunit src ctx kind delta tag : Nat) : Nat :=
  kind + sunit * 2 ^ 8 + src * 2 ^ 10 + ctx * 2 ^ 20 + delta * 2 ^ 32 + tag % 2 ^ 16 * 2 ^ 48

/-- The full-tick record that R382 requires before a record of a kind. -/
def State.fullTick (s : State) (sunit src kind : Nat) : State :=
  let die := streamDie sunit src
  let key := streamKey sunit src
  let tr := get Trace.zero die s.traces
  let st := get Stream.zero key s.streams
  let now := s.dev.datum
  let part := if tr.bufs = 0 then 0 else tr.wptr / (tr.bufs * 256)
  let full := !st.begun || (kind != 3 && decide (0xFFFF < now - st.last)) || (tr.wrap && part != st.part)
  if full && kind != 1 then s.putRecord die key (recordWord sunit src 0x3FF 1 0 0) now 0 0 else s

/-- The record of lost records that R383 requires before a record of a kind. -/
def State.lostRecord (s : State) (sunit src kind : Nat) : State :=
  let die := streamDie sunit src
  let key := streamKey sunit src
  let st := get Stream.zero key s.streams
  if st.lost = 0 ∨ kind = 10 then s
  else
    let s := s.putRecord die key (recordWord sunit src 0x3FF 10 (s.dev.datum - st.last) 0) st.lost 0 0
    let st' := get Stream.zero key s.streams
    if st'.lost = st.lost then { s with streams := put key { st' with lost := 0 } s.streams } else s

/-- A record of a stream, if the die traces its kind, after those that R382 and R383 require before it. -/
def State.emit (s : State) (sunit src ctx kind tag b1 b2 b3 : Nat) : State :=
  let die := streamDie sunit src
  let key := streamKey sunit src
  let tr := get Trace.zero die s.traces
  if !tr.en || (decide (4 ≤ kind) && kind != 10 && tr.kmask / 2 ^ kind % 2 == 0) then s
  else
    let s := (s.fullTick sunit src kind).lostRecord sunit src kind
    let st := get Stream.zero key s.streams
    let delta := if kind = 1 ∨ kind = 3 then 0 else (s.dev.datum - st.last) % 2 ^ 16
    s.putRecord die key (recordWord sunit src ctx kind delta tag) b1 b2 b3

/-- The identification of a group in a record: team number and group (R381). -/
def State.ident (s : State) (team grp : Nat) : Nat := (s.team team).no + grp * 2 ^ 24

end Sys2Proof.Machine
end

