-- ==== Sys2Proof/Machine/Wake.lean ====
section
/-!
DEFINITION. Accesses by virtual address at the home slice, layout-record fields (R77), parcels' words and rows
(R165-R175), and the wait-and-wake table (R270-R272, R360).
-/
namespace Sys2Proof.Machine

/-- The level at which a context's own data is reached where no group acts. -/
def State.ctxLevel (s : State) (c : Nat) : Level := if (s.ctx c).ctrl then .control else .user

/-- An agent that acts for a context and no group: it has no clock of its own. -/
def State.deviceAgent (s : State) (c : Nat) : Agent :=
  { core := 0, ctx := c, team := 2 ^ 60, grp := 0, level := s.ctxLevel c }

/-- Translation for an agent that can wait for the lines of its walk (R91, R345). -/
def State.seek (s : State) (a : Agent) (use : Use) (va : Word) : Except (Kind × Nat) Spot :=
  s.look a.core a.ctx a.level use va a.op true

/-- Translation within one of the device's own steps, which is taken whole. -/
def State.seekNow (s : State) (a : Agent) (use : Use) (va : Word) : Except (Kind × Nat) Spot :=
  s.look a.core a.ctx a.level use va a.op

/-- The largest pts with which a load among loads of some places can be made: each raises it to the time of the value that it
returns, and each walk to those of its entries (R91). -/
def State.ptsBound (s : State) (a : Agent) (ps : List Spot) : Nat :=
  (ps.flatMap (fun p => lineNo p.addr :: (match p.walk with
    | some w => w.1
    | none => []))).foldl (fun t l => Nat.max t (s.line l).wts) (s.pts a)

/-- A copy in the core's L1 serves a load made with any pts up to a bound (R91, R97). -/
def State.l1Serves (s : State) (a : Agent) (bound : Nat) (p : Spot) : Bool :=
  match s.copyFor a p.cls (lineNo p.addr) with
  | some c => p.cls == 1 || decide (bound ≤ c.rts)
  | none => false

/-- The line that an access to a place waits for: an entry of its walk, or its own, that an engine operation owns and has not
written (R91, R92, R100). A load through L1 does not wait where a copy serves it. -/
def State.waitLine (s : State) (a : Agent) (l1 : Option Nat) (p : Spot) : Option Nat :=
  let served := match l1 with
    | some bound => s.l1Serves a bound p
    | none => false
  if p.held || (ordered p.cls && s.owned (lineNo p.addr) && !served) then some (lineNo p.addr) else none

/-- The lines that accesses to places wait for, loads through L1 or others. -/
def State.waitLines (s : State) (a : Agent) (l1 : Bool) (ps : List Spot) : List Nat :=
  ps.filterMap (s.waitLine a (if l1 then some (s.ptsBound a ps) else none))

/-- The places that addresses translate to. -/
def State.spots (s : State) (a : Agent) (use : Use) (vas : List Word) : List Spot :=
  vas.filterMap (fun va => match s.seek a use va with
    | .error _ => none
    | .ok p => some p)

/-- The lines that accesses to some addresses at their home slices wait for (R100). -/
def State.ownedHome (s : State) (a : Agent) (use : Use) (vas : List Word) : List Nat := s.waitLines a false (s.spots a use vas)

/-- The lines that loads of some addresses through L1, or stores to them, wait for (R91, R92, R100). -/
def State.ownedAmong (s : State) (a : Agent) (use : Use) (vas : List Word) : List Nat :=
  s.waitLines a (use == .read) (s.spots a use vas)

/-- A load of up to 8 bytes at the home slice by virtual address; a poisoned line is Data-Poison. -/
def State.vload (s : State) (a : Agent) (va : Word) (n : Nat) : Except (Kind × Nat) (Nat × State) :=
  match s.seekNow a .read va with
  | .error e => .error e
  | .ok p =>
    if s.poisoned (s.keyOf a.ctx) (lineNo p.addr) then .error (.poison, 0)
    else .ok ((s.walked a va p).load a false p.cls p.addr n)

/-- A store of up to 8 bytes by virtual address. -/
def State.vstore (s : State) (a : Agent) (va : Word) (n v : Nat) : Except (Kind × Nat) State :=
  match s.seekNow a .write va with
  | .error e => .error e
  | .ok p => .ok ((s.walked a va p).store a p.cls p.addr n v)

/-- An atomic on up to 8 bytes by virtual address; the page must be in the order of R88 (R87). -/
def State.vrmw (s : State) (a : Agent) (va : Word) (n : Nat) (f : Nat → Nat) : Except (Kind × Nat) (Nat × State) :=
  match s.seekNow a .write va with
  | .error e => .error e
  | .ok p =>
    if !ordered p.cls then .error (.illegalOperand, 0)
    else if s.poisoned (s.keyOf a.ctx) (lineNo p.addr) then .error (.poison, 0)
    else .ok ((s.walked a va p).rmw a p.cls p.addr n f)

/-- The page of an address is of a class that an access does not take (R87), whatever else the access raises (R184). -/
def State.classBad (s : State) (a : Agent) (use : Use) (ok : Nat → Bool) (va : Word) : Bool :=
  match s.seek a use va with
  | .ok p => !p.held && !ok p.cls
  | .error _ => match s.pageClass a.core a.ctx va with
    | some c => !ok c
    | none => false

/-- What stops an access of a unit or of an instruction: a fault, a sector that its unit waits for, or a line that an
operation owns (R100, R193). -/
inductive Stop where
  | fault (f : Kind × Nat) (va : Word)
  | fill (sector : Nat) (va : Word)
  | wait (l : Nat)
  deriving DecidableEq, Repr

/-- The place of an access at the home slice; a unit's access, as opposed to a lane's, stops at a page-cache miss (R193). -/
def State.place (s : State) (a : Agent) (unit : Bool) (use : Use) (va : Word) : Except Stop Spot :=
  match s.seek a use va with
  | .error f => .error (.fault f va)
  | .ok p =>
    match s.waitLine a none p, if unit then s.pcMiss p else none with
    | some l, _ => .error (.wait l)
    | none, some k => .error (.fill k va)
    | none, none => .ok p

/-- A load of up to 8 bytes at the home slice. -/
def State.loadAt (s : State) (a : Agent) (unit : Bool) (va : Word) (n : Nat) : Except Stop (Nat × State) :=
  match s.place a unit .read va with
  | .error e => .error e
  | .ok p =>
    if s.poisoned (s.keyOf a.ctx) (lineNo p.addr) then .error (.fault (.poison, 0) va)
    else .ok ((s.walked a va p).load a false p.cls p.addr n)

/-- Loads of words from an address on. -/
def State.loadsAt (a : Agent) (unit : Bool) : State → Word → Nat → Except Stop (List Nat × State)
  | s, _, 0 => .ok ([], s)
  | s, va, n + 1 =>
    match s.loadAt a unit va 8 with
    | .error e => .error e
    | .ok (w, s) =>
      match State.loadsAt a unit s (va + 8) n with
      | .error e => .error e
      | .ok (ws, s) => .ok (w :: ws, s)

/-- An atomic on up to 8 bytes; the page must be in the order of R88 (R87). -/
def State.atomAt (s : State) (a : Agent) (unit : Bool) (va : Word) (n : Nat) (f : Nat → Nat) : Except Stop (Nat × State) :=
  if s.classBad a .write ordered va then .error (.fault (.illegalOperand, 0) va)
  else
    match s.place a unit .write va with
    | .error e => .error e
    | .ok p =>
      if s.poisoned (s.keyOf a.ctx) (lineNo p.addr) then .error (.fault (.poison, 0) va)
      else .ok ((s.walked a va p).rmw a p.cls p.addr n f)

/-! ### Layout records (R77, R78, R82) -/

/-- A field of a layout record. -/
def rec (r : BitVec 768) (lo n : Nat) : Nat := (r.extractLsb' lo n).toNat

/-- The element width of a format (R78); 8 for the reserved ones. -/
def efmtBits (e : Nat) : Nat :=
  match e with
  | 0 | 1 | 5 => 16
  | 2 | 6 => 32
  | 3 | 7 => 64
  | 9 => 6
  | 10 => 4
  | _ => 8

/-- `EFMT` of a record. -/
def recEfmt (r : BitVec 768) : Nat := rec r 8 4
/-- Element width of a record. -/
def recEs (r : BitVec 768) : Nat := efmtBits (recEfmt r)
/-- `PNREG` of a record. -/
def recPnreg (r : BitVec 768) : Nat := rec r 21 3
/-- `E`d of a record. -/
def recExt (r : BitVec 768) (d : Nat) : Nat := rec r (128 + 32 * d) 32
/-- `ST`d of a record for d from 1, signed. -/
def recStride (r : BitVec 768) (d : Nat) : Int := (r.extractLsb' (320 + 64 * (d - 1)) 64).toInt
/-- `W`d + 1 of a record. -/
def recWin (r : BitVec 768) (d : Nat) : Nat := rec r (640 + 8 * d) 8 + 1
/-- `RANK` of a record. -/
def recRank (r : BitVec 768) : Nat := rec r 4 3
/-- `PARCEL` of a record. -/
def recParcel (r : BitVec 768) : Bool := r.getLsbD 20
/-- `PLATB` of a record. -/
def recPlat (r : BitVec 768) : Word := r.extractLsb' 704 64
/-- `BASE` of a record. -/
def recBase (r : BitVec 768) : Word := r.extractLsb' 64 64

/-- Bytes of a parcel block (R82). -/
def parcelBytes (r : BitVec 768) : Nat := (8 * (1 + recPnreg r) + recEs r / 8 + 7) / 8 * 8

/-- The context word of a parcel (R82). -/
def parcelVa (r : BitVec 768) (i : Nat) : Word := recBase r + BitVec.ofNat 64 (i * parcelBytes r)

/-- Rows of the plat: awake 0, next 1, timer 2 (R167). -/
def rowVa (r : BitVec 768) (which c i : Nat) : Word :=
  let l := (recExt r 0 + 2047) / 2048 * 256
  recPlat r + BitVec.ofNat 64 (256 + (3 * c + which) * l + i / 64 * 8)

/-- A row bit set or cleared by one atomic (R167). -/
def State.rowBit (s : State) (a : Agent) (unit : Bool) (r : BitVec 768) (which c i : Nat) (on : Bool) : Except Stop State :=
  (s.atomAt a unit (rowVa r which c i) 8 (fun w =>
    let b := w / 2 ^ (i % 64) % 2 == 1
    if b == on then w else if on then w + 2 ^ (i % 64) else w - 2 ^ (i % 64))).map (·.2)

/-- Fields of a context word (R165). -/
def cwCont (w : Nat) : Nat := field w 0 16
/-- `WKIND`. -/
def cwKind (w : Nat) : Nat := field w 16 4
/-- `NREG`. -/
def cwNreg (w : Nat) : Nat := field w 20 4
/-- `WARG`. -/
def cwArg (w : Nat) : Nat := field w 24 40
/-- A context word from its fields. -/
def cwMake (cont kind nreg arg : Nat) : Nat := cont + kind * 2 ^ 16 + nreg * 2 ^ 20 + arg % 2 ^ 40 * 2 ^ 24

/-- The retired word (R166). -/
def cwRetired (nreg : Nat) : Nat := cwMake 0xFFFF 0 nreg 0

/-- A condition of an address wait: codes of R166. -/
def parcelCond (code : Nat) (x y : Word) : Bool :=
  match code with
  | 0 => x == y
  | 1 => x != y
  | 2 => decide (y.toNat ≤ x.toNat)
  | 3 => decide (x.toNat < y.toNat)
  | 4 => decide (y.toInt ≤ x.toInt)
  | _ => decide (x.toInt < y.toInt)

/-- A load of a test; where it faults, the condition counts as holding (R174, R175). -/
def State.testLoad (s : State) (a : Agent) (unit : Bool) (va : Word) (f : Nat → State → Except Stop (Bool × State)) :
    Except Stop (Bool × State) :=
  match s.loadAt a unit va 8 with
  | .ok q => f q.1 q.2
  | .error (.fault _ _) => .ok (true, s)
  | .error (.fill k va) => .error (.fill k va)
  | .error (.wait l) => .error (.wait l)

/-- Whether the condition of a parcel in an address wait holds, by loads at the home slice (R174, R175). The word address is used as
it stands, whatever its alignment and page class (entry 147). -/
def State.parcelTest (s : State) (a : Agent) (unit : Bool) (r : BitVec 768) (i word : Nat) : Except Stop (Bool × State) :=
  let at_ (k : Nat) : Word := parcelVa r i + BitVec.ofNat 64 (8 * k)
  s.testLoad a unit (at_ 1) fun va s => s.testLoad a unit (at_ 2) fun y s => s.testLoad a unit (BitVec.ofNat 64 va) fun x s =>
    .ok (parcelCond (cwArg word % 8) (BitVec.ofNat 64 x) (BitVec.ofNat 64 y), s)

/-- A parcel made ready in the awake row of its continuation (R175). -/
def State.parcelReady (s : State) (a : Agent) (unit : Bool) (r : BitVec 768) (i word : Nat) : Except Stop State := do
  let (_, s) ← s.atomAt a unit (parcelVa r i) 8 (fun _ => cwMake (cwCont word) 0 (cwNreg word) 0)
  s.rowBit a unit r 0 (cwCont word) i true

/-- The wake of a parcel that waits in kind 2 or 3 by its key, or its test anew: it becomes ready, or stays (R175). -/
def State.wakeParcel (s : State) (a : Agent) (r : BitVec 768) (i kind : Nat) (hit : Bool) : Except Stop (Bool × State) := do
  let (w, s) ← s.loadAt a false (parcelVa r i) 8
  if cwKind w ≠ kind then .ok (true, s)
  else
    let (ends, s) ←
      if kind = 2 then s.parcelTest a false r i w
      else if hit then .ok (true, s)
      else (s.loadAt a false (parcelVa r (cwArg w)) 8).map (fun q => (cwCont q.1 == 0xFFFF, q.2))
    if ends then (s.parcelReady a false r i w).map (fun s => (true, s)) else .ok (false, s)

/-! ### The wait-and-wake table -/

/-- The distinct keys that hold a table entry (R272). -/
def State.tableKeys (s : State) : List (Nat × Word) :=
  (s.regs.filter (fun r => !r.retry && !r.woken)).foldl
    (fun ks r => if ks.contains (r.ctx, r.key) then ks else (r.ctx, r.key) :: ks) []

/-- No entry is free for a key (R272). -/
def State.tableFull (s : State) (c : Nat) (key : Word) : Bool :=
  decide (65536 ≤ s.tableKeys.length) && !s.tableKeys.contains (c, key)

/-- A waiter registered at a key, or parked on the retry list while the table is full (R272). -/
def State.register (s : State) (c : Nat) (key : Word) (w : Waiter) : State :=
  { s with regs := s.regs ++ [{ ctx := c, key := key, who := w, retry := s.tableFull c key, woken := false }] }

/-- `STATE` of a host-wait entry written (R360). -/
def State.hostState (s : State) (entry n : Nat) : State :=
  s.deviceStore (backing 2 entry + 16) 1 n

/-- The write of a host waiter's wake line: `COUNT` + 1 and `STATE` 3 (R360). -/
def State.hostWoken (s : State) (entry : Nat) : State :=
  let a := backing 2 entry
  (s.deviceStore (a + 8) 8 (readN s.mem (a + 8) 8 + 1)).hostState entry 3

/-- A parcel's registration at a wake of its key, or at a retest: none when its wait is over. One whose words cannot be
reached now is woken, and retests (R100, R175, R272; entry 140). -/
def State.parcelStep (s : State) (a : Agent) (r : Reg_) (rc : BitVec 768) (i kind : Nat) (hit : Bool) : Option Reg_ × State :=
  match s.wakeParcel { a with ctx := r.ctx, level := s.ctxLevel r.ctx } rc i kind hit with
  | .ok (true, s) => (none, s)
  | .ok (false, s) => (some { r with retry := r.retry && s.tableFull r.ctx r.key, woken := false }, s)
  | .error _ => (some { r with woken := r.woken || hit || kind == 2 }, s)

/-- Retests or wakes one registration in a walk of the table: the registrations kept so far, those woken, and the
state. A held registration of a parcel in kind 3 is woken with its key, and not counted (R175, R271, R272). -/
def State.wakeStep (a : Agent) (c : Nat) (key : Word) (count : Nat)
    (p : List Reg_ × Nat × State) (r : Reg_) : List Reg_ × Nat × State :=
  let hit := r.ctx == c && r.key == key && !r.retry && !r.woken && (count == 0 || decide (p.2.1 < count))
  if hit || (r.retry && !r.woken) then
    let n := if hit then p.2.1 + 1 else p.2.1
    match r.who with
    | .lanes _ _ _ => (p.1 ++ [{ r with woken := true }], n, p.2.2)
    | .host _ e =>
      if hit then (p.1, n, p.2.2.hostWoken e)
      else if p.2.2.tableFull r.ctx r.key then (p.1 ++ [r], n, p.2.2)
      else (p.1 ++ [{ r with retry := false }], n, p.2.2.hostState e 2)
    | .parcel rc i k =>
      let w := p.2.2.parcelStep a r rc i k (r.ctx == c && r.key == key)
      (p.1 ++ w.1.toList, n, w.2)
  else (p.1 ++ [r], p.2.1, p.2.2)

/-- A registration in a walk of the woken parcels. -/
def State.retestStep (p : List Reg_ × State) (r : Reg_) : List Reg_ × State :=
  match r.who, r.woken with
  | .parcel rc i k, true =>
    let w := p.2.parcelStep (p.2.deviceAgent r.ctx) r rc i k true
    (p.1 ++ w.1.toList, w.2)
  | .parcel _ _ _, false | .lanes _ _ _, _ | .host _ _, _ => (p.1 ++ [r], p.2)

/-- The parcels whose retest waits for a line or a page retest (R100, R175). -/
def State.retestParcels (s : State) : State :=
  let r := s.regs.foldl State.retestStep ([], s)
  { r.2 with regs := r.1 }

/-- `WAKE` of up to `count` waiters of a key, oldest first, 0 for all; every parked waiter retests (R271, R272).
Answers the number woken. -/
def State.wakeKey (s : State) (a : Agent) (c : Nat) (key : Word) (count : Nat) : Nat × State :=
  let r := s.regs.foldl (State.wakeStep a c key count) ([], 0, s)
  (r.2.1, { r.2.2 with regs := r.1 })

/-- The registrations of lanes of a group removed (R186). -/
def State.dropLanes (s : State) (team grp : Nat) (m : Lanes) : State :=
  { s with regs := s.regs.filterMap (fun r => match r.who with
      | .lanes t g ls =>
        if t = team ∧ g = grp then
          if ls &&& ~~~m = 0 then none else some { r with who := .lanes t g (ls &&& ~~~m) }
        else some r
      | .parcel _ _ _ => some r
      | .host _ _ => some r) }

/-- The registration of a parcel removed. -/
def State.dropParcel (s : State) (c : Nat) (r : BitVec 768) (i : Nat) : State :=
  { s with regs := s.regs.filter (fun x => match x.who with
      | .parcel rc j _ => !(x.ctx == c && j == i && recBase rc == recBase r)
      | .lanes _ _ _ => true
      | .host _ _ => true) }

/-- A parcel registered in kind 2 at its address, or in kind 3 at the word of another parcel. A condition that
already holds, or a retired target, makes it ready instead (R174). -/
def State.registerParcel (s : State) (a : Agent) (unit : Bool) (r : BitVec 768) (i word : Nat) : Except Stop State := do
  if cwKind word = 2 then
    let (ends, s) ← s.parcelTest a unit r i word
    if ends then s.parcelReady a unit r i word
    else
      let (va, s) ← s.loadAt a unit (parcelVa r i + 8) 8
      .ok (s.register a.ctx (signVa (BitVec.ofNat 64 va)) (.parcel r i 2))
  else
    let j := cwArg word
    let (w, s) ← s.loadAt a unit (parcelVa r j) 8
    if cwCont w = 0xFFFF then s.parcelReady a unit r i word
    else .ok (s.register a.ctx (parcelVa r j) (.parcel r i 3))

end Sys2Proof.Machine
end

