-- ==== Sys2Proof/Machine/Records.lean ====
section
/-!
DEFINITION. Replay records: what each unit writes when it parks (R192, R193, R196-R198), and how the engines of a
context park by pre-emption (R337, R338).
-/
namespace Sys2Proof.Machine

/-- For whom an operation makes its accesses. -/
def Op.agent (o : Op) : Agent :=
  { core := o.core, ctx := o.ctx, team := o.team, grp := o.grp, level := o.level, ord := some o.ord, op := some o.no }

/-- Words stored from an address on by the device for a group, or the first fault met (R186 step 3). -/
def State.storeWords (a : Agent) : State → Word → List Nat → Except (Kind × Nat) State
  | s, _, [] => .ok s
  | s, va, w :: ws =>
    match s.seekNow a .write va with
    | .error e => .error e
    | .ok p =>
      if s.poisoned (s.keyOf a.ctx) (lineNo p.addr) then .error (.poison, 0)
      else State.storeWords a ((s.walked a va p).store a p.cls p.addr 8 w) (va + 8) ws

/-- Words loaded from an address on, or the first fault met. -/
def State.loadWords (a : Agent) : State → Word → Nat → Except (Kind × Nat) (List Nat × State)
  | s, _, 0 => .ok ([], s)
  | s, va, n + 1 =>
    match s.vload a va 8 with
    | .error e => .error e
    | .ok (w, s) =>
      match State.loadWords a s (va + 8) n with
      | .error e => .error e
      | .ok (ws, s) => .ok (w :: ws, s)

/-- The value of a word, for a check before its access. -/
def State.peek (s : State) (a : Agent) (va : Word) (n : Nat) : Nat :=
  match s.seekNow a .read va with
  | .error _ => 0
  | .ok p => (s.readKey (s.keyOf a.ctx) p.addr n).1

/-! ### Context descriptors (R332) -/

/-- The code of a context state (R331). -/
def CtxSt.code : CtxSt → Nat
  | .free => 0
  | .idle => 1
  | .running => 2
  | .shadowed => 3
  | .spilled => 4
  | .halted => 5

/-- The address of the descriptor of a slot, once the table is placed. -/
def State.descAddr (s : State) (c : Nat) : Option Nat :=
  if c < 1024 then s.dev.ctxTable.map (fun b => backing 0 (b + 64 * c)) else none

/-- The words of a descriptor. -/
def Ctx.desc (x : Ctx) : List Nat :=
  let e := x.err.getD (0, 0, 0, 0, 0)
  [x.st.code + (if x.light then 16 else 0) + (if x.ctrl then 32 else 0) + x.prio % 16 * 2 ^ 8 + x.part % 128 * 2 ^ 16
     + x.quant % 2 ^ 32 * 2 ^ 32,
   x.ptroot.toNat, x.savea.toNat, x.bindt.toNat,
   e.1 % 256 + e.2.1 % 16 * 2 ^ 8 + e.2.2.1 % 2 ^ 24 * 2 ^ 16 + e.2.2.2.1 % 16 * 2 ^ 40, e.2.2.2.2.toNat, 0, 0]

/-- The device writes the descriptor of a slot. -/
def State.writeDesc (s : State) (c : Nat) : State :=
  match s.descAddr c with
  | none => s
  | some a => ((s.ctx c).desc.zipIdx).foldl (fun s (w : Nat × Nat) => s.deviceStore (a + 8 * w.2) 8 w.1) s

/-- `PRIO` and `QUANT` as a scheduling decision reads them from the descriptor (R332). -/
def State.readDesc (s : State) (c : Nat) : State :=
  match s.descAddr c with
  | none => s
  | some a =>
    let w := s.deviceRead a 8
    s.onCtx c (fun x => { x with prio := field w 8 4, quant := field w 32 32 })

/-- A context in a new state, with its descriptor. -/
def State.setCtxSt (s : State) (c : Nat) (st : CtxSt) : State :=
  ((s.readDesc c).onCtx c (fun x => { x with st := st })).writeDesc c

/-! ### Records (R192, R196-R198) -/

/-- Fields of the given sizes in bytes, little-endian, as one number. -/
def joinFields : List (Nat × Nat) → Nat
  | [] => 0
  | (n, v) :: fs => v % 256 ^ n + 256 ^ n * joinFields fs

/-- The bytes that fields take. -/
def fieldBytes (fs : List (Nat × Nat)) : Nat := fs.foldl (fun n f => n + f.1) 0

/-- A number as 8-byte words. -/
def wordsOfNum (n v : Nat) : List Nat := (List.range n).map (fun k => v / 2 ^ (64 * k) % 2 ^ 64)

/-- A signed number in 32 bits. -/
def int32 (x : Int) : Nat := (x % 2 ^ 32).toNat

/-- The address of a group's replay-area offset. -/
def State.replayVa (s : State) (team grp off : Nat) : Word := (s.group team grp).s2 + BitVec.ofNat 64 off

/-- The size of the replay area: `Z` of the kernel header (R188, R321). -/
def State.replaySize (s : State) (team : Nat) : Nat :=
  match find (s.team team).grid s.grids with
  | some g => g.hdr.z
  | none => 0

/-- The bytes of a ray's region: Q (R196). -/
def State.rayBytes (s : State) (team grp : Nat) : Nat :=
  (s.replaySize team - 9216) / (16 * (s.group team grp).width) * 16

/-- The depth of a ray's stack, in hardware and in the replay area (R157, R196). -/
def Ray.depth (r : Ray) : Nat := r.spilled + r.stack.length

/-- The frame of a ray (R196). A ray that stands at a candidate is recorded in progress before the candidate's triangle,
at which a resumption stops it again (entry 135). -/
def Ray.frame (r : Ray) : List (Nat × Nat) :=
  [(8, r.node.getD 0)] ++ (List.range 3).map (fun k => (8, r.recs.getD k 0)) ++
  [(4, r.tmax), (4, r.bestT), (4, r.prim), (4, r.geom)] ++ (List.range 3).map (fun k => (4, r.inst.getD k 0)) ++
  [(2, r.depth), (1, r.level), (1, r.tri),
   (1, (if r.status = 5 then 0 else r.status) + 16 * r.child + (if r.bestValid then 128 else 0)), (63, 0)]

/-- A stack entry of a ray (R196). -/
def rayEntry (x : Nat × Nat × Nat) : List (Nat × Nat) := [(8, x.1), (4, x.2.1), (4, x.2.2)]

/-- Entries of a stack as memory holds them, from the bottom. -/
def rayEntries (es : List (Nat × Nat × Nat)) : List (Nat × Nat) := es.reverse.flatMap rayEntry

/-- Entries of the pair stack as memory holds them, from the bottom (R197). -/
def pairEntries (es : List (Nat × Nat)) : List (Nat × Nat) := es.reverse.flatMap (fun x => [(8, x.1), (8, x.2)])

/-- The unit code of an operation's engine, 0 for one that parks no record (R192). -/
def Body.unit : Body → Nat
  | .ray _ => 1
  | .pair _ => 2
  | .tex _ => 3
  | .rast _ => 4
  | .copy _ => 5
  | .drain | .near _ | .crest _ => 0

/-- The counter of an outstanding instruction as records hold it. -/
def State.dcOf (s : State) (team grp : Nat) (pend : Option Nat) : Nat :=
  match pend with
  | none => 0xFF
  | some p => match find p (s.group team grp).pend with
    | some { dc := some k, .. } => k.toNat
    | some { dc := none, .. } => 0xFF
    | none => 0xFF

/-- The body of an operation's record (R196-R198). -/
def State.recordBody (s : State) (o : Op) : List (Nat × Nat) :=
  match o.body with
  | .ray r =>
    [(8, r.lanes.toNat), (8, r.live.toNat), (1, if r.cont then 1 else 0), (1, if r.packet then 1 else 0), (2, 0),
     (4, s.rayBytes o.team o.grp), (8, 0)]
  | .pair p =>
    [(8, p.f), (8, p.g), (8, (p.pending.getD (0, 0)).1), (8, (p.pending.getD (0, 0)).2), (4, p.seqno), (4, p.spilled + p.stack.length),
     (1, (if p.self then 1 else 0) + (if p.pending.isSome then 2 else 0) + (if p.overflowed then 4 else 0)), (7, 0),
     (4, p.tag), (4, 0), (8, p.list.toNat)]
  | .tex t => [(8, t.done.toNat), (1, t.quad), (7, 0)]
  | .rast r => [(4, r.tri), (1, r.stage), (3, 0), (2, r.px), (2, r.py), (4, r.appended), (16, 0)]
  | .copy c =>
    [(8, c.handle.toNat)] ++ (List.range 5).map (fun d => (4, int32 (c.org.getD d 0))) ++
    [(4, c.share), (4, c.row), (1, c.form), (1, s.dcOf o.team o.grp o.pend), (2, 0),
     (8, if c.form % 2 = 1 then c.mem else 0)]
  | .drain | .near _ | .crest _ => []

/-- The header of a record (R192). -/
def recordHeader (unit : Nat) (p : Park) (len : Nat) (token : Word) : List (Nat × Nat) :=
  [(1, unit), (1, if p.sector.isSome then 0 else p.kind.code),
   (2, 1 + (if p.delivered then 2 else 0) + (if p.sector.isSome then 4 else 0) + (if p.preempt then 8 else 0)),
   (2, len), (1, 1), (1, 0), (8, p.va.toNat), (8, p.tick), (8, token.toNat)]

/-- Fields stored from an address on by the device for a group; what cannot be written is lost. -/
def State.storeFields (s : State) (a : Agent) (va : Word) (fs : List (Nat × Nat)) : State :=
  match State.storeWords { a with level := .control } s va (wordsOfNum ((fieldBytes fs + 7) / 8) (joinFields fs)) with
  | .ok s => s
  | .error _ => s

/-- A record written: the body first, then the header (R193). -/
def State.storeRecord (s : State) (a : Agent) (slot : Word) (unit : Nat) (p : Park) (token : Word)
    (body : List (Nat × Nat)) : State :=
  (s.storeFields a (slot + 32) body).storeFields a slot (recordHeader unit p (fieldBytes body) token)

/-- What a unit writes beside its record: rays' regions, or the pair stack, as far as they are not there already (R196,
R197). -/
def State.storeSpill (s : State) (o : Op) : State :=
  match o.body with
  | .ray r =>
    let q := s.rayBytes o.team o.grp
    (lanesOf r.lanes).foldl (fun s i =>
      match find i (s.group o.team o.grp).rays with
      | none => s
      | some y =>
        let s := s.storeFields o.agent (s.replayVa o.team o.grp (0x2400 + i * q)) y.frame
        s.storeFields o.agent (s.replayVa o.team o.grp (0x2480 + i * q + 16 * y.spilled)) (rayEntries y.stack)) s
  | .pair p => s.storeFields o.agent (s.replayVa o.team o.grp (0x2400 + 16 * p.spilled)) (pairEntries p.stack)
  | .tex _ | .rast _ | .copy _ | .drain | .near _ | .crest _ => s

/-- The address of the record slot of a unit of a group. -/
def State.slotVa (s : State) (team grp unit : Nat) : Word := s.replayVa team grp (0x400 * unit)

/-- A park at a fault. -/
def Park.fault (s : State) (f : Kind × Nat) (va : Word) : Park :=
  { kind := f.1, detail := f.2, va := va, sector := none, preempt := false, delivered := false, tick := s.dev.datum }

/-- A park at a page-cache miss (R194). -/
def Park.fill (s : State) (sector : Nat) (va : Word) : Park :=
  { kind := .none, detail := 0, va := va, sector := some sector, preempt := false, delivered := false,
    tick := s.dev.datum }

/-- The trace record of a unit that parks (R381). -/
def State.emitPark (s : State) (a : Agent) (unit : Nat) (p : Park) (token : Word) : State :=
  let tag := unit + (if p.preempt then 16 else 0) + (if p.sector.isSome then 32 else 0)
  if unit = 4 then s.emit 1 (a.core / 8) a.ctx 8 tag p.va.toNat token.toNat (s.ident a.team a.grp)
  else s.emit 0 a.core a.ctx 8 tag p.va.toNat token.toNat (s.ident a.team a.grp)

/-- A unit that parks on a page-cache miss asks for its sector (R194, R355). -/
def State.parkDemand (s : State) (core : Nat) (p : Park) : State :=
  match p.sector with
  | none => s
  | some k => s.demandSector core k

/-- An operation parks with its record (R193). -/
def State.parkOp (s : State) (id : Nat) (p : Park) : State :=
  match find id s.ops with
  | none => s
  | some o =>
    let u := o.body.unit
    let s := if u = 0 then s
      else ((s.storeSpill o).storeRecord o.agent (s.slotVa o.team o.grp u) u p o.token (s.recordBody o)).emitPark
        o.agent u p o.token
    (s.parkDemand o.core p).onOp id (fun o => { o with park := some p, held := o.held || u != 0 })

/-- The record in a slot is no longer valid (R193). -/
def State.clearSlot (s : State) (a : Agent) (slot : Word) : State :=
  match State.loadWords { a with level := .control } s slot 1 with
  | .error _ => s
  | .ok (w :: _, s) => s.storeFields a slot [(8, if w / 65536 % 2 = 1 then w - 65536 else w)]
  | .ok ([], s) => s

/-- The record of an operation that completes or ends is no longer valid (R193). -/
def State.clearRecord (s : State) (o : Op) : State :=
  if o.held then s.clearSlot o.agent (s.slotVa o.team o.grp o.body.unit) else s

/-! ### The matrix sequencer -/

/-- A sequencer changed. -/
def State.onSeq (s : State) (t : Nat) (f : Seq → Seq) : State := s.onTeam t (fun x => { x with seq := f x.seq })

/-- For whom the sequencer makes its accesses (R103). -/
def State.seqAgent (s : State) (t : Nat) : Agent :=
  let tm := s.team t
  { core := tm.core.getD 0, ctx := tm.ctx, team := t, grp := tm.seq.grp, level := tm.seq.level, ord := some tm.seq.ord,
    op := tm.seq.op }

/-- The body of the sequencer's record (R198). -/
def Seq.record (q : Seq) : List (Nat × Nat) :=
  let ls := q.loops.reverse
  [(8, q.at_.toNat), (8, q.start.toNat)] ++ (List.range 4).map (fun k => (4, (ls.getD k (0, 0)).1)) ++
  (List.range 4).map (fun k => (4, (ls.getD k (0, 0)).2)) ++
  [(2, if q.back = .atBarrier then (if q.phase then 1 else 0) else q.cursor), (1, q.loops.length),
   (1, match q.back with
     | .idle => 0
     | .atBarrier => 2
     | .atShelf => 3
     | .running | .parked => 4),
   (2, q.fmtA.toNat), (2, q.fmtB.toNat), (4, q.amax), (4, 0)]

/-- The sequencer parks with its record (R288, R193). -/
def State.seqPark (s : State) (t : Nat) (p : Park) : State :=
  let s := s.onSeq t (fun q =>
    { q with st := .parked, back := if q.st = .parked then q.back else q.st, park := some p, held := true })
  let q := (s.team t).seq
  ((s.storeRecord (s.seqAgent t) (s.slotVa t q.grp 7) 7 p q.token q.record).emitPark (s.seqAgent t) 7 p q.token).parkDemand
    (s.seqAgent t).core p

/-! ### Sweep engines -/

/-- For whom an engine of a sweep makes its accesses (R103). -/
def State.sweepAgent (s : State) (w : Sweep) (x : Engine) : Agent :=
  { core := (s.team x.team).core.getD 0, ctx := w.ctx, team := w.team, grp := w.grp, level := w.level, ord := some w.ord }

/-- An engine of a sweep changed. -/
def State.onEngine (s : State) (sw rank : Nat) (f : Engine → Engine) : State :=
  { s with sweeps := adjust sw (fun w => { w with engines := adjust rank f w.engines }) s.sweeps }

/-- The phase code of a record: a build is recorded as a claim at its parcel, the end of a pass as the barrier's last step
(R198; entry 141). -/
def SweepPhase.code : SweepPhase → Nat
  | .build | .claim => 0
  | .admission => 1
  | .writeback => 2
  | .barrier1 => 3
  | .barrier2 => 4
  | .barrier3 | .done => 5

/-- The mode code of a record (R198). -/
def sweepModeCode : SweepMode → Nat
  | .one => 0
  | .n => 1
  | .quiet => 2

/-- The body of an engine's record (R198). -/
def Sweep.recordOf (w : Sweep) (x : Engine) : List (Nat × Nat) :=
  let wb (q : Nat) : Nat := match find q x.wb with
    | none => 0xFF
    | some y => y.1 + y.2.1 * 2 ^ 8 + y.2.2 * 2 ^ 16
  [(8, x.pass), (2, x.cc), (1, sweepModeCode w.mode), (1, x.phase.code), (4, if x.phase = .build then x.next else (x.cursor + 2 ^ 32 - 1) % 2 ^ 32),
   (8, w.handle.toNat), (8, w.table.toNat), (2, w.left % 65536), (1, w.role), (5, 0),
   (8, wb 0), (8, wb 1), (8, wb 2), (8, wb 3)]

/-- The record slot of an engine in the sweep area (R192). -/
def Sweep.slot (w : Sweep) (rank : Nat) : Word := w.area + BitVec.ofNat 64 (1024 * rank)

/-- An engine parks with its record in the sweep area (R182, R192). -/
def State.parkEngine (s : State) (sw rank : Nat) (p : Park) : State :=
  match find sw s.sweeps with
  | none => s
  | some w =>
    match find rank w.engines with
    | none => s
    | some x =>
      let a := s.sweepAgent w x
      let s := (s.storeRecord a (w.slot rank) 6 p w.token (w.recordOf x)).emitPark a 6 p w.token
      (s.parkDemand a.core p).onEngine sw rank (fun x => { x with park := some p, held := true })

/-! ### Parking by pre-emption (R337, R338) -/

/-- A park by pre-emption. -/
def Park.preempted (s : State) : Park :=
  { kind := .none, detail := 0, va := 0, sector := none, preempt := true, delivered := false, tick := s.dev.datum }

/-- The operation gives up the lines that it has not written (R338). -/
def Op.giveUp (o : Op) : Op := { o with need := o.need ++ o.own, own := [], etimes := [], e := none }

/-- An operation in progress parks by pre-emption and gives up its lines; one outside the cores goes on, and one that
has not begun stays as it is (R192, R337, R338). -/
def State.haltOp (s : State) (id : Nat) : State :=
  match find id s.ops with
  | none => s
  | some o =>
    if o.body.unit = 0 || o.park.isSome || !o.begun || o.spent then s
    else (s.parkOp id (Park.preempted s)).onOp id Op.giveUp

/-- The sequencer of a team parks by pre-emption, and its drain gives up its lines. -/
def State.haltSeq (s : State) (t : Nat) : State :=
  let q := (s.team t).seq
  if q.st = .idle ∨ q.st = .parked then s
  else
    let s := s.seqPark t (Park.preempted s)
    match q.op with
    | none => s
    | some o => s.onOp o Op.giveUp

/-- The operations of a context that is saved, begun or not, give up the lines that they have not written (R338). -/
def State.surrender (s : State) (c : Nat) : State :=
  { s with ops := s.ops.map (fun e =>
      match e.2.body with
      | .copy _ | .tex _ | .rast _ | .ray _ | .pair _ | .drain => if e.2.ctx = c then (e.1, e.2.giveUp) else e
      | .near _ | .crest _ => e) }

/-- The engines of a sweep park by pre-emption. -/
def State.haltSweep (s : State) (sw : Nat) : State :=
  match find sw s.sweeps with
  | none => s
  | some w => w.engines.foldl (fun s e =>
      if e.2.park.isSome || e.2.abandoned then s else s.parkEngine sw e.1 (Park.preempted s)) s

/-- Every engine of a context parks at its boundary (R337). -/
def State.parkAll (s : State) (c : Nat) : State :=
  let s := s.ops.foldl (fun s e => if e.2.ctx = c then s.haltOp e.1 else s) s
  let s := s.teams.foldl (fun s e => if e.2.ctx = c then s.haltSeq e.1 else s) s
  s.sweeps.foldl (fun s e => if e.2.ctx = c then s.haltSweep e.1 else s) s

end Sys2Proof.Machine
end

