-- ==== Sys2Proof/Machine/Fetch.lean ====
section
/-!
DEFINITION. What the selector sees of code and of paths: cached lines, code objects and their versions, headers and their
checks (R69, R199-R202, R210-R215), and the candidates of a core (R28, R33).
-/
namespace Sys2Proof.Machine

/-- The code of a level in a frame (R188). -/
def Level.code : Level → Nat
  | .user => 0
  | .control => 1
  | .machine => 2

/-- A level may use what a required level adds (R20). -/
def Level.atLeast (have_ needed : Level) : Bool := decide (needed.code ≤ have_.code)

/-! ### The instruction cache (R69) -/

/-- The instruction-cache key of the line of 128 bytes that holds an address. -/
def icKey (c : Nat) (va : Word) : Nat := c * 2 ^ 57 + va.toNat / 128

/-- The address of the line that holds an address. -/
def icLine (va : Word) : Word := va &&& ~~~127

/-- The lines from an address on for a number of bytes. -/
def icLines (va : Word) (n : Nat) : List Word :=
  (List.range ((va.toNat % 128 + n + 127) / 128)).map (fun k => icLine va + BitVec.ofNat 64 (128 * k))

/-- Bytes from an address on, out of the instruction cache; none when a line is absent. -/
def Core.cached (k : Core) (c : Nat) (va : Word) (n : Nat) : Option (List Byte) :=
  if (icLines va n).all (fun l => (find (icKey c l) k.ic).isSome) then
    some ((((icLines va n).flatMap (fun l => get [] (icKey c l) k.ic)).drop (va.toNat % 128)).take n)
  else none

/-! ### Code objects and versions (R215) -/

/-- An address lies in a code object of a grid (R322). -/
def Grid.holds (g : Grid) (va : Word) : Bool := decide ((va - g.code).toNat < g.hdr.codelen)

/-- The encoding version for a fetch: that of the grid's code object, and 3 for the code of the control program, which a
group above user level runs; none outside every code object. The specification gives the control program's code objects no
bounds (R322; entry 73). -/
def State.versionAt (s : State) (c : Nat) (level : Level) (va : Word) : Option Nat :=
  match s.grids.find? (fun e => e.2.ctx == c && e.2.holds va) with
  | some e => some e.2.hdr.ver
  | none => if level.atLeast .control then some 3 else none

/-- The fault of a fetch at an address for a level (R201, R215, R348, R394). -/
def State.fetchFault (s : State) (core c : Nat) (level : Level) (va : Word) : Option (Kind × Nat) :=
  match s.look core c level .fetch va with
  | .error (.unmapped, d) => some (.unmapped, d / 2 * 2)
  | .error (.protection, d) => some (.protection, d / 4 * 4 + 2)
  | .error f => some f
  | .ok p =>
    if (s.versionAt c level va).isNone then some (.protection, 2)
    else if s.poisoned (s.keyOf c) (lineNo p.addr) then some (.poison, 0)
    else none

/-! ### Headers (R200) -/

/-- The fields of a clause header. -/
structure Head where
  count : Nat
  cls : Nat
  waitz : BitVec 8
  yieldh : Nat
  bodyw : Nat
  tag : Nat
  reserved : Bool
  deriving DecidableEq, Repr

/-- A header decoded. -/
def headOf (h : Nat) : Head :=
  { count := field h 0 4 + 1, cls := field h 4 4, waitz := BitVec.ofNat 8 (field h 8 8), yieldh := field h 16 4
    bodyw := field h 20 6, tag := field h 32 16, reserved := field h 26 6 != 0 || field h 48 16 != 0 }

/-- The words of a run of bytes (R199). -/
def codeWords (bs : List Byte) : List Nat :=
  (List.range (bs.length / 4)).map (fun k => ((bs.drop (4 * k)).take 4).foldr (fun b n => b.toNat + 256 * n) 0)

/-- A number of instructions split off a run of words: their first words and what is left; none at length code 11 or at
the end of the words (R201, R202). -/
def splitInstrs (ver : Nat) : Nat → List Nat → Option (List Nat × List Nat)
  | 0, ws => some ([], ws)
  | _ + 1, [] => none
  | n + 1, w :: ws =>
    let k := w % 4
    if k = 3 ∨ (k = 2 ∧ ver = 1) ∨ ws.length < k then none
    else
      match splitInstrs ver n (ws.drop k) with
      | none => none
      | some r => some (w :: r.1, r.2)

/-- The long opcode into which a short opcode expands (R213). -/
def shortOp (op : Nat) : Option Nat :=
  if op < 64 then [0x082, 0x083, 0x084, 0x087, 0x088, 0x08C, 0x08D, 0x08E][op / 8]?
  else if op < 0x59 then [0x100, 0x101, 0x102, 0x104, 0x105][(op - 64) / 5]?
  else if op < 0x60 then none
  else [0x080, 0x000, 0x007, 0x00B, 0x090, 0x091, 0x092, 0x08B, 0x08B, 0x08B, 0x08F, 0x089, 0x08A, 0x089, 0x08A][op - 0x60]?

/-- The assigned opcodes, as runs from a first to a last (R212). -/
def assignedOps : List (Nat × Nat) :=
  [(0x000, 0x014), (0x040, 0x049), (0x080, 0x099), (0x100, 0x10A), (0x110, 0x11A), (0x120, 0x122), (0x160, 0x168),
   (0x170, 0x174), (0x180, 0x18E), (0x190, 0x193), (0x198, 0x19A), (0x1A0, 0x1A5), (0x1C0, 0x1DD), (0x1E0, 0x1EF),
   (0x1F0, 0x1FE)]

/-- An opcode lies in one of the runs. -/
def inRuns (rs : List (Nat × Nat)) (op : Nat) : Bool := rs.any (fun r => decide (r.1 ≤ op) && decide (op ≤ r.2))

/-- The opcodes that a version lacks (R215). -/
def lackedOps (ver : Nat) : List (Nat × Nat) :=
  if ver = 3 then []
  else [(0x120, 0x122), (0x1EB, 0x1EB), (0x1D6, 0x1DB)] ++ (if ver = 1 then [(0x1CB, 0x1D5)] else [])

/-- The opcode of an instruction by its first word, if it is assigned in a version. -/
def opOf (ver w : Nat) : Option Nat :=
  match if w % 4 = 0 then shortOp (field w 2 7) else some (field w 2 9) with
  | none => none
  | some op => if inRuns assignedOps op && !inRuns (lackedOps ver) op then some op else none

/-- The opcodes that a class permits (R210). -/
def classOps (cls : Nat) : List (Nat × Nat) :=
  let common : List (Nat × Nat) := [(0x000, 0x010), (0x013, 0x1BF)]
  match cls with
  | 0 => common ++ [(0x1C0, 0x1C1), (0x1CB, 0x1D0), (0x1DC, 0x1DD)]
  | 1 => common ++ [(0x1E0, 0x1E8), (0x011, 0x012)]
  | 2 => common ++ [(0x1E9, 0x1EF)]
  | 3 => common ++ [(0x1D1, 0x1DB)]
  | 4 => [(0x1C2, 0x1CA)]
  | _ => common ++ [(0x1F0, 0x1FE)]

/-- Opcodes that stand first: `JOIN` and the cross-lane instructions (R32, R211). -/
def firstOps : List (Nat × Nat) := [(0x009, 0x009), (0x160, 0x168)]

/-- Opcodes that stand last (R211). -/
def lastOps (ver : Nat) : List (Nat × Nat) :=
  [(0x001, 0x007), (0x1F0, 0x1F3), (0x00B, 0x00C), (0x00E, 0x00E), (0x010, 0x011), (0x18D, 0x18D), (0x1A1, 0x1A1),
   (0x1A3, 0x1A3), (0x1A5, 0x1A5), (0x1D5, 0x1D5)] ++ (if ver = 3 then [(0x1C8, 0x1CA)] else [])

/-- The class and the placement of the instructions of a clause, by their first words (R210, R211). -/
def placedOk (ver cls : Nat) (ws : List Nat) : Bool :=
  ws.zipIdx.all (fun (x : Nat × Nat) =>
    match opOf ver x.1 with
    | none => true
    | some op =>
      inRuns (classOps cls) op && (x.2 == 0 || !inRuns firstOps op) && (x.2 + 1 == ws.length || !inRuns (lastOps ver) op))

/-- The longest body and the most instructions of a version (R215). -/
def verLimits (ver : Nat) : Nat × Nat := if ver = 3 then (48, 16) else if ver = 2 then (24, 8) else (16, 8)

/-- A header by itself is malformed for a version (R201, R215). -/
def Head.bad (h : Head) (ver : Nat) : Bool :=
  h.reserved || decide (6 ≤ h.cls) || (ver == 1 && h.cls == 3) || (ver == 1 && h.waitz.toNat / 16 != 0)
    || h.bodyw == 0 || decide ((verLimits ver).1 < h.bodyw) || decide ((verLimits ver).2 < h.count)

/-- The padded body length in bytes. -/
def Head.bytes (h : Head) : Nat := (h.bodyw + 1) / 2 * 8

/-- A clause with its body is malformed: lengths, padding, class or placement (R201). -/
def Head.badBody (h : Head) (ver : Nat) (ws : List Nat) : Bool :=
  (h.bodyw % 2 == 1 && ws.getD h.bodyw 0 != 0)
    || (match splitInstrs ver h.count (ws.take h.bodyw) with
      | some (is, []) => !placedOk ver h.cls is
      | some (_, _ :: _) => true
      | none => true)

/-! ### Candidates (R28, R29, R33) -/

/-- The lanes of `BTAB` paths that are not released yet: those that stand at their target behind a path that has not
issued its first clause (R224). -/
def Group.unreleased (g : Group) : Lanes :=
  (g.btab.foldl (fun (p : Bool × Lanes) (e : Lanes × Word × Bool) =>
    let m := maskOf (fun i => e.1.getLsbD i && g.lanePc i == e.2.1 && (find i g.hdr).isNone)
    (p.1 || (!e.2.2 && e.1 != 0), if p.1 then p.2 ||| m else p.2)) (false, 0)).2

/-- The lanes that wait at an instruction for a unit (R194). -/
def Group.atUnits (g : Group) : Lanes := g.pend.foldl (fun m e => if e.2.holds then m ||| e.2.lanes else m) 0

/-- The lanes in lane state 1 that nothing holds back. -/
def Group.free (g : Group) : Lanes := g.inState 1 &&& ~~~(g.unreleased ||| g.atUnits)

/-- A path of a group: lanes at one program counter, with the clause when they stand inside one. -/
structure Path where
  lanes : Lanes
  pc : Word
  mid : Option (Word × Nat)
  deriving DecidableEq, Repr

/-- The paths among the lanes of a mask, in ascending order of their lowest lanes. Candidates of one group that tie on every key of
R29 keep this order, which the specification does not give (entry 146). -/
def Group.pathsOf (g : Group) (m : Lanes) : List Path :=
  (lanesOf m).foldl (fun (ps : List Path) i =>
    let pc := g.lanePc i
    let mid := find i g.hdr
    if ps.any (fun p => p.pc == pc && p.mid == mid) then
      ps.map (fun p => if p.pc == pc && p.mid == mid then { p with lanes := p.lanes ||| laneBit i } else p)
    else ps ++ [{ lanes := laneBit i, pc := pc, mid := mid }]) []

/-- The paths of a group, those of a 64-lane group half by half (R28, R33). -/
def Group.paths (g : Group) : List Path :=
  if g.width = 64 then g.pathsOf (g.free &&& lowMask 32) ++ g.pathsOf (g.free &&& ~~~(lowMask 32)) else g.pathsOf g.free

/-- What a fetch of the clause at a header finds: a fault of the fetch, an absent line, a malformed clause, or the
header with its body (R201). -/
inductive Fetched where
  | fault (f : Kind × Nat)
  | absent (line : Word)
  | bad
  | clause (h : Head) (ver : Nat) (body : List Byte)
  deriving DecidableEq, Repr

/-- The first line among some bytes that a core's instruction cache lacks. -/
def Core.lacks (k : Core) (c : Nat) (va : Word) (n : Nat) : Option Word :=
  (icLines va n).find? (fun l => (find (icKey c l) k.ic).isNone)

/-- The fetch of the clause at a header by a group of a level (R28, R201, R210). -/
def State.fetchClause (s : State) (core c : Nat) (level : Level) (hdr : Word) : Fetched :=
  let k := s.core core
  match s.fetchFault core c level hdr, k.lacks c hdr 8 with
  | some f, _ => .fault f
  | none, some l => .absent l
  | none, none =>
    let ver := (s.versionAt c level hdr).getD 3
    let hw := codeWords ((k.cached c hdr 8).getD [])
    let h := headOf (hw.headD 0 + 2 ^ 32 * hw.getD 1 0)
    if h.bad ver || h.cls == 4 then .bad
    else
      match s.fetchFault core c level (hdr + BitVec.ofNat 64 (7 + h.bytes)), k.lacks c (hdr + 8) h.bytes with
      | some f, _ => .fault f
      | none, some l => .absent l
      | none, none =>
        let bs := (k.cached c (hdr + 8) h.bytes).getD []
        if h.badBody ver (codeWords bs) then .bad else .clause h ver (bs.take (4 * h.bodyw))

/-- Every dependency counter that a mask selects is zero (R227, R200). -/
def Group.countersClear (g : Group) (mask : BitVec 8) : Bool :=
  (List.range 8).all (fun k => !mask.getLsbD k || g.dreg k == 0)

/-- The counters that the instruction at an offset of a body waits for, if it is a `WAITD` (R227). -/
def waitdMask (body : List Byte) (pos : Nat) : BitVec 8 :=
  let ws := codeWords (body.drop pos)
  if ws.headD 0 % 4 = 1 ∧ field (ws.headD 0) 2 9 = 0x00C then BitVec.ofNat 8 (field (ws.getD 1 0) 14 8) else 0

/-- The header of a path: its clause's, when it stands inside one. -/
def Path.hdr (p : Path) : Word := match p.mid with
  | some m => m.1
  | none => p.pc

/-- The offset in the body at which a path goes on. -/
def Path.pos (p : Path) : Nat := match p.mid with
  | some m => (p.pc - m.1).toNat - 8
  | none => 0

/-- What a path of a group finds at its clause. -/
def State.fetchPath (s : State) (t g : Nat) (p : Path) : Fetched :=
  s.fetchClause ((s.team t).core.getD 0) (s.ctxOf t) (s.group t g).level p.hdr

/-- A path is ready, as far as its clause goes: the lines are there and no counter holds it (R28). -/
def Fetched.ready (f : Fetched) (g : Group) (p : Path) : Bool :=
  match f with
  | .fault _ | .bad => true
  | .absent _ => false
  | .clause h _ body =>
    g.countersClear (if p.mid.isSome then waitdMask body p.pos else h.waitz)

/-- A group has a candidate (R28, R30). -/
def State.hasCandidate (s : State) (t g : Nat) : Bool :=
  let gr := s.group t g
  gr.paths.any (fun p => (s.fetchPath t g p).ready gr p)

end Sys2Proof.Machine
end

