-- ==== Sys2Proof/Machine/Ops.lean ====
section
/-!
DEFINITION. What every instruction shares: the bundle in issue and its members (R28-R31), guards and the checks of
rank 1 (R184, R185), long latency (R207-R209), taking an exception and returning from it (R186-R190).
-/
namespace Sys2Proof.Machine

/-! ### Outstanding instructions (R207-R209) -/

/-- An outstanding instruction that writes nothing. -/
def Pend.zero : Pend :=
  { lanes := 0, all := 0, la := 0, dist := [], dc := none, vw := [], pw := [], sw := [], deadV := [], deadS := [],
    flags := 0, calls := [], left_ := false, ready := true, holds := false, frees := none, uses := none, reqs := false }

/-- An outstanding access to memory that writes nothing (R11). -/
def Pend.access : Pend := { Pend.zero with reqs := true }

/-- Earlier outstanding instructions no longer write what a later one has written (R64). -/
def Group.mapOlder (g : Group) (id : Nat) (f : Pend → Pend) : Group :=
  { g with pend := g.pend.map (fun e => if e.1 < id then (e.1, f e.2) else e) }

/-- The writes of an outstanding instruction to the lanes of a mask (R64). -/
def Group.applyWrites (g : Group) (id : Nat) (p : Pend) (m : Lanes) : Group :=
  let g := p.vw.foldl (fun g e =>
    if m.getLsbD (e.1 % 64) && (find e.1 p.deadV).isNone
    then (g.mapOlder id (Pend.kill e.1)).putV (e.1 / 64) (e.1 % 64) e.2 else g) g
  p.pw.foldl (fun g e =>
    if m.getLsbD (e.1 % 64) && (find (e.1 + 640 * 64) p.deadV).isNone
    then (g.mapOlder id (Pend.kill (e.1 + 640 * 64))).putP (e.1 / 64) (e.1 % 64) e.2 else g) g

/-- The last effects of an outstanding instruction: uniform destinations, flags, and its counter lowered (R209). -/
def Group.retire (g : Group) (id : Nat) (p : Pend) : Group :=
  let g := p.sw.foldl (fun g e =>
    if (find e.1 p.deadS).isNone then (g.mapOlder id (Pend.killS e.1)).putS e.1 e.2 else g) g
  let g := g.raise p.flags
  let g := match p.dc with
    | some k => g.setD k.toNat (g.dreg k.toNat - 1)
    | none => g
  { g with pend := del id g.pend, calls := p.calls.foldl (fun m e => put e.1 e.2 m) g.calls }

/-- A program call due in a lane that has left its clause takes the place of the lane's continuation (R308). -/
def Group.settleLane (g : Group) (i : Nat) : Group :=
  match find i g.calls with
  | none => g
  | some c =>
    if g.state i = 1 ∧ (find i g.hdr).isNone = true then
      let d := get 0 i g.depth + 1
      let back := g.lanePc i
      let g := (g.setV c.2 i back).setPc i c.1
      { g with calls := del i g.calls, depth := put i d g.depth, rets := put (i * 32 + d) back g.rets }
    else g

/-- The program calls due in lanes of a mask. -/
def Group.settle (g : Group) (m : Lanes) : Group :=
  if g.calls.isEmpty then g else (lanesOf m).foldl Group.settleLane g

/-- An outstanding instruction completes in the lanes of a mask; with its last lane it retires (R64, R209). -/
def Group.complete (g : Group) (id : Nat) (m : Lanes) : Group :=
  match find id g.pend with
  | none => g
  | some p =>
    let g := g.applyWrites id p (m &&& p.lanes)
    let rest := p.lanes &&& ~~~m
    if rest = 0 then g.retire id p else { g with pend := adjust id (fun p => { p with lanes := rest }) g.pend }

/-- Every outstanding instruction whose work is done completes (R186 step 1), but for one that waits for the users of a
handle (R85). -/
def Group.completeAll (g : Group) : Group :=
  g.pend.foldl (fun g e => if e.2.ready && e.2.frees.isNone then g.complete e.1 e.2.lanes else g) g

/-- A long-latency instruction begins in the lanes of a mask: its counter rises, and it is outstanding; with no
active lane it completes in its issue slot (R208, R209). Answers its identity. -/
def Group.begin (g : Group) (ll : Ll) (m : Lanes) (p : Pend) : Group × Nat :=
  let id := freeKey g.pend
  if m = 0 then (g, id)
  else
    let g := match ll.dc with
      | some k => g.setD k.toNat (g.dreg k.toNat + 1)
      | none => g
    ({ g with pend := put id { p with lanes := m, all := m, la := ll.la.toNat, dc := ll.dc } g.pend }, id)

/-- Distances of the outstanding instructions after the lanes of a mask execute one more (R208). -/
def Group.advance (g : Group) (m : Lanes) : Group :=
  g.mapPend (fun p => { p with dist := (lanesOf (m &&& p.all)).foldl (fun d i => put i (get 0 i d + 1) d) p.dist })

/-- Distances as they were before the lanes of a mask executed one that they are to execute again (R208, R227). -/
def Group.retreat (g : Group) (m : Lanes) : Group :=
  g.mapPend (fun p => { p with dist := (lanesOf (m &&& p.all)).foldl (fun d i => put i (get 0 i d - 1) d) p.dist })

/-- An instruction of the lanes of a mask waits for an earlier one beyond its lookahead, until that has completed for the
group (R208), or for one that holds its lanes (R194). -/
def Group.beyond (g : Group) (m : Lanes) : Bool :=
  g.pend.any (fun e => e.2.holds && (m &&& e.2.lanes) != 0
    || !e.2.left_ && (lanesOf (m &&& e.2.all)).any (fun i => decide (e.2.la ≤ get 0 i e.2.dist)))

/-! ### Halts -/

/-- The partition's control context (R334). -/
def State.controlOf (s : State) (part : Nat) : Option Nat :=
  (s.ctxs.find? (fun e => e.2.ctrl && e.2.part == part && e.2.st != .free)).map (·.1)

/-- A context halts under R187, in the order of R343; the halt of a control context halts its partition. -/
def State.haltContext (s : State) (c : Nat) (kind : Kind) (unit teamNo grp : Nat) (pc : Word) : State :=
  let part := (s.ctx c).part
  let wasCtrl := (s.ctx c).ctrl
  let s := (s.parkAll c).logHalt c
  let s := (s.onCtx c (fun x => { x with err := some (kind.code, unit, teamNo, grp, pc) })).setCtxSt c .halted
  let s := { s with agenda := s.agenda ++ [Instr.schedulerDecision part] }
  if wasCtrl then { s with parts := adjust part (fun p => { p with halted := true }) s.parts }
  else
    match s.controlOf part, s.descAddr c with
    | some k, some a => (s.wakeKey (s.deviceAgent k) k (BitVec.ofNat 64 (a + 32)) 0).2
    | some _, none => s
    | none, _ => s

/-! ### Taking an exception (R186-R190) -/

/-- An exception to take: kind, detail, unit, offending lanes, `TRAPPC`, and whether it is a user-level interrupt. -/
structure Entry where
  kind : Kind
  detail : Nat
  unit : Nat
  lanes : Lanes
  pc : Word
  ui : Bool
  deriving DecidableEq, Repr

/-- The 128 words of a frame (R188). -/
def Group.frame (g : Group) : List Nat :=
  let pcs := (List.range 64).map (fun i => if i < g.width then (g.lanePc i).toNat else 0)
  let preds (i : Nat) : Nat := if i < g.width then ((get 0 i g.p) ||| 0x8000).toNat else 0
  let ps := (List.range 16).map (fun k =>
    preds (4 * k) + preds (4 * k + 1) * 2 ^ 16 + preds (4 * k + 2) * 2 ^ 32 + preds (4 * k + 3) * 2 ^ 48)
  let sts := (List.range 8).map (fun k => (List.range 8).foldr (fun j x => g.state (8 * k + j) + 256 * x) 0)
  let ss := (List.range 4).map (fun k => (g.sreg (60 + k)).toNat)
  pcs ++ ps ++ sts ++ ss ++ [g.level.code + (if g.uien then 256 else 0)] ++ List.replicate 35 0

/-- A shelf without the wait of a group. -/
def Shelf.dropGroup (h : Shelf) (grp : Nat) : Shelf := { h with wants := h.wants.filter (fun w => w.who != .group grp) }

/-- Every wait of lanes in states 5-9 withdrawn; their codes stay for the frame (R186 step 2). -/
def State.withdraw (s : State) (team grp : Nat) : State :=
  let g := s.group team grp
  let m := maskOf (fun i => decide (5 ≤ g.state i) && decide (g.state i ≤ 9))
  let s := s.dropLanes team grp m
  let s := s.onTeam team (fun t => { t with h := t.h.map (fun e => (e.1, e.2.dropGroup grp)) })
  s.onGroup team grp (fun g => { g with wait := g.wait.filter (fun e => !m.getLsbD e.1) })

/-- Every unexited lane becomes one path in lane state 1 at the handler; where lanes stood in their clauses is kept
for the return (R186 step 5). -/
def Group.toHandler (g : Group) (ui : Bool) (target : Word) : Group :=
  let g := if ui then { g with uiHdr := g.hdr, uiCalls := g.calls, calls := [] }
    else { g with trapHdr := g.hdr, trapCalls := g.calls, calls := [] }
  g.goTo g.live (fun _ => target)

/-- The address of the kernel's interrupt entry: `UIENT` from the kernel header (R190, R321). -/
def State.uiEntry (s : State) (team : Nat) : Word :=
  match find (s.team team).grid s.grids with
  | some g => g.code + BitVec.ofNat 64 g.hdr.uient
  | none => 0

/-- A group takes an exception in the steps of R186, or a user-level interrupt as R190 changes them. A trap at
control level halts the group's context, one at machine level the device (R187); a frame that cannot be written
halts the context. -/
def State.enter (s : State) (a : Agent) (x : Entry) : State :=
  let no := (s.team a.team).no
  match if x.ui then .user else (s.group a.team a.grp).level with
  | .machine => s.onDev (fun d => { d with halted := true })
  | .control => s.haltContext a.ctx x.kind x.unit no a.grp x.pc
  | .user =>
    let s1 := s.onGroup a.team a.grp Group.completeAll
    let g := s1.group a.team a.grp
    let base := g.s2 + (if x.ui then 0x2000 else 0)
    match State.storeWords { a with level := .control } (s1.withdraw a.team a.grp) base g.frame with
    | .error e => s1.haltContext a.ctx e.1 x.unit no a.grp x.pc
    | .ok s2 =>
      let target := if x.ui then s2.uiEntry a.team else (s2.ctx a.ctx).tvec &&& ~~~7
      let s3 := s2.onGroup a.team a.grp (fun g =>
        { (g.toHandler x.ui target) with
          trappc := x.pc
          faultinfo := BitVec.ofNat 64 (x.kind.code + x.unit * 2 ^ 8 + x.detail % 2 ^ 16 * 2 ^ 16)
          faultlanes := x.lanes
          uien := false
          level := if x.ui then g.level else .control })
      s3.emit 0 a.core a.ctx 7 x.kind.code x.pc.toNat x.lanes.toNat (s3.ident a.team a.grp)

/-- A frame read back: 128 words, or none when it holds a reserved lane state, a level above control, or a non-zero
reserved byte (R189). -/
def frameOk (ws : List Nat) : Bool :=
  let w (k : Nat) : Nat := ws.getD k 0
  (List.range 64).all (fun i => decide (w (80 + i / 8) / 256 ^ (i % 8) % 256 ≤ 9))
    && decide (w 92 % 256 ≤ 1) && decide (w 92 / 256 % 256 ≤ 1) && decide (w 92 / 65536 = 0)
    && (List.range 35).all (fun k => w (93 + k) == 0)

/-- A lane of a group restored from a frame (R189): blocked and parked lanes become ready at their instruction, a
sleeping lane at the successor header, and the rest as the frame says. -/
def Group.restoreLane (hdrs : SMap (Word × Nat)) (ws : List Nat) (g : Group) (i : Nat) : Group :=
  let w (k : Nat) : Nat := ws.getD k 0
  let code := w (80 + i / 8) / 256 ^ (i % 8) % 256
  let pc := BitVec.ofNat 64 (w i)
  let p := BitVec.ofNat 16 (w (64 + i / 4) / 2 ^ (16 * (i % 4))) &&& 0x7FFF
  let g := { g with p := set 0 i p g.p, wait := del i g.wait, hdr := del i g.hdr }
  let g := g.setPc i pc
  if code = 0 ∨ code = 2 ∨ code = 3 ∨ code = 4 then g.setState i code
  else
    let g := g.setState i 1
    if code = 9 then g
    else
      match find i hdrs with
      | some h => if 8 ≤ pc - h.1 ∧ pc - h.1 < BitVec.ofNat 64 (8 + 4 * h.2) then { g with hdr := put i h g.hdr } else g
      | none => g

/-- The return from the trap frame, or from the user-interrupt frame: lanes, predicates, `S60`-`S63`, `MODE.UIEN`
and the level (R189). -/
def Group.restore (g : Group) (ui : Bool) (ws : List Nat) : Group :=
  let w (k : Nat) : Nat := ws.getD k 0
  let hdrs := if ui then g.uiHdr else g.trapHdr
  let g := (List.range g.width).foldl (Group.restoreLane hdrs ws) g
  let g := (List.range 4).foldl (fun g k => g.setS (60 + k) (BitVec.ofNat 64 (w (88 + k)))) g
  let g := if ui then { g with uiHdr := [], calls := g.uiCalls, uiCalls := [] }
    else { g with trapHdr := [], calls := g.trapCalls, trapCalls := [] }
  { g with level := if w 92 % 256 = 1 then .control else .user, uien := w 92 / 256 % 2 == 1 }

/-! ### The bundle -/

/-- What an instruction sees in one group: who executes it, its path and active lanes, and where it stands. -/
structure Env where
  core : Nat
  ctx : Nat
  team : Nat
  grp : Nat
  path : Lanes
  act : Lanes
  hdr : Word
  pc : Word
  succ : Word
  bodyw : Nat
  agent : Agent
  deriving DecidableEq, Repr

/-- What becomes of an instruction in one group. -/
inductive Res where
  /-- It takes effect; these lanes leave the clause. -/
  | ok (s : State) (gone : Lanes)
  /-- It faults in the group, with no effect. -/
  | trap (t : Trap)
  /-- Its lanes stay ready at it, with no effect yet (R227). -/
  | again
  /-- The group parks at it, with no effect (R66, R100). -/
  | park (w : Wait)
  deriving DecidableEq, Repr

/-- What is common to the checks of an instruction: guard, one beyond the highest direct `V` number, level, long
latency, whether it is a memory, scratchpad or engine instruction (R99, R107), whether its lanes take a request of the core
each (R11), whether it makes accesses that a recording counts (R389), whether it acts once for the group or starts an engine (R37), and what else holds it in
its issue slot, with the leaf that counts such slots (R386). -/
structure Shape where
  g : Guard
  top : Nat := 0
  level : Level := .user
  ll : Option Ll := none
  mem : Bool := false
  reqs : Bool := false
  acc : Bool := false
  once : Bool := false
  wait : Env → State → Bool := fun _ _ => false
  leaf : Nat := 8

/-- What an instruction raises in a group before anything else: Illegal-Instruction, or Register-Range (R20, R47, R52). -/
def Shape.refuses (sh : Shape) (g : Group) : Option Kind :=
  if !g.level.atLeast sh.level then some .illegal else if g.n < sh.top then some .registerRange else none

/-- The lanes of a mask in which a guard is true (R206). -/
def Group.guarded (g : Group) (c : Guard) (m : Lanes) : Lanes :=
  if c = Guard.always then m else maskOf (fun i => m.getLsbD i && (g.preg c.pg.toNat i != c.pn))

/-- The successor header of a clause (R199). -/
def successor (hdr : Word) (bodyw : Nat) : Word := hdr + BitVec.ofNat 64 (8 + (bodyw + 1) / 2 * 8)

/-- The bytes of the instruction at an offset of a clause, by its length code (R202). -/
def instrLength (body : List Byte) (pos : Nat) : Nat :=
  match (body.getD pos 0).toNat % 4 with
  | 0 => 4
  | 1 => 8
  | _ => 12

/-- The clause in issue on the core whose turn it is. -/
def State.bundle (s : State) : Option (Nat × Issue) :=
  match s.turn with
  | .core c => (s.core c).issue.map (fun x => (c, x))
  | .seq _ => none
  | .inner => none

/-- The view of one member of a bundle. -/
def State.env (s : State) (c : Nat) (x : Issue) (m : Member) (g : Guard) : Env :=
  let gr := s.group m.team m.grp
  let ctx := s.ctxOf m.team
  { core := c, ctx := ctx, team := m.team, grp := m.grp, path := m.lanes, act := gr.guarded g m.lanes, hdr := x.hdr,
    pc := x.hdr + BitVec.ofNat 64 (8 + x.pos), succ := successor x.hdr x.bodyw, bodyw := x.bodyw,
    agent := { core := c, ctx := ctx, team := m.team, grp := m.grp, level := gr.level } }

/-- A trap whose lanes are every active lane (R183). -/
def Env.fault (e : Env) (k : Kind) (detail : Nat) : Res := .trap { kind := k, detail := detail, lanes := e.act }

/-- An instruction takes effect and its lanes go on in the clause. -/
def Res.go (s : State) : Res := .ok s 0

/-- The group that an instruction acts on. -/
def Env.group (e : Env) (s : State) : Group := s.group e.team e.grp

/-- The group changed. -/
def Env.onGroup (e : Env) (s : State) (f : Group → Group) : State := s.onGroup e.team e.grp f

/-- An outstanding fence of the lanes of a mask (R107, R269). -/
def Group.fenced (g : Group) (m : Lanes) : Bool := g.fences.any (fun e => (e.2.1 &&& m) != 0)

/-- An engine operation of the group whose timestamp is not yet fixed (R99). -/
def State.unfixed (s : State) (team grp : Nat) : Bool :=
  s.ops.any (fun e => e.2.team == team && e.2.grp == grp && e.2.e.isNone && !e.2.need.isEmpty && e.2.park.isNone)

/-- A replay-log entry holds the group's next recorded access back until the writer's has been performed (R392). -/
def State.replayWaits (s : State) (e : Env) : Bool :=
  if s.replaying e.ctx then
    let t := s.trace0
    let me := s.groupName e.agent
    let ord := (e.group s).ordinal + 1
    (List.range (t.rrlogs * 128)).any (fun k =>
      let w := s.deviceRead (backing 0 (t.rrlog + 32 * k)) 32
      field w 28 4 == me.2 && field w 32 24 == me.1 && field w 224 32 == ord && w != 0
        && !s.performed (w % 2 ^ 24, field w 24 4) (field w 192 32))
  else false

/-- The memory requests of a core that are outstanding, one for each lane of an access (R11; entry 137). -/
def State.requests (s : State) (core : Nat) : Nat :=
  s.teams.foldl (fun n t => if t.2.core = some core then
    t.2.groups.foldl (fun n g => g.2.pend.foldl (fun n p => if p.2.reqs then n + countLanes p.2.lanes else n) n) n else n) 0

/-- The reason that holds an instruction in its issue slot, as a leaf of R386. One that a group may not execute is not
held: it traps at its decode (R20, R52). -/
def State.heldBy (s : State) (sh : Shape) (e : Env) : Option Nat :=
  let g := e.group s
  if (sh.refuses g).isSome then none
  else if g.beyond e.path then some 6
  else if (match sh.ll with
      | some { la := _, dc := some k } => e.act != 0 && decide (63 ≤ g.dreg k.toNat)
      | some { la := _, dc := none } => false
      | none => false) then some 7
  else if sh.mem && (g.fenced e.path || s.unfixed e.team e.grp) then some 8
  else if sh.acc && s.replayWaits e then some 8
  else if sh.reqs && decide (Config.requests < s.requests e.core + countLanes e.act) then some 10
  else if sh.wait e s then some sh.leaf
  else none

/-- The lanes of a path stand at an instruction in mid-clause (R45, R66). -/
def Env.stand (e : Env) (s : State) (code : Nat) (w : Option Wait) : State :=
  e.onGroup s (fun g => g.standAt e.path code e.pc (e.hdr, e.bodyw) w)

/-- The place of a kind among the per-lane conditions of rank 4 (R184). -/
def Kind.rank : Kind → Nat
  | .scratchRange => 0
  | .bounds => 1
  | .illegalOperand => 2
  | .unmapped => 3
  | .protection => 4
  | .hostLost => 5
  | .poison => 6
  | .none | .illegal | .clauseFormat | .registerRange | .invalidHandle | .permission | .tileMap | .layoutRecord
  | .shelfConfig | .shelfState | .memberMask | .tableIndex | .traverseStack | .recursionLimit | .parcelState
  | .softError | .trap | .brk | .userInterrupt => 7

/-- The second half of a group has still to issue the cross-lane clause of this half (R251). -/
def State.awaitsHalf (s : State) (core team grp : Nat) : Bool :=
  match (s.core core).second with
  | some y => y.1 == team && y.2.1 == grp
  | none => false

/-- The unit that performs an outstanding instruction is parked, otherwise than for a fill: it completes only after a return
or a resumption (R193, R195). -/
def State.unitParked (s : State) (team grp id : Nat) : Bool :=
  let stuck (p : Option Park) : Bool := match p with
    | some p => p.sector.isNone || p.preempt
    | none => false
  s.ops.any (fun o => o.2.team == team && o.2.grp == grp && o.2.pend == some id && (stuck o.2.park || o.2.spent))
    || s.sweeps.any (fun w => w.2.team == team && w.2.grp == grp && w.2.pend == some id
      && w.2.engines.any (fun e => stuck e.2.park))

/-- An earlier instruction of a group is still to write registers, so that no trap is taken yet (R186 step 1; entry 13). -/
def State.writing (s : State) (team grp : Nat) : Bool :=
  (s.group team grp).pend.any (fun e => !e.2.ready && !e.2.left_
    && (e.2.holds || !(e.2.vw.isEmpty && e.2.pw.isEmpty && e.2.sw.isEmpty)) && !s.unitParked team grp e.1)

/-- Two traps of the halves of a group as one: that of the first kind at the first half's instruction, in the lanes of both
that meet it (R184, R251). -/
def mergeTraps (x y : Kind × Nat × Lanes × Word) : Kind × Nat × Lanes × Word :=
  if y.2.2.2 = x.2.2.2 ∧ y.1 = x.1 then
    (x.1, if lowest y.2.2.1 < lowest x.2.2.1 then y.2.1 else x.2.1, x.2.2.1 ||| y.2.2.1, x.2.2.2)
  else if y.2.2.2 = x.2.2.2 ∧ y.1.rank < x.1.rank then y
  else x

/-- The lines of a frame that operations own (R100). -/
def State.frameOwned (s : State) (a : Agent) (base : Word) (use : Use) : List Nat :=
  s.ownedHome { a with level := .control } use ((List.range 128).map (fun k => base + BitVec.ofNat 64 (8 * k)))

/-- A group at user level does not take an exception yet: an earlier instruction is still to write registers, or the frame's
lines are owned (R100, R186). -/
def State.notYet (s : State) (a : Agent) (ui : Bool) : Bool :=
  let g := s.group a.team a.grp
  g.level == .user && (s.writing a.team a.grp || !(s.frameOwned a (g.s2 + (if ui then 0x2000 else 0)) .write).isEmpty)

/-- A group takes a trap that an instruction raises: at once, or when its second half has issued and its earlier
instructions have written their registers (R186, R251). -/
def State.raises (s : State) (a : Agent) (k : Kind) (detail : Nat) (lanes : Lanes) (pc : Word) : State :=
  let g := s.group a.team a.grp
  let x := (k, detail, lanes, pc)
  match g.late with
  | some y => s.onGroup a.team a.grp (fun g => { g with late := some (mergeTraps y x) })
  | none =>
    if s.awaitsHalf a.core a.team a.grp || s.notYet a false then
      s.onGroup a.team a.grp (fun g => { g with late := some x })
    else s.enter a { kind := k, detail := detail, unit := 0, lanes := lanes, pc := pc, ui := false }

/-- The group of a member takes a trap raised at an instruction. -/
def Env.raises (e : Env) (s : State) (k : Kind) (detail : Nat) (lanes : Lanes) : State :=
  s.raises e.agent k detail lanes e.pc

/-- The group of a member traps at an instruction. -/
def Env.trap (e : Env) (s : State) (t : Trap) : State := e.raises (e.stand s 1 none) t.kind t.detail t.lanes

/-! ### Redundant execution and errors (R37, R402) -/

/-- The physical lanes of the lanes of a group (R27). -/
def Group.physical (g : Group) (m : Lanes) : BitVec 32 :=
  (lanesOf m).foldl (fun p i => p ||| BitVec.ofNat 32 (2 ^ (8 * g.col + i % 32))) 0

/-- A bundle runs redundantly: a group asks for it, the instruction is not uniform and starts no engine, and at most 16 lanes
are active (R37). -/
def State.redundant (s : State) (uniform : Bool) (ms : List Member) : Bool :=
  ms.any (fun m => (s.group m.team m.grp).dmr) && !uniform
    && decide (ms.foldl (fun n m => n + countLanes m.lanes) 0 ≤ 16)

/-- The lanes of a member whose copies differ, if the bundle in issue on its core is compared: the lowest of them as a
Soft-Error (R37, R183). -/
def State.mismatch (s : State) (sh : Shape) (x : Issue) (e : Env) : Option Trap :=
  let d := (s.core e.core).upset &&& (e.group s).physical e.act
  if d = 0 ∨ s.redundant sh.once x.members = false then none
  else some { kind := .softError, detail := lowest (d.setWidth 64), lanes := e.act }

/-- The lanes of a member in which an operand register holds a poisoned word (R393, R394; entry 136). -/
def State.marredLanes (s : State) (e : Env) : Lanes :=
  let m := (s.core e.core).marred
  let g := e.group s
  if m = 0 then 0 else maskOf (fun i => e.act.getLsbD i && (m &&& g.physical (laneBit i)) != 0)

/-- What an instruction comes to, with the Data-Poison that its operand registers raise (R184, R394). -/
def Res.withPoison (r : Res) (m : Lanes) : Res :=
  let t : Trap := { kind := .poison, detail := 0, lanes := m }
  if m = 0 then r
  else match r with
    | .trap x =>
      if x.kind.rank < Kind.poison.rank then r else .trap (if x.kind = .poison then { t with lanes := m ||| x.lanes } else t)
    | .ok _ _ | .again | .park _ => .trap t

/-- An uncorrectable error comes among the accesses of an instruction: those of the lower lanes stand, which are a free
number of them, and the context halts (R402; entry 136). -/
def Env.strike (e : Env) (s : State) (f : Env → State → Res) : State :=
  let n := Config.pick (s.free 11) % countLanes e.act
  let some_ := ((lanesOf e.act).take n).foldl (fun m i => m ||| laneBit i) 0
  let s := match f { e with act := some_ } s with
    | .ok s _ => s
    | .trap _ | .park _ | .again => s
  (e.stand s 1 none).haltContext e.ctx .poison 0 (s.team e.team).no e.grp e.pc

/-- An instruction in one member of the bundle: checks of rank 1 (R20, R47, R52), then its effect. Answers the state and the
members that stay in the clause. -/
def State.runMember (sh : Shape) (f : Env → State → Res) (c : Nat) (x : Issue) (p : State × List Member)
    (m : Member) : State × List Member :=
  let s := p.1
  let e := s.env c x m sh.g
  match sh.refuses (s.group m.team m.grp) with
  | some k => (e.trap s { kind := k, detail := 0, lanes := e.act }, p.2)
  | none =>
    let s1 := e.onGroup s (fun g =>
      { (g.advance e.path) with ordinal := if sh.acc && e.act != 0 then g.ordinal + 1 else g.ordinal })
    match (f e s1).withPoison (s.marredLanes e) with
    | .ok s2 gone =>
      if (s.core c).struck && sh.mem && !sh.once && e.act != 0 then (e.strike s1 f, p.2)
      else
        match s.mismatch sh x e with
        | some t => (((e.trap s t).onCore c (fun k => { k with dmrmis := k.dmrmis + 1 })).logEvent 1 10 c e.ctx t.detail, p.2)
        | none =>
          let rest := m.lanes &&& ~~~gone
          (s2, if rest = 0 then p.2 else p.2 ++ [{ m with lanes := rest }])
    | .trap t => (e.trap s t, p.2)
    | .again => (e.stand s 1 none, p.2)
    | .park w => (e.stand s 8 (some w), p.2)

/-- The share of a group in an issue slot in which it does not issue: a clock counted towards aging credit while it has a
candidate (R30). -/
def State.tick (s : State) (t : Nat) (g : Nat × Group) : Nat × Group :=
  if s.hasCandidate t g.1 then (g.1, { g.2 with aged := g.2.aged + 1 }) else g

/-- One issue slot of a core: clocks, the leaf that counts it (R387), and aging of the groups that do not issue. -/
def State.slot (s : State) (c leaf : Nat) (members : List Member) : State :=
  let s := s.onCore c (fun k => { k with clocks := k.clocks + 1, leaves := put leaf (get 0 leaf k.leaves + 1) k.leaves })
  { s with teams := s.teams.map (fun e =>
      if e.2.core = some c then
        (e.1, { e.2 with groups := e.2.groups.map (fun g =>
          if members.any (fun m => m.team == e.1 && m.grp == g.1) then g else s.tick e.1 g) })
      else e) }

/-- The leaf under which an issuing slot counts (R386). -/
def State.issueLeaf (s : State) (ms : List Member) : Nat :=
  let n := ms.foldl (fun n m => n + countLanes m.lanes) 0
  if n ≤ 16 ∧ ms.any (fun m => (s.group m.team m.grp).dmr) = true then 3 else if n = 32 then 1 else 2

/-- The end of a clause for the members still in it: their lanes continue at the successor header (R199). -/
def State.endClause (s : State) (x : Issue) (ms : List Member) : State :=
  ms.foldl (fun s m => s.onGroup m.team m.grp (fun g => g.goTo m.lanes (fun _ => successor x.hdr x.bodyw))) s

/-- Program calls due in the lanes of a clause's members that are not in it any more (R308). -/
def State.settle (s : State) (x : Issue) (ms : List Member) : State :=
  x.members.foldl (fun s m =>
    let stay := ms.foldl (fun l k => if k.team == m.team && k.grp == m.grp then l ||| k.lanes else l) 0
    s.onGroup m.team m.grp (fun g => g.settle (m.lanes &&& ~~~stay))) s

/-- The clause after one instruction: the next one, or its end (R31). -/
def State.after (s : State) (c : Nat) (x : Issue) (ms : List Member) : State :=
  let pos := x.pos + instrLength x.body x.pos
  if ms.isEmpty then (s.settle x []).onCore c (fun k => { k with issue := none })
  else if x.body.length ≤ pos then ((s.endClause x ms).settle x []).onCore c (fun k => { k with issue := none })
  else (s.settle x ms).onCore c (fun k => { k with issue := some { x with members := ms, pos := pos } })

/-- Coverage counters of redundant execution (R37, R396). -/
def State.coverage (s : State) (c : Nat) (uniform : Bool) (ms : List Member) : State :=
  if s.redundant uniform ms then s.onCore c (fun k => { k with dmrcmp := k.dmrcmp + 1 })
  else if ms.any (fun m => (s.group m.team m.grp).dmr) then s.onCore c (fun k => { k with dmrunc := k.dmrunc + 1 })
  else s

/-- The errors that were to meet one instruction are spent with it. -/
def Core.spend (k : Core) : Core := { k with upset := 0, marred := 0, struck := false }

/-- An instruction executed by the clause in issue: held in its slot, or run in every member in ascending group
number (R31, R208, R222). Without a clause in issue nobody executes it. -/
def State.run (s : State) (sh : Shape) (f : Env → State → Res) : State :=
  match s.bundle with
  | none => s
  | some (c, x) =>
    match x.members.findSome? (fun m => s.heldBy sh (s.env c x m sh.g)) with
    | some leaf => s.slot c leaf x.members
    | none =>
      let leaf := s.issueLeaf x.members
      let r := x.members.foldl (State.runMember sh f c x) (s.coverage c sh.once x.members, [])
      ((r.1.after c x r.2).onCore c Core.spend).slot c leaf x.members


/-! ### Per-lane conditions (R184, R402) -/

/-- The fault raised for conditions met in lanes: the first kind in the order of R184, the lanes that meet it, and
the detail of the lowest of them. -/
def worstOf (cs : List (Nat × Kind × Nat)) : Option Trap :=
  let best := cs.foldl (fun b x => Nat.min b x.2.1.rank) 8
  let mine := cs.filter (fun x => x.2.1.rank == best)
  match mine.head? with
  | none => none
  | some x => some { kind := x.2.1, detail := x.2.2, lanes := mine.foldl (fun m y => m ||| laneBit y.1) 0 }

/-- The per-lane conditions of the active lanes. -/
def laneFaults (m : Lanes) (f : Nat → Option (Kind × Nat)) : Option Trap :=
  worstOf ((lanesOf m).filterMap (fun i => (f i).map (fun x => (i, x.1, x.2))))

end Sys2Proof.Machine
end

