-- ==== Sys2Proof/Machine/Operands.lean ====
section
/-!
DEFINITION. Operand forms: elements of a lane word (R114), literals and immediates (R205, R230, R237), memory
operands (R257, R260), and the highest register that an instruction names directly (R47).
-/
namespace Sys2Proof.Machine

/-- Element k of a word (R114). -/
def elem (t : Ty) (x : Word) (k : Nat) : Nat := field x.toNat (t.width * k) t.width

/-- The elements of a word, lowest first. -/
def elems (t : Ty) (x : Word) : List Nat := (List.range t.count).map (elem t x)

/-- A number whose digits of `w` bits are the given ones, lowest first. -/
def joinBits (w : Nat) : List Nat → Nat
  | [] => 0
  | x :: xs => x % 2 ^ w + 2 ^ w * joinBits w xs

/-- A word from its elements; an `.f32` word has [63:32] zero (R114). -/
def packElems (t : Ty) (xs : List Nat) : Word := BitVec.ofNat 64 (joinBits t.width xs)

/-- A word with one element replaced. -/
def setElem (t : Ty) (x : Word) (k v : Nat) : Word :=
  packElems t ((List.range (64 / t.width)).map (fun j => if j = k then v else field x.toNat (t.width * j) t.width))

/-- An element read under the signedness of its type (R115). -/
def elemInt (t : Ty) (x : Nat) : Int :=
  if t.signed && x / 2 ^ (t.width - 1) % 2 == 1 then (x : Int) - 2 ^ t.width else x

/-- The low `w` bits of an integer. -/
def wrap (w : Nat) (x : Int) : Nat := (x % 2 ^ w).toNat

/-- An integer clamped to an element's range (R115). -/
def clampInt (t : Ty) (x : Int) : Int :=
  if x < intLo t.signed t.width then intLo t.signed t.width
  else if intHi t.signed t.width < x then intHi t.signed t.width else x

/-- An exact integer delivered in an element, saturating or not (R115). -/
def deliver (t : Ty) (sat : Bool) (x : Int) : Nat := wrap t.width (if sat then clampInt t x else x)

/-- Each element of a result from the elements of one source (R114). -/
def map1 (t : Ty) (f : Nat → Nat) (x : Word) : Word := packElems t ((elems t x).map f)
/-- The same from two sources. -/
def map2 (t : Ty) (f : Nat → Nat → Nat) (x y : Word) : Word :=
  packElems t ((List.range t.count).map (fun k => f (elem t x k) (elem t y k)))
/-- The same from three sources. -/
def map3 (t : Ty) (f : Nat → Nat → Nat → Nat) (x y z : Word) : Word :=
  packElems t ((List.range t.count).map (fun k => f (elem t x k) (elem t y k) (elem t z k)))

/-- A literal as a value operand of a type, extended under R205. -/
def litWord (t : Ty) (x : W32) : Word :=
  match t with
  | .i64 => x.signExtend 64
  | .n64 | .b64 | .f32 => x.zeroExtend 64
  | .f64 => BitVec.ofNat 64 (fpConv .f32 .f64 x.toNat).1
  | .i8x8 | .n8x8 | .i16x4 | .n16x4 | .i32x2 | .n32x2 | .f16x4 | .bf16x4 | .f32x2 =>
    packElems t (List.replicate t.count (x.toNat % 2 ^ t.width))

/-- The last value source of an instruction in a lane (R205, R221). -/
def Group.opnd (g : Group) (t : Ty) (o : Opnd) (lane : Nat) : Word :=
  match o with
  | .reg r => g.reg r lane
  | .lit x => litWord t x

/-- The last value source of a uniform instruction. -/
def Group.sopnd (g : Group) (t : Ty) (o : SOpnd) : Word :=
  match o with
  | .reg r => g.sreg r.toNat
  | .lit x => litWord t x

/-- The constant of `LI` (R237). -/
def liWord (t : Ty) (x : Imm) : Word :=
  match x with
  | .short i => packElems t (List.replicate t.count (wrap t.width i.toInt))
  | .lit i => litWord t i

/-- The constant of `SLI` (R230). -/
def sliWord (t : Ty) (x : Imm) : Word :=
  match x with
  | .short i => if t = .i64 then i.signExtend 64 else i.zeroExtend 64
  | .lit i => litWord t i

/-- One beyond a direct vector register of a run; 0 for a uniform register. -/
def topR (r : Reg) (k : Nat) : Nat :=
  match r with
  | .v n => n.toNat + k
  | .s _ => 0

/-- One beyond a vector register. -/
def topV (r : VReg) (k : Nat) : Nat := r.toNat + k

/-- One beyond an optional destination. -/
def topD (r : Option VReg) : Nat :=
  match r with
  | some v => v.toNat + 1
  | none => 0

/-- One beyond the last value source. -/
def topO (o : Opnd) : Nat :=
  match o with
  | .reg r => topR r 1
  | .lit _ => 0

/-- The largest of a list of bounds. -/
def maxOf (xs : List Nat) : Nat := xs.foldl Nat.max 0

/-- The address of a memory operand in a lane (R258). -/
def Group.memAddr (g : Group) (m : MemOp) (lane : Nat) : Word :=
  g.reg m.base lane + (g.reg m.index lane <<< m.scl.toNat)
    + (match m.off with
      | some o => o.signExtend 64
      | none => 0)

/-- One beyond the registers of a memory operand. -/
def topM (m : MemOp) : Nat := Nat.max (topR m.base 1) (topR m.index 1)

/-- The bytes of an access size (R257). -/
def szBytes : Sz → Nat
  | .b1 => 1 | .b2 => 2 | .b4 => 4 | .b8 => 8 | .b16 => 16 | .b32 => 32

/-- Register k of a run in a lane. -/
def Group.runReg (g : Group) (r : Reg) (k lane : Nat) : Word :=
  match r with
  | .v n => g.vreg (n.toNat + k) lane
  | .s n => g.sreg (n.toNat + k)

/-- An address base with an optional literal offset (R266). -/
def Group.addrOff (g : Group) (r : Reg) (off : Option (BitVec 28)) (lane : Nat) : Word :=
  g.reg r lane + (match off with
    | some o => o.signExtend 64
    | none => 0)

end Sys2Proof.Machine
end

