-- ==== Sys2Proof/Machine/Flags.lean ====
section
/-!
DEFINITION. The flags an instruction gathers: floating-point operations element by element with their flags (R114,
R118), and comparisons over the elements of a word (R235, R242).
-/
namespace Sys2Proof.Machine

/-- A word of results and the flags of its elements (R118). -/
def packFlags (t : Ty) (rs : List (Nat × Flags)) : Word × Flags :=
  (packElems t (rs.map (·.1)), rs.foldl (fun f r => f ||| r.2) 0)

/-- One operand, element by element. -/
def fmap1 (t : Ty) (f : Nat → Nat × Flags) (x : Word) : Word × Flags :=
  packFlags t ((elems t x).map f)
/-- Two operands. -/
def fmap2 (t : Ty) (f : Nat → Nat → Nat × Flags) (x y : Word) : Word × Flags :=
  packFlags t ((List.range t.count).map (fun k => f (elem t x k) (elem t y k)))
/-- Three operands. -/
def fmap3 (t : Ty) (f : Nat → Nat → Nat → Nat × Flags) (x y z : Word) : Word × Flags :=
  packFlags t ((List.range t.count).map (fun k => f (elem t x k) (elem t y k) (elem t z k)))

/-- Whether an integer condition holds (R235). -/
def ccHolds (c : Cc) (x y : Int) : Bool :=
  match c with
  | .eq => x == y
  | .ne => x != y
  | .lt => decide (x < y)
  | .le => decide (x ≤ y)
  | .gt => decide (y < x)
  | .ge => decide (y ≤ x)

/-- A predicate over the elements: for every one, or for at least one (R235, R242). -/
def overElems (any : Bool) (bs : List Bool) : Bool := if any then bs.any id else bs.all id

/-- An integer comparison of words (R235). -/
def icmpWord (c : Cc) (any : Bool) (t : Ty) (x y : Word) : Bool :=
  overElems any ((List.range t.count).map (fun k => ccHolds c (elemInt t (elem t x k)) (elemInt t (elem t y k))))

/-- A floating-point comparison of words, with its flags (R242). -/
def fcmpWord (c : Fcc) (any : Bool) (t : Ty) (x y : Word) : Bool × Flags :=
  let rs := (List.range t.count).map (fun k => fpCmp (tyFmt t) c (elem t x k) (elem t y k))
  (overElems any (rs.map (·.1)), rs.foldl (fun f r => f ||| r.2) 0)

/-- A logic operation on words (R232). -/
def logWord (op : LogOp) (a b : Word) : Word :=
  match op with
  | .and => a &&& b
  | .or => a ||| b
  | .xor => a ^^^ b
  | .andn => a &&& ~~~b
  | .orn => a ||| ~~~b
  | .xnor => ~~~(a ^^^ b)
  | .nand => ~~~(a &&& b)
  | .nor => ~~~(a ||| b)

/-- A logic operation on predicates (R238). -/
def logBool (op : LogOp) (a b : Bool) : Bool :=
  match op with
  | .and => a && b
  | .or => a || b
  | .xor => a != b
  | .andn => a && !b
  | .orn => a || !b
  | .xnor => a == b
  | .nand => !(a && b)
  | .nor => !(a || b)

end Sys2Proof.Machine
end

