-- ==== Sys2Proof/Machine/Effects.lean ====
section
/-!
DEFINITION. Shapes of effects that many instructions share: lane by lane on vector registers and predicates, once
for the group (R222), transfers of control (R223), waits of lanes (R45), and accesses checked before any of them
takes effect (R184).
-/
namespace Sys2Proof.Machine

/-- A vector register written in every active lane. -/
def State.vecV (s : State) (g : Guard) (top : Nat) (d : VReg) (f : Group → Nat → Word) : State :=
  s.run { g := g, top := maxOf [top, d.toNat + 1] } fun e s =>
    .go (e.onGroup s (fun gr => gr.setVs d.toNat e.act (f gr)))

/-- The flags of the active lanes; a helper lane raises none (R143). -/
def Group.raiseLanes (g : Group) (m : Lanes) (f : Nat → Flags) : Group :=
  g.raise ((lanesOf (m &&& ~~~g.helper)).foldl (fun x i => x ||| f i) 0)

/-- A vector register written in every active lane, and flags raised. -/
def State.vecF (s : State) (g : Guard) (top : Nat) (d : VReg) (f : Group → Nat → Word × Flags) : State :=
  s.run { g := g, top := maxOf [top, d.toNat + 1] } fun e s =>
    .go (e.onGroup s (fun gr => (gr.setVs d.toNat e.act (fun i => (f gr i).1)).raiseLanes e.act (fun i => (f gr i).2)))

/-- A predicate written in every active lane. -/
def State.vecP (s : State) (g : Guard) (top : Nat) (p : PReg) (f : Group → Nat → Bool) : State :=
  s.run { g := g, top := top } fun e s => .go (e.onGroup s (fun gr => gr.setPs p.toNat e.act (f gr)))

/-- A predicate written in every active lane, and flags raised. -/
def State.vecPF (s : State) (g : Guard) (top : Nat) (p : PReg) (f : Group → Nat → Bool × Flags) : State :=
  s.run { g := g, top := top } fun e s =>
    .go (e.onGroup s (fun gr => (gr.setPs p.toNat e.act (fun i => (f gr i).1)).raiseLanes e.act (fun i => (f gr i).2)))

/-- An effect of the group, taken once if it has an active lane (R222). -/
def Env.once (e : Env) (s : State) (f : State → State) : State := if e.act = 0 then s else f s

/-- An instruction whose whole effect is one of the group (R222). -/
def State.groupOp (s : State) (g : Guard) (f : Env → Group → Group) : State :=
  s.run { g := g, once := true } fun e s => .go (e.once s (fun s => e.onGroup s (f e)))

/-- A uniform register written as a group effect (R222, R229). -/
def State.uniS (s : State) (g : Guard) (d : SReg) (f : Group → Word) : State :=
  s.groupOp g (fun _ gr => gr.setS d.toNat (f gr))

/-- A register of either class read as the source of a group effect (R222). -/
def Env.groupReg (e : Env) (g : Group) (r : Reg) : Word := g.reg r (lowest e.act)

/-- A long-latency instruction begins in the active lanes. -/
def Env.begin (e : Env) (s : State) (ll : Ll) (p : Pend) : State := e.onGroup s (fun g => (g.begin ll e.act p).1)

/-- Destination writes of one vector register in the lanes of a mask. -/
def vWrites (r : Nat) (m : Lanes) (f : Nat → Word) : SMap Word :=
  (lanesOf m).foldl (fun w i => put (r * 64 + i) (f i) w) []

/-- Destination writes of a predicate in the lanes of a mask; `P15` takes none. -/
def pWrites (p : Nat) (m : Lanes) (f : Nat → Bool) : SMap Bool :=
  if p = 15 then [] else (lanesOf m).foldl (fun w i => put (p * 64 + i) (f i) w) []

/-- A long-latency instruction that writes one vector register in the active lanes, with flags (R207, R209). -/
def State.vecLl (s : State) (g : Guard) (ll : Ll) (top : Nat) (d : VReg) (f : State → Group → Nat → Word × Flags) :
    State :=
  s.run { g := g, top := maxOf [top, d.toNat + 1], ll := some ll } fun e s =>
    let gr := e.group s
    let h := e.act &&& ~~~gr.helper
    .go (e.begin s ll { Pend.zero with
      vw := vWrites d.toNat e.act (fun i => (f s gr i).1)
      flags := (lanesOf h).foldl (fun x i => x ||| (f s gr i).2) 0 })

/-- Accesses of lanes whose checks have been made: their fault, a wait for lines that operations own, whose poison is yet to
be judged, or what comes next (R100, R184, R402). -/
def checked (t : Option Trap) (owned : List Nat) (next : Res) : Res :=
  match t, owned with
  | some x, [] => .trap x
  | some x, l :: ls => if x.kind = .poison then .park (.owned (l :: ls)) else .trap x
  | none, [] => next
  | none, l :: ls => .park (.owned (l :: ls))

/-! ### Transfers and waits -/

/-- The active lanes leave the clause for a header each. -/
def Env.leave (e : Env) (s : State) (m : Lanes) (f : Nat → Word) : Res := .ok (e.onGroup s (fun g => g.goTo m f)) m

/-- The address of a clause header is a legal target (R223). -/
def targetOk (t : Word) : Bool := t.extractLsb' 0 3 == 0 && canonicalVa t

/-- CheckTarget of R223 over the lanes of a mask. -/
def checkTargets (m : Lanes) (f : Nat → Word) : Option Trap :=
  laneFaults m (fun i => if targetOk (f i) then none else some (.illegalOperand, 0))

/-- The distinct values of a list, in order of first appearance. -/
def distinct (xs : List Word) : List Word := xs.foldl (fun ys x => if ys.contains x then ys else ys ++ [x]) []

/-- One transfer record for each distinct target (R381). -/
def Env.transfers (e : Env) (s : State) (tag : Nat) (m : Lanes) (f : Nat → Word) : State :=
  (distinct ((lanesOf m).map f)).foldl (fun s t => s.emit 0 e.core e.ctx 6 tag e.hdr.toNat t.toNat (s.ident e.team e.grp)) s

/-- Lanes wait at the instruction in a lane state, and leave the clause (R211). -/
def Env.block (e : Env) (s : State) (m : Lanes) (code : Nat) (w : Wait) : State :=
  e.onGroup s (fun g => g.standAt m code e.pc (e.hdr, e.bodyw) (some w))

/-- Lanes released from a blocking instruction continue at the successor header (R211). -/
def Group.release (g : Group) (m : Lanes) : Group :=
  (g.goTo m (fun i => match find i g.hdr with
    | some h => successor h.1 h.2
    | none => g.lanePc i)).settle m

/-- The lanes of a group whose wait satisfies a test. -/
def Group.waiting (g : Group) (p : Nat → Wait → Bool) : Lanes :=
  g.wait.foldl (fun m e => if p e.1 e.2 then m ||| laneBit e.1 else m) 0

/-! ### Accesses of the lanes of a group -/

/-- What an access at an address would fault on: translation, protection, and poison for a read (R184, R348,
R394). Poison of a line that an operation owns is judged when the operation has written it (R91, R402). -/
def State.probe (s : State) (a : Agent) (use : Use) (rd : Bool) (va : Word) : Option (Kind × Nat) :=
  match s.seek a use va with
  | .error k => some k
  | .ok p =>
    if rd && !s.owned (lineNo p.addr) && s.poisoned (s.keyOf a.ctx) (lineNo p.addr) then some (.poison, 0) else none

/-- A load of a group through its L1 (R91), once its checks have passed. -/
def State.gload (s : State) (a : Agent) (va : Word) (n : Nat) : Nat × State :=
  match s.seek a .read va with
  | .error _ => (0, s)
  | .ok p => (s.walked a va p).load a true p.cls p.addr n

/-- A store of a group, once its checks have passed. -/
def State.gstore (s : State) (a : Agent) (va : Word) (n v : Nat) : State :=
  match s.seek a .write va with
  | .error _ => s
  | .ok p => (s.walked a va p).store a p.cls p.addr n v

/-- An atomic of a group, once its checks have passed. -/
def State.grmw (s : State) (a : Agent) (va : Word) (n : Nat) (f : Nat → Nat) : Nat × State :=
  match s.seek a .write va with
  | .error _ => (0, s)
  | .ok p => (s.walked a va p).rmw a p.cls p.addr n f

end Sys2Proof.Machine
end

