-- ==== Sys2Proof/Machine/Control.lean ====
section
/-!
DEFINITION. Control and synchronisation (R223-R228, R302): branches, calls, exit, join masks, issue control, numbered
barriers and raster order.
-/
namespace Sys2Proof.Machine

/-- `NOP` (R227). -/
def execNop (g : Guard) (s : State) : Host.Outcome State Fault Refusal := .next (s.run { g := g } fun _ s => .go s)

/-! ### Branches and calls (R223) -/

/-- A header at an offset of 8-byte units from the clause header (R223). -/
def Env.rel {n : Nat} (e : Env) (off : BitVec n) : Word := e.hdr + (off.signExtend 64 <<< 3)

/-- `BRA` (R223). -/
def execBra (g : Guard) (off : BitVec 40) (s : State) : Host.Outcome State Fault Refusal :=
  .next (s.run { g := g } fun e s => e.leave s e.act (fun _ => e.rel off))

/-- The transfer of the active lanes to computed targets, after their checks (R223). -/
def Env.jump (e : Env) (s : State) (tag : Nat) (t : Reg) : Res :=
  let gr := e.group s
  let f (i : Nat) : Word := gr.reg t i
  match checkTargets e.act f with
  | some x => .trap x
  | none => e.leave (e.transfers s tag e.act f) e.act f

/-- `BRX` (R223). -/
def execBrx (g : Guard) (t : Reg) (s : State) : Host.Outcome State Fault Refusal :=
  .next (s.run { g := g, top := topR t 1 } fun e s => e.jump s 0 t)

/-- `CALL` (R223). -/
def execCall (g : Guard) (d : VReg) (off : BitVec 30) (s : State) : Host.Outcome State Fault Refusal :=
  .next (s.run { g := g, top := topV d 1 } fun e s =>
    e.leave (e.onGroup s (fun gr => gr.setVs d.toNat e.act (fun _ => e.succ))) e.act (fun _ => e.rel off))

/-- `CALLX` (R223). -/
def execCallx (g : Guard) (d : VReg) (t : Reg) (s : State) : Host.Outcome State Fault Refusal :=
  .next (s.run { g := g, top := maxOf [topV d 1, topR t 1] } fun e s =>
    match e.jump s 1 t with
    | .ok s gone => .ok (e.onGroup s (fun gr => gr.setVs d.toNat e.act (fun _ => e.succ))) gone
    | .trap x => .trap x
    | .again => .again
    | .park w => .park w)

/-- A `RET` whose target is the return address recorded for a lane's depth lowers the depth (R308). -/
def Group.returned (g : Group) (m : Lanes) (f : Nat → Word) : Group :=
  (lanesOf m).foldl (fun g i =>
    let k := get 0 i g.depth
    if k ≠ 0 ∧ get 0 (i * 32 + k) g.rets = f i then
      { g with depth := set 0 i (k - 1) g.depth, rets := set 0 (i * 32 + k) 0 g.rets }
    else g) g

/-- `RET` (R223, R308). -/
def execRet (g : Guard) (t : Reg) (s : State) : Host.Outcome State Fault Refusal :=
  .next (s.run { g := g, top := topR t 1 } fun e s =>
    let f (i : Nat) : Word := (e.group s).reg t i
    match e.jump s 2 t with
    | .ok s gone => .ok (e.onGroup s (fun gr => gr.returned e.act f)) gone
    | .trap x => .trap x
    | .again => .again
    | .park w => .park w)

/-! ### Jump tables (R224) -/

/-- The entries read by the lanes of a list, in order: targets by lane. -/
def State.tableLoads (a : Agent) (va : Nat → Word) : State → List Nat → SMap Word × State
  | s, [] => ([], s)
  | s, i :: is =>
    let r := s.gload a (va i) 8
    let q := State.tableLoads a va r.2 is
    (put i (BitVec.ofNat 64 r.1) q.1, q.2)

/-- The distinct targets in ascending rank: the lowest index among their lanes (R224). -/
def rankedTargets (m : Lanes) (idx t : Nat → Word) : List Word :=
  let rank (u : Word) : Nat :=
    ((lanesOf m).filter (fun i => t i == u)).foldl (fun r i => Nat.min r (idx i).toNat) (2 ^ 64)
  arrange (fun u v => decide (rank u ≤ rank v)) (distinct ((lanesOf m).map t))

/-- The paths of a `BTAB` queued for release, after a mark that parts them from those of an earlier one (R224). -/
def Group.dispatch (g : Group) (m : Lanes) (t : Nat → Word) (us : List Word) : Group :=
  let paths := us.map (fun u => (maskOf (fun i => m.getLsbD i && t i == u), u, false))
  { g with btab := g.btab ++ (0, 0, false) :: paths }

/-- `BTAB` (R224). -/
def execBtab (g : Guard) (k : JReg) (idx : Reg) (tab : SReg) (cnt : BitVec 10) (s : State) :
    Host.Outcome State Fault Refusal :=
  .next (s.run { g := g, top := topR idx 1, mem := true, acc := true } fun e s =>
    let gr := e.group s
    let base := gr.sreg tab.toNat
    let ix (i : Nat) : Word := gr.reg idx i
    let va (i : Nat) : Word := base + (ix i <<< 3)
    let bad := maskOf (fun i => e.act.getLsbD i && decide (cnt.toNat + 1 ≤ (ix i).toNat))
    if bits base 0 3 ≠ 0 then e.fault .illegalOperand 0
    else if bad ≠ 0 then .trap { kind := .tableIndex, detail := 0, lanes := bad }
    else
      match s.ownedAmong e.agent .read ((lanesOf e.act).map va) with
      | l :: ls => .park (.owned (l :: ls))
      | [] =>
        let r := State.tableLoads e.agent va s (lanesOf e.act)
        let t (i : Nat) : Word := get 0 i r.1
        match laneFaults e.act (fun i => match s.probe e.agent .read true (va i) with
          | some f => some f
          | none => if targetOk (t i) then none else some (.illegalOperand, 0)) with
        | some x => .trap x
        | none =>
          if e.act = 0 then .go s
          else
            let s := e.onGroup r.2 (fun gr => (gr.setJ k.toNat e.act).dispatch e.act t (rankedTargets e.act ix t))
            e.leave s e.act t)

/-! ### Exit and raster order (R225, R302, R145) -/

/-- A lane of a fragment group stands behind a fragment at its pixel from an earlier triangle of its stream (R145). -/
def State.behind (s : State) (team grp lane : Nat) : Bool :=
  let g := s.group team grp
  match g.sort with
  | .normal => false
  | .sweep _ _ _ _ _ => false
  | .frag op _ tri pix =>
    match find lane pix with
    | none => false
    | some p =>
      !g.helper.getLsbD lane && (s.team team).groups.any (fun e =>
        match e.2.sort with
        | .normal => false
        | .sweep _ _ _ _ _ => false
        | .frag op' _ tri' pix' =>
          op' == op && decide (tri' < tri) && pix'.any (fun x =>
            x.2 == p && !e.2.helper.getLsbD x.1 && !e.2.relDone.getLsbD x.1 && e.2.state x.1 != 2 && e.2.state x.1 != 0))

/-- The number of a pixel among the releases of a stream. -/
def pixelKey (p : Nat × Nat) : Nat := p.2 * 65536 + p.1

/-- The stream of a fragment group, and the pixels of its lanes in a mask, helper lanes apart. -/
def Group.fragments (g : Group) (m : Lanes) : Option (Nat × List Nat) :=
  match g.sort with
  | .normal | .sweep _ _ _ _ _ => none
  | .frag op _ _ pix =>
    some (op, (lanesOf (m &&& ~~~g.helper)).filterMap (fun i => (find i pix).map pixelKey))

/-- Lanes of a fragment group release their pixels at the group's timestamp (R145). -/
def State.releasePixels (s : State) (team grp : Nat) (m : Lanes) : State :=
  let g := s.group team grp
  match g.fragments m with
  | none => s
  | some (op, ks) => s.onOp op (fun o => match o.body with
    | .rast r => { o with body := .rast { r with rel := ks.foldl (fun t k => put k (Nat.max g.gts (get 0 k t)) t) r.rel } }
    | .copy _ | .tex _ | .ray _ | .pair _ | .drain | .near _ | .crest _ => o)

/-- The time from which the accesses of lanes that pass `ORDWAIT` follow those of the earlier fragments (R145). -/
def State.orderTime (s : State) (team grp : Nat) (m : Lanes) : Nat :=
  match (s.group team grp).fragments m with
  | none => 0
  | some (op, ks) => match find op s.ops with
    | none => 0
    | some o => match o.body with
      | .rast r => ks.foldl (fun t k => Nat.max t (get 0 k r.rel)) 0
      | .copy _ | .tex _ | .ray _ | .pair _ | .drain | .near _ | .crest _ => 0

/-- The lanes of a team that wait for raster order and no longer need to are released (R145). -/
def State.releaseOrder (s : State) (team : Nat) : State :=
  (s.team team).groups.foldl (fun s' e =>
    let m := e.2.waiting (fun i w => w == .order && !s.behind team e.1 i)
    if m = 0 then s'
    else s'.onGroup team e.1 (fun g => { g.release m with gts := Nat.max g.gts (s.orderTime team e.1 m) })) s

/-- The active lanes exit (R225); each no longer holds back later fragments (R145). -/
def Env.exitLanes (e : Env) (s : State) : Res :=
  let s := e.onGroup s (fun g =>
    (lanesOf e.act).foldl (fun g i =>
      { (g.setPc i e.pc).setState i 2 with wait := del i g.wait, hdr := del i g.hdr }) g)
  .ok ((s.releasePixels e.team e.grp e.act).releaseOrder e.team) e.act

/-- A lane that exits waits for the register destinations of its outstanding instructions (R225). -/
def exitWaits (e : Env) (s : State) : Bool :=
  (e.group s).pend.any (fun p => !p.2.left_ && (p.2.lanes &&& e.act) != 0
    && !(p.2.vw.isEmpty && p.2.pw.isEmpty && p.2.sw.isEmpty))

/-- `EXIT` (R225). -/
def execExit (g : Guard) (s : State) : Host.Outcome State Fault Refusal :=
  .next (s.run { g := g, wait := exitWaits } fun e s => e.exitLanes s)

/-- `ORDWAIT` (R302, R145). -/
def execOrdwait (g : Guard) (s : State) : Host.Outcome State Fault Refusal :=
  .next (s.run { g := g } fun e s =>
    let m := maskOf (fun i => e.act.getLsbD i && s.behind e.team e.grp i)
    .ok (e.block (s.raisePts e.agent (s.orderTime e.team e.grp (e.act &&& ~~~m))) m 5 .order) m)

/-- `ORDREL` (R302, R145). -/
def execOrdrel (g : Guard) (s : State) : Host.Outcome State Fault Refusal :=
  .next (s.run { g := g } fun e s =>
    let s := e.onGroup s (fun gr => { gr with relDone := gr.relDone ||| e.act })
    .go ((s.releasePixels e.team e.grp e.act).releaseOrder e.team))

/-! ### Join masks (R226, R34) -/

/-- `JMASK` (R226). -/
def execJmask (g : Guard) (k : JReg) (a : SReg) (s : State) : Host.Outcome State Fault Refusal :=
  .next (s.groupOp g (fun _ gr => gr.setJ k.toNat (gr.sreg a.toNat)))

/-- `JMASK.ACT` (R226). -/
def execJmaskAct (g : Guard) (k : JReg) (s : State) : Host.Outcome State Fault Refusal :=
  .next (s.groupOp g (fun e gr => gr.setJ k.toNat e.act))

/-- `JMASK.OR` (R226). -/
def execJmaskOr (g : Guard) (k : JReg) (s : State) : Host.Outcome State Fault Refusal :=
  .next (s.groupOp g (fun e gr => gr.setJ k.toNat (gr.jreg k.toNat ||| e.act)))

/-- The lanes that count as arrived at a header, beside those of a path (R34, R226): the ones blocked there in a lane
state, the exited, and those never launched. -/
def Group.arrivedAt (g : Group) (hdr : Word) (code : Nat) : Lanes :=
  maskOf (fun i => g.state i == 0 || g.state i == 2 || (g.state i == code && g.lanePc i == hdr))

/-- The lanes of a mask that a path at a join still waits for (R34). -/
def Group.joinLacks (g : Group) (hdr : Word) (path j : Lanes) : Lanes := j &&& ~~~(path ||| g.arrivedAt hdr 3)

/-- Lanes that a `JOIN` has let go pass it (R34). -/
def Group.passJoin (g : Group) (hdr : Word) (m : Lanes) : Group :=
  { g with arrive := set 0 hdr.toNat (get 0 hdr.toNat g.arrive &&& ~~~m) g.arrive }

/-- `JOIN` (R34, R226): lanes that were let go at the header pass, and so does a path that lacks no named lane; the named
lanes of one that does block at the header. -/
def execJoin (k : JReg) (s : State) : Host.Outcome State Fault Refusal :=
  .next (s.run { g := .always } fun e s =>
    let gr := e.group s
    let j := gr.jreg k.toNat
    if e.path &&& j &&& ~~~(get 0 e.hdr.toNat gr.arrive) = 0 ∨ gr.joinLacks e.hdr e.path j = 0 then
      .go (e.onGroup s (fun g => g.passJoin e.hdr e.path))
    else
      let m := e.path &&& j
      .ok (e.onGroup s (fun g => (lanesOf m).foldl (fun g i => g.setState i 3) (g.goTo m (fun _ => e.hdr)))) m)

/-- `JANY` (R226). -/
def execJany (g : Guard) (pd : PReg) (k : JReg) (s : State) : Host.Outcome State Fault Refusal :=
  .next (s.vecP g 0 pd (fun gr _ => (gr.jreg k.toNat &&& gr.live) != 0))

/-! ### Issue control (R227) -/

/-- `YIELD` (R227). -/
def execYield (g : Guard) (s : State) : Host.Outcome State Fault Refusal :=
  .next (s.run { g := g } fun e s =>
    e.leave (e.once s (fun s => e.onGroup s (fun gr => { gr with passed := true }))) e.act (fun _ => e.succ))

/-- `WAITD` (R227): the active lanes that wait stay ready at the instruction, which they execute again. -/
def execWaitd (g : Guard) (mask : BitVec 8) (s : State) : Host.Outcome State Fault Refusal :=
  .next (s.run { g := g } fun e s =>
    if (e.group s).countersClear mask then .go s
    else .ok (e.onGroup s (fun gr => (gr.retreat e.act).standAt e.act 1 e.pc (e.hdr, e.bodyw) none)) e.act)

/-- `SETPRIO n` (R227). -/
def execSetprio (g : Guard) (n : BitVec 4) (s : State) : Host.Outcome State Fault Refusal :=
  .next (s.groupOp g (fun _ gr => { gr with prio := n.toNat }))

/-- `SETPRIO Sa` (R227). -/
def execSetprioS (g : Guard) (a : SReg) (s : State) : Host.Outcome State Fault Refusal :=
  .next (s.groupOp g (fun _ gr => { gr with prio := Nat.min (gr.sreg a.toNat).toNat 15 }))

/-- `SLEEP` (R227). -/
def execSleep (g : Guard) (a : SReg) (lit : Option W32) (s : State) : Host.Outcome State Fault Refusal :=
  .next (s.run { g := g } fun e s =>
    let d := ((e.group s).sreg a.toNat).toNat + (match lit with
      | some x => x.toNat
      | none => 0)
    if 2 ^ 40 ≤ d then e.fault .illegalOperand 0
    else if d = 0 then .go s
    else
      .ok (e.onGroup s (fun gr =>
        (lanesOf e.act).foldl (fun gr i =>
          { gr.setState i 9 with wait := put i (.sleep (s.dev.datum + d)) gr.wait }) (gr.goTo e.act (fun _ => e.succ)))) e.act)

/-! ### Numbered barriers (R228) -/

/-- A barrier of a team (R228). -/
def Team.bar (t : Team) (b : Nat) : Bar := get (Bar.start t.base) b t.bars

/-- Whoever waits at a barrier for another phase than its present one is released, at the barrier's time (R228,
R103). -/
def Team.flipped (t : Team) (b : Nat) : Team :=
  let x := t.bar b
  let t : Team := { t with groups := t.groups.map (fun e =>
    let m := e.2.waiting (fun _ w => match w with
      | .barrier b' ph => b' == b && ph != x.phase
      | .shelf _ _ | .word _ _ _ _ _ | .quiet _ _ | .order | .lines _ _ _ | .owned _ | .sleep _ => false)
    if m = 0 then e else (e.1, { e.2.release m with gts := Nat.max e.2.gts x.time })) }
  if t.seq.st = .atBarrier ∧ t.seq.barrier = b ∧ t.seq.phase ≠ x.phase then
    { t with seq := { t.seq with st := .running },
             groups := adjust t.seq.grp (fun g => { g with gts := Nat.max g.gts x.time }) t.groups }
  else t

/-- One arrival at a barrier by a group with a timestamp: refused when the expected counts differ, else the team and
the phase before it (R228, R103). -/
def Team.arriveBar (t : Team) (b n time : Nat) : Option (Team × Bool) :=
  let x := t.bar b
  if x.count ≠ 0 ∧ x.expect ≠ n then none
  else
    let y := { x with expect := if x.count = 0 then n else x.expect, count := x.count + 1, time := Nat.max x.time time }
    let full := y.count == y.expect
    let z := if full then { y with count := 0, phase := !y.phase } else y
    let t := { t with bars := put b z t.bars }
    some (if full then t.flipped b else t, x.phase)

/-- `BARARV` (R228). -/
def execBararv (g : Guard) (d : SReg) (b : BitVec 4) (n : BitVec 10) (s : State) :
    Host.Outcome State Fault Refusal :=
  .next (s.run { g := g, once := true } fun e s =>
    if e.act = 0 then .go s
    else
      match (s.team e.team).arriveBar b.toNat n.toNat (e.group s).gts with
      | none => e.fault .illegalOperand b.toNat
      | some (t, ph) =>
        .go (e.onGroup (s.onTeam e.team (fun _ => t)) (fun gr => gr.setS d.toNat (if ph then 1 else 0))))

/-- `BARWAIT` (R228). -/
def execBarwait (g : Guard) (b : BitVec 4) (a : SReg) (s : State) : Host.Outcome State Fault Refusal :=
  .next (s.run { g := g } fun e s =>
    let x := (s.team e.team).bar b.toNat
    let ph := ((e.group s).sreg a.toNat).getLsbD 0
    if x.phase == ph then .ok (e.block s e.act 5 (.barrier b.toNat ph)) e.act
    else .go (e.once s (fun s => s.raisePts e.agent x.time)))

end Sys2Proof.Machine
end

