-- ==== Sys2Proof/Machine/Uniform.lean ====
section
/-!
DEFINITION. Uniform instructions (R229, R230).
-/
namespace Sys2Proof.Machine

/-- A rotation to the left of a 64-bit word. -/
def rotL (x : Word) (n : Nat) : Word := x.rotateLeft (n % 64)
/-- A rotation to the right. -/
def rotR (x : Word) (n : Nat) : Word := x.rotateRight (n % 64)

/-- A shift of one element of `w` bits, the amount unsigned (R233). -/
def shlNat (w x n : Nat) : Nat := if w ≤ n then 0 else x * 2 ^ n % 2 ^ w
/-- Right, filling with zeros. -/
def shrNat (w x n : Nat) : Nat := if w ≤ n then 0 else x / 2 ^ n
/-- Right, filling with the top bit. -/
def sarNat (w x n : Nat) : Nat :=
  let top := x / 2 ^ (w - 1) % 2 == 1
  let k := if w ≤ n then w else n
  x / 2 ^ k + (if top then 2 ^ w - 2 ^ (w - k) else 0)

/-- A shift of a 64-bit word (R229, R233). -/
def shfWord (op : ShfOp) (x n : Word) : Word :=
  match op with
  | .shl => BitVec.ofNat 64 (shlNat 64 x.toNat n.toNat)
  | .shr => BitVec.ofNat 64 (shrNat 64 x.toNat n.toNat)
  | .sar => BitVec.ofNat 64 (sarNat 64 x.toNat n.toNat)
  | .rotl => rotL x (bits n 0 6)
  | .rotr => rotR x (bits n 0 6)

/-- A comparison of 64-bit words under the signedness of a type (R229, R235). -/
def scmpWord (cc : Cc) (ty : Ty) (x y : Word) : Bool :=
  ccHolds cc (elemInt ty x.toNat) (elemInt ty y.toNat)

/-- `SMOV` (R229). -/
def execSmov (g : Guard) (d a : SReg) (s : State) : Host.Outcome State Fault Refusal :=
  .next (s.uniS g d (fun gr => gr.sreg a.toNat))

/-- `SLI` (R230). -/
def execSli (g : Guard) (ty : Ty) (d : SReg) (x : Imm) (s : State) : Host.Outcome State Fault Refusal :=
  .next (s.uniS g d (fun _ => sliWord ty x))

/-- `SLI.HI` (R230). -/
def execSliHi (g : Guard) (d : SReg) (x : W32) (s : State) : Host.Outcome State Fault Refusal :=
  .next (s.uniS g d (fun gr => x ++ (gr.sreg d.toNat).setWidth 32))

/-- `SADD` (R229). -/
def execSadd (g : Guard) (ty : Ty) (d a : SReg) (b : SOpnd) (s : State) : Host.Outcome State Fault Refusal :=
  .next (s.uniS g d (fun gr => gr.sreg a.toNat + gr.sopnd ty b))

/-- `SSUB` (R229). -/
def execSsub (g : Guard) (ty : Ty) (d a : SReg) (b : SOpnd) (s : State) : Host.Outcome State Fault Refusal :=
  .next (s.uniS g d (fun gr => gr.sreg a.toNat - gr.sopnd ty b))

/-- `SMUL` (R229). -/
def execSmul (g : Guard) (ty : Ty) (d a : SReg) (b : SOpnd) (s : State) : Host.Outcome State Fault Refusal :=
  .next (s.uniS g d (fun gr => gr.sreg a.toNat * gr.sopnd ty b))

/-- `SMAD` (R229). -/
def execSmad (g : Guard) (ty : Ty) (d a b : SReg) (c : SOpnd) (s : State) : Host.Outcome State Fault Refusal :=
  .next (s.uniS g d (fun gr => gr.sreg a.toNat * gr.sreg b.toNat + gr.sopnd ty c))

/-- `SLOG` (R229). -/
def execSlog (g : Guard) (op : LogOp) (d a : SReg) (b : SOpnd) (s : State) : Host.Outcome State Fault Refusal :=
  .next (s.uniS g d (fun gr => logWord op (gr.sreg a.toNat) (gr.sopnd .b64 b)))

/-- `SSHF` (R229). -/
def execSshf (g : Guard) (op : ShfOp) (ty : Ty) (d a : SReg) (b : SOpnd) (s : State) :
    Host.Outcome State Fault Refusal :=
  .next (s.uniS g d (fun gr => shfWord op (gr.sreg a.toNat) (gr.sopnd ty b)))

/-- `SCMP` (R229). -/
def execScmp (g : Guard) (cc : Cc) (ty : Ty) (d a : SReg) (b : SOpnd) (s : State) :
    Host.Outcome State Fault Refusal :=
  .next (s.uniS g d (fun gr => if scmpWord cc ty (gr.sreg a.toNat) (gr.sopnd ty b) then 1 else 0))

/-- `SSEL` (R229). -/
def execSsel (g : Guard) (d a b : SReg) (c : SOpnd) (s : State) : Host.Outcome State Fault Refusal :=
  .next (s.uniS g d (fun gr => if gr.sopnd .b64 c ≠ 0 then gr.sreg a.toNat else gr.sreg b.toNat))

end Sys2Proof.Machine
end

