-- ==== Sys2Proof/Machine/Integer.lean ====
section
/-!
DEFINITION. Integer and address instructions (R232-R237), element by element under R114 and R115.
-/
namespace Sys2Proof.Machine

/-- A result of two elements under a type's signedness, delivered wrapped or clamped (R115). -/
def int2 (t : Ty) (sat : Bool) (f : Int → Int → Int) (x y : Word) : Word :=
  map2 t (fun a b => deliver t sat (f (elemInt t a) (elemInt t b))) x y

/-- A result of one element. -/
def int1 (t : Ty) (sat : Bool) (f : Int → Int) (x : Word) : Word := map1 t (fun a => deliver t sat (f (elemInt t a))) x

/-- A vector register from two value sources. -/
def State.vec2 (s : State) (g : Guard) (ty : Ty) (d : VReg) (a : Reg) (b : Opnd) (f : Word → Word → Word) : State :=
  s.vecV g (maxOf [topR a 1, topO b]) d (fun gr i => f (gr.reg a i) (gr.opnd ty b i))

/-- A vector register from three value sources. -/
def State.vec3 (s : State) (g : Guard) (ty : Ty) (d : VReg) (a b : Reg) (c : Opnd) (f : Word → Word → Word → Word) :
    State :=
  s.vecV g (maxOf [topR a 1, topR b 1, topO c]) d (fun gr i => f (gr.reg a i) (gr.reg b i) (gr.opnd ty c i))

/-- A vector register from one register. -/
def State.vec1 (s : State) (g : Guard) (d : VReg) (a : Reg) (f : Word → Word) : State :=
  s.vecV g (topR a 1) d (fun gr i => f (gr.reg a i))

/-- `MOV` (R237). -/
def execMov (g : Guard) (d : VReg) (a : Reg) (s : State) : Host.Outcome State Fault Refusal :=
  .next (s.vec1 g d a id)

/-- `LI` (R237). -/
def execLi (g : Guard) (ty : Ty) (d : VReg) (x : Imm) (s : State) : Host.Outcome State Fault Refusal :=
  .next (s.vecV g 0 d (fun _ _ => liWord ty x))

/-- `LI.HI` (R237). -/
def execLiHi (g : Guard) (_ty : Ty) (d : VReg) (x : W32) (s : State) : Host.Outcome State Fault Refusal :=
  .next (s.vecV g 0 d (fun gr i => x ++ (gr.vreg d.toNat i).setWidth 32))

/-- `IADD` (R232). -/
def execIadd (g : Guard) (ty : Ty) (sat : Bool) (d : VReg) (a : Reg) (b : Opnd) (s : State) :
    Host.Outcome State Fault Refusal :=
  .next (s.vec2 g ty d a b (int2 ty sat (fun x y => x + y)))

/-- `ISUB` (R232). -/
def execIsub (g : Guard) (ty : Ty) (sat : Bool) (d : VReg) (a : Reg) (b : Opnd) (s : State) :
    Host.Outcome State Fault Refusal :=
  .next (s.vec2 g ty d a b (int2 ty sat (fun x y => x - y)))

/-- `IMUL` (R232). -/
def execImul (g : Guard) (ty : Ty) (sat : Bool) (d : VReg) (a : Reg) (b : Opnd) (s : State) :
    Host.Outcome State Fault Refusal :=
  .next (s.vec2 g ty d a b (int2 ty sat (fun x y => x * y)))

/-- The upper half of the exact product (R232). -/
def mulHigh (t : Ty) (x y : Int) : Int := x * y / 2 ^ t.width

/-- `IMULH` (R232). -/
def execImulh (g : Guard) (ty : Ty) (d : VReg) (a : Reg) (b : Opnd) (s : State) : Host.Outcome State Fault Refusal :=
  .next (s.vec2 g ty d a b (int2 ty false (mulHigh ty)))

/-- `IMAD` (R232). -/
def execImad (g : Guard) (ty : Ty) (sat : Bool) (d : VReg) (a b : Reg) (c : Opnd) (s : State) :
    Host.Outcome State Fault Refusal :=
  .next (s.vec3 g ty d a b c (fun x y z =>
    map3 ty (fun p q r => deliver ty sat (elemInt ty p * elemInt ty q + elemInt ty r)) x y z))

/-- `IMIN` (R232). -/
def execImin (g : Guard) (ty : Ty) (d : VReg) (a : Reg) (b : Opnd) (s : State) : Host.Outcome State Fault Refusal :=
  .next (s.vec2 g ty d a b (int2 ty false min))

/-- `IMAX` (R232). -/
def execImax (g : Guard) (ty : Ty) (d : VReg) (a : Reg) (b : Opnd) (s : State) : Host.Outcome State Fault Refusal :=
  .next (s.vec2 g ty d a b (int2 ty false max))

/-- `IABS` (R232). -/
def execIabs (g : Guard) (ty : Ty) (sat : Bool) (d : VReg) (a : Reg) (s : State) : Host.Outcome State Fault Refusal :=
  .next (s.vec1 g d a (int1 ty sat (fun x => (x.natAbs : Int))))

/-- `INEG` (R232). -/
def execIneg (g : Guard) (ty : Ty) (sat : Bool) (d : VReg) (a : Reg) (s : State) : Host.Outcome State Fault Refusal :=
  .next (s.vec1 g d a (int1 ty sat (fun x => -x)))

/-- `LOG` (R232). -/
def execLog (g : Guard) (op : LogOp) (d : VReg) (a : Reg) (b : Opnd) (s : State) : Host.Outcome State Fault Refusal :=
  .next (s.vec2 g .b64 d a b (logWord op))

/-- `SHL` (R233). -/
def execShl (g : Guard) (ty : Ty) (d : VReg) (a : Reg) (b : Opnd) (s : State) : Host.Outcome State Fault Refusal :=
  .next (s.vec2 g ty d a b (map2 ty (shlNat ty.width)))

/-- `SHR` (R233). -/
def execShr (g : Guard) (ty : Ty) (d : VReg) (a : Reg) (b : Opnd) (s : State) : Host.Outcome State Fault Refusal :=
  .next (s.vec2 g ty d a b (map2 ty (shrNat ty.width)))

/-- `SAR` (R233). -/
def execSar (g : Guard) (ty : Ty) (d : VReg) (a : Reg) (b : Opnd) (s : State) : Host.Outcome State Fault Refusal :=
  .next (s.vec2 g ty d a b (map2 ty (sarNat ty.width)))

/-- `ROT` (R233). -/
def execRot (g : Guard) (right : Bool) (d : VReg) (a : Reg) (b : Opnd) (s : State) :
    Host.Outcome State Fault Refusal :=
  .next (s.vec2 g .b64 d a b (fun x y => if right then rotR x (bits y 0 6) else rotL x (bits y 0 6)))

/-- The number of 1 bits among the low `w` of a number. -/
def popNat (w x : Nat) : Nat := ((List.range w).filter (fun k => x.testBit k)).length

/-- Leading zero bits of an element of `w` bits; `w` for 0 (R233). -/
def clzNat (w x : Nat) : Nat := if x = 0 then w else w - 1 - Nat.log2 x

/-- `POPC` (R233). -/
def execPopc (g : Guard) (ty : Ty) (d : VReg) (a : Reg) (s : State) : Host.Outcome State Fault Refusal :=
  .next (s.vec1 g d a (map1 ty (popNat ty.width)))

/-- `CLZ` (R233). -/
def execClz (g : Guard) (ty : Ty) (d : VReg) (a : Reg) (s : State) : Host.Outcome State Fault Refusal :=
  .next (s.vec1 g d a (map1 ty (clzNat ty.width)))

/-- The bits of a word in reverse (R233). -/
def revWord (x : Word) : Word := x.reverse

/-- `BREV` (R233). -/
def execBrev (g : Guard) (d : VReg) (a : Reg) (s : State) : Host.Outcome State Fault Refusal :=
  .next (s.vec1 g d a revWord)

/-- Position and length of a bit field (R234). -/
def bitField (b : Word) : Nat × Nat :=
  let p := bits b 0 6
  (p, Nat.min (Nat.min (bits b 8 7) 64) (64 - p))

/-- The field of a word, extended (R234). -/
def bfeWord (signed : Bool) (x b : Word) : Word :=
  let f := bitField b
  let y := bits x f.1 f.2
  if f.2 = 0 then 0
  else if signed && y / 2 ^ (f.2 - 1) % 2 == 1 then BitVec.ofNat 64 (y + 2 ^ 64 - 2 ^ f.2) else BitVec.ofNat 64 y

/-- A word with a field replaced (R234). -/
def bfiWord (x b z : Word) : Word :=
  let f := bitField b
  let hole := BitVec.ofNat 64 ((2 ^ f.2 - 1) * 2 ^ f.1)
  (z &&& ~~~hole) ||| BitVec.ofNat 64 (bits x 0 f.2 * 2 ^ f.1)

/-- Bytes of two words chosen by the nibbles of a third (R234). -/
def bpermWord (x b z : Word) : Word :=
  BitVec.ofNat 64 (joinBits 8 ((List.range 8).map (fun k =>
    let n := bits b (4 * k) 4
    if n < 8 then bits x (8 * n) 8 else bits z (8 * (n - 8)) 8)))

/-- `BFE` (R234). -/
def execBfe (g : Guard) (ty : Ty) (d : VReg) (a : Reg) (b : Opnd) (s : State) : Host.Outcome State Fault Refusal :=
  .next (s.vec2 g ty d a b (bfeWord ty.signed))

/-- `BFI` (R234). -/
def execBfi (g : Guard) (d : VReg) (a b : Reg) (c : Opnd) (s : State) : Host.Outcome State Fault Refusal :=
  .next (s.vec3 g .b64 d a b c bfiWord)

/-- `BPERM` (R234). -/
def execBperm (g : Guard) (d : VReg) (a b : Reg) (c : Opnd) (s : State) : Host.Outcome State Fault Refusal :=
  .next (s.vec3 g .b64 d a b c bpermWord)

/-- `ICMP` (R235). -/
def execIcmp (g : Guard) (cc : Cc) (any : Bool) (ty : Ty) (pd : PReg) (a : Reg) (b : Opnd) (s : State) :
    Host.Outcome State Fault Refusal :=
  .next (s.vecP g (maxOf [topR a 1, topO b]) pd (fun gr i => icmpWord cc any ty (gr.reg a i) (gr.opnd ty b i)))

/-- `SEL` (R235). -/
def execSel (g : Guard) (d : VReg) (a b : Reg) (pc : PReg) (s : State) : Host.Outcome State Fault Refusal :=
  .next (s.vecV g (maxOf [topR a 1, topR b 1]) d (fun gr i =>
    if gr.preg pc.toNat i then gr.reg a i else gr.reg b i))

/-- `LEA` (R236). -/
def execLea (g : Guard) (scl : BitVec 2) (d : VReg) (a b : Reg) (off : Option W32) (s : State) :
    Host.Outcome State Fault Refusal :=
  .next (s.vecV g (maxOf [topR a 1, topR b 1]) d (fun gr i =>
    gr.reg a i + (gr.reg b i <<< scl.toNat) + (match off with
      | some o => o.signExtend 64
      | none => 0)))

/-- `IADDX` (R236). -/
def execIaddx (g : Guard) (nc : Bool) (d : VReg) (pco : PReg) (a b : Reg) (pci : PReg) (s : State) :
    Host.Outcome State Fault Refusal :=
  .next (s.run { g := g, top := maxOf [topV d 1, topR a 1, topR b 1] } fun e s =>
    let gr := e.group s
    let r (i : Nat) : Nat :=
      (gr.reg a i).toNat + (gr.reg b i).toNat + (if !nc && gr.preg pci.toNat i then 1 else 0)
    .go (e.onGroup s (fun x =>
      (x.setVs d.toNat e.act (fun i => BitVec.ofNat 64 (r i))).setPs pco.toNat e.act (fun i => decide (2 ^ 64 ≤ r i)))))

end Sys2Proof.Machine
end

