-- ==== Sys2Proof/Machine/Convert.lean ====
section
/-!
DEFINITION. Conversions and narrow formats (R246-R249, R120-R128).
-/
namespace Sys2Proof.Machine

/-- One element converted between two types (R120). -/
def convElem (dt st : Ty) (sat : Bool) (x : Nat) : Nat × Flags :=
  if dt.isFp then
    if st.isFp then fpConv (tyFmt st) (tyFmt dt) x else intToFp (tyFmt dt) (elemInt st x)
  else if st.isFp then
    let r := fpToInt (tyFmt st) dt.signed dt.width x
    (wrap dt.width r.1, r.2)
  else (deliver dt sat (elemInt st x), 0)

/-- Elements of a word converted into elements of a destination, whose other elements stay (R246). -/
def convWord (dt st : Ty) (sat : Bool) (sf df : Nat) (old x : Word) : Word × Flags :=
  let n := Nat.min (st.count - sf) (dt.count - df)
  let rs := (List.range n).map (fun k => convElem dt st sat (elem st x (sf + k)))
  let old := if dt = .f32 then 0 else old
  ((List.range n).foldl (fun y k => setElem dt y (df + k) (rs.getD k (0, 0)).1) old, rs.foldl (fun f r => f ||| r.2) 0)

/-- The shared form of the conversions (R246). -/
def State.convert (s : State) (g : Guard) (sat : Bool) (dt st : Ty) (d : VReg) (a : Reg) (sf df : BitVec 4) : State :=
  s.vecF g (topR a 1) d (fun gr i => convWord dt st sat sf.toNat df.toNat (gr.vreg d.toNat i) (gr.reg a i))

/-- `FCVT` (R246). -/
def execFcvt (g : Guard) (dt st : Ty) (d : VReg) (a : Reg) (sf df : BitVec 4) (s : State) :
    Host.Outcome State Fault Refusal :=
  .next (s.convert g false dt st d a sf df)

/-- `FTOI` (R246). -/
def execFtoi (g : Guard) (dt st : Ty) (d : VReg) (a : Reg) (sf df : BitVec 4) (s : State) :
    Host.Outcome State Fault Refusal :=
  .next (s.convert g false dt st d a sf df)

/-- `ICVT` (R246). -/
def execIcvt (g : Guard) (sat : Bool) (dt st : Ty) (d : VReg) (a : Reg) (sf df : BitVec 4) (s : State) :
    Host.Outcome State Fault Refusal :=
  .next (s.convert g sat dt st d a sf df)

/-! ### Narrow formats -/

/-- A format register of a team (R121). -/
def State.fmt (s : State) (e : Env) (k : BitVec 4) : BitVec 16 := get 0 k.toNat (s.team e.team).f

/-- The value that `FMTSET` writes (R247). -/
def Group.fmtSrc (g : Group) (x : FmtSrc) : BitVec 16 :=
  match x with
  | .reg a => (g.sreg a.toNat).setWidth 16
  | .lit v => v

/-- `FMTSET` (R247). -/
def execFmtset (g : Guard) (k : BitVec 4) (x : FmtSrc) (s : State) : Host.Outcome State Fault Refusal :=
  .next (s.run { g := g, once := true } fun e s =>
    .go (e.once s (fun s => s.onTeam e.team (fun t => { t with f := set 0 k.toNat ((e.group s).fmtSrc x) t.f }))))

/-- An invalid format register faults with its number (R122). -/
def State.fmtFault (s : State) (e : Env) (w : NWidth) (ks : List (BitVec 4)) : Option Res :=
  (ks.find? (fun k => !fmtValid (s.fmt e k) (nBits w))).map (fun k => e.fault .illegalOperand k.toNat)

/-- Narrow element j of a lane word (R128). -/
def narrowElem (w : NWidth) (x : Word) (j : Nat) : Nat := field x.toNat (nBits w * j) (nBits w)

/-- A number with bits replaced. -/
def putField (x lo n v : Nat) : Nat := x - field x lo n * 2 ^ lo + v % 2 ^ n * 2 ^ lo

/-- The scale that a lane takes from byte s of its scale register, or one (R126, R128). -/
def Group.scale (g : Group) (b : Reg) (sel lane : Nat) : Option Nat :=
  if b = .s 0 then none else some (field (g.reg b lane).toNat (8 * sel) 8)

/-- `NCVT.DEC` in a lane (R248). -/
def ncvtDecWord (w : NWidth) (ty : Ty) (fm : BitVec 16) (sc : Option Nat) (p : Nat) (x : Word) : Word × Flags :=
  packFlags ty ((List.range ty.count).map (fun e =>
    let v := narrowDecode (narrowElem w x (p * ty.count + e)) fm (nBits w)
    (tyFmt ty).round (match sc with
      | some b => (mulVal v (scaleVal b)).1
      | none => v)))

/-- `NCVT.ENC` in a lane (R248, R127). -/
def ncvtEncWord (w : NWidth) (ty : Ty) (fm : BitVec 16) (sc : Option Nat) (p : Nat) (old x : Word) : Word × Flags :=
  let rs := (List.range ty.count).map (fun e =>
    let v := (tyFmt ty).val (elem ty x e)
    narrowEncode (match sc with
      | some b => unscale v b
      | none => v) fm (nBits w))
  let y := (List.range ty.count).foldl (fun y e =>
    putField y (nBits w * (p * ty.count + e)) (nBits w) (rs.getD e (0, 0)).1) old.toNat
  (BitVec.ofNat 64 (if w = .n6 then y % 2 ^ 48 else y), rs.foldl (fun f r => f ||| r.2) 0)

/-- The shared form of `NCVT` (R248). -/
def State.ncvt (s : State) (g : Guard) (w : NWidth) (d : VReg) (a b : Reg) (k : BitVec 4)
    (f : BitVec 16 → Group → Nat → Word × Flags) : State :=
  s.run { g := g, top := maxOf [topV d 1, topR a 1, topR b 1] } fun e s =>
    match s.fmtFault e w [k] with
    | some r => r
    | none =>
      let gr := e.group s
      let v := f (s.fmt e k) gr
      .go (e.onGroup s (fun x => (x.setVs d.toNat e.act (fun i => (v i).1)).raiseLanes e.act (fun i => (v i).2)))

/-- `NCVT.DEC` (R248). -/
def execNcvtDec (g : Guard) (w : NWidth) (ty : Ty) (d : VReg) (a b : Reg) (k : BitVec 4) (sel p : BitVec 3) (s : State) :
    Host.Outcome State Fault Refusal :=
  .next (s.ncvt g w d a b k (fun fm gr i => ncvtDecWord w ty fm (gr.scale b sel.toNat i) p.toNat (gr.reg a i)))

/-- `NCVT.ENC` (R248). -/
def execNcvtEnc (g : Guard) (w : NWidth) (ty : Ty) (d : VReg) (a b : Reg) (k : BitVec 4) (sel p : BitVec 3) (s : State) :
    Host.Outcome State Fault Refusal :=
  .next (s.ncvt g w d a b k (fun fm gr i =>
    ncvtEncWord w ty fm (gr.scale b sel.toNat i) p.toNat (gr.vreg d.toNat i) (gr.reg a i)))

/-- `NDOT` in a lane: one block (R249, R129). -/
def ndotWord (w : NWidth) (fa fb : BitVec 16) (sc : Option (Nat × Nat)) (acc a b : Word) : Word × Flags :=
  let ps := (List.range w.count).map (fun j =>
    (narrowDecode (narrowElem w a j) fa (nBits w), narrowDecode (narrowElem w b j) fb (nBits w)))
  let z := match sc with
    | some (x, y) => (mulVal (scaleVal x) (scaleVal y)).1
    | none => Val.one
  let r := dotBlock (bits acc 0 32) ps z
  (BitVec.ofNat 64 r.1, r.2)

/-- `NDOT` (R249). -/
def execNdot (g : Guard) (ll : Ll) (w : NWidth) (d : VReg) (a b : Reg) (sen : Bool) (sel : BitVec 2)
    (fs : Option (BitVec 4 × BitVec 4)) (s : State) : Host.Outcome State Fault Refusal :=
  let ks := fs.getD (0, 1)
  .next (s.run { g := g, top := maxOf [topV d 1, topR a 1, topR b (if sen then 2 else 1)], ll := some ll } fun e s =>
    match s.fmtFault e w [ks.1, ks.2] with
    | some r => r
    | none =>
      let gr := e.group s
      let v (i : Nat) : Word × Flags :=
        let x := (gr.runReg b 1 i).toNat
        ndotWord w (s.fmt e ks.1) (s.fmt e ks.2)
          (if sen then some (field x (8 * sel.toNat) 8, field x (8 * (sel.toNat + 4)) 8) else none)
          (gr.vreg d.toNat i) (gr.reg a i) (gr.reg b i)
      .go (e.begin s ll { Pend.zero with
        vw := vWrites d.toNat e.act (fun i => (v i).1)
        flags := (lanesOf (e.act &&& ~~~gr.helper)).foldl (fun x i => x ||| (v i).2) 0 }))

end Sys2Proof.Machine
end

