-- ==== Sys2Proof/Machine/Share.lean ====
section
/-!
DEFINITION. Accesses of lanes to memory words and to scratchpad shares: addresses, checks before any access, and the
accesses in ascending lane number (R60, R66, R86, R257-R260, R402).
-/
namespace Sys2Proof.Machine

/-! ### Memory -/

/-- One word of an access: lane, word of the access, virtual address and place. -/
structure Hit where
  lane : Nat
  k : Nat
  va : Word
  spot : Spot
  deriving DecidableEq, Repr

/-- Words of an access of some bytes: one up to 8 bytes, else one for each 8 (R259). -/
def wordsOf (n : Nat) : Nat := (n + 7) / 8

/-- Bytes of one word of an access. -/
def wordBytes (n : Nat) : Nat := Nat.min n 8

/-- The address of word k of an access. -/
def wordVa (va : Word) (k : Nat) : Word := va + BitVec.ofNat 64 (8 * k)

/-- The fault of lowest rank among several. -/
def worstKind (fs : List (Kind × Nat)) : Option (Kind × Nat) :=
  fs.foldl (fun b x => match b with
    | none => some x
    | some y => if x.1.rank < y.1.rank then some x else some y) none

/-- What a lane's memory access faults on, in the order of R258. -/
def State.memFault (s : State) (a : Agent) (use : Use) (rd : Bool) (va : Word) (n : Nat) : Option (Kind × Nat) :=
  if !canonicalVa va then some (.unmapped, if use == .write then 1 else 0)
  else if va.toNat % wordBytes n ≠ 0 then some (.illegalOperand, 0)
  else worstKind ((List.range (wordsOf n)).filterMap (fun k => s.probe a use rd (wordVa va k)))

/-- The words of the lanes of a mask that translate, lane by lane. -/
def State.hits (s : State) (a : Agent) (use : Use) (m : Lanes) (va : Nat → Word) (n : Nat) : List Hit :=
  (lanesOf m).flatMap (fun i => (List.range (wordsOf n)).filterMap (fun k =>
    match s.seek a use (wordVa (va i) k) with
    | .error _ => none
    | .ok p => some { lane := i, k := k, va := wordVa (va i) k, spot := p }))

/-- The lines that the hits wait for, loads through L1 or other accesses (R91, R100). -/
def State.ownedHits (s : State) (a : Agent) (l1 : Bool) (hs : List Hit) : List Nat := s.waitLines a l1 (hs.map (·.spot))

/-- The loads of hits in order: values by `register * 64 + lane`, the first register given (R259). -/
def State.loadHits (a : Agent) (n d : Nat) (fin : Nat → Word) : State → List Hit → SMap Word × State
  | s, [] => ([], s)
  | s, h :: hs =>
    let r := (s.walked a h.va h.spot).load a true h.spot.cls h.spot.addr n
    let q := State.loadHits a n d fin r.2 hs
    (put ((d + h.k) * 64 + h.lane) (fin r.1) q.1, q.2)

/-- The stores of hits in order, of the data of each (R259). -/
def State.storeHits (a : Agent) (n : Nat) (data : Hit → Nat) : State → List Hit → State
  | s, [] => s
  | s, h :: hs =>
    State.storeHits a n data
      ((s.walked a h.va h.spot).store a h.spot.cls h.spot.addr n (data h % 2 ^ (8 * n))) hs

/-- The atomics of hits in order: the old values by lane (R268). -/
def State.rmwHits (a : Agent) (n : Nat) (f : Nat → Nat → Nat) : State → List Hit → SMap Nat × State
  | s, [] => ([], s)
  | s, h :: hs =>
    let r := (s.walked a h.va h.spot).rmw a h.spot.cls h.spot.addr n (f h.lane)
    let q := State.rmwHits a n f r.2 hs
    (put h.lane r.1 q.1, q.2)

/-! ### Scratchpad -/

/-- The team and offset that a share address names (R260). -/
def State.shareOf (s : State) (team : Nat) (a : Word) : Option (Nat × Nat) :=
  if bits a 21 3 ≠ 0 ∨ bits a 28 36 ≠ 0 then none
  else
    let t := bits a 24 4
    if t = 0 then some (team, bits a 0 21)
    else if t < 8 ∨ (s.team team).gsize ≤ t - 8 then none
    else (s.peer team (t - 8)).map (fun p => (p, bits a 0 21))

/-- The team and offset of an access that lies in a declared share (R60, R260). -/
def State.inShare (s : State) (team : Nat) (a : Word) (n : Nat) : Option (Nat × Nat) :=
  match s.shareOf team a with
  | none => none
  | some p => if p.2 + n ≤ (s.team p.1).size then some p else none

/-- The poison of a range of a share that is present: what an absent line holds is not what a read will return (R66). -/
def Team.badHere (t : Team) (a n : Nat) : Bool := (shareLines a n).all t.present && t.badIn a n

/-- What a lane's scratchpad access faults on (R184, R258, R260, R394). -/
def State.shareFault (s : State) (team : Nat) (rd : Bool) (a : Word) (n : Nat) : Option (Kind × Nat) :=
  match s.inShare team a n with
  | none => some (.scratchRange, 0)
  | some p =>
    if p.2 % wordBytes n ≠ 0 then some (.illegalOperand, 0)
    else if rd && (s.team p.1).badHere p.2 n then some (.poison, 0) else none

/-- The absent lines among ranges of shares, those of the first team that has any: the team and the lines (R66). -/
def State.absentLines (s : State) (rs : List (Nat × Nat × Nat)) : Option (Nat × List Nat) :=
  let bad := rs.flatMap (fun r => ((shareLines r.2.1 r.2.2).filter (fun l => !(s.team r.1).present l)).map (fun l => (r.1, l)))
  match bad.head? with
  | none => none
  | some x => some (x.1, ((bad.filter (fun y => y.1 == x.1)).map (·.2)).eraseDups)

/-- The group parks at an access until lines are present (R66). -/
def parkLines (p : Nat × List Nat) : Res := .park (.lines p.1 p.2 true)

/-- One word of a scratchpad access: lane, word, team and offset. -/
structure Slot where
  lane : Nat
  k : Nat
  team : Nat
  off : Nat
  deriving DecidableEq, Repr

/-- The words of the scratchpad accesses of the lanes of a mask. -/
def State.slots (s : State) (team : Nat) (m : Lanes) (a : Nat → Word) (n : Nat) : List Slot :=
  (lanesOf m).flatMap (fun i =>
    match s.inShare team (a i) n with
    | none => []
    | some p => (List.range (wordsOf n)).map (fun k => { lane := i, k := k, team := p.1, off := p.2 + 8 * k }))

/-- The scratchpad loads of slots in order. -/
def State.sloadSlots (a : Agent) (n d : Nat) (fin : Nat → Word) : State → List Slot → SMap Word × State
  | s, [] => ([], s)
  | s, x :: xs =>
    let r := s.sload a x.team x.off n
    let q := State.sloadSlots a n d fin r.2 xs
    (put ((d + x.k) * 64 + x.lane) (fin r.1) q.1, q.2)

/-- The scratchpad stores of slots in order. -/
def State.sstoreSlots (a : Agent) (n : Nat) (data : Slot → Nat) : State → List Slot → State
  | s, [] => s
  | s, x :: xs => State.sstoreSlots a n data (s.sstore a x.team x.off n (data x % 2 ^ (8 * n))) xs

/-- The scratchpad atomics of slots in order: the old values by lane. -/
def State.srmwSlots (a : Agent) (n : Nat) (f : Nat → Nat → Nat) : State → List Slot → SMap Nat × State
  | s, [] => ([], s)
  | s, x :: xs =>
    let r := s.srmw a x.team x.off n (f x.lane)
    let q := State.srmwSlots a n f r.2 xs
    (put x.lane r.1 q.1, q.2)

/-- A loaded value in its register: zero-extended, or sign-extended from its size (R259). -/
def extend (sx : Bool) (n x : Nat) : Word :=
  if sx && n < 8 && x / 2 ^ (8 * n - 1) % 2 == 1 then BitVec.ofNat 64 (x + 2 ^ 64 - 2 ^ (8 * n)) else BitVec.ofNat 64 x

/-- Zero in the destination registers of the lanes of a mask, under the values given (R143). -/
def zeroFill (d k : Nat) (m : Lanes) (w : SMap Word) : SMap Word :=
  (lanesOf m).foldl (fun w i => (List.range k).foldl (fun w j =>
    if (find ((d + j) * 64 + i) w).isSome then w else put ((d + j) * 64 + i) 0 w) w) w

end Sys2Proof.Machine
end

