-- ==== Sys2Proof/Machine/MemInstr.lean ====
section
/-!
DEFINITION. Loads, stores, prefetch, atomics, fences, waiting and waking (R257-R260, R262, R266-R272).
-/
namespace Sys2Proof.Machine

/-- The lanes of a mask that are no helper lanes (R143). -/
def Group.real (g : Group) (m : Lanes) : Lanes := m &&& ~~~g.helper

/-- `LD` (R259). -/
def execLd (g : Guard) (ll : Ll) (sz : Sz) (sx : Bool) (d : VReg) (m : MemOp) (s : State) :
    Host.Outcome State Fault Refusal :=
  .next (s.run { g := g, top := maxOf [topV d sz.regs, topM m], ll := some ll, mem := true, reqs := true, acc := true } fun e s =>
    let gr := e.group s
    let n := szBytes sz
    let va (i : Nat) : Word := gr.memAddr m i
    let ok := maskOf (fun i => e.act.getLsbD i && (s.memFault e.agent .read true (va i) n).isNone)
    let hs := s.hits e.agent .read ok va n
    checked (laneFaults (gr.real e.act) (fun i => s.memFault e.agent .read true (va i) n)) (s.ownedHits e.agent true hs)
      (let r := State.loadHits e.agent (wordBytes n) d.toNat (extend sx n) s hs
       .go (e.begin r.2 ll { Pend.access with vw := zeroFill d.toNat sz.regs e.act r.1 })))

/-- `ST` (R259). -/
def execSt (g : Guard) (ll : Ll) (sz : Sz) (d : Reg) (m : MemOp) (s : State) : Host.Outcome State Fault Refusal :=
  .next (s.run { g := g, top := maxOf [topR d sz.regs, topM m], ll := some ll, mem := true, reqs := true, acc := true } fun e s =>
    let gr := e.group s
    let n := szBytes sz
    let va (i : Nat) : Word := gr.memAddr m i
    let act := gr.real e.act
    let hs := s.hits e.agent .write act va n
    checked (laneFaults act (fun i => s.memFault e.agent .write false (va i) n)) (s.ownedHits e.agent false hs)
      (.go (e.begin (State.storeHits e.agent (wordBytes n) (fun h => (gr.runReg d h.k h.lane).toNat) s hs) ll Pend.access)))

/-- `LDS` (R260). -/
def execLds (g : Guard) (ll : Ll) (sz : Sz) (sx : Bool) (d : VReg) (m : MemOp) (s : State) :
    Host.Outcome State Fault Refusal :=
  .next (s.run { g := g, top := maxOf [topV d sz.regs, topM m], ll := some ll, mem := true, acc := true } fun e s =>
    let gr := e.group s
    let n := szBytes sz
    let a (i : Nat) : Word := gr.memAddr m i
    match laneFaults (gr.real e.act) (fun i => s.shareFault e.team true (a i) n) with
    | some x => .trap x
    | none =>
      let ok := maskOf (fun i => e.act.getLsbD i && (s.shareFault e.team true (a i) n).isNone)
      let xs := s.slots e.team ok a n
      match s.absentLines (xs.map (fun x => (x.team, x.off, wordBytes n))) with
      | some p => parkLines p
      | none =>
        let r := State.sloadSlots e.agent (wordBytes n) d.toNat (extend sx n) s xs
        .go (e.begin r.2 ll { Pend.zero with vw := zeroFill d.toNat sz.regs e.act r.1 }))

/-- `STS` (R260). -/
def execSts (g : Guard) (ll : Ll) (sz : Sz) (d : Reg) (m : MemOp) (s : State) : Host.Outcome State Fault Refusal :=
  .next (s.run { g := g, top := maxOf [topR d sz.regs, topM m], ll := some ll, mem := true, acc := true } fun e s =>
    let gr := e.group s
    let n := szBytes sz
    let a (i : Nat) : Word := gr.memAddr m i
    let act := gr.real e.act
    match laneFaults act (fun i => s.shareFault e.team false (a i) n) with
    | some x => .trap x
    | none =>
      let xs := s.slots e.team act a n
      match s.absentLines (xs.map (fun x => (x.team, x.off, wordBytes n))) with
      | some p => parkLines p
      | none =>
        .go (e.begin (State.sstoreSlots e.agent (wordBytes n) (fun x => (gr.runReg d x.k x.lane).toNat) s xs) ll Pend.zero))

/-- `PREF` (R262): it may ask for a migration, and changes no value. -/
def execPref (g : Guard) (lvl : PrefLvl) (m : MemOp) (s : State) : Host.Outcome State Fault Refusal :=
  .next (s.run { g := g, top := topM m } fun e s =>
    let gr := e.group s
    match lvl with
    | .l1 | .llc | .pc =>
      .go ((lanesOf e.act).foldl (fun s i =>
        match s.seek e.agent .read (gr.memAddr m i) with
        | .error _ => s
        | .ok p => s.demand e.core p) s))

/-! ### Atomics (R266-R268) -/

/-- Bytes of the word of an atomic (R266). -/
def atomBytes (ty : Ty) : Nat :=
  match ty with
  | .b64 | .i64 | .n64 | .f64 => 8
  | .i8x8 | .n8x8 | .i16x4 | .n16x4 | .i32x2 | .n32x2 | .f16x4 | .bf16x4 | .f32x2 | .f32 => 4

/-- An old word as the destination receives it (R266). -/
def atomResult (ty : Ty) (x : Nat) : Word := extend (ty == .i32x2) (atomBytes ty) x

/-- The new word of an atomic: old word, operand, and new value of a compare-and-swap (R267). -/
def atomNew (op : AtomOp) (ty : Ty) (old x y : Nat) : Nat :=
  let w := 8 * atomBytes ty
  let xi := x % 2 ^ w
  let signed (v : Nat) : Int := if ty.signed then (BitVec.ofNat w v).toInt else v
  match op with
  | .iadd => (old + xi) % 2 ^ w
  | .and => old &&& xi
  | .or => old ||| xi
  | .xor => old ^^^ xi
  | .min => if signed xi < signed old then xi else old
  | .max => if signed old < signed xi then xi else old
  | .xchg => xi
  | .fadd => (fpAdd (tyFmt ty) old xi).1
  | .fmin => (fpMinMax (tyFmt ty) false old xi).1
  | .fmax => (fpMinMax (tyFmt ty) true old xi).1
  | .cas => if old = xi then y % 2 ^ w else old

/-- The class and scope checks of an atomic (R87, R108, R268). -/
def scopeOk (sc : Scope) (cls : Nat) : Bool :=
  ordered cls && (match sc with
    | .dev => true
    | .host => cls == 4
    | .pool => cls == 2)

/-- What a lane's atomic faults on. -/
def State.atomFault (s : State) (a : Agent) (sc : Scope) (va : Word) (n : Nat) : Option (Kind × Nat) :=
  match s.memFault a .write true va n with
  | some (.illegalOperand, d) => some (.illegalOperand, d)
  | r =>
    if s.classBad a .write (scopeOk sc) va then some (.illegalOperand, 0) else r

/-- The destination writes of an atomic: the old word, 0 in helper lanes. -/
def atomWrites (d : Option VReg) (ty : Ty) (m : Lanes) (olds : SMap Nat) : SMap Word :=
  match d with
  | none => []
  | some r => vWrites r.toNat m (fun i => match find i olds with
    | some x => atomResult ty x
    | none => 0)

/-- The shared form of `ATOM` and `ATOMC`. -/
def State.atom (s : State) (g : Guard) (ll : Ll) (op : AtomOp) (ty : Ty) (sc : Scope) (d : Option VReg) (a : Reg)
    (off : Option (BitVec 28)) (b : Reg) (k : Nat) : State :=
  s.run { g := g, top := maxOf [topD d, topR a 1, topR b k], ll := some ll, mem := true, reqs := true, acc := true } fun e s =>
    let gr := e.group s
    let n := atomBytes ty
    let va (i : Nat) : Word := gr.addrOff a off i
    let act := gr.real e.act
    let hs := s.hits e.agent .write act va n
    checked (laneFaults act (fun i => s.atomFault e.agent sc (va i) n)) (s.ownedHits e.agent false hs)
      (let r := State.rmwHits e.agent n (fun i old =>
         atomNew op ty old (gr.reg b i).toNat (gr.runReg b (k - 1) i).toNat) s hs
       .go (e.begin r.2 ll { Pend.access with vw := atomWrites d ty e.act r.1 }))

/-- `ATOM` (R266). -/
def execAtom (g : Guard) (ll : Ll) (op : AtomOp) (ty : Ty) (sc : Scope) (d : Option VReg) (a : Reg)
    (off : Option (BitVec 28)) (b : Reg) (s : State) : Host.Outcome State Fault Refusal :=
  .next (s.atom g ll op ty sc d a off b 1)

/-- `ATOMC` (R266). -/
def execAtomc (g : Guard) (ll : Ll) (ty : Ty) (sc : Scope) (d : Option VReg) (a : Reg) (off : Option (BitVec 28))
    (b : Reg) (s : State) : Host.Outcome State Fault Refusal :=
  .next (s.atom g ll .cas ty sc d a off b 2)

/-- `ATOMS` (R266). -/
def execAtoms (g : Guard) (ll : Ll) (op : AtomOp) (ty : Ty) (d : Option VReg) (a : Reg) (off : Option (BitVec 28))
    (b : Reg) (s : State) : Host.Outcome State Fault Refusal :=
  let k := if op = .cas then 2 else 1
  .next (s.run { g := g, top := maxOf [topD d, topR a 1, topR b k], ll := some ll, mem := true, acc := true } fun e s =>
    let gr := e.group s
    let n := atomBytes ty
    let va (i : Nat) : Word := gr.addrOff a off i
    let act := gr.real e.act
    match laneFaults act (fun i => s.shareFault e.team true (va i) n) with
    | some x => .trap x
    | none =>
      let xs := s.slots e.team act va n
      match s.absentLines (xs.map (fun x => (x.team, x.off, n))) with
      | some p => parkLines p
      | none =>
        let r := State.srmwSlots e.agent n (fun i old =>
          atomNew op ty old (gr.reg b i).toNat (gr.runReg b (k - 1) i).toNat) s xs
        .go (e.begin r.2 ll { Pend.zero with vw := atomWrites d ty e.act r.1 }))

/-- `FENCE` (R269, R107): a device scope completes at issue. -/
def execFence (g : Guard) (sc : Scope) (s : State) : Host.Outcome State Fault Refusal :=
  .next (s.run { g := g, mem := true } fun e s =>
    match sc with
    | .dev => .go s
    | .host | .pool =>
      .go (e.once s (fun s => e.onGroup s (fun gr => { gr with fences := put (freeKey gr.fences) (e.act, sc) gr.fences }))))

/-! ### Waiting and waking (R270-R272) -/

/-- The word that `WAITA` and `WAKE` name in a lane (R270). -/
def Group.keyVa (g : Group) (a : Reg) (off : WOff) (lane : Nat) : Word :=
  g.reg a lane + (match off with
    | .short x => x.signExtend 64 <<< 3
    | .lit x => x.signExtend 64)

/-- What a lane's `WAITA` or `WAKE` faults on (R270). -/
def State.keyFault (s : State) (a : Agent) (rd : Bool) (va : Word) : Option (Kind × Nat) :=
  match s.memFault a .read rd va 8 with
  | some (.illegalOperand, d) => some (.illegalOperand, d)
  | r =>
    if s.classBad a .read ordered va then some (.illegalOperand, 0) else r

/-- The condition of `WAITA` (R270). -/
def waitHolds (cc : Cc) (ty : Ty) (x y : Word) : Bool := ccHolds cc (elemInt ty x.toNat) (elemInt ty y.toNat)

/-- The tests of lanes in order: the lanes whose test holds with the value seen, the lanes that go on waiting. -/
def State.testLanes (a : Agent) (cc : Cc) (ty : Ty) (va cmp : Nat → Word) : State → List Nat → List (Nat × Word) × State
  | s, [] => ([], s)
  | s, i :: is =>
    match s.seek a .read (va i) with
    | .error _ => State.testLanes a cc ty va cmp s is
    | .ok p =>
      let r := (s.walked a (va i) p).load a false p.cls p.addr 8
      let q := State.testLanes a cc ty va cmp r.2 is
      let v := BitVec.ofNat 64 r.1
      (if waitHolds cc ty v (cmp i) then (i, v) :: q.1 else q.1, q.2)

/-- Lanes registered, those at one key as one waiter (R271). -/
def State.registerLanes (s : State) (e : Env) (m : Lanes) (va : Nat → Word) : State :=
  (distinct ((lanesOf m).map va)).foldl (fun s k =>
    s.register e.ctx (signVa k) (.lanes e.team e.grp (maskOf (fun i => m.getLsbD i && va i == k)))) s

/-- `WAITA` (R271). -/
def execWaita (g : Guard) (cc : Cc) (ty : Ty) (d : Option VReg) (a : Reg) (off : WOff) (b : Reg) (s : State) :
    Host.Outcome State Fault Refusal :=
  .next (s.run { g := g, top := maxOf [topD d, topR a 1, topR b 1], mem := true, acc := true } fun e s =>
    let gr := e.group s
    let va (i : Nat) : Word := gr.keyVa a off i
    let cmp (i : Nat) : Word := gr.reg b i
    checked (laneFaults e.act (fun i => s.keyFault e.agent true (va i))) (s.ownedHome e.agent .read ((lanesOf e.act).map va))
      (let r := State.testLanes e.agent cc ty va cmp s (lanesOf e.act)
       let done := r.1.foldl (fun m x => m ||| laneBit x.1) 0
       let rest := e.act &&& ~~~done
       let s := e.onGroup r.2 (fun gr => match d with
         | some v => r.1.foldl (fun gr x => gr.setV v.toNat x.1 x.2) gr
         | none => gr)
       let s := s.registerLanes e rest va
       .ok (e.onGroup s (fun gr => (lanesOf rest).foldl (fun gr i =>
         gr.standAt (laneBit i) 7 e.pc (e.hdr, e.bodyw) (some (.word cc ty (cmp i) d (va i)))) gr)) rest))

/-- The wakes of lanes in order: the numbers woken by lane (R271). -/
def State.wakeLanes (a : Agent) (va : Nat → Word) (count : Nat → Nat) : State → List Nat → SMap Nat × State
  | s, [] => ([], s)
  | s, i :: is =>
    let r := s.wakeKey a a.ctx (signVa (va i)) (count i)
    let q := State.wakeLanes a va count r.2 is
    (put i r.1 q.1, q.2)

/-- `WAKE` (R271). -/
def execWake (g : Guard) (d : Option VReg) (a : Reg) (off : WOff) (b : Reg) (s : State) :
    Host.Outcome State Fault Refusal :=
  .next (s.run { g := g, top := maxOf [topD d, topR a 1, topR b 1], mem := true } fun e s =>
    let gr := e.group s
    let va (i : Nat) : Word := gr.keyVa a off i
    let act := gr.real e.act
    match laneFaults act (fun i => s.keyFault e.agent false (va i)) with
    | some x => .trap x
    | none =>
      let r := State.wakeLanes e.agent va (fun i => (gr.reg b i).toNat) s (lanesOf act)
      .go (e.onGroup r.2 (fun gr => match d with
        | some v => gr.setVs v.toNat e.act (fun i => BitVec.ofNat 64 (get 0 i r.1))
        | none => gr)))

end Sys2Proof.Machine
end

