-- ==== Sys2Proof/Machine/Shelf.lean ====
section
/-!
DEFINITION. Shelves (R41, R70-R72, R276, R277): pointers, claims, commits and releases in the shelf's order, and the
waits for presence and for owned lines (R66, R100, R278).
-/
namespace Sys2Proof.Machine

/-! ### Pointers and the four operations (R71) -/

/-- A shelf of a team. -/
def Team.shelf (t : Team) (k : Nat) : Shelf := get Shelf.off k t.h
/-- A shelf written. -/
def Team.setShelf (t : Team) (k : Nat) (h : Shelf) : Team := { t with h := put k h t.h }
/-- A shelf of a team in the state changed. -/
def State.onShelf (s : State) (team k : Nat) (f : Shelf → Shelf) : State :=
  s.onTeam team (fun t => t.setShelf k (f (t.shelf k)))

/-- One step of a pointer: `Adv` (R71). -/
def Shelf.adv (h : Shelf) (p : Nat × Bool) : Nat × Bool := if p.1 + 1 = h.nslot then (0, !p.2) else (p.1 + 1, p.2)
/-- Several steps of a pointer. -/
def Shelf.advN (h : Shelf) (p : Nat × Bool) : Nat → Nat × Bool
  | 0 => p
  | n + 1 => h.advN (h.adv p) n
/-- `Dist` (R71). -/
def Shelf.dist (h : Shelf) (a b : Nat × Bool) : Nat := a.1 + (if a.2 != b.2 then h.nslot else 0) - b.1
/-- `Free` (R71). -/
def Shelf.room (h : Shelf) : Nat := h.nslot - h.dist h.acq h.rel
/-- `Committed` (R71). -/
def Shelf.full (h : Shelf) : Nat := h.dist h.com h.tak

/-- Acquire or take of a count of slots: the index of the first and the shelf after it (R71). -/
def Shelf.claim (h : Shelf) (take : Bool) (c : Nat) : Nat × Shelf :=
  if take then (h.tak.1, { h with tak := h.advN h.tak c }) else (h.acq.1, { h with acq := h.advN h.acq c })

/-- Commit of one slot at a timestamp (R71, R103). -/
def Shelf.commit1 (h : Shelf) (time : Nat) : Shelf :=
  let j := h.com.1
  let bit : BitVec 64 := BitVec.ofNat 64 (2 ^ j)
  { h with phase := if h.com.2 then h.phase &&& ~~~bit else h.phase ||| bit
           com := h.adv h.com
           times := set 0 j (Nat.max time (get 0 j h.times)) h.times }

/-- Commit of a count of slots. -/
def Shelf.commit (h : Shelf) (time : Nat) : Nat → Shelf
  | 0 => h
  | n + 1 => (h.commit1 time).commit time n

/-- Commit of slots, each at a timestamp of its own (R103). -/
def Shelf.commitAt (h : Shelf) : List Nat → Shelf
  | [] => h
  | t :: ts => (h.commit1 t).commitAt ts

/-- Release of a count of slots (R71). -/
def Shelf.release (h : Shelf) (c : Nat) : Shelf := { h with rel := h.advN h.rel c }

/-- The largest timestamp of a count of slots from an index on (R103). -/
def Shelf.timeOf (h : Shelf) (j c : Nat) : Nat :=
  (List.range c).foldl (fun t i => Nat.max t (get 0 ((j + i) % Nat.max 1 h.nslot) h.times)) 0

/-- A place after every operation that waits on the shelf (R41). -/
def Shelf.place (h : Shelf) : Nat :=
  (h.dues.foldl (fun n d => Nat.max n d.place) (h.wants.foldl (fun n w => Nat.max n w.ticket) 0)) + 1

/-- The byte offset in the share of a slot (R70). -/
def Shelf.slotAt (h : Shelf) (j : Nat) : Nat := (h.base + j * h.slotl) * 256

/-! ### Claims (R41, R277) -/

/-- The waiting acquire or take that fires next: the first of its kind, behind no commit or release recorded before
it, once its condition holds (R41, R71, R277). -/
def Shelf.ready (h : Shelf) : Option ShelfWant :=
  let first (take : Bool) : Option ShelfWant := h.wants.find? (fun w => w.take == take)
  let ok (w : ShelfWant) : Bool :=
    h.cfg && decide (w.count ≤ if w.take then h.full else h.room) && h.dues.all (fun d => decide (w.ticket < d.place))
  match first false with
  | some w => if ok w then some w else (match first true with
    | some v => if ok v then some v else none
    | none => none)
  | none => match first true with
    | some v => if ok v then some v else none
    | none => none

/-- The lines of a slot. -/
def Shelf.slotLines (h : Shelf) (j : Nat) : List Nat := (List.range h.slotl).map (· + (h.base + j * h.slotl))

/-- A line of a share becomes absent for one copy more (R65). -/
def Team.clearLine (t : Team) (l : Nat) : Team := { t with absent := put l (get 0 l t.absent + 1) t.absent }

/-- A line of a share is restored by one of the copies that cleared it (R65). -/
def Team.restoreLine (t : Team) (l : Nat) : Team :=
  match find l t.absent with
  | none => t
  | some n => { t with absent := if n ≤ 1 then del l t.absent else put l (n - 1) t.absent }

/-- A copy that claims its slot: it clears the lines of an acquired one (R65, R265). -/
def CopyOp.claimed (c : CopyOp) (h : Shelf) (j stamp : Nat) (take : Bool) : CopyOp :=
  { c with slot := some j, share := h.slotAt j, stamp := stamp, clears := if take then [] else h.slotLines j }

/-- An acquire or take fires for whoever waits (R41, R277, R103, R265). -/
def State.fireShelf (s : State) (team k : Nat) (w : ShelfWant) : State :=
  let h := (s.team team).shelf k
  let q := h.claim w.take w.count
  let time := if w.take then h.timeOf q.1 w.count else 0
  let s := s.onShelf team k (fun _ => { q.2 with wants := h.wants.filter (fun x => x.ticket != w.ticket) })
  match w.who with
  | .group g =>
    s.onGroup team g (fun gr =>
      let gr := gr.setS w.d.toNat (BitVec.ofNat 64 (h.slotAt q.1 + q.1 * 2 ^ 32))
      { gr.release w.lanes with gts := Nat.max gr.gts time })
  | .seq =>
    s.onTeam team (fun t =>
      { t with seq := { t.seq with st := .running }
               groups := adjust t.seq.grp (fun g => { g with gts := Nat.max g.gts time }) t.groups })
  | .op id =>
    match find id s.ops with
    | none => s
    | some o =>
      match o.body with
      | .copy c =>
        let s := s.onGroup team o.grp (fun g => { g with gts := Nat.max g.gts time })
        let s := if w.take then s
          else s.onTeam team (fun t => (h.slotLines q.1).foldl (fun t l => t.clearLine l) t)
        s.onOp id (fun o => { o with pts := Nat.max o.pts time, body := .copy (c.claimed h q.1 s.fresh w.take) })
      | .tex _ | .rast _ | .ray _ | .pair _ | .drain | .near _ | .crest _ => s

/-- `SHELF_FIRE`: the next waiting operation of a shelf whose condition holds fires (R41). -/
def execShelfFire (team shelf : Nat) (s : State) : Host.Outcome State Fault Refusal :=
  .next (match ((s.team team).shelf shelf).ready with
    | some w => s.fireShelf team shelf w
    | none => s)

/-- An acquire or take that takes its place: it fires at once if it can, else waits (R41). -/
def State.want (s : State) (team k : Nat) (w : ShelfWant) : State × Bool :=
  let s := s.onShelf team k (fun h => { h with wants := h.wants ++ [w] })
  if ((s.team team).shelf k).ready = some w then (s.fireShelf team k w, true) else (s, false)

/-! ### Commits and releases (R72) -/

/-- The copies of a group outside shelf mode, in one direction or in both, that are in progress, by the step of their issue. -/
def State.plainCopies (s : State) (team grp : Nat) (dir : Option Bool) : List Nat :=
  s.ops.filterMap (fun e => match e.2.body with
    | .copy c =>
      if e.2.team = team ∧ e.2.grp = grp ∧ c.shelf.isNone = true ∧ dir.all (fun out => (c.form % 2 == 1) == out) = true
      then some c.stamp else none
    | .tex _ | .rast _ | .ray _ | .pair _ | .drain | .near _ | .crest _ => none)

/-- The first recorded commit or release can take effect: the copies that it waits for are no longer in progress. -/
def State.dueReady (s : State) (team : Nat) (h : Shelf) : Option ShelfDue :=
  match h.dues with
  | [] => none
  | d :: _ => if d.ops.all (fun o => !(s.plainCopies team d.grp none).contains o) then some d else none

/-- The first recorded commit or release of a shelf takes effect (R71, R72, R103). -/
def State.dueEffect (s : State) (team k : Nat) (d : ShelfDue) : State :=
  let time := Nat.max d.time (match d.pend with
    | none => (s.group team d.grp).gts
    | some _ => 0)
  let s := s.onShelf team k (fun h =>
    let h := { h with dues := h.dues.drop 1 }
    if d.release then h.release d.count
    else match d.slots with
      | some ts => h.commitAt ts
      | none => h.commit time d.count)
  match d.pend with
  | none => s
  | some p => s.onGroup team d.grp (fun g => { g with pend := adjust p (fun x => { x with ready := true }) g.pend })

/-- `SHELF_COMMIT_EFFECT`: the first recorded commit or release of a shelf takes effect (R72). -/
def execShelfCommitEffect (team shelf : Nat) (s : State) : Host.Outcome State Fault Refusal :=
  .next (match s.dueReady team ((s.team team).shelf shelf) with
    | some d => s.dueEffect team shelf d
    | none => s)

/-- A commit or release recorded; it takes effect in the same step if nothing is before it and it waits for nothing
(R72). -/
def State.due (s : State) (team k : Nat) (d : ShelfDue) : State :=
  let s := s.onShelf team k (fun h => { h with dues := h.dues ++ [{ d with place := h.place }] })
  let h := (s.team team).shelf k
  if h.dues.length = 1 then
    match s.dueReady team h with
    | some d => s.dueEffect team k d
    | none => s
  else s

/-! ### The instructions (R276, R277) -/

/-- A fault that names a shelf. -/
def Env.shelfFault (e : Env) (kind : Kind) (k : Nat) : Res := e.fault kind k

/-- Slots of two shelves overlap. -/
def slotsOverlap (base lines : Nat) (h : Shelf) : Bool :=
  h.cfg && decide (base < h.base + h.slotl * h.nslot) && decide (h.base < base + lines)

/-- `SHCFG` refuses a configuration (R70, R277). -/
def Team.badShelf (t : Team) (k : Nat) (x : Word) : Bool :=
  let base := bits x 0 13
  let slotl := bits x 16 8
  let n := bits x 24 6 + 1
  bits x 13 3 != 0 || bits x 30 34 != 0 || slotl == 0 || decide (t.size < (base + slotl * n) * 256)
    || (List.range 16).any (fun j => j != k && slotsOverlap base (slotl * n) (t.shelf j))
    || ((t.shelf k).cfg && (t.shelf k).acq != (t.shelf k).rel)

/-- Some operation waits on the shelf (R277). -/
def Shelf.waitedOn (h : Shelf) : Bool := !h.wants.isEmpty || !h.dues.isEmpty

/-- `SHCFG` (R70, R276, R277). -/
def execShcfg (g : Guard) (k : BitVec 4) (a : SReg) (s : State) : Host.Outcome State Fault Refusal :=
  .next (s.run { g := g, once := true } fun e s =>
    let x := (e.group s).sreg a.toNat
    let t := s.team e.team
    if t.badShelf k.toNat x || (t.shelf k.toNat).waitedOn then e.shelfFault .shelfConfig k.toNat
    else .go (e.once s (fun s => s.onShelf e.team k.toNat (fun h =>
      { Shelf.off with base := bits x 0 13, slotl := bits x 16 8, nslot := bits x 24 6 + 1, cfg := true,
                       times := h.times }))))

/-- `SHCFG.OFF` (R276, R277). -/
def execShcfgOff (g : Guard) (k : BitVec 4) (s : State) : Host.Outcome State Fault Refusal :=
  .next (s.run { g := g, once := true } fun e s =>
    if ((s.team e.team).shelf k.toNat).waitedOn then e.shelfFault .shelfConfig k.toNat
    else .go (e.once s (fun s => s.onShelf e.team k.toNat (fun h => { h with cfg := false }))))

/-- The shared form of `SHACQ` and `SHWAIT` (R277). -/
def State.claimShelf (s : State) (g : Guard) (take : Bool) (d : SReg) (k : BitVec 4) (c : BitVec 7) : State :=
  s.run { g := g, mem := true, once := true } fun e s =>
    let h := (s.team e.team).shelf k.toNat
    if !h.cfg || decide (h.nslot < c.toNat) then e.shelfFault .shelfState k.toNat
    else if e.act = 0 then .go s
    else
      let w : ShelfWant :=
        { ticket := h.place, take := take, count := c.toNat, who := .group e.grp, d := d, lanes := 0 }
      match s.want e.team k.toNat w with
      | (s', true) => .go s'
      | (_, false) =>
        let s := s.onShelf e.team k.toNat (fun h => { h with wants := h.wants ++ [{ w with lanes := e.act }] })
        .ok (e.block s e.act 6 (.shelf k.toNat w.ticket)) e.act

/-- `SHACQ` (R276, R277). -/
def execShacq (g : Guard) (d : SReg) (k : BitVec 4) (c : BitVec 7) (s : State) :
    Host.Outcome State Fault Refusal := .next (s.claimShelf g false d k c)

/-- `SHWAIT` (R276, R277). -/
def execShwait (g : Guard) (d : SReg) (k : BitVec 4) (c : BitVec 7) (s : State) :
    Host.Outcome State Fault Refusal := .next (s.claimShelf g true d k c)

/-- The shared form of `SHCOM` and `SHREL` (R72, R277). -/
def State.finishShelf (s : State) (g : Guard) (release : Bool) (k : BitVec 4) (c : BitVec 7) : State :=
  s.run { g := g, mem := true, once := true } fun e s =>
    let h := (s.team e.team).shelf k.toNat
    let recorded := h.dues.foldl (fun n d => if d.release == release then n + d.count else n) 0
    let have_ := if release then h.dist h.tak h.rel else h.dist h.acq h.com
    if !h.cfg || decide (have_ < recorded + c.toNat) then e.shelfFault .shelfState k.toNat
    else .go (e.once s (fun s => s.due e.team k.toNat
      { place := 0, release := release, count := c.toNat, time := (e.group s).gts, slots := none,
        grp := e.grp, pend := none, ops := s.plainCopies e.team e.grp (some release) }))

/-- `SHCOM` (R276, R277). -/
def execShcom (g : Guard) (k : BitVec 4) (c : BitVec 7) (s : State) : Host.Outcome State Fault Refusal :=
  .next (s.finishShelf g false k c)

/-- `SHREL` (R276, R277). -/
def execShrel (g : Guard) (k : BitVec 4) (c : BitVec 7) (s : State) : Host.Outcome State Fault Refusal :=
  .next (s.finishShelf g true k c)

/-! ### Presence (R66, R278) -/

/-- The range of a lane's `PRWAIT` in the team's own share: its first byte and length, if it lies there (R278). -/
def State.ownRange (s : State) (team : Nat) (a n : Word) : Option (Nat × Nat) :=
  let t := bits a 24 4
  if (t = 0 ∨ t = 8 + (s.team team).rank) ∧ bits a 21 3 = 0 ∧ bits a 28 36 = 0
      ∧ bits a 0 21 + n.toNat ≤ (s.team team).size then some (bits a 0 21, n.toNat) else none

/-- `PRWAIT` (R278). -/
def execPrwait (g : Guard) (a b : Reg) (off : Option W32) (s : State) : Host.Outcome State Fault Refusal :=
  .next (s.run { g := g, top := maxOf [topR a 1, topR b 1], mem := true } fun e s =>
    let gr := e.group s
    let va (i : Nat) : Word := gr.reg a i + (match off with
      | some o => o.signExtend 64
      | none => 0)
    let range (i : Nat) : Option (Nat × Nat) := s.ownRange e.team (va i) (gr.reg b i)
    match laneFaults e.act (fun i => if (range i).isNone then some (.scratchRange, 0) else none) with
    | some x => .trap x
    | none =>
      let lines (i : Nat) : List Nat := match range i with
        | none => []
        | some r => shareLines r.1 r.2
      let m := maskOf (fun i => e.act.getLsbD i && (lines i).any (fun l => !(s.team e.team).present l))
      .ok ((lanesOf m).foldl (fun s i => e.block s (laneBit i) 8 (.lines e.team (lines i) false)) s) m)

/-- The lanes of a group whose wait for lines is over: those that continue after their instruction, and those that
execute it again (R66, R100, R278). -/
def State.linesDone (s : State) (g : Group) : Lanes × Lanes :=
  let fin (again : Bool) : Lanes := g.waiting (fun _ w => match w with
    | .lines t ls r => r == again && ls.all (fun l => (s.team t).present l)
    | .owned ls => again && ls.all (fun l => !s.owned l)
    | .barrier _ _ | .shelf _ _ | .word _ _ _ _ _ | .quiet _ _ | .order | .sleep _ => false)
  (fin false, fin true)

/-- Parked lanes become candidates at their instruction again (R66). -/
def Group.retry (g : Group) (m : Lanes) : Group :=
  (lanesOf m).foldl (fun g i => { g.setState i 1 with wait := del i g.wait }) g

/-- `PRESENCE_RESUME`: the lines that lanes of a group wait for are present, or written by their owner (R66, R100). -/
def execPresenceResume (team grp : Nat) (s : State) : Host.Outcome State Fault Refusal :=
  let d := s.linesDone (s.group team grp)
  .next (s.onGroup team grp (fun g => (g.release d.1).retry d.2))

end Sys2Proof.Machine
end

