-- ==== Sys2Proof/Machine/Engine.lean ====
section
/-!
DEFINITION. Engine operations: ownership of destination lines and the timestamp E (R98-R101), parking and replay
records (R192, R193, R196-R198), and the completion of what began an operation.
-/
namespace Sys2Proof.Machine

/-- An operation that an instruction begins. -/
def Env.newOp (e : Env) (s : State) (pend : Option Nat) (b : Body) : Op :=
  let g := e.group s
  { no := freeKey s.ops, team := e.team, grp := e.grp, core := e.core, ctx := e.ctx, level := g.level, token := e.pc, pend := pend,
    begun := false, pts := g.gts, e := none, need := [], own := [], etimes := [], pages := [], park := none, held := false,
    clause := (e.hdr, e.bodyw), path := e.path, await := false, spent := false, ord := g.ordinal,
    body := b }

/-- An operation put into the table, with its number. -/
def State.addOp (s : State) (o : Op) : State × Nat :=
  let id := freeKey s.ops
  ({ s with ops := put id { o with no := id } s.ops }, id)

/-- The engines of a context run: it is on the cores and its partition is not halted (R331, R334, R337). -/
def State.unitsRun (s : State) (c : Nat) : Bool :=
  let x := s.ctx c
  x.st == .running && (match find x.part s.parts with
    | none => true
    | some p => !p.halted && (x.ctrl || !p.swapping))

/-! ### Ownership (R98-R101) -/

/-- The time that a store of an operation to a line takes at the least (R92, R97, R99). -/
def State.ownTime (s : State) (a : Agent) (ls : List Nat) : Nat :=
  ls.foldl (fun t l => Nat.max t (s.storeTime a 1 l)) 0

/-- The leading lines of a request that no other operation owns. -/
def State.grantable (s : State) (id : Nat) : List Nat → List Nat
  | [] => []
  | l :: ls => if s.ownedBut (some id) l then [] else l :: s.grantable id ls

/-- The time at which an operation writes an owned line: its E, or the E of the request that was granted the line (R99). -/
def Op.timeOf (o : Op) (l : Nat) : Nat := get (o.e.getD o.pts) l o.etimes

/-- An operation requests lines. Lines that an earlier request was granted keep the E of that request (R99). -/
def Op.ask (o : Op) (ls : List Nat) : Op :=
  match o.e with
  | none => { o with need := ls }
  | some t => { o with need := ls, e := none
                       etimes := o.own.foldl (fun m l => if (find l m).isSome then m else put l t m) o.etimes }

/-- The lines that an operation requests are granted in ascending order as far as they are free. With the last, E is fixed
from the group's timestamp as it then stands and the lines of the request, and becomes the group's timestamp (R99). -/
def State.grant (s : State) (id : Nat) : State :=
  match find id s.ops with
  | none => s
  | some o =>
    if o.park.isSome || o.e.isSome || (o.body.unit != 0 && !s.unitsRun o.ctx) then s
    else
      let got := s.grantable id o.need
      let need := o.need.drop got.length
      let own := o.own ++ got
      if need.isEmpty then
        let mine := own.filter (fun l => (find l o.etimes).isNone)
        let t := Nat.max (Nat.max o.pts (s.pts o.agent)) (s.ownTime o.agent mine)
        (s.onOp id (fun o => { o with need := [], own := own, e := some t })).raisePts o.agent t
      else s.onOp id (fun o => { o with need := need, own := own })

/-- A list of line numbers in ascending order, each once. -/
def ascending (ls : List Nat) : List Nat := (arrange (fun a b => decide (a ≤ b)) ls).eraseDups

/-- The place of an operation in the order of R99: E, or its timestamp so far, then the issuing core, then issue. -/
def Op.before (o : Op) (i : Nat) (p : Op) (j : Nat) : Bool :=
  let a := o.e.getD o.pts
  let b := p.e.getD p.pts
  decide (a < b) || (a == b && (decide (o.core < p.core) || (o.core == p.core && decide (i < j))))

/-- A read of a line by an operation waits for an owner that precedes it (R101). -/
def State.readWaits (s : State) (id l : Nat) : Bool :=
  match find id s.ops with
  | none => s.owned l
  | some o => s.ops.any (fun e => e.1 != id && e.2.own.contains l && e.2.before e.1 o id)

/-- The outstanding instruction of an operation has done its work (R209). -/
def Group.readied (g : Group) (p : Option Nat) : Group :=
  match p with
  | none => g
  | some k => { g with pend := adjust k (fun x => { x with ready := true }) g.pend }

/-- Writes added to the outstanding instruction of an operation. -/
def Group.results (g : Group) (p : Option Nat) (f : Pend → Pend) : Group :=
  match p with
  | none => g
  | some k => { g with pend := adjust k f g.pend }

/-- An operation that has done its work: its record is cleared, its lines are free, its instruction may complete. One whose
instruction is still to be issued again is kept for it (R195). -/
def State.endOp (s : State) (id : Nat) : State :=
  match find id s.ops with
  | none => s
  | some o =>
    let s := (s.clearRecord o).onGroup o.team o.grp (fun g => g.readied o.pend)
    if o.await then s.onOp id (fun o => { o with spent := true, held := false }) else { s with ops := del id s.ops }

/-- What an operation's access meets: a place, a fault, or a page-cache miss (R193). -/
inductive Reach where
  | ok (p : Spot)
  | fault (f : Kind × Nat)
  | fill (sector : Nat)
  deriving DecidableEq, Repr

/-- The access of a unit at an address. -/
def State.reach (s : State) (a : Agent) (use : Use) (va : Word) : Reach :=
  match s.seekNow a use va with
  | .error f => .fault f
  | .ok p => match s.pcMiss p with
    | some k => .fill k
    | none => .ok p

/-- The first access of a list that does not reach its place, as a park. -/
def State.obstacle (s : State) (a : Agent) (use : Use) (vas : List Word) : Option Park :=
  vas.findSome? (fun va => match s.reach a use va with
    | .ok _ => none
    | .fault f => some (Park.fault s f va)
    | .fill k => some (Park.fill s k va))

/-- Source reads of an operation wait, their own lines' or those of their walks, for an owner that precedes it (R101,
R345). -/
def State.readsWait (s : State) (id : Nat) (a : Agent) (vas : List Word) : Bool :=
  vas.any (fun va => match s.seekNow a .read va with
    | .error _ => false
    | .ok p => (ordered p.cls && s.readWaits id (lineNo p.addr)) || (match p.walk with
        | some w => w.1.any (fun l => s.readWaits id l)
        | none => false))

/-- A source read of an operation (R101): its value, its time, whether it is poisoned, and the state. -/
def State.sourceRead (s : State) (a : Agent) (va : Word) (n : Nat) : Nat × Nat × Bool × State :=
  match s.seekNow a .read va with
  | .error _ => (0, 0, false, s)
  | .ok p =>
    let l := lineNo p.addr
    let w := match s.copyFor a p.cls l with
      | some c => c.wts
      | none => (s.line l).wts
    let t := if ordered p.cls then Nat.max (s.pts a) w else 0
    let bad := s.poisoned (s.keyOf a.ctx) l
    let r := (s.walked a va p).load a true p.cls p.addr n
    (r.1, t, bad, r.2)

end Sys2Proof.Machine
end

