-- ==== Sys2Proof/Machine/Layout.lean ====
section
/-!
DEFINITION. Tensor layout records: the binding table and handles (R83, R85, R344), the checks of a record (R79),
elements and their bounds (R80-R82), and the instructions on them (R261, R275).
-/
namespace Sys2Proof.Machine

/-! ### The binding table (R83, R344) -/

/-- The address of an entry of a context's binding table. -/
def State.bindEntry (s : State) (c i : Nat) : Nat := backing 0 ((s.ctx c).bindt.toNat + 128 * i)

/-- The generation of an entry. -/
def State.bindGen (s : State) (c i : Nat) : Nat := s.deviceRead (s.bindEntry c i + 0x60) 4

/-- The entry is bound. -/
def State.bindUsed (s : State) (c i : Nat) : Bool := s.deviceRead (s.bindEntry c i + 0x64) 1 % 2 == 1

/-- The record of an entry. -/
def State.bindRecord (s : State) (c i : Nat) : BitVec 768 := BitVec.ofNat 768 (s.deviceRead (s.bindEntry c i) 96)

/-- The entry can be bound: it is free, and its generation has not run out (R83; an entry that has run out keeps the
last generation and an empty record). -/
def State.bindFree (s : State) (c i : Nat) : Bool :=
  !s.bindUsed c i && !(s.bindGen c i == 0xFFFFFFFF && s.deviceRead (s.bindEntry c i) 8 == 0)

/-- A handle (R83). -/
def handleOf (index gen : Nat) : Word := BitVec.ofNat 64 (index + gen * 2 ^ 16)

/-- The record that a valid handle names in a context (R83). -/
def State.resolve (s : State) (c : Nat) (h : Word) : Option (BitVec 768) :=
  let i := bits h 0 12
  if bits h 12 4 = 0 ∧ bits h 48 16 = 0 ∧ s.bindUsed c i = true ∧ s.bindGen c i = bits h 16 32 then some (s.bindRecord c i)
  else none

/-- A number written by the device in 8-byte words. -/
def State.deviceWords (s : State) (addr n v : Nat) : State :=
  (List.range n).foldl (fun s k => s.deviceStore (addr + 8 * k) 8 (v / 2 ^ (64 * k) % 2 ^ 64)) s

/-- An entry bound to a record. -/
def State.bind (s : State) (c i : Nat) (r : BitVec 768) : State :=
  let a := s.bindEntry c i
  (s.deviceWords a 12 r.toNat).deviceStore (a + 0x60) 8 (s.bindGen c i + 2 ^ 32)

/-- An entry freed, with the next generation (R83). -/
def State.unbind (s : State) (c i : Nat) : State :=
  let a := s.bindEntry c i
  let g := s.bindGen c i
  if g = 0xFFFFFFFF then (s.deviceWords a 12 0).deviceStore (a + 0x60) 8 g
  else s.deviceStore (a + 0x60) 8 (g + 1)

/-! ### The checks of a record (R79) -/

/-- `W`d of a record. -/
def recW (r : BitVec 768) (d : Nat) : Nat := rec r (640 + 8 * d) 8
/-- `FILL` of a record. -/
def recFill (r : BitVec 768) : Nat := rec r 576 64
/-- `BIC` of a record. -/
def recBic (r : BitVec 768) : Nat := rec r 16 3
/-- `FBND` of a record. -/
def recFbnd (r : BitVec 768) : Bool := r.getLsbD 28

/-- The number is a multiple of the element's bytes, where it has whole bytes. -/
def elemAligned (es x : Nat) : Bool := decide (es < 8) || x % (es / 8) == 0

/-- The rows of R79 in order: whether each fails, its field and its reason. -/
def recRows (r : BitVec 768) : List (Bool × Nat × Nat) :=
  let rank := recRank r
  let ef := recEfmt r
  let es := recEs r
  let parcel := recParcel r
  let narrow := decide (8 ≤ ef) && decide (ef ≤ 10)
  let hiBad (x : Word) : Bool := !canonicalVa x
  let plat := recPlat r
  [(rec r 0 4 != 1, 1, 2), (rank == 0 || decide (6 ≤ rank), 2, 2), (decide (12 ≤ ef), 3, 2),
   (rec r 12 4 != 0 && !narrow, 4, 3), (decide (4 ≤ recBic r), 5, 2),
   (parcel && (rank != 1 || (decide (8 ≤ ef) && decide (ef ≤ 11)) || recBic r != 0), 6, 3),
   (recPnreg r != 0 && !parcel, 7, 3), (hiBad (recBase r), 13, 2),
   (!elemAligned es (recBase r).toNat || (parcel && (recBase r).toNat % 8 != 0), 13, 4)] ++
  (List.range 5).map (fun d => (if d < rank then recExt r d == 0 else recExt r d != 0, 14 + d, 2)) ++
  (List.range 4).flatMap (fun j =>
    let x := recStride r (j + 1)
    let inside := decide (j + 1 < rank)
    [(inside && decide (2 ^ 47 ≤ x.natAbs), 19 + j, 2), (inside && !elemAligned es x.natAbs, 19 + j, 4),
     (!inside && x != 0, 19 + j, 3)]) ++
  [(decide (2 ^ es ≤ recFill r), 23, 3)] ++
  (List.range 5).flatMap (fun d =>
    [(decide (rank ≤ d) && recW r d != 0, 24 + d, 3),
     (d == 0 && ((es == 6 && (recW r 0 + 1) % 4 != 0) || (es == 4 && (recW r 0 + 1) % 2 != 0)), 24, 3)]) ++
  [(decide (65536 < (recW r 0 + 1) * (recW r 1 + 1) * (recW r 2 + 1) * (recW r 3 + 1) * (recW r 4 + 1)), 28, 2),
   (parcel && plat == 0, 29, 3), (parcel && hiBad plat, 29, 2), (parcel && bits plat 0 8 != 0, 29, 4),
   (!parcel && plat != 0, 29, 3), (rec r 7 1 != 0, 30, 1), (rec r 19 1 != 0, 31, 1), (rec r 29 35 != 0, 32, 1),
   (rec r 288 32 != 0, 33, 1), (rec r 680 24 != 0, 34, 1)]

/-- The first failure of a record: the fault's detail (R79). -/
def recDefect (r : BitVec 768) : Option Nat :=
  ((recRows r).find? (fun x => x.1)).map (fun x => x.2.1 + 256 * x.2.2)

/-! ### Elements (R80, R82) -/

/-- The first dimension in which coordinates are out of bounds. -/
def outOfBounds (r : BitVec 768) (c : List Int) : Option Nat :=
  (List.range (recRank r)).find? (fun d => decide (c.getD d 0 < 0) || decide ((recExt r d : Int) ≤ c.getD d 0))

/-- The byte address of an in-bounds element, and its first bit in that byte (R80, R82). -/
def elementAt (r : BitVec 768) (c : List Int) : Word × Nat :=
  if recParcel r then (parcelVa r (c.getD 0 0).toNat + BitVec.ofNat 64 (8 * (1 + recPnreg r)), 0)
  else
    let b := recEs r * (c.getD 0 0).toNat
    let outer := (List.range (recRank r - 1)).foldl (fun t j => t + c.getD (j + 1) 0 * recStride r (j + 1)) 0
    (recBase r + BitVec.ofNat 64 (b / 8) + BitVec.ofInt 64 outer, b % 8)

/-- The bytes that an element touches from its byte address on. -/
def elementBytes (r : BitVec 768) (bit : Nat) : Nat := (bit + recEs r + 7) / 8

/-- The pieces of an element: whole at its address, or byte by byte when it is narrower than a byte. -/
def elementPieces (r : BitVec 768) (c : List Int) : List (Word × Nat) :=
  let p := elementAt r c
  if 8 ≤ recEs r then [(p.1, recEs r / 8)]
  else (List.range (elementBytes r p.2)).map (fun k => (p.1 + BitVec.ofNat 64 k, 1))

/-- What an access to an element faults on: bounds, translation, poison (R80, R184). -/
def State.elementFault (s : State) (a : Agent) (use : Use) (r : BitVec 768) (c : List Int) : Option (Kind × Nat) :=
  match outOfBounds r c with
  | some d => if recFbnd r then some (.bounds, d) else none
  | none => worstKind ((elementPieces r c).filterMap (fun p => s.probe a use (use == .read) p.1))

/-- The owned lines that an element's access meets. -/
def State.elementOwned (s : State) (a : Agent) (use : Use) (r : BitVec 768) (c : List Int) : List Nat :=
  match outOfBounds r c with
  | some _ => []
  | none => s.ownedAmong a use ((elementPieces r c).map (·.1))

/-- The raw bits of an element, or `FILL` out of bounds (R80, R84). -/
def State.elementLoad (s : State) (a : Agent) (r : BitVec 768) (c : List Int) : Nat × State :=
  match outOfBounds r c with
  | some _ => (recFill r % 2 ^ recEs r, s)
  | none =>
    let q := (elementPieces r c).foldl (fun (p : Nat × Nat × State) x =>
      let l := p.2.2.gload a x.1 x.2
      (p.1 + l.1 * 2 ^ (8 * p.2.1), p.2.1 + x.2, l.2)) (0, 0, s)
    (field q.1 (elementAt r c).2 (recEs r), q.2.2)

/-- One piece of an element that an instruction stores: its lane, the bytes of the element's pieces before it, its address,
length and place. -/
structure Piece where
  lane : Nat
  before : Nat
  va : Word
  n : Nat
  spot : Spot
  deriving DecidableEq, Repr

/-- The pieces of the in-bounds elements of the lanes of a mask, with the places that they translate to. -/
def State.pieces (s : State) (a : Agent) (r : BitVec 768) (m : Lanes) (at_ : Nat → List Int) : List Piece :=
  (lanesOf m).flatMap (fun i => match outOfBounds r (at_ i) with
    | some _ => []
    | none => (elementPieces r (at_ i)).zipIdx.filterMap (fun x => match s.seek a .write x.1.1 with
      | .error _ => none
      | .ok p => some { lane := i, before := x.2 * x.1.2, va := x.1.1, n := x.1.2, spot := p }))

/-- The bits of an element stored in one of its pieces, those of its neighbours kept (R80, R261). -/
def State.pieceStore (s : State) (a : Agent) (r : BitVec 768) (bit v : Nat) (x : Piece) : State :=
  let old := (s.readKey (s.keyOf a.ctx) x.spot.addr x.n).1
  -- the element's bits fall on bits `lo` to `hi` of this piece
  let lo := bit - 8 * x.before
  let hi := Nat.min (8 * x.n) (bit + recEs r - 8 * x.before)
  let part := v / 2 ^ (8 * x.before + lo - bit) % 2 ^ (hi - lo)
  let new := old - field old lo (hi - lo) * 2 ^ lo + part * 2 ^ lo
  (s.walked a x.va x.spot).store a x.spot.cls x.spot.addr x.n new

/-- The coordinates that three registers give a lane (R261). -/
def Group.coords (g : Group) (b : Reg) (lane : Nat) : List Int :=
  (List.range 5).map (fun d => ((g.runReg b (d / 2) lane).extractLsb' (32 * (d % 2)) 32).toInt)

/-- The handle and permission checks of an instruction: the record, or its fault (R83). -/
def State.handle (s : State) (e : Env) (h : Word) (oper : Nat) (perm : Option (Nat × Nat)) : Except Res (BitVec 768) :=
  match s.resolve e.ctx h with
  | none => .error (e.fault .invalidHandle oper)
  | some r =>
    match perm with
    | none => .ok r
    | some (bit, fld) => if r.getLsbD bit then .ok r else .error (e.fault .permission fld)

/-- `.sx` is for the signed integer formats alone; with another the form is not valid, an Illegal-Operand of a uniform
operand (entry 138). -/
def sxBad (sx : Bool) (r : BitVec 768) : Bool := sx && !(decide (4 ≤ recEfmt r) && decide (recEfmt r ≤ 7))

/-- `LDT` (R261). -/
def execLdt (g : Guard) (ll : Ll) (sx : Bool) (d : VReg) (h : SReg) (c : Reg) (s : State) :
    Host.Outcome State Fault Refusal :=
  .next (s.run { g := g, top := maxOf [topV d 1, topR c 3], ll := some ll, mem := true, reqs := true, acc := true } fun e s =>
    let gr := e.group s
    match s.handle e (gr.sreg h.toNat) 1 (some (24, 8)) with
    | .error r => r
    | .ok r =>
      let at_ (i : Nat) : List Int := (gr.coords c i).take (recRank r)
      if sxBad sx r then e.fault .illegalOperand 1
      else
        checked (laneFaults (gr.real e.act) (fun i => s.elementFault e.agent .read r (at_ i)))
          ((lanesOf e.act).flatMap (fun i => s.elementOwned e.agent .read r (at_ i)))
         (let q := (lanesOf e.act).foldl (fun (p : SMap Word × State) i =>
            if (p.2.elementFault e.agent .read r (at_ i)).isSome then (put (d.toNat * 64 + i) 0 p.1, p.2)
            else
              let x := p.2.elementLoad e.agent r (at_ i)
              let w := recEs r
              let y := if sx && decide (w < 64) && x.1 / 2 ^ (w - 1) % 2 == 1 then x.1 + 2 ^ 64 - 2 ^ w else x.1
              (put (d.toNat * 64 + i) (BitVec.ofNat 64 y) p.1, x.2)) (([] : SMap Word), s)
          .go (e.begin q.2 ll { Pend.access with vw := q.1, uses := some (gr.sreg h.toNat) })))

/-- `STT` (R261). -/
def execStt (g : Guard) (ll : Ll) (d : Reg) (h : SReg) (c : Reg) (s : State) : Host.Outcome State Fault Refusal :=
  .next (s.run { g := g, top := maxOf [topR d 1, topR c 3], ll := some ll, mem := true, reqs := true, acc := true } fun e s =>
    let gr := e.group s
    match s.handle e (gr.sreg h.toNat) 1 (some (25, 9)) with
    | .error r => r
    | .ok r =>
      let at_ (i : Nat) : List Int := (gr.coords c i).take (recRank r)
      let act := gr.real e.act
      checked (laneFaults act (fun i => s.elementFault e.agent .write r (at_ i)))
        ((lanesOf act).flatMap (fun i => s.elementOwned e.agent .write r (at_ i)))
        (.go (e.begin ((s.pieces e.agent r act at_).foldl (fun s x =>
          s.pieceStore e.agent r (elementAt r (at_ x.lane)).2 ((gr.reg d x.lane).toNat % 2 ^ recEs r) x) s) ll
          { Pend.access with uses := some (gr.sreg h.toNat) })))

/-! ### Binding (R275) -/

/-- Words read at issue as loads of the group (R91), or the first fault met. -/
def State.readWords (a : Agent) : State → Word → Nat → Except (Kind × Nat) (List Nat × State)
  | s, _, 0 => .ok ([], s)
  | s, va, n + 1 =>
    match s.probe a .read true va with
    | some f => .error f
    | none =>
      let r := s.gload a va 8
      match State.readWords a r.2 (va + 8) n with
      | .error f => .error f
      | .ok q => .ok (r.1 :: q.1, q.2)

/-- The lines of words from an address on that other operations own (R100). -/
def State.wordsOwned (s : State) (a : Agent) (va : Word) (n : Nat) : List Nat :=
  s.ownedAmong a .read ((List.range n).map (fun k => va + BitVec.ofNat 64 (8 * k)))

/-- Words that a group reads at issue: their fault, a wait for their owned lines, or what is done with them (R91, R100, R184,
R185). With no active lane nothing is read that faults or is owned (entry 139): there `f` gets no words. -/
def Env.withRead (e : Env) (s : State) (r : Except (Kind × Nat) (List Nat × State)) (owned : List Nat)
    (f : Option (List Nat) → State → Res) : Res :=
  match r, owned with
  | .error x, [] => if e.act = 0 then f none s else e.fault x.1 x.2
  | .error x, l :: ls => if e.act = 0 then f none s else if x.1 = .poison then .park (.owned (l :: ls)) else e.fault x.1 x.2
  | .ok _, l :: ls => if e.act = 0 then f none s else .park (.owned (l :: ls))
  | .ok p, [] => f (some p.1) (if e.act = 0 then s else p.2)

/-- Words that a group reads at issue as loads (R91), and what is done with them. -/
def Env.withWords (e : Env) (s : State) (va : Word) (n : Nat) (f : List Nat → State → Res) : Res :=
  e.withRead s (State.readWords e.agent s va n) (s.wordsOwned e.agent va n) (fun ws s => match ws with
    | some ws => f ws s
    | none => .go s)

/-- A run of 8-byte words as a number. -/
def joinWords (ws : List Nat) : Nat := joinBits 64 ws

/-- `LRBIND` (R275). -/
def execLrbind (g : Guard) (ll : Ll) (d a : SReg) (s : State) : Host.Outcome State Fault Refusal :=
  .next (s.run { g := g, ll := some ll, mem := true, acc := true, once := true } fun e s =>
    let gr := e.group s
    let va := gr.sreg a.toNat
    if bits va 0 5 ≠ 0 then e.fault .illegalOperand 0
    else
      e.withWords s va 12 (fun ws s =>
        let r := BitVec.ofNat 768 (joinWords ws)
        match recDefect r with
        | some x => e.fault .layoutRecord x
        | none =>
          if e.act = 0 then .go s
          else
            match (List.range 4096).find? (fun i => s.bindFree e.ctx i) with
            | none =>
              .go (e.begin s ll { Pend.zero with sw := [(d.toNat, BitVec.allOnes 64)] })
            | some i =>
              .go (e.begin (s.bind e.ctx i r) ll { Pend.zero with sw := [(d.toNat, handleOf i (s.bindGen e.ctx i))] })))

/-- `LRFREE` (R275, R85). -/
def execLrfree (g : Guard) (ll : Ll) (a : SReg) (s : State) : Host.Outcome State Fault Refusal :=
  .next (s.run { g := g, ll := some ll, mem := true, once := true } fun e s =>
    let h := (e.group s).sreg a.toNat
    match s.handle e h 1 none with
    | .error r => r
    | .ok _ => .go (e.begin (e.once s (fun s => s.unbind e.ctx (bits h 0 12))) ll { Pend.zero with frees := some h }))

/-- `LRQRY` (R275). -/
def execLrqry (g : Guard) (ll : Ll) (d a : SReg) (w : BitVec 6) (s : State) : Host.Outcome State Fault Refusal :=
  .next (s.run { g := g, ll := some ll, mem := true, once := true } fun e s =>
    match s.handle e ((e.group s).sreg a.toNat) 1 none with
    | .error r => r
    | .ok r => .go (e.begin s ll { Pend.zero with
        sw := [(d.toNat, r.extractLsb' (64 * w.toNat) 64)], uses := some ((e.group s).sreg a.toNat) }))

end Sys2Proof.Machine
end

