-- ==== Sys2Proof/Machine/Copy.lean ====
section
/-!
DEFINITION. The copy engine: `CP` and `CPW` (R263-R265), window rows (R80, R81, R74), presence (R65) and poison (R394).
-/
namespace Sys2Proof.Machine

/-- `Swz` of R74 on a share offset. -/
def swz (a y code : Nat) : Nat :=
  match code with
  | 0 => a
  | 1 => a ^^^ (y % 8 * 32)
  | 2 => a ^^^ (y % 64 * 32)
  | _ => a ^^^ (y / 8 % 8 * 32)

/-- The unit that a pitch is rounded to (R81). -/
def pitchUnit (bic : Nat) : Nat := if bic = 0 then 32 else if bic = 2 then 2048 else 256

/-- A number rounded up to a multiple. -/
def roundUp (x u : Nat) : Nat := (x + u - 1) / u * u

/-- Rows of a record's window (R81). -/
def winRows (r : BitVec 768) : Nat :=
  (List.range (recRank r - 1)).foldl (fun n d => n * recWin r (d + 1)) 1
/-- Bytes of a window row. -/
def winBytes (r : BitVec 768) : Nat := (recEs r * recWin r 0 + 7) / 8
/-- The pitch of a window in scratchpad (R81). -/
def winPitch (r : BitVec 768) : Nat := roundUp (winBytes r) (pitchUnit (recBic r))

/-- The copy moves data from scratchpad to memory. -/
def CopyOp.out (c : CopyOp) : Bool := c.form % 2 == 1
/-- The copy is a `CPW`. -/
def CopyOp.plain (c : CopyOp) : Bool := decide (4 ≤ c.form)
/-- Bytes of a row. -/
def CopyOp.bytes (c : CopyOp) : Nat := if c.plain then 256 else winBytes c.record
/-- The pitch of the rows in scratchpad. -/
def CopyOp.pitch (c : CopyOp) : Nat := if c.plain then 256 else winPitch c.record

/-- Bytes `b` to `b + n - 1` of a row that begins at a share offset, in runs within chunks of 32 bytes: offset and
length of each (R74). -/
def rowRuns (row y code b n : Nat) : List (Nat × Nat) :=
  if n = 0 then []
  else
    (List.range ((b + n - 1) / 32 - b / 32 + 1)).map (fun j =>
      let k := b / 32 + j
      let lo := Nat.max b (32 * k)
      (swz (row + 32 * k) y code + (lo - 32 * k), Nat.min (b + n) (32 * k + 32) - lo))

/-- The runs of bytes of a row in the share, of at most 32 bytes each (R74, R81). -/
def CopyOp.chunks (c : CopyOp) (y : Nat) : List (Nat × Nat) :=
  rowRuns (c.share + y * c.pitch) y (if c.plain then 0 else recBic c.record) 0 c.bytes

/-- The share lines that a row's bytes lie in. -/
def CopyOp.lines (c : CopyOp) (y : Nat) : List Nat := ((c.chunks y).map (fun x => x.1 / 256)).eraseDups

/-- The rows from one on. -/
def CopyOp.rowsFrom (c : CopyOp) (y : Nat) : List Nat := (List.range (c.rows - y)).map (· + y)

/-- The share lines that rows from one on lie in. -/
def CopyOp.linesFrom (c : CopyOp) (y : Nat) : List Nat := ascending ((c.rowsFrom y).flatMap c.lines)

/-- One datum of a row: its first bit and width in the row, its pieces in memory, and its first bit in them; no piece
and `fill` when it is out of bounds (R80). -/
structure Cell where
  pos : Nat
  width : Nat
  pieces : List (Word × Nat)
  bit : Nat
  fill : Nat
  deriving DecidableEq, Repr

/-- Coordinates of element x of window row y (R81). -/
def CopyOp.coords (c : CopyOp) (x y : Nat) : List Int :=
  let digit (d : Nat) : Nat := y / (List.range (d - 1)).foldl (fun n j => n * recWin c.record (j + 1)) 1 % recWin c.record d
  (List.range (recRank c.record)).map (fun d => c.org.getD d 0 + (if d = 0 then x else digit d : Nat))

/-- The data of a row. -/
def CopyOp.cells (c : CopyOp) (y : Nat) : List Cell :=
  if c.plain then
    (List.range 32).map (fun k =>
      { pos := 64 * k, width := 64, pieces := [(BitVec.ofNat 64 (c.mem + 256 * y + 8 * k), 8)], bit := 0, fill := 0 })
  else
    let r := c.record
    (List.range (recWin r 0)).map (fun x =>
      let at_ := c.coords x y
      match outOfBounds r at_ with
      | some _ => { pos := recEs r * x, width := recEs r, pieces := [], bit := 0, fill := recFill r % 2 ^ recEs r }
      | none => { pos := recEs r * x, width := recEs r, pieces := elementPieces r at_, bit := (elementAt r at_).2, fill := 0 })

/-- The memory addresses of a row. -/
def CopyOp.addrs (c : CopyOp) (y : Nat) : List Word := (c.cells y).flatMap (fun x => x.pieces.map (·.1))

/-- The memory lines of addresses that translate and whose pages are in the order of R88. -/
def State.memLines (s : State) (a : Agent) (use : Use) (vas : List Word) : List Nat :=
  vas.filterMap (fun va => match s.seekNow a use va with
    | .error _ => none
    | .ok p => if ordered p.cls then some (lineNo p.addr) else none)

/-- The memory lines that rows from one on write. -/
def State.copyLines (s : State) (a : Agent) (c : CopyOp) (y : Nat) : List Nat :=
  ascending ((c.rowsFrom y).flatMap (fun k => s.memLines a .write (c.addrs k)))

/-! ### Rows -/

/-- The data of a row read from memory: bits, the largest time, the poisoned data's bit ranges, and the state. -/
def State.readRow (s : State) (a : Agent) (cs : List Cell) : Nat × Nat × List (Nat × Nat) × State :=
  cs.foldl (fun (p : Nat × Nat × List (Nat × Nat) × State) x =>
    if x.pieces.isEmpty then (p.1 + x.fill * 2 ^ x.pos, p.2)
    else
      let q := x.pieces.foldl (fun (q : Nat × Nat × Nat × Bool × State) w =>
        let r := q.2.2.2.2.sourceRead a w.1 w.2
        (q.1 + r.1 * 2 ^ (8 * q.2.1), q.2.1 + w.2, Nat.max q.2.2.1 r.2.1, q.2.2.2.1 || r.2.2.1, r.2.2.2))
        (0, 0, p.2.1, false, p.2.2.2)
      (p.1 + field q.1 x.bit x.width * 2 ^ x.pos, q.2.2.1,
       if q.2.2.2.1 then (x.pos, x.width) :: p.2.2.1 else p.2.2.1, q.2.2.2.2)) (0, 0, [], s)

/-- A row of bytes written to the share at one time for each line (R103); a chunk with a poisoned source is poisoned
(R394). Answers the largest time. -/
def State.writeShare (s : State) (o : Op) (c : CopyOp) (y v r : Nat) (bad : List (Nat × Nat)) : Nat × State :=
  let a := o.agent
  let tm := s.team o.team
  let time (l : Nat) : Nat := Nat.max r ((tm.clock l).2 + 1)
  let top := (c.lines y).foldl (fun t l => Nat.max t (time l)) 0
  let s := (c.chunks y).zipIdx.foldl (fun s x =>
    let off := x.1.1
    let t := time (off / 256)
    let hit := bad.any (fun b => decide (b.1 < 256 * x.2 + 8 * x.1.2) && decide (256 * x.2 < b.1 + b.2))
    let s := s.onTeam o.team (fun tm =>
      let tm := (tm.write off x.1.2 (v / 2 ^ (256 * x.2) % 2 ^ (8 * x.1.2))).setClock (off / 256) (t, t)
      if hit then { tm with bad := (List.range 4).foldl (fun m k => put (off / 32 * 4 + k) () m) tm.bad } else tm)
    s.note a (chunkKey o.team off) false true t) s
  (top, (s.raisePts a top).checkTime top)

/-- A row of bytes read from the share, with the poisoned bit ranges (R103). -/
def State.readShare (s : State) (o : Op) (c : CopyOp) (y : Nat) : Nat × List (Nat × Nat) × State :=
  let a := o.agent
  let tm := s.team o.team
  (c.chunks y).zipIdx.foldl (fun p x =>
    let off := x.1.1
    let k := (p.2.2.team o.team).clock (off / 256)
    let t := Nat.max o.pts k.1
    let s := p.2.2.onTeam o.team (fun tm => tm.setClock (off / 256) (k.1, Nat.max k.2 t))
    let s := ((s.raisePts a t).checkTime t).note a (chunkKey o.team off) true false t
    (p.1 + readN tm.scratch off x.1.2 * 2 ^ (256 * x.2),
     if tm.badIn off x.1.2 then (256 * x.2, 256) :: p.2.1 else p.2.1, s)) (0, [], s)

/-- The bits of a datum merged into one piece of memory: the piece's first byte among the datum's, its length and its
old value. -/
def Cell.merge (x : Cell) (at_ n old v : Nat) : Nat :=
  let lo := x.bit - 8 * at_
  let hi := Nat.min (8 * n) (x.bit + x.width - 8 * at_)
  let part := v / 2 ^ (8 * at_ + lo - x.bit) % 2 ^ (hi - lo)
  old - field old lo (hi - lo) * 2 ^ lo + part * 2 ^ lo

/-- A datum written to memory, each line at the operation's time for it; the lines of a poisoned source are poisoned (R99,
R394). -/
def State.writeCell (s : State) (o : Op) (x : Cell) (v : Nat) (bad : Bool) : State :=
  let a := o.agent
  (x.pieces.foldl (fun (p : Nat × State) w =>
    match p.2.seek a .write w.1 with
    | .error _ => (p.1 + w.2, p.2)
    | .ok q =>
      let old := (p.2.readKey (p.2.keyOf a.ctx) q.addr w.2).1
      let t := o.timeOf (lineNo q.addr)
      let s := (p.2.walked a w.1 q).storeAt a q.cls q.addr w.2 (x.merge p.1 w.2 old v) t
      let s := s.note a (lineNo q.addr) false true t
      let l := lineNo q.addr
      (p.1 + w.2, if bad then s.setLine l { s.line l with poison := true } else s)) (0, s)).2

/-- A poisoned line that the data of a row overwrite whole, none of them poisoned, is poisoned no longer (R394). -/
def State.healLine (s : State) (a : Agent) (xs : List Cell) (l : Nat) : State :=
  if !(s.line l).poison then s
  else
    let ws := xs.flatMap (fun x => if x.bit = 0 ∧ x.width % 8 = 0 then x.pieces else [])
    let at_ := ws.filterMap (fun w => match s.seek a .write w.1 with
      | .error _ => none
      | .ok q => if lineNo q.addr = l then some (q.addr % 64, w.2) else none)
    if (List.range 64).all (fun b => at_.any (fun w => decide (w.1 ≤ b) && decide (b < w.1 + w.2))) then
      s.setLine l { s.line l with poison := false }
    else s

/-! ### The engine -/

/-- An earlier copy of the same group has not completed: it is in progress, or its commit or release has still to take effect
(R192, R265). -/
def State.behindCopy (s : State) (id : Nat) (o : Op) : Bool :=
  s.ops.any (fun e => decide (e.1 < id) && e.2.team == o.team && e.2.grp == o.grp && (match e.2.body with
    | .copy _ => true
    | .tex _ | .rast _ | .ray _ | .pair _ | .drain | .near _ | .crest _ => false))
  || (s.team o.team).h.any (fun h => h.2.dues.any (fun d => d.pend.isSome && d.grp == o.grp))

/-- `COPY_BEGIN`: a copy begins once every earlier copy of its group has completed; in shelf mode it then takes its
place in its shelf's order (R192, R265). -/
def execCopyBegin (op : Nat) (s : State) : Host.Outcome State Fault Refusal :=
  .next (match find op s.ops with
    | none => s
    | some o =>
      match o.body with
      | .copy c =>
        if o.begun || o.park.isSome || s.behindCopy op o || !s.unitsRun o.ctx then s
        else
          let s := s.onOp op (fun o => { o with begun := true })
          match c.shelf with
          | none => s
          | some k =>
            let h := (s.team o.team).shelf k
            if !h.cfg then s.parkOp op (Park.fault s (.shelfState, k) 0)
            else
              (s.want o.team k { ticket := h.place, take := c.out, count := 1, who := .op op, d := 0, lanes := 0 }).1
      | .tex _ | .rast _ | .ray _ | .pair _ | .drain | .near _ | .crest _ => s)

/-- Byte ranges of a list meet those of another. -/
def rangesMeet (xs ys : List (Nat × Nat)) : Bool :=
  xs.any (fun x => ys.any (fun y => decide (x.1 < y.1 + y.2) && decide (y.1 < x.1 + x.2)))

/-- Of two copies, the one that issued, or cleared its lines, first (R65). -/
def CopyOp.first (c : CopyOp) (i : Nat) (d : CopyOp) (j : Nat) : Bool := decide (c.stamp < d.stamp) || (c.stamp == d.stamp && decide (i < j))

/-- A copy out of scratchpad that issued before another cleared its lines has still to read one of some lines (R65). -/
def State.readsLater (s : State) (id : Nat) (o : Op) (c : CopyOp) (ls : List Nat) : Bool :=
  s.ops.any (fun e => e.1 != id && e.2.team == o.team && (match e.2.body with
    | .copy d => d.out && (d.shelf.isNone || d.slot.isSome) && d.first e.1 c id
        && ((d.rowsFrom d.row).flatMap d.lines).any (fun l => ls.contains l)
    | .tex _ | .rast _ | .ray _ | .pair _ | .drain | .near _ | .crest _ => false))

/-- A line is absent for a copy that reads it: one that cleared it earlier has not restored it. A copy that cleared it later
writes it later (R65, R66). -/
def State.absentFor (s : State) (id : Nat) (o : Op) (c : CopyOp) (l : Nat) : Bool :=
  s.ops.any (fun e => e.1 != id && e.2.team == o.team && (match e.2.body with
    | .copy d => d.clears.contains l && d.first e.1 c id
    | .tex _ | .rast _ | .ray _ | .pair _ | .drain | .near _ | .crest _ => false))

/-- Another copy that cleared its lines earlier has still to write a byte of a row (R65). -/
def State.writesLater (s : State) (id : Nat) (o : Op) (c : CopyOp) : Bool :=
  s.ops.any (fun e => e.1 != id && e.2.team == o.team && (match e.2.body with
    | .copy d => !d.clears.isEmpty && d.first e.1 c id
        && rangesMeet (c.chunks c.row) ((d.rowsFrom d.row).flatMap d.chunks)
    | .tex _ | .rast _ | .ray _ | .pair _ | .drain | .near _ | .crest _ => false))

/-- A copy that has moved its last row: it commits or releases its slot, and completes (R265). -/
def State.copyDone (s : State) (id : Nat) (o : Op) (c : CopyOp) : State :=
  let s := { s.clearRecord o with ops := del id s.ops }
  match c.shelf with
  | none => s.onGroup o.team o.grp (fun g => g.readied o.pend)
  | some k =>
    s.due o.team k { place := 0, release := c.out, count := 1, time := c.time, slots := none, grp := o.grp,
                     pend := some (o.pend.getD (2 ^ 64)), ops := [] }

/-- The copy after one row: the next, or its completion. -/
def State.copyNext (s : State) (id : Nat) (c : CopyOp) (own : List Nat) : State :=
  let s := s.onOp id (fun o => { o with own := own, body := .copy c })
  match find id s.ops with
  | none => s
  | some o => if c.row < c.rows then s else s.copyDone id o c

/-- One row from memory into scratchpad (R65, R103, R264). -/
def State.copyIn (s : State) (id : Nat) (o : Op) (c : CopyOp) : State :=
  let a := o.agent
  match s.obstacle a .read (c.addrs c.row) with
  | some p => s.parkOp id p
  | none =>
    if s.readsWait id a (c.addrs c.row) || s.writesLater id o c || s.readsLater id o c (c.lines c.row) then s
    else
      let r := s.readRow a (c.cells c.row)
      let w := r.2.2.2.writeShare o c c.row r.1 (Nat.max o.pts r.2.1) r.2.2.1
      let later := c.linesFrom (c.row + 1)
      let done := c.clears.filter (fun l => !later.contains l)
      let s := w.2.onTeam o.team (fun t => done.foldl (fun t l => t.restoreLine l) t)
      s.copyNext id { c with row := c.row + 1, time := Nat.max c.time w.1,
                             clears := c.clears.filter (fun l => later.contains l) } o.own

/-- One row from scratchpad to memory (R66, R99, R264). -/
def State.copyOut (s : State) (id : Nat) (o : Op) (c : CopyOp) : State :=
  let a := o.agent
  if (c.lines c.row).any (s.absentFor id o c) then s
  else
    match s.obstacle a .write (c.addrs c.row) with
    | some p => s.parkOp id p
    | none =>
      if (s.memLines a .write (c.addrs c.row)).any (fun l => !o.own.contains l) then
        -- lines that could not be requested at issue are requested now, and take a new E (R99)
        let need := (s.copyLines a c c.row).filter (fun l => !o.own.contains l)
        (s.onOp id (fun o => o.ask need)).grant id
      else
        let r := s.readShare o c c.row
        let bad (x : Cell) : Bool := r.2.1.any (fun b => decide (b.1 < x.pos + x.width) && decide (x.pos < b.1 + b.2))
        let s := (s.memLines a .write (c.addrs c.row)).eraseDups.foldl (fun s l =>
          s.healLine a ((c.cells c.row).filter (fun x => !bad x)) l) r.2.2
        let s := (c.cells c.row).foldl (fun s x => s.writeCell o x (field r.1 x.pos x.width) (bad x)) s
        let later := s.copyLines a c (c.row + 1)
        s.copyNext id { c with row := c.row + 1 } (o.own.filter (fun l => later.contains l))

/-- `COPY_ROW`: the copy engine moves one window row of a copy, or parks before it (R264, R193). -/
def execCopyRow (op : Nat) (s : State) : Host.Outcome State Fault Refusal :=
  .next (match find op s.ops with
    | none => s
    | some o =>
      match o.body with
      | .copy c =>
        if !o.begun || o.park.isSome || (c.shelf.isSome && c.slot.isNone) || (c.out && o.e.isNone) then s
        else if c.rows ≤ c.row then s.copyDone op o c
        else if c.out then s.copyOut op o c else s.copyIn op o c
      | .tex _ | .rast _ | .ray _ | .pair _ | .drain | .near _ | .crest _ => s)

/-! ### The instructions (R263, R264) -/

/-- The checks of a copy that follow those of its handle (R264). -/
def State.copyCheck (s : State) (e : Env) (gr : Group) (c : CopyOp) (d : SReg) : Option Res :=
  let t := s.team e.team
  let u := if c.plain then 256 else pitchUnit (recBic c.record)
  let off := gr.sreg d.toNat
  let foot := c.rows * c.pitch
  if (c.shelf.isNone && (bits off 32 32 != 0 || decide (off.toNat % u ≠ 0)))
      || (c.plain && (decide (c.count % 256 ≠ 0) || decide (c.count < 256) || decide (2097152 < c.count)
          || decide (c.mem % 64 ≠ 0))) then
    some (e.fault .illegalOperand 0)
  else
    let slot : Option Res := match c.shelf with
      | none => if t.size < c.share + foot then some (e.fault .scratchRange 0) else none
      | some k =>
        let h := t.shelf k
        if !h.cfg then some (e.fault .shelfState k)
        else if h.slotl * 256 < foot || (List.range h.nslot).any (fun j => decide (h.slotAt j % u ≠ 0)) then
          some (e.fault .illegalOperand 0)
        else none
    match slot with
    | some r => some r
    | none =>
      if c.plain then none
      else
        let r := c.record
        let x := c.org.getD 0 0
        if (recEs r = 6 ∧ x % 4 ≠ 0) ∨ (recEs r = 4 ∧ x % 2 ≠ 0) then some (e.fault .illegalOperand 0)
        else if recFbnd r then
          ((List.range (recRank r)).find? (fun d =>
            decide (c.org.getD d 0 < 0) || decide ((recExt r d : Int) < c.org.getD d 0 + recWin r d))).map
            (fun d => e.fault .bounds d)
        else none

/-- A copy issues: presence is cleared or lines are requested, and it queues on the core's copy engine (R264). -/
def State.copyIssue (s : State) (e : Env) (ll : Ll) (c : CopyOp) : State :=
  let lines := if c.out || c.shelf.isSome then [] else c.linesFrom 0
  let c := { c with clears := lines, stamp := s.fresh }
  let s := s.onTeam e.team (fun t => lines.foldl (fun t l => t.clearLine l) t)
  let b := (e.group s).begin ll e.act { Pend.zero with ready := false }
  let s := e.onGroup s (fun _ => b.1)
  let o := e.newOp s (some b.2) (.copy c)
  let o := if c.out then { o with need := s.copyLines o.agent c 0 } else o
  let r := s.addOp o
  if c.out then r.1.grant r.2 else r.1

/-- The shared form of `CP` and `CPW`. -/
def State.copy (s : State) (g : Guard) (ll : Ll) (d : SReg) (mk : Env → State → Except Res CopyOp) : State :=
  s.run { g := g, ll := some ll, mem := true, acc := true, once := true } fun e s =>
    match mk e s with
    | .error r => r
    | .ok c =>
      match s.copyCheck e (e.group s) c d with
      | some r => r
      | none => .go (e.once s (fun s => s.copyIssue e ll c))

/-- `CP` (R263). -/
def execCp (g : Guard) (ll : Ll) (out : Bool) (sh : Option (BitVec 4)) (d h c : SReg) (s : State) :
    Host.Outcome State Fault Refusal :=
  .next (s.copy g ll d fun e s =>
    let gr := e.group s
    let hd := gr.sreg h.toNat
    match s.handle e hd 1 (some (26, 10)) with
    | .error r => .error r
    | .ok r =>
      .ok { form := (if out then 1 else 0) + (if sh.isSome then 2 else 0), handle := hd, record := r,
            org := gr.coords (.s c) 0, share := if sh.isSome then 0 else bits (gr.sreg d.toNat) 0 32, mem := 0,
            count := 0, row := 0, rows := winRows r, shelf := sh.map (·.toNat), slot := none, clears := [], stamp := 0,
            time := 0 })

/-- `CPW` (R263). -/
def execCpw (g : Guard) (ll : Ll) (out : Bool) (sh : Option (BitVec 4)) (d a n : SReg) (s : State) :
    Host.Outcome State Fault Refusal :=
  .next (s.copy g ll d fun e s =>
    let gr := e.group s
    let count := (gr.sreg n.toNat).toNat
    .ok { form := if out then 5 else 4, handle := 0, record := 0, org := [],
          share := if sh.isSome then 0 else bits (gr.sreg d.toNat) 0 32, mem := (gr.sreg a.toNat).toNat,
          count := count, row := 0, rows := count / 256, shelf := sh.map (·.toNat), slot := none, clears := [],
          stamp := 0, time := 0 })

end Sys2Proof.Machine
end

