-- ==== Sys2Proof/Machine/Matrix.lean ====
section
/-!
DEFINITION. The matrix sequencer and its stream (R280-R288, R129-R131, R134), and tile maps (R73-R76, R289).
-/
namespace Sys2Proof.Machine

/-! ### Tile maps (R73-R76) -/

/-- A tile map, field by field (R73). -/
structure TMap where
  base : Nat
  rows : Nat
  elems : Nat
  pitch : Nat
  efmt : Nat
  fsel : Nat
  swz : Nat
  sbase : Nat
  spitch : Nat
  scen : Bool
  deriving DecidableEq, Repr

/-- The fields of a map's image; offsets and pitches in bytes. -/
def tmapOf (x : BitVec 256) : TMap :=
  let f (lo n : Nat) : Nat := (x.extractLsb' lo n).toNat
  { base := f 0 16 * 32, rows := f 16 8 + 1, elems := f 24 12 + 1, pitch := f 36 16 * 32, efmt := f 52 4, fsel := f 56 4,
    swz := f 60 3, sbase := f 64 16 * 32, spitch := f 80 16 * 32, scen := x.getLsbD 96 }

/-- Bytes of a row. -/
def TMap.rowBytes (m : TMap) : Nat := m.elems * efmtBits m.efmt / 8

/-- The end of a map's footprint from its share's or slot's start (R76). -/
def TMap.foot (m : TMap) : Nat := m.base + (m.rows - 1) * m.pitch + (if m.swz = 0 then m.rowBytes else m.pitch)
/-- The end of its scale strip. -/
def TMap.strip (m : TMap) : Nat := m.sbase + (m.rows - 1) * m.spitch + m.elems / 16

/-- The unit that a swizzle aligns to (R76). -/
def swzUnit (code : Nat) : Nat := if code = 2 then 2048 else if code = 0 then 1 else 256

/-- The lowest set bit of a number at or above a bit. -/
def lowestBit (x : BitVec 256) (lo : Nat) : Option Nat := (List.range 256).find? (fun i => decide (lo ≤ i) && x.getLsbD i)

/-- The first condition of R76 that an image fails: the detail of the fault. -/
def tmapDefect (size : Nat) (x : BitVec 256) : Option Nat :=
  let m := tmapOf x
  let narrow := decide (8 ≤ m.efmt) && decide (m.efmt ≤ 10)
  let c1 := if 12 ≤ m.efmt then some 52 else if 4 ≤ m.swz then some 60 else lowestBit x 97
  let u := swzUnit m.swz
  let rows : List (Bool × Nat) :=
    [(decide (m.elems * efmtBits m.efmt % 8 ≠ 0), 24),
     (m.fsel != 0 && !narrow, 56),
     (decide (1 < m.rows) && decide (m.pitch < m.rowBytes), 36),
     (decide (m.base % u ≠ 0), 0), (decide (m.pitch % u ≠ 0), 36),
     (decide (size < m.foot), 0),
     (m.scen && !narrow, 96), (m.scen && decide (m.elems % 16 ≠ 0), 24),
     (m.scen && decide (1 < m.rows) && decide (m.spitch < m.elems / 16), 80),
     (m.scen && decide (size < m.strip), 64),
     (!m.scen && m.sbase != 0, 64), (!m.scen && m.spitch != 0, 80)]
  match c1 with
  | some d => some d
  | none => (rows.find? (fun r => r.1)).map (·.2)

/-- `TBIND` (R289, R76). -/
def execTbind (g : Guard) (k : BitVec 4) (a : SReg) (s : State) : Host.Outcome State Fault Refusal :=
  .next (s.run { g := g, once := true } fun e s =>
    let gr := e.group s
    let t := s.team e.team
    let w (i : Nat) : Word := gr.sreg (a.toNat + i)
    let x : BitVec 256 := BitVec.ofNat 256 (joinWords [(w 0).toNat, (w 1).toNat, (w 2).toNat, (w 3).toNat])
    if t.seq.maps.contains k.toNat then e.fault .illegalOperand k.toNat
    else
      match tmapDefect t.size x with
      | some d => e.fault .tileMap d
      | none => .go (e.once s (fun s => s.onTeam e.team (fun t =>
          { t with t := put k.toNat (x ||| BitVec.ofNat 256 (2 ^ 63)) t.t }))))

/-- `TQRY` (R289). -/
def execTqry (g : Guard) (d : SReg) (k : BitVec 4) (w : BitVec 2) (s : State) : Host.Outcome State Fault Refusal :=
  .next (s.run { g := g, once := true } fun e s =>
    .go (e.once s (fun s => e.onGroup s (fun gr =>
      gr.setS d.toNat ((get 0 k.toNat (s.team e.team).t).extractLsb' (64 * w.toNat) 64)))))

/-! ### The sequencer -/

/-- A matrix-stream instruction: executed by the sequencer whose turn it is. A group that reached one would take
Illegal-Instruction (R210, R212). -/
def State.seqRun (s : State) (f : Nat → State → State) : State :=
  match s.turn with
  | .seq t => if (s.team t).seq.st = .running then f t s else s
  | .core _ => s.run { g := Guard.always } fun e _ => e.fault .illegal 0
  | .inner => s

/-- A fault in the stream (R282, R288). -/
def State.seqFault (s : State) (t : Nat) (f : Kind × Nat) : State := s.seqPark t (Park.fault s f 0)

/-- The maps that the instruction in progress names, or the one parked at its begin (R289). -/
def State.seqMaps (s : State) (t : Nat) (ms : List MapOp) : State :=
  s.onSeq t (fun q => { q with maps := ms.map (fun m => m.map.toNat) })

/-- The sequencer's record is no longer valid. -/
def State.seqUnrecord (s : State) (t : Nat) : State :=
  let q := (s.team t).seq
  if q.held then
    let a := s.seqAgent t
    let slot := s.slotVa t q.grp 7
    match State.loadWords { a with level := .control } s slot 1 with
    | .error _ => s
    | .ok (w :: _, s) =>
      (s.storeFields a slot [(8, if w / 65536 % 2 = 1 then w - 65536 else w)]).onSeq t (fun q => { q with held := false })
    | .ok ([], s) => s
  else s

/-- The stream ends: the sequencer is idle and the `MSTART` completes (R280). -/
def State.seqEnd (s : State) (t : Nat) : State :=
  let q := (s.team t).seq
  let s := s.seqUnrecord t
  let s := match q.op with
    | none => s
    | some o => { s with ops := del o s.ops }
  (s.onTeam t (fun x => { x with
      seq := Seq.idle
      h := x.h.map (fun e => (e.1, { e.2 with wants := e.2.wants.filter (fun w => w.who != .seq) })) })).onGroup t q.grp
    (fun g => g.readied q.pend)

/-- The sequencer continues at a clause header. -/
def Seq.goTo (q : Seq) (a : Word) : Seq := { q with hdr := a, at_ := a, body := [], pos := 0 }

/-- The bytes of the sequencer's instruction in progress. -/
def Seq.length (q : Seq) : Nat := instrLength q.body q.pos

/-- The header of the sequencer's next clause (R199). -/
def Seq.next (q : Seq) : Word := successor q.hdr (q.body.length / 4)

/-- The instruction in progress is done: the stream ends if it was to stop, else goes on (R281, R282). -/
def State.seqDone (s : State) (t : Nat) (f : Seq → Seq) : State :=
  let s := s.seqUnrecord t
  let s := match (s.team t).seq.op with
    | none => s
    | some o => { s with ops := del o s.ops }
  let s := s.onSeq t (fun q =>
    f { q with begun := false, read := false, cursor := 0, amax := 0, fmtA := 0, fmtB := 0, maps := [], bound := 128, op := none })
  if (s.team t).seq.stop then s.seqEnd t else s

/-- The sequencer goes on with the next instruction of its clause, or at the successor header. -/
def Seq.step (q : Seq) : Seq :=
  if q.pos + q.length < q.body.length then
    { q with pos := q.pos + q.length, at_ := q.hdr + BitVec.ofNat 64 (8 + q.pos + q.length) }
  else q.goTo q.next

/-- The next instruction of the stream. -/
def State.seqNext (s : State) (t : Nat) : State := s.seqDone t Seq.step

/-- `MSTART` (R280). -/
def execMstart (g : Guard) (ll : Ll) (x : MSrc) (s : State) : Host.Outcome State Fault Refusal :=
  .next (s.run { g := g, ll := some ll, mem := true, acc := true, once := true } fun e s =>
    let gr := e.group s
    let a := match x with
      | .addr r => gr.sreg r.toNat
      | .rel off => e.hdr + (off.signExtend 64 <<< 3)
    if !targetOk a then e.fault .illegalOperand 0
    else if (s.team e.team).seq.st != .idle then e.fault .illegalOperand 1
    else
      .go (e.once s (fun s =>
        let b := gr.begin ll e.act { Pend.zero with ready := false }
        (e.onGroup s (fun _ => b.1)).onSeq e.team (fun _ =>
          { Seq.idle with st := .running, at_ := a, start := a, hdr := a, grp := e.grp, pend := some b.2,
                          level := gr.level, ord := gr.ordinal, token := e.pc }))))

/-- `MSTOP` (R281). -/
def execMstop (g : Guard) (s : State) : Host.Outcome State Fault Refusal :=
  .next (s.run { g := g, once := true } fun e s =>
    .go (e.once s (fun s =>
      match (s.team e.team).seq.st with
      | .idle => s
      | .running => if (s.team e.team).seq.begun then s.onSeq e.team (fun q => { q with stop := true }) else s.seqEnd e.team
      | .atBarrier | .atShelf | .parked => s.seqEnd e.team)))

/-! ### Operands of the stream (R283) -/

/-- A map that an operand names, or Tile-Map for an unbound one. -/
def Team.mapOp (t : Team) (m : MapOp) : Except (Kind × Nat) TMap :=
  let x := get 0 m.map.toNat t.t
  if x.getLsbD 63 then .ok (tmapOf x) else .error (.tileMap, 63)

/-- The slot of a slot-relative operand, as a share offset; 0 for another (R283). -/
def Team.mapSlot (t : Team) (m : MapOp) (x : TMap) (dest : Bool) (fld : Nat) : Except (Kind × Nat) Nat :=
  match m.shelf with
  | none => .ok 0
  | some k =>
    let h := t.shelf k.toNat
    let p := if dest then h.acq else h.tak
    let open_ := if dest then h.dist h.acq h.com else h.dist h.tak h.rel
    if !h.cfg || open_ == 0 then .error (.shelfState, k.toNat)
    else
      let j := (p.1 + h.nslot - 1) % h.nslot
      if h.slotl * 256 < x.foot ∨ (x.scen = true ∧ h.slotl * 256 < x.strip) ∨ (h.slotAt j + x.base) % swzUnit x.swz ≠ 0 then
        .error (.illegalOperand, fld)
      else .ok (h.slotAt j)

/-- The runs of bytes `b` to `b + n - 1` of row y of a map at a slot. -/
def TMap.runs (m : TMap) (slot y b n : Nat) : List (Nat × Nat) := rowRuns (slot + m.base + y * m.pitch) y m.swz b n

/-- The share offset of a scale byte (R75). -/
def TMap.scaleAt (m : TMap) (slot y b : Nat) : Nat := slot + m.sbase + y * m.spitch + b

/-- What the sequencer meets on ranges of its share: an absent line, or poison (R66, R394). -/
inductive Ready where
  | yes
  | wait
  | poison
  deriving DecidableEq, Repr

/-- Whether the sequencer can read ranges of its share. -/
def Team.readable (t : Team) (rs : List (Nat × Nat)) : Ready :=
  if rs.any (fun r => (shareLines r.1 r.2).any (fun l => !t.present l)) then .wait
  else if rs.any (fun r => t.badIn r.1 r.2) then .poison else .yes

/-- The same with poison of the accumulator words that are read beside them (R394). -/
def Ready.spoilt (r : Ready) (bad : Bool) : Ready :=
  match r with
  | .wait => .wait
  | .poison => .poison
  | .yes => if bad then .poison else .yes

/-- A number read from runs of the share (R103). -/
def State.readRuns (s : State) (a : Agent) (rs : List (Nat × Nat)) : Nat × State :=
  let q := rs.foldl (fun (p : Nat × Nat × State) r =>
    let x := p.2.2.sload a a.team r.1 r.2
    (p.1 + x.1 * 2 ^ (8 * p.2.1), p.2.1 + r.2, x.2)) (0, 0, s)
  (q.1, q.2.2)

/-- A number written to runs of the share by the sequencer, which keeps the times of its writes (R103). -/
def State.writeRuns (s : State) (a : Agent) (rs : List (Nat × Nat)) (v : Nat) : State :=
  (rs.foldl (fun (p : Nat × State) r =>
    let s := p.2.sstore a a.team r.1 r.2 (v / 2 ^ (8 * p.1) % 2 ^ (8 * r.2))
    (p.1 + r.2, s.onTeam a.team (fun t => { t with wrote := put (r.1 / 256) (t.clock (r.1 / 256)).1 t.wrote }))) (0, s)).2

/-- A word of an accumulator tile (R67). -/
def Team.word (t : Team) (tile m n : Nat) : W32 :=
  match find (tile * 16384 + 128 * m + n) t.acc with
  | some x => x
  | none => (Config.word (t.accId * 2 ^ 24 + 2 ^ 20 + tile * 16384 + 128 * m + n)).setWidth 32

/-- Poison on a word of some rows of a tile (R393). -/
def Team.badRows (t : Team) (tile m rows : Nat) : Bool :=
  let lo := tile * 16384 + 128 * m
  t.accBad.any (fun e => decide (lo ≤ e.1) && decide (e.1 < lo + 128 * rows))

/-- Rows of a tile written, from one row on; poison of their words is cleared (R394). -/
def Team.setRows (t : Team) (tile m : Nat) (rows : Nat) (f : Nat → Nat → W32) : Team :=
  let lo := tile * 16384 + 128 * m
  let hi := lo + 128 * rows
  { t with
    acc := t.acc.filter (fun e => decide (e.1 < lo))
      ++ (List.range (128 * rows)).map (fun k => (lo + k, f (m + k / 128) (k % 128)))
      ++ t.acc.filter (fun e => decide (hi ≤ e.1))
    accBad := t.accBad.filter (fun e => !(decide (lo ≤ e.1) && decide (e.1 < hi))) }

/-! ### `MMA` (R284) -/

/-- K of an `MMA` (R284). -/
def mmaK : MmaKind → Nat
  | .bf16 | .f16 => 32
  | .int8 _ _ _ => 64
  | .narrow .n4 => 128
  | .narrow .n8 | .narrow .n6 => 64

/-- The element format that both maps have. -/
def mmaEfmt : MmaKind → Nat
  | .bf16 => 0
  | .f16 => 1
  | .int8 _ _ _ => 4
  | .narrow .n8 => 8
  | .narrow .n6 => 9
  | .narrow .n4 => 10

/-- A narrow width that this device has in its present service (R58, R284, R369). -/
def State.narrowOk (s : State) (k : MmaKind) : Bool :=
  match k with
  | .narrow .n4 | .narrow .n6 => s.dev.service == .normal
  | .bf16 | .f16 | .int8 _ _ _ | .narrow .n8 => true

/-- The first failure among conditions. -/
def firstOf (cs : List (Bool × Kind × Nat)) : Option (Kind × Nat) := (cs.find? (fun c => c.1)).map (·.2)

/-- The first failure in the order of R184: Illegal-Operand before Shelf-State, and of each kind in the order given. -/
def firstFailure (fs : List (Option (Kind × Nat))) : Option (Kind × Nat) :=
  let xs := fs.filterMap id
  match xs.find? (fun f => f.1 == .illegalOperand) with
  | some f => some f
  | none => xs.head?

/-- The failure of a check. -/
def failure {α : Type} (r : Except (Kind × Nat) α) : Option (Kind × Nat) :=
  match r with
  | .error f => some f
  | .ok _ => none

/-- The value of a check that has passed. -/
def passed (r : Except (Kind × Nat) Nat) : Nat :=
  match r with
  | .error _ => 0
  | .ok n => n

/-- An `MMA` begins: its checks, slots and format registers (R283, R284, R125). -/
def State.mmaBegin (s : State) (tm : Team) (k : MmaKind) (d : BitVec 5) (a b : MapOp) : Except (Kind × Nat) Seq :=
  if !s.narrowOk k then .error (.illegal, 0)
  else if tm.ntiles ≤ d.toNat then .error (.registerRange, 0)
  else do
    let ma ← tm.mapOp a
    let mb ← tm.mapOp b
    let sa := tm.mapSlot a ma false 1
    let sb := tm.mapSlot b mb false 2
    let q := tm.seq
    let fa := if q.read then q.fmtA else get 0 ma.fsel tm.f
    let fb := if q.read then q.fmtB else get 0 mb.fsel tm.f
    let shape (m : TMap) : Bool := m.rows != 128 || m.elems != mmaK k || m.efmt != mmaEfmt k
    let w := efmtBits (mmaEfmt k)
    let narrow := decide (8 ≤ mmaEfmt k)
    match firstFailure [firstOf [(shape ma, .illegalOperand, 1), (shape mb, .illegalOperand, 2),
                          (narrow && !fmtValid fa w, .illegalOperand, ma.fsel),
                          (narrow && !fmtValid fb w, .illegalOperand, mb.fsel)], failure sa, failure sb] with
    | some f => .error f
    | none => .ok { q with begun := true, read := true, fmtA := if narrow then fa else 0,
                           fmtB := if narrow then fb else 0, slotA := passed sa, slotB := passed sb,
                           maps := [a.map.toNat, b.map.toNat], bound := mmaK k / 16 }

/-- The value of an element of an `MMA` operand. -/
def mmaVal (k : MmaKind) (f : BitVec 16) (x : Nat) : Val :=
  match k with
  | .bf16 => Fmt.bf16.val x
  | .f16 => Fmt.f16.val x
  | .int8 _ _ _ => Val.one
  | .narrow w => narrowDecode x f (nBits w)

/-- A byte as an integer of the given signedness. -/
def byteInt (uns : Bool) (x : Nat) : Int := if uns then x else (BitVec.ofNat 8 x).toInt

/-- One element of a tile after a block: the accumulator, sixteen elements of each operand, and the scales
(R129, R131). -/
def mmaElem (k : MmaKind) (fa fb : BitVec 16) (acc : W32) (x y : List Nat) (sa sb : Option Nat) : W32 :=
  match k with
  | .int8 uns sat bx =>
    BitVec.ofInt 32 (intBlock sat acc.toInt ((x.zip y).map (fun p => (byteInt uns p.1, byteInt (uns != bx) p.2))))
  | .bf16 | .f16 | .narrow _ =>
    let sc (z : Option Nat) : Val := match z with
      | some v => scaleVal v
      | none => Val.one
    BitVec.ofNat 32 (dotBlock acc.toNat ((x.zip y).map (fun p => (mmaVal k fa p.1, mmaVal k fb p.2)))
      (mulVal (sc sa) (sc sb)).1).1

/-- The ranges of one operand that a block reads: sixteen elements and the scale byte of every row. -/
def TMap.blockRuns (m : TMap) (slot kb y : Nat) : List (Nat × Nat) :=
  m.runs slot y (2 * efmtBits m.efmt * kb) (2 * efmtBits m.efmt)

/-- The scale bytes' ranges of a block. -/
def TMap.blockScales (m : TMap) (slot kb : Nat) : List (Nat × Nat) :=
  if m.scen then (List.range 128).map (fun y => (m.scaleAt slot y kb, 1)) else []

/-- The elements and scale bytes of a block, row by row. -/
def State.readBlock (s : State) (a : Agent) (m : TMap) (slot kb : Nat) : List (List Nat) × List (Option Nat) × State :=
  let es := efmtBits m.efmt
  let r := (List.range 128).foldl (fun (p : List (List Nat) × State) y =>
    let x := p.2.readRuns a (m.blockRuns slot kb y)
    (p.1 ++ [(List.range 16).map (fun j => field x.1 (es * j) es)], x.2)) ([], s)
  if m.scen then
    let q := (List.range 128).foldl (fun (p : List (Option Nat) × State) y =>
      let x := p.2.readRuns a [(m.scaleAt slot y kb, 1)]
      (p.1 ++ [some x.1], x.2)) ([], r.2)
    (r.1, q.1, q.2)
  else (r.1, [], r.2)

/-- One block of an `MMA` in progress (R129, R193). -/
def State.mmaBlock (s : State) (t : Nat) (k : MmaKind) (d : BitVec 5) (a b : MapOp) : State :=
  let tm := s.team t
  let q := tm.seq
  let ma := tmapOf (get 0 a.map.toNat tm.t)
  let mb := tmapOf (get 0 b.map.toNat tm.t)
  let need (m : TMap) (slot : Nat) : List (Nat × Nat) :=
    (List.range 128).flatMap (m.blockRuns slot q.cursor) ++ m.blockScales slot q.cursor
  match (tm.readable (need ma q.slotA ++ need mb q.slotB)).spoilt (tm.badRows d.toNat 0 128) with
  | .wait => s
  | .poison => s.seqFault t (.poison, 0)
  | .yes =>
    let ag := s.seqAgent t
    let x := s.readBlock ag ma q.slotA q.cursor
    let y := x.2.2.readBlock ag mb q.slotB q.cursor
    let f (m n : Nat) : W32 := mmaElem k q.fmtA q.fmtB (tm.word d.toNat m n) (x.1.getD m []) (y.1.getD n [])
      (x.2.1.getD m none) (y.2.1.getD n none)
    let s := y.2.2.onTeam t (fun tm => tm.setRows d.toNat 0 128 f)
    if q.cursor + 1 < mmaK k / 16 then s.onSeq t (fun q => { q with cursor := q.cursor + 1 }) else s.seqNext t

/-- `MMA` (R284), one block of sixteen terms at a time. -/
def execMma (k : MmaKind) (d : BitVec 5) (a b : MapOp) (s : State) : Host.Outcome State Fault Refusal :=
  .next (s.seqRun fun t s =>
    if (s.team t).seq.begun then s.mmaBlock t k d a b
    else
      match s.mmaBegin (s.team t) k d a b with
      | .error f => (s.seqMaps t [a, b]).seqFault t f
      | .ok q => (s.onSeq t (fun _ => q)).mmaBlock t k d a b)

/-! ### `MZERO`, `MLOAD`, `MDRAIN` (R285) -/

/-- `MZERO` (R285). -/
def execMzero (d : BitVec 5) (s : State) : Host.Outcome State Fault Refusal :=
  .next (s.seqRun fun t s =>
    if (s.team t).ntiles ≤ d.toNat then s.seqFault t (.registerRange, 0)
    else (s.onTeam t (fun tm => tm.setRows d.toNat 0 128 (fun _ _ => 0))).seqNext t)

/-- An `MLOAD` begins. -/
def Team.mloadBegin (tm : Team) (d : BitVec 5) (m : MapOp) : Except (Kind × Nat) Seq :=
  if tm.ntiles ≤ d.toNat then .error (.registerRange, 0)
  else do
    let x ← tm.mapOp m
    if x.rows != 128 || x.elems != 128 || (x.efmt != 2 && x.efmt != 6) then .error (.illegalOperand, 1)
    else do
      let sl ← tm.mapSlot m x false 1
      .ok { tm.seq with begun := true, read := true, slotA := sl, maps := [m.map.toNat] }

/-- One row of an `MLOAD`. -/
def State.mloadRow (s : State) (t : Nat) (d : BitVec 5) (m : MapOp) : State :=
  let tm := s.team t
  let q := tm.seq
  let x := tmapOf (get 0 m.map.toNat tm.t)
  let rs := x.runs q.slotA q.cursor 0 512
  match tm.readable rs with
  | .wait => s
  | .poison => s.seqFault t (.poison, 0)
  | .yes =>
    let r := s.readRuns (s.seqAgent t) rs
    let s := r.2.onTeam t (fun tm => tm.setRows d.toNat q.cursor 1 (fun _ n => BitVec.ofNat 32 (r.1 / 2 ^ (32 * n))))
    if q.cursor < 127 then s.onSeq t (fun q => { q with cursor := q.cursor + 1 }) else s.seqNext t

/-- `MLOAD` (R285), one row at a time. -/
def execMload (d : BitVec 5) (m : MapOp) (s : State) : Host.Outcome State Fault Refusal :=
  .next (s.seqRun fun t s =>
    if (s.team t).seq.begun then s.mloadRow t d m
    else
      match (s.team t).mloadBegin d m with
      | .error f => (s.seqMaps t [m]).seqFault t f
      | .ok q => (s.onSeq t (fun _ => q)).mloadRow t d m)

/-- A drain: whether to memory, its saturation and amax, descriptor offset, and map. -/
structure Drain where
  mem : Bool
  sat : Bool
  amax : Bool
  desc : Option Nat
  tile : Nat
  map : Option MapOp
  deriving DecidableEq, Repr

/-- `EFMT` of a drain's output. -/
def Drain.efmt (d : Drain) (tm : Team) : Nat :=
  match d.map with
  | some m => (tmapOf (get 0 m.map.toNat tm.t)).efmt
  | none => (tm.seq.desc.extractLsb' 96 4).toNat

/-- A field of a descriptor. -/
def descField (x : BitVec 256) (lo n : Nat) : Nat := (x.extractLsb' lo n).toNat

/-- A drain descriptor breaks its limits (R285). -/
def descBad (amax : Bool) (x : BitVec 256) : Bool :=
  let ef := descField x 96 4
  descField x 0 64 % 64 != 0 || descField x 64 32 % 64 != 0 || !([0, 1, 2, 4, 6].contains ef)
    || decide (descField x 64 32 < 16 * efmtBits ef) || descField x 100 28 != 0 || descField x 192 64 != 0
    || descField x 128 64 % 4 != 0 || (!amax && descField x 128 64 != 0)

/-- The element formats to which a drain converts. -/
def drainFormat (mem : Bool) (ef : Nat) : Bool :=
  [0, 1, 2, 4, 6].contains ef || (!mem && decide (8 ≤ ef) && decide (ef ≤ 10))

/-- The checks of a drain's map (R283, R285): its slot. -/
def Team.drainMap (tm : Team) (d : Drain) : Except (Kind × Nat) Nat :=
  match d.map with
  | none => .ok 0
  | some m =>
    match tm.mapOp m with
    | .error f => .error f
    | .ok x => if x.rows != 128 || x.elems != 128 then .error (.illegalOperand, 2) else tm.mapSlot m x true 2

/-- The sequencer at the beginning of a drain, once its descriptor has been read (R285, R125). -/
def Team.drainBegin (tm : Team) (d : Drain) (slot : Nat) : Except (Kind × Nat) Seq :=
  let q := tm.seq
  let ef := d.efmt tm
  let fs := match d.map with
    | some m => (tmapOf (get 0 m.map.toNat tm.t)).fsel
    | none => 0
  let fa := if q.read then q.fmtA else get 0 fs tm.f
  match firstOf [(d.desc.isSome && descBad d.amax q.desc, .illegalOperand, 4),
                 (!drainFormat d.mem ef || (d.sat && ef != 4), .illegalOperand, 3),
                 (decide (8 ≤ ef) && !fmtValid fa (efmtBits ef), .illegalOperand, fs)] with
  | some f => .error f
  | none => .ok { q with begun := true, read := true, fmtA := if 8 ≤ ef then fa else 0, slotA := slot,
                         maps := match d.map with
                           | some m => [m.map.toNat]
                           | none => [] }

/-- The memory addresses of a row of a drained image. -/
def drainAddrs (desc : BitVec 256) (row : Nat) : List Word :=
  let es := efmtBits (descField desc 96 4)
  let va := desc.extractLsb' 0 64 + BitVec.ofNat 64 (row * descField desc 64 32)
  (List.range (2 * es)).map (fun k => va + BitVec.ofNat 64 (8 * k))

/-- The amax word. -/
def drainAmax (desc : BitVec 256) : Word := desc.extractLsb' 128 64

/-- The memory lines that a drain has still to write from a row on (R98). -/
def State.drainLines (s : State) (a : Agent) (d : Drain) (desc : BitVec 256) (row : Nat) : List Nat :=
  let rows := if d.mem then (List.range (128 - row)).flatMap (fun k => drainAddrs desc (row + k)) else []
  ascending (s.memLines a .write (rows ++ (if d.amax then [drainAmax desc] else [])))

/-- The lines of a drain are requested, those that it does not own yet (R99). -/
def State.drainOwn (s : State) (t : Nat) (d : Drain) : State :=
  let q := (s.team t).seq
  let a := s.seqAgent t
  if !(d.mem || d.amax) then s
  else
    let lines := s.drainLines a d q.desc q.cursor
    match q.op with
    | some o => (s.onOp o (fun x => x.ask (lines.filter (fun l => !x.own.contains l)))).grant o
    | none =>
      let r := s.addOp { no := 0, team := t, grp := q.grp, core := a.core, ctx := a.ctx, level := q.level, token := q.at_,
                         pend := none, begun := true, pts := s.pts a, e := none, need := lines, own := [],
                         etimes := [], pages := [], park := none, held := false, clause := (0, 0), path := 0, await := false, spent := false, ord := q.ord,
                         body := .drain }
      (r.1.onSeq t (fun q => { q with op := some r.2 })).grant r.2

/-- An element as a drain converts it (R285, R124, R127). -/
def drainElem (ef : Nat) (sat : Bool) (f : BitVec 16) (scale : Option Nat) (x : W32) : Nat :=
  match ef with
  | 0 => (fpConv .f32 .bf16 x.toNat).1
  | 1 => (fpConv .f32 .f16 x.toNat).1
  | 2 | 6 => x.toNat
  | 4 =>
    if sat then wrap 8 (if x.toInt < -128 then -128 else if 127 < x.toInt then 127 else x.toInt)
    else x.toNat % 256
  | _ =>
    let v := Fmt.f32.val x.toNat
    (narrowEncode (match scale with
      | some b => unscale v b
      | none => v) f (efmtBits ef)).1

/-- The magnitude of an element that a drain's amax counts (R134). -/
def amaxOf (ef : Nat) (x : W32) : Nat :=
  if ef = 4 ∨ ef = 6 then x.toInt.natAbs
  else
    let m := x.toNat % 2 ^ 31
    if 0x7F800000 < m then 0x7FC00000 else m

/-- A word of memory changed by a drain at its time for the line (R99, R134). -/
def State.drainStore (s : State) (a : Agent) (va : Word) (n v : Nat) (f : Nat → Nat → Nat) : State :=
  match s.seek a .write va with
  | .error _ => s
  | .ok p =>
    let old := (s.readKey (s.keyOf a.ctx) p.addr n).1
    let t := match a.op.bind (fun o => find o s.ops) with
      | some o => o.timeOf (lineNo p.addr)
      | none => s.pts a
    ((s.walked a va p).storeAt a p.cls p.addr n (f old v) t).note a (lineNo p.addr) false true t

/-- The row of a drain in progress written, with the amax of its elements. -/
def State.drainRow (s : State) (t : Nat) (d : Drain) (scales : List (Option Nat)) : State :=
  let tm := s.team t
  let q := tm.seq
  let a := s.seqAgent t
  let ef := d.efmt tm
  let es := efmtBits ef
  let words := (List.range 128).map (fun n => tm.word d.tile q.cursor n)
  let v := joinBits es (words.zipIdx.map (fun w => drainElem ef d.sat q.fmtA (scales.getD (w.2 / 16) none) w.1))
  let s := match d.map with
    | some m => s.writeRuns a ((tmapOf (get 0 m.map.toNat tm.t)).runs q.slotA q.cursor 0 (16 * es)) v
    | none =>
      let s := (drainAddrs q.desc q.cursor).zipIdx.foldl (fun (s : State) (w : Word × Nat) =>
        s.drainStore a w.1 8 (v / 2 ^ (64 * w.2) % 2 ^ 64) (fun _ x => x)) s
      let later := s.drainLines a d q.desc (q.cursor + 1)
      match q.op with
      | some o => s.onOp o (fun x => { x with own := x.own.filter (fun l => later.contains l) })
      | none => s
  s.onSeq t (fun q => { q with cursor := q.cursor + 1, amax := words.foldl (fun m w => Nat.max m (amaxOf ef w)) q.amax })

/-- The amax of a drain merged into its word (R134). -/
def State.drainMerge (s : State) (t : Nat) (d : Drain) : State :=
  let q := (s.team t).seq
  if d.amax then
    s.drainStore (s.seqAgent t) (drainAmax q.desc) 4 q.amax Nat.max
  else s

/-- One row of a drain in progress, once its lines are owned and its reads can be made (R285). -/
def State.drainStep (s : State) (t : Nat) (d : Drain) : State :=
  let tm := s.team t
  let q := tm.seq
  let a := s.seqAgent t
  let fixed := match q.op with
    | none => true
    | some o => match find o s.ops with
      | none => true
      | some x => x.e.isSome
  let x := d.map.map (fun m => tmapOf (get 0 m.map.toNat tm.t))
  let strip : List (Nat × Nat) := match x with
    | some x => if x.scen then (List.range 8).map (fun b => (x.scaleAt q.slotA q.cursor b, 1)) else []
    | none => []
  let dest : List (Nat × Nat) := match x with
    | some x => x.runs q.slotA q.cursor 0 (16 * efmtBits x.efmt)
    | none => []
  let mem := (if d.mem then drainAddrs q.desc q.cursor else [])
    ++ (if d.amax ∧ q.cursor = 127 then [drainAmax q.desc] else [])
  if !fixed then s
  else if dest.any (fun r => (shareLines r.1 r.2).any (fun l => !tm.present l)) then s
  else
    match (tm.readable strip).spoilt (tm.badRows d.tile q.cursor 1) with
    | .wait => s
    | .poison => s.seqFault t (.poison, 0)
    | .yes =>
      match s.obstacle a .write mem with
      | some p => s.seqPark t p
      | none =>
        let own := ((q.op.bind (fun o => find o s.ops)).map (·.own)).getD []
        if (s.memLines a .write mem).any (fun l => !own.contains l) then s.drainOwn t d
        else if d.amax ∧ q.cursor = 127 ∧ s.probe a .write true (drainAmax q.desc) = some (.poison, 0) then
          s.seqPark t (Park.fault s (.poison, 0) (drainAmax q.desc))
        else
          let r := strip.foldl (fun (p : List (Option Nat) × State) w =>
            let y := p.2.readRuns a [w]
            (p.1 ++ [some y.1], y.2)) ([], s)
          let s := r.2.drainRow t d r.1
          if q.cursor < 127 then s else (s.drainMerge t d).seqNext t

/-- The failure of a drain at its beginning, with its descriptor as it stands (R184, R285). -/
def Team.drainFailure (tm : Team) (d : Drain) (poisoned : Bool) : Option (Kind × Nat) :=
  firstFailure [failure (tm.drainMap d), if poisoned then none else failure (tm.drainBegin d 0)]

/-- A drain: its beginning, then one row (R285). -/
def State.drain (s : State) (t : Nat) (d : Drain) : State :=
  let tm := s.team t
  let go (s : State) : State :=
    let tm := s.team t
    match tm.drainFailure d false, tm.drainMap d with
    | some f, _ | none, .error f => s.seqFault t f
    | none, .ok slot =>
      match tm.drainBegin d slot with
      | .error f => s.seqFault t f
      | .ok q => ((s.onSeq t (fun _ => q)).drainOwn t d).drainStep t d
  let unbound := d.map.bind (fun m => failure (tm.mapOp m))
  if tm.seq.begun then s.drainStep t d
  else
    let s := s.seqMaps t d.map.toList
    if tm.ntiles ≤ d.tile then s.seqFault t (.registerRange, 0)
    else
      match unbound, d.desc with
      | some f, _ => s.seqFault t f
      | none, none => go s
      | none, some off =>
        if off % 32 ≠ 0 ∨ tm.size < off + 32 then s.seqFault t (.illegalOperand, 4)
        else
          match tm.readable [(off, 32)] with
          | .wait => s
          | .poison => s.seqFault t ((tm.drainFailure d true).getD (.poison, 0))
          | .yes =>
            let r := s.readRuns (s.seqAgent t) [(off, 32)]
            go (r.2.onSeq t (fun q => { q with desc := BitVec.ofNat 256 r.1 }))

/-- `MDRAIN` to scratchpad (R285), one row at a time. -/
def execMdrain (sat : Bool) (amax : Option (BitVec 21)) (tile : BitVec 5) (m : MapOp) (s : State) :
    Host.Outcome State Fault Refusal :=
  .next (s.seqRun fun t s =>
    s.drain t { mem := false, sat := sat, amax := amax.isSome, desc := amax.map (·.toNat), tile := tile.toNat, map := some m })

/-- `MDRAIN.MEM` (R285), one row at a time. -/
def execMdrainMem (sat amax : Bool) (desc : BitVec 21) (tile : BitVec 5) (s : State) :
    Host.Outcome State Fault Refusal :=
  .next (s.seqRun fun t s =>
    s.drain t { mem := true, sat := sat, amax := amax, desc := some desc.toNat, tile := tile.toNat, map := none })

/-! ### Shelves, barriers and loops of the stream (R286, R287) -/

/-- A take or acquire of the stream; a released wait completes the instruction. -/
def State.seqClaim (s : State) (t : Nat) (take : Bool) (k : BitVec 4) (c : BitVec 7) : State :=
  let h := (s.team t).shelf k.toNat
  if (s.team t).seq.begun then s.seqNext t
  else if !h.cfg || decide (h.nslot < c.toNat) then s.seqFault t (.shelfState, k.toNat)
  else
    match s.want t k.toNat { ticket := h.place, take := take, count := c.toNat, who := .seq, d := 0, lanes := 0 } with
    | (s, true) => s.seqNext t
    | (s, false) => s.onSeq t (fun q => { q with st := .atShelf, begun := true, ticket := h.place })

/-- A release or commit of the stream. -/
def State.seqFinish (s : State) (t : Nat) (release : Bool) (k : BitVec 4) (c : BitVec 7) : State :=
  let h := (s.team t).shelf k.toNat
  let recorded := h.dues.foldl (fun n d => if d.release == release then n + d.count else n) 0
  let have_ := if release then h.dist h.tak h.rel else h.dist h.acq h.com
  if !h.cfg || decide (have_ < recorded + c.toNat) then s.seqFault t (.shelfState, k.toNat)
  else
    let q := (s.team t).seq
    -- the slots after those of the commits recorded before it, each with the times of the writes to its lines
    let first := h.advN h.com recorded
    let slots := (List.range c.toNat).map (fun i =>
      (h.slotLines (h.advN first i).1).foldl (fun m l => Nat.max m (get 0 l (s.team t).wrote)) 0)
    (s.due t k.toNat { place := 0, release := release, count := c.toNat, time := 0,
                       slots := if release then none else some slots, grp := q.grp, pend := none, ops := [] }).seqNext t

/-- `MSHR.TAKE` (R286). -/
def execMshrTake (k : BitVec 4) (c : BitVec 7) (s : State) : Host.Outcome State Fault Refusal :=
  .next (s.seqRun fun t s => s.seqClaim t true k c)
/-- `MSHR.REL` (R286). -/
def execMshrRel (k : BitVec 4) (c : BitVec 7) (s : State) : Host.Outcome State Fault Refusal :=
  .next (s.seqRun fun t s => s.seqFinish t true k c)
/-- `MSHW.ACQ` (R286). -/
def execMshwAcq (k : BitVec 4) (c : BitVec 7) (s : State) : Host.Outcome State Fault Refusal :=
  .next (s.seqRun fun t s => s.seqClaim t false k c)
/-- `MSHW.COM` (R286). -/
def execMshwCom (k : BitVec 4) (c : BitVec 7) (s : State) : Host.Outcome State Fault Refusal :=
  .next (s.seqRun fun t s => s.seqFinish t false k c)

/-- `MBAR.ARV` (R286). -/
def execMbarArv (b : BitVec 4) (n : BitVec 10) (s : State) : Host.Outcome State Fault Refusal :=
  .next (s.seqRun fun t s =>
    match (s.team t).arriveBar b.toNat n.toNat (s.pts (s.seqAgent t)) with
    | none => s.seqFault t (.illegalOperand, b.toNat)
    | some (tm, _) => (s.onTeam t (fun _ => tm)).seqNext t)

/-- `MBAR.SYNC` (R286): the sequencer waits until the phase differs from that at its arrival. -/
def execMbarSync (b : BitVec 4) (n : BitVec 10) (s : State) : Host.Outcome State Fault Refusal :=
  .next (s.seqRun fun t s =>
    if (s.team t).seq.begun then s.seqNext t
    else
      match (s.team t).arriveBar b.toNat n.toNat (s.pts (s.seqAgent t)) with
      | none => s.seqFault t (.illegalOperand, b.toNat)
      | some (tm, ph) =>
        let s := s.onTeam t (fun _ => tm)
        if (tm.bar b.toNat).phase == ph then
          s.onSeq t (fun q => { q with st := .atBarrier, begun := true, barrier := b.toNat, phase := ph })
        else (s.raisePts (s.seqAgent t) (tm.bar b.toNat).time).seqNext t)

/-- The count of an `MLOOP` (R287). -/
def loopCount : Imm → Nat
  | .short i => i.toNat
  | .lit i => i.toNat

/-- `MLOOP` (R287). -/
def execMloop (n : Imm) (s : State) : Host.Outcome State Fault Refusal :=
  .next (s.seqRun fun t s =>
    let q := (s.team t).seq
    let off := (q.next - q.start).toNat
    if 4 ≤ q.loops.length ∨ 2 ^ 32 ≤ off then s.seqFault t (.illegalOperand, 5)
    else s.seqDone t (fun q => { q.goTo q.next with loops := (loopCount n, off) :: q.loops }))

/-- `MEND` (R287). -/
def execMend (s : State) : Host.Outcome State Fault Refusal :=
  .next (s.seqRun fun t s =>
    match (s.team t).seq.loops with
    | [] => s.seqEnd t
    | (n, off) :: ls =>
      if 1 < n then s.seqDone t (fun q => { q.goTo (q.start + BitVec.ofNat 64 off) with loops := (n - 1, off) :: ls })
      else s.seqDone t (fun q => { q.goTo q.next with loops := ls }))

end Sys2Proof.Machine
end

