-- ==== Sys2Proof/Machine/Clause.lean ====
section
/-!
DEFINITION. Clauses as they are fetched and checked (R69, R199-R202, R210, R211, R215): code objects and their versions,
instruction-cache lines, and the fetch of the matrix sequencer (R282).
-/
namespace Sys2Proof.Machine

/-! ### The instruction cache (R69) -/

/-- Bytes of a context's code as memory holds them now, in eights. -/
def State.codeBytes (s : State) (core c : Nat) (va : Word) : Nat → Option (List Byte)
  | 0 => some []
  | n + 1 =>
    match s.look core c .machine .fetch va, s.codeBytes core c (va + 8) n with
    | .ok p, some bs =>
      let v := (s.readKey (s.keyOf c) p.addr 8).1
      some ((List.range 8).map (fun k => BitVec.ofNat 8 (v / 256 ^ k)) ++ bs)
    | .ok _, none => none
    | .error _, _ => none

/-- `INSTRUCTION_CACHE_FILL`: a line of a context's code arrives in a core's instruction cache as it stands (R69). Like any
access it waits for device memory, for a page-cache sector and for lines that operations own (R100, R355, R369). -/
def execInstructionCacheFill (core ctx : Nat) (line : Word) (s : State) : Host.Outcome State Fault Refusal :=
  .next (
    let line := icLine line
    match s.look core ctx .machine .fetch line none true with
    | .error _ => s
    | .ok p =>
      if p.held || s.owned (lineNo p.addr) || s.owned (lineNo p.addr + 1) then s
      else
        let t := s.walked { s.deviceAgent ctx with core := core } line p
        if (s.pcMiss p).isSome then t
        else match s.codeBytes core ctx line 16 with
          | none => t
          | some bs => t.onCore core (fun k => { k with ic := trimTo Config.icLines (s.free 11) (put (icKey ctx line) bs k.ic) }))

/-! ### The clause of an instruction -/

/-- The offsets in a body at which instructions begin, from a run of first words' lengths. -/
def instrStarts (ver : Nat) : Nat → Nat → List Nat → List Nat
  | 0, _, _ => []
  | _ + 1, _, [] => []
  | n + 1, at_, w :: ws => at_ :: instrStarts ver n (at_ + 4 * (w % 4 + 1)) (ws.drop (w % 4))

/-- A clause at a header holds an instruction at an address: its body length in words. -/
def State.clauseAt (s : State) (core c : Nat) (hdr pc : Word) : Option Nat :=
  let ver := (s.versionAt c .control hdr).getD 3
  match s.codeBytes core c hdr 1 with
  | none => none
  | some hb =>
    let h := headOf ((codeWords hb).headD 0 + 2 ^ 32 * (codeWords hb).getD 1 0)
    if h.bad ver then none
    else
      match s.codeBytes core c (hdr + 8) (h.bytes / 8) with
      | none => none
      | some bs =>
        if h.badBody ver (codeWords bs) then none
        else if (instrStarts ver h.count 0 (codeWords bs)).any (fun o => hdr + BitVec.ofNat 64 (8 + o) == pc) then some h.bodyw
        else none

/-- The clause that holds the instruction at an address: the nearest header below it whose clause is well formed and has
an instruction there. -/
def State.clauseOf (s : State) (core c : Nat) (pc : Word) : Option (Word × Nat) :=
  (List.range 25).findSome? (fun k =>
    let hdr := ((pc - 8) &&& ~~~7) - BitVec.ofNat 64 (8 * k)
    (s.clauseAt core c hdr pc).map (fun n => (hdr, n)))

/-! ### The sequencer's fetch (R210, R282, R288) -/

/-- What the fetch of a clause of a stream waits for: a line that an operation owns, or a sector that the page cache lacks, which
it asks for (R100, R355). -/
def State.seqWaits (s : State) (core c : Nat) (level : Level) (hdr : Word) : Option State :=
  match s.look core c level .fetch hdr none true with
  | .error _ => none
  | .ok p =>
    if p.held || s.owned (lineNo p.addr) then some s
    else if (s.pcMiss p).isSome then some (s.demand core p) else none

/-- The sequencer of a team fetches the clause at its header; a malformed one, or one of another class than 4, parks it
with Clause-Format. -/
def State.seqFetch (s : State) (t : Nat) : State :=
  let tm := s.team t
  let q := tm.seq
  let core := tm.core.getD 0
  let ver := (s.versionAt tm.ctx q.level q.hdr).getD 3
  match s.fetchFault core tm.ctx q.level q.hdr with
  | some f => s.seqPark t (Park.fault s f q.hdr)
  | none =>
    match s.seqWaits core tm.ctx q.level q.hdr with
    | some t => t
    | none =>
    let hw := codeWords ((s.codeBytes core tm.ctx q.hdr 1).getD [])
    let h := headOf (hw.headD 0 + 2 ^ 32 * hw.getD 1 0)
    if h.bad ver || h.cls != 4 then s.seqFault t (.clauseFormat, 0)
    else
      match s.fetchFault core tm.ctx q.level (q.hdr + BitVec.ofNat 64 (7 + h.bytes)) with
      | some f => s.seqPark t (Park.fault s f q.hdr)
      | none =>
        let bs := (s.codeBytes core tm.ctx (q.hdr + 8) (h.bytes / 8)).getD []
        if h.badBody ver (codeWords bs) then s.seqFault t (.clauseFormat, 0)
        else s.onSeq t (fun q => { q with body := bs.take (4 * h.bodyw), pos := 0, at_ := q.hdr + 8 })

end Sys2Proof.Machine
end

