-- ==== Sys2Proof/Machine/Cross.lean ====
section
/-!
DEFINITION. Cross-lane instructions (R35, R250-R253, R144).
-/
namespace Sys2Proof.Machine

/-! ### Members and arrival (R35, R251) -/

/-- The member mask of a visit: the one read at the first arrival, else `S`m as it stands; 0 names every launched
lane (R250, R251). -/
def Group.members (g : Group) (hdr : Word) (m : SReg) : Lanes :=
  if m = 0 then g.launched
  else
    match find hdr.toNat g.arrive with
    | some x => x
    | none => g.sreg m.toNat

/-- The members that were never launched (R35). -/
def Group.badMembers (g : Group) (ms : Lanes) : Lanes := ms &&& ~~~g.launched

/-- The lanes that stand at a clause header, blocked there or ready (R35). -/
def Group.standing (g : Group) (hdr : Word) : Lanes :=
  maskOf (fun i => (g.state i == 1 || g.state i == 4) && g.lanePc i == hdr) &&& ~~~g.unreleased

/-- The members that an instruction at a header still waits for, a path aside (R35). -/
def Group.memberLacks (g : Group) (hdr : Word) (path ms : Lanes) : Lanes :=
  ms &&& ~~~(path ||| g.standing hdr ||| g.inState 2 ||| g.inState 0)

/-- The half of a 64-lane group that a path lies in (R27). -/
def halfOf (g : Group) (m : Lanes) : Lanes :=
  if g.width = 64 then (if m &&& lowMask 32 ≠ 0 then lowMask 32 else ~~~(lowMask 32)) else lowMask 64

/-- What a cross-lane instruction works on: members, every active lane of the visit, the registers of every member, and
the executing lanes: active members, and active lanes that are not members. -/
structure Visit where
  members : Lanes
  act : Lanes
  src : Group
  mine : Lanes
  others : Lanes
  deriving DecidableEq, Repr

/-- The visit of a path. The second half of a 64-lane group works on what the first half kept; the first half sees
the lanes of the second that stand at the header (R251). -/
def Env.visit (e : Env) (g : Group) (gd : Guard) (m : SReg) : Visit :=
  let ms := g.members e.hdr m
  match g.xsrc with
  | some x =>
    if x.hdr = e.hdr then
      { members := ms, act := x.act ||| e.act, src := { g with v := x.v, p := x.p, s := x.s }, mine := e.act &&& ms,
        others := e.act &&& ~~~ms }
    else { members := ms, act := e.act, src := g, mine := e.act &&& ms, others := e.act &&& ~~~ms }
  | none =>
    let more := if g.width = 64 then g.guarded gd (g.standing e.hdr &&& ~~~(halfOf g e.path)) else 0
    { members := ms, act := e.act ||| more, src := g, mine := e.act &&& ms, others := e.act &&& ~~~ms }

/-- After its last half has issued, a visit leaves nothing behind; before it, the sources stay (R251). -/
def Group.endVisit (g : Group) (e : Env) (v : Visit) : Group :=
  let rest := if g.width = 64 then g.standing e.hdr &&& ~~~(halfOf g e.path) &&& ~~~e.path else 0
  if g.xsrc.isSome || rest == 0 then { g with xsrc := none, arrive := del e.hdr.toNat g.arrive }
  else { g with xsrc := some { hdr := e.hdr, v := v.src.v, p := v.src.p, s := v.src.s, act := e.act } }

/-- The out-predicate: as given in active members, false in active lanes that are not members (R251). -/
def Group.outPred (g : Group) (v : Visit) (po : PReg) (f : Nat → Bool) : Group :=
  (g.setPs po.toNat v.mine f).setPs po.toNat v.others (fun _ => false)

/-- A cross-lane instruction in one group: Member-Mask, arrival, its own check, and its writes (R251). Members that
wait for another block at the header; a lane that is no member passes (R35, R36). -/
def State.crossOp (s : State) (g : Guard) (top : Nat) (x : Mbr) (chk : Env → Visit → Option Res)
    (f : Env → Visit → Group → Group) : State :=
  s.run { g := g, top := top } fun e s =>
    let gr := e.group s
    let v := e.visit gr g x.m
    let bad := gr.badMembers v.members
    let second := gr.xsrc.any (fun y => y.hdr == e.hdr)
    if !second && bad == 0 && gr.memberLacks e.hdr e.path v.members != 0 then
      .ok (e.onGroup s (fun gr =>
        let gr := { gr with arrive := put e.hdr.toNat v.members gr.arrive }
        let gr := gr.outPred { v with mine := 0 } x.po (fun _ => false)
        (lanesOf (e.path &&& v.members)).foldl (fun gr i => gr.setState i 4)
          (gr.goTo (e.path &&& v.members) (fun _ => e.hdr)))) (e.path &&& v.members)
    else
      match chk e v with
      | some r => r
      | none =>
        if bad ≠ 0 then .trap { kind := .memberMask, detail := 0, lanes := bad }
        else .go (e.onGroup s (fun gr => (f e v gr).endVisit e v))

/-- No check of its own. -/
def noCheck (_ : Env) (_ : Visit) : Option Res := none

/-- One result for the whole member set, into a vector or a uniform register. -/
def Group.setAll (g : Group) (e : Env) (v : Visit) (d : Reg) (x : Word) : Group :=
  match d with
  | .v n => g.setVs n.toNat v.mine (fun _ => x)
  | .s n => if e.act = 0 then g else g.setS n.toNat x

/-! ### The entries -/

/-- The source lane of `PERM`, if it is a lane number (R252). -/
def permSource (md : PermMd) (i : Nat) (b : Word) : Option Nat :=
  match md with
  | .idx => some (bits b 0 6)
  | .xor => some (i ^^^ bits b 0 6)
  | .up => if b.toNat ≤ i then some (i - b.toNat) else none
  | .dn => if i + b.toNat < 64 then some (i + b.toNat) else none

/-- The member that `PERM` reads for a lane, if it is one. -/
def permFrom (md : PermMd) (ms : Lanes) (i : Nat) (b : Word) : Option Nat :=
  match permSource md i b with
  | some j => if ms.getLsbD j then some j else none
  | none => none

/-- `PERM` (R252). -/
def execPerm (g : Guard) (md : PermMd) (d : VReg) (a b : Reg) (x : Mbr) (s : State) :
    Host.Outcome State Fault Refusal :=
  .next (s.crossOp g (maxOf [topV d 1, topR a 1, topR b 1]) x noCheck (fun _ v gr =>
    let from_ (i : Nat) : Option Nat := permFrom md v.members i (v.src.reg b i)
    (gr.setVs d.toNat v.mine (fun i => v.src.reg a ((from_ i).getD i))).outPred v x.po (fun i => (from_ i).isSome)))

/-- The highest lane of a mask. -/
def highest (m : Lanes) : Nat := (lanesOf m).getLastD 0

/-- The lane that `BCAST` reads (R252). -/
def bcastSource (md : BcastMd) (v : Visit) (b : SReg) : Nat :=
  match md with
  | .lane => bits (v.src.sreg b.toNat) 0 6
  | .first => lowest (v.act &&& v.members)
  | .last => highest (v.act &&& v.members)

/-- `BCAST` (R252). -/
def execBcast (g : Guard) (md : BcastMd) (d : Reg) (a : VReg) (b : SReg) (x : Mbr) (s : State) :
    Host.Outcome State Fault Refusal :=
  .next (s.crossOp g (maxOf [topR d 1, topV a 1]) x
    (fun e v =>
      if md = .lane ∧ v.members.getLsbD (bcastSource md v b) = false then some (e.fault .illegalOperand 0) else none)
    (fun e v gr =>
      let y := v.src.vreg a.toNat (bcastSource md v b)
      let gr := if md ≠ .lane ∧ v.act &&& v.members = 0 then gr else gr.setAll e v d y
      gr.outPred v x.po (fun _ => true)))

/-- The members whose predicate is true. -/
def ballot (v : Visit) (pa : PReg) : Lanes := maskOf (fun j => v.members.getLsbD j && v.src.preg pa.toNat j)

/-- `VOTE` (R252). -/
def execVote (g : Guard) (d : VoteDst) (pa : PReg) (x : Mbr) (s : State) : Host.Outcome State Fault Refusal :=
  .next (s.crossOp g (match d with
      | .pred _ _ => 0
      | .ballot r => topR r 1) x noCheck (fun e v gr =>
    let y := ballot v pa
    match d with
    | .pred md pd =>
      let r : Bool := match md with
        | .all => y == v.members
        | .any => y != 0
        | .uni => y == v.members || y == 0
      gr.setPs pd.toNat v.mine (fun _ => r)
    | .ballot r => (gr.setAll e v r y).outPred v x.po (fun _ => true)))

/-- The bits of all ones of an element. -/
def onesElem (t : Ty) : Nat := 2 ^ t.width - 1

/-- The value of an operation over no element: the identity of R252. -/
def redIdentity (op : RedOp) (t : Ty) : Nat :=
  match op with
  | .add | .or | .xor => 0
  | .and => onesElem t
  | .min => if t.isFp then (tyFmt t).infBits else wrap t.width (intHi t.signed t.width)
  | .max => if t.isFp then (tyFmt t).sign true (tyFmt t).infBits else wrap t.width (intLo t.signed t.width)

/-- R of R252 over elements, with flags. -/
def redElems (op : RedOp) (t : Ty) (xs : List Nat) : Nat × Flags :=
  match xs with
  | [] => (redIdentity op t, 0)
  | x :: rest =>
    match op with
    | .and => (rest.foldl (fun a b => a &&& b) x, 0)
    | .or => (rest.foldl (fun a b => a ||| b) x, 0)
    | .xor => (rest.foldl (fun a b => a ^^^ b) x, 0)
    | .add =>
      if t.isFp then (tyFmt t).sum (xs.map (tyFmt t).val)
      else (wrap t.width (xs.foldl (fun a b => a + elemInt t b) 0), 0)
    | .min =>
      if t.isFp then
        rest.foldl (fun a b => let r := fpMinMax (tyFmt t) false a.1 b; (r.1, a.2 ||| r.2)) (fpMinMax (tyFmt t) false x x)
      else (wrap t.width (rest.foldl (fun a b => min a (elemInt t b)) (elemInt t x)), 0)
    | .max =>
      if t.isFp then
        rest.foldl (fun a b => let r := fpMinMax (tyFmt t) true a.1 b; (r.1, a.2 ||| r.2)) (fpMinMax (tyFmt t) true x x)
      else (wrap t.width (rest.foldl (fun a b => max a (elemInt t b)) (elemInt t x)), 0)

/-- R over words, element by element (R252). -/
def redWords (op : RedOp) (t : Ty) (xs : List Word) : Word × Flags :=
  packFlags t ((List.range t.count).map (fun k => redElems op t (xs.map (fun x => elem t x k))))

/-- The flags of a result that active members write; helper lanes raise none (R251, R143). -/
def Group.raiseFor (g : Group) (m : Lanes) (f : Flags) : Group := if m &&& ~~~g.helper = 0 then g else g.raise f

/-- `REDU` (R252). -/
def execRedu (g : Guard) (op : RedOp) (ty : Ty) (d : Reg) (a : VReg) (x : Mbr) (s : State) :
    Host.Outcome State Fault Refusal :=
  .next (s.crossOp g (maxOf [topR d 1, topV a 1]) x noCheck (fun e v gr =>
    let r := redWords op ty ((lanesOf v.members).map (fun j => v.src.vreg a.toNat j))
    ((gr.setAll e v d r.1).raiseFor v.mine r.2).outPred v x.po (fun _ => true)))

/-- The prefix of `SCAN` in a lane (R252). -/
def scanAt (op : RedOp) (excl : Bool) (ty : Ty) (v : Visit) (a : VReg) (i : Nat) : Word × Flags :=
  redWords op ty (((lanesOf v.members).filter (fun j => decide (j < i) || (!excl && j == i))).map
    (fun j => v.src.vreg a.toNat j))

/-- `SCAN` (R252). -/
def execScan (g : Guard) (op : RedOp) (excl : Bool) (ty : Ty) (d a : VReg) (x : Mbr) (s : State) :
    Host.Outcome State Fault Refusal :=
  .next (s.crossOp g (maxOf [topV d 1, topV a 1]) x noCheck (fun _ v gr =>
    ((gr.setVs d.toNat v.mine (fun i => (scanAt op excl ty v a i).1)).raiseLanes v.mine
      (fun i => (scanAt op excl ty v a i).2)).outPred v x.po (fun _ => true)))

/-- `MATCH` (R252). -/
def execMatchLanes (g : Guard) (d a : VReg) (x : Mbr) (s : State) : Host.Outcome State Fault Refusal :=
  .next (s.crossOp g (maxOf [topV d 1, topV a 1]) x noCheck (fun _ v gr =>
    let same (i : Nat) : Lanes :=
      maskOf (fun j => v.members.getLsbD j && v.src.vreg a.toNat j == v.src.vreg a.toNat i)
    (gr.setVs d.toNat v.mine same).outPred v x.po (fun i => same i == v.members)))

/-- The lowest lane of the first quad that a mask names in part (R253). -/
def splitQuad (ms : Lanes) : Option Nat :=
  ((List.range 16).find? (fun q =>
    let n := ((List.range 4).filter (fun k => ms.getLsbD (4 * q + k))).length
    n != 0 && n != 4)).map (fun q => 4 * q)

/-- The check of the quad instructions (R253). -/
def quadCheck (e : Env) (v : Visit) : Option Res := (splitQuad v.members).map (fun l => e.fault .illegalOperand l)

/-- The difference of two lanes of a quad (R144). -/
def quadDiff (ty : Ty) (v : Visit) (a : VReg) (hi lo : Nat) : Word × Flags :=
  fmap2 ty (fpSub (tyFmt ty)) (v.src.vreg a.toNat hi) (v.src.vreg a.toNat lo)

/-- The shared form of `DERIVX` and `DERIVY`: the pair of lanes that a lane's difference is taken from. -/
def State.deriv (s : State) (g : Guard) (ty : Ty) (d a : VReg) (x : Mbr) (pair : Nat → Nat × Nat) : State :=
  s.crossOp g (maxOf [topV d 1, topV a 1]) x quadCheck (fun _ v gr =>
    let r (i : Nat) : Word × Flags := quadDiff ty v a (i / 4 * 4 + (pair (i % 4)).1) (i / 4 * 4 + (pair (i % 4)).2)
    ((gr.setVs d.toNat v.mine (fun i => (r i).1)).raiseLanes v.mine (fun i => (r i).2)).outPred v x.po (fun _ => true))

/-- `DERIVX` (R253, R144). -/
def execDerivx (g : Guard) (coarse : Bool) (ty : Ty) (d a : VReg) (x : Mbr) (s : State) :
    Host.Outcome State Fault Refusal :=
  .next (s.deriv g ty d a x (fun k => if coarse then (1, 0) else (k ||| 1, k &&& 2)))

/-- `DERIVY` (R253, R144). -/
def execDerivy (g : Guard) (coarse : Bool) (ty : Ty) (d a : VReg) (x : Mbr) (s : State) :
    Host.Outcome State Fault Refusal :=
  .next (s.deriv g ty d a x (fun k => if coarse then (2, 0) else (k ||| 2, k &&& 1)))

/-- The lane distance of a `QSWAP` mode (R253). -/
def qswapMask (md : QMd) : Nat :=
  match md with
  | .h => 1
  | .v => 2
  | .d => 3

/-- `QSWAP` (R253). -/
def execQswap (g : Guard) (md : QMd) (d a : VReg) (x : Mbr) (s : State) : Host.Outcome State Fault Refusal :=
  .next (s.crossOp g (maxOf [topV d 1, topV a 1]) x quadCheck (fun _ v gr =>
    (gr.setVs d.toNat v.mine (fun i => v.src.vreg a.toNat (i ^^^ qswapMask md))).outPred v x.po (fun _ => true)))

end Sys2Proof.Machine
end

