-- ==== Sys2Proof/Machine/Float.lean ====
section
/-!
DEFINITION. Floating-point instructions (R241-R244).
-/
namespace Sys2Proof.Machine

/-- A vector register and flags from two value sources. -/
def State.vecF2 (s : State) (g : Guard) (ty : Ty) (d : VReg) (a : Reg) (b : Opnd) (f : Word → Word → Word × Flags) :
    State :=
  s.vecF g (maxOf [topR a 1, topO b]) d (fun gr i => f (gr.reg a i) (gr.opnd ty b i))

/-- A vector register and flags from one register. -/
def State.vecF1 (s : State) (g : Guard) (d : VReg) (a : Reg) (f : Word → Word × Flags) : State :=
  s.vecF g (topR a 1) d (fun gr i => f (gr.reg a i))

/-- `FADD` (R241). -/
def execFadd (g : Guard) (ty : Ty) (d : VReg) (a : Reg) (b : Opnd) (s : State) : Host.Outcome State Fault Refusal :=
  .next (s.vecF2 g ty d a b (fmap2 ty (fpAdd (tyFmt ty))))

/-- `FSUB` (R241). -/
def execFsub (g : Guard) (ty : Ty) (d : VReg) (a : Reg) (b : Opnd) (s : State) : Host.Outcome State Fault Refusal :=
  .next (s.vecF2 g ty d a b (fmap2 ty (fpSub (tyFmt ty))))

/-- `FMUL` (R241). -/
def execFmul (g : Guard) (ty : Ty) (d : VReg) (a : Reg) (b : Opnd) (s : State) : Host.Outcome State Fault Refusal :=
  .next (s.vecF2 g ty d a b (fmap2 ty (fpMul (tyFmt ty))))

/-- `FFMA` (R241). -/
def execFfma (g : Guard) (ty : Ty) (d : VReg) (a b : Reg) (c : Opnd) (s : State) : Host.Outcome State Fault Refusal :=
  .next (s.vecF g (maxOf [topR a 1, topR b 1, topO c]) d (fun gr i =>
    fmap3 ty (fpFma (tyFmt ty)) (gr.reg a i) (gr.reg b i) (gr.opnd ty c i)))

/-- `FMIN` (R241). -/
def execFmin (g : Guard) (ty : Ty) (d : VReg) (a : Reg) (b : Opnd) (s : State) : Host.Outcome State Fault Refusal :=
  .next (s.vecF2 g ty d a b (fmap2 ty (fpMinMax (tyFmt ty) false)))

/-- `FMAX` (R241). -/
def execFmax (g : Guard) (ty : Ty) (d : VReg) (a : Reg) (b : Opnd) (s : State) : Host.Outcome State Fault Refusal :=
  .next (s.vecF2 g ty d a b (fmap2 ty (fpMinMax (tyFmt ty) true)))

/-- `FCMP` (R242). -/
def execFcmp (g : Guard) (cc : Fcc) (any : Bool) (ty : Ty) (pd : PReg) (a : Reg) (b : Opnd) (s : State) :
    Host.Outcome State Fault Refusal :=
  .next (s.vecPF g (maxOf [topR a 1, topO b]) pd (fun gr i => fcmpWord cc any ty (gr.reg a i) (gr.opnd ty b i)))

/-- `FCLASS` (R243). -/
def execFclass (g : Guard) (ty : Ty) (d : VReg) (a : Reg) (s : State) : Host.Outcome State Fault Refusal :=
  .next (s.vec1 g d a (map1 ty (fun x => 2 ^ fpClass (tyFmt ty) x)))

/-- `FRND` (R243). -/
def execFrnd (g : Guard) (m : Rnd) (x : Bool) (ty : Ty) (d : VReg) (a : Reg) (s : State) :
    Host.Outcome State Fault Refusal :=
  .next (s.vecF1 g d a (fmap1 ty (fpRound (tyFmt ty) m x)))

/-- An element read as a signed integer of its width (R243). -/
def signedElem (t : Ty) (x : Nat) : Int := (BitVec.ofNat t.width x).toInt

/-- `FSCALE` (R243). -/
def execFscale (g : Guard) (ty : Ty) (d : VReg) (a : Reg) (b : Opnd) (s : State) : Host.Outcome State Fault Refusal :=
  .next (s.vecF2 g ty d a b (fmap2 ty (fun x n => fpScale (tyFmt ty) x (signedElem ty n))))

/-- `FDOT` in a lane: one short block (R244, R129). -/
def fdotWord (ty : Ty) (a b z : Word) : Word × Flags :=
  let v (x : Word) (k : Nat) : Val := (tyFmt ty).val (elem ty x k)
  let r := dotBlock (bits z 0 32) ((List.range ty.count).map (fun k => (v a k, v b k))) Val.one
  (BitVec.ofNat 64 r.1, r.2)

/-- `FDOT` (R244). -/
def execFdot (g : Guard) (ty : Ty) (d : VReg) (a b : Reg) (c : Opnd) (s : State) : Host.Outcome State Fault Refusal :=
  .next (s.vecF g (maxOf [topR a 1, topR b 1, topO c]) d (fun gr i =>
    fdotWord ty (gr.reg a i) (gr.reg b i) (gr.opnd .f32 c i)))

end Sys2Proof.Machine
end

