-- ==== Sys2Proof/Machine/Sysreg.lean ====
section
/-!
DEFINITION. System registers: their fields, access levels and ordering (R57-R59, R95, R231, R384).
-/
namespace Sys2Proof.Machine

/-- The level from which a register may be read (R57). -/
def readLevel : SysReg → Level
  | .trappc | .tvec | .lease => .control
  | .stopat => .machine
  | .capLo | .capHi | .ctxid | .grpid | .teamid | .laneid | .prio | .flags | .mode | .gts | .tick | .faultinfo
  | .faultlanes | .rastthr | .trvcfg | .swpcfg => .user

/-- The level from which a register may be written (R57). -/
def writeLevel : SysReg → Level
  | .faultinfo | .faultlanes | .trappc | .tvec | .lease => .control
  | .stopat => .machine
  | .capLo | .capHi | .ctxid | .grpid | .teamid | .laneid | .prio | .flags | .mode | .gts | .tick | .rastthr
  | .trvcfg | .swpcfg => .user

/-- `CAP` bits 63-0: every capability, without the 4-bit and 6-bit formats in reduced service (R58). -/
def State.cap (s : State) : Word := if s.dev.service = .reduced then 0xFFE7 else 0xFFFF

/-- `PRIO` of a group as it reads (R58). -/
def Group.prioImage (g : Group) : Nat := g.prio % 16 + g.credit % 16 * 16

/-- `MODE` of a group as it reads. -/
def Group.modeImage (g : Group) : Nat :=
  (if g.dmr then 1 else 0) + (if g.uien then 2 else 0) + g.uipend.toNat * 2 ^ 16

/-- `TEAMID` of a team as it reads. -/
def Team.idImage (t : Team) : Nat :=
  t.no % 2 ^ 24 + t.gang % 2 ^ 24 * 2 ^ 24 + t.rank % 8 * 2 ^ 48 + t.gsize % 16 * 2 ^ 52

/-- The value that a lane reads from a system register (R58). -/
def State.sysRead (s : State) (e : Env) (r : SysReg) (lane : Nat) : Word :=
  let g := e.group s
  let t := s.team e.team
  let c := s.ctx e.ctx
  match r with
  | .capLo => s.cap
  | .capHi => 0
  | .ctxid => BitVec.ofNat 64 (e.ctx % 1024 + c.part % 128 * 2 ^ 16 + c.gen.toNat * 2 ^ 32)
  | .grpid => BitVec.ofNat 64 (e.grp % 16 + g.role % 8 * 2 ^ 4 + widthCode g.width * 2 ^ 8 + g.n % 1024 * 2 ^ 16)
  | .teamid => BitVec.ofNat 64 t.idImage
  | .laneid => BitVec.ofNat 64 lane
  | .prio => BitVec.ofNat 64 g.prioImage
  | .flags => g.flags.setWidth 64
  | .mode => BitVec.ofNat 64 g.modeImage
  | .gts => BitVec.ofNat 64 g.gts
  | .tick => BitVec.ofNat 64 s.dev.datum
  | .faultinfo => g.faultinfo
  | .faultlanes => g.faultlanes
  | .trappc => g.trappc
  | .tvec => c.tvec
  | .rastthr => c.area.setWidth 64
  | .trvcfg => if t.pkten then 1 else 0
  | .swpcfg => t.sprio.setWidth 64
  | .lease => c.lease.setWidth 64
  | .stopat => BitVec.ofNat 64 s.dev.stopat

/-- `FLAGS` waits for every earlier instruction of the group (R59). -/
def flagsWait (e : Env) (s : State) : Bool := e.act != 0 && (e.group s).pend.any (fun p => !p.2.left_)

/-- `SRD` (R231). -/
def execSrd (g : Guard) (d : Reg) (r : SysReg) (s : State) : Host.Outcome State Fault Refusal :=
  .next (s.run { g := g, top := topR d 1, level := readLevel r, once := true, wait := fun e s => r == .flags && flagsWait e s } fun e s =>
    match d with
    | .v n => .go (e.onGroup s (fun gr => gr.setVs n.toNat e.act (s.sysRead e r)))
    | .s n => .go (e.once s (fun s => e.onGroup s (fun gr => gr.setS n.toNat (s.sysRead e r 0)))))

/-- A write of the fields of a system register that a plain `SWR` writes (R58). -/
def State.sysWrite (s : State) (e : Env) (r : SysReg) (x : Word) : State :=
  match r with
  | .prio => e.onGroup s (fun g => { g with prio := x.toNat % 16 })
  | .faultinfo => e.onGroup s (fun g => { g with faultinfo := x &&& 0xFFFF0FFF })
  | .faultlanes => e.onGroup s (fun g => { g with faultlanes := x })
  | .trappc => e.onGroup s (fun g => { g with trappc := x })
  | .tvec => s.onCtx e.ctx (fun c => { c with tvec := x &&& ~~~7 })
  | .rastthr => s.onCtx e.ctx (fun c => { c with area := x.setWidth 32 })
  | .trvcfg => s.onTeam e.team (fun t => { t with pkten := x.getLsbD 0 })
  | .swpcfg => s.onTeam e.team (fun t => { t with sprio := x.setWidth 4 })
  | .capLo | .capHi | .ctxid | .grpid | .teamid | .laneid | .flags | .mode | .gts | .tick | .lease | .stopat => s

/-- A write of a system register as a group effect (R222, R231). -/
def State.swrOp (s : State) (g : Guard) (level : Level) (a : Reg) (wait : Env → State → Bool)
    (f : Env → Word → State → State) : State :=
  s.run { g := g, top := topR a 1, level := level, once := true, wait := wait } fun e s =>
    .go (e.once s (f e (e.groupReg (e.group s) a)))

/-- `SWR` (R231). -/
def execSwr (g : Guard) (r : SysReg) (a : Reg) (s : State) : Host.Outcome State Fault Refusal :=
  .next (s.swrOp g (writeLevel r) a (fun _ _ => false) (fun e x s => s.sysWrite e r x))

/-- `SWR` of `FLAGS`: a 1 clears the flag (R58, R59). -/
def execSwrFlags (g : Guard) (a : Reg) (s : State) : Host.Outcome State Fault Refusal :=
  .next (s.swrOp g .user a flagsWait (fun e x s =>
    e.onGroup s (fun gr => { gr with flags := gr.flags &&& ~~~(x.setWidth 5) })))

/-- `SWR` of `MODE`: `DMR` only from control (R57, R58). -/
def execSwrMode (g : Guard) (a : Reg) (s : State) : Host.Outcome State Fault Refusal :=
  .next (s.swrOp g .user a (fun _ _ => false) (fun e x s =>
    e.onGroup s (fun gr =>
      { gr with dmr := if gr.level.atLeast .control then x.getLsbD 0 else gr.dmr, uien := x.getLsbD 1 })))

/-- `SWR` of `LEASE`: 0 stores 1 (R58, R95). -/
def execSwrLease (g : Guard) (a : Reg) (s : State) : Host.Outcome State Fault Refusal :=
  .next (s.swrOp g .control a (fun _ _ => false) (fun e x s =>
    let n : BitVec 32 := x.setWidth 32
    s.onCtx e.ctx (fun c => { c with lease := if n = 0 then 1 else n })))

/-- A write of `STOPAT` (R59, R384): ignored and 0 with the port closed, no stop at or below the datum. Answers
whether a stop was armed. -/
def State.armStop (s : State) (x : Word) : Bool × State :=
  if s.dev.jtag && decide (s.dev.datum < x.toNat) then (true, s.onDev (fun d => { d with stopat := x.toNat }))
  else (false, s.onDev (fun d => { d with stopat := 0 }))

/-- `SWR` of `STOPAT` (R231, R384). -/
def execSwrStopat (g : Guard) (a : Reg) (s : State) : Host.Outcome State Fault Refusal :=
  .next (s.swrOp g .machine a (fun _ _ => false) (fun e x s =>
    let r := s.armStop x
    if r.1 then r.2.emit 0 e.core e.ctx 11 0 x.toNat 0 0 else r.2))

end Sys2Proof.Machine
end

