-- ==== Sys2Proof/Machine/NearMem.lean ====
section
/-!
DEFINITION. Near-memory commands (R273, R274). A command that finds its destination lines free and its sources written is
performed at its issue; else it is an engine operation that is performed when it is granted the lines (R99, R101).
-/
namespace Sys2Proof.Machine

/-- The addresses at which units of `u` bytes begin that a range touches. -/
def unitsOf (u : Nat) (va : Word) (n : Nat) : List Word :=
  let r := va.toNat % u
  (List.range ((r + n + u - 1) / u)).map (fun k => va - BitVec.ofNat 64 r + BitVec.ofNat 64 (u * k))

/-- A range of a command: what is done with it, its address and its bytes. -/
structure Span where
  use : Use
  va : Word
  n : Nat
  deriving DecidableEq, Repr

/-- The addresses of the lines of a range. -/
def Span.lines (x : Span) : List Word := unitsOf 64 x.va x.n

/-- A range holds a page of a class that is not accepted (R273). -/
def State.spanClass (s : State) (a : Agent) (xs : List Span) : Bool :=
  xs.any (fun x => x.lines.any (s.classBad a x.use ordered))

/-- The first translation fault of ranges: a page's, and, as each line has its own port, a line's Host-Lost (R274, R356). -/
def State.spanFault (s : State) (a : Agent) (xs : List Span) : Option (Kind × Nat) :=
  (xs.flatMap (fun x => x.lines.map (s.seek a x.use))).findSome? (fun r => match r with
    | .error f => some f
    | .ok _ => none)

/-- Walk entries of ranges that engine operations own: a command translates every page at its issue (R274, R345). -/
def State.spanHeld (s : State) (a : Agent) (xs : List Span) : List Nat :=
  xs.flatMap (fun x => (s.spots a x.use x.lines).filterMap (fun p => if p.held then some (lineNo p.addr) else none))

/-- The places of units of a range: class, backing address, and bytes. -/
def State.placesOf (s : State) (a : Agent) (use : Use) (vas : List Word) (n : Nat) : List (Nat × Nat × Nat) :=
  (s.spots a use vas).map (fun p => (p.cls, p.addr, n))

/-- The effects of the translations of ranges (R350). -/
def State.walkSpans (s : State) (a : Agent) (xs : List Span) : State :=
  xs.foldl (fun s x => x.lines.foldl (fun s va => match s.seek a x.use va with
    | .error _ => s
    | .ok p => s.walked a va p) s) s

/-- A line is owned by an operation that precedes one issued now by a group (R99, R101). -/
def State.ownedBefore (s : State) (a : Agent) (l : Nat) : Bool :=
  s.untrained l || s.ops.any (fun e =>
    let t := e.2.e.getD e.2.pts
    e.2.own.contains l && (decide (t < s.pts a) || (t == s.pts a && decide (e.2.core ≤ a.core))))

/-- The source lines of a command that wait for an earlier owner (R101). -/
def State.srcWaits (s : State) (a : Agent) (xs : List (Nat × Nat × Nat)) : List Nat :=
  xs.filterMap (fun x => if ordered x.1 && s.ownedBefore a (lineNo x.2.1) then some (lineNo x.2.1) else none)

/-- Numbers loaded from places in order at the home slice (R101). -/
def State.nearLoads (a : Agent) : State → List (Nat × Nat × Nat) → List Nat × State
  | s, [] => ([], s)
  | s, x :: xs =>
    let r := s.load a false x.1 x.2.1 x.2.2
    let q := State.nearLoads a r.2 xs
    (r.1 :: q.1, q.2)

/-- The timestamp E of a command over its destination lines (R99). -/
def State.nearTime (s : State) (a : Agent) (xs : List (Nat × Nat × Nat)) : Nat :=
  xs.foldl (fun t x => Nat.max t (s.storeTime a x.1 (lineNo x.2.1))) (s.pts a)

/-- A store of a command at its timestamp. -/
def State.nearStore (s : State) (a : Agent) (t : Nat) (x : Nat × Nat × Nat) (v : Nat) : State :=
  ((s.storeAt a x.1 x.2.1 x.2.2 v t).raisePts a t).note a (lineNo x.2.1) false true t

/-- The line of a place marked poisoned. -/
def State.poisonAt (s : State) (addr : Nat) : State :=
  s.setLine (lineNo addr) { s.line (lineNo addr) with poison := true }

/-- A command is performed: its sources are read, and its lines written at E, fixed before or now. Poison of a source goes to
the destination (R99, R274). -/
def State.nearDo (s : State) (a : Agent) (c : NearOp) (e : Option Nat) : State :=
  let bad := c.src.map (fun x => s.poisoned (s.keyOf a.ctx) (lineNo x.2.1))
  let r := State.nearLoads a s c.src
  let t := e.getD (r.2.nearTime a c.into)
  let s := (c.into.zip (c.vals ++ r.1)).foldl (fun s x => s.nearStore a t x.1 x.2) r.2
  (c.into.zip bad).foldl (fun s x => if x.2 then s.poisonAt x.1.2.1 else s) s

/-- The destination lines of a command, in ascending order. -/
def NearOp.lines (c : NearOp) : List Nat :=
  ascending (c.into.filterMap (fun x => if ordered x.1 then some (lineNo x.2.1) else none))

/-- The outstanding instruction of a command begins: performed now where its lines are free, or as an operation (R99). -/
def Env.nearBegin (e : Env) (s : State) (ll : Ll) (c : NearOp) (sw : SMap Word) : State :=
  if c.lines.any s.owned || !(s.srcWaits e.agent c.src).isEmpty then
    let p := (e.group s).begin ll e.act { Pend.zero with ready := false, sw := sw }
    let s := e.onGroup s (fun _ => p.1)
    (s.addOp { e.newOp s (some p.2) (.near c) with begun := true, need := c.lines }).1
  else e.begin (s.nearDo e.agent c none) ll { Pend.zero with sw := sw }

/-- `OWNERSHIP_GRANT`: home slices grant an operation lines that it has requested; a near-memory command that has all of its
lines, and whose sources are written, is performed (R99, R101). -/
def execOwnershipGrant (op : Nat) (s : State) : Host.Outcome State Fault Refusal :=
  let s := s.grant op
  .next (match find op s.ops with
    | none => s
    | some o =>
      match o.body with
      | .near c =>
        if o.e.isNone || c.src.any (fun x => ordered x.1 && s.readWaits op (lineNo x.2.1)) then s
        else (s.nearDo o.agent c o.e).endOp op
      | .copy _ | .tex _ | .rast _ | .ray _ | .pair _ | .drain | .crest _ => s)

/-- The shared form: operand and class checks, translation of every page, then the command. One that is `strict` about its
sources reads them at its issue: it waits there for earlier owners, and their poison is a precise fault (R273, R274). -/
def State.near (s : State) (g : Guard) (ll : Ll) (bad : Group → Bool) (spans : Group → List Span) (strict : Bool)
    (f : Agent → Group → (Use → List Word → Nat → List (Nat × Nat × Nat)) → State → State × NearOp × SMap Word) : State :=
  s.run { g := g, ll := some ll, mem := true, acc := true, once := true } fun e s =>
    let gr := e.group s
    let xs := spans gr
    let from_ := (xs.filter (fun x => x.use == .read)).flatMap (fun x => s.placesOf e.agent .read x.lines 64)
    if bad gr || s.spanClass e.agent xs then e.fault .illegalOperand 0
    else if e.act = 0 then .go s
    else
      match s.spanFault e.agent xs, s.spanHeld e.agent xs ++ (if strict then s.srcWaits e.agent from_ else []) with
      | some x, _ => e.fault x.1 x.2
      | none, l :: ls => .park (.owned (l :: ls))
      | none, [] =>
        if strict && from_.any (fun x => s.poisoned (s.keyOf e.ctx) (lineNo x.2.1)) then e.fault .poison 0
        else
          let r := f e.agent gr (s.placesOf e.agent) (s.walkSpans e.agent xs)
          .go (e.nearBegin r.1 ll r.2.1 r.2.2)

/-- An address or byte count that is not a multiple of 8. -/
def off8 (x : Word) : Bool := bits x 0 3 != 0

/-- A byte count outside its limits (R273). -/
def badCount (x : Word) : Bool := off8 x || decide (x.toNat < 8) || decide (2 ^ 40 < x.toNat)

/-- `MFILL` (R273). -/
def execMfill (g : Guard) (ll : Ll) (d b : SReg) (s : State) : Host.Outcome State Fault Refusal :=
  let span (gr : Group) : Span := { use := .write, va := gr.sreg d.toNat, n := (gr.sreg b.toNat).toNat }
  .next (s.near g ll (fun gr => off8 (gr.sreg d.toNat) || badCount (gr.sreg b.toNat)) (fun gr => [span gr]) false
    (fun _ gr at_ s =>
      let into := at_ .write (unitsOf 8 (span gr).va (span gr).n) 8
      (s, { into := into, vals := into.map (fun _ => (gr.sreg (b.toNat + 1)).toNat), src := [] }, [])))

/-- Two ranges of virtual addresses overlap. -/
def overlap (a b : Word) (n : Nat) : Bool := decide (a.toNat < b.toNat + n) && decide (b.toNat < a.toNat + n)

/-- `MCOPY` (R273, R274). -/
def execMcopy (g : Guard) (ll : Ll) (d a b : SReg) (s : State) : Host.Outcome State Fault Refusal :=
  let dst (gr : Group) : Span := { use := .write, va := gr.sreg d.toNat, n := (gr.sreg b.toNat).toNat }
  let src (gr : Group) : Span := { use := .read, va := gr.sreg a.toNat, n := (gr.sreg b.toNat).toNat }
  .next (s.near g ll
    (fun gr => off8 (gr.sreg d.toNat) || off8 (gr.sreg a.toNat) || badCount (gr.sreg b.toNat)
      || overlap (gr.sreg d.toNat) (gr.sreg a.toNat) (gr.sreg b.toNat).toNat)
    (fun gr => [dst gr, src gr]) false
    (fun _ gr at_ s =>
      (s, { into := at_ .write (unitsOf 8 (dst gr).va (dst gr).n) 8, vals := []
            src := at_ .read (unitsOf 8 (src gr).va (src gr).n) 8 }, [])))

/-- The offset of the first byte in which two lists of 8-byte words differ. -/
def firstDiff (k : Nat) : List (Nat × Nat) → Option Nat
  | [] => none
  | (x, y) :: rest =>
    if x = y then firstDiff (k + 8) rest
    else ((List.range 8).find? (fun j => x / 256 ^ j % 256 != y / 256 ^ j % 256)).map (fun j => k + j)

/-- `MCMP` (R273, R274). -/
def execMcmp (g : Guard) (ll : Ll) (d a b : SReg) (s : State) : Host.Outcome State Fault Refusal :=
  let x (gr : Group) : Span := { use := .read, va := gr.sreg a.toNat, n := (gr.sreg (b.toNat + 1)).toNat }
  let y (gr : Group) : Span := { use := .read, va := gr.sreg b.toNat, n := (gr.sreg (b.toNat + 1)).toNat }
  .next (s.near g ll
    (fun gr => off8 (gr.sreg a.toNat) || off8 (gr.sreg b.toNat) || badCount (gr.sreg (b.toNat + 1)))
    (fun gr => [x gr, y gr]) true
    (fun a gr at_ s =>
      let p := State.nearLoads a s (at_ .read (unitsOf 8 (x gr).va (x gr).n) 8)
      let q := State.nearLoads a p.2 (at_ .read (unitsOf 8 (y gr).va (y gr).n) 8)
      (q.2, { into := [], vals := [], src := [] }, [(d.toNat, match firstDiff 0 (p.1.zip q.1) with
        | some k => BitVec.ofNat 64 k
        | none => BitVec.allOnes 64)])))

/-- `MRED` (R273, R274). -/
def execMred (g : Guard) (ll : Ll) (op : RedOp) (ty : Ty) (d a b : SReg) (s : State) :
    Host.Outcome State Fault Refusal :=
  let eb := ty.width / 8
  let dst (gr : Group) : Span := { use := .write, va := gr.sreg d.toNat, n := eb }
  let src (gr : Group) : Span := { use := .read, va := gr.sreg a.toNat, n := eb * (gr.sreg b.toNat).toNat }
  .next (s.near g ll
    (fun gr => decide ((gr.sreg d.toNat).toNat % eb ≠ 0) || decide ((gr.sreg a.toNat).toNat % eb ≠ 0)
      || gr.sreg b.toNat == 0 || decide (2 ^ 32 ≤ (gr.sreg b.toNat).toNat))
    (fun gr => [dst gr, src gr]) true
    (fun a gr at_ s =>
      let r := State.nearLoads a s (at_ .read (unitsOf eb (src gr).va (src gr).n) eb)
      (r.2, { into := at_ .write [(dst gr).va] eb, vals := [(redElems op ty r.1).1], src := [] }, [])))

end Sys2Proof.Machine
end

