-- ==== Sys2Proof/Machine/Lists.lean ====
section
/-!
DEFINITION. Work lists and the termination detector (R42, R290-R294).
-/
namespace Sys2Proof.Machine

/-- A list header (R290). -/
structure WList where
  slots : Nat
  iszc : Nat
  set : Nat
  under : Bool
  cfgd : Bool
  puts : Nat
  pub : Nat
  gets : Nat
  held : Nat
  items : Word
  deriving DecidableEq, Repr

/-- The fields of a header's 64 bytes. -/
def wlistOf (x : Nat) : WList :=
  { slots := field x 0 32, iszc := field x 32 2, set := field x 40 6, under := field x 62 1 == 1, cfgd := field x 63 1 == 1,
    puts := field x 64 64, pub := field x 128 64, gets := field x 192 64, held := field x 256 32,
    items := BitVec.ofNat 64 (field x 320 64) }

/-- The 64 bytes of a header. -/
def WList.image (l : WList) : Nat :=
  joinBits 64 [l.slots % 2 ^ 32 + l.iszc * 2 ^ 32 + l.set * 2 ^ 40 + (if l.under then 2 ^ 62 else 0)
      + (if l.cfgd then 2 ^ 63 else 0), l.puts, l.pub, l.gets, l.held % 2 ^ 32, l.items.toNat, 0, 0]

/-- The address of item n (R290). -/
def WList.itemVa (l : WList) (n : Nat) : Word := l.items + BitVec.ofNat 64 (n % Nat.max 1 l.slots * 8 * 2 ^ l.iszc)

/-- Items that a list contributes to its set's count (R290). -/
def WList.count (l : WList) : Nat := l.puts - l.gets + l.held

/-! ### The termination detector (R42, R294) -/

/-- Quiescence of a set is reported. -/
def Ctx.quiet (c : Ctx) (set_ : Nat) : Bool := (find set_ c.busy).isNone && get 0 set_ c.counts == 0

/-- The lanes of a context's groups that wait for a set are released with a value (R294). -/
def State.releaseQuiet (s : State) (c set_ : Nat) (v : Word) : State :=
  { s with teams := s.teams.map (fun t =>
      if t.2.ctx == c && t.2.core.isSome then
        (t.1, { t.2 with groups := t.2.groups.map (fun g =>
          let w := g.2.wait.filter (fun x => match x.2 with
            | .quiet k _ => k == set_
            | .barrier _ _ | .shelf _ _ | .word _ _ _ _ _ | .order | .lines _ _ _ | .owned _ | .sleep _ => false)
          let m : Lanes := w.foldl (fun m x => m ||| laneBit x.1) 0
          let gr := w.foldl (fun gr x => match x.2 with
            | .quiet _ d => gr.setS d.toNat v
            | .barrier _ _ | .shelf _ _ | .word _ _ _ _ _ | .order | .lines _ _ _ | .owned _ | .sleep _ => gr) g.2
          if m == 0 then g else (g.1, gr.release m)) })
      else t) }

/-- The detector's counts of a set after one list has changed from one header to another; who waits for the set is
released when items are published, or when quiescence is reported (R42, R294). -/
def State.detect (s : State) (c : Nat) (old new : WList) (append : Bool) : State :=
  let s := s.onCtx c (fun x =>
    let sub := set 0 old.set (get 0 old.set x.counts - (if old.cfgd then old.count else 0)) x.counts
    let subA := set 0 old.set (get 0 old.set x.avail - (if old.cfgd then old.pub - old.gets else 0)) x.avail
    let n := get 0 new.set sub + new.count
    { x with counts := set 0 new.set n sub
             avail := set 0 new.set (get 0 new.set subA + (new.pub - new.gets)) subA
             busy := if n = 0 then del new.set x.busy else if append then put new.set () x.busy else x.busy })
  let s := if old.pub < new.pub ∧ old.set = new.set then s.releaseQuiet c new.set 0 else s
  if (s.ctx c).quiet new.set then s.releaseQuiet c new.set 1 else s

/-! ### Access to headers -/

/-- The header at an address, for a lane's or unit's atomic: its place and fields, or what it faults on; one that an operation
owns is judged when that has written it (R290, R292, R402). -/
def State.listAt (s : State) (a : Agent) (va : Word) : Except (Kind × Nat) (Spot × WList) :=
  if !canonicalVa va then .error (.unmapped, 1)
  else if bits va 0 6 ≠ 0 then .error (.illegalOperand, 0)
  else
    match s.seek a .write va with
    | .error f => .error (if s.classBad a .write ordered va then (.illegalOperand, 0) else f)
    | .ok p =>
      let l := wlistOf (s.readKey (s.keyOf a.ctx) p.addr 64).1
      if !ordered p.cls then .error (.illegalOperand, 0)
      else if p.held || s.owned (lineNo p.addr) then .ok (p, l)
      else if !l.cfgd then .error (.illegalOperand, 0)
      else if s.poisoned (s.keyOf a.ctx) (lineNo p.addr) then .error (.poison, 0)
      else .ok (p, l)

/-- One atomic on a whole header (R290). -/
def State.listRmw (s : State) (a : Agent) (va : Word) (f : WList → WList) : State :=
  match s.seek a .write va with
  | .error _ => s
  | .ok p => ((s.walked a va p).rmw a p.cls p.addr 64 (fun x => (f (wlistOf x)).image)).2

/-- The words of an item. -/
def WList.itemWords (l : WList) (n : Nat) : List Word :=
  (List.range (2 ^ l.iszc)).map (fun k => l.itemVa n + BitVec.ofNat 64 (8 * k))

/-- What an access to an item faults on (R290). -/
def State.itemFault (s : State) (a : Agent) (use : Use) (l : WList) (n : Nat) : Option (Kind × Nat) :=
  worstKind ((l.itemWords n).filterMap (fun va =>
    if s.classBad a use ordered va then some (.illegalOperand, 0) else s.probe a use (use == .read) va))

/-- Items written from a position of a list on, the first of which the list has just reserved; then they are
published (R292). -/
def State.listAppend (s : State) (a : Agent) (va : Word) (l : WList) (its : List (List Nat)) : State :=
  let n := its.length
  let s := s.listRmw a va (fun x => { x with puts := x.puts + n })
  let s := its.zipIdx.foldl (fun (s : State) (it : List Nat × Nat) =>
    ((l.itemWords (l.puts + it.2)).zip it.1).foldl (fun s w => s.gstore a w.1 8 w.2) s) s
  let s := s.listRmw a va (fun x => { x with pub := x.puts })
  if n = 0 then s else s.detect a.ctx l { l with puts := l.puts + n, pub := l.puts + n } true

/-- Room of a list (R292). -/
def WList.room (l : WList) : Nat := l.slots - (l.puts - l.gets)

/-! ### The instructions -/

/-- The place of a lane among the lower lanes of a mask that name the same list (R292). -/
def listPlace (m : Lanes) (va : Nat → Word) (i : Nat) : Nat :=
  ((lanesOf m).filter (fun j => decide (j < i) && va j == va i)).length

/-- What a lane of `WLAPP` or `WLTAKE` faults on (R292). -/
def State.wlFault (s : State) (a : Agent) (take : Bool) (z : Nat) (m : Lanes) (va : Nat → Word) (i : Nat) :
    Option (Kind × Nat) :=
  match s.listAt a (va i) with
  | .error f => some f
  | .ok (h, l) =>
    let p := listPlace m va i
    if s.owned (lineNo h.addr) then none
    else if l.iszc ≠ z then some (.illegalOperand, 0)
    else if take then (if p < l.pub - l.gets then s.itemFault a .read l (l.gets + p) else none)
    else if p < l.room then s.itemFault a .write l (l.puts + p) else none

/-- The lines that lanes of a work-list instruction touch and that another operation owns. -/
def State.wlOwned (s : State) (a : Agent) (use : Use) (m : Lanes) (va : Nat → Word) (item : WList → Nat → Nat) : List Nat :=
  (lanesOf m).flatMap (fun i => match s.listAt a (va i) with
    | .error _ => []
    | .ok (p, l) =>
      if p.held || s.owned (lineNo p.addr) then [lineNo p.addr]
      else s.ownedAmong a use (l.itemWords (item l (listPlace m va i))))

/-- The header of a list that an instruction gives a unit, at issue: its fault, a wait for its line, or what follows. With no
active lane its class and form alone are checked (R185, R290; entry 139). -/
def Env.withList (e : Env) (s : State) (va : Word) (f : WList → Res) : Res :=
  match s.listAt e.agent va with
  | .error x => if e.act = 0 ∧ x.1 ≠ .illegalOperand then .go s else e.fault x.1 x.2
  | .ok (p, l) =>
    if p.held || s.owned (lineNo p.addr) then (if e.act = 0 then .go s else .park (.owned [lineNo p.addr])) else f l

/-- The lanes of a mask that name a list. -/
def namers (m : Lanes) (va : Nat → Word) (k : Word) : List Nat := (lanesOf m).filter (fun i => va i == k)

/-- `WLAPP` (R292). -/
def execWlapp (g : Guard) (ll : Ll) (z : BitVec 2) (po : PReg) (d : Option VReg) (a b : Reg) (s : State) :
    Host.Outcome State Fault Refusal :=
  let k := 2 ^ z.toNat
  .next (s.run { g := g, top := maxOf [topD d, topR a 1, topR b k], ll := some ll, mem := true, acc := true } fun e s =>
    let gr := e.group s
    let act := gr.real e.act
    let va (i : Nat) : Word := gr.reg a i
    checked (laneFaults act (fun i => s.wlFault e.agent false z.toNat act va i))
        (s.wlOwned e.agent .write act va (fun l p => l.puts + p))
       (let r := (distinct ((lanesOf act).map va)).foldl (fun (p : SMap Nat × State) key =>
          match p.2.listAt e.agent key with
          | .error _ => p
          | .ok (_, l) =>
            let got := (namers act va key).take l.room
            (got.zipIdx.foldl (fun (w : SMap Nat) (x : Nat × Nat) => put x.1 (l.puts + x.2) w) p.1,
             p.2.listAppend e.agent key l (got.map (fun i => (List.range k).map (fun j => (gr.runReg b j i).toNat)))))
          (([] : SMap Nat), s)
        .go (e.begin r.2 ll { Pend.zero with
          vw := match d with
            | some v => vWrites v.toNat e.act (fun i => match find i r.1 with
              | some n => BitVec.ofNat 64 n
              | none => BitVec.allOnes 64)
            | none => []
          pw := pWrites po.toNat e.act (fun i => (find i r.1).isSome) })))

/-- The items that lanes take from a list: destination writes (R292). -/
def State.takeItems (s : State) (a : Agent) (l : WList) (d : Nat) (got : List Nat) : SMap Word × State :=
  got.zipIdx.foldl (fun (p : SMap Word × State) (x : Nat × Nat) =>
    ((l.itemWords (l.gets + x.2)).zipIdx.foldl (fun (p : SMap Word × State) (w : Word × Nat) =>
      let r := p.2.gload a w.1 8
      (put ((d + w.2) * 64 + x.1) (BitVec.ofNat 64 r.1) p.1, r.2)) p)) (([] : SMap Word), s)

/-- `WLTAKE` (R292). -/
def execWltake (g : Guard) (ll : Ll) (z : BitVec 2) (po : PReg) (d : VReg) (a : Reg) (s : State) :
    Host.Outcome State Fault Refusal :=
  let k := 2 ^ z.toNat
  .next (s.run { g := g, top := maxOf [topV d k, topR a 1], ll := some ll, mem := true, acc := true } fun e s =>
    let gr := e.group s
    let act := gr.real e.act
    let va (i : Nat) : Word := gr.reg a i
    checked (laneFaults act (fun i => s.wlFault e.agent true z.toNat act va i))
        (s.wlOwned e.agent .read act va (fun l p => l.gets + p))
       (let r := (distinct ((lanesOf act).map va)).foldl (fun (p : Lanes × SMap Word × State) key =>
          match p.2.2.listAt e.agent key with
          | .error _ => p
          | .ok (_, l) =>
            let got := (namers act va key).take (l.pub - l.gets)
            let s := p.2.2.listRmw e.agent key (fun x => { x with gets := x.gets + got.length, held := x.held + got.length })
            let q := s.takeItems e.agent l d.toNat got
            let new := { l with gets := l.gets + got.length, held := l.held + got.length }
            (got.foldl (fun m i => m ||| laneBit i) p.1, q.1.foldl (fun w x => put x.1 x.2 w) p.2.1,
             q.2.detect e.ctx l new false))
          (0, ([] : SMap Word), s)
        .go (e.begin r.2.2 ll { Pend.zero with
          vw := r.2.1
          pw := pWrites po.toNat e.act (fun i => r.1.getLsbD i) })))

/-- A header after a release of items (R293). -/
def WList.done (l : WList) (n : Nat) : WList :=
  { l with held := l.held - Nat.min n l.held, under := l.under || decide (l.held < n) }

/-- `WLDONE` (R293). -/
def execWldone (g : Guard) (a b : Reg) (s : State) : Host.Outcome State Fault Refusal :=
  .next (s.run { g := g, top := maxOf [topR a 1, topR b 1], mem := true, acc := true } fun e s =>
    let gr := e.group s
    let va (i : Nat) : Word := gr.reg a i
    let act := gr.real e.act
    checked (laneFaults act (fun i => match s.listAt e.agent (va i) with
        | .error f => some f
        | .ok _ => none)) (s.ownedHome e.agent .write ((lanesOf act).map va))
      (.go ((lanesOf act).foldl (fun s i =>
        let n := (gr.reg b i).toNat
        if n = 0 then s
        else
          match s.listAt e.agent (va i) with
          | .error _ => s
          | .ok (_, l) => (s.listRmw e.agent (va i) (fun x => x.done n)).detect e.ctx l (l.done n) false) s)))

/-- `WLCFG` (R291). -/
def execWlcfg (g : Guard) (a b : SReg) (s : State) : Host.Outcome State Fault Refusal :=
  .next (s.run { g := g, mem := true, acc := true, once := true } fun e s =>
    let gr := e.group s
    let va := gr.sreg a.toNat
    let x := gr.sreg b.toNat
    let items := gr.sreg (b.toNat + 1)
    let n := bits x 0 32
    if bits va 0 6 ≠ 0 ∨ n = 0 ∨ 16777216 < n ∨ bits x 34 6 ≠ 0 ∨ bits x 46 18 ≠ 0 ∨ bits items 0 6 ≠ 0 then
      e.fault .illegalOperand 0
    else
      if s.classBad e.agent .write ordered va then e.fault .illegalOperand 0
      else if e.act = 0 then .go s
      else
        match s.seek e.agent .write va with
        | .error f => e.fault f.1 f.2
        | .ok p =>
          if p.held || s.owned (lineNo p.addr) then .park (.owned [lineNo p.addr])
          else
            let old := wlistOf (s.readKey (s.keyOf e.ctx) p.addr 64).1
            let new : WList := { slots := n, iszc := bits x 32 2, set := bits x 40 6, under := false, cfgd := true, puts := 0,
                                 pub := 0, gets := 0, held := 0, items := items }
            .go (((s.walked e.agent va p).store e.agent p.cls p.addr 64 new.image).detect e.ctx old new false))

/-- The set that `TDWAIT` names (R294). -/
def Group.tdSet (g : Group) (x : TdSrc) : Nat :=
  match x with
  | .imm n => n.toNat
  | .reg a => bits (g.sreg a.toNat) 0 6

/-- `TDWAIT` (R294). -/
def execTdwait (g : Guard) (d : SReg) (x : TdSrc) (s : State) : Host.Outcome State Fault Refusal :=
  .next (s.run { g := g, mem := true, once := true } fun e s =>
    let k := (e.group s).tdSet x
    let c := s.ctx e.ctx
    if e.act = 0 then .go s
    else if c.quiet k then .go (e.onGroup s (fun gr => gr.setS d.toNat 1))
    else if 0 < get 0 k c.avail then .go (e.onGroup s (fun gr => gr.setS d.toNat 0))
    else .ok (e.block s e.act 7 (.quiet k d)) e.act)

end Sys2Proof.Machine
end

