-- ==== Sys2Proof/Machine/Place.lean ====
section
/-!
DEFINITION. Room on a core and in a team, and the start of a group (R25-R27, R46, R171, R300, R325).
-/
namespace Sys2Proof.Machine

/-- The column-rows of a group of a declared count and width (R47, R325). -/
def groupRows (vcnt width : Nat) : Nat := (vcnt + 7) / 8 * 8 * (width / 8)

/-- The teams on a core. -/
def State.teamsOn (s : State) (c : Nat) : List (Nat × Team) := s.teams.filter (fun e => e.2.core == some c)

/-- The groups on a core. -/
def State.groupsOn (s : State) (c : Nat) : List Group := (s.teamsOn c).flatMap (fun e => e.2.groups.map (·.2))

/-- The column-rows in use on a core (R325). -/
def State.rowsOn (s : State) (c : Nat) : Nat := (s.groupsOn c).foldl (fun n g => n + g.rows) 0

/-- The rows that groups hold in one column of a core. -/
def columnLoad (gs : List Group) (col : Nat) : Nat :=
  gs.foldl (fun n g => if g.col ≤ col ∧ col < g.col + Nat.min 4 (g.width / 8) then n + g.rows / Nat.min 4 (g.width / 8) else n) 0

/-- The first column of a new group: the least loaded that its width allows (R27 leaves the choice open). -/
def pickColumn (gs : List Group) (width : Nat) : Nat :=
  if width = 8 then
    (List.range 4).foldl (fun b c => if columnLoad gs c < columnLoad gs b then c else b) 0
  else if width = 16 then (if columnLoad gs 2 < columnLoad gs 0 then 2 else 0)
  else 0

/-- Resident groups of a core (R25). -/
def State.groupCount (s : State) (c : Nat) : Nat := (s.groupsOn c).length

/-- Lanes of a team's resident groups. -/
def Team.lanes (t : Team) : Nat := t.groups.foldl (fun n g => n + g.2.width) 0

/-- The number of an extra group of a team, when a number, the team's lanes and the core have room for it (R26). -/
def State.extraRoom (s : State) (team width rows : Nat) : Option Nat :=
  let t := s.team team
  match t.core with
  | none => none
  | some c =>
    if t.lanes + width ≤ 1024 ∧ s.groupCount c < 64 ∧ s.rowsOn c + rows ≤ Config.rows then
      (List.range 16).find? (fun n => (find n t.groups).isNone)
    else none

/-- The team can never receive an extra group of a width: it declares 16 groups, or too many lanes (R26). -/
def Header.noExtra (h : Header) (width : Nat) : Bool :=
  let n := h.roles.foldl (fun n r => n + r.ngrp) 0
  decide (16 ≤ n) || decide (1024 < n * (8 * 2 ^ h.wcode) + width)

/-- A group at its start: registers as R46 gives them, the lanes of a mask ready at a header. -/
def startGroup (sort : Sort_) (role width n col rows : Nat) (s1 s2 entry : Word) (m : Lanes) : Group :=
  { Group.zero with
    role := role, width := width, n := n, sort := sort, col := col, rows := rows, s2 := s2
    s := set 0 1 s1 []
    pc := (lanesOf m).foldl (fun p i => set 0 i entry p) []
    st := (lanesOf m).foldl (fun p i => set 0 i 1 p) [] }

/-- A header's group width. -/
def Header.width (h : Header) : Nat := 8 * 2 ^ h.wcode

/-- `MODE.DMR` of the groups of a team's launch, from the launch record (R58). -/
def State.launchDmr (s : State) (team : Nat) : Bool :=
  match find (s.team team).grid s.grids with
  | some g => g.record.getLsbD 234
  | none => false

/-- The kernel header of a team's grid. -/
def State.headerOf (s : State) (team : Nat) : Option Header := (find (s.team team).grid s.grids).map (·.hdr)

end Sys2Proof.Machine
end

