-- ==== Sys2Proof/Machine/Parcel.lean ====
section
/-!
DEFINITION. Parcel instructions and the sweep engines (R165-R182, R295-R297).
-/
namespace Sys2Proof.Machine

/-! ### Plat headers and words -/

/-- `E0` of a record. -/
def parcels (r : BitVec 768) : Nat := recExt r 0

/-- Words of the plat header that a group reads at issue, at the home slice (R172), and what is done with them. -/
def Env.withPlat (e : Env) (s : State) (r : BitVec 768) (n : Nat) (f : Option (List Nat) → State → Res) : Res :=
  e.withRead s (State.loadWords e.agent s (recPlat r) n)
    (s.ownedHome e.agent .read ((List.range n).map (fun k => recPlat r + BitVec.ofNat 64 (8 * k)))) f

/-- The row that a context word puts its parcel in: awake 0, next 1, timer 2 (R166). -/
def cwRow (w : Nat) : Option Nat :=
  if cwCont w = 0xFFFF then none
  else
    match cwKind w with
    | 0 => some 0
    | 1 => some 1
    | 4 => some 2
    | _ => none

/-- A word is retired: `CONT` 0xFFFF, `WKIND` 0, `WARG` 0 (R166). -/
def cwIsRetired (w : Nat) : Bool := cwCont w == 0xFFFF && cwKind w == 0 && cwArg w == 0

/-- The conditions of R174 on a kind and its argument: a kind 4 argument is checked by the caller. Bits [39:3] of an argument of
kind 2, which R166 calls zero, are not looked at (entry 147). -/
def kindOk (r : BitVec 768) (i kind arg : Nat) : Bool :=
  match kind with
  | 0 | 1 | 4 | 5 => true
  | 2 => decide (2 ≤ recPnreg r) && decide (arg % 8 ≤ 5)
  | 3 => arg != i && decide (arg < parcels r)
  | _ => false

/-- `ValidNew` of R297. -/
def validNew (r : BitVec 768) (nc i w : Nat) : Bool :=
  cwIsRetired w || (decide (cwCont w < nc) && decide (cwKind w ≤ 5) && cwNreg w == recPnreg r && kindOk r i (cwKind w) (cwArg w))

/-! ### The lane instructions (R296, R297) -/

/-- The record of a parcel tensor that a handle names, or the fault. -/
def State.parcelHandle (s : State) (e : Env) (h : Word) (perm : Nat × Nat) : Except Res (BitVec 768) :=
  match s.handle e h 1 (some perm) with
  | .error x => .error x
  | .ok r => if recParcel r then .ok r else .error (e.fault .illegalOperand 0)

/-- An index at or beyond `E0`: a Bounds fault, or nothing to do (R80). -/
def beyond (r : BitVec 768) (i : Nat) : Option (Option (Kind × Nat)) :=
  if i < parcels r then none else some (if recFbnd r then some (.bounds, 0) else none)

/-- What an element out of bounds reads as (R80). -/
def fillWord (r : BitVec 768) : Nat := recFill r % 2 ^ recEs r

/-- What an instruction does in one lane with the parcel that the lane names, unless its index lies beyond `E0` (R80). -/
def perParcel (r : BitVec 768) (i : Nat) (f : Except Stop (Nat × State)) (s : State) : Except Stop (Nat × State) :=
  match beyond r i with
  | some (some k) => .error (.fault k 0)
  | some none => .ok (fillWord r, s)
  | none => f

/-- The lanes of an instruction on parcels, in ascending order: the values that they answer. -/
def parcelRun (f : State → Nat → Except Stop (Nat × State)) : List Nat → State → Except (Nat × Stop) (SMap Word × State)
  | [], s => .ok ([], s)
  | i :: is, s =>
    match f s i with
    | .error x => .error (i, x)
    | .ok q =>
      match parcelRun f is q.2 with
      | .error x => .error x
      | .ok p => .ok (put i (BitVec.ofNat 64 q.1) p.1, p.2)

/-- An instruction on the parcels of the lanes of a mask: what any lane would meet on its own is met before any lane has an
effect, and so is what a lane meets after the lower ones; else the lanes take effect in ascending order (R184, R402). -/
def State.parcelLanes (s : State) (m : Lanes) (f : State → Nat → Except Stop (Nat × State)) (next : SMap Word → State → Res) :
    Res :=
  let met (i : Nat) : Option Stop := match f s i with
    | .error x => some x
    | .ok _ => none
  checked
    (laneFaults m (fun i => match met i with
      | some (.fault k _) => some k
      | some (.fill _ _) | some (.wait _) | none => none))
    ((lanesOf m).filterMap (fun i => match met i with
      | some (.wait l) => some l
      | some (.fault _ _) | some (.fill _ _) | none => none))
    (match parcelRun f (lanesOf m) s with
      | .ok q => next q.1 q.2
      | .error (i, .fault k _) => .trap { kind := k.1, detail := k.2, lanes := laneBit i }
      | .error (_, .wait l) => .park (.owned [l])
      | .error (_, .fill _ _) => .again)

/-- A word after `PWAKE` (R175). -/
def wokenWord (w : Nat) : Nat :=
  match cwKind w with
  | 2 | 3 | 5 => cwMake (cwCont w) 0 (cwNreg w) 0
  | 6 => w + 2 ^ 16
  | _ => w

/-- `PWAKE` of one parcel: the old word (R175, R111). -/
def State.pwake (s : State) (a : Agent) (r : BitVec 768) (i : Nat) : Except Stop (Nat × State) := do
  let (w, s) ← s.atomAt a false (parcelVa r i) 8 wokenWord
  if cwKind w = 2 ∨ cwKind w = 3 ∨ cwKind w = 5 then
    let s ← (s.dropParcel a.ctx r i).rowBit a false r 0 (cwCont w) i true
    .ok (w, s)
  else .ok (w, s)

/-- Storage index of a lane, within what can be an index. -/
def laneIndex (x : Word) : Nat := x.toNat

/-- The destination of a parcel instruction: what the lanes answered, 0 in a helper lane (R296). -/
def parcelWrites (d : Option VReg) (m : Lanes) (ws : SMap Word) : SMap Word :=
  match d with
  | some v => vWrites v.toNat m (fun i => get 0 i ws)
  | none => []

/-- `PWAKE` (R296). -/
def execPwake (g : Guard) (d : Option VReg) (h : SReg) (b : Reg) (s : State) : Host.Outcome State Fault Refusal :=
  .next (s.run { g := g, top := maxOf [topD d, topR b 1], mem := true, acc := true } fun e s =>
    let gr := e.group s
    match s.parcelHandle e (gr.sreg h.toNat) (25, 9) with
    | .error x => x
    | .ok r =>
      let ix (i : Nat) : Nat := laneIndex (gr.reg b i)
      s.parcelLanes (gr.real e.act) (fun s i => perParcel r (ix i) (s.pwake e.agent r (ix i)) s) fun ws s =>
        .go (e.onGroup s (fun gr => match d with
          | some v => gr.setVs v.toNat e.act (fun i => get 0 i ws)
          | none => gr)))

/-- A parcel taken out of the row or the table that its word puts it in (R297). -/
def State.parcelOut (s : State) (a : Agent) (unit : Bool) (r : BitVec 768) (i w : Nat) : Except Stop State :=
  match cwRow w with
  | some k => s.rowBit a unit r k (cwCont w) i false
  | none => .ok (if cwKind w = 2 ∨ cwKind w = 3 then s.dropParcel a.ctx r i else s)

/-- A parcel put into the row or the table that its word puts it in (R166, R174). -/
def State.parcelIn (s : State) (a : Agent) (unit : Bool) (r : BitVec 768) (i w : Nat) : Except Stop State :=
  match cwRow w with
  | some k => s.rowBit a unit r k (cwCont w) i true
  | none => if cwKind w = 2 ∨ cwKind w = 3 then s.registerParcel a unit r i w else .ok s

/-- `PCTX` of one parcel: the old word (R297). -/
def State.pctx (s : State) (a : Agent) (r : BitVec 768) (i new : Nat) : Except Stop (Nat × State) := do
  let va := parcelVa r i
  let (old, s1) ← s.atomAt a false va 8 id
  if cwKind old = 6 ∨ cwKind old = 7 then .ok (old, s1)
  else
    let (h, _) ← s.loadAt a false (recPlat r) 8
    if !validNew r (field h 0 16) i new then .error (.fault (.illegalOperand, 0) va)
    else
      let s ← s.parcelOut a false r i old
      let (_, s) ← s.atomAt a false va 8 (fun _ => new)
      let s ← s.parcelIn a false r i new
      .ok (old, s)

/-- `PCTX` (R297). -/
def execPctx (g : Guard) (ll : Ll) (d : Option VReg) (h : SReg) (b : Reg) (s : State) :
    Host.Outcome State Fault Refusal :=
  .next (s.run { g := g, top := maxOf [topD d, topR b 2], ll := some ll, mem := true, reqs := true, acc := true } fun e s =>
    let gr := e.group s
    let hd := gr.sreg h.toNat
    match s.parcelHandle e hd (25, 9) with
    | .error x => x
    | .ok r =>
      let ix (i : Nat) : Nat := laneIndex (gr.runReg b 0 i)
      s.parcelLanes (gr.real e.act)
        (fun s i => perParcel r (ix i) (s.pctx e.agent r (ix i) (gr.runReg b 1 i).toNat) s) fun ws s =>
        .go (e.begin s ll { Pend.access with vw := parcelWrites d e.act ws, uses := some hd }))

/-- `PQRY.CTX` (R297). -/
def execPqryCtx (g : Guard) (ll : Ll) (d : VReg) (h : SReg) (b : Reg) (s : State) :
    Host.Outcome State Fault Refusal :=
  .next (s.run { g := g, top := maxOf [topV d 1, topR b 1], ll := some ll, mem := true, reqs := true, acc := true } fun e s =>
    let gr := e.group s
    let hd := gr.sreg h.toNat
    match s.parcelHandle e hd (24, 8) with
    | .error x => x
    | .ok r =>
      let ix (i : Nat) : Nat := laneIndex (gr.reg b i)
      s.parcelLanes (gr.real e.act)
        (fun s i => perParcel r (ix i) (s.loadAt e.agent false (parcelVa r (ix i)) 8) s) fun ws s =>
        .go (e.begin s ll { Pend.access with vw := parcelWrites (some d) e.act ws, uses := some hd }))

/-- `PQRY.SWEEP` (R297). -/
def execPqrySweep (g : Guard) (ll : Ll) (d h : SReg) (s : State) : Host.Outcome State Fault Refusal :=
  .next (s.run { g := g, ll := some ll, mem := true, reqs := true, acc := true, once := true } fun e s =>
    let hd := (e.group s).sreg h.toNat
    match s.parcelHandle e hd (24, 8) with
    | .error x => x
    | .ok r =>
      e.withPlat s r 2 fun ws s =>
        let w (k : Nat) : Word := BitVec.ofNat 64 ((ws.getD []).getD k 0)
        .go (e.begin s ll { Pend.access with sw := [(d.toNat, w 0), (d.toNat + 1, w 1)], uses := some hd }))

/-- `PWAIT` (R296, R173). -/
def execPwait (g : Guard) (kind : BitVec 3) (a b : Reg) (s : State) : Host.Outcome State Fault Refusal :=
  .next (s.run { g := g, top := maxOf [topR a 1, topR b 1], wait := exitWaits } fun e s =>
    let gr := e.group s
    match gr.sort with
    | .normal | .frag _ _ _ _ => e.fault .illegalOperand 0
    | .sweep _ _ _ _ _ =>
      e.exitLanes (e.onGroup s (fun gr => (lanesOf e.act).foldl (fun g i =>
        { g with carry := put i (bits (gr.reg a i) 0 16, kind.toNat, bits (gr.reg b i) 0 40) g.carry }) gr)))

/-! ### `PSWEEP` and `PSTOP` (R295, R180) -/

/-- A plat header that R167 refuses: a reserved bit, or `NC` of 0. -/
def platBad (ws : List Nat) : Bool :=
  let w := ws.getD 0 0
  decide (w / 2 ^ 19 ≠ 0) || field w 0 16 == 0 || (ws.drop 2).any (fun x => x != 0)

/-- The teams of a gang still resident, by rank. -/
def State.gangTeams (s : State) (team : Nat) : List Nat :=
  let me := s.team team
  ((List.range me.gsize).filterMap (fun r => s.peer team r))

/-- The engine of a rank at the start of a sweep. -/
def Engine.start (team lo pass : Nat) (build : Bool) : Engine :=
  { team := team, phase := if build then .build else .claim, cc := 0, cursor := lo, claimed := (0, 0), forming := [],
    entry := 0, formed := [], cleared := false, admitted := 0, wb := [], places := [], next := 0, pass := pass, op := none,
    park := none, held := false, abandoned := false }

/-- The first storage index of an engine's range (R170). -/
def rangeStart (r : BitVec 768) (k n : Nat) : Nat := k * parcels r / Nat.max 1 n

/-- The sweep engine of a team's core, of which there is one, runs a sweep (R11). -/
def State.sweeping (s : State) (team : Nat) : Bool :=
  s.sweeps.any (fun w => w.2.engines.any (fun e =>
    e.2.team == team || ((s.team e.2.team).core.isSome && (s.team e.2.team).core == (s.team team).core)))

/-- Check 2 of `PSWEEP`, but for the plat header (R295). -/
def psweepBad (r : BitVec 768) (hd : Option Header) (md : SweepMode) (role : Nat) (table area n : Word) : Bool :=
  let roles := match hd with
    | some h => h.roles
    | none => []
  let vcnt := match roles[role]? with
    | some x => x.vcnt
    | none => 0
  let nBad := match md with
    | .n => n == 0 || decide (65535 < n.toNat)
    | .one | .quiet => false
  !recParcel r || decide (roles.length ≤ role) || decide (vcnt < recPnreg r + 2) || bits table 0 3 != 0
    || bits area 0 8 != 0 || nBad

/-- Check 3 of `PSWEEP`: its detail (R295). -/
def State.psweepBusy (s : State) (team : Nat) (hd : Option Header) : Option Nat :=
  if (s.gangTeams team).any (fun t => s.sweeping t) then some 2
  else
    match hd with
    | none => none
    | some h => if h.noExtra 32 then some 4 else none

/-- A sweep begins on the engines of the gang (R170). -/
def State.psweepStart (s : State) (e : Env) (ll : Ll) (r : BitVec 768) (nc pass : Nat) (md : SweepMode) (build : Bool)
    (role : Nat) (d : SReg) (hd table area n : Word) : State :=
  let gr := e.group s
  let b := gr.begin ll e.act { Pend.zero with ready := false, sw := [(d.toNat, 0)] }
  let s := e.onGroup s (fun _ => b.1)
  let ts := s.gangTeams e.team
  let w : Sweep :=
    { grid := (s.team e.team).grid, team := e.team, grp := e.grp, ctx := e.ctx, pend := some b.2, d := d, token := e.pc,
      handle := hd, record := r, table := table, area := area, role := role, mode := md, left := n.toNat, build := build,
      passes := 0, stop := false, broken := false, nc := nc, s1 := gr.sreg 1, level := gr.level, ord := gr.ordinal,
      engines := ts.zipIdx.map (fun x => (x.2, Engine.start x.1 (rangeStart r x.2 ts.length) pass build)) }
  { s with sweeps := put (freeKey s.sweeps) w s.sweeps }

/-- `PSWEEP` (R295). The plat header that cannot be read or is owned is not judged in a group with no active lane. -/
def execPsweep (g : Guard) (ll : Ll) (md : SweepMode) (build : Bool) (role : BitVec 3) (d h b : SReg) (s : State) :
    Host.Outcome State Fault Refusal :=
  .next (s.run { g := g, ll := some ll, mem := true, acc := true, once := true } fun e s =>
    let gr := e.group s
    let hd := gr.sreg h.toNat
    match s.handle e hd 1 (some (26, 10)) with
    | .error x => x
    | .ok r =>
      let table := gr.sreg b.toNat
      let area := gr.sreg (b.toNat + 1)
      let n := gr.sreg (b.toNat + 2)
      if psweepBad r (s.headerOf e.team) md role.toNat table area n then e.fault .illegalOperand 0
      else
        e.withPlat s r 32 fun ws s =>
          if (match ws with
            | some ws => platBad ws
            | none => false) then e.fault .illegalOperand 0
          else
            match s.psweepBusy e.team (s.headerOf e.team) with
            | some k => e.fault .illegalOperand k
            | none =>
              if e.act = 0 then .go s
              else
                match s.atomAt e.agent false (recPlat r) 8 (fun x => if x / 2 ^ 16 % 2 = 1 then x else x + 2 ^ 16) with
                | .error (.fault f _) => e.fault f.1 f.2
                | .error (.wait l) => .park (.owned [l])
                | .error (.fill _ _) => .again
                | .ok (old, s) =>
                  if old / 2 ^ 16 % 2 = 1 then e.fault .illegalOperand 3
                  else .go (s.psweepStart e ll r (field old 0 16) ((ws.getD []).getD 1 0) md build role.toNat d hd table area n))

/-- `PSTOP` (R180, R296). -/
def execPstop (g : Guard) (h : SReg) (s : State) : Host.Outcome State Fault Refusal :=
  .next (s.run { g := g, mem := true, once := true } fun e s =>
    match s.parcelHandle e ((e.group s).sreg h.toNat) (26, 10) with
    | .error x => x
    | .ok r =>
      .go (e.once s (fun s => { s with sweeps := s.sweeps.map (fun w =>
        if w.2.ctx = e.ctx ∧ recPlat w.2.record = recPlat r then (w.1, { w.2 with stop := true }) else w) })))

/-! ### Engines -/

/-- The range of an engine: first and one beyond the last storage index. -/
def Sweep.range (w : Sweep) (rank : Nat) : Nat × Nat :=
  (rangeStart w.record rank w.engines.length, rangeStart w.record (rank + 1) w.engines.length)

/-- An engine of a sweep. -/
def State.engine (s : State) (sw rank : Nat) : Option Engine := (find sw s.sweeps).bind (fun w => find rank w.engines)

/-- A Parcel-State fault of an engine at a parcel (R183). -/
def parcelStop {α : Type} (i : Nat) : Except Stop α := .error (.fault (.parcelState, i % 65536) 0)

/-- An engine parks with a phase in its record. -/
def State.parkIn (s : State) (sw rank : Nat) (ph : SweepPhase) (p : Park) : State :=
  match s.engine sw rank with
  | none => s
  | some x => ((s.onEngine sw rank (fun x => { x with phase := ph })).parkEngine sw rank p).onEngine sw rank
      (fun y => { y with phase := x.phase })

/-- An engine that meets something parks, or waits for a line (R100, R182, R193). -/
def State.engineStops (s : State) (sw rank : Nat) (ph : SweepPhase) (x : Stop) : State :=
  match x with
  | .fault f va => s.parkIn sw rank ph (Park.fault s f va)
  | .fill k va => s.parkIn sw rank ph (Park.fill s k va)
  | .wait _ => s

/-- A step of an engine: its whole effect, or none and what it meets (R182, R193). -/
def State.engineTry (s : State) (sw rank : Nat) (ph : SweepPhase) (f : State → Except Stop State) : State :=
  match f s with
  | .ok t => t
  | .error x => s.engineStops sw rank ph x

/-- The words of a row that a range of parcels meets: word index and the mask of the range's bits (R172). -/
def rowWords (lo hi : Nat) : List (Nat × Nat) :=
  if hi ≤ lo then []
  else
    (List.range ((hi - 1) / 64 - lo / 64 + 1)).map (fun k =>
      let w := lo / 64 + k
      let a := Nat.max lo (64 * w) - 64 * w
      let b := Nat.min hi (64 * w + 64) - 64 * w
      (w, 2 ^ b - 2 ^ a))

/-- A row word's bits of a mask cleared by one atomic: the bits claimed (R172). -/
def State.rowTake (s : State) (a : Agent) (r : BitVec 768) (which c w mask : Nat) : Except Stop (Nat × State) :=
  (s.atomAt a true (rowVa r which c (64 * w)) 8 (fun x => x - (x &&& mask))).map (fun q => (q.1 &&& mask, q.2))

/-- Bits set in a row word by one atomic. -/
def State.rowGive (s : State) (a : Agent) (r : BitVec 768) (which c w b : Nat) : Except Stop State :=
  (s.atomAt a true (rowVa r which c (64 * w)) 8 (fun x => x ||| b)).map (·.2)

/-- The row words of a range in each continuation in turn: continuation, word index, mask. -/
def Sweep.rowList (w : Sweep) (lo hi k : Nat) : Option (Nat × Nat × Nat) :=
  let ws := rowWords lo hi
  if w.nc * ws.length ≤ k then none else (ws[k % ws.length]?).map (fun x => (k / ws.length, x.1, x.2))

/-! ### The build (R168) -/

/-- The words of the rows of an engine's range; the last engine's go up to the rows' end. -/
def Sweep.clearRange (w : Sweep) (lo hi : Nat) : Nat × Nat :=
  (lo, if hi = parcels w.record then (hi + 2047) / 2048 * 2048 else hi)

/-- A word that the build accepts (R168). -/
def buildOk (r : BitVec 768) (nc pass i x : Nat) : Bool :=
  (cwIsRetired x && cwNreg x == recPnreg r)
    || (validNew r nc i x && !cwIsRetired x
        && (cwKind x != 4 || (decide (1 ≤ cwArg x) && decide (cwArg x ≤ 2 ^ 20) && decide (pass + cwArg x < 2 ^ 40))))

/-- One parcel of the build, which is registered anew. -/
def State.buildParcel (s : State) (a : Agent) (w : Sweep) (pass i : Nat) : Except Stop State := do
  let (x, s) ← s.loadAt a true (parcelVa w.record i) 8
  if !buildOk w.record w.nc pass i x then parcelStop i
  else
    let y := if cwKind x = 4 then cwMake (cwCont x) 4 (cwNreg x) (pass + cwArg x) else x
    let (_, s) ← s.atomAt a true (parcelVa w.record i) 8 (fun _ => y)
    (s.dropParcel a.ctx w.record i).parcelIn a true w.record i y

/-- A step of an engine's build: a word of its rows cleared, one parcel, or its end. -/
def State.engineBuild (s : State) (sw rank : Nat) (w : Sweep) (x : Engine) : State :=
  let a := s.sweepAgent w x
  let (lo, hi) := w.range rank
  let clear := w.clearRange lo hi
  if !x.cleared then
    match w.rowList clear.1 clear.2 x.next with
    | some (c, k, mask) =>
      s.engineTry sw rank .build (fun s => do
        let (_, s) ← s.rowTake a w.record 0 c k mask
        let (_, s) ← s.rowTake a w.record 1 c k mask
        let (_, s) ← s.rowTake a w.record 2 c k mask
        .ok (s.onEngine sw rank (fun x => { x with next := x.next + 1 })))
    | none => s.onEngine sw rank (fun x => { x with cleared := true, next := lo })
  else if x.next < hi then
    s.engineTry sw rank .build (fun s => (s.buildParcel a w x.pass x.next).map (fun s =>
      s.onEngine sw rank (fun x => { x with next := x.next + 1 })))
  else s.onEngine sw rank (fun x => { x with phase := .claim, next := lo, cursor := lo })

/-! ### A pass (R172) -/

/-- The continuation-table entry is one that a sweep group can start at (R169). -/
def Sweep.entryOk (w : Sweep) (code len : Nat) (x : Word) : Bool :=
  targetOk x && decide (code ≤ x.toNat) && decide (x.toNat < code + len)
    && (w.nc != 0)

/-- The forming group of an engine is complete and waits to start. -/
def Engine.form (x : Engine) : Engine :=
  if x.forming.isEmpty then x else { x with formed := x.formed ++ [(x.entry, x.forming)], forming := [] }

/-- `Admit` of one parcel (R172): its word is checked and becomes running, and it joins the forming group; for the
first parcel of a group the continuation's entry is read before (R169). -/
def State.admitParcel (s : State) (a : Agent) (w : Sweep) (x : Engine) (i : Nat) : Except Stop (Engine × State) := do
  let (entry, s) ← if x.forming.isEmpty then s.loadAt a true (w.table + BitVec.ofNat 64 (8 * x.cc)) 8 else .ok (x.entry.toNat, s)
  let (code, len) := match find w.grid s.grids with
    | some g => (g.code.toNat, g.hdr.codelen)
    | none => (0, 0)
  if x.forming.isEmpty && !w.entryOk code len (BitVec.ofNat 64 entry) then parcelStop i
  else
    let (y, s) ← s.loadAt a true (parcelVa w.record i) 8
    if 1 < cwKind y ∨ cwCont y ≠ x.cc ∨ cwNreg y ≠ recPnreg w.record then parcelStop i
    else
      let (_, s) ← s.atomAt a true (parcelVa w.record i) 8 (fun z => cwMake (cwCont z) 6 (cwNreg z) (cwArg z))
      let x := { x with
        forming := x.forming ++ [i], entry := BitVec.ofNat 64 entry, admitted := x.admitted + 1
        claimed := (x.claimed.1, x.claimed.2 &&& ~~~laneBit (i % 64)) }
      .ok (if x.forming.length = 32 then x.form else x, s)

/-- The admission of parcels in ascending order, as far as it goes, and what stops it. -/
def State.admitAll (a : Agent) (w : Sweep) : List Nat → Engine → State → Engine × State × Option Stop
  | [], x, s => (x, s, none)
  | i :: is, x, s =>
    match s.admitParcel a w x i with
    | .error e => (x, s, some e)
    | .ok q => State.admitAll a w is q.1 q.2

/-- The parcels of the bits that an engine has claimed are admitted; with the last of a row its forming group is complete
(R172). -/
def State.engineAdmit (s : State) (sw rank : Nat) (w : Sweep) (x : Engine) : State :=
  let q := State.admitAll (s.sweepAgent w x) w ((lanesOf x.claimed.2).map (fun k => 64 * x.claimed.1 + k)) x s
  let row := (w.range rank).2 ≤ q.1.cursor ∧ q.1.claimed.2 = 0
  let t := q.2.1.onEngine sw rank (fun _ => if row then q.1.form else q.1)
  match q.2.2 with
  | none => t
  | some e => t.engineStops sw rank .admission e

/-- No group of an engine is forming, waits to start, or has still to write back. -/
def Engine.drained (x : Engine) : Bool := x.forming.isEmpty && x.formed.isEmpty && x.places.isEmpty

/-- An engine of a stopped sweep: bits that it has claimed are set again, its forming group is complete, and it goes to the
barrier once its groups have written back (R180). -/
def State.engineStop (s : State) (sw rank : Nat) (w : Sweep) (x : Engine) : State :=
  if x.claimed.2 ≠ 0 then
    s.engineTry sw rank .claim (fun s =>
      (s.rowGive (s.sweepAgent w x) w.record 0 x.cc x.claimed.1 x.claimed.2.toNat).map (fun s =>
        s.onEngine sw rank (fun x => { x with claimed := (0, 0) })))
  else if x.drained then s.onEngine sw rank (fun x => { x with phase := .barrier1, cc := w.nc, next := 0 })
  else s.onEngine sw rank Engine.form

/-- A step of an engine that streams a pass: one word claimed and its parcels admitted, or the next continuation (R172). -/
def State.engineClaim (s : State) (sw rank : Nat) (w : Sweep) (x : Engine) : State :=
  let a := s.sweepAgent w x
  let (lo, hi) := w.range rank
  if w.stop then s.engineStop sw rank w x
  else if x.claimed.2 ≠ 0 then s.engineAdmit sw rank w x
  else if w.nc ≤ x.cc then
    if x.drained then s.onEngine sw rank (fun x => { x with phase := .barrier1, next := 0 }) else s
  else
    match (rowWords (Nat.max lo x.cursor) hi).head? with
    | some (k, mask) =>
      match s.rowTake a w.record 0 x.cc k mask with
      | .error e => s.engineStops sw rank .claim e
      | .ok (b, t) =>
        let x := { x with claimed := (k, BitVec.ofNat 64 b), cursor := Nat.min (64 * k + 64) hi }
        (t.onEngine sw rank (fun _ => x)).engineAdmit sw rank w x
    | none =>
      -- every group of the continuation writes back before the next one (R172)
      if x.drained then s.onEngine sw rank (fun x => { x with cc := x.cc + 1, cursor := lo }) else s.onEngine sw rank Engine.form

/-- No engine of the sweep is still building (R168). -/
def Sweep.built (w : Sweep) : Bool := w.engines.all (fun e => e.2.phase != .build || e.2.abandoned)

/-- An engine takes steps: it stands parked nowhere, and its context runs (R182, R337). -/
def State.engineRuns (s : State) (w : Sweep) (x : Engine) : Bool := x.park.isNone && !x.abandoned && s.unitsRun w.ctx

/-- `SWEEP_CLAIM`: a sweep engine takes its next step of building, claiming or admission (R168, R172). -/
def execSweepClaim (sweep rank : Nat) (s : State) : Host.Outcome State Fault Refusal :=
  .next (match find sweep s.sweeps with
    | none => s
    | some w =>
      match find rank w.engines with
      | none => s
      | some x =>
        if !s.engineRuns w x then s
        else
          match x.phase with
          | .build => s.engineBuild sweep rank w x
          | .claim | .admission | .writeback => if w.built then s.engineClaim sweep rank w x else s
          | .barrier1 | .barrier2 | .barrier3 | .done => s)

/-! ### Sweep groups (R171) -/

/-- The context registers and element of a parcel, as a lane's vector registers (R171). -/
def State.parcelRegs (s : State) (a : Agent) (r : BitVec 768) (i : Nat) : Except Stop (List Nat × State) := do
  let n := recPnreg r
  let (ws, s) ← State.loadsAt a true s (parcelVa r i + 8) n
  let (v, s) ← s.loadAt a true (parcelVa r i + BitVec.ofNat 64 (8 * (1 + n))) (recEs r / 8)
  .ok (i :: ws ++ [v], s)

/-- The registers of the lanes of a formed group, by `register * 64 + lane`. -/
def State.formRegs (s : State) (a : Agent) (r : BitVec 768) (is : List Nat) : Except Stop (SMap Word × State) :=
  is.zipIdx.foldlM (fun (p : SMap Word × State) (x : Nat × Nat) => do
    let (ws, s) ← p.2.parcelRegs a r x.1
    .ok (ws.zipIdx.foldl (fun m y => set 0 (y.2 * 64 + x.2) (BitVec.ofNat 64 y.1) m) p.1, s)) ([], s)

/-- The first of the four places of a team's sweep groups at which no group is resident (R171). -/
def State.freePlace (s : State) (team : Nat) : Option Nat :=
  (List.range 4).find? (fun q => (s.team team).groups.all (fun g => match g.2.sort with
    | .sweep _ _ p _ _ => p != q
    | .normal | .frag _ _ _ _ => true))

/-- A sweep group of a formed group of parcels, at a place (R171). -/
def State.newSweepGroup (s : State) (w : Sweep) (sw rank q vcnt rows : Nat) (x : Engine) (entry : Word) (is : List Nat)
    (vs : SMap Word) : Group :=
  let a := s.sweepAgent w x
  let area := w.area + BitVec.ofNat 64 (8192 + (4 * rank + q) * s.replaySize x.team)
  let m := lowMask is.length
  let g := startGroup (.sweep sw rank q x.cc (is.zipIdx.map (fun y => (y.2, y.1)))) w.role 32 vcnt 0 rows w.s1 area entry m
  { g with
    v := vs, p := (lanesOf m).foldl (fun p i => set 0 i 1 p) []
    s := set 0 5 (BitVec.ofNat 64 x.pass) (set 0 4 (BitVec.ofNat 64 x.cc) (set 0 3 w.handle g.s))
    prio := (s.team x.team).sprio.toNat, dmr := s.launchDmr x.team, gts := s.pts a, issued := (s.core a.core).clocks }

/-- A sweep group starts for the first formed group of an engine's parcels (R26, R171). -/
def State.sweepGroup (s : State) (sw rank : Nat) : State :=
  match find sw s.sweeps, s.engine sw rank with
  | some w, some x =>
    let vcnt := match s.headerOf x.team with
      | some h => (match h.roles[w.role]? with
        | some r => r.vcnt
        | none => 0)
      | none => 0
    let rows := groupRows vcnt 32
    match x.formed, s.extraRoom x.team 32 rows, s.freePlace x.team with
    | (entry, is) :: rest, some n, some q =>
      if !s.engineRuns w x then s
      else
        s.engineTry sw rank .admission (fun s => do
          let (vs, s) ← s.formRegs (s.sweepAgent w x) w.record is
          let s := s.onTeam x.team (fun t => { t with
            groups := put n (s.newSweepGroup w sw rank q vcnt rows x entry is vs) t.groups })
          .ok (s.onEngine sw rank (fun x => { x with formed := rest, places := put q n x.places })))
    | _, _, _ => s
  | _, _ => s

/-! ### Write-back (R173, R174) -/

/-- A write-back that R174 refuses, for what a lane ended with. -/
def Sweep.wbBad (w : Sweep) (pass i : Nat) (c : Option (Nat × Nat × Nat)) : Bool :=
  match c with
  | none => false
  | some (c', kind, arg) =>
    decide (w.nc ≤ c') || !kindOk w.record i kind arg
      || (kind == 4 && (arg == 0 || decide (2 ^ 20 < arg) || decide (2 ^ 40 ≤ pass + arg)))

/-- The context word that a write-back makes, for the word in state 6 or 7 (R174). -/
def Sweep.wbWord (w : Sweep) (pass old : Nat) (c : Option (Nat × Nat × Nat)) : Nat :=
  let n := recPnreg w.record
  match c with
  | none => cwRetired n
  | some (c', kind, arg) =>
    let pending := cwKind old = 7
    match kind with
    | 0 => cwMake c' 0 n 0
    | 1 => cwMake c' 1 n 0
    | 2 => if pending then cwMake c' 0 n 0 else cwMake c' 2 n arg
    | 3 => if pending then cwMake c' 0 n 0 else cwMake c' 3 n arg
    | 4 => if pending then cwMake c' 0 n 0 else cwMake c' 4 n (pass + arg)
    | _ => if pending then cwMake c' 0 n 0 else cwMake c' 5 n 0

/-- What step 1 of a write-back stores: addresses, bytes and values of the context registers and the element (R173). -/
def wbStores (r : BitVec 768) (g : Group) (lane i : Nat) : List (Word × Nat × Nat) :=
  let n := recPnreg r
  (List.range n).map (fun k => (parcelVa r i + BitVec.ofNat 64 (8 * (k + 1)), 8, (g.vreg (k + 1) lane).toNat))
    ++ [(parcelVa r i + BitVec.ofNat 64 (8 * (1 + n)), recEs r / 8, (g.vreg (n + 1) lane).toNat % 2 ^ recEs r)]

/-- The operation that owns the lines of an engine's write-back, with their request (R98, R99). -/
def State.wbOwn (s : State) (sw rank : Nat) (w : Sweep) (x : Engine) (ls : List Nat) : State :=
  match x.op with
  | some o => s.grant o
  | none =>
    let a := s.sweepAgent w x
    let r := s.addOp { no := 0, team := w.team, grp := w.grp, core := a.core, ctx := w.ctx, level := w.level, token := w.token,
                       pend := none, begun := true, pts := s.pts a, e := none, need := ls, own := [], etimes := [], pages := [],
                       park := none, held := false, clause := (0, 0), path := 0, await := false, spent := false, ord := w.ord,
                       body := .drain }
    (r.1.onEngine sw rank (fun x => { x with op := some r.2 })).grant r.2

/-- A store of an operation to a line that it owns (R99). -/
def State.ownedStore (o : Op) (s : State) (x : Word × Nat × Nat) : State :=
  match s.seek o.agent .write x.1 with
  | .error _ => s
  | .ok p =>
    let t := o.timeOf (lineNo p.addr)
    ((s.walked o.agent x.1 p).storeAt o.agent p.cls p.addr x.2.1 x.2.2 t).note o.agent (lineNo p.addr) false true t

/-- The place of an engine's next write-back step moved on: next lane and step (R198). -/
def State.wbTo (s : State) (sw rank q lane step : Nat) : State :=
  s.onEngine sw rank (fun x => { x with wb := adjust q (fun y => (y.1, lane, step)) x.wb })

/-- Step 1 of a write-back: context registers and element, in lines that the engine owns (R98, R173). A write of the lane's
own run precedes them, and they precede the word (R176). -/
def State.wbValues (s : State) (sw rank q lane : Nat) (w : Sweep) (x : Engine) (g : Group) (i : Nat) : State :=
  let a := s.sweepAgent w x
  let xs := wbStores w.record g lane i
  match s.obstacle a .write (xs.map (·.1)) with
  | some p => s.parkIn sw rank .writeback p
  | none =>
    let s := (s.raisePts a g.gts).wbOwn sw rank w x (ascending ((s.spots a .write (xs.map (·.1))).map (fun p => lineNo p.addr)))
    match ((s.engine sw rank).bind (·.op)).bind (fun o => (find o s.ops).map (fun p => (o, p))) with
    | none => s
    | some (id, o) =>
      if o.e.isNone then s
      else
        let s := xs.foldl (State.ownedStore o) s
        ({ s with ops := del id s.ops }.onEngine sw rank (fun x => { x with op := none })).wbTo sw rank q lane 2

/-- Step 2 of a write-back: the word by compare-and-swap (R173). -/
def State.wbWord (s : State) (a : Agent) (w : Sweep) (pass i : Nat) (c : Option (Nat × Nat × Nat)) : Except Stop State := do
  let (old, s) ← s.atomAt a true (parcelVa w.record i) 8
    (fun x => if cwKind x = 6 ∨ cwKind x = 7 then w.wbWord pass x c else x)
  if cwKind old ≠ 6 ∧ cwKind old ≠ 7 then parcelStop i else .ok s

/-- Step 3 of a write-back: the row or registration of the word, and the wake of parcels that wait on this one (R173,
R174). -/
def State.wbRow (s : State) (a : Agent) (w : Sweep) (i : Nat) : Except Stop State := do
  let va := parcelVa w.record i
  let (x, s) ← s.loadAt a true va 8
  let s ← s.parcelIn a true w.record i x
  .ok (s.wakeKey a a.ctx (signVa va) 0).2

/-- The rest of one lane's write-back from its next step on: nothing comes between a word and its row (R173). -/
def State.wbLane (s : State) (sw rank q lane step : Nat) (w : Sweep) (x : Engine) (g : Group) (i : Nat) : State :=
  let a := s.sweepAgent w x
  let c := find lane g.carry
  let row (s : State) : State :=
    s.engineTry sw rank .writeback (fun s => (s.wbRow a w i).map (fun s => s.wbTo sw rank q (lane + 1) 1))
  if step = 1 then
    if w.wbBad x.pass i c then s.engineTry sw rank .writeback (fun _ => parcelStop i) else s.wbValues sw rank q lane w x g i
  else if step = 2 then
    match s.wbWord a w x.pass i c with
    | .error e => s.engineStops sw rank .writeback e
    | .ok s => row (s.wbTo sw rank q lane 3)
  else row s

/-- Every launched lane of a group has exited and its register destinations are written. -/
def Group.finished (g : Group) : Bool := g.live == 0 && g.pend.all (fun p => p.2.vw.isEmpty && p.2.pw.isEmpty && p.2.sw.isEmpty)

/-- `SWEEP_WRITEBACK`: one parcel of a sweep group whose lanes have all ended is written back; after the last, the
group's place is free (R173). -/
def execSweepWriteback (sweep rank : Nat) (s : State) : Host.Outcome State Fault Refusal :=
  .next (match find sweep s.sweeps with
    | none => s
    | some w =>
      match find rank w.engines with
      | none => s
      | some x =>
        if !s.engineRuns w x then s
        else
          match x.places.find? (fun p => ((s.team x.team).group p.2).finished) with
          | none => s
          | some (q, n) =>
            let g := (s.team x.team).group n
            let (_, lane, step) := get (n, 0, 1) q x.wb
            let s := s.onEngine sweep rank (fun x => { x with wb := put q (n, lane, step) x.wb })
            match g.sort with
            | .normal | .frag _ _ _ _ => s
            | .sweep _ _ _ _ ps =>
              match find lane ps with
              | some i => s.wbLane sweep rank q lane step w x g i
              | none => s.onEngine sweep rank (fun x => { x with places := del q x.places, wb := del q x.wb }))

/-! ### The pass barrier (R178-R180) -/

/-- Step 1 of the barrier on one word: a next row's bits into the awake row (R178). -/
def State.barrierNext (s : State) (a : Agent) (w : Sweep) (c k mask : Nat) : Except Stop State := do
  let (b, s) ← s.rowTake a w.record 1 c k mask
  if b = 0 then .ok s else s.rowGive a w.record 0 c k b

/-- The promotion of one parcel of a timer row (R175). -/
def State.promote (s : State) (a : Agent) (w : Sweep) (pass c i : Nat) : Except Stop State := do
  let (x, s) ← s.loadAt a true (parcelVa w.record i) 8
  if cwKind x = 4 ∧ cwArg x ≤ pass then
    let (_, s) ← s.atomAt a true (parcelVa w.record i) 8 (fun z => cwMake (cwCont z) 0 (cwNreg z) 0)
    let s ← s.rowBit a true w.record 2 c i false
    s.rowBit a true w.record 0 c i true
  else .ok s

/-- Step 3 of the barrier on one word: timer promotion (R178, R175). -/
def State.barrierTimers (s : State) (a : Agent) (w : Sweep) (pass c k mask : Nat) : Except Stop State := do
  let (b, s) ← s.loadAt a true (rowVa w.record 2 c (64 * k)) 8
  (lanesOf (BitVec.ofNat 64 (b &&& mask))).foldlM (fun s j => s.promote a w pass c (64 * k + j)) s

/-- Every awake, next and timer row of the tensor is empty (R179). -/
def State.rowsEmpty (s : State) (a : Agent) (w : Sweep) : Except Stop (Bool × State) :=
  (List.range w.nc).foldlM (fun p c => [0, 1, 2].foldlM (fun p k => (rowWords 0 (parcels w.record)).foldlM
    (fun (p : Bool × State) x => do
      let (b, s) ← p.2.loadAt a true (rowVa w.record k c (64 * x.1)) 8
      .ok (p.1 && b &&& x.2 == 0, s)) p) p) (true, s)

/-- A wake of a parcel of a tensor is still to retest it (R179). -/
def State.wakePending (s : State) (w : Sweep) : Bool :=
  s.regs.any (fun x => x.woken && (match x.who with
    | .parcel rc _ _ => x.ctx == w.ctx && recPlat rc == recPlat w.record
    | .lanes _ _ _ | .host _ _ => false))

/-- The header of the plat at the end of a sweep: its read-only flags are written, its other bits stay (R167, R179, R180). -/
def platEnd (x : Nat) (stopped quiet : Bool) : Nat :=
  x % 2 ^ 16 + (if stopped then 2 ^ 17 else 0) + (if quiet then 2 ^ 18 else 0) + x / 2 ^ 19 * 2 ^ 19

/-- The sweep leaves its engines: their records are cleared, `PSWEEP` completes with its status (R193, R295). -/
def State.sweepOver (s : State) (sw : Nat) (w : Sweep) (q : Bool) : State :=
  let status := (if q then 1 else 0) + (if w.stop || w.broken then 2 else 0) + (if w.broken then 4 else 0)
    + Nat.min w.passes 0xFFFFFFFF * 2 ^ 32
  let s := w.engines.foldl (fun s e => if e.2.held then s.clearSlot (s.sweepAgent w e.2) (w.slot e.1) else s) s
  let s := s.onGroup w.team w.grp (fun g =>
    (g.results w.pend (fun p => { p with sw := [(w.d.toNat, BitVec.ofNat 64 status)] })).readied w.pend)
  { s with sweeps := del sw s.sweeps }

/-- The end test of a sweep, and the next pass or the end (R178 step 4, R179, R180, R182). -/
def State.sweepTest (s : State) (sw : Nat) (w : Sweep) (a : Agent) : Except Stop State := do
  let idle := w.engines.all (fun e => e.2.admitted == 0) && !s.wakePending w
  let (empty, s) ← if idle then s.rowsEmpty a w else .ok (false, s)
  let stopped := w.stop || w.broken
  let quiet := empty && !stopped
  let w := { w with passes := w.passes + 1 }
  let ended := match w.mode with
    | .one => true
    | .n => decide (w.left ≤ 1)
    | .quiet => false
  if stopped || ended || quiet then
    let (_, s) ← s.atomAt a true (recPlat w.record) 8 (fun x => platEnd x stopped quiet)
    .ok (s.sweepOver sw w quiet)
  else
    let es := w.engines.map (fun e =>
      (e.1, { e.2 with phase := .claim, cc := 0, cursor := (w.range e.1).1, admitted := 0 }))
    .ok { s with sweeps := put sw { w with left := w.left - 1, engines := es } s.sweeps }

/-- The barrier of a sweep whose engines have all finished step 1: `PASS` advances (R178 step 2). -/
def State.passAdvance (s : State) (sw : Nat) (w : Sweep) (a : Agent) : Except Stop State := do
  let (p, s) ← s.atomAt a true (recPlat w.record + 8) 8 (fun x => if 2 ^ 40 ≤ x + 1 then x else x + 1)
  if 2 ^ 40 ≤ p + 1 then parcelStop 0
  else
    .ok { s with sweeps := adjust sw (fun w => { w with
      engines := w.engines.map (fun e => (e.1, { e.2 with phase := .barrier3, next := 0, pass := p + 1 })) }) s.sweeps }

/-- One engine's next word of a barrier step, or the end of the step. -/
def State.barrierStep (s : State) (sw : Nat) (w : Sweep) (rank : Nat) (x : Engine) : State :=
  let a := s.sweepAgent w x
  let r := w.range rank
  let next (s : State) : State := s.onEngine sw rank (fun x => { x with next := x.next + 1 })
  match w.rowList r.1 r.2 x.next with
  | none => s.onEngine sw rank (fun x => { x with phase := if x.phase = .barrier1 then .barrier2 else .done })
  | some (c, k, mask) =>
    s.engineTry sw rank x.phase (fun s =>
      (if x.phase = .barrier1 then s.barrierNext a w c k mask else s.barrierTimers a w x.pass c k mask).map next)

/-- `PASS_BARRIER`: the next step of the barrier of a sweep whose engines have all streamed their ranges (R178). What all its
engines do, the first that is not abandoned stands for; without one, what cannot be written is lost. -/
def execPassBarrier (sweep : Nat) (s : State) : Host.Outcome State Fault Refusal :=
  .next (match find sweep s.sweeps with
    | none => s
    | some w =>
      let es := w.engines.filter (fun e => !e.2.abandoned)
      let all_ (p : SweepPhase → Bool) : Bool := es.all (fun e => p e.2.phase)
      if es.any (fun e => e.2.park.isSome) || !s.unitsRun w.ctx then s
      else if !all_ (fun p => p == .barrier1 || p == .barrier2 || p == .barrier3 || p == .done) then s
      else
        match es.head?, es.find? (fun e => e.2.phase == .barrier1), es.find? (fun e => e.2.phase == .barrier3) with
        | none, _, _ =>
          match s.sweepTest sweep w (s.deviceAgent w.ctx) with
          | .ok t => t
          | .error (.wait _) => s
          | .error _ => s.sweepOver sweep w false
        | some _, some e, _ => s.barrierStep sweep w e.1 e.2
        | some e, none, x =>
          let a := s.sweepAgent w e.2
          if all_ (fun p => p == .barrier2) then s.engineTry sweep e.1 .barrier2 (fun s => s.passAdvance sweep w a)
          else
            match x with
            | some x => s.barrierStep sweep w x.1 x.2
            | none => s.engineTry sweep e.1 .done (fun s => s.sweepTest sweep w a))

end Sys2Proof.Machine
end

