-- ==== Sys2Proof/Machine/Raster.lean ====
section
/-!
DEFINITION. Rasterisation: snapping, setup, coverage and depth (R135-R142), `RAST` and its engine (R299, R300), and
the software path (R301).
-/
namespace Sys2Proof.Machine

/-! ### Triangles (R135-R139) -/

/-- A finite FP32 value times `2^k`, rounded to nearest even; none for a NaN or an infinity (R135, R147). -/
def fixPoint (k : Int) (x : Nat) : Option Int :=
  match Fmt.f32.val x with
  | .nan _ => none
  | .inf _ => none
  | .fin n m e =>
    let r := if e + k < 0 then shiftRne m (e + k).natAbs else m * 2 ^ (e + k).toNat
    some (if n then -(r : Int) else r)

/-- A snapped coordinate within its range (R135). -/
def snap (x : Nat) : Option Int :=
  match fixPoint 8 x with
  | none => none
  | some c => if -(2 ^ 23) ≤ c ∧ c ≤ 2 ^ 23 - 1 then some c else none

/-- A snapped depth (R135). -/
def snapZ (z : Nat) : Nat :=
  match Fmt.f32.val z with
  | .nan _ => 0
  | .inf n => if n then 0 else 0xFFFFFFFF
  | .fin n m e =>
    if n ∨ m = 0 then 0
    else if 0 ≤ e then 0xFFFFFFFF
    else if 2 ^ e.natAbs ≤ m then 0xFFFFFFFF
    else shiftRne (m * (2 ^ 32 - 1)) e.natAbs

/-- The signed area of three vertices (R136). -/
def signedArea (a b c : Int × Int × Nat) : Int := (b.1 - a.1) * (c.2.1 - a.2.1) - (b.2.1 - a.2.1) * (c.1 - a.1)

/-- The setup of a triangle from nine FP32 coordinates; none when it is discarded (R135, R136). -/
def triOf (xs : List Nat) : Option Tri :=
  let f (k : Nat) : Nat := xs.getD k 0
  match snap (f 0), snap (f 1), snap (f 3), snap (f 4), snap (f 6), snap (f 7) with
  | some x0, some y0, some x1, some y1, some x2, some y2 =>
    let a : Int × Int × Nat := (x0, y0, snapZ (f 2))
    let b : Int × Int × Nat := (x1, y1, snapZ (f 5))
    let c : Int × Int × Nat := (x2, y2, snapZ (f 8))
    let s := signedArea a b c
    if s = 0 then none
    else if s < 0 then some { v0 := a, v1 := c, v2 := b, back := true, area := -s }
    else some { v0 := a, v1 := b, v2 := c, back := false, area := s }
  | _, _, _, _, _, _ => none

/-- The edge function of an edge at a point (R136). -/
def edgeAt (a b : Int × Int × Nat) (x y : Int) : Int := (b.1 - a.1) * (y - a.2.1) - (b.2.1 - a.2.1) * (x - a.1)

/-- An edge is top-left (R137). -/
def topLeft (a b : Int × Int × Nat) : Bool := decide (b.2.1 < a.2.1) || (b.2.1 == a.2.1 && decide (a.1 < b.1))

/-- The three edge functions at a pixel's sample (R135, R136). -/
def Tri.edges (t : Tri) (px py : Int) : Int × Int × Int :=
  let x := 256 * px + 128
  let y := 256 * py + 128
  (edgeAt t.v0 t.v1 x y, edgeAt t.v1 t.v2 x y, edgeAt t.v2 t.v0 x y)

/-- The top-left bits of the three edges. -/
def Tri.tops (t : Tri) : List Bool := [topLeft t.v0 t.v1, topLeft t.v1 t.v2, topLeft t.v2 t.v0]

/-- Coverage from edge functions and top-left bits (R137). -/
def covers (e : Int × Int × Int) (tl : List Bool) : Bool :=
  let ok (x : Int) (k : Nat) : Bool := decide (0 < x) || (x == 0 && tl.getD k false)
  ok e.1 0 && ok e.2.1 1 && ok e.2.2 2

/-- The depth at a sample from edge functions, vertex depths and area (R138). -/
def depthAt (e : Int × Int × Int) (z0 z1 z2 : Nat) (area : Int) : Int := (e.2.1 * z0 + e.2.2 * z1 + e.1 * z2) / area

/-- A pixel's sample is covered, target apart. -/
def Tri.covered (t : Tri) (px py : Int) : Bool := covers (t.edges px py) t.tops

/-- The depth at a covered pixel. -/
def Tri.depth (t : Tri) (px py : Int) : Nat := (depthAt (t.edges px py) t.v0.2.2 t.v1.2.2 t.v2.2.2 t.area).toNat

/-- The first pixel centre at or beyond a coordinate (R139). -/
def pxLo (c : Int) : Int := -((128 - c) / 256)
/-- The last pixel centre at or before a coordinate (R139). -/
def pxHi (c : Int) : Int := (c - 128) / 256

/-- The smallest and largest of three coordinates. -/
def span3 (a b c : Int) : Int × Int := (min a (min b c), max a (max b c))

/-- The pixel box: first and last x, first and last y (R139). -/
def Tri.box (t : Tri) : Int × Int × Int × Int :=
  let x := span3 t.v0.1 t.v1.1 t.v2.1
  let y := span3 t.v0.2.1 t.v1.2.1 t.v2.2.1
  (pxLo x.1, pxHi x.2, pxLo y.1, pxHi y.2)

/-- The area of the pixel box, before clipping (R139). -/
def Tri.boxArea (t : Tri) : Nat :=
  let b := t.box
  (b.2.1 - b.1 + 1).toNat * (b.2.2.2 - b.2.2.1 + 1).toNat

/-- The pixel box clipped to a target: first x, columns, first y, rows. -/
def Tri.clip (t : Tri) (w h : Nat) : Nat × Nat × Nat × Nat :=
  let b := t.box
  let x0 := (max 0 b.1).toNat
  let y0 := (max 0 b.2.2.1).toNat
  (x0, (min (w : Int) (b.2.1 + 1) - x0).toNat, y0, (min (h : Int) (b.2.2.2 + 1) - y0).toNat)

/-- The pixels of the clipped box in rows, from one on. -/
def Tri.pixels (t : Tri) (w h px py : Nat) : List (Nat × Nat) :=
  let c := t.clip w h
  ((List.range c.2.2.2).flatMap (fun j => (List.range c.2.1).map (fun i => (c.1 + i, c.2.2.1 + j)))).filter
    (fun p => decide (py < p.2) || (p.2 == py && decide (px ≤ p.1)))

/-- The quads with a covered pixel, in row-major order, from the one that holds a pixel on: position and covered
bits (R142). -/
def Tri.quads (t : Tri) (w h px py : Nat) : List (Nat × Nat × Nat) :=
  let c := t.clip w h
  let bit (x y : Nat) : Nat := if x < w ∧ y < h ∧ t.covered x y then 1 else 0
  let qs := (List.range (if c.2.2.2 = 0 then 0 else (c.2.2.1 + c.2.2.2 - 1) / 2 + 1 - c.2.2.1 / 2)).flatMap (fun j =>
    (List.range (if c.2.1 = 0 then 0 else (c.1 + c.2.1 - 1) / 2 + 1 - c.1 / 2)).map (fun i =>
      let x := 2 * (c.1 / 2 + i)
      let y := 2 * (c.2.2.1 / 2 + j)
      (x, y, bit x y + 2 * bit (x + 1) y + 4 * bit x (y + 1) + 8 * bit (x + 1) (y + 1))))
  qs.filter (fun q => q.2.2 != 0 && (decide (py / 2 < q.2.1 / 2) || (q.2.1 / 2 == py / 2 && decide (px / 2 ≤ q.1 / 2))))

/-- A quotient rounded once to FP32. -/
def quotF32 (n d : Int) : Nat :=
  if n = 0 ∨ d = 0 then 0
  else
    let r := ratio n.natAbs d.natAbs
    Fmt.f32.sign (decide (n < 0) != decide (d < 0)) (Fmt.f32.roundMag r.1 r.2).1

/-! ### The stream record (R299) -/

/-- A field of a stream record. -/
def rastField (r : BitVec 512) (lo n : Nat) : Nat := (r.extractLsb' lo n).toNat

/-- Target width and height. -/
def RastOp.width (r : RastOp) : Nat := rastField r.record 256 15 + 1
/-- Target height. -/
def RastOp.height (r : RastOp) : Nat := rastField r.record 272 15 + 1
/-- The triangle count. -/
def RastOp.ntri (r : RastOp) : Nat := rastField r.record 128 24
/-- The identifier of the triangle in progress. -/
def RastOp.ident (r : RastOp) : Nat := (rastField r.record 160 32 + r.tri) % 2 ^ 32
/-- The address of a pixel's word of the visibility buffer. -/
def RastOp.pixelVa (r : RastOp) (p : Nat × Nat) : Word :=
  BitVec.ofNat 64 (rastField r.record 320 64 + 8 * (p.2 * r.width + p.1))
/-- The software-path work list. -/
def RastOp.list (r : RastOp) : Word := BitVec.ofNat 64 (rastField r.record 384 64)
/-- The addresses of the visibility buffer; none in fragment mode. -/
def RastOp.buffer (r : RastOp) : List Word :=
  if r.frag then []
  else (List.range r.height).flatMap (fun y => (List.range r.width).map (fun x => r.pixelVa (x, y)))

/-- The record breaks a rule of R299. -/
def rastBad (frag : Bool) (r : BitVec 512) : Bool :=
  rastField r 152 8 != 0 || rastField r 192 64 != 0 || rastField r 271 1 != 0 || rastField r 287 33 != 0
    || (if frag then rastField r 320 64 != 0 || rastField r 448 64 % 256 != 0
        else rastField r 320 64 % 8 != 0)

/-- The role of a fragment stream is not one that the kernel offers, or the team can have no fragment group. -/
def Header.fragBad (h : Header) (role : Nat) : Bool :=
  (match h.roles[role]? with
    | some r => decide (r.vcnt < 3)
    | none => true) || h.noExtra h.width

/-- A stream as `RAST` begins it. -/
def RastOp.start (rc : BitVec 512) (va : Word) (frag cullb : Bool) (role area : Nat) (d : SReg) : RastOp :=
  { record := rc, addr := va, frag := frag, cullb := cullb, role := role, area := area, tri := 0, setup := none,
    stage := 0, px := 0, py := 0, appended := 0, fixed := 0, d := d, places := [], quads := [], rel := [] }

/-- `RAST` (R299). -/
def execRast (g : Guard) (ll : Ll) (frag cullb : Bool) (role : BitVec 3) (d a : SReg) (s : State) :
    Host.Outcome State Fault Refusal :=
  .next (s.run { g := g, ll := some ll, mem := true, acc := true, once := true } fun e s =>
    let gr := e.group s
    let va := gr.sreg a.toNat
    if bits va 0 6 ≠ 0 then e.fault .illegalOperand 0
    else
      e.withWords s va 8 (fun ws s =>
        let rc := BitVec.ofNat 512 (joinWords ws)
        let x := RastOp.start rc va frag cullb role.toNat (s.ctx e.ctx).area.toNat d
        let offered := match s.headerOf e.team with
          | some h => !h.fragBad role.toNat
          | none => false
        if rastBad frag rc || (frag && !offered) then e.fault .illegalOperand 0
        else
          e.withList s x.list (fun l =>
            if l.iszc ≠ 1 then e.fault .illegalOperand 0
            else
              .go (e.once s (fun s =>
                let b := (e.group s).begin ll e.act { Pend.zero with ready := false, sw := [(d.toNat, 0)] }
                let s := e.onGroup s (fun _ => b.1)
                let o := e.newOp s (some b.2) (.rast x)
                let r := s.addOp { o with need := ascending (s.memLines o.agent .write x.buffer) }
                r.1.grant r.2)))))

/-! ### The engine (R300) -/

/-- An earlier stream of the same group has not completed (R192). -/
def State.behindRast (s : State) (id : Nat) (o : Op) : Bool :=
  s.ops.any (fun e => decide (e.1 < id) && e.2.team == o.team && e.2.grp == o.grp && (match e.2.body with
    | .rast _ => true
    | .copy _ | .tex _ | .ray _ | .pair _ | .drain | .near _ | .crest _ => false))

/-- The body of a stream changed. -/
def State.onRast (s : State) (id : Nat) (r : RastOp) : State := s.onOp id (fun o => { o with body := .rast r })

/-- The stream goes on to the next triangle. -/
def RastOp.next (r : RastOp) : RastOp := { r with tri := r.tri + 1, setup := none, stage := 0, px := 0, py := 0, quads := [] }

/-- The addresses of a triangle's indices. -/
def RastOp.indexVas (r : RastOp) : List Word :=
  (List.range 3).map (fun k => BitVec.ofNat 64 (rastField r.record 64 64 + 12 * r.tri + 4 * k))

/-- The addresses of a vertex's coordinates. -/
def RastOp.vertexVas (r : RastOp) (v : Nat) : List Word :=
  (List.range 3).map (fun k => BitVec.ofNat 64 (rastField r.record 0 64 + 16 * v + 4 * k))

/-- Source reads of 4 bytes of an operation: what stops them, a line to wait for, or the values (R101). -/
def State.fetch4 (s : State) (id : Nat) (a : Agent) (vas : List Word) : Except (Option Park) (List Nat × State) :=
  match s.obstacle a .read vas with
  | some p => .error (some p)
  | none =>
    if s.readsWait id a vas then .error none
    else
      match vas.find? (fun va => match s.seek a .read va with
        | .error _ => false
        | .ok p => s.poisoned (s.keyOf a.ctx) (lineNo p.addr)) with
      | some va => .error (some (Park.fault s (.poison, 0) va))
      | none =>
        .ok (vas.foldl (fun (p : List Nat × State) va =>
          let r := p.2.sourceRead a va 4
          (p.1 ++ [r.1], r.2.2.2)) ([], s))

/-- The nine coordinates of the triangle in progress. -/
def State.fetchTri (s : State) (id : Nat) (a : Agent) (r : RastOp) : Except (Option Park) (List Nat × State) :=
  match s.fetch4 id a r.indexVas with
  | .error p => .error p
  | .ok (is, s1) => s1.fetch4 id a (is.flatMap r.vertexVas)

/-- The merges of a triangle's pixels, each line's at its time, and where and why they stop (R99, R141). -/
def State.mergePixels (s : State) (a : Agent) (r : RastOp) (t : Tri) (own : List Nat) (time : Nat → Nat) :
    List (Nat × Nat) → Option (Nat × Nat × Option Park) × State
  | [] => (none, s)
  | p :: ps =>
    if !t.covered p.1 p.2 then s.mergePixels a r t own time ps
    else
      let va := r.pixelVa p
      match s.reach a .write va with
      | .fault f => (some (p.1, p.2, some (Park.fault s f va)), s)
      | .fill k => (some (p.1, p.2, some (Park.fill s k va)), s)
      | .ok q =>
        let l := lineNo q.addr
        if !ordered q.cls then (some (p.1, p.2, some (Park.fault s (.illegalOperand, 0) va)), s)
        else if !own.contains l then (some (p.1, p.2, none), s)
        else if s.poisoned (s.keyOf a.ctx) l then (some (p.1, p.2, some (Park.fault s (.poison, 0) va)), s)
        else
          let old := (s.readKey (s.keyOf a.ctx) q.addr 8).1
          let new := t.depth p.1 p.2 * 2 ^ 32 + r.ident
          let s := (s.walked a va q).storeAt a q.cls q.addr 8 (Nat.max old new) (time l)
          (s.note a l true true (time l)).mergePixels a r t own time ps

/-- The coordinates of a later triangle of a stream as memory holds them, if they can be read. -/
def State.peekTri (s : State) (a : Agent) (r : RastOp) (k : Nat) : Option (List Nat) :=
  let r := { r with tri := k }
  let ok (vas : List Word) : Bool := (s.obstacle a .read vas).isNone
  let is := r.indexVas.map (fun va => s.peek a va 4)
  if ok r.indexVas && ok (is.flatMap r.vertexVas) then some ((is.flatMap r.vertexVas).map (fun va => s.peek a va 4)) else none

/-- The lines of the visibility buffer that a triangle on the fixed path merges into. -/
def State.triLines (s : State) (a : Agent) (r : RastOp) (t : Tri) : List Nat :=
  s.memLines a .write (((t.pixels r.width r.height 0 0).filter (fun p => t.covered p.1 p.2)).map r.pixelVa)

/-- A later triangle of a stream may merge into a line: it covers a pixel of it, or cannot be read yet. -/
def State.mergesLater (s : State) (a : Agent) (r : RastOp) (l : Nat) : Bool :=
  (List.range (r.ntri - (r.tri + 1))).any (fun k => match s.peekTri a r (r.tri + 1 + k) with
    | none => true
    | some xs => match triOf xs with
      | none => false
      | some t => t.boxArea != 0 && !(t.back && r.cullb) && decide (r.area ≤ t.boxArea) && (s.triLines a r t).contains l)

/-- The lines into which the triangle just merged was the stream's last are written, and owned no longer (R300). -/
def State.rastWritten (s : State) (id : Nat) (a : Agent) (r : RastOp) (t : Tri) : State :=
  let ls := (s.triLines a r t).eraseDups.filter (fun l => !s.mergesLater a r l)
  s.onOp id (fun o => { o with own := o.own.filter (fun l => !ls.contains l) })

/-- Coverage of a triangle on the fixed path: its merges, or its quads (R141, R142). -/
def State.rastCover (s : State) (id : Nat) (o : Op) (r : RastOp) (t : Tri) : State :=
  if r.frag then
    match t.quads r.width r.height r.px r.py with
    | [] => s.onRast id r.next
    | q :: qs => s.onRast id { r with stage := 2, px := q.1, py := q.2.1, quads := q :: qs }
  else
    let m := s.mergePixels o.agent r t o.own o.timeOf (t.pixels r.width r.height r.px r.py)
    match m.1 with
    | none => (m.2.rastWritten id o.agent r t).onRast id r.next
    | some (x, y, some p) => (m.2.onRast id { r with px := x, py := y }).parkOp id p
    | some (x, y, none) =>
      let s := m.2.onRast id { r with px := x, py := y }
      let need := (ascending (s.memLines o.agent .write r.buffer)).filter (fun l => !o.own.contains l)
      (s.onOp id (fun o => o.ask need)).grant id

/-- A triangle appended to the software path's list; without room the rasteriser waits at stage 3 (R300). -/
def State.rastAppend (s : State) (id : Nat) (o : Op) (r : RastOp) (t : Tri) : State :=
  let a := o.agent
  match s.obstacle a .write [r.list] with
  | some p => s.parkOp id p
  | none =>
    match s.listAt a r.list with
    | .error f => s.parkOp id (Park.fault s f r.list)
    | .ok (p, l) =>
      if p.held || s.owned (lineNo p.addr) then s
      else if l.iszc ≠ 1 then s.parkOp id (Park.fault s (.illegalOperand, 0) r.list)
      else if l.room = 0 then s
      else
        let vas := l.itemWords l.puts
        match s.obstacle a .write vas with
        | some p => s.parkOp id p
        | none =>
          match s.itemFault a .write l l.puts with
          | some f => s.parkOp id (Park.fault s f (vas.headD 0))
          | none =>
            if !(s.ownedAmong a .write vas).isEmpty then s
            else
              (s.listAppend a r.list l [[r.addr.toNat, r.tri + (if t.back then 2 ^ 32 else 0)]]).onRast id
                { r with appended := r.appended + 1 }.next

/-- A triangle at the stage that the stream has reached (R139, R300). -/
def State.rastStage (s : State) (id : Nat) (o : Op) (r : RastOp) (t : Tri) : State :=
  match r.stage with
  | 0 =>
    if t.boxArea = 0 || (t.back && r.cullb) then s.onRast id r.next
    else if r.area ≤ t.boxArea then
      let c := t.clip r.width r.height
      let r := { r with stage := 1, fixed := r.fixed + 1, px := c.1, py := c.2.2.1 }
      (s.onRast id r).rastCover id o r t
    else
      let r := { r with stage := 3 }
      (s.onRast id r).rastAppend id o r t
  | 1 => s.rastCover id o r t
  | 2 =>
    match r.quads with
    | [] => s.rastCover id o { r with stage := 1 } t
    | _ :: _ => s
  | _ => s.rastAppend id o r t

/-- A stream whose triangles are done: it completes when its fragment groups have ended (R300). -/
def State.rastDone (s : State) (id : Nat) (o : Op) (r : RastOp) : State :=
  if r.places.isEmpty then
    let s := s.onGroup o.team o.grp (fun g =>
      g.results o.pend (fun p => { p with sw := [(r.d.toNat, BitVec.ofNat 64 (r.fixed + r.appended * 2 ^ 32))] }))
    s.endOp id
  else s

/-- `RASTER_TRIANGLE`: the rasteriser takes a stream's next triangle, or goes on with the one in progress (R300). -/
def execRasterTriangle (op : Nat) (s : State) : Host.Outcome State Fault Refusal :=
  .next (match find op s.ops with
    | none => s
    | some o =>
      match o.body with
      | .rast r =>
        if o.park.isSome || s.behindRast op o || !o.need.isEmpty || !s.unitsRun o.ctx then s
        else
          let s := s.onOp op (fun o => { o with begun := true })
          if r.ntri ≤ r.tri then s.rastDone op o r
          else
            match r.setup with
            | some t => s.rastStage op o r t
            | none =>
              match s.fetchTri op o.agent r with
              | .error (some p) => s.parkOp op p
              | .error none => s
              | .ok (xs, s) =>
                match triOf xs with
                | none => s.onRast op r.next
                | some t =>
                  let r := { r with setup := some t }
                  (s.onRast op r).rastStage op o r t
      | .copy _ | .tex _ | .ray _ | .pair _ | .drain | .near _ | .crest _ => s)

/-! ### Fragment groups (R142, R300) -/

/-- The registers that a fragment group's lane begins with: `V0`, `V1`, `V2`. The depth of a helper lane is not
stated: a free value (entry 8). -/
def State.fragRegs (s : State) (r : RastOp) (t : Tri) (lane : Nat) (p : Nat × Nat) (cov : Bool) : SMap Word :=
  let e := t.edges p.1 p.2
  let z := if cov then t.depth p.1 p.2 else (Config.word (s.free lane)).toNat % 2 ^ 32
  [(lane, BitVec.ofNat 64 (p.1 + p.2 * 2 ^ 32)), (64 + lane, BitVec.ofNat 64 (z + r.ident * 2 ^ 32)),
   (128 + lane, BitVec.ofNat 64 (quotF32 e.2.2 t.area + quotF32 e.1 t.area * 2 ^ 32))]

/-- The pixels of a quad in lane order (R142). -/
def quadPixels (q : Nat × Nat × Nat) : List (Nat × Nat) := [(q.1, q.2.1), (q.1 + 1, q.2.1), (q.1, q.2.1 + 1), (q.1 + 1, q.2.1 + 1)]

/-- A fragment group starts for the next quads of a triangle (R26, R300). -/
def State.fragGroup (s : State) (id : Nat) : State :=
  match find id s.ops with
  | none => s
  | some o =>
    match o.body with
    | .rast r =>
      match s.headerOf o.team, r.setup with
      | some h, some t =>
        let vcnt := match h.roles[r.role]? with
          | some x => x.vcnt
          | none => 0
        let entry := match h.roles[r.role]? with
          | some x => x.entry
          | none => 0
        let code := match find (s.team o.team).grid s.grids with
          | some x => x.code
          | none => 0
        let rows := groupRows vcnt h.width
        match s.extraRoom o.team h.width rows, (List.range 4).find? (fun q => (find q r.places).isNone) with
        | some n, some q =>
          if o.park.isSome || r.stage != 2 || r.quads.isEmpty then s
          else
            let qs := r.quads.take (h.width / 4)
            let lanes := qs.zipIdx.flatMap (fun (x : (Nat × Nat × Nat) × Nat) =>
              (quadPixels x.1).zipIdx.map (fun (y : (Nat × Nat) × Nat) =>
                (4 * x.2 + y.2, y.1, x.1.2.2 / 2 ^ y.2 % 2 == 1)))
            let m := lanes.foldl (fun m x => m ||| laneBit x.1) 0
            let cov := lanes.foldl (fun m x => if x.2.2 then m ||| laneBit x.1 else m) 0
            let area := BitVec.ofNat 64 (rastField r.record 448 64 + q * h.z)
            let g0 := s.group o.team o.grp
            let g := startGroup (.frag id q r.tri (lanes.map (fun x => (x.1, x.2.1)))) r.role h.width vcnt
              (pickColumn (s.groupsOn o.core) h.width) rows (g0.sreg 1) area (code + BitVec.ofNat 64 entry) m
            let g := { g with
              v := lanes.foldl (fun v x => (s.fragRegs r t x.1 x.2.1 x.2.2).foldl (fun v y => set 0 y.1 y.2 v) v) []
              p := lanes.foldl (fun p x => set 0 x.1 ((if x.2.2 then 1 else 0) + (if t.back then 2 else 0)) p) []
              s := set 0 4 (BitVec.ofNat 64 r.tri) (set 0 3 r.addr g.s)
              helper := m &&& ~~~cov
              dmr := s.launchDmr o.team, gts := g0.gts, issued := (s.core o.core).clocks }
            let rest := r.quads.drop (h.width / 4)
            let s := s.onTeam o.team (fun t => { t with groups := put n g t.groups })
            let r := { r with places := put q n r.places, quads := rest }
            match rest with
            | [] => s.onRast id r.next
            | x :: _ => s.onRast id { r with px := x.1, py := x.2.1 }
        | _, _ => s
      | _, _ => s
    | .copy _ | .tex _ | .ray _ | .pair _ | .drain | .near _ | .crest _ => s

/-! ### The software path (R301) -/

/-- A signed number in a field of `n` bits. -/
def signedIn (n : Nat) (x : Int) : Nat := (x % 2 ^ n).toNat

/-- The setup block of a triangle (R301). -/
def setupBlock (cullb : Bool) (xs : List Nat) : List Nat :=
  match triOf xs with
  | none => List.replicate 7 0
  | some t =>
    if t.back && cullb then List.replicate 7 0
    else
      let v (x : Int × Int × Nat) : Nat := signedIn 32 x.1 + signedIn 32 x.2.1 * 2 ^ 32
      let b := t.box
      [v t.v0, v t.v1, v t.v2, t.v0.2.2 + t.v1.2.2 * 2 ^ 32,
       t.v2.2.2 + 2 ^ 32 + (if t.back then 2 ^ 33 else 0)
         + joinBits 1 (t.tops.map (fun x => if x then 1 else 0)) * 2 ^ 34,
       signedIn 64 t.area,
       joinBits 16 [signedIn 16 b.1, signedIn 16 b.2.1, signedIn 16 b.2.2.1, signedIn 16 b.2.2.2]]

/-- Writes of a run of vector registers in the lanes of a mask. -/
def runWrites (d : Nat) (m : Lanes) (f : Nat → List Nat) : SMap Word :=
  (lanesOf m).foldl (fun w i => (f i).zipIdx.foldl (fun (w : SMap Word) (x : Nat × Nat) =>
    put ((d + x.2) * 64 + i) (BitVec.ofNat 64 x.1) w) w) []

/-- `RSETUP` (R301). -/
def execRsetup (g : Guard) (ll : Ll) (cullb : Bool) (d a : VReg) (s : State) : Host.Outcome State Fault Refusal :=
  .next (s.run { g := g, top := maxOf [topV d 7, topV a 5], ll := some ll } fun e s =>
    let gr := e.group s
    let coord (i k : Nat) : Nat := bits (gr.vreg (a.toNat + k / 2) i) (32 * (k % 2)) 32
    .go (e.begin s ll { Pend.zero with
      vw := runWrites d.toNat e.act (fun i => setupBlock cullb ((List.range 9).map (coord i))) }))

/-- A pixel tested against a setup block: coverage and depth; the depth of a block whose area is not positive is not
stated: a free value (R301; entry 8). -/
def coverBlock (free : Nat) (b : List Word) (pix target : Word) : Bool × Nat :=
  let w (k : Nat) : Word := b.getD k 0
  let v (k : Nat) : Int × Int × Nat := (((w k).extractLsb' 0 32).toInt, ((w k).extractLsb' 32 32).toInt, 0)
  let px := (pix.extractLsb' 0 32).toInt
  let py := (pix.extractLsb' 32 32).toInt
  let x := 256 * px + 128
  let y := 256 * py + 128
  let e := (edgeAt (v 0) (v 1) x y, edgeAt (v 1) (v 2) x y, edgeAt (v 2) (v 0) x y)
  let tl := (List.range 3).map (fun k => (w 4).getLsbD (34 + k))
  let inside := decide (0 ≤ px) && decide (px < bits target 0 16) && decide (0 ≤ py) && decide (py < bits target 16 16)
  if (w 4).getLsbD 32 && inside && covers e tl then
    let area := (w 5).toInt
    (true, if 0 < area then (depthAt e (bits (w 3) 0 32) (bits (w 3) 32 32) (bits (w 4) 0 32) area % 2 ^ 32).toNat
           else free % 2 ^ 32)
  else (false, 0)

/-- `RCOVER` (R301). -/
def execRcover (g : Guard) (ll : Ll) (po : PReg) (d a b : VReg) (s : State) : Host.Outcome State Fault Refusal :=
  .next (s.run { g := g, top := maxOf [topV d 1, topV a 7, topV b 2], ll := some ll } fun e s =>
    let gr := e.group s
    let r (i : Nat) : Bool × Nat :=
      coverBlock (Config.word (s.free i)).toNat ((List.range 7).map (fun k => gr.vreg (a.toNat + k) i))
        (gr.vreg b.toNat i) (gr.vreg (b.toNat + 1) i)
    .go (e.begin s ll { Pend.zero with
      vw := vWrites d.toNat e.act (fun i => BitVec.ofNat 64 (r i).2)
      pw := pWrites po.toNat e.act (fun i => (r i).1) }))

end Sys2Proof.Machine
end

