-- ==== Sys2Proof/Machine/Resume.lean ====
section
/-!
DEFINITION. What becomes of a parked unit: delivery of its fault (R194), resumption from its record with the checks of
R195, and the end of an abandoned one.
-/
namespace Sys2Proof.Machine

/-! ### Reading a record -/

/-- A field of a record by byte offset and size. -/
def slotField (ws : List Nat) (off n : Nat) : Nat := field (joinWords ws) (8 * off) (8 * n)

/-- A signed field of 32 bits. -/
def slotInt (ws : List Nat) (off : Nat) : Int := (BitVec.ofNat 32 (slotField ws off 4)).toInt

/-- The reserved bits of a header are zero, its unit is the slot's and its version 1 (R192, R195). -/
def slotOk (unit : Nat) (ws : List Nat) : Bool :=
  let w := ws.headD 0
  field w 0 4 == unit && field w 4 4 == 0 && field w 20 12 == 0 && field w 48 8 == 1 && field w 56 8 == 0

/-- `VALID` and `DELIVERED` of a header. -/
def slotValid (ws : List Nat) : Bool := field (ws.headD 0) 16 1 == 1
/-- `DELIVERED` of a header. -/
def slotDelivered (ws : List Nat) : Bool := field (ws.headD 0) 17 1 == 1

/-- The words of a slot. -/
def State.readSlot (s : State) (a : Agent) (slot : Word) : Except (Kind × Nat) (List Nat × State) :=
  State.loadWords { a with level := .control } s slot 16

/-- The first word of a slot's header changed. -/
def State.markSlot (s : State) (a : Agent) (slot : Word) (f : Nat → Nat) : State :=
  match State.loadWords { a with level := .control } s slot 1 with
  | .error _ => s
  | .ok (ws, s) => s.storeFields a slot [(8, f (ws.headD 0))]

/-- A header after resumption: `KIND` and the flags but `VALID` are 0 (R195). -/
def resumedWord (w : Nat) : Nat := w % 2 ^ 8 + field w 16 1 * 2 ^ 16 + w / 2 ^ 32 * 2 ^ 32
/-- A header after delivery. -/
def deliveredWord (w : Nat) : Nat := if field w 17 1 = 1 then w else w + 2 ^ 17

/-! ### Bodies (R195-R198) -/

/-- The source registers of a texture instruction. -/
def Group.texSrc (g : Group) (a : Nat) : SMap Word :=
  (List.range 4).foldl (fun m k => (List.range g.width).foldl (fun m i => set 0 (k * 64 + i) (g.vreg (a + k) i) m) m) []

/-- The texture body read back. -/
def TexOp.read (x : TexOp) (g : Group) (ws : List Nat) : Option TexOp :=
  if slotField ws 0x28 1 ≤ 15 ∧ slotField ws 0x29 7 = 0 then
    some { x with done := BitVec.ofNat 64 (slotField ws 0x20 8), quad := slotField ws 0x28 1, src := g.texSrc x.a }
  else none

/-- The rasteriser body read back: a pixel in the box of the triangle (R139), or the one that the unit stands at. A stream
whose triangles are done stays as it is. -/
def RastOp.read (r : RastOp) (s : State) (a : Agent) (ws : List Nat) : Option RastOp :=
  let tri := slotField ws 0x20 4
  let stage := slotField ws 0x24 1
  let x := slotField ws 0x28 2
  let y := slotField ws 0x2A 2
  let q := { r with tri := tri }
  let shape := if tri = r.tri ∧ r.setup.isSome = true then r.setup else (s.peekTri a r tri).bind triOf
  let setup := if stage = 0 then (if tri = r.tri then r.setup else none) else shape
  let inBox := (tri = r.tri ∧ x = r.px ∧ y = r.py) ∨ (match shape with
    | none => false
    | some t =>
      let b := t.box
      decide (b.1 ≤ x) && decide ((x : Int) ≤ b.2.1) && decide (b.2.2.1 ≤ y) && decide ((y : Int) ≤ b.2.2.2)) = true
  if (tri < r.ntri ∨ tri = r.tri) ∧ stage ≤ 3 ∧ inBox ∧ slotField ws 0x25 3 = 0 ∧ slotField ws 0x30 16 = 0 then
    let stage' := if setup.isNone then 0 else if stage = 2 then 1 else stage
    some { q with setup := setup, stage := stage', px := x, py := y, appended := slotField ws 0x2C 4, quads := [] }
  else none

/-- The copy body read back, and the counter that its completion lowers. -/
def CopyOp.read (c : CopyOp) (s : State) (ctx : Nat) (ws : List Nat) : Option (CopyOp × Nat) :=
  let hd := BitVec.ofNat 64 (slotField ws 0x20 8)
  let form := slotField ws 0x44 1
  let dc := slotField ws 0x45 1
  let row := slotField ws 0x40 4
  let rc := if hd = c.handle ∨ 4 ≤ form then some c.record else s.resolve ctx hd
  match rc with
  | none => none
  | some rc =>
    let c' := { c with form := form, handle := hd, record := rc, org := (List.range 5).map (fun d => slotInt ws (0x28 + 4 * d)),
                       share := slotField ws 0x3C 4, mem := if form % 2 = 1 then slotField ws 0x48 8 else c.mem, row := row,
                       rows := if 4 ≤ form then c.count / 256 else winRows rc }
    if form ≤ 5 ∧ (dc ≤ 7 ∨ dc = 0xFF) ∧ row < c'.rows ∧ slotField ws 0x46 2 = 0 then some (c', dc) else none

/-- A node reference has bits [5:3] zero (R197). -/
def refOk (x : Nat) : Bool := field x 3 3 == 0

/-- The pair-traverse body and its stack read back. -/
def PairOp.read (p : PairOp) (z : Nat) (stack : List Nat) (ws : List Nat) : Option PairOp :=
  let f := slotField ws 0x20 8
  let g := slotField ws 0x28 8
  let fl := slotField ws 0x48 1
  let depth := slotField ws 0x44 4
  let pairs := (List.range depth).map (fun k => (stack.getD (2 * k) 0, stack.getD (2 * k + 1) 0))
  let pend := (slotField ws 0x30 8, slotField ws 0x38 8)
  if f % 128 = 0 ∧ g % 128 = 0 ∧ depth ≤ (z - 9216) / 16 ∧ fl ≤ 7 ∧ slotField ws 0x49 7 = 0 ∧ slotField ws 0x54 4 = 0
      ∧ refOk pend.1 = true ∧ refOk pend.2 = true ∧ stack.all refOk = true then
    some { p with f := f, g := g, self := fl % 2 == 1, pending := if fl / 2 % 2 = 1 then some pend else none,
                  overflowed := fl / 4 % 2 == 1, stack := pairs.reverse.take 64, spilled := depth - 64, seqno := slotField ws 0x40 4, tag := slotField ws 0x50 4,
                  list := BitVec.ofNat 64 (slotField ws 0x58 8) }
  else none

/-- A ray's region read back: its frame, then its entries from the bottom (R196). -/
def Ray.read (r : Ray) (q : Nat) (ws es : List Nat) : Option Ray :=
  let depth := slotField ws 0x3C 2
  let st := slotField ws 0x40 1
  let entry (k : Nat) : Nat × Nat × Nat := (es.getD (2 * k) 0, field (es.getD (2 * k + 1) 0) 0 32, field (es.getD (2 * k + 1) 0) 32 8)
  let entries := (List.range depth).map entry
  if depth ≤ (q - 128) / 16 ∧ slotField ws 0x3E 1 ≤ 3 ∧ st % 16 ≤ 4 ∧ slotField ws 0x41 63 = 0
      ∧ entries.all (fun x => decide (x.2.2 ≤ 3)) = true
      ∧ (List.range depth).all (fun k => field (es.getD (2 * k + 1) 0) 40 24 == 0) = true then
    some { r with
      node := if slotField ws 0 8 = 0 then none else some (slotField ws 0 8), recs := (List.range 3).map (fun k => slotField ws (8 + 8 * k) 8), tmax := slotField ws 0x20 4,
      bestT := slotField ws 0x24 4, prim := slotField ws 0x28 4, geom := slotField ws 0x2C 4,
      inst := (List.range 3).map (fun k => slotField ws (0x30 + 4 * k) 4), level := slotField ws 0x3E 1,
      tri := slotField ws 0x3F 1, status := st % 16, child := st / 16 % 8, bestValid := st / 128 == 1,
      stack := entries.reverse.take 32, spilled := depth - 32, cand := none, committed := false }
  else none

/-- The rays of an operation read back from their regions. -/
def State.readRays (s : State) (o : Op) (q : Nat) : List Nat → Except (Kind × Nat) State
  | [] => .ok s
  | i :: is =>
    match find i (s.group o.team o.grp).rays with
    | none => s.readRays o q is
    | some r => do
      let va := s.replayVa o.team o.grp (0x2400 + i * q)
      let (ws, s) ← State.loadWords { o.agent with level := .control } s va 16
      let (es, s) ← State.loadWords { o.agent with level := .control } s (va + 128) (2 * slotField ws 0x3C 2)
      match r.read q ws es with
      | none => .error (.illegalOperand, 0)
      | some r => (s.onGroup o.team o.grp (fun g => { g with rays := put i r g.rays })).readRays o q is

/-- The lanes of a traverse body. -/
def RayOp.read (x : RayOp) (width q : Nat) (ws : List Nat) : Option RayOp :=
  let lanes := BitVec.ofNat 64 (slotField ws 0x20 8)
  let live := BitVec.ofNat 64 (slotField ws 0x28 8)
  if slotField ws 0x30 1 ≤ 1 ∧ slotField ws 0x31 1 ≤ 1 ∧ slotField ws 0x32 2 = 0 ∧ slotField ws 0x38 8 = 0
      ∧ slotField ws 0x34 4 = q ∧ lanes &&& ~~~lowMask width = 0 ∧ live &&& ~~~lanes = 0 then
    some { x with lanes := lanes, live := live, cont := slotField ws 0x30 1 == 1, packet := slotField ws 0x31 1 == 1 }
  else none

/-- The body of an operation read back from its record, or Illegal-Operand (R195). -/
def State.readBody (s : State) (o : Op) (ws : List Nat) : Except (Kind × Nat) (Body × State) :=
  let bad : Except (Kind × Nat) (Body × State) := .error (.illegalOperand, 0)
  match o.body with
  | .tex x => match x.read (s.group o.team o.grp) ws with
    | some x => .ok (.tex x, s)
    | none => bad
  | .rast r => match r.read s o.agent ws with
    | some r => .ok (.rast r, s)
    | none => bad
  | .copy c => match c.read s o.ctx ws with
    | some (c, dc) =>
      let s := s.onGroup o.team o.grp (fun g =>
        g.results o.pend (fun p => { p with dc := if dc = 0xFF then none else some (BitVec.ofNat 3 dc) }))
      .ok (.copy c, s)
    | none => bad
  | .pair p => do
    let z := s.replaySize o.team
    let depth := slotField ws 0x44 4
    if (z - 9216) / 16 < depth then bad
    else
      let (st, s) ← State.loadWords { o.agent with level := .control } s (s.replayVa o.team o.grp 0x2400) (2 * depth)
      match p.read z st ws with
      | some p => .ok (.pair p, s)
      | none => bad
  | .ray x =>
    let q := s.rayBytes o.team o.grp
    match x.read (s.group o.team o.grp).width q ws with
    | none => bad
    | some x => do
      let s ← s.readRays o q (lanesOf x.lanes)
      .ok (.ray x, s)
  | .drain => .ok (.drain, s)
  | .near n => .ok (.near n, s)
  | .crest k => .ok (.crest k, s)

/-- The lines that a copy out has still to request (R99). -/
def Op.copyNeed (o : Op) (s : State) : Op :=
  match o.body with
  | .copy c =>
    if c.out then { o with need := (s.copyLines o.agent c c.row).filter (fun l => !o.own.contains l), e := none } else o
  | .rast _ => if o.need.isEmpty then o else { o with e := none }
  | .tex _ | .ray _ | .pair _ | .drain | .near _ | .crest _ => o

/-- An operation resumes from its record (R195). -/
def State.resumeOp (s : State) (id : Nat) : Except (Kind × Nat) State :=
  match find id s.ops with
  | none => .ok s
  | some o => do
    let slot := s.slotVa o.team o.grp o.body.unit
    let (ws, s) ← s.readSlot o.agent slot
    if !slotOk o.body.unit ws then .error (.illegalOperand, 0)
    else
      let (b, s) ← s.readBody o ws
      let s := s.markSlot o.agent slot resumedWord
      .ok (s.onOp id (fun o => ({ o with park := none, body := b } : Op).copyNeed s))

/-! ### The end of an abandoned operation (R195) -/

/-- An outstanding instruction that ends without a result: its counter is lowered. -/
def Group.discard (g : Group) (p : Option Nat) : Group :=
  match p with
  | none => g
  | some k => match find k g.pend with
    | none => g
    | some x => g.retire k { x with vw := [], pw := [], sw := [], flags := 0, calls := [] }

/-- An operation ends as an abandoned one does. -/
def State.abandonOp (s : State) (id : Nat) : State :=
  match find id s.ops with
  | none => s
  | some o =>
    let s := s.onGroup o.team o.grp (fun g => g.discard o.pend)
    let s := match o.body with
      | .copy c => s.onTeam o.team (fun (t : Team) => { (c.clears.foldl Team.restoreLine t) with
          h := t.h.map (fun (e : Nat × Shelf) => (e.1, { e.2 with wants := e.2.wants.filter (fun (w : ShelfWant) => w.who != Who.op id) })) })
      | .ray x => s.onGroup o.team o.grp (fun g => { g with rays := g.rays.filter (fun e => !x.live.getLsbD e.1) })
      | .tex _ | .rast _ | .pair _ | .drain | .near _ | .crest _ => s
    { s with ops := del id s.ops }

/-! ### Sequencer and sweep engines -/

/-- The sequencer's body read back (R198). -/
def Seq.readBack (q : Seq) (ws : List Nat) : Option Seq :=
  let at_ := BitVec.ofNat 64 (slotField ws 0x20 8)
  let depth := slotField ws 0x52 1
  let st := slotField ws 0x53 1
  let cur := slotField ws 0x50 2
  let loops := (List.range depth).map (fun k => (slotField ws (0x30 + 4 * k) 4, slotField ws (0x40 + 4 * k) 4))
  if depth ≤ 4 ∧ st ≤ 4 ∧ cur < q.bound ∧ slotField ws 0x5C 4 = 0 then
    let inside := q.hdr + 8 ≤ at_ ∧ at_ - q.hdr - 8 < BitVec.ofNat 64 q.body.length
    let q := if at_ = q.at_ then q
      else if inside then { q with at_ := at_, pos := (at_ - q.hdr - 8).toNat, begun := false } else q.goTo at_
    some { q with
      start := BitVec.ofNat 64 (slotField ws 0x28 8), loops := loops.reverse, cursor := if st = 2 then q.cursor else cur
      fmtA := BitVec.ofNat 16 (slotField ws 0x54 2), fmtB := BitVec.ofNat 16 (slotField ws 0x56 2)
      amax := slotField ws 0x58 4, phase := if st = 2 then cur == 1 else q.phase
      st := match st with
        | 0 => .idle
        | 2 => .atBarrier
        | 3 => .atShelf
        | _ => .running
      begun := if st = 2 ∨ st = 3 then q.begun else false, park := none }
  else none

/-- The sequencer resumes from its record; one put into the idle state ends its stream. -/
def State.resumeSeq (s : State) (t : Nat) : Except (Kind × Nat) State := do
  let q := (s.team t).seq
  let a := s.seqAgent t
  let slot := s.slotVa t q.grp 7
  let (ws, s) ← s.readSlot a slot
  if !slotOk 7 ws then .error (.illegalOperand, 0)
  else
    match q.readBack ws with
    | none => .error (.illegalOperand, 0)
    | some q' =>
      let s := (s.markSlot a slot resumedWord).onSeq t (fun _ => q')
      .ok (if q'.st = .idle then s.seqEnd t else s)

/-- The phase in which an engine goes on after a record's code: after an admission or a write-back it streams its pass
(R198). -/
def phaseOf (n : Nat) : SweepPhase :=
  match n with
  | 0 | 1 | 2 => .claim
  | 3 => .barrier1
  | 4 => .barrier2
  | _ => .barrier3

/-- A write-back entry of a record is one that R198 gives, for what the engine has at its place. -/
def wbOk (x : Nat) (at_ : Option Nat) : Bool :=
  x == 0xFF || (at_ == some (x % 256) && decide (x / 256 % 256 < 32) && decide (1 ≤ x / 65536) && decide (x / 65536 ≤ 3))

/-- The parcel tensor of a record's handle: the sweep's own, or another that the handle names (R195). -/
def State.sweepRecord (s : State) (w : Sweep) (hd : Word) : Option (BitVec 768) :=
  if hd = w.handle then some w.record else (s.resolve w.ctx hd).filter recParcel

/-- An engine's body read back into the sweep (R198). -/
def Sweep.read (w : Sweep) (s : State) (rank : Nat) (x : Engine) (ws : List Nat) : Option Sweep :=
  let mode := slotField ws 0x2A 1
  let ph := slotField ws 0x2B 1
  let cc := slotField ws 0x28 2
  let cur := (slotField ws 0x2C 4 + 1) % 2 ^ 32
  let pass := slotField ws 0x20 8
  let role := slotField ws 0x42 1
  let wb := (List.range 4).map (fun k => slotField ws (0x48 + 8 * k) 8)
  let build := x.phase = .build ∧ ph = 0
  let r := w.range rank
  let inRange := if build then slotField ws 0x2C 4 = x.next ∨ (x.cleared = true ∧ r.1 ≤ slotField ws 0x2C 4 ∧ slotField ws 0x2C 4 ≤ r.2)
    else cur = x.cursor ∨ (r.1 ≤ cur ∧ cur ≤ r.2)
  let roles := match s.headerOf w.team with
    | some h => h.roles.length
    | none => 8
  match s.sweepRecord w (BitVec.ofNat 64 (slotField ws 0x30 8)) with
  | none => none
  | some record =>
    if mode ≤ 2 ∧ ph ≤ 5 ∧ cc ≤ w.nc ∧ pass < 2 ^ 40 ∧ inRange ∧ role < roles ∧ slotField ws 0x38 8 % 8 = 0
        ∧ slotField ws 0x43 5 = 0 ∧ wb.zipIdx.all (fun e => wbOk e.1 (find e.2 x.places)) = true then
      let x := { x with
        cc := cc, pass := pass, phase := if build then .build else phaseOf ph
        next := if build then slotField ws 0x2C 4 else if x.phase = phaseOf ph then x.next else 0
        cursor := if build then x.cursor else cur, park := none
        wb := wb.zipIdx.foldl (fun (m : SMap (Nat × Nat × Nat)) (y : Nat × Nat) =>
          if y.1 = 0xFF then m else put y.2 (y.1 % 256, y.1 / 256 % 256, y.1 / 65536) m) [] }
      some { w with
        mode := if mode = 0 then .one else if mode = 1 then .n else .quiet
        handle := BitVec.ofNat 64 (slotField ws 0x30 8), record := record
        table := BitVec.ofNat 64 (slotField ws 0x38 8), left := slotField ws 0x40 2, role := role
        engines := put rank x w.engines }
    else none

/-- An engine of a sweep resumes from its record. -/
def State.resumeEngine (s : State) (sw rank : Nat) : Except (Kind × Nat) State :=
  match find sw s.sweeps with
  | none => .ok s
  | some w =>
    match find rank w.engines with
    | none => .ok s
    | some x => do
      let a := s.sweepAgent w x
      let (ws, s) ← s.readSlot a (w.slot rank)
      if !slotOk 6 ws then .error (.illegalOperand, 0)
      else
        match w.read s rank x ws with
        | none => .error (.illegalOperand, 0)
        | some w' => .ok { s.markSlot a (w.slot rank) resumedWord with sweeps := put sw w' s.sweeps }

/-- An engine whose record is abandoned: it gives up what its write-back owns, and the sweep ends as R182 states. -/
def State.abandonEngine (s : State) (sw rank : Nat) : State :=
  let s := match (s.engine sw rank).bind (·.op) with
    | some o => { s with ops := del o s.ops }
    | none => s
  { s with sweeps := adjust sw (fun w => { w with
      stop := true, broken := true
      engines := adjust rank (fun x => { x with abandoned := true, park := none, held := false, op := none }) w.engines }) s.sweeps }

/-! ### The units of a group -/

/-- A unit of a group that can stand parked. -/
inductive UnitOf where
  | op (id : Nat)
  | engine (sweep rank : Nat)
  | seq (team : Nat)
  deriving DecidableEq, Repr

/-- The park of a unit. -/
def State.parkOf (s : State) (u : UnitOf) : Option Park :=
  match u with
  | .op id => (find id s.ops).bind (·.park)
  | .engine sw r => ((find sw s.sweeps).bind (fun w => find r w.engines)).bind (·.park)
  | .seq t => (s.team t).seq.park

/-- The slot of a unit's record, and for whom it is read. -/
def State.slotOf (s : State) (u : UnitOf) : Agent × Word :=
  match u with
  | .op id => match find id s.ops with
    | some o => (o.agent, s.slotVa o.team o.grp o.body.unit)
    | none => (s.deviceAgent 0, 0)
  | .engine sw r => match find sw s.sweeps with
    | some w => ({ core := (s.team w.team).core.getD 0, ctx := w.ctx, team := w.team, grp := w.grp, level := w.level,
                   ord := some w.ord }, w.slot r)
    | none => (s.deviceAgent 0, 0)
  | .seq t => (s.seqAgent t, s.slotVa t (s.team t).seq.grp 7)

/-- The parked units of a group in the order of delivery: ascending unit code, engines in ascending rank (R194). -/
def State.unitsOf (s : State) (team grp : Nat) : List (Nat × UnitOf) :=
  let ops := s.ops.filter (fun e => e.2.team == team && e.2.grp == grp && e.2.held && !e.2.spent)
  let of_ (u : Nat) : List (Nat × UnitOf) := (ops.filter (fun e => e.2.body.unit == u)).map (fun e => (u, .op e.1))
  let engines := (s.sweeps.filter (fun e => e.2.team == team && e.2.grp == grp)).flatMap (fun e =>
    (e.2.engines.filter (fun x => x.2.held)).map (fun x => (6, UnitOf.engine e.1 x.1)))
  let q := (s.team team).seq
  let all := of_ 1 ++ of_ 2 ++ of_ 3 ++ of_ 4 ++ of_ 5 ++ engines ++ (if q.held && q.grp == grp then [(7, .seq team)] else [])
  all.filter (fun u => (s.parkOf u.2).isSome)

/-- A parked unit resumes from its record. -/
def State.resume (s : State) (u : UnitOf) : Except (Kind × Nat) State :=
  match u with
  | .op id => s.resumeOp id
  | .engine sw r => s.resumeEngine sw r
  | .seq t => s.resumeSeq t

/-- A unit's operation ends as an abandoned one does. -/
def State.abandon (s : State) (u : UnitOf) : State :=
  match u with
  | .op id => s.abandonOp id
  | .engine sw r => s.abandonEngine sw r
  | .seq t => s.seqEnd t

/-- What `ERET` does with one parked unit: an abandoned one ends, a delivered one resumes, and one whose record fails
the checks ends with Illegal-Operand (R189, R195). -/
def State.returnUnit (p : Bool × State) (u : Nat × UnitOf) : Bool × State :=
  let s := p.2
  let x := s.slotOf u.2
  match s.readSlot x.1 x.2 with
  | .error _ => p
  | .ok (ws, s1) =>
    if !slotValid ws then (p.1, s1.abandon u.2)
    else if !slotDelivered ws then (p.1, s1)
    else
      match s1.resume u.2 with
      | .ok s2 => (p.1, s2)
      | .error _ => (true, s1.abandon u.2)

/-- The units of a group at an `ERET` of the group: whether a record failed its checks, and the state. -/
def State.returnUnits (s : State) (team grp : Nat) : Bool × State :=
  (s.unitsOf team grp).foldl State.returnUnit (false, s)

/-! ### Waiting instructions (R194, R195) -/

/-- The group leaves an instruction at which it waits for a unit: its path stands at it, to issue it again. -/
def State.leaveWait (s : State) (id : Nat) : State :=
  match find id s.ops with
  | none => s
  | some o =>
    let s := s.onGroup o.team o.grp (fun g =>
      (g.standAt o.path 1 o.token o.clause none).results o.pend (fun p => { p with holds := false, left_ := true }))
    let s := s.onOp id (fun o => { o with await := true })
    { s with cores := s.cores.map (fun e => match e.2.issue with
        | none => e
        | some x =>
          let ms := x.members.filter (fun m => !(m.team == o.team && m.grp == o.grp))
          if ms.length = x.members.length then e
          else (e.1, { e.2 with issue := if ms.isEmpty then none else some { x with members := ms } })) }

/-- The group waits at the instruction of an operation. -/
def State.holding (s : State) (o : Op) : Bool :=
  match o.pend with
  | none => false
  | some k => match find k (s.group o.team o.grp).pend with
    | some p => p.holds
    | none => false

/-- The operation of a unit of a group that has left its instruction. -/
def State.orphan (s : State) (team grp unit : Nat) : Option (Nat × Op) :=
  s.ops.find? (fun e => e.2.team == team && e.2.grp == grp && e.2.body.unit == unit && !s.holding e.2)

/-- After a return, an operation whose instruction the group will not issue next goes on by itself; one that is over is
forgotten. -/
def State.settleWaits (s : State) (team grp : Nat) : State :=
  let g := s.group team grp
  let stays (o : Op) : Bool :=
    (lanesOf o.path).any (fun i => g.state i == 1 && g.lanePc i == o.token)
  { s with ops := s.ops.filterMap (fun e =>
      if e.2.team == team && e.2.grp == grp && e.2.await && !stays e.2 then
        (if e.2.spent then none else some (e.1, { e.2 with await := false }))
      else some e) }

/-- How an instruction that waits for a unit finds that unit: free, still at work for this instruction, done with it,
or with a record that fails the checks (R195). -/
inductive Again where
  | fresh (s : State)
  | goOn (id : Nat) (s : State)
  | done (s : State)
  | bad (s : State)

/-- The re-issue of a waiting instruction at its address, or a new one that discards what the unit held (R195). -/
def State.again (s : State) (e : Env) (unit : Nat) (ll : Ll) : Again :=
  match s.orphan e.team e.grp unit with
  | none => .fresh s
  | some (id, o) =>
    if o.spent then
      let s := { s with ops := del id s.ops }
      if o.await && o.token == e.pc then
        .done (e.onGroup s (fun g => g.results o.pend (fun p => { p with left_ := false, la := ll.la.toNat, dist := [] })))
      else .fresh s
    else if o.token != e.pc then .fresh (s.clearRecord o |>.abandonOp id)
    else
      let back (s : State) : State :=
        (e.onGroup s (fun g => g.results o.pend (fun p =>
          { p with holds := true, left_ := false, la := ll.la.toNat, dist := [] }))).onOp id
          (fun o => { o with await := false, clause := (e.hdr, e.bodyw), path := e.path })
      match o.park with
      | none => .goOn id (back s)
      | some _ =>
        match s.readSlot o.agent (s.slotVa o.team o.grp unit) with
        | .error _ => .goOn id (back s)
        | .ok (ws, s1) =>
          if !slotValid ws then .fresh (s1.abandonOp id)
          else
            match s1.resumeOp id with
            | .ok s2 => .goOn id (back s2)
            | .error _ => .bad (s1.abandonOp id)

/-! ### Delivery (R194) -/

/-- A group stands at a clause boundary: none of its lanes is in a clause that is issuing (R194, R251). -/
def State.boundary (s : State) (team grp : Nat) : Bool :=
  !(s.group team grp).pend.any (fun p => p.2.holds) && s.cores.all (fun e =>
    (match e.2.issue with
      | none => true
      | some x => !x.members.any (fun m => m.team == team && m.grp == grp))
    && (match e.2.second with
      | none => true
      | some y => !(y.1 == team && y.2.1 == grp)))

/-- The fault that a group is to take next from its parked units. -/
def State.dueFault (s : State) (team grp : Nat) : Option (Nat × UnitOf × Park) :=
  (s.unitsOf team grp).findSome? (fun u => match s.parkOf u.2 with
    | none => none
    | some p => if p.delivered || p.preempt || p.sector.isSome then none else some (u.1, u.2, p))

/-- A parked unit's fault is marked as delivered, in its record too. -/
def State.markDelivered (s : State) (u : UnitOf) : State :=
  let x := s.slotOf u
  let s := s.markSlot x.1 x.2 deliveredWord
  let f (p : Option Park) : Option Park := p.map (fun p => { p with delivered := true })
  match u with
  | .op id => s.onOp id (fun o => { o with park := f o.park })
  | .engine sw r => s.onEngine sw r (fun x => { x with park := f x.park })
  | .seq t => s.onSeq t (fun q => { q with park := f q.park })

/-- The operation of a unit at whose instruction the group waits. -/
def State.waitsAt (s : State) (u : UnitOf) : Option Op :=
  match u with
  | .op id => (find id s.ops).bind (fun o => if s.holding o then some o else none)
  | .engine _ _ => none
  | .seq _ => none

/-- The agent of a group's own actions. -/
def State.groupAgent (s : State) (team grp : Nat) : Agent :=
  { core := (s.team team).core.getD 0, ctx := s.ctxOf team, team := team, grp := grp, level := (s.group team grp).level }

/-- A group can take an exception now: no trap of it is due, and nothing holds the entry back (R186). -/
def State.mayTrap (s : State) (team grp : Nat) (ui : Bool) : Bool :=
  (s.group team grp).late.isNone && !s.notYet (s.groupAgent team grp) ui

/-- `PARKED_FAULT_DELIVERY`: a group takes the trap of its first parked unit, at the instruction that waits for the unit
or at its clause boundary; a group without an unexited lane cannot, and its context halts (R194, R288). -/
def execParkedFaultDelivery (team grp : Nat) (s : State) : Host.Outcome State Fault Refusal :=
  .next (match s.dueFault team grp with
    | none => s
    | some (unit, u, p) =>
      let g := s.group team grp
      let a := s.groupAgent team grp
      let x (pc : Word) : Entry := { kind := p.kind, detail := p.detail, unit := unit, lanes := 0, pc := pc, ui := false }
      if g.live = 0 then
        (s.markDelivered u).haltContext a.ctx p.kind unit (s.team team).no grp (g.lanePc (lowest g.launched))
      else if !s.mayTrap team grp false then s
      else
        match s.waitsAt u, u with
        | some o, .op id => ((s.markDelivered u).leaveWait id).enter a (x o.token)
        | _, _ =>
          if s.boundary team grp && (g.level == .user || (s.ctx a.ctx).ctrl) then
            (s.markDelivered u).enter a (x (g.lanePc (lowest g.live)))
          else s)

/-- A header whose unit has its fill, while its context does not run: the unit stands parked by pre-emption (R192, R337). -/
def filledWord (w : Nat) : Nat := resumedWord w + 2 ^ 19

/-- A park for a sector, once that is filled: none, or one by pre-emption while the context does not run. -/
def Park.filled (runs : Bool) (p : Park) : Option Park := if runs then none else some { p with sector := none, preempt := true }

/-- A unit of a context that waits for a sector, once that is filled: it goes on by itself (R194). -/
def State.fillUnit (s : State) (c sector : Nat) (u : UnitOf) : State :=
  match s.parkOf u with
  | none => s
  | some p =>
    if p.sector ≠ some sector then s
    else
      let runs := s.unitsRun c
      let x := s.slotOf u
      let s := s.markSlot x.1 x.2 (if runs then resumedWord else filledWord)
      match u with
      | .op id => s.onOp id (fun o => { o with park := p.filled runs })
      | .engine sw r => s.onEngine sw r (fun x => { x with park := p.filled runs })
      | .seq t => s.onSeq t (fun q => { q with park := p.filled runs, st := if runs then q.back else q.st })

/-- Every unit of a context, in no order. -/
def State.unitsIn (s : State) (ok : Nat → Bool) : List (Nat × UnitOf) :=
  ((s.ops.filter (fun e => ok e.2.ctx)).map (fun e => (e.2.ctx, UnitOf.op e.1)))
  ++ ((s.teams.filter (fun e => ok e.2.ctx)).map (fun e => (e.2.ctx, UnitOf.seq e.1)))
  ++ (s.sweeps.filter (fun e => ok e.2.ctx)).flatMap (fun e => e.2.engines.map (fun x => (e.2.ctx, UnitOf.engine e.1 x.1)))

/-- Units whose page-cache miss has been filled go on by themselves (R194). -/
def State.refilled (s : State) (sector : Nat) : State :=
  (s.unitsIn (fun _ => true)).foldl (fun s u => s.fillUnit u.1 sector u.2) s

/-- Units of a context parked by pre-emption resume when the context runs again; one whose record software has spoilt
ends as an abandoned one (R337, R195). -/
def State.resumeUnit (s : State) (u : UnitOf) : State :=
  match s.parkOf u with
  | none => s
  | some p =>
    if !p.preempt then s
    else
      match s.resume u with
      | .ok s => s
      | .error _ => s.abandon u

/-- Every unit of a context that pre-emption parked. -/
def State.resumeAll (s : State) (c : Nat) : State := (s.unitsIn (fun x => x == c)).foldl (fun s u => s.resumeUnit u.2) s

end Sys2Proof.Machine
end

