-- ==== Sys2Proof/Machine/Texture.lean ====
section
/-!
DEFINITION. The texture unit (R146-R150, R303, R304) and `IMGST` (R305).
-/
namespace Sys2Proof.Machine

/-! ### Descriptors (R303) -/

/-- A field of a texture descriptor. -/
def texField (x : BitVec 512) (lo n : Nat) : Nat := (x.extractLsb' lo n).toNat
/-- A field of a sampler descriptor. -/
def sampField (x : BitVec 256) (lo n : Nat) : Nat := (x.extractLsb' lo n).toNat
/-- A signed field of a sampler descriptor. -/
def sampInt (x : BitVec 256) (lo : Nat) : Int := (x.extractLsb' lo 16).toInt

/-- Levels minus 1, format, and whether the texture is 3D. -/
def texLevels (x : BitVec 512) : Nat := texField x 112 5
/-- `TFMT`. -/
def texFmt (x : BitVec 512) : Nat := texField x 120 4
/-- `DIM`. -/
def tex3d (x : BitVec 512) : Bool := x.getLsbD 124

/-- The extent of a level on an axis: 0 width, 1 height, 2 depth (R303). -/
def texSize (x : BitVec 512) (axis l : Nat) : Nat := Nat.max 1 ((texField x (64 + 16 * axis) 16 + 1) / 2 ^ l)

/-- Bytes of a texel. -/
def texelBytes (x : BitVec 512) : Nat :=
  match texFmt x with
  | 2 => 8
  | 3 => 16
  | 4 => 1
  | _ => 4

/-- The channels of a texel. -/
def texChannels (x : BitVec 512) : Nat := if texFmt x = 4 ∨ texFmt x = 5 then 1 else 4

/-- The offset of a level (R303). -/
def texOffset (x : BitVec 512) : Nat → Nat
  | 0 => 0
  | l + 1 => texOffset x l + (texSize x 0 l * texSize x 1 l * texSize x 2 l * texelBytes x + 255) / 256 * 256

/-- The address of a texel. -/
def texelVa (x : BitVec 512) (l i j k : Nat) : Word :=
  BitVec.ofNat 64 (texField x 0 64 + texOffset x l + ((k * texSize x 1 l + j) * texSize x 0 l + i) * texelBytes x)

/-- The accesses that make up a texel: whole words, or single bytes where the base is not aligned. -/
def texelPieces (x : BitVec 512) (va : Word) : List (Word × Nat) :=
  let n := texelBytes x
  let w := Nat.min n 8
  if va.toNat % w = 0 then (List.range (n / w)).map (fun k => (va + BitVec.ofNat 64 (w * k), w))
  else (List.range n).map (fun k => (va + BitVec.ofNat 64 k, 1))

/-- A texture descriptor breaks a rule of R303. -/
def texBad (x : BitVec 512) : Bool :=
  let m := Nat.max (texField x 64 16 + 1) (Nat.max (texField x 80 16 + 1) (texField x 96 16 + 1))
  texField x 117 3 != 0 || texField x 125 387 != 0 || decide (6 ≤ texFmt x) || decide (Nat.log2 m < texLevels x)

/-- A sampler descriptor breaks a rule of R303. -/
def sampBad (x : BitVec 256) (levels : Nat) : Bool :=
  sampField x 8 2 == 3 || decide (5 ≤ sampField x 10 3) || sampField x 13 3 != 0 || sampField x 64 192 != 0
    || decide (sampInt x 48 < sampInt x 32) || decide ((256 * levels : Int) < sampInt x 48)

/-! ### Texel values (R146) -/

/-- The integer fifth root, by binary digits from `2^k` down. -/
def iroot5From : Nat → Nat → Nat → Nat
  | 0, r, n => if (r + 1) ^ 5 ≤ n then r + 1 else r
  | k + 1, r, n => iroot5From k (if (r + 2 ^ (k + 1)) ^ 5 ≤ n then r + 2 ^ (k + 1) else r) n

/-- An entry of the sRGB table: the FP32 value of a code, correctly rounded (R146). -/
def srgb (c : Nat) : Nat :=
  if c = 0 then 0
  else if c * 100000 ≤ 4045 * 255 then
    let r := ratio (100 * c) (255 * 1292)
    (Fmt.f32.roundMag r.1 r.2).1
  else
    -- ((1000 c + 14025) / 269025) ^ (12 / 5), with one sticky bit below 64 fraction bits
    let p := (1000 * c + 14025) ^ 12 * 2 ^ 320
    let q := 269025 ^ 12
    let r := iroot5From 66 0 (p / q)
    if r ^ 5 * q = p then (Fmt.f32.roundMag r (-64)).1 else (Fmt.f32.roundMag (2 * r + 1) (-65)).1

/-- The bits of a channel of a texel. -/
def channelBits (x : BitVec 512) (raw c : Nat) : Nat :=
  match texFmt x with
  | 2 => field raw (16 * c) 16
  | 3 | 5 => field raw (32 * c) 32
  | _ => field raw (8 * c) 8

/-- The value of a channel, in units of 1/255 where the last component says so (R146). -/
def channelVal (x : BitVec 512) (raw c : Nat) : Val × Bool :=
  let b := channelBits x raw c
  match texFmt x with
  | 0 | 4 => (.fin false b 0, true)
  | 1 => if c = 3 then (.fin false b 0, true) else (Fmt.f32.val (srgb b), false)
  | 2 => (Fmt.f16.val b, false)
  | _ => (Fmt.f32.val b, false)

/-- The channel is in units of 1/255. -/
def channelUnit (x : BitVec 512) (c : Nat) : Bool := texFmt x == 0 || texFmt x == 4 || (texFmt x == 1 && c == 3)

/-- The exact weighted sum of texel values over `2^24`, rounded once to FP32 (R150); `none` is a border texel. -/
def blend (x : BitVec 512) (c : Nat) (taps : List (Nat × Option Nat)) : Nat :=
  if channelUnit x c then
    let n := taps.foldl (fun n t => n + t.1 * (match t.2 with
      | none => 0
      | some raw => channelBits x raw c)) 0
    if n = 0 then 0
    else
      let r := ratio n (255 * 2 ^ 24)
      (Fmt.f32.roundMag r.1 r.2).1
  else
    let vs := (taps.filter (fun t => t.1 != 0)).map (fun t => match t.2 with
      | none => Val.fin false 0 0
      | some raw => (mulVal (channelVal x raw c).1 (.fin false t.1 (-24))).1)
    (Fmt.f32.round (sumVal vs).1).1

/-! ### Addressing and filtering (R147, R148) -/

/-- A fixed-point texel coordinate: u times the size times 256, rounded and clamped (R147). -/
def texCoord (u size : Nat) : Int :=
  let lo : Int := -(2 ^ 31)
  let hi : Int := 2 ^ 31 - 1
  match Fmt.f32.val u with
  | .nan _ => 0
  | .inf n => if n then lo else hi
  | .fin n m e =>
    let m := m * size
    let e := e + 8
    let r : Int := if e < 0 then shiftRne m e.natAbs else m * 2 ^ e.toNat
    let x := if n then -r else r
    if x < lo then lo else if hi < x then hi else x

/-- A texel index wrapped by a mode; none is the border (R147). -/
def wrapIndex (i : Int) (n mode : Nat) : Option Nat :=
  match mode with
  | 0 => some (i % n).toNat
  | 1 =>
    let m := (i % (2 * n)).toNat
    some (if m < n then m else 2 * n - 1 - m)
  | 2 => some (if i < 0 then 0 else if (n : Int) ≤ i then n - 1 else i.toNat)
  | _ => if 0 ≤ i ∧ i < n then some i.toNat else none

/-- A texel named by level and indices; none is the border. -/
abbrev Texel := Option (Nat × Nat × Nat × Nat)

/-- A texel at wrapped indices of a level. -/
def texelAt (samp : BitVec 256) (x : BitVec 512) (l : Nat) (i j : Int) (k : Option Nat) : Texel :=
  match wrapIndex i (texSize x 0 l) (sampField samp 0 2), wrapIndex j (texSize x 1 l) (sampField samp 2 2), k with
  | some i, some j, some k => some (l, i, j, k)
  | _, _, _ => none

/-- The slice of a level that a coordinate names (R303). -/
def texSlice (samp : BitVec 256) (x : BitVec 512) (l w : Nat) : Option Nat :=
  if tex3d x then wrapIndex (texCoord w (texSize x 2 l) / 256) (texSize x 2 l) (sampField samp 4 2) else some 0

/-- The four texels of a bilinear footprint with their weights (R148). -/
def bilinear (samp : BitVec 256) (x : BitVec 512) (l u v w : Nat) : List (Nat × Texel) :=
  let s := texCoord u (texSize x 0 l) - 128
  let t := texCoord v (texSize x 1 l) - 128
  let i := s / 256
  let j := t / 256
  let fx := (s % 256).toNat
  let fy := (t % 256).toNat
  let k := texSlice samp x l w
  [((256 - fx) * (256 - fy), texelAt samp x l i j k), (fx * (256 - fy), texelAt samp x l (i + 1) j k),
   ((256 - fx) * fy, texelAt samp x l i (j + 1) k), (fx * fy, texelAt samp x l (i + 1) (j + 1) k)]

/-- The texel of nearest filtering (R148, R150). -/
def nearest (samp : BitVec 256) (x : BitVec 512) (l u v w : Nat) : List (Nat × Texel) :=
  [(65536, texelAt samp x l (texCoord u (texSize x 0 l) / 256) (texCoord v (texSize x 1 l) / 256) (texSlice samp x l w))]

/-- The levels of a sample and their weights (R149); below level 0 there is level 0 only (DEDUCED, entry 14). -/
def texLevelsAt (samp : BitVec 256) (lod : Int) : List (Nat × Nat) :=
  let l := (if lod < 0 then 0 else lod).toNat
  match sampField samp 8 2 with
  | 0 => [(0, 256)]
  | 1 => [((l + 128) / 256, 256)]
  | _ => if l % 256 = 0 then [(l / 256, 256)] else [(l / 256, 256 - l % 256), (l / 256 + 1, l % 256)]

/-- The texels of one sample with their weights, in units of `2^-24` (R150). -/
def sampleTaps (samp : BitVec 256) (x : BitVec 512) (lod : Int) (u v w : Nat) : List (Nat × Texel) :=
  let linear := if lod ≤ 0 then samp.getLsbD 6 else samp.getLsbD 7
  (texLevelsAt samp lod).flatMap (fun l =>
    (if linear then bilinear samp x l.1 u v w else nearest samp x l.1 u v w).map (fun t => (l.2 * t.1, t.2)))

/-! ### Level of detail (R149) -/

/-- FP32 operations by bits, rounded once. -/
def mul32 (x y : Nat) : Nat := (fpMul .f32 x y).1
/-- FP32 addition. -/
def add32 (x y : Nat) : Nat := (fpAdd .f32 x y).1
/-- FP32 subtraction. -/
def sub32 (x y : Nat) : Nat := (fpSub .f32 x y).1
/-- A size as FP32, exactly. -/
def size32 (n : Nat) : Nat := (intToFp .f32 n).1

/-- A squared footprint along one axis of the screen (R149). -/
def footprint (x : BitVec 512) (du dv : Nat) : Nat :=
  let a := mul32 du (size32 (texSize x 0 0))
  let b := mul32 dv (size32 (texSize x 1 0))
  add32 (mul32 a a) (mul32 b b)

/-- `x` is below `y`, both FP32 bits scaled by integers. -/
def below32 (n x y : Nat) : Bool :=
  let p := (mulVal (Fmt.f32.val x) (.fin false n 0)).1
  !p.isNan && !(Fmt.f32.val y).isNan && decide (cmpVal p (Fmt.f32.val y) < 0)

/-- The number of samples of anisotropic filtering: the loop of R149. -/
def anisoFrom : Nat → Nat → Nat → Nat → Nat → Nat
  | 0, n, _, _, _ => n
  | k + 1, n, top, pmin, pmax => if n < top ∧ below32 (n * n) pmin pmax = true then anisoFrom k (2 * n) top pmin pmax else n

/-- Floor of 128 times the binary logarithm of a positive finite FP32 value, exactly. -/
def log128 (m : Nat) (e : Int) : Int := (Nat.log2 (m ^ 128) : Int) + 128 * e

/-- A clamp. -/
def clampTo (lo hi x : Int) : Int := if x < lo then lo else if hi < x then hi else x

/-- A level of detail: samples, value before and after the clamp, and whether the x axis is the major one. The value
before the clamp that no finite number gives is not stated: a free value (entry 8). -/
structure Lod where
  n : Nat
  raw : Int
  lod : Int
  major : Bool
  deriving DecidableEq, Repr

/-- The bound that stands for an infinite level of detail. -/
def lodInf : Int := 2 ^ 40

/-- A value of 32 bits that nothing states. -/
def freeInt (k : Nat) : Int := ((Config.word k).extractLsb' 0 32).toInt

/-- The clamp of R149 with the sampler's bias. -/
def lodClamp (samp : BitVec 256) (raw : Int) : Int := clampTo (sampInt samp 32) (sampInt samp 48) (raw + sampInt samp 16)

/-- The level of detail from derivatives (R149). Where one of px and py is a NaN, which the rule does not cover, Max and Min are
those of R119, the number (entry 134). -/
def lodOf (samp : BitVec 256) (x : BitVec 512) (free dudx dvdx dudy dvdy : Nat) : Lod :=
  let px := footprint x dudx dvdx
  let py := footprint x dudy dvdy
  let pmax := (fpMinMax .f32 true px py).1
  let pmin := (fpMinMax .f32 false px py).1
  let n := anisoFrom 4 1 (2 ^ sampField samp 10 3) pmin pmax
  let raw : Int := match Fmt.f32.val pmax with
    | .nan _ => sampInt samp 32
    | .inf _ => lodInf
    | .fin _ m e => if m = 0 then sampInt samp 32 else log128 m e - 256 * Nat.log2 n
  let a := Fmt.f32.val px
  let b := Fmt.f32.val py
  { n := n, raw := if raw = lodInf then freeInt free else raw, lod := lodClamp samp raw
    major := !a.isNan && !b.isNan && decide (0 ≤ cmpVal a b) }

/-- The level of detail of `TEXL`, for which a NaN states no value (R149; entry 8). -/
def lodGiven (samp : BitVec 256) (free lod : Nat) : Int :=
  match Fmt.f32.val lod with
  | .nan _ => lodClamp samp (freeInt free)
  | .inf n => lodClamp samp (if n then -lodInf else lodInf)
  | .fin _ _ _ => lodClamp samp ((fixPoint 8 lod).getD 0)

/-! ### Samples (R150) -/

/-- The coordinate of sample k of n along the major axis (R150). -/
def sampleAt (u du k n : Nat) : Nat :=
  let c : Int := 2 * (k : Int) + 1 - n
  let p := (mulVal (Fmt.f32.val du) (.fin (decide (c < 0)) c.natAbs (-((Nat.log2 n : Int) + 1)))).1
  add32 u (Fmt.f32.round p).1

/-- What a lane of a texture instruction needs: the texels of each of its samples. -/
structure LaneTex where
  lod : Lod
  samples : List (List (Nat × Texel))

/-- A source register of a lane: low or high half. -/
def TexOp.half (x : TexOp) (k lane : Nat) (hi : Bool) : Nat := bits (get 0 (k * 64 + lane) x.src) (if hi then 32 else 0) 32

/-- The derivatives of a lane: dudx, dvdx, dudy, dvdy (R144, R149). -/
def TexOp.derivs (x : TexOp) (lane : Nat) : Nat × Nat × Nat × Nat :=
  let q := lane / 4 * 4
  match x.kind with
  | .texd => (x.half 2 lane false, x.half 2 lane true, x.half 3 lane false, x.half 3 lane true)
  | .tex | .texg _ | .texl | .tlod =>
    (sub32 (x.half 0 (q + 1) false) (x.half 0 q false), sub32 (x.half 0 (q + 1) true) (x.half 0 q true),
     sub32 (x.half 0 (q + 2) false) (x.half 0 q false), sub32 (x.half 0 (q + 2) true) (x.half 0 q true))

/-- The level of detail of a lane. -/
def TexOp.lodAt (x : TexOp) (free lane : Nat) : Lod :=
  match x.kind with
  | .texl => { n := 1, raw := 0, lod := lodGiven x.samp (free + lane) (x.half 2 lane false), major := false }
  | .texg _ => { n := 1, raw := 0, lod := 0, major := false }
  | .tex | .texd | .tlod =>
    let d := x.derivs lane
    lodOf x.samp x.desc (free + lane) d.1 d.2.1 d.2.2.1 d.2.2.2

/-- The texels that a lane needs. -/
def TexOp.lane (x : TexOp) (free i : Nat) : LaneTex :=
  let u := x.half 0 i false
  let v := x.half 0 i true
  let w := x.half 1 i false
  let l := x.lodAt free i
  match x.kind with
  | .tlod => { lod := l, samples := [] }
  | .texg _ => { lod := l, samples := [bilinear x.samp x.desc 0 u v w] }
  | .tex | .texl | .texd =>
    if l.n = 1 then { lod := l, samples := [sampleTaps x.samp x.desc l.lod u v w] }
    else
      let d := x.derivs i
      let du := if l.major then d.1 else d.2.2.1
      let dv := if l.major then d.2.1 else d.2.2.2
      { lod := l, samples := (List.range l.n).map (fun k =>
          sampleTaps x.samp x.desc l.lod (sampleAt u du k l.n) (sampleAt v dv k l.n) w) }

/-- The texels of a lane that are fetched: those with a weight, and all four of `TEXG`. -/
def TexOp.wanted (x : TexOp) (t : LaneTex) : List (Nat × Nat × Nat × Nat) :=
  let all := match x.kind with
    | .texg _ => true
    | .tex | .texl | .texd | .tlod => false
  t.samples.flatMap (fun ts => ts.filterMap (fun y => if y.1 == 0 && !all then none else y.2))

/-- The filtered value of a channel over a lane's samples (R150). -/
def filtered (x : BitVec 512) (c : Nat) (samples : List (List (Nat × Option Nat))) : Nat :=
  let ts := samples.map (blend x c)
  let acc := (ts.drop 1).foldl add32 (ts.headD 0)
  (Fmt.f32.round (mulVal (Fmt.f32.val acc) (.fin false 1 (-(Nat.log2 ts.length : Int)))).1).1

/-- The result registers of a lane (R304). -/
def TexOp.result (x : TexOp) (t : LaneTex) (fetch : Nat × Nat × Nat × Nat → Nat) : List Nat :=
  let raw (y : Nat × Texel) : Nat × Option Nat := (y.1, y.2.map fetch)
  match x.kind with
  | .tlod => [(t.lod.raw % 2 ^ 32).toNat + (t.lod.lod % 2 ^ 32).toNat * 2 ^ 32]
  | .texg c =>
    let v (k : Nat) : Nat := match (t.samples.headD [])[k]? with
      | some y => if c < texChannels x.desc then blend x.desc c [(2 ^ 24, (raw y).2)]
        else if c = 3 then (match y.2 with
          | some _ => 0x3F800000
          | none => 0) else 0
      | none => 0
    [v 0 + v 1 * 2 ^ 32, v 2 + v 3 * 2 ^ 32]
  | .tex | .texl | .texd =>
    let ss := t.samples.map (fun l => l.map raw)
    let ch (c : Nat) : Nat := if c < texChannels x.desc then filtered x.desc c ss else if c = 3 then 0x3F800000 else 0
    [ch 0 + ch 1 * 2 ^ 32, ch 2 + ch 3 * 2 ^ 32]

/-! ### The unit -/

/-- The word at an address cannot be read, or is poisoned (R394). -/
def State.badAt (s : State) (a : Agent) (va : Word) : Bool :=
  match s.seekNow a .read va with
  | .error _ => true
  | .ok p => s.poisoned (s.keyOf a.ctx) (lineNo p.addr)

/-- A texel read as an engine's source (R101, R161): its raw bits. One of a helper lane that cannot be read is zero (R143). -/
def State.readTexel (s : State) (a : Agent) (x : BitVec 512) (t : Nat × Nat × Nat × Nat) : Nat × State :=
  let ps := texelPieces x (texelVa x t.1 t.2.1 t.2.2.1 t.2.2.2)
  if ps.any (fun w => s.badAt a w.1) then (0, s)
  else
    let r := ps.foldl (fun (p : Nat × Nat × State) w =>
      let r := p.2.2.sourceRead a w.1 w.2
      (p.1 + r.1 * 2 ^ (8 * p.2.1), p.2.1 + w.2, r.2.2.2)) (0, 0, s)
    (r.1, r.2.2)

/-- Texels read in order, by name. -/
def State.readTexels (s : State) (a : Agent) (x : BitVec 512) (ts : List (Nat × Nat × Nat × Nat)) :
    List ((Nat × Nat × Nat × Nat) × Nat) × State :=
  ts.foldl (fun (p : List ((Nat × Nat × Nat × Nat) × Nat) × State) t =>
    let r := p.2.readTexel a x t
    (p.1 ++ [(t, r.1)], r.2)) ([], s)

/-- The addresses that the texels of some lanes take up. -/
def TexOp.vas (x : TexOp) (ys : List (Nat × LaneTex)) : List Word :=
  ((ys.flatMap (fun y => x.wanted y.2)).eraseDups).flatMap (fun t =>
    (texelPieces x.desc (texelVa x.desc t.1 t.2.1 t.2.2.1 t.2.2.2)).map (·.1))

/-- A page-cache miss among the addresses of a quad, whichever lane needs it; a fault only among those of lanes that are no
helper lanes (R143, R193). -/
def State.texObstacle (s : State) (a : Agent) (real all : List Word) : Option Park :=
  match s.obstacle a .read real with
  | some p => some p
  | none => all.findSome? (fun va => match s.reach a .read va with
    | .fill k => some (Park.fill s k va)
    | .ok _ | .fault _ => none)

/-- One quad of a texture instruction: its results are written, or the unit parks before it (R193, R198, R304). -/
def State.texQuad (s : State) (id : Nat) (o : Op) (x : TexOp) : State :=
  let a := o.agent
  let g := s.group o.team o.grp
  let act := (lanesOf x.lanes).filter (fun i => i / 4 == x.quad && !x.done.getLsbD i)
  let lanes := act.map (fun i => (i, x.lane (s.free 0) i))
  let real := x.vas (lanes.filter (fun y => !g.helper.getLsbD y.1))
  let want := (lanes.flatMap (fun y => x.wanted y.2)).eraseDups
  match s.texObstacle a real (x.vas lanes) with
  | some p => s.parkOp id p
  | none =>
    if s.readsWait id a (x.vas lanes) then s
    else
      match real.find? (fun va => s.badAt a va) with
      | some va => s.parkOp id (Park.fault s (.poison, 0) va)
      | none =>
        let r := s.readTexels a x.desc want
        let fetch (t : Nat × Nat × Nat × Nat) : Nat := match r.1.find? (fun y => y.1 == t) with
          | some y => y.2
          | none => 0
        let s := r.2.onGroup o.team o.grp (fun g => lanes.foldl (fun g y =>
          (x.result y.2 fetch).zipIdx.foldl (fun (g : Group) (w : Nat × Nat) =>
            g.setV (x.d + w.2) y.1 (BitVec.ofNat 64 w.1)) g) g)
        s.onOp id (fun o => { o with body := .tex { x with
          done := act.foldl (fun m i => m ||| laneBit i) x.done, quad := x.quad + 1 } })

/-- `TEXTURE_QUAD`: the texture unit takes the next quad of an instruction, or completes it (R198, R304). -/
def execTextureQuad (op : Nat) (s : State) : Host.Outcome State Fault Refusal :=
  .next (match find op s.ops with
    | none => s
    | some o =>
      match o.body with
      | .tex x =>
        if o.park.isSome || o.spent then s
        else if 16 ≤ x.quad || (x.lanes &&& ~~~x.done) == 0 then s.endOp op
        else s.texQuad op o x
      | .copy _ | .rast _ | .ray _ | .pair _ | .drain | .near _ | .crest _ => s)

/-! ### The instructions (R304) -/

/-- The instruction takes derivatives from the quad, so it reads all four lanes. -/
def TexKind.quads : TexKind → Bool
  | .tex | .tlod => true
  | .texg _ | .texl | .texd => false

/-- The words of a descriptor as far as they can be read and no operation owns them: what their checks judge (R184, R185). -/
def State.descWords (s : State) (a : Agent) (va : Word) (n : Nat) : Option Nat :=
  match State.readWords a s va n, s.wordsOwned a va n with
  | .ok p, [] => some (joinWords p.1)
  | .ok _, _ :: _ | .error _, _ => none

/-- Illegal-Operand of the two descriptors of a texture instruction, each as far as it can be judged; without the texture
descriptor, the bound of `MAXLOD8` is not (R303). -/
def State.texDefect (s : State) (a : Agent) (tva sva : Word) : Bool :=
  match s.descWords a tva 8, s.descWords a sva 4 with
  | some t, some m => texBad (BitVec.ofNat 512 t) || sampBad (BitVec.ofNat 256 m) (texLevels (BitVec.ofNat 512 t))
  | some t, none => texBad (BitVec.ofNat 512 t)
  | none, some m => sampBad (BitVec.ofNat 256 m) 128
  | none, none => false

/-- Both descriptors read at issue (R303). -/
def State.readTexDescs (s : State) (a : Agent) (tva sva : Word) : Except (Kind × Nat) (List Nat × State) := do
  let (ts, s) ← State.readWords a s tva 8
  let (ms, s) ← State.readWords a s sva 4
  .ok (ts ++ ms, s)

/-- The shared form of the texture instructions: descriptors and checks, then the unit begins, or goes on (R195,
R303, R304). -/
def State.texture (s : State) (g : Guard) (ll : Ll) (k : TexKind) (nd na : Nat) (d a : VReg) (b : SReg) : State :=
  s.run { g := g, top := maxOf [topV d nd, topV a na], ll := some ll, mem := true, reqs := true, acc := true } fun e s =>
    let gr := e.group s
    let tva := gr.sreg b.toNat
    let sva := gr.sreg (b.toNat + 1)
    if s.texDefect e.agent tva sva then e.fault .illegalOperand 0
    else
      e.withRead s (s.readTexDescs e.agent tva sva) (s.wordsOwned e.agent tva 8 ++ s.wordsOwned e.agent sva 4) fun ws s =>
        let alone (i : Nat) : Bool := (List.range 4).any (fun j => !e.path.getLsbD (i / 4 * 4 + j))
        match (if k.quads then laneFaults e.act (fun i => if alone i then some (.illegalOperand, 0) else none) else none) with
        | some t => .trap t
        | none =>
          if e.act = 0 then .go s
          else
            let w := joinWords (ws.getD [])
            let x : TexOp := { kind := k, desc := BitVec.ofNat 512 w, samp := BitVec.ofNat 256 (w / 2 ^ 512), lanes := e.act
                               done := 0, quad := 0, a := a.toNat, src := gr.texSrc a.toNat, d := d.toNat }
            match s.again e 3 ll with
            | .done s => .go s
            | .bad s => .ok (e.trap s { kind := .illegalOperand, detail := 0, lanes := e.act }) e.path
            | .goOn id s => .go (s.onOp id (fun o => match o.body with
                | .tex y => { o with body := .tex { x with done := y.done, quad := y.quad } }
                | .copy _ | .rast _ | .ray _ | .pair _ | .drain | .near _ | .crest _ => o))
            | .fresh s =>
              let p := (e.group s).begin ll e.act { Pend.access with ready := false, holds := true }
              let s := e.onGroup s (fun _ => p.1)
              .go (s.addOp { e.newOp s (some p.2) (.tex x) with begun := true }).1

/-- `TEX` (R304). -/
def execTex (g : Guard) (ll : Ll) (d a : VReg) (b : SReg) (s : State) : Host.Outcome State Fault Refusal :=
  .next (s.texture g ll .tex 2 2 d a b)

/-- `TEXG` (R304). -/
def execTexg (g : Guard) (ll : Ll) (c : BitVec 2) (d a : VReg) (b : SReg) (s : State) :
    Host.Outcome State Fault Refusal :=
  .next (s.texture g ll (.texg c.toNat) 2 2 d a b)

/-- `TEXL` (R304). -/
def execTexl (g : Guard) (ll : Ll) (d a : VReg) (b : SReg) (s : State) : Host.Outcome State Fault Refusal :=
  .next (s.texture g ll .texl 2 3 d a b)

/-- `TEXD` (R304). -/
def execTexd (g : Guard) (ll : Ll) (d a : VReg) (b : SReg) (s : State) : Host.Outcome State Fault Refusal :=
  .next (s.texture g ll .texd 2 4 d a b)

/-- `TLOD` (R304). -/
def execTlod (g : Guard) (ll : Ll) (d a : VReg) (b : SReg) (s : State) : Host.Outcome State Fault Refusal :=
  .next (s.texture g ll .tlod 1 2 d a b)

/-! ### `IMGST` (R305) -/

/-- A value clamped to [0, 1], in units of `1/255`, rounded to the nearest even code; a NaN gives 0. -/
def unormCode (x : Nat) : Nat :=
  match Fmt.f32.val x with
  | .nan _ => 0
  | .inf n => if n then 0 else 255
  | .fin n m e =>
    if n then 0
    else if 0 ≤ e then (if m = 0 then 0 else 255)
    else Nat.min 255 (shiftRne (255 * m) e.natAbs)

/-- Twice the distance of a value clamped to [0, 1] from an entry of the sRGB table, in units of `2^-200`. -/
def srgbDistance (m : Nat) (e : Int) (c : Nat) : Nat :=
  match Fmt.f32.val (srgb c) with
  | .fin _ n k => ((m * 2 ^ (e + 200).toNat : Int) - (n * 2 ^ (k + 200).toNat : Nat)).natAbs
  | .nan _ | .inf _ => 0

/-- The sRGB code whose table value is nearest, ties to the even code (R305). -/
def srgbCode (x : Nat) : Nat :=
  match Fmt.f32.val x with
  | .nan _ => 0
  | .inf n => if n then 0 else 255
  | .fin n m e =>
    if n then 0
    else if 2 ^ e.natAbs ≤ m ∨ (0 ≤ e ∧ 0 < m) then 255
    else
      (List.range 256).foldl (fun b c =>
        let db := srgbDistance m e b
        let dc := srgbDistance m e c
        if dc < db ∨ (dc = db ∧ c % 2 = 0) then c else b) 0

/-- A channel converted to the texel format (R305). -/
def channelCode (x : BitVec 512) (c v : Nat) : Nat :=
  match texFmt x with
  | 0 | 4 => unormCode v
  | 1 => if c = 3 then unormCode v else srgbCode v
  | 2 => (fpConv .f32 .f16 v).1
  | _ => v

/-- Bits of a channel in a texel. -/
def channelWidth (x : BitVec 512) : Nat := 8 * texelBytes x / texChannels x

/-- A number cut into runs of bytes, lowest first. -/
def fieldsOf (v : Nat) : List Nat → List Nat
  | [] => []
  | n :: ns => v % 2 ^ (8 * n) :: fieldsOf (v / 2 ^ (8 * n)) ns

/-- The texel that a lane writes, when it is in range. -/
def imgTexel (x : BitVec 512) (p q : Word) : Option Word :=
  let i := bits p 0 32
  let j := bits p 32 32
  let k := bits q 0 32
  let l := bits q 32 32
  if l ≤ texLevels x then
    if i < texSize x 0 l ∧ j < texSize x 1 l ∧ k < texSize x 2 l then some (texelVa x l i j k) else none
  else none

/-- `IMGST` (R305): all its lanes write at one timestamp E, when the lines are granted (R98, R99). -/
def execImgst (g : Guard) (ll : Ll) (d a : VReg) (b : SReg) (s : State) : Host.Outcome State Fault Refusal :=
  .next (s.run { g := g, top := maxOf [topV d 2, topV a 2], ll := some ll, mem := true, acc := true } fun e s =>
    let gr := e.group s
    e.withWords s (gr.sreg b.toNat) 8 fun ws s =>
      let desc := BitVec.ofNat 512 (joinWords ws)
      if texBad desc then e.fault .illegalOperand 0
      else
        let act := gr.real e.act
        let pieces (i : Nat) : List (Word × Nat) := match imgTexel desc (gr.vreg a.toNat i) (gr.vreg (a.toNat + 1) i) with
          | some va => texelPieces desc va
          | none => []
        let raw (i : Nat) : Nat := joinBits (channelWidth desc) ((List.range (texChannels desc)).map (fun c =>
          channelCode desc c (bits (gr.vreg (d.toNat + c / 2) i) (32 * (c % 2)) 32)))
        let vas := (lanesOf act).flatMap (fun i => (pieces i).map (·.1))
        checked (laneFaults act (fun i => worstKind ((pieces i).filterMap (fun w => s.probe e.agent .write false w.1))))
          ((s.spots e.agent .write vas).filterMap (fun p => if p.held then some (lineNo p.addr) else none))
          (.go (e.nearBegin (vas.foldl (fun s va => match s.seek e.agent .write va with
              | .error _ => s
              | .ok p => s.walked e.agent va p) s) ll
            { into := (lanesOf act).flatMap (fun i => (pieces i).flatMap (fun w => s.placesOf e.agent .write [w.1] w.2))
              vals := (lanesOf act).flatMap (fun i => (fieldsOf (raw i) ((pieces i).map (·.2)))), src := [] } [])))

end Sys2Proof.Machine
end

