-- ==== Sys2Proof/Machine/Geometry.lean ====
section
/-!
DEFINITION. Exact geometry of the traverse unit: nodes and their boxes (R151, R152), instance transforms (R153), slab
and triangle tests (R154, R155).
-/
namespace Sys2Proof.Machine

/-! ### Numbers -/

/-- A finite FP32 value in units of `2^-149`; none for the others. -/
def f32Int (x : Nat) : Option Int :=
  match Fmt.f32.val x with
  | .fin n m e => some (toUnits n m e (-149))
  | .nan _ => none
  | .inf _ => none

/-- A value rounded to FP32 down or up (R152, R154): bits. -/
def f32Dir (up neg : Bool) (m : Nat) (e : Int) : Nat :=
  let f := Fmt.f32
  if m = 0 then 0
  else
    let top := topExp m e
    let q : Int := (if top < f.emin then f.emin else top) - f.fb
    let step := (q - (f.emin - f.fb)).toNat * 2 ^ f.fb
    let r := if e < q then m / 2 ^ (q - e).toNat else m * 2 ^ (e - q).toNat
    let lost := if e < q then loses m (q - e).toNat else false
    let x := if f.infBits ≤ step + r then f.infBits - 1 else step + r
    let lost := lost || decide (f.infBits ≤ step + r)
    f.sign neg (if lost && up != neg then x + 1 else x)

/-- A rational `n / d` rounded to FP32 down or up. -/
def ratioDir (up : Bool) (n d : Int) : Nat :=
  if n = 0 then 0
  else
    let r := ratio n.natAbs d.natAbs
    f32Dir up (decide (n < 0) != decide (d < 0)) r.1 r.2

/-- A rational `n / d` rounded once to nearest (R155). -/
def ratioNear (n d : Int) : Nat :=
  if n = 0 then 0
  else
    let r := ratio n.natAbs d.natAbs
    Fmt.f32.sign (decide (n < 0) != decide (d < 0)) (Fmt.f32.roundMag r.1 r.2).1

/-- Order of FP32 bits that are not NaN. -/
def cmp32 (x y : Nat) : Int := cmpVal (Fmt.f32.val x) (Fmt.f32.val y)

/-- `x` is at most `y`, neither being a NaN. -/
def le32 (x y : Nat) : Bool := !(Fmt.f32.val x).isNan && !(Fmt.f32.val y).isNan && decide (cmp32 x y ≤ 0)

/-- Positive and negative infinity. -/
def inf32 : Nat := 0x7F800000
/-- Negative infinity. -/
def ninf32 : Nat := 0xFF800000
/-- Larger of two FP32 values. -/
def max32 (x y : Nat) : Nat := if decide (cmp32 x y < 0) then y else x
/-- Smaller of two FP32 values. -/
def min32 (x y : Nat) : Nat := if decide (cmp32 y x < 0) then y else x

/-! ### Boxes (R154) -/

/-- A box: lower and upper bounds, FP32 bits. -/
structure Box where
  lo : List Nat
  hi : List Nat
  deriving DecidableEq, Repr

/-- A slab bound `(b - o) / d` rounded down or up; an infinite b gives an infinity. -/
def slabBound (up : Bool) (b : Nat) (o d : Int) : Nat :=
  match Fmt.f32.val b with
  | .inf n => if n != decide (d < 0) then ninf32 else inf32
  | .nan _ => ninf32
  | .fin n m e => ratioDir up (toUnits n m e (-149) - o) d

/-- What a test that R154 or R155 decides gives; `free` where they state no result. -/
inductive Tested (α : Type) where
  | miss
  | hit (a : α)
  | free
  deriving DecidableEq, Repr

/-- The interval of one axis; no result where a bound is a NaN, or where origin or direction is infinite and the axis is
not parallel to its slab. -/
def slabAxis (lo hi o d : Nat) : Tested (Nat × Nat) :=
  if (Fmt.f32.val lo).isNan || (Fmt.f32.val hi).isNan then .free
  else if (Fmt.f32.val d).isZero then if le32 lo o && le32 o hi then .hit (ninf32, inf32) else .miss
  else
    match f32Int o, f32Int d with
    | some o, some d =>
      if 0 < d then .hit (slabBound false lo o d, slabBound true hi o d)
      else .hit (slabBound false hi o d, slabBound true lo o d)
    | _, _ => .free

/-- The slab test of a box by a ray given by its origin and direction (R154): near and far bounds. An axis that misses
decides it, whatever the others are. -/
def boxTest (o d : List Nat) (tmin tmax : Nat) (b : Box) : Tested (Nat × Nat) :=
  let axis (k : Nat) : Tested (Nat × Nat) := slabAxis (b.lo.getD k 0) (b.hi.getD k 0) (o.getD k 0) (d.getD k 0)
  match axis 0, axis 1, axis 2 with
  | .miss, _, _ => .miss
  | _, .miss, _ => .miss
  | _, _, .miss => .miss
  | .hit x, .hit y, .hit z =>
    let near := max32 x.1 (max32 y.1 z.1)
    let far := min32 x.2 (min32 y.2 z.2)
    if le32 near far && le32 near tmax && le32 tmin far then .hit (near, far) else .miss
  | .free, _, _ => .free
  | .hit _, .free, _ => .free
  | .hit _, .hit _, .free => .free

/-- A ray ends at once with status Miss (R154). -/
def rayVoid (o d : List Nat) (tmin tmax : Nat) : Bool :=
  (o ++ d ++ [tmin, tmax]).any (fun x => (Fmt.f32.val x).isNan) || d.all (fun x => (Fmt.f32.val x).isZero)
    || decide (0 < cmp32 tmin tmax)

/-! ### Triangles (R155) -/

/-- Difference of two vectors. -/
def vSub (a b : List Int) : List Int := List.zipWith (· - ·) a b
/-- Dot product. -/
def vDot (a b : List Int) : Int := (List.zipWith (· * ·) a b).foldl (· + ·) 0
/-- Cross product. -/
def vCross (a b : List Int) : List Int :=
  let x (k : Nat) : Int := a.getD k 0
  let y (k : Nat) : Int := b.getD k 0
  [x 1 * y 2 - x 2 * y 1, x 2 * y 0 - x 0 * y 2, x 0 * y 1 - x 1 * y 0]

/-- Lexicographic order of vectors (R155). -/
def lexLess : List Int → List Int → Bool
  | x :: xs, y :: ys => decide (x < y) || (x == y && lexLess xs ys)
  | [], _ :: _ => true
  | _, [] => false

/-- A line in the plane of a triangle that is not degenerate (R155; entry 65). It may pass it by, touch one vertex, run
along one edge, or cross it. A vertex has one distance, and counts where both its edges do; a run of points has none, so
that an edge that counts, or a crossing, has no stated result. -/
def planeTest (o d n v0 v1 v2 : List Int) : Tested (Nat × Nat × Nat) :=
  let side (v : List Int) : Int := (vDot n (vCross d (vSub v o))).sign
  let vertex (v before after : List Int) (w1 w2 : Nat) : Tested (Nat × Nat × Nat) :=
    if lexLess before v && lexLess v after then .hit (ratioNear (vDot d (vSub v o)) (vDot d d), w1, w2) else .miss
  let edge (a b : List Int) : Tested (Nat × Nat × Nat) := if lexLess a b then .free else .miss
  let one := 0x3F800000
  let a := side v0
  let b := side v1
  let c := side v2
  if a = b ∧ b = c then .miss
  else if a = 0 ∧ b = 0 then edge v0 v1
  else if b = 0 ∧ c = 0 then edge v1 v2
  else if c = 0 ∧ a = 0 then edge v2 v0
  else if a = 0 ∧ b = c then vertex v0 v2 v1 0 0
  else if b = 0 ∧ c = a then vertex v1 v0 v2 one 0
  else if c = 0 ∧ a = b then vertex v2 v1 v0 0 one
  else .free

/-- A triangle tested by a ray: distance and weights of v1 and v2, FP32 bits. Every point of a degenerate triangle lies on
an edge that runs the wrong way, so that none counts (R155; entry 65). -/
def triTest (o d : List Nat) (v : List (List Nat)) : Tested (Nat × Nat × Nat) :=
  match o.mapM f32Int, d.mapM f32Int, v.mapM (fun p => p.mapM f32Int) with
  | some o, some d, some [v0, v1, v2] =>
    let e1 := vSub v1 v0
    let e2 := vSub v2 v0
    let s := vSub o v0
    let p := vCross d e2
    let det := vDot e1 p
    if det = 0 then
      let n := vCross e1 e2
      if n.all (· == 0) ∨ vDot s n ≠ 0 then .miss else planeTest o d n v0 v1 v2
    else
      let q := vCross s e1
      let sg : Int := if det < 0 then -1 else 1
      let n1 := sg * vDot s p
      let n2 := sg * vDot d q
      let n0 := sg * det - n1 - n2
      if n0 < 0 ∨ n1 < 0 ∨ n2 < 0 then .miss
      else if (n2 = 0 ∧ lexLess v0 v1 = false) ∨ (n0 = 0 ∧ lexLess v1 v2 = false) ∨ (n1 = 0 ∧ lexLess v2 v0 = false) then .miss
      else .hit (ratioNear (vDot e2 q) det, ratioNear n1 (sg * det), ratioNear n2 (sg * det))
  | _, _, _ => .free

/-! ### Nodes (R151, R152) -/

/-- Types of a child (R151). -/
inductive ChildKind where
  | node | triangles | instance_ | box
  deriving DecidableEq, Repr

/-- A child of a node: index, kind, box, address of what it refers to, triangle count, `COFF`. -/
structure Child where
  index : Nat
  kind : ChildKind
  box : Box
  ref : Nat
  count : Nat
  off : Nat
  deriving DecidableEq, Repr

/-- A quantised bound: `ORG + q * 2^EXP` rounded outward (R152). -/
def quantised (up : Bool) (org : Val) (q : Nat) (x : Int) : Nat :=
  match sumVal [org, .fin false q x] with
  | (.fin n m e, _) => f32Dir up n m e
  | (.inf n, _) => if n then ninf32 else inf32
  | (.nan _, _) => Fmt.f32.nanBits

/-- The non-empty children of a node of 1024 bits, or none for Bad-Node (R151, R152). -/
def nodeChildren (v : Nat) : Option (List Child) :=
  let kind (c : Nat) : Nat := field v (256 + 8 * c) 8
  let q (c k : Nat) : Nat := field v (320 + 48 * c + 8 * k) 8
  let live := (List.range 8).filter (fun c => kind c != 0)
  if field v 120 8 ≠ 0 then none
  else if live.any (fun c => decide (4 < kind c) || (List.range 3).any (fun k => decide (q c (k + 3) < q c k))
      || (kind c == 2 && field v (960 + 8 * c) 8 == 0)) then none
  else
    let org (k : Nat) : Val := Fmt.f32.val (field v (32 * k) 32)
    let ex (k : Nat) : Int := (BitVec.ofNat 8 (field v (96 + 8 * k) 8)).toInt
    some (live.map (fun c =>
      let off := field v (704 + 32 * c) 32
      { index := c
        kind := match kind c with
          | 1 => .node
          | 2 => .triangles
          | 3 => .instance_
          | _ => .box
        box := { lo := (List.range 3).map (fun k => quantised false (org k) (q c k) (ex k))
                 hi := (List.range 3).map (fun k => quantised true (org k) (q c (k + 3) + 1) (ex k)) }
        ref := if kind c = 1 then (field v 128 64 + off * 128) % 2 ^ 64 else (field v 192 64 + off * 64) % 2 ^ 64
        count := field v (960 + 8 * c) 8
        off := off }))

/-- The union of boxes (R152). -/
def unionBox (bs : List Box) : Option Box :=
  match bs with
  | [] => none
  | b :: bs => some (bs.foldl (fun u b =>
      { lo := List.zipWith min32 u.lo b.lo, hi := List.zipWith max32 u.hi b.hi }) b)

/-- A box has a bound that is not a number. -/
def Box.nan (b : Box) : Bool := (b.lo ++ b.hi).any (fun x => (Fmt.f32.val x).isNan)

/-- Closed boxes overlap (R162). -/
def Box.overlaps (a b : Box) : Bool :=
  (List.range 3).all (fun k => le32 (a.lo.getD k 0) (b.hi.getD k 0) && le32 (b.lo.getD k 0) (a.hi.getD k 0))

/-- A bound as an integer. The specification states no volume for a box with an infinite bound: the model takes 2^1024 for
infinity, beyond every finite bound (entry 134). -/
def boundInt (x : Nat) : Int :=
  match Fmt.f32.val x with
  | .fin n m e => toUnits n m e (-149)
  | .inf n => if n then -(2 ^ 1024) else 2 ^ 1024
  | .nan _ => 0

/-- The exact volume of a box (R162). -/
def Box.volume (b : Box) : Int :=
  (List.range 3).foldl (fun v k => v * (boundInt (b.hi.getD k 0) - boundInt (b.lo.getD k 0))) 1

/-! ### Instances (R153) -/

/-- A component of a transformed point or direction: one dot product rounded once. -/
def dotRow (row xs : List Nat) : Nat :=
  (Fmt.f32.round (sumVal (List.zipWith (fun m x => (mulVal (Fmt.f32.val m) (Fmt.f32.val x)).1) row xs)).1).1

/-- A ray entering an instance of a 3 x 4 matrix. -/
def transform (m : List Nat) (o d : List Nat) : List Nat × List Nat :=
  ((List.range 3).map (fun k => dotRow ((List.range 4).map (fun j => m.getD (4 * k + j) 0)) (o ++ [0x3F800000])),
   (List.range 3).map (fun k => dotRow ((List.range 3).map (fun j => m.getD (4 * k + j) 0)) d))

end Sys2Proof.Machine
end

