-- ==== Sys2Proof/Machine/Traverse.lean ====
section
/-!
DEFINITION. The traverse unit: rays (R153-R161, R306-R309) and pairs (R162-R164, R310).
-/
namespace Sys2Proof.Machine

/-! ### Reading structures (R160, R161) -/

/-- What a read of a structure meets: an obstacle, a line to wait for, poison, or the bits. -/
inductive Seen where
  | park (p : Park)
  | wait
  | poison (s : State)
  | bits (v : Nat) (s : State)

/-- A read of 8-byte words of a structure by an operation (R101, R161). -/
def State.sight (s : State) (id : Nat) (a : Agent) (va n : Nat) : Seen :=
  let vas := (List.range n).map (fun k => BitVec.ofNat 64 (va + 8 * k))
  match s.obstacle a .read vas with
  | some p => .park p
  | none =>
    if s.readsWait id a vas then .wait
    else if vas.any (fun va => s.probe a .read true va == some (.poison, 0)) then .poison s
    else
      let r := vas.foldl (fun (p : List Nat × State) va =>
        let r := p.2.sourceRead a va 8
        (p.1 ++ [r.1], r.2.2.2)) ([], s)
      .bits (joinWords r.1) r.2

/-! ### Rays -/

/-- A ray of a group changed. -/
def State.putRay (s : State) (o : Op) (i : Nat) (r : Ray) : State :=
  s.onGroup o.team o.grp (fun g => { g with rays := put i r g.rays })

/-- A ray that ends with a status. -/
def Ray.ended (r : Ray) (status : Nat) : Ray := { r with status := status, node := none, stack := [], spilled := 0, child := 0, tri := 0 }

/-- A ray that ends where its visit is done: hit or miss. -/
def Ray.finish (r : Ray) : Ray := r.ended (if r.bestValid then 1 else 2)

/-- A word that nothing states. -/
def freeWord (k n : Nat) : Nat := (Config.word k).toNat % 2 ^ n

/-- A ray whose result the specification does not state ends with a hit or a miss that nothing constrains (entry 8). -/
def Ray.unstated (r : Ray) (k : Nat) : Ray :=
  { r.ended (if freeWord k 1 = 1 then 1 else 2) with
    bestValid := freeWord k 1 == 1, bestT := freeWord (k + 1) 32, prim := freeWord (k + 2) 32, geom := freeWord (k + 3) 32
    inst := (List.range 3).map (fun j => freeWord (k + 4 + j) 32), tmax := freeWord (k + 7) 32 }

/-- The order of hits of equal distance: instance path, geometry, primitive (R155). The specification does not compare
paths of different lengths: the model compares them as R307 delivers them, with 0xFFFFFFFF in each unused level (entry
134). -/
def hitLess (a b : List Nat × Nat × Nat) : Bool :=
  lexLess (a.1.map Int.ofNat ++ [(a.2.1 : Int), (a.2.2 : Int)]) (b.1.map Int.ofNat ++ [(b.2.1 : Int), (b.2.2 : Int)])

/-- A hit accepted: current tmax becomes its distance, and the better of equal hits is kept (R155). -/
def Ray.accept (r : Ray) (t prim geom : Nat) (inst : List Nat) : Ray :=
  let better := !r.bestValid || decide (cmp32 t r.bestT < 0) || hitLess (inst, geom, prim) (r.inst, r.geom, r.prim)
  let r := { r with tmax := t }
  if better then { r with bestValid := true, bestT := t, prim := prim, geom := geom, inst := inst } else r

/-- Instance identifiers with unused levels (R307). -/
def pathIds (ids : List Nat) : List Nat := ids ++ List.replicate (3 - ids.length) 0xFFFFFFFF

/-- The ray in the space of its innermost instance, with the identifiers of its instances: the records are read again
from the outermost (R153). -/
def State.objectRay (id : Nat) (a : Agent) : State → List Nat → List Nat × List Nat → List Nat →
    Except Seen (State × (List Nat × List Nat) × List Nat)
  | s, [], od, ids => .ok (s, od, ids)
  | s, va :: vas, od, ids =>
    match s.sight id a va 8 with
    | .bits v s =>
      State.objectRay id a s vas (transform ((List.range 12).map (fun k => field v (32 * k) 32)) od.1 od.2)
        (ids ++ [field v 448 32])
    | x => .error x

/-- Stack entries that leave the hardware are stored in the replay area at an offset, by the group's operation: the state,
or what the store meets (R157, R164). -/
def State.spill (s : State) (o : Op) (off : Nat) (fs : List (Nat × Nat)) : Except Park State :=
  let a : Agent := { o.agent with level := .control }
  let va := s.replayVa o.team o.grp off
  let ws := wordsOfNum (fieldBytes fs / 8) (joinFields fs)
  match s.obstacle a .write ((List.range ws.length).map (fun k => va + BitVec.ofNat 64 (8 * k))) with
  | some p => .error p
  | none => match State.storeWords a s va ws with
    | .ok s => .ok s
    | .error k => .error (Park.fault s k va)

/-- The offset of an entry of a ray's stack in the replay area (R196). -/
def State.rayOff (s : State) (o : Op) (i k : Nat) : Nat := 0x2480 + i * s.rayBytes o.team o.grp + 16 * k

/-- The stack entries that a ray's region holds at most (R196). -/
def State.rayDepth (s : State) (o : Op) : Nat := (s.rayBytes o.team o.grp - 128) / 16

/-- The hit children of a node in the order in which they are popped: near bounds, then indices (R156). -/
def popOrder (hs : List (Nat × Nat × Nat)) : List (Nat × Nat × Nat) :=
  arrange (fun a b => let c := cmp32 a.1 b.1; decide (c < 0) || (c == 0 && decide (a.2.1 ≤ b.2.1))) hs

/-- The reference to a child: a node by its address, another child by its parent and index (R196, R197). -/
def childRef (node : Nat) (c : Child) : Nat :=
  match c.kind with
  | .node => if c.ref % 128 = 0 then c.ref else node + 64 + c.index
  | .triangles | .instance_ | .box => node + 64 + c.index

/-- Hit children are pushed: entries beyond 32 leave the hardware, the oldest first (R157). -/
def State.pushRay (s : State) (id : Nat) (o : Op) (i : Nat) (r : Ray) (es : List (Nat × Nat × Nat)) : State :=
  if s.rayDepth o < r.depth + es.length then (s.putRay o i r).parkOp id (Park.fault s (.traverseStack, 0) 0)
  else
    let all := es ++ r.stack
    match s.spill o (s.rayOff o i r.spilled) (rayEntries (all.drop 32)) with
    | .error p => (s.putRay o i r).parkOp id p
    | .ok s => s.putRay o i { r with node := none, child := 0, stack := all.take 32, spilled := r.spilled + (all.length - 32) }

/-- One node tested by a ray, from its next child on: the hit children are pushed (R154, R156, R157, R196). -/
def State.testNode (s : State) (id : Nat) (o : Op) (i : Nat) (r : Ray) (od : List Nat × List Nat) (va v : Nat) : State :=
  match nodeChildren v with
  | none => s.putRay o i (r.ended 4)
  | some cs =>
    let ts := (cs.filter (fun c => c.kind != .box && decide (r.child ≤ c.index))).map (fun c => (c, boxTest od.1 od.2 r.tmin r.tmax c.box))
    if ts.any (fun t => match t.2 with
      | .free => true
      | .miss => false
      | .hit _ => false) then s.putRay o i (r.unstated (s.free 0))
    else
      let hs := popOrder (ts.filterMap (fun t => match t.2 with
        | .hit n => some (n.1, t.1.index, childRef va t.1)
        | .miss => none
        | .free => none))
      s.pushRay id o i r (hs.map (fun h => (h.2.2, h.1, r.level)))

/-- A triangle of a leaf tested by a ray; the ray may stop at a candidate (R155, R307). -/
def State.testTriangle (s : State) (o : Op) (i : Nat) (r : Ray) (od : List Nat × List Nat) (ids : List Nat) (v last : Nat) :
    State :=
  let p (k : Nat) : List Nat := (List.range 3).map (fun j => field v (96 * k + 32 * j) 32)
  let r' := if last ≤ r.tri + 1 then { r with node := none, tri := 0 } else { r with tri := r.tri + 1 }
  match triTest od.1 od.2 [p 0, p 1, p 2] with
  | .miss => s.putRay o i r'
  | .free => s.putRay o i (r.unstated (s.free 0))
  | .hit (t, w1, w2) =>
    if !(le32 r.tmin t && le32 t r.tmax) then s.putRay o i r'
    else
      let prim := field v 288 32
      let geom := field v 320 32
      let inst := pathIds ids
      if field v 352 1 = 0 then
        s.putRay o i { r with status := 5, cand := some (t, prim, geom, inst), w1 := w1, w2 := w2, committed := false }
      else
        let r' := r'.accept t prim geom inst
        s.putRay o i (if r.any then r'.ended 1 else r')

/-- An instance record met by a ray (R153, R307). A transformed ray that is void ends with Miss, as any such ray does
(R154). The specification says of no root address that it is none: the model makes an instance whose root is 0 Bad-Node
(entry 134). -/
def State.enterInstance (s : State) (o : Op) (i : Nat) (r : Ray) (od : List Nat × List Nat) (va v : Nat) : State :=
  if 3 ≤ r.level then s.putRay o i (r.ended 4)
  else if field v 480 8 &&& r.mask = 0 then s.putRay o i { r with node := none }
  else
    let root := field v 384 64
    let t := transform ((List.range 12).map (fun k => field v (32 * k) 32)) od.1 od.2
    if root % 128 ≠ 0 ∨ root = 0 then s.putRay o i (r.ended 4)
    else if rayVoid t.1 t.2 r.tmin r.tmin then s.putRay o i (r.ended 2)
    else s.putRay o i { r with node := some root, recs := r.recs.take r.level ++ [va], level := r.level + 1 }

/-- The reading of a structure stops the step: the unit parks with the node in progress, waits, or ends the ray. -/
def State.seenStop (s : State) (id : Nat) (o : Op) (i : Nat) (r : Ray) (x : Seen) : State :=
  match x with
  | .park p => (s.putRay o i r).parkOp id p
  | .wait => s
  | .poison s => s.putRay o i (r.ended 3)
  | .bits _ s => s

/-- A ray's next test at the node, or child of a node, that it has reached. -/
def State.rayTest (s : State) (id : Nat) (o : Op) (i : Nat) (r : Ray) (ref : Nat) : State :=
  let a := o.agent
  match State.objectRay id a s (r.recs.take r.level) (r.org, r.dir) [] with
  | .error x => s.seenStop id o i r x
  | .ok (s, od, ids) =>
    let node := ref / 128 * 128
    if ref % 128 ≠ 0 ∧ ref / 64 % 2 = 0 then s.putRay o i (r.ended 4)
    else
      match s.sight id a node 16 with
      | .bits v s =>
        if ref % 128 = 0 then s.testNode id o i r od node v
        else
          match (nodeChildren v).bind (fun cs => cs.find? (fun c => c.index == ref % 8)) with
          | none => s.putRay o i (r.ended 4)
          | some c =>
            match c.kind with
            | .node => s.putRay o i (if c.ref % 128 = 0 then { r with node := some c.ref } else r.ended 4)
            | .box => s.putRay o i { r with node := none }
            | .triangles =>
              if c.count ≤ r.tri then s.putRay o i { r with node := none, tri := 0 }
              else match s.sight id a ((c.ref + 64 * r.tri) % 2 ^ 64) 8 with
              | .bits v s => s.testTriangle o i r od ids v c.count
              | x => s.seenStop id o i r x
            | .instance_ =>
              match s.sight id a c.ref 8 with
              | .bits v s => s.enterInstance o i r od c.ref v
              | x => s.seenStop id o i r x
      | x => s.seenStop id o i r x

/-- One step of a ray: it pops an entry, and tests what it has reached (R156). -/
def State.rayStep (s : State) (id : Nat) (o : Op) (i : Nat) (r : Ray) : State :=
  match r.node with
  | some ref => s.rayTest id o i r ref
  | none =>
    match r.stack with
    | [] =>
      if r.spilled = 0 then s.putRay o i r.finish
      else
        -- the newest entry of the replay area comes back (R157)
        match s.sight id { o.agent with level := .control } (s.replayVa o.team o.grp (s.rayOff o i (r.spilled - 1))).toNat 2 with
        | .bits v s => s.putRay o i { r with stack := [(field v 0 64, field v 64 32, field v 96 8)], spilled := r.spilled - 1 }
        | x => s.seenStop id o i r x
    | e :: es =>
      let r := { r with stack := es }
      if cmp32 r.tmax e.2.1 < 0 then s.putRay o i r
      else
        let r := { r with node := some e.1, level := e.2.2, tri := 0, child := 0 }
        s.rayTest id o i r e.1

/-- The result registers of a ray (R307); identifiers and distance of statuses 3 and 4 are not stated (entry 8). -/
def Ray.results (r : Ray) (k : Nat) : List Nat :=
  let out (t prim geom : Nat) (inst : List Nat) : List Nat :=
    [t + r.status * 2 ^ 32, prim + geom * 2 ^ 32, inst.getD 0 0 + inst.getD 1 0 * 2 ^ 32, inst.getD 2 0]
  match r.status, r.cand with
  | 5, some c => out c.1 c.2.1 c.2.2.1 c.2.2.2
  | 1, _ => out r.bestT r.prim r.geom r.inst
  | 2, _ => out r.tmax 0 0 [0, 0, 0]
  | _, _ => out (freeWord k 32) (freeWord (k + 1) 32) (freeWord (k + 2) 32) ((List.range 3).map (fun j => freeWord (k + 3 + j) 32))

/-- The program that a ray's end calls; 0 for none (R308). -/
def Ray.program (r : Ray) : Nat :=
  match r.status with
  | 1 => r.table.2
  | 2 | 3 | 4 => r.table.1
  | _ => 0

/-- A ray operation whose rays have all ended or stopped writes its results and completes (R307, R308). -/
def State.rayDone (s : State) (id : Nat) (o : Op) (x : RayOp) : State :=
  let g := s.group o.team o.grp
  let rs := (lanesOf x.lanes).filterMap (fun i => (find i g.rays).map (fun r => (i, r)))
  let vw := rs.foldl (fun w y => (y.2.results (s.free (16 * y.1))).zipIdx.foldl (fun (w : SMap Word) (z : Nat × Nat) =>
    put ((y.2.dst + z.2) * 64 + y.1) (BitVec.ofNat 64 z.1) w) w) ([] : SMap Word)
  let calls := rs.foldl (fun m y =>
    if y.2.program = 0 then m else put y.1 (BitVec.ofNat 64 y.2.program, y.2.dst + 4) m) ([] : SMap (Word × Nat))
  let s := s.onGroup o.team o.grp (fun g =>
    { (g.results o.pend (fun p => { p with vw := vw, calls := calls })) with
      rays := g.rays.filter (fun e => !x.lanes.getLsbD e.1 || e.2.status == 5) })
  s.endOp id

/-- `TRAVERSE_STEP`: the traverse unit makes one test for the lowest ray in progress, or completes the operation
(R156, R193, R307). -/
def execTraverseStep (op : Nat) (s : State) : Host.Outcome State Fault Refusal :=
  .next (match find op s.ops with
    | none => s
    | some o =>
      match o.body with
      | .ray x =>
        if o.park.isSome || o.spent then s
        else
          let g := s.group o.team o.grp
          let next := (lanesOf x.lanes).findSome? (fun i => match find i g.rays with
            | none => none
            | some r => if r.status = 0 then some (i, r) else none)
          match next with
          | none => s.rayDone op o x
          | some (i, r) =>
            let s := s.rayStep op o i r
            s.onOp op (fun o => match o.body with
              | .ray y => { o with body := .ray { y with live := maskOf (fun j => y.lanes.getLsbD j
                  && (match find j (s.group o.team o.grp).rays with
                    | none => false
                    | some r => r.status == 0 || r.status == 5)) } }
              | .copy _ | .tex _ | .rast _ | .pair _ | .drain | .near _ | .crest _ => o)
      | .copy _ | .tex _ | .rast _ | .pair _ | .drain | .near _ | .crest _ => s)

/-! ### The ray instructions (R306-R309) -/

/-- Another traverse operation of the group is still traversing (R306). -/
def traverseBusy (e : Env) (s : State) : Bool :=
  s.ops.any (fun o => o.2.team == e.team && o.2.grp == e.grp && (o.2.body.unit == 1 || o.2.body.unit == 2) && !o.2.spent
    && s.holding o.2)

/-- The group's record of unit 2 has `VALID` 1 (R306). One that software has abandoned is forgotten. -/
def State.pairKept (s : State) (e : Env) : Bool :=
  ((e.group s).kept || (s.orphan e.team e.grp 2).isSome)
    && (match s.readSlot e.agent (s.slotVa e.team e.grp 2) with
      | .error _ => false
      | .ok (ws, _) => slotValid ws)

/-- Operations of a unit that software has abandoned end before the group uses the traverse unit again. -/
def State.dropOrphan (s : State) (e : Env) (unit : Nat) : State :=
  match s.orphan e.team e.grp unit with
  | none => s
  | some (id, o) => if o.spent then { s with ops := del id s.ops } else (s.clearRecord o).abandonOp id

/-- A component of a ray operand: ox, oy, oz, tmin, dx, dy, dz, tmax for 0-7 (R306). -/
def Group.rayComp (g : Group) (a lane k : Nat) : Nat := bits (g.vreg (a + k / 2) lane) (32 * (k % 2)) 32

/-- A ray as `TRACE` creates it in a lane. -/
def Group.newRay (g : Group) (a lane : Nat) (any : Bool) (mask root : Nat) (table : Nat × Nat) (d : Nat) : Ray :=
  let c (k : Nat) : Nat := g.rayComp a lane k
  let r : Ray := { org := [c 0, c 1, c 2], dir := [c 4, c 5, c 6], tmin := c 3, tmax := c 7, status := 0, bestT := 0,
                   bestValid := false, prim := 0, geom := 0, inst := [0, 0, 0], w1 := 0, w2 := 0, cand := none,
                   committed := false, node := some root, recs := [], level := 0, child := 0, tri := 0, stack := [], spilled := 0,
                   any := any, mask := mask, root := root, table := table, dst := d }
  if rayVoid r.org r.dir r.tmin r.tmax then r.ended 2
  else if root % 128 ≠ 0 then r.ended 4
  else r

/-- The active rays form a packet (R159). -/
def Group.packet (g : Group) (pkten : Bool) (a : Nat) (m : Lanes) : Bool :=
  pkten && decide (16 ≤ countLanes m) && [4, 5, 6].all (fun k =>
    let vs := (lanesOf m).map (fun i => Fmt.f32.val (g.rayComp a i k))
    vs.all (fun v => !v.isZero && !v.isNan) && (vs.all Val.neg || vs.all (fun v => !v.neg)))

/-- The address of a program table is one: 0, for no table, or a multiple of 8 (R307). -/
def tableAligned (va : Word) : Bool := bits va 0 3 == 0

/-- The words of a program table, or what reading it meets; none for no table (R307). -/
def State.traceTable (s : State) (e : Env) (va : Word) : Except (Kind × Nat) (List Nat × State) :=
  if va = 0 then .ok ([0, 0], s) else State.readWords e.agent s va 2

/-- Every program of a table is a legal target (R223, R307). -/
def tableOk (ws : List Nat) : Bool := ws.all (fun w => w == 0 || targetOk (BitVec.ofNat 64 w))

/-- The rays that a `TRACE` begins, or those of its operation that go on with the operands that it has now (R195,
R307). -/
def Env.traceRays (e : Env) (s : State) (ll : Ll) (ray : Nat → Ray) (packet : Bool) : Res :=
  match (s.dropOrphan e 2).again e 1 ll with
  | .done s => .go s
  | .bad s => .ok (e.trap s { kind := .illegalOperand, detail := 0, lanes := e.act }) e.path
  | .goOn _ s =>
    .go (e.onGroup s (fun g => { g with rays := g.rays.map (fun (y : Nat × Ray) =>
      if e.act.getLsbD y.1 && y.2.status == 0 then
        let n := ray y.1
        (y.1, { y.2 with org := n.org, dir := n.dir, tmin := n.tmin, any := n.any, mask := n.mask, table := n.table,
                         dst := n.dst })
      else y) }))
  | .fresh s =>
    let q := (e.group s).begin ll e.act { Pend.zero with ready := false, holds := true }
    let s := e.onGroup s (fun _ => { q.1 with
      rays := (lanesOf e.act).foldl (fun m i => put i (ray i) m) q.1.rays })
    .go (s.addOp { e.newOp s (some q.2) (.ray { lanes := e.act, live := e.act, cont := false, packet := packet }) with
      begun := true }).1

/-- `TRACE` (R307). Its own checks come first, in the order of R184: what its operands and its table say, the recursion
depth, and the place for its rays; a fault of reading the table is an active lane's (R185). -/
def execTrace (g : Guard) (ll : Ll) (any : Bool) (p : BitVec 4) (d a : VReg) (b : SReg) (s : State) :
    Host.Outcome State Fault Refusal :=
  .next (s.run { g := g, top := maxOf [topV d (5 + p.toNat), topV a 4], ll := some ll, mem := true, acc := true,
                 wait := traverseBusy } fun e s =>
    let gr := e.group s
    let pay := match s.headerOf e.team with
      | some h => (h.payload, h.recurse)
      | none => (0, 0)
    let va := gr.sreg (b.toNat + 2)
    let table := s.traceTable e va
    let badTable := match table with
      | .ok x => !tableOk x.1
      | .error _ => false
    let deep := maskOf (fun i => e.act.getLsbD i && decide (pay.2 < get 0 i gr.depth))
    if s.pairKept e || decide (pay.1 < 8 * p.toNat) || !tableAligned va then e.fault .illegalOperand 0
    else if va != 0 && !(s.wordsOwned e.agent va 2).isEmpty then
      if e.act = 0 then .go s else .park (.owned (s.wordsOwned e.agent va 2))
    else if badTable then e.fault .illegalOperand 0
    else if deep ≠ 0 then .trap { kind := .recursionLimit, detail := 0, lanes := deep }
    else if s.rayBytes e.team e.grp < 640 then e.fault .traverseStack 0
    else if e.act = 0 then .go s
    else
      match table with
      | .error f => e.fault f.1 f.2
      | .ok (ws, s1) =>
        e.traceRays s1 ll
          (fun i => gr.newRay a.toNat i any (bits (gr.sreg (b.toNat + 1)) 0 8) (gr.sreg b.toNat).toNat
            (ws.getD 0 0, ws.getD 1 0) d.toNat)
          (gr.packet (s.team e.team).pkten a.toNat e.act))

/-- `TRCONT` (R309). -/
def execTrcont (g : Guard) (ll : Ll) (d : VReg) (s : State) : Host.Outcome State Fault Refusal :=
  .next (s.run { g := g, top := topV d 5, ll := some ll, mem := true, acc := true, wait := traverseBusy } fun e s =>
    if s.pairKept e then e.fault .illegalOperand 0
    else if e.act = 0 then .go s
    else
      match (s.dropOrphan e 2).again e 1 ll with
      | .done s => .go s
      | .bad s => .ok (e.trap s { kind := .illegalOperand, detail := 0, lanes := e.act }) e.path
      | .goOn _ s => .go s
      | .fresh s =>
        let gr := e.group s
        let m := maskOf (fun i => e.act.getLsbD i && (match find i gr.rays with
          | some r => r.status == 5
          | none => false))
        let next (r : Ray) : Ray :=
          if r.committed && r.any then ({ r with cand := none, dst := d.toNat } : Ray).ended 1
          else { r with cand := none, committed := false, dst := d.toNat, status := 0, tri := r.tri + 1 }
        let q := gr.begin ll e.act { Pend.zero with ready := false, holds := true }
        let s := e.onGroup s (fun _ => { q.1 with
          rays := q.1.rays.map (fun (y : Nat × Ray) => if m.getLsbD y.1 then (y.1, next y.2) else y) })
        let x : RayOp := { lanes := m, live := m, cont := true, packet := false }
        .go (s.addOp { e.newOp s (some q.2) (.ray x) with begun := true }).1)

/-- `TRCOMMIT` (R309). -/
def execTrcommit (g : Guard) (ll : Ll) (s : State) : Host.Outcome State Fault Refusal :=
  .next (s.run { g := g, ll := some ll } fun e s =>
    let s := e.onGroup s (fun gr => { gr with rays := gr.rays.map (fun (y : Nat × Ray) =>
      match y.2.cand with
      | none => y
      | some c =>
        if e.act.getLsbD y.1 && y.2.status == 5 && !y.2.committed then
          (y.1, { y.2.accept c.1 c.2.1 c.2.2.1 c.2.2.2 with committed := true })
        else y) })
    .go (e.begin s ll Pend.zero))

/-- What `TRQRY` reads of a lane's ray; what nothing states is a free value (R309; entry 8). -/
def rayQuery (r : Option Ray) (w k : Nat) : Nat :=
  match r, w with
  | some r, 0 => r.tmax + r.status * 2 ^ 32
  | none, 0 => freeWord k 32 + 6 * 2 ^ 32
  | some r, 1 => if r.bestValid then r.bestT + 2 ^ 32 else freeWord k 32
  | none, 1 => freeWord k 32
  | some r, _ => if r.status = 5 then r.w1 + r.w2 * 2 ^ 32 else freeWord k 64
  | none, _ => freeWord k 64

/-- `TRQRY` (R309). -/
def execTrqry (g : Guard) (ll : Ll) (w : BitVec 2) (d : VReg) (s : State) : Host.Outcome State Fault Refusal :=
  .next (s.run { g := g, top := topV d 1, ll := some ll } fun e s =>
    let gr := e.group s
    .go (e.begin s ll { Pend.zero with
      vw := vWrites d.toNat e.act (fun i => BitVec.ofNat 64 (rayQuery (find i gr.rays) w.toNat (s.free i))) }))

/-- Writes of two registers and a predicate by lanes. -/
def testWrites (d : Nat) (po : PReg) (m : Lanes) (f : Nat → List Nat × Bool) : Pend :=
  { Pend.zero with vw := runWrites d m (fun i => (f i).1), pw := pWrites po.toNat m (fun i => (f i).2) }

/-- `BOXT` (R309). -/
def execBoxt (g : Guard) (ll : Ll) (po : PReg) (d a b : VReg) (s : State) : Host.Outcome State Fault Refusal :=
  .next (s.run { g := g, top := maxOf [topV d 1, topV a 4, topV b 3], ll := some ll } fun e s =>
    let gr := e.group s
    let f (i : Nat) : List Nat × Bool :=
      let c (k : Nat) : Nat := gr.rayComp a.toNat i k
      let q (k : Nat) : Nat := gr.rayComp b.toNat i k
      let o := [c 0, c 1, c 2]
      let dir := [c 4, c 5, c 6]
      let none_ : List Nat × Bool := ([inf32 + ninf32 * 2 ^ 32], false)
      if rayVoid o dir (c 3) (c 7) then none_
      else
        match boxTest o dir (c 3) (c 7) { lo := [q 0, q 1, q 2], hi := [q 3, q 4, q 5] } with
        | .hit n => ([n.1 + n.2 * 2 ^ 32], true)
        | .miss => none_
        | .free => ([freeWord (s.free (2 * i)) 64], freeWord (s.free (2 * i + 1)) 1 == 1)
    .go (e.begin s ll (testWrites d.toNat po e.act f)))

/-- `TRIT` (R309). -/
def execTrit (g : Guard) (ll : Ll) (po : PReg) (d a b : VReg) (s : State) : Host.Outcome State Fault Refusal :=
  .next (s.run { g := g, top := maxOf [topV d 2, topV a 4, topV b 5], ll := some ll } fun e s =>
    let gr := e.group s
    let f (i : Nat) : List Nat × Bool :=
      let c (k : Nat) : Nat := gr.rayComp a.toNat i k
      let q (k : Nat) : Nat := gr.rayComp b.toNat i k
      let o := [c 0, c 1, c 2]
      let dir := [c 4, c 5, c 6]
      if rayVoid o dir (c 3) (c 7) then ([0, 0], false)
      else
        match triTest o dir [[q 0, q 1, q 2], [q 3, q 4, q 5], [q 6, q 7, q 8]] with
        | .hit (t, w1, w2) => if le32 (c 3) t && le32 t (c 7) then ([t, w1 + w2 * 2 ^ 32], true) else ([0, 0], false)
        | .miss => ([0, 0], false)
        | .free => ([freeWord (s.free (4 * i)) 32, freeWord (s.free (4 * i + 1)) 64], freeWord (s.free (4 * i + 2)) 1 == 1)
    .go (e.begin s ll (testWrites d.toNat po e.act f)))

/-! ### Pairs (R162-R164, R197, R310) -/

/-- A member of a pair: its reference, whether it can be descended and where, its leaf identifier, and its box. -/
structure PairItem where
  ref : Nat
  node : Option Nat
  leaf : Nat
  box : Option Box

/-- The children of a node as members of pairs; none for Bad-Node: instances and reserved types end the instruction
(R162). -/
def pairChildren (node v : Nat) : Option (List PairItem) :=
  match nodeChildren v with
  | none => none
  | some cs =>
    if cs.any (fun c => c.kind == .instance_) then none
    else some (cs.map (fun c =>
      { ref := node + 64 + c.index, leaf := c.off, box := some c.box
        node := match c.kind with
          | .node => some c.ref
          | .triangles | .instance_ | .box => none }))

/-- Children of a node read for a pair: what stops the step, Bad-Node, or the members. -/
def State.pairNode (s : State) (id : Nat) (a : Agent) (node : Nat) : Except Seen (Option (List PairItem) × State) :=
  if node % 128 ≠ 0 then .ok (none, s)
  else
    match s.sight id a node 16 with
    | .bits v s => .ok (pairChildren node v, s)
    | x => .error x

/-- The member that a reference names (R197): a root's box is the union of its children's (R152). -/
def State.pairItem (s : State) (id : Nat) (a : Agent) (ref : Nat) : Except Seen (Option PairItem × State) :=
  if ref / 64 % 2 = 0 then
    match s.pairNode id a ref with
    | .error x => .error x
    | .ok (none, s) => .ok (none, s)
    | .ok (some cs, s) => .ok (some { ref := ref, node := some ref, leaf := 0, box := unionBox (cs.filterMap (·.box)) }, s)
  else
    match s.pairNode id a (ref / 128 * 128) with
    | .error x => .error x
    | .ok (none, s) => .ok (none, s)
    | .ok (some cs, s) => .ok (cs.find? (fun c => c.ref % 8 == ref % 8), s)

/-- Two members overlap; an empty one overlaps nothing. -/
def PairItem.overlaps (a b : PairItem) : Bool :=
  match a.box, b.box with
  | some x, some y => x.overlaps y
  | _, _ => false

/-- A member's volume. -/
def PairItem.volume (a : PairItem) : Int :=
  match a.box with
  | some b => b.volume
  | none => 0

/-- What a step of a pair yields: an emission, or pairs in the order of visit (R162). -/
inductive PairStep where
  | bad
  | emit (f g : Nat)
  | visit (ps : List (Nat × Nat))

/-- The step of a pair (R162). -/
def State.pairStep (s : State) (id : Nat) (a : Agent) (self : Bool) (x y : Nat) : Except Seen (PairStep × State) :=
  match s.pairItem id a x with
  | .error e => .error e
  | .ok (none, s) => .ok (.bad, s)
  | .ok (some p, s) =>
    match s.pairItem id a y with
    | .error e => .error e
    | .ok (none, s) => .ok (.bad, s)
    | .ok (some q, s) =>
      match p.node, q.node with
      | none, none =>
        if self && x == y then .ok (.visit [], s)
        else if self then .ok (.emit (Nat.min p.leaf q.leaf) (Nat.max p.leaf q.leaf), s)
        else .ok (.emit p.leaf q.leaf, s)
      | pn, qn =>
        let down : Bool × Nat := match pn, qn with
          | some n, none => (true, n)
          | none, some n => (false, n)
          | some n, some m => if q.volume ≤ p.volume then (true, n) else (false, m)
          | none, none => (true, 0)
        match s.pairNode id a down.2 with
        | .error e => .error e
        | .ok (none, s) => .ok (.bad, s)
        | .ok (some cs, s) =>
          if self && x == y then
            .ok (.visit (cs.zipIdx.flatMap (fun i => (cs.drop i.2).filterMap (fun j =>
              if i.1.ref == j.ref || i.1.overlaps j then some (i.1.ref, j.ref) else none))), s)
          else if down.1 then .ok (.visit ((cs.filter (fun c => c.overlaps q)).map (fun c => (c.ref, y))), s)
          else .ok (.visit ((cs.filter (fun c => c.overlaps p)).map (fun c => (x, c.ref))), s)

/-- The body of a pair traverse changed. -/
def State.onPair (s : State) (id : Nat) (p : PairOp) : State := s.onOp id (fun o => { o with body := .pair p })

/-- A pair traverse returns with a status; after `OVERFLOW` its record is kept (R164, R310). -/
def State.pairDone (s : State) (id : Nat) (o : Op) (p : PairOp) (status : Nat) : State :=
  let s := s.onGroup o.team o.grp (fun g =>
    { (g.results o.pend (fun q => { q with sw := [(p.d.toNat, BitVec.ofNat 64 (status + p.appended * 2 ^ 32))] })) with
      kept := status == 1 })
  if status = 1 then
    let p := { p with overflowed := true }
    let o := { o with body := .pair p }
    let slot := s.slotVa o.team o.grp 2
    let pk : Park := { kind := .none, detail := 0, va := 0, sector := none, preempt := false, delivered := false,
                       tick := s.dev.datum }
    let s := (s.storeSpill o).storeRecord o.agent slot 2 pk o.token (s.recordBody o)
    (s.onOp id (fun o => { o with held := false })).endOp id
  else s.endOp id

/-- The stack entries that the spill space holds (R164, R197). -/
def State.pairDepth (s : State) (team : Nat) : Nat := (s.replaySize team - 9216) / 16

/-- Pairs are pushed: entries beyond 64 leave the hardware, the oldest first; the pair whose step faults stays pending
(R164, R197). -/
def State.pushPairs (s : State) (id : Nat) (o : Op) (p : PairOp) (x : Nat × Nat) (ps : List (Nat × Nat)) : State :=
  let stop (k : Park) : State := (s.onPair id { p with pending := some x }).parkOp id k
  let all := ps ++ p.stack
  if s.pairDepth o.team < p.spilled + all.length then stop (Park.fault s (.traverseStack, 1) 0)
  else
    match s.spill o (0x2400 + 16 * p.spilled) (pairEntries (all.drop 64)) with
    | .error k => stop k
    | .ok s => s.onPair id { p with pending := none, stack := all.take 64, spilled := p.spilled + (all.length - 64) }

/-- The newest entry of the replay area comes back to the hardware (R164). -/
def State.unspillPair (s : State) (id : Nat) (o : Op) (p : PairOp) : State :=
  match s.sight id { o.agent with level := .control } (s.replayVa o.team o.grp (0x2400 + 16 * (p.spilled - 1))).toNat 2 with
  | .bits v s => s.onPair id { p with stack := [(field v 0 64, field v 64 64)], spilled := p.spilled - 1 }
  | .park k => s.parkOp id k
  | .poison s => s.parkOp id (Park.fault s (.poison, 0) (s.replayVa o.team o.grp (0x2400 + 16 * (p.spilled - 1))))
  | .wait => s

/-- An emitted pair is appended, or the traverse returns `OVERFLOW` before it (R163, R164). -/
def State.pairEmit (s : State) (id : Nat) (o : Op) (p : PairOp) (pair : Nat × Nat) (f g : Nat) : State :=
  let a := o.agent
  let stop (k : Park) : State := (s.onPair id { p with pending := some pair }).parkOp id k
  match s.obstacle a .write [p.list] with
  | some k => stop k
  | none =>
    match s.listAt a p.list with
    | .error k => stop (Park.fault s k p.list)
    | .ok (q, l) =>
      if q.held || s.owned (lineNo q.addr) then s
      else if l.iszc ≠ 1 then stop (Park.fault s (.illegalOperand, 0) p.list)
      else if l.room = 0 then s.pairDone id o { p with pending := some pair } 1
      else
        let vas := l.itemWords l.puts
        match s.obstacle a .write vas with
        | some k => stop k
        | none =>
          match s.itemFault a .write l l.puts with
          | some k => stop (Park.fault s k (vas.headD 0))
          | none =>
            if !(s.ownedAmong a .write vas).isEmpty then s
            else
              (s.listAppend a p.list l [[f + g * 2 ^ 32, p.tag + p.seqno * 2 ^ 32]]).onPair id
                { p with pending := none, seqno := (p.seqno + 1) % 2 ^ 32, appended := p.appended + 1 }

/-- `PAIR_STEP`: the traverse unit steps one pair of node references (R162). -/
def execPairStep (op : Nat) (s : State) : Host.Outcome State Fault Refusal :=
  .next (match find op s.ops with
    | none => s
    | some o =>
      match o.body with
      | .pair p =>
        if o.park.isSome || o.spent then s
        else
          let taken : Option ((Nat × Nat) × PairOp) := match p.pending with
            | some x => some (x, p)
            | none => match p.stack with
              | [] => none
              | x :: xs => some (x, { p with stack := xs })
          match taken with
          | none => if p.spilled = 0 then s.pairDone op o p 0 else s.unspillPair op o p
          | some (x, p) =>
            match s.pairStep op o.agent p.self x.1 x.2 with
            | .error (.park k) => (s.onPair op { p with pending := some x }).parkOp op k
            | .error (.poison s) => s.pairDone op o p 3
            | .error .wait => s
            | .error (.bits _ s) => s
            | .ok (.bad, s) => s.pairDone op o p 2
            | .ok (.emit f g, s) => s.pairEmit op o p x f g
            | .ok (.visit ps, s) =>
              s.pushPairs op o p x ps
      | .copy _ | .tex _ | .rast _ | .ray _ | .drain | .near _ | .crest _ => s)

/-- A ray of a lane that has not exited stands at a candidate (R306). -/
def Group.atCandidate (g : Group) : Bool := g.rays.any (fun e => e.2.status == 5 && g.state e.1 != 2)

/-- The cursor that `.RESUME` goes on from, or none when the record does not serve (R195, R310). -/
def State.pairCursor (s : State) (e : Env) (p : PairOp) : Option PairOp :=
  match s.readSlot e.agent (s.slotVa e.team e.grp 2) with
  | .error _ => none
  | .ok (ws, s) =>
    if !slotValid ws || !slotOk 2 ws then none
    else
      let depth := slotField ws 0x44 4
      if s.pairDepth e.team < depth then none
      else
        match State.loadWords { e.agent with level := .control } s (s.replayVa e.team e.grp 0x2400) (2 * depth) with
        | .error _ => none
        | .ok (st, _) =>
          match p.read (s.replaySize e.team) st ws with
          | none => none
          | some q => if q.f = p.f ∧ q.g = p.g ∧ q.self = p.self ∧ q.list = p.list ∧ q.tag = p.tag then
              some { q with overflowed := false, d := p.d, appended := 0 } else none

/-- `TRPAIR` (R310). -/
def execTrpair (g : Guard) (ll : Ll) (self resume : Bool) (d a b : SReg) (s : State) :
    Host.Outcome State Fault Refusal :=
  .next (s.run { g := g, ll := some ll, mem := true, acc := true, once := true, wait := traverseBusy } fun e s =>
    let gr := e.group s
    let f := (gr.sreg a.toNat).toNat
    let q := if self then f else (gr.sreg b.toNat).toNat
    let list := gr.sreg (b.toNat + 1)
    let p : PairOp := { f := f, g := q, self := self, list := list, tag := bits (gr.sreg (b.toNat + 2)) 0 32, seqno := 0,
                        stack := [(f, q)], spilled := 0, pending := none, overflowed := false, appended := 0, d := d }
    let at_ := s.listAt e.agent list
    let cursor := s.pairCursor e p
    let badList := match at_ with
      | .ok x => x.2.iszc != 1
      | .error k => k.1 == .illegalOperand
    if f % 128 ≠ 0 ∨ q % 128 ≠ 0 ∨ gr.atCandidate = true then e.fault .illegalOperand 0
    else if !(s.ownedAmong e.agent .write [list]).isEmpty then
      if e.act = 0 then .go s else .park (.owned (s.ownedAmong e.agent .write [list]))
    else if badList || (resume && (cursor.isNone || !s.pairKept e)) then e.fault .illegalOperand 0
    else if s.pairDepth e.team = 0 then e.fault .traverseStack 1
    else if e.act = 0 then .go s
    else
      match at_ with
      | .error k => e.fault k.1 k.2
      | .ok _ =>
          let start (s : State) (p : PairOp) (held : Bool) : Res :=
            let x := (e.group s).begin ll e.act { Pend.zero with ready := false, holds := true, sw := [(d.toNat, 0)] }
            let s := e.onGroup s (fun _ => { x.1 with kept := false })
            .go (s.addOp { e.newOp s (some x.2) (.pair p) with begun := true, held := held }).1
          match resume, cursor, s.orphan e.team e.grp 2 with
          | true, some c, none =>
            start (s.markSlot e.agent (s.slotVa e.team e.grp 2) resumedWord |>.dropOrphan e 1) c true
          | true, some c, some (id, o) =>
            if o.token == e.pc then
              match (s.dropOrphan e 1).again e 2 ll with
              | .done s => .go s
              | .bad s => .ok (e.trap s { kind := .illegalOperand, detail := 0, lanes := e.act }) e.path
              | .goOn _ s => .go s
              | .fresh s => start s p false
            else start (((s.abandonOp id).markSlot e.agent (s.slotVa e.team e.grp 2) resumedWord).dropOrphan e 1) c true
          | _, _, _ =>
            match (s.dropOrphan e 1).again e 2 ll with
            | .done s => .go s
            | .bad s => .ok (e.trap s { kind := .illegalOperand, detail := 0, lanes := e.act }) e.path
            | .goOn _ s => .go s
            | .fresh s => start s p false)

end Sys2Proof.Machine
end

