-- ==== Sys2Proof/Machine/System.lean ====
section
/-!
DEFINITION. Traps and returns (R189, R311), the datum and marks (R312), `LAUNCH` with the checks of R322 (R313), and
`PATOM` (R315).
-/
namespace Sys2Proof.Machine

/-! ### Traps and returns (R311) -/

/-- The path of a group stands after the instruction: at the next one of its clause, or at the successor header. -/
def Env.standAfter (e : Env) (s : State) : State :=
  match s.bundle with
  | none => s
  | some (_, x) =>
    let pos := x.pos + instrLength x.body x.pos
    if x.body.length ≤ pos then e.onGroup s (fun g => g.goTo e.path (fun _ => e.succ))
    else e.onGroup s (fun g =>
      g.standAt e.path 1 (e.hdr + BitVec.ofNat 64 (8 + pos)) (e.hdr, e.bodyw) none)

/-- The group takes a trap after an instruction, if a lane is active (R188, R311). -/
def State.trapAt (s : State) (g : Guard) (k : Kind) (n : BitVec 10) : State :=
  s.run { g := g } fun e s =>
    if e.act = 0 then .go s
    else
      .ok (e.raises (e.standAfter s) k n.toNat e.act) e.path

/-- `TRAP` (R311). -/
def execTrap (g : Guard) (n : BitVec 10) (s : State) : Host.Outcome State Fault Refusal := .next (s.trapAt g .trap n)

/-- `BRK` (R311). -/
def execBrk (g : Guard) (n : BitVec 10) (s : State) : Host.Outcome State Fault Refusal := .next (s.trapAt g .brk n)

/-- A return: the frame is read and checked, and every lane of the group goes where it says (R189). -/
def State.returnFrom (s : State) (level : Level) (ui : Bool) : State :=
  s.run { g := .always, level := level } fun e s =>
    let base := (e.group s).s2 + (if ui then 0x2000 else 0)
    e.withRead s (State.loadWords { e.agent with level := .control } s base 128) (s.frameOwned e.agent base .read) fun ws s1 =>
      let ws := ws.getD []
      if !frameOk ws then e.fault .illegalOperand 0
      else
        let r := if ui then (false, s1) else s1.returnUnits e.team e.grp
        -- an operation whose record fails its checks is ended although the return traps (R195)
        if r.1 then .ok (e.trap r.2 { kind := .illegalOperand, detail := 0, lanes := e.act }) e.path
        else
          let s2 := (r.2.withdraw e.team e.grp).onGroup e.team e.grp (fun g => g.restore ui ws)
          .ok (if ui then s2 else s2.settleWaits e.team e.grp) e.path

/-- `ERET` (R189, R311). -/
def execEret (s : State) : Host.Outcome State Fault Refusal := .next (s.returnFrom .control false)

/-- `UIRET` (R189, R311). -/
def execUiret (s : State) : Host.Outcome State Fault Refusal := .next (s.returnFrom .user true)

/-! ### The datum and marks (R312) -/

/-- An earlier instruction of the lanes of a mask, or of the whole group, has not completed. -/
def Group.unfinished (g : Group) (whole : Bool) (m : Lanes) : Bool :=
  let mine (ls : Lanes) : Bool := whole || (ls &&& m) != 0
  g.pend.any (fun p => !p.2.left_ && mine p.2.lanes) || g.fences.any (fun f => mine f.2.1)

/-- `TICK` (R312). -/
def execTick (g : Guard) (d : Reg) (s : State) : Host.Outcome State Fault Refusal :=
  let whole := match d with
    | .v _ => false
    | .s _ => true
  .next (s.run { g := g, top := topR d 1, once := whole
                 wait := fun e s => e.act != 0 && (e.group s).unfinished whole e.act } fun e s =>
    let t : Word := BitVec.ofNat 64 s.dev.datum
    match d with
    | .v n => .go (e.onGroup s (fun gr => gr.setVs n.toNat e.act (fun _ => t)))
    | .s n => .go (e.once s (fun s => e.onGroup s (fun gr => gr.setS n.toNat t))))

/-- `MARK` (R312, R381). -/
def execMark (g : Guard) (n : BitVec 10) (a : Reg) (s : State) : Host.Outcome State Fault Refusal :=
  .next (s.run { g := g, top := topR a 1, once := true } fun e s =>
    .go (e.once s (fun s =>
      s.emit 0 e.core e.ctx 4 n.toNat (e.groupReg (e.group s) a).toNat (s.ident e.team e.grp) 0)))

/-! ### Kernel headers (R321, R322) -/

/-- A field of a kernel header. -/
def hdrField (h : BitVec 2048) (lo n : Nat) : Nat := (h.extractLsb' lo n).toNat

/-- The number of roles of a header. -/
def hdrRoles (h : BitVec 2048) : Nat := hdrField h 50 3 + 1

/-- The parts of a kernel header. -/
def parseHeader (h : BitVec 2048) : Header :=
  { ver := hdrField h 32 8, wcode := hdrField h 48 2, codelen := hdrField h 192 32, scratch := hdrField h 256 24
    accn := hdrField h 280 5, z := hdrField h 288 32, payload := hdrField h 320 8, recurse := hdrField h 328 5
    uient := hdrField h 384 64
    roles := (List.range (hdrRoles h)).map (fun r =>
      { entry := hdrField h (448 + 64 * r) 32, ngrp := hdrField h (480 + 64 * r) 5, vcnt := hdrField h (488 + 64 * r) 10 })
    shelves := (List.range 16).filterMap (fun k =>
      let lo := 960 + 32 * k
      if h.getLsbD (lo + 31) then some (k, hdrField h lo 13, hdrField h (lo + 16) 8, hdrField h (lo + 24) 6 + 1)
      else none) }

/-- `MAGIC`, `HVER`, the reserved fields and the role entries beyond `NROLE` (R322 order 6). -/
def hdrForm (h : BitVec 2048) : Bool :=
  hdrField h 0 32 == 0x4C534C46 && hdrField h 40 8 == 1 && hdrField h 53 11 == 0 && hdrField h 224 32 == 0
    && hdrField h 285 3 == 0 && hdrField h 333 3 == 0 && hdrField h 344 40 == 0 && hdrField h 1472 576 == 0
    && (List.range 8).all (fun r =>
      if r < hdrRoles h then hdrField h (485 + 64 * r) 3 == 0 && hdrField h (498 + 64 * r) 14 == 0
      else hdrField h (448 + 64 * r) 64 == 0)
    && (List.range 16).all (fun k => hdrField h (973 + 32 * k) 3 == 0 && hdrField h (990 + 32 * k) 1 == 0)

/-- The groups of a team of a header. -/
def Header.groups (h : Header) : Nat := h.roles.foldl (fun n r => n + r.ngrp) 0

/-- The column-rows of a team of a header (R325). -/
def Header.rows (h : Header) : Nat := h.roles.foldl (fun n r => n + r.ngrp * groupRows r.vcnt h.width) 0

/-- The share as it is allocated (R60). -/
def allotted (size : Nat) : Nat := (size + 16383) / 16384 * 16384

/-- A team that has only the shelves and the size of a header. -/
def Header.shelfTeam (h : Header) : Team :=
  { Team.zero with
    size := h.scratch
    h := h.shelves.foldl (fun m x =>
      put x.1 { Shelf.off with base := x.2.1, slotl := x.2.2.1, nslot := x.2.2.2, cfg := true } m) [] }

/-- A shelf entry as the operand that `SHCFG` would take (R70). -/
def shelfWord (x : Nat × Nat × Nat × Nat) : Word :=
  BitVec.ofNat 64 (x.2.1 + x.2.2.1 * 2 ^ 16 + (x.2.2.2 - 1) * 2 ^ 24)

/-- The bounds of a header: entries, roles, share, tiles, replay area, shelves (R322 order 10). -/
def Header.bounds (h : Header) : Bool :=
  h.roles.all (fun r => r.entry % 8 == 0 && decide (r.entry < h.codelen) && decide (1 ≤ r.ngrp) && decide (1 ≤ r.vcnt)
      && decide (r.vcnt ≤ if h.ver = 3 then 640 else 511))
    && h.uient % 8 == 0 && (h.uient == 0 || decide (h.uient < h.codelen))
    && decide (h.groups ≤ 16) && decide (h.groups * h.width ≤ 1024)
    && h.scratch % 256 == 0 && decide (256 ≤ h.scratch) && decide (h.scratch ≤ Config.scratch)
    && decide (h.accn ≤ Config.tiles) && h.z % 256 == 0 && decide (9216 ≤ h.z)
    && h.shelves.all (fun x => !(h.shelfTeam).badShelf x.1 (shelfWord x))

/-- The lowest bit of a feature mask that `CAP` lacks (R216). -/
def State.lacks (s : State) (h : BitVec 2048) : Option Nat :=
  (List.range 128).find? (fun k => h.getLsbD (64 + k) && !(s.cap.setWidth 128).getLsbD k)

/-- A decode bit of `CAP` for an encoding version (R58, R216): all versions are decoded. -/
def versionOk (v : Nat) : Bool := decide (1 ≤ v) && decide (v ≤ 3)

/-! ### Room in a partition (R25, R39, R334) -/

/-- The core of a partition's control team: the lowest of its lowest cluster (R334). -/
def Part.controlCore (p : Part) : Nat := p.clusters.foldl Nat.min (p.clusters.headD 0) * 8

/-- The tenant cores of a cluster of a partition. -/
def Part.tenantCores (p : Part) (cl : Nat) : List Nat :=
  ((List.range 8).map (· + cl * 8)).filter (· != p.controlCore)

/-- A team of a header fits a core that holds nothing. -/
def Header.fitsEmpty (h : Header) : Bool :=
  decide (h.rows ≤ Config.rows) && decide (allotted h.scratch ≤ Config.scratch) && decide (h.accn ≤ Config.tiles)
    && decide (h.groups ≤ 64)

/-- A team of a header fits an empty core, and a gang of a size an empty cluster of a partition (R322 order 12). -/
def Part.fits (p : Part) (h : Header) (gang : Nat) : Bool :=
  h.fitsEmpty && p.clusters.any (fun c => decide (gang ≤ (p.tenantCores c).length))

/-! ### `LAUNCH` (R313, R322) -/

/-- A field of a launch record. -/
def launchField (r : BitVec 1024) (lo n : Nat) : Nat := (r.extractLsb' lo n).toNat

/-- The alignment and the reserved fields of a launch record (R322 order 2). -/
def launchForm (r : BitVec 1024) : Bool :=
  launchField r 0 8 == 0 && launchField r 128 8 == 0 && launchField r 288 3 == 0 && launchField r 216 8 == 0
    && launchField r 235 21 == 0 && launchField r 266 22 == 0 && launchField r 352 672 == 0

/-- `GP` and `GF` of a launch record. -/
def launchGangs (r : BitVec 1024) : Nat × Nat := (launchField r 224 4, launchField r 228 4)

/-- The bounds of a launch record (R322 order 11): `TEAMS`, the gang sizes, and the limits of a light context. -/
def launchBounds (r : BitVec 1024) (h : Header) (light : Bool) : Bool :=
  let g := launchGangs r
  decide (1 ≤ launchField r 192 24) && decide (1 ≤ g.2) && decide (g.2 ≤ g.1) && decide (g.1 ≤ 8)
    && (!light || (h.accn == 0 && decide (h.scratch ≤ 262144)))

/-- The status of a launch from its kernel header: orders 6 to 12 of R322. -/
def State.headerStatus (s : State) (part : Nat) (r : BitVec 1024) (light : Bool) (h : BitVec 2048) : Nat :=
  let x := parseHeader h
  if !hdrForm h then 5
  else if !versionOk x.ver then 2 + 2 ^ 8 * x.ver
  else
    match s.lacks h with
    | some k => 3 + 2 ^ 8 * k
    | none =>
      if x.wcode ≠ launchField r 232 2 then 4
      else if !x.bounds then 5
      else if !launchBounds r x light then 5
      else
        match find part s.parts with
        | none => 8
        | some p => if p.fits x (launchGangs r).2 then 0 else 8

/-- The agent that reads in a target context for a group (R313). -/
def Agent.inCtx (a : Agent) (c : Nat) : Agent := { a with ctx := c }

/-- The status of a launch, with the kernel header when it has been read, in the order of R322; no record stands for
one at a misaligned address. -/
def State.launchStatus (s : State) (a : Agent) (rec_ : Option (BitVec 1024)) : (Nat × BitVec 2048) × State :=
  if s.dev.exhausted then ((7, 0), s)
  else
    match rec_ with
    | none => ((1, 0), s)
    | some r =>
      let part := (s.ctx a.ctx).part
      let x := s.ctx (launchField r 256 10)
      if !launchForm r then ((1, 0), s)
      else if x.st == .free || x.part != part then ((6, 0), s)
      else if x.ctrl then ((5, 0), s)
      else
        let b := a.inCtx (launchField r 256 10)
        let va := BitVec.ofNat 64 (launchField r 0 64)
        match State.readWords b s va 32 with
        | .error f => ((9 + 2 ^ 8 * f.1.code, 0), s)
        | .ok q =>
          let h := BitVec.ofNat 2048 (joinWords q.1)
          ((q.2.headerStatus part r x.light h, h), q.2)

/-- The instruction-cache lines of a partition that overlap a code object are discarded (R69). -/
def State.dropCode (s : State) (part c : Nat) (code : Word) (len : Nat) : State :=
  let lo := icKey c code
  let hi := icKey c (code + BitVec.ofNat 64 (len - 1))
  match find part s.parts with
  | none => s
  | some p =>
    { s with cores := s.cores.map (fun e =>
        if p.clusters.contains (e.1 / 8) then
          (e.1, { e.2 with ic := e.2.ic.filter (fun l => !(decide (lo ≤ l.1) && decide (l.1 ≤ hi))) })
        else e) }

/-- A context that was idle has work: it waits in its save area to be chosen (R331, R333). -/
def State.ctxBusy (s : State) (c : Nat) : State :=
  if (s.ctx c).st = .idle then
    let s := s.setCtxSt c .spilled
    { s with agenda := s.agenda ++ [Instr.schedulerDecision (s.ctx c).part] }
  else s

/-- An accepted grid enters the queue of its partition (R313, R335). -/
def State.acceptGrid (s : State) (e : Env) (dc : Option Nat) (r : BitVec 1024) (h : BitVec 2048) : State :=
  let c := launchField r 256 10
  let code := BitVec.ofNat 64 (launchField r 0 64)
  let x := parseHeader h
  let gr : Grid :=
    { ctx := c, part := (s.ctx c).part, from_ := e.ctx, team := e.team, grp := e.grp, dc := dc, record := r, code := code
      hdr := x, teams := launchField r 192 24, next := 0, gangs := 0, live := 0, queued := true }
  let s := s.dropCode gr.part c code x.codelen
  ({ s with grids := put (freeKey s.grids) gr s.grids }).ctxBusy c

/-- The grids queued in a partition: those of saved contexts are in their images (R335, R340). -/
def State.queueLength (s : State) (part : Nat) : Nat :=
  (s.grids.filter (fun g => g.2.part == part && g.2.queued && decide (g.2.ctx < 1024))).length

/-- The lines of the kernel header that a launch waits for, where it comes to read it (R91, R100, R322). -/
def State.launchWaits (s : State) (a : Agent) (r : BitVec 1024) : List Nat :=
  let c := launchField r 256 10
  let x := s.ctx c
  if s.dev.exhausted || !launchForm r || x.st == .free || x.part != (s.ctx a.ctx).part || x.ctrl then []
  else s.wordsOwned (a.inCtx c) (BitVec.ofNat 64 (launchField r 0 64)) 32

/-- `LAUNCH` (R313, R322): Sd is written at acceptance or refusal, and the counter is lowered at once when nothing has
been launched. -/
def execLaunch (g : Guard) (ll : Ll) (d a : SReg) (s : State) : Host.Outcome State Fault Refusal :=
  .next (s.run { g := g, level := .control, ll := some ll, acc := true, once := true, leaf := 20
                 wait := fun e s => e.act != 0 && decide (256 ≤ s.queueLength (s.ctx e.ctx).part) } fun e s =>
    let va := (e.group s).sreg a.toNat
    let finish (t : (Nat × BitVec 2048) × State) (r : BitVec 1024) : Res :=
      let s := e.onGroup t.2 (fun g => g.setS d.toNat (BitVec.ofNat 64 t.1.1))
      if t.1.1 = 0 then
        let dc := ll.dc.map (·.toNat)
        let s := e.onGroup s (fun g => match dc with
          | some k => g.setD k (g.dreg k + 1)
          | none => g)
        .go (s.acceptGrid e dc r t.1.2)
      else .go s
    if bits va 0 6 ≠ 0 then (if e.act = 0 then .go s else finish (s.launchStatus e.agent none) 0)
    else
      e.withWords s va 16 fun ws s =>
        let r := BitVec.ofNat 1024 (joinWords ws)
        if e.act = 0 then .go s
        else
          match s.launchWaits e.agent r with
          | l :: ls => .park (.owned (l :: ls))
          | [] => finish (s.launchStatus e.agent (some r)) r)

/-! ### `PATOM` (R315) -/

/-- The word that a `PATOM` leaves. -/
def patomNew (op : PatomOp) (old x y : Nat) : Nat :=
  match op with
  | .cas => if old = x then y else old
  | .iadd => (old + x) % 2 ^ 64
  | .xchg => x
  | .ld => old

/-- What a lane of a `PATOM` meets: a misaligned address, a page outside the pool's ordered and private classes, or a
fault of translation (R315). -/
def State.patomFault (s : State) (a : Agent) (op : PatomOp) (va : Word) : Option (Kind × Nat) :=
  let use := if op = .ld then Use.read else Use.write
  if bits va 0 3 ≠ 0 || s.classBad a use (fun c => c == 2 || c == 3) va then some (.illegalOperand, 0)
  else
    match s.seek a use va with
    | .error f => some f
    | .ok p => if s.poisoned 0 (lineNo p.addr) then some (.poison, 0) else none

/-- One lane's `PATOM` at the pool device, which finds no device copy of the line: not encrypted, and not in the order
of R88 (R109, R375). -/
def State.patom (s : State) (a : Agent) (op : PatomOp) (va : Word) (x y : Nat) : Nat × State :=
  match s.seek a (if op = .ld then Use.read else Use.write) va with
  | .error _ => (0, s)
  | .ok p =>
    let s := (s.walked a va p).invalidate (lineNo p.addr)
    let old := (s.readKey 0 p.addr 8).1
    (old, if op = .ld then s else s.plainWrite 0 p.addr 8 (s.tableMask p.addr 8 (patomNew op old x y)))

/-- `PATOM` (R315): the lanes in ascending order; the old words reach Vd at completion. A helper lane has no effect, and its Vd
receives 0 (R143). -/
def execPatom (g : Guard) (ll : Ll) (op : PatomOp) (d : VReg) (a b : Reg) (s : State) : Host.Outcome State Fault Refusal :=
  .next (s.run { g := g, top := maxOf [topV d 1, topR a 1, if op = .cas then topR b 2 else topR b 1], level := .control
                 ll := some ll, mem := true, reqs := true, acc := true } fun e s =>
    let gr := e.group s
    let act := gr.real e.act
    checked (laneFaults act (fun i => s.patomFault e.agent op (gr.reg a i)))
      (s.ownedHome e.agent (if op = .ld then .read else .write) ((lanesOf act).map (gr.reg a)))
      (let r := (lanesOf act).foldl (fun (p : State × SMap Word) (i : Nat) =>
          let q := p.1.patom e.agent op (gr.reg a i) (gr.reg b i).toNat (gr.runReg b 1 i).toNat
          (q.2, put i (BitVec.ofNat 64 q.1) p.2)) (s, [])
       .go (e.begin r.1 ll { Pend.access with vw := vWrites d.toNat e.act (fun i => get 0 i r.2) })))

/-- `PATOM_HEARTBEAT_DEADLINE`: the pool device has not answered a `PATOM` of a group, which halts with Host-Lost; the
lanes already performed stand (R315, R402). -/
def execPatomHeartbeatDeadline (team grp port : Nat) (s : State) : Host.Outcome State Fault Refusal :=
  .next (if (s.group team grp).live = 0 then s
    else
      let a := s.groupAgent team grp
      let pc := (s.group team grp).lanePc (lowest (s.group team grp).live)
      let x : Entry := { kind := .hostLost, detail := port, unit := 0, lanes := 0, pc := pc, ui := false }
      s.enter a x)

end Sys2Proof.Machine
end

