-- ==== Sys2Proof/Machine/Image.lean ====
section
/-!
DEFINITION. Save images (R54-R56, R340): what `CSAVE` writes and `CREST` reads (R314, R341, R342). What an image and the
replay areas imply but do not spell out - the inner state of parked operations - stays with the machine under a context
number above the slots until the image is restored (entry 15).
-/
namespace Sys2Proof.Machine

/-! ### Blocks (R54-R56) -/

/-- Bytes of values of the given size as 8-byte words. -/
def packWords (size : Nat) (xs : List Nat) : List Nat :=
  wordsOfNum ((xs.length * size + 7) / 8) (joinBits (8 * size) xs)

/-- Zero words. -/
def zeros (n : Nat) : List Nat := List.replicate n 0

/-- A group block (R54). -/
def Group.block (g : Group) : List Nat :=
  (List.range 64).map (fun k => (g.sreg k).toNat) ++ (List.range 8).map (fun k => (g.jreg k).toNat)
  ++ packWords 1 ((List.range 8).map g.dreg)
  ++ [g.prioImage, g.flags.toNat, g.modeImage, g.gts, g.trappc.toNat, g.faultinfo.toNat, g.faultlanes.toNat]
  ++ (List.range 64).map (fun i => if i < g.width then (g.lanePc i).toNat else 0)
  ++ packWords 2 ((List.range 64).map (fun i => if i < g.width then ((get 0 i g.p) ||| 0x8000).toNat else 0))
  ++ packWords 1 ((List.range 64).map g.state) ++ zeros 24
  ++ (List.range (g.n * g.width)).map (fun j => (g.vreg (j / g.width) (j % g.width)).toNat)

/-- The traverse section that follows a group block: depths, then return addresses lane by lane (R308, R340). -/
def Group.traverseBlock (g : Group) (recurse : Nat) : List Nat :=
  packWords 1 ((List.range 64).map (fun i => get 0 i g.depth))
  ++ (List.range g.width).flatMap (fun i => (List.range recurse).map (fun d => (get 0 (i * 32 + d + 1) g.rets).toNat))

/-- The image of a shelf register (R70). -/
def Shelf.image (h : Shelf) : Nat :=
  let ptr (p : Nat × Bool) : Nat := p.1 % 64 + (if p.2 then 64 else 0)
  h.base % 2 ^ 13 + h.slotl % 256 * 2 ^ 16 + (h.nslot - 1) % 64 * 2 ^ 24 + (if h.cfg then 2 ^ 31 else 0)
    + ptr h.acq * 2 ^ 32 + ptr h.com * 2 ^ 39 + ptr h.tak * 2 ^ 46 + ptr h.rel * 2 ^ 53 + h.phase.toNat * 2 ^ 64

/-- The image of a barrier (R56). -/
def Bar.image (b : Bar) : Nat := b.count % 2 ^ 16 + b.expect % 2 ^ 16 * 2 ^ 16 + (if b.phase then 2 ^ 32 else 0)

/-- A team block (R56). -/
def Team.block (t : Team) : List Nat :=
  (List.range 16).flatMap (fun k => wordsOfNum 4 (get 0 k t.t).toNat)
  ++ packWords 2 ((List.range 16).map (fun k => (get 0 k t.f).toNat)) ++ zeros 4
  ++ (List.range 16).flatMap (fun k => wordsOfNum 2 (t.shelf k).image)
  ++ (List.range 16).map (fun b => (t.bar b).image)
  ++ wordsOfNum 8 (joinFields t.seq.record)
  ++ [if t.pkten then 1 else 0, t.sprio.toNat] ++ zeros 126
  ++ (List.range 128).map (fun k =>
    (List.range 64).foldr (fun j x => (if 64 * k + j < t.size / 256 && t.present (64 * k + j) then 1 else 0) + 2 * x) 0)
  ++ zeros 128
  ++ (List.range (t.ntiles * 8192)).map (fun k =>
    let w (j : Nat) : Nat := (t.word (j / 16384) (j % 16384 / 128) (j % 128)).toNat
    w (2 * k) + 2 ^ 32 * w (2 * k + 1))
  ++ (List.range (t.size / 8)).map (fun k => readN t.scratch (8 * k) 8)

/-! ### Images (R340) -/

/-- The grids of a context in the queue, in order, with their numbers. -/
def State.queueOf (s : State) (c : Nat) : List (Nat × Grid) := s.grids.filter (fun g => g.2.ctx == c && g.2.queued)

/-- The place of a grid in the queue of its context; all ones when it has left it. -/
def State.queueIndex (s : State) (c grid : Nat) : Nat :=
  match ((s.queueOf c).map (·.1)).idxOf? grid with
  | some k => k
  | none => 0xFFFFFFFFFFFFFFFF

/-- The bytes of the blocks of a team's groups, each with its offset from the first. -/
def Team.groupBlocks (t : Team) (recurse : Nat) : List (Nat × Nat) × List Nat :=
  t.groups.foldl (fun (p : List (Nat × Nat) × List Nat) g =>
    (p.1 ++ [(g.1, 8 * p.2.length)], p.2 ++ g.2.block ++ g.2.traverseBlock recurse)) ([], [])

/-- A team record, padded to 4 KiB. -/
def State.teamRecord (s : State) (t : Team) : List Nat :=
  let g := find t.grid s.grids
  let recurse := match g with
    | some g => g.hdr.recurse
    | none => 0
  let b := t.block
  let gs := t.groupBlocks recurse
  let at_ (k : Nat) : Nat := match find k gs.1 with
    | some o => 4096 + 8 * b.length + o
    | none => 0
  let body := b ++ gs.2
  let pad := (512 - body.length % 512) % 512
  [t.idImage, (match g with
    | some g => g.code.toNat
    | none => 0), s.queueIndex t.ctx t.grid, (match g with
    | some g => launchField g.record 128 64
    | none => 0), t.groups.length, 8 * (512 + body.length + pad), 0, 0]
  ++ (List.range 16).map at_ ++ zeros 488 ++ body ++ zeros pad

/-- The teams of a context, in ascending number, grid by grid. -/
def State.teamsOf (s : State) (c : Nat) : List (Nat × Team) := s.teams.filter (fun e => e.2.ctx == c)

/-- The parcels of a context that wait registered: key and context-word address, in order of registration (R340). -/
def State.parcelWaits (s : State) (c : Nat) : List (Word × Word) :=
  s.regs.filterMap (fun r => match r.who with
    | .parcel rc i _ => if r.ctx = c then some (r.key, parcelVa rc i) else none
    | .lanes _ _ _ => none
    | .host _ _ => none)

/-- A save image, as words (R340). -/
def State.image (s : State) (c : Nat) : List Nat :=
  let x := (s.readDesc c).ctx c
  let ts := (s.teamsOf c).flatMap (fun e => s.teamRecord e.2)
  let q := s.queueOf c
  let w := s.parcelWaits c
  [0x4D494354 + 2 ^ 32, (if x.light then 1 else 0) + x.prio % 16 * 2 ^ 8, x.quant, x.ptroot.toNat, x.bindt.toNat, x.tvec.toNat,
   x.lease.toNat, x.area.toNat, (s.teamsOf c).length, q.length, w.length, 4096 + 8 * ts.length]
  ++ (List.range 64).map (fun k => get 0 k x.counts) ++ zeros 436 ++ ts
  ++ q.flatMap (fun g => (wordsOfNum 16 g.2.record.toNat).zipIdx.map (fun (y : Nat × Nat) =>
      if y.2 = 6 then g.2.next else y.1))
  ++ w.flatMap (fun e => [e.1.toNat, e.2.toNat])

/-! ### `CSAVE` (R314, R341) -/

/-- The first fault of writing, or of reading, a number of words of an image: page by page, and poison for a read. -/
def State.imageFault (s : State) (a : Agent) (use : Use) (va : Word) (n : Nat) : Option (Kind × Nat) :=
  (List.range ((n + 7) / 8)).findSome? (fun k =>
    match s.seek a use (va + BitVec.ofNat 64 (64 * k)) with
    | .error f => some f
    | .ok p => if use == .read && s.poisoned s.dev.platform (lineNo p.addr) then some (.poison, 0) else none)

/-- Words of an image written under the platform key (R375). -/
def State.imageStore (s : State) (a : Agent) (va : Word) (ws : List Nat) : State :=
  (ws.foldl (fun (p : Word × State) w =>
    (p.1 + 8, match p.2.seek a .write p.1 with
      | .error _ => p.2
      | .ok q => (p.2.walked a p.1 q).deviceStore q.addr 8 w)) (va, s)).2

/-- A word of an image, read under the platform key. -/
def State.imageWord (s : State) (a : Agent) (va : Word) (off : Nat) : Nat :=
  match s.seek a .read (va + BitVec.ofNat 64 off) with
  | .error _ => 0
  | .ok p => s.deviceRead p.addr 8

/-- What belongs to a context, and what it has launched, passes to another number. -/
def State.moveCtx (s : State) (c d : Nat) : State :=
  { s with
    teams := s.teams.map (fun (e : Nat × Team) => (e.1, if e.2.ctx = c then { e.2 with ctx := d } else e.2))
    ops := s.ops.map (fun (e : Nat × Op) => (e.1, if e.2.ctx = c then { e.2 with ctx := d } else e.2))
    sweeps := s.sweeps.map (fun (e : Nat × Sweep) => (e.1, if e.2.ctx = c then { e.2 with ctx := d } else e.2))
    grids := s.grids.map (fun (e : Nat × Grid) => (e.1, { e.2 with
      ctx := if e.2.ctx = c then d else e.2.ctx, from_ := if e.2.from_ = c then d else e.2.from_ })) }

/-- The L1 copies and the instruction-cache lines that the cores hold of a slot end: the next context of the slot has other
keys, and finds nothing of them (R374, R375). TLB entries stay until their age ends them (R350, R351). -/
def State.dropCaches (s : State) (c : Nat) : State :=
  let f (k : Core) : Core :=
    { k with l1 := k.l1.filter (fun e => e.1 / 2 ^ 70 != c), ic := k.ic.filter (fun e => e.1 / 2 ^ 57 != c) }
  { s with cores := s.cores.map (fun (e : Nat × Core) => (e.1, f e.2)) }

/-- Everything of a context goes. -/
def State.dropCtx (s : State) (c : Nat) : State :=
  { s with
    teams := s.teams.filter (fun e => e.2.ctx != c), ops := s.ops.filter (fun e => e.2.ctx != c)
    sweeps := s.sweeps.filter (fun e => e.2.ctx != c), grids := s.grids.filter (fun e => e.2.ctx != c)
    ctxs := if c < 1024 then s.ctxs else del c s.ctxs }

/-- The number under which the machine keeps what it knows of a saved context: by its page table and binding table. -/
def State.keptAs (s : State) (x : Ctx) : Option Nat :=
  (s.ctxs.find? (fun e => decide (1024 ≤ e.1) && e.2.ptroot == x.ptroot && e.2.bindt == x.bindt)).map (·.1)

/-- Every reply due to the groups of a context is applied, as far as instructions can complete (R339, R341). -/
def State.applyReplies (s : State) (c : Nat) : State :=
  { s with teams := s.teams.map (fun (e : Nat × Team) =>
      if e.2.ctx = c then
        (e.1, { e.2 with core := none, groups := e.2.groups.map (fun (g : Nat × Group) =>
          (g.1, { (g.2.completeAll.settle g.2.live) with fences := [], owed := [] })) })
      else e) }

/-- The slot of a context is freed: its generation rises, and its partition runs it no longer (R341 step 4). -/
def State.freeSlot (s : State) (c : Nat) : State :=
  let x := s.ctx c
  let s := { s with parts := s.parts.map (fun (e : Nat × Part) =>
    (e.1, { e.2 with running := if e.2.running = some c then none else e.2.running
                     next := if e.2.next = some c then none else e.2.next })) }
  let s := s.onCtx c (fun x =>
    { x with st := .free, gen := x.gen + 1, err := none, counts := [], busy := [], avail := [] })
  { (s.writeDesc c).dropCaches c with agenda := s.agenda ++ [Instr.schedulerDecision x.part] }

/-- A context as its image is to show it: its operations parked, without lines of their own, and every reply applied (R338,
R339, R341). -/
def State.readied (s : State) (c : Nat) : State := ((s.parkAll c).surrender c).applyReplies c

/-- The image of a readied context is written and its slot freed (R341). -/
def State.saveImage (s : State) (a : Agent) (c : Nat) (va : Word) : State :=
  let ws := s.image c
  let s := { s with regs := s.regs.filter (fun r => r.ctx != c) }
  let s := s.imageStore a va ws
  let s := match s.keptAs (s.ctx c) with
    | some d => s.dropCtx d
    | none => s
  let d := Nat.max 1024 (freeKey s.ctxs)
  let s := (s.onCtx d (fun _ => { s.ctx c with st := .halted })).moveCtx c d
  s.freeSlot c

/-- A reply is still due to a context from outside the cores: a command at the home slices, or a `CSAVE` or `CREST` of its own
(R337, R339). -/
def State.repliesDue (s : State) (c : Nat) : Bool :=
  s.ops.any (fun e => e.2.ctx == c && (match e.2.body with
    | .near _ | .crest _ => true
    | .copy _ | .tex _ | .rast _ | .ray _ | .pair _ | .drain => false))

/-- Some team of a context is on a core. -/
def State.onCores (s : State) (c : Nat) : Bool := s.teams.any (fun e => e.2.ctx == c && e.2.core.isSome)

/-- The status of a `CSAVE` (R314). -/
def State.csaveStatus (s : State) (own c : Nat) (va : Word) : Nat :=
  if (s.ctx c).st = .free then 1 else if bits va 0 12 ≠ 0 then 2 else if c = own then 3 else 0

/-- The lines of an image that operations own (R100). -/
def State.imageOwned (s : State) (a : Agent) (use : Use) (va : Word) (n : Nat) : List Nat :=
  s.ownedHome a use ((List.range ((n + 7) / 8)).map (fun k => va + BitVec.ofNat 64 (64 * k)))

/-- What a `CSAVE` of a context that has left the cores comes to: the state with the image written, or none while a reply is
due to the context or an operation owns a line of the image (R100, R339, R341). -/
def State.saved (s : State) (a : Agent) (c : Nat) (va : Word) : Option State :=
  if s.onCores c || s.repliesDue c then none
  else
    let t := s.readied c
    if (t.imageOwned a .write va (t.image c).length).isEmpty then some (t.saveImage a c va) else none

/-- `CSAVE` (R314, R341): a context on the cores is halted first. -/
def execCsave (g : Guard) (ll : Ll) (d a b : SReg) (s : State) : Host.Outcome State Fault Refusal :=
  .next (s.run { g := g, level := .control, ll := some ll, once := true } fun e s =>
    let gr := e.group s
    let c := bits (gr.sreg a.toNat) 0 10
    let va := gr.sreg b.toNat
    let st := s.csaveStatus e.ctx c va
    match if st = 0 then s.imageFault e.agent .write va (s.image c).length else none with
    | some f => e.fault f.1 f.2
    | none =>
      if e.act = 0 then .go s
      else if st ≠ 0 then .go (e.begin s ll { Pend.zero with sw := [(d.toNat, BitVec.ofNat 64 st)] })
      else
        match s.saved e.agent c va with
        | some s => .go (e.begin s ll { Pend.zero with sw := [(d.toNat, 0)] })
        | none =>
          let w := gr.begin ll e.act { Pend.zero with ready := false, sw := [(d.toNat, 0)] }
          let s := e.onGroup s (fun _ => w.1)
          let s := (s.addOp (e.newOp s (some w.2) (.crest { save := true, slot := c, image := va }))).1
          let part := (s.ctx c).part
          let runs := (find part s.parts).any (fun p => p.running == some c && !p.swapping && !p.halted)
          .go (if runs then { s with parts := adjust part (fun p => { p with halting := true }) s.parts } else s))

/-- The `CSAVE` instructions under way for the contexts of a partition: operation and context (R341). -/
def State.savesOf (s : State) (part : Nat) : List (Nat × Nat) :=
  s.ops.filterMap (fun e => match e.2.body with
    | .crest x => if x.save ∧ (s.ctx x.slot).part = part then some (e.1, x.slot) else none
    | .copy _ | .tex _ | .rast _ | .ray _ | .pair _ | .drain | .near _ => none)

/-- A `CSAVE` of a context is under way. -/
def State.saving (s : State) (c : Nat) : Bool := (s.savesOf (s.ctx c).part).any (fun x => x.2 == c)

/-- A `CSAVE` under way writes its image, once nothing holds it back; one whose slot has been freed meanwhile ends (R341). -/
def State.saveDue (s : State) (id : Nat) : State :=
  match find id s.ops with
  | none => s
  | some o => match o.body with
    | .crest x =>
      if (s.ctx x.slot).st = .free then s.endOp id
      else
        match s.saved o.agent x.slot x.image with
        | some s => s.endOp id
        | none => s
    | .copy _ | .tex _ | .rast _ | .ray _ | .pair _ | .drain | .near _ => s

/-! ### Images read (R342) -/

/-- The words of an image from an offset. -/
def State.imageWords (s : State) (a : Agent) (va : Word) (off n : Nat) : List Nat :=
  (List.range n).map (fun k => s.imageWord a va (off + 8 * k))

/-- A team record found in an image: its words. -/
abbrev TeamWords := List Nat

/-- The team records of an image, from an offset on; none when a length is no multiple of 4 KiB or beyond any team's. -/
def State.imageTeams (s : State) (a : Agent) (va : Word) : Nat → Nat → Option (List TeamWords × Nat)
  | 0, off => some ([], off)
  | n + 1, off =>
    let len := s.imageWord a va (off + 0x28)
    if len % 4096 ≠ 0 ∨ len < 8192 ∨ 2 ^ 24 < len then none
    else
      match s.imageTeams a va n (off + len) with
      | none => none
      | some r => some (s.imageWords a va off (len / 8) :: r.1, r.2)

/-- An image taken apart: header, team records, queue entries, parcel waits. -/
structure Parsed where
  head : List Nat
  teams : List TeamWords
  queue : List (List Nat)
  waits : List (Word × Word)
  deriving DecidableEq, Repr

/-- The parts of an image; none when its lengths do not fit. -/
def State.parseImage (s : State) (a : Agent) (va : Word) : Option Parsed :=
  let h := s.imageWords a va 0 512
  let w (k : Nat) : Nat := h.getD k 0
  if 16384 < w 8 ∨ 256 < w 9 ∨ 2 ^ 24 < w 10 then none
  else
    match s.imageTeams a va (w 8) 4096 with
    | none => none
    | some (ts, off) =>
      if w 11 ≠ off then none
      else
        let q := (List.range (w 9)).map (fun k => s.imageWords a va (off + 128 * k) 16)
        let e := (List.range (w 10)).map (fun k =>
          let x := s.imageWords a va (off + 128 * w 9 + 16 * k) 2
          (BitVec.ofNat 64 (x.getD 0 0), BitVec.ofNat 64 (x.getD 1 0)))
        some { head := h, teams := ts, queue := q, waits := e }

/-- The first fault of reading an image (R317): its header, then all that the header and the records name. -/
def State.imageReadFault (s : State) (a : Agent) (va : Word) : Option (Kind × Nat) :=
  match s.imageFault a .read va 512 with
  | some f => some f
  | none =>
    let w (k : Nat) : Nat := s.imageWord a va (8 * k)
    if 16384 < w 8 ∨ 256 < w 9 ∨ 2 ^ 24 < w 10 then none
    else
      let rec teams : Nat → Nat → Option (Kind × Nat)
        | 0, off => s.imageFault a .read (va + BitVec.ofNat 64 off) (16 * w 9 + 2 * w 10)
        | n + 1, off =>
          match s.imageFault a .read (va + BitVec.ofNat 64 off) 8 with
          | some f => some f
          | none =>
            let len := s.imageWord a va (off + 0x28)
            if len % 4096 ≠ 0 ∨ len < 8192 ∨ 2 ^ 24 < len then none
            else
              match s.imageFault a .read (va + BitVec.ofNat 64 off) (len / 8) with
              | some f => some f
              | none => teams n (off + len)
      teams (w 8) 4096

/-- A page-table root with a reserved location or bit (R345). -/
def rootBad (r : Word) : Bool := decide (2 ≤ bits r 0 2) || bits r 2 19 != 0 || bits r 52 12 != 0

/-- The header of an image is as R340 and R345 ask. -/
def imageHeadOk (h : List Nat) : Bool :=
  let w (k : Nat) : Nat := h.getD k 0
  w 0 == 0x4D494354 + 2 ^ 32 && field (w 1) 1 7 == 0 && w 1 / 2 ^ 12 == 0 && !rootBad (BitVec.ofNat 64 (w 3))
    && (h.drop 76).all (· == 0)

/-- The context that a header describes, in a slot. -/
def ctxOfImage (h : List Nat) (old : Ctx) (part : Nat) (st : CtxSt) : Ctx :=
  let w (k : Nat) : Nat := h.getD k 0
  let cs := (List.range 64).foldl (fun m k => set 0 k (w (12 + k)) m) []
  { old with
    st := st, light := w 1 % 2 == 1, ctrl := false, prio := field (w 1) 8 4, quant := w 2 % 2 ^ 32, part := part
    ptroot := BitVec.ofNat 64 (w 3), bindt := BitVec.ofNat 64 (w 4), tvec := BitVec.ofNat 64 (w 5) &&& ~~~7
    lease := BitVec.ofNat 32 (w 6), area := BitVec.ofNat 32 (w 7), err := none, counts := cs
    busy := cs.map (fun e => (e.1, ())), avail := cs }

/-- The kernel header at an address of a context, with its raw bits. -/
def State.kernelAt (s : State) (a : Agent) (c : Nat) (code : Word) : Option (BitVec 2048) :=
  match State.readWords (a.inCtx c) s code 32 with
  | .error _ => none
  | .ok q => some (BitVec.ofNat 2048 (joinWords q.1))

/-- A word of a team record. -/
def TeamWords.at_ (t : TeamWords) (off : Nat) : Nat := t.getD (off / 8) 0

/-- The groups of a record that are present: number and offset. -/
def TeamWords.groups (t : TeamWords) : List (Nat × Nat) :=
  (List.range 16).filterMap (fun k => if t.at_ (0x40 + 8 * k) = 0 then none else some (k, t.at_ (0x40 + 8 * k)))

/-- A byte of a team record. -/
def TeamWords.byte (t : TeamWords) (off : Nat) : Nat := t.at_ (off / 8 * 8) / 256 ^ (off % 8) % 256

/-- A number in a team record. -/
def TeamWords.num (t : TeamWords) (off n : Nat) : Nat :=
  (List.range n).foldr (fun k x => t.byte (off + k) + 256 * x) 0

/-- Words of a run of a record are zero. -/
def TeamWords.clear (t : TeamWords) (off n : Nat) : Bool := ((t.drop (off / 8)).take (n / 8)).all (· == 0)

/-- The role of each group of a header, by number (R24). -/
def Header.roleOf (h : Header) (k : Nat) : Option Nat :=
  let rs := h.roles.zipIdx.flatMap (fun (x : Role × Nat) => List.replicate x.1.ngrp x.2)
  rs[k]?

/-- The declared count and width of the group with a number: those of the machine's own knowledge of it, else those of its
role. -/
def groupShape (h : Header) (kept : Option Group) (k : Nat) : Option (Nat × Nat × Nat) :=
  match kept with
  | some g => some (g.role, g.width, g.n)
  | none => match h.roleOf k with
    | some r => some (r, h.width, (h.roles.getD r { entry := 0, ngrp := 0, vcnt := 0 }).vcnt)
    | none => none

/-- The team that the machine keeps for a record: the one of the same number, of a grid with the same code and replay
areas. -/
def State.keptTeam (s : State) (kept : Option Nat) (t : TeamWords) : Option (Nat × Team) :=
  match kept with
  | none => none
  | some d => s.teams.find? (fun e => e.2.ctx == d && e.2.no == t.at_ 0 % 2 ^ 24 && (match find e.2.grid s.grids with
      | some g => g.code.toNat == t.at_ 8 && launchField g.record 128 64 == t.at_ 0x18
      | none => false))

/-- The reserved bits of a group block are zero, its lane states are defined, and what stands for lanes beyond the width is
zero (R54, R55, R58). -/
def groupBlockOk (h : Header) (t : TeamWords) (o n w : Nat) : Bool :=
  let trav := o + 0x600 + 8 * n * w
  t.clear (o + 0x540) 192 && (List.range 8).all (fun r => decide (t.byte (o + 0x240 + r) < 64))
    && decide (t.at_ (o + 0x248) < 256) && decide (t.at_ (o + 0x250) < 32)
    && field (t.at_ (o + 0x258)) 2 14 == 0 && field (t.at_ (o + 0x258)) 32 32 == 0
    && field (t.at_ (o + 0x270)) 12 4 == 0 && field (t.at_ (o + 0x270)) 32 32 == 0
    && (List.range 64).all (fun i =>
      decide (t.byte (o + 0x500 + i) ≤ 9) && decide (t.byte (trav + i) ≤ h.recurse)
        && (decide (i < w) || (t.byte (o + 0x500 + i) == 0 && t.at_ (o + 0x280 + 8 * i) == 0 && t.num (o + 0x480 + 2 * i) 2 == 0
          && t.byte (trav + i) == 0)))

/-- The reserved bits of a team block are zero, and its sequencer stands in a state of R198 (R56, R58, R70; entry 145). -/
def teamBlockOk (t : TeamWords) : Bool :=
  let b := 0x1000
  t.clear (b + 0x220) 32 && t.clear (b + 0x410) 1008 && t.clear (b + 0xC00) 1024
    && (List.range 16).all (fun r =>
      let v := t.at_ (b + 0x240 + 16 * r)
      field v 13 3 == 0 && field v 30 1 == 0 && field v 60 4 == 0 && field (t.at_ (b + 0x340 + 8 * r)) 33 31 == 0)
    && decide (t.byte (b + 0x3F2) ≤ 4) && decide (t.byte (b + 0x3F3) ≤ 4) && t.num (b + 0x3FC) 4 == 0
    && decide (t.at_ (b + 0x400) < 2) && decide (t.at_ (b + 0x408) < 16)

/-- A record is within the limits of its kernel header, and its reserved bits and lane states are as R54 to R56 ask
(R342). -/
def recordOk (h : Header) (kept : Option (Nat × Team)) (t : TeamWords) : Bool :=
  t.clear 0x30 16 && t.clear 0xC0 3904 && teamBlockOk t && field (t.at_ 0) 51 1 == 0 && field (t.at_ 0) 56 8 == 0
    && decide (0x2000 + 65536 * h.accn + h.scratch ≤ 8 * t.length) && t.at_ 0x20 == t.groups.length
    && decide (1 ≤ field (t.at_ 0) 52 4) && decide (field (t.at_ 0) 52 4 ≤ 8)
    && t.groups.all (fun x =>
      match groupShape h (kept.bind (fun k => find x.1 k.2.groups)) x.1 with
      | none => false
      | some (_, w, n) =>
        x.2 % 8 == 0 && decide (x.2 + 0x600 + 8 * n * w + 64 + 8 * h.recurse * w ≤ 8 * t.length) && groupBlockOk h t x.2 n w)

/-- A group from its block. The block has no field for the privilege level: it is the one that the machine has kept, and user
level where it has kept nothing (entry 15). Grids that have completed while the group lay in its save area have lowered its
counters (R313, R339). -/
def groupOfBlock (h : Header) (kept : Option Group) (k : Nat) (t : TeamWords) (o : Nat) (clause : Word → Option (Word × Nat)) :
    Group :=
  let g := kept.getD { Group.zero with sort := .normal }
  let sh := (groupShape h kept k).getD (0, h.width, 0)
  let w := sh.2.1
  let at_ (off : Nat) : Nat := t.at_ (o + off)
  let mode := at_ 0x258
  let lanes := List.range w
  let pc (i : Nat) : Word := BitVec.ofNat 64 (at_ (0x280 + 8 * i))
  let code (i : Nat) : Nat := t.byte (o + 0x500 + i)
  let inside (i : Nat) : Option (Word × Nat) :=
    if 5 ≤ code i ∧ code i ≤ 8 ∨ (pc i).toNat % 8 ≠ 0 then
      (match find i g.hdr with
        | some x => if g.lanePc i = pc i then some x else clause (pc i)
        | none => clause (pc i))
    else if g.lanePc i = pc i then find i g.hdr else none
  let trav := o + 0x600 + 8 * sh.2.2 * w
  { g with
    role := sh.1, width := w, n := sh.2.2
    rows := groupRows sh.2.2 w
    s := (List.range 64).foldl (fun m r => if r = 0 ∨ r = 2 then m else set 0 r (BitVec.ofNat 64 (at_ (8 * r))) m) []
    s2 := BitVec.ofNat 64 (at_ 16)
    j := (List.range 8).foldl (fun m r => set 0 r (BitVec.ofNat 64 (at_ (0x200 + 8 * r))) m) []
    d := (List.range 8).foldl (fun m r => set 0 r (t.byte (o + 0x240 + r) - get 0 r g.owed) m) []
    prio := field (at_ 0x248) 0 4, credit := field (at_ 0x248) 4 4, flags := BitVec.ofNat 5 (at_ 0x250)
    dmr := mode % 2 == 1, uien := mode / 2 % 2 == 1, uipend := BitVec.ofNat 16 (mode / 65536), gts := at_ 0x260
    trappc := BitVec.ofNat 64 (at_ 0x268), faultinfo := BitVec.ofNat 64 (at_ 0x270), faultlanes := BitVec.ofNat 64 (at_ 0x278)
    pc := lanes.foldl (fun m i => set 0 i (pc i) m) []
    p := lanes.foldl (fun m i => set 0 i (BitVec.ofNat 16 (t.num (o + 0x480 + 2 * i) 2) &&& 0x7FFF) m) []
    st := lanes.foldl (fun m i => set 0 i (if 5 ≤ code i then 1 else code i) m) []
    hdr := lanes.foldl (fun m i => match inside i with
      | some x => put i x m
      | none => m) []
    wait := [], owed := []
    v := (List.range (sh.2.2 * w)).foldl (fun m j => set 0 (j / w * 64 + j % w) (BitVec.ofNat 64 (at_ (0x600 + 8 * j))) m) []
    depth := lanes.foldl (fun m i => set 0 i (t.byte (trav + i)) m) []
    rets := lanes.foldl (fun m i => (List.range h.recurse).foldl (fun m d =>
      set 0 (i * 32 + d + 1) (BitVec.ofNat 64 (t.at_ (trav + 64 + 8 * (i * h.recurse + d)))) m) m) [] }

/-- A shelf from its image; its waits and its slots' times are the machine's own. -/
def shelfOfImage (kept : Shelf) (v : Nat) : Shelf :=
  let ptr (lo : Nat) : Nat × Bool := (field v lo 6, field v (lo + 6) 1 == 1)
  { kept with
    base := field v 0 13, slotl := field v 16 8, nslot := if field v 31 1 = 1 then field v 24 6 + 1 else 0, cfg := field v 31 1 == 1
    acq := ptr 32, com := ptr 39, tak := ptr 46, rel := ptr 53, phase := BitVec.ofNat 64 (v / 2 ^ 64)
    wants := kept.wants.filter (fun w => match w.who with
      | .group _ => false
      | .seq => true
      | .op _ => true) }

/-- The sequencer from the matrix-sequencer state of a team block, by the fields of its record (R56, R198). What the block does
not hold is what the machine has kept of the instruction in progress; where it has kept nothing, the stream goes on at the
address of its instruction, for a group whose sequencer record is valid (entry 15). -/
def seqOfBlock (kept : Seq) (t : TeamWords) (grp : Nat) (park : Park) (clause : Word → Option (Word × Nat)) : Seq :=
  let ws := zeros 4 ++ (List.range 8).map (fun k => t.at_ (0x13C0 + 8 * k))
  let at_ := BitVec.ofNat 64 (ws.getD 4 0)
  let hdr := match clause at_ with
    | some x => x.1
    | none => at_ - 8
  let fresh_ : Seq :=
    { Seq.idle with st := .parked, at_ := at_, hdr := hdr, pos := (at_ - hdr - 8).toNat, grp := grp, park := some park, held := true }
  if slotField ws 0x53 1 = 0 then (if kept.st = .idle then kept else .idle)
  else
    let q := if kept.st = .idle then fresh_ else kept
    match q.readBack ws with
    | some r => { r with st := .parked, back := r.st, park := q.park, held := q.held }
    | none => q

/-- A team from its record. -/
def teamOfRecord (h : Header) (kept : Option (Nat × Team)) (ctx grid : Nat) (t : TeamWords) (seqGrp : Nat) (park : Park)
    (clause : Word → Option (Word × Nat)) : Team :=
  let k := (kept.map (·.2)).getD Team.zero
  let id := t.at_ 0
  let b := 0x1000
  let tiles := b + 0x1000
  let share := tiles + 65536 * h.accn
  { k with
    ended := if kept.isSome then k.ended else h.groups - t.groups.length
    grid := grid, ctx := ctx, core := none, no := field id 0 24, gang := field id 24 24, rank := field id 48 3
    gsize := field id 52 4, size := h.scratch, ntiles := h.accn
    t := (List.range 16).foldl (fun m r => set 0 r (BitVec.ofNat 256 (t.num (b + 32 * r) 32)) m) []
    f := (List.range 16).foldl (fun m r => set 0 r (BitVec.ofNat 16 (t.num (b + 0x200 + 2 * r) 2)) m) []
    h := (List.range 16).foldl (fun m r =>
      put r (shelfOfImage (k.shelf r) (t.num (b + 0x240 + 16 * r) 16)) m) []
    bars := (List.range 16).foldl (fun m r =>
      let v := t.at_ (b + 0x340 + 8 * r)
      put r { (k.bar r) with count := field v 0 16, expect := field v 16 16, phase := field v 32 1 == 1 } m) []
    accBad := k.accBad, seq := seqOfBlock k.seq t seqGrp park clause
    pkten := t.at_ (b + 0x400) % 2 == 1, sprio := BitVec.ofNat 4 (t.at_ (b + 0x408))
    absent := (List.range (h.scratch / 256)).foldl (fun m l =>
      if t.byte (b + 0x800 + l / 8) / 2 ^ (l % 8) % 2 = 1 then m else put l (Nat.max 1 (get 1 l k.absent)) m) []
    acc := (List.range (16384 * h.accn)).map (fun j => (j, BitVec.ofNat 32 (t.num (tiles + 4 * j) 4)))
    scratch := (List.range h.scratch).foldl (fun m j => set 0 j (BitVec.ofNat 8 (t.byte (share + j))) m) []
    groups := t.groups.foldl (fun m x =>
      put x.1 (groupOfBlock h (find x.1 k.groups) x.1 t x.2 clause) m) [] }

/-! ### `CREST` (R314, R342) -/

/-- A launch record from the words of a queue entry. -/
def queueRecord (ws : List Nat) : BitVec 1024 :=
  BitVec.ofNat 1024 (joinWords (ws.zipIdx.map (fun (y : Nat × Nat) => if y.2 = 6 then 0 else y.1)))

/-- A new grid of a context with a record, of which a number of gangs have been placed. -/
def State.newGrid (s : State) (c issuer : Nat) (r : BitVec 1024) (queued : Bool) (next gangs : Nat) (h : Header) : Nat × State :=
  let code := BitVec.ofNat 64 (launchField r 0 64)
  let g : Grid :=
    { ctx := c, part := (s.ctx c).part, from_ := issuer, team := 0, grp := 0, dc := none, record := r, code := code, hdr := h
      teams := launchField r 192 24, next := next, gangs := gangs, live := 0, queued := queued }
  (freeKey s.grids, { s with grids := put (freeKey s.grids) g s.grids })

/-- A kept grid passes to the slot of its image, with the next team to place. -/
def State.takeGrid (s : State) (c id next : Nat) : State :=
  { s with grids := adjust id (fun g => { g with ctx := c, part := (s.ctx c).part, next := next }) s.grids }

/-- The gangs that the records of an image show of the grid at a place of its queue. -/
def Parsed.gangsOf (x : Parsed) (k : Nat) : Nat :=
  x.teams.foldl (fun n t => if t.at_ 0x10 = k then Nat.max n (field (t.at_ 0) 24 24 + 1) else n) 0

/-- One entry of a queue section, with the numbers so far and the kept grids left: an entry whose record is that of the first of
these is that grid, as long as every earlier one is; any other is a new grid of the context that executes `CREST` (R342;
entry 15). -/
def State.restoreEntry (a : Agent) (c : Nat) (x : Parsed) (p : List Nat × List (Nat × Grid) × State) (q : List Nat) :
    List Nat × List (Nat × Grid) × State :=
  let r := queueRecord q
  let next := q.getD 6 0
  match p.2.1.head?.filter (fun k => k.2.record == r) with
  | some k => (p.1 ++ [k.1], p.2.1.drop 1, p.2.2.takeGrid c k.1 next)
  | none =>
    match p.2.2.kernelAt a c (BitVec.ofNat 64 (q.getD 0 0)) with
    | none => p
    | some h =>
      let n := p.2.2.newGrid c a.ctx r true next (x.gangsOf p.1.length) (parseHeader h)
      (p.1 ++ [n.1], [], n.2)

/-- The grid of a record that has left the queue: the kept one of its code and replay areas, one that an earlier record has
made, or a new one (R342; entry 15). -/
def State.gridOf (s : State) (c : Nat) (kept : Option Nat) (issuer : Nat) (t : TeamWords) (h : Header) : Nat × State :=
  let r : BitVec 1024 := BitVec.ofNat 1024 (t.at_ 8 + t.at_ 0x18 * 2 ^ 128)
  let same (g : Grid) : Bool :=
    (g.ctx == c || some g.ctx == kept) && g.code.toNat == t.at_ 8 && launchField g.record 128 64 == t.at_ 0x18 && !g.queued
  match s.grids.find? (fun e => same e.2) with
  | some e => (e.1, s.takeGrid c e.1 e.2.next)
  | none => s.newGrid c issuer r false 0 0 h

/-- The kernel header of a record or of a queue entry, when it is readable and well formed (R342 step 1). -/
def State.goodKernel (s : State) (a : Agent) (c code : Nat) : Option Header :=
  match s.kernelAt a c (BitVec.ofNat 64 code) with
  | none => none
  | some h => if hdrForm h && versionOk (parseHeader h).ver && (parseHeader h).bounds then some (parseHeader h) else none

/-- A queue entry is an accepted launch record of its kernel, with teams left to place (R313, R336, R342). -/
def queueOk (part : Option Part) (light : Bool) (h : Header) (q : List Nat) : Bool :=
  let r := queueRecord q
  launchForm r && h.wcode == launchField r 232 2 && launchBounds r h light && decide (q.getD 6 0 < launchField r 192 24)
    && part.any (fun p => p.fits h (launchGangs r).2)

/-- Every record and queue entry of an image keeps to its kernel header and to the partition (R336, R342 step 1). -/
def State.imageFits (s : State) (a : Agent) (c : Nat) (kept : Option Nat) (x : Parsed) : Bool :=
  let part := find (s.ctx c).part s.parts
  let light := (s.ctx c).light
  x.teams.all (fun t => (s.goodKernel a c (t.at_ 8)).any (fun h =>
    recordOk h (s.keptTeam kept t) t && (!light || (h.accn == 0 && decide (h.scratch ≤ 262144)))
      && part.any (fun p => p.fits h (field (t.at_ 0) 52 4))))
  && x.queue.all (fun q => (s.goodKernel a c (q.getD 0 0)).any (fun h => queueOk part light h q))

/-- The group of a record whose sequencer record is valid: for it the sequencer runs (R193, R198). -/
def State.seqOwner (s : State) (a : Agent) (c : Nat) (t : TeamWords) : Nat :=
  ((t.groups.find? (fun x =>
    let w := s.peek { a.inCtx c with level := .control } (BitVec.ofNat 64 (t.at_ (x.2 + 16)) + 0x1C00) 8
    field w 0 4 == 7 && field w 16 1 == 1)).map (·.1)).getD ((t.groups.map (·.1)).headD 0)

/-- One team record restored. -/
def State.restoreTeam (a : Agent) (c issuer : Nat) (kept : Option Nat) (ids : List Nat) (s : State) (t : TeamWords) : State :=
  match s.kernelAt a c (BitVec.ofNat 64 (t.at_ 8)) with
  | none => s
  | some hb =>
    let h := parseHeader hb
    let k := s.keptTeam kept t
    let g := match ids[t.at_ 0x10]? with
      | some id => (id, s)
      | none => s.gridOf c kept issuer t h
    let tm := teamOfRecord h k c g.1 t (s.seqOwner a c t) (Park.preempted s) (fun pc => g.2.clauseOf a.core c pc)
    let id := match k with
      | some e => e.1
      | none => freeKey g.2.teams
    { g.2 with teams := put id tm g.2.teams }

/-- A parcel of a context by the address of its context word: the record of the binding table that holds it, and its
index (R83). -/
def State.parcelAt (s : State) (c : Nat) (va : Word) : Option (BitVec 768 × Nat) :=
  (List.range 4096).findSome? (fun i =>
    let r := s.bindRecord c i
    let o := (va - recBase r).toNat
    if s.bindUsed c i && recParcel r && o % parcelBytes r == 0 && decide (o / parcelBytes r < recExt r 0) then
      some (r, o / parcelBytes r)
    else none)

/-- One parcel wait registered again; an address wait retests once, and later if its words cannot be reached now (R175, R342
step 3; entry 140). -/
def State.restoreWait (c : Nat) (s : State) (e : Word × Word) : State :=
  match s.parcelAt c e.2 with
  | none => s
  | some (r, i) =>
    let a := s.deviceAgent c
    let keep (s : State) (kind : Nat) (woken : Bool) : State :=
      { s with regs := s.regs ++ [{ ctx := c, key := e.1, who := .parcel r i kind, retry := s.tableFull c e.1, woken := woken }] }
    match s.loadAt a false e.2 8 with
    | .error _ => keep (keep s 2 true) 3 true
    | .ok (w, s) =>
      if cwKind w = 3 then keep s 3 false
      else if cwKind w ≠ 2 then s
      else
        match s.wakeParcel a r i 2 true with
        | .ok (true, s) => s
        | .ok (false, s) => keep s 2 false
        | .error _ => keep s 2 true

/-- A tenant key pair for a slot that has none (R374). -/
def State.makeKey (s : State) (c : Nat) : State :=
  if (s.ctx c).key.isSome then s
  else
    let k := s.dev.keygen + 1
    (s.onCtx c (fun x => { x with key := some k })).onDev (fun d => { d with keygen := k })

/-- Every grid of a context counts the teams that it has (R39, R313). -/
def State.countTeams (s : State) (c : Nat) : State :=
  { s with grids := s.grids.map (fun (e : Nat × Grid) =>
      if e.2.ctx = c then (e.1, { e.2 with live := (s.teams.filter (fun t => t.2.grid == e.1)).length }) else e) }

/-- An image placed in a slot (R342 steps 2 to 4). -/
def State.placeImage (s : State) (a : Agent) (c : Nat) (x : Parsed) : State :=
  let kept := s.keptAs (s.ctx c)
  let mine := match kept with
    | some d => s.queueOf d
    | none => []
  let q := x.queue.foldl (State.restoreEntry a c x) ([], mine, s)
  let s := x.teams.foldl (State.restoreTeam a c a.ctx kept q.1) q.2.2
  let s := match kept with
    | some d =>
      let s := s.onCtx c (fun y => { y with busy := (s.ctx d).busy, avail := (s.ctx d).avail })
      let mine (t : Nat) : Bool := (s.team t).ctx == c
      let s := { s with
        ops := s.ops.map (fun (e : Nat × Op) => (e.1, if e.2.ctx = d ∧ mine e.2.team = true then { e.2 with ctx := c } else e.2))
        sweeps := s.sweeps.map (fun (e : Nat × Sweep) =>
          (e.1, if e.2.ctx = d ∧ mine e.2.team = true then { e.2 with ctx := c } else e.2))
        grids := s.grids.map (fun (e : Nat × Grid) => (e.1, if e.2.from_ = d then { e.2 with from_ := c } else e.2)) }
      s.dropCtx d
    | none => s
  x.waits.foldl (State.restoreWait c) (s.countTeams c)

/-- The slot of an image's context as `CREST` sets it, with its key (R342 step 2, R374). -/
def State.openSlot (s : State) (part c : Nat) (x : Parsed) : State :=
  let st : CtxSt := if x.teams.isEmpty && x.queue.isEmpty then .idle else .spilled
  ((s.onCtx c (fun y => ctxOfImage x.head y part st)).makeKey c).writeDesc c

/-- The binding table of a context lies below the end of device memory (R346; entry 143). -/
def State.bindFits (s : State) (c : Nat) : Bool := decide ((s.ctx c).bindt.toNat + 524288 ≤ s.devBytes)

/-- The status of a `CREST` and the state with the image placed (R314, R342). -/
def State.crest (s : State) (a : Agent) (c : Nat) (va : Word) : Nat × State :=
  if (s.ctx c).st ≠ .free then (1, s)
  else if bits va 0 12 ≠ 0 then (2, s)
  else
    match s.parseImage a va with
    | none => (4, s)
    | some x =>
      let part := (s.ctx a.ctx).part
      let s1 := s.openSlot part c x
      if !imageHeadOk x.head || !s1.bindFits c || !s1.imageFits a c (s1.keptAs (s1.ctx c)) x then (4, s)
      else
        let s2 := s1.placeImage a c x
        (0, { s2 with agenda := s2.agenda ++ [Instr.schedulerDecision part] })

/-- Some team of a context is not on a core. -/
def State.unplaced (s : State) (c : Nat) : Bool := s.teams.any (fun e => e.2.ctx == c && e.2.core.isNone)

/-- A `CREST` whose image is in order waits while the partition's queue has no room for the grids of the image (R335; entry
142). -/
def State.crestWaits (s : State) (a : Agent) (c : Nat) (va : Word) : Bool :=
  (s.imageReadFault a va).isNone && (s.crest a c va).1 == 0
    && decide (256 < s.queueLength (s.ctx a.ctx).part + s.imageWord a va 0x48)

/-- The words that an image takes: those of its header, and where that is in order its records, queue and waits. -/
def State.imageSize (s : State) (a : Agent) (va : Word) : Nat :=
  match s.parseImage a va with
  | none => 512
  | some x => 512 + (x.teams.map (·.length)).sum + 16 * x.queue.length + 2 * x.waits.length

/-- `CREST` (R314, R342): done when every team of the image has been placed. -/
def execCrest (g : Guard) (ll : Ll) (d a b : SReg) (s : State) : Host.Outcome State Fault Refusal :=
  .next (s.run { g := g, level := .control, ll := some ll, once := true
                 wait := fun e s => e.act != 0 && s.crestWaits e.agent (bits ((e.group s).sreg a.toNat) 0 10) ((e.group s).sreg b.toNat) }
      fun e s =>
    let gr := e.group s
    let c := bits (gr.sreg a.toNat) 0 10
    let va := gr.sreg b.toNat
    let live := decide ((s.ctx c).st = .free) && bits va 0 12 == 0
    match if live then s.imageReadFault e.agent va else none, s.imageOwned e.agent .read va (if live then s.imageSize e.agent va else 0) with
    | some f, _ => e.fault f.1 f.2
    | none, l :: ls => if e.act = 0 then .go s else .park (.owned (l :: ls))
    | none, [] =>
      if e.act = 0 then .go s
      else
        let r := s.crest e.agent c va
        if r.1 = 0 && r.2.unplaced c then
          let w := (e.group r.2).begin ll e.act { Pend.zero with ready := false, sw := [(d.toNat, 0)] }
          let s := e.onGroup r.2 (fun _ => w.1)
          .go (s.addOp (e.newOp s (some w.2) (.crest { save := false, slot := c, image := va }))).1
        else .go (e.begin r.2 ll { Pend.zero with sw := [(d.toNat, BitVec.ofNat 64 r.1)] }))

/-- Each `CREST` whose teams have all been placed is done (R314). -/
def State.crestsDue (s : State) (c : Nat) : State :=
  if s.unplaced c then s
  else s.ops.foldl (fun s e => match e.2.body with
    | .crest x => if x.save = false ∧ x.slot = c then s.endOp e.1 else s
    | .copy _ | .tex _ | .rast _ | .ray _ | .pair _ | .drain | .near _ => s) s

end Sys2Proof.Machine
end

