-- ==== Sys2Proof/Machine/Issue.lean ====
section
/-!
DEFINITION. Issue selection with arrival at joins and cross-lane headers (R28-R36, R200, R201, R224, R251), aging
(R30), and the completions and wakes that a group waits for (R107, R191, R209, R227, R271).
-/
namespace Sys2Proof.Machine

/-! ### Arrival at clause headers (R34, R35, R251) -/

/-- The lanes that stand ready at a clause header. -/
def Group.readyAt (g : Group) (hdr : Word) : Lanes :=
  maskOf (fun i => g.state i == 1 && g.lanePc i == hdr && (find i g.hdr).isNone) &&& ~~~g.unreleased

/-- The lanes of a mask in a lane state. -/
def Group.setStates (g : Group) (m : Lanes) (code : Nat) : Group :=
  (lanesOf m).foldl (fun g i => g.setState i code) g

/-- Arrival at a `JOIN` (R34): the named lanes of a path that lacks others block; once none lacks they are let go together,
and each passes when its path issues. -/
def Group.arriveJoin (g : Group) (hdr : Word) (k : Nat) : Group :=
  let gone := get 0 hdr.toNat g.arrive
  let here := g.readyAt hdr &&& ~~~gone
  let blocked := maskOf (fun i => g.state i == 3 && g.lanePc i == hdr)
  if here ||| blocked = 0 then g
  else if g.joinLacks hdr here (g.jreg k) = 0 then
    { g.setStates blocked 1 with arrive := put hdr.toNat (gone ||| here ||| blocked) g.arrive }
  else g.setStates (here &&& g.jreg k) 3

/-- Arrival at a cross-lane header (R35, R251): the mask is read at the first arrival; members that wait for another
block, and are ready once none lacks. -/
def Group.arriveCross (g : Group) (hdr : Word) (m : SReg) : Group :=
  let here := g.standing hdr
  if here = 0 then g
  else
    let g := if m ≠ 0 ∧ (find hdr.toNat g.arrive).isNone = true
      then { g with arrive := put hdr.toNat (g.sreg m.toNat) g.arrive } else g
    let ms := g.members hdr m
    if g.badMembers ms ≠ 0 ∨ g.xsrc.any (fun x => x.hdr == hdr) = true ∨ g.memberLacks hdr 0 ms = 0 then
      g.setStates (here &&& g.inState 4) 1
    else g.setStates (here &&& ms) 4

/-- Arrival at the header of a clause, by its first instruction: `JOIN`, cross-lane, or another. -/
def Group.arriveAt (g : Group) (hdr : Word) (body : List Byte) : Group :=
  let ws := codeWords (body.take 8)
  let w := ws.headD 0
  let x := ws.getD 1 0
  if w % 4 ≠ 1 then g
  else if field w 2 9 = 0x009 then g.arriveJoin hdr (field x 24 3)
  else if 0x160 ≤ field w 2 9 ∧ field w 2 9 ≤ 0x168 then g.arriveCross hdr (BitVec.ofNat 6 (field x 14 6))
  else g

/-- The clause headers at which lanes of a group stand, ready or blocked there. -/
def Group.headers (g : Group) : List Word :=
  distinct ((lanesOf (g.inState 3 ||| g.inState 4 ||| (g.inState 1 &&& ~~~g.unreleased))).filterMap (fun i =>
    if (find i g.hdr).isNone then some (g.lanePc i) else none))

/-- Arrivals of one group at every header where lanes of it stand. A header whose lines are not in the instruction cache yet is
told by what memory holds there (R251). -/
def State.arriveGroup (s : State) (t n : Nat) : State :=
  let g := s.group t n
  let core := (s.team t).core.getD 0
  g.headers.foldl (fun s h =>
    match s.fetchClause core (s.ctxOf t) g.level h with
    | .clause _ _ body => s.onGroup t n (fun g => g.arriveAt h body)
    | .absent _ =>
      if (s.clauseAt core (s.ctxOf t) h (h + 8)).isSome then
        s.onGroup t n (fun g => g.arriveAt h ((s.codeBytes core (s.ctxOf t) (h + 8) 1).getD []))
      else s
    | .fault _ | .bad => s) s

/-! ### Candidates and their rank (R28-R30) -/

/-- The groups of a core: team, number and group, in ascending order. -/
def State.residents (s : State) (core : Nat) : List (Nat × Nat × Group) :=
  (s.teamsOn core).flatMap (fun t => t.2.groups.map (fun g => (t.1, g.1, g.2)))

/-- The groups of a context may issue: it runs and its partition is neither halted nor in a pre-emption of it, nor is a control
context being saved (R331, R334, R337, R341). -/
def State.mayIssue (s : State) (c : Nat) : Bool :=
  let x := s.ctx c
  match find x.part s.parts with
  | none => x.st == .running
  | some p => x.st == .running && !p.halted && (if x.ctrl then !s.saving c else !(p.halting || p.swapping))

/-- A fault of a parked unit or a user-level interrupt is due to the group before it issues again (R190, R191, R194). -/
def State.entryDue (s : State) (t n : Nat) : Bool :=
  let g := s.group t n
  let i := s.ctxOf t
  g.late.isSome
    || ((s.dueFault t n).isSome && (g.level == .user || (s.ctx i).ctrl))
    || (g.uien && g.level == .user && g.uipend != 0 && (match s.headerOf t with
      | some h => h.uient != 0
      | none => false))

/-- A candidate: team, group, path, and what its fetch found. -/
structure Cand where
  team : Nat
  grp : Nat
  path : Path
  got : Fetched
  deriving DecidableEq, Repr

/-- The candidates of a core (R28). -/
def State.candidates (s : State) (core : Nat) : List Cand :=
  (s.residents core).flatMap (fun e =>
    if !s.mayIssue (s.ctxOf e.1) || s.entryDue e.1 e.2.1 then []
    else e.2.2.paths.filterMap (fun p =>
      let f := s.fetchPath e.1 e.2.1 p
      if f.ready e.2.2 p then some { team := e.1, grp := e.2.1, path := p, got := f } else none))

/-- Effective priority, lowered by the yield hint of the last clause (R30, R200). -/
def Group.rankPrio (g : Group) : Nat := Nat.min 15 (g.prio + g.credit) - g.lower

/-- The order of rank: effective priority, age, lowest column, group number within the core (R29). The specification does not say
what that number is: the model takes the team, then the number of the group in its team (entry 146). -/
def State.ranksBefore (s : State) (a b : Cand) : Bool :=
  let x := s.group a.team a.grp
  let y := s.group b.team b.grp
  if x.rankPrio ≠ y.rankPrio then decide (y.rankPrio < x.rankPrio)
  else if x.issued ≠ y.issued then decide (x.issued < y.issued)
  else if x.col ≠ y.col then decide (x.col < y.col)
  else if a.team ≠ b.team then decide (a.team < b.team)
  else decide (a.grp ≤ b.grp)

/-- The columns that a group holds, as bits (R27). -/
def Group.columns (g : Group) : BitVec 4 :=
  BitVec.ofNat 4 (2 ^ g.col * (2 ^ Nat.min 4 (g.width / 8) - 1))

/-- The code object of a team's grid that holds an address; none for the control program's (R215). -/
def State.codeObject (s : State) (t : Nat) (va : Word) : Option Word :=
  match find (s.team t).grid s.grids with
  | none => none
  | some g => if g.holds va then some g.code else none

/-- A candidate may join the bundle of a head (R29 step 3). -/
def State.joins (s : State) (head c : Cand) (used : BitVec 4) : Bool :=
  c.path.pc == head.path.pc && c.path.mid == head.path.mid && s.ctxOf c.team == s.ctxOf head.team
    && s.codeObject c.team c.path.pc == s.codeObject head.team head.path.pc
    && ((s.group c.team c.grp).columns &&& used) == 0

/-- The bundle formed from ranked candidates (R29). -/
def State.formBundle (s : State) (cs : List Cand) : List Cand :=
  match cs with
  | [] => []
  | head :: rest =>
    (rest.foldl (fun (p : List Cand × BitVec 4) c =>
      if s.joins head c p.2 then (p.1 ++ [c], p.2 ||| (s.group c.team c.grp).columns) else p)
      ([head], (s.group head.team head.grp).columns)).1

/-! ### Issue -/

/-- The paths of a `BTAB` that begin at their target count as released (R224). -/
def Group.beginPaths (g : Group) (p : Path) : Group :=
  { g with btab := g.btab.map (fun e =>
      if e.2.1 == p.pc && p.mid.isNone && (e.1 &&& p.lanes) != 0 then (e.1, e.2.1, true) else e) }

/-- The marks of one selection end with it (R200, R227); a `BTAB` whose paths are all released is forgotten. -/
def State.endMarks (s : State) (core : Nat) : State :=
  { s with teams := s.teams.map (fun t =>
      if t.2.core = some core then
        (t.1, { t.2 with groups := t.2.groups.map (fun g =>
          (g.1, { g.2 with
            lower := 0, passed := false
            btab := if g.2.btab.all (fun e => e.2.2 || e.1 == 0) then [] else g.2.btab })) })
      else t) }

/-- A candidate whose clause cannot issue traps at its header (R201). -/
def State.trapAtHeader (s : State) (c : Cand) (f : Kind × Nat) : State :=
  let s := s.onGroup c.team c.grp (fun g => g.beginPaths c.path)
  s.raises (s.groupAgent c.team c.grp) f.1 f.2 c.path.lanes c.path.pc

/-- The fault that a candidate's fetch found. -/
def Cand.fault (c : Cand) : Option (Kind × Nat) :=
  match c.got with
  | .fault f => some f
  | .bad => some (.clauseFormat, 0)
  | .absent _ => none
  | .clause _ _ _ => none

/-- The trace record of a sampled clause (R380, R381). -/
def State.sampleClause (s : State) (core : Nat) (c : Cand) (tag : Nat) : State :=
  let s := s.onCore core (fun k => { k with sampled := k.sampled + 1 })
  let n := (get Trace.zero (dieOf core) s.traces).sample
  if n = 0 ∨ (s.core core).sampled % n ≠ 0 then s
  else s.emit 0 core (s.ctxOf c.team) 5 tag c.path.hdr.toNat (s.ident c.team c.grp) c.path.lanes.toNat

/-- The lanes of a candidate's other half that issue the same cross-lane clause next (R251). -/
def State.otherHalf (s : State) (c : Cand) (body : List Byte) : Lanes :=
  let g := s.group c.team c.grp
  let ws := codeWords (body.take 8)
  let w := ws.headD 0
  let crosses := decide (w % 4 = 1) && decide (0x160 ≤ field w 2 9) && decide (field w 2 9 ≤ 0x168)
  if g.width = 64 ∧ crosses = true ∧ c.path.mid.isNone = true
      ∧ g.memberLacks c.path.hdr 0 (g.members c.path.hdr (BitVec.ofNat 6 (field (ws.getD 1 0) 14 6))) = 0 then
    g.readyAt c.path.hdr &&& ~~~(halfOf g c.path.lanes)
  else 0

/-- A bundle issues its clause; members whose fetch found a fault trap instead (R31, R201). -/
def State.issue (s : State) (core : Nat) (second : Bool) (cs : List Cand) : State :=
  let bad := cs.filter (fun c => c.fault.isSome)
  let good := cs.filter (fun c => c.fault.isNone)
  let s := s.endMarks core
  let s := bad.foldl (fun s c => match c.fault with
    | some f => s.trapAtHeader c f
    | none => s) s
  match good with
  | [] => s.slot core 21 []
  | c :: _ =>
    match c.got with
    | .clause h ver body =>
      let clk := (s.core core).clocks
      let s := good.foldl (fun s c => s.onGroup c.team c.grp (fun g =>
        { (g.beginPaths c.path) with credit := 0, aged := 0, issued := clk, lower := h.yieldh })) s
      let ms := (arrange (fun a b => decide (a.team < b.team ∨ (a.team = b.team ∧ a.grp ≤ b.grp))) good).map
        (fun c => ({ team := c.team, grp := c.grp, lanes := c.path.lanes } : Member))
      let half := if second then 0 else s.otherHalf c body
      let s := s.onCore core (fun k =>
        { k with
          issue := some { members := ms, hdr := c.path.hdr, body := body, pos := c.path.pos, ver := ver, bodyw := h.bodyw,
                          yieldh := h.yieldh }
          second := if half = 0 then none else some (c.team, c.grp, c.path.hdr) })
      s.sampleClause core c h.tag
    | .fault _ | .absent _ | .bad => s

/-- The leaf that counts a slot in which nothing is selected (R387). -/
def State.emptyLeaf (s : State) (core : Nat) : Nat :=
  let gs := s.residents core
  let inState (k : Nat) : Bool := gs.any (fun e => e.2.2.inState k != 0)
  let part (f : Part → Bool) : Bool := gs.any (fun e => match find (s.ctx (s.ctxOf e.1)).part s.parts with
    | some p => f p && !(s.ctx (s.ctxOf e.1)).ctrl
    | none => false)
  let waits (p : Fetched → Bool) : Bool := gs.any (fun e => e.2.2.paths.any (fun x => p (s.fetchPath e.1 e.2.1 x)))
  let filling := s.ops.any (fun o => (s.team o.2.team).core == some core && (match o.2.park with
    | some p => p.sector.isSome
    | none => false))
  if part (fun p => p.halting) then 22
  else if part (fun p => p.swapping) then 23
  else if gs.all (fun e => e.2.2.live == 0) then 4
  else if waits (fun f => match f with
      | .absent _ => true
      | .fault _ | .bad | .clause _ _ _ => false) then 5
  else if waits (fun f => match f with
      | .clause _ _ _ => true
      | .fault _ | .bad | .absent _ => false) then 7
  else if inState 8 then (if s.dev.service == .reduced && !s.dev.trained then 14 else 13)
  else if filling then 14
  else if inState 4 then 15
  else if inState 3 then 16
  else if inState 5 then 17
  else if inState 6 then 18
  else if inState 7 || inState 9 then 19
  else 8

/-- A slot in which nothing issues between clauses. -/
def State.emptySlot (s : State) (core : Nat) : State := (s.endMarks core).slot core (s.emptyLeaf core) []

/-- The second half of a 64-lane group issues its cross-lane clause, with no other bundle between (R251). -/
def State.issueSecond (s : State) (core t n : Nat) (hdr : Word) : State :=
  let g := s.group t n
  let m := g.readyAt hdr &&& ~~~(lowMask 32)
  let p : Path := { lanes := m, pc := hdr, mid := none }
  if m = 0 then s.onCore core (fun k => { k with second := none })
  else
    let f := s.fetchPath t n p
    if f.ready g p then s.issue core true [{ team := t, grp := n, path := p, got := f }] else s.emptySlot core

/-- The traps that groups have left until now (R186, R251). -/
def State.lateTraps (s : State) (core : Nat) : State :=
  (s.residents core).foldl (fun s e => match (s.group e.1 e.2.1).late with
    | none => s
    | some x =>
      if s.notYet (s.groupAgent e.1 e.2.1) false then s else
      let s := s.onGroup e.1 e.2.1 (fun g => { g with late := none })
      s.enter (s.groupAgent e.1 e.2.1)
        { kind := x.1, detail := x.2.1, unit := 0, lanes := x.2.2.1, pc := x.2.2.2, ui := false }) s

/-- The first selection among ranked candidates, those that `YIELD` passes over last (R29, R227). -/
def State.chosen (s : State) (core : Nat) : List Cand :=
  let cs := s.candidates core
  let first := cs.filter (fun c => !(s.group c.team c.grp).passed)
  s.formBundle (arrange s.ranksBefore (if first.isEmpty then cs else first))

/-- One selection of a core with no clause in issue. -/
def State.select (s : State) (core : Nat) : State :=
  let arrived (s : State) : State := (s.residents core).foldl (fun s e => s.arriveGroup e.1 e.2.1) s
  match (s.core core).second with
  | some y => (arrived s).issueSecond core y.1 y.2.1 y.2.2
  | none =>
    let s := arrived (s.lateTraps core)
    match s.chosen core with
    | [] => s.emptySlot core
    | cs => s.issue core false cs

/-- The groups of a core whose aging credit is due to rise (R30). -/
def State.creditsDue (s : State) (core : Nat) : List (Nat × Nat) :=
  ((s.residents core).filter (fun e => decide (4096 ≤ e.2.2.aged))).map (fun e => (e.1, e.2.1))

/-- `ISSUE_SELECTION`: one issue slot of a core between clauses (R28, R29); aging credits that are due rise first. -/
def execIssueSelection (core : Nat) (s : State) : Host.Outcome State Fault Refusal :=
  .next (if (s.core core).issue.isSome then s
    else
      match s.creditsDue core with
      | [] => s.select core
      | ds => { s with agenda := ds.map (fun d => Instr.agingCredit d.1 d.2) ++ [Instr.issueSelection core] ++ s.agenda })

/-- `AGING_CREDIT` (R30). -/
def execAgingCredit (team grp : Nat) (s : State) : Host.Outcome State Fault Refusal :=
  .next (s.onGroup team grp (fun g =>
    if g.aged < 4096 then g else { g with credit := Nat.min 15 (g.credit + 1), aged := g.aged - 4096 }))

/-! ### Completions -/

/-- The lanes of a group that are in a clause in issue. -/
def State.issuing (s : State) (team grp : Nat) : Lanes :=
  s.cores.foldl (fun m e => match e.2.issue with
    | none => m
    | some x => x.members.foldl (fun m k => if k.team == team && k.grp == grp then m ||| k.lanes else m) m) 0

/-- An instruction, an operation or a sweep of a context has resolved a handle and is not done (R85). -/
def State.handleBusy (s : State) (c : Nat) (h : Word) : Bool :=
  s.teams.any (fun t => t.2.ctx == c && t.2.groups.any (fun g => g.2.pend.any (fun p => p.2.uses == some h))) ||
  s.ops.any (fun o => o.2.ctx == c && !o.2.spent && (match o.2.body with
    | .copy x => x.handle == h
    | .tex _ | .rast _ | .ray _ | .pair _ | .drain | .near _ | .crest _ => false))
  || s.sweeps.any (fun w => w.2.ctx == c && w.2.handle == h)

/-- An outstanding instruction may complete: its work is done, and no operation uses what it frees (R85, R209). -/
def State.mayComplete (s : State) (c : Nat) (p : Pend) : Bool :=
  p.ready && (match p.frees with
    | some h => !s.handleBusy c h
    | none => true)

/-- `LONG_LATENCY_COMPLETION`: an outstanding instruction completes in some lanes, and as a whole with the last of them
(R64, R209). -/
def execLongLatencyCompletion (team grp id : Nat) (lanes : Lanes) (s : State) : Host.Outcome State Fault Refusal :=
  .next (match find id (s.group team grp).pend with
    | none => s
    | some p =>
      if !s.mayComplete (s.ctxOf team) p || (p.lanes != 0 && (lanes &&& p.lanes) == 0) then s
      else
        let busy := s.issuing team grp
        s.onGroup team grp (fun g => (g.complete id lanes).settle (g.launched &&& ~~~busy)))

/-- The copies of pool lines in a core's L1 end (R107). -/
def Core.dropPool (k : Core) (c : Nat) : Core :=
  { k with l1 := k.l1.filter (fun e => !(e.1 / 2 ^ 70 == c && e.1 % 2 ^ 70 / 2 ^ 54 == 1)) }

/-- `FENCE_COMPLETE` (R107): the posted writes that a host fence follows have arrived; a pool fence has written dirty lines
back, and makes later loads refetch. -/
def execFenceComplete (team grp id : Nat) (s : State) : Host.Outcome State Fault Refusal :=
  .next (match find id (s.group team grp).fences with
    | none => s
    | some f =>
      let s := s.onGroup team grp (fun g => { g with fences := del id g.fences })
      match f.2 with
      | .host => (keys s.ports).foldl (fun s p => s.land p (get Port.down p s.ports).posted.length) s
      | .pool =>
        let s := s.writeBackAll
        match (s.team team).core with
        | some c => s.onCore c (fun k => k.dropPool (s.ctxOf team))
        | none => s
      | .dev => s)

/-- `SLEEP_EXPIRY` (R227): lanes whose time has come are ready at the successor header. -/
def execSleepExpiry (team grp : Nat) (lanes : Lanes) (s : State) : Host.Outcome State Fault Refusal :=
  .next (s.onGroup team grp (fun g =>
    let m := lanes &&& g.waiting (fun _ w => match w with
      | .sleep t => decide (t ≤ s.dev.datum)
      | .barrier _ _ | .shelf _ _ | .word _ _ _ _ _ | .quiet _ _ | .order | .lines _ _ _ | .owned _ => false)
    (g.goTo m g.lanePc).settle m))

/-! ### Retests (R271) -/

/-- The lanes of a group whose registrations have been woken. -/
def State.wokenLanes (s : State) (team grp : Nat) : Lanes :=
  s.regs.foldl (fun m r => match r.who with
    | .lanes t g ls => if t == team && g == grp && r.woken then m ||| ls else m
    | .parcel _ _ _ => m
    | .host _ _ => m) 0

/-- What a lane at a `WAITA` tests: condition, type, comparand, destination, key address. -/
def Group.testOf (g : Group) (i : Nat) : Option (Cc × Ty × Word × Option VReg × Word) :=
  match find i g.wait with
  | some (.word cc ty cmp d a) => some (cc, ty, cmp, d, a)
  | some (.barrier _ _) | some (.shelf _ _) | some (.quiet _ _) | some .order | some (.lines _ _ _) | some (.owned _)
  | some (.sleep _) | none => none

/-- One woken lane retests: it goes on with the value seen, or registers again (R271). -/
def State.retestLane (team grp : Nat) (s : State) (i : Nat) : State :=
  let a := s.groupAgent team grp
  match (s.group team grp).testOf i with
  | none => s
  | some (cc, ty, cmp, d, va) =>
    let r := State.testLanes a cc ty (fun _ => va) (fun _ => cmp) s [i]
    match r.1 with
    | [] => r.2.register a.ctx (signVa va) (.lanes team grp (laneBit i))
    | x :: _ => r.2.onGroup team grp (fun g => (match d with
        | some v => g.setV v.toNat i x.2
        | none => g).release (laneBit i))

/-- The registrations of one group that were made apart in one retest, joined by key (R271). -/
def State.mergeWaiters (s : State) (team grp : Nat) (old : List Reg_) : State :=
  let new := s.regs.drop old.length
  { s with regs := old ++ new.foldl (fun (rs : List Reg_) r => match r.who with
      | .lanes _ _ ls =>
        if rs.any (fun q => q.key == r.key && q.retry == r.retry) then
          rs.map (fun q => match q.who with
            | .lanes t g ms => if q.key == r.key && q.retry == r.retry then { q with who := .lanes t g (ms ||| ls) } else q
            | .parcel _ _ _ => q
            | .host _ _ => q)
        else rs ++ [{ r with who := .lanes team grp ls }]
      | .parcel _ _ _ => rs ++ [r]
      | .host _ _ => rs ++ [r]) [] }

/-- `WAITA_RETEST` (R271): woken lanes retest at the home slice. A fault is taken at the `WAITA` in its lanes, and a line
that an operation owns is waited for (R100). -/
def execWaitaRetest (team grp : Nat) (lanes : Lanes) (s : State) : Host.Outcome State Fault Refusal :=
  .next (
    let g := s.group team grp
    let a := s.groupAgent team grp
    let m := lanes &&& s.wokenLanes team grp
    let va (i : Nat) : Word := match g.testOf i with
      | some x => x.2.2.2.2
      | none => 0
    if m = 0 ∨ (s.team team).core.isNone = true ∨ s.mayIssue a.ctx = false then s
    else
      match laneFaults m (fun i => s.keyFault a true (va i)) with
      | some x =>
        if s.boundary team grp then
          (s.dropLanes team grp x.lanes).enter a
            { kind := x.kind, detail := x.detail, unit := 0, lanes := x.lanes, pc := g.lanePc (lowest x.lanes), ui := false }
        else s
      | none =>
        if (s.ownedHome a .read ((lanesOf m).map va)).isEmpty then
          let s := s.dropLanes team grp m
          ((lanesOf m).foldl (State.retestLane team grp) s).mergeWaiters team grp s.regs
        else s)

/-! ### User-level interrupts (R190, R191) -/

/-- The lowest pending interrupt of a group. -/
def Group.interrupt (g : Group) : Option Nat := (List.range 16).find? (fun n => g.uipend.getLsbD n)

/-- `USER_INTERRUPT_TAKE` (R191): at a clause boundary, with interrupts on, at user level, with an entry given, and no
fault due (R190). -/
def execUserInterruptTake (team grp : Nat) (s : State) : Host.Outcome State Fault Refusal :=
  .next (
    let g := s.group team grp
    let has := match s.headerOf team with
      | some h => h.uient != 0
      | none => false
    match g.interrupt with
    | none => s
    | some n =>
      if g.uien && g.level == .user && has && g.live != 0 && s.mayTrap team grp true && s.boundary team grp && (s.dueFault team grp).isNone
          && (s.team team).core.isSome && s.mayIssue (s.ctxOf team) then
        let s := s.onGroup team grp (fun g => { g with uipend := g.uipend &&& ~~~(BitVec.ofNat 16 (2 ^ n)) })
        s.enter (s.groupAgent team grp)
          { kind := .userInterrupt, detail := n, unit := 0, lanes := 0, pc := g.lanePc (lowest g.live), ui := true }
      else s)

end Sys2Proof.Machine
end

