-- ==== Sys2Proof/Machine/Teams.lean ====
section
/-!
DEFINITION. Teams and groups come and go: gang placement by R39 and R335, restored teams, extra groups (R26), the end of
groups, teams and grids (R225, R313).
-/
namespace Sys2Proof.Machine

/-! ### Room (R25, R60, R67, R325) -/

/-- What a team takes of a core: column-rows, bytes of scratchpad, accumulator tiles, groups. -/
structure Room where
  rows : Nat
  bytes : Nat
  tiles : Nat
  groups : Nat
  deriving DecidableEq, Repr

/-- What a team of a header takes. -/
def Header.room (h : Header) : Room := { rows := h.rows, bytes := allotted h.scratch, tiles := h.accn, groups := h.groups }

/-- What a team takes as it is. -/
def Team.room (t : Team) : Room :=
  { rows := t.groups.foldl (fun n g => n + g.2.rows) 0, bytes := allotted t.size, tiles := t.ntiles, groups := t.groups.length }

/-- A core has room for one more team (R25). -/
def State.hasRoom (s : State) (core : Nat) (r : Room) : Bool :=
  let ts := s.teamsOn core
  decide (ts.length < 16) && decide (s.groupCount core + r.groups ≤ 64) && decide (s.rowsOn core + r.rows ≤ Config.rows)
    && decide (ts.foldl (fun n t => n + allotted t.2.size) 0 + r.bytes ≤ Config.scratch)
    && decide (ts.foldl (fun n t => n + t.2.ntiles) 0 + r.tiles ≤ Config.tiles)

/-- The cores of the lowest cluster of a partition on which some number of teams find room, one each (R39). -/
def State.gangCores (s : State) (p : Part) (r : Room) (n : Nat) : Option (List Nat) :=
  ((arrange (fun a b => decide (a ≤ b)) p.clusters).findSome? (fun cl =>
    let cs := (p.tenantCores cl).filter (fun c => s.hasRoom c r)
    if n ≤ cs.length then some (cs.take n) else none))

/-! ### New teams (R38, R39, R46, R313) -/

/-- The role and the entry of each group of a header, in the order of their numbers (R24). -/
def Header.groupRoles (h : Header) : List (Nat × Role) :=
  h.roles.zipIdx.flatMap (fun (x : Role × Nat) => List.replicate x.1.ngrp (x.2, x.1))

/-- The groups of a new team on a core. -/
def Grid.newGroups (g : Grid) (no clk : Nat) (level : Level) (others : List Group) : SMap Group :=
  let h := g.hdr
  (h.groupRoles.zipIdx.foldl (fun (p : SMap Group × List Group) (x : (Nat × Role) × Nat) =>
    let vcnt := x.1.2.vcnt
    let area := BitVec.ofNat 64 (launchField g.record 128 64 + (no * h.groups + x.2) * h.z)
    let y := startGroup .normal x.1.1 h.width vcnt (pickColumn p.2 h.width) (groupRows vcnt h.width)
      (g.record.extractLsb' 64 64) area (g.code + BitVec.ofNat 64 x.1.2.entry) (lowMask h.width)
    let y := { y with dmr := g.record.getLsbD 234, issued := clk, level := level }
    (put x.2 y p.1, p.2 ++ [y])) ([], others)).1

/-- A team of a grid placed on a core (R46, R103). -/
def State.startTeam (s : State) (grid : Nat) (g : Grid) (no gang rank gsize core : Nat) : State :=
  let h := g.hdr
  let level := s.ctxLevel g.ctx
  let t : Team :=
    { h.shelfTeam with
      grid := grid, ctx := g.ctx, core := some core, no := no, gang := gang, rank := rank, gsize := gsize, ntiles := h.accn
      accId := s.fresh, groups := g.newGroups no (s.core core).clocks level (s.groupsOn core) }
  { s with teams := put (freeKey s.teams) t s.teams, fresh := s.fresh + 1 }

/-- The next gang of a grid, of a size, on cores in ascending rank (R38, R39). -/
def State.placeGang (s : State) (grid : Nat) (g : Grid) (cores : List Nat) : State :=
  let s := cores.zipIdx.foldl (fun s (x : Nat × Nat) => s.startTeam grid g (g.next + x.2) g.gangs x.2 cores.length x.1) s
  let next := g.next + cores.length
  { s with grids := put grid { g with
      next := next, gangs := g.gangs + 1, live := g.live + cores.length, queued := decide (next < g.teams) } s.grids }

/-- The size and the cores of the next gang of a grid, if one can be placed (R39). -/
def State.nextGang (s : State) (p : Part) (g : Grid) : Option (List Nat) :=
  let left := g.teams - g.next
  let sizes := launchGangs g.record
  match s.gangCores p g.hdr.room (Nat.min left sizes.1) with
  | some cs => some cs
  | none => s.gangCores p g.hdr.room (Nat.min left sizes.2)

/-! ### Teams that come back (R103, R337, R342) -/

/-- A team placed again on a core: its clocks, barriers and slots take the gang's time, and its operations the core. -/
def State.returnTeam (s : State) (id core base : Nat) : State :=
  let clk := (s.core core).clocks
  let s := s.onTeam id (fun t =>
    { t with
      core := some core, base := base, clocks := [], wrote := [], bars := t.bars.map (fun b => (b.1, { b.2 with time := base }))
      h := t.h.map (fun x => (x.1, { x.2 with times := (List.range x.2.nslot).map (fun j => (j, base)) }))
      groups := t.groups.map (fun g => (g.1, { g.2 with issued := clk })) })
  { s with ops := s.ops.map (fun o => if o.2.team = id then (o.1, { o.2 with core := core }) else o) }

/-- The teams of a context that wait for a core, gang by gang in ascending order. -/
def State.waitingGangs (s : State) (c : Nat) : List (List Nat) :=
  let ts := (s.teamsOf c).filter (fun e => e.2.core.isNone)
  let ks := ts.foldl (fun (ks : List (Nat × Nat)) e =>
    if ks.contains (e.2.grid, e.2.gang) then ks else ks ++ [(e.2.grid, e.2.gang)]) []
  let ks := arrange (fun a b => decide (a.1 < b.1 ∨ (a.1 = b.1 ∧ a.2 ≤ b.2))) ks
  ks.map (fun k => (arrange (fun a b => decide (a.2.rank ≤ b.2.rank))
    (ts.filter (fun e => e.2.grid == k.1 && e.2.gang == k.2))).map (·.1))

/-- The cores of the lowest cluster that has room for each of some teams, in the order of their ranks. -/
def State.coresFor (s : State) (p : Part) (ids : List Nat) : Option (List Nat) :=
  let need : Room := ids.foldl (fun r id =>
    let x := (s.team id).room
    { rows := Nat.max r.rows x.rows, bytes := Nat.max r.bytes x.bytes, tiles := Nat.max r.tiles x.tiles
      groups := Nat.max r.groups x.groups }) { rows := 0, bytes := 0, tiles := 0, groups := 0 }
  s.gangCores p need ids.length

/-- A gang placed again, if it finds room (R342). -/
def State.returnGang (s : State) (p : Part) (ids : List Nat) : Option State :=
  (s.coresFor p ids).map (fun cs =>
    let base := ids.foldl (fun m id => (s.team id).groups.foldl (fun m g => Nat.max m g.2.gts) m) 0
    (ids.zip cs).foldl (fun s x => s.returnTeam x.1 x.2 base) s)

/-- Gangs placed again in their order, up to the first that finds no room (R44, R342). -/
def State.returnGangs (p : Part) : State → List (List Nat) → State
  | s, [] => s
  | s, ids :: gs => match s.returnGang p ids with
    | none => s
    | some t => State.returnGangs p t gs

/-- The gangs of a context that wait for a core are placed as far as they find room, in order; when none waits any more, the
units that pre-emption parked resume, and a `CREST` of the context is done (R337, R342). -/
def State.returnTeams (s : State) (p : Part) (c : Nat) : State :=
  let s := State.returnGangs p s (s.waitingGangs c)
  if s.unplaced c then s else (s.resumeAll c).crestsDue c

/-- The first grid in the queue of a context (R335). -/
def State.firstGrid (s : State) (c : Nat) : Option (Nat × Grid) := (s.queueOf c).head?

/-- `GANG_PLACEMENT`: for the running context of a partition, teams that wait to come back first, then the next gang of
the first grid of its queue; when none fits, the distributor waits until a team of the partition leaves (R39, R335,
R337). -/
def execGangPlacement (part : Nat) (s : State) : Host.Outcome State Fault Refusal :=
  .next (match find part s.parts with
    | none => s
    | some p =>
      match p.running with
      | none => s
      | some c =>
        if p.halting || p.swapping || p.halted || (s.ctx c).st != .running then s
        else if s.unplaced c then s.returnTeams p c
        else if p.waits then s
        else
          match s.firstGrid c with
          | none => s
          | some (id, g) =>
            match s.nextGang p g with
            | none => { s with parts := adjust part (fun p => { p with waits := true }) s.parts }
            | some cs => s.placeGang id g cs)

/-- `EXTRA_GROUP_START`: a sweep engine or a rasteriser starts an extra group once it finds a number and room (R26,
R171, R300). -/
def execExtraGroupStart (sweep : Bool) (id rank : Nat) (s : State) : Host.Outcome State Fault Refusal :=
  .next (if sweep then s.sweepGroup id rank else s.fragGroup id)

/-! ### Ends (R225) -/

/-- A record of a unit of the group that the machine has let go is still valid: the pair stack that `OVERFLOW`
returned (R164, R225). -/
def State.keptValid (s : State) (team grp : Nat) : Bool :=
  (s.group team grp).kept
    && field (s.peek { s.groupAgent team grp with level := .control } (s.slotVa team grp 2) 8) 16 1 == 1

/-- Every launched lane of a group has exited and every operation that the group issued has completed (R225). -/
def State.groupOver (s : State) (team grp : Nat) : Bool :=
  let t := s.team team
  let g := t.group grp
  (find grp t.groups).isSome && g.live == 0 && (s.issuing team grp) == 0 && g.d.isEmpty && g.pend.isEmpty
    && !(t.seq.st != .idle && t.seq.grp == grp)
    && s.ops.all (fun o => !(o.2.team == team && o.2.grp == grp) || o.2.spent)
    && s.sweeps.all (fun w => !(w.2.team == team && w.2.grp == grp))
    && !s.keptValid team grp
    && (match g.sort with
      | .normal | .frag _ _ _ _ => true
      | .sweep sw rank _ _ _ => match find sw s.sweeps with
        | none => true
        | some w => match find rank w.engines with
          | none => true
          | some x => x.places.all (fun p => p.2 != grp))

/-- A group ends: its registers go, a fragment group's place is free, and a group of the launch counts as ended. -/
def State.endGroup (s : State) (team grp : Nat) : State :=
  let g := s.group team grp
  let s := { s with ops := s.ops.filter (fun o => !(o.2.team == team && o.2.grp == grp)) }
  let s := match g.sort with
    | .normal => s.onTeam team (fun t => { t with ended := t.ended + 1 })
    | .sweep _ _ _ _ _ => s
    | .frag op q _ _ => s.onOp op (fun o => match o.body with
      | .rast r => { o with body := .rast { r with places := del q r.places } }
      | .copy _ | .tex _ | .ray _ | .pair _ | .drain | .near _ | .crest _ => o)
  s.onTeam team (fun t => { t with groups := del grp t.groups })

/-- The groups that a team's launch gives it. -/
def State.launchedGroups (s : State) (team : Nat) : Nat :=
  match s.headerOf team with
  | some h => h.groups
  | none => 0

/-- A team ends: its groups have, its sequencer is idle and its engine takes part in no sweep that runs (R170, R225). -/
def State.teamOver (s : State) (team : Nat) : Bool :=
  match find team s.teams with
  | none => false
  | some t =>
    t.groups.isEmpty && decide (s.launchedGroups team ≤ t.ended) && t.seq.st == .idle
      && s.sweeps.all (fun w => w.2.engines.all (fun e => e.2.team != team || e.2.abandoned))

/-- A team that has ended leaves its core, its grid counts it no more, and a distributor that waits tries again (R39). -/
def State.endTeam (s : State) (team : Nat) : State :=
  if s.teamOver team then
    { s with
      teams := del team s.teams, grids := adjust (s.team team).grid (fun g => { g with live := g.live - 1 }) s.grids
      parts := adjust (s.ctx (s.ctxOf team)).part (fun p => { p with waits := false }) s.parts }
  else s

/-- `GROUP_END`: a group that is over ends, and its team with the last of them (R225). -/
def execGroupEnd (team grp : Nat) (s : State) : Host.Outcome State Fault Refusal :=
  .next ((if s.groupOver team grp then s.endGroup team grp else s).endTeam team)

/-- A grid is complete: every team has been placed and has ended (R313). -/
def Grid.complete (g : Grid) : Bool := decide (g.teams ≤ g.next) && g.live == 0

/-- A context of which nothing is left to run is idle (R331). -/
def State.ctxIdle (s : State) (c : Nat) : State :=
  if (s.ctx c).ctrl || s.grids.any (fun g => g.2.ctx == c) || s.teams.any (fun t => t.2.ctx == c) then s
  else if (s.ctx c).st = .running ∨ (s.ctx c).st = .shadowed ∨ (s.ctx c).st = .spilled then
    let part := (s.ctx c).part
    let s := s.setCtxSt c .idle
    { s with
      parts := adjust part (fun p => { p with running := if p.running = some c then none else p.running }) s.parts
      agenda := s.agenda ++ [Instr.schedulerDecision part] }
  else s

/-- `GRID_COMPLETION` (R313): the counter of the launch is lowered, 1 is stored at `DONEA` for the issuing context, and
every waiter of that key is woken. The store waits for a line that an operation owns (R100). The counter of a group in a save
area is lowered when its block comes back (R339). -/
def execGridCompletion (grid : Nat) (s : State) : Host.Outcome State Fault Refusal :=
  .next (match find grid s.grids with
    | none => s
    | some g =>
      let va := g.record.extractLsb' 288 64
      let a := s.deviceAgent g.from_
      if !g.complete || (va != 0 && !(s.ownedHome a .write [va]).isEmpty) then s
      else
        let s := { s with grids := del grid s.grids }
        let s := match g.dc with
          | some k => s.onGroup g.team g.grp (fun x =>
              if s.ctxOf g.team < 1024 then x.setD k (x.dreg k - 1) else { x with owed := set 0 k (get 0 k x.owed + 1) x.owed })
          | none => s
        let s :=
          if va = 0 then s
          else match s.vstore a va 8 1 with
            | .error _ => s
            | .ok s => (s.wakeKey a g.from_ (signVa va) 0).2
        s.ctxIdle g.ctx)

end Sys2Proof.Machine
end

