-- ==== Sys2Proof/Machine/HostPort.lean ====
section
/-!
DEFINITION. The outside of the device: page-cache fills and the coalescer (R353-R355), snoops and back-invalidations (R105,
R354), host windows (R104, R357), signals (R359, R360, R191), heartbeats and fencing (R361, R362), loss of a port (R356).
-/
namespace Sys2Proof.Machine

/-! ### The page cache and the coalescer (R353, R355) -/

/-- The node at which a traverse operation has missed a sector, if it stands at one (R355). -/
def State.missedNode (s : State) (o : Op) (p : Park) : Option Nat :=
  let n := p.va.toNat / 128 * 128
  match o.body with
  | .ray _ => if (s.group o.team o.grp).rays.any (fun r => r.2.node.any (fun x => x / 128 * 128 == n)) then some n else none
  | .pair q => if q.pending.any (fun x => x.1 / 128 * 128 == n || x.2 / 128 * 128 == n) then some n else none
  | .copy _ | .tex _ | .rast _ | .drain | .near _ | .crest _ => none

/-- The sector of the pool that an address lies in for an operation, where the page cache lacks it. -/
def State.absentSector (s : State) (a : Agent) (va : Nat) : Option Nat :=
  match s.seek a .read (BitVec.ofNat 64 va) with
  | .error _ => none
  | .ok p => s.pcMiss p

/-- The addresses that a node just read predicts: child nodes, leaf and instance records, and the roots of instances whose
records are there to read (R355). -/
def State.predicted (s : State) (a : Agent) (node : Nat) : List Nat :=
  let word (va k : Nat) : Nat := s.peek a (BitVec.ofNat 64 (va + 8 * k)) 8
  match nodeChildren (joinWords ((List.range 16).map (word node))) with
  | none => []
  | some cs => cs.flatMap (fun c => match c.kind with
      | .node | .triangles => [c.ref]
      | .instance_ => if (s.absentSector a c.ref).isSome then [c.ref] else [c.ref, word c.ref 6]
      | .box => [])

/-- The absent sectors, up to 16 for each miss, that the traverse operations which waited for a sector predict (R355). -/
def State.predictions (s : State) (sector : Nat) : List Nat :=
  (s.ops.flatMap (fun o => match o.2.park with
    | none => []
    | some p =>
      if p.sector ≠ some sector then []
      else match s.missedNode o.2 p with
        | none => []
        | some n => ((s.predicted o.2.agent n).filterMap (s.absentSector o.2.agent)).eraseDups.take 16)).eraseDups

/-- The fills that a demand fill adds, behind every fill already issued: those that its sector's nodes predict (R355). -/
def State.predictFills (s : State) (f : Fill) : State :=
  let new := (s.predictions f.sector).filter (fun x => !s.fills.any (fun g => g.sector == x))
  { s with fills := s.fills ++ new.map (fun x => { sector := x, demand := false, batch := f.batch }) }

/-- `PAGE_CACHE_FILL_DONE`: a sector whose fill was issued is present, and the units parked on it go on; a traverse miss
adds its predicted fills, which never take a frame that their batch demanded (R194, R353, R355). -/
def execPageCacheFillDone (sector : Nat) (s : State) : Host.Outcome State Fault Refusal :=
  .next (match s.fills.find? (fun f => f.sector == sector) with
    | none => s
    | some f =>
      let t := { s with fills := s.fills.erase f }
      match t.allotFrame (regionOf sector) (fun r => f.demand || !f.batch.any (fun x => regionOf x == r)) with
      | none => if f.demand then s else t
      | some t =>
        let t := { t with frames := adjust (regionOf sector) (fun x =>
          { x with present := x.present ||| BitVec.ofNat 16 (2 ^ (sector % 16)), used := s.fresh }) t.frames }
        (if f.demand then t.predictFills f else t).refilled sector)

/-- `COALESCER_BATCH_CLOSE`: at 64 sectors, or 256 ticks after the first miss, the fills of a batch are issued (R355). -/
def execCoalescerBatchClose (die : Nat) (s : State) : Host.Outcome State Fault Refusal :=
  .next (match find die s.batches with
    | none => s
    | some b => if b.2.length < 64 ∧ s.dev.datum < b.1 + 256 then s else s.closeBatch die b.2)

/-! ### Coherence with the host and the pool (R105, R354) -/

/-- A line's device accesses in progress are done, and no L1 copy of it can serve any more (R105). -/
def State.snoopable (s : State) (l : Nat) : Bool :=
  !s.owned l && s.cores.all (fun k => k.2.l1.all (fun c =>
    c.1 % 2 ^ 70 != l || decide (c.2.tick + Config.maxAge ≤ s.dev.datum)))

/-- A snoop of a line of host memory is answered, with what the host then writes to it; none while it waits (R105, R358). -/
def State.snoop (s : State) (line : Nat) (data : Option (BitVec 512)) : Option State :=
  let a := backing 2 (line * 64)
  if !s.snoopable (lineNo a) then none
  else
    let s := s.invalidate (lineNo a)
    some (match data with
      | some d => s.plainWrite 0 a 64 d.toNat
      | none => s)

/-- A back-invalidation of a line of the pool is answered: every device copy ends, and its sector is no longer present; none
while it waits (R105, R354). -/
def State.backInvalidate (s : State) (line : Nat) : Option State :=
  let l := lineNo (backing 1 (line * 64))
  if s.snoopable l then some (s.invalidate l) else none

/-! ### The host window (R104, R357) -/

/-- `WCTX` of a port (R352). -/
def State.windowCtx (s : State) (port : Nat) : Nat := (s.dev.config.extractLsb' (384 + 16 * port) 10).toNat

/-- The window context of a port that answers, if it does (R357, R362). -/
def State.openWindow (s : State) (port : Nat) : Option Nat :=
  let p := get Port.down port s.ports
  let c := s.windowCtx port
  if p.up && p.window && !s.dev.fenced && c != 0x3FF && (s.ctx c).st != .free then some c else none

/-- A window access has a size and an alignment that are performed (R357). -/
def windowShape (off size : Nat) : Bool :=
  [1, 2, 4, 8, 16, 32, 64].contains size && off % size == 0 && decide (off < 2 ^ 36)

/-- Where a window access goes: window context and place, which is held while an operation owns an entry of the walk; none for
completer abort (R100, R357). -/
def State.windowSpot (s : State) (port off size : Nat) (use : Use) : Option (Nat × Spot) :=
  match s.openWindow port with
  | none => none
  | some c =>
    if !windowShape off size then none
    else
      let va := s.dev.config.extractLsb' 448 64 + BitVec.ofNat 64 off
      match s.look Config.cores c .machine use va none true with
      | .error _ => none
      | .ok p => if p.held || decide (p.cls < 2) then some (c, p) else none

/-- A port changed. -/
def State.onPort (s : State) (p : Nat) (f : Port → Port) : State := { s with ports := adjust p f s.ports }

/-- Words of a host access: offset and size of each (R357). -/
def hostWords (size : Nat) : List (Nat × Nat) :=
  if size ≤ 8 then [(0, size)] else (List.range (size / 8)).map (fun k => (8 * k, 8))

/-- A read at a home slice with a port's clock: lease and time (R91, R104). -/
def State.hostClock (s : State) (port c l : Nat) : State :=
  let h := (get Port.down port s.ports).hts
  let x := s.line l
  let rts := Nat.max x.rts (h + s.lease c)
  ((s.setLine l { x with rts := rts }).onPort port (fun p => { p with hts := Nat.max h x.wts })).checkTime rts

/-- The walk of a window access: its reads are loads with the port's clock (R104, R345). -/
def State.hostWalked (s : State) (port c : Nat) (p : Spot) : State :=
  match p.walk with
  | none => s
  | some ls => ls.1.foldl (fun s l => (s.demandLine 0 l).hostClock port c l) s

/-- One word read by the host at a home slice (R91, R104). -/
def State.hostLoad (s : State) (port c addr n : Nat) : Nat × State :=
  ((s.readKey (s.keyOf c) addr n).1, s.hostClock port c (lineNo addr))

/-- One word written by the host at a home slice, with the port's clock (R92, R104). -/
def State.hostStore (s : State) (port c cls addr n v : Nat) : State :=
  let a := s.deviceAgent c
  let t := Nat.max (get Port.down port s.ports).hts (s.storeTime a cls (lineNo addr))
  (s.storeAt a cls addr n v t).onPort port (fun p => { p with hts := t })

/-- A window access comes to its place: none while it waits for a line (R100), completer abort where it has none (R357). -/
def State.windowAccess (s : State) (port off size : Nat) (use : Use) (f : State → Nat → Spot → State) : Option State :=
  match s.windowSpot port off size use with
  | none => some (s.onPort port (fun p => { p with reply := none }))
  | some (c, p) => if p.held || s.owned (lineNo p.addr) then none else some (f (s.hostWalked port c p) c p)

/-- A read through a window: the data, or completer abort for poison, is the port's answer (R357, R394). -/
def State.windowRead (s : State) (port off size : Nat) : Option State :=
  s.windowAccess port off size .read (fun s c p =>
    if s.poisoned (s.keyOf c) (lineNo p.addr) then s.onPort port (fun p => { p with reply := none })
    else
      let r := (hostWords size).foldl (fun (q : Nat × State) w =>
        let r := q.2.hostLoad port c (p.addr + w.1) w.2
        (q.1 + r.1 * 2 ^ (8 * w.1), r.2)) (0, s)
      r.2.onPort port (fun p => { p with reply := some (BitVec.ofNat 512 r.1) }))

/-- A write through a window (R357). -/
def State.windowWrite (s : State) (port off size : Nat) (data : BitVec 512) : Option State :=
  s.windowAccess port off size .write (fun s c p =>
    let s := (hostWords size).foldl (fun s w =>
      s.hostStore port c p.cls (p.addr + w.1) w.2 (data.toNat / 2 ^ (8 * w.1) % 2 ^ (8 * w.2))) s
    s.onPort port (fun p => { p with reply := some 0 }))

/-! ### Signals (R359, R360, R191) -/

/-- An aperture access that is discarded or ignored: it is counted (R359). -/
def State.ignoreSignal (s : State) : State := s.onDev (fun d => { d with ignored := d.ignored + 1 })

/-- A resync record in every stream: 0 after deep power, 1 after a precise stop (R381, R384). -/
def State.resync (s : State) (tag old new : Nat) : State :=
  (keys s.traces).foldl (fun s d =>
    (((List.range 96).map (fun k => (0, 96 * d + k)) ++ (List.range 12).map (fun k => (1, 12 * d + k)) ++ [(2, d)]).foldl
      (fun (s : State) (x : Nat × Nat) => s.emit x.1 x.2 0x3FF 3 tag old new 0) s)) s

/-- The end of the deep power state, after some reference cycles (R379, R399). -/
def State.exitDeep (s : State) (cycles : Nat) : State :=
  if s.dev.deep then
    let now := s.dev.deepTick + Nat.max 1 (14 * cycles)
    (s.onDev (fun d => { d with deep := false, datum := now })).resync 0 s.dev.deepTick now
  else s

/-- An aperture store ends the deep power state, after a time that nothing states (R399). -/
def State.rouse (s : State) : State := s.exitDeep (Config.elapse s.fresh)

/-- A signal store is one that counts: the port is up, the entry is a slot in use, and `GEN` is that of the slot (R341, R359). -/
def State.signalFor (s : State) (port entry : Nat) (data : Word) : Bool :=
  (get Port.down port s.ports).up && decide (entry < 1024) && (s.ctx entry).st != .free
    && data.extractLsb' 57 7 == ((s.ctx entry).gen.extractLsb' 0 7)

/-- The key address of a wake signal. -/
def signalKey (data : Word) : Word := signVa (data.extractLsb' 0 57 |>.setWidth 64)

/-- The wake signals: a `WAKE` of a count on key (c, a). -/
def State.signalWake (s : State) (port entry count : Nat) (data : Word) : State :=
  if !s.signalFor port entry data || bits data 0 3 != 0 then s.ignoreSignal
  else (s.wakeKey (s.deviceAgent entry) entry (signalKey data) count).2

/-- The waiters on the retry list, all due to retest: a host signal is one of their occasions (R272). -/
def State.retryWaits (s : State) : State :=
  (s.wakeKey (s.deviceAgent 0) (2 ^ 20) 0 0).2

/-- A host waiter is registered, or its entry refused (R360). -/
def State.signalRegister (s : State) (port entry : Nat) (data : Word) : State :=
  if !s.signalFor port entry data || bits data 0 6 != 0 || bits data 52 5 != 0 || s.dev.fenced then s.ignoreSignal
  else
    let s := s.retryWaits
    let e := bits data 0 52
    let inRange := decide ((s.dev.config.extractLsb' 256 64).toNat ≤ e) && decide (e < (s.dev.config.extractLsb' 320 64).toNat)
    let s := s.landBefore (backing 2 e)
    let w := readN s.mem (backing 2 e) 64
    if !inRange then s
    else if field w 128 8 != 1 || field w 0 3 != 0 || field w 136 376 != 0 then s.hostState e 4
    else
      let key := BitVec.ofNat 64 (field w 0 64)
      let full := s.tableFull entry key
      let s := s.register entry key (.host port e)
      if full then s else s.hostState e 2

/-- A user-level interrupt is posted to the groups of a team, or of every team of the context (R191, R359). -/
def State.signalPost (s : State) (port entry : Nat) (data : Word) : State :=
  let all := data.getLsbD 4
  let team := bits data 5 24
  if !s.signalFor port entry data || bits data 29 28 != 0 || (all && team != 0) then s.ignoreSignal
  else
    let bit := BitVec.ofNat 16 (2 ^ bits data 0 4)
    { s with teams := s.teams.map (fun t =>
        if t.2.ctx = entry ∧ (all || t.2.no == team) = true then
          (t.1, { t.2 with groups := t.2.groups.map (fun g => (g.1, { g.2 with uipend := g.2.uipend ||| bit })) })
        else t) }

/-- An aperture access that only answers or is ignored: a read returns 0, and each is counted (R359). -/
def State.signalIgnored (s : State) (port off : Nat) : State :=
  if 65536 ≤ off then s else s.ignoreSignal.onPort port (fun p => { p with reply := some 0 })

/-! ### Requests from outside (R100, R104, R105, R359, R384, R399) -/

/-- The port whose order a request keeps (R104). -/
def requestPort : Instr → Option Nat
  | .hostWindowRead port _ _ => some port
  | .hostWindowWrite port _ _ _ => some port
  | _ => none

/-- A request behind which another one of its port waits. -/
def behindPort (i : Instr) (waiting : List Instr) : Bool :=
  (requestPort i).isSome && waiting.any (fun j => requestPort j == requestPort i)

/-- A request from outside that comes to its turn: its effect, or none while it waits. An aperture store ends the deep power state
first (R399). -/
def State.attempt (s : State) : Instr → Option State
  | .hostWindowRead port off size => s.windowRead port off size
  | .hostWindowWrite port off size data => s.windowWrite port off size data
  | .hostSnoop line data => s.snoop line data
  | .backInvalidation line => s.backInvalidate line
  | .signalWakeAll port entry data => some (s.rouse.signalWake port entry 0 data)
  | .signalWakeOne port entry data => some (s.rouse.signalWake port entry 1 data)
  | .signalRegisterHostWait port entry data => some (s.rouse.signalRegister port entry data)
  | .signalPostInterrupt port entry data => some (s.rouse.signalPost port entry data)
  | .signalApertureIgnored port off => some (s.signalIgnored port off)
  | _ => some s

/-- An aperture access, which the always-on logic watches for in the deep power state (R399). -/
def atAperture : Instr → Bool
  | .signalWakeAll _ _ _ | .signalWakeOne _ _ _ | .signalRegisterHostWait _ _ _ | .signalPostInterrupt _ _ _
  | .signalApertureIgnored _ _ => true
  | _ => false

/-- The ports take no request now: the device is stopped, or sleeps deeply and the request does not end that (R384, R399). -/
def State.deaf (s : State) (i : Instr) : Bool := s.dev.stopped || (s.dev.deep && !atAperture i)

/-- A request arrives: it takes effect, or waits: for a port that takes none now, behind those of its port that wait, or for its
line. -/
def State.request (s : State) (i : Instr) : State :=
  match if s.deaf i || behindPort i s.waiting then none else s.attempt i with
  | some t => t
  | none => { s with waiting := s.waiting ++ [i] }

/-- The requests that wait, in the order of their arrival, as far as they can take effect now. -/
def State.serve (s : State) : State :=
  s.waiting.foldl (fun s i => s.request i) { s with waiting := [] }

/-- `HOST_WINDOW_READ` (R357, R394). -/
def execHostWindowRead (port off size : Nat) (s : State) : Host.Outcome State Fault Refusal :=
  .next (s.request (.hostWindowRead port off size))

/-- `HOST_WINDOW_WRITE` (R357). -/
def execHostWindowWrite (port off size : Nat) (data : BitVec 512) (s : State) : Host.Outcome State Fault Refusal :=
  .next (s.request (.hostWindowWrite port off size data))

/-- `HOST_SNOOP` (R105, R358). -/
def execHostSnoop (line : Nat) (data : Option (BitVec 512)) (s : State) : Host.Outcome State Fault Refusal :=
  .next (s.request (.hostSnoop line data))

/-- `BACK_INVALIDATION` (R354). -/
def execBackInvalidation (line : Nat) (s : State) : Host.Outcome State Fault Refusal :=
  .next (s.request (.backInvalidation line))

/-- `SIGNAL_WAKE_ALL` (R359). -/
def execSignalWakeAll (port entry : Nat) (data : Word) (s : State) : Host.Outcome State Fault Refusal :=
  .next (s.request (.signalWakeAll port entry data))

/-- `SIGNAL_WAKE_ONE` (R359). -/
def execSignalWakeOne (port entry : Nat) (data : Word) (s : State) : Host.Outcome State Fault Refusal :=
  .next (s.request (.signalWakeOne port entry data))

/-- `SIGNAL_REGISTER_HOST_WAIT` (R360). -/
def execSignalRegisterHostWait (port entry : Nat) (data : Word) (s : State) : Host.Outcome State Fault Refusal :=
  .next (s.request (.signalRegisterHostWait port entry data))

/-- `SIGNAL_POST_INTERRUPT` (R191, R359). -/
def execSignalPostInterrupt (port entry : Nat) (data : Word) (s : State) : Host.Outcome State Fault Refusal :=
  .next (s.request (.signalPostInterrupt port entry data))

/-- `SIGNAL_APERTURE_IGNORED` (R359). -/
def execSignalApertureIgnored (port off : Nat) (s : State) : Host.Outcome State Fault Refusal :=
  .next (s.request (.signalApertureIgnored port off))

/-! ### Ports and heartbeats (R356, R361, R362) -/

/-- `PORT_LOSS` (R356): later accesses that the port carries raise Host-Lost; posted writes on their way through it are lost
(entry 136). -/
def execPortLoss (port : Nat) (s : State) : Host.Outcome State Fault Refusal :=
  .next (s.onPort port (fun p => { p with up := false, window := false, posted := [] }))

/-- The address of a word of the heartbeat block. -/
def State.beatAddr (s : State) (k : Nat) : Nat := backing 1 ((s.dev.config.extractLsb' 192 64).toNat + 8 * k)

/-- The interval between heartbeats in datum ticks: `HBINT` at 1,400 ticks for a microsecond (R352, R379). -/
def State.beatInterval (s : State) : Nat := (s.dev.config.extractLsb' 16 16).toNat * 1400

/-- A word as `PATOM` finds it at the pool: any device copy of its line has been written back (R109, R315). -/
def State.poolRead (s : State) (a : Nat) : Nat := readN s.mem a 8

/-- A word written by `PATOM` at the pool, which finds no device copy of the line (R109, R315). -/
def State.poolWrite (s : State) (a v : Nat) : State := (s.invalidate (lineNo a)).plainWrite 0 a 8 v

/-- A waiter of the host. -/
def Reg_.ofHost (r : Reg_) : Bool :=
  match r.who with
  | .host _ _ => true
  | .lanes _ _ _ | .parcel _ _ _ => false

/-- Windows close, and host waiters go (R362 steps 1, 2). -/
def State.cutHost (s : State) : State :=
  let ports := s.ports.map (fun (p : Nat × Port) => (p.1, { p.2 with window := false }))
  { s with ports := ports, regs := s.regs.filter (fun r => !r.ofHost) }

/-- Every partition halts under R187. -/
def State.haltAll (s : State) : State :=
  { (keys s.ctxs).foldl (fun s c => s.parkAll c) s with
    parts := s.parts.map (fun p => (p.1, { p.2 with halted := true })) }

/-- The device finds the host silent (R362): windows close, host waiters go, host pages are lost, dirty pool lines are written
back, and `FENCE` is taken; a host that fenced first halts every partition. -/
def State.fenceHost (s : State) : State :=
  let s := (s.cutHost.onDev (fun d => { d with fenced := true, recovered := 0 })).writeBackAll
  let f := s.poolRead (s.beatAddr 3)
  if f = 0 then s.poolWrite (s.beatAddr 3) ((1 + s.poolRead (s.beatAddr 4) * 2 ^ 8) % 2 ^ 64)
  else if f % 256 = 2 then s.haltAll
  else s

/-- The windows open again and Host-Lost ends (R362). -/
def State.unfence (s : State) : State :=
  { s.onDev (fun d => { d with fenced := false, recovered := 0, same := 0 }) with
    ports := s.ports.map (fun p => (p.1, { p.2 with window := p.2.up && s.windowCtx p.1 != 0x3FF })) }

/-- What a read of `HOSTBEAT` means: silence after four reads without an advance, recovery after two with one (R361,
R362). -/
def State.hearBeat (s : State) (beat : Nat) : State :=
  let moved := BitVec.ofNat 64 beat != s.dev.hostbeat
  let d := s.dev
  if d.fenced then
    let n := if moved && s.poolRead (s.beatAddr 3) == 0 then d.recovered + 1 else 0
    let s := s.onDev (fun d => { d with hostbeat := BitVec.ofNat 64 beat, recovered := n })
    if 2 ≤ n then s.unfence else s
  else
    let n := if moved then 0 else d.same + 1
    let s := s.onDev (fun d => { d with hostbeat := BitVec.ofNat 64 beat, same := n })
    if 4 ≤ n then s.fenceHost else s

/-- A heartbeat is due: the interval has passed, and the host has not fenced the device (R361, R362). -/
def State.beatDue (s : State) : Bool :=
  (s.dev.service == .normal || s.dev.service == .reduced)
    && (s.dev.deep || decide (s.dev.beat + s.beatInterval ≤ s.dev.datum))
    && s.beatInterval != 0 && !(s.dev.fenced && s.poolRead (s.beatAddr 3) % 256 == 2)

/-- `HEARTBEAT` (R361). -/
def execHeartbeat (s : State) : Host.Outcome State Fault Refusal :=
  .next (if !s.beatDue then s
    else
      let s := s.onDev (fun d => { d with beat := d.datum, devbeat := (d.devbeat + 1) % 2 ^ 64 })
      let s := s.poolWrite (s.beatAddr 1) s.dev.devbeat
      let s := s.poolWrite (s.beatAddr 2) s.dev.datum
      s.hearBeat (s.poolRead (s.beatAddr 0)))

end Sys2Proof.Machine
end

