-- ==== Sys2Proof/Machine/Observe.lean ====
section
/-!
DEFINITION. The trace control block and replay (R380, R392), counter snapshots (R388), the precise stop and the JTAG
port (R384, R385).
-/
namespace Sys2Proof.Machine

/-! ### The trace control block (R380) -/

/-- The ranges of a block that read as zero in every block, low bit and width. -/
def blockReserved : List (Nat × Nat) :=
  [(3, 5), (10, 10), (28, 4), (48, 16), (160, 32), (288, 32), (394, 54), (544, 32), (648, 56), (768, 256)]

/-- The ranges that read as zero in the blocks of dies 1 to 7. -/
def blockReservedElsewhere : List (Nat × Nat) := [(8, 2), (384, 10), (448, 64), (512, 32), (576, 64), (640, 8)]

/-- A block keeps its reserved bits zero and its addresses aligned, and asks for no reserved mode. -/
def blockOk (die b : Nat) : Bool :=
  (blockReserved ++ (if die = 0 then [] else blockReservedElsewhere)).all (fun r => field b r.1 r.2 == 0)
    && field b 64 12 == 0 && field b 320 12 == 0 && field b 448 12 == 0 && field b 704 21 == 0 && field b 8 2 != 3

/-- The first multiple of 1,024 after a datum (R388). -/
def nextSnap (t : Nat) : Nat := (t / 1024 + 1) * 1024

/-- The configuration that a die takes from its block. -/
def Trace.read_ (t : Trace) (now b : Nat) : Trace :=
  let on := field b 0 1 == 1
  let fresh := on && !t.en
  { t with
    en := on, wrap := field b 1 1 == 1, kmask := field b 16 16, sample := field b 32 16, bufb := field b 64 64
    bufs := field b 128 32, wptr := if fresh then 0 else t.wptr, lost := if fresh then 0 else t.lost
    snap := t.snap || field b 2 1 == 1, snapb := field b 320 64
    snapTick := if t.snap then t.snapTick else nextSnap now
    rrmode := field b 8 2, rrctx := field b 384 10, rrlog := field b 448 64, rrlogs := field b 512 32, rrstb := field b 704 64 }

/-- What a change of `RRMODE` starts or ends (R389, R392): a log that recording left incomplete is refused. -/
def Trace.remode (old t : Trace) : Trace :=
  if t.rrmode = old.rrmode then t
  else if t.rrmode = 1 then { t with rrst := 1, rrptr := 0 }
  else if t.rrmode = 2 then
    if old.rrst = 2 ∧ old.rrlog = t.rrlog then { t with rrst := 5, rrptr := 0 } else { t with rrst := 3, rrptr := 0 }
  else { t with rrst := if old.rrst = 2 then 2 else 0 }

/-- The entry of the replay log has nothing left to hold back: its access has been performed (R392). -/
def State.consumed (s : State) (k : Nat) : Bool :=
  let w := s.deviceRead (backing 0 (s.trace0.rrlog + 32 * k)) 32
  w == 0 || s.performed (field w 32 24, field w 28 4) (field w 224 32)

/-- How far the replay has consumed its log, and whether it is done (R392). -/
def State.replayProgress (s : State) : State :=
  let t := s.trace0
  if t.rrmode = 2 ∧ t.rrst = 3 then
    let n := ((List.range (t.rrlogs * 128)).takeWhile s.consumed).length
    { s with traces := put 0 { t with rrptr := 32 * n, rrst := if n = t.rrlogs * 128 then 4 else 3 } s.traces }
  else s

/-- A recording or a replay begins: no access is noted yet, and groups count their ordinals from 1 (R389). -/
def State.clearRecording (s : State) (c : Nat) : State :=
  { s with
    recorded := [], writers := []
    teams := s.teams.map (fun (t : Nat × Team) => if t.2.ctx = c then
      (t.1, { t.2 with groups := t.2.groups.map (fun (g : Nat × Group) => (g.1, { g.2 with ordinal := 0 })) }) else t) }

/-- `TRACE_CONTROL_READ` (R380): a block that breaks its form is ignored whole and counted. -/
def execTraceControlRead (die : Nat) (s : State) : Host.Outcome State Fault Refusal :=
  .next (
    if 8 ≤ die ∨ s.dev.stopped = true ∨ s.untrained (Config.traceBlock die / 64) = true then s
    else
      let old := get Trace.zero die s.traces
      let b := s.deviceRead (backing 0 (Config.traceBlock die)) 128
      let keep := { s with traces := put die { old with read := s.dev.datum } s.traces }
      if !blockOk die b then keep.onDev (fun d => { d with badBlocks := d.badBlocks + 1 })
      else
        let t := { (old.read_ s.dev.datum b) with read := s.dev.datum }
        let begins := t.en && !old.en
        let s := { s with
          traces := put die (if die = 0 then old.remode t else t) s.traces
          streams := if begins then s.streams.filter (fun e => streamDie (e.1 / 1024) (e.1 % 1024) != die) else s.streams }
        let s := if begins then
            (s.deviceStore (backing 0 (Config.traceBlock die + 24)) 8 0).deviceStore (backing 0 (Config.traceBlock die + 32)) 4 0
          else s
        if die ≠ 0 then s
        else
          let s := if (t.rrmode != old.rrmode) && t.rrmode != 0 then s.clearRecording t.rrctx else s
          let s := s.replayProgress
          if (t.rrmode != old.rrmode) || t.rrmode == 2 then s.showReplay else s)

/-! ### Snapshots (R388) -/

/-- The words of a core's snapshot. -/
def Core.snapshot (k : Core) (tick : Nat) : List Nat :=
  [tick, k.clocks] ++ (List.range 23).map (fun j => get 0 (j + 1) k.leaves) ++ List.replicate 7 0

/-- `COUNTER_SNAPSHOT` (R388): at the tick that is due, every core of the die, then `SNAP` is 0. -/
def execCounterSnapshot (die : Nat) (s : State) : Host.Outcome State Fault Refusal :=
  .next (
    let t := get Trace.zero die s.traces
    if !t.snap || decide (s.dev.datum < t.snapTick) then s
    else
      let s := (List.range 96).foldl (fun s j =>
        ((s.core (96 * die + j)).snapshot t.snapTick).zipIdx.foldl (fun (s : State) (x : Nat × Nat) =>
          s.deviceStore (backing 0 (t.snapb + 256 * j + 8 * x.2)) 8 x.1) s) s
      let a := backing 0 (Config.traceBlock die)
      let b := s.deviceRead a 1
      let s := s.deviceStore a 1 (b - 4 * (b / 4 % 2))
      { s with traces := put die { t with snap := false } s.traces })

/-! ### The precise stop (R384) -/

/-- `PRECISE_STOP`: at tick s every clock is gated, and `STOPAT` reads 0. -/
def execPreciseStop (s : State) : Host.Outcome State Fault Refusal :=
  .next (
    if s.dev.stopat = 0 ∨ s.dev.datum < s.dev.stopat then s
    else s.onDev (fun d => { d with stopped := true, stopat := 0 }))

/-! ### The JTAG port (R385) -/

/-- What the data register of an instruction shifts out; nothing while the port is closed (R365). -/
def State.shiftOut (s : State) (bs : List Bool) : State :=
  s.onDev (fun d => if d.jtag then { d with shifted := bs } else d)

/-- Bits of a number, bit 0 first. -/
def bitsOf (n v : Nat) : List Bool := (List.range n).map (fun k => v.testBit k)

/-- The identification: bit 0 is 1, the part is 0x0768; manufacturer and stepping are the maker's. -/
def idcodeBits : BitVec 32 := (Config.idcode &&& 0xF0000FFE#32) ||| 0x07680001#32

/-- `JTAG_IDCODE`. -/
def execJtagIdcode (s : State) : Host.Outcome State Fault Refusal :=
  .next (s.shiftOut (bitsOf 32 idcodeBits.toNat))

/-- `JTAG_STOPREQ`: a machine-level write of `STOPAT`. -/
def execJtagStopreq (tick : Word) (s : State) : Host.Outcome State Fault Refusal :=
  .next (
    if s.dev.jtag then
      let r := s.armStop tick
      if r.1 then r.2.emit 2 0 0x3FF 11 0 tick.toNat 0 0 else r.2
    else s)

/-- `JTAG_CHSEL`. -/
def execJtagChsel (chain : BitVec 16) (s : State) : Host.Outcome State Fault Refusal :=
  .next (s.onDev (fun d => if d.jtag then { d with chain := chain.toNat } else d))

/-- The specified part of a chain after its header: for a core, its groups' and teams' blocks in slot order (R54, R56). -/
def State.chainWords (s : State) (chain : Nat) : List Nat :=
  if Config.cores ≤ chain then []
  else
    let ts := s.teams.filter (fun e => e.2.core == some chain)
    ts.flatMap (fun t => t.2.groups.flatMap (fun g => g.2.block)) ++ ts.flatMap (fun t => t.2.block)

/-- The bits of a chain: what the specification does not list is free, its amount too (entry 8). -/
def State.chainBits (s : State) (chain n : Nat) : List Bool :=
  let ws := s.chainWords chain
  let len := 64 + 64 * ws.length + Config.scanLength chain
  let known := ((chain + len % 2 ^ 48 * 2 ^ 16) :: ws).flatMap (bitsOf 64)
  (List.range n).map (fun k => known.getD k (Config.scan (s.fresh * 2 ^ 64 + k)))

/-- `JTAG_CHREAD`: the selected chain from bit 0, zeros while the device runs, nothing from an empty chain. -/
def execJtagChread (nbits : Nat) (s : State) : Host.Outcome State Fault Refusal :=
  .next (
    if s.dev.stopped = false then s.shiftOut (List.replicate nbits false)
    else if 1064 < s.dev.chain then s.shiftOut []
    else s.shiftOut (s.chainBits s.dev.chain nbits))

/-- `JTAG_RESUME`: the datum continues from the stop, and every stream has a resync record. -/
def execJtagResume (s : State) : Host.Outcome State Fault Refusal :=
  .next (
    if s.dev.jtag && s.dev.stopped then
      (s.onDev (fun d => { d with stopped := false })).resync 1 s.dev.datum s.dev.datum
    else s)

/-- The codes of the instructions that are not `BYPASS`. -/
def jtagCodes : List (BitVec 8) := [0x01, 0x10, 0x20, 0x21, 0x30]

/-- `JTAG_BYPASS`: the one-bit register, which captures 0 (IEEE 1149.1). -/
def execJtagBypass (code : BitVec 8) (s : State) : Host.Outcome State Fault Refusal :=
  .next (if jtagCodes.contains code then s else s.shiftOut [false])

end Sys2Proof.Machine
end

