-- ==== Sys2Proof/Machine/Schedule.lean ====
section
/-!
DEFINITION. The partition scheduler: which context runs, and pre-emption in its two phases (R331-R339).
-/
namespace Sys2Proof.Machine

/-! ### Choice (R333) -/

/-- The tenant contexts of a partition, with their slots, ascending. -/
def State.tenants (s : State) (part : Nat) : List (Nat × Ctx) :=
  s.ctxs.filter (fun e => decide (e.1 < 1024) && e.2.part == part && !e.2.ctrl && e.2.st != .free)

/-- An engine operation of a context is in progress. -/
def State.enginesBusy (s : State) (c : Nat) : Bool :=
  s.ops.any (fun o => o.2.ctx == c && !o.2.spent) || s.sweeps.any (fun w => w.2.ctx == c)
    || s.teams.any (fun t => t.2.ctx == c && t.2.seq.st != .idle)

/-- Every launched lane of a context waits in the wait table, unwoken, or sleeps (R333). -/
def State.allAsleep (s : State) (c : Nat) : Bool :=
  let gs := (s.teamsOf c).flatMap (fun t => t.2.groups.map (fun g => (g.2, s.wokenLanes t.1 g.1)))
  gs.any (fun g => g.1.launched != 0) && gs.all (fun g => g.1.launched == ((g.1.inState 7 &&& ~~~g.2) ||| g.1.inState 9))

/-- A tenant context is runnable (R333); one that is being saved is not chosen again (R341). -/
def State.runnable (s : State) (c : Nat) : Bool :=
  let x := s.ctx c
  (x.st == .running || x.st == .shadowed || x.st == .spilled)
    && (!(s.teamsOf c).isEmpty || !(s.queueOf c).isEmpty) && !(s.allAsleep c && !s.enginesBusy c) && !s.saving c

/-- Slots in circular order after one. -/
def circular (r : Nat) (cs : List Nat) : List Nat := cs.filter (fun c => decide (r < c)) ++ cs.filter (fun c => decide (c ≤ r))

/-- The highest-`PRIO` context of a list, the first of equals. -/
def State.highest (s : State) (cs : List Nat) : Option Nat :=
  cs.foldl (fun (b : Option Nat) c => match b with
    | none => some c
    | some x => if (s.ctx x).prio < (s.ctx c).prio then some c else some x) none

/-- The slot of the running context of a partition, for the circular order. -/
def Part.after (p : Part) : Nat := match p.running with
  | some r => r
  | none => 1024

/-- The runnable tenants of a partition, in circular order after the running one. -/
def State.contenders (s : State) (part : Nat) (p : Part) : List Nat :=
  circular p.after (((s.tenants part).map (·.1)).filter (fun c => s.runnable c))

/-- The context that a decision chooses (R333): the running one while it is runnable and none is above it. -/
def State.choice (s : State) (part : Nat) (p : Part) : Option Nat :=
  let best := s.highest (s.contenders part p)
  match p.running, best with
  | some r, some b => if s.runnable r && decide ((s.ctx b).prio ≤ (s.ctx r).prio) then some r else some b
  | some r, none => if (s.ctx r).st = .running then some r else none
  | none, b => b

/-- The descriptors of a partition's tenants as a decision reads them (R332). -/
def State.readDescs (s : State) (part : Nat) : State := (s.tenants part).foldl (fun s e => s.readDesc e.1) s

/-- Context records of the cores of a partition (R381): 0 a halt begins, 1 it ends, 2 a swap ends. -/
def State.emitSwitch (s : State) (p : Part) (tag out in_ : Nat) : State :=
  (p.clusters.flatMap p.tenantCores).foldl (fun s c => s.emit 0 c out 9 tag out in_ 0) s

/-- A slot number in a record, 0x3FF for none. -/
def slotCode (c : Option Nat) : Nat := c.getD 0x3FF

/-- A partition changed. -/
def State.onPart (s : State) (part : Nat) (f : Part → Part) : State := { s with parts := adjust part f s.parts }

/-- A pre-emption begins: the outgoing context halts (R337); with no context on the cores the swap begins at once. -/
def State.preempt (s : State) (part : Nat) (p : Part) (next : Option Nat) : State :=
  match p.running with
  | some r =>
    (s.onPart part (fun p => { p with next := next, halting := true })).emitSwitch p 0 r (slotCode next)
  | none => s.onPart part (fun p => { p with next := next, swapping := true })

/-- The decision of a partition's scheduler. -/
def State.schedule (s : State) (part : Nat) : State :=
  match find part s.parts with
  | none => s
  | some p =>
    if p.halting || p.swapping || p.halted then s
    else
      let s := s.readDescs part
      let c := s.choice part p
      if c = p.running then s else s.preempt part p c

/-- `SCHEDULER_DECISION` (R333). -/
def execSchedulerDecision (part : Nat) (s : State) : Host.Outcome State Fault Refusal := .next (s.schedule part)

/-- The quantum of a context in effect; none for no time slicing (R332). -/
def Ctx.quantum (x : Ctx) : Option Nat := if x.quant = 0 then none else some (Nat.max 14000 x.quant)

/-- The quantum of a partition's running context has expired. -/
def State.expired (s : State) (p : Part) : Bool :=
  match p.running with
  | none => false
  | some r => match (s.ctx r).quantum with
    | none => false
    | some q => decide (p.began + q ≤ s.dev.datum)

/-- `QUANTUM_EXPIRY`: a decision; where it would leave the running context, the next runnable context of equal `PRIO` replaces
that (R333). -/
def execQuantumExpiry (part : Nat) (s : State) : Host.Outcome State Fault Refusal :=
  .next (match find part s.parts with
    | none => s
    | some p =>
      let s := s.readDescs part
      if !s.expired p || p.halting || p.swapping || p.halted then s
      else
        let r := p.running.getD 0
        let c := s.choice part p
        if c ≠ p.running then s.preempt part p c
        else
          match (s.contenders part p).find? (fun c => c != r && (s.ctx c).prio == (s.ctx r).prio) with
          | none => s.onPart part (fun p => { p with began := s.dev.datum })
          | some c => s.preempt part p (some c))

/-! ### Pre-emption (R337, R338) -/

/-- The groups of a context that wait at an instruction for a unit leave their clause there, and are to issue that instruction
again when the context runs: a group that waits for a unit would reach no clause boundary before the unit parks (R45, R194,
R337; entry 144). -/
def State.leaveUnits (s : State) (c : Nat) : State :=
  s.ops.foldl (fun s o => if o.2.ctx = c ∧ s.holding o.2 = true then s.leaveWait o.1 else s) s

/-- Every group of a context stands at a clause boundary: no core issues a clause of it or has a second half of it to
issue, and no trap of it is due (R45, R251). -/
def State.atBoundaries (s : State) (c : Nat) : Bool :=
  s.cores.all (fun k =>
    (match k.2.issue with
      | none => true
      | some x => !x.members.any (fun m => s.ctxOf m.team == c))
    && (match k.2.second with
      | none => true
      | some y => s.ctxOf y.1 != c))
  && s.teams.all (fun t => t.2.ctx != c || t.2.groups.all (fun g => g.2.late.isNone))

/-- The teams of a context leave the cores. -/
def State.unseat (s : State) (c : Nat) : State :=
  { s with
    teams := s.teams.map (fun t => if t.2.ctx = c then (t.1, { t.2 with core := none }) else t)
    parts := adjust (s.ctx c).part (fun p => { p with waits := false }) s.parts }

/-- A `CSAVE` under way: a context that no pre-emption halts - a control context, or one of a partition that has halted - parks
and leaves the cores at its boundaries; then the image is written (R341). -/
def State.saveStep (part : Nat) (s : State) (x : Nat × Nat) : State :=
  let held := (s.ctx x.2).ctrl || (find part s.parts).any (fun p => p.halted && !p.halting)
  let s := if held && s.onCores x.2 then
      let s := s.leaveUnits x.2
      if s.atBoundaries x.2 then (s.parkAll x.2).unseat x.2 else s
    else s
  s.saveDue x.1

/-- The instructions `CSAVE` under way in a partition, each as far as it gets (R341). -/
def State.savesDue (s : State) (part : Nat) : State := (s.savesOf part).foldl (State.saveStep part) s

/-- `PREEMPT_HALT`: once every group of the outgoing context stands at a boundary, its engines park with `PREEMPT` 1; a context
that a `CSAVE` waits for leaves the cores at once, and its image is written (R337, R341). -/
def execPreemptHalt (part : Nat) (s : State) : Host.Outcome State Fault Refusal :=
  .next (match find part s.parts with
    | none => s
    | some p =>
      match p.running with
      | none => s.savesDue part
      | some r =>
        if !p.halting then s.savesDue part
        else
          let s := s.leaveUnits r
          if !s.atBoundaries r then s
          else
            let s := (s.parkAll r).onPart part (fun p => { p with halting := false, swapping := true })
            let s := s.emitSwitch p 1 r (slotCode p.next)
            let s := (if s.saving r then s.unseat r else s).savesDue part
            if (s.ctx r).st = .free then s.onPart part (fun p => { p with swapping := p.next.isSome }) else s)

/-- A context goes to the shadow stores, and whatever else of the partition was there to its save area (R331). -/
def State.toShadow (s : State) (part c : Nat) : State :=
  let s := (s.tenants part).foldl (fun s e =>
    if e.1 ≠ c ∧ e.2.st = .shadowed then s.setCtxSt e.1 .spilled else s) s
  s.setCtxSt c .shadowed

/-- The outgoing context of a swap leaves the cores. -/
def State.swapOut (s : State) (part : Nat) (p : Part) : State :=
  match p.running with
  | none => s
  | some r =>
    let s := s.unseat r
    if (s.ctx r).st = .running then
      (if (s.teamsOf r).isEmpty && (s.queueOf r).isEmpty then s.setCtxSt r .idle else s.toShadow part r)
    else s

/-- A swap waits for the staging of a context that has teams in its save area (R337). -/
def State.staged (s : State) (c : Nat) : Bool := (s.ctx c).st != .spilled || (s.teamsOf c).isEmpty

/-- The shadow store of a context has an uncorrectable error when it is read (R393; entry 136). -/
def State.shadowFails (s : State) (c : Nat) : Bool := (s.ctx c).st == .shadowed && Config.drift (2 ^ 64 + s.fresh) == 1

/-- `PREEMPT_SWAP`: the outgoing context leaves the cores, and the teams of the incoming one are placed (R337); one whose shadow
store fails halts instead (R393). -/
def execPreemptSwap (part : Nat) (s : State) : Host.Outcome State Fault Refusal :=
  .next (match find part s.parts with
    | none => s
    | some p =>
      if !p.swapping then s
      else
        match p.next with
        | none => (s.swapOut part p).onPart part (fun p => { p with running := none, swapping := false, waits := false })
        | some c =>
          if !s.staged c then s
          else
            let lost := s.shadowFails c
            let s := ((s.swapOut part p).setCtxSt c .running).onPart part (fun q =>
              { q with running := some c, next := none, swapping := false, waits := false, began := s.dev.datum })
            (if lost then s.haltContext c .poison 0 0 0 0 else s.returnTeams p c).emitSwitch p 2 (slotCode p.running) c)

/-- The context that a partition would run next: the one a pre-emption in progress waits for, else the best of the
others (R333). -/
def State.nextToRun (s : State) (part : Nat) (p : Part) : Option Nat :=
  match p.next with
  | some c => some c
  | none => s.highest ((s.contenders part p).filter (fun c => some c != p.running))

/-- `CONTEXT_STAGING`: the context that would run next moves from its save area to the shadow stores (R331, R333). -/
def execContextStaging (part : Nat) (s : State) : Host.Outcome State Fault Refusal :=
  .next (match find part s.parts with
    | none => s
    | some p =>
      match s.nextToRun part p with
      | none => s
      | some c => if (s.ctx c).st = .spilled then s.toShadow part c else s)

end Sys2Proof.Machine
end

