-- ==== Sys2Proof/Machine/Hash.lean ====
section
/-!
DEFINITION. SHA-256 (FIPS 180-4) over lists of bytes, for the measurements of R372 and the signatures of R370.
-/
namespace Sys2Proof.Machine

/-- The little-endian bytes of a number (R3). -/
def bytesOf : Nat → Nat → List Byte
  | 0, _ => []
  | n + 1, v => BitVec.ofNat 8 v :: bytesOf n (v / 256)

/-- The number of little-endian bytes. -/
def numOf : List Byte → Nat
  | [] => 0
  | b :: bs => b.toNat + 256 * numOf bs

/-- The big-endian bytes of a number. -/
def bigBytes (n v : Nat) : List Byte := (bytesOf n v).reverse

/-- The number of big-endian bytes. -/
def bigNum (bs : List Byte) : Nat := numOf bs.reverse

/-- The largest number below `2 ^ n` whose power with an exponent is at most a bound, bit by bit from the top. -/
def rootBelow (ex bound n : Nat) : Nat :=
  (List.range n).foldr (fun b r => if (r + 2 ^ b) ^ ex ≤ bound then r + 2 ^ b else r) 0

/-- The first 32 bits of the fractional part of a root of a number (FIPS 180-4 sections 4.2.2 and 5.3.3). -/
def rootFraction (ex p : Nat) : W32 := BitVec.ofNat 32 (rootBelow ex (p * 2 ^ (32 * ex)) 40)

/-- The primes up to 311: the first 64. -/
def shaPrimes : List Nat :=
  ((List.range 310).map (· + 2)).filter (fun p => [2, 3, 5, 7, 11, 13, 17].all (fun q => p == q || p % q != 0))

/-- Three turns of a word added bit by bit; the third keeps its place for the schedule, where it is a shift. -/
def turns (w last : W32) (i j : Nat) : W32 := last ^^^ w.rotateRight j ^^^ w.rotateRight i

/-- The sixteen words of a block and 48 more, the latest first (FIPS 180-4 section 6.2.2, step 1). -/
def shaSchedule (block : List W32) : List W32 :=
  (List.replicate 48 ()).foldl (fun past _ =>
    let old := past.getD 14 0
    let new := past.getD 1 0
    (past.getD 15 0 + past.getD 6 0 + turns old (old >>> 3) 7 18 + turns new (new >>> 10) 17 19) :: past) block.reverse

/-- The eight words of the hash, as the last four values of the two chains that the rounds extend, the latest first. -/
abbrev ShaChains := List W32 × List W32

/-- One round with the sum of its constant and its schedule word: each chain gains a value (FIPS 180-4 section 6.2.2, step 3). -/
def shaStep (q : ShaChains) (kw : W32) : ShaChains :=
  match q with
  | ([p1, p2, p3, p4], [n1, n2, n3, n4]) =>
    let add := kw + n4 + (n3 ^^^ (n1 &&& (n2 ^^^ n3))) + turns n1 (n1.rotateRight 25) 6 11
    let most := (p1 &&& p2) ||| (p3 &&& (p1 ||| p2))
    ([add + most + turns p1 (p1.rotateRight 22) 2 13, p1, p2, p3], [add + p4, n1, n2, n3])
  | other => other

/-- One block of 64 bytes. -/
def shaBlock (q : ShaChains) (bs : List Byte) : ShaChains :=
  let words := (List.range 16).map (fun i => BitVec.ofNat 32 (bigNum ((bs.drop (4 * i)).take 4)))
  let sums := List.zipWith (· + ·) (shaPrimes.map (rootFraction 3)) (shaSchedule words).reverse
  let r := sums.foldl shaStep q
  (List.zipWith (· + ·) q.1 r.1, List.zipWith (· + ·) q.2 r.2)

/-- A number of blocks. -/
def shaBlocks : Nat → ShaChains → List Byte → ShaChains
  | 0, q, _ => q
  | n + 1, q, bs => shaBlocks n (shaBlock q bs) (bs.drop 64)

/-- SHA-256: the message, a one bit, zeros and its length in bits, in blocks. -/
def sha256 (m : List Byte) : List Byte :=
  let n := m.length / 64 + if m.length % 64 < 56 then 1 else 2
  let padded := m ++ 0x80 :: bigBytes (64 * n - m.length - 1) (8 * m.length)
  let start := (shaPrimes.take 8).map (rootFraction 2)
  let q := shaBlocks n (start.take 4, start.drop 4) padded
  (q.1 ++ q.2).flatMap (fun w => bigBytes 4 w.toNat)

/-! ### Signatures of RFC 8554 with the parameter sets of R370 -/

/-- An LM-OTS type: `w`, `p` and `ls`. -/
def otsParam (t : Nat) : Option (Nat × Nat × Nat) :=
  match t with
  | 1 => some (1, 265, 7)
  | 2 => some (2, 133, 6)
  | 3 => some (4, 67, 4)
  | 4 => some (8, 34, 0)
  | _ => none

/-- An LMS type: its height. -/
def lmsParam (t : Nat) : Option Nat :=
  match t with
  | 5 => some 5
  | 6 => some 10
  | 7 => some 15
  | 8 => some 20
  | 9 => some 25
  | _ => none

/-- `coef` of RFC 8554. -/
def lmsCoef (w : Nat) (s : List Byte) (i : Nat) : Nat :=
  (s.getD (i * w / 8) 0).toNat / 2 ^ (8 - (w * (i % (8 / w)) + w)) % 2 ^ w

/-- The digits of a message hash with its checksum. -/
def lmsDigits (w p ls : Nat) (q : List Byte) : List Nat :=
  let sum := (List.range (256 / w)).foldl (fun n i => n + (2 ^ w - 1 - lmsCoef w q i)) 0
  (List.range p).map (lmsCoef w (q ++ bigBytes 2 (sum * 2 ^ ls % 65536)))

/-- The end of a hash chain of digit index `i`, from step `j` for a number of steps. -/
def lmsChain (id : List Byte) (q i : Nat) : Nat → Nat → List Byte → List Byte
  | 0, _, x => x
  | n + 1, j, x => lmsChain id q i n (j + 1) (sha256 (id ++ bigBytes 4 q ++ bigBytes 2 i ++ bigBytes 1 j ++ x))

/-- A parsed LMS signature. -/
structure LmsSig where
  q : Nat
  ots : Nat
  c : List Byte
  y : List Byte
  lms : Nat
  path : List Byte
  deriving DecidableEq, Repr

/-- The LM-OTS public key that a signature gives a message (RFC 8554 algorithm 4b). -/
def lmsLeaf (id : List Byte) (g : LmsSig) (w p ls : Nat) (m : List Byte) : List Byte :=
  let q := sha256 (id ++ bigBytes 4 g.q ++ [0x81, 0x81] ++ g.c ++ m)
  let z := (lmsDigits w p ls q).zipIdx.flatMap (fun x =>
    lmsChain id g.q x.2 (2 ^ w - 1 - x.1) x.1 ((g.y.drop (32 * x.2)).take 32))
  sha256 (id ++ bigBytes 4 g.q ++ [0x80, 0x80] ++ z)

/-- The root that a node and the rest of its path give. -/
def lmsRoot (id : List Byte) : Nat → Nat → List Byte → List Byte → List Byte
  | 0, _, _, x => x
  | n + 1, r, path, x =>
    let y := path.take 32
    lmsRoot id n (r / 2) (path.drop 32)
      (sha256 (id ++ bigBytes 4 (r / 2) ++ [0x83, 0x83] ++ (if r % 2 = 1 then y ++ x else x ++ y)))

/-- The types of an LMS public key of 56 bytes: LMS, LM-OTS. -/
def lmsKeyTypes (k : List Byte) : Nat × Nat := (bigNum (k.take 4), bigNum ((k.drop 4).take 4))

/-- Both types of a key are among those of R370. -/
def lmsKeyOk (k : List Byte) : Bool :=
  (lmsParam (lmsKeyTypes k).1).isSome && (otsParam (lmsKeyTypes k).2).isSome

/-- An LMS signature of a message holds under a public key (RFC 8554 algorithm 6). -/
def lmsOk (k : List Byte) (g : LmsSig) (m : List Byte) : Bool :=
  match lmsParam g.lms, otsParam g.ots with
  | some h, some (w, p, ls) =>
    let id := (k.drop 8).take 16
    let r := 2 ^ h + g.q
    lmsKeyTypes k == (g.lms, g.ots) && decide (g.q < 2 ^ h)
      && lmsRoot id h r g.path (sha256 (id ++ bigBytes 4 r ++ [0x82, 0x82] ++ lmsLeaf id g w p ls m))
        == (k.drop 24).take 32
  | some _, none => false
  | none, _ => false

/-- A reader of bytes that carries a state: bytes taken, or a failure. -/
abbrev Reader (σ ε : Type) := σ → Nat → Except ε (List Byte × σ)

/-- An LMS signature read: its length follows from its types; none for a type outside R370. -/
def readLms {σ ε : Type} (rd : Reader σ ε) (s : σ) : Except ε (Option LmsSig × σ) := do
  let (h, s) ← rd s 8
  let ots := bigNum (h.drop 4)
  match otsParam ots with
  | none => .ok (none, s)
  | some (_, p, _) =>
    let (b, s) ← rd s (32 * (p + 1))
    let (t, s) ← rd s 4
    match lmsParam (bigNum t) with
    | none => .ok (none, s)
    | some n =>
      let (path, s) ← rd s (32 * n)
      .ok (some { q := bigNum (h.take 4), ots := ots, c := b.take 32, y := b.drop 32, lms := bigNum t, path := path }, s)

/-- The levels of an HSS signature from one public key down to the message: 0 valid, 1 invalid, 2 unsupported. -/
def hssLevels {σ ε : Type} (rd : Reader σ ε) (m : List Byte) : Nat → List Byte → σ → Except ε (Nat × σ)
  | 0, _, s => .ok (1, s)
  | n + 1, k, s => do
    let (g, s) ← readLms rd s
    match g with
    | none => .ok (2, s)
    | some g =>
      if n = 0 then .ok (if lmsOk k g m then 0 else 1, s)
      else
        let (d, s) ← rd s 56
        if !lmsKeyOk d then .ok (2, s)
        else
          let (st, s) ← hssLevels rd m n d s
          .ok (if st = 0 && !lmsOk k g d then 1 else st, s)

/-- The verification of an HSS signature under a public key of 60 bytes (R370): 0 valid, 1 signature invalid, 2 parameter
set unsupported, 3 malformed. -/
def hssVerify {σ ε : Type} (rd : Reader σ ε) (pub m : List Byte) (s : σ) : Except ε (Nat × σ) := do
  let n := bigNum (pub.take 4)
  if n = 0 ∨ 3 < n ∨ !lmsKeyOk (pub.drop 4) then .ok (2, s)
  else
    let (k, s) ← rd s 4
    if bigNum k + 1 ≠ n then .ok (3, s) else hssLevels rd m n (pub.drop 4) s

/-- A reader of a list of bytes, which fails at its end. -/
def listReader : Reader (List Byte) Unit := fun bs n => if bs.length < n then .error () else .ok (bs.take n, bs.drop n)

end Sys2Proof.Machine
end

