-- ==== Sys2Proof/Machine/Security.lean ====
section
/-!
DEFINITION. The machine-level instructions (R316): fuses and lifecycle (R364, R365), signatures and debug tokens (R370,
R377, R378), keys (R374) and measurements (R372).
-/
namespace Sys2Proof.Machine

/-! ### Fuses and measurements -/

/-- A word of the fuse array; an unprogrammed one reads 0 (R316, R364). -/
def Device.fuse (d : Device) (n : Nat) : Word := get 0 n d.fuses

/-- A word as it was latched at the last cold start (R366). -/
def Device.latch (d : Device) (n : Nat) : Word := get 0 n d.latched

/-- The lifecycle code that a word 0 gives, highest rule first (R365). -/
def lifecycleOf (w : Word) : Nat :=
  if w.getLsbD 3 then 4 else if w.getLsbD 2 then 3 else if w.getLsbD 1 then 2 else if w.getLsbD 0 then 1 else 0

/-- The device's lifecycle code, decoded from the latched fuses (R365, R366). -/
def Device.lifecycle (d : Device) : Nat := lifecycleOf (d.latch 0)

/-- Bytes of latched fuse words. -/
def Device.latchBytes (d : Device) (n k : Nat) : List Byte :=
  (List.range k).flatMap (fun i => bytesOf 8 (d.latch (n + i)).toNat)

/-- The non-revoked vendor root whose hash a public key has (R364, R367). -/
def Device.rootOf (d : Device) (pub : List Byte) : Option Nat :=
  (List.range 2).find? (fun r => sha256 pub == d.latchBytes (4 + 4 * r) 4 && !(d.latch 12).getLsbD r)

/-- The number of 1 bits in a word. -/
def onesOf (w : Word) : Nat := ((List.range 64).filter (fun i => w.getLsbD i)).length

/-- A measurement register (R372). -/
def Device.meas (d : Device) (k : Nat) : BitVec 256 := get 0 k d.m

/-- A measurement register extended with bytes (R316, R372). -/
def Device.extend (d : Device) (k : Nat) (bs : List Byte) : Device :=
  { d with m := set 0 k (BitVec.ofNat 256 (numOf (sha256 (bytesOf 32 (d.meas k).toNat ++ sha256 bs)))) d.m }

/-! ### Operands in memory -/

/-- Bytes loaded as a group's loads, or what the first that cannot be loaded meets: a fault, or an owned line (R91, R100,
R317). -/
def State.readBytes (a : Agent) : State → Word → Nat → Except Stop (List Byte × State)
  | s, _, 0 => .ok ([], s)
  | s, va, n + 1 =>
    match s.probe a .read true va, s.ownedAmong a .read [va] with
    | some f, _ => .error (.fault f va)
    | none, l :: _ => .error (.wait l)
    | none, [] =>
      let r := s.gload a va 1
      match State.readBytes a r.2 (va + 1) n with
      | .error f => .error f
      | .ok q => .ok (BitVec.ofNat 8 r.1 :: q.1, q.2)

/-- A reader of the bytes of memory from an address on. -/
def memReader (a : Agent) : Reader (Word × State) Stop := fun p n =>
  match State.readBytes a p.2 p.1 n with
  | .error f => .error f
  | .ok q => .ok (q.1, p.1 + BitVec.ofNat 64 n, q.2)

/-- What an instruction comes to whose memory operand cannot be loaded now. -/
def Env.stopped (e : Env) (x : Stop) : Res :=
  match x with
  | .fault f _ => e.fault f.1 f.2
  | .wait l => .park (.owned [l])
  | .fill _ _ => .again

/-! ### The instructions -/

/-- `FUSERD` (R316). -/
def execFuserd (g : Guard) (d : SReg) (n : BitVec 8) (s : State) : Host.Outcome State Fault Refusal :=
  .next (s.run { g := g, level := .machine, once := true } fun e s =>
    .go (e.once s (fun s => e.onGroup s (fun gr => gr.setS d.toNat (s.dev.fuse n.toNat)))))

/-- A debug token that is malformed (R377). -/
def tokenBad (m : List Byte) : Bool :=
  m.length != 64 || numOf (m.take 4) != 0x4E4B4F54 || m.getD 4 0 != 1 || ((m.drop 6).take 2).any (· != 0)
    || (m.drop 24).any (· != 0)

/-- What `.TOKEN` adds to a valid signature: the root, the token's form, and what it is bound to (R316, R377). -/
def Device.tokenStatus (d : Device) (pub m : List Byte) : Nat :=
  if (d.rootOf pub).isNone then 4
  else if tokenBad m then 3
  else if (m.getD 5 0).toNat ≠ d.lifecycle ∨ (m.drop 8).take 16 ≠ d.latchBytes 1 2 then 5
  else 0

/-- The status of `LMSVER` over its operands, with the message (R316, R370, R377). -/
def State.lmsStatus (s : State) (a : Agent) (token : Bool) (pk sg msg : Word) (n : Nat) :
    Except Stop ((Nat × List Byte) × State) := do
  if n = 0 ∨ 2 ^ 32 ≤ n then .ok ((3, []), s)
  else
    let (pub, s) ← State.readBytes a s pk 60
    let (m, s) ← State.readBytes a s msg n
    let (st, p) ← hssVerify (memReader a) pub m (sg, s)
    .ok ((if token && st == 0 then s.dev.tokenStatus pub m else st, m), p.2)

/-- `LMSVER` (R316): `.TOKEN` arms the unlock with status 0, and clears the arming with any other (R378). -/
def execLmsver (g : Guard) (ll : Ll) (token : Bool) (d a b : SReg) (s : State) : Host.Outcome State Fault Refusal :=
  .next (s.run { g := g, level := .machine, ll := some ll, mem := true, acc := true, once := true } fun e s =>
    let gr := e.group s
    let n := (gr.sreg (b.toNat + 2)).toNat
    if e.act = 0 then .go s
    else
      match s.lmsStatus e.agent token (gr.sreg a.toNat) (gr.sreg b.toNat) (gr.sreg (b.toNat + 1)) n with
      | .error x => e.stopped x
      | .ok (r, s1) =>
        let s2 := if token
          then s1.onDev (fun v => { v with armed := if r.1 = 0 then some (BitVec.ofNat 512 (numOf r.2)) else none })
          else s1
        .go (e.begin s2 ll { Pend.zero with sw := [(d.toNat, BitVec.ofNat 64 r.1)] }))

/-- A tenant key pair erased, wherever the machine keeps it (R374). -/
def State.eraseKey (s : State) (c : Nat) : State :=
  match (s.ctx c).key with
  | none => s
  | some k =>
    let ctxs := s.ctxs.map (fun (e : Nat × Ctx) => if e.2.key = some k then (e.1, { e.2 with key := none }) else e)
    { s with ctxs := ctxs }.onDev (fun d => { d with erased := put k () d.erased })

/-- Every tenant key pair erased (R316, R366, R376). -/
def State.eraseKeys (s : State) : State := (keys s.ctxs).foldl State.eraseKey s

/-- `KWIPE` (R316, R374). -/
def execKwipe (g : Guard) (d : SReg) (a : Option SReg) (s : State) : Host.Outcome State Fault Refusal :=
  .next (s.run { g := g, level := .machine, once := true } fun e s =>
    .go (e.once s (fun s =>
      match a with
      | none => e.onGroup s.eraseKeys (fun gr => gr.setS d.toNat 0)
      | some r =>
        let c := bits ((e.group s).sreg r.toNat) 0 10
        if (s.ctx c).st = .free then e.onGroup (s.eraseKey c) (fun gr => gr.setS d.toNat 0)
        else e.onGroup s (fun gr => gr.setS d.toNat 1))))

/-- `MEASURE.EXT` (R316, R372). -/
def execMeasureExt (g : Guard) (ll : Ll) (d : SReg) (m : BitVec 3) (b : SReg) (s : State) :
    Host.Outcome State Fault Refusal :=
  .next (s.run { g := g, level := .machine, ll := some ll, mem := true, acc := true, once := true } fun e s =>
    let gr := e.group s
    let n := (gr.sreg (b.toNat + 1)).toNat
    if n = 0 ∨ 2 ^ 32 ≤ n then e.fault .illegalOperand 0
    else if e.act = 0 then .go s
    else
      match State.readBytes e.agent s (gr.sreg b.toNat) n with
      | .error x => e.stopped x
      | .ok (bs, s1) =>
        .go (e.begin (s1.onDev (fun v => v.extend m.toNat bs)) ll { Pend.zero with sw := [(d.toNat, 0)] }))

/-- `MEASURE.RD` (R316, R372). -/
def execMeasureRd (g : Guard) (ll : Ll) (d : SReg) (m : BitVec 3) (b : SReg) (s : State) :
    Host.Outcome State Fault Refusal :=
  .next (s.run { g := g, level := .machine, ll := some ll, mem := true, acc := true, once := true } fun e s =>
    let va := (e.group s).sreg b.toNat
    let at_ (k : Nat) : Word := va + BitVec.ofNat 64 k
    if e.act = 0 then .go s
    else
      match (List.range 32).findSome? (fun k => s.probe e.agent .write false (at_ k)) with
      | some f => e.fault f.1 f.2
      | none =>
        match s.ownedAmong e.agent .write ((List.range 32).map at_) with
        | l :: ls => .park (.owned (l :: ls))
        | [] =>
          let v := (s.dev.meas m.toNat).toNat
          let s1 := (List.range 32).foldl (fun s k => s.gstore e.agent (at_ k) 1 (v / 256 ^ k % 256)) s
          .go (e.begin s1 ll { Pend.zero with sw := [(d.toNat, 0)] }))

/-- A tenant key pair exists. -/
def State.anyKey (s : State) : Bool := s.ctxs.any (fun e => e.2.key.isSome)

/-- What `DBGOPEN` answers (R316, R378). -/
def State.dbgStatus (s : State) : Nat :=
  if s.dev.lifecycle = 0 ∨ s.dev.lifecycle = 4 then 3
  else if s.dev.armed.isNone then 1
  else if s.anyKey then 2
  else 0

/-- `DBGOPEN` (R316, R378): the arming is cleared whatever it answers. -/
def execDbgopen (g : Guard) (d : SReg) (s : State) : Host.Outcome State Fault Refusal :=
  .next (s.run { g := g, level := .machine, once := true } fun e s =>
    .go (e.once s (fun s =>
      let st := s.dbgStatus
      let token := bytesOf 64 (s.dev.armed.getD 0).toNat
      let s := s.onDev (fun v =>
        if st = 0 then { (v.extend 7 token) with jtag := true, armed := none } else { v with armed := none })
      e.onGroup s (fun gr => gr.setS d.toNat (BitVec.ofNat 64 st)))))

end Sys2Proof.Machine
end

