-- ==== Sys2Proof/Machine/Start.lean ====
section
/-!
DEFINITION. Starts, reduced service and the transition to full service (R363-R369), attestation (R371-R373), security
alarms (R376), fuse programming (R364) and the loss of power (R371).
-/
namespace Sys2Proof.Machine

/-! ### What survives (R364, R368, R371, R374) -/

/-- Key generations that nobody holds after every tenant key and the platform key are gone. -/
def State.lostKeys (s : State) : SMap Unit :=
  let ks := s.dev.platform :: s.ctxs.filterMap (fun e => e.2.key)
  (ks.filter (· != 0)).foldl (fun m k => put k () m) s.dev.erased

/-- The device with only its fuses, its on-package storage and the datum. -/
def Device.stored (d : Device) : Device :=
  { Device.reset with
    datum := d.datum, fuses := d.fuses, starts := d.starts, identity := d.identity, nextIndex := d.nextIndex
    keygen := d.keygen, erased := d.erased, log := d.log, alarms := d.alarms, reports := d.reports, watts := d.watts
    badBlocks := d.badBlocks, ignored := d.ignored, sensors := d.sensors, throttle := if d.throttle = 3 then 3 else 0 }

/-- A line with its clocks reset: poison and key stay (R96, R366). -/
def Line.cleared (x : Line) : Line := { x with wts := 0, rts := 0, sharers := [] }

/-- The machine with every cache empty, every timestamp 0 and nothing running: memory, and what the device stores, stay. What it
holds of the pool beyond what that has stands until `FENCE` is read (R363). -/
def State.cleared (s : State) : State :=
  { State.reset with
    mem := s.mem, lines := s.lines.filterMap (fun e =>
      if e.2.cleared = Line.at 0 then none else some (e.1, e.2.cleared))
    homeOld := s.homeOld, frameOld := s.frameOld, dev := s.dev.stored, fresh := s.fresh }

/-- The rails are off: volatile state, with what caches held of the pool, and device memory are lost; fuses, the start counter, the identity key and its
index stand (R368, R371). -/
def State.rails (s : State) : State :=
  let t := s.discardAll.cleared
  { t with
    mem := t.mem.filter (fun e => decide (2 ^ 60 ≤ e.1)), lines := t.lines.filter (fun e => decide (2 ^ 54 ≤ e.1))
    dev := { t.dev with erased := s.lostKeys } }

/-- `POWER_FAILURE` (R371). -/
def execPowerFailure (s : State) : Host.Outcome State Fault Refusal := .next s.rails

/-! ### Images (R367) -/

/-- A firmware image taken apart: security version, header and body, public key, signature. -/
structure Firmware where
  svn : Nat
  signed : List Byte
  pub : List Byte
  sig : List Byte
  deriving DecidableEq, Repr

/-- The parts of an image, if its header is one. -/
def firmwareOf (bs : List Byte) : Option Firmware :=
  let len := numOf ((bs.drop 8).take 4)
  if bs.length < 64 + len + 60 ∨ numOf (bs.take 4) ≠ 0x57464B48 ∨ ((bs.drop 12).take 52).any (· != 0) then none
  else
    some { svn := numOf ((bs.drop 4).take 4), signed := bs.take (64 + len), pub := (bs.drop (64 + len)).take 60
           sig := bs.drop (124 + len) }

/-- The boot ROM's verification: the root that vouches for an image, if it accepts it (R367). -/
def Device.accepts (d : Device) (recovery : Bool) (f : Firmware) : Option Nat :=
  match d.rootOf f.pub with
  | none => none
  | some r =>
    match hssVerify listReader f.pub f.signed f.sig with
    | .error _ => none
    | .ok (st, _) => if st = 0 ∧ (recovery = true ∨ onesOf (d.latch 3) ≤ f.svn) then some r else none

/-- The record that M0 is extended with (R370). -/
def startRecord (lc root : Nat) (warm recovery : Bool) (svn : Nat) : List Byte :=
  [BitVec.ofNat 8 lc, BitVec.ofNat 8 root, if warm then 1 else 0, if recovery then 1 else 0] ++ bytesOf 4 svn ++ bytesOf 8 0

/-! ### Starts (R366-R369) -/

/-- The JTAG port is open at start in a lifecycle state (R365). -/
def openAtStart (lc : Nat) : Bool := lc == 0 || lc == 1 || lc == 3

/-- The partition of reduced service (R369). -/
def reducedClusters : List Nat := [0, 12, 24, 36, 48, 60, 72, 84]

/-- A partition that has run nothing. -/
def Part.new (clusters : List Nat) : Part :=
  { clusters := clusters, running := none, next := none, began := 0, halting := false, swapping := false, deciding := false,
    halted := false, waits := false }

/-- Thirty seconds in datum ticks (R368, R379). -/
def startDeadline : Nat := 42000000000

/-- A core of the reduced partition at 0.7 GHz (R369). -/
def State.slowCores (s : State) : State :=
  (reducedClusters.flatMap (fun cl => (List.range 8).map (· + 8 * cl))).foldl (fun s c =>
    s.onCore c (fun k => { k with khz := 700000 })) s

/-- The first step of a start that fails, of steps 3 to 6 (R368). -/
def startFailure (x : StartIn) (warm : Bool) (verified : Bool) : Option Nat :=
  if !verified then some 3
  else if !warm && !(x.testOk && x.testRestOk) then some 4
  else if !x.gddrOk then some 5
  else if x.portsUp != 15 then some 6
  else none

/-- Step 2: measurements cleared, the port as the lifecycle has it, the start counter advanced and the image chosen (R365,
R366, R368). -/
def Device.bootRom (d : Device) (warm : Bool) : Device :=
  let lc := d.lifecycle
  let d := { d with
    m := [], warm := warm, recovery := decide (3 ≤ d.starts), starts := d.starts + 1, jtag := openAtStart lc
    identity := d.identity || lc == 1, deadline := d.datum + startDeadline, service := .starting }
  if openAtStart lc then d.extend 7 (bytesOf 8 lc) else d

/-- Step 3: the image is verified, and M0, M1 and M2 extended (R367, R370, R372). -/
def Device.boot (d : Device) (x : StartIn) : Option Device :=
  match firmwareOf (if d.recovery then x.recovery else x.primary) with
  | none => none
  | some f =>
    match d.accepts d.recovery f with
    | none => none
    | some r =>
      let d := ((d.extend 0 (startRecord d.lifecycle r d.warm d.recovery f.svn)).extend 1 f.signed).extend 2 x.mgmt
      some { d with svn := f.svn }

/-- Ports as link training leaves them (R356). -/
def trainedPorts (up : BitVec 4) : SMap Port :=
  (List.range 4).map (fun p => (p, { Port.down with up := up.getLsbD p }))

/-- Steps 2 to 7 of a start, from a cleared machine (R366). The steps after a failure are not taken. -/
def State.start (s : State) (x : StartIn) (warm : Bool) : State :=
  let d := s.dev.bootRom warm
  let boot := if d.lifecycle = 0 ∨ d.lifecycle = 4 then none else d.boot x
  match startFailure x warm boot.isSome with
  | some k => { s with dev := { (boot.getD d) with service := .failed k, deadline := 0 } }
  | none =>
    let d := boot.getD d
    let k := d.keygen + 1
    let reduced := !warm || x.retrain
    let d := { d with
      platform := k, keygen := k, service := if reduced then .reduced else .normal, trained := !reduced, tested := true }
    let s := { s with dev := d, ports := trainedPorts x.portsUp
                      parts := if reduced then [(0, Part.new reducedClusters)] else [] }
    if reduced then s.slowCores else s

/-- A thermal shutdown keeps the module off: some junction has not been read below 60 degrees since (R398). -/
def Device.tooHot (d : Device) : Bool :=
  d.throttle == 3 && (match d.sensors with
    | some x => x.junction.any (fun j => decide (60 ≤ j))
    | none => true)

/-- `COLD_START` (R366): fuses latched, every key gone, then steps 2 to 7. A retired device stops after fuse sense (R365). -/
def execColdStart (x : StartIn) (s : State) : Host.Outcome State Fault Refusal :=
  .next (
    if s.dev.tooHot then s else
    let t := s.discardAll.cleared
    let t := { t with dev := { t.dev with latched := t.dev.fuses, erased := s.lostKeys, throttle := 0 } }
    if t.dev.lifecycle = 4 then { t with dev := { t.dev with service := .failed 1 } } else t.start x false)

/-- A slot that a warm start has freed: its key stays (R366, R374). -/
def Ctx.closed (x : Ctx) : Ctx :=
  { Ctx.free with gen := if x.st = .free then x.gen else x.gen + 1, key := x.key }

/-- `WARM_START` (R366): caches emptied, timestamps 0, every slot freed; tenant keys and latched fuses stand. -/
def execWarmStart (x : StartIn) (s : State) : Host.Outcome State Fault Refusal :=
  .next (
    if s.dev.service = .off ∨ s.dev.lifecycle = 4 then s
    else
      let t := s.cleared
      let ctxs := s.ctxs.filterMap (fun e =>
        if 1024 ≤ e.1 ∨ e.2.closed = Ctx.free then none else some (e.1, e.2.closed))
      let gone := if s.dev.platform = 0 then s.dev.erased else put s.dev.platform () s.dev.erased
      { t with ctxs := ctxs, dev := { t.dev with latched := s.dev.latched, erased := gone } }.start x true)

/-- The memory configuration record keeps the limits of R352. -/
def configOk (r : BitVec 512) : Bool :=
  let f (lo n : Nat) : Nat := (r.extractLsb' lo n).toNat
  decide (f 0 8 ≤ 176) && f 8 8 == 0 && decide (100 ≤ f 16 16) && f 32 32 == 0 && f 64 64 % 2 ^ 30 == 0
    && decide (1 ≤ f 128 32) && decide (f 128 32 ≤ 65536) && f 160 32 == 0 && f 192 64 % 256 == 0 && f 256 64 % 4096 == 0
    && f 394 6 == 0 && f 410 6 == 0 && f 426 6 == 0 && f 442 6 == 0 && f 448 64 % 2 ^ 30 == 0

/-- A start fails (R368): nothing of it runs on. -/
def State.failStart (s : State) (step : Nat) : State :=
  { s.onDev (fun d => { d with service := .failed step, deadline := 0 }) with
    parts := s.parts.map (fun p => (p.1, { p.2 with halted := true })) }

/-- `FENCE` as a start finds it (R363). -/
def State.joinPool (s : State) : State :=
  let f := s.poolRead (s.beatAddr 3)
  let s := s.onDev (fun d => { d with
    beat := d.datum, hostbeat := BitVec.ofNat 64 (s.poolRead (s.beatAddr 0)), same := 0, recovered := 0 })
  if f % 256 = 1 then s.writeBackAll.onDev (fun d => { d with fenced := true })
  else
    let s := if f % 256 = 2 then (s.discardAll.poolWrite (s.beatAddr 3) 0).poolWrite (s.beatAddr 4) ((f / 256 + 1) % 2 ^ 64)
      else s.writeBackAll
    s.unfence

/-- The limits of a control team, whose code is of version 3 (R215, R334). -/
def Header.controlFits (h : Header) : Bool :=
  h.ver == 3 && h.groups == 1 && decide (h.width ≤ 32) && h.roles.all (fun r => decide (r.vcnt ≤ 64)) && decide (h.scratch ≤ 16384)
    && h.accn == 0

/-- A control context with its team on the core that R334 gives it; a kernel that breaks the limits is not placed. -/
def State.startControl (s : State) (p : Part) (x : ControlIn) : State :=
  let s := (s.onCtx x.slot (fun y => { y with
    st := .running, ctrl := true, part := x.part, ptroot := x.ptroot, savea := x.savea, bindt := x.bindt })).writeDesc x.slot
  match s.kernelAt (s.deviceAgent x.slot) x.slot x.code with
  | none => s
  | some hb =>
    let h := parseHeader hb
    if !(hdrForm hb && versionOk h.ver && h.bounds && h.controlFits) then s
    else
      let r := BitVec.ofNat 1024 (x.code.toNat + x.param.toNat * 2 ^ 64 + x.replay.toNat * 2 ^ 128 + 2 ^ 192)
      let g : Grid :=
        { ctx := x.slot, part := x.part, from_ := x.slot, team := 0, grp := 0, dc := none, record := r, code := x.code, hdr := h
          teams := 1, next := 1, gangs := 1, live := 1, queued := false }
      let id := freeKey s.grids
      let t := freeKey s.teams
      let s := { s with grids := put id g s.grids }.startTeam id g 0 0 0 1 p.controlCore
      if x.machine then s.onTeam t (fun t => { t with groups := t.groups.map (fun g => (g.1, { g.2 with level := .machine })) })
      else s

/-- The control contexts of the partitions that stand, unless they run already. -/
def State.startControls (s : State) (xs : List ControlIn) : State :=
  xs.foldl (fun s x => match find x.part s.parts with
    | none => s
    | some p => if (s.ctx x.slot).st = .running then s else s.startControl p x) s

/-- Partitions from lists of clusters (R331). -/
def partsOf (cs : List (List Nat)) : SMap Part := cs.zipIdx.map (fun (x : List Nat × Nat) => (x.2, Part.new x.1))

/-- Partitions are disjoint sets of 1 to 96 clusters of the device (R331). -/
def partsOk (cs : List (List Nat)) : Bool :=
  cs.all (fun c => !c.isEmpty && c.all (fun k => decide (k < Config.clusters))) && cs.flatten.eraseDups.length == cs.flatten.length

/-- The `SVN` fuses after primary firmware has reported a version: lowest bits first, up to the version or 64 (R365). -/
def svnWord (w : Word) (v : Nat) : Word :=
  (List.range 64).foldl (fun (w : Word) i => if onesOf w < Nat.min v 64 ∧ w.getLsbD i = false then w ||| laneBit i else w) w

/-- Words that firmware has stored in device memory, under the platform key (R375). -/
def State.firmwareStores (s : State) (xs : List (Nat × Word)) : State :=
  xs.foldl (fun s x => s.deviceStore (backing 0 (x.1 / 8 * 8)) 8 x.2.toNat) s

/-- The trace control blocks as a start leaves them: zero, and read (R380). -/
def State.startTraces (s : State) : State :=
  let s := (List.range 8).foldl (fun s d => (List.range 16).foldl (fun s k =>
    s.plainWrite s.dev.platform (backing 0 (Config.traceBlock d + 8 * k)) 8 0) s) s
  { s with traces := (List.range 8).map (fun d => (d, { Trace.zero with read := s.dev.datum })) }

/-- `START_COMPLETE` (R365, R366 step 8): configuration into M3 and M4, `SVN` fuses, the start counter 0, the context
table, the pool joined, and the control contexts of the partitions there are. -/
def execStartComplete (x : CompleteIn) (s : State) : Host.Outcome State Fault Refusal :=
  .next (
    if s.dev.deadline = 0 then s
    else if !configOk x.record || !partsOk x.parts then s.failStart 8
    else
      let s := s.onDev (fun d =>
        let d := (d.extend 3 (bytesOf 64 x.record.toNat)).extend 4 x.measured
        { d with
          config := x.record, deadline := 0, starts := 0, ctxTable := some x.ctxTable, plan := x.parts, controls := x.controls
          fuses := if d.recovery then d.fuses else set 0 3 (svnWord (d.fuse 3) x.svn) d.fuses })
      let s := if s.dev.service = .normal then { s with parts := partsOf x.parts } else s
      ((s.startTraces.firmwareStores x.stores).joinPool).startControls x.controls)

/-- `START_TIMEOUT` (R368). -/
def execStartTimeout (s : State) : Host.Outcome State Fault Refusal :=
  .next (if s.dev.deadline ≠ 0 ∧ s.dev.deadline ≤ s.dev.datum then s.failStart 2 else s)

/-- `GDDR7_TRAINING_COMPLETE` (R369): device memory is there. -/
def execGddr7TrainingComplete (s : State) : Host.Outcome State Fault Refusal :=
  .next (if s.dev.service = .reduced then s.onDev (fun d => { d with trained := true }) else s)

/-- Every context is at its boundaries, as for pre-emption (R337, R369). -/
def State.allAtBoundaries (s : State) : Bool := (keys s.ctxs).all (fun c => s.atBoundaries c)

/-- A core's arithmetic clock changes, with its record (R381, R397). -/
def State.setClock (s : State) (core khz : Nat) : State :=
  let old := (s.core core).khz
  if old = khz then s
  else
    (s.onCore core (fun k => { k with khz := khz })).emit 0 core 0x3FF 2 0 (old + khz * 2 ^ 32) s.dev.datum 0

/-- A context halted for the transition: tenants leave the cores, and control teams go to the core of their partition. -/
def State.reseat (s : State) : State :=
  let s := (keys s.ctxs).foldl (fun s c => (s.leaveUnits c).parkAll c) s
  let s := s.ctxs.foldl (fun s e =>
    if e.2.ctrl || e.2.st != .running then s else (s.unseat e.1).setCtxSt e.1 .shadowed) s
  s.ctxs.foldl (fun s e =>
    match find e.2.part s.parts with
    | none => s
    | some p =>
      if e.2.ctrl then
        (s.teamsOf e.1).foldl (fun s t => (s.returnTeam t.1 p.controlCore (t.2.groups.foldl (fun m g => Nat.max m g.2.gts) 0))) s
          |>.resumeAll e.1
      else s) s

/-- `FULL_SERVICE_TRANSITION` (R369): self-test and training are done; contexts halt, the partitions are configured, and
everything resumes at full clock. -/
def execFullServiceTransition (s : State) : Host.Outcome State Fault Refusal :=
  .next (
    if s.dev.service ≠ .reduced ∨ s.dev.deadline ≠ 0 ∨ s.dev.trained = false ∨ s.dev.tested = false
        ∨ s.allAtBoundaries = false then s
    else
      let s := { s with parts := partsOf s.dev.plan }.reseat
      let s := (keys s.cores).foldl (fun s c => s.setClock c 1400000) s
      let s := s.onDev (fun d => { d with service := .normal })
      let s := s.startControls s.dev.controls
      { s with agenda := s.agenda ++ (keys s.parts).map (fun p => Instr.schedulerDecision p) })

/-! ### Attestation (R371, R373) -/

/-- The report before its signature (R373). -/
def Device.report (d : Device) (q : Nat) (nonce : BitVec 256) : List Byte :=
  bytesOf 4 0x54505241 ++ [1, BitVec.ofNat 8 d.lifecycle, if d.recovery then 1 else 0, if d.warm then 1 else 0]
    ++ d.latchBytes 1 2 ++ bytesOf 4 (onesOf (d.fuse 3)) ++ bytesOf 4 q ++ bytesOf 32 nonce.toNat
    ++ (List.range 8).flatMap (fun k => bytesOf 32 (d.meas k).toNat) ++ bytesOf 8 d.datum
    ++ bytesOf 8 ((if d.jtag then 1 else 0) + (if d.armed.isSome then 2 else 0) + (if d.service = .reduced then 4 else 0))

/-- The identity-key signature with an index over bytes: 5,076 bytes that the private seed decides (R371; entry 16). -/
def identitySignature (q : Nat) (bs : List Byte) : List Byte := (List.range 5076).map (fun k => Config.sign q bs k)

/-- `ATTESTATION_REPORT` (R373): a status, and with status 0 the signed report; the index is spent first (R371). -/
def execAttestationReport (nonce : BitVec 256) (s : State) : Host.Outcome State Fault Refusal :=
  .next (s.onDev (fun d =>
    if d.lifecycle = 0 ∨ d.lifecycle = 4 then { d with reports := d.reports ++ [[1]] }
    else if 1048576 ≤ d.nextIndex ∨ d.identity = false then { d with reports := d.reports ++ [[2]] }
    else
      let r := d.report d.nextIndex nonce
      { d with nextIndex := d.nextIndex + 1, reports := d.reports ++ [0 :: (r ++ identitySignature d.nextIndex r)] }))

/-! ### Alarms and fuses (R364, R376) -/

/-- A level-1 alarm: sensor and datum are logged. -/
def State.logAlarm (s : State) (level sensor : Nat) : State :=
  s.onDev (fun d => { d with alarms := d.alarms ++ [(level, sensor, d.datum)] })

/-- `SECURITY_ALARM_1` (R376). -/
def execSecurityAlarm1 (sensor : Nat) (s : State) : Host.Outcome State Fault Refusal := .next (s.logAlarm 1 sensor)

/-- `SECURITY_ALARM_2` (R376). -/
def execSecurityAlarm2 (sensor : Nat) (s : State) : Host.Outcome State Fault Refusal :=
  .next ((s.logAlarm 2 sensor).eraseKeys.haltAll)

/-- `SECURITY_ALARM_3` (R376): also the identity seed goes, the device is retired by fuse, and it halts. -/
def execSecurityAlarm3 (sensor : Nat) (s : State) : Host.Outcome State Fault Refusal :=
  .next (((s.logAlarm 3 sensor).eraseKeys.haltAll).onDev (fun d =>
    { d with identity := false, nextIndex := 1048576, fuses := set 0 0 (d.fuse 0 ||| 8) d.fuses, halted := true }))

/-- `FUSE_PROGRAMMING` (R364): a bit goes to 1 over an open JTAG port, in BLANK or MANUFACTURE. -/
def execFuseProgramming (bit : Nat) (s : State) : Host.Outcome State Fault Refusal :=
  .next (
    if s.dev.jtag = false ∨ 1 < s.dev.lifecycle ∨ 16384 ≤ bit then s
    else s.onDev (fun d => { d with fuses := set 0 (bit / 64) (d.fuse (bit / 64) ||| laneBit (bit % 64)) d.fuses }))

end Sys2Proof.Machine
end

