-- ==== Sys2Proof/Machine/Power.lean ====
section
/-!
DEFINITION. Power, clocks and temperature (R397-R400), the deep power state (R399) and telemetry (R401).
-/
namespace Sys2Proof.Machine

/-! ### The error log (R395) -/

/-- An event of the module is logged. The specification gives no structure, unit or location for it, and for some no
severity: those are free values (entry 8). -/
def State.logModule (s : State) (sev : Option Nat) : State :=
  let w := (Config.word (s.free 0)).toNat
  let loc := (Config.word (s.free 1)).toNat
  { s.onDev (fun d => d.logError (errorRecord (sev.getD w) (w / 4) (w / 2 ^ 10) 0x3FF loc d.datum)) with fresh := s.fresh + 2 }

/-! ### Clocks (R397, R398) -/

/-- Every core's arithmetic clock, from the one it has. -/
def State.setClocks (s : State) (f : Nat → Nat) : State :=
  (List.range Config.cores).foldl (fun s c => s.setClock c (f (s.core c).khz)) s

/-- A rate that normal service can have: 1.0 to 1.4 GHz in steps of 50 MHz. -/
def rateOk (khz : Nat) : Bool := decide (1000000 ≤ khz) && decide (khz ≤ 1400000) && khz % 50000 == 0

/-- `POWER_LIMIT_SET` (R397): steps of 25 W from 1,200 W to 1,500 W. -/
def execPowerLimitSet (watts : Nat) (s : State) : Host.Outcome State Fault Refusal :=
  .next (
    if decide (1200 ≤ watts) && decide (watts ≤ 1500) && watts % 25 == 0 then s.onDev (fun d => { d with watts := watts })
    else s)

/-- The measured load exceeds the limit in force. -/
def Device.overload (d : Device) : Bool :=
  match d.sensors with
  | some x => decide (d.watts < x.watts)
  | none => false

/-- `POWER_THROTTLE` (R397): the clock goes to a rate, never above a thermal hold; a load still over the limit at 1.0 GHz
sets `PWROVER`. -/
def execPowerThrottle (kHz : Nat) (s : State) : Host.Outcome State Fault Refusal :=
  .next (
    if s.dev.service ≠ .normal ∨ s.dev.stopped = true ∨ s.dev.deep = true ∨ rateOk kHz = false then s
    else
      let rate := if s.dev.throttle = 2 then 1000000 else kHz
      let s := s.setClocks (fun _ => rate)
      s.onDev (fun d => { d with pwrover := rate == 1000000 && d.overload }))

/-- The junctions of a reading are at or above a temperature in degrees. -/
def sensorsReach (x : Sensors) (t : Nat) : Bool := x.junction.any (fun j => decide (t ≤ j))

/-- The clock is held at 1.0 GHz: 105 degrees (R398). -/
def State.holdClock (s : State) : State :=
  let s := s.onDev (fun d => { d with throttle := 2 })
  if s.dev.service = .normal then s.setClocks (fun _ => 1000000) else s

/-- `THERMAL_THROTTLE` (R398): above 95 degrees one step lower, from 105 held at 1.0 GHz, and no hold below. -/
def execThermalThrottle (x : Sensors) (s : State) : Host.Outcome State Fault Refusal :=
  .next (
    if sensorsReach x 105 then s.holdClock
    else if sensorsReach x 96 then
      let s := s.onDev (fun d => { d with throttle := 1 })
      if s.dev.service = .normal then s.setClocks (fun k => Nat.max 1000000 (k - 50000)) else s
    else s.onDev (fun d => { d with throttle := 0 }))

/-- `THERMAL_SHUTDOWN` (R398): at 110 degrees every partition halts, the event is logged, and the rails go off. -/
def execThermalShutdown (x : Sensors) (s : State) : Host.Outcome State Fault Refusal :=
  .next (
    if sensorsReach x 110 then
      ((s.haltAll.logModule (some 2)).onDev (fun d => { d with throttle := 3, sensors := some x })).rails
    else s)

/-- `COOLANT_FLOW_LOW` (R400): logged, and treated as a reading of 105 degrees. -/
def execCoolantFlowLow (s : State) : Host.Outcome State Fault Refusal := .next (s.logModule none).holdClock

/-! ### The deep power state and telemetry (R399, R401) -/

/-- `DEEP_POWER_ENTRY` (R399): only when no partition has a runnable context. -/
def execDeepPowerEntry (s : State) : Host.Outcome State Fault Refusal :=
  .next (
    if (s.dev.service = .normal ∨ s.dev.service = .reduced) ∧ s.dev.deep = false ∧ s.dev.stopped = false
        ∧ (keys s.ctxs).any s.runnable = false then
      s.onDev (fun d => { d with deep := true, deepTick := d.datum })
    else s)

/-- `DEEP_POWER_EXIT` (R399), after a number of reference cycles. -/
def execDeepPowerExit (cycles : Nat) (s : State) : Host.Outcome State Fault Refusal := .next (s.exitDeep cycles)

/-- `TELEMETRY_REFRESH` (R401): the management controller's readings. -/
def execTelemetryRefresh (x : Sensors) (s : State) : Host.Outcome State Fault Refusal :=
  .next (s.onDev (fun d => { d with sensors := some x }))

end Sys2Proof.Machine
end

