-- ==== Sys2Proof/Machine/Predicate.lean ====
section
/-!
DEFINITION. Predicates and indirect registers (R238, R239, R53).
-/
namespace Sys2Proof.Machine

/-- `PLOG` (R238). -/
def execPlog (g : Guard) (op : LogOp) (pd pa pb : PReg) (s : State) : Host.Outcome State Fault Refusal :=
  .next (s.vecP g 0 pd (fun gr i => logBool op (gr.preg pa.toNat i) (gr.preg pb.toNat i)))

/-- `PMOV` (R238). -/
def execPmov (g : Guard) (pd pa : PReg) (s : State) : Host.Outcome State Fault Refusal :=
  .next (s.vecP g 0 pd (fun gr i => gr.preg pa.toNat i))

/-- `PMOV.S` (R238). -/
def execPmovS (g : Guard) (pd : PReg) (a : SReg) (s : State) : Host.Outcome State Fault Refusal :=
  .next (s.vecP g 0 pd (fun gr i => (gr.sreg a.toNat).getLsbD i))

/-- `PCNT` (R238). -/
def execPcnt (g : Guard) (d : SReg) (pa : PReg) (s : State) : Host.Outcome State Fault Refusal :=
  .next (s.groupOp g (fun e gr => gr.setS d.toNat
    (BitVec.ofNat 64 (countLanes (maskOf (fun i => e.act.getLsbD i && gr.preg pa.toNat i))))))

/-- The active lanes whose index lies at or beyond the declared count (R53). -/
def Env.beyondN (e : Env) (g : Group) (idx : Reg) : Lanes :=
  maskOf (fun i => e.act.getLsbD i && decide (g.n ≤ (g.reg idx i).toNat))

/-- `RGET` (R239, R53). -/
def execRget (g : Guard) (ll : Ll) (d : VReg) (idx : Reg) (s : State) : Host.Outcome State Fault Refusal :=
  .next (s.run { g := g, top := maxOf [topV d 1, topR idx 1], ll := some ll } fun e s =>
    let gr := e.group s
    let bad := e.beyondN gr idx
    if bad ≠ 0 then .trap { kind := .registerRange, detail := 0, lanes := bad }
    else
      .go (e.begin s ll { Pend.zero with
        vw := vWrites d.toNat e.act (fun i => gr.vreg (gr.reg idx i).toNat i) }))

/-- `RPUT` (R239, R53). -/
def execRput (g : Guard) (idx src : Reg) (s : State) : Host.Outcome State Fault Refusal :=
  .next (s.run { g := g, top := maxOf [topR idx 1, topR src 1] } fun e s =>
    let gr := e.group s
    let bad := e.beyondN gr idx
    if bad ≠ 0 then .trap { kind := .registerRange, detail := 0, lanes := bad }
    else
      .go (e.onGroup s (fun x =>
        (lanesOf e.act).foldl (fun x i => x.setV (gr.reg idx i).toNat i (gr.reg src i)) x)))

end Sys2Proof.Machine
end

