-- ==== Sys2Proof/Machine/Sfu.lean ====
section
/-!
DEFINITION. Special functions (R132, R133, R245): the special inputs, the correctly rounded and exact cases, and the
flags; every other result is free inside its bound (entry 9).
-/
namespace Sys2Proof.Machine

/-- The special functions, in opcode order (R245). -/
inductive Fn where
  | rcp | rsq | sqrt | exp2 | log2 | sin | cos | tanh
  deriving DecidableEq, Repr

/-- The number that names a function to the free value. -/
def Fn.code : Fn → Nat
  | .rcp => 0 | .rsq => 1 | .sqrt => 2 | .exp2 => 3 | .log2 => 4 | .sin => 5 | .cos => 6 | .tanh => 7

/-- `1 / sqrt(m * 2^e)` with a sticky bit. -/
def rsqMag (m : Nat) (e : Int) : Nat × Int :=
  let m0 := if e % 2 = 0 then m else 2 * m
  let e0 := if e % 2 = 0 then e else e - 1
  let k := 160 + Nat.log2 m0
  let r := isqrt (2 ^ (2 * k) / m0)
  let z : Int := -(k : Int) - e0 / 2
  if r * r * m0 = 2 ^ (2 * k) then (r, z) else (2 * r + 1, z - 1)

/-- A positive magnitude is a power of two. -/
def isPow2 (m : Nat) : Bool := m != 0 && m == 2 ^ Nat.log2 m

/-- A finite value as an integer, if it is one. -/
def asInteger (neg : Bool) (m : Nat) (e : Int) : Option Int :=
  let mag := if e < 0 then m / 2 ^ e.natAbs else m * 2 ^ e.toNat
  if e < 0 ∧ m % 2 ^ e.natAbs ≠ 0 then none else some (if neg then -(mag : Int) else mag)

/-- Floor(pi * 2^400), by Machin's formula with 64 guard bits. -/
def arctanInv (n : Nat) : Nat → Nat → Nat → Int → Int
  | 0, _, _, acc => acc
  | k + 1, j, p, acc =>
    arctanInv n k (j + 1) (p / (n * n)) (if j % 2 = 0 then acc + (p / (2 * j + 1) : Nat) else acc - (p / (2 * j + 1) : Nat))

/-- Pi in units of 2^-400. -/
def piUnits : Nat :=
  let one := 2 ^ 464
  ((16 * arctanInv 5 110 0 (one / 5) 0 - 4 * arctanInv 239 40 0 (one / 239) 0) / 2 ^ 64).toNat

/-- The distance of `m * 2^e` from the nearest multiple of pi, or odd multiple of pi / 2, is below `2^emin` by more
than a rounding step: the sine, or cosine, is tiny (R118, R132). -/
def trigTiny (f : Fmt) (odd : Bool) (m : Nat) (e : Int) : Bool :=
  let x := scaleNat m (e + 400)
  let y := if odd then 2 * x + piUnits else 2 * x
  let r := y % (2 * piUnits)
  let d := if r ≤ 2 * piUnits - r then r else 2 * piUnits - r
  let bound := scaleNat (2 ^ (f.fb + 2) - 1) (f.emin - (f.fb + 2) + 400)
  decide (d < 2 * bound)

/-! ### Values that the bounds of R132 are measured from

Each is computed in units of `2^-P` with an error far below any rounding step of the formats (entry 9). -/

/-- The bits below the point of the values computed here. -/
def sfuP : Nat := 300

/-- Terms of the exponential series of `x * 2^-P`, from a term on. -/
def expTerms (x : Int) : Nat → Nat → Int → Int
  | 0, _, _ => 0
  | n + 1, j, t => t + expTerms x n (j + 1) (t * x / 2 ^ sfuP / (j + 1 : Nat))

/-- Terms of the series of the inverse hyperbolic tangent of `z * 2^-P`, from the power `p` of z on. -/
def atanhTerms (z : Int) : Nat → Nat → Int → Int
  | 0, _, _ => 0
  | n + 1, j, p => p / (2 * j + 1 : Nat) + atanhTerms z n (j + 1) (p * z / 2 ^ sfuP * z / 2 ^ sfuP)

/-- Terms of the alternating series of sine and cosine: each term is the one before by `-x^2 / ((k + 1) (k + 2))`. -/
def trigTerms (x : Int) : Nat → Nat → Int → Int
  | 0, _, _ => 0
  | n + 1, k, t => t + trigTerms x n (k + 2) (-(t * x / 2 ^ sfuP * x / 2 ^ sfuP / ((k + 1) * (k + 2) : Nat)))

/-- The natural logarithm of 2. -/
def ln2Units : Int := let z : Int := 2 ^ sfuP / 3; 2 * atanhTerms z 110 0 z

/-- `2^y` for y in units of `2^-P`: a magnitude. -/
def exp2Mag (y : Int) : Nat × Int :=
  let k := y / 2 ^ sfuP
  ((expTerms (y % 2 ^ sfuP * ln2Units / 2 ^ sfuP) 80 0 (2 ^ sfuP)).toNat, k - sfuP)

/-- A finite value in units of `2^-P`, rounded down in magnitude. -/
def sfuUnits (neg : Bool) (m : Nat) (e : Int) : Int :=
  let x : Int := scaleNat m (e + sfuP)
  if neg then -x else x

/-- The base-2 logarithm of a positive value in units of `2^-P`. -/
def log2Units (m : Nat) (e : Int) : Int :=
  let u : Int := scaleNat m ((sfuP : Int) - Nat.log2 m)
  let z := (u - 2 ^ sfuP) * 2 ^ sfuP / (u + 2 ^ sfuP)
  topExp m e * 2 ^ sfuP + 2 * atanhTerms z 110 0 z * 2 ^ sfuP / ln2Units

/-- The sine, or cosine, of a positive value in units of `2^-P`. -/
def trigUnits (cos : Bool) (m : Nat) (e : Int) : Int :=
  let r : Int := (scaleNat m (e + 400) % (2 * piUnits) / 2 ^ (400 - sfuP) : Nat)
  if cos then trigTerms r 60 0 (2 ^ sfuP) else trigTerms r 60 1 r

/-- The hyperbolic tangent of a positive value: a magnitude. Below `2^-20` it is `x - x^3 / 3 + 2 x^5 / 15`. -/
def tanhMag (m : Nat) (e : Int) : Nat × Int :=
  if topExp m e < -20 then
    let q := (-2 * e).toNat
    let r := ratio (m * (15 * 2 ^ (2 * q) - 5 * m ^ 2 * 2 ^ q + 2 * m ^ 4)) (15 * 2 ^ (2 * q))
    (r.1, r.2 + e)
  else if 7 ≤ topExp m e then (2 ^ sfuP - 1, -(sfuP : Int))
  else
    let y := exp2Mag (2 * sfuUnits false m e * 2 ^ sfuP / ln2Units)
    let x := scaleNat y.1 (y.2 + sfuP)
    let r := ratio (x - 2 ^ sfuP) (x + 2 ^ sfuP)
    (r.1, r.2)

/-- A result that the specification only bounds: free bits of the format while they lie within the bound of the value,
else the value's correct rounding (R132; entry 9). It is a function of the function, the format and the input. -/
def freeResult (fn : Fn) (f : Fmt) (x : Nat) (neg : Bool) (v tol : Nat × Int) : Nat :=
  let y := Config.sfu fn.code (64 * f.eb + f.fb) x % 2 ^ (1 + f.eb + f.fb)
  if f.near y neg v.1 v.2 tol then y else f.sign neg (f.roundMag v.1 v.2).1

/-- A number of steps of the last place at a value. -/
def Fmt.ulps (f : Fmt) (n : Nat) (v : Nat × Int) : Nat × Int := (n, f.ulpExp v.1 v.2)

/-- A result of which the correctly rounded value is that of a given magnitude: that value where the table of R132 says
so or where it overflows, else within one step of the last place; with its flags. -/
def bounded (fn : Fn) (ty : Ty) (correct neg : Bool) (x : Nat) (mag : Nat × Int) : Nat × Flags :=
  let f := tyFmt ty
  let r := f.roundMag mag.1 mag.2
  (if correct || r.1 == f.infBits then f.sign neg r.1 else freeResult fn f x neg mag (f.ulps 1 mag), r.2)

/-- `2^x` for a finite x that is not an integer: the flags of its correct rounding, and infinity where it overflows
(R132). -/
def exp2Free (ty : Ty) (neg : Bool) (m : Nat) (e : Int) (x : Nat) : Nat × Flags :=
  let f := tyFmt ty
  let mag := scaleNat m e
  let lim : Int := 4 * 2 ^ f.eb * 2 ^ sfuP
  let y := sfuUnits neg m e
  let v := exp2Mag (if y < -lim then -lim else y)
  let r := freeResult .exp2 f x false v (f.ulps (if f = .f32 then 2 else 1) v)
  if !neg && decide (2 ^ (f.eb - 1) ≤ mag) then (f.infBits, fOF ||| fNX)
  else if neg && decide (2 ^ (f.eb - 1) - 2 ≤ mag) then (r, fUF ||| fNX)
  else (r, fNX)

/-- `log2 x` for a positive finite x that is no power of two: absolute bounds inside [0.5, 2] (R132). -/
def log2Free (f : Fmt) (m : Nat) (e : Int) (x : Nat) : Nat :=
  let y := log2Units m e
  let v : Nat × Int := (y.natAbs, -(sfuP : Int))
  let tol : Nat × Int :=
    if topExp m e = 0 ∨ topExp m e = -1 then (1, if f = .f32 then -22 else -10) else f.ulps (if f = .f32 then 2 else 1) v
  freeResult .log2 f x (decide (y < 0)) v tol

/-- The sine or cosine of a finite x other than zero: absolute bounds (R132). -/
def trigFree (fn : Fn) (f : Fmt) (neg : Bool) (m : Nat) (e : Int) (x : Nat) : Nat :=
  let y := trigUnits (fn == .cos) m e
  freeResult fn f x ((fn == .sin && neg) != decide (y < 0)) (y.natAbs, -(sfuP : Int)) (1, if f = .f32 then -22 else -10)

/-- The hyperbolic tangent of a finite x other than zero: one step, or for FP32 the larger of two and `2^-26`
(R132). -/
def tanhFree (f : Fmt) (neg : Bool) (m : Nat) (e : Int) (x : Nat) : Nat :=
  let v := tanhMag m e
  let tol : Nat × Int := if f = .f32 then (if f.ulpExp v.1 v.2 + 1 < -26 then (1, -26) else f.ulps 2 v) else f.ulps 1 v
  freeResult .tanh f x neg v tol

/-- A special function of one element: result and flags (R132, R133). `RSQ` raises `NX` for an exact result too, since R132 does not
name it among the exceptions (entry 34). -/
def sfuElem (fn : Fn) (ty : Ty) (x : Nat) : Nat × Flags :=
  let f := tyFmt ty
  let nan : Nat := f.nanBits
  let inf (n : Bool) : Nat := f.sign n f.infBits
  let one (n : Bool) : Nat := f.sign n (f.roundMag 1 0).1
  let half := ty == .f16x4 || ty == .bf16x4
  match f.val x with
  | .nan sig => (nan, flagIf sig fIV)
  | .inf n =>
    match fn with
    | .rcp => (f.sign n 0, 0)
    | .rsq | .sqrt | .log2 => if n then (nan, fIV) else (if fn = .rsq then 0 else inf false, 0)
    | .exp2 => (if n then 0 else inf false, 0)
    | .sin | .cos => (nan, fIV)
    | .tanh => (one n, 0)
  | .fin n m e =>
    if m = 0 then
      match fn with
      | .rcp | .rsq => (inf n, fDZ)
      | .log2 => (inf true, fDZ)
      | .sqrt | .sin | .tanh => (x, 0)
      | .exp2 | .cos => (one false, 0)
    else
      match fn with
      | .rcp => bounded .rcp ty (half || isPow2 m) n x (recipMag m e)
      | .rsq =>
        if n then (nan, fIV)
        else
          let r := bounded .rsq ty half false x (rsqMag m e)
          (r.1, r.2 ||| fNX)
      | .sqrt => if n then (nan, fIV) else f.roundMag (sqrtMag m e).1 (sqrtMag m e).2
      | .exp2 =>
        match asInteger n m e with
        | some k => let r := fpScale f (one false) k; r
        | none => exp2Free ty n m e x
      | .log2 =>
        if n then (nan, fIV)
        else if isPow2 m then intToFp f (topExp m e)
        else (log2Free f m e x, fNX)
      | .sin => (trigFree .sin f n m e x, fNX ||| flagIf (trigTiny f false m e) fUF)
      | .cos => (trigFree .cos f n m e x, fNX ||| flagIf (trigTiny f true m e) fUF)
      | .tanh => (tanhFree f n m e x, fNX ||| flagIf (decide (topExp m e < f.emin)) fUF)

/-- A special function of a lane word. -/
def sfuWord (fn : Fn) (ty : Ty) (x : Word) : Word × Flags := fmap1 ty (sfuElem fn ty) x

/-- The shared form of the special functions (R245). -/
def State.sfu (s : State) (fn : Fn) (g : Guard) (ll : Ll) (ty : Ty) (d : VReg) (a : Reg) : State :=
  s.vecLl g ll (topR a 1) d (fun _ gr i => sfuWord fn ty (gr.reg a i))

/-- `RCP` (R245). -/
def execRcp (g : Guard) (ll : Ll) (ty : Ty) (d : VReg) (a : Reg) (s : State) : Host.Outcome State Fault Refusal :=
  .next (s.sfu .rcp g ll ty d a)
/-- `RSQ` (R245). -/
def execRsq (g : Guard) (ll : Ll) (ty : Ty) (d : VReg) (a : Reg) (s : State) : Host.Outcome State Fault Refusal :=
  .next (s.sfu .rsq g ll ty d a)
/-- `SQRT` (R245). -/
def execSqrt (g : Guard) (ll : Ll) (ty : Ty) (d : VReg) (a : Reg) (s : State) : Host.Outcome State Fault Refusal :=
  .next (s.sfu .sqrt g ll ty d a)
/-- `EXP2` (R245). -/
def execExp2 (g : Guard) (ll : Ll) (ty : Ty) (d : VReg) (a : Reg) (s : State) : Host.Outcome State Fault Refusal :=
  .next (s.sfu .exp2 g ll ty d a)
/-- `LOG2` (R245). -/
def execLog2 (g : Guard) (ll : Ll) (ty : Ty) (d : VReg) (a : Reg) (s : State) : Host.Outcome State Fault Refusal :=
  .next (s.sfu .log2 g ll ty d a)
/-- `SIN` (R245). -/
def execSin (g : Guard) (ll : Ll) (ty : Ty) (d : VReg) (a : Reg) (s : State) : Host.Outcome State Fault Refusal :=
  .next (s.sfu .sin g ll ty d a)
/-- `COS` (R245). -/
def execCos (g : Guard) (ll : Ll) (ty : Ty) (d : VReg) (a : Reg) (s : State) : Host.Outcome State Fault Refusal :=
  .next (s.sfu .cos g ll ty d a)
/-- `TANH` (R245). -/
def execTanh (g : Guard) (ll : Ll) (ty : Ty) (d : VReg) (a : Reg) (s : State) : Host.Outcome State Fault Refusal :=
  .next (s.sfu .tanh g ll ty d a)

end Sys2Proof.Machine
end

