-- ==== Sys2Proof/Machine/Short.lean ====
section
/-!
DEFINITION. The short forms (R203, R213): each behaves as the long instruction into which it expands.
-/
namespace Sys2Proof.Machine

/-- The type that `OP7` [2:0] selects (R213). -/
def shortTy (t : BitVec 3) : Ty :=
  match t.toNat with
  | 0 => .i8x8
  | 1 => .n8x8
  | 2 => .i16x4
  | 3 => .n16x4
  | 4 => .i32x2
  | 5 => .n32x2
  | 6 => .i64
  | _ => .n64

/-- A short destination, zero-extended (R203). -/
def shortD (d : BitVec 6) : VReg := d.setWidth 10
/-- A short source. -/
def shortA (a : BitVec 6) : Reg := .v (a.setWidth 10)
/-- A short second source. -/
def shortB (b : BitVec 6) : Opnd := .reg (.v (b.setWidth 10))

/-- `IADD`, short form (R213). -/
def execIaddShort (g : Guard) (t : BitVec 3) (d a b : BitVec 6) (s : State) : Host.Outcome State Fault Refusal :=
  execIadd g (shortTy t) false (shortD d) (shortA a) (shortB b) s

/-- `ISUB`, short form (R213). -/
def execIsubShort (g : Guard) (t : BitVec 3) (d a b : BitVec 6) (s : State) : Host.Outcome State Fault Refusal :=
  execIsub g (shortTy t) false (shortD d) (shortA a) (shortB b) s

/-- `IMUL`, short form (R213). -/
def execImulShort (g : Guard) (t : BitVec 3) (d a b : BitVec 6) (s : State) : Host.Outcome State Fault Refusal :=
  execImul g (shortTy t) false (shortD d) (shortA a) (shortB b) s

/-- `IMIN`, short form (R213). -/
def execIminShort (g : Guard) (t : BitVec 3) (d a b : BitVec 6) (s : State) : Host.Outcome State Fault Refusal :=
  execImin g (shortTy t) (shortD d) (shortA a) (shortB b) s

/-- `IMAX`, short form (R213). -/
def execImaxShort (g : Guard) (t : BitVec 3) (d a b : BitVec 6) (s : State) : Host.Outcome State Fault Refusal :=
  execImax g (shortTy t) (shortD d) (shortA a) (shortB b) s

/-- `SHL`, short form (R213). -/
def execShlShort (g : Guard) (t : BitVec 3) (d a b : BitVec 6) (s : State) : Host.Outcome State Fault Refusal :=
  execShl g (shortTy t) (shortD d) (shortA a) (shortB b) s

/-- `SHR`, short form (R213). -/
def execShrShort (g : Guard) (t : BitVec 3) (d a b : BitVec 6) (s : State) : Host.Outcome State Fault Refusal :=
  execShr g (shortTy t) (shortD d) (shortA a) (shortB b) s

/-- `SAR`, short form (R213). -/
def execSarShort (g : Guard) (t : BitVec 3) (d a b : BitVec 6) (s : State) : Host.Outcome State Fault Refusal :=
  execSar g (shortTy t) (shortD d) (shortA a) (shortB b) s

/-- `FADD.f16x4`, short form (R213). -/
def execFaddF16x4Short (g : Guard) (d a b : BitVec 6) (s : State) : Host.Outcome State Fault Refusal :=
  execFadd g .f16x4 (shortD d) (shortA a) (shortB b) s

/-- `FADD.bf16x4`, short form (R213). -/
def execFaddBf16x4Short (g : Guard) (d a b : BitVec 6) (s : State) : Host.Outcome State Fault Refusal :=
  execFadd g .bf16x4 (shortD d) (shortA a) (shortB b) s

/-- `FADD.f32x2`, short form (R213). -/
def execFaddF32x2Short (g : Guard) (d a b : BitVec 6) (s : State) : Host.Outcome State Fault Refusal :=
  execFadd g .f32x2 (shortD d) (shortA a) (shortB b) s

/-- `FADD.f32`, short form (R213). -/
def execFaddF32Short (g : Guard) (d a b : BitVec 6) (s : State) : Host.Outcome State Fault Refusal :=
  execFadd g .f32 (shortD d) (shortA a) (shortB b) s

/-- `FADD.f64`, short form (R213). -/
def execFaddF64Short (g : Guard) (d a b : BitVec 6) (s : State) : Host.Outcome State Fault Refusal :=
  execFadd g .f64 (shortD d) (shortA a) (shortB b) s

/-- `FSUB.f16x4`, short form (R213). -/
def execFsubF16x4Short (g : Guard) (d a b : BitVec 6) (s : State) : Host.Outcome State Fault Refusal :=
  execFsub g .f16x4 (shortD d) (shortA a) (shortB b) s

/-- `FSUB.bf16x4`, short form (R213). -/
def execFsubBf16x4Short (g : Guard) (d a b : BitVec 6) (s : State) : Host.Outcome State Fault Refusal :=
  execFsub g .bf16x4 (shortD d) (shortA a) (shortB b) s

/-- `FSUB.f32x2`, short form (R213). -/
def execFsubF32x2Short (g : Guard) (d a b : BitVec 6) (s : State) : Host.Outcome State Fault Refusal :=
  execFsub g .f32x2 (shortD d) (shortA a) (shortB b) s

/-- `FSUB.f32`, short form (R213). -/
def execFsubF32Short (g : Guard) (d a b : BitVec 6) (s : State) : Host.Outcome State Fault Refusal :=
  execFsub g .f32 (shortD d) (shortA a) (shortB b) s

/-- `FSUB.f64`, short form (R213). -/
def execFsubF64Short (g : Guard) (d a b : BitVec 6) (s : State) : Host.Outcome State Fault Refusal :=
  execFsub g .f64 (shortD d) (shortA a) (shortB b) s

/-- `FMUL.f16x4`, short form (R213). -/
def execFmulF16x4Short (g : Guard) (d a b : BitVec 6) (s : State) : Host.Outcome State Fault Refusal :=
  execFmul g .f16x4 (shortD d) (shortA a) (shortB b) s

/-- `FMUL.bf16x4`, short form (R213). -/
def execFmulBf16x4Short (g : Guard) (d a b : BitVec 6) (s : State) : Host.Outcome State Fault Refusal :=
  execFmul g .bf16x4 (shortD d) (shortA a) (shortB b) s

/-- `FMUL.f32x2`, short form (R213). -/
def execFmulF32x2Short (g : Guard) (d a b : BitVec 6) (s : State) : Host.Outcome State Fault Refusal :=
  execFmul g .f32x2 (shortD d) (shortA a) (shortB b) s

/-- `FMUL.f32`, short form (R213). -/
def execFmulF32Short (g : Guard) (d a b : BitVec 6) (s : State) : Host.Outcome State Fault Refusal :=
  execFmul g .f32 (shortD d) (shortA a) (shortB b) s

/-- `FMUL.f64`, short form (R213). -/
def execFmulF64Short (g : Guard) (d a b : BitVec 6) (s : State) : Host.Outcome State Fault Refusal :=
  execFmul g .f64 (shortD d) (shortA a) (shortB b) s

/-- `FMIN.f16x4`, short form (R213). -/
def execFminF16x4Short (g : Guard) (d a b : BitVec 6) (s : State) : Host.Outcome State Fault Refusal :=
  execFmin g .f16x4 (shortD d) (shortA a) (shortB b) s

/-- `FMIN.bf16x4`, short form (R213). -/
def execFminBf16x4Short (g : Guard) (d a b : BitVec 6) (s : State) : Host.Outcome State Fault Refusal :=
  execFmin g .bf16x4 (shortD d) (shortA a) (shortB b) s

/-- `FMIN.f32x2`, short form (R213). -/
def execFminF32x2Short (g : Guard) (d a b : BitVec 6) (s : State) : Host.Outcome State Fault Refusal :=
  execFmin g .f32x2 (shortD d) (shortA a) (shortB b) s

/-- `FMIN.f32`, short form (R213). -/
def execFminF32Short (g : Guard) (d a b : BitVec 6) (s : State) : Host.Outcome State Fault Refusal :=
  execFmin g .f32 (shortD d) (shortA a) (shortB b) s

/-- `FMIN.f64`, short form (R213). -/
def execFminF64Short (g : Guard) (d a b : BitVec 6) (s : State) : Host.Outcome State Fault Refusal :=
  execFmin g .f64 (shortD d) (shortA a) (shortB b) s

/-- `FMAX.f16x4`, short form (R213). -/
def execFmaxF16x4Short (g : Guard) (d a b : BitVec 6) (s : State) : Host.Outcome State Fault Refusal :=
  execFmax g .f16x4 (shortD d) (shortA a) (shortB b) s

/-- `FMAX.bf16x4`, short form (R213). -/
def execFmaxBf16x4Short (g : Guard) (d a b : BitVec 6) (s : State) : Host.Outcome State Fault Refusal :=
  execFmax g .bf16x4 (shortD d) (shortA a) (shortB b) s

/-- `FMAX.f32x2`, short form (R213). -/
def execFmaxF32x2Short (g : Guard) (d a b : BitVec 6) (s : State) : Host.Outcome State Fault Refusal :=
  execFmax g .f32x2 (shortD d) (shortA a) (shortB b) s

/-- `FMAX.f32`, short form (R213). -/
def execFmaxF32Short (g : Guard) (d a b : BitVec 6) (s : State) : Host.Outcome State Fault Refusal :=
  execFmax g .f32 (shortD d) (shortA a) (shortB b) s

/-- `FMAX.f64`, short form (R213). -/
def execFmaxF64Short (g : Guard) (d a b : BitVec 6) (s : State) : Host.Outcome State Fault Refusal :=
  execFmax g .f64 (shortD d) (shortA a) (shortB b) s

/-- `MOV`, short form (R213). -/
def execMovShort (g : Guard) (d a : BitVec 6) (s : State) : Host.Outcome State Fault Refusal :=
  execMov g (shortD d) (shortA a) s

/-- `NOP`, short form (R213). -/
def execNopShort (g : Guard) (s : State) : Host.Outcome State Fault Refusal :=
  execNop g s

/-- `EXIT`, short form (R213). -/
def execExitShort (g : Guard) (s : State) : Host.Outcome State Fault Refusal :=
  execExit g s

/-- `YIELD`, short form (R213). -/
def execYieldShort (g : Guard) (s : State) : Host.Outcome State Fault Refusal :=
  execYield g s

/-- `POPC`, short form (R213). -/
def execPopcShort (g : Guard) (d a : BitVec 6) (s : State) : Host.Outcome State Fault Refusal :=
  execPopc g .n64 (shortD d) (shortA a) s

/-- `CLZ`, short form (R213). -/
def execClzShort (g : Guard) (d a : BitVec 6) (s : State) : Host.Outcome State Fault Refusal :=
  execClz g .n64 (shortD d) (shortA a) s

/-- `BREV`, short form (R213). -/
def execBrevShort (g : Guard) (d a : BitVec 6) (s : State) : Host.Outcome State Fault Refusal :=
  execBrev g (shortD d) (shortA a) s

/-- `LOG.AND`, short form (R213). -/
def execLogAndShort (g : Guard) (d a b : BitVec 6) (s : State) : Host.Outcome State Fault Refusal :=
  execLog g .and (shortD d) (shortA a) (shortB b) s

/-- `LOG.OR`, short form (R213). -/
def execLogOrShort (g : Guard) (d a b : BitVec 6) (s : State) : Host.Outcome State Fault Refusal :=
  execLog g .or (shortD d) (shortA a) (shortB b) s

/-- `LOG.XOR`, short form (R213). -/
def execLogXorShort (g : Guard) (d a b : BitVec 6) (s : State) : Host.Outcome State Fault Refusal :=
  execLog g .xor (shortD d) (shortA a) (shortB b) s

/-- `ROT`, short form (R213). -/
def execRotShort (g : Guard) (d a b : BitVec 6) (s : State) : Host.Outcome State Fault Refusal :=
  execRot g false (shortD d) (shortA a) (shortB b) s

/-- `IABS.i32x2`, short form (R213). -/
def execIabsI32x2Short (g : Guard) (d a : BitVec 6) (s : State) : Host.Outcome State Fault Refusal :=
  execIabs g .i32x2 false (shortD d) (shortA a) s

/-- `INEG.i32x2`, short form (R213). -/
def execInegI32x2Short (g : Guard) (d a : BitVec 6) (s : State) : Host.Outcome State Fault Refusal :=
  execIneg g .i32x2 false (shortD d) (shortA a) s

/-- `IABS.i64`, short form (R213). -/
def execIabsI64Short (g : Guard) (d a : BitVec 6) (s : State) : Host.Outcome State Fault Refusal :=
  execIabs g .i64 false (shortD d) (shortA a) s

/-- `INEG.i64`, short form (R213). -/
def execInegI64Short (g : Guard) (d a : BitVec 6) (s : State) : Host.Outcome State Fault Refusal :=
  execIneg g .i64 false (shortD d) (shortA a) s

end Sys2Proof.Machine
end

