-- ==== Sys2Proof/Machine/Stream.lean ====
section
/-!
DEFINITION. Streaming-vector instructions (R254, R255).
-/
namespace Sys2Proof.Machine

/-- The base offset of a stream descriptor (R254). -/
def strBase (x : Word) : Int := (bits x 0 32 : Int)
/-- The step of a stream descriptor, signed (R254). -/
def strStep (x : Word) : Int := (x.extractLsb' 32 32).toInt

/-- The share offset of a stream's word at a step in a lane (R254). -/
def strAt (x : Word) (j lane : Nat) : Int := strBase x + j * strStep x + 8 * lane

/-- A base or step that is not a multiple of 8 (R255). -/
def strAligned (x : Word) : Bool := bits x 0 3 == 0 && bits x 32 3 == 0

/-- A lane touches a byte outside the share at some step (R255). -/
def strOutside (size n : Nat) (xs : List Word) (lane : Nat) : Bool :=
  xs.any (fun x => (List.range n).any (fun j => decide (strAt x j lane < 0) || decide ((size : Int) < strAt x j lane + 8)))

/-- The word of a stream at a step in a lane lies in the share. -/
def strInside (size : Nat) (x : Word) (j lane : Nat) : Bool :=
  decide (0 ≤ strAt x j lane) && decide (strAt x j lane + 8 ≤ (size : Int))

/-- A lane reads a poisoned word at some step (R66, R394). -/
def strPoison (t : Team) (n : Nat) (xs : List Word) (lane : Nat) : Bool :=
  xs.any (fun x => (List.range n).any (fun j => t.badHere (strAt x j lane).toNat 8))

/-- The source words of a lane at a step, read in order, one for each stream (R255). A word that a helper lane cannot read is
zero (R143). -/
def State.strLoads (a : Agent) (team j lane : Nat) : State → List Word → List Word × State
  | s, [] => ([], s)
  | s, x :: xs =>
    let t := s.team team
    let o := (strAt x j lane).toNat
    let r := if strInside t.size x j lane && !t.badHere o 8 then s.sload a team o 8 else (0, s)
    let q := State.strLoads a team j lane r.2 xs
    (BitVec.ofNat 64 r.1 :: q.1, q.2)

/-- The source words of every lane at a step. -/
def State.strRow (a : Agent) (team j : Nat) (xs : List Word) : State → List Nat → SMap (List Word) × State
  | s, [] => ([], s)
  | s, i :: is =>
    let r := s.strLoads a team j i xs
    let q := State.strRow a team j xs r.2 is
    (put i r.1 q.1, q.2)

/-- The destination words of lanes written at a step. -/
def State.strStores (s : State) (a : Agent) (team j : Nat) (d : Word) (m : Lanes) (f : Nat → Word) : State :=
  (lanesOf m).foldl (fun s i => s.sstore a team (strAt d j i).toNat 8 (f i).toNat) s

/-- The checks before the first step (R255), or nothing. -/
def State.strCheck (s : State) (e : Env) (n : Nat) (srcs dsts : List Word) : Option Res :=
  let t := s.team e.team
  let xs := dsts ++ srcs
  if xs.any (fun x => !strAligned x) then some (e.fault .illegalOperand 0)
  else
    let gr := e.group s
    match laneFaults (gr.real e.act) (fun i =>
      if strOutside t.size n xs i then some (.scratchRange, 0)
      else if strPoison t n srcs i then some (.poison, 0) else none) with
    | some x => some (.trap x)
    | none =>
      match s.absentLines ((lanesOf e.act).flatMap (fun i => (if gr.helper.getLsbD i then srcs else xs).flatMap (fun x =>
        ((List.range n).filter (fun j => strInside t.size x j i)).map (fun j => (e.team, (strAt x j i).toNat, 8))))) with
      | some p => some (parkLines p)
      | none => none

/-- The steps of an instruction that writes a stream: the value and flags of a lane at a step come from the sources
read at the steps so far, latest last. -/
def State.strSteps (e : Env) (helper : Lanes) (srcs : List Word) (d : Word) (f : List (List Word) → Word × Flags) :
    State → SMap (List (List Word)) → List Nat → Flags → Flags × State
  | s, _, [], fl => (fl, s)
  | s, seen, j :: js, fl =>
    let r := State.strRow e.agent e.team j srcs s (lanesOf e.act)
    let seen := (lanesOf e.act).foldl (fun m i => put i (get [] i m ++ [get [] i r.1]) m) seen
    let v (i : Nat) : Word × Flags := f (get [] i seen)
    let s := r.2.strStores e.agent e.team j d (e.act &&& ~~~helper) (fun i => (v i).1)
    State.strSteps e helper srcs d f s seen js ((lanesOf (e.act &&& ~~~helper)).foldl (fun x i => x ||| (v i).2) fl)

/-- An instruction that writes a stream from streams (R254, R255). -/
def State.stream (s : State) (g : Guard) (ll : Ll) (d : SReg) (srcs : List Nat) (n : BitVec 12)
    (f : List (List Word) → Word × Flags) : State :=
  s.run { g := g, ll := some ll, mem := true, acc := true, once := true } fun e s =>
    let gr := e.group s
    let dv := gr.sreg d.toNat
    let xs := srcs.map gr.sreg
    match s.strCheck e n.toNat xs [dv] with
    | some r => r
    | none =>
      let r := State.strSteps e gr.helper xs dv f s [] (List.range n.toNat) 0
      .go (e.begin r.2 ll { Pend.zero with flags := r.1 })

/-- The source words of the step in progress. -/
def lastRow (h : List (List Word)) (k : Nat) : Word := (h.getLastD []).getD k 0

/-- An element-wise operation of `XALU` (R254). -/
def xaluWord (op : XOp) (ty : Ty) (sat : Bool) (a b : Word) : Word × Flags :=
  match op with
  | .add => if ty.isFp then fmap2 ty (fpAdd (tyFmt ty)) a b else (int2 ty sat (fun x y => x + y) a b, 0)
  | .sub => if ty.isFp then fmap2 ty (fpSub (tyFmt ty)) a b else (int2 ty sat (fun x y => x - y) a b, 0)
  | .mul => if ty.isFp then fmap2 ty (fpMul (tyFmt ty)) a b else (int2 ty sat (fun x y => x * y) a b, 0)
  | .min => if ty.isFp then fmap2 ty (fpMinMax (tyFmt ty) false) a b else (int2 ty false min a b, 0)
  | .max => if ty.isFp then fmap2 ty (fpMinMax (tyFmt ty) true) a b else (int2 ty false max a b, 0)
  | .and => (a &&& b, 0)
  | .or => (a ||| b, 0)
  | .xor => (a ^^^ b, 0)

/-- `XALU` (R254). -/
def execXalu (g : Guard) (ll : Ll) (ty : Ty) (op : XOp) (sat : Bool) (d a b : SReg) (n : BitVec 12) (s : State) :
    Host.Outcome State Fault Refusal :=
  .next (s.stream g ll d [a.toNat, b.toNat] n (fun h => xaluWord op ty sat (lastRow h 0) (lastRow h 1)))

/-- `a × b + c` of `XFMA` (R254). -/
def xfmaWord (ty : Ty) (a b c : Word) : Word × Flags :=
  if ty.isFp then fmap3 ty (fpFma (tyFmt ty)) a b c
  else (map3 ty (fun p q r => deliver ty false (elemInt ty p * elemInt ty q + elemInt ty r)) a b c, 0)

/-- `XFMA` (R254). -/
def execXfma (g : Guard) (ll : Ll) (ty : Ty) (d a b : SReg) (n : BitVec 12) (s : State) :
    Host.Outcome State Fault Refusal :=
  .next (s.stream g ll d [a.toNat, b.toNat, b.toNat + 1] n (fun h =>
    xfmaWord ty (lastRow h 0) (lastRow h 1) (lastRow h 2)))

/-- `XCVT` (R254). -/
def execXcvt (g : Guard) (ll : Ll) (dt st : Ty) (sat : Bool) (d a : SReg) (n : BitVec 12) (s : State) :
    Host.Outcome State Fault Refusal :=
  .next (s.stream g ll d [a.toNat] n (fun h => convWord dt st sat 0 0 0 (lastRow h 0)))

/-- `XSCAN` (R254). -/
def execXscan (g : Guard) (ll : Ll) (ty : Ty) (op : RedOp) (excl : Bool) (d a : SReg) (n : BitVec 12) (s : State) :
    Host.Outcome State Fault Refusal :=
  .next (s.stream g ll d [a.toNat] n (fun h =>
    redWords op ty ((if excl then h.dropLast else h).map (fun r => r.getD 0 0))))

/-- An element of a or b by an element of c (R254). -/
def xselWord (ty : Ty) (a b c : Word) : Word := map3 ty (fun x y z => if z ≠ 0 then x else y) a b c

/-- `XSEL` (R254). -/
def execXsel (g : Guard) (ll : Ll) (ty : Ty) (d a b : SReg) (n : BitVec 12) (s : State) :
    Host.Outcome State Fault Refusal :=
  .next (s.stream g ll d [a.toNat, b.toNat, b.toNat + 1] n (fun h =>
    (xselWord ty (lastRow h 0) (lastRow h 1) (lastRow h 2), 0)))

/-- The source words of every step in every lane, in step order. -/
def State.strAll (e : Env) (srcs : List Word) : State → SMap (List (List Word)) → List Nat → SMap (List (List Word)) × State
  | s, seen, [] => (seen, s)
  | s, seen, j :: js =>
    let r := State.strRow e.agent e.team j srcs s (lanesOf e.act)
    State.strAll e srcs r.2 ((lanesOf e.act).foldl (fun m i => put i (get [] i m ++ [get [] i r.1]) m) seen) js

/-- `XRED` (R254): the accumulator is written at completion (R255). -/
def execXred (g : Guard) (ll : Ll) (ty : Ty) (op : RedOp) (d : VReg) (a : SReg) (n : BitVec 12) (s : State) :
    Host.Outcome State Fault Refusal :=
  .next (s.run { g := g, top := topV d 1, ll := some ll, mem := true, acc := true, once := true } fun e s =>
    let gr := e.group s
    let xs := [gr.sreg a.toNat]
    match s.strCheck e n.toNat xs [] with
    | some r => r
    | none =>
      let r := State.strAll e xs s [] (List.range n.toNat)
      let v (i : Nat) : Word × Flags :=
        redWords op ty (gr.vreg d.toNat i :: (get [] i r.1).map (fun x => x.getD 0 0))
      .go (e.begin r.2 ll { Pend.zero with
        vw := vWrites d.toNat e.act (fun i => (v i).1)
        flags := (lanesOf (gr.real e.act)).foldl (fun x i => x ||| (v i).2) 0 }))

end Sys2Proof.Machine
end

