-- ==== Sys2Proof/Machine/Dispatch.lean ====
section
/-!
DEFINITION. The meaning of every step of the table: one arm per constructor of Instr.
-/
namespace Sys2Proof.Machine

def exec (i : Instr) (s : State) : Host.Outcome State Fault Refusal :=
  match i with
  | .issueSelection core => Sys2Proof.Machine.execIssueSelection core s
  | .agingCredit team grp => Sys2Proof.Machine.execAgingCredit team grp s
  | .longLatencyCompletion team grp id lanes => Sys2Proof.Machine.execLongLatencyCompletion team grp id lanes s
  | .fenceComplete team grp id => Sys2Proof.Machine.execFenceComplete team grp id s
  | .presenceResume team grp => Sys2Proof.Machine.execPresenceResume team grp s
  | .sleepExpiry team grp lanes => Sys2Proof.Machine.execSleepExpiry team grp lanes s
  | .waitaRetest team grp lanes => Sys2Proof.Machine.execWaitaRetest team grp lanes s
  | .shelfFire team shelf => Sys2Proof.Machine.execShelfFire team shelf s
  | .shelfCommitEffect team shelf => Sys2Proof.Machine.execShelfCommitEffect team shelf s
  | .ownershipGrant op => Sys2Proof.Machine.execOwnershipGrant op s
  | .parkedFaultDelivery team grp => Sys2Proof.Machine.execParkedFaultDelivery team grp s
  | .userInterruptTake team grp => Sys2Proof.Machine.execUserInterruptTake team grp s
  | .gangPlacement part => Sys2Proof.Machine.execGangPlacement part s
  | .extraGroupStart sweep id rank => Sys2Proof.Machine.execExtraGroupStart sweep id rank s
  | .groupEnd team grp => Sys2Proof.Machine.execGroupEnd team grp s
  | .gridCompletion grid => Sys2Proof.Machine.execGridCompletion grid s
  | .copyBegin op => Sys2Proof.Machine.execCopyBegin op s
  | .copyRow op => Sys2Proof.Machine.execCopyRow op s
  | .pageCacheFillDone sector => Sys2Proof.Machine.execPageCacheFillDone sector s
  | .coalescerBatchClose die => Sys2Proof.Machine.execCoalescerBatchClose die s
  | .traverseStep op => Sys2Proof.Machine.execTraverseStep op s
  | .pairStep op => Sys2Proof.Machine.execPairStep op s
  | .textureQuad op => Sys2Proof.Machine.execTextureQuad op s
  | .rasterTriangle op => Sys2Proof.Machine.execRasterTriangle op s
  | .sweepClaim sweep rank => Sys2Proof.Machine.execSweepClaim sweep rank s
  | .sweepWriteback sweep rank => Sys2Proof.Machine.execSweepWriteback sweep rank s
  | .passBarrier sweep => Sys2Proof.Machine.execPassBarrier sweep s
  | .hostSnoop line data => Sys2Proof.Machine.execHostSnoop line data s
  | .backInvalidation line => Sys2Proof.Machine.execBackInvalidation line s
  | .hostWindowRead port off size => Sys2Proof.Machine.execHostWindowRead port off size s
  | .hostWindowWrite port off size data => Sys2Proof.Machine.execHostWindowWrite port off size data s
  | .signalWakeAll port entry data => Sys2Proof.Machine.execSignalWakeAll port entry data s
  | .signalWakeOne port entry data => Sys2Proof.Machine.execSignalWakeOne port entry data s
  | .signalRegisterHostWait port entry data => Sys2Proof.Machine.execSignalRegisterHostWait port entry data s
  | .signalPostInterrupt port entry data => Sys2Proof.Machine.execSignalPostInterrupt port entry data s
  | .signalApertureIgnored port off => Sys2Proof.Machine.execSignalApertureIgnored port off s
  | .heartbeat => Sys2Proof.Machine.execHeartbeat s
  | .portLoss port => Sys2Proof.Machine.execPortLoss port s
  | .schedulerDecision part => Sys2Proof.Machine.execSchedulerDecision part s
  | .quantumExpiry part => Sys2Proof.Machine.execQuantumExpiry part s
  | .preemptHalt part => Sys2Proof.Machine.execPreemptHalt part s
  | .preemptSwap part => Sys2Proof.Machine.execPreemptSwap part s
  | .contextStaging part => Sys2Proof.Machine.execContextStaging part s
  | .coldStart x => Sys2Proof.Machine.execColdStart x s
  | .warmStart x => Sys2Proof.Machine.execWarmStart x s
  | .startComplete x => Sys2Proof.Machine.execStartComplete x s
  | .startTimeout => Sys2Proof.Machine.execStartTimeout s
  | .fullServiceTransition => Sys2Proof.Machine.execFullServiceTransition s
  | .attestationReport nonce => Sys2Proof.Machine.execAttestationReport nonce s
  | .securityAlarm1 sensor => Sys2Proof.Machine.execSecurityAlarm1 sensor s
  | .securityAlarm2 sensor => Sys2Proof.Machine.execSecurityAlarm2 sensor s
  | .securityAlarm3 sensor => Sys2Proof.Machine.execSecurityAlarm3 sensor s
  | .traceControlRead die => Sys2Proof.Machine.execTraceControlRead die s
  | .counterSnapshot die => Sys2Proof.Machine.execCounterSnapshot die s
  | .preciseStop => Sys2Proof.Machine.execPreciseStop s
  | .jtagIdcode => Sys2Proof.Machine.execJtagIdcode s
  | .jtagStopreq tick => Sys2Proof.Machine.execJtagStopreq tick s
  | .jtagChsel chain => Sys2Proof.Machine.execJtagChsel chain s
  | .jtagChread nbits => Sys2Proof.Machine.execJtagChread nbits s
  | .jtagResume => Sys2Proof.Machine.execJtagResume s
  | .jtagBypass code => Sys2Proof.Machine.execJtagBypass code s
  | .powerLimitSet watts => Sys2Proof.Machine.execPowerLimitSet watts s
  | .powerThrottle kHz => Sys2Proof.Machine.execPowerThrottle kHz s
  | .thermalThrottle x => Sys2Proof.Machine.execThermalThrottle x s
  | .thermalShutdown x => Sys2Proof.Machine.execThermalShutdown x s
  | .coolantFlowLow => Sys2Proof.Machine.execCoolantFlowLow s
  | .deepPowerEntry => Sys2Proof.Machine.execDeepPowerEntry s
  | .deepPowerExit cycles => Sys2Proof.Machine.execDeepPowerExit cycles s
  | .telemetryRefresh x => Sys2Proof.Machine.execTelemetryRefresh x s
  | .nop g => Sys2Proof.Machine.execNop g s
  | .bra g off => Sys2Proof.Machine.execBra g off s
  | .brx g t => Sys2Proof.Machine.execBrx g t s
  | .btab g k idx tab cnt => Sys2Proof.Machine.execBtab g k idx tab cnt s
  | .call g d off => Sys2Proof.Machine.execCall g d off s
  | .callx g d t => Sys2Proof.Machine.execCallx g d t s
  | .ret g t => Sys2Proof.Machine.execRet g t s
  | .exit g => Sys2Proof.Machine.execExit g s
  | .jmask g k a => Sys2Proof.Machine.execJmask g k a s
  | .jmaskAct g k => Sys2Proof.Machine.execJmaskAct g k s
  | .jmaskOr g k => Sys2Proof.Machine.execJmaskOr g k s
  | .join k => Sys2Proof.Machine.execJoin k s
  | .jany g pd k => Sys2Proof.Machine.execJany g pd k s
  | .yield g => Sys2Proof.Machine.execYield g s
  | .waitd g mk => Sys2Proof.Machine.execWaitd g mk s
  | .setprio g n => Sys2Proof.Machine.execSetprio g n s
  | .setprioS g a => Sys2Proof.Machine.execSetprioS g a s
  | .sleep g a lit => Sys2Proof.Machine.execSleep g a lit s
  | .bararv g d b n => Sys2Proof.Machine.execBararv g d b n s
  | .barwait g b a => Sys2Proof.Machine.execBarwait g b a s
  | .ordwait g => Sys2Proof.Machine.execOrdwait g s
  | .ordrel g => Sys2Proof.Machine.execOrdrel g s
  | .srd g d r => Sys2Proof.Machine.execSrd g d r s
  | .swr g r a => Sys2Proof.Machine.execSwr g r a s
  | .swrFlags g a => Sys2Proof.Machine.execSwrFlags g a s
  | .swrMode g a => Sys2Proof.Machine.execSwrMode g a s
  | .swrLease g a => Sys2Proof.Machine.execSwrLease g a s
  | .swrStopat g a => Sys2Proof.Machine.execSwrStopat g a s
  | .smov g d a => Sys2Proof.Machine.execSmov g d a s
  | .sli g ty d x => Sys2Proof.Machine.execSli g ty d x s
  | .sliHi g d x => Sys2Proof.Machine.execSliHi g d x s
  | .sadd g ty d a b => Sys2Proof.Machine.execSadd g ty d a b s
  | .ssub g ty d a b => Sys2Proof.Machine.execSsub g ty d a b s
  | .smul g ty d a b => Sys2Proof.Machine.execSmul g ty d a b s
  | .smad g ty d a b c => Sys2Proof.Machine.execSmad g ty d a b c s
  | .slog g op d a b => Sys2Proof.Machine.execSlog g op d a b s
  | .sshf g op ty d a b => Sys2Proof.Machine.execSshf g op ty d a b s
  | .scmp g cc ty d a b => Sys2Proof.Machine.execScmp g cc ty d a b s
  | .ssel g d a b c => Sys2Proof.Machine.execSsel g d a b c s
  | .mov g d a => Sys2Proof.Machine.execMov g d a s
  | .li g ty d x => Sys2Proof.Machine.execLi g ty d x s
  | .liHi g ty d x => Sys2Proof.Machine.execLiHi g ty d x s
  | .iadd g ty sat d a b => Sys2Proof.Machine.execIadd g ty sat d a b s
  | .isub g ty sat d a b => Sys2Proof.Machine.execIsub g ty sat d a b s
  | .imul g ty sat d a b => Sys2Proof.Machine.execImul g ty sat d a b s
  | .imulh g ty d a b => Sys2Proof.Machine.execImulh g ty d a b s
  | .imad g ty sat d a b c => Sys2Proof.Machine.execImad g ty sat d a b c s
  | .imin g ty d a b => Sys2Proof.Machine.execImin g ty d a b s
  | .imax g ty d a b => Sys2Proof.Machine.execImax g ty d a b s
  | .iabs g ty sat d a => Sys2Proof.Machine.execIabs g ty sat d a s
  | .ineg g ty sat d a => Sys2Proof.Machine.execIneg g ty sat d a s
  | .log g op d a b => Sys2Proof.Machine.execLog g op d a b s
  | .shl g ty d a b => Sys2Proof.Machine.execShl g ty d a b s
  | .shr g ty d a b => Sys2Proof.Machine.execShr g ty d a b s
  | .sar g ty d a b => Sys2Proof.Machine.execSar g ty d a b s
  | .rot g right d a b => Sys2Proof.Machine.execRot g right d a b s
  | .popc g ty d a => Sys2Proof.Machine.execPopc g ty d a s
  | .clz g ty d a => Sys2Proof.Machine.execClz g ty d a s
  | .brev g d a => Sys2Proof.Machine.execBrev g d a s
  | .bfe g ty d a b => Sys2Proof.Machine.execBfe g ty d a b s
  | .bfi g d a b c => Sys2Proof.Machine.execBfi g d a b c s
  | .bperm g d a b c => Sys2Proof.Machine.execBperm g d a b c s
  | .icmp g cc any ty pd a b => Sys2Proof.Machine.execIcmp g cc any ty pd a b s
  | .sel g d a b pc => Sys2Proof.Machine.execSel g d a b pc s
  | .lea g scl d a b off => Sys2Proof.Machine.execLea g scl d a b off s
  | .iaddx g nc d pco a b pci => Sys2Proof.Machine.execIaddx g nc d pco a b pci s
  | .plog g op pd pa pb => Sys2Proof.Machine.execPlog g op pd pa pb s
  | .pmov g pd pa => Sys2Proof.Machine.execPmov g pd pa s
  | .pmovS g pd a => Sys2Proof.Machine.execPmovS g pd a s
  | .pcnt g d pa => Sys2Proof.Machine.execPcnt g d pa s
  | .rget g ll d idx => Sys2Proof.Machine.execRget g ll d idx s
  | .rput g idx src => Sys2Proof.Machine.execRput g idx src s
  | .fadd g ty d a b => Sys2Proof.Machine.execFadd g ty d a b s
  | .fsub g ty d a b => Sys2Proof.Machine.execFsub g ty d a b s
  | .fmul g ty d a b => Sys2Proof.Machine.execFmul g ty d a b s
  | .ffma g ty d a b c => Sys2Proof.Machine.execFfma g ty d a b c s
  | .fmin g ty d a b => Sys2Proof.Machine.execFmin g ty d a b s
  | .fmax g ty d a b => Sys2Proof.Machine.execFmax g ty d a b s
  | .fcmp g cc any ty pd a b => Sys2Proof.Machine.execFcmp g cc any ty pd a b s
  | .fclass g ty d a => Sys2Proof.Machine.execFclass g ty d a s
  | .frnd g m x ty d a => Sys2Proof.Machine.execFrnd g m x ty d a s
  | .fscale g ty d a b => Sys2Proof.Machine.execFscale g ty d a b s
  | .fdot g ty d a b c => Sys2Proof.Machine.execFdot g ty d a b c s
  | .rcp g ll ty d a => Sys2Proof.Machine.execRcp g ll ty d a s
  | .rsq g ll ty d a => Sys2Proof.Machine.execRsq g ll ty d a s
  | .sqrt g ll ty d a => Sys2Proof.Machine.execSqrt g ll ty d a s
  | .exp2 g ll ty d a => Sys2Proof.Machine.execExp2 g ll ty d a s
  | .log2 g ll ty d a => Sys2Proof.Machine.execLog2 g ll ty d a s
  | .sin g ll ty d a => Sys2Proof.Machine.execSin g ll ty d a s
  | .cos g ll ty d a => Sys2Proof.Machine.execCos g ll ty d a s
  | .tanh g ll ty d a => Sys2Proof.Machine.execTanh g ll ty d a s
  | .fcvt g dt st d a sf df => Sys2Proof.Machine.execFcvt g dt st d a sf df s
  | .ftoi g dt st d a sf df => Sys2Proof.Machine.execFtoi g dt st d a sf df s
  | .icvt g sat dt st d a sf df => Sys2Proof.Machine.execIcvt g sat dt st d a sf df s
  | .fmtset g k x => Sys2Proof.Machine.execFmtset g k x s
  | .ncvtDec g w ty d a b k as p => Sys2Proof.Machine.execNcvtDec g w ty d a b k as p s
  | .ncvtEnc g w ty d a b k as p => Sys2Proof.Machine.execNcvtEnc g w ty d a b k as p s
  | .ndot g ll w d a b sen as fs => Sys2Proof.Machine.execNdot g ll w d a b sen as fs s
  | .perm g md d a b x => Sys2Proof.Machine.execPerm g md d a b x s
  | .bcast g md d a b x => Sys2Proof.Machine.execBcast g md d a b x s
  | .vote g d pa x => Sys2Proof.Machine.execVote g d pa x s
  | .redu g op ty d a x => Sys2Proof.Machine.execRedu g op ty d a x s
  | .scan g op excl ty d a x => Sys2Proof.Machine.execScan g op excl ty d a x s
  | .matchLanes g d a x => Sys2Proof.Machine.execMatchLanes g d a x s
  | .derivx g coarse ty d a x => Sys2Proof.Machine.execDerivx g coarse ty d a x s
  | .derivy g coarse ty d a x => Sys2Proof.Machine.execDerivy g coarse ty d a x s
  | .qswap g md d a x => Sys2Proof.Machine.execQswap g md d a x s
  | .xalu g ll ty op sat d a b n => Sys2Proof.Machine.execXalu g ll ty op sat d a b n s
  | .xfma g ll ty d a b n => Sys2Proof.Machine.execXfma g ll ty d a b n s
  | .xcvt g ll dt st sat d a n => Sys2Proof.Machine.execXcvt g ll dt st sat d a n s
  | .xred g ll ty op d a n => Sys2Proof.Machine.execXred g ll ty op d a n s
  | .xscan g ll ty op excl d a n => Sys2Proof.Machine.execXscan g ll ty op excl d a n s
  | .xsel g ll ty d a b n => Sys2Proof.Machine.execXsel g ll ty d a b n s
  | .ld g ll sz sx d m => Sys2Proof.Machine.execLd g ll sz sx d m s
  | .st g ll sz d m => Sys2Proof.Machine.execSt g ll sz d m s
  | .lds g ll sz sx d m => Sys2Proof.Machine.execLds g ll sz sx d m s
  | .sts g ll sz d m => Sys2Proof.Machine.execSts g ll sz d m s
  | .ldt g ll sx d h c => Sys2Proof.Machine.execLdt g ll sx d h c s
  | .stt g ll d h c => Sys2Proof.Machine.execStt g ll d h c s
  | .pref g lvl m => Sys2Proof.Machine.execPref g lvl m s
  | .cp g ll out sh d h c => Sys2Proof.Machine.execCp g ll out sh d h c s
  | .cpw g ll out sh d a n => Sys2Proof.Machine.execCpw g ll out sh d a n s
  | .atom g ll op ty sc d a off b => Sys2Proof.Machine.execAtom g ll op ty sc d a off b s
  | .atomc g ll ty sc d a off b => Sys2Proof.Machine.execAtomc g ll ty sc d a off b s
  | .atoms g ll op ty d a off b => Sys2Proof.Machine.execAtoms g ll op ty d a off b s
  | .fence g sc => Sys2Proof.Machine.execFence g sc s
  | .waita g cc ty d a off b => Sys2Proof.Machine.execWaita g cc ty d a off b s
  | .wake g d a off b => Sys2Proof.Machine.execWake g d a off b s
  | .mfill g ll d b => Sys2Proof.Machine.execMfill g ll d b s
  | .mcopy g ll d a b => Sys2Proof.Machine.execMcopy g ll d a b s
  | .mcmp g ll d a b => Sys2Proof.Machine.execMcmp g ll d a b s
  | .mred g ll op ty d a b => Sys2Proof.Machine.execMred g ll op ty d a b s
  | .lrbind g ll d a => Sys2Proof.Machine.execLrbind g ll d a s
  | .lrfree g ll a => Sys2Proof.Machine.execLrfree g ll a s
  | .lrqry g ll d a w => Sys2Proof.Machine.execLrqry g ll d a w s
  | .shcfg g k a => Sys2Proof.Machine.execShcfg g k a s
  | .shcfgOff g k => Sys2Proof.Machine.execShcfgOff g k s
  | .shacq g d k c => Sys2Proof.Machine.execShacq g d k c s
  | .shcom g k c => Sys2Proof.Machine.execShcom g k c s
  | .shwait g d k c => Sys2Proof.Machine.execShwait g d k c s
  | .shrel g k c => Sys2Proof.Machine.execShrel g k c s
  | .prwait g a b off => Sys2Proof.Machine.execPrwait g a b off s
  | .mstart g ll x => Sys2Proof.Machine.execMstart g ll x s
  | .mstop g => Sys2Proof.Machine.execMstop g s
  | .mma kind d a b => Sys2Proof.Machine.execMma kind d a b s
  | .mzero d => Sys2Proof.Machine.execMzero d s
  | .mload d m => Sys2Proof.Machine.execMload d m s
  | .mdrain sat amax t m => Sys2Proof.Machine.execMdrain sat amax t m s
  | .mdrainMem sat amax desc t => Sys2Proof.Machine.execMdrainMem sat amax desc t s
  | .mshrTake k c => Sys2Proof.Machine.execMshrTake k c s
  | .mshrRel k c => Sys2Proof.Machine.execMshrRel k c s
  | .mshwAcq k c => Sys2Proof.Machine.execMshwAcq k c s
  | .mshwCom k c => Sys2Proof.Machine.execMshwCom k c s
  | .mbarArv b n => Sys2Proof.Machine.execMbarArv b n s
  | .mbarSync b n => Sys2Proof.Machine.execMbarSync b n s
  | .mloop n => Sys2Proof.Machine.execMloop n s
  | .mend => Sys2Proof.Machine.execMend s
  | .tbind g k a => Sys2Proof.Machine.execTbind g k a s
  | .tqry g d k w => Sys2Proof.Machine.execTqry g d k w s
  | .wlcfg g a b => Sys2Proof.Machine.execWlcfg g a b s
  | .wlapp g ll z po d a b => Sys2Proof.Machine.execWlapp g ll z po d a b s
  | .wltake g ll z po d a => Sys2Proof.Machine.execWltake g ll z po d a s
  | .wldone g a b => Sys2Proof.Machine.execWldone g a b s
  | .tdwait g d x => Sys2Proof.Machine.execTdwait g d x s
  | .psweep g ll md build rl d h b => Sys2Proof.Machine.execPsweep g ll md build rl d h b s
  | .pwait g kind a b => Sys2Proof.Machine.execPwait g kind a b s
  | .pwake g d h b => Sys2Proof.Machine.execPwake g d h b s
  | .pctx g ll d h b => Sys2Proof.Machine.execPctx g ll d h b s
  | .pqryCtx g ll d h b => Sys2Proof.Machine.execPqryCtx g ll d h b s
  | .pqrySweep g ll d h => Sys2Proof.Machine.execPqrySweep g ll d h s
  | .pstop g h => Sys2Proof.Machine.execPstop g h s
  | .rast g ll frag cullb rl d a => Sys2Proof.Machine.execRast g ll frag cullb rl d a s
  | .rsetup g ll cullb d a => Sys2Proof.Machine.execRsetup g ll cullb d a s
  | .rcover g ll po d a b => Sys2Proof.Machine.execRcover g ll po d a b s
  | .tex g ll d a b => Sys2Proof.Machine.execTex g ll d a b s
  | .texg g ll c d a b => Sys2Proof.Machine.execTexg g ll c d a b s
  | .texl g ll d a b => Sys2Proof.Machine.execTexl g ll d a b s
  | .texd g ll d a b => Sys2Proof.Machine.execTexd g ll d a b s
  | .tlod g ll d a b => Sys2Proof.Machine.execTlod g ll d a b s
  | .imgst g ll d a b => Sys2Proof.Machine.execImgst g ll d a b s
  | .trace g ll any p d a b => Sys2Proof.Machine.execTrace g ll any p d a b s
  | .trcont g ll d => Sys2Proof.Machine.execTrcont g ll d s
  | .trpair g ll self resume d a b => Sys2Proof.Machine.execTrpair g ll self resume d a b s
  | .trqry g ll w d => Sys2Proof.Machine.execTrqry g ll w d s
  | .trcommit g ll => Sys2Proof.Machine.execTrcommit g ll s
  | .boxt g ll po d a b => Sys2Proof.Machine.execBoxt g ll po d a b s
  | .trit g ll po d a b => Sys2Proof.Machine.execTrit g ll po d a b s
  | .trap g n => Sys2Proof.Machine.execTrap g n s
  | .brk g n => Sys2Proof.Machine.execBrk g n s
  | .eret => Sys2Proof.Machine.execEret s
  | .uiret => Sys2Proof.Machine.execUiret s
  | .launch g ll d a => Sys2Proof.Machine.execLaunch g ll d a s
  | .csave g ll d a b => Sys2Proof.Machine.execCsave g ll d a b s
  | .crest g ll d a b => Sys2Proof.Machine.execCrest g ll d a b s
  | .tick g d => Sys2Proof.Machine.execTick g d s
  | .mark g n a => Sys2Proof.Machine.execMark g n a s
  | .patom g ll op d a b => Sys2Proof.Machine.execPatom g ll op d a b s
  | .fuserd g d n => Sys2Proof.Machine.execFuserd g d n s
  | .lmsver g ll token d a b => Sys2Proof.Machine.execLmsver g ll token d a b s
  | .kwipe g d a => Sys2Proof.Machine.execKwipe g d a s
  | .measureExt g ll d m b => Sys2Proof.Machine.execMeasureExt g ll d m b s
  | .measureRd g ll d m b => Sys2Proof.Machine.execMeasureRd g ll d m b s
  | .dbgopen g d => Sys2Proof.Machine.execDbgopen g d s
  | .iaddShort g t d a b => Sys2Proof.Machine.execIaddShort g t d a b s
  | .isubShort g t d a b => Sys2Proof.Machine.execIsubShort g t d a b s
  | .imulShort g t d a b => Sys2Proof.Machine.execImulShort g t d a b s
  | .iminShort g t d a b => Sys2Proof.Machine.execIminShort g t d a b s
  | .imaxShort g t d a b => Sys2Proof.Machine.execImaxShort g t d a b s
  | .shlShort g t d a b => Sys2Proof.Machine.execShlShort g t d a b s
  | .shrShort g t d a b => Sys2Proof.Machine.execShrShort g t d a b s
  | .sarShort g t d a b => Sys2Proof.Machine.execSarShort g t d a b s
  | .faddF16x4Short g d a b => Sys2Proof.Machine.execFaddF16x4Short g d a b s
  | .faddBf16x4Short g d a b => Sys2Proof.Machine.execFaddBf16x4Short g d a b s
  | .faddF32x2Short g d a b => Sys2Proof.Machine.execFaddF32x2Short g d a b s
  | .faddF32Short g d a b => Sys2Proof.Machine.execFaddF32Short g d a b s
  | .faddF64Short g d a b => Sys2Proof.Machine.execFaddF64Short g d a b s
  | .fsubF16x4Short g d a b => Sys2Proof.Machine.execFsubF16x4Short g d a b s
  | .fsubBf16x4Short g d a b => Sys2Proof.Machine.execFsubBf16x4Short g d a b s
  | .fsubF32x2Short g d a b => Sys2Proof.Machine.execFsubF32x2Short g d a b s
  | .fsubF32Short g d a b => Sys2Proof.Machine.execFsubF32Short g d a b s
  | .fsubF64Short g d a b => Sys2Proof.Machine.execFsubF64Short g d a b s
  | .fmulF16x4Short g d a b => Sys2Proof.Machine.execFmulF16x4Short g d a b s
  | .fmulBf16x4Short g d a b => Sys2Proof.Machine.execFmulBf16x4Short g d a b s
  | .fmulF32x2Short g d a b => Sys2Proof.Machine.execFmulF32x2Short g d a b s
  | .fmulF32Short g d a b => Sys2Proof.Machine.execFmulF32Short g d a b s
  | .fmulF64Short g d a b => Sys2Proof.Machine.execFmulF64Short g d a b s
  | .fminF16x4Short g d a b => Sys2Proof.Machine.execFminF16x4Short g d a b s
  | .fminBf16x4Short g d a b => Sys2Proof.Machine.execFminBf16x4Short g d a b s
  | .fminF32x2Short g d a b => Sys2Proof.Machine.execFminF32x2Short g d a b s
  | .fminF32Short g d a b => Sys2Proof.Machine.execFminF32Short g d a b s
  | .fminF64Short g d a b => Sys2Proof.Machine.execFminF64Short g d a b s
  | .fmaxF16x4Short g d a b => Sys2Proof.Machine.execFmaxF16x4Short g d a b s
  | .fmaxBf16x4Short g d a b => Sys2Proof.Machine.execFmaxBf16x4Short g d a b s
  | .fmaxF32x2Short g d a b => Sys2Proof.Machine.execFmaxF32x2Short g d a b s
  | .fmaxF32Short g d a b => Sys2Proof.Machine.execFmaxF32Short g d a b s
  | .fmaxF64Short g d a b => Sys2Proof.Machine.execFmaxF64Short g d a b s
  | .movShort g d a => Sys2Proof.Machine.execMovShort g d a s
  | .nopShort g => Sys2Proof.Machine.execNopShort g s
  | .exitShort g => Sys2Proof.Machine.execExitShort g s
  | .yieldShort g => Sys2Proof.Machine.execYieldShort g s
  | .popcShort g d a => Sys2Proof.Machine.execPopcShort g d a s
  | .clzShort g d a => Sys2Proof.Machine.execClzShort g d a s
  | .brevShort g d a => Sys2Proof.Machine.execBrevShort g d a s
  | .logAndShort g d a b => Sys2Proof.Machine.execLogAndShort g d a b s
  | .logOrShort g d a b => Sys2Proof.Machine.execLogOrShort g d a b s
  | .logXorShort g d a b => Sys2Proof.Machine.execLogXorShort g d a b s
  | .rotShort g d a b => Sys2Proof.Machine.execRotShort g d a b s
  | .iabsI32x2Short g d a => Sys2Proof.Machine.execIabsI32x2Short g d a s
  | .inegI32x2Short g d a => Sys2Proof.Machine.execInegI32x2Short g d a s
  | .iabsI64Short g d a => Sys2Proof.Machine.execIabsI64Short g d a s
  | .inegI64Short g d a => Sys2Proof.Machine.execInegI64Short g d a s
  | .instructionCacheFill core ctx line => Sys2Proof.Machine.execInstructionCacheFill core ctx line s
  | .fuseProgramming bit => Sys2Proof.Machine.execFuseProgramming bit s
  | .gddr7TrainingComplete => Sys2Proof.Machine.execGddr7TrainingComplete s
  | .powerFailure => Sys2Proof.Machine.execPowerFailure s
  | .patomHeartbeatDeadline team grp port => Sys2Proof.Machine.execPatomHeartbeatDeadline team grp port s

end Sys2Proof.Machine
end

