-- ==== Sys2Proof/Decode.lean ====
section
/-!
DEFINITION. The encoding of instructions (R199-R215): the fields of the short, long and literal forms, the
decoder from bytes, total and refusing by name, and the encoder. Definitions that build late constructors of
Instr are marked noncomputable because compiled code has no tag for them; the kernel evaluates them.
-/
namespace Sys2Proof

/-- The result of decoding: an instruction, or the reason the bytes are none (R214). -/
abbrev Dec := Except DecodeErr

/-- The fields of the long and literal forms (R204, R205). `x` is the literal, 0 in the long form. -/
structure Fields where
  lit : Bool
  op : BitVec 9
  pg : BitVec 4
  pn : Bool
  d : BitVec 10
  a : BitVec 10
  b : BitVec 10
  c : BitVec 10
  md : BitVec 4
  ty : BitVec 4
  x : W32
  deriving DecidableEq, Repr

/-- The fields of the short form (R203). -/
structure ShortFields where
  op : BitVec 7
  pg : BitVec 4
  pn : Bool
  d : BitVec 6
  a : BitVec 6
  b : BitVec 6
  deriving DecidableEq, Repr

/-- Bits [lo + k - 1 : lo] of a value. -/
def bits {n : Nat} (x : BitVec n) (lo k : Nat) : BitVec k := x.extractLsb' lo k

/-- The fields of a long or literal instruction word (R202, R204, R205). -/
def Fields.unpack (w : BitVec 96) : Fields :=
  let lit := bits w 0 2 == 2
  { lit := lit, op := bits w 2 9, pg := bits w 11 4, pn := bits w 15 1 == 1, d := bits w 16 10,
    a := bits w 26 10, b := bits w 36 10, c := bits w 46 10, md := bits w 56 4, ty := bits w 60 4,
    x := if lit then bits w 64 32 else 0 }

/-- The instruction word of the fields, the literal in bits [95:64] (R204, R205). -/
def Fields.pack (f : Fields) : BitVec 96 :=
  f.x ++ f.ty ++ f.md ++ f.c ++ f.b ++ f.a ++ f.d ++ (if f.pn then 1#1 else 0#1) ++ f.pg ++ f.op ++
    (if f.lit then 2#2 else 1#2)

/-- The fields of a short instruction word (R203). -/
def ShortFields.unpack (w : W32) : ShortFields :=
  { op := bits w 2 7, pg := bits w 9 4, pn := bits w 13 1 == 1, d := bits w 14 6, a := bits w 20 6,
    b := bits w 26 6 }

/-- The instruction word of the fields of a short instruction (R203). -/
def ShortFields.pack (f : ShortFields) : W32 :=
  f.b ++ f.a ++ f.d ++ (if f.pn then 1#1 else 0#1) ++ f.pg ++ f.op ++ 0#2

/-- A field that must be zero (R221). -/
def zero {n : Nat} (x : BitVec n) : Dec Unit := if x = 0 then .ok () else .error .unusedField

/-- A register field of either class (R51). -/
def regOf (x : BitVec 10) : Reg := if x.toNat < 960 then .v x else .s (bits x 0 6)

/-- A register field that accepts only the uniform range (R51, R221). -/
def sregOf (x : BitVec 10) : Dec SReg :=
  if 960 ≤ x.toNat then .ok (bits x 0 6)
  else if 640 ≤ x.toNat then .error .regReserved else .error .regClass

/-- A vector destination that `S0` discards (R266, R270). -/
def discardOf (x : BitVec 10) : Option VReg := if x = 960 then none else some x

/-- A predicate field (R221). -/
def pregOf (x : BitVec 10) : Dec PReg := do zero (bits x 4 6); .ok (bits x 0 4)

/-- A join-mask register named in `MOD` (R226). -/
def jregOf (m : BitVec 4) : Dec JReg := do zero (bits m 3 1); .ok (bits m 0 3)

/-- The type of a `TY` code (R114). -/
def tyOf (t : BitVec 4) : Dec Ty :=
  match t.toNat with
  | 0 => .ok .b64 | 1 => .ok .i8x8 | 2 => .ok .n8x8 | 3 => .ok .i16x4 | 4 => .ok .n16x4
  | 5 => .ok .i32x2 | 6 => .ok .n32x2 | 7 => .ok .i64 | 8 => .ok .n64 | 9 => .ok .f16x4
  | 10 => .ok .bf16x4 | 11 => .ok .f32x2 | 12 => .ok .f64 | 13 => .ok .f32
  | _ => .error .ty

/-- An entry with no type takes `TY` 0 (R221). -/
def noTy (f : Fields) : Dec Unit := if f.ty = 0 then .ok () else .error .ty

/-- An entry that takes one given `TY`. -/
def oneTy (f : Fields) (t : Ty) : Dec Unit := if f.ty = t.code then .ok () else .error .ty

/-- An entry without the literal form (R221). -/
def noLit (f : Fields) : Dec Unit := if f.lit then .error .form else .ok ()

/-- An entry that exists only in the literal form. -/
def onlyLit (f : Fields) : Dec Unit := if f.lit then .ok () else .error .form

/-- A field value that the entry does not define. -/
def check (c : Bool) (e : DecodeErr) : Dec Unit := if c then .ok () else .error e

/-- The guard must be `P15`, not negated (R206, R226, R311). -/
def p15 (f : Fields) : Dec Unit := check (f.pg == 15 && !f.pn) .guard

/-- The guard fields. -/
def Fields.g (f : Fields) : Guard := { pg := f.pg, pn := f.pn }

/-- The last of two value sources: B, or the literal with B zero; C is zero (R205, R221). -/
def lastB (f : Fields) : Dec Opnd := do
  zero f.c
  if f.lit then do zero f.b; .ok (.lit f.x) else .ok (.reg (regOf f.b))

/-- The last of three value sources: C, or the literal with C zero (R205, R221). -/
def lastC (f : Fields) : Dec Opnd := do
  if f.lit then do zero f.c; .ok (.lit f.x) else .ok (.reg (regOf f.c))

/-- The last of two uniform sources. -/
def lastSB (f : Fields) : Dec SOpnd := do
  zero f.c
  if f.lit then do zero f.b; .ok (.lit f.x) else do let r ← sregOf f.b; .ok (.reg r)

/-- The last of three uniform sources. -/
def lastSC (f : Fields) : Dec SOpnd := do
  if f.lit then do zero f.c; .ok (.lit f.x) else do let r ← sregOf f.c; .ok (.reg r)

/-- An immediate in `IMM10` or in the literal (R230, R237). -/
def immOf (f : Fields) : Dec Imm := do
  if f.lit then do zero f.c; .ok (.lit f.x) else .ok (.short f.c)

/-- The counter field `DCN` (R207). -/
def dcnOf (x : BitVec 4) : Dec (Option (BitVec 3)) :=
  if x = 0 then .ok none else if 8 ≤ x.toNat then .ok (some (bits x 0 3)) else .error .dcn

/-- `LA` and `DCN` of a long-latency instruction, in either form (R207). -/
def llOf (f : Fields) : Dec Ll := do
  if f.lit then do
    zero (bits f.c 6 4)
    let dc ← dcnOf (bits f.x 28 4)
    .ok { la := f.md, dc := dc }
  else do
    let dc ← dcnOf (bits f.c 6 4)
    .ok { la := f.md, dc := dc }

/-- Operand bits [51:46] of a long-latency instruction (R207). -/
def Fields.cl (f : Fields) : BitVec 6 := bits f.c 0 6

/-- Operand bits [91:64] of the literal form of a long-latency instruction, if it is that form (R207). -/
def Fields.off28 (f : Fields) : Option (BitVec 28) := if f.lit then some (bits f.x 0 28) else none

/-- The whole literal as an offset, if it is the literal form. -/
def Fields.off32 (f : Fields) : Option W32 := if f.lit then some f.x else none

/-- The logic operations by number (R232). -/
def logOf (m : BitVec 4) : Dec LogOp :=
  match m.toNat with
  | 0 => .ok .and | 1 => .ok .or | 2 => .ok .xor | 3 => .ok .andn | 4 => .ok .orn | 5 => .ok .xnor
  | 6 => .ok .nand | 7 => .ok .nor
  | _ => .error .value

/-- The condition codes by number (R235). -/
def ccOf (m : BitVec 3) : Dec Cc :=
  match m.toNat with
  | 0 => .ok .eq | 1 => .ok .ne | 2 => .ok .lt | 3 => .ok .le | 4 => .ok .gt | 5 => .ok .ge
  | _ => .error .value

/-- The floating-point condition codes by number (R242). -/
def fccOf (m : BitVec 3) : Fcc :=
  match m.toNat with
  | 0 => .eq | 1 => .ne | 2 => .lt | 3 => .le | 4 => .gt | 5 => .ge | 6 => .un | _ => .ord

/-- The shift operations of SSHF by number (R229). -/
def shfOf (m : BitVec 4) : Dec ShfOp :=
  match m.toNat with
  | 0 => .ok .shl | 1 => .ok .shr | 2 => .ok .sar | 3 => .ok .rotl | 4 => .ok .rotr
  | _ => .error .value

/-- The operations of R252 by number. -/
def redOf (m : BitVec 3) : Dec RedOp :=
  match m.toNat with
  | 0 => .ok .add | 1 => .ok .min | 2 => .ok .max | 3 => .ok .and | 4 => .ok .or | 5 => .ok .xor
  | _ => .error .value

/-- The operations of XALU by number (R254). -/
def xopOf (m : BitVec 4) : Dec XOp :=
  match m.toNat with
  | 0 => .ok .add | 1 => .ok .sub | 2 => .ok .mul | 3 => .ok .min | 4 => .ok .max | 5 => .ok .and
  | 6 => .ok .or | 7 => .ok .xor
  | _ => .error .value

/-- The operations of the atomics by number (R267). -/
def atomOf (m : BitVec 4) : Dec AtomOp :=
  match m.toNat with
  | 0 => .ok .iadd | 1 => .ok .and | 2 => .ok .or | 3 => .ok .xor | 4 => .ok .min | 5 => .ok .max
  | 6 => .ok .xchg | 7 => .ok .fadd | 8 => .ok .fmin | 9 => .ok .fmax | 10 => .ok .cas
  | _ => .error .value

/-- Scopes by number (R266, R269). -/
def scopeOf (m : BitVec 2) : Dec Scope :=
  match m.toNat with
  | 0 => .ok .dev | 1 => .ok .host | 2 => .ok .pool
  | _ => .error .value

/-- Widths of the narrow family by number (R248). -/
def widthOf (m : BitVec 2) : Dec NWidth :=
  match m.toNat with
  | 0 => .ok .n8 | 1 => .ok .n6 | 2 => .ok .n4
  | _ => .error .value

/-- Access sizes by number (R257). -/
def szOf (m : BitVec 3) : Dec Sz :=
  match m.toNat with
  | 0 => .ok .b1 | 1 => .ok .b2 | 2 => .ok .b4 | 3 => .ok .b8 | 4 => .ok .b16 | 5 => .ok .b32
  | _ => .error .value

/-- System registers by selector (R57). -/
def sysOf (m : BitVec 10) : Dec SysReg :=
  match m.toNat with
  | 0x00 => .ok .capLo | 0x01 => .ok .capHi | 0x02 => .ok .ctxid | 0x03 => .ok .grpid
  | 0x04 => .ok .teamid | 0x05 => .ok .laneid | 0x06 => .ok .prio | 0x07 => .ok .flags
  | 0x08 => .ok .mode | 0x09 => .ok .gts | 0x0A => .ok .tick | 0x0B => .ok .faultinfo
  | 0x0C => .ok .faultlanes | 0x0D => .ok .trappc | 0x0E => .ok .tvec | 0x0F => .ok .rastthr
  | 0x10 => .ok .trvcfg | 0x11 => .ok .swpcfg | 0x12 => .ok .lease | 0x13 => .ok .stopat
  | _ => .error .value

/-- The member-mask field of a cross-lane instruction (R250). -/
def mbrOf (f : Fields) : Mbr := { m := bits f.c 0 6, po := bits f.c 6 4 }

/-- The memory operand of R257. -/
def memOf (f : Fields) : MemOp :=
  { base := regOf f.a, index := regOf f.b, scl := bits f.c 0 2, off := f.off28 }

/-- An operand map of a stream instruction (R283). -/
def mapOf (x : BitVec 10) : Dec MapOp := do
  zero (bits x 9 1)
  if bits x 4 1 = 1 then .ok { map := bits x 0 4, shelf := some (bits x 5 4) }
  else do zero (bits x 5 4); .ok { map := bits x 0 4, shelf := none }

/-- An accumulator tile field, [4:0] with [9:5] zero (R284). -/
def tileOf (x : BitVec 10) : Dec (BitVec 5) := do zero (bits x 5 5); .ok (bits x 0 5)

/-- A slot count in `IMM10` [6:0], [9:7] zero (R276, R286). -/
def cntOf (x : BitVec 10) : Dec (BitVec 7) := do zero (bits x 7 3); .ok (bits x 0 7)

/-- Control, synchronisation and system-register opcodes, 0x000-0x03F (R223-R231, R302). -/
def decControl (f : Fields) : Dec Instr :=
  match f.op.toNat with
  | 0x000 => do noLit f; zero f.d; zero f.a; zero f.b; zero f.c; zero f.md; noTy f; .ok (.nop f.g)
  | 0x001 => do noLit f; zero f.md; noTy f; .ok (.bra f.g (f.c ++ f.b ++ f.a ++ f.d))
  | 0x002 => do
    noLit f; zero f.d; zero f.b; zero f.c; zero f.md; noTy f; .ok (.brx f.g (regOf f.a))
  | 0x003 => do
    noLit f; zero f.d; noTy f
    let k ← jregOf f.md
    let t ← sregOf f.b
    .ok (.btab f.g k (regOf f.a) t f.c)
  | 0x004 => do noLit f; zero f.md; noTy f; .ok (.call f.g f.d (f.c ++ f.b ++ f.a))
  | 0x005 => do noLit f; zero f.b; zero f.c; zero f.md; noTy f; .ok (.callx f.g f.d (regOf f.a))
  | 0x006 => do
    noLit f; zero f.d; zero f.b; zero f.c; zero f.md; noTy f; .ok (.ret f.g (regOf f.a))
  | 0x007 => do noLit f; zero f.d; zero f.a; zero f.b; zero f.c; zero f.md; noTy f; .ok (.exit f.g)
  | 0x008 => do
    noLit f; zero f.d; zero f.b; noTy f
    let k ← jregOf f.md
    match f.c.toNat with
    | 0 => do let a ← sregOf f.a; .ok (.jmask f.g k a)
    | 1 => do zero f.a; .ok (.jmaskAct f.g k)
    | 2 => do zero f.a; .ok (.jmaskOr f.g k)
    | _ => .error .value
  | 0x009 => do
    noLit f; p15 f; zero f.d; zero f.a; zero f.b; zero f.c; noTy f
    let k ← jregOf f.md
    .ok (.join k)
  | 0x00A => do
    noLit f; zero f.a; zero f.b; zero f.c; noTy f
    let pd ← pregOf f.d
    let k ← jregOf f.md
    .ok (.jany f.g pd k)
  | 0x00B => do noLit f; zero f.d; zero f.a; zero f.b; zero f.c; zero f.md; noTy f; .ok (.yield f.g)
  | 0x00C => do
    noLit f; zero f.d; zero f.a; zero f.b; zero f.md; noTy f
    zero (bits f.c 8 2)
    .ok (.waitd f.g (bits f.c 0 8))
  | 0x00D => do
    noLit f; zero f.d; zero f.b; noTy f
    match f.md.toNat with
    | 0 => do zero f.a; zero (bits f.c 4 6); .ok (.setprio f.g (bits f.c 0 4))
    | 1 => do zero f.c; let a ← sregOf f.a; .ok (.setprioS f.g a)
    | _ => .error .value
  | 0x00E => do
    zero f.d; zero f.b; zero f.c; zero f.md; noTy f
    let a ← sregOf f.a
    .ok (.sleep f.g a f.off32)
  | 0x00F => do
    noLit f; zero f.a; zero f.b; noTy f
    let d ← sregOf f.d
    .ok (.bararv f.g d f.md f.c)
  | 0x010 => do
    noLit f; zero f.d; zero f.b; zero f.c; noTy f
    let a ← sregOf f.a
    .ok (.barwait f.g f.md a)
  | 0x011 => do noLit f; zero f.d; zero f.a; zero f.b; zero f.c; zero f.md; noTy f; .ok (.ordwait f.g)
  | 0x012 => do noLit f; zero f.d; zero f.a; zero f.b; zero f.c; zero f.md; noTy f; .ok (.ordrel f.g)
  | 0x013 => do
    noLit f; zero f.a; zero f.b; zero f.md; noTy f
    let r ← sysOf f.c
    .ok (.srd f.g (regOf f.d) r)
  | 0x014 => do
    noLit f; zero f.d; zero f.b; zero f.md; noTy f
    let r ← sysOf f.c
    match r with
    | .flags => .ok (.swrFlags f.g (regOf f.a))
    | .mode => .ok (.swrMode f.g (regOf f.a))
    | .lease => .ok (.swrLease f.g (regOf f.a))
    | .stopat => .ok (.swrStopat f.g (regOf f.a))
    | r => .ok (.swr f.g r (regOf f.a))
  | _ => .error .opcode

/-- Uniform opcodes, 0x040-0x07F (R229, R230). -/
def decUniform (f : Fields) : Dec Instr :=
  match f.op.toNat with
  | 0x040 => do
    noLit f; zero f.b; zero f.c; zero f.md; noTy f
    let d ← sregOf f.d
    let a ← sregOf f.a
    .ok (.smov f.g d a)
  | 0x041 => do
    zero f.a; zero f.b
    let d ← sregOf f.d
    match f.md.toNat with
    | 0 => do let t ← tyOf f.ty; let x ← immOf f; .ok (.sli f.g t d x)
    | 1 => do onlyLit f; noTy f; zero f.c; .ok (.sliHi f.g d f.x)
    | _ => .error .value
  | 0x042 => do
    zero f.md
    let t ← tyOf f.ty
    let d ← sregOf f.d
    let a ← sregOf f.a
    let b ← lastSB f
    .ok (.sadd f.g t d a b)
  | 0x043 => do
    zero f.md
    let t ← tyOf f.ty
    let d ← sregOf f.d
    let a ← sregOf f.a
    let b ← lastSB f
    .ok (.ssub f.g t d a b)
  | 0x044 => do
    zero f.md
    let t ← tyOf f.ty
    let d ← sregOf f.d
    let a ← sregOf f.a
    let b ← lastSB f
    .ok (.smul f.g t d a b)
  | 0x045 => do
    zero f.md
    let t ← tyOf f.ty
    let d ← sregOf f.d
    let a ← sregOf f.a
    let b ← sregOf f.b
    let c ← lastSC f
    .ok (.smad f.g t d a b c)
  | 0x046 => do
    noTy f
    let op ← logOf f.md
    let d ← sregOf f.d
    let a ← sregOf f.a
    let b ← lastSB f
    .ok (.slog f.g op d a b)
  | 0x047 => do
    let op ← shfOf f.md
    let t ← tyOf f.ty
    let d ← sregOf f.d
    let a ← sregOf f.a
    let b ← lastSB f
    .ok (.sshf f.g op t d a b)
  | 0x048 => do
    zero (bits f.md 3 1)
    let cc ← ccOf (bits f.md 0 3)
    let t ← tyOf f.ty
    let d ← sregOf f.d
    let a ← sregOf f.a
    let b ← lastSB f
    .ok (.scmp f.g cc t d a b)
  | 0x049 => do
    zero f.md; noTy f
    let d ← sregOf f.d
    let a ← sregOf f.a
    let b ← sregOf f.b
    let c ← lastSC f
    .ok (.ssel f.g d a b c)
  | _ => .error .opcode

/-- Integer opcodes with two value sources and a type. -/
def dec2 (f : Fields) (k : Ty → Opnd → Instr) : Dec Instr := do
  let t ← tyOf f.ty
  let b ← lastB f
  .ok (k t b)

/-- Opcodes with three value sources. -/
def dec3 (f : Fields) (k : Ty → Opnd → Instr) : Dec Instr := do
  let t ← tyOf f.ty
  let c ← lastC f
  .ok (k t c)

/-- Opcodes with one value source and no literal. -/
def dec1 (f : Fields) (k : Ty → Instr) : Dec Instr := do
  noLit f; zero f.b; zero f.c
  let t ← tyOf f.ty
  .ok (k t)

/-- `.sat` in `MOD` [0], with [3:1] zero (R232). -/
def satOf (f : Fields) : Dec Bool := do zero (bits f.md 1 3); .ok (bits f.md 0 1 == 1)

/-- Integer and bit opcodes, 0x080-0x0FF (R232-R237). -/
def decInteger (f : Fields) : Dec Instr :=
  match f.op.toNat with
  | 0x080 => do noLit f; zero f.b; zero f.c; zero f.md; noTy f; .ok (.mov f.g f.d (regOf f.a))
  | 0x081 => do
    zero f.a; zero f.b
    let t ← tyOf f.ty
    match f.md.toNat with
    | 0 => do let x ← immOf f; .ok (.li f.g t f.d x)
    | 1 => do onlyLit f; zero f.c; .ok (.liHi f.g t f.d f.x)
    | _ => .error .value
  | 0x082 => do let s ← satOf f; dec2 f fun t b => .iadd f.g t s f.d (regOf f.a) b
  | 0x083 => do let s ← satOf f; dec2 f fun t b => .isub f.g t s f.d (regOf f.a) b
  | 0x084 => do let s ← satOf f; dec2 f fun t b => .imul f.g t s f.d (regOf f.a) b
  | 0x085 => do zero f.md; dec2 f fun t b => .imulh f.g t f.d (regOf f.a) b
  | 0x086 => do
    let s ← satOf f; dec3 f fun t c => .imad f.g t s f.d (regOf f.a) (regOf f.b) c
  | 0x087 => do zero f.md; dec2 f fun t b => .imin f.g t f.d (regOf f.a) b
  | 0x088 => do zero f.md; dec2 f fun t b => .imax f.g t f.d (regOf f.a) b
  | 0x089 => do let s ← satOf f; dec1 f fun t => .iabs f.g t s f.d (regOf f.a)
  | 0x08A => do let s ← satOf f; dec1 f fun t => .ineg f.g t s f.d (regOf f.a)
  | 0x08B => do noTy f; let op ← logOf f.md; dec2 f fun _ b => .log f.g op f.d (regOf f.a) b
  | 0x08C => do zero f.md; dec2 f fun t b => .shl f.g t f.d (regOf f.a) b
  | 0x08D => do zero f.md; dec2 f fun t b => .shr f.g t f.d (regOf f.a) b
  | 0x08E => do zero f.md; dec2 f fun t b => .sar f.g t f.d (regOf f.a) b
  | 0x08F => do
    noTy f
    zero (bits f.md 1 3)
    dec2 f fun _ b => .rot f.g (bits f.md 0 1 == 1) f.d (regOf f.a) b
  | 0x090 => do zero f.md; dec1 f fun t => .popc f.g t f.d (regOf f.a)
  | 0x091 => do zero f.md; dec1 f fun t => .clz f.g t f.d (regOf f.a)
  | 0x092 => do zero f.md; noTy f; dec1 f fun _ => .brev f.g f.d (regOf f.a)
  | 0x093 => do zero f.md; dec2 f fun t b => .bfe f.g t f.d (regOf f.a) b
  | 0x094 => do zero f.md; noTy f; dec3 f fun _ c => .bfi f.g f.d (regOf f.a) (regOf f.b) c
  | 0x095 => do zero f.md; noTy f; dec3 f fun _ c => .bperm f.g f.d (regOf f.a) (regOf f.b) c
  | 0x096 => do
    let cc ← ccOf (bits f.md 0 3)
    let pd ← pregOf f.d
    dec2 f fun t b => .icmp f.g cc (bits f.md 3 1 == 1) t pd (regOf f.a) b
  | 0x097 => do
    noLit f; zero f.md; noTy f
    let pc ← pregOf f.c
    .ok (.sel f.g f.d (regOf f.a) (regOf f.b) pc)
  | 0x098 => do
    oneTy f .n64; zero (bits f.md 2 2); zero f.c
    .ok (.lea f.g (bits f.md 0 2) f.d (regOf f.a) (regOf f.b) f.off32)
  | 0x099 => do
    noLit f; oneTy f .n64; zero f.md; zero (bits f.c 9 1)
    .ok (.iaddx f.g (bits f.c 8 1 == 1) f.d (bits f.c 4 4) (regOf f.a) (regOf f.b) (bits f.c 0 4))
  | _ => .error .opcode

/-- The common layout of `FCVT`, `FTOI` and `ICVT` (R246). -/
def decCvt (f : Fields) (k : Ty → Ty → BitVec 4 → BitVec 4 → Instr) : Dec Instr := do
  noLit f; zero f.c; zero (bits f.b 9 1)
  let dt ← tyOf f.ty
  let st ← tyOf f.md
  .ok (k dt st (bits f.b 0 4) (bits f.b 4 4))

/-- A special-function opcode (R245). -/
def decSfu (f : Fields) (k : Ll → Ty → Instr) : Dec Instr := do
  noLit f; zero f.b; zero f.cl
  let l ← llOf f
  let t ← tyOf f.ty
  .ok (k l t)

/-- Floating point, special-function, conversion and narrow opcodes, 0x100-0x15F (R241-R249). -/
def decFloat (f : Fields) : Dec Instr :=
  match f.op.toNat with
  | 0x100 => do zero f.md; dec2 f fun t b => .fadd f.g t f.d (regOf f.a) b
  | 0x101 => do zero f.md; dec2 f fun t b => .fsub f.g t f.d (regOf f.a) b
  | 0x102 => do zero f.md; dec2 f fun t b => .fmul f.g t f.d (regOf f.a) b
  | 0x103 => do zero f.md; dec3 f fun t c => .ffma f.g t f.d (regOf f.a) (regOf f.b) c
  | 0x104 => do zero f.md; dec2 f fun t b => .fmin f.g t f.d (regOf f.a) b
  | 0x105 => do zero f.md; dec2 f fun t b => .fmax f.g t f.d (regOf f.a) b
  | 0x106 => do
    let pd ← pregOf f.d
    dec2 f fun t b => .fcmp f.g (fccOf (bits f.md 0 3)) (bits f.md 3 1 == 1) t pd (regOf f.a) b
  | 0x107 => do zero f.md; dec1 f fun t => .fclass f.g t f.d (regOf f.a)
  | 0x108 => do
    zero (bits f.md 3 1)
    let m ← match (bits f.md 0 2).toNat with
      | 0 => Except.ok Rnd.rn | 1 => .ok .rz | 2 => .ok .rd | _ => .ok .ru
    dec1 f fun t => .frnd f.g m (bits f.md 2 1 == 1) t f.d (regOf f.a)
  | 0x109 => do zero f.md; dec2 f fun t b => .fscale f.g t f.d (regOf f.a) b
  | 0x10A => do zero f.md; dec3 f fun t c => .fdot f.g t f.d (regOf f.a) (regOf f.b) c
  | 0x110 => decSfu f fun l t => .rcp f.g l t f.d (regOf f.a)
  | 0x111 => decSfu f fun l t => .rsq f.g l t f.d (regOf f.a)
  | 0x112 => decSfu f fun l t => .sqrt f.g l t f.d (regOf f.a)
  | 0x113 => decSfu f fun l t => .exp2 f.g l t f.d (regOf f.a)
  | 0x114 => decSfu f fun l t => .log2 f.g l t f.d (regOf f.a)
  | 0x115 => decSfu f fun l t => .sin f.g l t f.d (regOf f.a)
  | 0x116 => decSfu f fun l t => .cos f.g l t f.d (regOf f.a)
  | 0x117 => decSfu f fun l t => .tanh f.g l t f.d (regOf f.a)
  | 0x118 => do zero (bits f.b 8 1); decCvt f fun dt st s d => .fcvt f.g dt st f.d (regOf f.a) s d
  | 0x119 => decCvt f fun dt st s d => .icvt f.g (bits f.b 8 1 == 1) dt st f.d (regOf f.a) s d
  | 0x11A => do zero (bits f.b 8 1); decCvt f fun dt st s d => .ftoi f.g dt st f.d (regOf f.a) s d
  | 0x120 => do
    zero (bits f.d 4 6); zero f.b; zero f.c; zero f.md; noTy f
    if f.lit then do
      zero f.a
      zero (bits f.x 16 16)
      .ok (.fmtset f.g (bits f.d 0 4) (.lit (bits f.x 0 16)))
    else do
      let a ← sregOf f.a
      .ok (.fmtset f.g (bits f.d 0 4) (.reg a))
  | 0x121 => do
    noLit f; zero (bits f.md 3 1)
    let w ← widthOf (bits f.md 1 2)
    let t ← tyOf f.ty
    let k := bits f.c 0 4
    if bits f.md 0 1 = 1 then
      .ok (.ncvtEnc f.g w t f.d (regOf f.a) (regOf f.b) k (bits f.c 4 3) (bits f.c 7 3))
    else .ok (.ncvtDec f.g w t f.d (regOf f.a) (regOf f.b) k (bits f.c 4 3) (bits f.c 7 3))
  | 0x122 => do
    oneTy f .f32; zero (bits f.c 5 1)
    let l ← llOf f
    let w ← widthOf (bits f.c 3 2)
    if f.lit then do
      zero (bits f.x 8 20)
      .ok (.ndot f.g l w f.d (regOf f.a) (regOf f.b) (bits f.c 2 1 == 1) (bits f.c 0 2)
        (some (bits f.x 0 4, bits f.x 4 4)))
    else
      .ok (.ndot f.g l w f.d (regOf f.a) (regOf f.b) (bits f.c 2 1 == 1) (bits f.c 0 2) none)
  | _ => .error .opcode

/-- Cross-lane, predicate and indirect opcodes, 0x160-0x17F (R238, R239, R250-R253). -/
def decCross (f : Fields) : Dec Instr :=
  match f.op.toNat with
  | 0x160 => do
    noLit f; noTy f; zero (bits f.md 2 2)
    let md ← match (bits f.md 0 2).toNat with
      | 0 => Except.ok PermMd.idx | 1 => .ok .xor | 2 => .ok .up | _ => .ok .dn
    .ok (.perm f.g md f.d (regOf f.a) (regOf f.b) (mbrOf f))
  | 0x161 => do
    noLit f; noTy f
    match f.md.toNat with
    | 0 => do let b ← sregOf f.b; .ok (.bcast f.g .lane (regOf f.d) f.a b (mbrOf f))
    | 1 => do zero f.b; .ok (.bcast f.g .first (regOf f.d) f.a 0 (mbrOf f))
    | 2 => do zero f.b; .ok (.bcast f.g .last (regOf f.d) f.a 0 (mbrOf f))
    | _ => .error .value
  | 0x162 => do
    noLit f; noTy f; zero f.b
    let pa ← pregOf f.a
    match f.md.toNat with
    | 0 => do let pd ← pregOf f.d; .ok (.vote f.g (.pred .all pd) pa (mbrOf f))
    | 1 => do let pd ← pregOf f.d; .ok (.vote f.g (.pred .any pd) pa (mbrOf f))
    | 2 => do let pd ← pregOf f.d; .ok (.vote f.g (.pred .uni pd) pa (mbrOf f))
    | 3 => .ok (.vote f.g (.ballot (regOf f.d)) pa (mbrOf f))
    | _ => .error .value
  | 0x163 => do
    noLit f; zero f.b; zero (bits f.md 3 1)
    let op ← redOf (bits f.md 0 3)
    let t ← tyOf f.ty
    .ok (.redu f.g op t (regOf f.d) f.a (mbrOf f))
  | 0x164 => do
    noLit f; zero f.b
    let op ← redOf (bits f.md 0 3)
    let t ← tyOf f.ty
    .ok (.scan f.g op (bits f.md 3 1 == 1) t f.d f.a (mbrOf f))
  | 0x165 => do noLit f; zero f.b; zero f.md; noTy f; .ok (.matchLanes f.g f.d f.a (mbrOf f))
  | 0x166 => do
    noLit f; zero f.b; zero (bits f.md 1 3)
    let t ← tyOf f.ty
    .ok (.derivx f.g (bits f.md 0 1 == 1) t f.d f.a (mbrOf f))
  | 0x167 => do
    noLit f; zero f.b; zero (bits f.md 1 3)
    let t ← tyOf f.ty
    .ok (.derivy f.g (bits f.md 0 1 == 1) t f.d f.a (mbrOf f))
  | 0x168 => do
    noLit f; zero f.b; noTy f
    match f.md.toNat with
    | 0 => .ok (.qswap f.g .h f.d f.a (mbrOf f))
    | 1 => .ok (.qswap f.g .v f.d f.a (mbrOf f))
    | 2 => .ok (.qswap f.g .d f.d f.a (mbrOf f))
    | _ => .error .value
  | 0x170 => do
    noLit f; zero f.c; noTy f
    let op ← logOf f.md
    let pd ← pregOf f.d
    let pa ← pregOf f.a
    let pb ← pregOf f.b
    .ok (.plog f.g op pd pa pb)
  | 0x171 => do
    noLit f; zero f.b; zero f.c; noTy f
    let pd ← pregOf f.d
    match f.md.toNat with
    | 0 => do let pa ← pregOf f.a; .ok (.pmov f.g pd pa)
    | 1 => do let a ← sregOf f.a; .ok (.pmovS f.g pd a)
    | _ => .error .value
  | 0x172 => do
    noLit f; zero f.b; zero f.c; zero f.md; noTy f
    let d ← sregOf f.d
    let pa ← pregOf f.a
    .ok (.pcnt f.g d pa)
  | 0x173 => do
    noLit f; zero f.b; zero f.cl; noTy f
    let l ← llOf f
    .ok (.rget f.g l f.d (regOf f.a))
  | 0x174 => do
    noLit f; zero f.d; zero f.c; zero f.md; noTy f
    .ok (.rput f.g (regOf f.a) (regOf f.b))
  | _ => .error .opcode

/-- The fields of `LD`, `ST`, `LDS` and `STS` (R257). -/
def decAccess (f : Fields) (k : Ll → Sz → Bool → MemOp → Dec Instr) : Dec Instr := do
  noTy f
  let l ← llOf f
  let sz ← szOf (bits f.c 2 3)
  k l sz (bits f.c 5 1 == 1) (memOf f)

/-- The fields that `CP` and `CPW` share (R263). -/
def decCopy (f : Fields) (k : Ll → Bool → Option (BitVec 4) → SReg → SReg → SReg → Instr) : Dec Instr := do
  noLit f; noTy f
  let l ← llOf f
  let d ← sregOf f.d
  let a ← sregOf f.a
  let b ← sregOf f.b
  if bits f.c 1 1 = 1 then .ok (k l (bits f.c 0 1 == 1) (some (bits f.c 2 4)) d a b)
  else do zero (bits f.c 2 4); .ok (k l (bits f.c 0 1 == 1) none d a b)

/-- The offset of `WAITA` and `WAKE` (R270). -/
def woffOf (f : Fields) : Dec WOff := do
  if f.lit then do zero f.c; .ok (.lit f.x) else .ok (.short f.c)

/-- A near-memory or layout-record opcode: long-latency, uniform, no literal (R273, R275). -/
def decNear (f : Fields) (k : Ll → Dec Instr) : Dec Instr := do
  noLit f
  let l ← llOf f
  k l

/-- Memory and shelf opcodes, 0x180-0x1BF (R257-R278). -/
def decMemory (f : Fields) : Dec Instr :=
  match f.op.toNat with
  | 0x180 => decAccess f fun l sz sx m => .ok (.ld f.g l sz sx f.d m)
  | 0x181 => decAccess f fun l sz sx m => do
    check (!sx) .unusedField; .ok (.st f.g l sz (regOf f.d) m)
  | 0x182 => decAccess f fun l sz sx m => .ok (.lds f.g l sz sx f.d m)
  | 0x183 => decAccess f fun l sz sx m => do
    check (!sx) .unusedField; .ok (.sts f.g l sz (regOf f.d) m)
  | 0x184 => do
    noLit f; noTy f; zero (bits f.c 0 5)
    let l ← llOf f
    let h ← sregOf f.a
    .ok (.ldt f.g l (bits f.c 5 1 == 1) f.d h (regOf f.b))
  | 0x185 => do
    noLit f; noTy f; zero f.cl
    let l ← llOf f
    let h ← sregOf f.a
    .ok (.stt f.g l (regOf f.d) h (regOf f.b))
  | 0x186 => do
    noTy f; zero f.d; zero f.md; zero (bits f.c 5 1); zero (bits f.c 6 4)
    zero (if f.lit then bits f.x 28 4 else 0#4)
    match (bits f.c 2 3).toNat with
    | 0 => .ok (.pref f.g .l1 (memOf f))
    | 1 => .ok (.pref f.g .llc (memOf f))
    | 2 => .ok (.pref f.g .pc (memOf f))
    | _ => .error .value
  | 0x187 => decCopy f fun l o s d a b => .cp f.g l o s d a b
  | 0x188 => decCopy f fun l o s d a b => .cpw f.g l o s d a b
  | 0x189 => do
    let l ← llOf f
    let op ← atomOf (bits f.c 0 4)
    let sc ← scopeOf (bits f.c 4 2)
    let t ← tyOf f.ty
    .ok (.atom f.g l op t sc (discardOf f.d) (regOf f.a) f.off28 (regOf f.b))
  | 0x18A => do
    zero (bits f.c 0 4)
    let l ← llOf f
    let sc ← scopeOf (bits f.c 4 2)
    let t ← tyOf f.ty
    .ok (.atomc f.g l t sc (discardOf f.d) (regOf f.a) f.off28 (regOf f.b))
  | 0x18B => do
    zero (bits f.c 4 2)
    let l ← llOf f
    let op ← atomOf (bits f.c 0 4)
    let t ← tyOf f.ty
    .ok (.atoms f.g l op t (discardOf f.d) (regOf f.a) f.off28 (regOf f.b))
  | 0x18C => do
    noLit f; zero f.d; zero f.a; zero f.b; zero f.md; noTy f; zero (bits f.c 2 8)
    let sc ← scopeOf (bits f.c 0 2)
    .ok (.fence f.g sc)
  | 0x18D => do
    zero (bits f.md 3 1)
    let cc ← ccOf (bits f.md 0 3)
    let t ← tyOf f.ty
    let o ← woffOf f
    .ok (.waita f.g cc t (discardOf f.d) (regOf f.a) o (regOf f.b))
  | 0x18E => do
    zero f.md; noTy f
    let o ← woffOf f
    .ok (.wake f.g (discardOf f.d) (regOf f.a) o (regOf f.b))
  | 0x190 => decNear f fun l => do
    noTy f; zero f.a; zero f.cl
    let d ← sregOf f.d
    let b ← sregOf f.b
    .ok (.mfill f.g l d b)
  | 0x191 => decNear f fun l => do
    noTy f; zero f.cl
    let d ← sregOf f.d
    let a ← sregOf f.a
    let b ← sregOf f.b
    .ok (.mcopy f.g l d a b)
  | 0x192 => decNear f fun l => do
    noTy f; zero f.cl
    let d ← sregOf f.d
    let a ← sregOf f.a
    let b ← sregOf f.b
    .ok (.mcmp f.g l d a b)
  | 0x193 => decNear f fun l => do
    zero (bits f.c 3 3)
    let op ← redOf (bits f.c 0 3)
    let t ← tyOf f.ty
    let d ← sregOf f.d
    let a ← sregOf f.a
    let b ← sregOf f.b
    .ok (.mred f.g l op t d a b)
  | 0x198 => decNear f fun l => do
    noTy f; zero f.b; zero f.cl
    let d ← sregOf f.d
    let a ← sregOf f.a
    .ok (.lrbind f.g l d a)
  | 0x199 => decNear f fun l => do
    noTy f; zero f.d; zero f.b; zero f.cl
    let a ← sregOf f.a
    .ok (.lrfree f.g l a)
  | 0x19A => decNear f fun l => do
    noTy f; zero f.b
    let d ← sregOf f.d
    let a ← sregOf f.a
    .ok (.lrqry f.g l d a f.cl)
  | 0x1A0 => do
    noLit f; noTy f; zero f.d; zero f.b
    match f.c.toNat with
    | 0 => do let a ← sregOf f.a; .ok (.shcfg f.g f.md a)
    | 1 => do zero f.a; .ok (.shcfgOff f.g f.md)
    | _ => .error .value
  | 0x1A1 => do
    noLit f; noTy f; zero f.a; zero f.b
    let d ← sregOf f.d
    let c ← cntOf f.c
    .ok (.shacq f.g d f.md c)
  | 0x1A2 => do noLit f; noTy f; zero f.d; zero f.a; zero f.b; let c ← cntOf f.c; .ok (.shcom f.g f.md c)
  | 0x1A3 => do
    noLit f; noTy f; zero f.a; zero f.b
    let d ← sregOf f.d
    let c ← cntOf f.c
    .ok (.shwait f.g d f.md c)
  | 0x1A4 => do noLit f; noTy f; zero f.d; zero f.a; zero f.b; let c ← cntOf f.c; .ok (.shrel f.g f.md c)
  | 0x1A5 => do
    noTy f; zero f.d; zero f.c; zero f.md
    .ok (.prwait f.g (regOf f.a) (regOf f.b) f.off32)
  | _ => .error .opcode

/-- The parts of a streaming-vector instruction (R254): literal form only, C zero. -/
def decStream (f : Fields) (k : Ll → Ty → Dec Instr) : Dec Instr := do
  onlyLit f; zero f.c; zero (bits f.x 21 7)
  let l ← llOf f
  let t ← tyOf f.ty
  k l t

/-- The number of steps of a streaming-vector instruction (R254). -/
def Fields.steps (f : Fields) : BitVec 12 := bits f.x 0 12

/-- B names `S0` (R254, R315). -/
def isS0 (x : BitVec 10) : Dec Unit := check (x == 960) .value

/-- Matrix-stream and streaming-vector opcodes, 0x1C0-0x1D0, and `TBIND`, `TQRY` (R254, R280-R289). -/
def decMatrix (f : Fields) : Dec Instr :=
  match f.op.toNat with
  | 0x1C0 => do
    zero f.d; zero f.b; zero f.cl; noTy f
    let l ← llOf f
    if f.lit then do zero f.a; .ok (.mstart f.g l (.rel (bits f.x 0 28)))
    else do let a ← sregOf f.a; .ok (.mstart f.g l (.addr a))
  | 0x1C1 => do noLit f; zero f.d; zero f.a; zero f.b; zero f.c; zero f.md; noTy f; .ok (.mstop f.g)
  | 0x1C2 => do
    noLit f; p15 f; zero f.c
    let d ← tileOf f.d
    let a ← mapOf f.a
    let b ← mapOf f.b
    match f.ty.toNat with
    | 10 => do zero f.md; .ok (.mma .bf16 d a b)
    | 9 => do zero f.md; .ok (.mma .f16 d a b)
    | 1 => do zero (bits f.md 0 2); .ok (.mma (.int8 false (bits f.md 2 1 == 1) (bits f.md 3 1 == 1)) d a b)
    | 2 => do zero (bits f.md 0 2); .ok (.mma (.int8 true (bits f.md 2 1 == 1) (bits f.md 3 1 == 1)) d a b)
    | 0 => do zero (bits f.md 2 2); let w ← widthOf (bits f.md 0 2); .ok (.mma (.narrow w) d a b)
    | _ => .error .ty
  | 0x1C3 => do
    noLit f; p15 f; zero f.a; zero f.b; zero f.c; zero f.md; noTy f
    let d ← tileOf f.d
    .ok (.mzero d)
  | 0x1C4 => do
    noLit f; p15 f; zero f.b; zero f.c; zero f.md; noTy f
    let d ← tileOf f.d
    let m ← mapOf f.a
    .ok (.mload d m)
  | 0x1C5 => do
    p15 f; zero f.d; zero f.md; noTy f; zero (bits f.c 3 7)
    let t ← tileOf f.a
    let sat := bits f.c 2 1 == 1
    let amax := bits f.c 1 1 == 1
    if bits f.c 0 1 = 1 then do
      onlyLit f; zero f.b; zero (bits f.x 21 11)
      .ok (.mdrainMem sat amax (bits f.x 0 21) t)
    else do
      let m ← mapOf f.b
      if amax then do
        onlyLit f; zero (bits f.x 21 11)
        .ok (.mdrain sat (some (bits f.x 0 21)) t m)
      else do noLit f; .ok (.mdrain sat none t m)
  | 0x1C6 => do
    noLit f; p15 f; zero (bits f.d 1 9); zero f.a; zero f.b; noTy f
    let c ← cntOf f.c
    if bits f.d 0 1 = 1 then .ok (.mshwCom f.md c) else .ok (.mshwAcq f.md c)
  | 0x1C7 => do
    noLit f; p15 f; zero (bits f.d 1 9); zero f.a; zero f.b; noTy f
    let c ← cntOf f.c
    if bits f.d 0 1 = 1 then .ok (.mshrRel f.md c) else .ok (.mshrTake f.md c)
  | 0x1C8 => do
    noLit f; p15 f; zero (bits f.d 1 9); zero f.a; zero f.b; noTy f
    if bits f.d 0 1 = 1 then .ok (.mbarSync f.md f.c) else .ok (.mbarArv f.md f.c)
  | 0x1C9 => do
    p15 f; zero f.d; zero f.a; zero f.b; zero f.md; noTy f
    let n ← immOf f
    .ok (.mloop n)
  | 0x1CA => do
    noLit f; p15 f; zero f.d; zero f.a; zero f.b; zero f.c; zero f.md; noTy f
    .ok .mend
  | 0x1CB => decStream f fun l t => do
    zero (bits f.x 16 4)
    let op ← xopOf (bits f.x 12 4)
    let d ← sregOf f.d
    let a ← sregOf f.a
    let b ← sregOf f.b
    .ok (.xalu f.g l t op (bits f.x 20 1 == 1) d a b f.steps)
  | 0x1CC => decStream f fun l t => do
    zero (bits f.x 12 9)
    let d ← sregOf f.d
    let a ← sregOf f.a
    let b ← sregOf f.b
    .ok (.xfma f.g l t d a b f.steps)
  | 0x1CD => decStream f fun l t => do
    zero (bits f.x 12 4); isS0 f.b
    let st ← tyOf (bits f.x 16 4)
    let d ← sregOf f.d
    let a ← sregOf f.a
    .ok (.xcvt f.g l t st (bits f.x 20 1 == 1) d a f.steps)
  | 0x1CE => decStream f fun l t => do
    zero (bits f.x 15 6); isS0 f.b
    let op ← redOf (bits f.x 12 3)
    let a ← sregOf f.a
    .ok (.xred f.g l t op f.d a f.steps)
  | 0x1CF => decStream f fun l t => do
    zero (bits f.x 15 1); zero (bits f.x 17 4); isS0 f.b
    let op ← redOf (bits f.x 12 3)
    let d ← sregOf f.d
    let a ← sregOf f.a
    .ok (.xscan f.g l t op (bits f.x 16 1 == 1) d a f.steps)
  | 0x1D0 => decStream f fun l t => do
    zero (bits f.x 12 9)
    let d ← sregOf f.d
    let a ← sregOf f.a
    let b ← sregOf f.b
    .ok (.xsel f.g l t d a b f.steps)
  | 0x1DC => do
    noLit f; zero f.d; zero f.b; zero f.c; noTy f
    let a ← sregOf f.a
    .ok (.tbind f.g f.md a)
  | 0x1DD => do
    noLit f; zero f.a; zero f.b; zero (bits f.c 2 8); noTy f
    let d ← sregOf f.d
    .ok (.tqry f.g d f.md (bits f.c 0 2))
  | _ => .error .opcode

/-- Work-list and parcel opcodes, 0x1D1-0x1DB (R291-R297). -/
def decLists (f : Fields) : Dec Instr :=
  match f.op.toNat with
  | 0x1D1 => do
    noLit f; zero f.d; zero f.c; zero f.md; noTy f
    let a ← sregOf f.a
    let b ← sregOf f.b
    .ok (.wlcfg f.g a b)
  | 0x1D2 => do
    noLit f; noTy f
    let l ← llOf f
    .ok (.wlapp f.g l (bits f.c 4 2) (bits f.c 0 4) (discardOf f.d) (regOf f.a) (regOf f.b))
  | 0x1D3 => do
    noLit f; noTy f; zero f.b
    let l ← llOf f
    .ok (.wltake f.g l (bits f.c 4 2) (bits f.c 0 4) f.d (regOf f.a))
  | 0x1D4 => do
    noLit f; zero f.d; zero f.c; zero f.md; noTy f
    .ok (.wldone f.g (regOf f.a) (regOf f.b))
  | 0x1D5 => do
    noLit f; zero f.b; noTy f
    let d ← sregOf f.d
    match f.md.toNat with
    | 0 => do zero f.a; zero (bits f.c 6 4); .ok (.tdwait f.g d (.imm (bits f.c 0 6)))
    | 1 => do zero f.c; let a ← sregOf f.a; .ok (.tdwait f.g d (.reg a))
    | _ => .error .value
  | 0x1D6 => do
    noLit f; noTy f
    let l ← llOf f
    let d ← sregOf f.d
    let a ← sregOf f.a
    let b ← sregOf f.b
    let md ← match (bits f.c 3 2).toNat with
      | 0 => Except.ok SweepMode.one | 1 => .ok .n | 2 => .ok .quiet | _ => .error .value
    .ok (.psweep f.g l md (bits f.c 5 1 == 1) (bits f.c 0 3) d a b)
  | 0x1D7 => do
    noLit f; zero f.d; zero f.c; zero (bits f.md 3 1); noTy f
    .ok (.pwait f.g (bits f.md 0 3) (regOf f.a) (regOf f.b))
  | 0x1D8 => do
    noLit f; zero f.c; zero f.md; noTy f
    let h ← sregOf f.a
    .ok (.pwake f.g (discardOf f.d) h (regOf f.b))
  | 0x1D9 => do
    noLit f; noTy f; zero f.cl
    let l ← llOf f
    let h ← sregOf f.a
    .ok (.pctx f.g l (discardOf f.d) h (regOf f.b))
  | 0x1DA => do
    noLit f; noTy f; zero (bits f.c 2 4)
    let l ← llOf f
    let h ← sregOf f.a
    match (bits f.c 0 2).toNat with
    | 0 => .ok (.pqryCtx f.g l f.d h (regOf f.b))
    | 1 => do zero f.b; let d ← sregOf f.d; .ok (.pqrySweep f.g l d h)
    | _ => .error .value
  | 0x1DB => do
    noLit f; zero f.d; zero f.b; zero f.c; zero f.md; noTy f
    let h ← sregOf f.a
    .ok (.pstop f.g h)
  | _ => .error .opcode

/-- A long-latency entry without literal and with `TY` 0. -/
def decUnit (f : Fields) (k : Ll → Dec Instr) : Dec Instr := do
  noLit f; noTy f
  let l ← llOf f
  k l

/-- The form of the sampling instructions (R304). -/
def decTex (f : Fields) (t : Ty) (k : Ll → SReg → Instr) : Dec Instr := do
  noLit f; oneTy f t; zero (bits f.c 2 4)
  let l ← llOf f
  let b ← sregOf f.b
  .ok (k l b)

/-- Graphics and traverse opcodes, 0x1E0-0x1EF (R299-R310). -/
noncomputable def decGraphics (f : Fields) : Dec Instr :=
  match f.op.toNat with
  | 0x1E0 => decUnit f fun l => do
    zero f.b; zero (bits f.c 5 1)
    let d ← sregOf f.d
    let a ← sregOf f.a
    .ok (.rast f.g l (bits f.c 0 1 == 1) (bits f.c 1 1 == 1) (bits f.c 2 3) d a)
  | 0x1E1 => decUnit f fun l => do
    zero f.b; zero (bits f.c 1 5)
    .ok (.rsetup f.g l (bits f.c 0 1 == 1) f.d f.a)
  | 0x1E2 => decUnit f fun l => do
    zero (bits f.c 4 2)
    .ok (.rcover f.g l (bits f.c 0 4) f.d f.a f.b)
  | 0x1E3 => do zero (bits f.c 0 2); decTex f .f32x2 fun l b => .tex f.g l f.d f.a b
  | 0x1E4 => decTex f .f32x2 fun l b => .texg f.g l (bits f.c 0 2) f.d f.a b
  | 0x1E5 => do zero (bits f.c 0 2); decTex f .f32x2 fun l b => .texl f.g l f.d f.a b
  | 0x1E6 => do zero (bits f.c 0 2); decTex f .f32x2 fun l b => .texd f.g l f.d f.a b
  | 0x1E7 => do zero (bits f.c 0 2); decTex f .i32x2 fun l b => .tlod f.g l f.d f.a b
  | 0x1E8 => decUnit f fun l => do
    zero f.cl
    let b ← sregOf f.b
    .ok (.imgst f.g l f.d f.a b)
  | 0x1E9 => decUnit f fun l => do
    zero (bits f.c 1 1)
    let b ← sregOf f.b
    .ok (.trace f.g l (bits f.c 0 1 == 1) (bits f.c 2 4) f.d f.a b)
  | 0x1EA => decUnit f fun l => do
    zero f.a; zero f.b; zero f.cl
    .ok (.trcont f.g l f.d)
  | 0x1EB => decUnit f fun l => do
    zero (bits f.c 2 4)
    let d ← sregOf f.d
    let a ← sregOf f.a
    let b ← sregOf f.b
    .ok (.trpair f.g l (bits f.c 0 1 == 1) (bits f.c 1 1 == 1) d a b)
  | 0x1EC => decUnit f fun l => do
    zero f.a; zero f.b; zero (bits f.c 2 4)
    .ok (.trqry f.g l (bits f.c 0 2) f.d)
  | 0x1ED => decUnit f fun l => do
    zero f.d; zero f.a; zero f.b; zero f.cl
    .ok (.trcommit f.g l)
  | 0x1EE => decUnit f fun l => do
    zero (bits f.c 4 2)
    .ok (.boxt f.g l (bits f.c 0 4) f.d f.a f.b)
  | 0x1EF => decUnit f fun l => do
    zero (bits f.c 4 2)
    .ok (.trit f.g l (bits f.c 0 4) f.d f.a f.b)
  | _ => .error .opcode

/-- System and security opcodes, 0x1F0-0x1FF (R311-R316). -/
noncomputable def decSystem (f : Fields) : Dec Instr :=
  match f.op.toNat with
  | 0x1F0 => do noLit f; zero f.d; zero f.a; zero f.b; zero f.md; noTy f; .ok (.trap f.g f.c)
  | 0x1F1 => do
    noLit f; p15 f; zero f.d; zero f.a; zero f.b; zero f.c; zero f.md; noTy f
    .ok .eret
  | 0x1F2 => do
    noLit f; p15 f; zero f.d; zero f.a; zero f.b; zero f.c; zero f.md; noTy f
    .ok .uiret
  | 0x1F3 => decUnit f fun l => do
    zero f.b; zero f.cl
    let d ← sregOf f.d
    let a ← sregOf f.a
    .ok (.launch f.g l d a)
  | 0x1F4 => decUnit f fun l => do
    zero f.cl
    let d ← sregOf f.d
    let a ← sregOf f.a
    let b ← sregOf f.b
    .ok (.csave f.g l d a b)
  | 0x1F5 => decUnit f fun l => do
    zero f.cl
    let d ← sregOf f.d
    let a ← sregOf f.a
    let b ← sregOf f.b
    .ok (.crest f.g l d a b)
  | 0x1F6 => do
    noLit f; zero f.a; zero f.b; zero f.c; zero f.md; noTy f
    .ok (.tick f.g (regOf f.d))
  | 0x1F7 => do noLit f; zero f.d; zero f.b; zero f.md; noTy f; .ok (.mark f.g f.c (regOf f.a))
  | 0x1F8 => do noLit f; zero f.d; zero f.a; zero f.b; zero f.md; noTy f; .ok (.brk f.g f.c)
  | 0x1F9 => decUnit f fun l => do
    zero (bits f.c 2 4)
    let op ← match (bits f.c 0 2).toNat with
      | 0 => Except.ok PatomOp.cas | 1 => .ok .iadd | 2 => .ok .xchg | _ => .ok .ld
    .ok (.patom f.g l op f.d (regOf f.a) (regOf f.b))
  | 0x1FA => do
    noLit f; zero f.a; zero f.b; zero f.md; noTy f; zero (bits f.c 8 2)
    let d ← sregOf f.d
    .ok (.fuserd f.g d (bits f.c 0 8))
  | 0x1FB => decUnit f fun l => do
    zero (bits f.c 1 5)
    let d ← sregOf f.d
    let a ← sregOf f.a
    let b ← sregOf f.b
    .ok (.lmsver f.g l (bits f.c 0 1 == 1) d a b)
  | 0x1FC => do
    noLit f; zero f.b; zero f.md; noTy f; zero (bits f.c 1 9)
    let d ← sregOf f.d
    if bits f.c 0 1 = 1 then do zero f.a; .ok (.kwipe f.g d none)
    else do let a ← sregOf f.a; .ok (.kwipe f.g d (some a))
  | 0x1FD => decUnit f fun l => do
    zero f.a; zero (bits f.c 4 2)
    let d ← sregOf f.d
    let b ← sregOf f.b
    if bits f.c 3 1 = 1 then .ok (.measureRd f.g l d (bits f.c 0 3) b)
    else .ok (.measureExt f.g l d (bits f.c 0 3) b)
  | 0x1FE => do
    noLit f; zero f.a; zero f.b; zero f.c; zero f.md; noTy f
    let d ← sregOf f.d
    .ok (.dbgopen f.g d)
  | _ => .error .opcode

/-- The instruction that the fields spell, before the limits of `Instr.defect` (R212). -/
noncomputable def parseLong (f : Fields) : Dec Instr :=
  let n := f.op.toNat
  if n < 0x040 then decControl f
  else if n < 0x080 then decUniform f
  else if n < 0x100 then decInteger f
  else if n < 0x160 then decFloat f
  else if n < 0x180 then decCross f
  else if n < 0x1C0 then decMemory f
  else if n < 0x1D1 then decMatrix f
  else if n < 0x1DC then decLists f
  else if n < 0x1E0 then decMatrix f
  else if n < 0x1F0 then decGraphics f
  else decSystem f

/-- The guard fields of a short instruction. -/
def ShortFields.g (f : ShortFields) : Guard := { pg := f.pg, pn := f.pn }

/-- The short instruction that the fields spell (R213); unused fields must be zero (R203). -/
noncomputable def parseShort (f : ShortFields) : Dec Instr :=
  let g := f.g
  let t := bits f.op 0 3
  let one (k : Instr) : Dec Instr := do zero f.b; .ok k
  let none0 (k : Instr) : Dec Instr := do zero f.d; zero f.a; zero f.b; .ok k
  if f.op.toNat < 0x40 then
    match (bits f.op 3 3).toNat with
    | 0 => .ok (.iaddShort g t f.d f.a f.b)
    | 1 => .ok (.isubShort g t f.d f.a f.b)
    | 2 => .ok (.imulShort g t f.d f.a f.b)
    | 3 => .ok (.iminShort g t f.d f.a f.b)
    | 4 => .ok (.imaxShort g t f.d f.a f.b)
    | 5 => .ok (.shlShort g t f.d f.a f.b)
    | 6 => .ok (.shrShort g t f.d f.a f.b)
    | _ => .ok (.sarShort g t f.d f.a f.b)
  else
    match f.op.toNat with
    | 0x40 => .ok (.faddF16x4Short g f.d f.a f.b)
    | 0x41 => .ok (.faddBf16x4Short g f.d f.a f.b)
    | 0x42 => .ok (.faddF32x2Short g f.d f.a f.b)
    | 0x43 => .ok (.faddF32Short g f.d f.a f.b)
    | 0x44 => .ok (.faddF64Short g f.d f.a f.b)
    | 0x45 => .ok (.fsubF16x4Short g f.d f.a f.b)
    | 0x46 => .ok (.fsubBf16x4Short g f.d f.a f.b)
    | 0x47 => .ok (.fsubF32x2Short g f.d f.a f.b)
    | 0x48 => .ok (.fsubF32Short g f.d f.a f.b)
    | 0x49 => .ok (.fsubF64Short g f.d f.a f.b)
    | 0x4A => .ok (.fmulF16x4Short g f.d f.a f.b)
    | 0x4B => .ok (.fmulBf16x4Short g f.d f.a f.b)
    | 0x4C => .ok (.fmulF32x2Short g f.d f.a f.b)
    | 0x4D => .ok (.fmulF32Short g f.d f.a f.b)
    | 0x4E => .ok (.fmulF64Short g f.d f.a f.b)
    | 0x4F => .ok (.fminF16x4Short g f.d f.a f.b)
    | 0x50 => .ok (.fminBf16x4Short g f.d f.a f.b)
    | 0x51 => .ok (.fminF32x2Short g f.d f.a f.b)
    | 0x52 => .ok (.fminF32Short g f.d f.a f.b)
    | 0x53 => .ok (.fminF64Short g f.d f.a f.b)
    | 0x54 => .ok (.fmaxF16x4Short g f.d f.a f.b)
    | 0x55 => .ok (.fmaxBf16x4Short g f.d f.a f.b)
    | 0x56 => .ok (.fmaxF32x2Short g f.d f.a f.b)
    | 0x57 => .ok (.fmaxF32Short g f.d f.a f.b)
    | 0x58 => .ok (.fmaxF64Short g f.d f.a f.b)
    | 0x60 => one (.movShort g f.d f.a)
    | 0x61 => none0 (.nopShort g)
    | 0x62 => none0 (.exitShort g)
    | 0x63 => none0 (.yieldShort g)
    | 0x64 => one (.popcShort g f.d f.a)
    | 0x65 => one (.clzShort g f.d f.a)
    | 0x66 => one (.brevShort g f.d f.a)
    | 0x67 => .ok (.logAndShort g f.d f.a f.b)
    | 0x68 => .ok (.logOrShort g f.d f.a f.b)
    | 0x69 => .ok (.logXorShort g f.d f.a f.b)
    | 0x6A => .ok (.rotShort g f.d f.a f.b)
    | 0x6B => one (.iabsI32x2Short g f.d f.a)
    | 0x6C => one (.inegI32x2Short g f.d f.a)
    | 0x6D => one (.iabsI64Short g f.d f.a)
    | 0x6E => one (.inegI64Short g f.d f.a)
    | _ => .error .opcode

/-- The length in bytes that a first word's length code gives (R202). -/
def insnLen (w : W32) : Option Nat :=
  match (bits w 0 2).toNat with
  | 0 => some 4
  | 1 => some 8
  | 2 => some 12
  | _ => none

/-- The instruction whose words, first word lowest, are the bits of `w` (R202-R214). -/
noncomputable def decodeBits (w : BitVec 96) : Dec Instr := do
  let i ← match (bits w 0 2).toNat with
    | 0 => parseShort (.unpack (bits w 0 32))
    | 3 => .error .length
    | _ => parseLong (.unpack w)
  match i.defect with
  | some e => .error e
  | none => .ok i

/-- Little-endian value of bytes, first byte lowest (R3). -/
def leNat : List Byte → Nat
  | [] => 0
  | b :: bs => b.toNat + 256 * leNat bs

/-- The `n` low bytes of a number, lowest first (R3). -/
def leBytes : Nat → Nat → List Byte
  | 0, _ => []
  | n + 1, x => BitVec.ofNat 8 x :: leBytes n (x / 256)

/-- Decode the instruction at the head of a list of bytes, and give the bytes after it (R199, R202). -/
noncomputable def decode (bs : List Byte) : Dec (Instr × List Byte) :=
  match insnLen (BitVec.ofNat 32 (leNat (bs.take 4))) with
  | none => .error .length
  | some n =>
    if bs.length < n then .error .truncated
    else do
      let i ← decodeBits (BitVec.ofNat 96 (leNat (bs.take n)))
      .ok (i, bs.drop n)

/-- The bytes of an instruction whose bits, numbered from the first word's bit 0, are `w`: twelve bytes, the
longest instruction, with zeros above the bits given. -/
def tableBytes (nbits w : Nat) : List Byte := leBytes 12 (w % 2 ^ nbits)

/-- The instruction that the decoder reads from a row's word (the bits above `nbits` are zero). -/
noncomputable def decodeTableWord (nbits w : Nat) : Option Instr :=
  match decode (tableBytes nbits w) with
  | .ok (i, _) => some i
  | .error _ => none

/-! The encoder, written from the same tables. -/

/-- The register field of a register (R51). -/
def regField : Reg → BitVec 10
  | .v n => n
  | .s n => BitVec.ofNat 10 (960 + n.toNat)

/-- The register field of a uniform register. -/
def sField (n : SReg) : BitVec 10 := BitVec.ofNat 10 (960 + n.toNat)

/-- The field of a destination that `S0` discards. -/
def discardField : Option VReg → BitVec 10
  | some n => n
  | none => 960

/-- The field of a predicate register. -/
def pField (p : PReg) : BitVec 10 := p.setWidth 10

/-- The bit of a Bool. -/
def bit1 (b : Bool) : BitVec 1 := if b then 1 else 0

/-- The number of a logic operation (R232). -/
def LogOp.num : LogOp → BitVec 4
  | .and => 0 | .or => 1 | .xor => 2 | .andn => 3 | .orn => 4 | .xnor => 5 | .nand => 6 | .nor => 7
/-- The number of a condition code (R235). -/
def Cc.num : Cc → BitVec 3
  | .eq => 0 | .ne => 1 | .lt => 2 | .le => 3 | .gt => 4 | .ge => 5
/-- The number of a floating-point condition code (R242). -/
def Fcc.num : Fcc → BitVec 3
  | .eq => 0 | .ne => 1 | .lt => 2 | .le => 3 | .gt => 4 | .ge => 5 | .un => 6 | .ord => 7
/-- The number of a shift operation (R229). -/
def ShfOp.num : ShfOp → BitVec 4
  | .shl => 0 | .shr => 1 | .sar => 2 | .rotl => 3 | .rotr => 4
/-- The number of an operation of R252. -/
def RedOp.num : RedOp → BitVec 3
  | .add => 0 | .min => 1 | .max => 2 | .and => 3 | .or => 4 | .xor => 5
/-- The number of an operation of XALU (R254). -/
def XOp.num : XOp → BitVec 4
  | .add => 0 | .sub => 1 | .mul => 2 | .min => 3 | .max => 4 | .and => 5 | .or => 6 | .xor => 7
/-- The number of an atomic operation (R267). -/
def AtomOp.num : AtomOp → BitVec 4
  | .iadd => 0 | .and => 1 | .or => 2 | .xor => 3 | .min => 4 | .max => 5 | .xchg => 6 | .fadd => 7
  | .fmin => 8 | .fmax => 9 | .cas => 10
/-- The number of a scope (R266, R269). -/
def Scope.num : Scope → BitVec 2
  | .dev => 0 | .host => 1 | .pool => 2
/-- The number of a narrow width (R248). -/
def NWidth.num : NWidth → BitVec 2
  | .n8 => 0 | .n6 => 1 | .n4 => 2
/-- The number of an access size (R257). -/
def Sz.num : Sz → BitVec 3
  | .b1 => 0 | .b2 => 1 | .b4 => 2 | .b8 => 3 | .b16 => 4 | .b32 => 5
/-- The number of a rounding mode (R243). -/
def Rnd.num : Rnd → BitVec 2
  | .rn => 0 | .rz => 1 | .rd => 2 | .ru => 3
/-- The number of a mode of PERM (R250). -/
def PermMd.num : PermMd → BitVec 2
  | .idx => 0 | .xor => 1 | .up => 2 | .dn => 3
/-- The number of a mode of BCAST (R250). -/
def BcastMd.num : BcastMd → BitVec 4
  | .lane => 0 | .first => 1 | .last => 2
/-- The number of a predicate mode of VOTE (R250). -/
def VoteMd.num : VoteMd → BitVec 4
  | .all => 0 | .any => 1 | .uni => 2
/-- The number of a mode of QSWAP (R250). -/
def QMd.num : QMd → BitVec 4
  | .h => 0 | .v => 1 | .d => 2
/-- The number of a level of PREF (R262). -/
def PrefLvl.num : PrefLvl → BitVec 3
  | .l1 => 0 | .llc => 1 | .pc => 2
/-- The number of a mode of PSWEEP (R295). -/
def SweepMode.num : SweepMode → BitVec 2
  | .one => 0 | .n => 1 | .quiet => 2
/-- The number of an operation of PATOM (R315). -/
def PatomOp.num : PatomOp → BitVec 2
  | .cas => 0 | .iadd => 1 | .xchg => 2 | .ld => 3
/-- The selector of a system register (R57). -/
def SysReg.num : SysReg → BitVec 10
  | .capLo => 0x00 | .capHi => 0x01 | .ctxid => 0x02 | .grpid => 0x03 | .teamid => 0x04
  | .laneid => 0x05 | .prio => 0x06 | .flags => 0x07 | .mode => 0x08 | .gts => 0x09 | .tick => 0x0A
  | .faultinfo => 0x0B | .faultlanes => 0x0C | .trappc => 0x0D | .tvec => 0x0E | .rastthr => 0x0F
  | .trvcfg => 0x10 | .swpcfg => 0x11 | .lease => 0x12 | .stopat => 0x13

/-- The long form with an opcode and a guard, every other field 0. -/
def base (op : BitVec 9) (g : Guard) : Fields :=
  { lit := false, op := op, pg := g.pg, pn := g.pn, d := 0, a := 0, b := 0, c := 0, md := 0, ty := 0,
    x := 0 }

/-- The same fields with the last of two value sources (R221). -/
def Fields.withB (f : Fields) : Opnd → Fields
  | .reg r => { f with b := regField r }
  | .lit x => { f with lit := true, x := x }

/-- The same fields with the last of three value sources (R221). -/
def Fields.withC (f : Fields) : Opnd → Fields
  | .reg r => { f with c := regField r }
  | .lit x => { f with lit := true, x := x }

/-- The same fields with the last of two uniform sources. -/
def Fields.withSB (f : Fields) : SOpnd → Fields
  | .reg r => { f with b := sField r }
  | .lit x => { f with lit := true, x := x }

/-- The same fields with the last of three uniform sources. -/
def Fields.withSC (f : Fields) : SOpnd → Fields
  | .reg r => { f with c := sField r }
  | .lit x => { f with lit := true, x := x }

/-- The same fields with an immediate. -/
def Fields.withImm (f : Fields) : Imm → Fields
  | .short x => { f with c := x }
  | .lit x => { f with lit := true, x := x }

/-- The field `DCN` (R207). -/
def dcnField : Option (BitVec 3) → BitVec 4
  | none => 0
  | some k => 1#1 ++ k

/-- The same fields with `LA`, `DCN` and the operand bits [51:46], long form (R207). -/
def Fields.withLl (f : Fields) (l : Ll) (cl : BitVec 6) : Fields :=
  { f with md := l.la, c := dcnField l.dc ++ cl }

/-- The same fields with `LA`, `DCN`, operand bits [51:46] and literal bits [91:64] (R207). -/
def Fields.withLlLit (f : Fields) (l : Ll) (cl : BitVec 6) (o : BitVec 28) : Fields :=
  { f with lit := true, md := l.la, c := 0#4 ++ cl, x := dcnField l.dc ++ o }

/-- The same fields in the form that the presence of an offset calls for (R257). -/
def Fields.withLlOff (f : Fields) (l : Ll) (cl : BitVec 6) : Option (BitVec 28) → Fields
  | none => f.withLl l cl
  | some o => f.withLlLit l cl o

/-- The same fields with a whole-literal offset if there is one. -/
def Fields.withOff (f : Fields) : Option W32 → Fields
  | none => f
  | some x => { f with lit := true, x := x }

/-- The same fields with the offset of WAITA or WAKE (R270). -/
def Fields.withW (f : Fields) : WOff → Fields
  | .short x => { f with c := x }
  | .lit x => { f with lit := true, x := x }

/-- The member-mask field (R250). -/
def mbrField (x : Mbr) : BitVec 10 := x.po ++ x.m

/-- An operand map field (R283). -/
def mapField (m : MapOp) : BitVec 10 :=
  match m.shelf with
  | none => 0#6 ++ m.map
  | some k => 0#1 ++ k ++ 1#1 ++ m.map

/-- Literal fields of a streaming-vector instruction (R254). -/
def xField (f : Fields) (l : Ll) (n : BitVec 12) (op aux : BitVec 4) (sat : Bool) : Fields :=
  { f with lit := true, md := l.la, x := dcnField l.dc ++ 0#7 ++ bit1 sat ++ aux ++ op ++ n }

/-- The fields of a long-form or literal-form instruction; none for events and short instructions. -/
def Instr.fields : Instr → Option Fields
  | .issueSelection _ | .agingCredit _ _ | .longLatencyCompletion _ _ _ _ | .fenceComplete _ _ _
  | .presenceResume _ _ | .sleepExpiry _ _ _ | .waitaRetest _ _ _ | .shelfFire _ _
  | .shelfCommitEffect _ _ | .ownershipGrant _ | .parkedFaultDelivery _ _ | .userInterruptTake _ _
  | .gangPlacement _ | .extraGroupStart _ _ _ | .groupEnd _ _ | .gridCompletion _ | .copyBegin _
  | .copyRow _ | .pageCacheFillDone _ | .coalescerBatchClose _ | .traverseStep _ | .pairStep _
  | .textureQuad _ | .rasterTriangle _ | .sweepClaim _ _ | .sweepWriteback _ _ | .passBarrier _
  | .hostSnoop _ _ | .backInvalidation _ | .hostWindowRead _ _ _ | .hostWindowWrite _ _ _ _
  | .signalWakeAll _ _ _ | .signalWakeOne _ _ _ | .signalRegisterHostWait _ _ _
  | .signalPostInterrupt _ _ _ | .signalApertureIgnored _ _ | .heartbeat | .portLoss _
  | .schedulerDecision _ | .quantumExpiry _ | .preemptHalt _ | .preemptSwap _ | .contextStaging _
  | .coldStart _ | .warmStart _ | .startComplete _ | .startTimeout | .fullServiceTransition
  | .attestationReport _ | .securityAlarm1 _ | .securityAlarm2 _ | .securityAlarm3 _
  | .traceControlRead _ | .counterSnapshot _ | .preciseStop | .jtagIdcode | .jtagStopreq _
  | .jtagChsel _ | .jtagChread _ | .jtagResume | .jtagBypass _ | .powerLimitSet _ | .powerThrottle _
  | .thermalThrottle _ | .thermalShutdown _ | .coolantFlowLow | .deepPowerEntry | .deepPowerExit _
  | .telemetryRefresh _ | .instructionCacheFill _ _ _ | .fuseProgramming _ | .gddr7TrainingComplete
  | .powerFailure | .patomHeartbeatDeadline _ _ _ => none
  | .nop g => some (base 0x000 g)
  | .bra g o => some { base 0x001 g with d := bits o 0 10, a := bits o 10 10, b := bits o 20 10, c := bits o 30 10 }
  | .brx g t => some { base 0x002 g with a := regField t }
  | .btab g k i t n => some { base 0x003 g with a := regField i, b := sField t, c := n, md := 0#1 ++ k }
  | .call g d o => some { base 0x004 g with d := d, a := bits o 0 10, b := bits o 10 10, c := bits o 20 10 }
  | .callx g d t => some { base 0x005 g with d := d, a := regField t }
  | .ret g t => some { base 0x006 g with a := regField t }
  | .exit g => some (base 0x007 g)
  | .jmask g k a => some { base 0x008 g with a := sField a, md := 0#1 ++ k }
  | .jmaskAct g k => some { base 0x008 g with c := 1, md := 0#1 ++ k }
  | .jmaskOr g k => some { base 0x008 g with c := 2, md := 0#1 ++ k }
  | .join k => some { base 0x009 Guard.always with md := 0#1 ++ k }
  | .jany g pd k => some { base 0x00A g with d := pField pd, md := 0#1 ++ k }
  | .yield g => some (base 0x00B g)
  | .waitd g m => some { base 0x00C g with c := 0#2 ++ m }
  | .setprio g n => some { base 0x00D g with c := 0#6 ++ n }
  | .setprioS g a => some { base 0x00D g with a := sField a, md := 1 }
  | .sleep g a x => some ({ base 0x00E g with a := sField a }.withOff x)
  | .bararv g d b n => some { base 0x00F g with d := sField d, c := n, md := b }
  | .barwait g b a => some { base 0x010 g with a := sField a, md := b }
  | .ordwait g => some (base 0x011 g)
  | .ordrel g => some (base 0x012 g)
  | .srd g d r => some { base 0x013 g with d := regField d, c := r.num }
  | .swr g r a => some { base 0x014 g with a := regField a, c := r.num }
  | .swrFlags g a => some { base 0x014 g with a := regField a, c := SysReg.flags.num }
  | .swrMode g a => some { base 0x014 g with a := regField a, c := SysReg.mode.num }
  | .swrLease g a => some { base 0x014 g with a := regField a, c := SysReg.lease.num }
  | .swrStopat g a => some { base 0x014 g with a := regField a, c := SysReg.stopat.num }
  | .smov g d a => some { base 0x040 g with d := sField d, a := sField a }
  | .sli g t d x => some ({ base 0x041 g with d := sField d, ty := t.code }.withImm x)
  | .sliHi g d x => some { base 0x041 g with lit := true, d := sField d, md := 1, x := x }
  | .sadd g t d a b => some ({ base 0x042 g with d := sField d, a := sField a, ty := t.code }.withSB b)
  | .ssub g t d a b => some ({ base 0x043 g with d := sField d, a := sField a, ty := t.code }.withSB b)
  | .smul g t d a b => some ({ base 0x044 g with d := sField d, a := sField a, ty := t.code }.withSB b)
  | .smad g t d a b c =>
    some ({ base 0x045 g with d := sField d, a := sField a, b := sField b, ty := t.code }.withSC c)
  | .slog g op d a b => some ({ base 0x046 g with d := sField d, a := sField a, md := op.num }.withSB b)
  | .sshf g op t d a b =>
    some ({ base 0x047 g with d := sField d, a := sField a, md := op.num, ty := t.code }.withSB b)
  | .scmp g cc t d a b =>
    some ({ base 0x048 g with d := sField d, a := sField a, md := 0#1 ++ cc.num, ty := t.code }.withSB b)
  | .ssel g d a b c => some ({ base 0x049 g with d := sField d, a := sField a, b := sField b }.withSC c)
  | .mov g d a => some { base 0x080 g with d := d, a := regField a }
  | .li g t d x => some ({ base 0x081 g with d := d, ty := t.code }.withImm x)
  | .liHi g t d x => some { base 0x081 g with lit := true, d := d, ty := t.code, md := 1, x := x }
  | .iadd g t s d a b => some ({ base 0x082 g with d := d, a := regField a, ty := t.code, md := 0#3 ++ bit1 s }.withB b)
  | .isub g t s d a b => some ({ base 0x083 g with d := d, a := regField a, ty := t.code, md := 0#3 ++ bit1 s }.withB b)
  | .imul g t s d a b => some ({ base 0x084 g with d := d, a := regField a, ty := t.code, md := 0#3 ++ bit1 s }.withB b)
  | .imulh g t d a b => some ({ base 0x085 g with d := d, a := regField a, ty := t.code }.withB b)
  | .imad g t s d a b c =>
    some ({ base 0x086 g with d := d, a := regField a, b := regField b, ty := t.code, md := 0#3 ++ bit1 s }.withC c)
  | .imin g t d a b => some ({ base 0x087 g with d := d, a := regField a, ty := t.code }.withB b)
  | .imax g t d a b => some ({ base 0x088 g with d := d, a := regField a, ty := t.code }.withB b)
  | .iabs g t s d a => some { base 0x089 g with d := d, a := regField a, ty := t.code, md := 0#3 ++ bit1 s }
  | .ineg g t s d a => some { base 0x08A g with d := d, a := regField a, ty := t.code, md := 0#3 ++ bit1 s }
  | .log g op d a b => some ({ base 0x08B g with d := d, a := regField a, md := op.num }.withB b)
  | .shl g t d a b => some ({ base 0x08C g with d := d, a := regField a, ty := t.code }.withB b)
  | .shr g t d a b => some ({ base 0x08D g with d := d, a := regField a, ty := t.code }.withB b)
  | .sar g t d a b => some ({ base 0x08E g with d := d, a := regField a, ty := t.code }.withB b)
  | .rot g r d a b => some ({ base 0x08F g with d := d, a := regField a, md := 0#3 ++ bit1 r }.withB b)
  | .popc g t d a => some { base 0x090 g with d := d, a := regField a, ty := t.code }
  | .clz g t d a => some { base 0x091 g with d := d, a := regField a, ty := t.code }
  | .brev g d a => some { base 0x092 g with d := d, a := regField a }
  | .bfe g t d a b => some ({ base 0x093 g with d := d, a := regField a, ty := t.code }.withB b)
  | .bfi g d a b c => some ({ base 0x094 g with d := d, a := regField a, b := regField b }.withC c)
  | .bperm g d a b c => some ({ base 0x095 g with d := d, a := regField a, b := regField b }.withC c)
  | .icmp g cc any t pd a b =>
    some ({ base 0x096 g with d := pField pd, a := regField a, ty := t.code, md := bit1 any ++ cc.num }.withB b)
  | .sel g d a b pc => some { base 0x097 g with d := d, a := regField a, b := regField b, c := pField pc }
  | .lea g s d a b o =>
    some ({ base 0x098 g with d := d, a := regField a, b := regField b, md := 0#2 ++ s, ty := Ty.n64.code }.withOff o)
  | .iaddx g nc d pco a b pci =>
    some { base 0x099 g with d := d, a := regField a, b := regField b, ty := Ty.n64.code, c := 0#1 ++ bit1 nc ++ pco ++ pci }
  | .plog g op pd pa pb => some { base 0x170 g with d := pField pd, a := pField pa, b := pField pb, md := op.num }
  | .pmov g pd pa => some { base 0x171 g with d := pField pd, a := pField pa }
  | .pmovS g pd a => some { base 0x171 g with d := pField pd, a := sField a, md := 1 }
  | .pcnt g d pa => some { base 0x172 g with d := sField d, a := pField pa }
  | .rget g l d i => some ({ base 0x173 g with d := d, a := regField i }.withLl l 0)
  | .rput g i a => some { base 0x174 g with a := regField i, b := regField a }
  | .fadd g t d a b => some ({ base 0x100 g with d := d, a := regField a, ty := t.code }.withB b)
  | .fsub g t d a b => some ({ base 0x101 g with d := d, a := regField a, ty := t.code }.withB b)
  | .fmul g t d a b => some ({ base 0x102 g with d := d, a := regField a, ty := t.code }.withB b)
  | .ffma g t d a b c => some ({ base 0x103 g with d := d, a := regField a, b := regField b, ty := t.code }.withC c)
  | .fmin g t d a b => some ({ base 0x104 g with d := d, a := regField a, ty := t.code }.withB b)
  | .fmax g t d a b => some ({ base 0x105 g with d := d, a := regField a, ty := t.code }.withB b)
  | .fcmp g cc any t pd a b =>
    some ({ base 0x106 g with d := pField pd, a := regField a, ty := t.code, md := bit1 any ++ cc.num }.withB b)
  | .fclass g t d a => some { base 0x107 g with d := d, a := regField a, ty := t.code }
  | .frnd g m x t d a =>
    some { base 0x108 g with d := d, a := regField a, ty := t.code, md := 0#1 ++ bit1 x ++ m.num }
  | .fscale g t d a b => some ({ base 0x109 g with d := d, a := regField a, ty := t.code }.withB b)
  | .fdot g t d a b c => some ({ base 0x10A g with d := d, a := regField a, b := regField b, ty := t.code }.withC c)
  | .rcp g l t d a => some ({ base 0x110 g with d := d, a := regField a, ty := t.code }.withLl l 0)
  | .rsq g l t d a => some ({ base 0x111 g with d := d, a := regField a, ty := t.code }.withLl l 0)
  | .sqrt g l t d a => some ({ base 0x112 g with d := d, a := regField a, ty := t.code }.withLl l 0)
  | .exp2 g l t d a => some ({ base 0x113 g with d := d, a := regField a, ty := t.code }.withLl l 0)
  | .log2 g l t d a => some ({ base 0x114 g with d := d, a := regField a, ty := t.code }.withLl l 0)
  | .sin g l t d a => some ({ base 0x115 g with d := d, a := regField a, ty := t.code }.withLl l 0)
  | .cos g l t d a => some ({ base 0x116 g with d := d, a := regField a, ty := t.code }.withLl l 0)
  | .tanh g l t d a => some ({ base 0x117 g with d := d, a := regField a, ty := t.code }.withLl l 0)
  | .fcvt g dt so d a sf df =>
    some { base 0x118 g with d := d, a := regField a, b := 0#2 ++ df ++ sf, md := so.code, ty := dt.code }
  | .ftoi g dt so d a sf df =>
    some { base 0x11A g with d := d, a := regField a, b := 0#2 ++ df ++ sf, md := so.code, ty := dt.code }
  | .icvt g s dt so d a sf df =>
    some { base 0x119 g with d := d, a := regField a, b := 0#1 ++ bit1 s ++ df ++ sf, md := so.code, ty := dt.code }
  | .fmtset g k x =>
    match x with
    | .reg a => some { base 0x120 g with d := 0#6 ++ k, a := sField a }
    | .lit v => some { base 0x120 g with lit := true, d := 0#6 ++ k, x := 0#16 ++ v }
  | .ncvtDec g w t d a b k s p =>
    some { base 0x121 g with d := d, a := regField a, b := regField b, c := p ++ s ++ k, md := 0#1 ++ w.num ++ 0#1, ty := t.code }
  | .ncvtEnc g w t d a b k s p =>
    some { base 0x121 g with d := d, a := regField a, b := regField b, c := p ++ s ++ k, md := 0#1 ++ w.num ++ 1#1, ty := t.code }
  | .ndot g l w d a b sen s fs =>
    let f := { base 0x122 g with d := d, a := regField a, b := regField b, ty := Ty.f32.code }
    let cl := 0#1 ++ w.num ++ bit1 sen ++ s
    match fs with
    | none => some (f.withLl l cl)
    | some (fa, fb) => some (f.withLlLit l cl (0#20 ++ fb ++ fa))
  | .perm g md d a b x =>
    some { base 0x160 g with d := d, a := regField a, b := regField b, c := mbrField x, md := 0#2 ++ md.num }
  | .bcast g md d a b x =>
    some { base 0x161 g with d := regField d, a := a, b := if md = .lane then sField b else 0, c := mbrField x, md := md.num }
  | .vote g d pa x =>
    match d with
    | .pred md pd => some { base 0x162 g with d := pField pd, a := pField pa, c := mbrField x, md := md.num }
    | .ballot r => some { base 0x162 g with d := regField r, a := pField pa, c := mbrField x, md := 3 }
  | .redu g op t d a x =>
    some { base 0x163 g with d := regField d, a := a, c := mbrField x, md := 0#1 ++ op.num, ty := t.code }
  | .scan g op e t d a x =>
    some { base 0x164 g with d := d, a := a, c := mbrField x, md := bit1 e ++ op.num, ty := t.code }
  | .matchLanes g d a x => some { base 0x165 g with d := d, a := a, c := mbrField x }
  | .derivx g co t d a x => some { base 0x166 g with d := d, a := a, c := mbrField x, md := 0#3 ++ bit1 co, ty := t.code }
  | .derivy g co t d a x => some { base 0x167 g with d := d, a := a, c := mbrField x, md := 0#3 ++ bit1 co, ty := t.code }
  | .qswap g md d a x => some { base 0x168 g with d := d, a := a, c := mbrField x, md := md.num }
  | .xalu g l t op s d a b n =>
    some (xField { base 0x1CB g with d := sField d, a := sField a, b := sField b, ty := t.code } l n op.num 0 s)
  | .xfma g l t d a b n =>
    some (xField { base 0x1CC g with d := sField d, a := sField a, b := sField b, ty := t.code } l n 0 0 false)
  | .xcvt g l dt so s d a n =>
    some (xField { base 0x1CD g with d := sField d, a := sField a, b := 960, ty := dt.code } l n 0 so.code s)
  | .xred g l t op d a n =>
    some (xField { base 0x1CE g with d := d, a := sField a, b := 960, ty := t.code } l n (0#1 ++ op.num) 0 false)
  | .xscan g l t op e d a n =>
    some (xField { base 0x1CF g with d := sField d, a := sField a, b := 960, ty := t.code } l n (0#1 ++ op.num) (0#3 ++ bit1 e) false)
  | .xsel g l t d a b n =>
    some (xField { base 0x1D0 g with d := sField d, a := sField a, b := sField b, ty := t.code } l n 0 0 false)
  | .ld g l sz sx d m =>
    some ({ base 0x180 g with d := d, a := regField m.base, b := regField m.index }.withLlOff l (bit1 sx ++ sz.num ++ m.scl) m.off)
  | .st g l sz d m =>
    some ({ base 0x181 g with d := regField d, a := regField m.base, b := regField m.index }.withLlOff l (0#1 ++ sz.num ++ m.scl) m.off)
  | .lds g l sz sx d m =>
    some ({ base 0x182 g with d := d, a := regField m.base, b := regField m.index }.withLlOff l (bit1 sx ++ sz.num ++ m.scl) m.off)
  | .sts g l sz d m =>
    some ({ base 0x183 g with d := regField d, a := regField m.base, b := regField m.index }.withLlOff l (0#1 ++ sz.num ++ m.scl) m.off)
  | .ldt g l sx d h c => some ({ base 0x184 g with d := d, a := sField h, b := regField c }.withLl l (bit1 sx ++ 0#5))
  | .stt g l d h c => some ({ base 0x185 g with d := regField d, a := sField h, b := regField c }.withLl l 0)
  | .pref g lvl m =>
    let f := { base 0x186 g with a := regField m.base, b := regField m.index, c := 0#4 ++ 0#1 ++ lvl.num ++ m.scl }
    match m.off with
    | none => some f
    | some o => some { f with lit := true, x := 0#4 ++ o }
  | .cp g l o sh d h c =>
    let s : BitVec 5 := match sh with
      | none => 0#5
      | some k => k ++ 1#1
    some ({ base 0x187 g with d := sField d, a := sField h, b := sField c }.withLl l (s ++ bit1 o))
  | .cpw g l o sh d a n =>
    let s : BitVec 5 := match sh with
      | none => 0#5
      | some k => k ++ 1#1
    some ({ base 0x188 g with d := sField d, a := sField a, b := sField n }.withLl l (s ++ bit1 o))
  | .atom g l op t sc d a o b =>
    some ({ base 0x189 g with d := discardField d, a := regField a, b := regField b, ty := t.code }.withLlOff l (sc.num ++ op.num) o)
  | .atomc g l t sc d a o b =>
    some ({ base 0x18A g with d := discardField d, a := regField a, b := regField b, ty := t.code }.withLlOff l (sc.num ++ 0#4) o)
  | .atoms g l op t d a o b =>
    some ({ base 0x18B g with d := discardField d, a := regField a, b := regField b, ty := t.code }.withLlOff l (0#2 ++ op.num) o)
  | .fence g sc => some { base 0x18C g with c := 0#8 ++ sc.num }
  | .waita g cc t d a o b =>
    some ({ base 0x18D g with d := discardField d, a := regField a, b := regField b, md := 0#1 ++ cc.num, ty := t.code }.withW o)
  | .wake g d a o b =>
    some ({ base 0x18E g with d := discardField d, a := regField a, b := regField b }.withW o)
  | .mfill g l d b => some ({ base 0x190 g with d := sField d, b := sField b }.withLl l 0)
  | .mcopy g l d a b => some ({ base 0x191 g with d := sField d, a := sField a, b := sField b }.withLl l 0)
  | .mcmp g l d a b => some ({ base 0x192 g with d := sField d, a := sField a, b := sField b }.withLl l 0)
  | .mred g l op t d a b =>
    some ({ base 0x193 g with d := sField d, a := sField a, b := sField b, ty := t.code }.withLl l (0#3 ++ op.num))
  | .lrbind g l d a => some ({ base 0x198 g with d := sField d, a := sField a }.withLl l 0)
  | .lrfree g l a => some ({ base 0x199 g with a := sField a }.withLl l 0)
  | .lrqry g l d a w => some ({ base 0x19A g with d := sField d, a := sField a }.withLl l w)
  | .shcfg g k a => some { base 0x1A0 g with a := sField a, md := k }
  | .shcfgOff g k => some { base 0x1A0 g with c := 1, md := k }
  | .shacq g d k c => some { base 0x1A1 g with d := sField d, md := k, c := 0#3 ++ c }
  | .shcom g k c => some { base 0x1A2 g with md := k, c := 0#3 ++ c }
  | .shwait g d k c => some { base 0x1A3 g with d := sField d, md := k, c := 0#3 ++ c }
  | .shrel g k c => some { base 0x1A4 g with md := k, c := 0#3 ++ c }
  | .prwait g a b o => some ({ base 0x1A5 g with a := regField a, b := regField b }.withOff o)
  | .mstart g l x =>
    match x with
    | .addr a => some ({ base 0x1C0 g with a := sField a }.withLl l 0)
    | .rel o => some ((base 0x1C0 g).withLlLit l 0 o)
  | .mstop g => some (base 0x1C1 g)
  | .mma k d a b =>
    let f := { base 0x1C2 Guard.always with d := 0#5 ++ d, a := mapField a, b := mapField b }
    match k with
    | .bf16 => some { f with ty := 10 }
    | .f16 => some { f with ty := 9 }
    | .int8 false s x => some { f with ty := 1, md := bit1 x ++ bit1 s ++ 0#2 }
    | .int8 true s x => some { f with ty := 2, md := bit1 x ++ bit1 s ++ 0#2 }
    | .narrow w => some { f with md := 0#2 ++ w.num }
  | .mzero d => some { base 0x1C3 Guard.always with d := 0#5 ++ d }
  | .mload d m => some { base 0x1C4 Guard.always with d := 0#5 ++ d, a := mapField m }
  | .mdrain s am t m =>
    let f := { base 0x1C5 Guard.always with a := 0#5 ++ t, b := mapField m }
    match am with
    | none => some { f with c := 0#7 ++ bit1 s ++ 0#2 }
    | some o => some { f with lit := true, c := 0#7 ++ bit1 s ++ 2#2, x := 0#11 ++ o }
  | .mdrainMem s am o t =>
    some { base 0x1C5 Guard.always with lit := true, a := 0#5 ++ t, c := 0#7 ++ bit1 s ++ bit1 am ++ 1#1, x := 0#11 ++ o }
  | .mshrTake k c => some { base 0x1C7 Guard.always with md := k, c := 0#3 ++ c }
  | .mshrRel k c => some { base 0x1C7 Guard.always with d := 1, md := k, c := 0#3 ++ c }
  | .mshwAcq k c => some { base 0x1C6 Guard.always with md := k, c := 0#3 ++ c }
  | .mshwCom k c => some { base 0x1C6 Guard.always with d := 1, md := k, c := 0#3 ++ c }
  | .mbarArv b n => some { base 0x1C8 Guard.always with md := b, c := n }
  | .mbarSync b n => some { base 0x1C8 Guard.always with d := 1, md := b, c := n }
  | .mloop n => some ((base 0x1C9 Guard.always).withImm n)
  | .mend => some (base 0x1CA Guard.always)
  | .tbind g k a => some { base 0x1DC g with a := sField a, md := k }
  | .tqry g d k w => some { base 0x1DD g with d := sField d, md := k, c := 0#8 ++ w }
  | .wlcfg g a b => some { base 0x1D1 g with a := sField a, b := sField b }
  | .wlapp g l z po d a b =>
    some ({ base 0x1D2 g with d := discardField d, a := regField a, b := regField b }.withLl l (z ++ po))
  | .wltake g l z po d a => some ({ base 0x1D3 g with d := d, a := regField a }.withLl l (z ++ po))
  | .wldone g a b => some { base 0x1D4 g with a := regField a, b := regField b }
  | .tdwait g d x =>
    match x with
    | .imm s => some { base 0x1D5 g with d := sField d, c := 0#4 ++ s }
    | .reg a => some { base 0x1D5 g with d := sField d, a := sField a, md := 1 }
  | .psweep g l md bu ro d h b =>
    some ({ base 0x1D6 g with d := sField d, a := sField h, b := sField b }.withLl l (bit1 bu ++ md.num ++ ro))
  | .pwait g k a b => some { base 0x1D7 g with a := regField a, b := regField b, md := 0#1 ++ k }
  | .pwake g d h b => some { base 0x1D8 g with d := discardField d, a := sField h, b := regField b }
  | .pctx g l d h b => some ({ base 0x1D9 g with d := discardField d, a := sField h, b := regField b }.withLl l 0)
  | .pqryCtx g l d h b => some ({ base 0x1DA g with d := d, a := sField h, b := regField b }.withLl l 0)
  | .pqrySweep g l d h => some ({ base 0x1DA g with d := sField d, a := sField h }.withLl l 1)
  | .pstop g h => some { base 0x1DB g with a := sField h }
  | .rast g l fr cu ro d a =>
    some ({ base 0x1E0 g with d := sField d, a := sField a }.withLl l (0#1 ++ ro ++ bit1 cu ++ bit1 fr))
  | .rsetup g l cu d a => some ({ base 0x1E1 g with d := d, a := a }.withLl l (0#5 ++ bit1 cu))
  | .rcover g l po d a b => some ({ base 0x1E2 g with d := d, a := a, b := b }.withLl l (0#2 ++ po))
  | .tex g l d a b => some ({ base 0x1E3 g with d := d, a := a, b := sField b, ty := Ty.f32x2.code }.withLl l 0)
  | .texg g l c d a b =>
    some ({ base 0x1E4 g with d := d, a := a, b := sField b, ty := Ty.f32x2.code }.withLl l (0#4 ++ c))
  | .texl g l d a b => some ({ base 0x1E5 g with d := d, a := a, b := sField b, ty := Ty.f32x2.code }.withLl l 0)
  | .texd g l d a b => some ({ base 0x1E6 g with d := d, a := a, b := sField b, ty := Ty.f32x2.code }.withLl l 0)
  | .tlod g l d a b => some ({ base 0x1E7 g with d := d, a := a, b := sField b, ty := Ty.i32x2.code }.withLl l 0)
  | .imgst g l d a b => some ({ base 0x1E8 g with d := d, a := a, b := sField b }.withLl l 0)
  | .trace g l any p d a b =>
    some ({ base 0x1E9 g with d := d, a := a, b := sField b }.withLl l (p ++ 0#1 ++ bit1 any))
  | .trcont g l d => some ({ base 0x1EA g with d := d }.withLl l 0)
  | .trpair g l se re d a b =>
    some ({ base 0x1EB g with d := sField d, a := sField a, b := sField b }.withLl l (0#4 ++ bit1 re ++ bit1 se))
  | .trqry g l w d => some ({ base 0x1EC g with d := d }.withLl l (0#4 ++ w))
  | .trcommit g l => some ((base 0x1ED g).withLl l 0)
  | .boxt g l po d a b => some ({ base 0x1EE g with d := d, a := a, b := b }.withLl l (0#2 ++ po))
  | .trit g l po d a b => some ({ base 0x1EF g with d := d, a := a, b := b }.withLl l (0#2 ++ po))
  | .trap g n => some { base 0x1F0 g with c := n }
  | .brk g n => some { base 0x1F8 g with c := n }
  | .eret => some (base 0x1F1 Guard.always)
  | .uiret => some (base 0x1F2 Guard.always)
  | .launch g l d a => some ({ base 0x1F3 g with d := sField d, a := sField a }.withLl l 0)
  | .csave g l d a b => some ({ base 0x1F4 g with d := sField d, a := sField a, b := sField b }.withLl l 0)
  | .crest g l d a b => some ({ base 0x1F5 g with d := sField d, a := sField a, b := sField b }.withLl l 0)
  | .tick g d => some { base 0x1F6 g with d := regField d }
  | .mark g n a => some { base 0x1F7 g with c := n, a := regField a }
  | .patom g l op d a b => some ({ base 0x1F9 g with d := d, a := regField a, b := regField b }.withLl l (0#4 ++ op.num))
  | .fuserd g d n => some { base 0x1FA g with d := sField d, c := 0#2 ++ n }
  | .lmsver g l tk d a b =>
    some ({ base 0x1FB g with d := sField d, a := sField a, b := sField b }.withLl l (0#5 ++ bit1 tk))
  | .kwipe g d a =>
    match a with
    | none => some { base 0x1FC g with d := sField d, c := 1 }
    | some r => some { base 0x1FC g with d := sField d, a := sField r }
  | .measureExt g l d m b => some ({ base 0x1FD g with d := sField d, b := sField b }.withLl l (0#3 ++ m))
  | .measureRd g l d m b => some ({ base 0x1FD g with d := sField d, b := sField b }.withLl l (1#3 ++ m))
  | .dbgopen g d => some { base 0x1FE g with d := sField d }
  | .iaddShort _ _ _ _ _ | .isubShort _ _ _ _ _ | .imulShort _ _ _ _ _ | .iminShort _ _ _ _ _
  | .imaxShort _ _ _ _ _ | .shlShort _ _ _ _ _ | .shrShort _ _ _ _ _ | .sarShort _ _ _ _ _
  | .faddF16x4Short _ _ _ _ | .faddBf16x4Short _ _ _ _ | .faddF32x2Short _ _ _ _ | .faddF32Short _ _ _ _
  | .faddF64Short _ _ _ _ | .fsubF16x4Short _ _ _ _ | .fsubBf16x4Short _ _ _ _ | .fsubF32x2Short _ _ _ _
  | .fsubF32Short _ _ _ _ | .fsubF64Short _ _ _ _ | .fmulF16x4Short _ _ _ _ | .fmulBf16x4Short _ _ _ _
  | .fmulF32x2Short _ _ _ _ | .fmulF32Short _ _ _ _ | .fmulF64Short _ _ _ _ | .fminF16x4Short _ _ _ _
  | .fminBf16x4Short _ _ _ _ | .fminF32x2Short _ _ _ _ | .fminF32Short _ _ _ _ | .fminF64Short _ _ _ _
  | .fmaxF16x4Short _ _ _ _ | .fmaxBf16x4Short _ _ _ _ | .fmaxF32x2Short _ _ _ _ | .fmaxF32Short _ _ _ _
  | .fmaxF64Short _ _ _ _ | .movShort _ _ _ | .nopShort _ | .exitShort _ | .yieldShort _
  | .popcShort _ _ _ | .clzShort _ _ _ | .brevShort _ _ _ | .logAndShort _ _ _ _ | .logOrShort _ _ _ _
  | .logXorShort _ _ _ _ | .rotShort _ _ _ _ | .iabsI32x2Short _ _ _ | .inegI32x2Short _ _ _
  | .iabsI64Short _ _ _ | .inegI64Short _ _ _ => none

/-- A short instruction's fields. -/
def shortOf (op : BitVec 7) (g : Guard) (d a b : BitVec 6) : Option ShortFields :=
  some { op := op, pg := g.pg, pn := g.pn, d := d, a := a, b := b }

/-- The fields of a short-form instruction (R213); none for every other. -/
def Instr.shortFields : Instr → Option ShortFields
  | .issueSelection _ | .agingCredit _ _ | .longLatencyCompletion _ _ _ _ | .fenceComplete _ _ _
  | .presenceResume _ _ | .sleepExpiry _ _ _ | .waitaRetest _ _ _ | .shelfFire _ _
  | .shelfCommitEffect _ _ | .ownershipGrant _ | .parkedFaultDelivery _ _ | .userInterruptTake _ _
  | .gangPlacement _ | .extraGroupStart _ _ _ | .groupEnd _ _ | .gridCompletion _ | .copyBegin _
  | .copyRow _ | .pageCacheFillDone _ | .coalescerBatchClose _ | .traverseStep _ | .pairStep _
  | .textureQuad _ | .rasterTriangle _ | .sweepClaim _ _ | .sweepWriteback _ _ | .passBarrier _
  | .hostSnoop _ _ | .backInvalidation _ | .hostWindowRead _ _ _ | .hostWindowWrite _ _ _ _
  | .signalWakeAll _ _ _ | .signalWakeOne _ _ _ | .signalRegisterHostWait _ _ _
  | .signalPostInterrupt _ _ _ | .signalApertureIgnored _ _ | .heartbeat | .portLoss _
  | .schedulerDecision _ | .quantumExpiry _ | .preemptHalt _ | .preemptSwap _ | .contextStaging _
  | .coldStart _ | .warmStart _ | .startComplete _ | .startTimeout | .fullServiceTransition
  | .attestationReport _ | .securityAlarm1 _ | .securityAlarm2 _ | .securityAlarm3 _
  | .traceControlRead _ | .counterSnapshot _ | .preciseStop | .jtagIdcode | .jtagStopreq _
  | .jtagChsel _ | .jtagChread _ | .jtagResume | .jtagBypass _ | .powerLimitSet _ | .powerThrottle _
  | .thermalThrottle _ | .thermalShutdown _ | .coolantFlowLow | .deepPowerEntry | .deepPowerExit _
  | .telemetryRefresh _ | .instructionCacheFill _ _ _ | .fuseProgramming _ | .gddr7TrainingComplete
  | .powerFailure | .patomHeartbeatDeadline _ _ _ => none
  | .nop _ | .bra _ _ | .brx _ _ | .btab _ _ _ _ _ | .call _ _ _ | .callx _ _ _ | .ret _ _ | .exit _
  | .jmask _ _ _ | .jmaskAct _ _ | .jmaskOr _ _ | .join _ | .jany _ _ _ | .yield _ | .waitd _ _
  | .setprio _ _ | .setprioS _ _ | .sleep _ _ _ | .bararv _ _ _ _ | .barwait _ _ _ | .ordwait _
  | .ordrel _ | .srd _ _ _ | .swr _ _ _ | .swrFlags _ _ | .swrMode _ _ | .swrLease _ _ | .swrStopat _ _
  | .smov _ _ _ | .sli _ _ _ _ | .sliHi _ _ _ | .sadd _ _ _ _ _ | .ssub _ _ _ _ _ | .smul _ _ _ _ _
  | .smad _ _ _ _ _ _ | .slog _ _ _ _ _ | .sshf _ _ _ _ _ _ | .scmp _ _ _ _ _ _ | .ssel _ _ _ _ _
  | .mov _ _ _ | .li _ _ _ _ | .liHi _ _ _ _ | .iadd _ _ _ _ _ _ | .isub _ _ _ _ _ _ | .imul _ _ _ _ _ _
  | .imulh _ _ _ _ _ | .imad _ _ _ _ _ _ _ | .imin _ _ _ _ _ | .imax _ _ _ _ _ | .iabs _ _ _ _ _
  | .ineg _ _ _ _ _ | .log _ _ _ _ _ | .shl _ _ _ _ _ | .shr _ _ _ _ _ | .sar _ _ _ _ _ | .rot _ _ _ _ _
  | .popc _ _ _ _ | .clz _ _ _ _ | .brev _ _ _ | .bfe _ _ _ _ _ | .bfi _ _ _ _ _ | .bperm _ _ _ _ _
  | .icmp _ _ _ _ _ _ _ | .sel _ _ _ _ _ | .lea _ _ _ _ _ _ | .iaddx _ _ _ _ _ _ _ | .plog _ _ _ _ _
  | .pmov _ _ _ | .pmovS _ _ _ | .pcnt _ _ _ | .rget _ _ _ _ | .rput _ _ _ | .fadd _ _ _ _ _
  | .fsub _ _ _ _ _ | .fmul _ _ _ _ _ | .ffma _ _ _ _ _ _ | .fmin _ _ _ _ _ | .fmax _ _ _ _ _
  | .fcmp _ _ _ _ _ _ _ | .fclass _ _ _ _ | .frnd _ _ _ _ _ _ | .fscale _ _ _ _ _ | .fdot _ _ _ _ _ _
  | .rcp _ _ _ _ _ | .rsq _ _ _ _ _ | .sqrt _ _ _ _ _ | .exp2 _ _ _ _ _ | .log2 _ _ _ _ _
  | .sin _ _ _ _ _ | .cos _ _ _ _ _ | .tanh _ _ _ _ _ | .fcvt _ _ _ _ _ _ _ | .ftoi _ _ _ _ _ _ _
  | .icvt _ _ _ _ _ _ _ _ | .fmtset _ _ _ | .ncvtDec _ _ _ _ _ _ _ _ _ | .ncvtEnc _ _ _ _ _ _ _ _ _
  | .ndot _ _ _ _ _ _ _ _ _ | .perm _ _ _ _ _ _ | .bcast _ _ _ _ _ _ | .vote _ _ _ _ | .redu _ _ _ _ _ _
  | .scan _ _ _ _ _ _ _ | .matchLanes _ _ _ _ | .derivx _ _ _ _ _ _ | .derivy _ _ _ _ _ _
  | .qswap _ _ _ _ _ | .xalu _ _ _ _ _ _ _ _ _ | .xfma _ _ _ _ _ _ _ | .xcvt _ _ _ _ _ _ _ _
  | .xred _ _ _ _ _ _ _ | .xscan _ _ _ _ _ _ _ _ | .xsel _ _ _ _ _ _ _ | .ld _ _ _ _ _ _ | .st _ _ _ _ _
  | .lds _ _ _ _ _ _ | .sts _ _ _ _ _ | .ldt _ _ _ _ _ _ | .stt _ _ _ _ _ | .pref _ _ _
  | .cp _ _ _ _ _ _ _ | .cpw _ _ _ _ _ _ _ | .atom _ _ _ _ _ _ _ _ _ | .atomc _ _ _ _ _ _ _ _
  | .atoms _ _ _ _ _ _ _ _ | .fence _ _ | .waita _ _ _ _ _ _ _ | .wake _ _ _ _ _ | .mfill _ _ _ _
  | .mcopy _ _ _ _ _ | .mcmp _ _ _ _ _ | .mred _ _ _ _ _ _ _ | .lrbind _ _ _ _ | .lrfree _ _ _
  | .lrqry _ _ _ _ _ | .shcfg _ _ _ | .shcfgOff _ _ | .shacq _ _ _ _ | .shcom _ _ _ | .shwait _ _ _ _
  | .shrel _ _ _ | .prwait _ _ _ _ | .mstart _ _ _ | .mstop _ | .mma _ _ _ _ | .mzero _ | .mload _ _
  | .mdrain _ _ _ _ | .mdrainMem _ _ _ _ | .mshrTake _ _ | .mshrRel _ _ | .mshwAcq _ _ | .mshwCom _ _
  | .mbarArv _ _ | .mbarSync _ _ | .mloop _ | .mend | .tbind _ _ _ | .tqry _ _ _ _ | .wlcfg _ _ _
  | .wlapp _ _ _ _ _ _ _ | .wltake _ _ _ _ _ _ | .wldone _ _ _ | .tdwait _ _ _ | .psweep _ _ _ _ _ _ _ _
  | .pwait _ _ _ _ | .pwake _ _ _ _ | .pctx _ _ _ _ _ | .pqryCtx _ _ _ _ _ | .pqrySweep _ _ _ _
  | .pstop _ _ | .rast _ _ _ _ _ _ _ | .rsetup _ _ _ _ _ | .rcover _ _ _ _ _ _ | .tex _ _ _ _ _
  | .texg _ _ _ _ _ _ | .texl _ _ _ _ _ | .texd _ _ _ _ _ | .tlod _ _ _ _ _ | .imgst _ _ _ _ _
  | .trace _ _ _ _ _ _ _ | .trcont _ _ _ | .trpair _ _ _ _ _ _ _ | .trqry _ _ _ _ | .trcommit _ _
  | .boxt _ _ _ _ _ _ | .trit _ _ _ _ _ _ | .trap _ _ | .brk _ _ | .eret | .uiret | .launch _ _ _ _
  | .csave _ _ _ _ _ | .crest _ _ _ _ _ | .tick _ _ | .mark _ _ _ | .patom _ _ _ _ _ _ | .fuserd _ _ _
  | .lmsver _ _ _ _ _ _ | .kwipe _ _ _ | .measureExt _ _ _ _ _ | .measureRd _ _ _ _ _ | .dbgopen _ _ => none
  | .iaddShort g t d a b => shortOf (0#4 ++ t) g d a b
  | .isubShort g t d a b => shortOf (1#4 ++ t) g d a b
  | .imulShort g t d a b => shortOf (2#4 ++ t) g d a b
  | .iminShort g t d a b => shortOf (3#4 ++ t) g d a b
  | .imaxShort g t d a b => shortOf (4#4 ++ t) g d a b
  | .shlShort g t d a b => shortOf (5#4 ++ t) g d a b
  | .shrShort g t d a b => shortOf (6#4 ++ t) g d a b
  | .sarShort g t d a b => shortOf (7#4 ++ t) g d a b
  | .faddF16x4Short g d a b => shortOf 0x40 g d a b
  | .faddBf16x4Short g d a b => shortOf 0x41 g d a b
  | .faddF32x2Short g d a b => shortOf 0x42 g d a b
  | .faddF32Short g d a b => shortOf 0x43 g d a b
  | .faddF64Short g d a b => shortOf 0x44 g d a b
  | .fsubF16x4Short g d a b => shortOf 0x45 g d a b
  | .fsubBf16x4Short g d a b => shortOf 0x46 g d a b
  | .fsubF32x2Short g d a b => shortOf 0x47 g d a b
  | .fsubF32Short g d a b => shortOf 0x48 g d a b
  | .fsubF64Short g d a b => shortOf 0x49 g d a b
  | .fmulF16x4Short g d a b => shortOf 0x4A g d a b
  | .fmulBf16x4Short g d a b => shortOf 0x4B g d a b
  | .fmulF32x2Short g d a b => shortOf 0x4C g d a b
  | .fmulF32Short g d a b => shortOf 0x4D g d a b
  | .fmulF64Short g d a b => shortOf 0x4E g d a b
  | .fminF16x4Short g d a b => shortOf 0x4F g d a b
  | .fminBf16x4Short g d a b => shortOf 0x50 g d a b
  | .fminF32x2Short g d a b => shortOf 0x51 g d a b
  | .fminF32Short g d a b => shortOf 0x52 g d a b
  | .fminF64Short g d a b => shortOf 0x53 g d a b
  | .fmaxF16x4Short g d a b => shortOf 0x54 g d a b
  | .fmaxBf16x4Short g d a b => shortOf 0x55 g d a b
  | .fmaxF32x2Short g d a b => shortOf 0x56 g d a b
  | .fmaxF32Short g d a b => shortOf 0x57 g d a b
  | .fmaxF64Short g d a b => shortOf 0x58 g d a b
  | .movShort g d a => shortOf 0x60 g d a 0
  | .nopShort g => shortOf 0x61 g 0 0 0
  | .exitShort g => shortOf 0x62 g 0 0 0
  | .yieldShort g => shortOf 0x63 g 0 0 0
  | .popcShort g d a => shortOf 0x64 g d a 0
  | .clzShort g d a => shortOf 0x65 g d a 0
  | .brevShort g d a => shortOf 0x66 g d a 0
  | .logAndShort g d a b => shortOf 0x67 g d a b
  | .logOrShort g d a b => shortOf 0x68 g d a b
  | .logXorShort g d a b => shortOf 0x69 g d a b
  | .rotShort g d a b => shortOf 0x6A g d a b
  | .iabsI32x2Short g d a => shortOf 0x6B g d a 0
  | .inegI32x2Short g d a => shortOf 0x6C g d a 0
  | .iabsI64Short g d a => shortOf 0x6D g d a 0
  | .inegI64Short g d a => shortOf 0x6E g d a 0

/-- The bits of an instruction, first word lowest; 0 for an event (R202-R205). -/
def Instr.word (i : Instr) : BitVec 96 :=
  match i.fields with
  | some f => f.pack
  | none =>
    match i.shortFields with
    | some f => 0#64 ++ f.pack
    | none => 0

/-- The number of bytes of an instruction; 0 for an event. -/
def Instr.size (i : Instr) : Nat :=
  match i.fields with
  | some f => if f.lit then 12 else 8
  | none => if i.shortFields.isSome then 4 else 0

/-- The bytes of an instruction as memory holds them (R199). -/
def encode (i : Instr) : List Byte := leBytes i.size i.word.toNat

end Sys2Proof
end

