-- ==== Sys2Proof/Machine/Drift.lean ====
section
/-!
DEFINITION. What the device does on its own between steps, as the specification leaves it open: lines leave their home slices,
dirty lines are written back, posted writes arrive, and errors come up, are logged and mark what they hit (R37, R90, R106, R353,
R393-R396; entry 136).
-/
namespace Sys2Proof.Machine

/-- One of the entries of a list, by a free number. -/
def pickOf {α : Type} (xs : List α) (n : Nat) : Option α := xs[n % Nat.max 1 xs.length]?

/-- A line leaves its home slice, unless an operation owns it (R90, R97). -/
def State.driftEvict (s : State) (n : Nat) : State :=
  match pickOf (keys s.lines) n with
  | some l => if s.owned l then s else s.evict l
  | none => s

/-- A dirty line of a home slice, or a dirty line of the page cache, is written down (R353). -/
def State.driftClean (s : State) (n : Nat) : State :=
  match pickOf (keys s.homeOld) (n / 2), pickOf (keys s.frameOld) (n / 2) with
  | some l, x => if n % 2 = 0 ∨ x.isNone = true then s.cleanHome l else s.cleanFrame (x.toList)
  | none, some l => s.cleanFrame [l]
  | none, none => s

/-- Posted writes of a port arrive at the host (R106). -/
def State.driftLand (s : State) (n : Nat) : State :=
  match pickOf (keys s.ports) n with
  | some p => s.land p (n / 4)
  | none => s

/-- A core that has a clause in issue. -/
def State.driftCore (s : State) (n : Nat) : Option Nat := pickOf ((s.cores.filter (fun c => c.2.issue.isSome)).map (·.1)) n

/-- A corrected error: a record, or one more occurrence in that of the same structure and location less than 1,024 ticks old
(R393, R395). -/
def Device.logCorrected (d : Device) (struct unit ctx loc : Nat) : Device :=
  let same (r : BitVec 256) : Bool :=
    (r.extractLsb' 0 2).toNat == 0 && (r.extractLsb' 8 8).toNat == struct && (r.extractLsb' 16 16).toNat == unit
      && (r.extractLsb' 64 64).toNat == loc && decide (d.datum < (r.extractLsb' 128 64).toNat + 1024)
  match d.log.findIdx? same with
  | some k => { d with log := d.log.modify k (fun r =>
      let n := (r.extractLsb' 192 32).toNat
      BitVec.ofNat 256 (r.toNat - n * 2 ^ 192 + Nat.min (n + 1) 0xFFFFFFFF * 2 ^ 192)) }
  | none => d.logError (errorRecord 0 struct unit ctx loc d.datum)

/-- A line of the home slices, the page cache or device memory is marked poisoned, with its record (R393, R395). -/
def State.driftPoison (s : State) (n : Nat) : State :=
  match pickOf (keys s.lines) n with
  | some l =>
    (s.setLine l { s.line l with poison := true }).logEvent 1 (if n / 2 % 2 = 0 then 6 else if poolLine l then 9 else 8) (sliceOf l) 0x3FF
      (l * 64 % 2 ^ 60)
  | none => s

/-- A word of a resident team's share, or of its accumulator, is marked poisoned, with its record (R393, R395). -/
def State.driftSpoil (s : State) (n : Nat) : State :=
  match pickOf (s.teams.filter (fun t => t.2.core.isSome)) n with
  | some (t, x) =>
    let w := n / 2 ^ 16
    let core := x.core.getD 0
    if n / 2 % 2 = 0 then
      (s.onTeam t (fun x => { x with bad := put (w % Nat.max 1 (x.size / 8)) () x.bad })).logEvent 1 2 core x.ctx w
    else if x.ntiles = 0 then s
    else (s.onTeam t (fun x => { x with accBad := put (w % (16384 * x.ntiles)) () x.accBad })).logEvent 1 3 core x.ctx w
  | none => s

/-- A core's L1 loses a copy, or its instruction cache a line, to an error that is logged as corrected (R393). -/
def State.driftLose (s : State) (n : Nat) : State :=
  match pickOf s.cores n with
  | some (c, k) =>
    let i := n / 2 ^ 16
    if n / 2 % 2 = 0 then
      (s.onCore c (fun k => { k with l1 := k.l1.eraseIdx (i % Nat.max 1 k.l1.length) })).onDev (fun d => d.logCorrected 4 c 0x3FF i)
    else (s.onCore c (fun k => { k with ic := k.ic.eraseIdx (i % Nat.max 1 k.ic.length) })).onDev (fun d => d.logCorrected 5 c 0x3FF (i + k.clocks))
  | none => s

/-- An error meets the next instruction of a core: its copies differ, an operand is poisoned, or its accesses fail (R37, R393,
R402). -/
def State.driftStrike (s : State) (kind n : Nat) : State :=
  match s.driftCore n with
  | some c => s.onCore c (fun k =>
      if kind = 0 then { k with upset := BitVec.ofNat 32 (n / 2 ^ 16) }
      else if kind = 1 then { k with marred := BitVec.ofNat 32 (n / 2 ^ 16) }
      else { k with struck := true })
  | none => s

/-- What the device does on its own after a step: one thing, or nothing (entry 136). -/
def State.drift (s : State) : State :=
  let k := Config.drift (2 * s.fresh)
  let n := Config.drift (2 * s.fresh + 1)
  match k with
  | 1 => s.driftEvict n
  | 2 => s.driftClean n
  | 3 => s.driftLand n
  | 4 => s.driftPoison n
  | 5 => s.driftSpoil n
  | 6 => s.driftLose n
  | 7 => s.onDev (fun d => d.logCorrected (n % 10) (n / 16 % 2 ^ 16) 0x3FF (n / 2 ^ 20))
  | 8 => s.driftStrike 0 n
  | 9 => s.driftStrike 1 n
  | 10 => s.driftStrike 2 n
  | _ => s

end Sys2Proof.Machine
end

