-- ==== Sys2Proof/Machine/Turn.lean ====
section
/-!
DEFINITION. What the next step is: the legality of an encoding under an older version (R215), the illegal encodings of a
clause (R214), the events that the device's own agents can perform, and the choice among them and the cores (entries 5,
6).
-/
namespace Sys2Proof.Machine

/-! ### Encoding versions (R215) -/

/-- A long opcode is assigned in a version (R215). -/
def opcodeIn (ver op : Nat) : Bool :=
  let later2 := op == 0x120 || op == 0x121 || op == 0x122 || op == 0x1EB || (decide (0x1D6 ≤ op) && decide (op ≤ 0x1DB))
  let later1 := decide (0x1CB ≤ op) && decide (op ≤ 0x1D5)
  decide (3 ≤ ver) || !(later2 || (decide (ver ≤ 1) && later1))

/-- The word with a field changed. -/
def withField (w : BitVec 96) (lo n v : Nat) : BitVec 96 :=
  BitVec.ofNat 96 (w.toNat - field w.toNat lo n * 2 ^ lo + v * 2 ^ lo)

/-- A field holds a vector register that the older versions reserve: where version 3 takes the field as a register, it
refuses 640 there. -/
noncomputable def highVector (w : BitVec 96) (lo : Nat) : Bool :=
  decide (512 ≤ field w.toNat lo 10) && decide (field w.toNat lo 10 < 640)
    && (match decodeBits (withField w lo 10 640) with
      | .error .regReserved => true
      | .error _ => false
      | .ok _ => false)

/-- A counter field names `D4` to `D7`: where version 3 takes the field as `DCN`, it refuses 1 there. -/
noncomputable def highCounter (w : BitVec 96) (lo : Nat) : Bool :=
  decide (12 ≤ field w.toNat lo 4)
    && (match decodeBits (withField w lo 4 1) with
      | .error .dcn => true
      | .error _ => false
      | .ok _ => false)

/-- An instruction that version 3 decodes is one of the given version too (R215). -/
noncomputable def versionLegal (ver : Nat) (bs : List Byte) : Bool :=
  let w : BitVec 96 := BitVec.ofNat 96 (leNat (bs.take 12))
  let x := w.toNat
  if 3 ≤ ver then true
  else if x % 4 = 0 then
    let op := field x 2 7
    decide (2 ≤ ver) || !(decide (0x40 ≤ op) && decide (op ≤ 0x58) && (op - 0x40) % 5 == 3)
  else
    let w : BitVec 96 := if x % 4 = 1 then BitVec.ofNat 96 (x % 2 ^ 64) else w
    opcodeIn ver (field x 2 9) && [16, 26, 36, 46].all (fun lo => !highVector w lo)
      && (decide (2 ≤ ver) || (x % 4 == 1 && field x 60 4 != 13 && !highCounter w 52))

/-- The instruction at an offset of a body under a version, if the bytes there are one. -/
noncomputable def fetched (ver : Nat) (body : List Byte) (pos : Nat) : Option Instr :=
  match decode (body.drop pos) with
  | .ok (i, _) => if versionLegal ver (body.drop pos) then some i else none
  | .error _ => none

/-- The guard fields of a word, wherever its form has them (R203, R204). -/
def guardOf (x : Nat) : Guard :=
  if x % 4 = 0 then { pg := BitVec.ofNat 4 (field x 9 4), pn := x.testBit 13 }
  else { pg := BitVec.ofNat 4 (field x 11 4), pn := x.testBit 15 }

/-- An encoding that is no instruction: Illegal-Instruction in every member of the bundle (R214). -/
def State.bundleIllegal (s : State) (body : List Byte) (pos : Nat) : State :=
  s.run { g := guardOf (leNat ((body.drop pos).take 4)) } fun e _ => e.fault .illegal 0

/-- The clause in issue on a core whose turn it is. -/
def State.inIssue (s : State) (c : Nat) : Option Issue := (s.core c).issue

/-- A sequencer fetches its clause, or has reached an encoding that is no instruction (R282, R288). -/
def State.seqStray (s : State) (t : Nat) : State :=
  if (s.team t).seq.body.isEmpty then s.seqFetch t else s.seqFault t (.illegal, 0)

/-- The version of a sequencer's clause. -/
def State.seqVersion (s : State) (t : Nat) : Nat :=
  let q := (s.team t).seq
  (s.versionAt (s.team t).ctx q.level q.hdr).getD 3

/-! ### Events of the device's own agents -/

/-- Some lanes of a mask. -/
def State.someLanes (s : State) (m : Lanes) : Lanes :=
  if Config.word (s.free (2 ^ 16)) &&& m = 0 then m else Config.word (s.free (2 ^ 16)) &&& m

/-- The replies due to a group, wherever its block lies, and the end of its sleep (R227, R339). -/
def State.replyEvents (s : State) (t n : Nat) (g : Group) : List Instr :=
  g.pend.filterMap (fun p =>
      if s.mayComplete (s.ctxOf t) p.2 then some (Instr.longLatencyCompletion t n p.1 (s.someLanes p.2.lanes)) else none)
  ++ g.fences.map (fun f => Instr.fenceComplete t n f.1)
  ++ (if g.inState 9 = 0 then [] else [Instr.sleepExpiry t n (lowMask 64)])

/-- The events of a group that is resident. -/
def State.groupEvents (s : State) (t n : Nat) (g : Group) : List Instr :=
  (if (g.inState 8 ||| g.inState 5 ||| g.inState 6 ||| g.inState 7) = 0 then []
      else [Instr.presenceResume t n, Instr.waitaRetest t n (s.someLanes (s.wokenLanes t n))])
  ++ (if (s.dueFault t n).isSome then [Instr.parkedFaultDelivery t n] else [])
  ++ (if g.uien && g.uipend != 0 then [Instr.userInterruptTake t n] else [])
  ++ (if s.groupOver t n then [Instr.groupEnd t n] else [])

/-- The instruction-cache lines that a group's paths lack (R69). -/
noncomputable def State.lineEvents (s : State) (t n : Nat) (g : Group) (core : Nat) : List Instr :=
  g.paths.filterMap (fun p => match s.fetchPath t n p with
    | .absent l => some (Instr.instructionCacheFill core (s.ctxOf t) l)
    | .fault _ | .bad | .clause _ _ _ => none)

/-- The events of a team. -/
noncomputable def State.teamEvents (s : State) (t : Nat) (x : Team) : List Instr :=
  (if x.ctx < 1024 then x.groups.flatMap (fun g => s.replyEvents t g.1 g.2) else [])
  ++ (match x.core with
    | none => []
    | some core =>
      x.groups.flatMap (fun g => s.groupEvents t g.1 g.2 ++ s.lineEvents t g.1 g.2 core))
  ++ x.h.flatMap (fun h =>
      (if h.2.ready.isSome then [Instr.shelfFire t h.1] else [])
      ++ (if h.2.dues.isEmpty then [] else [Instr.shelfCommitEffect t h.1]))
  ++ (if s.teamOver t then [Instr.groupEnd t 16] else [])

/-- The events of an engine operation. -/
def Op.events (o : Op) (id : Nat) : List Instr :=
  (if o.need.isEmpty then [] else [Instr.ownershipGrant id])
  ++ (match o.body with
    | .copy _ => [if o.begun then Instr.copyRow id else Instr.copyBegin id]
    | .tex _ => [Instr.textureQuad id]
    | .rast _ => [Instr.rasterTriangle id, Instr.extraGroupStart false id 0]
    | .ray _ => [Instr.traverseStep id]
    | .pair _ => [Instr.pairStep id]
    | .near _ => if o.need.isEmpty then [Instr.ownershipGrant id] else []
    | .drain | .crest _ => [])

/-- The events of a sweep. -/
def Sweep.events (w : Sweep) (id : Nat) : List Instr :=
  w.engines.flatMap (fun e =>
    [Instr.sweepClaim id e.1, Instr.sweepWriteback id e.1, Instr.extraGroupStart true id e.1]) ++ [Instr.passBarrier id]

/-- The events of a partition (R333, R335, R337, R341). -/
def State.partEvents (s : State) (part : Nat) (p : Part) : List Instr :=
  let saves := if (s.savesOf part).isEmpty then [] else [Instr.preemptHalt part]
  if p.halting then [Instr.preemptHalt part]
  else if p.halted then saves
  else
    saves
    ++ (if p.swapping then [Instr.preemptSwap part]
     else
      [Instr.gangPlacement part]
      ++ (if (s.readDescs part).choice part p != p.running then [Instr.schedulerDecision part] else [])
      ++ (if s.expired p then [Instr.quantumExpiry part] else []))
    ++ (match s.nextToRun part p with
      | some c => if (s.ctx c).st = .spilled then [Instr.contextStaging part] else []
      | none => [])

/-- A core has something to select from (R28). -/
def State.coreEvents (s : State) (c : Nat) : List Instr :=
  if (s.inIssue c).isSome || (s.residents c).isEmpty then [] else [Instr.issueSelection c]

/-- The cores that hold a team. -/
def State.busyCores (s : State) : List Nat := (s.teams.filterMap (fun t => t.2.core)).eraseDups

/-- Events that a time makes due: they precede every other (R361, R368, R380, R388). -/
def State.dueEvents (s : State) : List Instr :=
  let now := s.dev.datum
  let trace (d : Nat) : Trace := get Trace.zero d s.traces
  (if s.beatDue then [Instr.heartbeat] else [])
  ++ (if s.dev.deadline != 0 && decide (s.dev.deadline ≤ now) then [Instr.startTimeout] else [])
  ++ (List.range 8).flatMap (fun d =>
      (if decide ((trace d).read + 2048 ≤ now) && !s.untrained (Config.traceBlock d / 64) then [Instr.traceControlRead d]
       else [])
      ++ (if (trace d).snap && decide ((trace d).snapTick ≤ now) then [Instr.counterSnapshot d] else []))

/-- Every event that some agent of the device can perform now. -/
noncomputable def State.events (s : State) : List Instr :=
  s.busyCores.flatMap s.coreEvents
  ++ s.teams.flatMap (fun t => s.teamEvents t.1 t.2)
  ++ s.ops.flatMap (fun o => o.2.events o.1)
  ++ s.sweeps.flatMap (fun w => w.2.events w.1)
  ++ (s.grids.filter (fun g => g.2.complete)).map (fun g => Instr.gridCompletion g.1)
  ++ s.parts.flatMap (fun p => s.partEvents p.1 p.2)
  ++ s.fills.map (fun f => Instr.pageCacheFillDone f.sector)
  ++ (keys s.batches).map (fun d => Instr.coalescerBatchClose d)
  ++ (if s.dev.service = .reduced then [Instr.fullServiceTransition] else [])

/-- The event of a step of the device's own agents: one that is due, or any (entry 5); in the deep power state only the
heartbeat goes on (R399). -/
noncomputable def State.event (s : State) : Option Instr :=
  let all := if s.dev.deep then (if s.beatDue then [Instr.heartbeat] else [])
    else if s.dueEvents.isEmpty then s.events else s.dueEvents
  all[Config.pick (4 * s.fresh + 1) % all.length]?

/-! ### Time and turns (entries 5, 6) -/

/-- The device takes no step of its own: it has halted, is stopped, or is off. -/
def Device.still (d : Device) : Bool :=
  d.halted || d.stopped || !(d.service == .normal || d.service == .reduced)

/-- The datum after a step: free, but an armed stop is met exactly (R379, R384). -/
def State.later (s : State) : Nat :=
  if s.dev.stopped || s.dev.deep then s.dev.datum
  else
    let t := s.dev.datum + Config.elapse s.fresh
    if s.dev.stopat = 0 then t else Nat.min t s.dev.stopat

/-- The agents that can take the next step: cores with a clause in issue, running sequencers, and the others. -/
def State.turns (s : State) : List Turn :=
  ((s.cores.filter (fun c => c.2.issue.isSome)).map (fun c => Turn.core c.1))
  ++ ((s.teams.filter (fun t => t.2.seq.st == .running && t.2.core.isSome)).map (fun t => Turn.seq t.1))
  ++ [.inner]

/-- What follows a step of a device that runs: what it does on its own, the parcels that are to be tested again, and the requests
from outside that waited; nothing while its clocks are gated (R384, R399; entries 136, 140). -/
def State.background (s : State) : State := if s.dev.still || s.dev.deep then s else s.drift.retestParcels.serve

/-- After a step: the device's own doings follow, time passes, a stop that is reached comes first, and an agent is chosen for the
next step. -/
def State.settled (s : State) : State :=
  let s := { s with fresh := s.fresh + 1 }.background
  let s := { s with dev := { s.dev with datum := s.later } }
  let s := if s.dev.stopat ≠ 0 ∧ s.dev.stopat ≤ s.dev.datum ∧ s.dev.stopped = false then
      { s with agenda := Instr.preciseStop :: s.agenda } else s
  if s.dueEvents.isEmpty && !s.dev.deep then { s with turn := s.turns.getD (Config.pick (4 * s.fresh) % s.turns.length) .inner }
  else { s with turn := .inner }

end Sys2Proof.Machine
end

