-- ==== Sys2Proof/Machine/Step.lean ====
section
/-!
DEFINITION. One step of the machine: the next of what is due from outside, an instruction of a core or of a sequencer, or
an event of the device's own agents; then time passes and the next turn is chosen (entries 5, 6).
-/
namespace Sys2Proof.Machine

/-- What follows a next state: time passes, and the turn for the next step is chosen. -/
def settle (o : Host.Outcome State Fault Refusal) : Host.Outcome State Fault Refusal :=
  match o with
  | .next s => .next s.settled
  | .fault f => .fault f
  | .refused r => .refused r

/-- The step of a core whose turn it is: the instruction at its place in its clause (R31, R214). -/
noncomputable def coreStep (c : Nat) (s : State) : Host.Outcome State Fault Refusal :=
  match s.inIssue c with
  | none => .next s
  | some x =>
    match fetched x.ver x.body x.pos with
    | some i => exec i s
    | none => .next (s.bundleIllegal x.body x.pos)

/-- The step of a matrix sequencer whose turn it is (R282). -/
noncomputable def seqStep (t : Nat) (s : State) : Host.Outcome State Fault Refusal :=
  let q := (s.team t).seq
  if q.st ≠ .running then .next s
  else
    match fetched (s.seqVersion t) q.body q.pos with
    | some i => exec i s
    | none => .next (s.seqStray t)

/-- The step of the device's other agents. -/
noncomputable def innerStep (s : State) : Host.Outcome State Fault Refusal :=
  match s.event with
  | some i => exec i s
  | none => .next s

/-- The step that a turn stands for; in the deep power state cores and sequencers do not run (R399). -/
noncomputable def turnStep (s : State) : Host.Outcome State Fault Refusal :=
  if s.dev.deep then innerStep { s with turn := .inner }
  else
    match s.turn with
    | .core c => coreStep c s
    | .seq t => seqStep t s
    | .inner => innerStep s

/-- One step. What is due from outside, or as the sequel of a step, comes first. -/
noncomputable def step (s : State) : Host.Outcome State Fault Refusal :=
  match s.agenda with
  | i :: rest => settle (exec i { s with agenda := rest, turn := .inner })
  | [] => if s.dev.still then .fault .deviceHalted else settle (turnStep s)

/-! ### A word placed for the host's questions -/

/-- The bytes of a table word, twelve of them. -/
def placedBytes (nbits w : Nat) : List Byte := tableBytes nbits w

/-- The opcode of a table word is one of the matrix sequencer's (R210). -/
def streamWord (w : Nat) : Bool := w % 4 != 0 && decide (0x1C2 ≤ field w 2 9) && decide (field w 2 9 ≤ 0x1CA)

/-- A device in normal service at the state that the specification gives a start, one partition, one context and one
group of eight lanes with 640 vector registers, on core 0 (entry 3). -/
def State.placed (s : State) : State :=
  let g : Group := { Group.zero with
    width := 8, n := 640, st := (List.range 8).map (fun i => (i, 1)), pc := (List.range 8).map (fun i => (i, 0x1000)), level := .machine }
  let t : Team := { Team.zero with core := some 0, size := 65536, ntiles := 4, groups := [(0, g)] }
  { s with
    dev := { s.dev with service := .normal, trained := true, tested := true }
    parts := [(0, Part.new [0])], ctxs := [(0, { Ctx.free with st := .running })]
    teams := [(0, t)], agenda := [] }

/-- The state with an instruction where the next step takes its instruction: in the clause in issue on core 0, or, for an
instruction of the matrix stream, in the clause of a running sequencer (entry 3). -/
def State.withFetchWord (s : State) (nbits w : Nat) : State :=
  let s := s.placed
  let body := placedBytes nbits w
  if streamWord w then
    { (s.onTeam 0 (fun t => { t with seq := { Seq.idle with st := .running, hdr := 0x1000, at_ := 0x1008, body := body,
                                                            level := .machine } })) with turn := .seq 0 }
  else
    let x : Issue := { members := [{ team := 0, grp := 0, lanes := 0xFF }], hdr := 0x1000, body := body, pos := 0, ver := 3,
                       bodyw := 4, yieldh := 0 }
    { (s.onCore 0 (fun k => { k with issue := some x })) with turn := .core 0 }

end Sys2Proof.Machine
end

