-- ==== Sys2Proof/Safety.lean ====
section
/-!
DEFINITION. The terms of the statements: when one path executes an instruction with nothing to hold it, what executing it
leaves alone, and where it leaves the clause.
-/
namespace Sys2Proof.Machine

/-- On core c the clause in issue is x, and the lanes of m alone execute its instruction, with nothing outstanding that
could hold it: no earlier instruction beyond its lookahead (R208), no fence (R107), no engine operation without its
timestamp (R99), no replay (R392); no program call is due in the group (R308); and no error meets the instruction (R37, R393,
R402). -/
structure Sole (s : State) (c : Nat) (x : Issue) (m : Member) : Prop where
  turn : s.turn = .core c
  issue : s.inIssue c = some x
  only : x.members = [m]
  path : m.lanes ≠ 0
  team : (find m.team s.teams).isSome = true
  grp : (find m.grp (s.team m.team).groups).isSome = true
  ahead : (s.group m.team m.grp).beyond m.lanes = false
  fences : (s.group m.team m.grp).fenced m.lanes = false
  fixed : s.unfixed m.team m.grp = false
  live : s.replaying (s.ctxOf m.team) = false
  calls : (s.group m.team m.grp).calls = []
  sound : (s.core c).upset = 0 ∧ (s.core c).marred = 0 ∧ (s.core c).struck = false

/-- The group that executes. -/
def Member.group (m : Member) (s : State) : Group := s.group m.team m.grp

/-- The active lanes: those of the path in which the guard is true (R206). -/
def Member.active (m : Member) (s : State) (g : Guard) : Lanes := (m.group s).guarded g m.lanes

/-- Nothing differs from s but the group of m, the clock, slot counters and clause of core c, and the aging of other
groups; the errors that were to meet the core's instruction are spent. -/
structure Apart (s t : State) (c : Nat) (m : Member) : Prop where
  rest : t = { s with cores := t.cores, teams := t.teams }
  core : t.core c = { s.core c with
    issue := (t.core c).issue, clocks := (s.core c).clocks + 1, leaves := (t.core c).leaves,
    dmrunc := (t.core c).dmrunc, dmrcmp := (t.core c).dmrcmp, upset := 0, marred := 0, struck := false }
  cores : ∀ k, k ≠ c → t.core k = s.core k
  teams : ∀ n, { t.team n with groups := [] } = { s.team n with groups := [] }
  groups : ∀ n k, ¬(n = m.team ∧ k = m.grp) → { t.group n k with aged := 0 } = { s.group n k with aged := 0 }

/-- The clause goes on from a group G for the lanes that stay in it: with its next instruction, or, after its last, with
those lanes at the successor header in lane state 1; with no lane staying it is over (R31, R199). -/
structure Moved (t : State) (c : Nat) (x : Issue) (m : Member) (stay : Lanes) (G : Group) : Prop where
  over_ : stay = 0 → t.inIssue c = none ∧ m.group t = G
  inside : stay ≠ 0 → x.pos + instrLength x.body x.pos < x.body.length →
    t.inIssue c = some { x with members := [{ m with lanes := stay }], pos := x.pos + instrLength x.body x.pos } ∧
      m.group t = G
  last : stay ≠ 0 → x.body.length ≤ x.pos + instrLength x.body x.pos →
    t.inIssue c = none ∧ m.group t = G.goTo stay (fun _ => successor x.hdr x.bodyw)

/-- An outstanding instruction without what later instructions change in it: its distances, and the marks of the
destinations they have written (R64, R208). -/
def Pend.core (p : Pend) : Pend := { p with dist := [], deadV := [], deadS := [] }

/-- The outstanding instructions are the same. -/
def SamePends (g h : Group) : Prop := ∀ id, (find id h.pend).map Pend.core = (find id g.pend).map Pend.core

/-- Each outstanding instruction is one instruction further away in those lanes of the path that it was active in (R208). -/
def Aged (g h : Group) (m : Lanes) : Prop :=
  ∀ id p q i, find id g.pend = some p → find id h.pend = some q → i < 64 → m.getLsbD i = true →
    p.all.getLsbD i = true → get 0 i q.dist = get 0 i p.dist + 1

/-- The group G is g with register d of each active lane written; its other registers, its flags and everything else
in it are as in g. -/
structure WroteV (g G : Group) (m act : Lanes) (d : Nat) (f : Nat → Word) : Prop where
  rest : G = { g with v := G.v, pend := G.pend, ordinal := G.ordinal }
  regs : ∀ r i, i < 64 → G.vreg r i = if r = d ∧ act.getLsbD i = true then f i else g.vreg r i
  pends : SamePends g G
  aged : Aged g G m

/-- The same for a predicate; `P15` discards the write (R48). -/
structure WroteP (g G : Group) (m act : Lanes) (d : Nat) (f : Nat → Bool) : Prop where
  rest : G = { g with p := G.p, pend := G.pend, ordinal := G.ordinal }
  regs : ∀ k i, k < 16 → i < 64 →
    G.preg k i = if k = d ∧ k ≠ 15 ∧ act.getLsbD i = true then f i else g.preg k i
  pends : SamePends g G
  aged : Aged g G m

/-- The same for a uniform register, written once if a lane is active; `S0` and `S2` discard the write (R48, R222). -/
structure WroteS (g G : Group) (m act : Lanes) (d : Nat) (x : Word) : Prop where
  rest : G = { g with s := G.s, pend := G.pend, ordinal := G.ordinal }
  regs : ∀ k, G.sreg k = if act ≠ 0 ∧ k = d ∧ k ≠ 0 ∧ k ≠ 2 then x else g.sreg k
  pends : SamePends g G
  aged : Aged g G m

/-- The instruction completes: the next state differs from s in what it does to the group alone, and the clause goes on
for the lanes that stay in it. -/
def Leaves (s : State) (c : Nat) (x : Issue) (m : Member) (gone : Lanes) (o : Host.Outcome State Fault Refusal)
    (effect : Group → Group → Prop) : Prop :=
  ∃ t G, o = .next t ∧ Apart s t c m ∧ effect (m.group s) G ∧ Moved t c x m (m.lanes &&& ~~~gone) G

/-- It completes, and every lane of the path stays in the clause. -/
def Does (s : State) (c : Nat) (x : Issue) (m : Member) (o : Host.Outcome State Fault Refusal)
    (effect : Group → Group → Prop) : Prop := Leaves s c x m 0 o effect

/-- The instruction completes in a state u, from which only the clause and the slot go on to the next state. -/
def Ends (c : Nat) (x : Issue) (m : Member) (gone : Lanes) (o : Host.Outcome State Fault Refusal)
    (effect : State → Prop) : Prop :=
  ∃ u t, o = .next t ∧ effect u ∧ Apart u t c m ∧ Moved t c x m (m.lanes &&& ~~~gone) (m.group u)

/-- It completes and writes a vector register of the active lanes. -/
def DoesV (s : State) (c : Nat) (x : Issue) (m : Member) (g : Guard) (o : Host.Outcome State Fault Refusal) (d : VReg)
    (f : Nat → Word) : Prop :=
  Does s c x m o (fun h G => WroteV h G m.lanes (m.active s g) d.toNat f)

/-- It completes and writes a predicate of the active lanes. -/
def DoesP (s : State) (c : Nat) (x : Issue) (m : Member) (g : Guard) (o : Host.Outcome State Fault Refusal) (d : PReg)
    (f : Nat → Bool) : Prop :=
  Does s c x m o (fun h G => WroteP h G m.lanes (m.active s g) d.toNat f)

/-- It completes and writes a uniform register. -/
def DoesS (s : State) (c : Nat) (x : Issue) (m : Member) (g : Guard) (o : Host.Outcome State Fault Refusal) (d : SReg)
    (v : Word) : Prop :=
  Does s c x m o (fun h G => WroteS h G m.lanes (m.active s g) d.toNat v)

/-! ### Operands a group declares (R47) -/

/-- A register of either class lies below the declared count. -/
def Reg.fits (r : Reg) (n : Nat) : Prop :=
  match r with
  | .v k => k.toNat < n
  | .s _ => True

/-- So does the last value source, if it is a register. -/
def Opnd.fits (o : Opnd) (n : Nat) : Prop :=
  match o with
  | .reg r => Reg.fits r n
  | .lit _ => True

/-- The flags that an instruction leaves: those before it, and those of its active lanes, helper lanes apart (R118, R143). -/
def Member.flagsAfter (m : Member) (s : State) (act : Lanes) (f : Nat → Flags) : Flags :=
  (m.group s).flags ||| (lanesOf (act &&& ~~~(m.group s).helper)).foldl (fun x i => x ||| f i) 0

/-- The group G is g with register d of each active lane written, and flags gathered. -/
structure WroteF (g G : Group) (m act : Lanes) (d : Nat) (f : Nat → Word) (fl : Flags) : Prop where
  rest : G = { g with v := G.v, flags := G.flags, pend := G.pend, ordinal := G.ordinal }
  regs : ∀ r i, i < 64 → G.vreg r i = if r = d ∧ act.getLsbD i = true then f i else g.vreg r i
  flags : G.flags = fl
  pends : SamePends g G
  aged : Aged g G m

/-- The same for a predicate with flags. -/
structure WrotePF (g G : Group) (m act : Lanes) (d : Nat) (f : Nat → Bool) (fl : Flags) : Prop where
  rest : G = { g with p := G.p, flags := G.flags, pend := G.pend, ordinal := G.ordinal }
  regs : ∀ k i, k < 16 → i < 64 →
    G.preg k i = if k = d ∧ k ≠ 15 ∧ act.getLsbD i = true then f i else g.preg k i
  flags : G.flags = fl
  pends : SamePends g G
  aged : Aged g G m

/-- It completes, writes a vector register of the active lanes, and gathers the flags of their results. -/
def DoesF (s : State) (c : Nat) (x : Issue) (m : Member) (g : Guard) (o : Host.Outcome State Fault Refusal) (d : VReg)
    (f : Nat → Word × Flags) : Prop :=
  Does s c x m o (fun h G => WroteF h G m.lanes (m.active s g) d.toNat (fun i => (f i).1)
    (m.flagsAfter s (m.active s g) (fun i => (f i).2)))

/-- A long-latency instruction is outstanding in its active lanes with the results it will deliver, its counter one
higher; with no active lane nothing is (R207-R209). -/
structure Began (g G : Group) (m act : Lanes) (ll : Ll) (p : Pend) : Prop where
  rest : G = { g with d := G.d, pend := G.pend, ordinal := G.ordinal }
  new : act ≠ 0 → find (freeKey g.pend) G.pend = some { p with lanes := act, all := act, la := ll.la.toNat, dc := ll.dc }
  old : ∀ id, id ≠ freeKey g.pend ∨ act = 0 → (find id G.pend).map Pend.core = (find id g.pend).map Pend.core
  aged : Aged g G m
  count : ∀ k, G.dreg k = if act ≠ 0 ∧ (ll.dc.map BitVec.toNat) = some k then g.dreg k + 1 else g.dreg k

/-- A free counter: below its greatest value, 63 (R209). -/
def Member.canCount (m : Member) (s : State) (g : Guard) (ll : Ll) : Prop :=
  ∀ k, ll.dc = some k → m.active s g ≠ 0 → (m.group s).dreg k.toNat < 63

/-- The core has room among its requests for one of each active lane (R11). -/
abbrev Member.canRequest (m : Member) (s : State) (c : Nat) (g : Guard) : Prop :=
  s.requests c + countLanes (m.active s g) ≤ Config.requests

/-- It begins, and will write a vector register of its active lanes and gather their flags. -/
def DoesLl (s : State) (c : Nat) (x : Issue) (m : Member) (g : Guard) (ll : Ll) (o : Host.Outcome State Fault Refusal)
    (d : VReg) (f : Nat → Word × Flags) : Prop :=
  Does s c x m o (fun h G => Began h G m.lanes (m.active s g) ll { Pend.zero with
    vw := vWrites d.toNat (m.active s g) (fun i => (f i).1)
    flags := (lanesOf (m.active s g &&& ~~~h.helper)).foldl (fun y i => y ||| (f i).2) 0 })

/-! ### Lanes -/

/-- The lanes of a mask are at an address in a lane state, with no wait and outside any clause; the others are where they
were. -/
structure Went (g G : Group) (m : Lanes) (code : Nat) (f : Nat → Word) : Prop where
  there : ∀ i, i < 64 → m.getLsbD i = true →
    G.lanePc i = f i ∧ G.state i = code ∧ find i G.wait = none ∧ find i G.hdr = none
  others : ∀ i, i < 64 → m.getLsbD i = false →
    G.lanePc i = g.lanePc i ∧ G.state i = g.state i ∧ find i G.wait = find i g.wait ∧ find i G.hdr = find i g.hdr

/-- The lanes of a mask stand at an instruction of a clause in a lane state, waiting as given; the others are where they
were. -/
structure Stood (g G : Group) (m : Lanes) (code : Nat) (pc : Word) (hdr : Word × Nat) (w : Nat → Option Wait) : Prop where
  there : ∀ i, i < 64 → m.getLsbD i = true →
    G.lanePc i = pc ∧ G.state i = code ∧ find i G.wait = w i ∧ find i G.hdr = some hdr
  others : ∀ i, i < 64 → m.getLsbD i = false →
    G.lanePc i = g.lanePc i ∧ G.state i = g.state i ∧ find i G.wait = find i g.wait ∧ find i G.hdr = find i g.hdr

/-- The address of the instruction at a place of a clause. -/
def Issue.pc (x : Issue) : Word := x.hdr + BitVec.ofNat 64 (8 + x.pos)

/-- The successor header of a clause (R199). -/
def Issue.next (x : Issue) : Word := successor x.hdr x.bodyw

/-- The die of a core writes no trace. -/
def State.quiet (s : State) (c : Nat) : Prop := (get Trace.zero (c / 96) s.traces).en = false

/-- From s to u nothing of any group changes but the aging of the outstanding instructions of m's, no core but its counters
of redundant execution, and no team but what is said apart. -/
structure Undisturbed (s u : State) (m : Member) : Prop where
  core : ∀ k, u.core k = { s.core k with dmrunc := (u.core k).dmrunc, dmrcmp := (u.core k).dmrcmp }
  groups : ∀ n k, ¬(n = m.team ∧ k = m.grp) → u.group n k = s.group n k
  own : m.group u = { m.group s with pend := (m.group u).pend, ordinal := (m.group u).ordinal }
  pends : SamePends (m.group s) (m.group u)
  aged : Aged (m.group s) (m.group u) m.lanes
  teams : ∀ n, n ≠ m.team → { u.team n with groups := [] } = { s.team n with groups := [] }

/-- What a visit of a cross-lane instruction leaves: a vector or a uniform register, the out-predicate in members and false in
other active lanes, and flags (R251). -/
structure WroteX (g G : Group) (m : Lanes) (v : Visit) (d : Reg) (uni : Bool) (f : Nat → Word) (po : PReg) (q : Nat → Bool)
    (fl : Flags) : Prop where
  rest : G = { g with v := G.v, p := G.p, s := G.s, flags := fl, arrive := G.arrive, xsrc := G.xsrc, pend := G.pend }
  regs : ∀ r i, i < 64 → G.vreg r i = match d with
    | .v n => if r = n.toNat ∧ v.mine.getLsbD i = true then f i else g.vreg r i
    | .s _ => g.vreg r i
  sregs : ∀ k, G.sreg k = match d with
    | .v _ => g.sreg k
    | .s n => if uni = true ∧ k = n.toNat ∧ k ≠ 0 ∧ k ≠ 2 then f 0 else g.sreg k
  preds : ∀ k i, k < 16 → i < 64 → G.preg k i =
    if k = po.toNat ∧ k ≠ 15 ∧ v.mine.getLsbD i = true then q i
    else if k = po.toNat ∧ k ≠ 15 ∧ v.others.getLsbD i = true then false else g.preg k i
  kept : g.width ≠ 64 → G.xsrc = none
  pends : SamePends g G
  aged : Aged g G m

/-! ### What an access to memory may change -/

/-- From s to t only accesses were made: memory and its clocks, caches, translations, posted writes and logs may differ, a
timestamp that ran out may halt the partitions (R96), and of a group only its timestamp differs; scratchpad shares differ
only if `share` says so. -/
structure Touched (share : Bool) (s t : State) : Prop where
  rest : t = { s with
    mem := t.mem, lines := t.lines, homeOld := t.homeOld, frameOld := t.frameOld, l2 := t.l2, mids := t.mids
    cores := t.cores, teams := t.teams, parts := t.parts, ports := t.ports, frames := t.frames, batches := t.batches
    fills := t.fills, traces := t.traces, recorded := t.recorded, writers := t.writers, dev := t.dev }
  dev : t.dev = { s.dev with log := t.dev.log, exhausted := t.dev.exhausted }
  core : ∀ k, t.core k = { s.core k with
    l1 := (t.core k).l1, tlb := (t.core k).tlb, dmrunc := (t.core k).dmrunc, dmrcmp := (t.core k).dmrcmp }
  team : ∀ n, t.team n = { s.team n with
    groups := (t.team n).groups, scratch := (t.team n).scratch, clocks := (t.team n).clocks, bad := (t.team n).bad }
  shares : share = false → ∀ n, (t.team n).scratch = (s.team n).scratch ∧ (t.team n).clocks = (s.team n).clocks ∧
    (t.team n).bad = (s.team n).bad
  group : ∀ n k, t.group n k = { s.group n k with gts := (t.group n k).gts }
  has : ∀ n k, ((find n t.teams).isSome && (find k (t.team n).groups).isSome) =
    ((find n s.teams).isSome && (find k (s.team n).groups).isSome)

/-- The same for an instruction of the group of m, of which more may differ. -/
structure Accessed (share : Bool) (s t : State) (m : Member) : Prop where
  rest : t = { s with
    mem := t.mem, lines := t.lines, homeOld := t.homeOld, frameOld := t.frameOld, l2 := t.l2, mids := t.mids
    cores := t.cores, teams := t.teams, parts := t.parts, ports := t.ports, frames := t.frames, batches := t.batches
    fills := t.fills, traces := t.traces, recorded := t.recorded, writers := t.writers, dev := t.dev }
  dev : t.dev = { s.dev with log := t.dev.log, exhausted := t.dev.exhausted }
  core : ∀ k, t.core k = { s.core k with
    l1 := (t.core k).l1, tlb := (t.core k).tlb, dmrunc := (t.core k).dmrunc, dmrcmp := (t.core k).dmrcmp }
  team : ∀ n, t.team n = { s.team n with
    groups := (t.team n).groups, scratch := (t.team n).scratch, clocks := (t.team n).clocks, bad := (t.team n).bad }
  shares : share = false → ∀ n, (t.team n).scratch = (s.team n).scratch ∧ (t.team n).clocks = (s.team n).clocks ∧
    (t.team n).bad = (s.team n).bad
  group : ∀ n k, ¬(n = m.team ∧ k = m.grp) → t.group n k = { s.group n k with gts := (t.group n k).gts }

/-- The group of m in s, at the timestamp it has in t. -/
def Member.at_ (m : Member) (s t : State) : Group := { m.group s with gts := (m.group t).gts }

/-- The agent of a group's own accesses. -/
def Member.agent (m : Member) (s : State) (c : Nat) : Agent :=
  { core := c, ctx := s.ctxOf m.team, team := m.team, grp := m.grp, level := (m.group s).level }

/-- An engine has taken up an operation for an instruction of m, which names an outstanding instruction of the group (R101). -/
def Engaged (s u : State) (c : Nat) (x : Issue) (m : Member) (begun : Bool) (b : Body) : Prop :=
  ∃ id o, find id s.ops = none ∧ find id u.ops = some o ∧ (∀ j, j ≠ id → find j u.ops = find j s.ops) ∧
    o.team = m.team ∧ o.grp = m.grp ∧ o.core = c ∧ o.token = x.pc ∧ o.pend = some (freeKey (m.group s).pend) ∧
    o.begun = begun ∧ o.park = none ∧ o.spent = false ∧ o.body = b

/-- A leaf without the datum of the walk that found it. -/
def timeless (r : Except Nat Leaf) : Except Nat Leaf :=
  match r with
  | .ok f => .ok { f with tick := 0 }
  | .error l => .error l

/-- The leaf that a context's table gives an address (R345). -/
def State.tableLeaf (s : State) (c : Nat) (va : Word) : Except Nat Leaf :=
  let root := (s.ctx c).ptroot
  timeless (s.walkFrom c va 0 3 (bits root 0 2) (bits root 21 31 * 2 ^ 21)).leaf

/-- What a core and its cluster keep in t of a context's translations is what the table gives in s (R350). -/
structure State.Current (s t : State) (core c : Nat) : Prop where
  tlb : ∀ e ∈ (t.core core).tlb, ∀ va, e.1 = tlbKey c va → timeless (.ok e.2) = s.tableLeaf c va
  l2 : ∀ e ∈ get [] (core / 8) t.l2, ∀ va, e.1 = tlbKey c va → timeless (.ok e.2) = s.tableLeaf c va
  mids : ∀ e ∈ get [] (core / 8) t.mids, ∀ l va, 1 ≤ l → l ≤ 3 → e.1 = midKey c l va →
    timeless (s.walkFrom c va 0 (l - 1) e.2.loc e.2.table).leaf = s.tableLeaf c va

/-- The device can store n words from an address on for a context that is not recorded: each translates for a store, to a
line that is not poisoned, that no operation owns, and that holds no page-table entry of any of the words; translations are
current (R100, R186 step 3). -/
structure Storable (s : State) (a : Agent) (va : Word) (n : Nat) : Prop where
  live : s.recording a.ctx = false
  current : s.Current s a.core a.ctx
  at_ : ∀ k, k < n → ∃ p, s.seek a .write (va + BitVec.ofNat 64 (8 * k)) = .ok p ∧ p.addr % 64 + 8 ≤ 64 ∧ p.held = false ∧
    s.owned (lineNo p.addr) = false ∧ s.poisoned (s.keyOf a.ctx) (lineNo p.addr) = false ∧
    ∀ j, j < n → lineNo p.addr ∉ (s.walk a.core a.ctx (va + BitVec.ofNat 64 (8 * j))).lines

/-- The device can load n words from an address on for such a context. -/
structure Loadable (s : State) (a : Agent) (va : Word) (n : Nat) : Prop where
  live : s.recording a.ctx = false
  current : s.Current s a.core a.ctx
  at_ : ∀ k, k < n → ∃ p, s.seek a .read (va + BitVec.ofNat 64 (8 * k)) = .ok p ∧ p.addr % 64 + 8 ≤ 64 ∧ p.held = false ∧
    s.owned (lineNo p.addr) = false ∧ s.poisoned (s.keyOf a.ctx) (lineNo p.addr) = false

/-- A store of n bytes for a context leaves them in memory as they are, and changes no other byte: the context is not recorded,
the page is not host-posted, the line holds data of no other key, and none of the bytes is read-only (R4, R106, R375, R389). -/
abbrev State.Plain (s : State) (c cls addr n : Nat) : Prop :=
  s.recording c = false ∧ cls ≠ 5 ∧
    ((s.line (lineNo addr)).key = 0 ∨ (s.line (lineNo addr)).key = s.keyOf c ∨ 2 ^ 61 ≤ lineNo addr * 64) ∧
    ∀ g ∈ s.guarded addr, g.mask addr n = 0

/-- A load of n bytes for a context finds them in memory: no L1 copy can serve it, nothing posted has to land first, and the
context is not recorded (R91, R106, R389). -/
abbrev State.Fresh (s : State) (core c cls addr n : Nat) : Prop :=
  s.recording c = false ∧ cls ≠ 5 ∧ addr % 64 + n ≤ 64 ∧ find (l1Key c (lineNo addr)) (s.core core).l1 = none

/-- The words found there. -/
def State.wordsAt (s : State) (a : Agent) (va : Word) (n : Nat) : List Nat :=
  (List.range n).map (fun k => s.peek a (va + BitVec.ofNat 64 (8 * k)) 8)

/-! ### What every step keeps -/

/-- What holds between steps. Whoever takes the next turn can: a core with a clause in issue, or a running sequencer whose
team is on a core. In the deep power state (R399), and while a time has made an event due (R361, R368, R380, R388), the turn is
the device's own agents'. And an armed stop is never passed: the datum is at most its tick, and at that tick the stop comes
next (R384). -/
structure State.Poised (s : State) : Prop where
  core : ∀ c, s.turn = .core c → ∃ e ∈ s.cores, e.1 = c ∧ e.2.issue.isSome = true
  seq : ∀ t, s.turn = .seq t → ∃ e ∈ s.teams, e.1 = t ∧ e.2.seq.st = .running ∧ e.2.core.isSome = true
  deep : s.dev.deep = true → s.turn = .inner
  due : s.dueEvents ≠ [] → s.turn = .inner
  armed : s.dev.stopat ≠ 0 → s.dev.stopped = false → s.dev.deep = false → s.dev.datum ≤ s.dev.stopat ∧
    (s.dev.datum = s.dev.stopat → s.agenda.head? = some .preciseStop)

end Sys2Proof.Machine
end

