-- ==== Sys2Proof/Certificates/Slice0/Obligations.lean ====
section
/-!
DEFINITION. The statements for the provers. Each says of the instructions or events that it names when they complete, the
state that they leave, and what they leave alone, in the terms of Safety.lean; free values stand in them as what they are.
-/
open Sys2Proof Sys2Proof.Machine

/-- A step runs what is due first, else the turn's: with a clause in issue, the instruction that the bytes at its place decode
to under its version, or, where they decode to none, an Illegal-Instruction fault of the bundle; likewise a sequencer; else an
event of the device's own agents. A device that is halted, stopped or off takes no step of its own. What follows a next state is
what the device does on its own, which is nothing while its clocks are gated, then time, and a turn (R22, R31, R187, R214, R282,
R384, R399). -/
def Obligations.StepRunsTheDecodedInstruction : Prop :=
  (∀ (s : State) (i : Instr) (rest : List Instr), s.agenda = i :: rest →
    step s = settle (exec i { s with agenda := rest, turn := .inner })) ∧
  (∀ (s : State), s.agenda = [] →
    (s.dev.still = true → step s = .fault .deviceHalted) ∧
    (s.dev.still = false → s.dev.deep = false →
      (∀ c x i rest, s.turn = .core c → s.inIssue c = some x → decode (x.body.drop x.pos) = .ok (i, rest) →
        versionLegal x.ver (x.body.drop x.pos) = true → step s = settle (exec i s)) ∧
      (∀ c x, s.turn = .core c → s.inIssue c = some x → (∀ q, decode (x.body.drop x.pos) ≠ .ok q) →
        step s = settle (.next (s.bundleIllegal x.body x.pos))) ∧
      (∀ t i rest, s.turn = .seq t → (s.team t).seq.st = .running →
        decode ((s.team t).seq.body.drop (s.team t).seq.pos) = .ok (i, rest) →
        versionLegal (s.seqVersion t) ((s.team t).seq.body.drop (s.team t).seq.pos) = true → step s = settle (exec i s)) ∧
      (∀ i, s.turn = .inner → s.event = some i → step s = settle (exec i s)))) ∧
  (∀ (s : State),
    (s.dev.still = true ∨ s.dev.deep = true → s.background = s) ∧
    let u := { s with fresh := s.fresh + 1 }.background
    ∃ t, settle (.next s) = .next t ∧ t = { u with dev := { u.dev with datum := t.dev.datum }, turn := t.turn, agenda := t.agenda } ∧
      (u.dev.stopped = true ∨ u.dev.deep = true → t.dev.datum = u.dev.datum))

/-- Words printed in the specification decode to the instructions that they stand for: the `TRACE`, `MMA`, `BRA`, `SCAN`,
`ATOM`, `LMSVER` and `EXIT` of its examples (R202-R213, R223, R253). -/
def Obligations.PrintedWordsDecode : Prop :=
  decodeBits 0x00B03C8028147FA5 = .ok (.trace .always ⟨0, some 3⟩ false 0 20 10 8) ∧
  decodeBits 0xA0000510C0027F09 = .ok (.mma .bf16 2 ⟨0, some 1⟩ ⟨1, some 2⟩) ∧
  decodeBits 0x00FFFFFFFFE07805 = .ok (.bra .always (-32)) ∧
  decodeBits 0x5021C00010050D91 = .ok (.scan ⟨1, false⟩ .add false .i32x2 5 4 ⟨7, 2⟩) ∧
  decodeBits 0x00001F88 = .ok (.exitShort .always)

/-- Every well-formed instruction decodes from its encoding to itself, with every operand at every value that the encoding
admits, whatever bytes follow it; no event of the table has an encoding (R202-R213). -/
def Obligations.EncodingsDecodeBack : Prop :=
  ∀ (i : Instr), i.wf = true → ∀ (rest : List Byte), decode (encode i ++ rest) = .ok (i, rest) ∧
    (i.size = 4 ∨ i.size = 8 ∨ i.size = 12) ∧ (encode i).length = i.size

/-- Every step that answers a next state leaves the machine poised: whoever has the turn can take it, timed events come first,
nothing but the heartbeat runs in the deep power state, and the datum never passes an armed stop. That another agent than the
due one waits is the model's own order (entry 5). -/
def Obligations.StepsKeepTheMachinePoised : Prop :=
  ∀ (s t : State), s.Poised → step s = .next t → t.Poised

/-- The machine right after reset: poised, with nothing in memory and nothing running, the module off, and the power limit at
its reset value of R397; it takes no step of its own, and the agenda is where the outside starts it. What the specification
gives no reset value is the model's choice (entries 2 and 3). -/
def Obligations.ResetIsPoised : Prop :=
  State.reset.Poised ∧ Memory.wf State.reset.mem = true ∧ (∀ a, get 0 a State.reset.mem = 0) ∧ State.reset.teams = [] ∧
    State.reset.ctxs = [] ∧ State.reset.ops = [] ∧ State.reset.dev.service = .off ∧ State.reset.dev.watts = 1200 ∧
    step State.reset = .fault .deviceHalted ∧
    ∀ x, step { State.reset with agenda := [.coldStart x] } = settle (exec (.coldStart x) State.reset)

/-- A lane is active for an instruction when it is in the issuing path and its guard is true in it; the guard of all lanes makes
every lane of the path active (R206). An instruction of a matrix stream with any other guard is not decoded, and the sequencer
that reaches one raises Illegal-Instruction: it stands parked with that fault. -/
def Obligations.GuardsDecideTheActiveLanes : Prop :=
  (∀ (s : State) (m : Member) (g : Guard) (i : Nat), i < 64 →
    ((m.active s g).getLsbD i = true ↔
      m.lanes.getLsbD i = true ∧ ((m.group s).preg g.pg.toNat i ^^ g.pn) = true) ∧
    m.active s { pg := 15, pn := false } = m.lanes) ∧
  (∀ (w : BitVec 96), w.extractLsb' 0 2 ≠ 0 → 0x1C2 ≤ (w.extractLsb' 2 9).toNat → (w.extractLsb' 2 9).toNat ≤ 0x1CA →
    (w.extractLsb' 11 4 ≠ 15 ∨ w.getLsbD 15 = true) → ∀ i, decodeBits w ≠ .ok i) ∧
  (∀ (s : State) (t : Nat), s.turn = .seq t → s.agenda = [] → s.dev.still = false → s.dev.deep = false →
    (s.team t).seq.st = .running → (s.team t).seq.body ≠ [] →
    fetched (s.seqVersion t) (s.team t).seq.body (s.team t).seq.pos = none →
    ∃ u, step s = settle (.next u) ∧ (u.team t).seq.st = .parked ∧
      ((u.team t).seq.park.map (fun p => (p.kind, p.detail))) = some (Kind.illegal, 0))

/-- The lease in effect is that of the context, or 4,096 if the field holds more; `SWR` of `LEASE` stores the value written, or
1 for 0, `SRD` reads it back, and the write changes no timestamp of a line or of a copy (R95). -/
def Obligations.LeaseLengths : Prop :=
  (∀ (s : State) (c : Nat), s.lease c = if 4096 < (s.ctx c).lease.toNat then 4096 else (s.ctx c).lease.toNat) ∧
  (∀ (s : State) (e : Env) (i : Nat), (s.sysRead e .lease i).setWidth 32 = (s.ctx e.ctx).lease) ∧
  (∀ (s : State) (c : Nat) (x : Issue) (m : Member), Sole s c x m → (m.group s).level.atLeast .control = true →
    ∀ (g : Guard) (a : Reg), Reg.fits a (m.group s).n → m.active s g ≠ 0 →
    let k := s.ctxOf m.team
    let w := ((m.group s).reg a (lowest (m.active s g))).setWidth 32
    Ends c x m 0 (exec (.swrLease g a) s) (fun u => u.lines = s.lines ∧ (∀ n, (u.core n).l1 = (s.core n).l1) ∧
      (∀ n, n ≠ k → u.ctx n = s.ctx n) ∧ u.ctx k = { s.ctx k with lease := if w = (0 : BitVec 32) then 1 else w } ∧
      u.lease k = min (if w = (0 : BitVec 32) then 1 else w.toNat) 4096))

/-- A fault at an instruction of a group at user level, where the frame can be stored and no earlier instruction is still to write
registers, takes the exception (R186, R187): an
instruction of a higher level is an Illegal-Instruction fault of its active lanes, and a branch to a register an Illegal-Operand
fault of exactly the active lanes whose target is misaligned or not canonical, with no branch and no link (R20, R57, R223). -/
def Obligations.BadTargetsAndLowLevelsTrap : Prop :=
  ∀ (s : State) (c : Nat) (x : Issue) (m : Member), Sole s c x m → s.quiet c → (s.core c).second = none →
  let h := m.group s
  h.level = .user → h.late = none → s.writing m.team m.grp = false →
  Storable s { m.agent s c with level := .control } h.s2 128 →
  ∀ (g : Guard) (ll : Ll) (d : VReg) (t : Reg) (a b e : SReg) (n : BitVec 8) (k : BitVec 3) (token : Bool) (r : SysReg) (op : PatomOp),
  let act := m.active s g
  let done := h.completeAll
  let good := fun i => (h.reg t i).extractLsb' 0 3 = 0 ∧ canonicalVa (h.reg t i) = true
  let traps := fun (i : Instr) (kind : Kind) (bad : Lanes) => Ends c x m m.lanes (exec i s) (fun u =>
    let G := m.group u
    G.level = .control ∧ G.uien = false ∧ G.trappc = x.pc ∧ G.faultinfo = BitVec.ofNat 64 kind.code ∧ G.faultlanes = bad ∧
    (∀ r j, G.vreg r j = done.vreg r j) ∧ (∀ r j, G.preg r j = done.preg r j) ∧ (∀ r, G.sreg r = done.sreg r) ∧
    (∀ j, j < 64 → h.live.getLsbD j = true → G.state j = 1 ∧ G.lanePc j = (s.ctx (s.ctxOf m.team)).tvec &&& ~~~7) ∧
    (∀ j, j < 64 → h.live.getLsbD j = false → m.lanes.getLsbD j = false → G.state j = h.state j ∧ G.lanePc j = h.lanePc j))
  (∀ bad, bad = maskOf (fun i => act.getLsbD i && decide (¬good i)) → bad ≠ 0 → d.toNat < h.n → Reg.fits t h.n →
    traps (.brx g t) .illegalOperand bad ∧ traps (.callx g d t) .illegalOperand bad ∧ traps (.ret g t) .illegalOperand bad) ∧
  traps .eret .illegal (m.active s Guard.always) ∧
  (r = .faultinfo ∨ r = .faultlanes ∨ r = .trappc ∨ r = .tvec → traps (.swr g r t) .illegal act) ∧
  traps (.swrLease g t) .illegal act ∧ traps (.swrStopat g t) .illegal act ∧
  traps (.fuserd g a n) .illegal act ∧ traps (.kwipe g a none) .illegal act ∧ traps (.kwipe g a (some b)) .illegal act ∧
  traps (.dbgopen g a) .illegal act ∧
  traps (.csave g ll a b e) .illegal act ∧ traps (.crest g ll a b e) .illegal act ∧ traps (.patom g ll op d t (.s b)) .illegal act ∧
  traps (.lmsver g ll token a b e) .illegal act ∧ traps (.measureExt g ll a k b) .illegal act ∧
  traps (.measureRd g ll a k b) .illegal act ∧ traps (.launch g ll a b) .illegal act

/-- Integer arithmetic, moves and logic complete: in every active lane the destination takes the element-wise result of the
lane's sources, wrapped or clamped (R115, R232, R237), and nothing else in the group changes. Shifts, counts, fields, selection
and addresses complete with the words of R233-R236. `IADDX` completes: the sum of the sources and of the carry in, and the carry
out in a predicate (R236). -/
def Obligations.IntegerInstructionsComplete : Prop :=
  (
    ∀ (s : State) (c : Nat) (x : Issue) (m : Member), Sole s c x m →
    ∀ (g : Guard) (ty : Ty) (sat : Bool) (d : VReg) (a b : Reg) (o : Opnd),
      d.toNat < (m.group s).n → Reg.fits a (m.group s).n → Reg.fits b (m.group s).n → Opnd.fits o (m.group s).n →
    let r := (m.group s).reg
    let z := (m.group s).opnd ty o
    DoesV s c x m g (exec (.mov g d a) s) d (r a) ∧
    (∀ y, DoesV s c x m g (exec (.li g ty d y) s) d (fun _ => liWord ty y)) ∧
    (∀ y, DoesV s c x m g (exec (.liHi g ty d y) s) d (fun i => y ++ ((m.group s).vreg d.toNat i).setWidth 32)) ∧
    DoesV s c x m g (exec (.iadd g ty sat d a o) s) d (fun i => int2 ty sat (fun p q => p + q) (r a i) (z i)) ∧
    DoesV s c x m g (exec (.isub g ty sat d a o) s) d (fun i => int2 ty sat (fun p q => p - q) (r a i) (z i)) ∧
    DoesV s c x m g (exec (.imul g ty sat d a o) s) d (fun i => int2 ty sat (fun p q => p * q) (r a i) (z i)) ∧
    DoesV s c x m g (exec (.imulh g ty d a o) s) d
      (fun i => int2 ty false (fun p q => p * q / 2 ^ ty.width) (r a i) (z i)) ∧
    DoesV s c x m g (exec (.imad g ty sat d a b o) s) d (fun i =>
      map3 ty (fun p q w => deliver ty sat (elemInt ty p * elemInt ty q + elemInt ty w)) (r a i) (r b i) (z i)) ∧
    DoesV s c x m g (exec (.imin g ty d a o) s) d (fun i => int2 ty false min (r a i) (z i)) ∧
    DoesV s c x m g (exec (.imax g ty d a o) s) d (fun i => int2 ty false max (r a i) (z i)) ∧
    DoesV s c x m g (exec (.iabs g ty sat d a) s) d (fun i => int1 ty sat (fun p => (p.natAbs : Int)) (r a i)) ∧
    DoesV s c x m g (exec (.ineg g ty sat d a) s) d (fun i => int1 ty sat (fun p => -p) (r a i)) ∧
    (∀ op, DoesV s c x m g (exec (.log g op d a o) s) d (fun i => logWord op (r a i) ((m.group s).opnd .b64 o i)))) ∧
  (
    ∀ (s : State) (c : Nat) (x : Issue) (m : Member), Sole s c x m →
    ∀ (g : Guard) (ty : Ty) (d : VReg) (a b : Reg) (o : Opnd),
      d.toNat < (m.group s).n → Reg.fits a (m.group s).n → Reg.fits b (m.group s).n → Opnd.fits o (m.group s).n →
    let r := (m.group s).reg
    let z := (m.group s).opnd ty o
    let w := (m.group s).opnd .b64 o
    DoesV s c x m g (exec (.shl g ty d a o) s) d (fun i => map2 ty (shlNat ty.width) (r a i) (z i)) ∧
    DoesV s c x m g (exec (.shr g ty d a o) s) d (fun i => map2 ty (shrNat ty.width) (r a i) (z i)) ∧
    DoesV s c x m g (exec (.sar g ty d a o) s) d (fun i => map2 ty (sarNat ty.width) (r a i) (z i)) ∧
    DoesV s c x m g (exec (.rot g false d a o) s) d (fun i => (r a i).rotateLeft ((w i).toNat % 64)) ∧
    DoesV s c x m g (exec (.rot g true d a o) s) d (fun i => (r a i).rotateRight ((w i).toNat % 64)) ∧
    DoesV s c x m g (exec (.popc g ty d a) s) d (fun i => map1 ty (popNat ty.width) (r a i)) ∧
    DoesV s c x m g (exec (.clz g ty d a) s) d (fun i => map1 ty (clzNat ty.width) (r a i)) ∧
    DoesV s c x m g (exec (.brev g d a) s) d (fun i => (r a i).reverse) ∧
    DoesV s c x m g (exec (.bfe g ty d a o) s) d (fun i => bfeWord ty.signed (r a i) (z i)) ∧
    DoesV s c x m g (exec (.bfi g d a b o) s) d (fun i => bfiWord (r a i) (r b i) (w i)) ∧
    DoesV s c x m g (exec (.bperm g d a b o) s) d (fun i => bpermWord (r a i) (r b i) (w i)) ∧
    (∀ pc, DoesV s c x m g (exec (.sel g d a b pc) s) d
      (fun i => if (m.group s).preg pc.toNat i then r a i else r b i)) ∧
    (∀ scl off, DoesV s c x m g (exec (.lea g scl d a b off) s) d (fun i =>
      r a i + (r b i <<< scl.toNat) + (match off with
        | some y => y.signExtend 64
        | none => 0)))) ∧
  (
    ∀ (s : State) (c : Nat) (x : Issue) (m : Member), Sole s c x m →
    ∀ (g : Guard) (nc : Bool) (d : VReg) (pco pci : PReg) (a b : Reg),
      d.toNat < (m.group s).n → Reg.fits a (m.group s).n → Reg.fits b (m.group s).n →
    let sum := fun i => ((m.group s).reg a i).toNat + ((m.group s).reg b i).toNat
      + (if nc = false ∧ (m.group s).preg pci.toNat i = true then 1 else 0)
    Does s c x m (exec (.iaddx g nc d pco a b pci) s) (fun h G =>
      G = { h with v := G.v, p := G.p, pend := G.pend } ∧ SamePends h G ∧
      (∀ r i, i < 64 → G.vreg r i =
        if r = d.toNat ∧ (m.active s g).getLsbD i = true then BitVec.ofNat 64 (sum i) else h.vreg r i) ∧
      (∀ k i, k < 16 → i < 64 → G.preg k i =
        if k = pco.toNat ∧ k ≠ 15 ∧ (m.active s g).getLsbD i = true then decide (2 ^ 64 ≤ sum i) else h.preg k i)))

/-- Comparisons and predicate instructions complete (R235, R238, R226): the predicate of every active lane is written, and
`PCNT` writes the number of active lanes in which its source is true. Uniform instructions complete: one 64-bit result, written
once for the group (R222, R229, R230). -/
def Obligations.PredicatesAndUniformResults : Prop :=
  (
    ∀ (s : State) (c : Nat) (x : Issue) (m : Member), Sole s c x m →
    ∀ (g : Guard) (ty : Ty) (pd pa pb : PReg) (a : Reg) (o : Opnd),
      Reg.fits a (m.group s).n → Opnd.fits o (m.group s).n →
    let p := (m.group s).preg
    (∀ cc any, DoesP s c x m g (exec (.icmp g cc any ty pd a o) s) pd
      (fun i => icmpWord cc any ty ((m.group s).reg a i) ((m.group s).opnd ty o i))) ∧
    (∀ op, DoesP s c x m g (exec (.plog g op pd pa pb) s) pd (fun i => logBool op (p pa.toNat i) (p pb.toNat i))) ∧
    DoesP s c x m g (exec (.pmov g pd pa) s) pd (p pa.toNat) ∧
    (∀ y : SReg, DoesP s c x m g (exec (.pmovS g pd y) s) pd (fun i => ((m.group s).sreg y.toNat).getLsbD i)) ∧
    (∀ k : JReg, DoesP s c x m g (exec (.jany g pd k) s) pd
      (fun _ => ((m.group s).jreg k.toNat &&& (m.group s).live) != 0)) ∧
    (∀ y : SReg, DoesS s c x m g (exec (.pcnt g y pa) s) y (BitVec.ofNat 64
      ((List.range 64).filter (fun i => (m.active s g).getLsbD i && p pa.toNat i)).length))) ∧
  (
    ∀ (s : State) (c : Nat) (x : Issue) (m : Member), Sole s c x m →
    ∀ (g : Guard) (ty : Ty) (d a b : SReg) (o : SOpnd),
    let r := (m.group s).sreg
    let z := (m.group s).sopnd ty o
    DoesS s c x m g (exec (.smov g d a) s) d (r a.toNat) ∧
    (∀ y, DoesS s c x m g (exec (.sli g ty d y) s) d (sliWord ty y)) ∧
    (∀ y, DoesS s c x m g (exec (.sliHi g d y) s) d (y ++ (r d.toNat).setWidth 32)) ∧
    DoesS s c x m g (exec (.sadd g ty d a o) s) d (r a.toNat + z) ∧
    DoesS s c x m g (exec (.ssub g ty d a o) s) d (r a.toNat - z) ∧
    DoesS s c x m g (exec (.smul g ty d a o) s) d (r a.toNat * z) ∧
    DoesS s c x m g (exec (.smad g ty d a b o) s) d (r a.toNat * r b.toNat + z) ∧
    (∀ op, DoesS s c x m g (exec (.slog g op d a o) s) d (logWord op (r a.toNat) ((m.group s).sopnd .b64 o))) ∧
    (∀ op, DoesS s c x m g (exec (.sshf g op ty d a o) s) d (shfWord op (r a.toNat) z)) ∧
    (∀ cc, DoesS s c x m g (exec (.scmp g cc ty d a o) s) d (if scmpWord cc ty (r a.toNat) z then 1 else 0)) ∧
    DoesS s c x m g (exec (.ssel g d a b o) s) d
      (if (m.group s).sopnd .b64 o ≠ 0 then r a.toNat else r b.toNat))

/-- Floating-point instructions complete: the element-wise results of R241-R244 under round to nearest even, and the flags of
the active lanes gathered into `FLAGS` (R118). Conversions complete (R246, R248): elements of the source converted into elements
of the destination, whose other elements stay, with flags; the narrow ones where the format register that they name is valid. -/
def Obligations.FloatsAndConversionsComplete : Prop :=
  (
    ∀ (s : State) (c : Nat) (x : Issue) (m : Member), Sole s c x m →
    ∀ (g : Guard) (ty : Ty) (d : VReg) (pd : PReg) (a b : Reg) (o : Opnd),
      d.toNat < (m.group s).n → Reg.fits a (m.group s).n → Reg.fits b (m.group s).n → Opnd.fits o (m.group s).n →
    let r := (m.group s).reg
    let z := (m.group s).opnd ty o
    DoesF s c x m g (exec (.fadd g ty d a o) s) d (fun i => fmap2 ty (fpAdd (tyFmt ty)) (r a i) (z i)) ∧
    DoesF s c x m g (exec (.fsub g ty d a o) s) d (fun i => fmap2 ty (fpSub (tyFmt ty)) (r a i) (z i)) ∧
    DoesF s c x m g (exec (.fmul g ty d a o) s) d (fun i => fmap2 ty (fpMul (tyFmt ty)) (r a i) (z i)) ∧
    DoesF s c x m g (exec (.ffma g ty d a b o) s) d (fun i => fmap3 ty (fpFma (tyFmt ty)) (r a i) (r b i) (z i)) ∧
    DoesF s c x m g (exec (.fmin g ty d a o) s) d (fun i => fmap2 ty (fpMinMax (tyFmt ty) false) (r a i) (z i)) ∧
    DoesF s c x m g (exec (.fmax g ty d a o) s) d (fun i => fmap2 ty (fpMinMax (tyFmt ty) true) (r a i) (z i)) ∧
    (∀ cc any, Does s c x m (exec (.fcmp g cc any ty pd a o) s) (fun h G =>
      WrotePF h G m.lanes (m.active s g) pd.toNat (fun i => (fcmpWord cc any ty (r a i) (z i)).1)
        (m.flagsAfter s (m.active s g) (fun i => (fcmpWord cc any ty (r a i) (z i)).2)))) ∧
    DoesV s c x m g (exec (.fclass g ty d a) s) d (fun i => map1 ty (fun e => 2 ^ fpClass (tyFmt ty) e) (r a i)) ∧
    (∀ md ex, DoesF s c x m g (exec (.frnd g md ex ty d a) s) d (fun i => fmap1 ty (fpRound (tyFmt ty) md ex) (r a i))) ∧
    DoesF s c x m g (exec (.fscale g ty d a o) s) d
      (fun i => fmap2 ty (fun e k => fpScale (tyFmt ty) e (signedElem ty k)) (r a i) (z i)) ∧
    DoesF s c x m g (exec (.fdot g ty d a b o) s) d (fun i => fdotWord ty (r a i) (r b i) ((m.group s).opnd .f32 o i))) ∧
  (
    ∀ (s : State) (c : Nat) (x : Issue) (m : Member), Sole s c x m →
    ∀ (g : Guard) (dt st : Ty) (sat : Bool) (d : VReg) (a b : Reg) (sf df : BitVec 4),
      d.toNat < (m.group s).n → Reg.fits a (m.group s).n → Reg.fits b (m.group s).n →
    let r := (m.group s).reg
    let old := (m.group s).vreg d.toNat
    DoesF s c x m g (exec (.fcvt g dt st d a sf df) s) d (fun i => convWord dt st false sf.toNat df.toNat (old i) (r a i)) ∧
    DoesF s c x m g (exec (.ftoi g dt st d a sf df) s) d (fun i => convWord dt st false sf.toNat df.toNat (old i) (r a i)) ∧
    DoesF s c x m g (exec (.icvt g sat dt st d a sf df) s) d
      (fun i => convWord dt st sat sf.toNat df.toNat (old i) (r a i)) ∧
    (∀ (w : NWidth) (k : BitVec 4) (sel p : BitVec 3),
      let fm : BitVec 16 := get 0 k.toNat (s.team m.team).f
      fmtValid fm (nBits w) = true →
      DoesF s c x m g (exec (.ncvtDec g w dt d a b k sel p) s) d
        (fun i => ncvtDecWord w dt fm ((m.group s).scale b sel.toNat i) p.toNat (r a i)) ∧
      DoesF s c x m g (exec (.ncvtEnc g w dt d a b k sel p) s) d
        (fun i => ncvtEncWord w dt fm ((m.group s).scale b sel.toNat i) p.toNat (old i) (r a i))))

/-- The special functions complete at their issue, with their results and flags outstanding, to be delivered by
`LONG_LATENCY_COMPLETION` (R245, R132, R207-R209); so does `NDOT`, where the format registers that it names are valid (R249). -/
def Obligations.SpecialFunctionsAndNarrowDotsBegin : Prop :=
  (
    ∀ (s : State) (c : Nat) (x : Issue) (m : Member), Sole s c x m →
    ∀ (g : Guard) (ll : Ll) (ty : Ty) (d : VReg) (a : Reg),
      d.toNat < (m.group s).n → Reg.fits a (m.group s).n → m.canCount s g ll →
    let z := fun fn i => sfuWord fn ty ((m.group s).reg a i)
    DoesLl s c x m g ll (exec (.rcp g ll ty d a) s) d (z .rcp) ∧ DoesLl s c x m g ll (exec (.rsq g ll ty d a) s) d (z .rsq) ∧
    DoesLl s c x m g ll (exec (.sqrt g ll ty d a) s) d (z .sqrt) ∧
    DoesLl s c x m g ll (exec (.exp2 g ll ty d a) s) d (z .exp2) ∧
    DoesLl s c x m g ll (exec (.log2 g ll ty d a) s) d (z .log2) ∧ DoesLl s c x m g ll (exec (.sin g ll ty d a) s) d (z .sin) ∧
    DoesLl s c x m g ll (exec (.cos g ll ty d a) s) d (z .cos) ∧ DoesLl s c x m g ll (exec (.tanh g ll ty d a) s) d (z .tanh)) ∧
  (
    ∀ (s : State) (c : Nat) (x : Issue) (m : Member), Sole s c x m →
    ∀ (g : Guard) (ll : Ll) (w : NWidth) (d : VReg) (a : Reg) (b : VReg) (sen : Bool) (sel : BitVec 2)
      (fs : Option (BitVec 4 × BitVec 4)),
      d.toNat < (m.group s).n → Reg.fits a (m.group s).n → b.toNat + 1 < (m.group s).n → m.canCount s g ll →
    let fmt : BitVec 4 → BitVec 16 := fun k => get 0 k.toNat (s.team m.team).f
    let ks := fs.getD (0, 1)
    fmtValid (fmt ks.1) (nBits w) = true → fmtValid (fmt ks.2) (nBits w) = true →
    DoesLl s c x m g ll (exec (.ndot g ll w d a (.v b) sen sel fs) s) d (fun i =>
      let y := ((m.group s).vreg (b.toNat + 1) i).toNat
      ndotWord w (fmt ks.1) (fmt ks.2)
        (if sen then some (field y (8 * sel.toNat) 8, field y (8 * (sel.toNat + 4)) 8) else none)
        ((m.group s).vreg d.toNat i) ((m.group s).reg a i) ((m.group s).vreg b.toNat i)))

/-- The integer, logic and move short forms complete as the long instructions that they expand into, on the low 64 vector
registers (R203, R213). The floating-point short forms complete as the long instructions of their types (R203, R213). -/
def Obligations.ShortFormsComplete : Prop :=
  (
    ∀ (s : State) (c : Nat) (x : Issue) (m : Member), Sole s c x m →
    ∀ (g : Guard) (t : BitVec 3) (d a b : BitVec 6),
      d.toNat < (m.group s).n → a.toNat < (m.group s).n → b.toNat < (m.group s).n →
    let ty := shortTy t
    let u := (m.group s).vreg a.toNat
    let v := (m.group s).vreg b.toNat
    let does := fun (i : Instr) (f : Nat → Word) => DoesV s c x m g (exec i s) (d.setWidth 10) f
    does (.iaddShort g t d a b) (fun i => int2 ty false (fun p q => p + q) (u i) (v i)) ∧
    does (.isubShort g t d a b) (fun i => int2 ty false (fun p q => p - q) (u i) (v i)) ∧
    does (.imulShort g t d a b) (fun i => int2 ty false (fun p q => p * q) (u i) (v i)) ∧
    does (.iminShort g t d a b) (fun i => int2 ty false min (u i) (v i)) ∧
    does (.imaxShort g t d a b) (fun i => int2 ty false max (u i) (v i)) ∧
    does (.shlShort g t d a b) (fun i => map2 ty (shlNat ty.width) (u i) (v i)) ∧
    does (.shrShort g t d a b) (fun i => map2 ty (shrNat ty.width) (u i) (v i)) ∧
    does (.sarShort g t d a b) (fun i => map2 ty (sarNat ty.width) (u i) (v i)) ∧
    does (.movShort g d a) u ∧
    does (.popcShort g d a) (fun i => map1 .n64 (popNat 64) (u i)) ∧
    does (.clzShort g d a) (fun i => map1 .n64 (clzNat 64) (u i)) ∧
    does (.brevShort g d a) (fun i => (u i).reverse) ∧
    does (.logAndShort g d a b) (fun i => u i &&& v i) ∧ does (.logOrShort g d a b) (fun i => u i ||| v i) ∧
    does (.logXorShort g d a b) (fun i => u i ^^^ v i) ∧
    does (.rotShort g d a b) (fun i => (u i).rotateLeft ((v i).toNat % 64)) ∧
    does (.iabsI32x2Short g d a) (fun i => int1 .i32x2 false (fun p => (p.natAbs : Int)) (u i)) ∧
    does (.inegI32x2Short g d a) (fun i => int1 .i32x2 false (fun p => -p) (u i)) ∧
    does (.iabsI64Short g d a) (fun i => int1 .i64 false (fun p => (p.natAbs : Int)) (u i)) ∧
    does (.inegI64Short g d a) (fun i => int1 .i64 false (fun p => -p) (u i))) ∧
  (
    ∀ (s : State) (c : Nat) (x : Issue) (m : Member), Sole s c x m →
    ∀ (g : Guard) (d a b : BitVec 6), d.toNat < (m.group s).n → a.toNat < (m.group s).n → b.toNat < (m.group s).n →
    let does := fun (i : Instr) (ty : Ty) (f : Fmt → Nat → Nat → Nat × Flags) =>
      DoesF s c x m g (exec i s) (d.setWidth 10)
        (fun k => fmap2 ty (f (tyFmt ty)) ((m.group s).vreg a.toNat k) ((m.group s).vreg b.toNat k))
    does (.faddF16x4Short g d a b) .f16x4 fpAdd ∧ does (.faddBf16x4Short g d a b) .bf16x4 fpAdd ∧
    does (.faddF32x2Short g d a b) .f32x2 fpAdd ∧ does (.faddF32Short g d a b) .f32 fpAdd ∧
    does (.faddF64Short g d a b) .f64 fpAdd ∧
    does (.fsubF16x4Short g d a b) .f16x4 fpSub ∧ does (.fsubBf16x4Short g d a b) .bf16x4 fpSub ∧
    does (.fsubF32x2Short g d a b) .f32x2 fpSub ∧ does (.fsubF32Short g d a b) .f32 fpSub ∧
    does (.fsubF64Short g d a b) .f64 fpSub ∧
    does (.fmulF16x4Short g d a b) .f16x4 fpMul ∧ does (.fmulBf16x4Short g d a b) .bf16x4 fpMul ∧
    does (.fmulF32x2Short g d a b) .f32x2 fpMul ∧ does (.fmulF32Short g d a b) .f32 fpMul ∧
    does (.fmulF64Short g d a b) .f64 fpMul ∧
    does (.fminF16x4Short g d a b) .f16x4 (fun f => fpMinMax f false) ∧
    does (.fminBf16x4Short g d a b) .bf16x4 (fun f => fpMinMax f false) ∧
    does (.fminF32x2Short g d a b) .f32x2 (fun f => fpMinMax f false) ∧
    does (.fminF32Short g d a b) .f32 (fun f => fpMinMax f false) ∧
    does (.fminF64Short g d a b) .f64 (fun f => fpMinMax f false) ∧
    does (.fmaxF16x4Short g d a b) .f16x4 (fun f => fpMinMax f true) ∧
    does (.fmaxBf16x4Short g d a b) .bf16x4 (fun f => fpMinMax f true) ∧
    does (.fmaxF32x2Short g d a b) .f32x2 (fun f => fpMinMax f true) ∧
    does (.fmaxF32Short g d a b) .f32 (fun f => fpMinMax f true) ∧
    does (.fmaxF64Short g d a b) .f64 (fun f => fpMinMax f true))

/-- `NOP` changes nothing in the group, and `BRA`, `BRX`, `CALL`, `CALLX` and `RET` put the active lanes at their target in lane
state 1, the calls with the successor header in the link register (R223, R227); with tracing off on the die. -/
def Obligations.BranchesComplete : Prop :=
  ∀ (s : State) (c : Nat) (x : Issue) (m : Member), Sole s c x m → s.quiet c →
  ∀ (g : Guard) (d : VReg) (t : Reg), d.toNat < (m.group s).n → Reg.fits t (m.group s).n →
  let act := m.active s g
  let ok := ∀ i, i < 64 → act.getLsbD i = true →
    ((m.group s).reg t i).extractLsb' 0 3 = 0 ∧ canonicalVa ((m.group s).reg t i) = true
  (∀ i, i = .nop g ∨ i = .nopShort g →
    Does s c x m (exec i s) (fun h G => G = { h with pend := G.pend } ∧ SamePends h G ∧ Aged h G m.lanes)) ∧
  (∀ off, Leaves s c x m act (exec (.bra g off) s) (fun h G =>
    G = { h with pc := G.pc, st := G.st, wait := G.wait, hdr := G.hdr, pend := G.pend } ∧ SamePends h G ∧
    Went h G act 1 (fun _ => x.hdr + (off.signExtend 64 <<< 3)))) ∧
  (∀ off, Leaves s c x m act (exec (.call g d off) s) (fun h G =>
    G = { h with v := G.v, pc := G.pc, st := G.st, wait := G.wait, hdr := G.hdr, pend := G.pend } ∧ SamePends h G ∧
    Went h G act 1 (fun _ => x.hdr + (off.signExtend 64 <<< 3)) ∧
    (∀ r i, i < 64 → G.vreg r i = if r = d.toNat ∧ act.getLsbD i = true then x.next else h.vreg r i))) ∧
  (ok → Leaves s c x m act (exec (.brx g t) s) (fun h G =>
    G = { h with pc := G.pc, st := G.st, wait := G.wait, hdr := G.hdr, pend := G.pend } ∧ SamePends h G ∧
    Went h G act 1 (h.reg t))) ∧
  (ok → Leaves s c x m act (exec (.callx g d t) s) (fun h G =>
    G = { h with v := G.v, pc := G.pc, st := G.st, wait := G.wait, hdr := G.hdr, pend := G.pend } ∧ SamePends h G ∧
    Went h G act 1 (h.reg t) ∧
    (∀ r i, i < 64 → G.vreg r i = if r = d.toNat ∧ act.getLsbD i = true then x.next else h.vreg r i))) ∧
  (ok → Leaves s c x m act (exec (.ret g t) s) (fun h G =>
    G = { h with pc := G.pc, st := G.st, wait := G.wait, hdr := G.hdr, pend := G.pend, depth := G.depth, rets := G.rets } ∧
    SamePends h G ∧ Went h G act 1 (h.reg t)))

/-- Join masks and priorities complete as group effects: written once if a lane is active, with nothing else changed (R222,
R226, R227). `JOIN`: where every lane named in the mask is in the path, blocked at this header, exited or was never launched,
or the path's own named lanes have been let go there, the path goes on; else its named lanes block at the header in lane state 3 and the rest of the path goes on (R34, R226). `YIELD`
sends the active lanes to the successor header and has the group passed over; `WAITD` goes on when its counters are zero, else
its lanes stay ready at it; `SLEEP` of d ticks, with d below 2^40, puts the lanes to sleep until then (R227). -/
def Obligations.JoinsAndIssueControlComplete : Prop :=
  (
    ∀ (s : State) (c : Nat) (x : Issue) (m : Member), Sole s c x m →
    ∀ (g : Guard) (k : JReg) (a : SReg),
    let act := m.active s g
    let mask := fun (i : Instr) (y : Lanes) => Does s c x m (exec i s) (fun h G =>
      G = { h with j := G.j, pend := G.pend } ∧ SamePends h G ∧
      ∀ n, G.jreg n = if act ≠ 0 ∧ n = k.toNat then y else h.jreg n)
    let prio := fun (i : Instr) (y : Nat) => Does s c x m (exec i s) (fun h G =>
      G = { h with prio := if act = 0 then h.prio else y, pend := G.pend } ∧ SamePends h G)
    mask (.jmask g k a) ((m.group s).sreg a.toNat) ∧ mask (.jmaskAct g k) act ∧
    mask (.jmaskOr g k) ((m.group s).jreg k.toNat ||| act) ∧
    (∀ n, prio (.setprio g n) n.toNat) ∧ prio (.setprioS g a) (min ((m.group s).sreg a.toNat).toNat 15)) ∧
  (
    ∀ (s : State) (c : Nat) (x : Issue) (m : Member), Sole s c x m → ∀ (k : JReg),
    let h := m.group s
    let j := h.jreg k.toNat
    let here := fun i => m.lanes.getLsbD i = true ∨ h.state i = 0 ∨ h.state i = 2 ∨ (h.state i = 3 ∧ h.lanePc i = x.hdr)
    let free := fun i => (get 0 x.hdr.toNat h.arrive).getLsbD i
    ((∀ i, i < 64 → j.getLsbD i = true → here i) ∨ (∀ i, i < 64 → m.lanes.getLsbD i = true → j.getLsbD i = true → free i = true) →
      Does s c x m (exec (.join k) s) (fun h G => G = { h with arrive := G.arrive, pend := G.pend } ∧ SamePends h G)) ∧
    ((∃ i, i < 64 ∧ j.getLsbD i = true ∧ ¬here i) →
      (∃ i, i < 64 ∧ m.lanes.getLsbD i = true ∧ j.getLsbD i = true ∧ free i = false) →
      Leaves s c x m (m.lanes &&& j) (exec (.join k) s) (fun h G =>
        G = { h with pc := G.pc, st := G.st, wait := G.wait, hdr := G.hdr, pend := G.pend } ∧ SamePends h G ∧
        Went h G (m.lanes &&& j) 3 (fun _ => x.hdr)))) ∧
  (
    ∀ (s : State) (c : Nat) (x : Issue) (m : Member), Sole s c x m →
    ∀ (g : Guard) (mk : BitVec 8) (a : SReg) (lit : Option W32),
    let act := m.active s g
    let ticks := ((m.group s).sreg a.toNat).toNat + (match lit with
      | some y => y.toNat
      | none => 0)
    (∀ i, i = .yield g ∨ i = .yieldShort g → Leaves s c x m act (exec i s) (fun h G =>
      G = { h with pc := G.pc, st := G.st, wait := G.wait, hdr := G.hdr, pend := G.pend, passed := h.passed || act != 0 } ∧
      SamePends h G ∧ Went h G act 1 (fun _ => x.next))) ∧
    ((∀ k, k < 8 → mk.getLsbD k = true → (m.group s).dreg k = 0) →
      Does s c x m (exec (.waitd g mk) s) (fun h G => G = { h with pend := G.pend } ∧ SamePends h G)) ∧
    ((∃ k, k < 8 ∧ mk.getLsbD k = true ∧ (m.group s).dreg k ≠ 0) →
      Leaves s c x m act (exec (.waitd g mk) s) (fun h G =>
        G = { h with pc := G.pc, st := G.st, wait := G.wait, hdr := G.hdr, pend := G.pend } ∧ SamePends h G ∧
        Stood h G act 1 x.pc (x.hdr, x.bodyw) (fun _ => none))) ∧
    (ticks = 0 → Does s c x m (exec (.sleep g a lit) s) (fun h G => G = { h with pend := G.pend } ∧ SamePends h G)) ∧
    (0 < ticks → ticks < 2 ^ 40 → Leaves s c x m act (exec (.sleep g a lit) s) (fun h G =>
      G = { h with pc := G.pc, st := G.st, wait := G.wait, hdr := G.hdr, pend := G.pend } ∧ SamePends h G ∧
      ∀ i, i < 64 → act.getLsbD i = true →
        G.lanePc i = x.next ∧ G.state i = 9 ∧ find i G.wait = some (.sleep (s.dev.datum + ticks)))))

/-- `EXIT` puts its active lanes in lane state 2 where no outstanding instruction is to write them (R225); `ORDWAIT` blocks
those that stand behind an earlier fragment at their pixel, and `ORDREL` marks them as no longer holding back later ones; lanes that
exit or release give their stream the time from which later fragments go on, and those that pass take it (R145, R302). While no lane
of the team waits for raster order nothing else changes. -/
def Obligations.ExitAndRasterOrderComplete : Prop :=
  ∀ (s : State) (c : Nat) (x : Issue) (m : Member), Sole s c x m → ∀ (g : Guard),
  let act := m.active s g
  let h := m.group s
  let held := maskOf (fun i => act.getLsbD i && s.behind m.team m.grp i)
  let frees := fun (i : Instr) (gone : Lanes) (p : Group → Prop) => Ends c x m gone (exec i s) (fun u =>
    u = { s.releasePixels m.team m.grp act with cores := u.cores, teams := u.teams } ∧
    (∀ k, u.core k = { s.core k with dmrunc := (u.core k).dmrunc, dmrcmp := (u.core k).dmrcmp }) ∧
    (∀ n, { u.team n with groups := [] } = { s.team n with groups := [] }) ∧
    (∀ n k, ¬(n = m.team ∧ k = m.grp) → u.group n k = s.group n k) ∧ SamePends h (m.group u) ∧ p (m.group u))
  (∀ k, ∀ e ∈ (s.group m.team k).wait, e.2 ≠ .order) →
  ((∀ e ∈ h.pend, e.2.left_ = true ∨ e.2.lanes &&& act = 0 ∨ (e.2.vw = [] ∧ e.2.pw = [] ∧ e.2.sw = [])) →
    ∀ i, i = .exit g ∨ i = .exitShort g → frees i act (fun G =>
      G = { h with pc := G.pc, st := G.st, wait := G.wait, hdr := G.hdr, pend := G.pend } ∧ Went h G act 2 (fun _ => x.pc))) ∧
  Leaves s c x m held (exec (.ordwait g) s) (fun h G =>
    G = { h with pc := G.pc, st := G.st, wait := G.wait, hdr := G.hdr, pend := G.pend
                 gts := max h.gts (s.orderTime m.team m.grp (act &&& ~~~held)) } ∧ SamePends h G ∧
    Stood h G held 5 x.pc (x.hdr, x.bodyw) (fun _ => some .order)) ∧
  frees (.ordrel g) 0 (fun G => G = { h with relDone := h.relDone ||| act, pend := G.pend }) ∧
  ((m.group s).sort = .normal → s.releasePixels m.team m.grp act = s ∧ held = 0)

/-- `BARARV` counts one arrival of the group, answers the phase before it, and with the last arrival flips the phase and
releases the lanes that waited for it; `BARWAIT` goes on where the phase differs from its operand, taking the barrier's time,
and else blocks its lanes in lane state 5 (R228, R103). -/
def Obligations.BarriersComplete : Prop :=
  ∀ (s : State) (c : Nat) (x : Issue) (m : Member), Sole s c x m →
  ∀ (g : Guard) (d a : SReg) (b : BitVec 4) (n : BitVec 10),
  let act := m.active s g
  let y := (s.team m.team).bar b.toNat
  let want := if y.count = 0 then n.toNat else y.expect
  let time := max y.time (m.group s).gts
  let ph := ((m.group s).sreg a.toNat).getLsbD 0
  (act ≠ 0 → y.count = 0 ∨ y.expect = n.toNat →
    Ends c x m 0 (exec (.bararv g d b n) s) (fun u =>
      (u.team m.team).bar b.toNat =
        { count := if y.count + 1 = want then 0 else y.count + 1, expect := want,
          phase := if y.count + 1 = want then !y.phase else y.phase, time := time } ∧
      (∀ k, k ≠ b.toNat → (u.team m.team).bar k = (s.team m.team).bar k) ∧
      (d ≠ 0 → d ≠ 2 → (m.group u).sreg d.toNat = if y.phase then 1 else 0) ∧
      (∀ k, k ≠ d.toNat → (m.group u).sreg k = (m.group s).sreg k) ∧
      (y.count + 1 ≠ want →
        (∀ k, k ≠ m.grp → u.group m.team k = s.group m.team k) ∧
        m.group u = { m.group s with s := (m.group u).s, pend := (m.group u).pend } ∧ SamePends (m.group s) (m.group u)) ∧
      (y.count + 1 = want → ∀ k i q, i < 64 → find i (s.group m.team k).wait = some (.barrier b.toNat q) → q = y.phase →
        (u.group m.team k).state i = 1))) ∧
  (y.phase = ph → Leaves s c x m act (exec (.barwait g b a) s) (fun h G =>
    G = { h with pc := G.pc, st := G.st, wait := G.wait, hdr := G.hdr, pend := G.pend } ∧ SamePends h G ∧
    Stood h G act 5 x.pc (x.hdr, x.bodyw) (fun _ => some (.barrier b.toNat ph)))) ∧
  (y.phase ≠ ph → Does s c x m (exec (.barwait g b a) s) (fun h G =>
    G = { h with gts := if act = 0 then h.gts else max h.gts y.time, pend := G.pend } ∧ SamePends h G))

/-- `BTAB` reads the table entry of every active lane, puts the active lanes in the join mask, sends each lane to the target it
read, and queues the paths in the order of the lowest index that leads to each target (R224). -/
def Obligations.JumpTablesComplete : Prop :=
  ∀ (s : State) (c : Nat) (x : Issue) (m : Member), Sole s c x m →
  ∀ (g : Guard) (k : JReg) (idx : Reg) (tab : SReg) (cnt : BitVec 10), Reg.fits idx (m.group s).n →
  let act := m.active s g
  let h := m.group s
  let va := fun i => h.sreg tab.toNat + (h.reg idx i <<< 3)
  let t := fun i => get 0 i (State.tableLoads (m.agent s c) va s (lanesOf act)).1
  act ≠ 0 → (h.sreg tab.toNat).extractLsb' 0 3 = 0 →
  (∀ i, i < 64 → act.getLsbD i = true → (h.reg idx i).toNat ≤ cnt.toNat ∧ s.probe (m.agent s c) .read true (va i) = none ∧
    (t i).extractLsb' 0 3 = 0 ∧ canonicalVa (t i) = true) →
  s.ownedAmong (m.agent s c) .read ((lanesOf act).map va) = [] →
  Ends c x m act (exec (.btab g k idx tab cnt) s) (fun u =>
    Accessed false s u m ∧ SamePends h (m.group u) ∧ Went h (m.group u) act 1 t ∧
    m.group u = { m.at_ s u with
      j := (m.group u).j, pc := (m.group u).pc, st := (m.group u).st, wait := (m.group u).wait, hdr := (m.group u).hdr,
      btab := (m.group u).btab, pend := (m.group u).pend, ordinal := h.ordinal + 1 } ∧
    (∀ n, (m.group u).jreg n = if n = k.toNat then act else h.jreg n) ∧
    ∃ us : List Word, us.Nodup ∧ (∀ w, w ∈ us ↔ ∃ i, i < 64 ∧ act.getLsbD i = true ∧ t i = w) ∧
      us.Pairwise (fun v w => ∃ i, i < 64 ∧ act.getLsbD i = true ∧ t i = v ∧
        ∀ j, j < 64 → act.getLsbD j = true → t j = w → (h.reg idx i).toNat ≤ (h.reg idx j).toNat) ∧
      (m.group u).btab = h.btab ++ (0, 0, false) :: us.map (fun w => (maskOf (fun i => act.getLsbD i && t i == w), w, false)))

/-- `SRD` of a register that the level may read writes its value, in each active lane of a vector register or once in a uniform
register; of `FLAGS`, when no earlier instruction of the group is outstanding (R57-R59, R231). The fields of the system
registers that are made of several, as they are read (R58). `TICK` writes the datum, once what its lanes have outstanding has
completed, to a vector register of the active lanes or to a uniform one (R312); `MARK` changes no register, and with tracing off
on the die nothing. -/
def Obligations.SystemRegisterReadsComplete : Prop :=
  (
    ∀ (s : State) (c : Nat) (x : Issue) (m : Member), Sole s c x m →
    ∀ (g : Guard) (r : SysReg), (m.group s).level.atLeast (readLevel r) = true →
    (r = .flags → ∀ e ∈ (m.group s).pend, e.2.left_ = true) →
    (∀ d : VReg, d.toNat < (m.group s).n →
      DoesV s c x m g (exec (.srd g (.v d) r) s) d (s.sysRead (s.env c x m g) r)) ∧
    (∀ d : SReg, DoesS s c x m g (exec (.srd g (.s d) r) s) d (s.sysRead (s.env c x m g) r 0))) ∧
  (
    ∀ (s : State) (e : Env) (i : Nat),
    let r := fun k => s.sysRead e k i
    let g := e.group s
    let t := s.team e.team
    let x := s.ctx e.ctx
    e.ctx < 1024 → x.part < 128 → e.grp < 16 → g.role < 8 → g.n < 1024 → t.no < 2 ^ 24 → t.gang < 2 ^ 24 → t.rank < 8 →
    t.gsize < 16 → g.prio < 16 → g.credit < 16 →
    (r .ctxid).extractLsb' 0 10 = BitVec.ofNat 10 e.ctx ∧ (r .ctxid).extractLsb' 16 7 = BitVec.ofNat 7 x.part ∧
    (r .ctxid).extractLsb' 32 16 = x.gen ∧
    (r .grpid).extractLsb' 0 4 = BitVec.ofNat 4 e.grp ∧ (r .grpid).extractLsb' 4 3 = BitVec.ofNat 3 g.role ∧
    (r .grpid).extractLsb' 8 2 = BitVec.ofNat 2 (widthCode g.width) ∧ (r .grpid).extractLsb' 16 10 = BitVec.ofNat 10 g.n ∧
    (r .teamid).extractLsb' 0 24 = BitVec.ofNat 24 t.no ∧ (r .teamid).extractLsb' 24 24 = BitVec.ofNat 24 t.gang ∧
    (r .teamid).extractLsb' 48 3 = BitVec.ofNat 3 t.rank ∧ (r .teamid).extractLsb' 52 4 = BitVec.ofNat 4 t.gsize ∧
    (r .prio).extractLsb' 0 4 = BitVec.ofNat 4 g.prio ∧ (r .prio).extractLsb' 4 4 = BitVec.ofNat 4 g.credit ∧
    (r .mode).getLsbD 0 = g.dmr ∧ (r .mode).getLsbD 1 = g.uien ∧ (r .mode).extractLsb' 16 16 = g.uipend ∧
    r .laneid = BitVec.ofNat 64 i ∧ r .gts = BitVec.ofNat 64 g.gts ∧ r .tick = BitVec.ofNat 64 s.dev.datum) ∧
  (
    ∀ (s : State) (c : Nat) (x : Issue) (m : Member), Sole s c x m → ∀ (g : Guard) (d : VReg) (y : SReg) (n : BitVec 10) (a : Reg),
      d.toNat < (m.group s).n → Reg.fits a (m.group s).n →
    ((∀ p ∈ (m.group s).pend, p.2.left_ = true ∨ p.2.lanes &&& m.active s g = 0) →
      (∀ f ∈ (m.group s).fences, f.2.1 &&& m.active s g = 0) →
      DoesV s c x m g (exec (.tick g (.v d)) s) d (fun _ => BitVec.ofNat 64 s.dev.datum)) ∧
    ((∀ p ∈ (m.group s).pend, p.2.left_ = true) → (m.group s).fences = [] →
      DoesS s c x m g (exec (.tick g (.s y)) s) y (BitVec.ofNat 64 s.dev.datum)) ∧
    (s.quiet c → Does s c x m (exec (.mark g n a) s) (fun h G => G = { h with pend := G.pend } ∧ SamePends h G)))

/-- `SWR` and its forms write the fields of R58 from the source in the lowest active lane, at the level that R57 asks for, as
one effect of the group; a register without a written field, and a write by no lane, change nothing (R57-R59, R231, R384). -/
def Obligations.SystemRegisterWritesComplete : Prop :=
  ∀ (s : State) (c : Nat) (x : Issue) (m : Member), Sole s c x m → s.quiet c →
  ∀ (g : Guard) (a : Reg), Reg.fits a (m.group s).n →
  let act := m.active s g
  let k := s.ctxOf m.team
  let w := (m.group s).reg a (lowest act)
  let group := fun (i : Instr) (f : Group → Group) => Does s c x m (exec i s) (fun h G =>
    G = { (if act = 0 then h else f h) with pend := G.pend } ∧ SamePends h G)
  let context := fun (i : Instr) (f : Ctx → Ctx) => Ends c x m 0 (exec i s) (fun u =>
    Undisturbed s u m ∧ { u.team m.team with groups := [] } = { s.team m.team with groups := [] } ∧
    u = { s with ctxs := u.ctxs, cores := u.cores, teams := u.teams } ∧
    (∀ n, n ≠ k → u.ctx n = s.ctx n) ∧ u.ctx k = if act = 0 then s.ctx k else f (s.ctx k))
  let team := fun (i : Instr) (f : Team → Team) => Ends c x m 0 (exec i s) (fun u =>
    Undisturbed s u m ∧ u = { s with cores := u.cores, teams := u.teams } ∧
    { u.team m.team with groups := [] } = { (if act = 0 then s.team m.team else f (s.team m.team)) with groups := [] })
  group (.swr g .prio a) (fun h => { h with prio := w.toNat % 16 }) ∧
  group (.swrMode g a) (fun h => { h with
    dmr := if h.level.atLeast .control then w.getLsbD 0 else h.dmr, uien := w.getLsbD 1 }) ∧
  ((∀ e ∈ (m.group s).pend, e.2.left_ = true) →
    group (.swrFlags g a) (fun h => { h with flags := h.flags &&& ~~~(w.setWidth 5) })) ∧
  (∀ r, r = .capLo ∨ r = .capHi ∨ r = .ctxid ∨ r = .grpid ∨ r = .teamid ∨ r = .laneid ∨ r = .gts ∨ r = .tick →
    group (.swr g r a) id) ∧
  context (.swr g .rastthr a) (fun y => { y with area := w.setWidth 32 }) ∧
  team (.swr g .trvcfg a) (fun y => { y with pkten := w.getLsbD 0 }) ∧
  team (.swr g .swpcfg a) (fun y => { y with sprio := w.setWidth 4 }) ∧
  ((m.group s).level.atLeast .control = true →
    group (.swr g .faultinfo a) (fun h => { h with faultinfo := w &&& 0xFFFF0FFF }) ∧
    group (.swr g .faultlanes a) (fun h => { h with faultlanes := w }) ∧
    group (.swr g .trappc a) (fun h => { h with trappc := w }) ∧
    context (.swr g .tvec a) (fun y => { y with tvec := w &&& ~~~7 }) ∧
    context (.swrLease g a) (fun y => { y with lease := if w.setWidth 32 = (0 : BitVec 32) then 1 else w.setWidth 32 })) ∧
  ((m.group s).level.atLeast .machine = true → Ends c x m 0 (exec (.swrStopat g a) s) (fun u =>
    Undisturbed s u m ∧ u = { s with dev := u.dev, cores := u.cores, teams := u.teams } ∧
    u.dev = { s.dev with stopat := if act = 0 then s.dev.stopat
      else if s.dev.jtag = true ∧ s.dev.datum < w.toNat then w.toNat else 0 }))

/-- `RGET`, with its result outstanding, and `RPUT` complete on the register that each active lane's index names, where every index lies below the
declared count (R53, R239); `FMTSET` writes a format register of the team once (R247). -/
def Obligations.IndirectRegistersAndFormatsComplete : Prop :=
  ∀ (s : State) (c : Nat) (x : Issue) (m : Member), Sole s c x m →
  ∀ (g : Guard) (ll : Ll) (d : VReg) (idx a : Reg) (k : BitVec 4) (y : FmtSrc),
    d.toNat < (m.group s).n → Reg.fits idx (m.group s).n → Reg.fits a (m.group s).n →
  let act := m.active s g
  let at_ := fun i => ((m.group s).reg idx i).toNat
  let fmt : BitVec 16 := match y with
    | .reg r => ((m.group s).sreg r.toNat).setWidth 16
    | .lit z => z
  ((∀ i, i < 64 → act.getLsbD i = true → at_ i < (m.group s).n) →
    (m.canCount s g ll → Does s c x m (exec (.rget g ll d idx) s) (fun h G => Began h G m.lanes act ll { Pend.zero with
      vw := vWrites d.toNat act (fun i => h.vreg (at_ i) i) })) ∧
    Does s c x m (exec (.rput g idx a) s) (fun h G =>
      G = { h with v := G.v, pend := G.pend } ∧ SamePends h G ∧
      ∀ r i, i < 64 → G.vreg r i = if act.getLsbD i = true ∧ r = at_ i then h.reg a i else h.vreg r i)) ∧
  Ends c x m 0 (exec (.fmtset g k y) s) (fun u =>
    Undisturbed s u m ∧ u = { s with cores := u.cores, teams := u.teams } ∧
    { u.team m.team with groups := [], f := [] } = { s.team m.team with groups := [], f := [] } ∧
    ∀ n, get 0 n (u.team m.team).f = if act ≠ 0 ∧ n = k.toNat then fmt else get 0 n (s.team m.team).f)

/-- Cross-lane instructions complete once every launched member of the member mask is in the path, at the header or exited (R35,
R250-R253): each active member takes the result over the members, and the out-predicate is false in the active lanes that are
not members (R251). -/
def Obligations.CrossLaneInstructionsComplete : Prop :=
  ∀ (s : State) (c : Nat) (x : Issue) (m : Member), Sole s c x m →
  ∀ (g : Guard) (k : Mbr) (d : VReg) (e : Reg) (av : VReg) (a b : Reg) (ty : Ty),
    d.toNat < (m.group s).n → Reg.fits e (m.group s).n → av.toNat < (m.group s).n → Reg.fits a (m.group s).n →
    Reg.fits b (m.group s).n →
  let act := m.active s g
  let v := (s.env c x m g).visit (m.group s) g k.m
  let src := fun i => v.src.vreg av.toNat i
  let mem := fun i => v.members.getLsbD i
  let ms := (List.range 64).filter mem
  (m.group s).badMembers v.members = 0 →
  ((m.group s).xsrc.any (fun y => y.hdr == x.hdr) = true ∨ (m.group s).memberLacks x.hdr m.lanes v.members = 0) →
  let does := fun (i : Instr) (d : Reg) (uni : Bool) (f : Nat → Word) (q : Nat → Bool) (fl : Flags) =>
    Does s c x m (exec i s) (fun h G => WroteX h G m.lanes v d uni f k.po q fl)
  let flags := (m.group s).flags
  let all := fun (f : Nat → Flags) => flags ||| (lanesOf (v.mine &&& ~~~(m.group s).helper)).foldl (fun y i => y ||| f i) 0
  let quad := fun (hi lo : Nat → Nat) (i : Nat) => quadDiff ty v av (i / 4 * 4 + hi (i % 4)) (i / 4 * 4 + lo (i % 4))
  (∀ md, let from_ := fun i => permFrom md v.members i (v.src.reg b i)
    does (.perm g md d a b k) (.v d) false (fun i => v.src.reg a ((from_ i).getD i)) (fun i => (from_ i).isSome) flags) ∧
  (∀ sb : SReg, let l := ((v.src.sreg sb.toNat).extractLsb' 0 6).toNat;
    mem l = true → does (.bcast g .lane e av sb k) e (act != 0) (fun _ => src l) (fun _ => true) flags) ∧
  (∀ sb, v.act &&& v.members ≠ 0 →
    does (.bcast g .first e av sb k) e (act != 0) (fun _ => src (lowest (v.act &&& v.members))) (fun _ => true) flags ∧
    does (.bcast g .last e av sb k) e (act != 0) (fun _ => src (highest (v.act &&& v.members))) (fun _ => true) flags) ∧
  (∀ pa : PReg, let y := maskOf (fun j => mem j && v.src.preg pa.toNat j)
    does (.vote g (.ballot e) pa k) e (act != 0) (fun _ => y) (fun _ => true) flags ∧
    (∀ md (pd : PReg), Does s c x m (exec (.vote g (.pred md pd) pa k) s) (fun h G =>
      G = { h with p := G.p, arrive := G.arrive, xsrc := G.xsrc, pend := G.pend } ∧ SamePends h G ∧
      ∀ n i, n < 16 → i < 64 → G.preg n i = if n = pd.toNat ∧ n ≠ 15 ∧ v.mine.getLsbD i = true then (match md with
        | .all => y == v.members
        | .any => y != 0
        | .uni => y == v.members || y == 0) else h.preg n i))) ∧
  (∀ op, let r := redWords op ty (ms.map src)
    does (.redu g op ty e av k) e (act != 0) (fun _ => r.1) (fun _ => true)
      (if v.mine &&& ~~~(m.group s).helper = 0 then flags else flags ||| r.2) ∧
    (∀ excl, let p := fun i => redWords op ty ((ms.filter (fun j => decide (j < i) || (!excl && j == i))).map src)
      does (.scan g op excl ty d av k) (.v d) false (fun i => (p i).1) (fun _ => true) (all (fun i => (p i).2)))) ∧
  (let same := fun i => maskOf (fun j => mem j && src j == src i);
    does (.matchLanes g d av k) (.v d) false same (fun i => same i == v.members) flags) ∧
  ((∀ q, q < 16 → (∀ j, j < 4 → mem (4 * q + j) = true) ∨ (∀ j, j < 4 → mem (4 * q + j) = false)) →
    does (.derivx g false ty d av k) (.v d) false (fun i => (quad (fun l => l ||| 1) (fun l => l &&& 2) i).1) (fun _ => true)
      (all (fun i => (quad (fun l => l ||| 1) (fun l => l &&& 2) i).2)) ∧
    does (.derivx g true ty d av k) (.v d) false (fun i => (quad (fun _ => 1) (fun _ => 0) i).1) (fun _ => true)
      (all (fun i => (quad (fun _ => 1) (fun _ => 0) i).2)) ∧
    does (.derivy g false ty d av k) (.v d) false (fun i => (quad (fun l => l ||| 2) (fun l => l &&& 1) i).1) (fun _ => true)
      (all (fun i => (quad (fun l => l ||| 2) (fun l => l &&& 1) i).2)) ∧
    does (.derivy g true ty d av k) (.v d) false (fun i => (quad (fun _ => 2) (fun _ => 0) i).1) (fun _ => true)
      (all (fun i => (quad (fun _ => 2) (fun _ => 0) i).2)) ∧
    does (.qswap g .h d av k) (.v d) false (fun i => src (i ^^^ 1)) (fun _ => true) flags ∧
    does (.qswap g .v d av k) (.v d) false (fun i => src (i ^^^ 2)) (fun _ => true) flags ∧
    does (.qswap g .d d av k) (.v d) false (fun i => src (i ^^^ 3)) (fun _ => true) flags)

/-- Cross-lane instructions wait: while a launched member has not arrived, the members of the path block at the header in lane
state 4 and the other lanes of the path go on, an active one with the out-predicate false (R35, R36, R251). -/
def Obligations.CrossLaneMembersWait : Prop :=
  ∀ (s : State) (c : Nat) (x : Issue) (m : Member), Sole s c x m →
  ∀ (g : Guard) (k : Mbr) (d : VReg) (e : Reg) (av : VReg) (a b : Reg) (sb : SReg) (ty : Ty),
    d.toNat < (m.group s).n → Reg.fits e (m.group s).n → av.toNat < (m.group s).n → Reg.fits a (m.group s).n →
    Reg.fits b (m.group s).n →
  let v := (s.env c x m g).visit (m.group s) g k.m
  (m.group s).xsrc = none → (m.group s).badMembers v.members = 0 → (m.group s).memberLacks x.hdr m.lanes v.members ≠ 0 →
  ∀ i, ((∃ md, i = .perm g md d a b k ∨ i = .qswap g .h d av k ∨ ∃ md, i = .bcast g md e av sb k) ∨
      i = .matchLanes g d av k ∨ (∃ op, i = .redu g op ty e av k ∨ ∃ ex, i = .scan g op ex ty d av k) ∨
      (∃ co, i = .derivx g co ty d av k ∨ i = .derivy g co ty d av k) ∨ ∃ pa, i = .vote g (.ballot e) pa k) →
    Leaves s c x m (m.lanes &&& v.members) (exec i s) (fun h G =>
      G = { h with p := G.p, pc := G.pc, st := G.st, wait := G.wait, hdr := G.hdr, arrive := G.arrive, pend := G.pend } ∧
      SamePends h G ∧ Went h G (m.lanes &&& v.members) 4 (fun _ => x.hdr) ∧
      find x.hdr.toNat G.arrive = some v.members ∧
      ∀ n j, n < 16 → j < 64 → G.preg n j = if n = k.po.toNat ∧ n ≠ 15 ∧ v.others.getLsbD j = true then false else h.preg n j)

/-- Stream instructions complete at their issue (R254, R255): where the descriptors are aligned and every word lies in the share, unpoisoned and
present, the steps run in ascending order, lane by lane within one, and no byte of the share changes outside the destination
words of active lanes that are no helper lanes. -/
def Obligations.StreamsBegin : Prop :=
  ∀ (s : State) (c : Nat) (x : Issue) (m : Member), Sole s c x m →
  ∀ (g : Guard) (ll : Ll) (ty st : Ty) (d a b : SReg) (n : BitVec 12) (sat : Bool), m.canCount s g ll →
  let h := m.group s
  let e := s.env c x m g
  let act := m.active s g
  let does := fun (i : Instr) (srcs : List Word) (f : List (List Word) → Word × Flags) =>
    s.strCheck e n.toNat srcs [h.sreg d.toNat] = none →
    let r := State.strSteps e h.helper srcs (h.sreg d.toNat) f s [] (List.range n.toNat) 0
    Ends c x m 0 (exec i s) (fun u =>
      Accessed true s u m ∧
      Began (m.at_ s u) (m.group u) m.lanes act ll { Pend.zero with flags := r.1 } ∧
      (∀ y, get 0 y (u.team m.team).scratch = get 0 y (r.2.team m.team).scratch) ∧
      (∀ y : Nat, (∀ i j, i < 64 → (act &&& ~~~h.helper).getLsbD i = true → j < n.toNat →
          (y : Int) < strAt (h.sreg d.toNat) j i ∨ strAt (h.sreg d.toNat) j i + 8 ≤ y) →
        get 0 y (u.team m.team).scratch = get 0 y (s.team m.team).scratch))
  let s1 := [h.sreg a.toNat]
  let s2 := [h.sreg a.toNat, h.sreg b.toNat]
  let s3 := [h.sreg a.toNat, h.sreg b.toNat, h.sreg (b.toNat + 1)]
  (∀ op, does (.xalu g ll ty op sat d a b n) s2 (fun w => xaluWord op ty sat (lastRow w 0) (lastRow w 1))) ∧
  does (.xfma g ll ty d a b n) s3 (fun w => xfmaWord ty (lastRow w 0) (lastRow w 1) (lastRow w 2)) ∧
  does (.xcvt g ll ty st sat d a n) s1 (fun w => convWord ty st sat 0 0 0 (lastRow w 0)) ∧
  (∀ op ex, does (.xscan g ll ty op ex d a n) s1
    (fun w => redWords op ty ((if ex then w.dropLast else w).map (fun q => q.getD 0 0)))) ∧
  does (.xsel g ll ty d a b n) s3 (fun w => (xselWord ty (lastRow w 0) (lastRow w 1) (lastRow w 2), 0)) ∧
  (∀ op (dv : VReg), dv.toNat < h.n → s.strCheck e n.toNat s1 [] = none →
    let r := (State.strAll e s1 s [] (List.range n.toNat)).1
    let w := fun i => redWords op ty (h.vreg dv.toNat i :: (get [] i r).map (fun q => q.getD 0 0))
    Ends c x m 0 (exec (.xred g ll ty op dv a n) s) (fun u =>
      Accessed true s u m ∧
      Began (m.at_ s u) (m.group u) m.lanes act ll { Pend.zero with
        vw := vWrites dv.toNat act (fun i => (w i).1)
        flags := (lanesOf (act &&& ~~~h.helper)).foldl (fun y i => y ||| (w i).2) 0 } ∧
      ∀ y, get 0 y (u.team m.team).scratch = get 0 y (s.team m.team).scratch))

/-- Loads complete at their issue once every active lane's check passes and no line is owned by an operation or absent (R259-R262,
R66, R100), with the bytes found outstanding, to be delivered (R207-R209), extended as the form says: of memory when the core holds no copy of the lines, of the share, of an
element or its `FILL` outside the bounds. `PREF` changes no value. -/
def Obligations.LoadsBegin : Prop :=
  ∀ (s : State) (c : Nat) (x : Issue) (m : Member), Sole s c x m →
  ∀ (g : Guard) (ll : Ll) (sz : Sz) (sx : Bool) (d : VReg) (mo : MemOp) (hd : SReg) (cr : Reg) (lvl : PrefLvl),
    d.toNat + sz.regs ≤ (m.group s).n → Reg.fits mo.base (m.group s).n → Reg.fits mo.index (m.group s).n →
    (∀ j, j < 3 → match cr with
      | .v r => r.toNat + j < (m.group s).n
      | .s _ => True) → m.canCount s g ll → m.canRequest s c g →
  let h := m.group s
  let b := m.agent s c
  let act := m.active s g
  let real := fun i => i < 64 ∧ (act &&& ~~~h.helper).getLsbD i = true
  let nb := szBytes sz
  let wb := wordBytes nb
  let va := h.memAddr mo
  let key := s.keyOf (s.ctxOf m.team)
  let fresh := fun (p : Spot) (n : Nat) => s.Fresh c (s.ctxOf m.team) p.cls p.addr n
  let delivers := fun (i : Instr) (p : Pend) (q : SMap Word → Prop) => Ends c x m 0 (exec i s) (fun u => Accessed false s u m ∧
    ∃ vw, Began (m.at_ s u) (m.group u) m.lanes act ll { p with vw := vw } ∧ q vw)
  ((∀ i, real i → s.memFault b .read true (va i) nb = none) →
    (let hs := s.hits b .read (maskOf (fun i => act.getLsbD i && (s.memFault b .read true (va i) nb).isNone)) va nb
    s.ownedHits b true hs = [] → delivers (.ld g ll sz sx d mo) Pend.access (fun vw =>
      vw = zeroFill d.toNat sz.regs act (State.loadHits b wb d.toNat (extend sx nb) s hs).1 ∧
      ((∀ q ∈ hs, fresh q.spot wb) → ∀ i k, real i → k < wordsOf nb →
        ∃ p, s.seek b .read (wordVa (va i) k) = .ok p ∧
          find ((d.toNat + k) * 64 + i) vw = some (extend sx nb (s.readKey key p.addr wb).1))))) ∧
  ((∀ i, real i → s.shareFault m.team true (va i) nb = none) →
    (let xs := s.slots m.team (maskOf (fun i => act.getLsbD i && (s.shareFault m.team true (va i) nb).isNone)) va nb
    s.absentLines (xs.map (fun y => (y.team, y.off, wb))) = none → delivers (.lds g ll sz sx d mo) Pend.zero (fun vw =>
      ∀ i k, real i → k < wordsOf nb → ∃ p, s.inShare m.team (va i) nb = some p ∧
        find ((d.toNat + k) * 64 + i) vw = some (extend sx nb (readN (s.team p.1).scratch (p.2 + 8 * k) wb))))) ∧
  (∀ r : BitVec 768, s.resolve (s.ctxOf m.team) (h.sreg hd.toNat) = some r → r.getLsbD 24 = true →
    let at_ := fun i => (h.coords cr i).take (recRank r)
    let out := fun w : Nat => if sx = true ∧ recEs r < 64 ∧ w / 2 ^ (recEs r - 1) % 2 = 1 then w + 2 ^ 64 - 2 ^ recEs r else w
    (∀ i, real i → s.elementFault b .read r (at_ i) = none) →
    (∀ i, i < 64 → act.getLsbD i = true → s.elementOwned b .read r (at_ i) = []) →
    sxBad sx r = false →
    delivers (.ldt g ll sx d hd cr) { Pend.access with uses := some (h.sreg hd.toNat) } (fun vw => ∀ i, real i →
      ((outOfBounds r (at_ i)).isSome = true →
        find (d.toNat * 64 + i) vw = some (BitVec.ofNat 64 (out (recFill r % 2 ^ recEs r)))) ∧
      (outOfBounds r (at_ i) = none → s.Current s c (s.ctxOf m.team) →
        (∀ j, j < 64 → act.getLsbD j = true → ∀ q ∈ elementPieces r (at_ j), ∀ p, s.seek b .read q.1 = .ok p → fresh p q.2) →
        find (d.toNat * 64 + i) vw = some (BitVec.ofNat 64 (out (s.elementLoad b r (at_ i)).1))))) ∧
  Ends c x m 0 (exec (.pref g lvl mo) s) (fun u =>
    Undisturbed s u m ∧ { u.team m.team with groups := [] } = { s.team m.team with groups := [] } ∧
    u = { s with batches := u.batches, fills := u.fills, frames := u.frames, frameOld := u.frameOld, cores := u.cores, teams := u.teams })

/-- Stores complete at their issue under the same conditions and store the registers' low bytes where the lanes' addresses translate to (R92,
R259-R261): in a context that is not recorded, and where no other key's line is written over, no other byte of memory changes,
and the bytes of hits apart from each other hold the data; a scratchpad store changes the bytes of its slots alone, and an
element's store the bytes of its pieces alone. -/
def Obligations.StoresBegin : Prop :=
  ∀ (s : State) (c : Nat) (x : Issue) (m : Member), Sole s c x m →
  ∀ (g : Guard) (ll : Ll) (sz : Sz) (d : Reg) (mo : MemOp) (hd : SReg) (cr : Reg),
    (∀ j, j < sz.regs → match d with
      | .v r => r.toNat + j < (m.group s).n
      | .s _ => True) → Reg.fits mo.base (m.group s).n → Reg.fits mo.index (m.group s).n →
    (∀ j, j < 3 → match cr with
      | .v r => r.toNat + j < (m.group s).n
      | .s _ => True) → m.canCount s g ll → m.canRequest s c g →
  let h := m.group s
  let b := m.agent s c
  let act := m.active s g
  let real := act &&& ~~~h.helper
  let nb := szBytes sz
  let wb := wordBytes nb
  let va := h.memAddr mo
  let plain := fun (p : Spot) (n : Nat) => s.Plain (s.ctxOf m.team) p.cls p.addr n
  let begins := fun (i : Instr) (share : Bool) (q : Pend) (p : State → Prop) => Ends c x m 0 (exec i s) (fun u =>
    Accessed share s u m ∧ Began (m.at_ s u) (m.group u) m.lanes act ll q ∧ p u)
  ((∀ i, i < 64 → real.getLsbD i = true → s.memFault b .write false (va i) nb = none) →
    (let hs := s.hits b .write real va nb
    s.ownedHits b false hs = [] → begins (.st g ll sz d mo) false Pend.access (fun u => (∀ q ∈ hs, plain q.spot wb) →
      (∀ a, (∀ q ∈ hs, a < q.spot.addr ∨ q.spot.addr + wb ≤ a) → get 0 a u.mem = get 0 a s.mem) ∧
      (hs.Pairwise (fun q r => q.spot.addr + wb ≤ r.spot.addr ∨ r.spot.addr + wb ≤ q.spot.addr) → ∀ q ∈ hs, ∀ j, j < wb →
        get 0 (q.spot.addr + j) u.mem = (h.runReg d q.k q.lane).extractLsb' (8 * j) 8)))) ∧
  ((∀ i, i < 64 → real.getLsbD i = true → s.shareFault m.team false (va i) nb = none) →
    (let xs := s.slots m.team real va nb
    s.absentLines (xs.map (fun y => (y.team, y.off, wb))) = none → begins (.sts g ll sz d mo) true Pend.zero (fun u =>
      (s.recording (s.ctxOf m.team) = false → u.mem = s.mem) ∧
      (∀ n a, (∀ q ∈ xs, q.team = n → a < q.off ∨ q.off + wb ≤ a) →
        get 0 a (u.team n).scratch = get 0 a (s.team n).scratch) ∧
      (xs.Pairwise (fun q r => q.team = r.team → q.off + wb ≤ r.off ∨ r.off + wb ≤ q.off) → ∀ q ∈ xs, ∀ j, j < wb →
        get 0 (q.off + j) (u.team q.team).scratch = (h.runReg d q.k q.lane).extractLsb' (8 * j) 8)))) ∧
  (∀ r : BitVec 768, s.resolve (s.ctxOf m.team) (h.sreg hd.toNat) = some r → r.getLsbD 25 = true →
    let at_ := fun i => (h.coords cr i).take (recRank r)
    let places := fun i (p : Spot × Nat) => outOfBounds r (at_ i) = none ∧
      ∃ q ∈ elementPieces r (at_ i), s.seek b .write q.1 = .ok p.1 ∧ p.2 = q.2
    (∀ i, i < 64 → real.getLsbD i = true →
      s.elementFault b .write r (at_ i) = none ∧ s.elementOwned b .write r (at_ i) = []) →
    begins (.stt g ll d hd cr) false { Pend.access with uses := some (h.sreg hd.toNat) } (fun u =>
      (∀ i p, i < 64 → real.getLsbD i = true → places i p → plain p.1 p.2) →
      (∀ a, (∀ i p, i < 64 → real.getLsbD i = true → places i p → a < p.1.addr ∨ p.1.addr + p.2 ≤ a) →
        get 0 a u.mem = get 0 a s.mem) ∧
      (∀ i p, (∀ j, j < 64 → (real.getLsbD j = true ↔ j = i)) → i < 64 → places i p → 8 ≤ recEs r →
        readN u.mem p.1.addr p.2 = (h.reg d i).toNat % 2 ^ recEs r)))

/-- Atomics complete at their issue under the same conditions, on pages and with scopes that R268 accepts, with the old words
outstanding, to be delivered; each word takes its new value (R92, R266-R268). -/
def Obligations.AtomicsBegin : Prop :=
  ∀ (s : State) (c : Nat) (x : Issue) (m : Member), Sole s c x m →
  ∀ (g : Guard) (ll : Ll) (op : AtomOp) (ty : Ty) (sc : Scope) (d : Option VReg) (a : Reg) (off : Option (BitVec 28)) (b : Reg),
    (∀ r, d = some r → r.toNat < (m.group s).n) → Reg.fits a (m.group s).n →
    (∀ j, j < 2 → match b with
      | .v r => r.toNat + j < (m.group s).n
      | .s _ => True) → m.canCount s g ll → m.canRequest s c g →
  let h := m.group s
  let e := m.agent s c
  let act := m.active s g
  let real := act &&& ~~~h.helper
  let nb := atomBytes ty
  let va := h.addrOff a off
  let next := fun op i old => atomNew op ty old (h.reg b i).toNat (h.runReg b 1 i).toNat % 2 ^ (8 * nb)
  let plain := fun (p : Spot) => s.Plain (s.ctxOf m.team) p.cls p.addr nb
  let begins := fun (i : Instr) (share : Bool) (q : Pend) (p : State → SMap Word → Prop) => Ends c x m 0 (exec i s) (fun u =>
    Accessed share s u m ∧ ∃ vw, Began (m.at_ s u) (m.group u) m.lanes act ll { q with vw := vw } ∧
    (d = none → vw = []) ∧ p u vw)
  let gives := fun vw i old => ∀ r, d = some r → find (r.toNat * 64 + i) vw = some (atomResult ty old)
  let memory := fun (i : Instr) (op : AtomOp) =>
    (∀ i, i < 64 → real.getLsbD i = true → s.atomFault e sc (va i) nb = none) →
    (let hs := s.hits e .write real va nb
    s.ownedHits e false hs = [] → begins i false Pend.access (fun u vw => (∀ q ∈ hs, plain q.spot) →
      (∀ a, (∀ q ∈ hs, a < q.spot.addr ∨ q.spot.addr + nb ≤ a) → get 0 a u.mem = get 0 a s.mem) ∧
      (hs.Pairwise (fun q r => q.spot.addr + nb ≤ r.spot.addr ∨ r.spot.addr + nb ≤ q.spot.addr) → ∀ q ∈ hs,
        gives vw q.lane (readN s.mem q.spot.addr nb) ∧
        readN u.mem q.spot.addr nb = next op q.lane (readN s.mem q.spot.addr nb))))
  memory (.atom g ll op ty sc d a off b) op ∧ memory (.atomc g ll ty sc d a off b) .cas ∧
  ((∀ i, i < 64 → real.getLsbD i = true → s.shareFault m.team true (va i) nb = none) →
    (let xs := s.slots m.team real va nb
    s.absentLines (xs.map (fun y => (y.team, y.off, nb))) = none → begins (.atoms g ll op ty d a off b) true Pend.zero (fun u vw =>
      (s.recording (s.ctxOf m.team) = false → u.mem = s.mem) ∧
      (∀ n a, (∀ q ∈ xs, q.team = n → a < q.off ∨ q.off + nb ≤ a) →
        get 0 a (u.team n).scratch = get 0 a (s.team n).scratch) ∧
      (xs.Pairwise (fun q r => q.team = r.team → q.off + nb ≤ r.off ∨ r.off + nb ≤ q.off) → ∀ q ∈ xs,
        gives vw q.lane (readN (s.team q.team).scratch q.off nb) ∧
        readN (u.team q.team).scratch q.off nb = next op q.lane (readN (s.team q.team).scratch q.off nb)))))

/-- `FENCE` of the device scope completes at once, the other scopes leave a fence outstanding (R107, R269). `WAITA` reads the
word of every active lane: a lane whose condition holds takes the word and goes on, the others are registered at their addresses
and block in lane state 7 (R270, R271). `WAKE` marks the waiters of its addresses woken, oldest first, and answers how many
(R271). -/
def Obligations.FencesWaitsAndWakesComplete : Prop :=
  ∀ (s : State) (c : Nat) (x : Issue) (m : Member), Sole s c x m →
  ∀ (g : Guard) (sc : Scope) (cc : Cc) (ty : Ty) (d : VReg) (dst : Option VReg) (a : Reg) (off : WOff) (b : Reg),
    d.toNat < (m.group s).n → Reg.fits a (m.group s).n → Reg.fits b (m.group s).n → dst = none ∨ dst = some d →
  let h := m.group s
  let e := m.agent s c
  let k := s.ctxOf m.team
  let act := m.active s g
  let va := h.keyVa a off
  let word := fun i => match s.seek e .read (va i) with
    | .ok p => BitVec.ofNat 64 (s.readKey (s.keyOf k) p.addr 8).1
    | .error _ => 0
  let rest := maskOf (fun i => act.getLsbD i && !waitHolds cc ty (word i) (h.reg b i))
  Does s c x m (exec (.fence g sc) s) (fun h G => G = { h with
    fences := if sc = .dev ∨ act = 0 then h.fences else put (freeKey h.fences) (act, sc) h.fences, pend := G.pend } ∧
    SamePends h G) ∧
  ((∀ i, i < 64 → act.getLsbD i = true → s.keyFault e true (va i) = none) →
    s.ownedHome e .read ((lanesOf act).map va) = [] → s.recording k = false → s.Current s c k →
    Ends c x m rest (exec (.waita g cc ty dst a off b) s) (fun u =>
      let G := m.group u
      Accessed false { s with regs := u.regs } u m ∧ SamePends h G ∧
      G = { m.at_ s u with v := G.v, pc := G.pc, st := G.st, wait := G.wait, hdr := G.hdr, pend := G.pend, ordinal := G.ordinal } ∧
      (∀ i, i < 64 → rest.getLsbD i = true → G.lanePc i = x.pc ∧ G.state i = 7 ∧ find i G.hdr = some (x.hdr, x.bodyw) ∧
        find i G.wait = some (.word cc ty (h.reg b i) dst (va i)) ∧
        ∃ r ∈ u.regs, r.ctx = k ∧ r.key = signVa (va i) ∧ ∃ ls, r.who = .lanes m.team m.grp ls ∧ ls.getLsbD i = true) ∧
      (∀ i, i < 64 → rest.getLsbD i = false → G.lanePc i = h.lanePc i ∧ G.state i = h.state i) ∧
      (∀ r i, i < 64 → G.vreg r i =
        if dst = some d ∧ r = d.toNat ∧ act.getLsbD i = true ∧ rest.getLsbD i = false then word i else h.vreg r i))) ∧
  ((∀ i, i < 64 → (act &&& ~~~h.helper).getLsbD i = true → s.keyFault e false (va i) = none) →
    (∀ r ∈ s.regs, r.retry = false ∧ ∃ t n ls, r.who = .lanes t n ls) →
    Ends c x m 0 (exec (.wake g dst a off b) s) (fun u =>
      Undisturbed { s with regs := u.regs } (u.onGroup m.team m.grp (fun G => { G with v := h.v })) m ∧
      u = { s with regs := u.regs, cores := u.cores, teams := u.teams } ∧
      ∀ i, (∀ j, j < 64 → ((act &&& ~~~h.helper).getLsbD j = true ↔ j = i)) → i < 64 →
        let hit := fun r : Reg_ => r.ctx == k && r.key == signVa (va i) && !r.woken
        let n := if h.reg b i = 0 then (s.regs.filter hit).length
          else min (h.reg b i).toNat (s.regs.filter hit).length
        (dst = some d → (m.group u).vreg d.toNat i = BitVec.ofNat 64 n) ∧
        u.regs.length = s.regs.length ∧
        ∀ (j : Nat) (r : Reg_), s.regs[j]? = some r → u.regs[j]? = some ({ r with
          woken := r.woken || (hit r && decide (((s.regs.take j).filter hit).length < n)) } : Reg_)))

/-- `CP` and `CPW` complete at their issue once the checks of R264 pass: the copy is queued on the core with its form, place and rows, its
instruction outstanding; a copy into the share outside shelf mode makes the lines that it will write absent (R65, R263, R264).
No byte of memory or of a share, and no register, has changed yet. -/
def Obligations.CopiesBegin : Prop :=
  ∀ (s : State) (c : Nat) (x : Issue) (m : Member), Sole s c x m →
  ∀ (g : Guard) (ll : Ll) (out : Bool) (sh : Option (BitVec 4)) (d a n : SReg), m.canCount s g ll →
  let h := m.group s
  let act := m.active s g
  let e := s.env c x m g
  let begins := fun (i : Instr) (w : CopyOp) => s.copyCheck e h w d = none →
    Ends c x m 0 (exec i s) (fun u =>
      (u.mem = s.mem ∧ (∀ k, (u.team k).scratch = (s.team k).scratch) ∧
        ∀ k j, { u.group k j with gts := 0, pend := [], d := [], ordinal := 0 } =
          { s.group k j with gts := 0, pend := [], d := [], ordinal := 0 }) ∧
      (act = 0 → u.ops = s.ops) ∧
      (act ≠ 0 → ∃ id o p q, find id s.ops = none ∧ find id u.ops = some o ∧ (∀ j, j ≠ id → find j u.ops = find j s.ops) ∧
        o.team = m.team ∧ o.grp = m.grp ∧ o.core = c ∧ o.token = x.pc ∧ o.pend = some p ∧ o.begun = false ∧ o.park = none ∧
        o.body = .copy { w with
          clears := if w.out || w.shelf.isSome then [] else w.linesFrom 0, stamp := s.fresh } ∧
        (w.out = false → o.need = [] ∧ o.own = [] ∧ o.e = none) ∧
        find p h.pend = none ∧ find p (m.group u).pend = some q ∧ q.lanes = act ∧ q.ready = false ∧
        q.dc = ll.dc ∧ q.la = ll.la.toNat ∧
        (∀ l, w.out = false → w.shelf = none → l ∈ w.linesFrom 0 → (u.team m.team).present l = false)))
  (∀ r : BitVec 768, s.resolve (s.ctxOf m.team) (h.sreg a.toNat) = some r → r.getLsbD 26 = true →
    begins (.cp g ll out sh d a n)
      { form := (if out then 1 else 0) + (if sh.isSome then 2 else 0), handle := h.sreg a.toNat, record := r,
        org := h.coords (.s n) 0,
        share := if sh.isSome then 0 else ((h.sreg d.toNat).extractLsb' 0 32).toNat, mem := 0, count := 0, row := 0,
        rows := winRows r, shelf := sh.map (·.toNat), slot := none, clears := [], stamp := 0, time := 0 }) ∧
  begins (.cpw g ll out sh d a n)
    { form := if out then 5 else 4, handle := 0, record := 0, org := [],
      share := if sh.isSome then 0 else ((h.sreg d.toNat).extractLsb' 0 32).toNat, mem := (h.sreg a.toNat).toNat,
      count := (h.sreg n.toNat).toNat, row := 0, rows := (h.sreg n.toNat).toNat / 256, shelf := sh.map (·.toNat),
      slot := none, clears := [], stamp := 0, time := 0 }

/-- The near-memory commands complete at their issue once their ranges pass the checks of R273 and R274: `MFILL` writes the pattern in every word,
`MCOPY` the words of the source, `MRED` the one element that R252 makes of the source's, and no other byte changes; `MCMP` will
answer the offset of the first differing byte, or all ones. -/
def Obligations.NearMemoryCommandsBegin : Prop :=
  ∀ (s : State) (c : Nat) (x : Issue) (m : Member), Sole s c x m →
  ∀ (g : Guard) (ll : Ll) (op : RedOp) (ty : Ty) (d a b : SReg), m.canCount s g ll →
  let h := m.group s
  let e := m.agent s c
  let act := m.active s g
  let r := fun k => h.sreg k
  let k := s.ctxOf m.team
  let count := fun (w : Word) => w.toNat % 8 = 0 ∧ 8 ≤ w.toNat ∧ w.toNat ≤ 2 ^ 40
  let free := fun (xs : List Span) => s.spanClass e xs = false ∧ s.spanFault e xs = none ∧ s.spanHeld e xs = []
  let at_ := fun (use : Use) (vas : List Word) (n : Nat) => s.placesOf e use vas n
  let begins := fun (i : Instr) (sw : SMap Word) (p : State → Prop) => Ends c x m 0 (exec i s) (fun u =>
    Accessed false s u m ∧ Began (m.at_ s u) (m.group u) m.lanes act ll { Pend.zero with sw := sw } ∧ p u)
  let only := fun (u : State) (xs : List (Nat × Nat × Nat)) =>
    ∀ y, (∀ p ∈ xs, y < p.2.1 ∨ p.2.1 + p.2.2 ≤ y) → get 0 y u.mem = get 0 y s.mem
  let apart := fun (xs : List (Nat × Nat × Nat)) =>
    s.recording k = false ∧ (∀ p ∈ xs, s.Plain k p.1 p.2.1 p.2.2) ∧
    xs.Pairwise (fun p q => p.2.1 + p.2.2 ≤ q.2.1 ∨ q.2.1 + q.2.2 ≤ p.2.1)
  let reads := fun (xs : List (Nat × Nat × Nat)) => xs.map (fun p => (s.readKey (s.keyOf k) p.2.1 p.2.2).1)
  let unowned := fun (into : List (Nat × Nat × Nat)) => ∀ p ∈ into, s.owned (lineNo p.2.1) = false
  let engages := fun (i : Instr) (op : NearOp) => Ends c x m 0 (exec i s) (fun u =>
    Engaged s u c x m true (.near op) ∧ u.mem = s.mem)
  let eb := ty.width / 8
  act ≠ 0 →
  ((r d.toNat).toNat % 8 = 0 → count (r b.toNat) →
    (let sp : List Span := [⟨.write, r d.toNat, (r b.toNat).toNat⟩]
    let into := at_ .write (unitsOf 8 (r d.toNat) (r b.toNat).toNat) 8
    free sp →
      (unowned into → begins (.mfill g ll d b) [] (fun u => apart into →
        only u into ∧ ∀ p ∈ into, readN u.mem p.2.1 8 = (r (b.toNat + 1)).toNat)) ∧
      (¬unowned into → (∀ p ∈ into, ordered p.1 = true) → engages (.mfill g ll d b)
        { into := into, vals := into.map (fun _ => (r (b.toNat + 1)).toNat), src := [] }))) ∧
  ((r d.toNat).toNat % 8 = 0 → (r a.toNat).toNat % 8 = 0 → count (r b.toNat) →
    overlap (r d.toNat) (r a.toNat) (r b.toNat).toNat = false →
    (let sp : List Span := [⟨.write, r d.toNat, (r b.toNat).toNat⟩, ⟨.read, r a.toNat, (r b.toNat).toNat⟩]
    let into := at_ .write (unitsOf 8 (r d.toNat) (r b.toNat).toNat) 8
    let from_ := at_ .read (unitsOf 8 (r a.toNat) (r b.toNat).toNat) 8
    free sp →
      (unowned into → unowned from_ → begins (.mcopy g ll d a b) [] (fun u => apart into →
        (∀ q ∈ from_, q.1 ≠ 5) → only u into ∧
        ∀ y ∈ into.zip (reads from_), readN u.mem y.1.2.1 8 = y.2)) ∧
      (¬unowned into → (∀ p ∈ into, ordered p.1 = true) → engages (.mcopy g ll d a b) { into := into, vals := [], src := from_ }))) ∧
  ((r a.toNat).toNat % 8 = 0 → (r b.toNat).toNat % 8 = 0 → count (r (b.toNat + 1)) →
    (let n := (r (b.toNat + 1)).toNat
    let sp : List Span := [⟨.read, r a.toNat, n⟩, ⟨.read, r b.toNat, n⟩]
    let lines := sp.flatMap (fun y => s.placesOf e .read y.lines 64)
    let xs := at_ .read (unitsOf 8 (r a.toNat) n) 8
    let ys := at_ .read (unitsOf 8 (r b.toNat) n) 8
    let p := reads xs
    let q := reads ys
    let byte := fun (l : List Nat) (k : Nat) => l.getD (k / 8) 0 / 256 ^ (k % 8) % 256
    free sp → s.srcWaits e lines = [] → (∀ y ∈ lines, s.poisoned (s.keyOf k) (lineNo y.2.1) = false) →
    (∀ y ∈ xs ++ ys, y.1 ≠ 5) → s.recording k = false → p.length = n / 8 → q.length = n / 8 →
    ∃ y, begins (.mcmp g ll d a b) [(d.toNat, y)] (fun u => u.mem = s.mem) ∧
      ((∀ k, k < n → byte p k = byte q k) → y = BitVec.allOnes 64) ∧
      ∀ k, k < n → byte p k ≠ byte q k → (∀ j, j < k → byte p j = byte q j) → y = BitVec.ofNat 64 k)) ∧
  ((r d.toNat).toNat % eb = 0 → (r a.toNat).toNat % eb = 0 → r b.toNat ≠ 0 → (r b.toNat).toNat < 2 ^ 32 →
    (let sp : List Span := [⟨.write, r d.toNat, eb⟩, ⟨.read, r a.toNat, eb * (r b.toNat).toNat⟩]
    let lines := s.placesOf e .read (unitsOf 64 (r a.toNat) (eb * (r b.toNat).toNat)) 64
    let from_ := at_ .read (unitsOf eb (r a.toNat) (eb * (r b.toNat).toNat)) eb
    free sp → s.srcWaits e lines = [] → (∀ y ∈ lines, s.poisoned (s.keyOf k) (lineNo y.2.1) = false) →
    (∀ y ∈ from_, y.1 ≠ 5) → s.recording k = false →
    let into := at_ .write [r d.toNat] eb
    unowned into → begins (.mred g ll op ty d a b) [] (fun u => apart into →
      only u into ∧ ∀ p ∈ into, readN u.mem p.2.1 eb = (redElems op ty (reads from_)).1 % 2 ^ (8 * eb))))

/-- `LRBIND` binds a record that it reads and finds without defect, and will answer its handle, which then names the record, or
all ones when no entry is free; `LRFREE` frees the entry of a valid handle, which names nothing any more; `LRQRY` will answer a
word of the record (R83, R275). -/
def Obligations.BindingTableInstructionsBegin : Prop :=
  ∀ (s : State) (c : Nat) (x : Issue) (m : Member), Sole s c x m →
  ∀ (g : Guard) (ll : Ll) (d a : SReg) (w : BitVec 6), m.canCount s g ll →
  let h := m.group s
  let e := m.agent s c
  let act := m.active s g
  let k := s.ctxOf m.team
  let v := h.sreg a.toNat
  let begins := fun (i : Instr) (p : Pend) (q : State → Prop) => Ends c x m 0 (exec i s) (fun u =>
    Accessed false s u m ∧ Began (m.at_ s u) (m.group u) m.lanes act ll p ∧ q u)
  act ≠ 0 → (s.ctx k).bindt.toNat % 128 = 0 →
  (∀ ws t, v.toNat % 32 = 0 → State.readWords e s v 12 = .ok (ws, t) → t.mem = s.mem → s.wordsOwned e v 12 = [] →
    recDefect (BitVec.ofNat 768 (joinWords ws)) = none → s.recording k = false →
    ((∀ i, i < 4096 → s.bindFree k i = false) →
      begins (.lrbind g ll d a) { Pend.zero with sw := [(d.toNat, BitVec.allOnes 64)] } (fun u => u.mem = s.mem)) ∧
    (∀ i, i < 4096 → s.bindFree k i = true → (∀ j, j < i → s.bindFree k j = false) →
      let y := handleOf i (s.bindGen k i)
      begins (.lrbind g ll d a) { Pend.zero with sw := [(d.toNat, y)] } (fun u =>
        u.resolve k y = some (BitVec.ofNat 768 (joinWords ws))))) ∧
  (∀ r : BitVec 768, s.resolve k v = some r →
    begins (.lrfree g ll a) { Pend.zero with frees := some v } (fun u => u.resolve k v = none) ∧
    begins (.lrqry g ll d a w) { Pend.zero with sw := [(d.toNat, r.extractLsb' (64 * w.toNat) 64)], uses := some v }
      (fun u => u.mem = s.mem))

/-- Shelves are configured, and acquires, takes, commits and releases complete as R70-R72, R276 and R277 say: one that can fire
at once moves its pointer and, for an acquire or a take, answers the first slot's offset and index; one that cannot waits in
lane state 6. `PRWAIT` goes on in the lanes whose lines are present and blocks the others in lane state 8 (R278). -/
def Obligations.ShelvesComplete : Prop :=
  ∀ (s : State) (c : Nat) (x : Issue) (m : Member), Sole s c x m →
  ∀ (g : Guard) (d a : SReg) (k : BitVec 4) (n : BitVec 7) (p q : Reg) (off : Option W32),
    Reg.fits p (m.group s).n → Reg.fits q (m.group s).n →
  let h := m.group s
  let act := m.active s g
  let t := s.team m.team
  let f := t.shelf k.toNat
  let y := h.sreg a.toNat
  let shelf := fun (u : State) (F : Shelf) =>
    { u.team m.team with groups := [], h := [] } = { t with groups := [], h := [] } ∧
    u = { s with cores := u.cores, teams := u.teams } ∧ (u.team m.team).shelf k.toNat = F ∧
    ∀ j, j ≠ k.toNat → (u.team m.team).shelf j = t.shelf j
  let sets := fun (i : Instr) (F : Shelf) => Ends c x m 0 (exec i s) (fun u =>
    Undisturbed s u m ∧ shelf u (if act = 0 then f else F))
  let slot := fun (j : Nat) => BitVec.ofNat 64 (f.slotAt j + j * 2 ^ 32)
  let fires := fun (i : Instr) (j : Nat) (F : Shelf) (time : Nat) => Ends c x m 0 (exec i s) (fun u =>
    shelf u F ∧ SamePends h (m.group u) ∧
    m.group u = { h with s := (m.group u).s, pend := (m.group u).pend, gts := max h.gts time } ∧
    (∀ r, (m.group u).sreg r = if r = d.toNat ∧ r ≠ 0 ∧ r ≠ 2 then slot j else h.sreg r) ∧
    ∀ r j, ¬(r = m.team ∧ j = m.grp) → u.group r j = s.group r j)
  let waits := fun (i : Instr) (take : Bool) => Ends c x m act (exec i s) (fun u =>
    shelf u { f with wants := f.wants ++
      [{ ticket := f.place, take := take, count := n.toNat, who := .group m.grp, d := d, lanes := act }] } ∧
    SamePends h (m.group u) ∧
    Stood h (m.group u) act 6 x.pc (x.hdr, x.bodyw) (fun _ => some (.shelf k.toNat f.place)))
  let va := fun i => h.reg p i + (match off with
    | some o => o.signExtend 64
    | none => 0)
  let lacks := fun i => ∃ r, s.ownRange m.team (va i) (h.reg q i) = some r ∧
    ∃ l ∈ shareLines r.1 r.2, t.present l = false
  let held := maskOf (fun i => act.getLsbD i && (match s.ownRange m.team (va i) (h.reg q i) with
    | some r => (shareLines r.1 r.2).any (fun l => !t.present l)
    | none => false))
  (f.wants = [] → f.dues = [] →
    (t.badShelf k.toNat y = false → sets (.shcfg g k a) { Shelf.off with
      base := (y.extractLsb' 0 13).toNat, slotl := (y.extractLsb' 16 8).toNat, nslot := (y.extractLsb' 24 6).toNat + 1,
      cfg := true, times := f.times }) ∧
    sets (.shcfgOff g k) { f with cfg := false }) ∧
  (act ≠ 0 → f.cfg = true → n.toNat ≤ f.nslot →
    (f.wants = [] → f.dues = [] →
      (n.toNat ≤ f.room → fires (.shacq g d k n) f.acq.1 { f with acq := f.advN f.acq n.toNat } 0) ∧
      (n.toNat ≤ f.full → fires (.shwait g d k n) f.tak.1 { f with tak := f.advN f.tak n.toNat } (f.timeOf f.tak.1 n.toNat))) ∧
    (f.room < n.toNat → waits (.shacq g d k n) false) ∧ (f.full < n.toNat → waits (.shwait g d k n) true)) ∧
  (f.cfg = true → f.dues = [] →
    (n.toNat ≤ f.dist f.acq f.com → s.plainCopies m.team m.grp (some false) = [] →
      sets (.shcom g k n) (f.commit h.gts n.toNat)) ∧
    (n.toNat ≤ f.dist f.tak f.rel → s.plainCopies m.team m.grp (some true) = [] →
      sets (.shrel g k n) { f with rel := f.advN f.rel n.toNat })) ∧
  ((∀ i, i < 64 → act.getLsbD i = true → (s.ownRange m.team (va i) (h.reg q i)).isSome = true) →
    Leaves s c x m held (exec (.prwait g p q off) s) (fun h G =>
      G = { h with pc := G.pc, st := G.st, wait := G.wait, hdr := G.hdr, pend := G.pend } ∧ SamePends h G ∧
      ∀ i, i < 64 → (held.getLsbD i = true ↔ act.getLsbD i = true ∧ lacks i) ∧
        (held.getLsbD i = true → G.lanePc i = x.pc ∧ G.state i = 8 ∧ find i G.hdr = some (x.hdr, x.bodyw))))

/-- `MSTART` starts an idle sequencer at a legal header, its instruction outstanding (R280); `MSTOP` ends a stream between
instructions or while it waits, and marks one in progress to stop (R281); `TBIND` binds a map that passes R76 and `TQRY` reads
one (R289). -/
def Obligations.MatrixControlCompletes : Prop :=
  ∀ (s : State) (c : Nat) (x : Issue) (m : Member), Sole s c x m →
  ∀ (g : Guard) (ll : Ll) (y : MSrc) (k : BitVec 4) (d a : SReg) (w : BitVec 2), m.canCount s g ll →
  let h := m.group s
  let act := m.active s g
  let t := s.team m.team
  let q := t.seq
  let to_ := match y with
    | .addr r => h.sreg r.toNat
    | .rel off => x.hdr + (off.signExtend 64 <<< 3)
  let image : BitVec 256 := h.sreg (a.toNat + 3) ++ h.sreg (a.toNat + 2) ++ h.sreg (a.toNat + 1) ++ h.sreg a.toNat
  act ≠ 0 →
  (to_.extractLsb' 0 3 = 0 → canonicalVa to_ = true → q.st = .idle →
    Ends c x m 0 (exec (.mstart g ll y) s) (fun u => ∃ p z,
      u = { s with cores := u.cores, teams := u.teams } ∧ find p h.pend = none ∧ find p (m.group u).pend = some z ∧
      z.lanes = act ∧ z.ready = false ∧ z.dc = ll.dc ∧ z.la = ll.la.toNat ∧
      { u.team m.team with groups := [] } = { t with groups := [], seq := { Seq.idle with
        st := .running, at_ := to_, start := to_, hdr := to_, grp := m.grp, pend := some p, level := h.level,
        ord := h.ordinal + 1, token := x.pc } } ∧
      m.group u = { h with d := (m.group u).d, pend := (m.group u).pend, ordinal := h.ordinal + 1 })) ∧
  (q.st = .idle → Does s c x m (exec (.mstop g) s) (fun h G => G = { h with pend := G.pend } ∧ SamePends h G)) ∧
  (q.st = .running → q.begun = true → Ends c x m 0 (exec (.mstop g) s) (fun u => Undisturbed s u m ∧
    { u.team m.team with groups := [] } = { t with groups := [], seq := { q with stop := true } })) ∧
  ((q.st = .running ∧ q.begun = false) ∨ q.st = .atBarrier ∨ q.st = .atShelf ∨ q.st = .parked → q.held = false →
    Ends c x m 0 (exec (.mstop g) s) (fun u => (u.team m.team).seq = Seq.idle ∧
      (∀ p z, q.pend = some p → find p (u.group m.team q.grp).pend = some z → z.ready = true) ∧
      (∀ k f, (u.team m.team).shelf k = f → ∀ v ∈ f.wants, v.who ≠ .seq) ∧
      (∀ o, q.op = some o → find o u.ops = none))) ∧
  (q.maps.contains k.toNat = false → tmapDefect t.size image = none → Ends c x m 0 (exec (.tbind g k a) s) (fun u =>
    Undisturbed s u m ∧ u = { s with cores := u.cores, teams := u.teams } ∧
    { u.team m.team with groups := [], t := [] } = { t with groups := [], t := [] } ∧
    ∀ n, get 0 n (u.team m.team).t = if n = k.toNat then image ||| BitVec.ofNat 256 (2 ^ 63) else get 0 n t.t)) ∧
  DoesS s c x m g (exec (.tqry g d k w) s) d ((get 0 k.toNat t.t).extractLsb' (64 * w.toNat) 64)

/-- The control instructions of a matrix stream complete (R286, R287): shelf claims and finishes move their pointers or wait,
barrier arrivals count, `MLOOP` opens a loop level at the next header, and `MEND` repeats the body, closes the level or ends the
stream. -/
def Obligations.MatrixStreamControlCompletes : Prop :=
  ∀ (s : State) (t : Nat), s.turn = .seq t → (find t s.teams).isSome = true →
  let tm := s.team t
  let q := tm.seq
  q.st = .running → q.begun = false → q.held = false → q.op = none → q.stop = false →
  (find q.grp tm.groups).isSome = true →
  ∀ (k : BitVec 4) (n : BitVec 7) (b : BitVec 4) (w : BitVec 10) (z : Imm),
  let f := tm.shelf k.toNat
  let y := tm.bar b.toNat
  let pts := (s.group t q.grp).gts
  let fresh := { q with read := false, cursor := 0, amax := 0, fmtA := 0, fmtB := 0, maps := [], bound := 128 }
  let done := fun (i : Instr) (p : Seq → Prop) (r : State → Prop) => ∃ u, exec i s = .next u ∧
    u = { s with cores := u.cores, teams := u.teams } ∧ (∀ j, j ≠ t → u.team j = s.team j) ∧ p (u.team t).seq ∧ r u
  let shelf := fun (u : State) (F : Shelf) => (u.team t).shelf k.toNat = F ∧
    ∀ j, j ≠ k.toNat → (u.team t).shelf j = tm.shelf j
  (f.cfg = true → n.toNat ≤ f.nslot → f.wants = [] → f.dues = [] →
    (n.toNat ≤ f.full → done (.mshrTake k n) (· = fresh.step) (fun u =>
      shelf u { f with tak := f.advN f.tak n.toNat } ∧ (u.group t q.grp).gts = max pts (f.timeOf f.tak.1 n.toNat))) ∧
    (f.full < n.toNat → done (.mshrTake k n) (fun v => v.st = .atShelf ∧ v.at_ = q.at_ ∧ v.pos = q.pos) (fun u =>
      shelf u { f with wants := [{ ticket := f.place, take := true, count := n.toNat, who := .seq, d := 0, lanes := 0 }] })) ∧
    (n.toNat ≤ f.room → done (.mshwAcq k n) (· = fresh.step) (fun u =>
      shelf u { f with acq := f.advN f.acq n.toNat })) ∧
    (f.room < n.toNat → done (.mshwAcq k n) (fun v => v.st = .atShelf ∧ v.at_ = q.at_ ∧ v.pos = q.pos) (fun u =>
      shelf u { f with wants := [{ ticket := f.place, take := false, count := n.toNat, who := .seq, d := 0, lanes := 0 }] })) ∧
    (n.toNat ≤ f.dist f.tak f.rel → done (.mshrRel k n) (· = fresh.step) (fun u =>
      shelf u { f with rel := f.advN f.rel n.toNat })) ∧
    (n.toNat ≤ f.dist f.acq f.com → done (.mshwCom k n) (· = fresh.step) (fun u =>
      shelf u (f.commitAt ((List.range n.toNat).map (fun i =>
        (f.slotLines (f.advN f.com i).1).foldl (fun w l => max w (get 0 l tm.wrote)) 0)))))) ∧
  (y.count = 0 ∨ y.expect = w.toNat →
    (let want := if y.count = 0 then w.toNat else y.expect
    let bar : Bar := ⟨if y.count + 1 = want then 0 else y.count + 1, want,
      if y.count + 1 = want then !y.phase else y.phase, max y.time pts⟩
    done (.mbarArv b w) (· = fresh.step) (fun u => (u.team t).bar b.toNat = bar) ∧
    (y.count + 1 = want → done (.mbarSync b w) (· = fresh.step) (fun u => (u.team t).bar b.toNat = bar ∧
      (u.group t q.grp).gts ≥ max y.time pts)) ∧
    (y.count + 1 ≠ want → done (.mbarSync b w) (fun v => v.st = .atBarrier ∧ v.barrier = b.toNat ∧ v.phase = y.phase)
      (fun u => (u.team t).bar b.toNat = bar)))) ∧
  (q.loops.length < 4 → (q.next - q.start).toNat < 2 ^ 32 → done (.mloop z)
    (· = { fresh.goTo q.next with loops := (loopCount z, (q.next - q.start).toNat) :: q.loops }) (fun _ => True)) ∧
  (∀ left off ls, q.loops = (left, off) :: ls →
    (1 < left → done .mend (· = { fresh.goTo (q.start + BitVec.ofNat 64 off) with loops := (left - 1, off) :: ls })
      (fun _ => True)) ∧
    (left ≤ 1 → done .mend (· = { fresh.goTo q.next with loops := ls }) (fun _ => True))) ∧
  (q.loops = [] → done .mend (· = Seq.idle) (fun u => ∀ p z, q.pend = some p →
    find p (u.group t q.grp).pend = some z → z.ready = true))

/-- The data instructions of a matrix stream complete, one step of their cursor at a time, from their beginning or in progress
(R284, R285, R195): `MMA` adds one block of sixteen products to every element of its tile (R129), `MLOAD` loads and `MDRAIN`
converts and stores one row, to the share or to memory, and `MZERO` clears its tile at once. With its last step the instruction
is done, what it owned is given up, and the stream goes on behind it (R282). -/
def Obligations.MatrixStreamDataAdvances : Prop :=
  ∀ (s : State) (t : Nat), s.turn = .seq t → (find t s.teams).isSome = true →
  let tm := s.team t
  let q := tm.seq
  q.st = .running → q.held = false → q.stop = false → (find q.grp tm.groups).isSome = true →
  ∀ (d : BitVec 5) (a b : MapOp) (k : MmaKind) (sat : Bool) (off : BitVec 21),
  let ag := s.seqAgent t
  let map := fun (o : MapOp) => tmapOf (get 0 o.map.toNat tm.t)
  let over_ := fun (v : Seq) => ({ v with
    begun := false, read := false, cursor := 0, amax := 0, fmtA := 0, fmtB := 0, maps := [], bound := 128, op := none } : Seq).step
  let after := fun (v : Seq) (n : Nat) => if v.cursor + 1 < n then { v with cursor := v.cursor + 1 } else over_ v
  let words := fun (u : State) (f : Nat → Nat → Nat → W32) => ∀ e y n, y < 128 → n < 128 → (u.team t).word e y n = f e y n
  let clean := fun (row rows : Nat) => tm.badRows d.toNat row rows = false
  d.toNat < tm.ntiles →
  (q.op = none →
    (∃ u, exec (.mzero d) s = .next u ∧ (u.team t).seq = over_ q ∧
      words u (fun e y n => if e = d.toNat then 0 else tm.word e y n)) ∧
    (∀ v, (if q.begun = true then v = q else s.mmaBegin tm k d a b = .ok v) → clean 0 128 →
      let runs := fun (z : TMap) (sl : Nat) => (List.range 128).flatMap (z.blockRuns sl v.cursor) ++ z.blockScales sl v.cursor
      tm.readable (runs (map a) v.slotA ++ runs (map b) v.slotB) = .yes →
      let l := s.readBlock ag (map a) v.slotA v.cursor
      let r := s.readBlock ag (map b) v.slotB v.cursor
      ∃ u, exec (.mma k d a b) s = .next u ∧ (u.team t).seq = after v (mmaK k / 16) ∧
        (u.team t).scratch = tm.scratch ∧ words u (fun e y n => if e = d.toNat then
          mmaElem k v.fmtA v.fmtB (tm.word e y n) (l.1.getD y []) (r.1.getD n []) (l.2.1.getD y none) (r.2.1.getD n none)
          else tm.word e y n)) ∧
    (∀ v, (if q.begun = true then v = q else tm.mloadBegin d a = .ok v) →
      let rs := (map a).runs v.slotA v.cursor 0 512
      tm.readable rs = .yes → ∃ u, exec (.mload d a) s = .next u ∧ (u.team t).seq = after v 128 ∧
        (u.team t).scratch = tm.scratch ∧ words u (fun e y n => if e = d.toNat ∧ y = v.cursor then
          BitVec.ofNat 32 ((s.readRuns ag rs).1 / 2 ^ (32 * n)) else tm.word e y n)) ∧
    (∀ sl v, let dr : Drain := { mem := false, sat := sat, amax := false, desc := none, tile := d.toNat, map := some a }
      (if q.begun = true then v = q ∧ sl = q.slotA else tm.drainMap dr = .ok sl ∧ tm.drainBegin dr sl = .ok v) →
      clean v.cursor 1 → (map a).scen = false →
      let z := map a
      let rs := z.runs sl v.cursor 0 (16 * efmtBits z.efmt)
      (∀ r ∈ rs, ∀ l ∈ shareLines r.1 r.2, tm.present l = true) →
      let row := joinBits (efmtBits z.efmt) ((List.range 128).map (fun n =>
        drainElem z.efmt sat v.fmtA none (tm.word d.toNat v.cursor n)))
      ∃ u, exec (.mdrain sat none d a) s = .next u ∧
        (v.cursor < 127 → (u.team t).seq = { v with cursor := v.cursor + 1, amax := (u.team t).seq.amax }) ∧
        (127 ≤ v.cursor → (u.team t).seq = over_ v) ∧
        (u.team t).scratch = ((s.writeRuns ag rs row).team t).scratch ∧ words u (fun e y n => tm.word e y n)) ∧
    (∀ v, q.begun = false → off.toNat % 32 = 0 → off.toNat + 32 ≤ tm.size → tm.readable [(off.toNat, 32)] = .yes →
      s.recording tm.ctx = false →
      let desc := BitVec.ofNat 256 (readN tm.scratch off.toNat 32)
      let dr : Drain := { mem := true, sat := sat, amax := false, desc := some off.toNat, tile := d.toNat, map := none }
      ({ tm with seq := { q with desc := desc } } : Team).drainBegin dr 0 = .ok v → v.cursor < 127 → clean v.cursor 1 →
      (∀ l ∈ s.drainLines ag dr desc v.cursor, s.owned l = false) →
      (∀ va ∈ drainAddrs desc v.cursor, ∃ p, s.reach ag .write va = .ok p) →
      ∃ u, exec (.mdrainMem sat false off d) s = .next u ∧ (u.team t).seq.cursor = v.cursor + 1 ∧
        (u.team t).seq.desc = desc ∧ (u.team t).seq.op.isSome = true ∧ (u.team t).scratch = tm.scratch ∧
        words u (fun e y n => tm.word e y n))) ∧
  (∀ o x, q.op = some o → find o s.ops = some x → x.e.isSome = true → q.begun = true → clean q.cursor 1 →
    s.recording tm.ctx = false → s.Current s ag.core tm.ctx →
    let vas := drainAddrs q.desc q.cursor
    let place := fun (va : Word) (y : Nat) => ∃ p, s.seek ag .write va = .ok p ∧ p.addr = y
    s.obstacle ag .write vas = none → (∀ l ∈ s.memLines ag .write vas, l ∈ x.own) →
    ∃ u, exec (.mdrainMem sat false off d) s = .next u ∧ (u.team t).scratch = tm.scratch ∧ words u (fun e y n => tm.word e y n) ∧
      (q.cursor < 127 → (u.team t).seq = { q with cursor := q.cursor + 1, amax := (u.team t).seq.amax }) ∧
      (127 ≤ q.cursor → (u.team t).seq = over_ q ∧ find o u.ops = none) ∧
      ((∀ va ∈ vas, ∀ p, s.seek ag .write va = .ok p → s.Plain tm.ctx p.cls p.addr 8) →
        (∀ va ∈ vas, ∀ wa ∈ vas, ∀ y z, place va y → place wa z →
          lineNo y ∉ (s.walk ag.core tm.ctx wa).lines ∧ (va ≠ wa → y + 8 ≤ z ∨ z + 8 ≤ y)) →
        let ef := descField q.desc 96 4
        let row := joinBits (efmtBits ef) ((List.range 128).map (fun n =>
          drainElem ef sat q.fmtA none (tm.word d.toNat q.cursor n)))
        ∀ (n : Nat) va y, vas[n]? = some va → place va y → readN u.mem y 8 = row / 2 ^ (64 * n) % 2 ^ 64))

/-- The work-list instructions and `TDWAIT` complete, where no lane waits for a set's quiescence (R42, R290-R294): `WLCFG`
writes a header; of the lanes of `WLAPP` that name one list the first as many as there is room take tickets from `PUT` on, of
those of `WLTAKE` the first as many as there are items take one, and the set's count follows; `WLDONE` lowers it; `TDWAIT`
answers quiescence or available items, and else blocks its lanes in lane state 7. -/
def Obligations.WorkListsComplete : Prop :=
  ∀ (s : State) (c : Nat) (x : Issue) (m : Member), Sole s c x m →
  ∀ (g : Guard) (ll : Ll) (z : BitVec 2) (po : PReg) (d : VReg) (dst : Option VReg) (a b : Reg) (sa sb sd : SReg) (td : TdSrc),
    d.toNat + 2 ^ z.toNat ≤ (m.group s).n → dst = none ∨ dst = some d → Reg.fits a (m.group s).n →
    (∀ j, j < 2 ^ z.toNat → match b with
      | .v r => r.toNat + j < (m.group s).n
      | .s _ => True) → m.canCount s g ll →
  (∀ n j, ∀ e ∈ (s.group n j).wait, ∀ k v, e.2 ≠ .quiet k v) → s.recording (s.ctxOf m.team) = false →
  let h := m.group s
  let e := m.agent s c
  let k := s.ctxOf m.team
  let act := m.active s g
  let real := act &&& ~~~h.helper
  let va := h.reg a
  let place := listPlace real va
  let begins := fun (i : Instr) (p : Pend) (set_ n av : Nat) => Ends c x m 0 (exec i s) (fun u =>
    Accessed false { s with ctxs := u.ctxs } u m ∧ Began (m.at_ s u) (m.group u) m.lanes act ll p ∧
    get 0 set_ (u.ctx k).counts = n ∧ get 0 set_ (u.ctx k).avail = av)
  (∀ p, act ≠ 0 → let w := h.sreg sb.toNat
    let items := h.sreg (sb.toNat + 1)
    let n := (w.extractLsb' 0 32).toNat
    (h.sreg sa.toNat).extractLsb' 0 6 = 0 → n ≠ 0 → n ≤ 16777216 → w.extractLsb' 34 6 = 0 → w.extractLsb' 46 18 = 0 →
    items.extractLsb' 0 6 = 0 → s.seek e .write (h.sreg sa.toNat) = .ok p → ordered p.cls = true → p.held = false →
    s.owned (lineNo p.addr) = false → s.Plain k p.cls p.addr 64 → Ends c x m 0 (exec (.wlcfg g sa sb) s) (fun u =>
      Accessed false { s with ctxs := u.ctxs } u m ∧
      m.group u = { m.at_ s u with pend := (m.group u).pend, ordinal := h.ordinal + 1 } ∧
      wlistOf (readN u.mem p.addr 64) = ⟨n, (w.extractLsb' 32 2).toNat, (w.extractLsb' 40 6).toNat, false, true, 0, 0, 0, 0,
        items⟩)) ∧
  (∀ p l, real ≠ 0 → (∀ i, i < 64 → real.getLsbD i = true → s.listAt e (va i) = .ok (p, l) ∧ va i = va (lowest real) ∧
      s.wlFault e false z.toNat real va i = none) → s.wlOwned e .write real va (fun l q => l.puts + q) = [] →
    l.gets ≤ l.puts → l.count ≤ get 0 l.set (s.ctx k).counts → l.pub ≤ l.puts →
    l.pub - l.gets ≤ get 0 l.set (s.ctx k).avail → l.room ≠ 0 →
    let got := fun i => real.getLsbD i && decide (place i < l.room)
    let n := min (countLanes real) l.room
    begins (.wlapp g ll z po dst a b) { Pend.zero with
        vw := match dst with
          | some v => vWrites v.toNat act (fun i => if got i then BitVec.ofNat 64 (l.puts + place i) else BitVec.allOnes 64)
          | none => []
        pw := pWrites po.toNat act got } l.set (get 0 l.set (s.ctx k).counts + n)
      (get 0 l.set (s.ctx k).avail - (l.pub - l.gets) + (l.puts + n - l.gets))) ∧
  (∀ p l, real ≠ 0 → (∀ i, i < 64 → real.getLsbD i = true → s.listAt e (va i) = .ok (p, l) ∧ va i = va (lowest real) ∧
      s.wlFault e true z.toNat real va i = none) → s.wlOwned e .read real va (fun l q => l.gets + q) = [] →
    l.gets ≤ l.pub → l.pub ≤ l.puts → l.count ≤ get 0 l.set (s.ctx k).counts →
    l.pub - l.gets ≤ get 0 l.set (s.ctx k).avail →
    let n := min (countLanes real) (l.pub - l.gets)
    ∃ vw, begins (.wltake g ll z po d a) { Pend.zero with
        vw := vw, pw := pWrites po.toNat act (fun i => real.getLsbD i && decide (place i < l.pub - l.gets)) }
      l.set (get 0 l.set (s.ctx k).counts) (get 0 l.set (s.ctx k).avail - n)) ∧
  (∀ p l i, (∀ j, j < 64 → (real.getLsbD j = true ↔ j = i)) → i < 64 → s.listAt e (va i) = .ok (p, l) →
    s.ownedHome e .write [va i] = [] → (∀ r, b = .v r → r.toNat < h.n) → l.held ≤ l.count →
    l.count ≤ get 0 l.set (s.ctx k).counts →
    Ends c x m 0 (exec (.wldone g a b) s) (fun u =>
      Accessed false { s with ctxs := u.ctxs } u m ∧
      m.group u = { m.at_ s u with pend := (m.group u).pend, ordinal := (m.group u).ordinal } ∧
      get 0 l.set (u.ctx k).counts = get 0 l.set (s.ctx k).counts - min (h.reg b i).toNat l.held)) ∧
  (let set_ := match td with
      | .imm n => n.toNat
      | .reg r => ((h.sreg r.toNat).extractLsb' 0 6).toNat
    ((s.ctx k).quiet set_ = true → DoesS s c x m g (exec (.tdwait g sd td) s) sd 1) ∧
    ((s.ctx k).quiet set_ = false → 0 < get 0 set_ (s.ctx k).avail → DoesS s c x m g (exec (.tdwait g sd td) s) sd 0) ∧
    ((s.ctx k).quiet set_ = false → get 0 set_ (s.ctx k).avail = 0 → Leaves s c x m act (exec (.tdwait g sd td) s) (fun h G =>
      G = { h with pc := G.pc, st := G.st, wait := G.wait, hdr := G.hdr, pend := G.pend } ∧ SamePends h G ∧
      Stood h G act 7 x.pc (x.hdr, x.bodyw) (fun _ => some (.quiet set_ sd)))))

/-- The lane instructions on parcels complete (R175, R296, R297): they answer the context words as they stood, or `FILL` beyond
the last parcel, and leave memory and registrations as the wakes and writes of their lanes in order do. -/
def Obligations.ParcelLaneInstructionsComplete : Prop :=
  ∀ (s : State) (c : Nat) (x : Issue) (m : Member), Sole s c x m →
  ∀ (g : Guard) (ll : Ll) (kind : BitVec 3) (d : VReg) (a b : Reg) (hd sd : SReg),
    d.toNat < (m.group s).n → Reg.fits a (m.group s).n → m.canCount s g ll →
    (∀ j, j < 2 → match b with
      | .v r => r.toNat + j < (m.group s).n
      | .s _ => True) → s.recording (s.ctxOf m.team) = false →
  let gr := m.group s
  let e := m.agent s c
  let k := s.ctxOf m.team
  let act := m.active s g
  let real := act &&& ~~~gr.helper
  let ix := fun i => (gr.reg b i).toNat
  let ord := fun (G : Group) => { G with ordinal := 0 }
  ((∃ p q r t y, gr.sort = .sweep p q r t y) →
    (∀ v ∈ gr.pend, v.2.left_ = true ∨ v.2.lanes &&& act = 0 ∨ (v.2.vw = [] ∧ v.2.pw = [] ∧ v.2.sw = [])) →
    (∀ n, ∀ v ∈ (s.group m.team n).wait, v.2 ≠ .order) →
    Leaves s c x m act (exec (.pwait g kind a b) s) (fun h G =>
      G = { h with pc := G.pc, st := G.st, wait := G.wait, hdr := G.hdr, carry := G.carry, pend := G.pend } ∧
      SamePends h G ∧ Went h G act 2 (fun _ => x.pc) ∧ ∀ i, find i G.carry =
        if act.getLsbD i = true then some (((h.reg a i).extractLsb' 0 16).toNat, kind.toNat, ((h.reg b i).extractLsb' 0 40).toNat)
        else find i h.carry)) ∧
  (∀ r : BitVec 768, s.resolve k (gr.sreg hd.toNat) = some r → recParcel r = true →
    let lane := fun (f : State → Nat → Except Stop (Nat × State)) (u : State) (i : Nat) => perParcel r (ix i) (f u i) u
    let runs := fun (f : State → Nat → Except Stop (Nat × State)) (q : SMap Word × State) =>
      (∀ i, i < 64 → real.getLsbD i = true → ∃ y, lane f s i = .ok y) ∧ parcelRun (lane f) (lanesOf real) s = .ok q
    let pwake := fun (u : State) (i : Nat) => u.pwake e r (ix i)
    let pctx := fun (u : State) (i : Nat) => u.pctx e r (ix i) (gr.runReg b 1 i).toNat
    let load := fun (u : State) (i : Nat) => u.loadAt e false (parcelVa r (ix i)) 8
    let answers := fun (q : SMap Word × State) =>
      { Pend.access with vw := vWrites d.toNat act (fun i => get 0 i q.1), uses := some (gr.sreg hd.toNat) }
    (r.getLsbD 25 = true →
      (∀ q, runs pwake q → Ends c x m 0 (exec (.pwake g (some d) hd b) s) (fun u =>
        Accessed false { s with regs := u.regs } u m ∧ u.mem = q.2.mem ∧ u.regs = q.2.regs ∧
        ord (m.group u) = ord { m.at_ s u with v := (m.group u).v, pend := (m.group u).pend } ∧
        ∀ r i, i < 64 → (m.group u).vreg r i = if r = d.toNat ∧ act.getLsbD i = true then get 0 i q.1 else gr.vreg r i)) ∧
      (∀ q, runs pctx q → m.canRequest s c g → Ends c x m 0 (exec (.pctx g ll (some d) hd b) s) (fun u =>
        Accessed false { s with regs := u.regs } u m ∧ u.mem = q.2.mem ∧ u.regs = q.2.regs ∧
        Began (m.at_ s u) (m.group u) m.lanes act ll (answers q)))) ∧
    (r.getLsbD 24 = true → m.canRequest s c g →
      (∀ q, runs load q → Ends c x m 0 (exec (.pqryCtx g ll d hd b) s) (fun u =>
        Accessed false s u m ∧ u.mem = q.2.mem ∧ Began (m.at_ s u) (m.group u) m.lanes act ll (answers q) ∧
        ∀ i, i < 64 → (∀ j, j < 64 → (real.getLsbD j = true ↔ j = i)) →
          (parcels r ≤ ix i → get 0 i q.1 = BitVec.ofNat 64 (fillWord r)) ∧
          ∀ p, ix i < parcels r → s.seek e .read (parcelVa r (ix i)) = .ok p → p.cls ≠ 5 →
            get 0 i q.1 = BitVec.ofNat 64 (s.readKey (s.keyOf k) p.addr 8).1)) ∧
      (∀ w v t, act ≠ 0 → State.loadWords e s (recPlat r) 2 = .ok ([w, v], t) →
        s.ownedHome e .read [recPlat r, recPlat r + 8] = [] →
        Ends c x m 0 (exec (.pqrySweep g ll sd hd) s) (fun u =>
          Accessed false s u m ∧ u.mem = t.mem ∧ Began (m.at_ s u) (m.group u) m.lanes act ll { Pend.access with
            sw := [(sd.toNat, BitVec.ofNat 64 w), (sd.toNat + 1, BitVec.ofNat 64 v)], uses := some (gr.sreg hd.toNat) }))))

/-- `PSWEEP` sets `ACTIVE` of an idle plat and starts one sweep engine on every team of the gang, its instruction outstanding
(R170, R295); `PSTOP` asks the sweeps of a tensor to stop (R180, R296). -/
def Obligations.SweepsStartAndStop : Prop :=
  ∀ (s : State) (c : Nat) (x : Issue) (m : Member), Sole s c x m →
  ∀ (g : Guard) (ll : Ll) (md : SweepMode) (build : Bool) (role : BitVec 3) (d hd b : SReg), m.canCount s g ll →
  let h := m.group s
  let e := s.env c x m g
  let act := m.active s g
  let k := s.ctxOf m.team
  act ≠ 0 → ∀ r : BitVec 768, s.resolve k (h.sreg hd.toNat) = some r → r.getLsbD 26 = true →
  (∀ ws t v old,
    psweepBad r (s.headerOf m.team) md role.toNat (h.sreg b.toNat) (h.sreg (b.toNat + 1)) (h.sreg (b.toNat + 2)) = false →
    s.psweepBusy m.team (s.headerOf m.team) = none → State.loadWords e.agent s (recPlat r) 32 = .ok (ws, t) →
    s.ownedHome e.agent .read ((List.range 32).map (fun j => recPlat r + BitVec.ofNat 64 (8 * j))) = [] → platBad ws = false →
    t.atomAt e.agent false (recPlat r) 8 (fun y => if y / 2 ^ 16 % 2 = 1 then y else y + 2 ^ 16) = .ok (old, v) →
    old / 2 ^ 16 % 2 = 0 →
    Ends c x m 0 (exec (.psweep g ll md build role d hd b) s) (fun u => ∃ id p w z,
      find id s.sweeps = none ∧ find id u.sweeps = some w ∧ (∀ j, j ≠ id → find j u.sweeps = find j s.sweeps) ∧
      u.mem = v.mem ∧ w.team = m.team ∧ w.grp = m.grp ∧ w.ctx = k ∧ w.token = x.pc ∧ w.record = r ∧ w.mode = md ∧
      w.build = build ∧ w.role = role.toNat ∧ w.nc = field old 0 16 ∧ w.d = d ∧ w.stop = false ∧ w.pend = some p ∧
      find p h.pend = none ∧ find p (m.group u).pend = some z ∧ z.lanes = act ∧ z.ready = false ∧
      (∀ q y, find q w.engines = some y → y.phase = (if build then .build else .claim) ∧ y.cc = 0 ∧ y.park = none ∧
        (s.gangTeams m.team)[q]? = some y.team) ∧
      ∀ q, q < (s.gangTeams m.team).length → (find q w.engines).isSome = true)) ∧
  (recParcel r = true → Ends c x m 0 (exec (.pstop g hd) s) (fun u =>
    Undisturbed s u m ∧ u = { s with sweeps := u.sweeps, cores := u.cores, teams := u.teams } ∧
    ∀ id, find id u.sweeps = (find id s.sweeps).map (fun w =>
      if w.ctx = k ∧ recPlat w.record = recPlat r then { w with stop := true } else w)))

/-- `RAST` completes at its issue once its record and its work-list pass the checks of R299: the rasteriser holds the stream at its first
triangle, asking for the lines of its visibility buffer in ascending order. `RSETUP` and `RCOVER` complete
at their issue and will deliver the setup block and the test of a pixel (R301); the depth at a block whose area is not positive is a free value (entry 8). -/
def Obligations.RasterInstructionsBegin : Prop :=
  ∀ (s : State) (c : Nat) (x : Issue) (m : Member), Sole s c x m →
  ∀ (g : Guard) (ll : Ll) (frag cullb : Bool) (role : BitVec 3) (po : PReg) (d a b : VReg) (p q : SReg),
    d.toNat + 7 ≤ (m.group s).n → a.toNat + 7 ≤ (m.group s).n → b.toNat + 2 ≤ (m.group s).n → m.canCount s g ll →
  let h := m.group s
  let act := m.active s g
  let ag := m.agent s c
  let half := fun (w : Word) (k : Nat) => (w.extractLsb' (32 * k) 32).toNat
  (∀ ws t list l, let va := h.sreg q.toNat
    let rc := BitVec.ofNat 512 (joinWords ws)
    let o := RastOp.start rc va frag cullb role.toNat (s.ctx (s.ctxOf m.team)).area.toNat p
    va.extractLsb' 0 6 = 0 → State.readWords ag s va 8 = .ok (ws, t) → rastBad frag rc = false →
    t.listAt ag o.list = .ok (list, l) → list.held = false → t.owned (lineNo list.addr) = false → l.iszc = 1 → t.mem = s.mem →
    (frag = true → ∃ hd, s.headerOf m.team = some hd ∧ hd.fragBad role.toNat = false) → s.wordsOwned ag va 8 = [] →
    act ≠ 0 → s.recording (s.ctxOf m.team) = false → Ends c x m 0 (exec (.rast g ll frag cullb role p q) s) (fun u =>
      Accessed false { s with ops := u.ops } u m ∧ u.mem = s.mem ∧ Engaged s u c x m false (.rast o) ∧
      Began (m.at_ s u) (m.group u) m.lanes act ll { Pend.zero with ready := false, sw := [(p.toNat, 0)] } ∧
      ∃ id o, find id s.ops = none ∧ find id u.ops = some o ∧ (o.own ++ o.need).Pairwise (· < ·) ∧
        (u.unitsRun (s.ctxOf m.team) = true → o.need = [] → o.e.isSome = true ∧ ∀ l ∈ o.own, s.owned l = false))) ∧
  Does s c x m (exec (.rsetup g ll cullb d a) s) (fun h G => ∃ vw, Began h G m.lanes act ll { Pend.zero with vw := vw } ∧
    ∀ i, i < 64 → act.getLsbD i = true → ∀ k, k < 7 → find ((d.toNat + k) * 64 + i) vw =
      some (BitVec.ofNat 64 ((setupBlock cullb ((List.range 9).map (fun j => half (h.vreg (a.toNat + j / 2) i) (j % 2)))).getD k 0))) ∧
  Does s c x m (exec (.rcover g ll po d a b) s) (fun h G => ∃ vw pw, Began h G m.lanes act ll { Pend.zero with vw := vw, pw := pw } ∧
    ∀ i, i < 64 → act.getLsbD i = true →
      let r := coverBlock (Config.word (s.free i)).toNat ((List.range 7).map (fun k => h.vreg (a.toNat + k) i))
        (h.vreg b.toNat i) (h.vreg (b.toNat + 1) i)
      find (d.toNat * 64 + i) vw = some (BitVec.ofNat 64 r.2) ∧ (po ≠ 15 → find (po.toNat * 64 + i) pw = some r.1))

/-- The texture instructions complete at their issue once their descriptors, which no operation owns, pass the checks of R303 and R304, and, for
those that take derivatives from the quad, all four lanes of each active lane's quad are in the path: the unit holds the operands
and starts at the first quad. `IMGST` completes likewise: where no operation owns a line of its texels it writes them at once, no
other byte of memory changes, and pieces apart from each other hold the texel's bytes; else the write is an operation that
requests the lines (R98, R99, R305). -/
def Obligations.TextureInstructionsBegin : Prop :=
  ∀ (s : State) (c : Nat) (x : Issue) (m : Member), Sole s c x m →
  ∀ (g : Guard) (ll : Ll) (ch : BitVec 2) (d a : VReg) (b : SReg),
    d.toNat + 2 ≤ (m.group s).n → a.toNat + 4 ≤ (m.group s).n → m.canCount s g ll →
  let h := m.group s
  let act := m.active s g
  let real := act &&& ~~~h.helper
  let ag := m.agent s c
  let k := s.ctxOf m.team
  let tva := h.sreg b.toNat
  let sva := h.sreg (b.toNat + 1)
  (∀ ws t, s.readTexDescs ag tva sva = .ok (ws, t) → s.texDefect ag tva sva = false →
    s.wordsOwned ag tva 8 ++ s.wordsOwned ag sva 4 = [] → t.mem = s.mem → act ≠ 0 → m.canRequest s c g →
    s.orphan m.team m.grp 3 = none →
    (let whole := ∀ i, i < 64 → act.getLsbD i = true → ∀ j, j < 4 → m.lanes.getLsbD (i / 4 * 4 + j) = true
    let w := joinWords ws
    let begins := fun (i : Instr) (k : TexKind) => Ends c x m 0 (exec i s) (fun u =>
      Accessed false { s with ops := u.ops } u m ∧ u.mem = s.mem ∧
      Began (m.at_ s u) (m.group u) m.lanes act ll { Pend.access with ready := false, holds := true } ∧
      ∃ src, (∀ r i, r < 4 → i < 64 → act.getLsbD i = true → get 0 ((a.toNat + r) * 64 + i) src = h.vreg (a.toNat + r) i) ∧
        Engaged s u c x m true (.tex ⟨k, BitVec.ofNat 512 w, BitVec.ofNat 256 (w / 2 ^ 512), act, 0, 0, a.toNat, src, d.toNat⟩))
    (whole → begins (.tex g ll d a b) .tex ∧ begins (.tlod g ll d a b) .tlod) ∧ begins (.texg g ll ch d a b) (.texg ch.toNat) ∧
      begins (.texl g ll d a b) .texl ∧ begins (.texd g ll d a b) .texd)) ∧
  (∀ ws t, State.readWords ag s tva 8 = .ok (ws, t) → s.wordsOwned ag tva 8 = [] → t.mem = s.mem → act ≠ 0 →
    let desc := BitVec.ofNat 512 (joinWords ws)
    let pieces := fun (i : Nat) => match imgTexel desc (h.vreg a.toNat i) (h.vreg (a.toNat + 1) i) with
      | some va => texelPieces desc va
      | none => []
    let raw := fun (i : Nat) => joinBits (channelWidth desc) ((List.range (texChannels desc)).map (fun c =>
      channelCode desc c ((h.vreg (d.toNat + c / 2) i).extractLsb' (32 * (c % 2)) 32).toNat))
    let vas := (lanesOf real).flatMap (fun i => (pieces i).map (·.1))
    let into := (lanesOf real).flatMap (fun i => (pieces i).flatMap (fun w => t.placesOf ag .write [w.1] w.2))
    let vals := (lanesOf real).flatMap (fun i => fieldsOf (raw i) ((pieces i).map (·.2)))
    texBad desc = false → (∀ i, i < 64 → real.getLsbD i = true → ∀ w ∈ pieces i, t.probe ag .write false w.1 = none) →
    (∀ p ∈ t.spots ag .write vas, p.held = false) →
    ((∀ p ∈ into, s.owned (lineNo p.2.1) = false) → Ends c x m 0 (exec (.imgst g ll d a b) s) (fun u => Accessed false s u m ∧
      Began (m.at_ s u) (m.group u) m.lanes act ll Pend.zero ∧
      ((∀ p ∈ into, s.Plain k p.1 p.2.1 p.2.2) →
        (∀ y, (∀ p ∈ into, y < p.2.1 ∨ p.2.1 + p.2.2 ≤ y) → get 0 y u.mem = get 0 y s.mem) ∧
        (into.Pairwise (fun p q => p.2.1 + p.2.2 ≤ q.2.1 ∨ q.2.1 + q.2.2 ≤ p.2.1) →
          ∀ y ∈ into.zip vals, readN u.mem y.1.2.1 y.1.2.2 = y.2)))) ∧
    (¬(∀ p ∈ into, s.owned (lineNo p.2.1) = false) → (∀ p ∈ into, ordered p.1 = true) →
      Ends c x m 0 (exec (.imgst g ll d a b) s) (fun u =>
        Engaged s u c x m true (.near { into := into, vals := vals, src := [] }) ∧ u.mem = s.mem)))

/-- `TRACE` gives every active lane a new ray from its operands, `TRCONT` rejects the candidates at which rays stand, or ends
those that were committed with `.ANY`, and both engage the traverse unit; `TRCOMMIT` accepts uncommitted candidates; `TRQRY`
reads a ray; `TRPAIR` engages the unit at the pair of its roots, or at the kept record (R306-R310). -/
def Obligations.TraverseInstructionsBegin : Prop :=
  ∀ (s : State) (c : Nat) (x : Issue) (m : Member), Sole s c x m →
  ∀ (g : Guard) (ll : Ll) (any : Bool) (p : BitVec 4) (d a : VReg) (b : SReg) (w : BitVec 2),
    d.toNat + 5 + p.toNat ≤ (m.group s).n → a.toNat + 4 ≤ (m.group s).n → m.canCount s g ll →
  let h := m.group s
  let act := m.active s g
  let ag := m.agent s c
  let e := s.env c x m g
  let holds : Pend := { Pend.zero with ready := false, holds := true }
  let only := fun (h G : Group) (q : Pend) => Began h { G with rays := h.rays, kept := h.kept } m.lanes act ll q
  traverseBusy e s = false → s.orphan m.team m.grp 1 = none → s.orphan m.team m.grp 2 = none →
  (act ≠ 0 → s.pairKept e = false →
    (∀ hd table t, s.headerOf m.team = some hd → 8 * p.toNat ≤ hd.payload →
      let va := h.sreg (b.toNat + 2)
      s.traceTable e va = .ok (table, t) → tableAligned va = true → tableOk table = true →
      (va = 0 ∨ s.wordsOwned ag va 2 = []) → t.mem = s.mem →
      (∀ i, i < 64 → act.getLsbD i = true → get 0 i h.depth ≤ hd.recurse) → 640 ≤ s.rayBytes m.team m.grp →
      Ends c x m 0 (exec (.trace g ll any p d a b) s) (fun u =>
        Accessed false { s with ops := u.ops } u m ∧ u.mem = s.mem ∧ only (m.at_ s u) (m.group u) holds ∧
        Engaged s u c x m true (.ray { lanes := act, live := act, cont := false, packet := h.packet (s.team m.team).pkten a.toNat act }) ∧
        ∀ i, i < 64 → find i (m.group u).rays = if act.getLsbD i = true then
          some (h.newRay a.toNat i any ((h.sreg (b.toNat + 1)).toNat % 256) (h.sreg b.toNat).toNat
            (table.getD 0 0, table.getD 1 0) d.toNat)
          else find i h.rays)) ∧
    (let at5 := maskOf (fun i => act.getLsbD i && (match find i h.rays with
      | some r => r.status == 5
      | none => false))
    Ends c x m 0 (exec (.trcont g ll d) s) (fun u =>
      Accessed false { s with ops := u.ops } u m ∧ u.mem = s.mem ∧ only (m.at_ s u) (m.group u) holds ∧
      Engaged s u c x m true (.ray { lanes := at5, live := at5, cont := true, packet := false }) ∧
      ∀ i, i < 64 → find i (m.group u).rays = (find i h.rays).map (fun r =>
        if at5.getLsbD i = false then r
        else if r.committed = true ∧ r.any = true then ({ r with cand := none, dst := d.toNat } : Ray).ended 1
        else { r with cand := none, committed := false, dst := d.toNat, status := 0, tri := r.tri + 1 })))) ∧
  Does s c x m (exec (.trcommit g ll) s) (fun h G => only h G Pend.zero ∧ ∀ i, i < 64 → find i G.rays = (find i h.rays).map (fun r =>
    match r.cand with
    | none => r
    | some (t, prim, geom, inst) => if act.getLsbD i = true ∧ r.status = 5 ∧ r.committed = false then
        { r.accept t prim geom inst with committed := true } else r)) ∧
  Does s c x m (exec (.trqry g ll w d) s) (fun h G => ∃ vw, Began h G m.lanes act ll { Pend.zero with vw := vw } ∧
    ∀ i r, i < 64 → act.getLsbD i = true → find i h.rays = some r →
      (w = 0 → find (d.toNat * 64 + i) vw = some (BitVec.ofNat 64 (r.tmax + r.status * 2 ^ 32))) ∧
      (w = 1 → r.bestValid = true → find (d.toNat * 64 + i) vw = some (BitVec.ofNat 64 (r.bestT + 2 ^ 32))) ∧
      (w = 2 → r.status = 5 → find (d.toNat * 64 + i) vw = some (BitVec.ofNat 64 (r.w1 + r.w2 * 2 ^ 32)))) ∧
  (∀ (self resume : Bool) (sd sa sb : SReg),
    let f := (h.sreg sa.toNat).toNat
    let q := if self then f else (h.sreg sb.toNat).toNat
    let list := h.sreg (sb.toNat + 1)
    let start : PairOp := { f := f, g := q, self := self, list := list, tag := (h.sreg (sb.toNat + 2)).toNat % 2 ^ 32, seqno := 0,
                            stack := [(f, q)], spilled := 0, pending := none, overflowed := false, appended := 0, d := sd }
    f % 128 = 0 → q % 128 = 0 → h.atCandidate = false → s.ownedAmong ag .write [list] = [] → (∀ t l, s.listAt ag list = .ok (t, l) → l.iszc = 1 →
      s.pairDepth m.team ≠ 0 → act ≠ 0 →
      (let begins := fun (p : PairOp) (keep : Bool) => Ends c x m 0 (exec (.trpair g ll self resume sd sa sb) s) (fun u =>
        Accessed false { s with ops := u.ops } u m ∧ (keep = true → s.recording (s.ctxOf m.team) = false → u.mem = s.mem) ∧
        only (m.at_ s u) (m.group u) { holds with sw := [(sd.toNat, 0)] } ∧ Engaged s u c x m true (.pair p))
      (resume = false → begins start true) ∧
      (∀ v, resume = true → s.pairKept e = true → s.pairCursor e start = some v → begins v false))))

/-- `BOXT` and `TRIT` complete at their issue and will deliver the test of R154 or R155 of each active lane's ray; a test whose result the
specification does not state gives free values (entry 8). -/
def Obligations.RayTestsBegin : Prop :=
  ∀ (s : State) (c : Nat) (x : Issue) (m : Member), Sole s c x m →
  ∀ (g : Guard) (ll : Ll) (po : PReg) (d a b : VReg),
    d.toNat + 2 ≤ (m.group s).n → a.toNat + 4 ≤ (m.group s).n → b.toNat + 5 ≤ (m.group s).n → m.canCount s g ll →
  let act := m.active s g
  let comp := fun (r : VReg) (i k : Nat) => (((m.group s).vreg (r.toNat + k / 2) i).extractLsb' (32 * (k % 2)) 32).toNat
  let o := fun i => [comp a i 0, comp a i 1, comp a i 2]
  let dir := fun i => [comp a i 4, comp a i 5, comp a i 6]
  let void := fun i => rayVoid (o i) (dir i) (comp a i 3) (comp a i 7)
  let gives := fun (vw : SMap Word) (pw : SMap Bool) i (ws : List Nat) (p : Bool) =>
    (∀ k, k < ws.length → find ((d.toNat + k) * 64 + i) vw = some (BitVec.ofNat 64 (ws.getD k 0))) ∧
    (po ≠ 15 → find (po.toNat * 64 + i) pw = some p)
  let box := fun i => boxTest (o i) (dir i) (comp a i 3) (comp a i 7)
    { lo := [comp b i 0, comp b i 1, comp b i 2], hi := [comp b i 3, comp b i 4, comp b i 5] }
  let tri := fun i => triTest (o i) (dir i) [[comp b i 0, comp b i 1, comp b i 2], [comp b i 3, comp b i 4, comp b i 5],
    [comp b i 6, comp b i 7, comp b i 8]]
  Does s c x m (exec (.boxt g ll po d a b) s) (fun h G => ∃ vw pw, Began h G m.lanes act ll { Pend.zero with vw := vw, pw := pw } ∧
    ∀ i, i < 64 → act.getLsbD i = true →
      (void i = true ∨ box i = .miss → gives vw pw i [0x7F800000 + 0xFF800000 * 2 ^ 32] false) ∧
      (∀ near far, void i = false → box i = .hit (near, far) → gives vw pw i [near + far * 2 ^ 32] true)) ∧
  Does s c x m (exec (.trit g ll po d a b) s) (fun h G => ∃ vw pw, Began h G m.lanes act ll { Pend.zero with vw := vw, pw := pw } ∧
    ∀ i, i < 64 → act.getLsbD i = true →
      (void i = true ∨ tri i = .miss → gives vw pw i [0, 0] false) ∧
      (∀ t w1 w2, void i = false → tri i = .hit (t, w1, w2) →
        if le32 (comp a i 3) t = true ∧ le32 t (comp a i 7) = true then gives vw pw i [t, w1 + w2 * 2 ^ 32] true
        else gives vw pw i [0, 0] false))

/-- `TRAP` and `BRK` with an active lane at user level, where the frame can be stored, take their exception (R186-R188, R311):
the group goes to control level with `UIEN` 0, every lane that was launched and has not exited to the handler at `TVEC`,
`TRAPPC`, `FAULTINFO` and `FAULTLANES` name it, and no register changes but as instructions that were done complete; the words
of the frame hold the lanes, of which those of the path are beyond the instruction. With no active lane nothing happens. -/
def Obligations.TrapInstructionsEnterTheHandler : Prop :=
  ∀ (s : State) (c : Nat) (x : Issue) (m : Member), Sole s c x m → ∀ (g : Guard) (n : BitVec 10),
  let h := m.group s
  let act := m.active s g
  let ag : Agent := { m.agent s c with level := .control }
  let done := h.completeAll
  let beyond := x.body.length ≤ x.pos + instrLength x.body x.pos
  let word := fun (k : Nat) => h.s2 + BitVec.ofNat 64 (8 * k)
  let place := fun (k a : Nat) => ∃ p, s.seek ag .write (word k) = .ok p ∧ p.addr = a
  let plain := fun (k : Nat) => ∀ p, s.seek ag .write (word k) = .ok p → s.Plain (s.ctxOf m.team) p.cls p.addr 8
  ∀ i k, i = Instr.trap g n ∧ k = Kind.trap ∨ i = Instr.brk g n ∧ k = Kind.brk →
  (act = 0 → Does s c x m (exec i s) (fun h G => G = { h with pend := G.pend } ∧ SamePends h G)) ∧
  (act ≠ 0 → h.level = .user → (s.core c).second = none → s.quiet c → h.late = none →
    s.writing m.team m.grp = false → Storable s ag h.s2 128 →
    Ends c x m m.lanes (exec i s) (fun u =>
      let G := m.group u
      G.level = .control ∧ G.uien = false ∧ G.trappc = x.pc ∧ G.faultinfo = BitVec.ofNat 64 (k.code + n.toNat * 2 ^ 16) ∧
      G.faultlanes = act ∧ (∀ r j, G.vreg r j = done.vreg r j) ∧ (∀ r j, G.preg r j = done.preg r j) ∧
      (∀ r, G.sreg r = done.sreg r) ∧ (∀ r, G.jreg r = done.jreg r) ∧
      (∀ j, j < 64 → h.live.getLsbD j = true → G.state j = 1 ∧ G.lanePc j = (s.ctx (s.ctxOf m.team)).tvec &&& ~~~7 ∧
        find j G.hdr = none ∧ find j G.wait = none) ∧
      (∀ j, j < 64 → h.live.getLsbD j = false → m.lanes.getLsbD j = false → G.state j = h.state j ∧ G.lanePc j = h.lanePc j) ∧
      ((∀ k, k < 128 → plain k) →
        (∀ k j, k < j → j < 128 → ∀ a b, place k a → place j b → a + 8 ≤ b ∨ b + 8 ≤ a) →
        (∀ b, (∀ k, k < 128 → ∀ a, place k a → b < a ∨ a + 8 ≤ b) → get 0 b u.mem = get 0 b s.mem) ∧
        ∀ k a, k < 128 → place k a →
          let w := readN u.mem a 8
          let j := fun (n : Nat) => 4 * (k - 64) + n
          (k < h.width → w = (if m.lanes.getLsbD k = true then
            (if beyond then x.next else x.hdr + BitVec.ofNat 64 (8 + x.pos + instrLength x.body x.pos)) else h.lanePc k).toNat) ∧
          (64 ≤ k → k < 80 → ∀ n r, n < 4 → r < 16 → j n < h.width →
            w.testBit (16 * n + r) = (r == 15 || done.preg r (j n))) ∧
          (80 ≤ k → k < 88 → ∀ n, n < 8 → w / 256 ^ n % 256 =
            if m.lanes.getLsbD (8 * (k - 80) + n) = true then 1 else h.state (8 * (k - 80) + n)) ∧
          (88 ≤ k → k < 92 → w = (done.sreg (k - 28)).toNat) ∧
          (k = 92 → w = if h.uien = true then 256 else 0) ∧ (92 < k → w = 0))))

/-- `ERET` at control level, and `UIRET`, with a valid frame at its address, return (R189, R311): each lane of the group takes
its address and state from the frame, lanes that were blocked or parked ready to issue again, with P0-P14; S60-S63, the level
and `UIEN` are as the frame holds them, and no other register changes. -/
def Obligations.ReturnsRestoreTheFrame : Prop :=
  ∀ (s : State) (c : Nat) (x : Issue) (m : Member), Sole s c x m →
  let h := m.group s
  let ag : Agent := { m.agent s c with level := .control }
  let returns := fun (i : Instr) (va : Word) => Loadable s ag va 128 → frameOk (s.wordsAt ag va 128) = true →
    (∀ k p, k < 128 → s.seek ag .read (va + BitVec.ofNat 64 (8 * k)) = .ok p → p.cls ≠ 5) →
    let w := fun k => (s.wordsAt ag va 128).getD k 0
    Ends c x m m.lanes (exec i s) (fun u =>
      let G := m.group u
      u.mem = s.mem ∧ G.level = (if w 92 % 256 = 1 then .control else .user) ∧ G.uien = (w 92 / 256 % 2 == 1) ∧
      (∀ r j, G.vreg r j = h.vreg r j) ∧ (∀ r, G.dreg r = h.dreg r) ∧ (∀ r, G.jreg r = h.jreg r) ∧
      (∀ r, G.sreg r = if 60 ≤ r ∧ r < 64 then BitVec.ofNat 64 (w (28 + r)) else h.sreg r) ∧
      G.trappc = h.trappc ∧ G.faultinfo = h.faultinfo ∧ G.faultlanes = h.faultlanes ∧
      ∀ j, j < h.width → j < 64 →
        let code := w (80 + j / 8) / 256 ^ (j % 8) % 256
        G.lanePc j = BitVec.ofNat 64 (w j) ∧ find j G.wait = none ∧
        G.state j = (if code = 0 ∨ code = 2 ∨ code = 3 ∨ code = 4 then code else 1) ∧
        ∀ r, r < 15 → G.preg r j = (w (64 + j / 4)).testBit (16 * (j % 4) + r))
  (h.level.atLeast .control = true → h.trapCalls = [] → s.unitsOf m.team m.grp = [] → returns .eret h.s2) ∧
  (h.uiCalls = [] → returns .uiret (h.s2 + 0x2000))

/-- `LAUNCH` at control level, with its record read and the queue not full, writes the status of the checks of R322 in their
order; with status 0 the grid is in the queue with no team launched yet and the counter is one higher, with another nothing is
launched (R313). A misaligned record has status 1. -/
def Obligations.LaunchCompletes : Prop :=
  ∀ (s : State) (c : Nat) (x : Issue) (m : Member), Sole s c x m → ∀ (g : Guard) (ll : Ll) (d a : SReg),
    m.canCount s g ll → (m.group s).level.atLeast .control = true → m.active s g ≠ 0 →
    s.queueLength (s.ctx (s.ctxOf m.team)).part < 256 →
  let h := m.group s
  let ag := m.agent s c
  let va := h.sreg a.toNat
  let refused := fun (st : Nat) (mem : SMap Byte) => Ends c x m 0 (exec (.launch g ll d a) s) (fun u => Accessed false s u m ∧ u.mem = mem ∧
    WroteS (m.at_ s u) (m.group u) m.lanes (m.active s g) d.toNat (BitVec.ofNat 64 st))
  (s.dev.exhausted = false → va.extractLsb' 0 6 ≠ 0 → refused 1 s.mem) ∧
  (∀ ws t, va.extractLsb' 0 6 = 0 → State.readWords ag s va 16 = .ok (ws, t) → s.wordsOwned ag va 16 = [] →
    let r := BitVec.ofNat 1024 (joinWords ws)
    let y := t.launchStatus ag (some r)
    t.launchWaits ag r = [] →
    (y.1.1 ≠ 0 → refused y.1.1 y.2.mem) ∧
    (y.1.1 = 0 → Ends c x m 0 (exec (.launch g ll d a) s) (fun u =>
      (∃ id gr, find id s.grids = none ∧ find id u.grids = some gr ∧ (∀ j, j ≠ id → find j u.grids = find j s.grids) ∧
        gr.ctx = launchField r 256 10 ∧ gr.from_ = s.ctxOf m.team ∧ gr.team = m.team ∧ gr.grp = m.grp ∧ gr.record = r ∧
        gr.code = BitVec.ofNat 64 (launchField r 0 64) ∧ gr.teams = launchField r 192 24 ∧ gr.next = 0 ∧ gr.live = 0 ∧
        gr.queued = true ∧ gr.dc = ll.dc.map BitVec.toNat) ∧
      (∀ k, (m.group u).dreg k = if (ll.dc.map BitVec.toNat) = some k then h.dreg k + 1 else h.dreg k) ∧
      (∀ k, (m.group u).sreg k = if k = d.toNat ∧ k ≠ 0 ∧ k ≠ 2 then 0 else h.sreg k) ∧
      (∀ k i, (m.group u).vreg k i = h.vreg k i))))

/-- `CSAVE` and `CREST` at control level answer their status (R314): one that refuses changes nothing else; a `CSAVE` of a
context that is off the cores frees its slot and raises its generation, and of one on the cores halts its partition first; a
`CREST` that accepts its image makes the slot's context idle or spilled. -/
def Obligations.ContextImagesComplete : Prop :=
  ∀ (s : State) (c : Nat) (x : Issue) (m : Member), Sole s c x m → ∀ (g : Guard) (ll : Ll) (d a b : SReg),
    m.canCount s g ll → (m.group s).level.atLeast .control = true → m.active s g ≠ 0 → s.ctxOf m.team < 1024 →
  let h := m.group s
  let ag := m.agent s c
  let act := m.active s g
  let k := (h.sreg a.toNat).toNat % 1024
  let va := h.sreg b.toNat
  let answers := fun (i : Instr) (st : Nat) => Does s c x m (exec i s) (fun h G =>
    Began h G m.lanes act ll { Pend.zero with sw := [(d.toNat, BitVec.ofNat 64 st)] })
  let waits : Pend := { Pend.zero with ready := false, sw := [(d.toNat, 0)] }
  let image := fun (i : Instr) (p : State → Prop) => Ends c x m 0 (exec i s) (fun u => p u ∧
    ∃ q, find (freeKey h.pend) (m.group u).pend = some q ∧ q.lanes = act ∧ q.dc = ll.dc ∧ q.sw = [(d.toNat, 0)])
  (let st := s.csaveStatus (s.ctxOf m.team) k va
  (st ≠ 0 → answers (.csave g ll d a b) st) ∧
  (st = 0 → s.imageFault ag .write va (s.image k).length = none →
    (s.saved ag k va = none → Ends c x m 0 (exec (.csave g ll d a b) s) (fun u =>
      Began h (m.group u) m.lanes act ll waits ∧ Engaged s u c x m false (.crest ⟨true, k, va⟩) ∧ u.mem = s.mem ∧
      ∀ p y, find p s.parts = some y → ∃ z, find p u.parts = some z ∧ z.halting =
        (y.halting || (decide (p = (s.ctx k).part) && y.running == some k && !y.swapping && !y.halted)))) ∧
    ((∃ t, s.saved ag k va = some t) → image (.csave g ll d a b) (fun u =>
      (u.ctx k).st = .free ∧ (u.ctx k).gen = (s.ctx k).gen + 1)))) ∧
  ((s.ctx k).st ≠ .free → answers (.crest g ll d a b) 1) ∧
  ((s.ctx k).st = .free → va.extractLsb' 0 12 ≠ 0 → answers (.crest g ll d a b) 2) ∧
  ((s.ctx k).st = .free → va.extractLsb' 0 12 = 0 → s.imageReadFault ag va = none →
    s.imageOwned ag .read va (s.imageSize ag va) = [] → s.parseImage ag va = none → answers (.crest g ll d a b) 4) ∧
  ((s.ctx k).st = .free → va.extractLsb' 0 12 = 0 → s.imageReadFault ag va = none →
    s.imageOwned ag .read va (s.imageSize ag va) = [] → s.crestWaits ag k va = false → (s.crest ag k va).1 = 0 →
    image (.crest g ll d a b) (fun u => (u.ctx k).st = .idle ∨ (u.ctx k).st = .spilled))

/-- `PATOM` at control level completes at its issue once its lanes' words are in the pool and free, and will deliver the old words; each word
takes its new value, and no other byte of memory changes (R109, R315). -/
def Obligations.PoolAtomicsBegin : Prop :=
  ∀ (s : State) (c : Nat) (x : Issue) (m : Member), Sole s c x m →
  ∀ (g : Guard) (ll : Ll) (op : PatomOp) (d : VReg) (a b : Reg), d.toNat < (m.group s).n → Reg.fits a (m.group s).n →
    (match b with
      | .v r => r.toNat + 1 < (m.group s).n
      | .s _ => True) → m.canCount s g ll → m.canRequest s c g → (m.group s).level.atLeast .control = true →
  let h := m.group s
  let ag := m.agent s c
  let k := s.ctxOf m.team
  let act := m.active s g
  let real := act &&& ~~~h.helper
  let use := if op = .ld then Use.read else Use.write
  let place := fun (i y : Nat) => ∃ p, s.seek ag use (h.reg a i) = .ok p ∧ p.addr = y
  let on := fun (i : Nat) => i < 64 ∧ real.getLsbD i = true
  s.recording k = false → s.Current s c k →
  (∀ i, on i → s.patomFault ag op (h.reg a i) = none) → s.ownedHome ag use ((lanesOf real).map (h.reg a)) = [] →
  (∀ i y, on i → place i y → (s.line (lineNo y)).key = 0 ∧ ∀ q ∈ s.guarded y, q.mask y 8 = 0) →
  (∀ i j y z, on i → on j → i ≠ j → place i y → place j z → y + 8 ≤ z ∨ z + 8 ≤ y) →
  (∀ i y l, on i → place i y → on l → lineNo y ∉ (s.walk c k (h.reg a l)).lines) →
  Ends c x m 0 (exec (.patom g ll op d a b) s) (fun u => Accessed false { s with floors := u.floors } u m ∧
    (∀ y, (∀ i z, on i → place i z → y < z ∨ z + 8 ≤ y) → get 0 y u.mem = get 0 y s.mem) ∧
    ∃ vw, Began (m.at_ s u) (m.group u) m.lanes act ll { Pend.access with vw := vw } ∧
    (∀ i, i < 64 → act.getLsbD i = true → h.helper.getLsbD i = true → find (d.toNat * 64 + i) vw = some 0) ∧
    ∀ i y, on i → place i y →
      let old := readN s.mem y 8
      find (d.toNat * 64 + i) vw = some (BitVec.ofNat 64 old) ∧
      readN u.mem y 8 = patomNew op old (h.reg b i).toNat (h.runReg b 1 i).toNat)

/-- The machine-level instructions complete at machine level (R316): `FUSERD` reads a fuse word; `KWIPE` erases the key pairs of
all contexts or of a free slot; `MEASURE` extends a register with the hash of a message or stores one; `LMSVER` answers its
status and arms the unlock with a valid token; `DBGOPEN` opens the port when R378 allows it, and clears the arming. -/
def Obligations.MachineLevelInstructionsComplete : Prop :=
  ∀ (s : State) (c : Nat) (x : Issue) (m : Member), Sole s c x m → (m.group s).level = .machine →
  ∀ (g : Guard) (ll : Ll) (d a b : SReg) (n : BitVec 8) (k : BitVec 3) (token : Bool), m.canCount s g ll →
  let h := m.group s
  let ag := m.agent s c
  let act := m.active s g
  let once := fun (i : Instr) (v : Word) (p : State → Prop) => Ends c x m 0 (exec i s) (fun u =>
    WroteS h (m.group u) m.lanes act d.toNat v ∧ p u)
  let begins := fun (i : Instr) (st : Nat) (p : State → Prop) => Ends c x m 0 (exec i s) (fun u =>
    Began (m.at_ s u) (m.group u) m.lanes act ll { Pend.zero with sw := [(d.toNat, BitVec.ofNat 64 st)] } ∧ p u)
  DoesS s c x m g (exec (.fuserd g d n) s) d (s.dev.fuse n.toNat) ∧
  (act ≠ 0 → s.recording (s.ctxOf m.team) = false →
    once (.kwipe g d none) 0 (fun u => u.mem = s.mem ∧ ∀ q y, find q u.ctxs = some y → y.key = none) ∧
    (let q := (h.sreg a.toNat).toNat % 1024
    ((s.ctx q).st = .free → once (.kwipe g d (some a)) 0 (fun u => (u.ctx q).key = none ∧ ∀ j, j ≠ q → u.ctx j = s.ctx j ∨
      ((s.ctx j).key = (s.ctx q).key ∧ u.ctx j = { s.ctx j with key := none }))) ∧
    ((s.ctx q).st ≠ .free → once (.kwipe g d (some a)) 1 (fun u => ∀ j, u.ctx j = s.ctx j))) ∧
    (let len := (h.sreg (b.toNat + 1)).toNat
    ∀ bs t, len ≠ 0 → len < 2 ^ 32 → State.readBytes ag s (h.sreg b.toNat) len = .ok (bs, t) →
      begins (.measureExt g ll d k b) 0 (fun u => u.mem = t.mem ∧ u.dev.m = (s.dev.extend k.toNat bs).m)) ∧
    (let at_ := fun (j : Nat) => h.sreg b.toNat + BitVec.ofNat 64 j
    let place := fun (j y : Nat) => ∃ p, s.seek ag .write (at_ j) = .ok p ∧ p.addr = y
    (∀ j, j < 32 → s.probe ag .write false (at_ j) = none ∧ s.ownedAmong ag .write [at_ j] = []) →
    s.Current s c (s.ctxOf m.team) →
    (∀ j l y, j < 32 → l < 32 → place j y → lineNo y ∉ (s.walk c (s.ctxOf m.team) (at_ l)).lines) →
      begins (.measureRd g ll d k b) 0 (fun u => Accessed false s u m ∧ u.dev.m = s.dev.m ∧
        ((∀ j p, j < 32 → s.seek ag .write (at_ j) = .ok p → s.Plain (s.ctxOf m.team) p.cls p.addr 1) →
          (∀ j l y, j < 32 → l < 32 → place j y → place l y → j = l) →
          (∀ y, (∀ j, j < 32 → ¬place j y) → get 0 y u.mem = get 0 y s.mem) ∧
          ∀ j y, j < 32 → place j y → get 0 y u.mem = (s.dev.meas k.toNat).extractLsb' (8 * j) 8))) ∧
    (∀ st bs t, s.lmsStatus ag token (h.sreg a.toNat) (h.sreg b.toNat) (h.sreg (b.toNat + 1)) (h.sreg (b.toNat + 2)).toNat =
        .ok ((st, bs), t) → begins (.lmsver g ll token d a b) st (fun u => u.mem = t.mem ∧
          u.dev.armed = if token = true then (if st = 0 then some (BitVec.ofNat 512 (numOf bs)) else none) else s.dev.armed)) ∧
    once (.dbgopen g d) (BitVec.ofNat 64 s.dbgStatus) (fun u => u.dev.armed = none ∧
      u.dev.jtag = (s.dev.jtag || decide (s.dbgStatus = 0)) ∧
      u.dev.m = if s.dbgStatus = 0 then (s.dev.extend 7 (bytesOf 64 (s.dev.armed.getD 0).toNat)).m else s.dev.m))

/-- `ISSUE_SELECTION` on a core between clauses, with no credit, trap or second half due: after arrivals it issues the clause of
the bundle formed from the ranked candidates, at the head's place, for its lanes alone, or counts an empty slot (R28-R31).
`AGING_CREDIT` raises a group's credit by one, to 15 at most, for every 4,096 slots waited (R30). `INSTRUCTION_CACHE_FILL`
brings the bytes of a line as memory holds them, and nothing else (R69). -/
def Obligations.IssueSelectionCompletes : Prop :=
  (∀ (s : State) (core : Nat), (s.core core).issue = none → (s.core core).second = none → s.creditsDue core = [] →
    (∀ e ∈ s.residents core, (s.group e.1 e.2.1).late = none) →
    let a := (s.residents core).foldl (fun s e => s.arriveGroup e.1 e.2.1) s
    ∃ t, exec (.issueSelection core) s = .next t ∧
      (a.chosen core = [] → t.inIssue core = none ∧ (t.core core).clocks = (s.core core).clocks + 1) ∧
      (∀ c rest h ver body, a.chosen core = c :: rest → (∀ d ∈ c :: rest, d.fault = none) → c.got = .clause h ver body →
        ∃ x, t.inIssue core = some x ∧ x.hdr = c.path.hdr ∧ x.pos = c.path.pos ∧ x.body = body ∧ x.ver = ver ∧
          x.bodyw = h.bodyw ∧ ∀ m, m ∈ x.members ↔ ∃ d ∈ c :: rest, m = ⟨d.team, d.grp, d.path.lanes⟩)) ∧
  (∀ (s : State) (team grp : Nat), s.has team grp = true → 4096 ≤ (s.group team grp).aged →
    let g := s.group team grp
    ∃ t, exec (.agingCredit team grp) s = .next t ∧
      t.group team grp = { g with credit := min 15 (g.credit + 1), aged := g.aged - 4096 } ∧
      ∀ n k, ¬(n = team ∧ k = grp) → t.group n k = s.group n k) ∧
  (∀ (s : State) (core ctx : Nat) (line : Word) (p : Spot) (bs : List Byte),
    s.look core ctx .machine .fetch (icLine line) none true = .ok p → p.held = false → s.owned (lineNo p.addr) = false →
    s.owned (lineNo p.addr + 1) = false → s.pcMiss p = none → s.codeBytes core ctx (icLine line) 16 = some bs →
    let w := s.walked { s.deviceAgent ctx with core := core } (icLine line) p
    ∃ t, exec (.instructionCacheFill core ctx line) s = .next t ∧ t = { w with cores := t.cores } ∧ t.mem = s.mem ∧
      (∀ k, k ≠ core → t.core k = w.core k) ∧ t.core core = { w.core core with ic := (t.core core).ic } ∧
      ((s.core core).ic.length < Config.icLines → ∀ k, find k (t.core core).ic =
        if k = icKey ctx (icLine line) then some bs else find k (s.core core).ic))

/-- What a group waits for arrives: an outstanding instruction that is done writes its destinations in the completing lanes,
where no later instruction has, and with its last lane raises its flags and lowers its counter (R64, R209); a fence ends (R107);
sleepers whose time has come are ready (R227); lanes whose lines are present go on or execute again (R66, R278); a woken lane
retests, and goes on with the word that it saw or waits again (R271). -/
def Obligations.WaitsComplete : Prop :=
  ∀ (s : State) (team grp : Nat), s.has team grp = true →
  let g := s.group team grp
  g.calls = [] →
  (∀ id p (lanes : Lanes), find id g.pend = some p → s.mayComplete (s.ctxOf team) p = true → p.lanes &&& lanes ≠ 0 → p.calls = [] →
    sorted p.vw = true → sorted p.pw = true → sorted p.sw = true →
    ∃ t, exec (.longLatencyCompletion team grp id lanes) s = .next t ∧ t = { s with teams := t.teams } ∧
      (∀ n k, ¬(n = team ∧ k = grp) → t.group n k = s.group n k) ∧
      (let G := t.group team grp
      let m := p.lanes &&& lanes
      (∀ r i, i < 64 → G.vreg r i = if m.getLsbD i = true ∧ find (r * 64 + i) p.deadV = none then
        (find (r * 64 + i) p.vw).getD (g.vreg r i) else g.vreg r i) ∧
      (∀ r i, r < 15 → i < 64 → G.preg r i = if m.getLsbD i = true ∧ find ((r + 640) * 64 + i) p.deadV = none then
        (find (r * 64 + i) p.pw).getD (g.preg r i) else g.preg r i) ∧
      (p.lanes &&& ~~~lanes ≠ 0 → (find id G.pend).map (·.lanes) = some (p.lanes &&& ~~~lanes) ∧ G.flags = g.flags ∧ G.d = g.d ∧
        G.s = g.s) ∧
      (p.lanes &&& ~~~lanes = 0 → find id G.pend = none ∧ G.flags = g.flags ||| p.flags ∧
        (∀ k, G.dreg k = if p.dc.map BitVec.toNat = some k then g.dreg k - 1 else g.dreg k) ∧
        ∀ k, k ≠ 0 → k ≠ 2 → G.sreg k = if find k p.deadS = none then (find k p.sw).getD (g.sreg k) else g.sreg k))) ∧
  (∀ id f, find id g.fences = some f → ∃ t, exec (.fenceComplete team grp id) s = .next t ∧
    t.group team grp = { g with fences := del id g.fences } ∧ (∀ n k, ¬(n = team ∧ k = grp) → t.group n k = s.group n k) ∧
    (f.2 = .dev → t = { s with teams := t.teams }) ∧
    (f.2 = .pool → t = { s with teams := t.teams, cores := t.cores, homeOld := [], frameOld := [] } ∧
      ∀ c l, (s.team team).core = some c → 2 ^ 54 ≤ l → l < 2 * 2 ^ 54 →
        find (l1Key (s.ctxOf team) l) (t.core c).l1 = none) ∧
    (f.2 = .host → t = { s with teams := t.teams, ports := t.ports, mem := t.mem, lines := t.lines } ∧
      (∀ p x, find p t.ports = some x → x.posted = []) ∧
      ((∀ p x, find p s.ports = some x → x.posted = []) → t.mem = s.mem))) ∧
  (∀ lanes, ∃ t, exec (.sleepExpiry team grp lanes) s = .next t ∧
    t.group team grp = { g with pc := (t.group team grp).pc, st := (t.group team grp).st, wait := (t.group team grp).wait,
                                hdr := (t.group team grp).hdr } ∧
    ∀ i tick, i < 64 → sorted g.wait = true → find i g.wait = some (.sleep tick) →
      if lanes.getLsbD i = true ∧ tick ≤ s.dev.datum then
        (t.group team grp).state i = 1 ∧ (t.group team grp).lanePc i = g.lanePc i ∧ find i (t.group team grp).wait = none
      else (t.group team grp).state i = g.state i ∧ find i (t.group team grp).wait = find i g.wait) ∧
  (∃ t, exec (.presenceResume team grp) s = .next t ∧ ∀ i, i < 64 → sorted g.wait = true → ∀ n ls h, find i g.hdr = some h →
    (find i g.wait = some (.lines n ls false) → (∀ l ∈ ls, (s.team n).present l = true) →
      (t.group team grp).state i = 1 ∧ (t.group team grp).lanePc i = successor h.1 h.2 ∧ find i (t.group team grp).wait = none) ∧
    ((find i g.wait = some (.lines n ls true) ∧ (∀ l ∈ ls, (s.team n).present l = true)) ∨
        (find i g.wait = some (.owned ls) ∧ ∀ l ∈ ls, s.owned l = false) →
      (t.group team grp).state i = 1 ∧ (t.group team grp).lanePc i = g.lanePc i ∧ find i (t.group team grp).hdr = some h ∧
        find i (t.group team grp).wait = none)) ∧
  (let a := s.groupAgent team grp
  ∀ i cc ty y dst va h lanes, i < 64 → lanes &&& s.wokenLanes team grp = laneBit i →
    find i g.wait = some (.word cc ty y dst va) → find i g.hdr = some h → (s.team team).core.isSome = true → s.mayIssue a.ctx = true →
    s.keyFault a true va = none → s.ownedHome a .read [va] = [] → s.recording a.ctx = false →
    ∃ t, exec (.waitaRetest team grp lanes) s = .next t ∧ t.mem = s.mem ∧ ∀ p, s.seek a .read va = .ok p →
      (let w := BitVec.ofNat 64 (s.readKey (s.keyOf a.ctx) p.addr 8).1
      let G := t.group team grp
      if waitHolds cc ty w y = true then
        G.state i = 1 ∧ G.lanePc i = successor h.1 h.2 ∧ find i G.wait = none ∧ (∀ r : VReg, dst = some r → G.vreg r.toNat i = w)
      else G.state i = g.state i ∧ find i G.wait = find i g.wait ∧ G.lanePc i = g.lanePc i ∧
        ∃ r ∈ t.regs, r.ctx = a.ctx ∧ r.key = signVa va ∧ r.woken = false ∧ ∃ ls, r.who = .lanes team grp ls ∧ ls.getLsbD i = true))

/-- Engines of storage: a waiting acquire or take fires, moves its pointer and answers its slot (R41, R71); the first commit or
release recorded takes effect (R72); an operation whose lines are free owns them and fixes its timestamp (R99); a copy begins
behind no earlier one of its group, and moves one row: the bytes of a `CPW` into the share are those of memory (R264, R265). -/
def Obligations.StorageEventsComplete : Prop :=
  ∀ (s : State),
  (∀ team k w g, (find team s.teams).isSome = true → ((s.team team).shelf k).ready = some w → w.who = .group g →
    s.has team g = true → (s.group team g).calls = [] →
    let h := (s.team team).shelf k
    let q := h.claim w.take w.count
    ∃ t, exec (.shelfFire team k) s = .next t ∧ t = { s with teams := t.teams } ∧
      (t.team team).shelf k = { q.2 with wants := h.wants.filter (fun x => x.ticket != w.ticket) } ∧
      (∀ r, (t.group team g).sreg r = if r = w.d.toNat ∧ r ≠ 0 ∧ r ≠ 2 then BitVec.ofNat 64 (h.slotAt q.1 + q.1 * 2 ^ 32)
        else (s.group team g).sreg r) ∧
      (t.group team g).gts = max (s.group team g).gts (if w.take then h.timeOf q.1 w.count else 0) ∧
      ∀ i, i < 64 → w.lanes.getLsbD i = true → (t.group team g).state i = 1 ∧ find i (t.group team g).wait = none) ∧
  (∀ team k d, (find team s.teams).isSome = true → s.dueReady team ((s.team team).shelf k) = some d → d.pend = none →
    let h : Shelf := { (s.team team).shelf k with dues := ((s.team team).shelf k).dues.drop 1 }
    ∃ t, exec (.shelfCommitEffect team k) s = .next t ∧ t = { s with teams := t.teams } ∧
      (t.team team).shelf k = (if d.release then h.release d.count else match d.slots with
        | some ts => h.commitAt ts
        | none => h.commit (max d.time (s.group team d.grp).gts) d.count) ∧
      ∀ j, j ≠ k → (t.team team).shelf j = (s.team team).shelf j) ∧
  (∀ id o, find id s.ops = some o → o.park = none → o.e = none → (o.body.unit = 0 ∨ s.unitsRun o.ctx = true) →
    (∀ l ∈ o.need, s.ownedBut (some id) l = false) →
    let time := max (max o.pts (s.pts o.agent))
      (s.ownTime o.agent ((o.own ++ o.need).filter (fun l => (find l o.etimes).isNone)))
    ∃ t, exec (.ownershipGrant id) s = .next t ∧ (∀ j, j ≠ id → find j t.ops = find j s.ops) ∧
      ((∀ c, o.body ≠ .near c) → t.mem = s.mem ∧
        find id t.ops = some { o with need := [], own := o.own ++ o.need, e := some time } ∧
        (s.has o.team o.grp = true → (t.group o.team o.grp).gts = max (s.group o.team o.grp).gts time)) ∧
      (∀ c, o.body = .near c → o.await = false → o.held = false → c.src = [] → find id t.ops = none ∧
        ((∀ p ∈ c.into, s.Plain o.ctx p.1 p.2.1 p.2.2) →
          c.into.Pairwise (fun p q => p.2.1 + p.2.2 ≤ q.2.1 ∨ q.2.1 + q.2.2 ≤ p.2.1) →
          ∀ y ∈ c.into.zip c.vals, readN t.mem y.1.2.1 y.1.2.2 = y.2 % 2 ^ (8 * y.1.2.2)))) ∧
  (∀ id o c, find id s.ops = some o → o.body = .copy c → o.park = none →
    (o.begun = false → c.shelf = none → s.behindCopy id o = false → s.unitsRun o.ctx = true →
      ∃ t, exec (.copyBegin id) s = .next t ∧ t = { s with ops := t.ops } ∧ find id t.ops = some { o with begun := true } ∧
        ∀ j, j ≠ id → find j t.ops = find j s.ops) ∧
    (o.begun = true → c.form = 4 → c.shelf = none → c.row + 1 < c.rows → s.obstacle o.agent .read (c.addrs c.row) = none →
      s.readsWait id o.agent (c.addrs c.row) = false → s.writesLater id o c = false → s.readsLater id o c (c.lines c.row) = false →
      (∀ va ∈ c.addrs c.row, ∀ p, s.seek o.agent .read va = .ok p → p.cls ≠ 5) →
      s.recording o.ctx = false → s.has o.team o.grp = true → c.share % 256 = 0 →
      ∃ t, exec (.copyRow id) s = .next t ∧ t.mem = s.mem ∧
        (∃ p, find id t.ops = some { o with body := .copy p } ∧ p.row = c.row + 1 ∧ p.rows = c.rows ∧ p.form = c.form ∧
          p.share = c.share ∧ p.mem = c.mem) ∧
        (∀ k p, k < 32 → s.seek o.agent .read (BitVec.ofNat 64 (c.mem + 256 * c.row + 8 * k)) = .ok p → p.addr % 64 + 8 ≤ 64 →
          find (l1Key o.ctx (lineNo p.addr)) (s.core o.core).l1 = none →
          readN (t.team o.team).scratch (c.share + 256 * c.row + 8 * k) 8 = (s.readKey (s.keyOf o.ctx) p.addr 8).1) ∧
        ∀ b, (b < c.share + 256 * c.row ∨ c.share + 256 * c.row + 256 ≤ b) →
          get 0 b (t.team o.team).scratch = get 0 b (s.team o.team).scratch))

/-- Exceptions from outside a group's instruction: a parked unit's fault at a clause boundary, and a user-level interrupt, put
every live lane at the handler, or at the kernel's entry, with the exception registers as R186, R190 and R194 say, where the
frame can be stored; a `PATOM` without an answer halts its context with Host-Lost (R187, R315, R402). -/
def Obligations.DeliveriesEnterTheHandler : Prop :=
  ∀ (s : State) (team grp : Nat), s.has team grp = true →
  let g := s.group team grp
  let a := s.groupAgent team grp
  let at_ : Agent := { a with level := .control }
  let pc := g.lanePc (lowest g.live)
  let there := fun (G : Group) (target : Word) => ∀ j, j < 64 →
    (g.live.getLsbD j = true → G.state j = 1 ∧ G.lanePc j = target ∧ find j G.wait = none ∧ find j G.hdr = none) ∧
    (g.live.getLsbD j = false → G.state j = g.state j ∧ G.lanePc j = g.lanePc j)
  g.live ≠ 0 → (get Trace.zero (a.core / 96) s.traces).en = false →
  (∀ unit u p, s.dueFault team grp = some (unit, u, p) → s.waitsAt u = none → s.mayTrap team grp false = true →
    s.boundary team grp = true → g.level = .user →
    Storable (s.markDelivered u) at_ g.s2 128 →
    ∃ t, exec (.parkedFaultDelivery team grp) s = .next t ∧
      (let G := t.group team grp
      G.level = .control ∧ G.uien = false ∧ G.trappc = pc ∧
      G.faultinfo = BitVec.ofNat 64 (p.kind.code + unit * 2 ^ 8 + p.detail % 2 ^ 16 * 2 ^ 16) ∧ G.faultlanes = 0 ∧
      there G ((s.ctx a.ctx).tvec &&& ~~~7))) ∧
  (∀ hd n, s.headerOf team = some hd → hd.uient ≠ 0 → g.interrupt = some n → g.uien = true → g.level = .user →
    s.mayTrap team grp true = true →
    s.boundary team grp = true → s.dueFault team grp = none → (s.team team).core.isSome = true → s.mayIssue a.ctx = true →
    Storable s at_ (g.s2 + 0x2000) 128 →
    ∃ t, exec (.userInterruptTake team grp) s = .next t ∧
      (let G := t.group team grp
      G.level = .user ∧ G.uien = false ∧ G.trappc = pc ∧
      G.faultinfo = BitVec.ofNat 64 (Kind.userInterrupt.code + n * 2 ^ 16) ∧ G.faultlanes = 0 ∧
      (∀ k, k < 16 → G.uipend.getLsbD k = (g.uipend.getLsbD k && decide (k ≠ n))) ∧ there G (s.uiEntry team))) ∧
  (∀ port, g.level = .control → ∃ t, exec (.patomHeartbeatDeadline team grp port) s = .next t ∧
    (t.ctx a.ctx).st = .halted ∧ (t.ctx a.ctx).err = some (Kind.hostLost.code, 0, (s.team team).no, grp, pc))

/-- The distributor places the next gang of the first grid in the queue on the cores that R39 gives, or waits; a group that is
over ends; a complete grid lowers its counter and ends (R225, R313, R335); an extra group starts for the parcels that an engine
has admitted (R26, R171). -/
def Obligations.PlacementAndEndsComplete : Prop :=
  ∀ (s : State),
  (∀ part p c id g, find part s.parts = some p → p.running = some c → (s.ctx c).st = .running → p.halting = false →
    p.swapping = false → p.halted = false → p.waits = false → s.unplaced c = false → s.firstGrid c = some (id, g) →
    (∀ cs, s.nextGang p g = some cs → ∃ t, exec (.gangPlacement part) s = .next t ∧
      (∀ k, k < cs.length → ∃ n x, find n s.teams = none ∧ find n t.teams = some x ∧ x.core = cs[k]? ∧ x.no = g.next + k ∧
        x.rank = k ∧ x.gsize = cs.length ∧ x.grid = id ∧ x.ctx = g.ctx ∧ x.gang = g.gangs) ∧
      find id t.grids = some { g with
        next := g.next + cs.length, gangs := g.gangs + 1, live := g.live + cs.length, queued := decide (g.next + cs.length < g.teams) } ∧
      t.mem = s.mem) ∧
    (s.nextGang p g = none → exec (.gangPlacement part) s =
      .next { s with parts := adjust part (fun p => { p with waits := true }) s.parts })) ∧
  (∀ team grp, s.groupOver team grp = true → (s.group team grp).sort = .normal → (find team s.teams).isSome = true →
    ∃ t, exec (.groupEnd team grp) s = .next t ∧ t.mem = s.mem ∧
      (find team t.teams = none ∨ find grp (t.team team).groups = none ∧ (t.team team).ended = (s.team team).ended + 1) ∧
      ∀ n, n ≠ team → t.team n = s.team n) ∧
  (∀ id g, find id s.grids = some g → g.complete = true → g.record.extractLsb' 288 64 = 0 → s.has g.team g.grp = true →
    ∃ t, exec (.gridCompletion id) s = .next t ∧ find id t.grids = none ∧ (∀ j, j ≠ id → find j t.grids = find j s.grids) ∧
      (s.ctxOf g.team < 1024 → ∀ k, (t.group g.team g.grp).dreg k =
        if g.dc = some k then (s.group g.team g.grp).dreg k - 1 else (s.group g.team g.grp).dreg k) ∧
      (1024 ≤ s.ctxOf g.team → ∀ k, get 0 k (t.group g.team g.grp).owed =
        get 0 k (s.group g.team g.grp).owed + (if g.dc = some k then 1 else 0))) ∧
  (∀ sw rank w x n q entry is rest vs t0, find sw s.sweeps = some w → find rank w.engines = some x → s.engineRuns w x = true →
    x.formed = (entry, is) :: rest → is.length ≤ 32 →
    (let vcnt := match s.headerOf x.team with
      | some h => (match h.roles[w.role]? with
        | some r => r.vcnt
        | none => 0)
      | none => 0
    s.extraRoom x.team 32 (groupRows vcnt 32) = some n → s.freePlace x.team = some q →
    s.formRegs (s.sweepAgent w x) w.record is = .ok (vs, t0) → (find x.team s.teams).isSome = true →
    ∃ t, exec (.extraGroupStart true sw rank) s = .next t ∧ t.mem = t0.mem ∧
      ∃ G, find n (t.team x.team).groups = some G ∧ G.width = 32 ∧ G.n = vcnt ∧
      (∀ i, i < 64 → G.state i = if i < is.length then 1 else 0) ∧
      (∀ i, i < is.length → G.lanePc i = entry ∧ (∀ r, G.vreg r i = get 0 (r * 64 + i) vs)) ∧
      G.sreg 3 = w.handle ∧ G.sreg 4 = BitVec.ofNat 64 x.cc ∧ G.sreg 5 = BitVec.ofNat 64 x.pass ∧
      ∃ y, (find sw t.sweeps).bind (fun w => find rank w.engines) = some y ∧ y.formed = rest ∧ find q y.places = some n)) ∧
  (∀ id o r h y role n q, find id s.ops = some o → o.body = .rast r → o.park = none → r.stage = 2 → r.quads ≠ [] →
    r.setup = some y → s.headerOf o.team = some h → h.roles[r.role]? = some role → (find o.team s.teams).isSome = true →
    s.extraRoom o.team h.width (groupRows role.vcnt h.width) = some n → (List.range 4).find? (fun q => (find q r.places).isNone) = some q →
    let qs := r.quads.take (h.width / 4)
    let covered := fun (i : Nat) => (qs.getD (i / 4) (0, 0, 0)).2.2.testBit (i % 4)
    ∃ t, exec (.extraGroupStart false id 0) s = .next t ∧ t.mem = s.mem ∧
      ∃ G, find n (t.team o.team).groups = some G ∧ G.width = h.width ∧ G.n = role.vcnt ∧ G.sreg 3 = r.addr ∧
        G.sreg 4 = BitVec.ofNat 64 r.tri ∧
        (∀ i, i < 64 → i < h.width → G.state i = (if i < 4 * qs.length then 1 else 0) ∧
          (i < 4 * qs.length → (G.helper.getLsbD i = !covered i) ∧ G.preg 0 i = covered i ∧ G.preg 1 i = y.back ∧
            ∀ p, (quadPixels (qs.getD (i / 4) (0, 0, 0)))[i % 4]? = some p → G.vreg 0 i = BitVec.ofNat 64 (p.1 + p.2 * 2 ^ 32))) ∧
        ∃ z, (find id t.ops).map (·.body) = some (.rast z) ∧ find q z.places = some n ∧
          (r.quads.drop (h.width / 4) ≠ [] → z.quads = r.quads.drop (h.width / 4) ∧ z.tri = r.tri) ∧
          (r.quads.drop (h.width / 4) = [] → z.quads = [] ∧ z.tri = r.tri + 1 ∧ z.setup = none))

/-- Engines that traverse and render take their steps. A ray tests the node, or the triangle, that it has reached or pops: its hit
children are pushed in their order, and an opaque triangle that it meets is accepted; an entry beyond its distance is dropped; a
ray with nothing left ends, and an operation whose rays have all ended or stopped completes (R154-R157, R307). A pair is
replaced by the pairs to visit or appended to the list, and an empty stack ends the traverse (R162, R163, R310). A quad's texels
are read and the results of its lanes written (R304). A triangle's coordinates are read; one that covers nothing is passed over,
one on the fixed path merges its covered pixels or gives its quads, one on the software path is appended, and a stream without
triangles or fragment groups left completes (R300). -/
def Obligations.GraphicsEnginesStep : Prop :=
  ∀ (s : State) (id : Nat) (o : Op), find id s.ops = some o → o.park = none → o.spent = false → o.await = false → o.held = false →
    s.has o.team o.grp = true →
  let g := s.group o.team o.grp
  let ag := o.agent
  let over_ := fun (t : State) => find id t.ops = none ∧ ∀ k q, o.pend = some k → find k g.pend = some q →
    ∃ p, find k (t.group o.team o.grp).pend = some p ∧ p.ready = true
  let gives := fun (t : State) (d : SReg) (w : Word) => ∀ k q, o.pend = some k → find k g.pend = some q →
    ∃ p, find k (t.group o.team o.grp).pend = some p ∧ p.sw = [(d.toNat, w)]
  let body := fun (t : State) => (find id t.ops).map (·.body)
  (∀ x, o.body = .ray x →
    ((∀ i r, i < 64 → x.lanes.getLsbD i = true → find i g.rays = some r → r.status ≠ 0) →
      ∃ t, exec (.traverseStep id) s = .next t ∧ over_ t) ∧
    (∀ i r, i < 64 → x.lanes.getLsbD i = true → find i g.rays = some r → r.status = 0 →
      (∀ j q, j < i → x.lanes.getLsbD j = true → find j g.rays = some q → q.status ≠ 0) →
      let becomes := fun (q : Ray) (mem : SMap Byte) => ∃ t, exec (.traverseStep id) s = .next t ∧ t.mem = mem ∧
        (find id t.ops).isSome = true ∧ (∀ j, j ≠ i → find j (t.group o.team o.grp).rays = find j g.rays) ∧
        find i (t.group o.team o.grp).rays = some q
      (r.node = none → r.stack = [] → r.spilled = 0 → becomes (r.ended (if r.bestValid then 1 else 2)) s.mem) ∧
      (∀ e es, r.node = none → r.stack = e :: es → cmp32 r.tmax e.2.1 < 0 → becomes { r with stack := es } s.mem) ∧
      (∀ q ref od ids t0 v t1, (r.node = some ref ∧ q = r) ∨
          (r.node = none ∧ ∃ e es, r.stack = e :: es ∧ ¬(cmp32 r.tmax e.2.1 < 0) ∧ ref = e.1 ∧
            q = { r with stack := es, node := some e.1, level := e.2.2, tri := 0, child := 0 }) →
        State.objectRay id ag s (q.recs.take q.level) (q.org, q.dir) [] = .ok (t0, od, ids) →
        t0.sight id ag (ref / 128 * 128) 16 = .bits v t1 →
        (ref % 128 = 0 → ∀ cs, nodeChildren v = some cs →
          let tests := (cs.filter (fun c => c.kind != .box && decide (q.child ≤ c.index))).map (fun c =>
            (c, boxTest od.1 od.2 q.tmin q.tmax c.box))
          let hits := (popOrder (tests.filterMap (fun y => match y.2 with
            | .hit n => some (n.1, y.1.index, childRef ref y.1)
            | .miss | .free => none))).map (fun h => (h.2.2, h.1, q.level))
          (∀ y ∈ tests, y.2 ≠ .free) → hits.length + q.stack.length ≤ 32 → q.depth + hits.length ≤ t1.rayDepth o →
          becomes { q with node := none, child := 0, stack := hits ++ q.stack } t1.mem) ∧
        (∀ cs c w t2, ref / 64 % 2 = 1 → nodeChildren v = some cs → cs.find? (fun c => c.index == ref % 8) = some c →
          c.kind = .triangles → q.tri < c.count → t1.sight id ag ((c.ref + 64 * q.tri) % 2 ^ 64) 8 = .bits w t2 →
          let p := fun (k : Nat) => (List.range 3).map (fun j => (w / 2 ^ (96 * k + 32 * j)) % 2 ^ 32)
          let n := if c.count ≤ q.tri + 1 then { q with node := none, tri := 0 } else { q with tri := q.tri + 1 }
          (triTest od.1 od.2 [p 0, p 1, p 2] = .miss → becomes n t2.mem) ∧
          (∀ d w1 w2, triTest od.1 od.2 [p 0, p 1, p 2] = .hit (d, w1, w2) → w.testBit 352 = true → q.any = false →
            becomes (if le32 q.tmin d = true ∧ le32 d q.tmax = true then
              n.accept d (w / 2 ^ 288 % 2 ^ 32) (w / 2 ^ 320 % 2 ^ 32) (pathIds ids) else n) t2.mem))))) ∧
  (∀ p, o.body = .pair p →
    (p.pending = none → p.stack = [] → p.spilled = 0 → ∃ t, exec (.pairStep id) s = .next t ∧ over_ t ∧
      gives t p.d (BitVec.ofNat 64 (p.appended * 2 ^ 32))) ∧
    (∀ x rest, (p.pending = none ∧ p.stack = x :: rest) ∨ (p.pending = some x ∧ p.stack = rest) →
      (∀ ps t0, s.pairStep id ag p.self x.1 x.2 = .ok (.visit ps, t0) → ps.length + rest.length ≤ 64 →
        p.spilled + (ps.length + rest.length) ≤ t0.pairDepth o.team → ∃ t, exec (.pairStep id) s = .next t ∧ t.mem = t0.mem ∧
          body t = some (.pair { p with pending := none, stack := ps ++ rest })) ∧
      (∀ f f' t0 q l, s.pairStep id ag p.self x.1 x.2 = .ok (.emit f f', t0) → t0.obstacle ag .write [p.list] = none →
        t0.listAt ag p.list = .ok (q, l) → l.iszc = 1 → q.held = false → t0.owned (lineNo q.addr) = false → l.room ≠ 0 →
        t0.obstacle ag .write (l.itemWords l.puts) = none → t0.itemFault ag .write l l.puts = none →
        t0.ownedAmong ag .write (l.itemWords l.puts) = [] → ∃ t, exec (.pairStep id) s = .next t ∧
          t.mem = (t0.listAppend ag p.list l [[f + f' * 2 ^ 32, p.tag + p.seqno * 2 ^ 32]]).mem ∧
          body t = some (.pair { p with
            pending := none, stack := rest, seqno := (p.seqno + 1) % 2 ^ 32, appended := p.appended + 1 })))) ∧
  (∀ x, o.body = .tex x →
    (16 ≤ x.quad ∨ x.lanes &&& ~~~x.done = 0 → ∃ t, exec (.textureQuad id) s = .next t ∧ over_ t) ∧
    (x.quad < 16 → x.lanes &&& ~~~x.done ≠ 0 →
      let on := (lanesOf x.lanes).filter (fun i => i / 4 == x.quad && !x.done.getLsbD i)
      let lanes := on.map (fun i => (i, x.lane (s.free 0) i))
      let real := x.vas (lanes.filter (fun y => !g.helper.getLsbD y.1))
      let texels := s.readTexels ag x.desc (lanes.flatMap (fun y => x.wanted y.2)).eraseDups
      let fetch := fun (y : Nat × Nat × Nat × Nat) => match texels.1.find? (fun z => z.1 == y) with
        | some z => z.2
        | none => 0
      let result := fun (i k : Nat) => (x.result (x.lane (s.free 0) i) fetch)[k]?
      s.texObstacle ag real (x.vas lanes) = none → s.readsWait id ag (x.vas lanes) = false →
      (∀ va ∈ real, s.badAt ag va = false) →
      ∃ t, exec (.textureQuad id) s = .next t ∧ t.mem = texels.2.mem ∧
        body t = some (.tex { x with quad := x.quad + 1, done := on.foldl (fun m i => m ||| laneBit i) x.done }) ∧
        ∀ r i, i < 64 → (t.group o.team o.grp).vreg r i = if i ∈ on ∧ x.d ≤ r then
          ((result i (r - x.d)).map (BitVec.ofNat 64)).getD (g.vreg r i) else g.vreg r i)) ∧
  (∀ r, o.body = .rast r → s.behindRast id o = false → o.need = [] → s.unitsRun o.ctx = true →
    let s0 := s.onOp id (fun o => { o with begun := true })
    let steps := fun (mem : SMap Byte) (q : RastOp) => ∃ t, exec (.rasterTriangle id) s = .next t ∧ t.mem = mem ∧
      body t = some (.rast q)
    (r.ntri ≤ r.tri → r.places = [] → ∃ t, exec (.rasterTriangle id) s = .next t ∧ over_ t ∧
      gives t r.d (BitVec.ofNat 64 (r.fixed + r.appended * 2 ^ 32))) ∧
    (∀ xs t0, r.tri < r.ntri → r.setup = none → s0.fetchTri id ag r = .ok (xs, t0) → triOf xs = none → steps t0.mem r.next) ∧
    (∀ y q s1, r.tri < r.ntri → (r.setup = some y ∧ q = r ∧ s1 = s0) ∨ (r.setup = none ∧ ∃ xs t0,
        s0.fetchTri id ag r = .ok (xs, t0) ∧ triOf xs = some y ∧ q = { r with setup := some y } ∧ s1 = t0.onRast id q) →
      r.stage = 0 →
      (y.boxArea = 0 ∨ (y.back = true ∧ r.cullb = true) → steps s1.mem q.next) ∧
      (y.boxArea ≠ 0 → ¬(y.back = true ∧ r.cullb = true) → r.area ≤ y.boxArea →
        let box := y.clip r.width r.height
        let z := { q with stage := 1, fixed := r.fixed + 1, px := box.1, py := box.2.2.1 }
        (∀ t0, r.frag = false → (s1.onRast id z).mergePixels ag z y o.own o.timeOf (y.pixels r.width r.height z.px z.py) =
          (none, t0) → steps t0.mem z.next) ∧
        (∀ v vs, r.frag = true → y.quads r.width r.height z.px z.py = v :: vs →
          steps s1.mem { z with stage := 2, px := v.1, py := v.2.1, quads := v :: vs })) ∧
      (∀ v l, y.boxArea ≠ 0 → ¬(y.back = true ∧ r.cullb = true) → y.boxArea < r.area →
        let z := { q with stage := 3 }
        let s2 := s1.onRast id z
        s2.obstacle ag .write [r.list] = none → s2.listAt ag r.list = .ok (v, l) → l.iszc = 1 → v.held = false →
        s2.owned (lineNo v.addr) = false → l.room ≠ 0 → s2.obstacle ag .write (l.itemWords l.puts) = none →
        s2.itemFault ag .write l l.puts = none → s2.ownedAmong ag .write (l.itemWords l.puts) = [] →
        steps (s2.listAppend ag r.list l [[r.addr.toNat, r.tri + (if y.back then 2 ^ 32 else 0)]]).mem
          { z with appended := r.appended + 1 }.next)))

/-- Sweep engines take their steps. An engine claims the bits of a row word and admits their parcels in ascending order, or, past
its last continuation, comes to the barrier (R172); the parcel of a lane whose sweep group has ended is written back, first its
registers and element, then its word and its row, and a group whose parcels are all written back gives up its place (R173); a
barrier step moves a word of the next row into the awake row; and the end of the barrier of the last pass ends the sweep with
its status (R178, R179, R295). -/
def Obligations.SweepEnginesStep : Prop :=
  ∀ (s : State) (sw rank : Nat) (w : Sweep) (x : Engine), find sw s.sweeps = some w → find rank w.engines = some x →
    s.engineRuns w x = true →
  let a := s.sweepAgent w x
  let after := fun (t : State) (y : Engine) => (find sw t.sweeps).bind (fun w => find rank w.engines) = some y
  (x.phase = .claim → w.built = true → w.stop = false → x.claimed.2 = 0 →
    (w.nc ≤ x.cc → x.drained = true → ∃ t, exec (.sweepClaim sw rank) s = .next t ∧ t.mem = s.mem ∧
      after t { x with phase := .barrier1, next := 0 }) ∧
    (∀ k mask b t0 y t1, x.cc < w.nc → (rowWords (max (w.range rank).1 x.cursor) (w.range rank).2).head? = some (k, mask) →
      s.rowTake a w.record 0 x.cc k mask = .ok (b, t0) →
      let z := { x with claimed := (k, BitVec.ofNat 64 b), cursor := min (64 * k + 64) (w.range rank).2 }
      State.admitAll a w ((lanesOf (BitVec.ofNat 64 b)).map (fun j => 64 * k + j)) z
        (t0.onEngine sw rank (fun _ => z)) = (y, t1, none) →
      ∃ t, exec (.sweepClaim sw rank) s = .next t ∧ t.mem = t1.mem ∧
        after t (if (w.range rank).2 ≤ y.cursor ∧ y.claimed.2 = 0 then y.form else y))) ∧
  (x.phase = .build →
    (∀ i, x.cleared = true → i = x.next → i < (w.range rank).2 → ∀ t0, s.buildParcel a w x.pass i = .ok t0 →
      ∃ t, exec (.sweepClaim sw rank) s = .next t ∧ t.mem = t0.mem ∧ after t { x with next := i + 1 })) ∧
  (∀ q n sweep rk pl ct ps i, x.places.find? (fun p => ((s.team x.team).group p.2).finished) = some (q, n) →
    (s.group x.team n).sort = .sweep sweep rk pl ct ps →
    let g := s.group x.team n
    let at_ := (get (n, 0, 1) q x.wb).2
    let s0 := s.onEngine sw rank (fun x => { x with wb := put q (n, at_) x.wb })
    let c := find at_.1 g.carry
    let next := fun (t : State) (y : Nat × Nat) => ∃ z, after t z ∧ find q z.wb = some (n, y) ∧ z.places = x.places
    (find at_.1 ps = none → ∃ t, exec (.sweepWriteback sw rank) s = .next t ∧ t.mem = s.mem ∧
      ∃ y, after t y ∧ (∀ j, find j y.places = if j = q then none else find j x.places) ∧ y.phase = x.phase) ∧
    (find at_.1 ps = some i → at_.2 = 1 → w.wbBad x.pass i c = false → x.op = none →
      let xs := wbStores w.record g at_.1 i
      s0.obstacle a .write (xs.map (·.1)) = none →
      (∀ p ∈ s0.spots a .write (xs.map (·.1)), s.owned (lineNo p.addr) = false ∧ s.Plain w.ctx p.cls p.addr 8) →
      (∀ y ∈ xs, ∃ p, s0.seek a .write y.1 = .ok p ∧ ∀ z ∈ xs, lineNo p.addr ∉ (s.walk a.core w.ctx z.1).lines) →
      (∀ y ∈ xs, ∀ z ∈ xs, ∀ p q, y.1 ≠ z.1 → s0.seek a .write y.1 = .ok p → s0.seek a .write z.1 = .ok q →
        p.addr + y.2.1 ≤ q.addr ∨ q.addr + z.2.1 ≤ p.addr) → s.Current s a.core w.ctx →
      ∃ t, exec (.sweepWriteback sw rank) s = .next t ∧ next t (at_.1, 2) ∧
        ∀ y ∈ xs, ∀ p, s0.seek a .write y.1 = .ok p → readN t.mem p.addr y.2.1 = y.2.2 % 2 ^ (8 * y.2.1)) ∧
    (∀ t0 t1, find at_.1 ps = some i → at_.2 = 2 → s0.wbWord a w x.pass i c = .ok t0 →
      (t0.wbTo sw rank q at_.1 3).wbRow a w i = .ok t1 →
      ∃ t, exec (.sweepWriteback sw rank) s = .next t ∧ t.mem = t1.mem ∧ next t (at_.1 + 1, 1))) ∧
  ((∀ e ∈ w.engines, s.engineRuns w e.2 = true) →
    (∀ c k mask t0, w.engines.find? (fun e => e.2.phase == .barrier1) = some (rank, x) →
      (∀ e ∈ w.engines, e.2.phase = .barrier1 ∨ e.2.phase = .barrier2) →
      w.rowList (w.range rank).1 (w.range rank).2 x.next = some (c, k, mask) → s.barrierNext a w c k mask = .ok t0 →
      ∃ t, exec (.passBarrier sw) s = .next t ∧ t.mem = t0.mem ∧ after t { x with next := x.next + 1 }) ∧
    (∀ t0 e es, w.engines = e :: es → (∀ e ∈ w.engines, e.2.phase = .done) → w.mode = .one → w.broken = false →
      s.has w.team w.grp = true → (∀ e ∈ w.engines, e.2.held = false) →
      s.sweepTest sw w (s.sweepAgent w e.2) = .ok t0 →
      ∃ t, exec (.passBarrier sw) s = .next t ∧ find sw t.sweeps = none ∧ t.mem = t0.mem ∧
        ∀ k q, w.pend = some k → find k (s.group w.team w.grp).pend = some q →
          ∃ p n, find k (t.group w.team w.grp).pend = some p ∧ p.ready = true ∧ p.sw = [(w.d.toNat, n)] ∧
            n.extractLsb' 32 32 = BitVec.ofNat 32 (min (w.passes + 1) 0xFFFFFFFF) ∧ n.getLsbD 1 = w.stop ∧ n.getLsbD 2 = false))

/-- The outside acts (R105, R353-R362): a fill brings its sector and lets the units go on that wait for it, a batch that is due
issues its fills, a snoop or a back-invalidation ends the copies of a line that no operation owns and no L1 copy can serve, and
waits while one does; windows read and write under the window context, wait for an owned line, or abort; signals wake, register,
post or are ignored; a lost port closes, and a heartbeat is written when due. -/
def Obligations.HostEventsComplete : Prop :=
  ∀ (s : State), s.dev.stopped = false → s.dev.deep = false → (∀ i ∈ s.waiting, requestPort i = none) →
  let set_ := fun (p : Nat) (r : Option (BitVec 512)) => s.onPort p (fun x => { x with reply := r })
  let ignored := ({ s with dev := { s.dev with ignored := s.dev.ignored + 1 } } : State)
  let waits := fun (i : Instr) => exec i s = .next { s with waiting := s.waiting ++ [i] }
  (∀ k f t0, s.fills.find? (fun x => x.sector == k) = some f →
    ({ s with fills := s.fills.erase f } : State).allotFrame (regionOf k)
      (fun r => f.demand || !f.batch.any (fun x => regionOf x == r)) = some t0 →
    ∃ t : State, exec (.pageCacheFillDone k) s = .next (t.refilled k) ∧ t.sectorIn k = true ∧ t.mem = t0.mem ∧
      ∀ j, j ≠ k → (∃ y ∈ s.fills, y.sector = j) → ∃ y ∈ t.fills, y.sector = j) ∧
  (∀ d b, find d s.batches = some b → 64 ≤ b.2.length ∨ b.1 + 256 ≤ s.dev.datum →
    ∃ t, exec (.coalescerBatchClose d) s = .next t ∧ t = { s with batches := t.batches, fills := t.fills } ∧
      find d t.batches = none ∧ ∀ k, (∃ y ∈ t.fills, y.sector = k) ↔ (∃ y ∈ s.fills, y.sector = k) ∨ k ∈ b.2) ∧
  (∀ l data, (let a := backing 2 (l * 64)
    (s.snoopable (lineNo a) = true → ∃ t, exec (.hostSnoop l data) s = .next t ∧
      (∀ c k, k % 2 ^ 70 = lineNo a → find k (t.core c).l1 = none) ∧
      (∀ y, y < a ∨ a + 64 ≤ y → get 0 y t.mem = get 0 y s.mem) ∧
      ∀ d : BitVec 512, data = some d → readN t.mem a 64 = d.toNat) ∧
    (s.snoopable (lineNo a) = false → waits (.hostSnoop l data)))) ∧
  (∀ l, (let a := lineNo (backing 1 (l * 64))
    (l < 2 ^ 54 → s.snoopable a = true → ∃ t, exec (.backInvalidation l) s = .next t ∧ t.mem = s.mem ∧
      (∀ c k, k % 2 ^ 70 = a → find k (t.core c).l1 = none) ∧ t.sectorIn (sectorOf (backing 1 (l * 64))) = false) ∧
    (s.snoopable a = false → waits (.backInvalidation l)))) ∧
  (∀ p off size data, (s.windowSpot p off size .read = none → exec (.hostWindowRead p off size) s = .next (set_ p none)) ∧
    (s.windowSpot p off size .write = none → exec (.hostWindowWrite p off size data) s = .next (set_ p none))) ∧
  (∀ p off size c x, s.windowSpot p off size .read = some (c, x) →
    (x.held = true ∨ s.owned (lineNo x.addr) = true → waits (.hostWindowRead p off size)) ∧
    (x.held = false → s.owned (lineNo x.addr) = false → s.poisoned (s.keyOf c) (lineNo x.addr) = false → x.addr % size = 0 →
      (find p s.ports).isSome = true → ∃ t, exec (.hostWindowRead p off size) s = .next t ∧ t.mem = s.mem ∧
        (get Port.down p t.ports).reply = some (BitVec.ofNat 512 (s.readKey (s.keyOf c) x.addr size).1))) ∧
  (∀ p off size data c x, s.windowSpot p off size .write = some (c, x) →
    (x.held = true ∨ s.owned (lineNo x.addr) = true → waits (.hostWindowWrite p off size data)) ∧
    (x.held = false → s.owned (lineNo x.addr) = false → x.addr % size = 0 → (find p s.ports).isSome = true →
      s.Plain c x.cls x.addr size → ∃ t, exec (.hostWindowWrite p off size data) s = .next t ∧
        (get Port.down p t.ports).reply = some 0 ∧ readN t.mem x.addr size = data.toNat % 2 ^ (8 * size) ∧
        ∀ y, y < x.addr ∨ x.addr + size ≤ y → get 0 y t.mem = get 0 y s.mem)) ∧
  (∀ p c d, let k := signalKey d
    (s.signalFor p c d = false ∨ d.extractLsb' 0 3 ≠ 0 →
      exec (.signalWakeAll p c d) s = .next ignored ∧ exec (.signalWakeOne p c d) s = .next ignored) ∧
    (s.signalFor p c d = true → d.extractLsb' 0 3 = 0 → (∀ r ∈ s.regs, r.retry = false ∧ ∃ t n ls, r.who = .lanes t n ls) →
      exec (.signalWakeAll p c d) s = .next { s with
        regs := s.regs.map (fun r => { r with woken := r.woken || (r.ctx == c && r.key == k) }) } ∧
      ∃ t, exec (.signalWakeOne p c d) s = .next t ∧ t = { s with regs := t.regs } ∧ t.regs.length = s.regs.length ∧
        ∀ (j : Nat) (r : Reg_), s.regs[j]? = some r → t.regs[j]? = some ({ r with woken := r.woken || (r.ctx == c && r.key == k &&
          decide (∀ q ∈ s.regs.take j, ¬(q.ctx = c ∧ q.key = k ∧ q.woken = false))) } : Reg_)) ∧
    (s.signalFor p c d = false ∨ d.extractLsb' 0 6 ≠ 0 ∨ d.extractLsb' 52 5 ≠ 0 ∨ s.dev.fenced = true →
      exec (.signalRegisterHostWait p c d) s = .next ignored) ∧
    (let e := (d.extractLsb' 0 52).toNat
    let w : BitVec 512 := BitVec.ofNat 512 (readN s.mem (backing 2 e) 64)
    let key := w.extractLsb' 0 64
    s.signalFor p c d = true → d.extractLsb' 0 6 = 0 → d.extractLsb' 52 5 = 0 → s.dev.fenced = false →
      (∀ r ∈ s.regs, r.retry = false ∧ r.ctx < 1024) → (∀ q x, find q s.ports = some x → x.posted = []) →
      (s.dev.config.extractLsb' 256 64).toNat ≤ e →
      e < (s.dev.config.extractLsb' 320 64).toNat →
      w.extractLsb' 128 8 = 1 → w.extractLsb' 0 3 = 0 → w.extractLsb' 136 376 = 0 → s.tableFull c key = false →
      ∃ t, exec (.signalRegisterHostWait p c d) s = .next t ∧ t.regs = s.regs ++ [⟨c, key, .host p e, false, false⟩] ∧
        readN t.mem (backing 2 e + 16) 1 = 2 ∧ ∀ y, y ≠ backing 2 e + 16 → get 0 y t.mem = get 0 y s.mem) ∧
    (s.signalFor p c d = false → exec (.signalPostInterrupt p c d) s = .next ignored) ∧
    (s.signalFor p c d = true → d.extractLsb' 29 28 = 0 → (d.getLsbD 4 = true → d.extractLsb' 5 24 = 0) →
      ∃ t, exec (.signalPostInterrupt p c d) s = .next t ∧ t = { s with teams := t.teams } ∧ ∀ n k, (find n s.teams).isSome = true →
        s.has n k = true → (t.group n k).uipend = if s.ctxOf n = c ∧ (d.getLsbD 4 = true ∨ (s.team n).no = (d.extractLsb' 5 24).toNat)
          then (s.group n k).uipend ||| BitVec.ofNat 16 (2 ^ (d.extractLsb' 0 4).toNat) else (s.group n k).uipend)) ∧
  (∀ p off, off < 65536 → exec (.signalApertureIgnored p off) s = .next (ignored.onPort p (fun x => { x with reply := some 0 }))) ∧
  (∀ p, exec (.portLoss p) s = .next (s.onPort p (fun x => { x with up := false, window := false, posted := [] }))) ∧
  (s.beatDue = true → s.dev.fenced = false → (s.line (lineNo (s.beatAddr 1))).key = 0 → s.beatAddr 0 % 64 = 0 →
    BitVec.ofNat 64 (readN s.mem (s.beatAddr 0) 8) ≠ s.dev.hostbeat →
    ∃ t, exec .heartbeat s = .next t ∧ t.dev.beat = s.dev.datum ∧ t.dev.same = 0 ∧ t.dev.fenced = false ∧
      t.dev.devbeat = (s.dev.devbeat + 1) % 2 ^ 64 ∧ readN t.mem (s.beatAddr 1) 8 = t.dev.devbeat ∧
      readN t.mem (s.beatAddr 2) 8 = s.dev.datum % 2 ^ 64)

/-- The scheduler of a partition (R331-R339): a decision and an expired quantum begin a pre-emption when another context is to
run; the halt of a context ends when its groups stand at boundaries, the swap seats the next one, and staging brings a context
that would run next to the shadow stores. -/
def Obligations.SchedulingEventsComplete : Prop :=
  ∀ (s : State) (part : Nat) (p : Part), find part s.parts = some p →
  let d := s.readDescs part
  let bare := fun (p : Part) => { p with halted := false }
  let now := fun (t : State) => bare (get (Part.new []) part t.parts)
  let idle := p.halting = false ∧ p.swapping = false ∧ p.halted = false
  let st := fun (t : State) c => (t.ctx c).st
  (idle → d.choice part p = p.running → ∃ t, exec (.schedulerDecision part) s = .next t ∧ t.parts = s.parts ∧ t.teams = s.teams) ∧
  (∀ c, idle → d.choice part p = some c → p.running ≠ some c → ∃ t, exec (.schedulerDecision part) s = .next t ∧
    (now t).next = some c ∧ (now t).halting = p.running.isSome ∧ (now t).swapping = p.running.isNone ∧ t.teams = s.teams) ∧
  (∀ r c, idle → p.running = some r → d.expired p = true → d.choice part p = some c → c ≠ r →
    ∃ t, exec (.quantumExpiry part) s = .next t ∧ now t = bare { p with next := some c, halting := true }) ∧
  (∀ r, idle → p.running = some r → d.expired p = true → d.choice part p = some r →
    ((∀ c ∈ d.contenders part p, c = r ∨ (d.ctx c).prio ≠ (d.ctx r).prio) →
      ∃ t, exec (.quantumExpiry part) s = .next t ∧ now t = bare { p with began := s.dev.datum }) ∧
    (∀ c cs, (d.contenders part p).filter (fun c => c != r && (d.ctx c).prio == (d.ctx r).prio) = c :: cs →
      ∃ t, exec (.quantumExpiry part) s = .next t ∧ now t = bare { p with next := some c, halting := true })) ∧
  (∀ r, p.running = some r → p.halting = true → (∀ o ∈ s.ops, o.2.ctx ≠ r) → s.savesOf part = [] → (∀ y ∈ s.sweeps, y.2.ctx ≠ r) →
    (∀ y ∈ s.teams, y.2.ctx = r → y.2.seq = Seq.idle) → s.atBoundaries r = true → st s r ≠ .free →
    ∃ t, exec (.preemptHalt part) s = .next t ∧ now t = bare { p with halting := false, swapping := true } ∧ st t r = st s r) ∧
  (∀ c, p.swapping = true → p.next = some c → p.running = none → st s c = .shadowed ∨ st s c = .spilled →
    s.shadowFails c = false → (s.ctx c).part = part →
    (∀ y ∈ s.teams, y.2.ctx ≠ c) → (∀ o ∈ s.ops, o.2.ctx ≠ c) → (∀ y ∈ s.sweeps, y.2.ctx ≠ c) →
    ∃ t, exec (.preemptSwap part) s = .next t ∧ st t c = .running ∧
      now t = bare { p with running := some c, next := none, swapping := false, waits := false, began := s.dev.datum }) ∧
  (∀ c, s.nextToRun part p = some c → st s c = .spilled → ∃ t, exec (.contextStaging part) s = .next t ∧ st t c = .shadowed ∧
    ∀ d, d ≠ c → d < 1024 → (s.ctx d).part = part → (s.ctx d).ctrl = false → st s d = .shadowed → (find d s.ctxs).isSome = true →
      sorted s.ctxs = true → st t d = .spilled)

/-- Starts and what completes them (R363-R371): the rails going off leave only fuses, the start counter and the identity; a cold
start latches the fuses and loses every key, a warm start keeps both and frees every slot, and either ends in service or at the
first step that fails; the start's completion, its deadline, training and the transition to full service do what they say. -/
def Obligations.StartsComplete : Prop :=
  ∀ (s : State),
  let held := fun (t : State) => t.dev.fuses = s.dev.fuses ∧ t.dev.nextIndex = s.dev.nextIndex ∧
    t.teams = [] ∧ t.ops = [] ∧ t.cores.all (fun k => decide (k.2.l1 = [] ∧ k.2.tlb = [] ∧ k.2.ic = [])) = true ∧
    ∀ l, (t.line l).wts = 0 ∧ (t.line l).rts = 0
  let lost := fun (t : State) => ∀ k, k ≠ 0 → k = s.dev.platform ∨ (∃ e ∈ s.ctxs, e.2.key = some k) → (find k t.dev.erased).isSome = true
  let began := fun (t u : State) (d : Device) (x : StartIn) (warm : Bool) =>
    let b := d.bootRom warm
    let i := if d.lifecycle = 0 ∨ d.lifecycle = 4 then none else b.boot x
    held t ∧ t.mem = u.mem ∧ t.dev.starts = s.dev.starts + 1 ∧ t.dev.recovery = decide (3 ≤ s.dev.starts) ∧
      t.dev.jtag = openAtStart d.lifecycle ∧ t.dev.identity = (s.dev.identity || d.lifecycle == 1) ∧ t.dev.m = (i.getD b).m ∧
      t.dev.service = (match startFailure x warm i.isSome with
        | some k => .failed k
        | none => if warm = true ∧ x.retrain = false then .normal else .reduced) ∧
      (startFailure x warm i.isSome = none → t.dev.platform = s.dev.keygen + 1 ∧ t.dev.deadline = s.dev.datum + 42000000000 ∧
        ∀ p, p < 4 → (get Port.down p t.ports).up = true)
  (∃ t, exec .powerFailure s = .next t ∧ t.teams = [] ∧ t.ops = [] ∧ t.ctxs = [] ∧ t.dev.fuses = s.dev.fuses ∧
    t.dev.starts = s.dev.starts ∧ t.dev.identity = s.dev.identity ∧ t.dev.nextIndex = s.dev.nextIndex ∧ t.dev.service = .off ∧
    lost t ∧ ∀ y, get 0 y t.mem = if 2 ^ 60 ≤ y then get 0 y s.discardAll.mem else 0) ∧
  (∀ x, (s.dev.tooHot = true → exec (.coldStart x) s = .next s) ∧
    (s.dev.tooHot = false → ∃ t, exec (.coldStart x) s = .next t ∧ t.ctxs = [] ∧ t.dev.latched = s.dev.fuses ∧ lost t ∧
      (lifecycleOf (s.dev.fuse 0) = 4 → t.dev.service = .failed 1 ∧ t.dev.starts = s.dev.starts) ∧
      (lifecycleOf (s.dev.fuse 0) ≠ 4 → began t s.discardAll
        { s.dev.stored with latched := s.dev.fuses, erased := s.lostKeys, throttle := 0 } x false))) ∧
  (∀ x, s.dev.service ≠ .off → s.dev.lifecycle ≠ 4 → sorted s.ctxs = true → ∃ t d, exec (.warmStart x) s = .next t ∧
    d = { s.dev.stored with latched := s.dev.latched, erased := d.erased } ∧ began t s d x true ∧ t.dev.latched = s.dev.latched ∧
    ∀ c, c < 1024 → (t.ctx c).st = .free ∧ (t.ctx c).key = (s.ctx c).key ∧
      (t.ctx c).gen = if (s.ctx c).st = .free then (s.ctx c).gen else (s.ctx c).gen + 1) ∧
  (∀ x, s.dev.deadline ≠ 0 → ∃ t, exec (.startComplete x) s = .next t ∧ t.dev.deadline = 0 ∧
    if configOk x.record = true ∧ partsOk x.parts = true then
      t.dev.service = s.dev.service ∧ t.dev.starts = 0 ∧ t.dev.config = x.record ∧ t.dev.ctxTable = some x.ctxTable ∧
      t.dev.plan = x.parts ∧ t.dev.controls = x.controls ∧
      t.dev.m = ((s.dev.extend 3 (bytesOf 64 x.record.toNat)).extend 4 x.measured).m ∧
      t.dev.fuses = (if s.dev.recovery = true then s.dev.fuses else set 0 3 (svnWord (s.dev.fuse 3) x.svn) s.dev.fuses)
    else t.dev.service = .failed 8 ∧ t = { s with dev := t.dev, parts := t.parts } ∧ ∀ p ∈ t.parts, p.2.halted = true) ∧
  (s.dev.deadline ≠ 0 → s.dev.deadline ≤ s.dev.datum → ∃ t, exec .startTimeout s = .next t ∧
    t = { s with dev := { s.dev with service := .failed 2, deadline := 0 }, parts := t.parts } ∧ ∀ p ∈ t.parts, p.2.halted = true) ∧
  (s.dev.service = .reduced →
    exec .gddr7TrainingComplete s = .next { s with dev := { s.dev with trained := true } } ∧
    (s.dev.deadline = 0 → s.dev.trained = true → s.dev.tested = true → s.allAtBoundaries = true →
      ∃ t, exec .fullServiceTransition s = .next t ∧ t.dev.service = .normal ∧ (∀ c, (t.core c).khz = 1400000) ∧
        t.parts.map (fun p => p.2.clusters) = s.dev.plan))

/-- Security events (R364, R373, R376): a report is signed with the next index of the identity key, or answers why not; an alarm
is logged, from level 2 every tenant key is erased and every partition halts, and at level 3 the device retires; a fuse bit goes
to 1 where the port is open and the lifecycle allows it. Power, clocks and temperature (R397-R401): a limit in steps of 25 W is
taken, a throttle sets every clock and `PWROVER`, from 96 degrees clocks go down and from 105 to 1.0 GHz, at 110 every partition
halts and the rails go off; a low flow counts as 105 degrees; the deep state begins with nothing runnable and lasts its
reference cycles; telemetry is taken as read. -/
def Obligations.SecurityAndPowerEventsComplete : Prop :=
  (
    ∀ (s : State) (nonce : BitVec 256) (n : Nat),
    let report := fun (r : List Byte) (q : Nat) => exec (.attestationReport nonce) s =
      .next { s with dev := { s.dev with nextIndex := q, reports := s.dev.reports ++ [r] } }
    let logged := fun (t : State) (k : Nat) => t.dev.alarms = s.dev.alarms ++ [(k, n, s.dev.datum)]
    let wiped := fun (t : State) => (∀ q y, find q t.ctxs = some y → y.key = none) ∧ (∀ p ∈ t.parts, p.2.halted = true) ∧
      ∀ q k, (s.ctx q).key = some k → (find k t.dev.erased).isSome = true
    (s.dev.lifecycle = 0 ∨ s.dev.lifecycle = 4 → report [1] s.dev.nextIndex) ∧
    (s.dev.lifecycle ≠ 0 → s.dev.lifecycle ≠ 4 → 1048576 ≤ s.dev.nextIndex ∨ s.dev.identity = false → report [2] s.dev.nextIndex) ∧
    (s.dev.lifecycle ≠ 0 → s.dev.lifecycle ≠ 4 → s.dev.nextIndex < 1048576 → s.dev.identity = true →
      let r := s.dev.report s.dev.nextIndex nonce
      report (0 :: (r ++ identitySignature s.dev.nextIndex r)) (s.dev.nextIndex + 1)) ∧
    (∃ t, exec (.securityAlarm1 n) s = .next t ∧ logged t 1 ∧ t = { s with dev := { s.dev with alarms := t.dev.alarms } }) ∧
    (∃ t, exec (.securityAlarm2 n) s = .next t ∧ logged t 2 ∧ wiped t ∧ t.dev.halted = s.dev.halted ∧ t.dev.fuses = s.dev.fuses) ∧
    (∃ t, exec (.securityAlarm3 n) s = .next t ∧ logged t 3 ∧ wiped t ∧ t.dev.identity = false ∧ t.dev.halted = true ∧
      ∀ k, t.dev.fuse k = if k = 0 then s.dev.fuse 0 ||| 8 else s.dev.fuse k) ∧
    (s.dev.jtag = true → s.dev.lifecycle ≤ 1 → n < 16384 → ∃ t, exec (.fuseProgramming n) s = .next t ∧
      t = { s with dev := { s.dev with fuses := t.dev.fuses } } ∧
      ∀ k i, i < 64 → (t.dev.fuse k).getLsbD i = ((s.dev.fuse k).getLsbD i || decide (64 * k + i = n))) ∧
    (s.dev.jtag = false ∨ 1 < s.dev.lifecycle ∨ 16384 ≤ n → exec (.fuseProgramming n) s = .next s)) ∧
  (
    ∀ (s : State) (x : Sensors) (n : Nat),
    let dev := fun (d : Device) => (.next { s with dev := d } : Host.Outcome State Fault Refusal)
    let clocks := fun (t : State) (f : Nat → Nat) => ∀ c, c < Config.cores → (t.core c).khz = f (s.core c).khz
    let hot := fun (k : Nat) => ∃ j ∈ x.junction, k ≤ j
    let held := fun (t : State) => t.dev.throttle = 2 ∧ (s.dev.service = .normal → clocks t (fun _ => 1000000)) ∧
      (s.dev.service ≠ .normal → t.cores = s.cores)
    (1200 ≤ n → n ≤ 1500 → n % 25 = 0 → exec (.powerLimitSet n) s = dev { s.dev with watts := n }) ∧
    (s.dev.service = .normal → s.dev.stopped = false → s.dev.deep = false → 1000000 ≤ n → n ≤ 1400000 → n % 50000 = 0 →
      ∃ t, exec (.powerThrottle n) s = .next t ∧ t.teams = s.teams ∧
        (let rate := if s.dev.throttle = 2 then 1000000 else n
        clocks t (fun _ => rate) ∧ t.dev.pwrover = (decide (rate = 1000000) && s.dev.overload))) ∧
    (hot 105 → ∃ t, exec (.thermalThrottle x) s = .next t ∧ held t ∧ t.teams = s.teams) ∧
    (¬hot 105 → hot 96 → ∃ t, exec (.thermalThrottle x) s = .next t ∧ t.dev.throttle = 1 ∧ t.teams = s.teams ∧
      (s.dev.service = .normal → clocks t (fun k => max 1000000 (k - 50000)))) ∧
    (¬hot 96 → exec (.thermalThrottle x) s = dev { s.dev with throttle := 0 }) ∧
    (hot 110 → ∃ t, exec (.thermalShutdown x) s = .next t ∧ t.dev.throttle = 3 ∧ t.dev.sensors = some x ∧ t.dev.service = .off ∧
      t.teams = [] ∧ t.parts = [] ∧ (∀ y, y < 2 ^ 60 → get 0 y t.mem = 0) ∧
      ∃ r, t.dev.log.head? = some r ∧ r.extractLsb' 0 2 = 2) ∧
    (¬hot 110 → exec (.thermalShutdown x) s = .next s) ∧
    (∃ t, exec .coolantFlowLow s = .next t ∧ held t ∧ t.teams = s.teams ∧
      ∃ r, t.dev.log = (r :: s.dev.log).take 4096 ∧ r.extractLsb' 128 64 = BitVec.ofNat 64 s.dev.datum) ∧
    (s.dev.service = .normal ∨ s.dev.service = .reduced → s.dev.deep = false → s.dev.stopped = false →
      (∀ c ∈ keys s.ctxs, s.runnable c = false) → exec .deepPowerEntry s = dev { s.dev with deep := true, deepTick := s.dev.datum }) ∧
    (s.dev.deep = true → ∃ t, exec (.deepPowerExit n) s = .next t ∧ t.dev.deep = false ∧
      t.dev.datum = s.dev.deepTick + max 1 (14 * n) ∧ t.teams = s.teams) ∧
    exec (.telemetryRefresh x) s = dev { s.dev with sensors := some x })

/-- Observation (R380, R384, R385, R388): a die reads its control block, and ignores one of bad form whole; a snapshot that is
due stores the counters of the die's cores; at its tick the precise stop gates every clock; the instructions of an open JTAG
port identify, arm, select, shift out the selected chain while stopped, and resume. -/
def Obligations.ObservationCompletes : Prop :=
  ∀ (s : State) (die n : Nat),
  let z := get Trace.zero die
  let dev := fun (d : Device) => (.next { s with dev := d } : Host.Outcome State Fault Refusal)
  (die < 8 → s.dev.stopped = false → s.untrained (Config.traceBlock die / 64) = false →
    let b := s.deviceRead (backing 0 (Config.traceBlock die)) 128
    (blockOk die b = false → exec (.traceControlRead die) s = .next { s with
      traces := put die { z s.traces with read := s.dev.datum } s.traces
      dev := { s.dev with badBlocks := s.dev.badBlocks + 1 } }) ∧
    (blockOk die b = true → ∃ t, exec (.traceControlRead die) s = .next t ∧ t.dev.badBlocks = s.dev.badBlocks ∧
      (let x := z t.traces
      x.en = (field b 0 1 == 1) ∧ x.wrap = (field b 1 1 == 1) ∧ x.kmask = field b 16 16 ∧ x.sample = field b 32 16 ∧
        x.bufb = field b 64 64 ∧ x.bufs = field b 128 32 ∧ x.snapb = field b 320 64 ∧ x.rrmode = field b 8 2 ∧
        x.rrctx = field b 384 10 ∧ x.rrlog = field b 448 64 ∧ x.rrlogs = field b 512 32 ∧ x.read = s.dev.datum) ∧
      ∀ j, j ≠ die → get Trace.zero j t.traces = get Trace.zero j s.traces)) ∧
  (let x := z s.traces
  x.snap = true → x.snapTick ≤ s.dev.datum → ∃ t, exec (.counterSnapshot die) s = .next t ∧ (z t.traces).snap = false ∧
    t = { s with mem := t.mem, lines := t.lines, homeOld := t.homeOld, cores := t.cores, parts := t.parts, traces := t.traces
                 dev := t.dev } ∧
    ((∀ l, (s.line l).key = 0) → x.snapb % 64 = 0 →
      Config.traceBlock die < x.snapb ∨ x.snapb + 24576 ≤ Config.traceBlock die →
      ∀ j, j < 96 → let k := s.core (96 * die + j)
        let word := fun i => readN t.mem (x.snapb + 256 * j + 8 * i) 8
        word 0 = x.snapTick % 2 ^ 64 ∧ word 1 = k.clocks % 2 ^ 64 ∧ (∀ i, i < 23 → word (2 + i) = get 0 (i + 1) k.leaves % 2 ^ 64) ∧
          ∀ i, 25 ≤ i → i < 32 → word i = 0)) ∧
  (s.dev.stopat ≠ 0 → s.dev.stopat ≤ s.dev.datum → exec .preciseStop s = dev { s.dev with stopped := true, stopat := 0 }) ∧
  (s.dev.jtag = true → ∀ tick chain code,
    exec .jtagIdcode s = dev { s.dev with shifted := (List.range 32).map (fun k => idcodeBits.getLsbD k) } ∧
    (s.dev.datum < tick.toNat → ∃ t, exec (.jtagStopreq tick) s = .next t ∧ t.dev.stopat = tick.toNat ∧ t.teams = s.teams ∧
      ((get Trace.zero 0 s.traces).en = false → t = { s with dev := { s.dev with stopat := tick.toNat } })) ∧
    (tick.toNat ≤ s.dev.datum → exec (.jtagStopreq tick) s = dev { s.dev with stopat := 0 }) ∧
    exec (.jtagChsel chain) s = dev { s.dev with chain := chain.toNat } ∧
    (s.dev.stopped = false → exec (.jtagChread n) s = dev { s.dev with shifted := List.replicate n false }) ∧
    (s.dev.stopped = true → 1064 < s.dev.chain → exec (.jtagChread n) s = dev { s.dev with shifted := [] }) ∧
    (s.dev.stopped = true → s.dev.chain ≤ 1064 → ∃ bs, exec (.jtagChread n) s = dev { s.dev with shifted := bs } ∧ bs.length = n ∧
      let ws := s.chainWords s.dev.chain
      ∀ k b, bs[k]? = some b → (k < 16 → b = s.dev.chain.testBit k) ∧
        ∀ w, 64 ≤ k → ws[k / 64 - 1]? = some w → b = w.testBit (k % 64)) ∧
    (s.dev.stopped = true → ∃ t, exec .jtagResume s = .next t ∧ t.dev.stopped = false ∧ t.dev.datum = s.dev.datum ∧
      t.teams = s.teams ∧ ((∀ e ∈ s.traces, e.2.en = false) → t = { s with dev := { s.dev with stopped := false } })) ∧
    (code ∉ jtagCodes → exec (.jtagBypass code) s = dev { s.dev with shifted := [false] })) ∧
  (s.dev.jtag = false → ∀ tick chain code, exec .jtagIdcode s = .next s ∧ exec (.jtagStopreq tick) s = .next s ∧
    exec (.jtagChsel chain) s = .next s ∧ exec (.jtagChread n) s = .next s ∧ exec .jtagResume s = .next s ∧
    exec (.jtagBypass code) s = .next s)
end

