-- ==== Sys2Proof/Laws/Map.lean ====
section
/-!
SUPPORT. The laws of sparse tables: what each operation leaves for the key it acts on and for every other key, and
that the operations keep a table in canonical form. They hold of every list, sorted or not.
-/
namespace Sys2Proof.Machine

variable {α : Type}

@[simp] theorem find_nil (k : Nat) : find k ([] : SMap α) = none := rfl
@[simp] theorem get_nil (d : α) (k : Nat) : get d k ([] : SMap α) = d := rfl

theorem find_put (k j : Nat) (v : α) (m : SMap α) : find j (put k v m) = if j = k then some v else find j m := by
  induction m with
  | nil => simp only [put, find]
  | cons e m ih =>
    obtain ⟨i, a⟩ := e
    simp only [put]
    split
    · simp only [find]
    · split
      · subst k; simp only [find]; split <;> rfl
      · rename_i h
        simp only [find, ih]
        by_cases hj : j = i
        · subst hj; rw [if_pos rfl, if_pos rfl, if_neg (fun c => h c.symm)]
        · rw [if_neg hj, if_neg hj]

theorem find_del (k j : Nat) (m : SMap α) : find j (del k m) = if j = k then none else find j m := by
  induction m with
  | nil => simp [del, find]
  | cons e m ih =>
    obtain ⟨i, a⟩ := e
    simp only [del]
    split
    · rename_i h
      subst h
      rw [ih]
      by_cases hj : j = k <;> simp [find, hj]
    · rename_i h
      simp only [find, ih]
      by_cases hj : j = i
      · subst hj
        simp [Ne.symm h]
      · simp [hj]

theorem find_adjust (k j : Nat) (f : α → α) (m : SMap α) :
    find j (adjust k f m) = if j = k then (find j m).map f else find j m := by
  induction m with
  | nil => simp [adjust, find]
  | cons e m ih =>
    obtain ⟨i, a⟩ := e
    simp only [adjust]
    split
    · rename_i h
      subst h
      by_cases hj : j = k <;> simp [find, hj]
    · rename_i h
      simp only [find, ih]
      by_cases hj : j = i
      · subst hj
        simp [Ne.symm h]
      · simp [hj]

@[simp] theorem get_put_self (d : α) (k : Nat) (v : α) (m : SMap α) : get d k (put k v m) = v := by
  simp [get, find_put]

theorem get_put (d : α) (k j : Nat) (v : α) (m : SMap α) :
    get d j (put k v m) = if j = k then v else get d j m := by
  simp only [get, find_put]; split <;> rfl

theorem get_del (d : α) (k j : Nat) (m : SMap α) : get d j (del k m) = if j = k then d else get d j m := by
  simp only [get, find_del]; split <;> rfl

theorem get_set [DecidableEq α] (d : α) (k j : Nat) (v : α) (m : SMap α) :
    get d j (set d k v m) = if j = k then v else get d j m := by
  unfold set
  split
  · rename_i h; subst h; exact get_del v k j m
  · exact get_put d k j v m

theorem get_adjust (d : α) (k j : Nat) (f : α → α) (m : SMap α) :
    get d j (adjust k f m) = if j = k ∧ (find j m).isSome = true then f (get d j m) else get d j m := by
  simp only [get, find_adjust]
  by_cases h : j = k
  · subst h; cases find j m <;> simp
  · simp [h]

/-- A number that no key uses is not found. -/
theorem find_of_all_ne (k : Nat) (m : SMap α) (h : ∀ e ∈ m, e.1 ≠ k) : find k m = none := by
  induction m with
  | nil => rfl
  | cons e m ih =>
    obtain ⟨i, a⟩ := e
    have hi : i ≠ k := h (i, a) (by simp)
    simp only [find, if_neg (fun c : k = i => hi c.symm)]
    exact ih (fun e he => h e (by simp [he]))

theorem lt_freeKey (m : SMap α) : ∀ e ∈ m, e.1 < freeKey m := by
  induction m with
  | nil => simp
  | cons e m ih =>
    obtain ⟨i, a⟩ := e
    simp only [freeKey]
    intro e he
    rcases List.mem_cons.mp he with rfl | he
    · exact Nat.lt_of_lt_of_le (Nat.lt_succ_self i) (Nat.le_max_left _ _)
    · exact Nat.lt_of_lt_of_le (ih e he) (Nat.le_max_right _ _)

/-- The key given to a new entry names none. -/
@[simp] theorem find_freeKey (m : SMap α) : find (freeKey m) m = none :=
  find_of_all_ne _ m (fun e he => Nat.ne_of_lt (lt_freeKey m e he))

/-! ### Canonical form -/

theorem risesFrom_of_le {j k : Nat} (h : j ≤ k) {m : SMap α} (hm : risesFrom k m = true) : risesFrom j m = true := by
  cases m with
  | nil => rfl
  | cons e m =>
    obtain ⟨i, a⟩ := e
    simp only [risesFrom, Bool.and_eq_true, decide_eq_true_eq] at hm ⊢
    exact ⟨by omega, hm.2⟩

theorem risesFrom_put {j k : Nat} (h : j < k) (v : α) {m : SMap α} (hm : risesFrom j m = true) :
    risesFrom j (put k v m) = true := by
  induction m generalizing j with
  | nil => simp [put, risesFrom, h]
  | cons e m ih =>
    obtain ⟨i, a⟩ := e
    simp only [risesFrom, Bool.and_eq_true, decide_eq_true_eq] at hm
    simp only [put]
    split
    · simp [risesFrom, h, *]
    · split
      · subst k; simp [risesFrom, h, hm.2]
      · simp only [risesFrom, Bool.and_eq_true, decide_eq_true_eq]
        exact ⟨hm.1, ih (by omega) hm.2⟩

theorem risesFrom_del {j : Nat} (k : Nat) {m : SMap α} (hm : risesFrom j m = true) : risesFrom j (del k m) = true := by
  induction m generalizing j with
  | nil => rfl
  | cons e m ih =>
    obtain ⟨i, a⟩ := e
    simp only [risesFrom, Bool.and_eq_true, decide_eq_true_eq] at hm
    simp only [del]
    split
    · exact risesFrom_of_le (Nat.le_of_lt hm.1) (ih hm.2)
    · simp only [risesFrom, Bool.and_eq_true, decide_eq_true_eq]
      exact ⟨hm.1, ih hm.2⟩

theorem sorted_of_risesFrom {j : Nat} {m : SMap α} (hm : risesFrom j m = true) : sorted m = true := by
  cases m with
  | nil => rfl
  | cons e m =>
    obtain ⟨i, a⟩ := e
    simp only [risesFrom, Bool.and_eq_true] at hm
    exact hm.2

theorem sorted_put (k : Nat) (v : α) {m : SMap α} (hm : sorted m = true) : sorted (put k v m) = true := by
  cases m with
  | nil => rfl
  | cons e m =>
    obtain ⟨i, a⟩ := e
    simp only [put]
    split
    · simp_all [sorted, risesFrom]
    · split
      · subst k; exact hm
      · exact risesFrom_put (by omega) v hm

theorem sorted_del (k : Nat) {m : SMap α} (hm : sorted m = true) : sorted (del k m) = true := by
  cases m with
  | nil => rfl
  | cons e m =>
    obtain ⟨i, a⟩ := e
    simp only [del]
    split
    · exact sorted_of_risesFrom (risesFrom_del k hm)
    · exact risesFrom_del k hm

theorem mem_put {k : Nat} {v : α} {m : SMap α} {e : Nat × α} (h : e ∈ put k v m) : e = (k, v) ∨ e ∈ m := by
  induction m with
  | nil => simpa [put] using h
  | cons x m ih =>
    obtain ⟨i, a⟩ := x
    simp only [put] at h
    split at h
    · simpa using h
    · split at h
      · subst k
        rcases List.mem_cons.mp h with h | h
        · exact .inl h
        · exact .inr (by simp [h])
      · rcases List.mem_cons.mp h with h | h
        · exact .inr (by simp [h])
        · rcases ih h with h | h
          · exact .inl h
          · exact .inr (by simp [h])

theorem mem_del {k : Nat} {m : SMap α} {e : Nat × α} (h : e ∈ del k m) : e ∈ m := by
  induction m with
  | nil => simpa [del] using h
  | cons x m ih =>
    obtain ⟨i, a⟩ := x
    simp only [del] at h
    split at h
    · exact List.mem_cons_of_mem _ (ih h)
    · rcases List.mem_cons.mp h with h | h
      · simp [h]
      · exact List.mem_cons_of_mem _ (ih h)

/-- Writing a table with a default keeps its canonical form. -/
theorem canonical_set [DecidableEq α] (d : α) (k : Nat) (v : α) {m : SMap α} (hm : canonical d m = true) :
    canonical d (set d k v m) = true := by
  simp only [canonical, Bool.and_eq_true, List.all_eq_true, decide_eq_true_eq] at hm ⊢
  unfold set
  split
  · exact ⟨sorted_del k hm.1, fun e he => hm.2 e (mem_del he)⟩
  · rename_i hv
    refine ⟨sorted_put k v hm.1, fun e he => ?_⟩
    rcases mem_put he with rfl | he
    · exact hv
    · exact hm.2 e he

theorem mem_insertBy {α : Type} (le : α → α → Bool) (a b : α) (l : List α) : b ∈ insertBy le a l ↔ b = a ∨ b ∈ l := by
  induction l with
  | nil => simp [insertBy]
  | cons c l ih =>
    simp only [insertBy]
    split <;> simp [ih, or_left_comm]

theorem mem_arrange {α : Type} (le : α → α → Bool) (b : α) (l : List α) : b ∈ arrange le l ↔ b ∈ l := by
  induction l with
  | nil => simp [arrange]
  | cons a l ih => simp [arrange, mem_insertBy, ih]

/-- An arranged list is in order, for a total and transitive order. -/
theorem arrange_pairwise {α : Type} (le : α → α → Bool) (total : ∀ a b, le a b = true ∨ le b a = true)
    (trans : ∀ a b c, le a b = true → le b c = true → le a c = true) (l : List α) :
    (arrange le l).Pairwise (fun a b => le a b = true) := by
  induction l with
  | nil => simp [arrange]
  | cons a l ih =>
    simp only [arrange]
    generalize arrange le l = k at ih
    induction k with
    | nil => simp [insertBy]
    | cons b k ik =>
      simp only [insertBy]
      rw [List.pairwise_cons] at ih
      split
      · rename_i h
        rw [List.pairwise_cons, List.pairwise_cons]
        refine ⟨fun c hc => ?_, ih⟩
        rcases List.mem_cons.1 hc with rfl | hc
        · exact h
        · exact trans _ _ _ h (ih.1 c hc)
      · rename_i h
        rw [List.pairwise_cons]
        refine ⟨fun c hc => ?_, ik ih.2⟩
        rcases (mem_insertBy le a c k).1 hc with rfl | hc
        · exact (total _ _).resolve_left h
        · exact ih.1 c hc

end Sys2Proof.Machine
end

