-- ==== Sys2Proof/Laws/State.lean ====
section
/-!
SUPPORT. One lemma for each field and each update of the state and of a group: what a small change leaves alone. All are
true by unfolding, so that no later proof unfolds a record update.
-/
namespace Sys2Proof.Machine

/-! ### `State.onTeam` -/

@[simp] theorem State.onTeam_mem (s : State) (t : Nat) (f : Team → Team) : (s.onTeam t f).mem = s.mem := rfl
@[simp] theorem State.onTeam_lines (s : State) (t : Nat) (f : Team → Team) : (s.onTeam t f).lines = s.lines := rfl
@[simp] theorem State.onTeam_floors (s : State) (t : Nat) (f : Team → Team) : (s.onTeam t f).floors = s.floors := rfl
@[simp] theorem State.onTeam_homeOld (s : State) (t : Nat) (f : Team → Team) : (s.onTeam t f).homeOld = s.homeOld := rfl
@[simp] theorem State.onTeam_frameOld (s : State) (t : Nat) (f : Team → Team) : (s.onTeam t f).frameOld = s.frameOld := rfl
@[simp] theorem State.onTeam_l2 (s : State) (t : Nat) (f : Team → Team) : (s.onTeam t f).l2 = s.l2 := rfl
@[simp] theorem State.onTeam_mids (s : State) (t : Nat) (f : Team → Team) : (s.onTeam t f).mids = s.mids := rfl
@[simp] theorem State.onTeam_cores (s : State) (t : Nat) (f : Team → Team) : (s.onTeam t f).cores = s.cores := rfl
@[simp] theorem State.onTeam_ops (s : State) (t : Nat) (f : Team → Team) : (s.onTeam t f).ops = s.ops := rfl
@[simp] theorem State.onTeam_sweeps (s : State) (t : Nat) (f : Team → Team) : (s.onTeam t f).sweeps = s.sweeps := rfl
@[simp] theorem State.onTeam_grids (s : State) (t : Nat) (f : Team → Team) : (s.onTeam t f).grids = s.grids := rfl
@[simp] theorem State.onTeam_ctxs (s : State) (t : Nat) (f : Team → Team) : (s.onTeam t f).ctxs = s.ctxs := rfl
@[simp] theorem State.onTeam_parts (s : State) (t : Nat) (f : Team → Team) : (s.onTeam t f).parts = s.parts := rfl
@[simp] theorem State.onTeam_regs (s : State) (t : Nat) (f : Team → Team) : (s.onTeam t f).regs = s.regs := rfl
@[simp] theorem State.onTeam_ports (s : State) (t : Nat) (f : Team → Team) : (s.onTeam t f).ports = s.ports := rfl
@[simp] theorem State.onTeam_frames (s : State) (t : Nat) (f : Team → Team) : (s.onTeam t f).frames = s.frames := rfl
@[simp] theorem State.onTeam_batches (s : State) (t : Nat) (f : Team → Team) : (s.onTeam t f).batches = s.batches := rfl
@[simp] theorem State.onTeam_fills (s : State) (t : Nat) (f : Team → Team) : (s.onTeam t f).fills = s.fills := rfl
@[simp] theorem State.onTeam_traces (s : State) (t : Nat) (f : Team → Team) : (s.onTeam t f).traces = s.traces := rfl
@[simp] theorem State.onTeam_streams (s : State) (t : Nat) (f : Team → Team) : (s.onTeam t f).streams = s.streams := rfl
@[simp] theorem State.onTeam_recorded (s : State) (t : Nat) (f : Team → Team) : (s.onTeam t f).recorded = s.recorded := rfl
@[simp] theorem State.onTeam_writers (s : State) (t : Nat) (f : Team → Team) : (s.onTeam t f).writers = s.writers := rfl
@[simp] theorem State.onTeam_dev (s : State) (t : Nat) (f : Team → Team) : (s.onTeam t f).dev = s.dev := rfl
@[simp] theorem State.onTeam_agenda (s : State) (t : Nat) (f : Team → Team) : (s.onTeam t f).agenda = s.agenda := rfl
@[simp] theorem State.onTeam_waiting (s : State) (t : Nat) (f : Team → Team) : (s.onTeam t f).waiting = s.waiting := rfl
@[simp] theorem State.onTeam_turn (s : State) (t : Nat) (f : Team → Team) : (s.onTeam t f).turn = s.turn := rfl
@[simp] theorem State.onTeam_fresh (s : State) (t : Nat) (f : Team → Team) : (s.onTeam t f).fresh = s.fresh := rfl

/-! ### `State.onGroup` -/

@[simp] theorem State.onGroup_mem (s : State) (t k : Nat) (f : Group → Group) : (s.onGroup t k f).mem = s.mem := rfl
@[simp] theorem State.onGroup_lines (s : State) (t k : Nat) (f : Group → Group) : (s.onGroup t k f).lines = s.lines := rfl
@[simp] theorem State.onGroup_floors (s : State) (t k : Nat) (f : Group → Group) : (s.onGroup t k f).floors = s.floors := rfl
@[simp] theorem State.onGroup_homeOld (s : State) (t k : Nat) (f : Group → Group) : (s.onGroup t k f).homeOld = s.homeOld := rfl
@[simp] theorem State.onGroup_frameOld (s : State) (t k : Nat) (f : Group → Group) : (s.onGroup t k f).frameOld = s.frameOld := rfl
@[simp] theorem State.onGroup_l2 (s : State) (t k : Nat) (f : Group → Group) : (s.onGroup t k f).l2 = s.l2 := rfl
@[simp] theorem State.onGroup_mids (s : State) (t k : Nat) (f : Group → Group) : (s.onGroup t k f).mids = s.mids := rfl
@[simp] theorem State.onGroup_cores (s : State) (t k : Nat) (f : Group → Group) : (s.onGroup t k f).cores = s.cores := rfl
@[simp] theorem State.onGroup_ops (s : State) (t k : Nat) (f : Group → Group) : (s.onGroup t k f).ops = s.ops := rfl
@[simp] theorem State.onGroup_sweeps (s : State) (t k : Nat) (f : Group → Group) : (s.onGroup t k f).sweeps = s.sweeps := rfl
@[simp] theorem State.onGroup_grids (s : State) (t k : Nat) (f : Group → Group) : (s.onGroup t k f).grids = s.grids := rfl
@[simp] theorem State.onGroup_ctxs (s : State) (t k : Nat) (f : Group → Group) : (s.onGroup t k f).ctxs = s.ctxs := rfl
@[simp] theorem State.onGroup_parts (s : State) (t k : Nat) (f : Group → Group) : (s.onGroup t k f).parts = s.parts := rfl
@[simp] theorem State.onGroup_regs (s : State) (t k : Nat) (f : Group → Group) : (s.onGroup t k f).regs = s.regs := rfl
@[simp] theorem State.onGroup_ports (s : State) (t k : Nat) (f : Group → Group) : (s.onGroup t k f).ports = s.ports := rfl
@[simp] theorem State.onGroup_frames (s : State) (t k : Nat) (f : Group → Group) : (s.onGroup t k f).frames = s.frames := rfl
@[simp] theorem State.onGroup_batches (s : State) (t k : Nat) (f : Group → Group) : (s.onGroup t k f).batches = s.batches := rfl
@[simp] theorem State.onGroup_fills (s : State) (t k : Nat) (f : Group → Group) : (s.onGroup t k f).fills = s.fills := rfl
@[simp] theorem State.onGroup_traces (s : State) (t k : Nat) (f : Group → Group) : (s.onGroup t k f).traces = s.traces := rfl
@[simp] theorem State.onGroup_streams (s : State) (t k : Nat) (f : Group → Group) : (s.onGroup t k f).streams = s.streams := rfl
@[simp] theorem State.onGroup_recorded (s : State) (t k : Nat) (f : Group → Group) : (s.onGroup t k f).recorded = s.recorded := rfl
@[simp] theorem State.onGroup_writers (s : State) (t k : Nat) (f : Group → Group) : (s.onGroup t k f).writers = s.writers := rfl
@[simp] theorem State.onGroup_dev (s : State) (t k : Nat) (f : Group → Group) : (s.onGroup t k f).dev = s.dev := rfl
@[simp] theorem State.onGroup_agenda (s : State) (t k : Nat) (f : Group → Group) : (s.onGroup t k f).agenda = s.agenda := rfl
@[simp] theorem State.onGroup_waiting (s : State) (t k : Nat) (f : Group → Group) : (s.onGroup t k f).waiting = s.waiting := rfl
@[simp] theorem State.onGroup_turn (s : State) (t k : Nat) (f : Group → Group) : (s.onGroup t k f).turn = s.turn := rfl
@[simp] theorem State.onGroup_fresh (s : State) (t k : Nat) (f : Group → Group) : (s.onGroup t k f).fresh = s.fresh := rfl

/-! ### `State.onCore` -/

@[simp] theorem State.onCore_mem (s : State) (k : Nat) (f : Core → Core) : (s.onCore k f).mem = s.mem := rfl
@[simp] theorem State.onCore_lines (s : State) (k : Nat) (f : Core → Core) : (s.onCore k f).lines = s.lines := rfl
@[simp] theorem State.onCore_floors (s : State) (k : Nat) (f : Core → Core) : (s.onCore k f).floors = s.floors := rfl
@[simp] theorem State.onCore_homeOld (s : State) (k : Nat) (f : Core → Core) : (s.onCore k f).homeOld = s.homeOld := rfl
@[simp] theorem State.onCore_frameOld (s : State) (k : Nat) (f : Core → Core) : (s.onCore k f).frameOld = s.frameOld := rfl
@[simp] theorem State.onCore_l2 (s : State) (k : Nat) (f : Core → Core) : (s.onCore k f).l2 = s.l2 := rfl
@[simp] theorem State.onCore_mids (s : State) (k : Nat) (f : Core → Core) : (s.onCore k f).mids = s.mids := rfl
@[simp] theorem State.onCore_teams (s : State) (k : Nat) (f : Core → Core) : (s.onCore k f).teams = s.teams := rfl
@[simp] theorem State.onCore_ops (s : State) (k : Nat) (f : Core → Core) : (s.onCore k f).ops = s.ops := rfl
@[simp] theorem State.onCore_sweeps (s : State) (k : Nat) (f : Core → Core) : (s.onCore k f).sweeps = s.sweeps := rfl
@[simp] theorem State.onCore_grids (s : State) (k : Nat) (f : Core → Core) : (s.onCore k f).grids = s.grids := rfl
@[simp] theorem State.onCore_ctxs (s : State) (k : Nat) (f : Core → Core) : (s.onCore k f).ctxs = s.ctxs := rfl
@[simp] theorem State.onCore_parts (s : State) (k : Nat) (f : Core → Core) : (s.onCore k f).parts = s.parts := rfl
@[simp] theorem State.onCore_regs (s : State) (k : Nat) (f : Core → Core) : (s.onCore k f).regs = s.regs := rfl
@[simp] theorem State.onCore_ports (s : State) (k : Nat) (f : Core → Core) : (s.onCore k f).ports = s.ports := rfl
@[simp] theorem State.onCore_frames (s : State) (k : Nat) (f : Core → Core) : (s.onCore k f).frames = s.frames := rfl
@[simp] theorem State.onCore_batches (s : State) (k : Nat) (f : Core → Core) : (s.onCore k f).batches = s.batches := rfl
@[simp] theorem State.onCore_fills (s : State) (k : Nat) (f : Core → Core) : (s.onCore k f).fills = s.fills := rfl
@[simp] theorem State.onCore_traces (s : State) (k : Nat) (f : Core → Core) : (s.onCore k f).traces = s.traces := rfl
@[simp] theorem State.onCore_streams (s : State) (k : Nat) (f : Core → Core) : (s.onCore k f).streams = s.streams := rfl
@[simp] theorem State.onCore_recorded (s : State) (k : Nat) (f : Core → Core) : (s.onCore k f).recorded = s.recorded := rfl
@[simp] theorem State.onCore_writers (s : State) (k : Nat) (f : Core → Core) : (s.onCore k f).writers = s.writers := rfl
@[simp] theorem State.onCore_dev (s : State) (k : Nat) (f : Core → Core) : (s.onCore k f).dev = s.dev := rfl
@[simp] theorem State.onCore_agenda (s : State) (k : Nat) (f : Core → Core) : (s.onCore k f).agenda = s.agenda := rfl
@[simp] theorem State.onCore_waiting (s : State) (k : Nat) (f : Core → Core) : (s.onCore k f).waiting = s.waiting := rfl
@[simp] theorem State.onCore_turn (s : State) (k : Nat) (f : Core → Core) : (s.onCore k f).turn = s.turn := rfl
@[simp] theorem State.onCore_fresh (s : State) (k : Nat) (f : Core → Core) : (s.onCore k f).fresh = s.fresh := rfl

/-! ### `State.onCtx` -/

@[simp] theorem State.onCtx_mem (s : State) (k : Nat) (f : Ctx → Ctx) : (s.onCtx k f).mem = s.mem := rfl
@[simp] theorem State.onCtx_lines (s : State) (k : Nat) (f : Ctx → Ctx) : (s.onCtx k f).lines = s.lines := rfl
@[simp] theorem State.onCtx_floors (s : State) (k : Nat) (f : Ctx → Ctx) : (s.onCtx k f).floors = s.floors := rfl
@[simp] theorem State.onCtx_homeOld (s : State) (k : Nat) (f : Ctx → Ctx) : (s.onCtx k f).homeOld = s.homeOld := rfl
@[simp] theorem State.onCtx_frameOld (s : State) (k : Nat) (f : Ctx → Ctx) : (s.onCtx k f).frameOld = s.frameOld := rfl
@[simp] theorem State.onCtx_l2 (s : State) (k : Nat) (f : Ctx → Ctx) : (s.onCtx k f).l2 = s.l2 := rfl
@[simp] theorem State.onCtx_mids (s : State) (k : Nat) (f : Ctx → Ctx) : (s.onCtx k f).mids = s.mids := rfl
@[simp] theorem State.onCtx_cores (s : State) (k : Nat) (f : Ctx → Ctx) : (s.onCtx k f).cores = s.cores := rfl
@[simp] theorem State.onCtx_teams (s : State) (k : Nat) (f : Ctx → Ctx) : (s.onCtx k f).teams = s.teams := rfl
@[simp] theorem State.onCtx_ops (s : State) (k : Nat) (f : Ctx → Ctx) : (s.onCtx k f).ops = s.ops := rfl
@[simp] theorem State.onCtx_sweeps (s : State) (k : Nat) (f : Ctx → Ctx) : (s.onCtx k f).sweeps = s.sweeps := rfl
@[simp] theorem State.onCtx_grids (s : State) (k : Nat) (f : Ctx → Ctx) : (s.onCtx k f).grids = s.grids := rfl
@[simp] theorem State.onCtx_parts (s : State) (k : Nat) (f : Ctx → Ctx) : (s.onCtx k f).parts = s.parts := rfl
@[simp] theorem State.onCtx_regs (s : State) (k : Nat) (f : Ctx → Ctx) : (s.onCtx k f).regs = s.regs := rfl
@[simp] theorem State.onCtx_ports (s : State) (k : Nat) (f : Ctx → Ctx) : (s.onCtx k f).ports = s.ports := rfl
@[simp] theorem State.onCtx_frames (s : State) (k : Nat) (f : Ctx → Ctx) : (s.onCtx k f).frames = s.frames := rfl
@[simp] theorem State.onCtx_batches (s : State) (k : Nat) (f : Ctx → Ctx) : (s.onCtx k f).batches = s.batches := rfl
@[simp] theorem State.onCtx_fills (s : State) (k : Nat) (f : Ctx → Ctx) : (s.onCtx k f).fills = s.fills := rfl
@[simp] theorem State.onCtx_traces (s : State) (k : Nat) (f : Ctx → Ctx) : (s.onCtx k f).traces = s.traces := rfl
@[simp] theorem State.onCtx_streams (s : State) (k : Nat) (f : Ctx → Ctx) : (s.onCtx k f).streams = s.streams := rfl
@[simp] theorem State.onCtx_recorded (s : State) (k : Nat) (f : Ctx → Ctx) : (s.onCtx k f).recorded = s.recorded := rfl
@[simp] theorem State.onCtx_writers (s : State) (k : Nat) (f : Ctx → Ctx) : (s.onCtx k f).writers = s.writers := rfl
@[simp] theorem State.onCtx_dev (s : State) (k : Nat) (f : Ctx → Ctx) : (s.onCtx k f).dev = s.dev := rfl
@[simp] theorem State.onCtx_agenda (s : State) (k : Nat) (f : Ctx → Ctx) : (s.onCtx k f).agenda = s.agenda := rfl
@[simp] theorem State.onCtx_waiting (s : State) (k : Nat) (f : Ctx → Ctx) : (s.onCtx k f).waiting = s.waiting := rfl
@[simp] theorem State.onCtx_turn (s : State) (k : Nat) (f : Ctx → Ctx) : (s.onCtx k f).turn = s.turn := rfl
@[simp] theorem State.onCtx_fresh (s : State) (k : Nat) (f : Ctx → Ctx) : (s.onCtx k f).fresh = s.fresh := rfl

/-! ### `State.onDev` -/

@[simp] theorem State.onDev_mem (s : State) (f : Device → Device) : (s.onDev f).mem = s.mem := rfl
@[simp] theorem State.onDev_lines (s : State) (f : Device → Device) : (s.onDev f).lines = s.lines := rfl
@[simp] theorem State.onDev_floors (s : State) (f : Device → Device) : (s.onDev f).floors = s.floors := rfl
@[simp] theorem State.onDev_homeOld (s : State) (f : Device → Device) : (s.onDev f).homeOld = s.homeOld := rfl
@[simp] theorem State.onDev_frameOld (s : State) (f : Device → Device) : (s.onDev f).frameOld = s.frameOld := rfl
@[simp] theorem State.onDev_l2 (s : State) (f : Device → Device) : (s.onDev f).l2 = s.l2 := rfl
@[simp] theorem State.onDev_mids (s : State) (f : Device → Device) : (s.onDev f).mids = s.mids := rfl
@[simp] theorem State.onDev_cores (s : State) (f : Device → Device) : (s.onDev f).cores = s.cores := rfl
@[simp] theorem State.onDev_teams (s : State) (f : Device → Device) : (s.onDev f).teams = s.teams := rfl
@[simp] theorem State.onDev_ops (s : State) (f : Device → Device) : (s.onDev f).ops = s.ops := rfl
@[simp] theorem State.onDev_sweeps (s : State) (f : Device → Device) : (s.onDev f).sweeps = s.sweeps := rfl
@[simp] theorem State.onDev_grids (s : State) (f : Device → Device) : (s.onDev f).grids = s.grids := rfl
@[simp] theorem State.onDev_ctxs (s : State) (f : Device → Device) : (s.onDev f).ctxs = s.ctxs := rfl
@[simp] theorem State.onDev_parts (s : State) (f : Device → Device) : (s.onDev f).parts = s.parts := rfl
@[simp] theorem State.onDev_regs (s : State) (f : Device → Device) : (s.onDev f).regs = s.regs := rfl
@[simp] theorem State.onDev_ports (s : State) (f : Device → Device) : (s.onDev f).ports = s.ports := rfl
@[simp] theorem State.onDev_frames (s : State) (f : Device → Device) : (s.onDev f).frames = s.frames := rfl
@[simp] theorem State.onDev_batches (s : State) (f : Device → Device) : (s.onDev f).batches = s.batches := rfl
@[simp] theorem State.onDev_fills (s : State) (f : Device → Device) : (s.onDev f).fills = s.fills := rfl
@[simp] theorem State.onDev_traces (s : State) (f : Device → Device) : (s.onDev f).traces = s.traces := rfl
@[simp] theorem State.onDev_streams (s : State) (f : Device → Device) : (s.onDev f).streams = s.streams := rfl
@[simp] theorem State.onDev_recorded (s : State) (f : Device → Device) : (s.onDev f).recorded = s.recorded := rfl
@[simp] theorem State.onDev_writers (s : State) (f : Device → Device) : (s.onDev f).writers = s.writers := rfl
@[simp] theorem State.onDev_agenda (s : State) (f : Device → Device) : (s.onDev f).agenda = s.agenda := rfl
@[simp] theorem State.onDev_waiting (s : State) (f : Device → Device) : (s.onDev f).waiting = s.waiting := rfl
@[simp] theorem State.onDev_turn (s : State) (f : Device → Device) : (s.onDev f).turn = s.turn := rfl
@[simp] theorem State.onDev_fresh (s : State) (f : Device → Device) : (s.onDev f).fresh = s.fresh := rfl

/-! ### `State.onOp` -/

@[simp] theorem State.onOp_mem (s : State) (k : Nat) (f : Op → Op) : (s.onOp k f).mem = s.mem := rfl
@[simp] theorem State.onOp_lines (s : State) (k : Nat) (f : Op → Op) : (s.onOp k f).lines = s.lines := rfl
@[simp] theorem State.onOp_floors (s : State) (k : Nat) (f : Op → Op) : (s.onOp k f).floors = s.floors := rfl
@[simp] theorem State.onOp_homeOld (s : State) (k : Nat) (f : Op → Op) : (s.onOp k f).homeOld = s.homeOld := rfl
@[simp] theorem State.onOp_frameOld (s : State) (k : Nat) (f : Op → Op) : (s.onOp k f).frameOld = s.frameOld := rfl
@[simp] theorem State.onOp_l2 (s : State) (k : Nat) (f : Op → Op) : (s.onOp k f).l2 = s.l2 := rfl
@[simp] theorem State.onOp_mids (s : State) (k : Nat) (f : Op → Op) : (s.onOp k f).mids = s.mids := rfl
@[simp] theorem State.onOp_cores (s : State) (k : Nat) (f : Op → Op) : (s.onOp k f).cores = s.cores := rfl
@[simp] theorem State.onOp_teams (s : State) (k : Nat) (f : Op → Op) : (s.onOp k f).teams = s.teams := rfl
@[simp] theorem State.onOp_sweeps (s : State) (k : Nat) (f : Op → Op) : (s.onOp k f).sweeps = s.sweeps := rfl
@[simp] theorem State.onOp_grids (s : State) (k : Nat) (f : Op → Op) : (s.onOp k f).grids = s.grids := rfl
@[simp] theorem State.onOp_ctxs (s : State) (k : Nat) (f : Op → Op) : (s.onOp k f).ctxs = s.ctxs := rfl
@[simp] theorem State.onOp_parts (s : State) (k : Nat) (f : Op → Op) : (s.onOp k f).parts = s.parts := rfl
@[simp] theorem State.onOp_regs (s : State) (k : Nat) (f : Op → Op) : (s.onOp k f).regs = s.regs := rfl
@[simp] theorem State.onOp_ports (s : State) (k : Nat) (f : Op → Op) : (s.onOp k f).ports = s.ports := rfl
@[simp] theorem State.onOp_frames (s : State) (k : Nat) (f : Op → Op) : (s.onOp k f).frames = s.frames := rfl
@[simp] theorem State.onOp_batches (s : State) (k : Nat) (f : Op → Op) : (s.onOp k f).batches = s.batches := rfl
@[simp] theorem State.onOp_fills (s : State) (k : Nat) (f : Op → Op) : (s.onOp k f).fills = s.fills := rfl
@[simp] theorem State.onOp_traces (s : State) (k : Nat) (f : Op → Op) : (s.onOp k f).traces = s.traces := rfl
@[simp] theorem State.onOp_streams (s : State) (k : Nat) (f : Op → Op) : (s.onOp k f).streams = s.streams := rfl
@[simp] theorem State.onOp_recorded (s : State) (k : Nat) (f : Op → Op) : (s.onOp k f).recorded = s.recorded := rfl
@[simp] theorem State.onOp_writers (s : State) (k : Nat) (f : Op → Op) : (s.onOp k f).writers = s.writers := rfl
@[simp] theorem State.onOp_dev (s : State) (k : Nat) (f : Op → Op) : (s.onOp k f).dev = s.dev := rfl
@[simp] theorem State.onOp_agenda (s : State) (k : Nat) (f : Op → Op) : (s.onOp k f).agenda = s.agenda := rfl
@[simp] theorem State.onOp_waiting (s : State) (k : Nat) (f : Op → Op) : (s.onOp k f).waiting = s.waiting := rfl
@[simp] theorem State.onOp_turn (s : State) (k : Nat) (f : Op → Op) : (s.onOp k f).turn = s.turn := rfl
@[simp] theorem State.onOp_fresh (s : State) (k : Nat) (f : Op → Op) : (s.onOp k f).fresh = s.fresh := rfl

/-! ### `Group.putV` -/

@[simp] theorem Group.putV_role (g : Group) (r i : Nat) (x : Word) : (g.putV r i x).role = g.role := rfl
@[simp] theorem Group.putV_width (g : Group) (r i : Nat) (x : Word) : (g.putV r i x).width = g.width := rfl
@[simp] theorem Group.putV_n (g : Group) (r i : Nat) (x : Word) : (g.putV r i x).n = g.n := rfl
@[simp] theorem Group.putV_sort (g : Group) (r i : Nat) (x : Word) : (g.putV r i x).sort = g.sort := rfl
@[simp] theorem Group.putV_col (g : Group) (r i : Nat) (x : Word) : (g.putV r i x).col = g.col := rfl
@[simp] theorem Group.putV_rows (g : Group) (r i : Nat) (x : Word) : (g.putV r i x).rows = g.rows := rfl
@[simp] theorem Group.putV_p (g : Group) (r i : Nat) (x : Word) : (g.putV r i x).p = g.p := rfl
@[simp] theorem Group.putV_s (g : Group) (r i : Nat) (x : Word) : (g.putV r i x).s = g.s := rfl
@[simp] theorem Group.putV_j (g : Group) (r i : Nat) (x : Word) : (g.putV r i x).j = g.j := rfl
@[simp] theorem Group.putV_d (g : Group) (r i : Nat) (x : Word) : (g.putV r i x).d = g.d := rfl
@[simp] theorem Group.putV_pc (g : Group) (r i : Nat) (x : Word) : (g.putV r i x).pc = g.pc := rfl
@[simp] theorem Group.putV_st (g : Group) (r i : Nat) (x : Word) : (g.putV r i x).st = g.st := rfl
@[simp] theorem Group.putV_wait (g : Group) (r i : Nat) (x : Word) : (g.putV r i x).wait = g.wait := rfl
@[simp] theorem Group.putV_arrive (g : Group) (r i : Nat) (x : Word) : (g.putV r i x).arrive = g.arrive := rfl
@[simp] theorem Group.putV_hdr (g : Group) (r i : Nat) (x : Word) : (g.putV r i x).hdr = g.hdr := rfl
@[simp] theorem Group.putV_trapHdr (g : Group) (r i : Nat) (x : Word) : (g.putV r i x).trapHdr = g.trapHdr := rfl
@[simp] theorem Group.putV_uiHdr (g : Group) (r i : Nat) (x : Word) : (g.putV r i x).uiHdr = g.uiHdr := rfl
@[simp] theorem Group.putV_prio (g : Group) (r i : Nat) (x : Word) : (g.putV r i x).prio = g.prio := rfl
@[simp] theorem Group.putV_credit (g : Group) (r i : Nat) (x : Word) : (g.putV r i x).credit = g.credit := rfl
@[simp] theorem Group.putV_flags (g : Group) (r i : Nat) (x : Word) : (g.putV r i x).flags = g.flags := rfl
@[simp] theorem Group.putV_dmr (g : Group) (r i : Nat) (x : Word) : (g.putV r i x).dmr = g.dmr := rfl
@[simp] theorem Group.putV_uien (g : Group) (r i : Nat) (x : Word) : (g.putV r i x).uien = g.uien := rfl
@[simp] theorem Group.putV_uipend (g : Group) (r i : Nat) (x : Word) : (g.putV r i x).uipend = g.uipend := rfl
@[simp] theorem Group.putV_gts (g : Group) (r i : Nat) (x : Word) : (g.putV r i x).gts = g.gts := rfl
@[simp] theorem Group.putV_trappc (g : Group) (r i : Nat) (x : Word) : (g.putV r i x).trappc = g.trappc := rfl
@[simp] theorem Group.putV_faultinfo (g : Group) (r i : Nat) (x : Word) : (g.putV r i x).faultinfo = g.faultinfo := rfl
@[simp] theorem Group.putV_faultlanes (g : Group) (r i : Nat) (x : Word) : (g.putV r i x).faultlanes = g.faultlanes := rfl
@[simp] theorem Group.putV_level (g : Group) (r i : Nat) (x : Word) : (g.putV r i x).level = g.level := rfl
@[simp] theorem Group.putV_s2 (g : Group) (r i : Nat) (x : Word) : (g.putV r i x).s2 = g.s2 := rfl
@[simp] theorem Group.putV_issued (g : Group) (r i : Nat) (x : Word) : (g.putV r i x).issued = g.issued := rfl
@[simp] theorem Group.putV_aged (g : Group) (r i : Nat) (x : Word) : (g.putV r i x).aged = g.aged := rfl
@[simp] theorem Group.putV_lower (g : Group) (r i : Nat) (x : Word) : (g.putV r i x).lower = g.lower := rfl
@[simp] theorem Group.putV_passed (g : Group) (r i : Nat) (x : Word) : (g.putV r i x).passed = g.passed := rfl
@[simp] theorem Group.putV_pend (g : Group) (r i : Nat) (x : Word) : (g.putV r i x).pend = g.pend := rfl
@[simp] theorem Group.putV_btab (g : Group) (r i : Nat) (x : Word) : (g.putV r i x).btab = g.btab := rfl
@[simp] theorem Group.putV_fences (g : Group) (r i : Nat) (x : Word) : (g.putV r i x).fences = g.fences := rfl
@[simp] theorem Group.putV_depth (g : Group) (r i : Nat) (x : Word) : (g.putV r i x).depth = g.depth := rfl
@[simp] theorem Group.putV_rets (g : Group) (r i : Nat) (x : Word) : (g.putV r i x).rets = g.rets := rfl
@[simp] theorem Group.putV_rays (g : Group) (r i : Nat) (x : Word) : (g.putV r i x).rays = g.rays := rfl
@[simp] theorem Group.putV_calls (g : Group) (r i : Nat) (x : Word) : (g.putV r i x).calls = g.calls := rfl
@[simp] theorem Group.putV_trapCalls (g : Group) (r i : Nat) (x : Word) : (g.putV r i x).trapCalls = g.trapCalls := rfl
@[simp] theorem Group.putV_uiCalls (g : Group) (r i : Nat) (x : Word) : (g.putV r i x).uiCalls = g.uiCalls := rfl
@[simp] theorem Group.putV_kept (g : Group) (r i : Nat) (x : Word) : (g.putV r i x).kept = g.kept := rfl
@[simp] theorem Group.putV_helper (g : Group) (r i : Nat) (x : Word) : (g.putV r i x).helper = g.helper := rfl
@[simp] theorem Group.putV_relDone (g : Group) (r i : Nat) (x : Word) : (g.putV r i x).relDone = g.relDone := rfl
@[simp] theorem Group.putV_carry (g : Group) (r i : Nat) (x : Word) : (g.putV r i x).carry = g.carry := rfl
@[simp] theorem Group.putV_xsrc (g : Group) (r i : Nat) (x : Word) : (g.putV r i x).xsrc = g.xsrc := rfl
@[simp] theorem Group.putV_ordinal (g : Group) (r i : Nat) (x : Word) : (g.putV r i x).ordinal = g.ordinal := rfl
@[simp] theorem Group.putV_late (g : Group) (r i : Nat) (x : Word) : (g.putV r i x).late = g.late := rfl
@[simp] theorem Group.putV_owed (g : Group) (r i : Nat) (x : Word) : (g.putV r i x).owed = g.owed := rfl

/-! ### `Group.setJ` -/

@[simp] theorem Group.setJ_role (g : Group) (k : Nat) (x : Lanes) : (g.setJ k x).role = g.role := rfl
@[simp] theorem Group.setJ_width (g : Group) (k : Nat) (x : Lanes) : (g.setJ k x).width = g.width := rfl
@[simp] theorem Group.setJ_n (g : Group) (k : Nat) (x : Lanes) : (g.setJ k x).n = g.n := rfl
@[simp] theorem Group.setJ_sort (g : Group) (k : Nat) (x : Lanes) : (g.setJ k x).sort = g.sort := rfl
@[simp] theorem Group.setJ_col (g : Group) (k : Nat) (x : Lanes) : (g.setJ k x).col = g.col := rfl
@[simp] theorem Group.setJ_rows (g : Group) (k : Nat) (x : Lanes) : (g.setJ k x).rows = g.rows := rfl
@[simp] theorem Group.setJ_v (g : Group) (k : Nat) (x : Lanes) : (g.setJ k x).v = g.v := rfl
@[simp] theorem Group.setJ_p (g : Group) (k : Nat) (x : Lanes) : (g.setJ k x).p = g.p := rfl
@[simp] theorem Group.setJ_s (g : Group) (k : Nat) (x : Lanes) : (g.setJ k x).s = g.s := rfl
@[simp] theorem Group.setJ_d (g : Group) (k : Nat) (x : Lanes) : (g.setJ k x).d = g.d := rfl
@[simp] theorem Group.setJ_pc (g : Group) (k : Nat) (x : Lanes) : (g.setJ k x).pc = g.pc := rfl
@[simp] theorem Group.setJ_st (g : Group) (k : Nat) (x : Lanes) : (g.setJ k x).st = g.st := rfl
@[simp] theorem Group.setJ_wait (g : Group) (k : Nat) (x : Lanes) : (g.setJ k x).wait = g.wait := rfl
@[simp] theorem Group.setJ_arrive (g : Group) (k : Nat) (x : Lanes) : (g.setJ k x).arrive = g.arrive := rfl
@[simp] theorem Group.setJ_hdr (g : Group) (k : Nat) (x : Lanes) : (g.setJ k x).hdr = g.hdr := rfl
@[simp] theorem Group.setJ_trapHdr (g : Group) (k : Nat) (x : Lanes) : (g.setJ k x).trapHdr = g.trapHdr := rfl
@[simp] theorem Group.setJ_uiHdr (g : Group) (k : Nat) (x : Lanes) : (g.setJ k x).uiHdr = g.uiHdr := rfl
@[simp] theorem Group.setJ_prio (g : Group) (k : Nat) (x : Lanes) : (g.setJ k x).prio = g.prio := rfl
@[simp] theorem Group.setJ_credit (g : Group) (k : Nat) (x : Lanes) : (g.setJ k x).credit = g.credit := rfl
@[simp] theorem Group.setJ_flags (g : Group) (k : Nat) (x : Lanes) : (g.setJ k x).flags = g.flags := rfl
@[simp] theorem Group.setJ_dmr (g : Group) (k : Nat) (x : Lanes) : (g.setJ k x).dmr = g.dmr := rfl
@[simp] theorem Group.setJ_uien (g : Group) (k : Nat) (x : Lanes) : (g.setJ k x).uien = g.uien := rfl
@[simp] theorem Group.setJ_uipend (g : Group) (k : Nat) (x : Lanes) : (g.setJ k x).uipend = g.uipend := rfl
@[simp] theorem Group.setJ_gts (g : Group) (k : Nat) (x : Lanes) : (g.setJ k x).gts = g.gts := rfl
@[simp] theorem Group.setJ_trappc (g : Group) (k : Nat) (x : Lanes) : (g.setJ k x).trappc = g.trappc := rfl
@[simp] theorem Group.setJ_faultinfo (g : Group) (k : Nat) (x : Lanes) : (g.setJ k x).faultinfo = g.faultinfo := rfl
@[simp] theorem Group.setJ_faultlanes (g : Group) (k : Nat) (x : Lanes) : (g.setJ k x).faultlanes = g.faultlanes := rfl
@[simp] theorem Group.setJ_level (g : Group) (k : Nat) (x : Lanes) : (g.setJ k x).level = g.level := rfl
@[simp] theorem Group.setJ_s2 (g : Group) (k : Nat) (x : Lanes) : (g.setJ k x).s2 = g.s2 := rfl
@[simp] theorem Group.setJ_issued (g : Group) (k : Nat) (x : Lanes) : (g.setJ k x).issued = g.issued := rfl
@[simp] theorem Group.setJ_aged (g : Group) (k : Nat) (x : Lanes) : (g.setJ k x).aged = g.aged := rfl
@[simp] theorem Group.setJ_lower (g : Group) (k : Nat) (x : Lanes) : (g.setJ k x).lower = g.lower := rfl
@[simp] theorem Group.setJ_passed (g : Group) (k : Nat) (x : Lanes) : (g.setJ k x).passed = g.passed := rfl
@[simp] theorem Group.setJ_pend (g : Group) (k : Nat) (x : Lanes) : (g.setJ k x).pend = g.pend := rfl
@[simp] theorem Group.setJ_btab (g : Group) (k : Nat) (x : Lanes) : (g.setJ k x).btab = g.btab := rfl
@[simp] theorem Group.setJ_fences (g : Group) (k : Nat) (x : Lanes) : (g.setJ k x).fences = g.fences := rfl
@[simp] theorem Group.setJ_depth (g : Group) (k : Nat) (x : Lanes) : (g.setJ k x).depth = g.depth := rfl
@[simp] theorem Group.setJ_rets (g : Group) (k : Nat) (x : Lanes) : (g.setJ k x).rets = g.rets := rfl
@[simp] theorem Group.setJ_rays (g : Group) (k : Nat) (x : Lanes) : (g.setJ k x).rays = g.rays := rfl
@[simp] theorem Group.setJ_calls (g : Group) (k : Nat) (x : Lanes) : (g.setJ k x).calls = g.calls := rfl
@[simp] theorem Group.setJ_trapCalls (g : Group) (k : Nat) (x : Lanes) : (g.setJ k x).trapCalls = g.trapCalls := rfl
@[simp] theorem Group.setJ_uiCalls (g : Group) (k : Nat) (x : Lanes) : (g.setJ k x).uiCalls = g.uiCalls := rfl
@[simp] theorem Group.setJ_kept (g : Group) (k : Nat) (x : Lanes) : (g.setJ k x).kept = g.kept := rfl
@[simp] theorem Group.setJ_helper (g : Group) (k : Nat) (x : Lanes) : (g.setJ k x).helper = g.helper := rfl
@[simp] theorem Group.setJ_relDone (g : Group) (k : Nat) (x : Lanes) : (g.setJ k x).relDone = g.relDone := rfl
@[simp] theorem Group.setJ_carry (g : Group) (k : Nat) (x : Lanes) : (g.setJ k x).carry = g.carry := rfl
@[simp] theorem Group.setJ_xsrc (g : Group) (k : Nat) (x : Lanes) : (g.setJ k x).xsrc = g.xsrc := rfl
@[simp] theorem Group.setJ_ordinal (g : Group) (k : Nat) (x : Lanes) : (g.setJ k x).ordinal = g.ordinal := rfl
@[simp] theorem Group.setJ_late (g : Group) (k : Nat) (x : Lanes) : (g.setJ k x).late = g.late := rfl
@[simp] theorem Group.setJ_owed (g : Group) (k : Nat) (x : Lanes) : (g.setJ k x).owed = g.owed := rfl

/-! ### `Group.setD` -/

@[simp] theorem Group.setD_role (g : Group) (k x : Nat) : (g.setD k x).role = g.role := rfl
@[simp] theorem Group.setD_width (g : Group) (k x : Nat) : (g.setD k x).width = g.width := rfl
@[simp] theorem Group.setD_n (g : Group) (k x : Nat) : (g.setD k x).n = g.n := rfl
@[simp] theorem Group.setD_sort (g : Group) (k x : Nat) : (g.setD k x).sort = g.sort := rfl
@[simp] theorem Group.setD_col (g : Group) (k x : Nat) : (g.setD k x).col = g.col := rfl
@[simp] theorem Group.setD_rows (g : Group) (k x : Nat) : (g.setD k x).rows = g.rows := rfl
@[simp] theorem Group.setD_v (g : Group) (k x : Nat) : (g.setD k x).v = g.v := rfl
@[simp] theorem Group.setD_p (g : Group) (k x : Nat) : (g.setD k x).p = g.p := rfl
@[simp] theorem Group.setD_s (g : Group) (k x : Nat) : (g.setD k x).s = g.s := rfl
@[simp] theorem Group.setD_j (g : Group) (k x : Nat) : (g.setD k x).j = g.j := rfl
@[simp] theorem Group.setD_pc (g : Group) (k x : Nat) : (g.setD k x).pc = g.pc := rfl
@[simp] theorem Group.setD_st (g : Group) (k x : Nat) : (g.setD k x).st = g.st := rfl
@[simp] theorem Group.setD_wait (g : Group) (k x : Nat) : (g.setD k x).wait = g.wait := rfl
@[simp] theorem Group.setD_arrive (g : Group) (k x : Nat) : (g.setD k x).arrive = g.arrive := rfl
@[simp] theorem Group.setD_hdr (g : Group) (k x : Nat) : (g.setD k x).hdr = g.hdr := rfl
@[simp] theorem Group.setD_trapHdr (g : Group) (k x : Nat) : (g.setD k x).trapHdr = g.trapHdr := rfl
@[simp] theorem Group.setD_uiHdr (g : Group) (k x : Nat) : (g.setD k x).uiHdr = g.uiHdr := rfl
@[simp] theorem Group.setD_prio (g : Group) (k x : Nat) : (g.setD k x).prio = g.prio := rfl
@[simp] theorem Group.setD_credit (g : Group) (k x : Nat) : (g.setD k x).credit = g.credit := rfl
@[simp] theorem Group.setD_flags (g : Group) (k x : Nat) : (g.setD k x).flags = g.flags := rfl
@[simp] theorem Group.setD_dmr (g : Group) (k x : Nat) : (g.setD k x).dmr = g.dmr := rfl
@[simp] theorem Group.setD_uien (g : Group) (k x : Nat) : (g.setD k x).uien = g.uien := rfl
@[simp] theorem Group.setD_uipend (g : Group) (k x : Nat) : (g.setD k x).uipend = g.uipend := rfl
@[simp] theorem Group.setD_gts (g : Group) (k x : Nat) : (g.setD k x).gts = g.gts := rfl
@[simp] theorem Group.setD_trappc (g : Group) (k x : Nat) : (g.setD k x).trappc = g.trappc := rfl
@[simp] theorem Group.setD_faultinfo (g : Group) (k x : Nat) : (g.setD k x).faultinfo = g.faultinfo := rfl
@[simp] theorem Group.setD_faultlanes (g : Group) (k x : Nat) : (g.setD k x).faultlanes = g.faultlanes := rfl
@[simp] theorem Group.setD_level (g : Group) (k x : Nat) : (g.setD k x).level = g.level := rfl
@[simp] theorem Group.setD_s2 (g : Group) (k x : Nat) : (g.setD k x).s2 = g.s2 := rfl
@[simp] theorem Group.setD_issued (g : Group) (k x : Nat) : (g.setD k x).issued = g.issued := rfl
@[simp] theorem Group.setD_aged (g : Group) (k x : Nat) : (g.setD k x).aged = g.aged := rfl
@[simp] theorem Group.setD_lower (g : Group) (k x : Nat) : (g.setD k x).lower = g.lower := rfl
@[simp] theorem Group.setD_passed (g : Group) (k x : Nat) : (g.setD k x).passed = g.passed := rfl
@[simp] theorem Group.setD_pend (g : Group) (k x : Nat) : (g.setD k x).pend = g.pend := rfl
@[simp] theorem Group.setD_btab (g : Group) (k x : Nat) : (g.setD k x).btab = g.btab := rfl
@[simp] theorem Group.setD_fences (g : Group) (k x : Nat) : (g.setD k x).fences = g.fences := rfl
@[simp] theorem Group.setD_depth (g : Group) (k x : Nat) : (g.setD k x).depth = g.depth := rfl
@[simp] theorem Group.setD_rets (g : Group) (k x : Nat) : (g.setD k x).rets = g.rets := rfl
@[simp] theorem Group.setD_rays (g : Group) (k x : Nat) : (g.setD k x).rays = g.rays := rfl
@[simp] theorem Group.setD_calls (g : Group) (k x : Nat) : (g.setD k x).calls = g.calls := rfl
@[simp] theorem Group.setD_trapCalls (g : Group) (k x : Nat) : (g.setD k x).trapCalls = g.trapCalls := rfl
@[simp] theorem Group.setD_uiCalls (g : Group) (k x : Nat) : (g.setD k x).uiCalls = g.uiCalls := rfl
@[simp] theorem Group.setD_kept (g : Group) (k x : Nat) : (g.setD k x).kept = g.kept := rfl
@[simp] theorem Group.setD_helper (g : Group) (k x : Nat) : (g.setD k x).helper = g.helper := rfl
@[simp] theorem Group.setD_relDone (g : Group) (k x : Nat) : (g.setD k x).relDone = g.relDone := rfl
@[simp] theorem Group.setD_carry (g : Group) (k x : Nat) : (g.setD k x).carry = g.carry := rfl
@[simp] theorem Group.setD_xsrc (g : Group) (k x : Nat) : (g.setD k x).xsrc = g.xsrc := rfl
@[simp] theorem Group.setD_ordinal (g : Group) (k x : Nat) : (g.setD k x).ordinal = g.ordinal := rfl
@[simp] theorem Group.setD_late (g : Group) (k x : Nat) : (g.setD k x).late = g.late := rfl
@[simp] theorem Group.setD_owed (g : Group) (k x : Nat) : (g.setD k x).owed = g.owed := rfl

/-! ### `Group.raise` -/

@[simp] theorem Group.raise_role (g : Group) (f : BitVec 5) : (g.raise f).role = g.role := rfl
@[simp] theorem Group.raise_width (g : Group) (f : BitVec 5) : (g.raise f).width = g.width := rfl
@[simp] theorem Group.raise_n (g : Group) (f : BitVec 5) : (g.raise f).n = g.n := rfl
@[simp] theorem Group.raise_sort (g : Group) (f : BitVec 5) : (g.raise f).sort = g.sort := rfl
@[simp] theorem Group.raise_col (g : Group) (f : BitVec 5) : (g.raise f).col = g.col := rfl
@[simp] theorem Group.raise_rows (g : Group) (f : BitVec 5) : (g.raise f).rows = g.rows := rfl
@[simp] theorem Group.raise_v (g : Group) (f : BitVec 5) : (g.raise f).v = g.v := rfl
@[simp] theorem Group.raise_p (g : Group) (f : BitVec 5) : (g.raise f).p = g.p := rfl
@[simp] theorem Group.raise_s (g : Group) (f : BitVec 5) : (g.raise f).s = g.s := rfl
@[simp] theorem Group.raise_j (g : Group) (f : BitVec 5) : (g.raise f).j = g.j := rfl
@[simp] theorem Group.raise_d (g : Group) (f : BitVec 5) : (g.raise f).d = g.d := rfl
@[simp] theorem Group.raise_pc (g : Group) (f : BitVec 5) : (g.raise f).pc = g.pc := rfl
@[simp] theorem Group.raise_st (g : Group) (f : BitVec 5) : (g.raise f).st = g.st := rfl
@[simp] theorem Group.raise_wait (g : Group) (f : BitVec 5) : (g.raise f).wait = g.wait := rfl
@[simp] theorem Group.raise_arrive (g : Group) (f : BitVec 5) : (g.raise f).arrive = g.arrive := rfl
@[simp] theorem Group.raise_hdr (g : Group) (f : BitVec 5) : (g.raise f).hdr = g.hdr := rfl
@[simp] theorem Group.raise_trapHdr (g : Group) (f : BitVec 5) : (g.raise f).trapHdr = g.trapHdr := rfl
@[simp] theorem Group.raise_uiHdr (g : Group) (f : BitVec 5) : (g.raise f).uiHdr = g.uiHdr := rfl
@[simp] theorem Group.raise_prio (g : Group) (f : BitVec 5) : (g.raise f).prio = g.prio := rfl
@[simp] theorem Group.raise_credit (g : Group) (f : BitVec 5) : (g.raise f).credit = g.credit := rfl
@[simp] theorem Group.raise_dmr (g : Group) (f : BitVec 5) : (g.raise f).dmr = g.dmr := rfl
@[simp] theorem Group.raise_uien (g : Group) (f : BitVec 5) : (g.raise f).uien = g.uien := rfl
@[simp] theorem Group.raise_uipend (g : Group) (f : BitVec 5) : (g.raise f).uipend = g.uipend := rfl
@[simp] theorem Group.raise_gts (g : Group) (f : BitVec 5) : (g.raise f).gts = g.gts := rfl
@[simp] theorem Group.raise_trappc (g : Group) (f : BitVec 5) : (g.raise f).trappc = g.trappc := rfl
@[simp] theorem Group.raise_faultinfo (g : Group) (f : BitVec 5) : (g.raise f).faultinfo = g.faultinfo := rfl
@[simp] theorem Group.raise_faultlanes (g : Group) (f : BitVec 5) : (g.raise f).faultlanes = g.faultlanes := rfl
@[simp] theorem Group.raise_level (g : Group) (f : BitVec 5) : (g.raise f).level = g.level := rfl
@[simp] theorem Group.raise_s2 (g : Group) (f : BitVec 5) : (g.raise f).s2 = g.s2 := rfl
@[simp] theorem Group.raise_issued (g : Group) (f : BitVec 5) : (g.raise f).issued = g.issued := rfl
@[simp] theorem Group.raise_aged (g : Group) (f : BitVec 5) : (g.raise f).aged = g.aged := rfl
@[simp] theorem Group.raise_lower (g : Group) (f : BitVec 5) : (g.raise f).lower = g.lower := rfl
@[simp] theorem Group.raise_passed (g : Group) (f : BitVec 5) : (g.raise f).passed = g.passed := rfl
@[simp] theorem Group.raise_pend (g : Group) (f : BitVec 5) : (g.raise f).pend = g.pend := rfl
@[simp] theorem Group.raise_btab (g : Group) (f : BitVec 5) : (g.raise f).btab = g.btab := rfl
@[simp] theorem Group.raise_fences (g : Group) (f : BitVec 5) : (g.raise f).fences = g.fences := rfl
@[simp] theorem Group.raise_depth (g : Group) (f : BitVec 5) : (g.raise f).depth = g.depth := rfl
@[simp] theorem Group.raise_rets (g : Group) (f : BitVec 5) : (g.raise f).rets = g.rets := rfl
@[simp] theorem Group.raise_rays (g : Group) (f : BitVec 5) : (g.raise f).rays = g.rays := rfl
@[simp] theorem Group.raise_calls (g : Group) (f : BitVec 5) : (g.raise f).calls = g.calls := rfl
@[simp] theorem Group.raise_trapCalls (g : Group) (f : BitVec 5) : (g.raise f).trapCalls = g.trapCalls := rfl
@[simp] theorem Group.raise_uiCalls (g : Group) (f : BitVec 5) : (g.raise f).uiCalls = g.uiCalls := rfl
@[simp] theorem Group.raise_kept (g : Group) (f : BitVec 5) : (g.raise f).kept = g.kept := rfl
@[simp] theorem Group.raise_helper (g : Group) (f : BitVec 5) : (g.raise f).helper = g.helper := rfl
@[simp] theorem Group.raise_relDone (g : Group) (f : BitVec 5) : (g.raise f).relDone = g.relDone := rfl
@[simp] theorem Group.raise_carry (g : Group) (f : BitVec 5) : (g.raise f).carry = g.carry := rfl
@[simp] theorem Group.raise_xsrc (g : Group) (f : BitVec 5) : (g.raise f).xsrc = g.xsrc := rfl
@[simp] theorem Group.raise_ordinal (g : Group) (f : BitVec 5) : (g.raise f).ordinal = g.ordinal := rfl
@[simp] theorem Group.raise_late (g : Group) (f : BitVec 5) : (g.raise f).late = g.late := rfl
@[simp] theorem Group.raise_owed (g : Group) (f : BitVec 5) : (g.raise f).owed = g.owed := rfl

/-! ### `Group.setState` -/

@[simp] theorem Group.setState_role (g : Group) (i x : Nat) : (g.setState i x).role = g.role := rfl
@[simp] theorem Group.setState_width (g : Group) (i x : Nat) : (g.setState i x).width = g.width := rfl
@[simp] theorem Group.setState_n (g : Group) (i x : Nat) : (g.setState i x).n = g.n := rfl
@[simp] theorem Group.setState_sort (g : Group) (i x : Nat) : (g.setState i x).sort = g.sort := rfl
@[simp] theorem Group.setState_col (g : Group) (i x : Nat) : (g.setState i x).col = g.col := rfl
@[simp] theorem Group.setState_rows (g : Group) (i x : Nat) : (g.setState i x).rows = g.rows := rfl
@[simp] theorem Group.setState_v (g : Group) (i x : Nat) : (g.setState i x).v = g.v := rfl
@[simp] theorem Group.setState_p (g : Group) (i x : Nat) : (g.setState i x).p = g.p := rfl
@[simp] theorem Group.setState_s (g : Group) (i x : Nat) : (g.setState i x).s = g.s := rfl
@[simp] theorem Group.setState_j (g : Group) (i x : Nat) : (g.setState i x).j = g.j := rfl
@[simp] theorem Group.setState_d (g : Group) (i x : Nat) : (g.setState i x).d = g.d := rfl
@[simp] theorem Group.setState_pc (g : Group) (i x : Nat) : (g.setState i x).pc = g.pc := rfl
@[simp] theorem Group.setState_wait (g : Group) (i x : Nat) : (g.setState i x).wait = g.wait := rfl
@[simp] theorem Group.setState_arrive (g : Group) (i x : Nat) : (g.setState i x).arrive = g.arrive := rfl
@[simp] theorem Group.setState_hdr (g : Group) (i x : Nat) : (g.setState i x).hdr = g.hdr := rfl
@[simp] theorem Group.setState_trapHdr (g : Group) (i x : Nat) : (g.setState i x).trapHdr = g.trapHdr := rfl
@[simp] theorem Group.setState_uiHdr (g : Group) (i x : Nat) : (g.setState i x).uiHdr = g.uiHdr := rfl
@[simp] theorem Group.setState_prio (g : Group) (i x : Nat) : (g.setState i x).prio = g.prio := rfl
@[simp] theorem Group.setState_credit (g : Group) (i x : Nat) : (g.setState i x).credit = g.credit := rfl
@[simp] theorem Group.setState_flags (g : Group) (i x : Nat) : (g.setState i x).flags = g.flags := rfl
@[simp] theorem Group.setState_dmr (g : Group) (i x : Nat) : (g.setState i x).dmr = g.dmr := rfl
@[simp] theorem Group.setState_uien (g : Group) (i x : Nat) : (g.setState i x).uien = g.uien := rfl
@[simp] theorem Group.setState_uipend (g : Group) (i x : Nat) : (g.setState i x).uipend = g.uipend := rfl
@[simp] theorem Group.setState_gts (g : Group) (i x : Nat) : (g.setState i x).gts = g.gts := rfl
@[simp] theorem Group.setState_trappc (g : Group) (i x : Nat) : (g.setState i x).trappc = g.trappc := rfl
@[simp] theorem Group.setState_faultinfo (g : Group) (i x : Nat) : (g.setState i x).faultinfo = g.faultinfo := rfl
@[simp] theorem Group.setState_faultlanes (g : Group) (i x : Nat) : (g.setState i x).faultlanes = g.faultlanes := rfl
@[simp] theorem Group.setState_level (g : Group) (i x : Nat) : (g.setState i x).level = g.level := rfl
@[simp] theorem Group.setState_s2 (g : Group) (i x : Nat) : (g.setState i x).s2 = g.s2 := rfl
@[simp] theorem Group.setState_issued (g : Group) (i x : Nat) : (g.setState i x).issued = g.issued := rfl
@[simp] theorem Group.setState_aged (g : Group) (i x : Nat) : (g.setState i x).aged = g.aged := rfl
@[simp] theorem Group.setState_lower (g : Group) (i x : Nat) : (g.setState i x).lower = g.lower := rfl
@[simp] theorem Group.setState_passed (g : Group) (i x : Nat) : (g.setState i x).passed = g.passed := rfl
@[simp] theorem Group.setState_pend (g : Group) (i x : Nat) : (g.setState i x).pend = g.pend := rfl
@[simp] theorem Group.setState_btab (g : Group) (i x : Nat) : (g.setState i x).btab = g.btab := rfl
@[simp] theorem Group.setState_fences (g : Group) (i x : Nat) : (g.setState i x).fences = g.fences := rfl
@[simp] theorem Group.setState_depth (g : Group) (i x : Nat) : (g.setState i x).depth = g.depth := rfl
@[simp] theorem Group.setState_rets (g : Group) (i x : Nat) : (g.setState i x).rets = g.rets := rfl
@[simp] theorem Group.setState_rays (g : Group) (i x : Nat) : (g.setState i x).rays = g.rays := rfl
@[simp] theorem Group.setState_calls (g : Group) (i x : Nat) : (g.setState i x).calls = g.calls := rfl
@[simp] theorem Group.setState_trapCalls (g : Group) (i x : Nat) : (g.setState i x).trapCalls = g.trapCalls := rfl
@[simp] theorem Group.setState_uiCalls (g : Group) (i x : Nat) : (g.setState i x).uiCalls = g.uiCalls := rfl
@[simp] theorem Group.setState_kept (g : Group) (i x : Nat) : (g.setState i x).kept = g.kept := rfl
@[simp] theorem Group.setState_helper (g : Group) (i x : Nat) : (g.setState i x).helper = g.helper := rfl
@[simp] theorem Group.setState_relDone (g : Group) (i x : Nat) : (g.setState i x).relDone = g.relDone := rfl
@[simp] theorem Group.setState_carry (g : Group) (i x : Nat) : (g.setState i x).carry = g.carry := rfl
@[simp] theorem Group.setState_xsrc (g : Group) (i x : Nat) : (g.setState i x).xsrc = g.xsrc := rfl
@[simp] theorem Group.setState_ordinal (g : Group) (i x : Nat) : (g.setState i x).ordinal = g.ordinal := rfl
@[simp] theorem Group.setState_late (g : Group) (i x : Nat) : (g.setState i x).late = g.late := rfl
@[simp] theorem Group.setState_owed (g : Group) (i x : Nat) : (g.setState i x).owed = g.owed := rfl

/-! ### `Group.setPc` -/

@[simp] theorem Group.setPc_role (g : Group) (i : Nat) (x : Word) : (g.setPc i x).role = g.role := rfl
@[simp] theorem Group.setPc_width (g : Group) (i : Nat) (x : Word) : (g.setPc i x).width = g.width := rfl
@[simp] theorem Group.setPc_n (g : Group) (i : Nat) (x : Word) : (g.setPc i x).n = g.n := rfl
@[simp] theorem Group.setPc_sort (g : Group) (i : Nat) (x : Word) : (g.setPc i x).sort = g.sort := rfl
@[simp] theorem Group.setPc_col (g : Group) (i : Nat) (x : Word) : (g.setPc i x).col = g.col := rfl
@[simp] theorem Group.setPc_rows (g : Group) (i : Nat) (x : Word) : (g.setPc i x).rows = g.rows := rfl
@[simp] theorem Group.setPc_v (g : Group) (i : Nat) (x : Word) : (g.setPc i x).v = g.v := rfl
@[simp] theorem Group.setPc_p (g : Group) (i : Nat) (x : Word) : (g.setPc i x).p = g.p := rfl
@[simp] theorem Group.setPc_s (g : Group) (i : Nat) (x : Word) : (g.setPc i x).s = g.s := rfl
@[simp] theorem Group.setPc_j (g : Group) (i : Nat) (x : Word) : (g.setPc i x).j = g.j := rfl
@[simp] theorem Group.setPc_d (g : Group) (i : Nat) (x : Word) : (g.setPc i x).d = g.d := rfl
@[simp] theorem Group.setPc_st (g : Group) (i : Nat) (x : Word) : (g.setPc i x).st = g.st := rfl
@[simp] theorem Group.setPc_wait (g : Group) (i : Nat) (x : Word) : (g.setPc i x).wait = g.wait := rfl
@[simp] theorem Group.setPc_arrive (g : Group) (i : Nat) (x : Word) : (g.setPc i x).arrive = g.arrive := rfl
@[simp] theorem Group.setPc_hdr (g : Group) (i : Nat) (x : Word) : (g.setPc i x).hdr = g.hdr := rfl
@[simp] theorem Group.setPc_trapHdr (g : Group) (i : Nat) (x : Word) : (g.setPc i x).trapHdr = g.trapHdr := rfl
@[simp] theorem Group.setPc_uiHdr (g : Group) (i : Nat) (x : Word) : (g.setPc i x).uiHdr = g.uiHdr := rfl
@[simp] theorem Group.setPc_prio (g : Group) (i : Nat) (x : Word) : (g.setPc i x).prio = g.prio := rfl
@[simp] theorem Group.setPc_credit (g : Group) (i : Nat) (x : Word) : (g.setPc i x).credit = g.credit := rfl
@[simp] theorem Group.setPc_flags (g : Group) (i : Nat) (x : Word) : (g.setPc i x).flags = g.flags := rfl
@[simp] theorem Group.setPc_dmr (g : Group) (i : Nat) (x : Word) : (g.setPc i x).dmr = g.dmr := rfl
@[simp] theorem Group.setPc_uien (g : Group) (i : Nat) (x : Word) : (g.setPc i x).uien = g.uien := rfl
@[simp] theorem Group.setPc_uipend (g : Group) (i : Nat) (x : Word) : (g.setPc i x).uipend = g.uipend := rfl
@[simp] theorem Group.setPc_gts (g : Group) (i : Nat) (x : Word) : (g.setPc i x).gts = g.gts := rfl
@[simp] theorem Group.setPc_trappc (g : Group) (i : Nat) (x : Word) : (g.setPc i x).trappc = g.trappc := rfl
@[simp] theorem Group.setPc_faultinfo (g : Group) (i : Nat) (x : Word) : (g.setPc i x).faultinfo = g.faultinfo := rfl
@[simp] theorem Group.setPc_faultlanes (g : Group) (i : Nat) (x : Word) : (g.setPc i x).faultlanes = g.faultlanes := rfl
@[simp] theorem Group.setPc_level (g : Group) (i : Nat) (x : Word) : (g.setPc i x).level = g.level := rfl
@[simp] theorem Group.setPc_s2 (g : Group) (i : Nat) (x : Word) : (g.setPc i x).s2 = g.s2 := rfl
@[simp] theorem Group.setPc_issued (g : Group) (i : Nat) (x : Word) : (g.setPc i x).issued = g.issued := rfl
@[simp] theorem Group.setPc_aged (g : Group) (i : Nat) (x : Word) : (g.setPc i x).aged = g.aged := rfl
@[simp] theorem Group.setPc_lower (g : Group) (i : Nat) (x : Word) : (g.setPc i x).lower = g.lower := rfl
@[simp] theorem Group.setPc_passed (g : Group) (i : Nat) (x : Word) : (g.setPc i x).passed = g.passed := rfl
@[simp] theorem Group.setPc_pend (g : Group) (i : Nat) (x : Word) : (g.setPc i x).pend = g.pend := rfl
@[simp] theorem Group.setPc_btab (g : Group) (i : Nat) (x : Word) : (g.setPc i x).btab = g.btab := rfl
@[simp] theorem Group.setPc_fences (g : Group) (i : Nat) (x : Word) : (g.setPc i x).fences = g.fences := rfl
@[simp] theorem Group.setPc_depth (g : Group) (i : Nat) (x : Word) : (g.setPc i x).depth = g.depth := rfl
@[simp] theorem Group.setPc_rets (g : Group) (i : Nat) (x : Word) : (g.setPc i x).rets = g.rets := rfl
@[simp] theorem Group.setPc_rays (g : Group) (i : Nat) (x : Word) : (g.setPc i x).rays = g.rays := rfl
@[simp] theorem Group.setPc_calls (g : Group) (i : Nat) (x : Word) : (g.setPc i x).calls = g.calls := rfl
@[simp] theorem Group.setPc_trapCalls (g : Group) (i : Nat) (x : Word) : (g.setPc i x).trapCalls = g.trapCalls := rfl
@[simp] theorem Group.setPc_uiCalls (g : Group) (i : Nat) (x : Word) : (g.setPc i x).uiCalls = g.uiCalls := rfl
@[simp] theorem Group.setPc_kept (g : Group) (i : Nat) (x : Word) : (g.setPc i x).kept = g.kept := rfl
@[simp] theorem Group.setPc_helper (g : Group) (i : Nat) (x : Word) : (g.setPc i x).helper = g.helper := rfl
@[simp] theorem Group.setPc_relDone (g : Group) (i : Nat) (x : Word) : (g.setPc i x).relDone = g.relDone := rfl
@[simp] theorem Group.setPc_carry (g : Group) (i : Nat) (x : Word) : (g.setPc i x).carry = g.carry := rfl
@[simp] theorem Group.setPc_xsrc (g : Group) (i : Nat) (x : Word) : (g.setPc i x).xsrc = g.xsrc := rfl
@[simp] theorem Group.setPc_ordinal (g : Group) (i : Nat) (x : Word) : (g.setPc i x).ordinal = g.ordinal := rfl
@[simp] theorem Group.setPc_late (g : Group) (i : Nat) (x : Word) : (g.setPc i x).late = g.late := rfl
@[simp] theorem Group.setPc_owed (g : Group) (i : Nat) (x : Word) : (g.setPc i x).owed = g.owed := rfl

/-! ### `Group.mapPend` -/

@[simp] theorem Group.mapPend_role (g : Group) (f : Pend → Pend) : (g.mapPend f).role = g.role := rfl
@[simp] theorem Group.mapPend_width (g : Group) (f : Pend → Pend) : (g.mapPend f).width = g.width := rfl
@[simp] theorem Group.mapPend_n (g : Group) (f : Pend → Pend) : (g.mapPend f).n = g.n := rfl
@[simp] theorem Group.mapPend_sort (g : Group) (f : Pend → Pend) : (g.mapPend f).sort = g.sort := rfl
@[simp] theorem Group.mapPend_col (g : Group) (f : Pend → Pend) : (g.mapPend f).col = g.col := rfl
@[simp] theorem Group.mapPend_rows (g : Group) (f : Pend → Pend) : (g.mapPend f).rows = g.rows := rfl
@[simp] theorem Group.mapPend_v (g : Group) (f : Pend → Pend) : (g.mapPend f).v = g.v := rfl
@[simp] theorem Group.mapPend_p (g : Group) (f : Pend → Pend) : (g.mapPend f).p = g.p := rfl
@[simp] theorem Group.mapPend_s (g : Group) (f : Pend → Pend) : (g.mapPend f).s = g.s := rfl
@[simp] theorem Group.mapPend_j (g : Group) (f : Pend → Pend) : (g.mapPend f).j = g.j := rfl
@[simp] theorem Group.mapPend_d (g : Group) (f : Pend → Pend) : (g.mapPend f).d = g.d := rfl
@[simp] theorem Group.mapPend_pc (g : Group) (f : Pend → Pend) : (g.mapPend f).pc = g.pc := rfl
@[simp] theorem Group.mapPend_st (g : Group) (f : Pend → Pend) : (g.mapPend f).st = g.st := rfl
@[simp] theorem Group.mapPend_wait (g : Group) (f : Pend → Pend) : (g.mapPend f).wait = g.wait := rfl
@[simp] theorem Group.mapPend_arrive (g : Group) (f : Pend → Pend) : (g.mapPend f).arrive = g.arrive := rfl
@[simp] theorem Group.mapPend_hdr (g : Group) (f : Pend → Pend) : (g.mapPend f).hdr = g.hdr := rfl
@[simp] theorem Group.mapPend_trapHdr (g : Group) (f : Pend → Pend) : (g.mapPend f).trapHdr = g.trapHdr := rfl
@[simp] theorem Group.mapPend_uiHdr (g : Group) (f : Pend → Pend) : (g.mapPend f).uiHdr = g.uiHdr := rfl
@[simp] theorem Group.mapPend_prio (g : Group) (f : Pend → Pend) : (g.mapPend f).prio = g.prio := rfl
@[simp] theorem Group.mapPend_credit (g : Group) (f : Pend → Pend) : (g.mapPend f).credit = g.credit := rfl
@[simp] theorem Group.mapPend_flags (g : Group) (f : Pend → Pend) : (g.mapPend f).flags = g.flags := rfl
@[simp] theorem Group.mapPend_dmr (g : Group) (f : Pend → Pend) : (g.mapPend f).dmr = g.dmr := rfl
@[simp] theorem Group.mapPend_uien (g : Group) (f : Pend → Pend) : (g.mapPend f).uien = g.uien := rfl
@[simp] theorem Group.mapPend_uipend (g : Group) (f : Pend → Pend) : (g.mapPend f).uipend = g.uipend := rfl
@[simp] theorem Group.mapPend_gts (g : Group) (f : Pend → Pend) : (g.mapPend f).gts = g.gts := rfl
@[simp] theorem Group.mapPend_trappc (g : Group) (f : Pend → Pend) : (g.mapPend f).trappc = g.trappc := rfl
@[simp] theorem Group.mapPend_faultinfo (g : Group) (f : Pend → Pend) : (g.mapPend f).faultinfo = g.faultinfo := rfl
@[simp] theorem Group.mapPend_faultlanes (g : Group) (f : Pend → Pend) : (g.mapPend f).faultlanes = g.faultlanes := rfl
@[simp] theorem Group.mapPend_level (g : Group) (f : Pend → Pend) : (g.mapPend f).level = g.level := rfl
@[simp] theorem Group.mapPend_s2 (g : Group) (f : Pend → Pend) : (g.mapPend f).s2 = g.s2 := rfl
@[simp] theorem Group.mapPend_issued (g : Group) (f : Pend → Pend) : (g.mapPend f).issued = g.issued := rfl
@[simp] theorem Group.mapPend_aged (g : Group) (f : Pend → Pend) : (g.mapPend f).aged = g.aged := rfl
@[simp] theorem Group.mapPend_lower (g : Group) (f : Pend → Pend) : (g.mapPend f).lower = g.lower := rfl
@[simp] theorem Group.mapPend_passed (g : Group) (f : Pend → Pend) : (g.mapPend f).passed = g.passed := rfl
@[simp] theorem Group.mapPend_btab (g : Group) (f : Pend → Pend) : (g.mapPend f).btab = g.btab := rfl
@[simp] theorem Group.mapPend_fences (g : Group) (f : Pend → Pend) : (g.mapPend f).fences = g.fences := rfl
@[simp] theorem Group.mapPend_depth (g : Group) (f : Pend → Pend) : (g.mapPend f).depth = g.depth := rfl
@[simp] theorem Group.mapPend_rets (g : Group) (f : Pend → Pend) : (g.mapPend f).rets = g.rets := rfl
@[simp] theorem Group.mapPend_rays (g : Group) (f : Pend → Pend) : (g.mapPend f).rays = g.rays := rfl
@[simp] theorem Group.mapPend_calls (g : Group) (f : Pend → Pend) : (g.mapPend f).calls = g.calls := rfl
@[simp] theorem Group.mapPend_trapCalls (g : Group) (f : Pend → Pend) : (g.mapPend f).trapCalls = g.trapCalls := rfl
@[simp] theorem Group.mapPend_uiCalls (g : Group) (f : Pend → Pend) : (g.mapPend f).uiCalls = g.uiCalls := rfl
@[simp] theorem Group.mapPend_kept (g : Group) (f : Pend → Pend) : (g.mapPend f).kept = g.kept := rfl
@[simp] theorem Group.mapPend_helper (g : Group) (f : Pend → Pend) : (g.mapPend f).helper = g.helper := rfl
@[simp] theorem Group.mapPend_relDone (g : Group) (f : Pend → Pend) : (g.mapPend f).relDone = g.relDone := rfl
@[simp] theorem Group.mapPend_carry (g : Group) (f : Pend → Pend) : (g.mapPend f).carry = g.carry := rfl
@[simp] theorem Group.mapPend_xsrc (g : Group) (f : Pend → Pend) : (g.mapPend f).xsrc = g.xsrc := rfl
@[simp] theorem Group.mapPend_ordinal (g : Group) (f : Pend → Pend) : (g.mapPend f).ordinal = g.ordinal := rfl
@[simp] theorem Group.mapPend_late (g : Group) (f : Pend → Pend) : (g.mapPend f).late = g.late := rfl
@[simp] theorem Group.mapPend_owed (g : Group) (f : Pend → Pend) : (g.mapPend f).owed = g.owed := rfl

/-! ### `Group.putP` -/

@[simp] theorem Group.putP_role (g : Group) (k i : Nat) (x : Bool) : (g.putP k i x).role = g.role := by unfold Group.putP; split <;> rfl
@[simp] theorem Group.putP_width (g : Group) (k i : Nat) (x : Bool) : (g.putP k i x).width = g.width := by unfold Group.putP; split <;> rfl
@[simp] theorem Group.putP_n (g : Group) (k i : Nat) (x : Bool) : (g.putP k i x).n = g.n := by unfold Group.putP; split <;> rfl
@[simp] theorem Group.putP_sort (g : Group) (k i : Nat) (x : Bool) : (g.putP k i x).sort = g.sort := by unfold Group.putP; split <;> rfl
@[simp] theorem Group.putP_col (g : Group) (k i : Nat) (x : Bool) : (g.putP k i x).col = g.col := by unfold Group.putP; split <;> rfl
@[simp] theorem Group.putP_rows (g : Group) (k i : Nat) (x : Bool) : (g.putP k i x).rows = g.rows := by unfold Group.putP; split <;> rfl
@[simp] theorem Group.putP_v (g : Group) (k i : Nat) (x : Bool) : (g.putP k i x).v = g.v := by unfold Group.putP; split <;> rfl
@[simp] theorem Group.putP_s (g : Group) (k i : Nat) (x : Bool) : (g.putP k i x).s = g.s := by unfold Group.putP; split <;> rfl
@[simp] theorem Group.putP_j (g : Group) (k i : Nat) (x : Bool) : (g.putP k i x).j = g.j := by unfold Group.putP; split <;> rfl
@[simp] theorem Group.putP_d (g : Group) (k i : Nat) (x : Bool) : (g.putP k i x).d = g.d := by unfold Group.putP; split <;> rfl
@[simp] theorem Group.putP_pc (g : Group) (k i : Nat) (x : Bool) : (g.putP k i x).pc = g.pc := by unfold Group.putP; split <;> rfl
@[simp] theorem Group.putP_st (g : Group) (k i : Nat) (x : Bool) : (g.putP k i x).st = g.st := by unfold Group.putP; split <;> rfl
@[simp] theorem Group.putP_wait (g : Group) (k i : Nat) (x : Bool) : (g.putP k i x).wait = g.wait := by unfold Group.putP; split <;> rfl
@[simp] theorem Group.putP_arrive (g : Group) (k i : Nat) (x : Bool) : (g.putP k i x).arrive = g.arrive := by unfold Group.putP; split <;> rfl
@[simp] theorem Group.putP_hdr (g : Group) (k i : Nat) (x : Bool) : (g.putP k i x).hdr = g.hdr := by unfold Group.putP; split <;> rfl
@[simp] theorem Group.putP_trapHdr (g : Group) (k i : Nat) (x : Bool) : (g.putP k i x).trapHdr = g.trapHdr := by unfold Group.putP; split <;> rfl
@[simp] theorem Group.putP_uiHdr (g : Group) (k i : Nat) (x : Bool) : (g.putP k i x).uiHdr = g.uiHdr := by unfold Group.putP; split <;> rfl
@[simp] theorem Group.putP_prio (g : Group) (k i : Nat) (x : Bool) : (g.putP k i x).prio = g.prio := by unfold Group.putP; split <;> rfl
@[simp] theorem Group.putP_credit (g : Group) (k i : Nat) (x : Bool) : (g.putP k i x).credit = g.credit := by unfold Group.putP; split <;> rfl
@[simp] theorem Group.putP_flags (g : Group) (k i : Nat) (x : Bool) : (g.putP k i x).flags = g.flags := by unfold Group.putP; split <;> rfl
@[simp] theorem Group.putP_dmr (g : Group) (k i : Nat) (x : Bool) : (g.putP k i x).dmr = g.dmr := by unfold Group.putP; split <;> rfl
@[simp] theorem Group.putP_uien (g : Group) (k i : Nat) (x : Bool) : (g.putP k i x).uien = g.uien := by unfold Group.putP; split <;> rfl
@[simp] theorem Group.putP_uipend (g : Group) (k i : Nat) (x : Bool) : (g.putP k i x).uipend = g.uipend := by unfold Group.putP; split <;> rfl
@[simp] theorem Group.putP_gts (g : Group) (k i : Nat) (x : Bool) : (g.putP k i x).gts = g.gts := by unfold Group.putP; split <;> rfl
@[simp] theorem Group.putP_trappc (g : Group) (k i : Nat) (x : Bool) : (g.putP k i x).trappc = g.trappc := by unfold Group.putP; split <;> rfl
@[simp] theorem Group.putP_faultinfo (g : Group) (k i : Nat) (x : Bool) : (g.putP k i x).faultinfo = g.faultinfo := by unfold Group.putP; split <;> rfl
@[simp] theorem Group.putP_faultlanes (g : Group) (k i : Nat) (x : Bool) : (g.putP k i x).faultlanes = g.faultlanes := by unfold Group.putP; split <;> rfl
@[simp] theorem Group.putP_level (g : Group) (k i : Nat) (x : Bool) : (g.putP k i x).level = g.level := by unfold Group.putP; split <;> rfl
@[simp] theorem Group.putP_s2 (g : Group) (k i : Nat) (x : Bool) : (g.putP k i x).s2 = g.s2 := by unfold Group.putP; split <;> rfl
@[simp] theorem Group.putP_issued (g : Group) (k i : Nat) (x : Bool) : (g.putP k i x).issued = g.issued := by unfold Group.putP; split <;> rfl
@[simp] theorem Group.putP_aged (g : Group) (k i : Nat) (x : Bool) : (g.putP k i x).aged = g.aged := by unfold Group.putP; split <;> rfl
@[simp] theorem Group.putP_lower (g : Group) (k i : Nat) (x : Bool) : (g.putP k i x).lower = g.lower := by unfold Group.putP; split <;> rfl
@[simp] theorem Group.putP_passed (g : Group) (k i : Nat) (x : Bool) : (g.putP k i x).passed = g.passed := by unfold Group.putP; split <;> rfl
@[simp] theorem Group.putP_pend (g : Group) (k i : Nat) (x : Bool) : (g.putP k i x).pend = g.pend := by unfold Group.putP; split <;> rfl
@[simp] theorem Group.putP_btab (g : Group) (k i : Nat) (x : Bool) : (g.putP k i x).btab = g.btab := by unfold Group.putP; split <;> rfl
@[simp] theorem Group.putP_fences (g : Group) (k i : Nat) (x : Bool) : (g.putP k i x).fences = g.fences := by unfold Group.putP; split <;> rfl
@[simp] theorem Group.putP_depth (g : Group) (k i : Nat) (x : Bool) : (g.putP k i x).depth = g.depth := by unfold Group.putP; split <;> rfl
@[simp] theorem Group.putP_rets (g : Group) (k i : Nat) (x : Bool) : (g.putP k i x).rets = g.rets := by unfold Group.putP; split <;> rfl
@[simp] theorem Group.putP_rays (g : Group) (k i : Nat) (x : Bool) : (g.putP k i x).rays = g.rays := by unfold Group.putP; split <;> rfl
@[simp] theorem Group.putP_calls (g : Group) (k i : Nat) (x : Bool) : (g.putP k i x).calls = g.calls := by unfold Group.putP; split <;> rfl
@[simp] theorem Group.putP_trapCalls (g : Group) (k i : Nat) (x : Bool) : (g.putP k i x).trapCalls = g.trapCalls := by unfold Group.putP; split <;> rfl
@[simp] theorem Group.putP_uiCalls (g : Group) (k i : Nat) (x : Bool) : (g.putP k i x).uiCalls = g.uiCalls := by unfold Group.putP; split <;> rfl
@[simp] theorem Group.putP_kept (g : Group) (k i : Nat) (x : Bool) : (g.putP k i x).kept = g.kept := by unfold Group.putP; split <;> rfl
@[simp] theorem Group.putP_helper (g : Group) (k i : Nat) (x : Bool) : (g.putP k i x).helper = g.helper := by unfold Group.putP; split <;> rfl
@[simp] theorem Group.putP_relDone (g : Group) (k i : Nat) (x : Bool) : (g.putP k i x).relDone = g.relDone := by unfold Group.putP; split <;> rfl
@[simp] theorem Group.putP_carry (g : Group) (k i : Nat) (x : Bool) : (g.putP k i x).carry = g.carry := by unfold Group.putP; split <;> rfl
@[simp] theorem Group.putP_xsrc (g : Group) (k i : Nat) (x : Bool) : (g.putP k i x).xsrc = g.xsrc := by unfold Group.putP; split <;> rfl
@[simp] theorem Group.putP_ordinal (g : Group) (k i : Nat) (x : Bool) : (g.putP k i x).ordinal = g.ordinal := by unfold Group.putP; split <;> rfl
@[simp] theorem Group.putP_late (g : Group) (k i : Nat) (x : Bool) : (g.putP k i x).late = g.late := by unfold Group.putP; split <;> rfl
@[simp] theorem Group.putP_owed (g : Group) (k i : Nat) (x : Bool) : (g.putP k i x).owed = g.owed := by unfold Group.putP; split <;> rfl

/-! ### `Group.putS` -/

@[simp] theorem Group.putS_role (g : Group) (k : Nat) (x : Word) : (g.putS k x).role = g.role := by unfold Group.putS; split <;> rfl
@[simp] theorem Group.putS_width (g : Group) (k : Nat) (x : Word) : (g.putS k x).width = g.width := by unfold Group.putS; split <;> rfl
@[simp] theorem Group.putS_n (g : Group) (k : Nat) (x : Word) : (g.putS k x).n = g.n := by unfold Group.putS; split <;> rfl
@[simp] theorem Group.putS_sort (g : Group) (k : Nat) (x : Word) : (g.putS k x).sort = g.sort := by unfold Group.putS; split <;> rfl
@[simp] theorem Group.putS_col (g : Group) (k : Nat) (x : Word) : (g.putS k x).col = g.col := by unfold Group.putS; split <;> rfl
@[simp] theorem Group.putS_rows (g : Group) (k : Nat) (x : Word) : (g.putS k x).rows = g.rows := by unfold Group.putS; split <;> rfl
@[simp] theorem Group.putS_v (g : Group) (k : Nat) (x : Word) : (g.putS k x).v = g.v := by unfold Group.putS; split <;> rfl
@[simp] theorem Group.putS_p (g : Group) (k : Nat) (x : Word) : (g.putS k x).p = g.p := by unfold Group.putS; split <;> rfl
@[simp] theorem Group.putS_j (g : Group) (k : Nat) (x : Word) : (g.putS k x).j = g.j := by unfold Group.putS; split <;> rfl
@[simp] theorem Group.putS_d (g : Group) (k : Nat) (x : Word) : (g.putS k x).d = g.d := by unfold Group.putS; split <;> rfl
@[simp] theorem Group.putS_pc (g : Group) (k : Nat) (x : Word) : (g.putS k x).pc = g.pc := by unfold Group.putS; split <;> rfl
@[simp] theorem Group.putS_st (g : Group) (k : Nat) (x : Word) : (g.putS k x).st = g.st := by unfold Group.putS; split <;> rfl
@[simp] theorem Group.putS_wait (g : Group) (k : Nat) (x : Word) : (g.putS k x).wait = g.wait := by unfold Group.putS; split <;> rfl
@[simp] theorem Group.putS_arrive (g : Group) (k : Nat) (x : Word) : (g.putS k x).arrive = g.arrive := by unfold Group.putS; split <;> rfl
@[simp] theorem Group.putS_hdr (g : Group) (k : Nat) (x : Word) : (g.putS k x).hdr = g.hdr := by unfold Group.putS; split <;> rfl
@[simp] theorem Group.putS_trapHdr (g : Group) (k : Nat) (x : Word) : (g.putS k x).trapHdr = g.trapHdr := by unfold Group.putS; split <;> rfl
@[simp] theorem Group.putS_uiHdr (g : Group) (k : Nat) (x : Word) : (g.putS k x).uiHdr = g.uiHdr := by unfold Group.putS; split <;> rfl
@[simp] theorem Group.putS_prio (g : Group) (k : Nat) (x : Word) : (g.putS k x).prio = g.prio := by unfold Group.putS; split <;> rfl
@[simp] theorem Group.putS_credit (g : Group) (k : Nat) (x : Word) : (g.putS k x).credit = g.credit := by unfold Group.putS; split <;> rfl
@[simp] theorem Group.putS_flags (g : Group) (k : Nat) (x : Word) : (g.putS k x).flags = g.flags := by unfold Group.putS; split <;> rfl
@[simp] theorem Group.putS_dmr (g : Group) (k : Nat) (x : Word) : (g.putS k x).dmr = g.dmr := by unfold Group.putS; split <;> rfl
@[simp] theorem Group.putS_uien (g : Group) (k : Nat) (x : Word) : (g.putS k x).uien = g.uien := by unfold Group.putS; split <;> rfl
@[simp] theorem Group.putS_uipend (g : Group) (k : Nat) (x : Word) : (g.putS k x).uipend = g.uipend := by unfold Group.putS; split <;> rfl
@[simp] theorem Group.putS_gts (g : Group) (k : Nat) (x : Word) : (g.putS k x).gts = g.gts := by unfold Group.putS; split <;> rfl
@[simp] theorem Group.putS_trappc (g : Group) (k : Nat) (x : Word) : (g.putS k x).trappc = g.trappc := by unfold Group.putS; split <;> rfl
@[simp] theorem Group.putS_faultinfo (g : Group) (k : Nat) (x : Word) : (g.putS k x).faultinfo = g.faultinfo := by unfold Group.putS; split <;> rfl
@[simp] theorem Group.putS_faultlanes (g : Group) (k : Nat) (x : Word) : (g.putS k x).faultlanes = g.faultlanes := by unfold Group.putS; split <;> rfl
@[simp] theorem Group.putS_level (g : Group) (k : Nat) (x : Word) : (g.putS k x).level = g.level := by unfold Group.putS; split <;> rfl
@[simp] theorem Group.putS_s2 (g : Group) (k : Nat) (x : Word) : (g.putS k x).s2 = g.s2 := by unfold Group.putS; split <;> rfl
@[simp] theorem Group.putS_issued (g : Group) (k : Nat) (x : Word) : (g.putS k x).issued = g.issued := by unfold Group.putS; split <;> rfl
@[simp] theorem Group.putS_aged (g : Group) (k : Nat) (x : Word) : (g.putS k x).aged = g.aged := by unfold Group.putS; split <;> rfl
@[simp] theorem Group.putS_lower (g : Group) (k : Nat) (x : Word) : (g.putS k x).lower = g.lower := by unfold Group.putS; split <;> rfl
@[simp] theorem Group.putS_passed (g : Group) (k : Nat) (x : Word) : (g.putS k x).passed = g.passed := by unfold Group.putS; split <;> rfl
@[simp] theorem Group.putS_pend (g : Group) (k : Nat) (x : Word) : (g.putS k x).pend = g.pend := by unfold Group.putS; split <;> rfl
@[simp] theorem Group.putS_btab (g : Group) (k : Nat) (x : Word) : (g.putS k x).btab = g.btab := by unfold Group.putS; split <;> rfl
@[simp] theorem Group.putS_fences (g : Group) (k : Nat) (x : Word) : (g.putS k x).fences = g.fences := by unfold Group.putS; split <;> rfl
@[simp] theorem Group.putS_depth (g : Group) (k : Nat) (x : Word) : (g.putS k x).depth = g.depth := by unfold Group.putS; split <;> rfl
@[simp] theorem Group.putS_rets (g : Group) (k : Nat) (x : Word) : (g.putS k x).rets = g.rets := by unfold Group.putS; split <;> rfl
@[simp] theorem Group.putS_rays (g : Group) (k : Nat) (x : Word) : (g.putS k x).rays = g.rays := by unfold Group.putS; split <;> rfl
@[simp] theorem Group.putS_calls (g : Group) (k : Nat) (x : Word) : (g.putS k x).calls = g.calls := by unfold Group.putS; split <;> rfl
@[simp] theorem Group.putS_trapCalls (g : Group) (k : Nat) (x : Word) : (g.putS k x).trapCalls = g.trapCalls := by unfold Group.putS; split <;> rfl
@[simp] theorem Group.putS_uiCalls (g : Group) (k : Nat) (x : Word) : (g.putS k x).uiCalls = g.uiCalls := by unfold Group.putS; split <;> rfl
@[simp] theorem Group.putS_kept (g : Group) (k : Nat) (x : Word) : (g.putS k x).kept = g.kept := by unfold Group.putS; split <;> rfl
@[simp] theorem Group.putS_helper (g : Group) (k : Nat) (x : Word) : (g.putS k x).helper = g.helper := by unfold Group.putS; split <;> rfl
@[simp] theorem Group.putS_relDone (g : Group) (k : Nat) (x : Word) : (g.putS k x).relDone = g.relDone := by unfold Group.putS; split <;> rfl
@[simp] theorem Group.putS_carry (g : Group) (k : Nat) (x : Word) : (g.putS k x).carry = g.carry := by unfold Group.putS; split <;> rfl
@[simp] theorem Group.putS_xsrc (g : Group) (k : Nat) (x : Word) : (g.putS k x).xsrc = g.xsrc := by unfold Group.putS; split <;> rfl
@[simp] theorem Group.putS_ordinal (g : Group) (k : Nat) (x : Word) : (g.putS k x).ordinal = g.ordinal := by unfold Group.putS; split <;> rfl
@[simp] theorem Group.putS_late (g : Group) (k : Nat) (x : Word) : (g.putS k x).late = g.late := by unfold Group.putS; split <;> rfl
@[simp] theorem Group.putS_owed (g : Group) (k : Nat) (x : Word) : (g.putS k x).owed = g.owed := by unfold Group.putS; split <;> rfl

end Sys2Proof.Machine
end

