-- ==== Sys2Proof/Laws/Access.lean ====
section
/-!
SUPPORT. What the accessors read after a change: lanes of masks, registers after each write (R46, R48), lanes after a
transfer, and teams, groups and cores after theirs; and that memory keeps its canonical form.
-/
namespace Sys2Proof.Machine

/-! ### Masks -/

theorem mem_lanesOf {m : Lanes} {i : Nat} : i ∈ lanesOf m ↔ i < 64 ∧ m.getLsbD i = true := by
  simp [lanesOf]

theorem nodup_lanesOf (m : Lanes) : (lanesOf m).Nodup := List.Nodup.filter _ List.nodup_range

@[simp] theorem lanesOf_zero : lanesOf 0 = [] := by decide

theorem getLsbD_laneBit (i j : Nat) (hj : j < 64) : (laneBit i).getLsbD j = decide (i = j) := by
  rw [laneBit, BitVec.getLsbD_ofNat, Nat.testBit_two_pow]; simp [hj]

theorem getLsbD_foldl_laneBit (p : Nat → Bool) (j : Nat) (hj : j < 64) (l : List Nat) (m : Lanes) :
    (l.foldl (fun m i => if p i then m ||| laneBit i else m) m).getLsbD j =
      (m.getLsbD j || (l.contains j && p j)) := by
  induction l generalizing m with
  | nil => simp
  | cons i l ih =>
    simp only [List.foldl_cons, ih]
    by_cases h : p i = true
    · rw [if_pos h, BitVec.getLsbD_or, getLsbD_laneBit i j hj]
      by_cases hij : i = j
      · subst hij; simp [h]
      · simp [hij, Ne.symm hij]
    · rw [if_neg h]
      by_cases hij : i = j
      · subst hij; simp [h]
      · simp [Ne.symm hij]

/-- A mask built from a test has exactly the lanes that satisfy it. -/
theorem getLsbD_maskOf (p : Nat → Bool) (i : Nat) : (maskOf p).getLsbD i = (decide (i < 64) && p i) := by
  by_cases h : i < 64
  · rw [maskOf, getLsbD_foldl_laneBit p i h]; simp [h]
  · rw [BitVec.getLsbD_of_ge _ _ (by omega)]; simp [h]

/-! ### Registers after a write -/

theorem Group.vreg_putV (g : Group) (r i : Nat) (x : Word) (q j : Nat) (hi : i < 64) (hj : j < 64) :
    (g.putV r i x).vreg q j = if q = r ∧ j = i then x else g.vreg q j := by
  have e : q * 64 + j = r * 64 + i ↔ q = r ∧ j = i := by omega
  simp only [Group.vreg, Group.putV, get_set, e]

theorem getLsbD_predBit (r q : Nat) (hr : r < 16) : (BitVec.ofNat 16 (2 ^ r)).getLsbD q = decide (q = r) := by
  rw [BitVec.getLsbD_ofNat, Nat.testBit_two_pow]
  by_cases h : q = r
  · subst h; simp [hr]
  · simp [h, Ne.symm h]

theorem Group.preg_putP (g : Group) (r i : Nat) (x : Bool) (q j : Nat) (hr : r < 16) (hq16 : q < 16) :
    (g.putP r i x).preg q j = if q = r ∧ q ≠ 15 ∧ j = i then x else g.preg q j := by
  unfold Group.putP Group.preg
  by_cases h : r = 15
  · subst h
    rw [if_pos rfl]
    split
    · omega
    · rfl
  · rw [if_neg h]
    simp only [get_set]
    by_cases hj : j = i
    · subst hj
      by_cases hqr : q = r
      · subst hqr
        simp only [if_true, ne_eq, h, not_false_eq_true, and_self, beq_eq_false_iff_ne.mpr h, Bool.false_or]
        cases x
        · simp only [Bool.false_eq_true, if_false, BitVec.getLsbD_and, BitVec.getLsbD_not, getLsbD_predBit q q hr]; simp
        · simp only [if_true, BitVec.getLsbD_or, getLsbD_predBit q q hr]; simp
      · simp only [if_true, hqr, false_and, if_false]
        congr 1
        cases x
        · simp only [Bool.false_eq_true, if_false, BitVec.getLsbD_and, BitVec.getLsbD_not, getLsbD_predBit r q hr]
          simp [hqr, hq16]
        · simp only [if_true, BitVec.getLsbD_or, getLsbD_predBit r q hr]; simp [hqr]
    · rw [if_neg hj, if_neg (fun c => hj c.2.2)]

theorem Group.sreg_putS (g : Group) (r : Nat) (x : Word) (q : Nat) :
    (g.putS r x).sreg q = if q = r ∧ q ≠ 0 ∧ q ≠ 2 then x else g.sreg q := by
  unfold Group.putS Group.sreg
  by_cases h : r = 0 ∨ r = 2
  · rw [if_pos h]
    split
    · split
      · omega
      · rfl
    · split
      · split
        · omega
        · rfl
      · split
        · omega
        · rfl
  · simp only [h, if_false, get_set]
    by_cases h0 : q = 0
    · simp [h0]
    · by_cases h2 : q = 2
      · simp [h2]
      · simp [h0, h2]

@[simp] theorem Group.vreg_mapPend (g : Group) (f : Pend → Pend) : (g.mapPend f).vreg = g.vreg := rfl
@[simp] theorem Group.preg_mapPend (g : Group) (f : Pend → Pend) : (g.mapPend f).preg = g.preg := rfl
@[simp] theorem Group.sreg_mapPend (g : Group) (f : Pend → Pend) : (g.mapPend f).sreg = g.sreg := rfl

/-- `P15` reads true (R48). -/
@[simp] theorem Group.preg_15 (g : Group) (i : Nat) : g.preg 15 i = true := rfl
/-- `S0` reads zero (R48). -/
@[simp] theorem Group.sreg_0 (g : Group) : g.sreg 0 = 0 := rfl
/-- `S2` reads the address of the replay area (R48). -/
@[simp] theorem Group.sreg_2 (g : Group) : g.sreg 2 = g.s2 := rfl

theorem find_mapPend (g : Group) (f : Pend → Pend) (k : Nat) : find k (g.mapPend f).pend = (find k g.pend).map f := by
  simp only [Group.mapPend]
  induction g.pend with
  | nil => rfl
  | cons e m ih =>
    obtain ⟨i, a⟩ := e
    simp only [List.map_cons, find, ih]
    split <;> rfl

/-! ### Memory -/

/-- Writing a byte table keeps its canonical form. -/
theorem wf_writeN (m : SMap Byte) (a n v : Nat) (h : Memory.wf m = true) : Memory.wf (writeN m a n v) = true := by
  induction n generalizing m a v with
  | zero => exact h
  | succ n ih => exact ih _ _ _ (canonical_set 0 a _ h)

/-- A byte of a written table: one of the bytes written, or what was there. -/
theorem get_writeN (m : SMap Byte) (a n v b : Nat) :
    get 0 b (writeN m a n v) =
      if a ≤ b ∧ b < a + n then BitVec.ofNat 8 (v / 256 ^ (b - a)) else get 0 b m := by
  induction n generalizing m a v with
  | zero => rw [if_neg (by omega)]; rfl
  | succ n ih =>
    simp only [writeN, ih, get_set]
    by_cases h1 : a + 1 ≤ b ∧ b < a + 1 + n
    · rw [if_pos h1, if_pos (by omega)]
      congr 1
      obtain ⟨k, rfl⟩ := Nat.exists_eq_add_of_le h1.1
      rw [show a + 1 + k - (a + 1) = k by omega, show a + 1 + k - a = k + 1 by omega, Nat.div_div_eq_div_mul]
      congr 1
      rw [Nat.pow_succ, Nat.mul_comm]
    · rw [if_neg h1]
      by_cases h2 : b = a
      · subst h2
        rw [if_pos rfl, if_pos (by omega)]
        simp
      · rw [if_neg h2, if_neg (by omega)]

/-! ### Teams, groups and cores after a change -/

theorem State.team_onTeam (s : State) (t k : Nat) (f : Team → Team) :
    (s.onTeam t f).team k = if k = t ∧ (find k s.teams).isSome = true then f (s.team k) else s.team k :=
  get_adjust _ _ _ _ _

theorem State.core_onCore (s : State) (c k : Nat) (f : Core → Core) :
    (s.onCore c f).core k = if k = c then f (s.core c) else s.core k :=
  get_put _ _ _ _ _

theorem State.ctx_onCtx (s : State) (c k : Nat) (f : Ctx → Ctx) :
    (s.onCtx c f).ctx k = if k = c then f (s.ctx c) else s.ctx k :=
  get_put _ _ _ _ _

theorem Team.group_onGroup (t : Team) (g k : Nat) (f : Group → Group) :
    (t.onGroup g f).group k = if k = g ∧ (find k t.groups).isSome = true then f (t.group k) else t.group k :=
  get_adjust _ _ _ _ _

theorem State.group_onGroup (s : State) (t g a b : Nat) (f : Group → Group) :
    (s.onGroup t g f).group a b = if a = t ∧ b = g ∧ s.has a b = true then f (s.group a b) else s.group a b := by
  unfold State.group State.onGroup
  rw [State.team_onTeam]
  by_cases h : a = t
  · subst h
    by_cases h1 : (find a s.teams).isSome = true
    · simp only [h1, and_self, if_true, Team.group_onGroup, State.has, Bool.true_and, true_and]
    · simp [h1, State.has]
  · simp [h]

theorem adjust_same {α : Type} (k : Nat) (l : SMap α) : adjust k (fun a => a) l = l := by
  induction l with
  | nil => rfl
  | cons e l ih =>
    obtain ⟨i, a⟩ := e
    simp only [adjust, ih, ite_self]

/-- A change of nothing. -/
theorem onGroup_id (s : State) (t k : Nat) : s.onGroup t k (fun g => g) = s := by
  have : (fun x : Team => x.onGroup k (fun g => g)) = fun x => x := by
    funext x
    unfold Team.onGroup
    rw [adjust_same]
  unfold State.onGroup State.onTeam
  rw [this, adjust_same]

end Sys2Proof.Machine
end

