-- ==== Sys2Proof/Laws/Exec.lean ====
section
/-!
SUPPORT. One lemma for each arm of exec: the meaning that it calls, so that no proof unfolds the whole match.
-/
namespace Sys2Proof.Machine

@[simp] theorem exec_issueSelection {core} (s : State) :
    exec (.issueSelection core) s = execIssueSelection core s := rfl
@[simp] theorem exec_agingCredit {team grp} (s : State) :
    exec (.agingCredit team grp) s = execAgingCredit team grp s := rfl
@[simp] theorem exec_longLatencyCompletion {team grp id lanes} (s : State) :
    exec (.longLatencyCompletion team grp id lanes) s = execLongLatencyCompletion team grp id lanes s := rfl
@[simp] theorem exec_fenceComplete {team grp id} (s : State) :
    exec (.fenceComplete team grp id) s = execFenceComplete team grp id s := rfl
@[simp] theorem exec_presenceResume {team grp} (s : State) :
    exec (.presenceResume team grp) s = execPresenceResume team grp s := rfl
@[simp] theorem exec_sleepExpiry {team grp lanes} (s : State) :
    exec (.sleepExpiry team grp lanes) s = execSleepExpiry team grp lanes s := rfl
@[simp] theorem exec_waitaRetest {team grp lanes} (s : State) :
    exec (.waitaRetest team grp lanes) s = execWaitaRetest team grp lanes s := rfl
@[simp] theorem exec_shelfFire {team shelf} (s : State) :
    exec (.shelfFire team shelf) s = execShelfFire team shelf s := rfl
@[simp] theorem exec_shelfCommitEffect {team shelf} (s : State) :
    exec (.shelfCommitEffect team shelf) s = execShelfCommitEffect team shelf s := rfl
@[simp] theorem exec_ownershipGrant {op} (s : State) : exec (.ownershipGrant op) s = execOwnershipGrant op s := rfl
@[simp] theorem exec_parkedFaultDelivery {team grp} (s : State) :
    exec (.parkedFaultDelivery team grp) s = execParkedFaultDelivery team grp s := rfl
@[simp] theorem exec_userInterruptTake {team grp} (s : State) :
    exec (.userInterruptTake team grp) s = execUserInterruptTake team grp s := rfl
@[simp] theorem exec_gangPlacement {part} (s : State) : exec (.gangPlacement part) s = execGangPlacement part s := rfl
@[simp] theorem exec_extraGroupStart {sweep id rank} (s : State) :
    exec (.extraGroupStart sweep id rank) s = execExtraGroupStart sweep id rank s := rfl
@[simp] theorem exec_groupEnd {team grp} (s : State) : exec (.groupEnd team grp) s = execGroupEnd team grp s := rfl
@[simp] theorem exec_gridCompletion {grid} (s : State) :
    exec (.gridCompletion grid) s = execGridCompletion grid s := rfl
@[simp] theorem exec_copyBegin {op} (s : State) : exec (.copyBegin op) s = execCopyBegin op s := rfl
@[simp] theorem exec_copyRow {op} (s : State) : exec (.copyRow op) s = execCopyRow op s := rfl
@[simp] theorem exec_pageCacheFillDone {sector} (s : State) :
    exec (.pageCacheFillDone sector) s = execPageCacheFillDone sector s := rfl
@[simp] theorem exec_coalescerBatchClose {die} (s : State) :
    exec (.coalescerBatchClose die) s = execCoalescerBatchClose die s := rfl
@[simp] theorem exec_traverseStep {op} (s : State) : exec (.traverseStep op) s = execTraverseStep op s := rfl
@[simp] theorem exec_pairStep {op} (s : State) : exec (.pairStep op) s = execPairStep op s := rfl
@[simp] theorem exec_textureQuad {op} (s : State) : exec (.textureQuad op) s = execTextureQuad op s := rfl
@[simp] theorem exec_rasterTriangle {op} (s : State) : exec (.rasterTriangle op) s = execRasterTriangle op s := rfl
@[simp] theorem exec_sweepClaim {sweep rank} (s : State) :
    exec (.sweepClaim sweep rank) s = execSweepClaim sweep rank s := rfl
@[simp] theorem exec_sweepWriteback {sweep rank} (s : State) :
    exec (.sweepWriteback sweep rank) s = execSweepWriteback sweep rank s := rfl
@[simp] theorem exec_passBarrier {sweep} (s : State) : exec (.passBarrier sweep) s = execPassBarrier sweep s := rfl
@[simp] theorem exec_hostSnoop {line data} (s : State) :
    exec (.hostSnoop line data) s = execHostSnoop line data s := rfl
@[simp] theorem exec_backInvalidation {line} (s : State) :
    exec (.backInvalidation line) s = execBackInvalidation line s := rfl
@[simp] theorem exec_hostWindowRead {port off size} (s : State) :
    exec (.hostWindowRead port off size) s = execHostWindowRead port off size s := rfl
@[simp] theorem exec_hostWindowWrite {port off size data} (s : State) :
    exec (.hostWindowWrite port off size data) s = execHostWindowWrite port off size data s := rfl
@[simp] theorem exec_signalWakeAll {port entry data} (s : State) :
    exec (.signalWakeAll port entry data) s = execSignalWakeAll port entry data s := rfl
@[simp] theorem exec_signalWakeOne {port entry data} (s : State) :
    exec (.signalWakeOne port entry data) s = execSignalWakeOne port entry data s := rfl
@[simp] theorem exec_signalRegisterHostWait {port entry data} (s : State) :
    exec (.signalRegisterHostWait port entry data) s = execSignalRegisterHostWait port entry data s := rfl
@[simp] theorem exec_signalPostInterrupt {port entry data} (s : State) :
    exec (.signalPostInterrupt port entry data) s = execSignalPostInterrupt port entry data s := rfl
@[simp] theorem exec_signalApertureIgnored {port off} (s : State) :
    exec (.signalApertureIgnored port off) s = execSignalApertureIgnored port off s := rfl
@[simp] theorem exec_heartbeat (s : State) : exec (.heartbeat) s = execHeartbeat s := rfl
@[simp] theorem exec_portLoss {port} (s : State) : exec (.portLoss port) s = execPortLoss port s := rfl
@[simp] theorem exec_schedulerDecision {part} (s : State) :
    exec (.schedulerDecision part) s = execSchedulerDecision part s := rfl
@[simp] theorem exec_quantumExpiry {part} (s : State) : exec (.quantumExpiry part) s = execQuantumExpiry part s := rfl
@[simp] theorem exec_preemptHalt {part} (s : State) : exec (.preemptHalt part) s = execPreemptHalt part s := rfl
@[simp] theorem exec_preemptSwap {part} (s : State) : exec (.preemptSwap part) s = execPreemptSwap part s := rfl
@[simp] theorem exec_contextStaging {part} (s : State) :
    exec (.contextStaging part) s = execContextStaging part s := rfl
@[simp] theorem exec_coldStart {x} (s : State) : exec (.coldStart x) s = execColdStart x s := rfl
@[simp] theorem exec_warmStart {x} (s : State) : exec (.warmStart x) s = execWarmStart x s := rfl
@[simp] theorem exec_startComplete {x} (s : State) : exec (.startComplete x) s = execStartComplete x s := rfl
@[simp] theorem exec_startTimeout (s : State) : exec (.startTimeout) s = execStartTimeout s := rfl
@[simp] theorem exec_fullServiceTransition (s : State) :
    exec (.fullServiceTransition) s = execFullServiceTransition s := rfl
@[simp] theorem exec_attestationReport {nonce} (s : State) :
    exec (.attestationReport nonce) s = execAttestationReport nonce s := rfl
@[simp] theorem exec_securityAlarm1 {sensor} (s : State) :
    exec (.securityAlarm1 sensor) s = execSecurityAlarm1 sensor s := rfl
@[simp] theorem exec_securityAlarm2 {sensor} (s : State) :
    exec (.securityAlarm2 sensor) s = execSecurityAlarm2 sensor s := rfl
@[simp] theorem exec_securityAlarm3 {sensor} (s : State) :
    exec (.securityAlarm3 sensor) s = execSecurityAlarm3 sensor s := rfl
@[simp] theorem exec_traceControlRead {die} (s : State) :
    exec (.traceControlRead die) s = execTraceControlRead die s := rfl
@[simp] theorem exec_counterSnapshot {die} (s : State) :
    exec (.counterSnapshot die) s = execCounterSnapshot die s := rfl
@[simp] theorem exec_preciseStop (s : State) : exec (.preciseStop) s = execPreciseStop s := rfl
@[simp] theorem exec_jtagIdcode (s : State) : exec (.jtagIdcode) s = execJtagIdcode s := rfl
@[simp] theorem exec_jtagStopreq {tick} (s : State) : exec (.jtagStopreq tick) s = execJtagStopreq tick s := rfl
@[simp] theorem exec_jtagChsel {chain} (s : State) : exec (.jtagChsel chain) s = execJtagChsel chain s := rfl
@[simp] theorem exec_jtagChread {nbits} (s : State) : exec (.jtagChread nbits) s = execJtagChread nbits s := rfl
@[simp] theorem exec_jtagResume (s : State) : exec (.jtagResume) s = execJtagResume s := rfl
@[simp] theorem exec_jtagBypass {code} (s : State) : exec (.jtagBypass code) s = execJtagBypass code s := rfl
@[simp] theorem exec_powerLimitSet {watts} (s : State) :
    exec (.powerLimitSet watts) s = execPowerLimitSet watts s := rfl
@[simp] theorem exec_powerThrottle {kHz} (s : State) : exec (.powerThrottle kHz) s = execPowerThrottle kHz s := rfl
@[simp] theorem exec_thermalThrottle {x} (s : State) : exec (.thermalThrottle x) s = execThermalThrottle x s := rfl
@[simp] theorem exec_thermalShutdown {x} (s : State) : exec (.thermalShutdown x) s = execThermalShutdown x s := rfl
@[simp] theorem exec_coolantFlowLow (s : State) : exec (.coolantFlowLow) s = execCoolantFlowLow s := rfl
@[simp] theorem exec_deepPowerEntry (s : State) : exec (.deepPowerEntry) s = execDeepPowerEntry s := rfl
@[simp] theorem exec_deepPowerExit {cycles} (s : State) :
    exec (.deepPowerExit cycles) s = execDeepPowerExit cycles s := rfl
@[simp] theorem exec_telemetryRefresh {x} (s : State) : exec (.telemetryRefresh x) s = execTelemetryRefresh x s := rfl
@[simp] theorem exec_nop {g} (s : State) : exec (.nop g) s = execNop g s := rfl
@[simp] theorem exec_bra {g off} (s : State) : exec (.bra g off) s = execBra g off s := rfl
@[simp] theorem exec_brx {g t} (s : State) : exec (.brx g t) s = execBrx g t s := rfl
@[simp] theorem exec_btab {g k idx tab cnt} (s : State) :
    exec (.btab g k idx tab cnt) s = execBtab g k idx tab cnt s := rfl
@[simp] theorem exec_call {g d off} (s : State) : exec (.call g d off) s = execCall g d off s := rfl
@[simp] theorem exec_callx {g d t} (s : State) : exec (.callx g d t) s = execCallx g d t s := rfl
@[simp] theorem exec_ret {g t} (s : State) : exec (.ret g t) s = execRet g t s := rfl
@[simp] theorem exec_exit {g} (s : State) : exec (.exit g) s = execExit g s := rfl
@[simp] theorem exec_jmask {g k a} (s : State) : exec (.jmask g k a) s = execJmask g k a s := rfl
@[simp] theorem exec_jmaskAct {g k} (s : State) : exec (.jmaskAct g k) s = execJmaskAct g k s := rfl
@[simp] theorem exec_jmaskOr {g k} (s : State) : exec (.jmaskOr g k) s = execJmaskOr g k s := rfl
@[simp] theorem exec_join {k} (s : State) : exec (.join k) s = execJoin k s := rfl
@[simp] theorem exec_jany {g pd k} (s : State) : exec (.jany g pd k) s = execJany g pd k s := rfl
@[simp] theorem exec_yield {g} (s : State) : exec (.yield g) s = execYield g s := rfl
@[simp] theorem exec_waitd {g mk} (s : State) : exec (.waitd g mk) s = execWaitd g mk s := rfl
@[simp] theorem exec_setprio {g n} (s : State) : exec (.setprio g n) s = execSetprio g n s := rfl
@[simp] theorem exec_setprioS {g a} (s : State) : exec (.setprioS g a) s = execSetprioS g a s := rfl
@[simp] theorem exec_sleep {g a lit} (s : State) : exec (.sleep g a lit) s = execSleep g a lit s := rfl
@[simp] theorem exec_bararv {g d b n} (s : State) : exec (.bararv g d b n) s = execBararv g d b n s := rfl
@[simp] theorem exec_barwait {g b a} (s : State) : exec (.barwait g b a) s = execBarwait g b a s := rfl
@[simp] theorem exec_ordwait {g} (s : State) : exec (.ordwait g) s = execOrdwait g s := rfl
@[simp] theorem exec_ordrel {g} (s : State) : exec (.ordrel g) s = execOrdrel g s := rfl
@[simp] theorem exec_srd {g d r} (s : State) : exec (.srd g d r) s = execSrd g d r s := rfl
@[simp] theorem exec_swr {g r a} (s : State) : exec (.swr g r a) s = execSwr g r a s := rfl
@[simp] theorem exec_swrFlags {g a} (s : State) : exec (.swrFlags g a) s = execSwrFlags g a s := rfl
@[simp] theorem exec_swrMode {g a} (s : State) : exec (.swrMode g a) s = execSwrMode g a s := rfl
@[simp] theorem exec_swrLease {g a} (s : State) : exec (.swrLease g a) s = execSwrLease g a s := rfl
@[simp] theorem exec_swrStopat {g a} (s : State) : exec (.swrStopat g a) s = execSwrStopat g a s := rfl
@[simp] theorem exec_smov {g d a} (s : State) : exec (.smov g d a) s = execSmov g d a s := rfl
@[simp] theorem exec_sli {g ty d x} (s : State) : exec (.sli g ty d x) s = execSli g ty d x s := rfl
@[simp] theorem exec_sliHi {g d x} (s : State) : exec (.sliHi g d x) s = execSliHi g d x s := rfl
@[simp] theorem exec_sadd {g ty d a b} (s : State) : exec (.sadd g ty d a b) s = execSadd g ty d a b s := rfl
@[simp] theorem exec_ssub {g ty d a b} (s : State) : exec (.ssub g ty d a b) s = execSsub g ty d a b s := rfl
@[simp] theorem exec_smul {g ty d a b} (s : State) : exec (.smul g ty d a b) s = execSmul g ty d a b s := rfl
@[simp] theorem exec_smad {g ty d a b c} (s : State) : exec (.smad g ty d a b c) s = execSmad g ty d a b c s := rfl
@[simp] theorem exec_slog {g op d a b} (s : State) : exec (.slog g op d a b) s = execSlog g op d a b s := rfl
@[simp] theorem exec_sshf {g op ty d a b} (s : State) : exec (.sshf g op ty d a b) s = execSshf g op ty d a b s := rfl
@[simp] theorem exec_scmp {g cc ty d a b} (s : State) : exec (.scmp g cc ty d a b) s = execScmp g cc ty d a b s := rfl
@[simp] theorem exec_ssel {g d a b c} (s : State) : exec (.ssel g d a b c) s = execSsel g d a b c s := rfl
@[simp] theorem exec_mov {g d a} (s : State) : exec (.mov g d a) s = execMov g d a s := rfl
@[simp] theorem exec_li {g ty d x} (s : State) : exec (.li g ty d x) s = execLi g ty d x s := rfl
@[simp] theorem exec_liHi {g ty d x} (s : State) : exec (.liHi g ty d x) s = execLiHi g ty d x s := rfl
@[simp] theorem exec_iadd {g ty sat d a b} (s : State) :
    exec (.iadd g ty sat d a b) s = execIadd g ty sat d a b s := rfl
@[simp] theorem exec_isub {g ty sat d a b} (s : State) :
    exec (.isub g ty sat d a b) s = execIsub g ty sat d a b s := rfl
@[simp] theorem exec_imul {g ty sat d a b} (s : State) :
    exec (.imul g ty sat d a b) s = execImul g ty sat d a b s := rfl
@[simp] theorem exec_imulh {g ty d a b} (s : State) : exec (.imulh g ty d a b) s = execImulh g ty d a b s := rfl
@[simp] theorem exec_imad {g ty sat d a b c} (s : State) :
    exec (.imad g ty sat d a b c) s = execImad g ty sat d a b c s := rfl
@[simp] theorem exec_imin {g ty d a b} (s : State) : exec (.imin g ty d a b) s = execImin g ty d a b s := rfl
@[simp] theorem exec_imax {g ty d a b} (s : State) : exec (.imax g ty d a b) s = execImax g ty d a b s := rfl
@[simp] theorem exec_iabs {g ty sat d a} (s : State) : exec (.iabs g ty sat d a) s = execIabs g ty sat d a s := rfl
@[simp] theorem exec_ineg {g ty sat d a} (s : State) : exec (.ineg g ty sat d a) s = execIneg g ty sat d a s := rfl
@[simp] theorem exec_log {g op d a b} (s : State) : exec (.log g op d a b) s = execLog g op d a b s := rfl
@[simp] theorem exec_shl {g ty d a b} (s : State) : exec (.shl g ty d a b) s = execShl g ty d a b s := rfl
@[simp] theorem exec_shr {g ty d a b} (s : State) : exec (.shr g ty d a b) s = execShr g ty d a b s := rfl
@[simp] theorem exec_sar {g ty d a b} (s : State) : exec (.sar g ty d a b) s = execSar g ty d a b s := rfl
@[simp] theorem exec_rot {g right d a b} (s : State) : exec (.rot g right d a b) s = execRot g right d a b s := rfl
@[simp] theorem exec_popc {g ty d a} (s : State) : exec (.popc g ty d a) s = execPopc g ty d a s := rfl
@[simp] theorem exec_clz {g ty d a} (s : State) : exec (.clz g ty d a) s = execClz g ty d a s := rfl
@[simp] theorem exec_brev {g d a} (s : State) : exec (.brev g d a) s = execBrev g d a s := rfl
@[simp] theorem exec_bfe {g ty d a b} (s : State) : exec (.bfe g ty d a b) s = execBfe g ty d a b s := rfl
@[simp] theorem exec_bfi {g d a b c} (s : State) : exec (.bfi g d a b c) s = execBfi g d a b c s := rfl
@[simp] theorem exec_bperm {g d a b c} (s : State) : exec (.bperm g d a b c) s = execBperm g d a b c s := rfl
@[simp] theorem exec_icmp {g cc any ty pd a b} (s : State) :
    exec (.icmp g cc any ty pd a b) s = execIcmp g cc any ty pd a b s := rfl
@[simp] theorem exec_sel {g d a b pc} (s : State) : exec (.sel g d a b pc) s = execSel g d a b pc s := rfl
@[simp] theorem exec_lea {g scl d a b off} (s : State) :
    exec (.lea g scl d a b off) s = execLea g scl d a b off s := rfl
@[simp] theorem exec_iaddx {g nc d pco a b pci} (s : State) :
    exec (.iaddx g nc d pco a b pci) s = execIaddx g nc d pco a b pci s := rfl
@[simp] theorem exec_plog {g op pd pa pb} (s : State) : exec (.plog g op pd pa pb) s = execPlog g op pd pa pb s := rfl
@[simp] theorem exec_pmov {g pd pa} (s : State) : exec (.pmov g pd pa) s = execPmov g pd pa s := rfl
@[simp] theorem exec_pmovS {g pd a} (s : State) : exec (.pmovS g pd a) s = execPmovS g pd a s := rfl
@[simp] theorem exec_pcnt {g d pa} (s : State) : exec (.pcnt g d pa) s = execPcnt g d pa s := rfl
@[simp] theorem exec_rget {g ll d idx} (s : State) : exec (.rget g ll d idx) s = execRget g ll d idx s := rfl
@[simp] theorem exec_rput {g idx src} (s : State) : exec (.rput g idx src) s = execRput g idx src s := rfl
@[simp] theorem exec_fadd {g ty d a b} (s : State) : exec (.fadd g ty d a b) s = execFadd g ty d a b s := rfl
@[simp] theorem exec_fsub {g ty d a b} (s : State) : exec (.fsub g ty d a b) s = execFsub g ty d a b s := rfl
@[simp] theorem exec_fmul {g ty d a b} (s : State) : exec (.fmul g ty d a b) s = execFmul g ty d a b s := rfl
@[simp] theorem exec_ffma {g ty d a b c} (s : State) : exec (.ffma g ty d a b c) s = execFfma g ty d a b c s := rfl
@[simp] theorem exec_fmin {g ty d a b} (s : State) : exec (.fmin g ty d a b) s = execFmin g ty d a b s := rfl
@[simp] theorem exec_fmax {g ty d a b} (s : State) : exec (.fmax g ty d a b) s = execFmax g ty d a b s := rfl
@[simp] theorem exec_fcmp {g cc any ty pd a b} (s : State) :
    exec (.fcmp g cc any ty pd a b) s = execFcmp g cc any ty pd a b s := rfl
@[simp] theorem exec_fclass {g ty d a} (s : State) : exec (.fclass g ty d a) s = execFclass g ty d a s := rfl
@[simp] theorem exec_frnd {g m x ty d a} (s : State) : exec (.frnd g m x ty d a) s = execFrnd g m x ty d a s := rfl
@[simp] theorem exec_fscale {g ty d a b} (s : State) : exec (.fscale g ty d a b) s = execFscale g ty d a b s := rfl
@[simp] theorem exec_fdot {g ty d a b c} (s : State) : exec (.fdot g ty d a b c) s = execFdot g ty d a b c s := rfl
@[simp] theorem exec_rcp {g ll ty d a} (s : State) : exec (.rcp g ll ty d a) s = execRcp g ll ty d a s := rfl
@[simp] theorem exec_rsq {g ll ty d a} (s : State) : exec (.rsq g ll ty d a) s = execRsq g ll ty d a s := rfl
@[simp] theorem exec_sqrt {g ll ty d a} (s : State) : exec (.sqrt g ll ty d a) s = execSqrt g ll ty d a s := rfl
@[simp] theorem exec_exp2 {g ll ty d a} (s : State) : exec (.exp2 g ll ty d a) s = execExp2 g ll ty d a s := rfl
@[simp] theorem exec_log2 {g ll ty d a} (s : State) : exec (.log2 g ll ty d a) s = execLog2 g ll ty d a s := rfl
@[simp] theorem exec_sin {g ll ty d a} (s : State) : exec (.sin g ll ty d a) s = execSin g ll ty d a s := rfl
@[simp] theorem exec_cos {g ll ty d a} (s : State) : exec (.cos g ll ty d a) s = execCos g ll ty d a s := rfl
@[simp] theorem exec_tanh {g ll ty d a} (s : State) : exec (.tanh g ll ty d a) s = execTanh g ll ty d a s := rfl
@[simp] theorem exec_fcvt {g dt st d a sf df} (s : State) :
    exec (.fcvt g dt st d a sf df) s = execFcvt g dt st d a sf df s := rfl
@[simp] theorem exec_ftoi {g dt st d a sf df} (s : State) :
    exec (.ftoi g dt st d a sf df) s = execFtoi g dt st d a sf df s := rfl
@[simp] theorem exec_icvt {g sat dt st d a sf df} (s : State) :
    exec (.icvt g sat dt st d a sf df) s = execIcvt g sat dt st d a sf df s := rfl
@[simp] theorem exec_fmtset {g k x} (s : State) : exec (.fmtset g k x) s = execFmtset g k x s := rfl
@[simp] theorem exec_ncvtDec {g w ty d a b k as p} (s : State) :
    exec (.ncvtDec g w ty d a b k as p) s = execNcvtDec g w ty d a b k as p s := rfl
@[simp] theorem exec_ncvtEnc {g w ty d a b k as p} (s : State) :
    exec (.ncvtEnc g w ty d a b k as p) s = execNcvtEnc g w ty d a b k as p s := rfl
@[simp] theorem exec_ndot {g ll w d a b sen as fs} (s : State) :
    exec (.ndot g ll w d a b sen as fs) s = execNdot g ll w d a b sen as fs s := rfl
@[simp] theorem exec_perm {g md d a b x} (s : State) : exec (.perm g md d a b x) s = execPerm g md d a b x s := rfl
@[simp] theorem exec_bcast {g md d a b x} (s : State) : exec (.bcast g md d a b x) s = execBcast g md d a b x s := rfl
@[simp] theorem exec_vote {g d pa x} (s : State) : exec (.vote g d pa x) s = execVote g d pa x s := rfl
@[simp] theorem exec_redu {g op ty d a x} (s : State) : exec (.redu g op ty d a x) s = execRedu g op ty d a x s := rfl
@[simp] theorem exec_scan {g op excl ty d a x} (s : State) :
    exec (.scan g op excl ty d a x) s = execScan g op excl ty d a x s := rfl
@[simp] theorem exec_matchLanes {g d a x} (s : State) : exec (.matchLanes g d a x) s = execMatchLanes g d a x s := rfl
@[simp] theorem exec_derivx {g coarse ty d a x} (s : State) :
    exec (.derivx g coarse ty d a x) s = execDerivx g coarse ty d a x s := rfl
@[simp] theorem exec_derivy {g coarse ty d a x} (s : State) :
    exec (.derivy g coarse ty d a x) s = execDerivy g coarse ty d a x s := rfl
@[simp] theorem exec_qswap {g md d a x} (s : State) : exec (.qswap g md d a x) s = execQswap g md d a x s := rfl
@[simp] theorem exec_xalu {g ll ty op sat d a b n} (s : State) :
    exec (.xalu g ll ty op sat d a b n) s = execXalu g ll ty op sat d a b n s := rfl
@[simp] theorem exec_xfma {g ll ty d a b n} (s : State) :
    exec (.xfma g ll ty d a b n) s = execXfma g ll ty d a b n s := rfl
@[simp] theorem exec_xcvt {g ll dt st sat d a n} (s : State) :
    exec (.xcvt g ll dt st sat d a n) s = execXcvt g ll dt st sat d a n s := rfl
@[simp] theorem exec_xred {g ll ty op d a n} (s : State) :
    exec (.xred g ll ty op d a n) s = execXred g ll ty op d a n s := rfl
@[simp] theorem exec_xscan {g ll ty op excl d a n} (s : State) :
    exec (.xscan g ll ty op excl d a n) s = execXscan g ll ty op excl d a n s := rfl
@[simp] theorem exec_xsel {g ll ty d a b n} (s : State) :
    exec (.xsel g ll ty d a b n) s = execXsel g ll ty d a b n s := rfl
@[simp] theorem exec_ld {g ll sz sx d m} (s : State) : exec (.ld g ll sz sx d m) s = execLd g ll sz sx d m s := rfl
@[simp] theorem exec_st {g ll sz d m} (s : State) : exec (.st g ll sz d m) s = execSt g ll sz d m s := rfl
@[simp] theorem exec_lds {g ll sz sx d m} (s : State) : exec (.lds g ll sz sx d m) s = execLds g ll sz sx d m s := rfl
@[simp] theorem exec_sts {g ll sz d m} (s : State) : exec (.sts g ll sz d m) s = execSts g ll sz d m s := rfl
@[simp] theorem exec_ldt {g ll sx d h c} (s : State) : exec (.ldt g ll sx d h c) s = execLdt g ll sx d h c s := rfl
@[simp] theorem exec_stt {g ll d h c} (s : State) : exec (.stt g ll d h c) s = execStt g ll d h c s := rfl
@[simp] theorem exec_pref {g lvl m} (s : State) : exec (.pref g lvl m) s = execPref g lvl m s := rfl
@[simp] theorem exec_cp {g ll out sh d h c} (s : State) :
    exec (.cp g ll out sh d h c) s = execCp g ll out sh d h c s := rfl
@[simp] theorem exec_cpw {g ll out sh d a n} (s : State) :
    exec (.cpw g ll out sh d a n) s = execCpw g ll out sh d a n s := rfl
@[simp] theorem exec_atom {g ll op ty sc d a off b} (s : State) :
    exec (.atom g ll op ty sc d a off b) s = execAtom g ll op ty sc d a off b s := rfl
@[simp] theorem exec_atomc {g ll ty sc d a off b} (s : State) :
    exec (.atomc g ll ty sc d a off b) s = execAtomc g ll ty sc d a off b s := rfl
@[simp] theorem exec_atoms {g ll op ty d a off b} (s : State) :
    exec (.atoms g ll op ty d a off b) s = execAtoms g ll op ty d a off b s := rfl
@[simp] theorem exec_fence {g sc} (s : State) : exec (.fence g sc) s = execFence g sc s := rfl
@[simp] theorem exec_waita {g cc ty d a off b} (s : State) :
    exec (.waita g cc ty d a off b) s = execWaita g cc ty d a off b s := rfl
@[simp] theorem exec_wake {g d a off b} (s : State) : exec (.wake g d a off b) s = execWake g d a off b s := rfl
@[simp] theorem exec_mfill {g ll d b} (s : State) : exec (.mfill g ll d b) s = execMfill g ll d b s := rfl
@[simp] theorem exec_mcopy {g ll d a b} (s : State) : exec (.mcopy g ll d a b) s = execMcopy g ll d a b s := rfl
@[simp] theorem exec_mcmp {g ll d a b} (s : State) : exec (.mcmp g ll d a b) s = execMcmp g ll d a b s := rfl
@[simp] theorem exec_mred {g ll op ty d a b} (s : State) :
    exec (.mred g ll op ty d a b) s = execMred g ll op ty d a b s := rfl
@[simp] theorem exec_lrbind {g ll d a} (s : State) : exec (.lrbind g ll d a) s = execLrbind g ll d a s := rfl
@[simp] theorem exec_lrfree {g ll a} (s : State) : exec (.lrfree g ll a) s = execLrfree g ll a s := rfl
@[simp] theorem exec_lrqry {g ll d a w} (s : State) : exec (.lrqry g ll d a w) s = execLrqry g ll d a w s := rfl
@[simp] theorem exec_shcfg {g k a} (s : State) : exec (.shcfg g k a) s = execShcfg g k a s := rfl
@[simp] theorem exec_shcfgOff {g k} (s : State) : exec (.shcfgOff g k) s = execShcfgOff g k s := rfl
@[simp] theorem exec_shacq {g d k c} (s : State) : exec (.shacq g d k c) s = execShacq g d k c s := rfl
@[simp] theorem exec_shcom {g k c} (s : State) : exec (.shcom g k c) s = execShcom g k c s := rfl
@[simp] theorem exec_shwait {g d k c} (s : State) : exec (.shwait g d k c) s = execShwait g d k c s := rfl
@[simp] theorem exec_shrel {g k c} (s : State) : exec (.shrel g k c) s = execShrel g k c s := rfl
@[simp] theorem exec_prwait {g a b off} (s : State) : exec (.prwait g a b off) s = execPrwait g a b off s := rfl
@[simp] theorem exec_mstart {g ll x} (s : State) : exec (.mstart g ll x) s = execMstart g ll x s := rfl
@[simp] theorem exec_mstop {g} (s : State) : exec (.mstop g) s = execMstop g s := rfl
@[simp] theorem exec_mma {kind d a b} (s : State) : exec (.mma kind d a b) s = execMma kind d a b s := rfl
@[simp] theorem exec_mzero {d} (s : State) : exec (.mzero d) s = execMzero d s := rfl
@[simp] theorem exec_mload {d m} (s : State) : exec (.mload d m) s = execMload d m s := rfl
@[simp] theorem exec_mdrain {sat amax t m} (s : State) :
    exec (.mdrain sat amax t m) s = execMdrain sat amax t m s := rfl
@[simp] theorem exec_mdrainMem {sat amax desc t} (s : State) :
    exec (.mdrainMem sat amax desc t) s = execMdrainMem sat amax desc t s := rfl
@[simp] theorem exec_mshrTake {k c} (s : State) : exec (.mshrTake k c) s = execMshrTake k c s := rfl
@[simp] theorem exec_mshrRel {k c} (s : State) : exec (.mshrRel k c) s = execMshrRel k c s := rfl
@[simp] theorem exec_mshwAcq {k c} (s : State) : exec (.mshwAcq k c) s = execMshwAcq k c s := rfl
@[simp] theorem exec_mshwCom {k c} (s : State) : exec (.mshwCom k c) s = execMshwCom k c s := rfl
@[simp] theorem exec_mbarArv {b n} (s : State) : exec (.mbarArv b n) s = execMbarArv b n s := rfl
@[simp] theorem exec_mbarSync {b n} (s : State) : exec (.mbarSync b n) s = execMbarSync b n s := rfl
@[simp] theorem exec_mloop {n} (s : State) : exec (.mloop n) s = execMloop n s := rfl
@[simp] theorem exec_mend (s : State) : exec (.mend) s = execMend s := rfl
@[simp] theorem exec_tbind {g k a} (s : State) : exec (.tbind g k a) s = execTbind g k a s := rfl
@[simp] theorem exec_tqry {g d k w} (s : State) : exec (.tqry g d k w) s = execTqry g d k w s := rfl
@[simp] theorem exec_wlcfg {g a b} (s : State) : exec (.wlcfg g a b) s = execWlcfg g a b s := rfl
@[simp] theorem exec_wlapp {g ll z po d a b} (s : State) :
    exec (.wlapp g ll z po d a b) s = execWlapp g ll z po d a b s := rfl
@[simp] theorem exec_wltake {g ll z po d a} (s : State) :
    exec (.wltake g ll z po d a) s = execWltake g ll z po d a s := rfl
@[simp] theorem exec_wldone {g a b} (s : State) : exec (.wldone g a b) s = execWldone g a b s := rfl
@[simp] theorem exec_tdwait {g d x} (s : State) : exec (.tdwait g d x) s = execTdwait g d x s := rfl
@[simp] theorem exec_psweep {g ll md build rl d h b} (s : State) :
    exec (.psweep g ll md build rl d h b) s = execPsweep g ll md build rl d h b s := rfl
@[simp] theorem exec_pwait {g kind a b} (s : State) : exec (.pwait g kind a b) s = execPwait g kind a b s := rfl
@[simp] theorem exec_pwake {g d h b} (s : State) : exec (.pwake g d h b) s = execPwake g d h b s := rfl
@[simp] theorem exec_pctx {g ll d h b} (s : State) : exec (.pctx g ll d h b) s = execPctx g ll d h b s := rfl
@[simp] theorem exec_pqryCtx {g ll d h b} (s : State) : exec (.pqryCtx g ll d h b) s = execPqryCtx g ll d h b s := rfl
@[simp] theorem exec_pqrySweep {g ll d h} (s : State) : exec (.pqrySweep g ll d h) s = execPqrySweep g ll d h s := rfl
@[simp] theorem exec_pstop {g h} (s : State) : exec (.pstop g h) s = execPstop g h s := rfl
@[simp] theorem exec_rast {g ll frag cullb rl d a} (s : State) :
    exec (.rast g ll frag cullb rl d a) s = execRast g ll frag cullb rl d a s := rfl
@[simp] theorem exec_rsetup {g ll cullb d a} (s : State) :
    exec (.rsetup g ll cullb d a) s = execRsetup g ll cullb d a s := rfl
@[simp] theorem exec_rcover {g ll po d a b} (s : State) :
    exec (.rcover g ll po d a b) s = execRcover g ll po d a b s := rfl
@[simp] theorem exec_tex {g ll d a b} (s : State) : exec (.tex g ll d a b) s = execTex g ll d a b s := rfl
@[simp] theorem exec_texg {g ll c d a b} (s : State) : exec (.texg g ll c d a b) s = execTexg g ll c d a b s := rfl
@[simp] theorem exec_texl {g ll d a b} (s : State) : exec (.texl g ll d a b) s = execTexl g ll d a b s := rfl
@[simp] theorem exec_texd {g ll d a b} (s : State) : exec (.texd g ll d a b) s = execTexd g ll d a b s := rfl
@[simp] theorem exec_tlod {g ll d a b} (s : State) : exec (.tlod g ll d a b) s = execTlod g ll d a b s := rfl
@[simp] theorem exec_imgst {g ll d a b} (s : State) : exec (.imgst g ll d a b) s = execImgst g ll d a b s := rfl
@[simp] theorem exec_trace {g ll any p d a b} (s : State) :
    exec (.trace g ll any p d a b) s = execTrace g ll any p d a b s := rfl
@[simp] theorem exec_trcont {g ll d} (s : State) : exec (.trcont g ll d) s = execTrcont g ll d s := rfl
@[simp] theorem exec_trpair {g ll self resume d a b} (s : State) :
    exec (.trpair g ll self resume d a b) s = execTrpair g ll self resume d a b s := rfl
@[simp] theorem exec_trqry {g ll w d} (s : State) : exec (.trqry g ll w d) s = execTrqry g ll w d s := rfl
@[simp] theorem exec_trcommit {g ll} (s : State) : exec (.trcommit g ll) s = execTrcommit g ll s := rfl
@[simp] theorem exec_boxt {g ll po d a b} (s : State) : exec (.boxt g ll po d a b) s = execBoxt g ll po d a b s := rfl
@[simp] theorem exec_trit {g ll po d a b} (s : State) : exec (.trit g ll po d a b) s = execTrit g ll po d a b s := rfl
@[simp] theorem exec_trap {g n} (s : State) : exec (.trap g n) s = execTrap g n s := rfl
@[simp] theorem exec_brk {g n} (s : State) : exec (.brk g n) s = execBrk g n s := rfl
@[simp] theorem exec_eret (s : State) : exec (.eret) s = execEret s := rfl
@[simp] theorem exec_uiret (s : State) : exec (.uiret) s = execUiret s := rfl
@[simp] theorem exec_launch {g ll d a} (s : State) : exec (.launch g ll d a) s = execLaunch g ll d a s := rfl
@[simp] theorem exec_csave {g ll d a b} (s : State) : exec (.csave g ll d a b) s = execCsave g ll d a b s := rfl
@[simp] theorem exec_crest {g ll d a b} (s : State) : exec (.crest g ll d a b) s = execCrest g ll d a b s := rfl
@[simp] theorem exec_tick {g d} (s : State) : exec (.tick g d) s = execTick g d s := rfl
@[simp] theorem exec_mark {g n a} (s : State) : exec (.mark g n a) s = execMark g n a s := rfl
@[simp] theorem exec_patom {g ll op d a b} (s : State) :
    exec (.patom g ll op d a b) s = execPatom g ll op d a b s := rfl
@[simp] theorem exec_fuserd {g d n} (s : State) : exec (.fuserd g d n) s = execFuserd g d n s := rfl
@[simp] theorem exec_lmsver {g ll token d a b} (s : State) :
    exec (.lmsver g ll token d a b) s = execLmsver g ll token d a b s := rfl
@[simp] theorem exec_kwipe {g d a} (s : State) : exec (.kwipe g d a) s = execKwipe g d a s := rfl
@[simp] theorem exec_measureExt {g ll d m b} (s : State) :
    exec (.measureExt g ll d m b) s = execMeasureExt g ll d m b s := rfl
@[simp] theorem exec_measureRd {g ll d m b} (s : State) :
    exec (.measureRd g ll d m b) s = execMeasureRd g ll d m b s := rfl
@[simp] theorem exec_dbgopen {g d} (s : State) : exec (.dbgopen g d) s = execDbgopen g d s := rfl
@[simp] theorem exec_iaddShort {g t d a b} (s : State) :
    exec (.iaddShort g t d a b) s = execIaddShort g t d a b s := rfl
@[simp] theorem exec_isubShort {g t d a b} (s : State) :
    exec (.isubShort g t d a b) s = execIsubShort g t d a b s := rfl
@[simp] theorem exec_imulShort {g t d a b} (s : State) :
    exec (.imulShort g t d a b) s = execImulShort g t d a b s := rfl
@[simp] theorem exec_iminShort {g t d a b} (s : State) :
    exec (.iminShort g t d a b) s = execIminShort g t d a b s := rfl
@[simp] theorem exec_imaxShort {g t d a b} (s : State) :
    exec (.imaxShort g t d a b) s = execImaxShort g t d a b s := rfl
@[simp] theorem exec_shlShort {g t d a b} (s : State) : exec (.shlShort g t d a b) s = execShlShort g t d a b s := rfl
@[simp] theorem exec_shrShort {g t d a b} (s : State) : exec (.shrShort g t d a b) s = execShrShort g t d a b s := rfl
@[simp] theorem exec_sarShort {g t d a b} (s : State) : exec (.sarShort g t d a b) s = execSarShort g t d a b s := rfl
@[simp] theorem exec_faddF16x4Short {g d a b} (s : State) :
    exec (.faddF16x4Short g d a b) s = execFaddF16x4Short g d a b s := rfl
@[simp] theorem exec_faddBf16x4Short {g d a b} (s : State) :
    exec (.faddBf16x4Short g d a b) s = execFaddBf16x4Short g d a b s := rfl
@[simp] theorem exec_faddF32x2Short {g d a b} (s : State) :
    exec (.faddF32x2Short g d a b) s = execFaddF32x2Short g d a b s := rfl
@[simp] theorem exec_faddF32Short {g d a b} (s : State) :
    exec (.faddF32Short g d a b) s = execFaddF32Short g d a b s := rfl
@[simp] theorem exec_faddF64Short {g d a b} (s : State) :
    exec (.faddF64Short g d a b) s = execFaddF64Short g d a b s := rfl
@[simp] theorem exec_fsubF16x4Short {g d a b} (s : State) :
    exec (.fsubF16x4Short g d a b) s = execFsubF16x4Short g d a b s := rfl
@[simp] theorem exec_fsubBf16x4Short {g d a b} (s : State) :
    exec (.fsubBf16x4Short g d a b) s = execFsubBf16x4Short g d a b s := rfl
@[simp] theorem exec_fsubF32x2Short {g d a b} (s : State) :
    exec (.fsubF32x2Short g d a b) s = execFsubF32x2Short g d a b s := rfl
@[simp] theorem exec_fsubF32Short {g d a b} (s : State) :
    exec (.fsubF32Short g d a b) s = execFsubF32Short g d a b s := rfl
@[simp] theorem exec_fsubF64Short {g d a b} (s : State) :
    exec (.fsubF64Short g d a b) s = execFsubF64Short g d a b s := rfl
@[simp] theorem exec_fmulF16x4Short {g d a b} (s : State) :
    exec (.fmulF16x4Short g d a b) s = execFmulF16x4Short g d a b s := rfl
@[simp] theorem exec_fmulBf16x4Short {g d a b} (s : State) :
    exec (.fmulBf16x4Short g d a b) s = execFmulBf16x4Short g d a b s := rfl
@[simp] theorem exec_fmulF32x2Short {g d a b} (s : State) :
    exec (.fmulF32x2Short g d a b) s = execFmulF32x2Short g d a b s := rfl
@[simp] theorem exec_fmulF32Short {g d a b} (s : State) :
    exec (.fmulF32Short g d a b) s = execFmulF32Short g d a b s := rfl
@[simp] theorem exec_fmulF64Short {g d a b} (s : State) :
    exec (.fmulF64Short g d a b) s = execFmulF64Short g d a b s := rfl
@[simp] theorem exec_fminF16x4Short {g d a b} (s : State) :
    exec (.fminF16x4Short g d a b) s = execFminF16x4Short g d a b s := rfl
@[simp] theorem exec_fminBf16x4Short {g d a b} (s : State) :
    exec (.fminBf16x4Short g d a b) s = execFminBf16x4Short g d a b s := rfl
@[simp] theorem exec_fminF32x2Short {g d a b} (s : State) :
    exec (.fminF32x2Short g d a b) s = execFminF32x2Short g d a b s := rfl
@[simp] theorem exec_fminF32Short {g d a b} (s : State) :
    exec (.fminF32Short g d a b) s = execFminF32Short g d a b s := rfl
@[simp] theorem exec_fminF64Short {g d a b} (s : State) :
    exec (.fminF64Short g d a b) s = execFminF64Short g d a b s := rfl
@[simp] theorem exec_fmaxF16x4Short {g d a b} (s : State) :
    exec (.fmaxF16x4Short g d a b) s = execFmaxF16x4Short g d a b s := rfl
@[simp] theorem exec_fmaxBf16x4Short {g d a b} (s : State) :
    exec (.fmaxBf16x4Short g d a b) s = execFmaxBf16x4Short g d a b s := rfl
@[simp] theorem exec_fmaxF32x2Short {g d a b} (s : State) :
    exec (.fmaxF32x2Short g d a b) s = execFmaxF32x2Short g d a b s := rfl
@[simp] theorem exec_fmaxF32Short {g d a b} (s : State) :
    exec (.fmaxF32Short g d a b) s = execFmaxF32Short g d a b s := rfl
@[simp] theorem exec_fmaxF64Short {g d a b} (s : State) :
    exec (.fmaxF64Short g d a b) s = execFmaxF64Short g d a b s := rfl
@[simp] theorem exec_movShort {g d a} (s : State) : exec (.movShort g d a) s = execMovShort g d a s := rfl
@[simp] theorem exec_nopShort {g} (s : State) : exec (.nopShort g) s = execNopShort g s := rfl
@[simp] theorem exec_exitShort {g} (s : State) : exec (.exitShort g) s = execExitShort g s := rfl
@[simp] theorem exec_yieldShort {g} (s : State) : exec (.yieldShort g) s = execYieldShort g s := rfl
@[simp] theorem exec_popcShort {g d a} (s : State) : exec (.popcShort g d a) s = execPopcShort g d a s := rfl
@[simp] theorem exec_clzShort {g d a} (s : State) : exec (.clzShort g d a) s = execClzShort g d a s := rfl
@[simp] theorem exec_brevShort {g d a} (s : State) : exec (.brevShort g d a) s = execBrevShort g d a s := rfl
@[simp] theorem exec_logAndShort {g d a b} (s : State) :
    exec (.logAndShort g d a b) s = execLogAndShort g d a b s := rfl
@[simp] theorem exec_logOrShort {g d a b} (s : State) : exec (.logOrShort g d a b) s = execLogOrShort g d a b s := rfl
@[simp] theorem exec_logXorShort {g d a b} (s : State) :
    exec (.logXorShort g d a b) s = execLogXorShort g d a b s := rfl
@[simp] theorem exec_rotShort {g d a b} (s : State) : exec (.rotShort g d a b) s = execRotShort g d a b s := rfl
@[simp] theorem exec_iabsI32x2Short {g d a} (s : State) :
    exec (.iabsI32x2Short g d a) s = execIabsI32x2Short g d a s := rfl
@[simp] theorem exec_inegI32x2Short {g d a} (s : State) :
    exec (.inegI32x2Short g d a) s = execInegI32x2Short g d a s := rfl
@[simp] theorem exec_iabsI64Short {g d a} (s : State) : exec (.iabsI64Short g d a) s = execIabsI64Short g d a s := rfl
@[simp] theorem exec_inegI64Short {g d a} (s : State) : exec (.inegI64Short g d a) s = execInegI64Short g d a s := rfl
@[simp] theorem exec_instructionCacheFill {core ctx line} (s : State) :
    exec (.instructionCacheFill core ctx line) s = execInstructionCacheFill core ctx line s := rfl
@[simp] theorem exec_fuseProgramming {bit} (s : State) :
    exec (.fuseProgramming bit) s = execFuseProgramming bit s := rfl
@[simp] theorem exec_gddr7TrainingComplete (s : State) :
    exec (.gddr7TrainingComplete) s = execGddr7TrainingComplete s := rfl
@[simp] theorem exec_powerFailure (s : State) : exec (.powerFailure) s = execPowerFailure s := rfl
@[simp] theorem exec_patomHeartbeatDeadline {team grp port} (s : State) :
    exec (.patomHeartbeatDeadline team grp port) s = execPatomHeartbeatDeadline team grp port s := rfl

end Sys2Proof.Machine
end

