-- ==== Sys2Proof/Laws/Run.lean ====
section
/-!
SUPPORT. What one path's execution of an instruction does, said once: the checks passed, the effect, and the clause after
it.
-/
namespace Sys2Proof.Machine

/-- The state as the effect of an instruction finds it: coverage counted, distances and the ordinal advanced. -/
def State.begun (s : State) (sh : Shape) (c : Nat) (x : Issue) (m : Member) : State :=
  let u := s.coverage c sh.once x.members
  (u.env c x m sh.g).onGroup u (fun g =>
    { (g.advance m.lanes) with ordinal := if sh.acc && (m.active s sh.g) != 0 then g.ordinal + 1 else g.ordinal })

theorem coverage_cases (s : State) (c : Nat) (b : Bool) (ms : List Member) :
    s.coverage c b ms = s ∨ s.coverage c b ms = s.onCore c (fun k => { k with dmrunc := k.dmrunc + 1 }) ∨
      s.coverage c b ms = s.onCore c (fun k => { k with dmrcmp := k.dmrcmp + 1 }) := by
  unfold State.coverage
  split
  · exact .inr (.inr rfl)
  · split
    · exact .inr (.inl rfl)
    · exact .inl rfl

theorem coverage_eq (s : State) (c : Nat) (b : Bool) (ms : List Member) :
    s.coverage c b ms = { s with cores := (s.coverage c b ms).cores } := by
  rcases coverage_cases s c b ms with h | h | h <;> rw [h] <;> rfl

@[simp] theorem coverage_teams (s : State) (c : Nat) (b : Bool) (ms : List Member) :
    (s.coverage c b ms).teams = s.teams := by rw [coverage_eq]
@[simp] theorem coverage_team (s : State) (c : Nat) (b : Bool) (ms : List Member) (t : Nat) :
    (s.coverage c b ms).team t = s.team t := by simp [State.team]
@[simp] theorem coverage_group (s : State) (c : Nat) (b : Bool) (ms : List Member) (t k : Nat) :
    (s.coverage c b ms).group t k = s.group t k := by simp [State.group]
@[simp] theorem coverage_env (s : State) (c c' : Nat) (b : Bool) (ms : List Member) (x : Issue) (m : Member) (g : Guard) :
    (s.coverage c' b ms).env c x m g = s.env c x m g := by
  simp [State.env, State.ctxOf]

theorem coverage_core (s : State) (c k : Nat) (b : Bool) (ms : List Member) :
    (s.coverage c b ms).core k = if k = c then
      { s.core c with dmrunc := ((s.coverage c b ms).core c).dmrunc, dmrcmp := ((s.coverage c b ms).core c).dmrcmp }
    else s.core k := by
  rcases coverage_cases s c b ms with h | h | h <;> rw [h] <;> by_cases hk : k = c <;>
    simp [State.core_onCore, hk]

theorem Sole.has {s : State} {c : Nat} {x : Issue} {m : Member} (h : Sole s c x m) : s.has m.team m.grp = true := by
  simp [State.has, h.team, h.grp]

theorem bundle_of_sole {s : State} {c : Nat} {x : Issue} {m : Member} (h : Sole s c x m) : s.bundle = some (c, x) := by
  unfold State.bundle
  rw [h.turn]
  have := h.issue
  unfold State.inIssue at this
  simp [this]

/-- An access to memory finds room among the core's requests (R11). -/
def State.roomFor (s : State) (sh : Shape) (c : Nat) (m : Member) : Prop :=
  sh.reqs = true → s.requests c + countLanes (m.active s sh.g) ≤ Config.requests

/-- Nothing holds the instruction but its own counter, the core's requests and its own condition. -/
theorem held_of_sole {s : State} {c : Nat} {x : Issue} {m : Member} (h : Sole s c x m) (sh : Shape)
    (hll : ∀ l, sh.ll = some l → m.canCount s sh.g l) (hq : s.roomFor sh c m)
    (hw : sh.wait (s.env c x m sh.g) s = false) : s.heldBy sh (s.env c x m sh.g) = none := by
  have hb := h.ahead
  have hf := h.fences
  have hx := h.fixed
  have hr : s.replayWaits (s.env c x m sh.g) = false := by
    have hl := h.live
    unfold State.replayWaits
    have : (s.env c x m sh.g).ctx = s.ctxOf m.team := rfl
    rw [this, hl]; rfl
  unfold State.heldBy
  simp only [Env.group]
  have e1 : (s.env c x m sh.g).team = m.team := rfl
  have e2 : (s.env c x m sh.g).grp = m.grp := rfl
  have e3 : (s.env c x m sh.g).path = m.lanes := rfl
  have e4 : (s.env c x m sh.g).act = m.active s sh.g := rfl
  have e5 : (s.env c x m sh.g).core = c := rfl
  have hq' : (sh.reqs && decide (Config.requests < s.requests c + countLanes (m.active s sh.g))) = false := by
    by_cases hm : sh.reqs = true
    · have := hq hm
      simp [this]
    · simp [hm]
  simp only [e1, e2, e3, e4, e5, hb, hf, hx, hr, hw, hq', Bool.false_eq_true, if_false, Bool.or_false, Bool.and_false]
  rcases hsh : sh.ll with _ | l
  · simp
  · rcases l with ⟨la, dc⟩
    rcases dc with _ | k
    · simp
    · have := hll _ hsh k rfl
      simp only [Member.group] at this
      by_cases ha : m.active s sh.g = 0
      · simp [ha]
      · simp [this ha]

/-! ### The clause after it -/

theorem find_map_snd {α β : Type} (k : Nat) (f : Nat → α → β) (m : SMap α) :
    find k (m.map (fun e => (e.1, f e.1 e.2))) = (find k m).map (f k) := by
  induction m with
  | nil => rfl
  | cons e m ih =>
    obtain ⟨i, a⟩ := e
    simp only [List.map_cons, find, ih]
    split
    · rename_i h; subst h; rfl
    · rfl

/-- The team after a slot in which the members issue. -/
def State.slotTeam (s : State) (c : Nat) (ms : List Member) (n : Nat) (t : Team) : Team :=
  if t.core = some c then
    { t with groups := t.groups.map (fun g => if ms.any (fun m => m.team == n && m.grp == g.1) then g else s.tick n g) }
  else t

theorem slot_eq (s : State) (c leaf : Nat) (ms : List Member) :
    s.slot c leaf ms =
      { s with
        cores := (s.onCore c (fun k => { k with clocks := k.clocks + 1, leaves := put leaf (get 0 leaf k.leaves + 1) k.leaves })).cores
        teams := s.teams.map (fun e => (e.1, (s.onCore c (fun k =>
          { k with clocks := k.clocks + 1, leaves := put leaf (get 0 leaf k.leaves + 1) k.leaves })).slotTeam c ms e.1 e.2)) } := by
  unfold State.slot
  simp only [State.onCore_teams]
  congr 1
  refine List.map_congr_left (fun e _ => ?_)
  unfold State.slotTeam
  split <;> rfl

theorem slotTeam_zero (s : State) (c : Nat) (ms : List Member) (n : Nat) : s.slotTeam c ms n Team.zero = Team.zero := by
  unfold State.slotTeam; rfl

theorem slot_team (s : State) (c leaf : Nat) (ms : List Member) (n : Nat) :
    (s.slot c leaf ms).team n = (s.onCore c (fun k =>
      { k with clocks := k.clocks + 1, leaves := put leaf (get 0 leaf k.leaves + 1) k.leaves })).slotTeam c ms n (s.team n) := by
  rw [slot_eq]
  unfold State.team get
  rw [find_map_snd n (fun k t => State.slotTeam _ c ms k t)]
  cases find n s.teams with
  | none => exact (slotTeam_zero _ _ _ _).symm
  | some t => rfl

theorem tick_fst (s : State) (n : Nat) (g : Nat × Group) : (s.tick n g).1 = g.1 := by
  unfold State.tick; split <;> rfl

theorem tick_aged (s : State) (n : Nat) (g : Nat × Group) : { (s.tick n g).2 with aged := 0 } = { g.2 with aged := 0 } := by
  unfold State.tick; split <;> rfl

theorem slotTeam_rest (s : State) (c : Nat) (ms : List Member) (n : Nat) (t : Team) :
    { s.slotTeam c ms n t with groups := [] } = { t with groups := [] } := by
  unfold State.slotTeam; split <;> rfl

theorem slotTeam_group (s : State) (c : Nat) (ms : List Member) (n k : Nat) (t : Team) :
    (s.slotTeam c ms n t).group k =
      if (ms.any (fun m => m.team == n && m.grp == k)) = true ∨ t.core ≠ some c ∨ (find k t.groups).isNone = true
      then t.group k else (s.tick n (k, t.group k)).2 := by
  unfold State.slotTeam
  by_cases h : t.core = some c
  · simp only [h, if_true, ne_eq, not_true_eq_false, false_or]
    unfold Team.group get
    have e : (t.groups.map fun g => if (ms.any fun m => m.team == n && m.grp == g.1) = true then g else s.tick n g)
        = t.groups.map (fun e => (e.1, (fun i a => if (ms.any fun m => m.team == n && m.grp == i) = true then a
            else (s.tick n (i, a)).2) e.1 e.2)) := by
      refine List.map_congr_left (fun e _ => ?_)
      obtain ⟨i, a⟩ := e
      by_cases hm : (ms.any fun m => m.team == n && m.grp == i) = true
      · simp only [hm, if_true]
      · simp only [hm]
        exact Prod.ext (tick_fst s n (i, a)) rfl
    simp only [e]
    rw [find_map_snd k (fun i a => if (ms.any fun m => m.team == n && m.grp == i) = true then a
            else (s.tick n (i, a)).2)]
    cases hk : find k t.groups with
    | none => simp
    | some a =>
      by_cases hm : (ms.any fun m => m.team == n && m.grp == k) = true
      · simp [hm]
      · simp [hm]
  · simp only [h, if_false, ne_eq, not_false_eq_true, true_or, or_true, if_true]

/-- An issue slot changes only the clock and the slot counters of its core and the aging of groups that do not issue. -/
theorem slot_apart (s : State) (c leaf : Nat) (m : Member) :
    s.slot c leaf [m] = { s with cores := (s.slot c leaf [m]).cores, teams := (s.slot c leaf [m]).teams } ∧
    (∀ k, (s.slot c leaf [m]).core k = if k = c then
      { s.core c with clocks := (s.core c).clocks + 1, leaves := ((s.slot c leaf [m]).core c).leaves } else s.core k) ∧
    (∀ n, { (s.slot c leaf [m]).team n with groups := [] } = { s.team n with groups := [] }) ∧
    (∀ n k, ¬(n = m.team ∧ k = m.grp) →
      { (s.slot c leaf [m]).group n k with aged := 0 } = { s.group n k with aged := 0 }) ∧
    (s.slot c leaf [m]).group m.team m.grp = s.group m.team m.grp := by
  refine ⟨?_, ?_, ?_, ?_, ?_⟩
  · rw [slot_eq]
  · intro k
    have e : ∀ k, (s.slot c leaf [m]).core k = (s.onCore c (fun k =>
      { k with clocks := k.clocks + 1, leaves := put leaf (get 0 leaf k.leaves + 1) k.leaves })).core k := by
      intro k; rw [slot_eq]; rfl
    rw [e k, e c, State.core_onCore, State.core_onCore]
    split
    · simp
    · rfl
  · intro n; rw [slot_team]; exact slotTeam_rest _ _ _ _ _
  · intro n k h
    unfold State.group
    rw [slot_team, slotTeam_group]
    split
    · rfl
    · exact tick_aged _ _ _
  · unfold State.group
    rw [slot_team, slotTeam_group, if_pos (.inl (by simp))]

@[simp] theorem settle_of_none (g : Group) (m : Lanes) (h : g.calls = []) : g.settle m = g := by
  unfold Group.settle; rw [h]; rfl

theorem goTo_calls (g : Group) (m : Lanes) (f : Nat → Word) : (g.goTo m f).calls = g.calls := by
  unfold Group.goTo
  induction lanesOf m generalizing g with
  | nil => rfl
  | cons i l ih => rw [List.foldl_cons, ih]; rfl

theorem onGroup_same {s : State} {t k : Nat} {f : Group → Group} (h : f (s.group t k) = s.group t k) (n j : Nat) :
    (s.onGroup t k f).group n j = s.group n j := by
  rw [State.group_onGroup]
  split
  · rename_i e; obtain ⟨rfl, rfl, _⟩ := e; exact h
  · rfl

theorem onGroup_team_rest (s : State) (t k : Nat) (f : Group → Group) (n : Nat) :
    { (s.onGroup t k f).team n with groups := [] } = { s.team n with groups := [] } := by
  unfold State.onGroup
  rw [State.team_onTeam]
  split <;> rfl

theorem onGroup_other (s : State) (t k : Nat) (f : Group → Group) (n j : Nat) (h : ¬(n = t ∧ j = k)) :
    (s.onGroup t k f).group n j = s.group n j := by
  rw [State.group_onGroup, if_neg (fun c => h ⟨c.1, c.2.1⟩)]

@[simp] theorem onGroup_core (s : State) (t k : Nat) (f : Group → Group) (n : Nat) : (s.onGroup t k f).core n = s.core n := rfl
@[simp] theorem onCore_team (s : State) (k : Nat) (f : Core → Core) (n : Nat) : (s.onCore k f).team n = s.team n := rfl
@[simp] theorem onCore_group (s : State) (k : Nat) (f : Core → Core) (n j : Nat) : (s.onCore k f).group n j = s.group n j := rfl

/-- The members left in the clause. -/
def Member.left (m : Member) (stay : Lanes) : List Member := if stay = 0 then [] else [{ m with lanes := stay }]

/-- A core's errors are spent, and then its issue slot passes. -/
def State.passSlot (s : State) (c leaf : Nat) (ms : List Member) : State := (s.onCore c Core.spend).slot c leaf ms

/-- An issue slot that an instruction takes changes only the clock, the slot counters and the errors of its core, and the aging of
groups that do not issue. -/
theorem passSlot_apart (s : State) (c leaf : Nat) (m : Member) :
    s.passSlot c leaf [m] = { s with cores := (s.passSlot c leaf [m]).cores, teams := (s.passSlot c leaf [m]).teams } ∧
    (∀ k, (s.passSlot c leaf [m]).core k = if k = c then
      { s.core c with clocks := (s.core c).clocks + 1, leaves := ((s.passSlot c leaf [m]).core c).leaves, upset := 0, marred := 0
                      struck := false } else s.core k) ∧
    (∀ n, { (s.passSlot c leaf [m]).team n with groups := [] } = { s.team n with groups := [] }) ∧
    (∀ n k, ¬(n = m.team ∧ k = m.grp) →
      { (s.passSlot c leaf [m]).group n k with aged := 0 } = { s.group n k with aged := 0 }) ∧
    (s.passSlot c leaf [m]).group m.team m.grp = s.group m.team m.grp := by
  obtain ⟨r1, r2, r3, r4, r5⟩ := slot_apart (s.onCore c Core.spend) c leaf m
  refine ⟨r1, fun k => ?_, r3, r4, r5⟩
  unfold State.passSlot
  rw [r2 k]
  by_cases hk : k = c
  · rw [if_pos hk, if_pos hk, State.core_onCore, if_pos rfl]; rfl
  · rw [if_neg hk, if_neg hk, State.core_onCore, if_neg hk]

/-- The clause after an instruction: nothing but its group, its place and the slot changes. -/
theorem after_sole (u : State) (c leaf : Nat) (x : Issue) (m : Member) (stay : Lanes) (hx : x.members = [m])
    (hu : u.has m.team m.grp = true) (hc : (m.group u).calls = []) :
    Apart u ((u.after c x (m.left stay)).passSlot c leaf [m]) c m ∧
      Moved ((u.after c x (m.left stay)).passSlot c leaf [m]) c x m stay (m.group u) := by
  obtain ⟨r1, r2, r3, r4, r5⟩ := passSlot_apart (u.after c x (m.left stay)) c leaf m
  generalize ht : (u.after c x (m.left stay)).passSlot c leaf [m] = t at *
  -- the settled state before the slot
  have hst : ∀ (w : State) (ms : List Member), w.settle x ms = w.onGroup m.team m.grp (fun g => g.settle (m.lanes &&&
      ~~~(ms.foldl (fun l k => if k.team == m.team && k.grp == m.grp then l ||| k.lanes else l) 0))) := by
    intro w ms; unfold State.settle; rw [hx]; rfl
  by_cases hz : stay = 0
  · have ha : u.after c x (m.left stay) = ((u.settle x []).onCore c (fun k => { k with issue := none })) := by
      unfold State.after Member.left
      simp only [hz, if_true, List.isEmpty_nil]
    rw [hst] at ha
    have hg : (u.after c x (m.left stay)).group m.team m.grp = m.group u := by
      rw [ha, onCore_group, onGroup_same]
      · rfl
      · exact settle_of_none _ _ hc
    refine ⟨⟨?_, ?_, ?_, ?_, ?_⟩, ⟨fun _ => ⟨?_, ?_⟩, fun h => absurd hz h, fun h => absurd hz h⟩⟩
    · rw [r1, ha]; rfl
    · rw [r2 c, if_pos rfl, ha, State.core_onCore, if_pos rfl]; rfl
    · intro k hk; rw [r2 k, if_neg hk, ha, State.core_onCore, if_neg hk]; rfl
    · intro n; rw [r3 n, ha, onCore_team, onGroup_team_rest]
    · intro n k h; rw [r4 n k h, ha, onCore_group, onGroup_other _ _ _ _ _ _ h]
    · show (t.core c).issue = none
      rw [r2 c, if_pos rfl, ha, State.core_onCore, if_pos rfl]
    · show t.group m.team m.grp = _
      rw [r5, hg]
  by_cases hp : x.body.length ≤ x.pos + instrLength x.body x.pos
  · have ha : u.after c x (m.left stay) = (((u.onGroup m.team m.grp (fun g => g.goTo stay (fun _ => successor x.hdr x.bodyw))).settle x
        []).onCore c (fun k => { k with issue := none })) := by
      unfold State.after Member.left
      simp only [hz, if_false, List.isEmpty_cons, Bool.false_eq_true, hp, if_true]
      rfl
    rw [hst] at ha
    have hg : (u.after c x (m.left stay)).group m.team m.grp = (m.group u).goTo stay (fun _ => successor x.hdr x.bodyw) := by
      rw [ha, onCore_group, onGroup_same]
      · rw [State.group_onGroup, if_pos ⟨rfl, rfl, hu⟩]; rfl
      · rw [State.group_onGroup, if_pos ⟨rfl, rfl, hu⟩]
        exact settle_of_none _ _ (by rw [goTo_calls]; exact hc)
    refine ⟨⟨?_, ?_, ?_, ?_, ?_⟩, ⟨fun h => absurd h hz, fun _ h => absurd hp (by omega), fun _ _ => ⟨?_, ?_⟩⟩⟩
    · rw [r1, ha]; rfl
    · rw [r2 c, if_pos rfl, ha, State.core_onCore, if_pos rfl]; rfl
    · intro k hk; rw [r2 k, if_neg hk, ha, State.core_onCore, if_neg hk]; rfl
    · intro n; rw [r3 n, ha, onCore_team, onGroup_team_rest, onGroup_team_rest]
    · intro n k h; rw [r4 n k h, ha, onCore_group, onGroup_other _ _ _ _ _ _ h, onGroup_other _ _ _ _ _ _ h]
    · show (t.core c).issue = none
      rw [r2 c, if_pos rfl, ha, State.core_onCore, if_pos rfl]
    · show t.group m.team m.grp = _
      rw [r5, hg]
  · have ha : u.after c x (m.left stay) = ((u.settle x [{ m with lanes := stay }]).onCore c (fun k => { k with issue := some { x with
        members := [{ m with lanes := stay }], pos := x.pos + instrLength x.body x.pos } })) := by
      unfold State.after Member.left
      simp only [hz, if_false, List.isEmpty_cons, Bool.false_eq_true, hp]
    rw [hst] at ha
    have hg : (u.after c x (m.left stay)).group m.team m.grp = m.group u := by
      rw [ha, onCore_group, onGroup_same]
      · rfl
      · exact settle_of_none _ _ hc
    refine ⟨⟨?_, ?_, ?_, ?_, ?_⟩, ⟨fun h => absurd h hz, fun _ _ => ⟨?_, ?_⟩, fun _ h => absurd h hp⟩⟩
    · rw [r1, ha]; rfl
    · rw [r2 c, if_pos rfl, ha, State.core_onCore, if_pos rfl]; rfl
    · intro k hk; rw [r2 k, if_neg hk, ha, State.core_onCore, if_neg hk]; rfl
    · intro n; rw [r3 n, ha, onCore_team, onGroup_team_rest]
    · intro n k h; rw [r4 n k h, ha, onCore_group, onGroup_other _ _ _ _ _ _ h]
    · show (t.core c).issue = _
      rw [r2 c, if_pos rfl, ha, State.core_onCore, if_pos rfl]
    · show t.group m.team m.grp = _
      rw [r5, hg]

/-- The execution of an instruction by one path that passes its checks. -/
theorem run_sole {s : State} {c : Nat} {x : Issue} {m : Member} (h : Sole s c x m) (sh : Shape) (f : Env → State → Res)
    (hll : ∀ l, sh.ll = some l → m.canCount s sh.g l) (hq : s.roomFor sh c m)
    (hw : sh.wait (s.env c x m sh.g) s = false) (hl : (m.group s).level.atLeast sh.level = true)
    (ht : sh.top ≤ (m.group s).n) {u : State} {gone : Lanes}
    (hf : f (s.env c x m sh.g) (s.begun sh c x m) = .ok u gone) :
    s.run sh f = (u.after c x (m.left (m.lanes &&& ~~~gone))).passSlot c (s.issueLeaf [m]) [m] := by
  obtain ⟨h1, h2, h3⟩ := h.sound
  have hr : State.runMember sh f c x (s.coverage c sh.once [m], []) m = (u, m.left (m.lanes &&& ~~~gone)) := by
    have hno : sh.refuses (s.group m.team m.grp) = none := by
      unfold Shape.refuses
      have hl' : (s.group m.team m.grp).level.atLeast sh.level = true := hl
      have ht' : ¬ (s.group m.team m.grp).n < sh.top := Nat.not_lt.mpr ht
      simp [hl', ht']
    have hb : s.begun sh c x m = (s.env c x m sh.g).onGroup (s.coverage c sh.once [m]) (fun g =>
        { (g.advance (s.env c x m sh.g).path) with
          ordinal := if sh.acc && (s.env c x m sh.g).act != 0 then g.ordinal + 1 else g.ordinal }) := by
      unfold State.begun
      simp only [h.only, coverage_env]
      rfl
    have c1 : ((s.coverage c sh.once [m]).core c).upset = 0 := by rw [coverage_core, if_pos rfl]; exact h1
    have c2 : ((s.coverage c sh.once [m]).core c).marred = 0 := by rw [coverage_core, if_pos rfl]; exact h2
    have c3 : ((s.coverage c sh.once [m]).core c).struck = false := by rw [coverage_core, if_pos rfl]; exact h3
    have hm : (s.coverage c sh.once [m]).marredLanes (s.env c x m sh.g) = 0 := by
      unfold State.marredLanes
      have : (s.env c x m sh.g).core = c := rfl
      simp only [this, c2, if_true]
    have hd : (s.coverage c sh.once [m]).mismatch sh x (s.env c x m sh.g) = none := by
      unfold State.mismatch
      have : (s.env c x m sh.g).core = c := rfl
      simp only [this, c1]
      exact if_pos (.inl (by simp))
    unfold State.runMember
    simp only [coverage_group, coverage_env, hno, ← hb, hf, hm, hd, c3, Res.withPoison, if_true, Bool.false_and, Bool.false_eq_true,
      if_false]
    unfold Member.left
    by_cases hz : m.lanes &&& ~~~gone = 0
    · simp only [hz, if_true]
    · simp only [hz, if_false, List.nil_append]
  unfold State.run
  rw [bundle_of_sole h]
  simp only [h.only, List.findSome?_cons, List.findSome?_nil, held_of_sole h sh hll hq hw, List.foldl_cons, List.foldl_nil, hr]
  rfl

/-! ### Effects on the group alone -/

/-- The group as the effect of an instruction finds it. -/
def Member.begun (m : Member) (s : State) (sh : Shape) : Group :=
  { ((m.group s).advance m.lanes) with
    ordinal := if sh.acc && (m.active s sh.g) != 0 then (m.group s).ordinal + 1 else (m.group s).ordinal }

theorem begun_group {s : State} {c : Nat} {x : Issue} {m : Member} (h : Sole s c x m) (sh : Shape) :
    (s.begun sh c x m).group m.team m.grp = m.begun s sh := by
  unfold State.begun
  show (State.onGroup _ m.team m.grp _).group m.team m.grp = _
  rw [State.group_onGroup, if_pos ⟨rfl, rfl, by simpa [State.has] using h.has⟩, coverage_group]
  rfl

theorem begun_has {s : State} {c : Nat} {x : Issue} {m : Member} (h : Sole s c x m) (sh : Shape) :
    (s.begun sh c x m).has m.team m.grp = true := by
  have h1 := h.has
  unfold State.begun State.has
  show ((find m.team (State.onGroup _ m.team m.grp _).teams).isSome && _) = true
  unfold State.has at h1
  simp only [Bool.and_eq_true] at h1 ⊢
  constructor
  · show (find m.team (adjust m.team _ _)).isSome = true
    rw [find_adjust, if_pos rfl]; simpa using h1.1
  · show (find m.grp ((State.onTeam _ m.team _).team m.team).groups).isSome = true
    rw [State.team_onTeam, if_pos ⟨rfl, by simpa using h1.1⟩]
    show (find m.grp (adjust m.grp _ _)).isSome = true
    rw [find_adjust, if_pos rfl]; simpa using h1.2

theorem has_onGroup (s : State) (t k a b : Nat) (f : Group → Group) : (s.onGroup t k f).has a b = s.has a b := by
  unfold State.has
  have e1 : (find a (s.onGroup t k f).teams).isSome = (find a s.teams).isSome := by
    show (find a (adjust t _ s.teams)).isSome = _
    rw [find_adjust]; split <;> simp
  have e2 : (find b ((s.onGroup t k f).team a).groups).isSome = (find b (s.team a).groups).isSome := by
    unfold State.onGroup
    rw [State.team_onTeam]
    split
    · show (find b (adjust k f _)).isSome = _
      rw [find_adjust]; split <;> simp
    · rfl
  rw [e1, e2]

theorem begun_apart {s : State} {c : Nat} {x : Issue} {m : Member} (sh : Shape) (F : Group → Group) (t : State)
    (h : Apart ((s.begun sh c x m).onGroup m.team m.grp F) t c m) : Apart s t c m := by
  obtain ⟨h1, h2, h3, h4, h5⟩ := h
  have hc : ∀ k, ((s.begun sh c x m).onGroup m.team m.grp F).core k = (s.coverage c sh.once x.members).core k := fun k => rfl
  refine ⟨?_, ?_, ?_, ?_, ?_⟩
  · rw [h1]
    have : ∀ (a : SMap Core) (b : SMap Team), { (s.begun sh c x m).onGroup m.team m.grp F with cores := a, teams := b } =
        { s.coverage c sh.once x.members with cores := a, teams := b } := fun _ _ => rfl
    rw [this, coverage_eq]
  · rw [h2, hc, coverage_core, if_pos rfl]
  · intro k hk; rw [h3 k hk, hc, coverage_core, if_neg hk]
  · intro n; rw [h4 n, onGroup_team_rest]
    unfold State.begun
    show { (State.onGroup _ m.team m.grp _).team n with groups := [] } = _
    rw [onGroup_team_rest, coverage_team]
  · intro n k hn; rw [h5 n k hn, onGroup_other _ _ _ _ _ _ hn]
    unfold State.begun
    show { (State.onGroup _ m.team m.grp _).group n k with aged := 0 } = _
    rw [onGroup_other _ _ _ _ _ _ hn, coverage_group]

/-- An instruction whose effect is a change of the group, after which some lanes have left the clause. -/
theorem run_leaves {s : State} {c : Nat} {x : Issue} {m : Member} (h : Sole s c x m) (sh : Shape) (f : Env → State → Res)
    (F : Group → Group) (gone : Lanes)
    (hll : ∀ l, sh.ll = some l → m.canCount s sh.g l) (hq : s.roomFor sh c m)
    (hw : sh.wait (s.env c x m sh.g) s = false) (hl : (m.group s).level.atLeast sh.level = true)
    (ht : sh.top ≤ (m.group s).n)
    (hf : f (s.env c x m sh.g) (s.begun sh c x m) = .ok ((s.begun sh c x m).onGroup m.team m.grp F) gone)
    (hF : (F (m.begun s sh)).calls = []) :
    Apart s (s.run sh f) c m ∧ Moved (s.run sh f) c x m (m.lanes &&& ~~~gone) (F (m.begun s sh)) := by
  rw [run_sole h sh f hll hq hw hl ht hf]
  have hg : m.group ((s.begun sh c x m).onGroup m.team m.grp F) = F (m.begun s sh) := by
    show ((s.begun sh c x m).onGroup m.team m.grp F).group m.team m.grp = _
    rw [State.group_onGroup, if_pos ⟨rfl, rfl, begun_has h sh⟩, begun_group h sh]
  obtain ⟨ha, hm⟩ := after_sole ((s.begun sh c x m).onGroup m.team m.grp F) c (s.issueLeaf [m]) x m (m.lanes &&& ~~~gone)
    h.only (by rw [has_onGroup]; exact begun_has h sh) (by rw [hg]; exact hF)
  refine ⟨begun_apart sh F _ ha, ?_⟩
  rw [hg] at hm; exact hm

/-- An instruction whose effect is a change of the group, and which keeps its path. -/
theorem run_group {s : State} {c : Nat} {x : Issue} {m : Member} (h : Sole s c x m) (sh : Shape) (f : Env → State → Res)
    (F : Group → Group)
    (hll : ∀ l, sh.ll = some l → m.canCount s sh.g l) (hq : s.roomFor sh c m)
    (hw : sh.wait (s.env c x m sh.g) s = false) (hl : (m.group s).level.atLeast sh.level = true)
    (ht : sh.top ≤ (m.group s).n)
    (hf : f (s.env c x m sh.g) (s.begun sh c x m) = .ok ((s.begun sh c x m).onGroup m.team m.grp F) 0)
    (hF : (F (m.begun s sh)).calls = []) :
    Apart s (s.run sh f) c m ∧ Moved (s.run sh f) c x m (m.lanes &&& ~~~0) (F (m.begun s sh)) :=
  run_leaves h sh f F 0 hll hq hw hl ht hf hF

/-- An instruction with any effect that leaves the group there, with no program call due. -/
theorem run_ends {s : State} {c : Nat} {x : Issue} {m : Member} (h : Sole s c x m) (sh : Shape) (f : Env → State → Res)
    (u : State) (gone : Lanes)
    (hll : ∀ l, sh.ll = some l → m.canCount s sh.g l) (hq : s.roomFor sh c m)
    (hw : sh.wait (s.env c x m sh.g) s = false) (hl : (m.group s).level.atLeast sh.level = true)
    (ht : sh.top ≤ (m.group s).n)
    (hf : f (s.env c x m sh.g) (s.begun sh c x m) = .ok u gone)
    (hu : u.has m.team m.grp = true) (hc : (m.group u).calls = []) (P : State → Prop) (hP : P u) :
    Ends c x m gone (.next (s.run sh f)) P := by
  rw [run_sole h sh f hll hq hw hl ht hf]
  obtain ⟨ha, hm⟩ := after_sole u c (s.issueLeaf [m]) x m (m.lanes &&& ~~~gone) h.only hu hc
  exact ⟨u, _, rfl, hP, ha, hm⟩

theorem begun_calls {s : State} {c : Nat} {x : Issue} {m : Member} (h : Sole s c x m) (sh : Shape) :
    (m.begun s sh).calls = [] := h.calls

end Sys2Proof.Machine
end

