-- ==== Sys2Proof/Laws/Group.lean ====
section
/-!
SUPPORT. Registers of a group written in the lanes of a mask, seen through the statements' terms: what each shared write
does to registers, to outstanding instructions and to nothing else.
-/
namespace Sys2Proof.Machine

/-! ### The group as an effect finds it: its registers are those it had -/

theorem begun_eq (s : State) (m : Member) (sh : Shape) :
    m.begun s sh = { m.group s with pend := (m.begun s sh).pend, ordinal := (m.begun s sh).ordinal } := by
  unfold Member.begun Group.advance Group.mapPend
  dsimp only

section begun

variable (s : State) (m : Member) (sh : Shape)

@[simp] theorem begun_v : (m.begun s sh).v = (m.group s).v := by rw [begun_eq]
@[simp] theorem begun_p : (m.begun s sh).p = (m.group s).p := by rw [begun_eq]
@[simp] theorem begun_s : (m.begun s sh).s = (m.group s).s := by rw [begun_eq]
@[simp] theorem begun_j : (m.begun s sh).j = (m.group s).j := by rw [begun_eq]
@[simp] theorem begun_d : (m.begun s sh).d = (m.group s).d := by rw [begun_eq]
@[simp] theorem begun_pc : (m.begun s sh).pc = (m.group s).pc := by rw [begun_eq]
@[simp] theorem begun_st : (m.begun s sh).st = (m.group s).st := by rw [begun_eq]
@[simp] theorem begun_wait : (m.begun s sh).wait = (m.group s).wait := by rw [begun_eq]
@[simp] theorem begun_hdr : (m.begun s sh).hdr = (m.group s).hdr := by rw [begun_eq]
@[simp] theorem begun_helper : (m.begun s sh).helper = (m.group s).helper := by rw [begun_eq]
@[simp] theorem begun_flags : (m.begun s sh).flags = (m.group s).flags := by rw [begun_eq]
@[simp] theorem begun_level : (m.begun s sh).level = (m.group s).level := by rw [begun_eq]
@[simp] theorem begun_n : (m.begun s sh).n = (m.group s).n := by rw [begun_eq]
@[simp] theorem begun_callsEq : (m.begun s sh).calls = (m.group s).calls := by rw [begun_eq]
@[simp] theorem begun_width : (m.begun s sh).width = (m.group s).width := by rw [begun_eq]
@[simp] theorem begun_fences : (m.begun s sh).fences = (m.group s).fences := by rw [begun_eq]
@[simp] theorem begun_btab : (m.begun s sh).btab = (m.group s).btab := by rw [begun_eq]
@[simp] theorem begun_s2 : (m.begun s sh).s2 = (m.group s).s2 := by rw [begun_eq]
@[simp] theorem begun_vreg : (m.begun s sh).vreg = (m.group s).vreg := by
  funext r i; unfold Group.vreg; rw [begun_v]
@[simp] theorem begun_preg : (m.begun s sh).preg = (m.group s).preg := by
  funext r i; unfold Group.preg; rw [begun_p]
@[simp] theorem begun_sreg : (m.begun s sh).sreg = (m.group s).sreg := by
  funext r; unfold Group.sreg; rw [begun_s, begun_s2]
@[simp] theorem begun_jreg : (m.begun s sh).jreg = (m.group s).jreg := by
  funext r; unfold Group.jreg; rw [begun_j]
@[simp] theorem begun_dreg : (m.begun s sh).dreg = (m.group s).dreg := by
  funext r; unfold Group.dreg; rw [begun_d]
@[simp] theorem begun_reg : (m.begun s sh).reg = (m.group s).reg := by
  funext r i; cases r <;> unfold Group.reg <;> dsimp only
  · rw [begun_vreg]
  · rw [begun_sreg]
@[simp] theorem begun_opnd : (m.begun s sh).opnd = (m.group s).opnd := by
  funext t r i; cases r <;> unfold Group.opnd <;> dsimp only
  rw [begun_reg]
@[simp] theorem begun_sopnd : (m.begun s sh).sopnd = (m.group s).sopnd := by
  funext t r; cases r <;> unfold Group.sopnd <;> dsimp only
  rw [begun_sreg]
@[simp] theorem begun_runReg : (m.begun s sh).runReg = (m.group s).runReg := by
  funext r k i; cases r <;> unfold Group.runReg <;> dsimp only
  · rw [begun_vreg]
  · rw [begun_sreg]
@[simp] theorem begun_memAddr : (m.begun s sh).memAddr = (m.group s).memAddr := by
  funext q i; unfold Group.memAddr; rw [begun_reg]
@[simp] theorem begun_addrOff : (m.begun s sh).addrOff = (m.group s).addrOff := by
  funext q o i; unfold Group.addrOff; rw [begun_reg]
@[simp] theorem begun_state : (m.begun s sh).state = (m.group s).state := by
  funext i; unfold Group.state; rw [begun_st]
@[simp] theorem begun_lanePc : (m.begun s sh).lanePc = (m.group s).lanePc := by
  funext i; unfold Group.lanePc; rw [begun_pc]
@[simp] theorem begun_live : (m.begun s sh).live = (m.group s).live := by
  unfold Group.live; rw [begun_state]
@[simp] theorem begun_launched : (m.begun s sh).launched = (m.group s).launched := by
  unfold Group.launched; rw [begun_state]
@[simp] theorem begun_inState : (m.begun s sh).inState = (m.group s).inState := by
  funext c; unfold Group.inState; rw [begun_state]
@[simp] theorem begun_guarded : (m.begun s sh).guarded = (m.group s).guarded := by
  funext c i; unfold Group.guarded; rw [begun_preg]

end begun

/-! ### Outstanding instructions -/

/-- Group h has g's outstanding instructions, with the same distances and perhaps more destinations overwritten. -/
def KeepsPends (g h : Group) : Prop :=
  ∀ id, match find id g.pend, find id h.pend with
    | none, none => True
    | some p, some q => q.core = p.core ∧ q.dist = p.dist
    | none, some _ => False
    | some _, none => False

theorem KeepsPends.refl (g : Group) : KeepsPends g g := by
  intro id; cases find id g.pend <;> simp

theorem KeepsPends.of_eq {g h : Group} (e : h.pend = g.pend) : KeepsPends g h := by
  intro id; rw [e]; cases find id g.pend <;> simp

theorem KeepsPends.trans {g h k : Group} (a : KeepsPends g h) (b : KeepsPends h k) : KeepsPends g k := by
  intro id
  have a := a id; have b := b id
  revert a b
  rcases find id g.pend with _ | p <;> rcases find id h.pend with _ | q <;> rcases find id k.pend with _ | r <;> simp
  rintro h1 h2 h3 h4
  exact ⟨h3.trans h1, h4.trans h2⟩

theorem KeepsPends.mapPend (g : Group) (f : Pend → Pend) (h : ∀ p, (f p).core = p.core ∧ (f p).dist = p.dist) :
    KeepsPends g (g.mapPend f) := by
  intro id
  rw [find_mapPend]
  rcases find id g.pend with _ | p
  · simp
  · simpa using h p

theorem kill_core (k : Nat) (p : Pend) : (p.kill k).core = p.core ∧ (p.kill k).dist = p.dist := by
  unfold Pend.kill; split <;> exact ⟨rfl, rfl⟩

theorem killS_core (k : Nat) (p : Pend) : (p.killS k).core = p.core ∧ (p.killS k).dist = p.dist := by
  unfold Pend.killS; split <;> exact ⟨rfl, rfl⟩

theorem KeepsPends.setV (g : Group) (r i : Nat) (x : Word) : KeepsPends g (g.setV r i x) :=
  (KeepsPends.mapPend g _ (kill_core _)).trans (.of_eq rfl)

theorem KeepsPends.setP (g : Group) (r i : Nat) (x : Bool) : KeepsPends g (g.setP r i x) :=
  (KeepsPends.mapPend g _ (kill_core _)).trans (.of_eq (Group.putP_pend _ _ _ _))

theorem KeepsPends.setS (g : Group) (r : Nat) (x : Word) : KeepsPends g (g.setS r x) :=
  (KeepsPends.mapPend g _ (killS_core _)).trans (.of_eq (Group.putS_pend _ _ _))

theorem advance_core (m : Lanes) (p : Pend) :
    ({ p with dist := (lanesOf (m &&& p.all)).foldl (fun d i => put i (get 0 i d + 1) d) p.dist } : Pend).core = p.core := rfl

theorem find_advance (g : Group) (m : Lanes) (id : Nat) : find id (g.advance m).pend = (find id g.pend).map (fun p =>
    { p with dist := (lanesOf (m &&& p.all)).foldl (fun d i => put i (get 0 i d + 1) d) p.dist }) := find_mapPend _ _ _

theorem get_foldl_succ (l : List Nat) (hl : l.Nodup) (d : SMap Nat) (j : Nat) :
    get 0 j (l.foldl (fun d i => put i (get 0 i d + 1) d) d) = if j ∈ l then get 0 j d + 1 else get 0 j d := by
  induction l generalizing d with
  | nil => simp
  | cons i l ih =>
    rw [List.foldl_cons, ih (List.nodup_cons.mp hl).2, get_put]
    have hi := (List.nodup_cons.mp hl).1
    by_cases h : j = i
    · subst h; simp [hi]
    · simp [h]

/-- After the instruction's own step, and any change that keeps the outstanding instructions, they are the same and one
instruction further away. -/
theorem pends_of_begun {s : State} {m : Member} {sh : Shape} {G : Group} (h : KeepsPends (m.begun s sh) G) :
    SamePends (m.group s) G ∧ Aged (m.group s) G m.lanes := by
  have hb : ∀ id, find id (m.begun s sh).pend = (find id (m.group s).pend).map (fun p =>
    { p with dist := (lanesOf (m.lanes &&& p.all)).foldl (fun d i => put i (get 0 i d + 1) d) p.dist }) :=
    fun id => find_advance _ _ _
  constructor
  · intro id
    have := h id
    rw [hb id] at this
    revert this
    rcases find id (m.group s).pend with _ | p <;> rcases find id G.pend with _ | q <;> simp
    intro h1 _; rw [h1]; rfl
  · intro id p q i hp hq hi hm hl
    have := h id
    rw [hb id, hp, hq] at this
    rw [this.2]
    show get 0 i ((lanesOf (m.lanes &&& p.all)).foldl (fun d i => put i (get 0 i d + 1) d) p.dist) = _
    rw [get_foldl_succ _ (nodup_lanesOf _), if_pos (mem_lanesOf.mpr ⟨hi, by rw [BitVec.getLsbD_and, hm, hl]; rfl⟩)]

/-! ### Registers of the lanes of a mask -/

theorem setVs_keeps (g : Group) (r : Nat) (m : Lanes) (f : Nat → Word) : KeepsPends g (g.setVs r m f) := by
  unfold Group.setVs
  induction lanesOf m generalizing g with
  | nil => exact .refl g
  | cons i l ih => exact (KeepsPends.setV g r i (f i)).trans (ih _)

theorem setPs_keeps (g : Group) (r : Nat) (m : Lanes) (f : Nat → Bool) : KeepsPends g (g.setPs r m f) := by
  unfold Group.setPs
  induction lanesOf m generalizing g with
  | nil => exact .refl g
  | cons i l ih => exact (KeepsPends.setP g r i (f i)).trans (ih _)

theorem setVs_rest (g : Group) (r : Nat) (m : Lanes) (f : Nat → Word) :
    g.setVs r m f = { g with v := (g.setVs r m f).v, pend := (g.setVs r m f).pend } := by
  unfold Group.setVs
  induction lanesOf m generalizing g with
  | nil => rfl
  | cons i l ih => rw [List.foldl_cons, ih]; rfl

theorem putP_rest (g : Group) (r i : Nat) (x : Bool) : g.putP r i x = { g with p := (g.putP r i x).p } := by
  unfold Group.putP; split <;> rfl

theorem putS_rest (g : Group) (r : Nat) (x : Word) : g.putS r x = { g with s := (g.putS r x).s } := by
  unfold Group.putS; split <;> rfl

theorem setP_rest (g : Group) (r i : Nat) (x : Bool) :
    g.setP r i x = { g with p := (g.setP r i x).p, pend := (g.setP r i x).pend } := by
  unfold Group.setP; rw [putP_rest]; rfl

theorem setS_rest (g : Group) (r : Nat) (x : Word) :
    g.setS r x = { g with s := (g.setS r x).s, pend := (g.setS r x).pend } := by
  unfold Group.setS; rw [putS_rest]; rfl

theorem setPs_rest (g : Group) (r : Nat) (m : Lanes) (f : Nat → Bool) :
    g.setPs r m f = { g with p := (g.setPs r m f).p, pend := (g.setPs r m f).pend } := by
  unfold Group.setPs
  induction lanesOf m generalizing g with
  | nil => rfl
  | cons i l ih =>
    rw [List.foldl_cons, ih, setP_rest g r i (f i)]

theorem foldl_vreg (l : List Nat) (hl : l.Nodup) (h64 : ∀ i ∈ l, i < 64) (g : Group) (r : Nat) (f : Nat → Word) (q j : Nat)
    (hj : j < 64) : (l.foldl (fun g i => g.setV r i (f i)) g).vreg q j = if q = r ∧ j ∈ l then f j else g.vreg q j := by
  induction l generalizing g with
  | nil => simp
  | cons i l ih =>
    rw [List.foldl_cons, ih (List.nodup_cons.mp hl).2 (fun k hk => h64 k (by simp [hk]))]
    have hi := (List.nodup_cons.mp hl).1
    have e : (g.setV r i (f i)).vreg q j = if q = r ∧ j = i then f i else g.vreg q j := by
      unfold Group.setV
      rw [Group.vreg_putV _ _ _ _ _ _ (h64 i (by simp)) hj]; rfl
    rw [e]
    by_cases hq : q = r
    · by_cases hji : j = i
      · subst hji; simp [hq, hi]
      · simp [hq, hji]
    · simp [hq]

/-- A vector register after it is written in the lanes of a mask. -/
theorem vreg_setVs (g : Group) (r : Nat) (m : Lanes) (f : Nat → Word) (q j : Nat) (hj : j < 64) :
    (g.setVs r m f).vreg q j = if q = r ∧ m.getLsbD j = true then f j else g.vreg q j := by
  unfold Group.setVs
  rw [foldl_vreg _ (nodup_lanesOf m) (fun i hi => (mem_lanesOf.mp hi).1) _ _ _ _ _ hj]
  simp [mem_lanesOf, hj]

theorem foldl_preg (l : List Nat) (hl : l.Nodup) (g : Group) (r : Nat) (hr : r < 16) (f : Nat → Bool) (q j : Nat)
    (hq16 : q < 16) : (l.foldl (fun g i => g.setP r i (f i)) g).preg q j =
      if q = r ∧ q ≠ 15 ∧ j ∈ l then f j else g.preg q j := by
  induction l generalizing g with
  | nil => simp
  | cons i l ih =>
    rw [List.foldl_cons, ih (List.nodup_cons.mp hl).2]
    have hi := (List.nodup_cons.mp hl).1
    have e : (g.setP r i (f i)).preg q j = if q = r ∧ q ≠ 15 ∧ j = i then f i else g.preg q j := by
      unfold Group.setP
      rw [Group.preg_putP _ _ _ _ _ _ hr hq16]; rfl
    rw [e]
    by_cases hq : q = r ∧ q ≠ 15
    · by_cases hji : j = i
      · subst hji; simp [hq, hi]
      · simp [hq, hji]
    · have n1 : ¬(q = r ∧ q ≠ 15 ∧ j ∈ l) := fun c => hq ⟨c.1, c.2.1⟩
      have n2 : ¬(q = r ∧ q ≠ 15 ∧ j = i) := fun c => hq ⟨c.1, c.2.1⟩
      have n3 : ¬(q = r ∧ q ≠ 15 ∧ j ∈ i :: l) := fun c => hq ⟨c.1, c.2.1⟩
      rw [if_neg n1, if_neg n2, if_neg n3]

/-- A predicate after it is written in the lanes of a mask. -/
theorem preg_setPs (g : Group) (r : Nat) (hr : r < 16) (m : Lanes) (f : Nat → Bool) (q j : Nat) (hq : q < 16) (hj : j < 64) :
    (g.setPs r m f).preg q j = if q = r ∧ q ≠ 15 ∧ m.getLsbD j = true then f j else g.preg q j := by
  unfold Group.setPs
  rw [foldl_preg _ (nodup_lanesOf m) _ _ hr _ _ _ hq]
  simp [mem_lanesOf, hj]

theorem sreg_setS (g : Group) (r : Nat) (x : Word) (q : Nat) :
    (g.setS r x).sreg q = if q = r ∧ q ≠ 0 ∧ q ≠ 2 then x else g.sreg q := by
  unfold Group.setS
  rw [Group.sreg_putS]; rfl

/-! ### The statements' terms -/

theorem wroteV_setVs (s : State) (m : Member) (sh : Shape) (act : Lanes) (d : Nat) (f : Nat → Word) :
    WroteV (m.group s) ((m.begun s sh).setVs d act f) m.lanes act d f := by
  obtain ⟨h1, h2⟩ := pends_of_begun (setVs_keeps (m.begun s sh) d act f)
  refine ⟨?_, fun r i hi => ?_, h1, h2⟩
  · rw [setVs_rest, begun_eq]
  · rw [vreg_setVs _ _ _ _ _ _ hi, begun_vreg]

theorem wroteP_setPs (s : State) (m : Member) (sh : Shape) (act : Lanes) (d : Nat) (hd : d < 16) (f : Nat → Bool) :
    WroteP (m.group s) ((m.begun s sh).setPs d act f) m.lanes act d f := by
  obtain ⟨h1, h2⟩ := pends_of_begun (setPs_keeps (m.begun s sh) d act f)
  refine ⟨?_, fun r i hr hi => ?_, h1, h2⟩
  · rw [setPs_rest, begun_eq]
  · rw [preg_setPs _ _ hd _ _ _ _ hr hi, begun_preg]

theorem setVs_calls (g : Group) (r : Nat) (m : Lanes) (f : Nat → Word) : (g.setVs r m f).calls = g.calls := by
  rw [setVs_rest]
theorem setPs_calls (g : Group) (r : Nat) (m : Lanes) (f : Nat → Bool) : (g.setPs r m f).calls = g.calls := by
  rw [setPs_rest]
theorem setS_calls (g : Group) (r : Nat) (x : Word) : (g.setS r x).calls = g.calls := by
  rw [setS_rest]

/-! ### Bounds of direct registers -/

theorem topR_le {r : Reg} {n : Nat} (h : Reg.fits r n) : topR r 1 ≤ n := by
  cases r with
  | v k => exact h
  | s k => exact Nat.zero_le _

theorem topO_le {o : Opnd} {n : Nat} (h : Opnd.fits o n) : topO o ≤ n := by
  cases o with
  | reg r => exact topR_le h
  | lit x => exact Nat.zero_le _

theorem maxOf_le {xs : List Nat} {n : Nat} (h : ∀ k ∈ xs, k ≤ n) : maxOf xs ≤ n := by
  have : ∀ (l : List Nat) (a : Nat), a ≤ n → (∀ k ∈ l, k ≤ n) → l.foldl Nat.max a ≤ n := by
    intro l
    induction l with
    | nil => intro a ha _; exact ha
    | cons k l ih =>
      intro a ha hl
      exact ih _ (Nat.max_le.mpr ⟨ha, hl k (by simp)⟩) (fun j hj => hl j (by simp [hj]))
  exact this xs 0 (Nat.zero_le _) h

/-! ### The shared shapes of effects -/

section shapes

variable {s : State} {c : Nat} {x : Issue} {m : Member}

theorem atLeast_user (l : Level) : l.atLeast .user = true := by cases l <;> rfl

/-- A vector register written in the active lanes. -/
theorem vecV_does (h : Sole s c x m) (g : Guard) (top : Nat) (d : VReg) (f : Group → Nat → Word)
    (hf : ∀ sh, f (m.begun s sh) = f (m.group s)) (ht : top ≤ (m.group s).n) (hd : d.toNat < (m.group s).n) :
    DoesV s c x m g (.next (s.vecV g top d f)) d (f (m.group s)) := by
  obtain ⟨ha, hm⟩ := run_group h { g := g, top := maxOf [top, d.toNat + 1] }
    (fun e s => .go (e.onGroup s (fun gr => gr.setVs d.toNat e.act (f gr))))
    (fun gr => gr.setVs d.toNat (m.active s g) (f gr)) (by simp) (by simp [State.roomFor]) rfl (atLeast_user _)
    (maxOf_le (by simp; omega)) rfl (by rw [setVs_calls]; exact begun_calls h _)
  refine ⟨_, _, rfl, ha, ?_, hm⟩
  simp only [hf]
  exact wroteV_setVs s m _ _ _ _

/-- A predicate written in the active lanes. -/
theorem vecP_does (h : Sole s c x m) (g : Guard) (top : Nat) (p : PReg) (f : Group → Nat → Bool)
    (hf : ∀ sh, f (m.begun s sh) = f (m.group s)) (ht : top ≤ (m.group s).n) :
    DoesP s c x m g (.next (s.vecP g top p f)) p (f (m.group s)) := by
  obtain ⟨ha, hm⟩ := run_group h { g := g, top := top }
    (fun e s => .go (e.onGroup s (fun gr => gr.setPs p.toNat e.act (f gr))))
    (fun gr => gr.setPs p.toNat (m.active s g) (f gr)) (by simp) (by simp [State.roomFor]) rfl (atLeast_user _)
    ht rfl (by rw [setPs_calls]; exact begun_calls h _)
  refine ⟨_, _, rfl, ha, ?_, hm⟩
  simp only [hf]
  exact wroteP_setPs s m _ _ _ p.isLt _

theorem raiseLanes_rest (g : Group) (m : Lanes) (f : Nat → Flags) :
    g.raiseLanes m f = { g with flags := g.flags ||| (lanesOf (m &&& ~~~g.helper)).foldl (fun x i => x ||| f i) 0 } := rfl

theorem raiseLanes_calls (g : Group) (m : Lanes) (f : Nat → Flags) : (g.raiseLanes m f).calls = g.calls := rfl

/-- A vector register written in the active lanes, with flags. -/
theorem vecF_does (h : Sole s c x m) (g : Guard) (top : Nat) (d : VReg) (f : Group → Nat → Word × Flags)
    (hf : ∀ sh, f (m.begun s sh) = f (m.group s)) (ht : top ≤ (m.group s).n) (hd : d.toNat < (m.group s).n) :
    DoesF s c x m g (.next (s.vecF g top d f)) d (f (m.group s)) := by
  obtain ⟨ha, hm⟩ := run_group h { g := g, top := maxOf [top, d.toNat + 1] }
    (fun e s => .go (e.onGroup s (fun gr => (gr.setVs d.toNat e.act (fun i => (f gr i).1)).raiseLanes e.act (fun i => (f gr i).2))))
    (fun gr => (gr.setVs d.toNat (m.active s g) (fun i => (f gr i).1)).raiseLanes (m.active s g) (fun i => (f gr i).2))
    (by simp) (by simp [State.roomFor]) rfl (atLeast_user _) (maxOf_le (by simp; omega)) rfl
    (by rw [raiseLanes_calls, setVs_calls]; exact begun_calls h _)
  refine ⟨_, _, rfl, ha, ?_, hm⟩
  simp only [hf]
  obtain ⟨h1, h2, h3, h4⟩ := wroteV_setVs s m { g := g, top := maxOf [top, d.toNat + 1] } (m.active s g) d.toNat
    (fun i => (f (m.group s) i).1)
  refine ⟨?_, h2, ?_, h3, h4⟩
  · rw [raiseLanes_rest, setVs_rest, begun_eq]
  · rw [raiseLanes_rest, setVs_rest, begun_eq]; unfold Member.flagsAfter; dsimp only

/-- A predicate written in the active lanes, with flags. -/
theorem vecPF_does (h : Sole s c x m) (g : Guard) (top : Nat) (p : PReg) (f : Group → Nat → Bool × Flags)
    (hf : ∀ sh, f (m.begun s sh) = f (m.group s)) (ht : top ≤ (m.group s).n) :
    Does s c x m (.next (s.vecPF g top p f)) (fun k G => WrotePF k G m.lanes (m.active s g) p.toNat
      (fun i => (f (m.group s) i).1) (m.flagsAfter s (m.active s g) (fun i => (f (m.group s) i).2))) := by
  obtain ⟨ha, hm⟩ := run_group h { g := g, top := top }
    (fun e s => .go (e.onGroup s (fun gr => (gr.setPs p.toNat e.act (fun i => (f gr i).1)).raiseLanes e.act (fun i => (f gr i).2))))
    (fun gr => (gr.setPs p.toNat (m.active s g) (fun i => (f gr i).1)).raiseLanes (m.active s g) (fun i => (f gr i).2))
    (by simp) (by simp [State.roomFor]) rfl (atLeast_user _) ht rfl
    (by rw [raiseLanes_calls, setPs_calls]; exact begun_calls h _)
  refine ⟨_, _, rfl, ha, ?_, hm⟩
  simp only [hf]
  obtain ⟨h1, h2, h3, h4⟩ := wroteP_setPs s m { g := g, top := top } (m.active s g) p.toNat p.isLt
    (fun i => (f (m.group s) i).1)
  refine ⟨?_, h2, ?_, h3, h4⟩
  · rw [raiseLanes_rest, setPs_rest, begun_eq]
  · rw [raiseLanes_rest, setPs_rest, begun_eq]; unfold Member.flagsAfter; dsimp only

/-- A uniform register written as a group effect. -/
theorem uniS_does (h : Sole s c x m) (g : Guard) (d : SReg) (f : Env → Group → Word)
    (hf : ∀ sh, f (s.env c x m g) (m.begun s sh) = f (s.env c x m g) (m.group s)) :
    DoesS s c x m g (.next (s.groupOp g (fun e gr => gr.setS d.toNat (f e gr)))) d
      (f (s.env c x m g) (m.group s)) := by
  obtain ⟨ha, hm⟩ := run_group h { g := g, once := true }
    (fun e s => .go (e.once s (fun s => e.onGroup s (fun gr => gr.setS d.toNat (f e gr)))))
    (fun gr => if m.active s g = 0 then gr else gr.setS d.toNat (f (s.env c x m g) gr))
    (by simp) (by simp [State.roomFor]) rfl (atLeast_user _) (Nat.zero_le _)
    (by
      have e1 : (s.env c x m g).act = m.active s g := rfl
      simp only [Env.once, e1]
      by_cases ha : m.active s g = 0
      · simp only [ha, if_true, Res.go]
        rw [onGroup_id]
      · simp only [ha, if_false]; rfl)
    (by
      split
      · exact begun_calls h _
      · rw [setS_calls]; exact begun_calls h _)
  refine ⟨_, _, rfl, ha, ?_, hm⟩
  by_cases hz : m.active s g = 0
  · rw [if_pos hz]
    obtain ⟨h1, h2⟩ := pends_of_begun (KeepsPends.refl (m.begun s { g := g, once := true }))
    exact ⟨begun_eq _ _ _, fun k => by rw [if_neg (fun c => c.1 hz), begun_sreg], h1, h2⟩
  · rw [if_neg hz, hf]
    obtain ⟨h1, h2⟩ := pends_of_begun (KeepsPends.setS (m.begun s { g := g, once := true }) d.toNat
      (f (s.env c x m g) (m.group s)))
    refine ⟨by rw [setS_rest, begun_eq], fun k => ?_, h1, h2⟩
    rw [sreg_setS, begun_sreg]
    simp only [ne_eq, hz, not_false_eq_true, true_and]

/-! ### Long latency -/

theorem begin_calls (g : Group) (ll : Ll) (a : Lanes) (p : Pend) : (g.begin ll a p).1.calls = g.calls := by
  unfold Group.begin
  by_cases h : a = 0
  · simp only [h, if_true]
  · simp only [h, if_false]
    cases ll.dc <;> rfl

theorem freeKey_mapPend (g : Group) (f : Pend → Pend) : freeKey (g.mapPend f).pend = freeKey g.pend := by
  simp only [Group.mapPend]
  induction g.pend with
  | nil => rfl
  | cons e l ih =>
    obtain ⟨i, a⟩ := e
    simp only [List.map_cons, freeKey, ih]

theorem begun_freeKey (s : State) (m : Member) (sh : Shape) :
    freeKey (m.begun s sh).pend = freeKey (m.group s).pend := by
  show freeKey ((m.group s).advance m.lanes).pend = _
  unfold Group.advance
  rw [freeKey_mapPend]

theorem dreg_begin (g : Group) (ll : Ll) (act : Lanes) (p : Pend) (k : Nat) :
    (g.begin ll act p).1.dreg k =
      if act ≠ 0 ∧ (ll.dc.map BitVec.toNat) = some k then g.dreg k + 1 else g.dreg k := by
  unfold Group.begin
  by_cases h : act = 0
  · simp only [h, if_true, ne_eq, not_true_eq_false, false_and, if_false]
  · simp only [h, if_false, ne_eq, not_false_eq_true, true_and]
    cases ll.dc with
    | none => rfl
    | some j =>
      have : ∀ q : SMap Pend, Group.dreg { g.setD j.toNat (g.dreg j.toNat + 1) with pend := q } k =
        get 0 k (set 0 j.toNat (g.dreg j.toNat + 1) g.d) := fun _ => rfl
      simp only [this, get_set, Option.map_some, Option.some.injEq]
      by_cases hj : j.toNat = k
      · rw [if_pos hj.symm, if_pos hj, hj]
      · rw [if_neg (fun c => hj c.symm), if_neg hj]; rfl

/-- What beginning an outstanding instruction leaves in the group. -/
theorem began_begin (s : State) (m : Member) (sh : Shape) (ll : Ll) (act : Lanes) (p : Pend) :
    Began (m.group s) ((m.begun s sh).begin ll act p).1 m.lanes act ll p := by
  have hk : freeKey (m.begun s sh).pend = freeKey (m.group s).pend := begun_freeKey s m sh
  obtain ⟨h1, h2⟩ := pends_of_begun (KeepsPends.refl (m.begun s sh))
  by_cases h : act = 0
  · have e : ((m.begun s sh).begin ll act p).1 = m.begun s sh := by unfold Group.begin; simp only [h, if_true]
    rw [e]
    exact ⟨begun_eq _ _ _, fun c => absurd h c, fun id _ => h1 id, h2, fun k => by rw [if_neg (fun c => c.1 h), begun_dreg]⟩
  · have e : ((m.begun s sh).begin ll act p).1 = { m.begun s sh with
        d := ((m.begun s sh).begin ll act p).1.d
        pend := put (freeKey (m.group s).pend) { p with lanes := act, all := act, la := ll.la.toNat, dc := ll.dc } (m.begun s sh).pend } := by
      unfold Group.begin
      simp only [h, if_false, hk]
      cases ll.dc <;> rfl
    have ep : ((m.begun s sh).begin ll act p).1.pend =
        put (freeKey (m.group s).pend) { p with lanes := act, all := act, la := ll.la.toNat, dc := ll.dc } (m.begun s sh).pend := by
      rw [e]
    refine ⟨?_, ?_, ?_, ?_, ?_⟩
    · rw [e, begun_eq]
    · intro _; rw [ep, find_put, if_pos rfl]
    · intro id hid
      rw [ep, find_put, if_neg (hid.resolve_right h)]
      exact h1 id
    · intro id a b i ha hb hi hl hm
      rw [ep, find_put] at hb
      by_cases hid : id = freeKey (m.group s).pend
      · subst hid; rw [find_freeKey] at ha; exact absurd ha (by simp)
      · rw [if_neg hid] at hb; exact h2 id a b i ha hb hi hl hm
    · intro k; rw [dreg_begin, begun_dreg]

/-- A long-latency instruction that will write one vector register. -/
theorem vecLl_does (h : Sole s c x m) (g : Guard) (ll : Ll) (top : Nat) (d : VReg) (f : Group → Nat → Word × Flags)
    (hc : m.canCount s g ll) (hf : ∀ sh, f (m.begun s sh) = f (m.group s)) (ht : top ≤ (m.group s).n)
    (hd : d.toNat < (m.group s).n) :
    DoesLl s c x m g ll (.next (s.vecLl g ll top d (fun _ => f))) d (f (m.group s)) := by
  have hg := begun_group h { g := g, top := maxOf [top, d.toNat + 1], ll := some ll }
  obtain ⟨ha, hm⟩ := run_group h { g := g, top := maxOf [top, d.toNat + 1], ll := some ll }
    (fun e s =>
      let gr := e.group s
      let h := e.act &&& ~~~gr.helper
      .go (e.begin s ll { Pend.zero with
        vw := vWrites d.toNat e.act (fun i => (f gr i).1)
        flags := (lanesOf h).foldl (fun x i => x ||| (f gr i).2) 0 }))
    (fun gr => (gr.begin ll (m.active s g) { Pend.zero with
        vw := vWrites d.toNat (m.active s g) (fun i => (f (m.group s) i).1)
        flags := (lanesOf (m.active s g &&& ~~~(m.group s).helper)).foldl (fun x i => x ||| (f (m.group s) i).2) 0 }).1)
    (by intro l hl; cases hl; exact hc) (by simp [State.roomFor]) rfl (atLeast_user _) (maxOf_le (by simp; omega))
    (by
      have e1 : (s.env c x m g).group (s.begun { g := g, top := maxOf [top, d.toNat + 1], ll := some ll } c x m) =
        m.begun s { g := g, top := maxOf [top, d.toNat + 1], ll := some ll } := hg
      simp only [e1, hf]
      rfl)
    (by rw [begin_calls]; exact begun_calls h _)
  exact ⟨_, _, rfl, ha, began_begin s m _ ll _ _, hm⟩

end shapes

end Sys2Proof.Machine
end

