-- ==== Sys2Proof/Laws/Memory.lean ====
section
/-!
SUPPORT. What accesses to memory and to shares may change, said once for each operation (Touched), and that the
operations keep memory in canonical form.
-/
namespace Sys2Proof.Machine

namespace Touched

variable {b : Bool} {s t u : State}

theorem refl (b : Bool) (s : State) : Touched b s s :=
  ⟨rfl, rfl, fun _ => rfl, fun _ => rfl, fun _ _ => ⟨rfl, rfl, rfl⟩, fun _ _ => rfl, fun _ _ => rfl⟩

theorem trans (h : Touched b s t) (k : Touched b t u) : Touched b s u := by
  refine ⟨?_, ?_, fun n => ?_, fun n => ?_, fun hb n => ?_, fun n g => ?_, fun n g => ?_⟩
  · rw [k.rest, h.rest]
  · rw [k.dev, h.dev]
  · rw [k.core n, h.core n]
  · rw [k.team n, h.team n]
  · have a := h.shares hb n; have c := k.shares hb n
    exact ⟨c.1.trans a.1, c.2.1.trans a.2.1, c.2.2.trans a.2.2⟩
  · rw [k.group n g, h.group n g]
  · rw [k.has n g, h.has n g]

theorem weaken (h : Touched false s t) : Touched b s t :=
  ⟨h.rest, h.dev, h.core, h.team, fun _ => h.shares rfl, h.group, h.has⟩

/-- A change outside cores, teams and the device. -/
theorem of_rest (t : State) (h : t = { s with
    mem := t.mem, lines := t.lines, homeOld := t.homeOld, frameOld := t.frameOld, l2 := t.l2, mids := t.mids, parts := t.parts
    ports := t.ports, frames := t.frames, batches := t.batches, fills := t.fills, traces := t.traces, recorded := t.recorded
    writers := t.writers }) :
    Touched b s t := by
  have hc : t.cores = s.cores := by rw [h]
  have ht : t.teams = s.teams := by rw [h]
  have hd : t.dev = s.dev := by rw [h]
  have tm : ∀ n, t.team n = s.team n := fun n => by unfold State.team; rw [ht]
  have cr : ∀ n, t.core n = s.core n := fun n => by unfold State.core; rw [hc]
  have gr : ∀ n k, t.group n k = s.group n k := fun n k => by unfold State.group; rw [tm]
  refine ⟨?_, ?_, fun k => ?_, fun n => ?_, fun _ n => ?_, fun n k => ?_, fun n k => ?_⟩
  · rw [h]
  · rw [hd]
  · rw [cr k]
  · rw [tm n]
  · rw [tm n]; exact ⟨rfl, rfl, rfl⟩
  · rw [gr n k]
  · rw [ht, tm n]

theorem datum (h : Touched b s t) : t.dev.datum = s.dev.datum := by rw [h.dev]

theorem of_mem (s : State) (m : SMap Byte) : Touched b s { s with mem := m } := of_rest _ rfl

theorem of_recorded (s : State) (x : SMap Recorded) : Touched b s { s with recorded := x } := of_rest _ rfl

theorem of_traces (s : State) (x : SMap Trace) : Touched b s { s with traces := x } := of_rest _ rfl

theorem of_logs (s : State) (x : SMap Trace) (y : SMap (SMap Nat)) : Touched b s { s with traces := x, writers := y } :=
  of_rest _ rfl

theorem onCore (s : State) (c : Nat) (f : Core → Core)
    (h : ∀ k, f k = { k with l1 := (f k).l1, tlb := (f k).tlb, dmrunc := (f k).dmrunc, dmrcmp := (f k).dmrcmp }) : Touched b s (s.onCore c f) := by
  refine ⟨rfl, rfl, fun k => ?_, fun _ => rfl, fun _ _ => ⟨rfl, rfl, rfl⟩, fun _ _ => rfl, fun _ _ => rfl⟩
  rw [State.core_onCore]
  split
  · rename_i e; subst e; exact h _
  · rfl

theorem onGts (s : State) (n k : Nat) (f : Group → Group) (h : ∀ g, f g = { g with gts := (f g).gts }) :
    Touched b s (s.onGroup n k f) := by
  refine ⟨rfl, rfl, fun k => rfl, fun i => ?_, fun _ i => ?_, fun i j => ?_, fun i j => has_onGroup s n k i j f⟩
  · unfold State.onGroup; rw [State.team_onTeam]; split
    · rename_i e; obtain ⟨rfl, _⟩ := e; rfl
    · rfl
  · unfold State.onGroup; rw [State.team_onTeam]; split
    · rename_i e; obtain ⟨rfl, _⟩ := e; exact ⟨rfl, rfl, rfl⟩
    · exact ⟨rfl, rfl, rfl⟩
  · rw [State.group_onGroup]; split
    · exact h _
    · rfl

theorem ite {c : Prop} [Decidable c] (h : Touched b s t) (k : Touched b s u) : Touched b s (if c then t else u) := by
  split
  · exact h
  · exact k

theorem raisePts (s : State) (a : Agent) (t : Nat) : Touched b s (s.raisePts a t) := onGts s _ _ _ (fun _ => rfl)

theorem setLine (s : State) (l : Nat) (x : Line) : Touched b s (s.setLine l x) := of_rest _ rfl

theorem foldl {α : Type} (f : State → α → State) (h : ∀ s x, Touched b s (f s x)) (l : List α) (s : State) :
    Touched b s (l.foldl f s) := by
  induction l generalizing s with
  | nil => exact refl b s
  | cons x l ih => exact (h s x).trans (ih _)

theorem rekey (s : State) (key l : Nat) : Touched b s (s.rekey key l) := by
  unfold State.rekey
  simp only []
  split
  · exact refl b s
  · split
    · exact setLine _ _ _
    · exact (of_mem s _).trans (setLine _ _ _)

theorem soil (s : State) (l : Nat) : Touched b s (s.soil l) := by
  unfold State.soil
  exact ite (of_rest _ rfl) (refl b s)

theorem plainWrite (s : State) (key a n v : Nat) : Touched b s (s.plainWrite key a n v) := by
  unfold State.plainWrite
  exact ite ((rekey s _ _).trans ((of_mem _ _).trans (setLine _ _ _))) ((rekey s _ _).trans (of_mem _ _))

theorem writeKey (s : State) (key a n v : Nat) : Touched b s (s.writeKey key a n v) :=
  (soil s _).trans (plainWrite _ _ _ _ _)

/-- A change of the device's log and of its mark that timestamps ran out. -/
theorem onDev (s : State) (f : Device → Device) (h : ∀ d, f d = { d with log := (f d).log, exhausted := (f d).exhausted }) :
    Touched b s (s.onDev f) :=
  ⟨rfl, h _, fun _ => rfl, fun _ => rfl, fun _ _ => ⟨rfl, rfl, rfl⟩, fun _ _ => rfl, fun _ _ => rfl⟩

theorem logHalt (s : State) (c : Nat) : Touched b s (s.logHalt c) := by
  unfold State.logHalt
  exact onDev s _ (fun _ => rfl)

theorem checkTime (s : State) (t : Nat) : Touched b s (s.checkTime t) := by
  unfold State.checkTime
  refine ite (Touched.trans ?_ (of_rest _ rfl)) (refl b s)
  exact (logHalt s _).trans (onDev _ _ (fun _ => rfl))

theorem homeClock (s : State) (a : Agent) (l : Nat) : Touched b s (s.homeClock a l) :=
  ((setLine s _ _).trans (raisePts _ _ _)).trans (checkTime _ _)

theorem allotFrame (s : State) (r : Nat) (may : Nat → Bool) : Touched b s ((s.allotFrame r may).getD s) := by
  unfold State.allotFrame
  dsimp only
  split
  · exact refl b s
  · split
    · exact of_rest _ rfl
    · split
      · exact refl b s
      · exact of_rest _ rfl

theorem demandSector (s : State) (c n : Nat) : Touched b s (s.demandSector c n) := by
  unfold State.demandSector
  dsimp only
  split
  · exact refl b s
  · split
    · exact (allotFrame s _ _).trans (of_rest _ rfl)
    · exact (allotFrame s _ _).trans (of_rest _ rfl)

theorem demand (s : State) (c : Nat) (p : Spot) : Touched b s (s.demand c p) := by
  unfold State.demand
  split
  · exact ite (of_rest _ rfl) (refl b s)
  · exact demandSector _ _ _

theorem demandLine (s : State) (c l : Nat) : Touched b s (s.demandLine c l) := ite (demand s _ _) (refl b s)

/-- A group's own access holds no translation of an operation (R350). -/
theorem walked (s : State) (a : Agent) (va : Word) (p : Spot) (h : a.op = none) : Touched b s (s.walked a va p) := by
  unfold State.walked
  have hh : ∀ t : State, t.holdLeaf a.op (tlbKey a.ctx va) p.leaf = t := by
    intro t; unfold State.holdLeaf; rw [h]
  dsimp only
  rw [hh]
  split
  · exact demand s _ _
  · refine (((demand s _ _).trans (foldl _ (fun s l => (demandLine s _ l).trans (homeClock _ a l)) _ _)).trans
      (of_rest _ rfl)).trans (onCore _ _ _ (fun _ => rfl))

theorem fillL1 (s : State) (a : Agent) (cls l : Nat) : Touched b s (s.fillL1 a cls l) := by
  unfold State.fillL1
  simp only []
  split
  · split
    · exact (onCore s _ _ (fun _ => rfl)).trans (setLine _ _ _)
    · exact ((onCore s _ _ (fun _ => rfl)).trans (onCore _ _ _ (fun _ => rfl))).trans (setLine _ _ _)
  · exact onCore s _ _ (fun _ => rfl)

theorem showReplay (s : State) : Touched b s s.showReplay := by
  unfold State.showReplay
  exact (writeKey s _ _ _ _).trans (writeKey _ _ _ _ _)

theorem logPair (s : State) (a : Agent) (k : Nat) (p : Nat × Nat × Nat × Nat) (o t : Nat) :
    Touched b s (s.logPair a k p o t) := by
  unfold State.logPair
  simp only []
  split
  · exact refl b s
  · split
    · exact (of_traces s _).trans (showReplay _)
    · exact ((writeKey s _ _ _ _).trans (of_logs _ _ _)).trans
        (showReplay _)

theorem note (s : State) (a : Agent) (key : Nat) (ld st : Bool) (t : Nat) : Touched b s (s.note a key ld st t) := by
  unfold State.note
  simp only []
  have h1 : ∀ (r : Recorded) (k o : Nat), Touched b s (match r.store with
      | some x => s.logPair a k x o t
      | none => s) := by
    intro r k o; split
    · exact logPair _ _ _ _ _ _
    · exact refl b s
  split
  · split
    · exact ((h1 _ _ _).trans (foldl _ (fun s x => logPair s _ _ _ _ _) _ _)).trans (of_recorded _ _)
    · split
      · split
        · exact (h1 _ _ _).trans (of_recorded _ _)
        · refine Touched.trans ?_ (of_recorded _ _)
          split
          · exact (h1 _ _ _).trans (logPair _ _ _ _ _ _)
          · exact h1 _ _ _
      · exact h1 _ _ _
  · split
    · exact of_rest _ rfl
    · exact refl b s

theorem land (s : State) (p n : Nat) : Touched b s (s.land p n) :=
  (foldl _ (fun s (w : Nat × Nat × Nat) => plainWrite s 0 w.1 w.2.1 w.2.2) _ _).trans (of_rest _ rfl)

theorem landBefore (s : State) (addr : Nat) : Touched b s (s.landBefore addr) := by
  unfold State.landBefore
  split
  · exact refl b s
  · exact land s _ _

theorem postWrite (s : State) (addr n v : Nat) : Touched b s (s.postWrite addr n v) := by
  unfold State.postWrite
  split
  · exact plainWrite _ _ _ _ _
  · exact of_rest _ rfl

theorem load (s : State) (a : Agent) (u1 : Bool) (cls addr n : Nat) : Touched b s (s.load a u1 cls addr n).2 := by
  unfold State.load
  simp only []
  split
  · exact landBefore s _
  · split
    · exact refl b s
    · split
      · dsimp only
        exact (raisePts s _ _).trans (onCore _ _ _ (fun _ => rfl))
      · split
        · exact ((homeClock s _ _).trans (fillL1 _ _ _ _)).trans (note _ _ _ _ _ _)
        · exact (homeClock s _ _).trans (note _ _ _ _ _ _)

theorem pushCores (s : State) (cs : List Nat) (l t : Nat) : Touched b s (s.pushCores cs l t) :=
  foldl _ (fun s _ => onCore s _ _ (fun _ => rfl)) _ _

theorem storeAt (s : State) (a : Agent) (cls addr n v t : Nat) : Touched b s (s.storeAt a cls addr n v t) := by
  unfold State.storeAt
  dsimp only
  split
  · exact postWrite s _ _ _
  · split
    · exact writeKey _ _ _ _ _
    · exact (((writeKey s _ _ _ _).trans (setLine _ _ _)).trans (pushCores _ _ _ _)).trans (checkTime _ _)

theorem store (s : State) (a : Agent) (cls addr n v : Nat) : Touched b s (s.store a cls addr n v) := by
  unfold State.store
  simp only []
  split
  · exact storeAt _ _ _ _ _ _ _
  · exact ((storeAt s _ _ _ _ _ _).trans (raisePts _ _ _)).trans (note _ _ _ _ _ _)

theorem rmw (s : State) (a : Agent) (cls addr n : Nat) (f : Nat → Nat) : Touched b s (s.rmw a cls addr n f).2 := by
  unfold State.rmw
  exact ((storeAt s _ _ _ _ _ _).trans (raisePts _ _ _)).trans (note _ _ _ _ _ _)

theorem deviceStore (s : State) (addr n v : Nat) : Touched b s (s.deviceStore addr n v) :=
  (((writeKey s _ _ _ _).trans (setLine _ _ _)).trans (pushCores _ _ _ _)).trans (checkTime _ _)

/-! ### The share -/

theorem onTeam (s : State) (n : Nat) (f : Team → Team)
    (h : ∀ t, f t = { t with scratch := (f t).scratch, clocks := (f t).clocks, bad := (f t).bad }) :
    Touched true s (s.onTeam n f) := by
  have g : ∀ t, (f t).groups = t.groups := fun t => by rw [h t]
  refine ⟨rfl, rfl, fun k => rfl, fun i => ?_, fun hb => absurd hb (by simp), fun i j => ?_, fun i j => ?_⟩
  · rw [State.team_onTeam]; split
    · rename_i e; obtain ⟨rfl, _⟩ := e; rw [h (s.team i)]
    · rfl
  · unfold State.group; rw [State.team_onTeam]; split
    · rename_i e; obtain ⟨rfl, _⟩ := e
      show (f (s.team i)).group j = _
      unfold Team.group; rw [g]
    · rfl
  · have e1 : (find i (s.onTeam n f).teams).isSome = (find i s.teams).isSome := by
      show (find i (adjust n _ s.teams)).isSome = _
      rw [find_adjust]; split <;> simp
    rw [e1, State.team_onTeam]; split
    · rw [g]
    · rfl

theorem setClock (t : Team) (l : Nat) (c : Nat × Nat) : (t.setClock l c).scratch = t.scratch ∧
    (t.setClock l c).bad = t.bad ∧ t.setClock l c = { t with clocks := (t.setClock l c).clocks } := ⟨rfl, rfl, rfl⟩

theorem write_rest (t : Team) (a n v : Nat) : t.write a n v = { t with
    scratch := (t.write a n v).scratch, bad := (t.write a n v).bad } := by
  unfold Team.write; simp only []; split <;> rfl

theorem sload (s : State) (a : Agent) (tm off n : Nat) : Touched true s (s.sload a tm off n).2 := by
  unfold State.sload
  exact (((onTeam s _ _ (fun _ => rfl)).trans (raisePts _ _ _)).trans (checkTime _ _)).trans (note _ _ _ _ _ _)

theorem sstore (s : State) (a : Agent) (tm off n v : Nat) : Touched true s (s.sstore a tm off n v) := by
  unfold State.sstore
  exact (((onTeam s _ _ (fun t => by rw [write_rest]; rfl)).trans (raisePts _ _ _)).trans (checkTime _ _)).trans
    (note _ _ _ _ _ _)

theorem srmw (s : State) (a : Agent) (tm off n : Nat) (f : Nat → Nat) : Touched true s (s.srmw a tm off n f).2 := by
  unfold State.srmw
  exact (((onTeam s _ _ (fun t => by rw [write_rest]; rfl)).trans (raisePts _ _ _)).trans (checkTime _ _)).trans
    (note _ _ _ _ _ _)

end Touched

/-! ### Canonical form -/

theorem wf_setLine (s : State) (l : Nat) (x : Line) : (s.setLine l x).mem = s.mem := rfl

theorem wf_rekey (s : State) (key l : Nat) (h : Memory.wf s.mem = true) : Memory.wf (s.rekey key l).mem = true := by
  unfold State.rekey
  simp only []
  split
  · exact h
  · split
    · exact h
    · exact wf_writeN _ _ _ _ h

theorem wf_plainWrite (s : State) (key a n v : Nat) (h : Memory.wf s.mem = true) :
    Memory.wf (s.plainWrite key a n v).mem = true := by
  unfold State.plainWrite
  simp only []
  split <;> exact wf_writeN _ _ _ _ (wf_rekey s key _ h)

/-- Every write to memory under a key keeps its canonical form. -/
theorem wf_writeKey (s : State) (key a n v : Nat) (h : Memory.wf s.mem = true) :
    Memory.wf (s.writeKey key a n v).mem = true := by
  refine wf_plainWrite _ key a n v ?_
  unfold State.soil
  split <;> exact h

/-- So does every posted write that arrives (R106). -/
theorem wf_land (s : State) (p n : Nat) (h : Memory.wf s.mem = true) : Memory.wf (s.land p n).mem = true := by
  have : ∀ (ws : List (Nat × Nat × Nat)) (t : State), Memory.wf t.mem = true →
      Memory.wf (ws.foldl (fun s w => s.plainWrite 0 w.1 w.2.1 w.2.2) t).mem = true := by
    intro ws
    induction ws with
    | nil => exact fun _ h => h
    | cons w ws ih => exact fun t ht => ih _ (wf_plainWrite t 0 w.1 w.2.1 w.2.2 ht)
  exact this _ s h

/-- And so does what is discarded without a write back (R363, R371). -/
theorem wf_discardAll (s : State) (h : Memory.wf s.mem = true) : Memory.wf s.discardAll.mem = true := by
  have back : ∀ (ls : SMap Below) (t : State), Memory.wf t.mem = true → Memory.wf (ls.foldl (fun (s : State) e =>
      { s with mem := writeN s.mem (e.1 * 64) 64 e.2.data.toNat }.setLine e.1
        { s.line e.1 with key := e.2.key, poison := e.2.poison }) t).mem = true := by
    intro ls
    induction ls with
    | nil => exact fun _ h => h
    | cons e ls ih => exact fun t ht => ih _ (wf_writeN _ _ _ _ ht)
  exact back _ _ (back _ s h)

end Sys2Proof.Machine
end

