-- ==== Sys2Proof/Laws/Loads.lean ====
section
/-!
SUPPORT. Loads see memory: from a state on, whatever an agent has loaded before, its next load translates alike and answers
what memory held, where its L1 copies held that too; with that, a run of words or bytes that the device can load is loaded.
-/
namespace Sys2Proof.Machine

theorem mem_of_find {α : Type} {k : Nat} {x : α} : ∀ {m : SMap α}, find k m = some x → (k, x) ∈ m
  | (j, v) :: m, h => by
    unfold find at h
    split at h
    · next e => cases h; rw [e]; exact List.mem_cons_self
    · exact List.mem_cons_of_mem _ (mem_of_find h)

theorem mem_trimTo {α : Type} {n k : Nat} {m : SMap α} {e : Nat × α} (h : e ∈ trimTo n k m) : e ∈ m := by
  unfold trimTo at h
  split at h
  · exact h
  · exact List.mem_of_mem_eraseIdx h

theorem get_put_mem {α : Type} {k j : Nat} {d v : α} {m : SMap α} : get d j (put k v m) = v ∧ j = k ∨ get d j (put k v m) = get d j m := by
  rw [get_put]
  split
  · next h => exact .inl ⟨rfl, h⟩
  · exact .inr rfl

/-- A line's state after one is written. -/
theorem line_setLine (s : State) (l j : Nat) (x : Line) : (s.setLine l x).line j = if j = l then x else s.line j := by
  show get (Line.at (s.floor j)) j (set (Line.at (s.floor l)) l x s.lines) = _
  by_cases h : j = l
  · subst h
    rw [get_set, if_pos rfl, if_pos rfl]
  · rw [if_neg h]
    have : find j (set (Line.at (s.floor l)) l x s.lines) = find j s.lines := by
      unfold set
      split
      · rw [find_del, if_neg h]
      · rw [find_put, if_neg h]
    unfold get
    rw [this]
    rfl

/-! ### What translations and reads depend on -/

/-- Nothing that a walk or a read of memory depends on differs. -/
structure Alike (s t : State) : Prop where
  rest : t = { s with
    cores := t.cores, teams := t.teams, lines := t.lines, l2 := t.l2, mids := t.mids, parts := t.parts, frames := t.frames
    frameOld := t.frameOld, batches := t.batches, fills := t.fills, dev := t.dev }
  dev : t.dev = { s.dev with log := t.dev.log, exhausted := t.dev.exhausted }
  line : ∀ l, (t.line l).key = (s.line l).key ∧ (t.line l).poison = (s.line l).poison

namespace Alike

variable {s t u : State}

theorem refl (s : State) : Alike s s := ⟨rfl, rfl, fun _ => ⟨rfl, rfl⟩⟩

theorem trans (h : Alike s t) (k : Alike t u) : Alike s u := by
  refine ⟨?_, ?_, fun l => ⟨(k.line l).1.trans (h.line l).1, (k.line l).2.trans (h.line l).2⟩⟩
  · rw [k.rest, h.rest]
  · rw [k.dev, h.dev]

theorem mem (h : Alike s t) : t.mem = s.mem := by rw [h.rest]

theorem fresh (h : Alike s t) : t.fresh = s.fresh := by rw [h.rest]

theorem datum (h : Alike s t) : t.dev.datum = s.dev.datum := by rw [h.dev]

theorem ctx (h : Alike s t) (c : Nat) : t.ctx c = s.ctx c := by unfold State.ctx; rw [h.rest]

theorem readKey (h : Alike s t) (k x n : Nat) : t.readKey k x n = s.readKey k x n := by
  unfold State.readKey
  rw [(h.line _).1, h.mem, h.dev, h.fresh]

theorem entry (h : Alike s t) (l b i : Nat) : t.entry l b i = s.entry l b i := by
  unfold State.entry
  simp only []
  rw [h.readKey, show t.dev.platform = s.dev.platform by rw [h.dev]]

theorem inBound (h : Alike s t) (c x : Nat) : t.inBound c x = s.inBound c x := by
  unfold State.inBound State.devBytes State.allotBytes
  rw [show t.dev.config = s.dev.config by rw [h.dev]]

theorem blockEntry (h : Alike s t) (va : Word) (l b i : Nat) : t.blockEntry va l b i = s.blockEntry va l b i := by
  unfold State.blockEntry
  simp only [h.entry, h.fresh]

theorem walkLevel (h : Alike s t) (c : Nat) (va : Word) (l loc b k : Nat) (next : Option (Nat → Nat → Walk)) :
    t.walkLevel c va l loc b k next = s.walkLevel c va l loc b k next := by
  unfold State.walkLevel
  simp only [h.entry, h.inBound, h.blockEntry]

theorem walkFrom (h : Alike s t) (c : Nat) (va : Word) (k : Nat) : ∀ l, t.walkFrom c va k l = s.walkFrom c va k l
  | 0 => by funext x b; unfold State.walkFrom; exact h.walkLevel c va 0 x b k none
  | l + 1 => by funext x b; unfold State.walkFrom; rw [walkFrom h c va k l, h.walkLevel]

theorem tableLeaf (h : Alike s t) (c : Nat) (va : Word) : t.tableLeaf c va = s.tableLeaf c va := by
  unfold State.tableLeaf
  rw [h.walkFrom, h.ctx]

theorem keyOf (h : Alike s t) (c : Nat) : t.keyOf c = s.keyOf c := by
  unfold State.keyOf
  rw [h.ctx, h.dev]

theorem hostLost (h : Alike s t) (c x : Nat) : t.hostLost c x = s.hostLost c x := by
  unfold State.hostLost State.portOf
  rw [show t.ports = s.ports by rw [h.rest], h.dev]

theorem poisoned (h : Alike s t) (k l : Nat) : t.poisoned k l = s.poisoned k l := by
  unfold State.poisoned
  rw [h.readKey, (h.line l).2]

theorem recording (h : Alike s t) (c : Nat) : t.recording c = s.recording c := by
  unfold State.recording State.trace0
  rw [show t.traces = s.traces by rw [h.rest]]

theorem replaying (h : Alike s t) (c : Nat) : t.replaying c = s.replaying c := by
  unfold State.replaying State.trace0
  rw [show t.traces = s.traces by rw [h.rest]]

theorem lineData (h : Alike s t) (c l : Nat) : t.lineData c l = s.lineData c l := by
  unfold State.lineData
  rw [h.readKey, h.keyOf]

theorem owned (h : Alike s t) (l : Nat) : t.owned l = s.owned l := by
  unfold State.owned State.ownedBut State.untrained
  rw [show t.ops = s.ops by rw [h.rest], h.dev]

/-- A line's clocks and sharers set. -/
theorem setLine (s : State) (l : Nat) (x : Line) (k : x.key = (s.line l).key) (p : x.poison = (s.line l).poison) :
    Alike s (s.setLine l x) := by
  refine ⟨rfl, rfl, fun j => ?_⟩
  rw [line_setLine]
  split
  · next h => rw [h]; exact ⟨k, p⟩
  · exact ⟨rfl, rfl⟩

theorem raisePts (s : State) (a : Agent) (n : Nat) : Alike s (s.raisePts a n) := ⟨rfl, rfl, fun _ => ⟨rfl, rfl⟩⟩

theorem onCore (s : State) (c : Nat) (f : Core → Core) : Alike s (s.onCore c f) := ⟨rfl, rfl, fun _ => ⟨rfl, rfl⟩⟩

theorem checkTime (s : State) (n : Nat) : Alike s (s.checkTime n) := by
  unfold State.checkTime
  split
  · exact ⟨rfl, rfl, fun _ => ⟨rfl, rfl⟩⟩
  · exact refl s

theorem homeClock (s : State) (a : Agent) (l : Nat) : Alike s (s.homeClock a l) := by
  unfold State.homeClock
  simp only []
  refine Alike.trans (Alike.trans (setLine s l _ ?_ ?_) (raisePts _ _ _)) (checkTime _ _) <;> rfl

end Alike

/-! ### The page cache -/

/-- Only what the page cache holds differs. -/
def Paged (s t : State) : Prop :=
  t = { s with frames := t.frames, frameOld := t.frameOld, batches := t.batches, fills := t.fills }

namespace Paged

variable {s t u : State}

theorem refl (s : State) : Paged s s := rfl

theorem trans (h : Paged s t) (k : Paged t u) : Paged s u := by
  unfold Paged at *
  rw [k, h]

theorem allotFrame (s : State) (r : Nat) (may : Nat → Bool) : Paged s ((s.allotFrame r may).getD s) := by
  unfold State.allotFrame
  dsimp only
  split
  · exact refl s
  · split
    · rfl
    · split
      · exact refl s
      · rfl

theorem demandSector (s : State) (c n : Nat) : Paged s (s.demandSector c n) := by
  unfold State.demandSector
  dsimp only
  split
  · exact refl s
  · split
    · exact (allotFrame s _ _).trans rfl
    · exact (allotFrame s _ _).trans rfl

theorem demand (s : State) (c : Nat) (p : Spot) : Paged s (s.demand c p) := by
  unfold State.demand
  split
  · split
    · rfl
    · exact refl s
  · exact demandSector _ _ _

theorem demandLine (s : State) (c l : Nat) : Paged s (s.demandLine c l) := by
  unfold State.demandLine
  split
  · exact demand s _ _
  · exact refl s

theorem alike (h : Paged s t) : Alike s t := by
  unfold Paged at h
  exact ⟨by rw [h], by rw [h], fun l => by rw [h]; exact ⟨rfl, rfl⟩⟩

theorem cores (h : Paged s t) : t.cores = s.cores := by rw [show t = _ from h]
theorem l2 (h : Paged s t) : t.l2 = s.l2 := by rw [show t = _ from h]
theorem mids (h : Paged s t) : t.mids = s.mids := by rw [show t = _ from h]

end Paged

/-! ### Timestamps far from the last -/

/-- Timestamps are bounded so that no load comes near the last one (R96); with the partitions as they stand then. -/
structure State.Calm (s : State) (n : Nat) (ps : SMap Part) : Prop where
  room : n + 4096 ≤ Config.maxTime
  live : s.dev.exhausted = false
  parts : s.parts = ps
  line : ∀ l, (s.line l).wts ≤ n ∧ (s.line l).rts ≤ n + 4096
  pts : ∀ t g, (s.group t g).gts ≤ n
  copy : ∀ c, ∀ e ∈ (s.core c).l1, e.2.wts ≤ n

namespace State.Calm

variable {s t : State} {n : Nat} {ps : SMap Part}

theorem checkTime (h : s.Calm n ps) {k : Nat} (b : k ≤ n + 4096) : (s.checkTime k).Calm n ps := by
  unfold State.checkTime
  rw [if_neg (by have := h.room; omega)]
  exact h

theorem setLine (h : s.Calm n ps) (l : Nat) (x : Line) (b : x.wts ≤ n ∧ x.rts ≤ n + 4096) : (s.setLine l x).Calm n ps := by
  refine ⟨h.room, h.live, h.parts, fun j => ?_, h.pts, h.copy⟩
  rw [line_setLine]
  split
  · exact b
  · exact h.line j

theorem raisePts (h : s.Calm n ps) (a : Agent) {k : Nat} (b : k ≤ n) : (s.raisePts a k).Calm n ps := by
  refine ⟨h.room, h.live, h.parts, h.line, fun t g => ?_, h.copy⟩
  unfold State.raisePts
  rw [State.group_onGroup]
  split
  · exact Nat.max_le.mpr ⟨h.pts _ _, b⟩
  · exact h.pts t g

theorem onCore (h : s.Calm n ps) (c : Nat) (f : Core → Core) (b : ∀ e ∈ (f (s.core c)).l1, e.2.wts ≤ n) : (s.onCore c f).Calm n ps := by
  refine ⟨h.room, h.live, h.parts, h.line, h.pts, fun d e => ?_⟩
  rw [State.core_onCore]
  split
  · exact b e
  · exact h.copy d e

theorem homeClock (h : s.Calm n ps) (a : Agent) (l : Nat) : (s.homeClock a l).Calm n ps := by
  have p := h.pts a.team a.grp
  have w := h.line l
  have q : s.lease a.ctx ≤ 4096 := Nat.min_le_right _ _
  have r : Nat.max (s.line l).rts (s.pts a + s.lease a.ctx) ≤ n + 4096 := Nat.max_le.mpr ⟨w.2, by unfold State.pts; omega⟩
  unfold State.homeClock
  simp only []
  exact ((h.setLine l { s.line l with rts := Nat.max (s.line l).rts (s.pts a + s.lease a.ctx) } ⟨w.1, r⟩).raisePts a (Nat.max_le.mpr ⟨p, w.1⟩)).checkTime r

theorem paged (h : s.Calm n ps) (p : Paged s t) : t.Calm n ps := by
  unfold Paged at p
  rw [p]
  exact ⟨h.room, h.live, h.parts, h.line, h.pts, h.copy⟩

end State.Calm

/-! ### Cores that a clock leaves alone -/

theorem cores_checkTime (s : State) (n : Nat) : (s.checkTime n).cores = s.cores := by
  unfold State.checkTime
  split <;> rfl

theorem l2_checkTime (s : State) (n : Nat) : (s.checkTime n).l2 = s.l2 := by
  unfold State.checkTime
  split <;> rfl

theorem mids_checkTime (s : State) (n : Nat) : (s.checkTime n).mids = s.mids := by
  unfold State.checkTime
  split <;> rfl

/-- Nothing that caches translations or lines differs. -/
def Cached (s t : State) : Prop := t.cores = s.cores ∧ t.l2 = s.l2 ∧ t.mids = s.mids

theorem Cached.homeClock (s : State) (a : Agent) (l : Nat) : Cached s (s.homeClock a l) := by
  unfold State.homeClock
  exact ⟨cores_checkTime _ _, l2_checkTime _ _, mids_checkTime _ _⟩

theorem Cached.paged {s t : State} (h : Paged s t) : Cached s t := ⟨h.cores, h.l2, h.mids⟩

theorem Cached.trans {s t u : State} (h : Cached s t) (k : Cached t u) : Cached s u :=
  ⟨k.1.trans h.1, k.2.1.trans h.2.1, k.2.2.trans h.2.2⟩

/-- The reads of a walk. -/
theorem walkReads (a : Agent) (c : Nat) (ls : List Nat) : ∀ s : State,
    Alike s (ls.foldl (fun s l => (s.demandLine c l).homeClock a l) s) ∧
    Cached s (ls.foldl (fun s l => (s.demandLine c l).homeClock a l) s) ∧
    ∀ n ps, s.Calm n ps → (ls.foldl (fun s l => (s.demandLine c l).homeClock a l) s).Calm n ps := by
  induction ls with
  | nil => exact fun s => ⟨Alike.refl s, ⟨rfl, rfl, rfl⟩, fun _ _ h => h⟩
  | cons l ls ih =>
    intro s
    have d := Paged.demandLine s c l
    obtain ⟨i, j, k⟩ := ih ((s.demandLine c l).homeClock a l)
    exact ⟨(d.alike.trans (Alike.homeClock _ a l)).trans i, ((Cached.paged d).trans (Cached.homeClock _ a l)).trans j,
      fun n ps h => k n ps ((h.paged d).homeClock a l)⟩

/-! ### One page, one leaf -/

theorem bits_high {va vb : Word} {k : Nat} (h : va.toNat / 2 ^ k = vb.toNat / 2 ^ k) (lo n : Nat) (hl : k ≤ lo) :
    bits va lo n = bits vb lo n := by
  unfold bits
  simp only [BitVec.extractLsb'_toNat, Nat.shiftRight_eq_div_pow]
  obtain ⟨j, rfl⟩ := Nat.exists_eq_add_of_le hl
  rw [Nat.pow_add, ← Nat.div_div_eq_div_mul, ← Nat.div_div_eq_div_mul, h]

theorem page_mod {x y : Nat} (h : x / 4096 = y / 4096) (k : Nat) : x % 2 ^ (12 + k) / 4096 = y % 2 ^ (12 + k) / 4096 := by
  rw [Nat.pow_add, show (2 ^ 12 : Nat) = 4096 from rfl, Nat.mod_mul_right_div_self, Nat.mod_mul_right_div_self, h]

theorem div_of_div {x y : Nat} {i j : Nat} (h : x / 2 ^ i = y / 2 ^ i) (l : i ≤ j) : x / 2 ^ j = y / 2 ^ j := by
  obtain ⟨k, rfl⟩ := Nat.exists_eq_add_of_le l
  rw [Nat.pow_add, ← Nat.div_div_eq_div_mul, ← Nat.div_div_eq_div_mul, h]

/-- Whether an entry of a level above the last names a table, and which (R345, R347). -/
def State.descends (s : State) (e : Word) : Option (Nat × Nat) :=
  if !e.getLsbD 0 || bits e 9 3 != 0 || bits e 52 12 != 0 then none
  else if e.getLsbD 1 then none
  else if e.getLsbD 2 || (bits e 6 3 != 0 && bits e 6 3 != 2) || !s.inBound (bits e 6 3) (bits e 12 40 * 4096) then none
  else some (classSpace (bits e 6 3), bits e 12 40 * 4096)

/-- The index of an address in a table above the last level. -/
def indexAt (va : Word) (level : Nat) : Nat := if level = 3 then bits va 39 18 else bits va (12 + 9 * level) 9

/-- A level of a walk that goes on below. -/
theorem State.walkLevel_down (s : State) (c : Nat) (va : Word) (level loc table tick : Nat) (next : Nat → Nat → Walk) {d : Nat × Nat}
    (h : s.descends (s.entry loc table (indexAt va (level + 1))).1 = some d) :
    (s.walkLevel c va (level + 1) loc table tick (some next)).leaf = (next d.1 d.2).leaf ∧
    (s.walkLevel c va (level + 1) loc table tick (some next)).mids =
      (midKey c (level + 1) va, { loc := d.1, table := d.2, tick := tick }) :: (next d.1 d.2).mids := by
  unfold State.descends at h
  unfold State.walkLevel
  simp only [Nat.add_one_ne_zero, if_false]
  rw [show (if level + 1 = 3 then bits va 39 18 else bits va (12 + 9 * (level + 1)) 9) = indexAt va (level + 1) from rfl]
  generalize s.entry loc table (indexAt va (level + 1)) = r at h ⊢
  constructor <;> split_ifs at h ⊢ <;> cases h <;> rfl

/-- A level of a walk that ends there. -/
theorem State.walkLevel_stop (s : State) (c : Nat) (va : Word) (level loc table t1 t2 : Nat) (n1 n2 : Nat → Nat → Walk)
    (h : s.descends (s.entry loc table (indexAt va (level + 1))).1 = none) :
    timeless (s.walkLevel c va (level + 1) loc table t1 (some n1)).leaf =
      timeless (s.walkLevel c va (level + 1) loc table t2 (some n2)).leaf ∧
    (s.walkLevel c va (level + 1) loc table t1 (some n1)).mids = [] := by
  unfold State.descends at h
  unfold State.walkLevel
  simp only [Nat.add_one_ne_zero, if_false]
  rw [show (if level + 1 = 3 then bits va 39 18 else bits va (12 + 9 * (level + 1)) 9) = indexAt va (level + 1) from rfl]
  generalize s.entry loc table (indexAt va (level + 1)) = r at h ⊢
  constructor <;> split_ifs at h ⊢ <;> rfl

/-- The last level. -/
theorem State.walkLevel_last (s : State) (c : Nat) (va : Word) (loc table t1 t2 : Nat) :
    timeless (s.walkLevel c va 0 loc table t1 none).leaf = timeless (s.walkLevel c va 0 loc table t2 none).leaf ∧
    (s.walkLevel c va 0 loc table t1 none).mids = [] := by
  unfold State.walkLevel
  dsimp only
  constructor <;> split_ifs <;> rfl

/-- The datum of a walk does not change what it finds. -/
theorem State.walkFrom_tick (s : State) (c : Nat) (va : Word) (t1 t2 : Nat) : ∀ L loc table,
    timeless (s.walkFrom c va t1 L loc table).leaf = timeless (s.walkFrom c va t2 L loc table).leaf
  | 0, loc, table => (s.walkLevel_last c va loc table t1 t2).1
  | L + 1, loc, table => by
    unfold State.walkFrom
    cases h : s.descends (s.entry loc table (indexAt va (L + 1))).1 with
    | none => exact (s.walkLevel_stop c va L loc table t1 t2 _ _ h).1
    | some d =>
      rw [(s.walkLevel_down c va L loc table t1 _ h).1, (s.walkLevel_down c va L loc table t2 _ h).1]
      exact walkFrom_tick s c va t1 t2 L d.1 d.2

/-- What a walk leaves in the walk cache leads every address that shares the entry to what the walk's table leads it to. -/
theorem State.walkFrom_mids (s : State) (c : Nat) (va : Word) (tick : Nat) : ∀ L loc table, L ≤ 3 →
    ∀ e ∈ (s.walkFrom c va tick L loc table).mids, ∃ l, 1 ≤ l ∧ l ≤ L ∧ e.1 = midKey c l va ∧
      ∀ vb : Word, vb.toNat / 2 ^ (12 + 9 * l) = va.toNat / 2 ^ (12 + 9 * l) →
        timeless (s.walkFrom c vb 0 L loc table).leaf = timeless (s.walkFrom c vb 0 (l - 1) e.2.loc e.2.table).leaf
  | 0, loc, table, _, e, he => by
    have := (s.walkLevel_last c va loc table tick tick).2
    unfold State.walkFrom at he
    rw [this] at he
    cases he
  | L + 1, loc, table, hL, e, he => by
    unfold State.walkFrom at he
    have same : ∀ vb : Word, vb.toNat / 2 ^ (12 + 9 * (L + 1)) = va.toNat / 2 ^ (12 + 9 * (L + 1)) → indexAt vb (L + 1) = indexAt va (L + 1) := by
      intro vb q
      unfold indexAt
      split
      · next h3 => rw [h3] at q; exact bits_high q 39 18 (by decide)
      · exact bits_high q _ _ (Nat.le_refl _)
    cases h : s.descends (s.entry loc table (indexAt va (L + 1))).1 with
    | none =>
      rw [(s.walkLevel_stop c va L loc table tick tick _ (s.walkFrom c va tick L) h).2] at he
      cases he
    | some d =>
      rw [(s.walkLevel_down c va L loc table tick _ h).2] at he
      rcases List.mem_cons.mp he with rfl | he
      · refine ⟨L + 1, by omega, Nat.le_refl _, rfl, fun vb q => ?_⟩
        have h' : s.descends (s.entry loc table (indexAt vb (L + 1))).1 = some d := by rw [same vb q]; exact h
        rw [State.walkFrom, (s.walkLevel_down c vb L loc table 0 _ h').1]
        rfl
      · obtain ⟨l, l1, l2, k, r⟩ := walkFrom_mids s c va tick L d.1 d.2 (by omega) e he
        refine ⟨l, l1, by omega, k, fun vb q => ?_⟩
        have h' : s.descends (s.entry loc table (indexAt vb (L + 1))).1 = some d := by
          rw [same vb (div_of_div q (by omega))]; exact h
        rw [State.walkFrom, (s.walkLevel_down c vb L loc table 0 _ h').1]
        exact r vb q

theorem State.blockEntry_page (s : State) {va vb : Word} (h : va.toNat / 4096 = vb.toNat / 4096) (loc table i : Nat) :
    s.blockEntry va loc table i = s.blockEntry vb loc table i := by
  unfold State.blockEntry
  rw [h]

theorem State.walkLevel_page (s : State) {va vb : Word} (h : va.toNat / 4096 = vb.toNat / 4096) (c l loc b k : Nat)
    (next : Option (Nat → Nat → Walk)) : s.walkLevel c va l loc b k next = s.walkLevel c vb l loc b k next := by
  have p : va.toNat / 2 ^ 12 = vb.toNat / 2 ^ 12 := h
  have q : midKey c l va = midKey c l vb := by unfold midKey; rw [div_of_div p (by omega : 12 ≤ 12 + 9 * l)]
  unfold State.walkLevel
  simp only [bits_high p 39 18 (by decide), bits_high p (12 + 9 * l) 9 (by omega), page_mod h, s.blockEntry_page h, q]

theorem State.walkFrom_page (s : State) {va vb : Word} (h : va.toNat / 4096 = vb.toNat / 4096) (c k : Nat) :
    ∀ l, s.walkFrom c va k l = s.walkFrom c vb k l
  | 0 => by funext x b; unfold State.walkFrom; exact s.walkLevel_page h c 0 x b k none
  | l + 1 => by funext x b; unfold State.walkFrom; rw [walkFrom_page s h c k l, s.walkLevel_page h]

theorem State.tableLeaf_page (s : State) {va vb : Word} (h : va.toNat / 4096 = vb.toNat / 4096) (c : Nat) :
    s.tableLeaf c va = s.tableLeaf c vb := by
  unfold State.tableLeaf
  rw [s.walkFrom_page h]

theorem page_of_tlbKey {c : Nat} {va vb : Word} (h : tlbKey c va = tlbKey c vb) : va.toNat / 4096 = vb.toNat / 4096 := by
  unfold tlbKey at h; omega

/-- Walk-cache keys tell levels and what they share of an address. -/
theorem midKey_eq {c l1 l2 : Nat} {va vb : Word} (_ : l1 ≤ 3) (_ : l2 ≤ 3) (h : midKey c l1 va = midKey c l2 vb) :
    l1 = l2 ∧ va.toNat / 2 ^ (12 + 9 * l1) = vb.toNat / 2 ^ (12 + 9 * l1) := by
  unfold midKey at h
  have a : va.toNat / 2 ^ (12 + 9 * l1) < 2 ^ 64 := Nat.lt_of_le_of_lt (Nat.div_le_self _ _) va.isLt
  have b : vb.toNat / 2 ^ (12 + 9 * l2) < 2 ^ 64 := Nat.lt_of_le_of_lt (Nat.div_le_self _ _) vb.isLt
  have e : l1 = l2 := by
    generalize va.toNat / 2 ^ (12 + 9 * l1) = x at a h
    generalize vb.toNat / 2 ^ (12 + 9 * l2) = y at b h
    omega
  subst e
  exact ⟨rfl, by omega⟩

/-! ### What the caches serve -/

/-- A walk that starts where the walk cache has it start finds what the table has. -/
theorem walk_current {s t : State} {core c : Nat} (h : Alike s t) (k : s.Current t core c) (va : Word) :
    timeless (t.walk core c va).leaf = s.tableLeaf c va ∧
    ∀ e ∈ (t.walk core c va).mids, ∀ l vb, 1 ≤ l → l ≤ 3 → e.1 = midKey c l vb →
      timeless (s.walkFrom c vb 0 (l - 1) e.2.loc e.2.table).leaf = s.tableLeaf c vb := by
  unfold State.walk
  cases hm : t.midFor core c va with
  | none =>
    simp only [h.walkFrom, h.ctx]
    refine ⟨(s.walkFrom_tick c va _ 0 3 _ _).trans rfl, fun e he l vb l1 l3 q => ?_⟩
    obtain ⟨j, j1, j3, r, w⟩ := s.walkFrom_mids c va _ 3 _ _ (Nat.le_refl _) e he
    obtain ⟨rfl, z⟩ := midKey_eq l3 j3 (q.symm.trans r)
    exact (w vb z).symm
  | some m =>
    have hf : 1 ≤ m.1 ∧ m.1 ≤ 3 ∧ (midKey c m.1 va, m.2) ∈ get [] (core / 8) t.mids := by
      unfold State.midFor at hm
      obtain ⟨lv, hl, he⟩ := List.exists_of_findSome?_eq_some hm
      split at he
      · cases he
      · next x hx =>
        split at he
        · cases he
          simp only [List.mem_cons, List.not_mem_nil, or_false] at hl
          exact ⟨by omega, by omega, mem_of_find hx⟩
        · cases he
    obtain ⟨m1, m3, mm⟩ := hf
    simp only [h.walkFrom]
    refine ⟨(s.walkFrom_tick c va _ 0 _ _ _).trans (k.mids _ mm m.1 va m1 m3 rfl), fun e he l vb l1 l3 q => ?_⟩
    obtain ⟨j, j1, j3, r, w⟩ := s.walkFrom_mids c va _ (m.1 - 1) _ _ (by omega) e he
    obtain ⟨rfl, z⟩ := midKey_eq l3 (by omega) (q.symm.trans r)
    rw [← w vb z]
    have : midKey c m.1 va = midKey c m.1 vb := by unfold midKey; rw [div_of_div z (by omega)]
    exact k.mids _ mm m.1 vb m1 m3 this

/-- The leaf that serves an address is the table's, from wherever it comes. -/
theorem leafFor_current {s t : State} {core c : Nat} (h : Alike s t) (k : s.Current t core c) (va : Word) :
    timeless (t.leafFor core c none va).1.leaf = s.tableLeaf c va := by
  have tl : ∀ kind (m : SMap Leaf) f, t.tlbLeaf kind (tlbKey c va) m = some f → (tlbKey c va, f) ∈ m := by
    intro kind m f hf
    unfold State.tlbLeaf at hf
    split at hf
    · next x hx =>
      split at hf
      · cases hf; exact mem_of_find hx
      · cases hf
    · cases hf
  unfold State.leafFor
  simp only [State.heldLeaf, Option.bind_none]
  split
  · next f hf => exact k.tlb _ (tl _ _ _ hf) va rfl
  · split
    · next f hf => exact k.l2 _ (tl _ _ _ hf) va rfl
    · exact (walk_current h k va).1

/-- A leaf that no cache serves is of a walk. -/
theorem leafFor_walks {s : State} {core c : Nat} {va : Word} (h : (s.leafFor core c none va).2 = true) :
    (s.leafFor core c none va).1 = s.walk core c va := by
  unfold State.leafFor at h ⊢
  simp only [State.heldLeaf, Option.bind_none] at h ⊢
  split at h
  · cases h
  · split at h
    · cases h
    · rfl

/-! ### What loads keep -/

/-- From s on an agent of a group has only loaded: translation finds what the table has in s, and each L1 copy of the context on
the core holds its line as in s; and no line is owned. -/
structure Loads (a : Agent) (s t : State) : Prop where
  op : a.op = none
  free : ∀ l, s.owned l = false
  alike : Alike s t
  start : s.Current s a.core a.ctx
  current : s.Current t a.core a.ctx
  l1 : ∀ e ∈ (t.core a.core).l1, ∀ l, e.1 = l1Key a.ctx l → e.2.data = s.lineData a.ctx l
  calm : ∀ n ps, s.Calm n ps → t.Calm n ps

/-- A translation, but for the walk that found it and its datum. -/
def bare (r : Except (Kind × Nat) Spot) : Except (Kind × Nat) Spot :=
  match r with
  | .error e => .error e
  | .ok p => .ok { p with walk := none, leaf := { p.leaf with tick := 0 } }

/-- Translation where no line is owned, from the leaf that is found. -/
theorem bare_look {s : State} {core c : Nat} {level : Level} {use : Use} {va : Word} {wait : Bool} (h : ∀ l, s.owned l = false) :
    bare (s.look core c level use va none wait) =
      if !canonicalVa va then .error (.unmapped, if use == .write then 1 else 0)
      else match timeless (s.leafFor core c none va).1.leaf with
        | .error lv => .error (.unmapped, (if use == .write then 1 else 0) + (if lv = 0 then 0 else 2) + 4 * lv)
        | .ok f =>
          let noU := level == .user && !f.u
          let noX := use == .fetch && (!f.x || f.cls == 3 || f.cls == 4 || f.cls == 5)
          let noW := use == .write && !f.w
          if noU || noX || noW then
            .error (.protection, (if noW then 1 else 0) + (if noX then 2 else 0) + (if noU then 4 else 0))
          else
            let a := backing (classSpace f.cls) (f.pa + va.toNat % 4096)
            match s.hostLost f.cls a with
            | some p => .error (.hostLost, p)
            | none => .ok { cls := f.cls, addr := a, leaf := f, walk := none } := by
  unfold State.look
  have hn : (if wait then (s.leafFor core c none va).1.lines.find? s.owned else none) = none := by
    split
    · exact List.find?_eq_none.mpr (fun l _ => by rw [h l]; exact Bool.false_ne_true)
    · rfl
  by_cases hc : (!canonicalVa va) = true
  · simp only [hc, if_true]; rfl
  · simp only [hc, hn]
    simp only [Bool.false_eq_true, if_false]
    cases (s.leafFor core c none va).1.leaf with
    | error l => rfl
    | ok f =>
      simp only [timeless]
      split
      · rfl
      · split
        · next x => simp only [x, bare]
        · next x => simp only [x, bare]

/-- Alike translations find the same place. -/
theorem ok_of_bare {x y : Except (Kind × Nat) Spot} {p : Spot} (b : bare x = bare y) (e : y = .ok p) :
    ∃ q, x = .ok q ∧ q.cls = p.cls ∧ q.addr = p.addr ∧ q.held = p.held := by
  subst e
  cases x with
  | error x => cases b
  | ok q =>
    simp only [bare, Except.ok.injEq, Spot.mk.injEq] at b
    exact ⟨q, rfl, b.1, b.2.1, b.2.2.2.2⟩

namespace Loads

variable {a : Agent} {s t u : State}

/-- A place of the agent, however it is looked for. -/
theorem look (h : Loads a s t) (use : Use) (va : Word) (w1 w2 : Bool) :
    bare (t.look a.core a.ctx a.level use va a.op w1) = bare (s.look a.core a.ctx a.level use va a.op w2) := by
  rw [h.op, bare_look (fun l => (h.alike.owned l).trans (h.free l)), bare_look h.free, leafFor_current h.alike h.current,
    leafFor_current (Alike.refl s) h.start]
  simp only [h.alike.hostLost]

theorem seek_ok (h : Loads a s t) {use : Use} {va : Word} {p : Spot} (w1 w2 : Bool)
    (e : s.look a.core a.ctx a.level use va a.op w2 = .ok p) :
    ∃ q, t.look a.core a.ctx a.level use va a.op w1 = .ok q ∧ q.cls = p.cls ∧ q.addr = p.addr ∧ q.held = p.held :=
  ok_of_bare (h.look use va w1 w2) e

/-- The agent's caches stay. -/
theorem still (h : Loads a s t) (k : Alike t u) (c : Cached t u) (q : ∀ n ps, t.Calm n ps → u.Calm n ps) : Loads a s u := by
  have e : u.core a.core = t.core a.core := by unfold State.core; rw [c.1]
  exact ⟨h.op, h.free, h.alike.trans k, h.start, ⟨by rw [e]; exact h.current.tlb, by rw [c.2.1]; exact h.current.l2,
    by rw [c.2.2]; exact h.current.mids⟩, by rw [e]; exact h.l1, fun n ps w => q n ps (h.calm n ps w)⟩

/-- What a place found says of the leaf behind it. -/
theorem leaf_of_look (h : Loads a s t) {use : Use} {va : Word} {p : Spot} {w : Bool} (e : t.look a.core a.ctx a.level use va a.op w = .ok p) :
    timeless (.ok p.leaf) = s.tableLeaf a.ctx va ∧
    ∀ ls, p.walk = some ls → ls.2 = (t.walk a.core a.ctx va).mids := by
  have fr : ∀ l, t.owned l = false := fun l => (h.alike.owned l).trans (h.free l)
  have hl := leafFor_current h.alike h.current va
  rw [h.op] at e
  unfold State.look at e
  have hn : (if w then (t.leafFor a.core a.ctx none va).1.lines.find? t.owned else none) = none := by
    split
    · exact List.find?_eq_none.mpr (fun l _ => by rw [fr l]; exact Bool.false_ne_true)
    · rfl
  by_cases hc : (!canonicalVa va) = true
  · simp only [hc, if_true] at e; cases e
  simp only [hc, hn, Bool.false_eq_true, if_false] at e
  have hw : ∀ x, (if (t.leafFor a.core a.ctx none va).2 = true then some ((t.leafFor a.core a.ctx none va).1.lines,
      (t.leafFor a.core a.ctx none va).1.mids) else none) = some x → x.2 = (t.walk a.core a.ctx va).mids := by
    intro x q
    split at q
    · next z =>
      cases q
      rw [leafFor_walks z]
    · cases q
  cases hf : (t.leafFor a.core a.ctx none va).1.leaf with
  | error l => rw [hf] at e; cases e
  | ok f =>
    rw [hf] at e hl
    simp only [] at e
    split at e
    · cases e
    · split at e
      · cases e
      · cases e
        exact ⟨hl, hw⟩

theorem walked (h : Loads a s t) {use : Use} {va : Word} {p : Spot} {w : Bool} (e : t.look a.core a.ctx a.level use va a.op w = .ok p) :
    Loads a s (t.walked a va p) := by
  obtain ⟨hl, hm⟩ := h.leaf_of_look e
  have hh : ∀ t : State, t.holdLeaf a.op (tlbKey a.ctx va) p.leaf = t := by
    intro t; unfold State.holdLeaf; rw [h.op]
  unfold State.walked
  dsimp only
  rw [hh]
  have pd := Paged.demand t a.core p
  have d := h.still pd.alike (Cached.paged pd) (fun n _ w => w.paged pd)
  split
  · exact d
  next ls hw =>
    obtain ⟨r1, r2, r3⟩ := walkReads a a.core ls.1 (t.demand a.core p)
    have g := d.still r1 r2 r3
    generalize ls.1.foldl (fun s l => (s.demandLine a.core l).homeClock a l) (t.demand a.core p) = q at g
    obtain ⟨g1, g2, g3, g4, g5, g6, g7⟩ := g
    have mine : ∀ vb, tlbKey a.ctx va = tlbKey a.ctx vb → timeless (.ok p.leaf) = s.tableLeaf a.ctx vb := by
      intro vb k; rw [hl]; exact s.tableLeaf_page (page_of_tlbKey k) _
    have wm := (walk_current h.alike h.current va).2
    rw [← hm ls hw] at wm
    have ec : ∀ (y : State) (f : Core → Core), (y.onCore a.core f).core a.core = f (y.core a.core) := by
      intro y f; rw [State.core_onCore, if_pos rfl]
    refine ⟨g1, g2, g3.trans ⟨rfl, rfl, fun _ => ⟨rfl, rfl⟩⟩, g4, ⟨fun e he vb k => ?_, fun e he vb k => ?_, fun e he l vb l1 l3 k => ?_⟩, ?_, fun n ps w => ?_⟩
    · rw [ec] at he
      rcases mem_put (mem_trimTo he) with rfl | he
      · exact mine vb k
      · exact g5.tlb e he vb k
    · have z : get [] (a.core / 8) (put (a.core / 8) (trimTo Config.l2Entries (q.free 8) (put (tlbKey a.ctx va) p.leaf
          (get [] (a.core / 8) q.l2))) q.l2) = _ := get_put_self _ _ _ _
      have he' : e ∈ get [] (a.core / 8) (put (a.core / 8) (trimTo Config.l2Entries (q.free 8) (put (tlbKey a.ctx va) p.leaf
          (get [] (a.core / 8) q.l2))) q.l2) := he
      rw [z] at he'
      rcases mem_put (mem_trimTo he') with rfl | he
      · exact mine vb k
      · exact g5.l2 e he vb k
    · have he' : e ∈ get [] (a.core / 8) (put (a.core / 8) (ls.2.foldl (fun (m : SMap Mid) (x : Nat × Mid) => put x.1 x.2 m)
          (get [] (a.core / 8) q.mids)) q.mids) := he
      rw [get_put_self] at he'
      have fm : ∀ (xs : List (Nat × Mid)) (m : SMap Mid), e ∈ xs.foldl (fun (m : SMap Mid) (x : Nat × Mid) => put x.1 x.2 m) m →
          e ∈ xs ∨ e ∈ m := by
        intro xs
        induction xs with
        | nil => exact fun m h => .inr h
        | cons x xs ih =>
          intro m h
          rcases ih _ h with h | h
          · exact .inl (List.mem_cons_of_mem _ h)
          · rcases mem_put h with rfl | h
            · exact .inl List.mem_cons_self
            · exact .inr h
      rcases fm _ _ he' with h | h
      · exact wm e h l vb l1 l3 k
      · exact g5.mids e h l vb l1 l3 k
    · rw [ec]; exact g6
    · refine State.Calm.onCore ?_ _ _ ?_
      · obtain ⟨c1, c2, c3, c4, c5, c6⟩ := g7 n ps w
        exact ⟨c1, c2, c3, c4, c5, c6⟩
      · exact (g7 n ps w).copy a.core

/-! ### What a load answers -/

/-- A number of digits to base 256, the first least significant. -/
def bytesNum (f : Nat → Nat) : Nat → Nat
  | 0 => 0
  | n + 1 => f 0 + 256 * bytesNum (fun i => f (i + 1)) n

theorem bytesNum_mod (k : Nat) : ∀ (f : Nat → Nat) (n : Nat), (∀ i, f i < 256) → k ≤ n → bytesNum f n % 256 ^ k = bytesNum f k := by
  induction k with
  | zero => intro f n _ _; simp [bytesNum, Nat.mod_one]
  | succ k ih =>
    intro f n h b
    obtain ⟨m, rfl⟩ : ∃ m, n = m + 1 := ⟨n - 1, by omega⟩
    have q := ih (fun i => f (i + 1)) m (fun i => h _) (by omega)
    have z := h 0
    unfold bytesNum
    rw [← q, Nat.pow_succ, Nat.mul_comm (256 ^ k) 256, Nat.mod_mul, Nat.add_mul_mod_self_left, Nat.add_mul_div_left _ _ (by decide),
      Nat.div_eq_of_lt z, Nat.zero_add, Nat.mod_eq_of_lt z]

theorem bytesNum_part (j : Nat) : ∀ (f : Nat → Nat) (n k : Nat), (∀ i, f i < 256) → j + k ≤ n →
    bytesNum f n / 256 ^ j % 256 ^ k = bytesNum (fun i => f (j + i)) k := by
  induction j with
  | zero => intro f n k h b; simpa using bytesNum_mod k f n h (by omega)
  | succ j ih =>
    intro f n k h b
    obtain ⟨m, rfl⟩ : ∃ m, n = m + 1 := ⟨n - 1, by omega⟩
    have q := ih (fun i => f (i + 1)) m k (fun i => h _) (by omega)
    have z := h 0
    rw [show bytesNum f (m + 1) = f 0 + 256 * bytesNum (fun i => f (i + 1)) m from rfl, Nat.pow_succ, Nat.mul_comm (256 ^ j) 256,
      ← Nat.div_div_eq_div_mul, Nat.add_mul_div_left _ _ (by decide), Nat.div_eq_of_lt z, Nat.zero_add, q]
    congr 1
    funext i
    congr 1
    omega

theorem readN_bytesNum (m : SMap Byte) : ∀ n x, readN m x n = bytesNum (fun i => (get 0 (x + i) m).toNat) n := by
  intro n
  induction n with
  | zero => intro x; rfl
  | succ n ih =>
    intro x
    unfold readN bytesNum
    rw [ih]
    simp only [Nat.add_zero, show ∀ i, x + 1 + i = x + (i + 1) by intro i; omega]

theorem foldr_bytesNum (f : Nat → Nat) (n : Nat) : (List.range n).foldr (fun i x => f i + 256 * x) 0 = bytesNum f n := by
  induction n generalizing f with
  | zero => rfl
  | succ n ih =>
    rw [List.range_succ_eq_map, List.foldr_cons, List.foldr_map, bytesNum]
    exact congrArg (f 0 + 256 * ·) (ih (fun i => f (i + 1)))

/-- Bytes within a line, as a part of the line. -/
theorem readKey_part (s : State) (k l j n : Nat) (b : j + n ≤ 64) :
    (s.readKey k (l * 64) 64).1 / 256 ^ j % 256 ^ n = (s.readKey k (l * 64 + j) n).1 := by
  have e : 0 < n → lineNo (l * 64 + j) = lineNo (l * 64) := by unfold lineNo; omega
  have c : 0 < n → (2 ^ 61 ≤ l * 64 + j ↔ 2 ^ 61 ≤ l * 64) := by intro _; omega
  rcases Nat.eq_zero_or_pos n with rfl | p
  · rw [Nat.pow_zero, Nat.mod_one]
    unfold State.readKey
    simp only []
    split
    · rfl
    · split <;> rfl
  unfold State.readKey
  simp only [e p, c p]
  split
  · rw [readN_bytesNum, readN_bytesNum, bytesNum_part j _ 64 n (fun i => BitVec.isLt _) b]
    simp only [Nat.add_assoc]
  · split
    · simp
    · rw [foldr_bytesNum (fun i => (Config.cipher (l * 64 + i) s.fresh).toNat),
        foldr_bytesNum (fun i => (Config.cipher (l * 64 + j + i) s.fresh).toNat), bytesNum_part j _ 64 n (fun i => BitVec.isLt _) b]
      simp only [Nat.add_assoc]

theorem note_idle {s : State} {a : Agent} (r : s.recording a.ctx = false) (p : s.replaying a.ctx = false) (k : Nat) (x y : Bool) (n : Nat) :
    s.note a k x y n = s := by
  unfold State.note
  simp only [r, p, Bool.false_eq_true, if_false]

theorem part_mod (x j n m : Nat) (b : 8 * (j + n) ≤ m) : x % 2 ^ m / 2 ^ (8 * j) % 2 ^ (8 * n) = x / 256 ^ j % 256 ^ n := by
  rw [show (256 : Nat) = 2 ^ 8 from rfl, ← Nat.pow_mul, ← Nat.pow_mul]
  refine Nat.eq_of_testBit_eq (fun i => ?_)
  simp only [Nat.testBit_mod_two_pow, Nat.testBit_div_two_pow]
  by_cases h : i < 8 * n
  · simp only [h, decide_true, Bool.true_and, show i + 8 * j < m by omega]
  · simp only [h, decide_false, Bool.false_and]

/-- A core's copies change, those of the agent's context so that they still hold their lines. -/
theorem copies (h : Loads a s t) (c : Nat) (f : Core → Core) (k : ∀ k, (f k).tlb = k.tlb)
    (d : c = a.core → ∀ e ∈ (f (t.core c)).l1, ∀ l, e.1 = l1Key a.ctx l → e.2.data = s.lineData a.ctx l)
    (q : ∀ n ps, t.Calm n ps → ∀ e ∈ (f (t.core c)).l1, e.2.wts ≤ n) : Loads a s (t.onCore c f) := by
  have w := Alike.onCore t c f
  have e : (t.onCore c f).core a.core = if a.core = c then f (t.core c) else t.core a.core := State.core_onCore _ _ _ _
  refine ⟨h.op, h.free, h.alike.trans w, h.start, ⟨?_, h.current.l2, h.current.mids⟩, ?_, fun n ps z => (h.calm n ps z).onCore _ _ (q n ps (h.calm n ps z))⟩
  · rw [e]
    split
    · next i => rw [k, ← i]; exact h.current.tlb
    · exact h.current.tlb
  · rw [e]
    split
    · next i => exact d i.symm
    · exact h.l1

theorem l1Key_inj {c l j : Nat} (h : l1Key c l = l1Key c j) : l = j := by unfold l1Key at h; omega

theorem fillL1 (h : Loads a s t) (cls l : Nat) : Loads a s (t.fillL1 a cls l) := by
  unfold State.fillL1
  simp only []
  have g := h.copies a.core (fun k =>
      { k with l1 := trimTo Config.l1Lines (t.free 10) (put (l1Key a.ctx l) ⟨t.lineData a.ctx l, (t.line l).wts, (t.line l).rts, t.dev.datum, 0⟩ k.l1) })
    (fun _ => rfl) (fun _ e he j k => by
      rcases mem_put (mem_trimTo he) with rfl | he
      · rw [← l1Key_inj k, ← h.alike.lineData]
      · exact h.l1 e he j k)
    (fun n _ c e he => by
      rcases mem_put (mem_trimTo he) with rfl | he
      · exact (c.line l).1
      · exact c.copy _ _ he)
  split
  · split
    · exact g.still (Alike.setLine _ _ _ rfl rfl) ⟨rfl, rfl, rfl⟩ (fun n _ c => c.setLine _ _ (c.line l))
    · refine (g.copies _ (fun k => k.dropLine l) (fun _ => rfl)
        (fun i e he j q => ?_) (fun n _ c e he => c.copy _ e (List.mem_filter.mp he).1)).still
        (Alike.setLine _ _ _ rfl rfl) ⟨rfl, rfl, rfl⟩ (fun n _ c => c.setLine _ _ (c.line l))
      rw [i] at he
      exact g.l1 e (List.mem_filter.mp he).1 j q
  · exact g

/-- A load within a line answers what memory holds; of host memory but host-posted (R106). -/
theorem load (h : Loads a s t) (r : s.recording a.ctx = false) (p : s.replaying a.ctx = false) (u1 : Bool) (cls addr n : Nat)
    (k : cls ≠ 5) (b : addr % 64 + n ≤ 64) :
    (t.load a u1 cls addr n).1 = (s.readKey (s.keyOf a.ctx) addr n).1 ∧ Loads a s (t.load a u1 cls addr n).2 := by
  have v : (t.readKey (t.keyOf a.ctx) addr n).1 = (s.readKey (s.keyOf a.ctx) addr n).1 := by rw [h.alike.readKey, h.alike.keyOf]
  unfold State.load
  simp only [k, if_false]
  split
  · exact ⟨v, h⟩
  · split
    next c hc =>
      have f : (l1Key a.ctx (lineNo addr), c) ∈ (t.core a.core).l1 := by
        refine mem_of_find ?_
        split at hc
        · unfold State.copyFor at hc
          split at hc
          · cases hc
          · split at hc
            · cases hc
            · next y hy =>
              split at hc
              · cases hc; exact hy
              · split at hc
                · cases hc; exact hy
                · cases hc
        · cases hc
      have d := h.l1 _ f _ rfl
      refine ⟨?_, ?_⟩
      · simp only []
        rw [d]
        unfold State.lineData
        rw [BitVec.toNat_ofNat, part_mod _ _ _ 512 (Nat.mul_le_mul_left 8 b), readKey_part _ _ _ _ _ b]
        congr 2
        unfold lineNo
        omega
      · simp only []
        have cw : ∀ n ps, t.Calm n ps → c.wts ≤ n := fun n _ z => z.copy _ _ f
        refine (h.still (Alike.raisePts t a _) ⟨rfl, rfl, rfl⟩ (fun n ps z => z.raisePts a (Nat.max_le.mpr ⟨z.pts _ _, cw n ps z⟩))).copies _ _
          (fun _ => rfl) (fun _ e he l q => ?_) (fun n _ z e he => ?_)
        · rcases mem_put he with rfl | he
          · rw [← l1Key_inj q]; exact d
          · exact h.l1 e he l q
        · rcases mem_put he with rfl | he
          · have := z.copy a.core _ f
            exact this
          · exact z.copy _ _ he
    next hc =>
      refine ⟨v, ?_⟩
      have g := h.still (Alike.homeClock t a (lineNo addr)) (Cached.homeClock t a (lineNo addr)) (fun n _ z => z.homeClock a _)
      have w : Loads a s (if (u1 && !(t.homeClock a (lineNo addr)).recording a.ctx) = true then (t.homeClock a (lineNo addr)).fillL1 a cls (lineNo addr)
          else t.homeClock a (lineNo addr)) := by
        split
        · exact g.fillL1 _ _
        · exact g
      simp only []
      rw [note_idle (by rw [w.alike.recording, r]) (by rw [w.alike.replaying, p])]
      exact w

/-! ### Runs of words and bytes -/

/-- The device can load n bytes at an address: it translates to a place within one line that is not poisoned, outside the pool
and host-posted pages. -/
def At (a : Agent) (s : State) (va : Word) (n : Nat) : Prop :=
  ∃ p, s.seek a .read va = .ok p ∧ p.addr % 64 + n ≤ 64 ∧ s.poisoned (s.keyOf a.ctx) (lineNo p.addr) = false ∧ p.held = false ∧
    p.cls < 2

/-- A place found by `seek` is found by the device's own steps. -/
theorem now (h : Loads a s t) {va : Word} {n : Nat} (x : At a s va n) (w : Bool) :
    ∃ q, t.look a.core a.ctx a.level .read va a.op w = .ok q ∧ q.addr % 64 + n ≤ 64 ∧ q.held = false ∧ q.cls < 2 ∧
      t.poisoned (t.keyOf a.ctx) (lineNo q.addr) = false ∧
      (s.readKey (s.keyOf a.ctx) q.addr n).1 = s.peek a va n := by
  obtain ⟨p, e, b, q, i, c⟩ := x
  obtain ⟨y, f, f1, f2, f3⟩ := h.seek_ok w true e
  obtain ⟨z, g, -, g2, -⟩ := ok_of_bare ((h.look .read va w false).symm.trans (h.look .read va w true)) e
  refine ⟨y, f, by rw [f2]; exact b, by rw [f3]; exact i, by rw [f1]; exact c, by rw [h.alike.keyOf, h.alike.poisoned, f2]; exact q, ?_⟩
  unfold State.peek State.seekNow
  rw [g]
  simp only [f2, g2]

theorem probe (h : Loads a s t) {va : Word} {n : Nat} (x : At a s va n) : t.probe a .read true va = none := by
  obtain ⟨q, f, -, -, -, z, -⟩ := h.now x true
  unfold State.probe State.seek
  rw [f]
  simp only [z, Bool.and_false, Bool.false_eq_true, if_false]

theorem gload (h : Loads a s t) (r : s.recording a.ctx = false) (p : s.replaying a.ctx = false) {va : Word} {n : Nat}
    (x : At a s va n) : (t.gload a va n).1 = s.peek a va n ∧ Loads a s (t.gload a va n).2 := by
  obtain ⟨q, f, b, -, c, -, v⟩ := h.now x true
  have w := (h.walked f).load r p true q.cls q.addr n (by omega) b
  unfold State.gload State.seek
  rw [f]
  exact ⟨by rw [w.1, v], w.2⟩

theorem vload (h : Loads a s t) (r : s.recording a.ctx = false) (p : s.replaying a.ctx = false) {va : Word} {n : Nat}
    (x : At a s va n) : ∃ u, t.vload a va n = .ok (s.peek a va n, u) ∧ Loads a s u := by
  obtain ⟨q, f, b, -, c, z, v⟩ := h.now x false
  have w := (h.walked f).load r p false q.cls q.addr n (by omega) b
  refine ⟨_, ?_, w.2⟩
  unfold State.vload State.seekNow
  rw [f]
  simp only [z, Bool.false_eq_true, if_false]
  rw [← v, ← w.1]

theorem loadAt (h : Loads a s t) (r : s.recording a.ctx = false) (p : s.replaying a.ctx = false) {va : Word} {n : Nat}
    (x : At a s va n) (unit : Bool) : ∃ u, t.loadAt a unit va n = .ok (s.peek a va n, u) ∧ Loads a s u := by
  obtain ⟨q, f, b, i, c, z, v⟩ := h.now x true
  have w := (h.walked f).load r p false q.cls q.addr n (by omega) b
  refine ⟨_, ?_, w.2⟩
  have pl : t.place a unit .read va = .ok q := by
    unfold State.place State.seek
    rw [f]
    have o : t.owned (lineNo q.addr) = false := (h.alike.owned _).trans (h.free _)
    have n1 : t.waitLine a none q = none := by
      unfold State.waitLine
      simp only [i, o, Bool.and_false, Bool.false_and, Bool.or_false, Bool.false_eq_true, if_false]
    have n2 : t.pcMiss q = none := by
      unfold State.pcMiss
      rw [if_neg]
      intro z
      have := z.1
      unfold classSpace at this
      omega
    simp only [n1, n2, ite_self]
  unfold State.loadAt
  rw [pl]
  simp only [z, Bool.false_eq_true, if_false]
  rw [← v, ← w.1]

/-- The words from an address on. -/
def words (a : Agent) (s : State) (va : Word) : Nat → List Nat
  | 0 => []
  | n + 1 => s.peek a va 8 :: words a s (va + 8) n

theorem next_word {va : Word} {n : Nat} {P : Word → Prop} (x : ∀ k, k < n + 1 → P (va + BitVec.ofNat 64 (8 * k))) :
    P va ∧ ∀ k, k < n → P (va + 8 + BitVec.ofNat 64 (8 * k)) := by
  refine ⟨by simpa using x 0 (by omega), fun k hk => ?_⟩
  have := x (k + 1) (by omega)
  rwa [Nat.mul_add, Nat.mul_one, BitVec.ofNat_add, BitVec.add_comm (BitVec.ofNat 64 (8 * k)), ← BitVec.add_assoc] at this

theorem readWords (r : s.recording a.ctx = false) (p : s.replaying a.ctx = false) : ∀ (n : Nat) (va : Word) (t : State),
    Loads a s t → (∀ k, k < n → At a s (va + BitVec.ofNat 64 (8 * k)) 8) →
    ∃ u, State.readWords a t va n = .ok (words a s va n, u) ∧ Loads a s u
  | 0, va, t, h, _ => ⟨t, rfl, h⟩
  | n + 1, va, t, h, x => by
    obtain ⟨z, y⟩ := next_word (P := fun v => At a s v 8) x
    obtain ⟨v, w⟩ := h.gload r p z
    obtain ⟨u, e, g⟩ := readWords r p n (va + 8) _ w y
    refine ⟨u, ?_, g⟩
    unfold State.readWords
    simp only [h.probe z, e, v]
    rfl

theorem loadWords (r : s.recording a.ctx = false) (p : s.replaying a.ctx = false) : ∀ (n : Nat) (va : Word) (t : State),
    Loads a s t → (∀ k, k < n → At a s (va + BitVec.ofNat 64 (8 * k)) 8) →
    ∃ u, State.loadWords a t va n = .ok (words a s va n, u) ∧ Loads a s u
  | 0, va, t, h, _ => ⟨t, rfl, h⟩
  | n + 1, va, t, h, x => by
    obtain ⟨z, y⟩ := next_word (P := fun v => At a s v 8) x
    obtain ⟨w, v, k⟩ := h.vload r p z
    obtain ⟨u, e, g⟩ := loadWords r p n (va + 8) _ k y
    refine ⟨u, ?_, g⟩
    unfold State.loadWords
    rw [v]
    simp only [e]
    rfl

theorem loadsAt (r : s.recording a.ctx = false) (p : s.replaying a.ctx = false) (unit : Bool) : ∀ (n : Nat) (va : Word) (t : State),
    Loads a s t → (∀ k, k < n → At a s (va + BitVec.ofNat 64 (8 * k)) 8) →
    ∃ u, State.loadsAt a unit t va n = .ok (words a s va n, u) ∧ Loads a s u
  | 0, va, t, h, _ => ⟨t, rfl, h⟩
  | n + 1, va, t, h, x => by
    obtain ⟨z, y⟩ := next_word (P := fun v => At a s v 8) x
    obtain ⟨w, v, k⟩ := h.loadAt r p z unit
    obtain ⟨u, e, g⟩ := loadsAt r p unit n (va + 8) _ k y
    refine ⟨u, ?_, g⟩
    unfold State.loadsAt
    rw [v]
    simp only [e]
    rfl

/-- The bytes from an address on. -/
def bytes (a : Agent) (s : State) (va : Word) : Nat → List Byte
  | 0 => []
  | n + 1 => BitVec.ofNat 8 (s.peek a va 1) :: bytes a s (va + 1) n

/-- Nothing that a load waits for is owned. -/
theorem unowned (h : Loads a s t) {va : Word} {n : Nat} (x : At a s va n) : t.ownedAmong a .read [va] = [] := by
  obtain ⟨q, f, -, i, -, -, -⟩ := h.now x true
  have o : t.owned (lineNo q.addr) = false := (h.alike.owned _).trans (h.free _)
  unfold State.ownedAmong State.waitLines State.spots State.seek
  simp only [List.filterMap_cons, List.filterMap_nil, f]
  unfold State.waitLine
  simp only [i, o, Bool.and_false, Bool.false_and, Bool.or_false, Bool.false_eq_true, if_false]

theorem readBytes (r : s.recording a.ctx = false) (p : s.replaying a.ctx = false) : ∀ (n : Nat) (va : Word) (t : State),
    Loads a s t → (∀ k, k < n → At a s (va + BitVec.ofNat 64 k) 1) →
    ∃ u, State.readBytes a t va n = .ok (bytes a s va n, u) ∧ Loads a s u
  | 0, va, t, h, _ => ⟨t, rfl, h⟩
  | n + 1, va, t, h, x => by
    have z : At a s va 1 := by simpa using x 0 (by omega)
    obtain ⟨v, w⟩ := h.gload r p z
    obtain ⟨u, e, g⟩ := readBytes r p n (va + 1) _ w (fun k hk => by
      have := x (k + 1) (by omega)
      rwa [BitVec.ofNat_add, BitVec.add_comm (BitVec.ofNat 64 k), ← BitVec.add_assoc] at this)
    refine ⟨u, ?_, g⟩
    unfold State.readBytes
    simp only [h.probe z, h.unowned z, e, v]
    rfl

/-- An atomic on a line of device memory that no operation owns takes effect and answers what memory held. -/
theorem atomAt (h : Loads a s t) {va : Word} {p : Spot} (e : s.seek a .write va = .ok p) (c : p.cls < 2)
    (i : p.held = false) (z : s.poisoned (s.keyOf a.ctx) (lineNo p.addr) = false) (unit : Bool) (n : Nat) (f : Nat → Nat) :
    ∃ u, t.atomAt a unit va n f = .ok ((s.readKey (s.keyOf a.ctx) p.addr n).1, u) := by
  obtain ⟨q, g, qc, qa, qi⟩ := h.seek_ok true true e
  have w := (h.walked g).alike
  have o : t.owned (lineNo q.addr) = false := (h.alike.owned _).trans (h.free _)
  have k : t.seek a .write va = .ok q := g
  have b : t.classBad a .write ordered va = false := by
    unfold State.classBad
    have : ordered p.cls = true := by
      unfold ordered
      simp only [Bool.and_eq_true, bne_iff_ne]
      omega
    simp only [k, qc, this, Bool.not_true, Bool.and_false]
  have l : t.waitLine a none q = none := by
    unfold State.waitLine
    simp only [qi, i, o, Bool.and_false, Bool.false_and, Bool.or_false, Bool.false_eq_true, if_false]
  have m : t.pcMiss q = none := by
    unfold State.pcMiss
    rw [if_neg]
    intro z
    have := z.1
    unfold classSpace at this
    omega
  have y : t.place a unit .write va = .ok q := by
    unfold State.place
    simp only [k, l, m, ite_self]
  refine ⟨((t.walked a va q).rmw a q.cls q.addr n f).2, ?_⟩
  have x : ((t.walked a va q).rmw a q.cls q.addr n f).1 = (s.readKey (s.keyOf a.ctx) p.addr n).1 := by
    unfold State.rmw
    rw [w.readKey, w.keyOf, qa]
  unfold State.atomAt
  simp only [b, y, h.alike.poisoned, h.alike.keyOf, qa, z, Bool.false_eq_true, if_false]
  rw [← x, ← qa]

/-! ### Ranges -/

/-- A place found or not, as a class and an address. -/
def placeOf (n : Nat) (r : Except (Kind × Nat) Spot) : Option (Nat × Nat × Nat) :=
  match r with
  | .error _ => none
  | .ok p => some (p.cls, p.addr, n)

theorem placeOf_bare (n : Nat) (r : Except (Kind × Nat) Spot) : placeOf n (bare r) = placeOf n r := by
  cases r <;> rfl

theorem placesOf_eq (s : State) (a : Agent) (use : Use) (vas : List Word) (n : Nat) :
    s.placesOf a use vas n = vas.filterMap (fun va => placeOf n (s.seek a use va)) := by
  unfold State.placesOf State.spots
  rw [List.map_filterMap]
  congr 1
  funext va
  cases s.seek a use va <;> rfl

/-- Places of units of a range are found alike. -/
theorem placesOf (h : Loads a s t) (use : Use) (vas : List Word) (n : Nat) : t.placesOf a use vas n = s.placesOf a use vas n := by
  rw [placesOf_eq, placesOf_eq]
  congr 1
  funext va
  rw [← placeOf_bare, ← placeOf_bare n (s.seek a use va)]
  exact congrArg _ (h.look use va true true)

/-- No address has to wait for a line. -/
theorem waitless (h : Loads a s t) (use : Use) (vas : List Word) (x : ∀ va ∈ vas, ∀ p, s.seek a use va = .ok p → p.held = false) :
    t.ownedAmong a use vas = [] := by
  unfold State.ownedAmong State.waitLines
  rw [List.filterMap_eq_nil_iff]
  intro p hp
  obtain ⟨va, hv, e⟩ := List.mem_filterMap.mp hp
  split at e
  · cases e
  next q g =>
    cases e
    obtain ⟨y, f, -, -, i⟩ := ok_of_bare (h.look use va true true).symm g
    have o : t.owned (lineNo p.addr) = false := (h.alike.owned _).trans (h.free _)
    unfold State.waitLine
    simp only [← i, x va hv y f, o, Bool.and_false, Bool.false_and, Bool.or_false, Bool.false_eq_true, if_false]

/-- An address found stays so. -/
theorem write_ok (h : Loads a s t) {va : Word} {p : Spot} (e : s.seek a .write va = .ok p) (i : p.held = false) :
    t.probe a .write false va = none ∧ ∀ q ∈ t.spots a .write [va], q.held = false := by
  obtain ⟨q, g, -, -, qi⟩ := h.seek_ok true true e
  have k : t.seek a .write va = .ok q := g
  constructor
  · unfold State.probe
    rw [k]
    rfl
  · simp only [State.spots, List.filterMap_cons, k, List.filterMap_nil, List.mem_singleton]
    rintro _ rfl
    rw [qi, i]

/-- Translations of addresses leave a state from which loads find the same. -/
theorem walkAll (use : Use) : ∀ (vas : List Word) {t : State}, Loads a s t →
    Loads a s (vas.foldl (fun t va => match t.seek a use va with
      | .error _ => t
      | .ok p => t.walked a va p) t)
  | [], _, h => h
  | va :: vas, t, h => by
    refine walkAll use vas ?_
    show Loads a s (match t.seek a use va with
      | .error _ => t
      | .ok p => t.walked a va p)
    split
    · exact h
    · next p e => exact h.walked e

/-- So do those of the lines of ranges. -/
theorem walkSpans : ∀ (xs : List Span) {t : State}, Loads a s t → Loads a s (t.walkSpans a xs)
  | [], _, h => h
  | x :: xs, _, h => walkSpans xs (walkAll x.use x.lines h)

end Loads
end Sys2Proof.Machine
end

