-- ==== Sys2Proof/Tests/Slice0.lean ====
section
/-!
SUPPORT. Tests: words that the specification prints or whose bits follow its encoding tables, ill-formed terms that
WellFormed refuses, single steps on a small state, and for every statement a state and operands that meet its hypotheses.
-/
namespace Sys2Proof.Tests
set_option Elab.async false
open Sys2Proof.Machine

/-! ### A small state -/

/-- A page table that maps the first GiB of addresses to the second GiB of device memory, for every access: a root entry at
2 MiB that points at a table at 4 KiB, and a 1 GiB leaf there (R345, R347). -/
def tables : List Host.Cell := [(0x1000, 0x3B), (0x1003, 0x40), (0x200000, 0x01), (0x200001, 0x10)]

/-- A group of eight lanes that stand at the header 0x4000. -/
def crew (l : Level) : Group :=
  { Group.zero with
    width := 8, n := 64, st := (List.range 8).map (fun i => (i, 1)), pc := (List.range 8).map (fun i => (i, 0x4000))
    level := l, s2 := 0x10000 }

/-- Its team, on core 0. -/
def gang (g : Group) : Team := { Team.zero with core := some 0, size := 65536, ntiles := 4, groups := [(0, g)] }

/-- A clause of two instructions in issue for the eight lanes. -/
def clause : Issue :=
  { members := [⟨0, 0, 0xFF⟩], hdr := 0x4000, body := [0x88, 0x1F, 0, 0, 0x88, 0x1F, 0, 0], pos := 0, ver := 3, bodyw := 2,
    yieldh := 0 }

/-- The eight lanes. -/
def lanes : Member := ⟨0, 0, 0xFF⟩

/-- A device in normal service with 4 GiB of memory, one context under the page table, and one team. -/
def lab (t : Team) : State :=
  { State.reset with
    mem := tables, dev := { Device.reset with service := .normal, trained := true, tested := true, config := 4 }
    parts := [(0, Part.new [0])], ctxs := [(0, { Ctx.free with st := .running, ptroot := 0x200000, tvec := 0x8000, bindt := 0x100000 })]
    teams := [(0, t)], cores := [(0, { Core.empty with issue := some clause })], turn := .core 0 }

/-- What Sole asks, as one test. -/
def soleB (s : State) (c : Nat) (x : Issue) (m : Member) : Bool :=
  decide (s.turn = .core c ∧ s.inIssue c = some x ∧ x.members = [m] ∧ m.lanes ≠ 0 ∧ (find m.team s.teams).isSome = true ∧
    (find m.grp (s.team m.team).groups).isSome = true ∧ (s.group m.team m.grp).beyond m.lanes = false ∧
    (s.group m.team m.grp).fenced m.lanes = false ∧ s.unfixed m.team m.grp = false ∧
    s.replaying (s.ctxOf m.team) = false ∧ (s.group m.team m.grp).calls = [] ∧
    ((s.core c).upset = 0 ∧ (s.core c).marred = 0 ∧ (s.core c).struck = false))

theorem Sole.of {s : State} {c : Nat} {x : Issue} {m : Member} (h : soleB s c x m = true) : Sole s c x m := by
  simp only [soleB, decide_eq_true_eq] at h
  obtain ⟨a, b, c, d, e, f, g, h, i, j, k, l⟩ := h
  exact ⟨a, b, c, d, e, f, g, h, i, j, k, l⟩

/-- The lab with a group at user level, at control level, and at machine level. -/
def user : State := lab (gang (crew .user))
def control : State := lab (gang (crew .control))
def machine : State := lab (gang (crew .machine))

theorem user_sole : Sole user 0 clause lanes := Sole.of (by decide +kernel)
theorem control_sole : Sole control 0 clause lanes := Sole.of (by decide +kernel)
theorem machine_sole : Sole machine 0 clause lanes := Sole.of (by decide +kernel)

abbrev always : Guard := ⟨15, false⟩

/-- A fact about every lane of a group, from its test. -/
theorem every {p : Nat → Prop} [DecidablePred p] (h : (List.range 64).all (fun i => decide (p i)) = true) (i : Nat) (hi : i < 64) : p i := by
  simpa using (List.all_eq_true.mp h) i (List.mem_range.mpr hi)

theorem fits {k : VReg} {n : Nat} (h : k.toNat < n) : Reg.fits (.v k) n := h
theorem fitsO {k : VReg} {n : Nat} (h : k.toNat < n) : Opnd.fits (.reg (.v k)) n := h

/-- The lines of the two entries that translate an address below 1 GiB. -/
def tableLines : List Nat := [0x8000, 0x40]

/-- No translation is kept on a core or in its cluster. -/
def coldB (s : State) (core : Nat) : Bool :=
  (s.core core).tlb.isEmpty && (get [] (core / 8) s.l2).isEmpty && (get [] (core / 8) s.mids).isEmpty

theorem current_of {s : State} {core : Nat} (h : coldB s core = true) (c : Nat) : s.Current s core c := by
  simp only [coldB, Bool.and_eq_true, List.isEmpty_iff] at h
  obtain ⟨⟨a, b⟩, d⟩ := h
  exact ⟨fun e he => (by rw [a] at he; cases he), fun e he => (by rw [b] at he; cases he), fun e he => (by rw [d] at he; cases he)⟩

/-- No engine operation owns a line, and no memory is still to be trained. -/
def unownedB (s : State) : Bool := s.ops.all (fun e => e.2.own.isEmpty) && s.dev.service != .reduced

theorem unowned_of {s : State} (h : unownedB s = true) (l : Nat) : s.owned l = false := by
  simp only [unownedB, Bool.and_eq_true, List.all_eq_true, List.isEmpty_iff, bne_iff_ne] at h
  have : s.ops.any (fun e => (some e.1 != none) && e.2.own.contains l) = false := by
    rw [List.any_eq_false]
    intro e he
    simp [h.1 e he]
  unfold State.owned State.ownedBut State.untrained
  simp only [this]
  simp [h.2]

/-- What Storable asks, as one test. -/
def storeB (s : State) (a : Agent) (va : Word) (n : Nat) : Bool :=
  !s.recording a.ctx && coldB s a.core && unownedB s
    && (List.range n).all (fun k => match s.seek a .write (va + BitVec.ofNat 64 (8 * k)) with
      | .ok p => decide (p.addr % 64 + 8 ≤ 64) && !p.held && !s.poisoned (s.keyOf a.ctx) (lineNo p.addr) && !tableLines.contains (lineNo p.addr)
      | .error _ => false)
    && (List.range n).all (fun j => (s.walk a.core a.ctx (va + BitVec.ofNat 64 (8 * j))).lines == tableLines)

theorem Storable.of {s : State} {a : Agent} {va : Word} {n : Nat} (h : storeB s a va n = true) : Storable s a va n := by
  simp only [storeB, Bool.and_eq_true, List.all_eq_true, List.mem_range, Bool.not_eq_true'] at h
  obtain ⟨⟨⟨⟨r, c⟩, o⟩, p⟩, w⟩ := h
  refine ⟨r, current_of c _, fun k hk => ?_⟩
  have q := p k hk
  split at q
  next x e =>
    simp only [Bool.and_eq_true, decide_eq_true_eq, Bool.not_eq_true'] at q
    refine ⟨x, e, q.1.1.1, q.1.1.2, unowned_of o _, q.1.2, fun j hj => ?_⟩
    rw [eq_of_beq (w j hj)]
    intro m
    have c := q.2
    rw [List.contains_iff_mem.mpr m] at c
    cases c
  next => cases q

/-- What Loadable asks, as one test. -/
def loadB (s : State) (a : Agent) (va : Word) (n : Nat) : Bool :=
  !s.recording a.ctx && coldB s a.core && unownedB s
    && (List.range n).all (fun k => match s.seek a .read (va + BitVec.ofNat 64 (8 * k)) with
      | .ok p => decide (p.addr % 64 + 8 ≤ 64) && !p.held && !s.poisoned (s.keyOf a.ctx) (lineNo p.addr)
      | .error _ => false)

theorem Loadable.of {s : State} {a : Agent} {va : Word} {n : Nat} (h : loadB s a va n = true) : Loadable s a va n := by
  simp only [loadB, Bool.and_eq_true, List.all_eq_true, List.mem_range, Bool.not_eq_true'] at h
  refine ⟨h.1.1.1, current_of h.1.1.2 _, fun k hk => ?_⟩
  have q := h.2 k hk
  split at q
  next x e =>
    simp only [Bool.and_eq_true, decide_eq_true_eq, Bool.not_eq_true'] at q
    exact ⟨x, e, q.1.1, q.1.2, unowned_of h.1.2 _, q.2⟩
  next => cases q

/-- What a run of n accesses of w bytes asks of memory, as one test. -/
def runB (s : State) (a : Agent) (va : Word) (n w : Nat) : Bool :=
  !s.recording a.ctx && !s.replaying a.ctx && (s.core a.core).l1.isEmpty && coldB s a.core && unownedB s && a.op.isNone
    && (List.range n).all (fun k => match s.seek a .read (va + BitVec.ofNat 64 (w * k)) with
      | .ok p => decide (p.addr % 64 + w ≤ 64) && !s.poisoned (s.keyOf a.ctx) (lineNo p.addr) && !p.held && decide (p.cls < 2)
      | .error _ => false)

theorem Run.of {s : State} {a : Agent} {va : Word} {n w : Nat} (h : runB s a va n w = true) :
    s.recording a.ctx = false ∧ s.replaying a.ctx = false ∧ Loads a s s ∧
      ∀ k, k < n → Loads.At a s (va + BitVec.ofNat 64 (w * k)) w := by
  simp only [runB, Bool.and_eq_true, List.all_eq_true, List.mem_range, Bool.not_eq_true', List.isEmpty_iff, Option.isNone_iff_eq_none] at h
  obtain ⟨⟨⟨⟨⟨⟨r, p⟩, l⟩, c⟩, o⟩, z⟩, x⟩ := h
  refine ⟨r, p, ⟨z, unowned_of o, Alike.refl s, current_of c _, current_of c _, fun e he => (by rw [l] at he; cases he), fun _ _ k => k⟩,
    fun k hk => ?_⟩
  have q := x k hk
  split at q
  next y e =>
    simp only [Bool.and_eq_true, decide_eq_true_eq, Bool.not_eq_true'] at q
    exact ⟨y, e, q.1.1.1, q.1.1.2, q.1.2, q.2⟩
  next => cases q

/-- Such a run of words is read as memory holds it. -/
theorem reads {s : State} {a : Agent} {va : Word} {n : Nat} (h : runB s a va n 8 = true) :
    ∃ t, State.readWords a s va n = .ok (Loads.words a s va n, t) ∧ Loads a s t := by
  obtain ⟨r, p, l, x⟩ := Run.of h
  exact Loads.readWords r p n va s l x

/-- The agent of the group at a level. -/
def self (l : Level) : Agent := { core := 0, ctx := 0, team := 0, grp := 0, level := l }

theorem user_storable : Storable user (self .control) 0x10000 128 := Storable.of (by decide +kernel)

/-- An answer that is one, of which a test holds. -/
theorem Ok.of {ε α : Type} {r : Except ε α} {p : α → Prop} [DecidablePred p]
    (h : (match r with
      | .ok v => decide (p v)
      | .error _ => false) = true) : ∃ v, r = .ok v ∧ p v := by
  split at h
  next v => exact ⟨v, rfl, of_decide_eq_true h⟩
  next => cases h

theorem Some.of {α : Type} {r : Option α} {p : α → Prop} [DecidablePred p]
    (h : (match r with
      | some v => decide (p v)
      | none => false) = true) : ∃ v, r = some v ∧ p v := by
  split at h
  next v => exact ⟨v, rfl, of_decide_eq_true h⟩
  next => cases h

theorem Reach.of {r : Reach} (h : (match r with
      | .ok _ => true
      | .fault _ | .fill _ => false) = true) : ∃ p, r = .ok p := by
  cases r with
  | ok p => exact ⟨p, rfl⟩
  | fault f => cases h
  | fill k => cases h

/-- An operation of the group with nothing to wait for. -/
def plain (b : Body) : Op :=
  { no := 0, team := 0, grp := 0, core := 0, ctx := 0, level := .user, token := 0x4008, pend := none, begun := false, pts := 0, e := none
    need := [], own := [], etimes := [], pages := [], park := none, held := false, clause := (0x4000, 2), path := 0xFF, await := false
    spent := false, ord := 0, body := b }

/-! ### Hypotheses met: instructions on registers and lanes -/

/-- A user group whose lane 3 holds a misaligned target in V1, and what else the tests read. -/
def aimed : State := lab (gang { crew .user with v := [(67, 1)], s := [(5, 0x10000)] })

theorem meets_IntegerInstructionsComplete : Sole user 0 clause lanes ∧ (63 : VReg).toNat < (lanes.group user).n ∧
    Reg.fits (.v 63) (lanes.group user).n ∧ Reg.fits (.s 63) (lanes.group user).n ∧ Opnd.fits (.lit 0xFFFFFFFF) (lanes.group user).n ∧
    Opnd.fits (.reg (.v 0)) (lanes.group user).n :=
  ⟨user_sole, by decide +kernel, fits (by decide +kernel), trivial, trivial, fitsO (by decide +kernel)⟩

theorem meets_PredicatesAndUniformResults : Sole user 0 clause lanes ∧ Reg.fits (.v 63) (lanes.group user).n ∧
    Opnd.fits (.reg (.v 63)) (lanes.group user).n := ⟨user_sole, fits (by decide +kernel), fitsO (by decide +kernel)⟩

/-- Format registers of the team: FP8 E4M3 and E5M2. -/
def formats : State := lab { gang (crew .user) with f := [(0, 0x0134), (1, 0x0125)] }

theorem meets_FloatsAndConversionsComplete : Sole formats 0 clause lanes ∧ (63 : VReg).toNat < (lanes.group formats).n ∧
    Reg.fits (.v 63) (lanes.group formats).n ∧ Opnd.fits (.lit 0) (lanes.group formats).n ∧
    fmtValid (get 0 0 (formats.team lanes.team).f) (nBits .n8) = true :=
  ⟨Sole.of (by decide +kernel), by decide +kernel, fits (by decide +kernel), trivial, by decide +kernel⟩

theorem meets_SpecialFunctionsAndNarrowDotsBegin : Sole formats 0 clause lanes ∧ (63 : VReg).toNat < (lanes.group formats).n ∧
    Reg.fits (.v 0) (lanes.group formats).n ∧ (62 : VReg).toNat + 1 < (lanes.group formats).n ∧
    lanes.canCount formats always ⟨0, some 7⟩ ∧ fmtValid (get 0 0 (formats.team lanes.team).f) (nBits .n8) = true ∧
    fmtValid (get 0 1 (formats.team lanes.team).f) (nBits .n8) = true :=
  ⟨Sole.of (by decide +kernel), by decide +kernel, fits (by decide +kernel), by decide +kernel, fun _ h _ => by cases h; decide, by decide +kernel, by decide +kernel⟩

theorem meets_ShortFormsComplete : Sole user 0 clause lanes ∧ (63 : BitVec 6).toNat < (lanes.group user).n :=
  ⟨user_sole, by decide +kernel⟩

theorem meets_BranchesComplete : Sole aimed 0 clause lanes ∧ aimed.quiet 0 ∧ (63 : VReg).toNat < (lanes.group aimed).n ∧
    Reg.fits (.s 5) (lanes.group aimed).n ∧
    ∀ i, i < 64 → (lanes.active aimed always).getLsbD i = true →
      ((lanes.group aimed).reg (.s 5) i).extractLsb' 0 3 = 0 ∧ canonicalVa ((lanes.group aimed).reg (.s 5) i) = true :=
  ⟨Sole.of (by decide +kernel), rfl, by decide +kernel, trivial, by decide +kernel⟩

theorem meets_BadTargetsAndLowLevelsTrap : Sole aimed 0 clause lanes ∧ aimed.quiet 0 ∧ (aimed.core 0).second = none ∧
    (lanes.group aimed).level = .user ∧ Storable aimed (self .control) (lanes.group aimed).s2 128 ∧
    maskOf (fun i => (lanes.active aimed always).getLsbD i && decide (¬(((lanes.group aimed).reg (.v 1) i).extractLsb' 0 3 = 0 ∧
      canonicalVa ((lanes.group aimed).reg (.v 1) i) = true))) = 8 ∧ (0 : VReg).toNat < (lanes.group aimed).n ∧
    Reg.fits (.v 1) (lanes.group aimed).n ∧ (lanes.group aimed).late = none ∧ aimed.writing lanes.team lanes.grp = false :=
  ⟨Sole.of (by decide +kernel), rfl, rfl, rfl, Storable.of (by decide +kernel), by decide +kernel, by decide +kernel, fits (by decide +kernel), rfl, by decide +kernel⟩

/-- A group that waits for its own lane 7, which stands elsewhere: the path in issue is the other seven lanes. -/
def seven : Member := ⟨0, 0, 0x7F⟩
def apart : State :=
  { lab (gang { crew .user with j := [(0, 0xFF), (1, 0x0F)], s := [(5, 100)], d := [(2, 1)] }) with
    cores := [(0, { Core.empty with issue := some { clause with members := [seven] } })] }

/-- The same group, whose lanes have been let go at this header. -/
def freed : State :=
  { lab (gang { crew .user with j := [(0, 0xFF)], arrive := [(0x4000, 0xFF)] }) with
    cores := [(0, { Core.empty with issue := some { clause with members := [seven] } })] }

theorem meets_JoinsAndIssueControlComplete : Sole apart 0 { clause with members := [seven] } seven ∧
    (∀ i, i < 64 → ((seven.group apart).jreg 1).getLsbD i = true → seven.lanes.getLsbD i = true) ∧
    (∃ i, i < 64 ∧ ((seven.group apart).jreg 0).getLsbD i = true ∧ ¬(seven.lanes.getLsbD i = true ∨ (seven.group apart).state i = 0 ∨
      (seven.group apart).state i = 2 ∨ ((seven.group apart).state i = 3 ∧ (seven.group apart).lanePc i = 0x4000))) ∧
    (∃ i, i < 64 ∧ seven.lanes.getLsbD i = true ∧ ((seven.group apart).jreg 0).getLsbD i = true ∧
      (get 0 0x4000 (seven.group apart).arrive).getLsbD i = false) ∧
    (Sole freed 0 { clause with members := [seven] } seven ∧ ∀ i, i < 64 → seven.lanes.getLsbD i = true →
      ((seven.group freed).jreg 0).getLsbD i = true → (get 0 0x4000 (seven.group freed).arrive).getLsbD i = true) ∧
    (∀ k, k < 8 → (0x02 : BitVec 8).getLsbD k = true → (seven.group apart).dreg k = 0) ∧
    (∃ k, k < 8 ∧ (0x04 : BitVec 8).getLsbD k = true ∧ (seven.group apart).dreg k ≠ 0) ∧
    ((seven.group apart).sreg 0).toNat = 0 ∧ 0 < ((seven.group apart).sreg 5).toNat ∧ ((seven.group apart).sreg 5).toNat < 2 ^ 40 :=
  ⟨Sole.of (by decide +kernel), by decide +kernel, ⟨7, by decide +kernel⟩, ⟨0, by decide +kernel⟩, ⟨Sole.of (by decide +kernel), by decide +kernel⟩,
    by decide +kernel, ⟨2, by decide +kernel⟩, by decide +kernel, by decide +kernel, by decide +kernel⟩

theorem user_still (k : Nat) : (user.group 0 k).wait = [] := by
  cases k <;> rfl

theorem user_orders (k : Nat) : ∀ e ∈ (user.group lanes.team k).wait, e.2 ≠ .order := by
  rw [show (user.group lanes.team k).wait = [] from user_still k]
  simp

theorem meets_ExitAndRasterOrderComplete : Sole user 0 clause lanes ∧
    (∀ k, ∀ e ∈ (user.group lanes.team k).wait, e.2 ≠ .order) ∧
    (∀ e ∈ (lanes.group user).pend, e.2.left_ = true ∨ e.2.lanes &&& lanes.active user always = 0 ∨
      (e.2.vw = [] ∧ e.2.pw = [] ∧ e.2.sw = [])) ∧ (lanes.group user).sort = .normal :=
  ⟨user_sole, user_orders, by decide +kernel, rfl⟩

/-- The barrier 3 of a team: nobody has arrived, and one of two has. -/
def bar (n : Nat) : State := lab { gang (crew .user) with bars := [(3, ⟨n, 2, false, 9⟩)] }

theorem meets_BarriersComplete :
    Sole (bar 0) 0 clause lanes ∧ lanes.active (bar 0) always ≠ 0 ∧ ((bar 0).team 0).bar 3 = ⟨0, 2, false, 9⟩ ∧
    Sole (bar 1) 0 clause lanes ∧ lanes.active (bar 1) always ≠ 0 ∧ (((bar 1).team 0).bar 3).expect = (2 : BitVec 10).toNat ∧
    (((bar 1).team 0).bar 3).phase = ((lanes.group (bar 1)).sreg 0).getLsbD 0 ∧
    (((bar 1).team 0).bar 3).phase ≠ true :=
  ⟨Sole.of (by decide +kernel), by decide +kernel, by decide +kernel, Sole.of (by decide +kernel), by decide +kernel, by decide +kernel, by decide +kernel, by decide +kernel⟩

/-- A team with a jump table of two entries at 0x2000: 0x4000 and 0x5000. -/
def table : State :=
  { lab (gang { crew .user with s := [(5, 0x2000)], v := [(64, 1)], p := [(0, 1)] }) with
    mem := [(0x1000, 0x3B), (0x1003, 0x40), (0x200000, 0x01), (0x200001, 0x10), (0x40002001, 0x40), (0x40002009, 0x50)] }

/-- A guard that P0 gives, true in lane 0 alone where a test sets it so. -/
abbrev first : Guard := ⟨0, false⟩

theorem meets_JumpTablesComplete : Sole table 0 clause lanes ∧ Reg.fits (.v 1) (lanes.group table).n ∧
    lanes.active table first ≠ 0 ∧ ((lanes.group table).sreg 5).extractLsb' 0 3 = 0 ∧
    (let va := fun i => (lanes.group table).sreg 5 + ((lanes.group table).reg (.v 1) i <<< 3)
    let t := fun i => get 0 i (State.tableLoads (lanes.agent table 0) va table (lanesOf (lanes.active table first))).1
    (∀ i, i < 64 → (lanes.active table first).getLsbD i = true → ((lanes.group table).reg (.v 1) i).toNat ≤ (1 : BitVec 10).toNat ∧
      table.probe (lanes.agent table 0) .read true (va i) = none ∧ (t i).extractLsb' 0 3 = 0 ∧ canonicalVa (t i) = true) ∧
    t 0 = 0x5000 ∧ table.ownedAmong (lanes.agent table 0) .read ((lanesOf (lanes.active table first)).map va) = []) :=
  ⟨Sole.of (by decide +kernel), fits (by decide +kernel), by decide +kernel, by decide +kernel, by decide +kernel, by decide +kernel, by decide +kernel⟩

theorem meets_SystemRegisterReadsComplete : Sole user 0 clause lanes ∧ (lanes.group user).level.atLeast (readLevel .flags) = true ∧
    (∀ e ∈ (lanes.group user).pend, e.2.left_ = true) ∧ (63 : VReg).toNat < (lanes.group user).n ∧
    Sole control 0 clause lanes ∧ (lanes.group control).level.atLeast (readLevel .tvec) = true ∧
    (let e := user.env 0 clause lanes always
    e.ctx < 1024 ∧ (user.ctx e.ctx).part < 128 ∧ e.grp < 16 ∧ (e.group user).role < 8 ∧ (e.group user).n < 1024 ∧
      (user.team e.team).no < 2 ^ 24 ∧ (user.team e.team).gang < 2 ^ 24 ∧ (user.team e.team).rank < 8 ∧
      (user.team e.team).gsize < 16 ∧ (e.group user).prio < 16 ∧ (e.group user).credit < 16) ∧
    (∀ p ∈ (lanes.group user).pend, p.2.left_ = true ∨ p.2.lanes &&& lanes.active user always = 0) ∧
    (∀ f ∈ (lanes.group user).fences, f.2.1 &&& lanes.active user always = 0) ∧ (lanes.group user).fences = [] ∧ user.quiet 0 :=
  ⟨user_sole, by decide +kernel, by decide +kernel, by decide +kernel, control_sole, by decide +kernel, by decide +kernel, by decide +kernel, by decide +kernel, rfl, rfl⟩

theorem meets_SystemRegisterWritesComplete : Sole machine 0 clause lanes ∧ machine.quiet 0 ∧ Reg.fits (.v 0) (lanes.group machine).n ∧
    (∀ e ∈ (lanes.group machine).pend, e.2.left_ = true) ∧ (lanes.group machine).level.atLeast .control = true ∧
    (lanes.group machine).level.atLeast .machine = true := ⟨machine_sole, rfl, fits (by decide +kernel), by decide +kernel, rfl, rfl⟩

theorem meets_LeaseLengths : Sole control 0 clause lanes ∧ (lanes.group control).level.atLeast .control = true ∧
    Reg.fits (.s 0) (lanes.group control).n ∧ lanes.active control always ≠ 0 := ⟨control_sole, rfl, trivial, by decide +kernel⟩

/-- A sequencer that reads a word with a guard that no stream takes. -/
def stray : State :=
  { lab { gang (crew .user) with seq := { Seq.idle with
      st := .running, hdr := 0x4000, at_ := 0x4008, body := [0x0D, 0x07, 0, 0, 0, 0, 0, 0] } } with turn := .seq 0 }

theorem meets_GuardsDecideTheActiveLanes : stray.turn = .seq 0 ∧ stray.agenda = [] ∧ stray.dev.still = false ∧ stray.dev.deep = false ∧
    (stray.team 0).seq.st = .running ∧ (stray.team 0).seq.body ≠ [] ∧
    fetched (stray.seqVersion 0) (stray.team 0).seq.body (stray.team 0).seq.pos = none ∧
    (0x0709 : BitVec 96).extractLsb' 0 2 ≠ 0 ∧ 0x1C2 ≤ ((0x0709 : BitVec 96).extractLsb' 2 9).toNat ∧
    ((0x0709 : BitVec 96).extractLsb' 2 9).toNat ≤ 0x1CA ∧ (0x0709 : BitVec 96).extractLsb' 11 4 ≠ 15 :=
  ⟨rfl, rfl, by decide +kernel, rfl, rfl, by decide +kernel, by decide +kernel, by decide +kernel, by decide +kernel, by decide +kernel, by decide +kernel⟩

theorem meets_IndirectRegistersAndFormatsComplete : Sole user 0 clause lanes ∧ (63 : VReg).toNat < (lanes.group user).n ∧
    Reg.fits (.v 1) (lanes.group user).n ∧ (∀ i, i < 64 → (lanes.active user always).getLsbD i = true →
      ((lanes.group user).reg (.v 1) i).toNat < (lanes.group user).n) ∧ lanes.canCount user always ⟨3, some 0⟩ :=
  ⟨user_sole, by decide +kernel, fits (by decide +kernel), by decide +kernel, fun _ h _ => by cases h; decide⟩

/-- Every active lane of eight is at its header, and V4 names S7's members. -/
def met : State := lab (gang { crew .user with s := [(7, 0xFF)] })

theorem meets_CrossLaneInstructionsComplete : Sole met 0 clause lanes ∧ (63 : VReg).toNat < (lanes.group met).n ∧
    Reg.fits (.s 9) (lanes.group met).n ∧ Reg.fits (.v 0) (lanes.group met).n ∧
    (let v := (met.env 0 clause lanes always).visit (lanes.group met) always 7
    (lanes.group met).badMembers v.members = 0 ∧ (lanes.group met).memberLacks clause.hdr lanes.lanes v.members = 0 ∧
      v.members.getLsbD ((v.src.sreg 0).extractLsb' 0 6).toNat = true ∧ v.act &&& v.members ≠ 0 ∧
      ∀ q, q < 16 → (∀ j, j < 4 → v.members.getLsbD (4 * q + j) = true) ∨ (∀ j, j < 4 → v.members.getLsbD (4 * q + j) = false)) :=
  ⟨Sole.of (by decide +kernel), by decide +kernel, trivial, fits (by decide +kernel), by decide +kernel⟩

/-- The path is lanes 0 to 6; lane 7 stands at another header. -/
def awaited : State :=
  { lab (gang { crew .user with s := [(7, 0xFF)], pc := (List.range 8).map (fun i => (i, if i = 7 then 0x5000 else 0x4000)) }) with
    cores := [(0, { Core.empty with issue := some { clause with members := [seven] } })] }

theorem meets_CrossLaneMembersWait : Sole awaited 0 { clause with members := [seven] } seven ∧
    (63 : VReg).toNat < (seven.group awaited).n ∧ Reg.fits (.s 9) (seven.group awaited).n ∧
    (seven.group awaited).xsrc = none ∧
    (let v := (awaited.env 0 { clause with members := [seven] } seven always).visit (seven.group awaited) always 7
    (seven.group awaited).badMembers v.members = 0 ∧ (seven.group awaited).memberLacks 0x4000 seven.lanes v.members ≠ 0) :=
  ⟨Sole.of (by decide +kernel), by decide +kernel, trivial, rfl, by decide +kernel⟩

/-- Strings at share offsets 0, 0x100 and 0x200 with a step of 64 bytes. -/
def strings : State := lab (gang { crew .user with s := [(4, 0x4000000000), (5, 0x4000000100), (6, 0x4000000200), (7, 0x4000000300)] })

theorem meets_StreamsBegin : Sole strings 0 clause lanes ∧ lanes.canCount strings always ⟨0, some 1⟩ ∧
    (let h := lanes.group strings
    strings.strCheck (strings.env 0 clause lanes always) 2 [h.sreg 4, h.sreg 5, h.sreg (5 + 1)] [h.sreg 7] = none ∧
      strings.strCheck (strings.env 0 clause lanes always) 2 [h.sreg 4] [] = none) ∧ (63 : VReg).toNat < (lanes.group strings).n :=
  ⟨Sole.of (by decide +kernel), (fun _ h _ => by cases h; decide +kernel), by decide +kernel, by decide +kernel⟩

/-! ### Hypotheses met: memory -/

/-- A tensor of sixteen 64-bit elements at 0x3000, with every permission, bound as entry 0. -/
def tensor : BitVec 768 := BitVec.ofNat 768 (1 + 2 ^ 4 + 3 * 2 ^ 8 + 7 * 2 ^ 24 + 0x3000 * 2 ^ 64 + 16 * 2 ^ 128)

/-- Memory with a record bound as entry 0 of the context's table, and a record at 0x6000. -/
def bound (r : BitVec 768) : List Host.Cell :=
  writeN (writeN (writeN tables 0x40006000 96 r.toNat) 0x100000 96 r.toNat) 0x100064 1 1

/-- A user group whose lane i holds 0x2000 + 8 i in V1 and i in V2, with addresses and shapes in uniform registers. -/
def store : State :=
  { lab (gang { crew .user with
      v := (List.range 8).map (fun i => (64 + i, BitVec.ofNat 64 (0x2000 + 8 * i))) ++
        (List.range 8).map (fun i => (128 + i, BitVec.ofNat 64 i)) ++ (List.range 8).map (fun i => (192 + i, BitVec.ofNat 64 (8 * i))),
      s := [(8, 0x6000), (9, 0x2000), (10, 0x3000), (11, 16), (12, 16), (13, 256)] }) with mem := bound tensor }

theorem store_sole : Sole store 0 clause lanes := Sole.of (by decide +kernel)
theorem store_counts (ll : Ll) : lanes.canCount store always ll := fun k _ _ => by
  have : (lanes.group store).dreg k.toNat = 0 := by generalize k.toNat = n; rfl
  omega

theorem store_requests : lanes.canRequest store 0 always := by
  show store.requests 0 + _ ≤ _
  decide +kernel

theorem meets_LoadsBegin :
    let h := lanes.group store
    let b := lanes.agent store 0
    let act := lanes.active store always
    let va := h.memAddr ⟨.v 1, .s 0, 0, none⟩
    let near := h.memAddr ⟨.v 3, .s 0, 0, none⟩
    let at_ := fun i => (h.coords (.v 2) i).take (recRank tensor)
    let hs := store.hits b .read (maskOf (fun i => act.getLsbD i && (store.memFault b .read true (va i) 8).isNone)) va 8
    let xs := store.slots 0 (maskOf (fun i => act.getLsbD i && (store.shareFault 0 true (near i) 8).isNone)) near 8
    Sole store 0 clause lanes ∧ (63 : VReg).toNat + Sz.b8.regs ≤ h.n ∧ Reg.fits (.v 1) h.n ∧ lanes.canCount store always ⟨0, none⟩ ∧
    lanes.canRequest store 0 always ∧
    (∀ i, i < 64 → act.getLsbD i = true → store.memFault b .read true (va i) 8 = none ∧ store.shareFault 0 true (near i) 8 = none ∧
      store.elementFault b .read tensor (at_ i) = none ∧ store.elementOwned b .read tensor (at_ i) = []) ∧
    store.ownedHits b true hs = [] ∧ store.absentLines (xs.map (fun y => (y.team, y.off, 8))) = none ∧ hs.length = 8 ∧ xs.length = 8 ∧
    store.resolve 0 (h.sreg 0) = some tensor ∧ tensor.getLsbD 24 = true ∧ sxBad false tensor = false ∧ store.Current store 0 0 ∧
    (∀ q ∈ hs, store.Fresh 0 0 q.spot.cls q.spot.addr 8) ∧
    (∀ i, i < 64 → act.getLsbD i = true → ∀ q ∈ elementPieces tensor (at_ i),
      (match store.seek b .read q.1 with
        | .ok p => decide (store.recording 0 = false ∧ p.cls ≠ 5 ∧ p.addr % 64 + q.2 ≤ 64 ∧ find (l1Key 0 (lineNo p.addr)) (store.core 0).l1 = none)
        | .error _ => false) = true) :=
  ⟨store_sole, by decide +kernel, fits (by decide +kernel), store_counts _, store_requests, by decide +kernel, by decide +kernel,
    by decide +kernel, by decide +kernel, by decide +kernel, by decide +kernel, by decide +kernel, by decide +kernel,
    current_of (by decide +kernel) 0, by unfold State.Fresh; decide +kernel, by decide +kernel⟩

theorem meets_StoresBegin :
    let h := lanes.group store
    let b := lanes.agent store 0
    let act := lanes.active store always
    let va := h.memAddr ⟨.v 1, .s 0, 0, none⟩
    let near := h.memAddr ⟨.v 3, .s 0, 0, none⟩
    let hs := store.hits b .write act va 8
    let xs := store.slots 0 act near 8
    let at_ := fun i => (h.coords (.v 2) i).take (recRank tensor)
    Sole store 0 clause lanes ∧ lanes.canCount store always ⟨0, none⟩ ∧ lanes.canRequest store 0 always ∧ h.helper = 0 ∧
    (∀ i, i < 64 → act.getLsbD i = true → store.memFault b .write false (va i) 8 = none ∧ store.shareFault 0 false (near i) 8 = none ∧
      store.elementFault b .write tensor (at_ i) = none ∧ store.elementOwned b .write tensor (at_ i) = []) ∧
    store.ownedHits b false hs = [] ∧ store.absentLines (xs.map (fun y => (y.team, y.off, 8))) = none ∧
    store.resolve 0 (h.sreg 0) = some tensor ∧ tensor.getLsbD 25 = true ∧
    (∀ q ∈ hs, store.Plain 0 q.spot.cls q.spot.addr 8) ∧
    (∀ i, i < 64 → act.getLsbD i = true → ∀ q ∈ elementPieces tensor (at_ i),
      (match store.seek b .write q.1 with
        | .ok p => decide (store.recording 0 = false ∧ p.cls ≠ 5 ∧ (store.line (lineNo p.addr)).key = 0 ∧
            ∀ g ∈ store.guarded p.addr, g.mask p.addr q.2 = 0)
        | .error _ => false) = true) ∧
    hs.Pairwise (fun q r => q.spot.addr + 8 ≤ r.spot.addr ∨ r.spot.addr + 8 ≤ q.spot.addr) ∧
    xs.Pairwise (fun q r => q.team = r.team → q.off + 8 ≤ r.off ∨ r.off + 8 ≤ q.off) ∧ hs.length = 8 ∧ xs.length = 8 :=
  ⟨store_sole, store_counts _, store_requests, rfl, by decide +kernel, by decide +kernel, by decide +kernel, by decide +kernel, by decide +kernel,
    by unfold State.Plain; decide +kernel,
    by decide +kernel,
    by decide +kernel, by decide +kernel, by decide +kernel, by decide +kernel⟩

theorem meets_AtomicsBegin :
    let h := lanes.group store
    let b := lanes.agent store 0
    let act := lanes.active store always
    let hs := store.hits b .write act (h.addrOff (.v 1) none) 8
    let xs := store.slots 0 act (h.addrOff (.v 3) none) 8
    Sole store 0 clause lanes ∧ lanes.canCount store always ⟨0, none⟩ ∧ lanes.canRequest store 0 always ∧ h.helper = 0 ∧
    (∀ i, i < 64 → act.getLsbD i = true → store.atomFault b .dev (h.addrOff (.v 1) none i) 8 = none ∧
      store.shareFault 0 true (h.addrOff (.v 3) none i) 8 = none) ∧
    store.ownedHits b false hs = [] ∧ store.absentLines (xs.map (fun y => (y.team, y.off, 8))) = none ∧
    (∀ q ∈ hs, store.Plain 0 q.spot.cls q.spot.addr 8) ∧ hs.length = 8 ∧ xs.length = 8 ∧
    hs.Pairwise (fun q r => q.spot.addr + 8 ≤ r.spot.addr ∨ r.spot.addr + 8 ≤ q.spot.addr) ∧
    xs.Pairwise (fun q r => q.team = r.team → q.off + 8 ≤ r.off ∨ r.off + 8 ≤ q.off) :=
  ⟨store_sole, store_counts _, store_requests, rfl, by decide +kernel, by decide +kernel, by decide +kernel,
    by unfold State.Plain; decide +kernel, by decide +kernel, by decide +kernel, by decide +kernel, by decide +kernel⟩

theorem meets_FencesWaitsAndWakesComplete :
    let h := lanes.group store
    let b := lanes.agent store 0
    let act := lanes.active store always
    let va := h.keyVa (.v 1) (.short 0)
    Sole store 0 clause lanes ∧ (63 : VReg).toNat < h.n ∧
    (∀ i, i < 64 → act.getLsbD i = true → store.keyFault b true (va i) = none ∧ store.keyFault b false (va i) = none) ∧
    store.ownedHome b .read ((lanesOf act).map va) = [] ∧ store.recording 0 = false ∧ store.Current store 0 0 ∧ store.regs = [] :=
  ⟨store_sole, by decide +kernel, by decide +kernel, by decide +kernel, by decide +kernel, current_of (by decide +kernel) 0, rfl⟩

theorem meets_CopiesBegin :
    let h := lanes.group store
    let e := store.env 0 clause lanes always
    Sole store 0 clause lanes ∧ lanes.canCount store always ⟨0, none⟩ ∧ store.resolve 0 (h.sreg 0) = some tensor ∧
    tensor.getLsbD 26 = true ∧
    store.copyCheck e h
      { form := 0, handle := h.sreg 0, record := tensor, org := h.coords (.s 0) 0, share := 0, mem := 0, count := 0,
        row := 0, rows := winRows tensor, shelf := none, slot := none, clears := [], stamp := 0, time := 0 } 0 = none ∧
    store.copyCheck e h
      { form := 4, handle := 0, record := 0, org := [], share := 0, mem := 0x3000, count := 256, row := 0, rows := 1,
        shelf := none, slot := none, clears := [], stamp := 0, time := 0 } 0 = none :=
  ⟨store_sole, store_counts _, by decide +kernel, by decide +kernel, by decide +kernel, by decide +kernel⟩

/-- What the near-memory statements ask of the ranges at S9 and S10 of sixteen bytes. -/
def nearB (s : State) (sp : List Span) : Bool :=
  let e := lanes.agent s 0
  decide (s.spanClass e sp = false ∧ s.spanFault e sp = none ∧ s.spanHeld e sp = [])

/-- The places of units of a range. -/
def nearAt (s : State) (use : Use) (vas : List Word) (n : Nat) : List (Nat × Nat × Nat) := s.placesOf (lanes.agent s 0) use vas n

/-- Another group's operation that owns the line at 0x2000. -/
def storeOwned : State :=
  { store with ops := [(0, { plain .drain with grp := 1, e := some 1, own := [lineNo 0x40002000], begun := true })] }

theorem meets_NearMemoryCommandsBegin :
    let h := lanes.group store
    let e := lanes.agent store 0
    let r := fun k => h.sreg k
    let fill : List Span := [⟨.write, r 9, 16⟩]
    let copy : List Span := [⟨.write, r 9, 16⟩, ⟨.read, r 10, 16⟩]
    let cmp : List Span := [⟨.read, r 9, 16⟩, ⟨.read, r 10, 16⟩]
    let red : List Span := [⟨.write, r 9, 8⟩, ⟨.read, r 10, 128⟩]
    Sole store 0 clause lanes ∧ lanes.canCount store always ⟨0, none⟩ ∧ lanes.active store always ≠ 0 ∧
    (r 9).toNat % 8 = 0 ∧ (r 10).toNat % 8 = 0 ∧ (r 11).toNat % 8 = 0 ∧ 8 ≤ (r 11).toNat ∧ (r 11).toNat ≤ 2 ^ 40 ∧
    overlap (r 9) (r 10) (r 11).toNat = false ∧ (∀ sp ∈ [fill, copy, cmp, red], nearB store sp = true) ∧ r 11 ≠ 0 ∧ (r 11).toNat < 2 ^ 32 ∧
    (∀ p ∈ nearAt store .write (unitsOf 8 (r 9) 16) 8 ++ nearAt store .read (unitsOf 8 (r 10) 16) 8 ++ nearAt store .write [r 9] 8,
      store.owned (lineNo p.2.1) = false ∧ store.Plain 0 p.1 p.2.1 p.2.2) ∧
    (∀ y ∈ nearAt store .read (unitsOf 8 (r 9) 16) 8 ++ nearAt store .read (unitsOf 8 (r 10) 16) 8
        ++ nearAt store .read (unitsOf 8 (r 10) 128) 8, y.1 ≠ 5) ∧
    (let lines := cmp.flatMap (fun y => store.placesOf e .read y.lines 64) ++ store.placesOf e .read (unitsOf 64 (r 10) 128) 64
    store.srcWaits e lines = [] ∧ ∀ y ∈ lines, store.poisoned (store.keyOf 0) (lineNo y.2.1) = false) ∧ store.recording 0 = false ∧
    (nearAt store .read (unitsOf 8 (r 9) 16) 8).length = 2 ∧ (nearAt store .read (unitsOf 8 (r 10) 16) 8).length = 2 ∧
    (nearAt store .write (unitsOf 8 (r 9) 16) 8).Pairwise (fun p q => p.2.1 + p.2.2 ≤ q.2.1 ∨ q.2.1 + q.2.2 ≤ p.2.1) :=
  ⟨store_sole, store_counts _, by decide +kernel, by decide +kernel, by decide +kernel, by decide +kernel, by decide +kernel,
    by decide +kernel, by decide +kernel, by decide +kernel, by decide +kernel, by decide +kernel, by unfold State.Plain; decide +kernel,
    by decide +kernel, by decide +kernel, by decide +kernel, by decide +kernel, by decide +kernel, by decide +kernel⟩

theorem meets_NearMemoryCommandsBegin_owned :
    let r := fun k => (lanes.group storeOwned).sreg k
    let fill : List Span := [⟨.write, r 9, 16⟩]
    let copy : List Span := [⟨.write, r 9, 16⟩, ⟨.read, r 10, 16⟩]
    Sole storeOwned 0 clause lanes ∧ lanes.active storeOwned always ≠ 0 ∧ (∀ sp ∈ [fill, copy], nearB storeOwned sp = true) ∧
    ¬(∀ p ∈ nearAt storeOwned .write (unitsOf 8 (r 9) 16) 8, storeOwned.owned (lineNo p.2.1) = false) ∧
      ∀ p ∈ nearAt storeOwned .write (unitsOf 8 (r 9) 16) 8, ordered p.1 = true :=
  ⟨Sole.of (by decide +kernel), by decide +kernel, by decide +kernel, by decide +kernel, by decide +kernel⟩

theorem meets_BindingTableInstructionsBegin :
    let h := lanes.group store
    let e := lanes.agent store 0
    (∃ ws t, State.readWords e store (h.sreg 8) 12 = .ok (ws, t) ∧ t.mem = store.mem ∧
      recDefect (BitVec.ofNat 768 (joinWords ws)) = none) ∧
    Sole store 0 clause lanes ∧ lanes.canCount store always ⟨0, none⟩ ∧ lanes.active store always ≠ 0 ∧
    (store.ctx 0).bindt.toNat % 128 = 0 ∧ (h.sreg 8).toNat % 32 = 0 ∧ store.wordsOwned e (h.sreg 8) 12 = [] ∧
    recDefect tensor = none ∧ store.recording 0 = false ∧ store.bindFree 0 1 = true ∧ (∀ j, j < 1 → store.bindFree 0 j = false) ∧
    store.resolve 0 (h.sreg 0) = some tensor := by
  obtain ⟨t, e, l⟩ := reads (s := store) (a := lanes.agent store 0) (va := (lanes.group store).sreg 8) (n := 12) (by decide +kernel)
  exact ⟨⟨_, t, e, l.alike.mem, by decide +kernel⟩, store_sole, store_counts _, by decide +kernel, by decide +kernel, by decide +kernel,
    by decide +kernel, by decide +kernel, by decide +kernel, by decide +kernel, by decide +kernel, by decide +kernel⟩

/-! ### Hypotheses met: shelves and the matrix unit -/

/-- Shelf 1 of four slots: one to take, one taken and not released, one acquired and not committed, one free. -/
def rack : Shelf := { Shelf.off with slotl := 1, nslot := 4, cfg := true, acq := (3, false), com := (2, false), tak := (1, false) }

/-- A team with that shelf, in whose S5 a configuration of four slots for another stands, and in S4 a place in its share. -/
def shelves : State := lab { gang { crew .user with s := [(4, 0x40), (5, 0x03010020), (6, 32)] } with h := [(1, rack)] }

theorem meets_ShelvesComplete :
    Sole shelves 0 clause lanes ∧ Reg.fits (.s 4) (lanes.group shelves).n ∧ lanes.active shelves always ≠ 0 ∧
    ((shelves.team 0).shelf 2 = Shelf.off ∧ (shelves.team 0).badShelf 2 ((lanes.group shelves).sreg 5) = false) ∧
    ((shelves.team 0).shelf 1 = rack ∧ rack.wants = [] ∧ rack.dues = [] ∧ rack.cfg = true) ∧
    ((1 : BitVec 7).toNat ≤ rack.nslot ∧ (1 : BitVec 7).toNat ≤ rack.room ∧ (1 : BitVec 7).toNat ≤ rack.full ∧
      (1 : BitVec 7).toNat ≤ rack.dist rack.acq rack.com ∧ (1 : BitVec 7).toNat ≤ rack.dist rack.tak rack.rel) ∧
    ((4 : BitVec 7).toNat ≤ rack.nslot ∧ rack.room < (4 : BitVec 7).toNat ∧ rack.full < (4 : BitVec 7).toNat) ∧
    shelves.plainCopies 0 0 (some false) = [] ∧ shelves.plainCopies 0 0 (some true) = [] ∧
    (∀ i, i < 64 → (lanes.active shelves always).getLsbD i = true →
      (shelves.ownRange 0 ((lanes.group shelves).reg (.s 4) i + (0x20 : W32).signExtend 64) ((lanes.group shelves).reg (.s 6) i)).isSome = true) :=
  ⟨Sole.of (by decide +kernel), trivial, by decide +kernel, by decide +kernel, by decide +kernel, by decide +kernel, by decide +kernel,
    by decide +kernel, by decide +kernel, by decide +kernel⟩

/-- A sequencer that runs a stream at 0x4000. -/
def running : Seq := { Seq.idle with st := .running, at_ := 0x4008, start := 0x4000, hdr := 0x4000, body := [0x09, 0x7F, 0, 0, 0, 0, 0, 0] }

/-- A user group with a tile map in S8 to S11: 128 rows of 128 FP32 elements from 0 on. -/
def tiled (q : Seq) : State :=
  lab { gang { crew .user with s := [(5, 0x4000), (8, 0x002001007F7F0000)] } with seq := q, size := 65536 }

theorem meets_MatrixControlCompletes :
    Sole (tiled Seq.idle) 0 clause lanes ∧ lanes.active (tiled Seq.idle) always ≠ 0 ∧ lanes.canCount (tiled Seq.idle) always ⟨0, none⟩ ∧
    ((lanes.group (tiled Seq.idle)).sreg 5).extractLsb' 0 3 = 0 ∧ canonicalVa ((lanes.group (tiled Seq.idle)).sreg 5) = true ∧
    ((tiled Seq.idle).team 0).seq.st = .idle ∧ ((tiled Seq.idle).team 0).seq.maps.contains 3 = false ∧
    (let h := lanes.group (tiled Seq.idle)
    tmapDefect ((tiled Seq.idle).team 0).size (h.sreg 11 ++ h.sreg 10 ++ h.sreg 9 ++ h.sreg 8) = none) ∧
    (let s := tiled { running with begun := true }
    Sole s 0 clause lanes ∧ (s.team 0).seq.st = .running ∧ (s.team 0).seq.begun = true) ∧
    (let s := tiled { running with st := .atBarrier, back := .running }
    Sole s 0 clause lanes ∧ (s.team 0).seq.st = .atBarrier ∧ (s.team 0).seq.held = false) :=
  ⟨Sole.of (by decide +kernel), by decide +kernel, fun _ h _ => (by cases h), by decide +kernel, by decide +kernel, by decide +kernel,
    by decide +kernel, by decide +kernel, ⟨Sole.of (by decide +kernel), by decide +kernel, by decide +kernel⟩,
    ⟨Sole.of (by decide +kernel), by decide +kernel, by decide +kernel⟩⟩

/-- The sequencer of a team has the turn, with the loop levels given; shelf 1 is as above and barrier 3 has had one of two arrivals. -/
def strand (loops : List (Nat × Nat)) (n : Nat) : State :=
  { lab { gang (crew .user) with seq := { running with loops := loops }, h := [(1, rack)], bars := [(3, ⟨n, 2, false, 9⟩)] } with turn := .seq 0 }

theorem meets_MatrixStreamControlCompletes : ∀ s ∈ [strand [] 0, strand [(1, 8)] 1, strand [(7, 16), (1, 8)] 1],
    s.turn = .seq 0 ∧ (find 0 s.teams).isSome = true ∧
    (let q := (s.team 0).seq
    let f := (s.team 0).shelf 1
    let y := (s.team 0).bar 3
    q.st = .running ∧ q.begun = false ∧ q.held = false ∧ q.op = none ∧ q.stop = false ∧ (find q.grp (s.team 0).groups).isSome = true ∧
    (f.cfg = true ∧ f.wants = [] ∧ f.dues = [] ∧ (4 : BitVec 7).toNat ≤ f.nslot ∧
      (1 : BitVec 7).toNat ≤ f.full ∧ f.full < (4 : BitVec 7).toNat ∧ (1 : BitVec 7).toNat ≤ f.room ∧ f.room < (4 : BitVec 7).toNat ∧
      (1 : BitVec 7).toNat ≤ f.dist f.tak f.rel ∧ (1 : BitVec 7).toNat ≤ f.dist f.acq f.com) ∧
    (y.count = 0 ∨ y.expect = (2 : BitVec 10).toNat) ∧
    q.loops.length < 4 ∧ (q.next - q.start).toNat < 2 ^ 32) := by decide +kernel

/-- The sequencer of a team with maps of BF16 operands at 0 and 8192, and of an FP32 tile at 0, on which tile 1 has begun. -/
def mill (cursor : Nat) : State :=
  { lab { gang (crew .user) with
      seq := { running with cursor := cursor }, size := 65536
      t := [(0, 0x800000201F7F0000), (1, 0x800000201F7F0100), (2, 0x802001007F7F0000)], acc := [(16384, 5)]
      scratch := writeN [] 0x8000 16 (0x20000 + 512 * 2 ^ 64 + 2 * 2 ^ 96) } with turn := .seq 0 }

theorem meets_MatrixStreamDataAdvances :
    (let mill := mill 0
    let tm := mill.team 0
    let q := tm.seq
    let map := fun (k : BitVec 4) => tmapOf (get 0 k.toNat tm.t)
    mill.turn = .seq 0 ∧ (find 0 mill.teams).isSome = true ∧ q.st = .running ∧ q.begun = false ∧ q.held = false ∧ q.op = none ∧
    q.stop = false ∧ (find q.grp tm.groups).isSome = true ∧ (1 : BitVec 5).toNat < tm.ntiles ∧
    (∃ v, mill.mmaBegin tm .bf16 1 ⟨0, none⟩ ⟨1, none⟩ = .ok v ∧ v.cursor + 1 < mmaK .bf16 / 16 ∧ tm.badRows 1 0 128 = false ∧
      (let runs := fun (z : TMap) (sl : Nat) => (List.range 128).flatMap (z.blockRuns sl v.cursor) ++ z.blockScales sl v.cursor
      tm.readable (runs (map 0) v.slotA ++ runs (map 1) v.slotB) = .yes)) ∧
    (∃ v, tm.mloadBegin 1 ⟨2, none⟩ = .ok v ∧ v.cursor < 127 ∧ tm.readable ((map 2).runs v.slotA v.cursor 0 512) = .yes) ∧
    (∃ sl v, tm.drainMap { mem := false, sat := false, amax := false, desc := none, tile := 1, map := some ⟨2, none⟩ } = .ok sl ∧
      tm.drainBegin { mem := false, sat := false, amax := false, desc := none, tile := 1, map := some ⟨2, none⟩ } sl = .ok v ∧
      v.cursor < 127 ∧ tm.badRows 1 v.cursor 1 = false ∧ (map 2).scen = false ∧
      ∀ r ∈ (map 2).runs sl v.cursor 0 (16 * efmtBits (map 2).efmt), ∀ l ∈ shareLines r.1 r.2, tm.present l = true)) ∧
    (let mill := mill 126
    let tm := mill.team 0
    let q := tm.seq
    let ag := mill.seqAgent 0
    let off : BitVec 21 := 0x8000
    mill.turn = .seq 0 ∧ (find 0 mill.teams).isSome = true ∧ q.st = .running ∧ q.begun = false ∧ q.held = false ∧ q.op = none ∧
    q.stop = false ∧ (find q.grp tm.groups).isSome = true ∧
    off.toNat % 32 = 0 ∧ off.toNat + 32 ≤ tm.size ∧ tm.readable [(off.toNat, 32)] = .yes ∧ mill.recording tm.ctx = false ∧
      (let desc := BitVec.ofNat 256 (readN tm.scratch off.toNat 32)
      let dr : Drain := { mem := true, sat := false, amax := false, desc := some off.toNat, tile := 1, map := none }
      (∃ v, ({ tm with seq := { q with desc := desc } } : Team).drainBegin dr 0 = .ok v ∧ v.cursor < 127 ∧ tm.badRows 1 v.cursor 1 = false ∧
        (∀ l ∈ mill.drainLines ag dr desc v.cursor, mill.owned l = false) ∧
        (∀ va ∈ drainAddrs desc v.cursor, ∃ p, mill.reach ag .write va = .ok p)))) := by
  refine ⟨⟨by decide +kernel, by decide +kernel, by decide +kernel, by decide +kernel, by decide +kernel, by decide +kernel,
    by decide +kernel, by decide +kernel, by decide +kernel, Ok.of (by decide +kernel), Ok.of (by decide +kernel), ?_⟩,
    by decide +kernel, by decide +kernel, by decide +kernel, by decide +kernel, by decide +kernel, by decide +kernel,
    by decide +kernel, by decide +kernel, by decide +kernel, by decide +kernel, by decide +kernel, by decide +kernel, ?_⟩
  · obtain ⟨v, h⟩ := Ok.of (r := ((mill 0).team 0).drainBegin ⟨false, false, false, none, 1, some ⟨2, none⟩⟩ 0)
      (p := fun v => v.cursor = 0) (by decide +kernel)
    exact ⟨0, v, by decide +kernel, h.1, by rw [h.2]; decide, by rw [h.2]; decide +kernel, by decide +kernel, by rw [h.2]; decide +kernel⟩
  · obtain ⟨v, h⟩ := Ok.of (r := ({ (mill 126).team 0 with seq := { ((mill 126).team 0).seq with
        desc := BitVec.ofNat 256 (readN ((mill 126).team 0).scratch 0x8000 32) } } : Team).drainBegin ⟨true, false, false, some 0x8000, 1, none⟩ 0)
      (p := fun v => v.cursor = 126) (by decide +kernel)
    have d : (drainAddrs (BitVec.ofNat 256 (readN ((mill 126).team 0).scratch 0x8000 32)) 126).all (fun va =>
        match (mill 126).reach ((mill 126).seqAgent 0) .write va with
          | .ok _ => true
          | .fault _ | .fill _ => false) = true := by decide +kernel
    refine ⟨v, h.1, by rw [h.2]; decide, by rw [h.2]; decide +kernel, by rw [h.2]; decide +kernel, fun va hv => Reach.of ?_⟩
    rw [h.2] at hv
    exact List.all_eq_true.mp d va hv

/-- The same unit in the last step of an instruction in progress. -/
def lastStep (cursor : Nat) : State := (mill cursor).onSeq 0 (fun q => { q with begun := true })

theorem meets_MatrixStreamDataAdvances_last :
    (∀ c ∈ [1, 127], (lastStep c).turn = .seq 0 ∧ (find 0 (lastStep c).teams).isSome = true ∧
      (let q := ((lastStep c).team 0).seq
      q.st = .running ∧ q.held = false ∧ q.stop = false ∧ q.op = none ∧ q.begun = true ∧ q.cursor = c)) ∧
    (let tm := (lastStep 1).team 0
    let map := fun (k : BitVec 4) => tmapOf (get 0 k.toNat tm.t)
    let runs := fun (z : TMap) (sl : Nat) => (List.range 128).flatMap (z.blockRuns sl 1) ++ z.blockScales sl 1
    1 + 1 = mmaK .bf16 / 16 ∧ tm.badRows 1 0 128 = false ∧ tm.readable (runs (map 0) tm.seq.slotA ++ runs (map 1) tm.seq.slotB) = .yes) ∧
    (let tm := (lastStep 127).team 0
    let map := tmapOf (get 0 2 tm.t)
    tm.readable (map.runs tm.seq.slotA 127 0 512) = .yes ∧ tm.badRows 1 127 1 = false ∧ map.scen = false ∧
      ∀ r ∈ map.runs tm.seq.slotA 127 0 (16 * efmtBits map.efmt), ∀ l ∈ shareLines r.1 r.2, tm.present l = true) := by decide +kernel

/-- The last row of a drain to memory at 0x20000 of FP32 elements, whose operation owns its lines. -/
def ending : State :=
  { (mill 127).onSeq 0 (fun q => { q with
      begun := true, op := some 4, desc := BitVec.ofNat 256 (0x20000 + 512 * 2 ^ 64 + 2 * 2 ^ 96) }) with
    ops := [(4, { plain .drain with e := some 0, begun := true, own := (List.range 8).map (fun k => lineNo (0x40000000 + 0x20000 + 512 * 127 + 64 * k)) })] }

theorem meets_MatrixStreamDataAdvances_memory :
    (let tm := ending.team 0
    let q := tm.seq
    let ag := ending.seqAgent 0
    let vas := drainAddrs q.desc q.cursor
    q.op = some 4 ∧ (match find 4 ending.ops with
      | some x => x.e.isSome && (ending.memLines ag .write vas).all (x.own.contains ·)
      | none => false) = true ∧
    q.begun = true ∧ tm.badRows 1 q.cursor 1 = false ∧ ending.recording tm.ctx = false ∧ ending.Current ending ag.core tm.ctx ∧
    ending.obstacle ag .write vas = none ∧
    vas.all (fun va => match ending.seek ag .write va with
      | .ok p => decide (p.cls ≠ 5 ∧ (ending.line (lineNo p.addr)).key = 0 ∧ (∀ g ∈ ending.guarded p.addr, g.mask p.addr 8 = 0) ∧
          lineNo p.addr ∉ tableLines ∧ p.addr = 0x40000000 + va.toNat)
      | .error _ => false) = true ∧
    vas.all (fun wa => (ending.walk ag.core tm.ctx wa).lines == tableLines) = true ∧
    vas = (List.range 64).map (fun k => BitVec.ofNat 64 (0x20000 + 512 * 127 + 8 * k))) :=
  ⟨by decide +kernel, by decide +kernel, by decide +kernel, by decide +kernel, by decide +kernel, current_of (by decide +kernel) _,
    by decide +kernel, by decide +kernel, by decide +kernel, by decide +kernel⟩

/-! ### Hypotheses met: lists, parcels and graphics -/

/-- A list at 0x5000: eight slots of 16 bytes at 0x5800, set 3, with 5 tickets given, 4 items published, 2 taken and 1 held. -/
def queue : WList :=
  { slots := 8, iszc := 1, set := 3, under := false, cfgd := true, puts := 5, pub := 4, gets := 2, held := 1, items := 0x5800 }

/-- A user group with that list and, in S9 and S10, the words that configure another at 0x6000; lane 0 alone has P1. -/
def lists : State :=
  let s := lab (gang { crew .user with s := [(4, 0x5000), (8, 0x6000), (9, 0x0000050200000010), (10, 0x6400), (11, 1)], p := [(0, 2)] })
  { s with
    mem := writeN tables 0x40005000 64 queue.image
    ctxs := s.ctxs.map (fun e => (e.1, { e.2 with counts := [(3, 4)], avail := [(3, 2)] })) }

theorem lists_still (k : Nat) : (lists.group 0 k).wait = [] := by cases k <;> rfl

theorem no_team (s : State) (n : Nat) (h : find n s.teams = none) (k : Nat) : (s.group n k).wait = [] := by
  unfold State.group State.team Machine.get
  rw [h]
  rfl

/-- Where lane 0 finds the list, with the two entries that the walk read. -/
def found : Spot :=
  match lists.seek (lanes.agent lists 0) .write 0x5000 with
  | .ok p => p
  | .error _ => { cls := 5, addr := 0, leaf := ⟨0, 0, false, false, false, 0⟩, walk := none }

theorem lists_found : lists.listAt (lanes.agent lists 0) 0x5000 = .ok (found, queue) := by
  obtain ⟨v, h, e⟩ := Ok.of (r := lists.listAt (lanes.agent lists 0) 0x5000) (p := fun v => v = (found, queue)) (by decide +kernel)
  rw [h, e]

theorem meets_WorkListsComplete :
    let h := lanes.group lists
    let e := lanes.agent lists 0
    let act := lanes.active lists always
    let real := act &&& ~~~h.helper
    let va := h.reg (.s 4)
    let k := lists.ctx 0
    Sole lists 0 clause lanes ∧ (62 : VReg).toNat + 2 ^ (1 : BitVec 2).toNat ≤ h.n ∧ lanes.canCount lists always ⟨0, none⟩ ∧
    (∀ n j, ∀ e ∈ (lists.group n j).wait, ∀ k v, e.2 ≠ .quiet k v) ∧ lists.recording 0 = false ∧
    (let w := h.sreg 9
    let items := h.sreg (9 + 1)
    let n := (w.extractLsb' 0 32).toNat
    (h.sreg 8).extractLsb' 0 6 = 0 ∧ n ≠ 0 ∧ n ≤ 16777216 ∧ w.extractLsb' 34 6 = 0 ∧ w.extractLsb' 46 18 = 0 ∧
    items.extractLsb' 0 6 = 0 ∧ ∃ p, lists.seek e .write (h.sreg 8) = .ok p ∧ (ordered p.cls = true ∧ p.held = false ∧
    lists.owned (lineNo p.addr) = false ∧ lists.Plain 0 p.cls p.addr 64)) ∧ lists.dev.ctxTable = none ∧
    (real ≠ 0 ∧ (∀ i, i < 64 → real.getLsbD i = true → lists.listAt e (va i) = .ok (found, queue) ∧ va i = va (lowest real)) ∧
      (∀ i, i < 64 → real.getLsbD i = true → lists.wlFault e false 1 real va i = none ∧ lists.wlFault e true 1 real va i = none) ∧
      lists.wlOwned e .write real va (fun l q => l.puts + q) = [] ∧
      lists.wlOwned e .read real va (fun l q => l.gets + q) = [] ∧
      queue.gets ≤ queue.pub ∧ queue.pub ≤ queue.puts ∧ queue.count ≤ get 0 queue.set k.counts ∧
      queue.pub - queue.gets ≤ get 0 queue.set k.avail ∧ queue.room ≠ 0 ∧ queue.held ≤ queue.count) ∧
    (let one := lanes.active lists ⟨1, false⟩
    (∀ j, j < 64 → (one.getLsbD j = true ↔ j = 0)) ∧ lists.ownedHome e .write [va 0] = []) ∧
    (k.quiet 5 = true ∧ k.quiet 3 = false ∧ 0 < get 0 3 k.avail) := by
  refine ⟨Sole.of (by decide +kernel), by decide +kernel, fun _ h _ => (by cases h), fun n j e he => ?_, by decide +kernel, ⟨by decide +kernel,
    by decide +kernel, by decide +kernel, by decide +kernel, by decide +kernel, by decide +kernel, Ok.of (by decide +kernel)⟩, rfl,
    ⟨by decide +kernel, fun i hi ha => ⟨lists_found, rfl⟩, by decide +kernel, by decide +kernel, by decide +kernel, by decide +kernel⟩,
    by decide +kernel, by decide +kernel⟩
  cases n with
  | zero => rw [lists_still j] at he; cases he
  | succ n => rw [no_team lists (n + 1) rfl j] at he; cases he

/-- A parcel tensor of eight parcels of 16 bytes at 0x3000, its plat at 0x3800. -/
def flock : BitVec 768 :=
  BitVec.ofNat 768 (1 + 2 ^ 4 + 3 * 2 ^ 8 + 2 ^ 20 + 7 * 2 ^ 24 + 0x3000 * 2 ^ 64 + 8 * 2 ^ 128 + 0x3800 * 2 ^ 704)

/-- A kernel header of one role of 64 registers with one group of eight lanes. -/
def kernel : Header :=
  { ver := 3, wcode := 0, codelen := 4096, scratch := 65536, accn := 0, z := 16384, payload := 8, recurse := 4, uient := 0x40
    roles := [⟨64, 1, 64⟩], shelves := [] }

/-- Its grid. -/
def grid : Grid :=
  { ctx := 0, part := 0, from_ := 0, team := 0, grp := 0, dc := none, record := 0, code := 0x3000, hdr := kernel, teams := 1
    next := 1, gangs := 1, live := 1, queued := false }

/-- A context with the tensor bound, four continuations in its plat, and parcel 2 waiting in kind 2; its group knows its grid.
Lane 0 alone has P1, lane 2 alone P2, where V2 holds the retired word. -/
def swarm (sort : Sort_) : State :=
  { lab { gang { crew .user with
        s := [(11, 2), (12, 0), (14, 0), (15, 0x10000), (16, 1)], p := [(0, 2), (2, 4)], sort := sort
        v := (List.range 8).map (fun i => (64 + i, BitVec.ofNat 64 i)) ++ [(130, 0xFFFF)] } with
      gsize := 1 } with
    mem := writeN (writeN (bound flock) 0x40003800 2 4) 0x40003020 8 (2 * 2 ^ 16), grids := [(0, grid)] }

theorem swarm_still (q : Sort_) (k : Nat) : ((swarm q).group 0 k).wait = [] := by cases k <;> rfl

theorem meets_ParcelLaneInstructionsComplete_sweep :
    let s := swarm (.sweep 0 0 0 0 [])
    Sole s 0 clause lanes ∧ (∃ p q r t y, (lanes.group s).sort = .sweep p q r t y) ∧
      (∀ v ∈ (lanes.group s).pend, v.2.left_ = true ∨ v.2.lanes &&& lanes.active s always = 0 ∨ (v.2.vw = [] ∧ v.2.pw = [] ∧ v.2.sw = [])) ∧
      (∀ n, ∀ v ∈ (s.group 0 n).wait, v.2 ≠ .order) := by
  refine ⟨Sole.of (by decide +kernel), ⟨0, 0, 0, 0, [], rfl⟩, by decide +kernel, fun n v hv => ?_⟩
  rw [swarm_still] at hv
  cases hv

/-- The lanes of a mask all take effect, each on its own and one after the other. -/
def LanesRun (s : State) (m : Lanes) (f : State → Nat → Except Stop (Nat × State)) : Prop :=
  ∃ q, (∀ i, i < 64 → m.getLsbD i = true → (match f s i with
    | .ok _ => true
    | .error _ => false) = true) ∧ parcelRun f (lanesOf m) s = .ok q

/-- A lane alone that takes effect on the state as it is. -/
theorem runs_one {s : State} {m : Lanes} {f : State → Nat → Except Stop (Nat × State)} {i : Nat} (hm : lanesOf m = [i])
    (h : (match f s i with
      | .ok _ => true
      | .error _ => false) = true) :
    LanesRun s m f := by
  have k : ∀ j, j < 64 → m.getLsbD j = true → j = i := fun j hj hm' => by
    have : j ∈ lanesOf m := by simp [lanesOf, hj, hm']
    rw [hm] at this
    simpa using this
  split at h
  next q e => exact ⟨_, fun j hj hk => (by rw [k j hj hk, e]), by rw [hm]; simp only [parcelRun, e]; rfl⟩
  next => cases h

theorem swarm_plat : runB (swarm .normal) (lanes.agent (swarm .normal) 0) (recPlat flock) 2 8 = true := by decide +kernel

theorem meets_ParcelLaneInstructionsComplete :
    let s := swarm .normal
    let gr := lanes.group s
    let e := lanes.agent s 0
    let ix := fun i => (gr.reg (.v 1) i).toNat
    let lane := fun (f : State → Nat → Except Stop (Nat × State)) (u : State) (i : Nat) => perParcel flock (ix i) (f u i) u
    let runs := fun (g : Guard) f => LanesRun s (lanes.active s g &&& ~~~gr.helper) (lane f)
    Sole s 0 clause lanes ∧ (63 : VReg).toNat < gr.n ∧ (1 : VReg).toNat + 1 < gr.n ∧ lanes.canCount s always ⟨0, none⟩ ∧ s.recording 0 = false ∧
    lanes.canRequest s 0 always ∧ s.resolve 0 (gr.sreg 0) = some flock ∧ recParcel flock = true ∧
    flock.getLsbD 25 = true ∧ flock.getLsbD 24 = true ∧
    runs ⟨1, false⟩ (fun u i => u.pwake e flock (ix i)) ∧
    runs ⟨2, false⟩ (fun u i => u.pctx e flock (ix i) (gr.runReg (.v 1) 1 i).toNat) ∧
    runs ⟨1, false⟩ (fun u i => u.loadAt e false (parcelVa flock (ix i)) 8) ∧
    (∀ j, j < 64 → ((lanes.active s ⟨1, false⟩ &&& ~~~gr.helper).getLsbD j = true ↔ j = 0)) ∧
    (∃ p, s.seek e .read (parcelVa flock (ix 0)) = .ok p ∧ (ix 0 < parcels flock ∧ p.cls ≠ 5)) ∧
    lanes.active s always ≠ 0 ∧ (∃ w v t, State.loadWords e s (recPlat flock) 2 = .ok ([w, v], t)) ∧
    s.ownedHome e .read [recPlat flock, recPlat flock + 8] = [] := by
  obtain ⟨r, p, l, x⟩ := Run.of swarm_plat
  obtain ⟨t, y, _⟩ := Loads.loadWords r p 2 _ _ l x
  refine ⟨Sole.of (by decide +kernel), by decide +kernel, by decide +kernel, fun _ h _ => (by cases h), by decide +kernel, by decide +kernel,
    by decide +kernel, by decide +kernel, by decide +kernel, by decide +kernel, runs_one (i := 0) (by decide +kernel) (by decide +kernel),
    runs_one (i := 2) (by decide +kernel) (by decide +kernel), runs_one (i := 0) (by decide +kernel) (by decide +kernel),
    by decide +kernel, Ok.of (by decide +kernel), by decide +kernel, ⟨_, _, t, y⟩, by decide +kernel⟩

theorem meets_SweepsStartAndStop :
    let s := swarm .normal
    let h := lanes.group s
    let e := s.env 0 clause lanes always
    Sole s 0 clause lanes ∧ lanes.canCount s always ⟨0, none⟩ ∧ lanes.active s always ≠ 0 ∧ s.resolve 0 (h.sreg 0) = some flock ∧
    flock.getLsbD 26 = true ∧ recParcel flock = true ∧
    psweepBad flock (s.headerOf 0) .n (0 : BitVec 3).toNat (h.sreg 14) (h.sreg (14 + 1)) (h.sreg (14 + 2)) = false ∧
    s.psweepBusy 0 (s.headerOf 0) = none ∧
    s.ownedHome e.agent .read ((List.range 32).map (fun j => recPlat flock + BitVec.ofNat 64 (8 * j))) = [] ∧
    ∃ ws t v old, State.loadWords e.agent s (recPlat flock) 32 = .ok (ws, t) ∧ platBad ws = false ∧
      t.atomAt e.agent false (recPlat flock) 8 (fun y => if y / 2 ^ 16 % 2 = 1 then y else y + 2 ^ 16) = .ok (old, v) ∧ old / 2 ^ 16 % 2 = 0 := by
  refine ⟨Sole.of (by decide +kernel), fun _ h _ => (by cases h), by decide +kernel, by decide +kernel, by decide +kernel, by decide +kernel,
    by decide +kernel, by decide +kernel, by decide +kernel, ?_⟩
  obtain ⟨r, p, l, x⟩ := Run.of (s := swarm .normal) (a := ((swarm .normal).env 0 clause lanes always).agent) (va := recPlat flock)
    (n := 32) (w := 8) (by decide +kernel)
  obtain ⟨t, e, L⟩ := Loads.loadWords r p 32 (recPlat flock) _ l x
  obtain ⟨q, f, c, i, z, o⟩ := Ok.of (r := (swarm .normal).seek ((swarm .normal).env 0 clause lanes always).agent .write (recPlat flock))
    (p := fun q => q.cls < 2 ∧ q.held = false ∧
      (swarm .normal).poisoned ((swarm .normal).keyOf ((swarm .normal).env 0 clause lanes always).agent.ctx) (lineNo q.addr) = false ∧
      ((swarm .normal).readKey ((swarm .normal).keyOf ((swarm .normal).env 0 clause lanes always).agent.ctx) q.addr 8).1 = 4)
    (by decide +kernel)
  obtain ⟨u, g⟩ := L.atomAt f c i z false 8 (fun y => if y / 2 ^ 16 % 2 = 1 then y else y + 2 ^ 16)
  exact ⟨_, t, u, _, e, by decide +kernel, g, by rw [o]; decide⟩

/-- Memory with the list at 0x5000, a stream record of one triangle and a target of four by four at 0x7000, a texture of four by
four texels at 0x7400 with a sampler at 0x7440, and a record of unit 2 of the group at 0x10800: the pair (0x9000, 0x9080). -/
def shelfRoom : List Host.Cell :=
  let m := writeN (writeN tables 0x40005000 64 queue.image) 0x40007000 64 (2 ^ 128 + 3 * 2 ^ 256 + 3 * 2 ^ 272 + 0x7800 * 2 ^ 320 + 0x5000 * 2 ^ 384)
  let m := writeN m 0x40007400 16 (0x7600 + 3 * 2 ^ 64 + 3 * 2 ^ 80)
  writeN m 0x40010800 128 (2 + 2 ^ 16 + 2 ^ 48 + 0x9000 * 2 ^ 256 + 0x9080 * 2 ^ 320 + 7 * 2 ^ 640 + 0x5000 * 2 ^ 704)

/-- A user group that names them, with a texel of its own for each lane in V1. -/
def studio (kept : Bool) : State :=
  { lab (gang { crew .user with
      s := [(8, 0x7000), (9, 0x7400), (10, 0x7440), (12, 0x9000), (13, 0x9080), (14, 0x5000), (15, 7), (16, 0x9000), (17, 0xFF), (18, 0)]
      v := (List.range 8).map (fun i => (64 + i, BitVec.ofNat 64 (i % 4 + i / 4 * 2 ^ 32))), kept := kept }) with
    mem := shelfRoom, grids := [(0, grid)] }

/-- A list is found alike after loads. -/
theorem listAt_after {a : Agent} {s t : State} (h : Loads a s t) {va : Word} {p : Spot} {l : WList} (e : s.listAt a va = .ok (p, l))
    (n : p.held = false) : ∃ q, t.listAt a va = .ok (q, l) ∧ q.held = false ∧ t.owned (lineNo q.addr) = false := by
  have o : ∀ l, t.owned l = false := fun l => (h.alike.owned l).trans (h.free l)
  unfold State.listAt at e ⊢
  split at e
  · cases e
  next c =>
    rw [if_neg c]
    split at e
    · cases e
    next b =>
      rw [if_neg b]
      split at e
      · cases e
      next q f =>
        obtain ⟨y, g, cy, ay, hy⟩ := h.seek_ok true true f
        rw [show t.seek a .write va = .ok y from g]
        simp only [h.free, o, Bool.or_false] at e ⊢
        rw [h.alike.readKey, h.alike.keyOf, h.alike.poisoned, cy, ay, hy]
        refine ⟨y, ?_, ?_, trivial⟩
        all_goals
          split at e
          · cases e
          · split at e
            · cases e
              simp_all
            · split at e
              · cases e
              · split at e
                · cases e
                · cases e
                  simp_all

theorem studio_found (k : Bool) : (studio k).listAt (lanes.agent (studio k) 0) 0x5000 = .ok (found, queue) := by
  obtain ⟨v, h, e⟩ := Ok.of (r := (studio k).listAt (lanes.agent (studio k) 0) 0x5000) (p := fun v => v = (found, queue))
    (by cases k <;> decide +kernel)
  rw [h, e]

theorem meets_RasterInstructionsBegin :
    let s := studio false
    let h := lanes.group s
    let ag := lanes.agent s 0
    let va := h.sreg 8
    Sole s 0 clause lanes ∧ (57 : VReg).toNat + 7 ≤ h.n ∧ (62 : VReg).toNat + 2 ≤ h.n ∧ lanes.canCount s always ⟨0, none⟩ ∧
    va.extractLsb' 0 6 = 0 ∧ s.wordsOwned ag va 8 = [] ∧ lanes.active s always ≠ 0 ∧ s.recording 0 = false ∧
    (∃ hd, s.headerOf lanes.team = some hd ∧ hd.fragBad (0 : BitVec 3).toNat = false) ∧
    ∃ ws t list l, State.readWords ag s va 8 = .ok (ws, t) ∧ t.mem = s.mem ∧
      (let rc := BitVec.ofNat 512 (joinWords ws)
      let o := RastOp.start rc va false true (0 : BitVec 3).toNat (s.ctx 0).area.toNat 20
      rastBad false rc = false ∧ t.listAt ag o.list = .ok (list, l) ∧ list.held = false ∧ t.owned (lineNo list.addr) = false ∧ l.iszc = 1) := by
  refine ⟨Sole.of (by decide +kernel), by decide +kernel, by decide +kernel, fun _ h _ => (by cases h), by decide +kernel, by decide +kernel,
    by decide +kernel, by decide +kernel, Some.of (by decide +kernel), ?_⟩
  obtain ⟨t, e, L⟩ := reads (s := studio false) (a := lanes.agent (studio false) 0) (va := (lanes.group (studio false)).sreg 8) (n := 8)
    (by decide +kernel)
  obtain ⟨q, f, g, o⟩ := listAt_after L (studio_found false) (by decide +kernel)
  refine ⟨_, t, q, queue, e, L.alike.mem, by decide +kernel, ?_, g, o, rfl⟩
  have : (RastOp.start (BitVec.ofNat 512 (joinWords (Loads.words (lanes.agent (studio false) 0) (studio false) ((lanes.group (studio false)).sreg 8) 8)))
    ((lanes.group (studio false)).sreg 8) false true (0 : BitVec 3).toNat ((studio false).ctx 0).area.toNat 20).list = 0x5000 := by decide +kernel
  rw [this]
  exact f

/-- The words of a descriptor that nothing owns, as its checks see them. -/
theorem desc_words {s : State} {a : Agent} {va : Word} {n : Nat} (h : runB s a va n 8 = true) (o : s.wordsOwned a va n = []) :
    s.descWords a va n = some (joinWords (Loads.words a s va n)) := by
  obtain ⟨t, e, -⟩ := reads h
  unfold State.descWords
  rw [e, o]

theorem meets_TextureInstructionsBegin :
    let s := studio false
    let h := lanes.group s
    let ag := lanes.agent s 0
    let act := lanes.active s always
    Sole s 0 clause lanes ∧ (62 : VReg).toNat + 2 ≤ h.n ∧ (1 : VReg).toNat + 4 ≤ h.n ∧ lanes.canCount s always ⟨0, none⟩ ∧
    act ≠ 0 ∧ s.orphan lanes.team lanes.grp 3 = none ∧ lanes.canRequest s 0 always ∧
    (∀ i, i < 64 → act.getLsbD i = true → ∀ j, j < 4 → lanes.lanes.getLsbD (i / 4 * 4 + j) = true) ∧
    s.texDefect ag (h.sreg 9) (h.sreg (9 + 1)) = false ∧ s.wordsOwned ag (h.sreg 9) 8 ++ s.wordsOwned ag (h.sreg (9 + 1)) 4 = [] ∧
    ∃ ws t, s.readTexDescs ag (h.sreg 9) (h.sreg (9 + 1)) = .ok (ws, t) ∧ t.mem = s.mem := by
  refine ⟨Sole.of (by decide +kernel), by decide +kernel, by decide +kernel, fun _ h _ => (by cases h), by decide +kernel,
    by decide +kernel, by decide +kernel, by decide +kernel, ?_, by decide +kernel, ?_⟩
  · show State.texDefect (studio false) (lanes.agent (studio false) 0) ((lanes.group (studio false)).sreg 9)
      ((lanes.group (studio false)).sreg (9 + 1)) = false
    unfold State.texDefect
    rw [desc_words (by decide +kernel) (by decide +kernel), desc_words (by decide +kernel) (by decide +kernel)]
    decide +kernel
  obtain ⟨t, e, L⟩ := reads (s := studio false) (a := lanes.agent (studio false) 0) (va := (lanes.group (studio false)).sreg 9) (n := 8)
    (by decide +kernel)
  obtain ⟨r, p, l, x⟩ := Run.of (s := studio false) (a := lanes.agent (studio false) 0) (va := (lanes.group (studio false)).sreg (9 + 1))
    (n := 4) (w := 8) (by decide +kernel)
  obtain ⟨u, f, L⟩ := Loads.readWords r p 4 _ t L x
  have z : (studio false).readTexDescs (lanes.agent (studio false) 0) ((lanes.group (studio false)).sreg 9)
      ((lanes.group (studio false)).sreg (9 + 1)) = .ok (Loads.words (lanes.agent (studio false) 0) (studio false)
        ((lanes.group (studio false)).sreg 9) 8 ++ Loads.words (lanes.agent (studio false) 0) (studio false)
        ((lanes.group (studio false)).sreg (9 + 1)) 4, u) := by
    unfold State.readTexDescs
    rw [e]
    simp only [bind, Except.bind]
    rw [f]
  exact ⟨_, u, z, L.alike.mem⟩

/-- The texels that the eight lanes name. -/
def texels (desc : BitVec 512) : List (Word × Nat) :=
  (List.range 8).flatMap (fun i => match imgTexel desc ((lanes.group (studio false)).vreg 1 i) ((lanes.group (studio false)).vreg (1 + 1) i) with
    | some va => texelPieces desc va
    | none => [])

theorem meets_TextureInstructionsBegin_image :
    let s := studio false
    let h := lanes.group s
    let ag := lanes.agent s 0
    lanesOf (lanes.active s always &&& ~~~h.helper) = List.range 8 ∧ s.wordsOwned ag (h.sreg 9) 8 = [] ∧
    ∃ ws t, State.readWords ag s (h.sreg 9) 8 = .ok (ws, t) ∧ t.mem = s.mem ∧
      (let xs := texels (BitVec.ofNat 512 (joinWords ws))
      let into := xs.flatMap (fun w => t.placesOf ag .write [w.1] w.2)
      texBad (BitVec.ofNat 512 (joinWords ws)) = false ∧ (∀ w ∈ xs, t.probe ag .write false w.1 = none) ∧
      (∀ w ∈ xs, ∀ p ∈ t.spots ag .write [w.1], p.held = false) ∧
      into.length = 8 ∧ (∀ p ∈ into, s.owned (lineNo p.2.1) = false) ∧ (∀ p ∈ into, ordered p.1 = true ∧ s.Plain 0 p.1 p.2.1 p.2.2) ∧
      into.Pairwise (fun p q => p.2.1 + p.2.2 ≤ q.2.1 ∨ q.2.1 + q.2.2 ≤ p.2.1)) := by
  refine ⟨by decide +kernel, by decide +kernel, ?_⟩
  obtain ⟨t, e, L⟩ := reads (s := studio false) (a := lanes.agent (studio false) 0) (va := (lanes.group (studio false)).sreg 9) (n := 8)
    (by decide +kernel)
  have w : ((texels (BitVec.ofNat 512 (joinWords (Loads.words (lanes.agent (studio false) 0) (studio false)
      ((lanes.group (studio false)).sreg 9) 8)))).all (fun w => match (studio false).seek (lanes.agent (studio false) 0) .write w.1 with
    | .ok p => !p.held
    | .error _ => false)) = true := by decide +kernel
  have ok : ∀ w ∈ texels (BitVec.ofNat 512 (joinWords (Loads.words (lanes.agent (studio false) 0) (studio false)
      ((lanes.group (studio false)).sreg 9) 8))), t.probe (lanes.agent (studio false) 0) .write false w.1 = none ∧
      ∀ p ∈ t.spots (lanes.agent (studio false) 0) .write [w.1], p.held = false := fun x hx => by
    have z := List.all_eq_true.mp w x hx
    split at z
    next p q => exact L.write_ok q (by simpa using z)
    next => cases z
  refine ⟨_, t, e, L.alike.mem, by decide +kernel, fun x hx => (ok x hx).1, fun x hx => (ok x hx).2, ?_⟩
  simp only [L.placesOf]
  decide +kernel

/-- A ray that stands at a candidate. -/
def ray : Ray :=
  { org := [0, 0, 0], dir := [0, 0, 0x3F800000], tmin := 0, tmax := 0x3F800000, status := 5, bestT := 0x3F000000, bestValid := true, prim := 0
    geom := 0, inst := [0, 0, 0], w1 := 0x3F000000, w2 := 0, cand := some (0x3F000000, 1, 2, [3]), committed := false, node := none, recs := []
    level := 0, child := 0, tri := 0, stack := [], spilled := 0, any := false, mask := 255, root := 0x9000, table := (0, 0), dst := 8 }

/-- The group with that ray in lane 3. -/
def rays : State := (studio false).onGroup 0 0 (fun g => { g with rays := [(3, ray)] })

theorem meets_TraverseInstructionsBegin :
    (let s := studio false
    let h := lanes.group s
    let ag := lanes.agent s 0
    let e := s.env 0 clause lanes always
    Sole s 0 clause lanes ∧ (58 : VReg).toNat + 5 + (1 : BitVec 4).toNat ≤ h.n ∧ (60 : VReg).toNat + 4 ≤ h.n ∧ lanes.canCount s always ⟨0, none⟩ ∧
    traverseBusy e s = false ∧ s.orphan lanes.team lanes.grp 1 = none ∧ s.orphan lanes.team lanes.grp 2 = none ∧ lanes.active s always ≠ 0 ∧
    s.pairKept e = false ∧
    (∃ hd table t, s.headerOf lanes.team = some hd ∧ 8 * (1 : BitVec 4).toNat ≤ hd.payload ∧ s.traceTable e (h.sreg (16 + 2)) = .ok (table, t) ∧
      tableAligned (h.sreg (16 + 2)) = true ∧ tableOk table = true ∧ h.sreg (16 + 2) = 0 ∧ t.mem = s.mem ∧
      ∀ i, i < 64 → (lanes.active s always).getLsbD i = true → get 0 i h.depth ≤ hd.recurse) ∧
    640 ≤ s.rayBytes lanes.team lanes.grp ∧
    (let f := (h.sreg 12).toNat
    let q := (h.sreg 13).toNat
    f % 128 = 0 ∧ q % 128 = 0 ∧ h.atCandidate = false ∧ s.ownedAmong ag .write [h.sreg (13 + 1)] = [] ∧ s.pairDepth lanes.team ≠ 0 ∧
    ∃ t l, s.listAt ag (h.sreg (13 + 1)) = .ok (t, l) ∧ l.iszc = 1)) ∧
    (let h := lanes.group rays
    Sole rays 0 clause lanes ∧ ∃ r, find 3 h.rays = some r ∧ (lanes.active rays always).getLsbD 3 = true ∧ r.status = 5 ∧ r.bestValid = true ∧
      r.committed = false ∧ r.cand.isSome = true) := by
  refine ⟨⟨Sole.of (by decide +kernel), by decide +kernel, by decide +kernel, fun _ h _ => (by cases h), by decide +kernel, by decide +kernel,
    by decide +kernel, by decide +kernel, by decide +kernel, ⟨kernel, _, _, rfl, by decide +kernel, rfl, by decide +kernel, by decide +kernel, by decide +kernel, rfl, ?_⟩,
    by decide +kernel, by decide +kernel,
    by decide +kernel, by decide +kernel, by decide +kernel, by decide +kernel, found, queue, studio_found false, rfl⟩,
    Sole.of (by decide +kernel), ray, rfl, by decide +kernel, rfl, rfl, rfl, rfl⟩
  decide +kernel

/-- The pair that `TRPAIR` starts from. -/
def pairStart : PairOp :=
  { f := 0x9000, g := 0x9080, self := false, list := 0x5000, tag := 7, seqno := 0, stack := [(0x9000, 0x9080)], spilled := 0, pending := none
    overflowed := false, appended := 0, d := 20 }

theorem pair_read (z : Nat) (ws : List Nat) (h : [(0x20, 8), (0x28, 8), (0x30, 8), (0x38, 8), (0x40, 4), (0x44, 4), (0x48, 1), (0x49, 7),
    (0x50, 4), (0x54, 4), (0x58, 8)].map (fun (x : Nat × Nat) => slotField ws x.1 x.2) = [0x9000, 0x9080, 0, 0, 0, 0, 0, 0, 7, 0, 0x5000]) :
    PairOp.read pairStart z [] ws = some { pairStart with stack := [] } := by
  simp only [List.map_cons, List.map_nil, List.cons.injEq, and_true] at h
  obtain ⟨a, b, c, d, e, f, g, i, j, k, l⟩ := h
  unfold PairOp.read
  simp only [a, b, c, d, e, f, g, i, j, k, l]
  rw [if_pos ⟨by decide, by decide, Nat.zero_le _, by decide, by decide, by decide, by decide, by decide, by decide⟩]
  rfl

/-- The agent that reads its record. -/
def reader : Agent := { core := 0, ctx := 0, team := 0, grp := 0, level := .control }

/-- The words of the record. -/
def pairWords : List Nat := Loads.words reader (studio true) 0x10800 16

theorem pair_slot : ∃ t, (studio true).readSlot ((studio true).env 0 clause lanes always).agent ((studio true).slotVa 0 0 2) = .ok (pairWords, t) := by
  obtain ⟨r, p, l, x⟩ := Run.of (s := studio true) (a := reader) (va := 0x10800) (n := 16) (w := 8) (by decide +kernel)
  obtain ⟨t, e, -⟩ := Loads.loadWords r p 16 _ _ l x
  refine ⟨t, ?_⟩
  unfold State.readSlot
  rw [show ({ ((studio true).env 0 clause lanes always).agent with level := .control } : Agent) = reader by decide +kernel,
    show (studio true).slotVa 0 0 2 = 0x10800 by decide +kernel]
  exact e

theorem pair_kept : (studio true).pairKept ((studio true).env 0 clause lanes always) = true := by
  obtain ⟨t, k⟩ := pair_slot
  unfold State.pairKept
  rw [show (studio true).slotVa ((studio true).env 0 clause lanes always).team ((studio true).env 0 clause lanes always).grp 2 =
    (studio true).slotVa 0 0 2 by decide +kernel, k]
  simp only []
  decide +kernel

theorem pair_reads (z : Nat) : PairOp.read pairStart z [] pairWords = some { pairStart with stack := [] } := pair_read z pairWords (by decide +kernel)

theorem pairCursor_of {s t : State} {e : Env} {p q : PairOp} {ws : List Nat}
    (k : s.readSlot e.agent (s.slotVa e.team e.grp 2) = .ok (ws, t)) (a : slotValid ws = true) (b : slotOk 2 ws = true)
    (c : slotField ws 0x44 4 = 0) (r : ∀ z, p.read z [] ws = some q)
    (d : q.f = p.f ∧ q.g = p.g ∧ q.self = p.self ∧ q.list = p.list ∧ q.tag = p.tag) : ∃ v, s.pairCursor e p = some v := by
  have lw : ∀ (a : Agent) (s : State) (va : Word), State.loadWords a s va 0 = .ok ([], s) := fun _ _ _ => rfl
  unfold State.pairCursor
  simp only [k, a, b, c, Nat.not_lt_zero, if_false, Nat.mul_zero, lw, r, if_pos d]
  exact ⟨_, rfl⟩

theorem pair_cursor : ∃ v, (studio true).pairCursor ((studio true).env 0 clause lanes always) pairStart = some v := by
  obtain ⟨t, k⟩ := pair_slot
  exact pairCursor_of (q := { pairStart with stack := [] }) k (by decide +kernel) (by decide +kernel) (by decide +kernel) pair_reads
    ⟨rfl, rfl, rfl, rfl, rfl⟩

/-- The record of unit 2 serves `TRPAIR.RESUME`. -/
theorem meets_TraverseInstructionsBegin_resumed :
    let s := studio true
    let h := lanes.group s
    let e := s.env 0 clause lanes always
    Sole s 0 clause lanes ∧ traverseBusy e s = false ∧ s.orphan lanes.team lanes.grp 1 = none ∧ s.orphan lanes.team lanes.grp 2 = none ∧
    s.pairKept e = true ∧ (∃ t l, s.listAt (lanes.agent s 0) (h.sreg (13 + 1)) = .ok (t, l) ∧ l.iszc = 1) ∧
    ∃ v, s.pairCursor e pairStart = some v :=
  ⟨Sole.of (by decide +kernel), by decide +kernel, by decide +kernel, by decide +kernel, pair_kept, ⟨found, queue, studio_found true, rfl⟩,
    pair_cursor⟩

theorem meets_RayTestsBegin : Sole rays 0 clause lanes ∧ (62 : VReg).toNat + 2 ≤ (lanes.group rays).n ∧
    (60 : VReg).toNat + 4 ≤ (lanes.group rays).n ∧ (59 : VReg).toNat + 5 ≤ (lanes.group rays).n ∧ lanes.canCount rays always ⟨0, none⟩ :=
  ⟨Sole.of (by decide +kernel), by decide +kernel, by decide +kernel, by decide +kernel, fun _ h _ => (by cases h)⟩

/-! ### Hypotheses met: exceptions, contexts and the machine level -/

/-- The words of the trap frame lie one after another. -/
theorem frame_places : (List.range 128).all (fun k => match user.seek (self .control) .write (0x10000 + BitVec.ofNat 64 (8 * k)) with
    | .ok p => p.addr == 0x40010000 + 8 * k
    | .error _ => false) = true := by decide +kernel

theorem frame_place {k a : Nat} (hk : k < 128) (h : ∃ p, user.seek (self .control) .write (0x10000 + BitVec.ofNat 64 (8 * k)) = .ok p ∧ p.addr = a) :
    a = 0x40010000 + 8 * k := by
  obtain ⟨p, e, rfl⟩ := h
  have q := List.all_eq_true.mp frame_places k (List.mem_range.mpr hk)
  rw [e] at q
  exact eq_of_beq q

theorem frame_plain : (List.range 128).all (fun k => match user.seek (self .control) .write (0x10000 + BitVec.ofNat 64 (8 * k)) with
    | .ok p => decide (user.Plain 0 p.cls p.addr 8)
    | .error _ => false) = true := by decide +kernel

theorem plain_of {s : State} {a : Agent} {use : Use} {f : Nat → Word} {q : Spot → Prop} [DecidablePred q] {n k : Nat}
    (h : (List.range n).all (fun k => match s.seek a use (f k) with
      | .ok p => decide (q p)
      | .error _ => false) = true) (hk : k < n) {p : Spot} (e : s.seek a use (f k) = .ok p) : q p := by
  have z := List.all_eq_true.mp h k (List.mem_range.mpr hk)
  rw [e] at z
  exact of_decide_eq_true z

theorem meets_TrapInstructionsEnterTheHandler :
    let h := lanes.group user
    let ag : Agent := { lanes.agent user 0 with level := .control }
    let word := fun (k : Nat) => h.s2 + BitVec.ofNat 64 (8 * k)
    let place := fun (k a : Nat) => ∃ p, user.seek ag .write (word k) = .ok p ∧ p.addr = a
    Sole user 0 clause lanes ∧ lanes.active user always ≠ 0 ∧ lanes.active user first = 0 ∧ h.level = .user ∧ (user.core 0).second = none ∧
    user.quiet 0 ∧ h.late = none ∧ user.writing 0 0 = false ∧ Storable user ag h.s2 128 ∧
    (∀ k, k < 128 → ∀ p, user.seek ag .write (word k) = .ok p → user.Plain 0 p.cls p.addr 8) ∧
    (∀ k j, k < j → j < 128 → ∀ a b, place k a → place j b → a + 8 ≤ b ∨ b + 8 ≤ a) :=
  ⟨user_sole, by decide +kernel, by decide +kernel, rfl, rfl, rfl, rfl, by decide +kernel, user_storable, fun k hk p e => plain_of frame_plain hk e, fun k j hk hj a b ha hb => by
    rw [frame_place (by omega) ha, frame_place hj hb]; omega⟩

/-- A group with a frame at S2 whose lane 0 stands ready at 0x5000, and one for user interrupts behind it. -/
def framed (l : Level) : State :=
  { lab (gang (crew l)) with
    mem := tables ++ [(0x40010001, 0x50), (0x40010280, 1), (0x40012001, 0x60), (0x40012280, 1)] }

theorem framed_class : (List.range 128).all (fun j => match (framed .control).seek (self .control) .read (0x10000 + BitVec.ofNat 64 (8 * j)) with
    | .ok p => decide (p.cls ≠ 5)
    | .error _ => false) = true ∧ (List.range 128).all (fun j => match (framed .user).seek (self .control) .read (0x12000 + BitVec.ofNat 64 (8 * j)) with
    | .ok p => decide (p.cls ≠ 5)
    | .error _ => false) = true := by decide +kernel

theorem meets_ReturnsRestoreTheFrame :
    (let s := framed .control
    let h := lanes.group s
    Sole s 0 clause lanes ∧ h.level.atLeast .control = true ∧ h.trapCalls = [] ∧ s.unitsOf 0 0 = [] ∧ Loadable s (self .control) h.s2 128 ∧
      frameOk (s.wordsAt (self .control) h.s2 128) = true ∧
      ∀ k, k < 128 → ∀ p, s.seek (self .control) .read (h.s2 + BitVec.ofNat 64 (8 * k)) = .ok p → p.cls ≠ 5) ∧
    (let s := framed .user
    let h := lanes.group s
    Sole s 0 clause lanes ∧ h.uiCalls = [] ∧ Loadable s (self .control) (h.s2 + 0x2000) 128 ∧
      frameOk (s.wordsAt (self .control) (h.s2 + 0x2000) 128) = true ∧
      ∀ k, k < 128 → ∀ p, s.seek (self .control) .read (h.s2 + 0x2000 + BitVec.ofNat 64 (8 * k)) = .ok p → p.cls ≠ 5) :=
  ⟨⟨Sole.of (by decide +kernel), rfl, rfl, by decide +kernel, Loadable.of (by decide +kernel), by decide +kernel,
    fun _ hk _ e => plain_of framed_class.1 hk e⟩, ⟨Sole.of (by decide +kernel), rfl, Loadable.of (by decide +kernel), by decide +kernel,
    fun _ hk _ e => plain_of framed_class.2 hk e⟩⟩

/-- A control group whose memory holds, at 0x3000, a kernel header (R321: one role of 64 registers at 0x40 with a group of eight lanes, a
share of 64 KiB), a launch record of it at 0x6000, for one team, and one for none at 0x6100. -/
def loader : State :=
  { lab (gang { crew .control with s := [(8, 0x6000), (9, 0x6100), (10, 0x6020)] }) with
    mem := tables ++ [(0x40003000, 0x46), (0x40003001, 0x4C), (0x40003002, 0x53), (0x40003003, 0x4C), (0x40003004, 0x3), (0x40003005, 0x1), (0x40003019, 0x10), (0x40003022, 0x1)] ++
      [(0x40003025, 0x24), (0x40003038, 0x40), (0x4000303C, 0x1), (0x4000303D, 0x40), (0x40006001, 0x30), (0x40006018, 0x1), (0x4000601C, 0x11)] ++
      [(0x40006101, 0x30), (0x4000611C, 0x11)] }

theorem loader_calm : loader.Calm 0 [(0, Part.new [0])] := by
  refine ⟨by decide +kernel, rfl, rfl, fun l => ⟨Nat.le_refl 0, Nat.zero_le _⟩, fun t g => ?_, fun c k x => ?_⟩
  · cases t with
    | zero => cases g <;> exact Nat.le_refl 0
    | succ t => exact Nat.le_refl 0
  · cases c <;> cases x

theorem headerStatus_alike {a : Agent} {s t : State} (h : Loads a s t) {n : Nat} (c : s.Calm n s.parts) (p : Nat) (r : BitVec 1024) (l : Bool)
    (x : BitVec 2048) : t.headerStatus p r l x = s.headerStatus p r l x := by
  unfold State.headerStatus State.lacks State.cap
  rw [(h.calm n _ c).parts, show t.dev.service = s.dev.service by rw [h.alike.dev]]

theorem launchStatus_of {s t u : State} {a : Agent} {r : BitVec 1024} {ws : List Nat} {n : Nat} (h : Loads a s t) (c : s.Calm n s.parts)
    (f : (launchForm r && launchField r 256 10 == a.ctx && (s.ctx a.ctx).st != .free && !(s.ctx a.ctx).ctrl) = true)
    (e : State.readWords a t (BitVec.ofNat 64 (launchField r 0 64)) 32 = .ok (ws, u)) (g : Loads a s u) :
    (t.launchStatus a (some r)).1.1 = s.headerStatus (s.ctx a.ctx).part r (s.ctx a.ctx).light (BitVec.ofNat 2048 (joinWords ws)) := by
  simp only [Bool.and_eq_true, beq_iff_eq, bne_iff_ne, Bool.not_eq_true'] at f
  obtain ⟨⟨⟨f1, f2⟩, f3⟩, f4⟩ := f
  have i : a.inCtx (launchField r 256 10) = a := by unfold Agent.inCtx; rw [f2]
  unfold State.launchStatus
  rw [if_neg (by rw [(h.calm n _ c).live]; decide)]
  simp only [i]
  rw [e, f2, h.alike.ctx, f1, if_neg (by decide), if_neg (by simp [f3]), if_neg (by simp [f4])]
  exact headerStatus_alike g c _ _ _ _

/-- The launch record that the registers S8 and S9 name. -/
def record0 (r : BitVec 4) : BitVec 1024 :=
  BitVec.ofNat 1024 (joinWords (Loads.words (lanes.agent loader 0) loader ((lanes.group loader).sreg r.toNat) 16))

theorem loader_form (r : BitVec 4) (h : r = 8 ∨ r = 9) :
    runB loader (lanes.agent loader 0) ((lanes.group loader).sreg r.toNat) 16 8 = true ∧
    (launchForm (record0 r) && launchField (record0 r) 256 10 == 0 && (loader.ctx 0).st != .free && !(loader.ctx 0).ctrl) = true ∧
    launchField (record0 r) 0 64 = 0x3000 ∧
    loader.headerStatus 0 (record0 r) false (BitVec.ofNat 2048 (joinWords (Loads.words (lanes.agent loader 0) loader 0x3000 32))) =
      if r = 8 then 0 else 5 := by
  rcases h with rfl | rfl <;> decide +kernel

/-- Both records are read, and launched with statuses 0 and 5. -/
theorem loader_status (r : BitVec 4) (h : r = 8 ∨ r = 9) :
    ∃ ws t, State.readWords (lanes.agent loader 0) loader ((lanes.group loader).sreg r.toNat) 16 = .ok (ws, t) ∧
      t.launchWaits (lanes.agent loader 0) (BitVec.ofNat 1024 (joinWords ws)) = [] ∧
      (t.launchStatus (lanes.agent loader 0) (some (BitVec.ofNat 1024 (joinWords ws)))).1.1 = if r = 8 then 0 else 5 := by
  obtain ⟨m, f, v, k⟩ := loader_form r h
  obtain ⟨t, e, L⟩ := reads m
  obtain ⟨q, p, l, x⟩ := Run.of (s := loader) (a := lanes.agent loader 0) (va := 0x3000) (n := 32) (w := 8) (by decide +kernel)
  obtain ⟨u, g, M⟩ := Loads.readWords q p 32 0x3000 t L x
  refine ⟨_, t, e, ?_, ?_⟩
  · show t.launchWaits (lanes.agent loader 0) (record0 r) = []
    have f := f
    simp only [Bool.and_eq_true, beq_iff_eq] at f
    unfold State.launchWaits
    dsimp only
    split
    · rfl
    · have i : (lanes.agent loader 0).inCtx (launchField (record0 r) 256 10) = lanes.agent loader 0 := by
        unfold Agent.inCtx
        rw [f.1.1.2]
        rfl
      rw [i, v]
      refine L.waitless _ _ (fun va hv p e => ?_)
      obtain ⟨j, hj, rfl⟩ := List.mem_map.mp hv
      obtain ⟨y, g, -, -, h, -⟩ := x j (List.mem_range.mp hj)
      cases g.symm.trans e
      exact h
  rw [← k]
  exact launchStatus_of (r := record0 r) L loader_calm f (by rw [v]; exact g) M

theorem meets_LaunchCompletes :
    let h := lanes.group loader
    let ag := lanes.agent loader 0
    Sole loader 0 clause lanes ∧ lanes.canCount loader always ⟨0, none⟩ ∧ h.level.atLeast .control = true ∧ lanes.active loader always ≠ 0 ∧
    loader.queueLength (loader.ctx 0).part < 256 ∧ loader.dev.exhausted = false ∧ (h.sreg 10).extractLsb' 0 6 ≠ 0 ∧
    ∀ r : BitVec 4, r = 8 ∨ r = 9 → (h.sreg r.toNat).extractLsb' 0 6 = 0 ∧ loader.wordsOwned ag (h.sreg r.toNat) 16 = [] ∧
      ∃ ws t, State.readWords ag loader (h.sreg r.toNat) 16 = .ok (ws, t) ∧
        t.launchWaits ag (BitVec.ofNat 1024 (joinWords ws)) = [] ∧
        (t.launchStatus ag (some (BitVec.ofNat 1024 (joinWords ws)))).1.1 = if r = 8 then 0 else 5 :=
  ⟨Sole.of (by decide +kernel), fun _ h _ => (by cases h), rfl, by decide +kernel, by decide +kernel, rfl, by decide +kernel,
    fun r h => ⟨by rcases h with rfl | rfl <;> decide +kernel, by rcases h with rfl | rfl <;> decide +kernel, loader_status r h⟩⟩

/-- A control group that names slots 1 to 3 in S8 to S10 and an image in S11: context 1 idle and off the cores, context 2
with a team on a core, slot 3 free. -/
def warden (cells : List Host.Cell) : State :=
  { lab (gang { crew .control with s := [(8, 1), (9, 2), (10, 3), (11, 0x10000), (12, 0x10008)] }) with
    mem := cells
    ctxs := [(0, { Ctx.free with st := .running, ptroot := 0x200000, tvec := 0x8000, bindt := 0x100000 }),
      (1, { Ctx.free with st := .idle, ptroot := 0x200000, quant := 1000000, lease := 64 }),
      (2, { Ctx.free with st := .running, ptroot := 0x200000 })]
    teams := [(0, gang { crew .control with s := [(8, 1), (9, 2), (10, 3), (11, 0x10000), (12, 0x10008)] }),
      (1, { Team.zero with core := some 1, ctx := 2, groups := [(0, crew .user)] })] }

/-- An image of a context with no team, in memory (R340): magic and version, quantum, page-table root, lease, and the offset of
the queue. -/
def archive : State := warden (tables ++ [(0x40010000, 0x54), (0x40010001, 0x43), (0x40010002, 0x49), (0x40010003, 0x4D), (0x40010004, 1),
  (0x40010010, 0x40), (0x40010011, 0x42), (0x40010012, 0x0F), (0x4001001A, 0x20), (0x40010030, 64), (0x40010059, 0x10)])

theorem warden_counts (cells : List Host.Cell) (ll : Ll) : lanes.canCount (warden cells) always ll := fun k _ _ => by
  have : (lanes.group (warden cells)).dreg k.toNat = 0 := by generalize k.toNat = n; rfl
  omega

theorem meets_ContextImagesComplete :
    let s := warden tables
    let h := lanes.group s
    let ag := lanes.agent s 0
    let va := h.sreg 11
    Sole s 0 clause lanes ∧ (∀ ll, lanes.canCount s always ll) ∧ h.level.atLeast .control = true ∧ lanes.active s always ≠ 0 ∧ s.ctxOf 0 < 1024 ∧
    ((h.sreg 8).toNat % 1024 = 1 ∧ (h.sreg 9).toNat % 1024 = 2 ∧ (h.sreg 10).toNat % 1024 = 3) ∧
    (s.csaveStatus (s.ctxOf 0) 1 va = 0 ∧ s.imageFault ag .write va (s.image 1).length = none ∧ (s.saved ag 1 va).isSome = true) ∧
    (s.csaveStatus (s.ctxOf 0) 2 va = 0 ∧ s.imageFault ag .write va (s.image 2).length = none ∧ (s.saved ag 2 va).isNone = true) ∧
    (s.csaveStatus (s.ctxOf 0) 3 va = 1 ∧ s.csaveStatus (s.ctxOf 0) 1 (h.sreg 12) = 2) ∧
    ((s.ctx 1).st ≠ .free ∧ (s.ctx 3).st = .free ∧ (h.sreg 12).extractLsb' 0 12 ≠ 0 ∧ va.extractLsb' 0 12 = 0) ∧
    (s.imageReadFault ag va = none ∧ s.imageOwned ag .read va (s.imageSize ag va) = [] ∧ s.parseImage ag va = none) :=
  ⟨Sole.of (by decide +kernel), warden_counts _, rfl, by decide +kernel, by decide +kernel, by decide +kernel, by decide +kernel,
    by decide +kernel, by decide +kernel, by decide +kernel, by decide +kernel⟩

theorem meets_ContextImagesComplete_restored :
    let va := (lanes.group archive).sreg 11
    Sole archive 0 clause lanes ∧ (∀ ll, lanes.canCount archive always ll) ∧ (archive.ctx 3).st = .free ∧ va.extractLsb' 0 12 = 0 ∧
    archive.imageReadFault (lanes.agent archive 0) va = none ∧
    archive.imageOwned (lanes.agent archive 0) .read va (archive.imageSize (lanes.agent archive 0) va) = [] ∧
    archive.crestWaits (lanes.agent archive 0) 3 va = false ∧ (archive.crest (lanes.agent archive 0) 3 va).1 = 0 :=
  ⟨Sole.of (by decide +kernel), warden_counts _, by decide +kernel, by decide +kernel, by decide +kernel, by decide +kernel, by decide +kernel, by decide +kernel⟩

/-- A control group over a page of the pool: its lanes 0 to 3 hold words 0x40000000 + 8 i there, and compare values. -/
def pool : State :=
  { lab (gang { crew .control with
      v := (List.range 8).map (fun i => (64 + i, BitVec.ofNat 64 (0x40000000 + 8 * i))) ++
        (List.range 8).map (fun i => (128 + i, BitVec.ofNat 64 i)) }) with
    mem := [(0x1000, 0x3B), (0x1003, 0x40), (0x1008, 0xBB), (0x200000, 0x01), (0x200001, 0x10)]
    dev := { Device.reset with service := .normal, trained := true, tested := true, config := 4 + 4 * 2 ^ 128 + 0x100000 * 2 ^ 192 } }

theorem pool_counts (ll : Ll) : lanes.canCount pool always ll := fun k _ _ => by
  have : (lanes.group pool).dreg k.toNat = 0 := by generalize k.toNat = n; rfl
  omega

theorem pool_place (op : PatomOp) : (List.range 8).all (fun i =>
    (pool.patomFault (lanes.agent pool 0) op ((lanes.group pool).reg (.v 1) i) == none)
    && (match pool.seek (lanes.agent pool 0) (if op = .ld then Use.read else Use.write) ((lanes.group pool).reg (.v 1) i) with
      | .ok p => p.addr == 2 ^ 60 + 8 * i
      | .error _ => false)
    && ((pool.walk 0 0 ((lanes.group pool).reg (.v 1) i)).lines == tableLines)) = true := by cases op <;> decide +kernel

theorem pool_on {i : Nat} (h : i < 64 ∧ (lanes.active pool always).getLsbD i = true) : i ∈ List.range 8 := by
  have : (List.range 64).all (fun i => !(lanes.active pool always).getLsbD i || decide (i < 8)) = true := by decide +kernel
  have := List.all_eq_true.mp this i (List.mem_range.mpr h.1)
  rw [h.2] at this
  simpa using this

theorem meets_PoolAtomicsBegin (op : PatomOp) :
    let h := lanes.group pool
    let ag := lanes.agent pool 0
    let act := lanes.active pool always
    let place := fun (i k : Nat) => ∃ p, pool.seek ag (if op = .ld then Use.read else Use.write) (h.reg (.v 1) i) = .ok p ∧ p.addr = k
    let on := fun (i : Nat) => i < 64 ∧ act.getLsbD i = true
    Sole pool 0 clause lanes ∧ (4 : VReg).toNat < h.n ∧ Reg.fits (.v 1) h.n ∧ (2 : VReg).toNat + 1 < h.n ∧ (∀ ll, lanes.canCount pool always ll) ∧
    h.level.atLeast .control = true ∧ pool.recording (pool.ctxOf 0) = false ∧
    pool.Current pool 0 (pool.ctxOf 0) ∧ lanes.canRequest pool 0 always ∧
    (∀ i, on i → pool.patomFault ag op (h.reg (.v 1) i) = none) ∧
    pool.ownedHome ag (if op = .ld then Use.read else Use.write) ((lanesOf act).map (h.reg (.v 1))) = [] ∧
    (∀ i k, on i → place i k → (pool.line (lineNo k)).key = 0 ∧ ∀ q ∈ pool.guarded k, q.mask k 8 = 0) ∧
    (∀ i j k l, on i → on j → i ≠ j → place i k → place j l → k + 8 ≤ l ∨ l + 8 ≤ k) ∧
    (∀ i k l, on i → place i k → l < 64 → act.getLsbD l = true → lineNo k ∉ (pool.walk 0 (pool.ctxOf 0) (h.reg (.v 1) l)).lines) := by
  have at_ : ∀ i k, i ∈ List.range 8 → (∃ p, pool.seek (lanes.agent pool 0) (if op = .ld then Use.read else Use.write)
      ((lanes.group pool).reg (.v 1) i) = .ok p ∧ p.addr = k) → k = 2 ^ 60 + 8 * i := by
    intro i k hi ⟨p, e, h⟩
    have q := List.all_eq_true.mp (pool_place op) i hi
    simp only [Bool.and_eq_true] at q
    rw [e] at q
    rw [← h]
    exact eq_of_beq q.1.2
  refine ⟨Sole.of (by decide +kernel), by decide +kernel, fits (by decide +kernel), by decide +kernel, pool_counts, rfl, by decide +kernel,
    current_of (by decide +kernel) _, by decide +kernel, fun i hi => ?_, by cases op <;> decide +kernel, fun i k hi p => ?_, fun i j k l hi hj n p q => ?_, fun i k l hi p hl al => ?_⟩
  · have q := List.all_eq_true.mp (pool_place op) i (pool_on hi)
    simp only [Bool.and_eq_true] at q
    exact eq_of_beq q.1.1
  · rw [at_ i k (pool_on hi) p]
    have z : (List.range 8).all (fun i => decide ((pool.line (lineNo (2 ^ 60 + 8 * i))).key = 0 ∧
        ∀ q ∈ pool.guarded (2 ^ 60 + 8 * i), q.mask (2 ^ 60 + 8 * i) 8 = 0)) = true := by decide +kernel
    exact of_decide_eq_true (List.all_eq_true.mp z i (pool_on hi))
  · rw [at_ i k (pool_on hi) p, at_ j l (pool_on hj) q]
    omega
  · have q := List.all_eq_true.mp (pool_place op) l (pool_on ⟨hl, al⟩)
    simp only [Bool.and_eq_true] at q
    have w : (pool.walk 0 (pool.ctxOf 0) ((lanes.group pool).reg (.v 1) l)).lines = tableLines := eq_of_beq q.2
    rw [w, at_ i k (pool_on hi) p]
    simp [tableLines, lineNo]
    omega

/-- A machine-level group: S8 names slot 1, which is free, S9 slot 0, and S10 to S12 a message of eight bytes at 0x3000. -/
def vault : State := lab (gang { crew .machine with s := [(8, 1), (9, 0), (10, 0x3000), (11, 8), (12, 0)] })

theorem vault_places : (List.range 32).all (fun k =>
    (vault.probe (lanes.agent vault 0) .write false (0x3000 + BitVec.ofNat 64 k) == none)
    && (vault.ownedAmong (lanes.agent vault 0) .write [0x3000 + BitVec.ofNat 64 k] == [])
    && (match vault.seek (lanes.agent vault 0) .write (0x3000 + BitVec.ofNat 64 k) with
      | .ok p => p.addr == 0x40003000 + k
      | .error _ => false)
    && ((vault.walk 0 0 (0x3000 + BitVec.ofNat 64 k)).lines == tableLines)) = true := by decide +kernel

theorem vault_plain : (List.range 32).all (fun k => match vault.seek (lanes.agent vault 0) .write (0x3000 + BitVec.ofNat 64 k) with
    | .ok p => decide (vault.Plain 0 p.cls p.addr 1)
    | .error _ => false) = true := by decide +kernel

theorem meets_MachineLevelInstructionsComplete :
    let h := lanes.group vault
    let ag := lanes.agent vault 0
    let at_ := fun (j : Nat) => h.sreg 10 + BitVec.ofNat 64 j
    let place := fun (j y : Nat) => ∃ p, vault.seek ag .write (at_ j) = .ok p ∧ p.addr = y
    Sole vault 0 clause lanes ∧ h.level = .machine ∧ (∀ ll, lanes.canCount vault always ll) ∧ lanes.active vault always ≠ 0 ∧
    vault.recording 0 = false ∧ (vault.ctx ((h.sreg 8).toNat % 1024)).st = .free ∧ (vault.ctx ((h.sreg 9).toNat % 1024)).st ≠ .free ∧
    ((h.sreg 11).toNat ≠ 0 ∧ (h.sreg 11).toNat < 2 ^ 32 ∧ ∃ bs t, State.readBytes ag vault (h.sreg 10) (h.sreg 11).toNat = .ok (bs, t)) ∧
    (∀ j, j < 32 → vault.probe ag .write false (at_ j) = none ∧ vault.ownedAmong ag .write [at_ j] = []) ∧
    (∀ j l y, j < 32 → l < 32 → place j y → lineNo y ∉ (vault.walk 0 (vault.ctxOf 0) (at_ l)).lines) ∧
    vault.Current vault 0 (vault.ctxOf 0) ∧
    (∀ j, j < 32 → ∀ p, vault.seek ag .write (at_ j) = .ok p → vault.Plain 0 p.cls p.addr 1) ∧
    (∀ j l y, j < 32 → l < 32 → place j y → place l y → j = l) ∧
    vault.lmsStatus ag true (h.sreg 8) (h.sreg 9) (h.sreg 10) (h.sreg 12).toNat = .ok ((3, []), vault) := by
  have sq : ∀ j, j < 32 → _ := fun j hj => List.all_eq_true.mp vault_places j (List.mem_range.mpr hj)
  have at_ : ∀ j y, j < 32 → (∃ p, vault.seek (lanes.agent vault 0) .write (0x3000 + BitVec.ofNat 64 j) = .ok p ∧ p.addr = y) →
      y = 0x40003000 + j := by
    intro j y hj ⟨p, e, h⟩
    have q := sq j hj
    simp only [Bool.and_eq_true] at q
    rw [e] at q
    rw [← h]
    exact eq_of_beq q.1.2
  refine ⟨Sole.of (by decide +kernel), rfl, fun ll k _ _ => ?_, by decide +kernel, by decide +kernel, by decide +kernel, by decide +kernel,
    ⟨by decide +kernel, by decide +kernel, ?_⟩, fun j hj => ?_, fun j l y hj hl p => ?_, current_of (by decide +kernel) _, fun _ hj _ e => plain_of vault_plain hj e,
    fun j l y hj hl p q => ?_, rfl⟩
  · have : (lanes.group vault).dreg k.toNat = 0 := by generalize k.toNat = n; rfl
    omega
  · obtain ⟨q, p, l, x⟩ := Run.of (s := vault) (a := lanes.agent vault 0) (va := (lanes.group vault).sreg 10)
      (n := ((lanes.group vault).sreg 11).toNat) (w := 1) (by decide +kernel)
    obtain ⟨t, e, _⟩ := Loads.readBytes q p _ _ _ l (fun k hk => by simpa using x k hk)
    exact ⟨_, t, e⟩
  · have q := sq j hj
    simp only [Bool.and_eq_true] at q
    exact ⟨eq_of_beq q.1.1.1, eq_of_beq q.1.1.2⟩
  · have q := sq l hl
    simp only [Bool.and_eq_true] at q
    have w : (vault.walk 0 (vault.ctxOf 0) (0x3000 + BitVec.ofNat 64 l)).lines = tableLines := eq_of_beq q.2
    show lineNo y ∉ (vault.walk 0 (vault.ctxOf 0) (0x3000 + BitVec.ofNat 64 l)).lines
    rw [w, at_ j y hj p]
    simp [tableLines, lineNo]
    omega
  · have a := at_ j y hj p
    have b := at_ l y hl q
    omega

/-! ### Hypotheses met: events -/

/-- The line of code at 0x4000: a header of two instructions, a NOP and an EXIT (R200). -/
def codeLine : List Byte := [1, 0, 0x20, 0, 0, 0, 0, 0, 0x80, 0x1F, 0, 0, 0x88, 0x1F, 0, 0] ++ List.replicate 112 0

/-- The lab with its core between clauses and the line in the instruction cache, or not. -/
def idle (cached : Bool) : State :=
  { lab (gang (crew .user)) with
    cores := [(0, { Core.empty with ic := if cached then [(icKey 0 0x4000, codeLine)] else [] })]
    grids := [(0, { grid with hdr := { kernel with codelen := 8192 } })] }

theorem meets_IssueSelectionCompletes_chosen :
    let s := idle true
    let a := (s.residents 0).foldl (fun s e => s.arriveGroup e.1 e.2.1) s
    (s.core 0).issue = none ∧ (s.core 0).second = none ∧ s.creditsDue 0 = [] ∧ (∀ e ∈ s.residents 0, (s.group e.1 e.2.1).late = none) ∧
    (∀ d ∈ a.chosen 0, d.fault = none) ∧ ((a.chosen 0).map (fun c => match c.got with
      | .clause h ver body => (h.bodyw, ver, body.take 8)
      | .fault _ | .absent _ | .bad => (0, 0, []))) = [(2, 3, [0x80, 0x1F, 0, 0, 0x88, 0x1F, 0, 0])] :=
  ⟨rfl, rfl, by decide +kernel, by decide +kernel, by decide +kernel, by decide +kernel⟩

theorem meets_IssueSelectionCompletes_empty :
    let s := idle false
    let a := (s.residents 0).foldl (fun s e => s.arriveGroup e.1 e.2.1) s
    (s.core 0).issue = none ∧ (s.core 0).second = none ∧ s.creditsDue 0 = [] ∧ (∀ e ∈ s.residents 0, (s.group e.1 e.2.1).late = none) ∧
    a.chosen 0 = [] ∧ (∃ p, s.look 0 0 .machine .fetch (icLine 0x4000) none true = .ok p ∧ (p.held = false ∧ s.owned (lineNo p.addr) = false ∧
      s.owned (lineNo p.addr + 1) = false ∧ s.pcMiss p = none)) ∧ (s.codeBytes 0 0 (icLine 0x4000) 16).isSome = true ∧
    (s.core 0).ic.length < Config.icLines :=
  ⟨rfl, rfl, by decide +kernel, by decide +kernel, by decide +kernel, Ok.of (by decide +kernel), by decide +kernel, by decide +kernel⟩

theorem meets_IssueSelectionCompletes_aged :
    let s := lab (gang { crew .user with aged := 5000 })
    s.has 0 0 = true ∧ 4096 ≤ (s.group 0 0).aged := ⟨by decide +kernel, by decide +kernel⟩

/-- Each lane of the group waits for something else, or has slept until the tick 0; one instruction is outstanding, and one fence. -/
def waiting : State :=
  { lab (gang { crew .user with
      pend := [(0, { Pend.zero with lanes := 0xFF, ready := true, vw := [(320, 7)], sw := [(9, 4)] })]
      fences := [(0, (0xFF, .host)), (1, (0xFF, .dev)), (2, (0xFF, .pool))]
      st := [(0, 8), (1, 8), (2, 8), (3, 6), (4, 7), (5, 1), (6, 1), (7, 1)]
      hdr := (List.range 8).map (fun i => (i, (0x4000, 2)))
      wait := [(0, .lines 0 [] false), (1, .lines 0 [] true), (2, .owned []), (3, .sleep 0), (4, .word .ne .i64 5 (some 7) 0x2000)] }) with
    regs := [{ ctx := 0, key := 0x2000, who := .lanes 0 0 0x10, retry := false, woken := true }]
    ports := [(0, { Port.down with posted := [(2 ^ 61, 8, 3)] })] }

theorem meets_WaitsComplete :
    let g := waiting.group 0 0
    let a := waiting.groupAgent 0 0
    waiting.has 0 0 = true ∧ g.calls = [] ∧ sorted g.wait = true ∧
    (∃ p, find 0 g.pend = some p ∧ waiting.mayComplete (waiting.ctxOf 0) p = true ∧ p.lanes &&& (0xFF : Lanes) ≠ 0 ∧ p.calls = [] ∧
      sorted p.vw = true ∧ sorted p.pw = true ∧ sorted p.sw = true ∧ p.lanes &&& ~~~(0xFF : Lanes) = 0 ∧ p.lanes &&& ~~~(0x0F : Lanes) ≠ 0) ∧
    (find 0 g.fences = some (0xFF, .host) ∧ find 1 g.fences = some (0xFF, .dev) ∧ find 2 g.fences = some (0xFF, .pool)) ∧
    (find 3 g.wait = some (.sleep 0) ∧ 0 ≤ waiting.dev.datum) ∧
    (find 0 g.wait = some (.lines 0 [] false) ∧ find 1 g.wait = some (.lines 0 [] true) ∧ find 2 g.wait = some (.owned []) ∧
      (∀ l ∈ ([] : List Nat), (waiting.team 0).present l = true) ∧ (∀ l ∈ ([] : List Nat), waiting.owned l = false) ∧
      ∀ i, i < 8 → find i g.hdr = some (0x4000, 2)) ∧
    ((0x10 : Lanes) &&& waiting.wokenLanes 0 0 = laneBit 4 ∧ find 4 g.wait = some (.word .ne .i64 5 (some 7) 0x2000) ∧
      (waiting.team 0).core.isSome = true ∧ waiting.mayIssue a.ctx = true ∧ waiting.keyFault a true 0x2000 = none ∧
      waiting.ownedHome a .read [0x2000] = [] ∧ waiting.recording a.ctx = false ∧ (∃ p, waiting.seek a .read 0x2000 = .ok p ∧ True)) :=
  ⟨by decide +kernel, rfl, by decide +kernel, ⟨_, rfl, by decide +kernel⟩, ⟨rfl, rfl, rfl⟩, by decide +kernel, by decide +kernel,
    by decide +kernel, by decide +kernel, by decide +kernel, by decide +kernel, by decide +kernel, by decide +kernel, by decide +kernel,
    Ok.of (by decide +kernel)⟩

/-- A copy of four rows from memory at 0x2000. -/
def rows : CopyOp :=
  { form := 4, handle := 0, record := 0, org := [], share := 0x400, mem := 0x2000, count := 4, row := 0, rows := 4, shelf := none
    slot := none, clears := [], stamp := 0, time := 0 }

/-- A write of the word at 0x40003000. -/
def poke : NearOp := { into := [(0, 0x40003000, 8)], vals := [7], src := [] }

/-- A take that waits on shelf 1, a commit due on shelf 2, a copy that has not begun, one that has, an operation that waits
for two lines, and a write that waits for its own. -/
def depot : State :=
  { lab { gang (crew .user) with
      h := [(1, { rack with wants := [⟨0, true, 1, .group 0, 9, 0xFF⟩] }), (2, { rack with dues := [⟨0, false, 1, 7, none, 0, none, []⟩] })] } with
    ops := [(0, plain (.copy rows)), (1, { plain (.copy rows) with begun := true }), (2, { plain .drain with need := [5, 6] }),
      (3, { plain (.near poke) with need := [0x10000C0] })] }

theorem meets_StorageEventsComplete :
    (((depot.team 0).shelf 1).ready.any (fun w => decide (w.who = .group 0)) = true ∧ (find 0 depot.teams).isSome = true ∧ depot.has 0 0 = true ∧
      (depot.group 0 0).calls = []) ∧
    (depot.dueReady 0 ((depot.team 0).shelf 2)).any (fun d => decide (d.pend = none)) = true ∧
    (∀ k ∈ [2, 3], (find k depot.ops).any (fun o => decide (o.park = none ∧ o.e = none ∧ (o.body.unit = 0 ∨ depot.unitsRun o.ctx = true) ∧
      ∀ l ∈ o.need, depot.ownedBut (some k) l = false)) = true) ∧
    (find 3 depot.ops).any (fun o => decide (o.body = .near poke ∧ o.await = false ∧ o.held = false ∧ poke.src = [] ∧
      (∀ p ∈ poke.into, depot.Plain o.ctx p.1 p.2.1 p.2.2) ∧
      poke.into.Pairwise (fun p q => p.2.1 + p.2.2 ≤ q.2.1 ∨ q.2.1 + q.2.2 ≤ p.2.1))) = true ∧
    (find 0 depot.ops).any (fun o => decide (o.body = .copy rows ∧ o.park = none ∧ o.begun = false ∧ rows.shelf = none ∧
      depot.behindCopy 0 o = false ∧ depot.unitsRun o.ctx = true)) = true ∧
    (find 1 depot.ops).any (fun o => decide (o.body = .copy rows ∧ o.park = none ∧ o.begun = true ∧ rows.form = 4 ∧ rows.row + 1 < rows.rows ∧
      depot.obstacle o.agent .read (rows.addrs rows.row) = none ∧ depot.readsWait 1 o.agent (rows.addrs rows.row) = false ∧
      depot.writesLater 1 o rows = false ∧ depot.readsLater 1 o rows (rows.lines rows.row) = false ∧
      (rows.addrs rows.row).all (fun va => match depot.seek o.agent .read va with
        | .ok p => decide (p.cls ≠ 5 ∧ p.addr % 64 + 8 ≤ 64 ∧ find (l1Key o.ctx (lineNo p.addr)) (depot.core o.core).l1 = none)
        | .error _ => false) = true ∧
      depot.recording o.ctx = false ∧ depot.has o.team o.grp = true ∧ rows.share % 256 = 0)) = true :=
  ⟨⟨by decide +kernel, by decide +kernel, by decide +kernel, rfl⟩, by decide +kernel, by decide +kernel, by decide +kernel, by decide +kernel,
    by decide +kernel⟩

/-- Where a copy of the group is parked by a fault, its record on a poisoned line, no clause is in issue, and user-level interrupts
are on, one pending. -/
def parked (op : Bool) (l : Level) : State :=
  { lab (gang { crew l with uien := true, uipend := 4 }) with
    cores := [], lines := [(0x1000450, { Line.at 0 with poison := true })], grids := [(0, { grid with hdr := kernel })]
    ops := if op then [(0, { plain (.copy rows) with held := true, park := some ⟨.unmapped, 1, 0x2000, none, false, false, 0⟩ })] else [] }

theorem meets_DeliveriesEnterTheHandler :
    (let s := parked true .user
    let g := s.group 0 0
    let at_ : Agent := { s.groupAgent 0 0 with level := .control }
    s.has 0 0 = true ∧ g.live ≠ 0 ∧ (get Trace.zero ((s.groupAgent 0 0).core / 96) s.traces).en = false ∧ g.level = .user ∧ s.boundary 0 0 = true ∧
    ∃ unit u p, s.dueFault 0 0 = some (unit, u, p) ∧ s.waitsAt u = none ∧ s.mayTrap 0 0 false = true ∧ Storable (s.markDelivered u) at_ g.s2 128) ∧
    (let s := parked false .user
    let g := s.group 0 0
    let at_ : Agent := { s.groupAgent 0 0 with level := .control }
    s.has 0 0 = true ∧ g.live ≠ 0 ∧ (get Trace.zero ((s.groupAgent 0 0).core / 96) s.traces).en = false ∧
    (∃ hd, s.headerOf 0 = some hd ∧ hd.uient ≠ 0) ∧ (∃ n, g.interrupt = some n ∧ n = 2) ∧ g.uien = true ∧ g.level = .user ∧ s.mayTrap 0 0 true = true ∧
    s.boundary 0 0 = true ∧ s.dueFault 0 0 = none ∧ (s.team 0).core.isSome = true ∧ s.mayIssue (s.groupAgent 0 0).ctx = true ∧
    Storable s at_ (g.s2 + 0x2000) 128) ∧
    (let s := parked false .control
    s.has 0 0 = true ∧ (s.group 0 0).live ≠ 0 ∧ (get Trace.zero ((s.groupAgent 0 0).core / 96) s.traces).en = false ∧ (s.group 0 0).level = .control) :=
  ⟨⟨by decide +kernel, by decide +kernel, rfl, rfl, by decide +kernel, 5, .op 0, ⟨.unmapped, 1, 0x2000, none, false, false, 0⟩,
      by decide +kernel, by decide +kernel, by decide +kernel, Storable.of (by decide +kernel)⟩,
    ⟨by decide +kernel, by decide +kernel, rfl, Some.of (by decide +kernel), Some.of (by decide +kernel), rfl, rfl, by decide +kernel, by decide +kernel,
      by decide +kernel, rfl, by decide +kernel, Storable.of (by decide +kernel)⟩,
    ⟨by decide +kernel, by decide +kernel, rfl, rfl⟩⟩

/-- A grid of four teams, one of them placed, each with some bytes of scratchpad. -/
def mass (n : Nat) : Grid :=
  { grid with teams := 4, next := 1, gangs := 1, queued := true, hdr := { kernel with scratch := n }, record := BitVec.ofNat 1024 (2 ^ 224 + 2 ^ 228) }

/-- It waits on a partition of cluster 0, beside a grid that is complete. -/
def plaza (n : Nat) : State :=
  { lab (gang (crew .user)) with
    parts := [(0, { Part.new [0] with running := some 0 })], cores := []
    grids := [(0, mass n), (1, { grid with teams := 1, next := 1, live := 0, dc := some 3 })] }

/-- The group has ended. -/
def over_ : State := { lab (gang { crew .user with st := (List.range 8).map (fun i => (i, 2)) }) with cores := [] }

theorem plaza_waits (n : Nat) (h : n = 65536 ∨ n = 4000000) :
    let p := { Part.new [0] with running := some 0 }
    find 0 (plaza n).parts = some p ∧ ((plaza n).ctx 0).st = .running ∧ (plaza n).unplaced 0 = false ∧
      (plaza n).firstGrid 0 = some (0, mass n) ∧ ((plaza n).nextGang p (mass n)).isSome = (n == 65536) := by
  rcases h with rfl | rfl <;> decide +kernel

theorem meets_PlacementAndEndsComplete :
    (∀ n, n = 65536 ∨ n = 4000000 → ∃ p id g, find 0 (plaza n).parts = some p ∧ p.running = some 0 ∧ ((plaza n).ctx 0).st = .running ∧
      p.halting = false ∧ p.swapping = false ∧ p.halted = false ∧ p.waits = false ∧ (plaza n).unplaced 0 = false ∧
      (plaza n).firstGrid 0 = some (id, g) ∧ ((plaza n).nextGang p g).isSome = (n == 65536)) ∧
    (over_.groupOver 0 0 = true ∧ (over_.group 0 0).sort = .normal ∧ (find 0 over_.teams).isSome = true) ∧
    (∃ g, find 1 (plaza 65536).grids = some g ∧ g.complete = true ∧ g.record.extractLsb' 288 64 = 0 ∧ (plaza 65536).has g.team g.grp = true) :=
  ⟨fun n h => by
      obtain ⟨a, b, c, d, e⟩ := plaza_waits n h
      exact ⟨_, 0, _, a, rfl, b, rfl, rfl, rfl, rfl, c, d, e⟩,
    by decide +kernel, ⟨{ grid with teams := 1, next := 1, live := 0, dc := some 3 }, rfl, by decide +kernel⟩⟩

/-- A sweep over the eight parcels of a tensor at 0x3000 whose plat lies at 0x5000, with four continuations. -/
def herd : BitVec 768 :=
  BitVec.ofNat 768 (1 + 2 ^ 4 + 3 * 2 ^ 8 + 2 ^ 20 + 7 * 2 ^ 24 + 0x3000 * 2 ^ 64 + 8 * 2 ^ 128 + 0x5000 * 2 ^ 704)

/-- Its engine, which has taken parcel 2 and passed the range. -/
def engine : Engine :=
  { team := 0, phase := .claim, cc := 0, cursor := 8, claimed := (0, 0), forming := [], entry := 0x4000, formed := [(0x4000, [2])], cleared := true, admitted := 1
    wb := [], places := [], next := 8, pass := 0, op := none, park := none, held := false, abandoned := false }

def sweep (x : Engine) : Sweep :=
  { grid := 0, team := 0, grp := 0, ctx := 0, pend := none, d := 9, token := 0x4008, handle := 0, record := herd, table := 0x6000, area := 0x10000
    role := 0, mode := .one, left := 1, build := false, passes := 0, stop := false, broken := false, nc := 4, s1 := 0, level := .user
    ord := 0, engines := [(0, x)] }

/-- A team with that sweep, and as group 1 a sweep group of it that has ended. -/
def pasture (x : Engine) : State :=
  { lab { gang (crew .user) with
      groups := [(0, crew .user), (1, { crew .user with st := (List.range 8).map (fun i => (i, 2)), sort := .sweep 0 0 0 0 [] })] } with
    cores := [], grids := [(0, { grid with hdr := kernel })], sweeps := [(0, sweep x)] }

theorem meets_PlacementAndEndsComplete_extra :
    let s := pasture engine
    let w := sweep engine
    let x := engine
    find 0 s.sweeps = some w ∧ find 0 w.engines = some x ∧ s.engineRuns w x = true ∧ x.formed = [(0x4000, [2])] ∧
    (let vcnt := match s.headerOf x.team with
      | some h => (match h.roles[w.role]? with
        | some r => r.vcnt
        | none => 0)
      | none => 0
    s.extraRoom x.team 32 (groupRows vcnt 32) = some 2 ∧ s.freePlace x.team = some 1) ∧
    (find x.team s.teams).isSome = true ∧
    ∃ v, s.formRegs (s.sweepAgent w x) w.record [2] = .ok v ∧ True :=
  ⟨rfl, rfl, by decide +kernel, rfl, by decide +kernel, rfl, Ok.of (by decide +kernel)⟩

/-- The engine before the first word of a row, past the last continuation, in the build, and at the barrier. -/
def engine0 : Engine := { engine with formed := [], cursor := 0 }
def engine4 : Engine := { engine with formed := [], cc := 4 }
def builder : Engine := { engine with formed := [], phase := .build, next := 2 }
def waiter : Engine := { engine with formed := [], phase := .barrier1, next := 0 }

/-- The pasture with the context word of parcel 2. -/
def fold_ (x : Engine) (word : Nat) : State := { pasture x with mem := writeN tables 0x40003020 8 word }

theorem fold_run (word : Nat) (h : word = 0xFFFF) :
    runB (fold_ builder word) ((fold_ builder word).sweepAgent (sweep builder) builder) 0x3020 1 8 = true := by subst h; decide +kernel

theorem builds : ∃ t, (fold_ builder 0xFFFF).buildParcel ((fold_ builder 0xFFFF).sweepAgent (sweep builder) builder) (sweep builder) 0 2 = .ok t := by
  obtain ⟨r, p, l, x⟩ := Run.of (fold_run 0xFFFF rfl)
  obtain ⟨t, e, L⟩ := l.loadAt r p (va := 0x3020) (n := 8) (by simpa using x 0 (by decide)) true
  obtain ⟨q, f, c, i, z⟩ := Ok.of (r := (fold_ builder 0xFFFF).seek ((fold_ builder 0xFFFF).sweepAgent (sweep builder) builder) .write 0x3020)
    (p := fun q => q.cls < 2 ∧ q.held = false ∧ (fold_ builder 0xFFFF).poisoned ((fold_ builder 0xFFFF).keyOf
      ((fold_ builder 0xFFFF).sweepAgent (sweep builder) builder).ctx) (lineNo q.addr) = false) (by decide +kernel)
  obtain ⟨u, g⟩ := L.atomAt f c i z true 8 (fun _ => 0xFFFF)
  rw [show (fold_ builder 0xFFFF).peek ((fold_ builder 0xFFFF).sweepAgent (sweep builder) builder) 0x3020 8 = 0xFFFF by decide +kernel] at e
  have v : parcelVa (sweep builder).record 2 = 0x3020 := by decide +kernel
  have k : buildOk (sweep builder).record (sweep builder).nc 0 2 0xFFFF = true := by decide +kernel
  unfold State.buildParcel
  simp only [v, e, bind, Except.bind, k, Bool.not_true, Bool.false_eq_true, if_false, show cwKind 0xFFFF = 0 by decide,
    show (if 0 = 4 then cwMake (cwCont 0xFFFF) 4 (cwNreg 0xFFFF) (0 + cwArg 0xFFFF) else 0xFFFF) = 0xFFFF by decide, g]
  exact ⟨_, rfl⟩

theorem meets_SweepEnginesStep_claims :
    (let s := pasture engine4
    let w := sweep engine4
    let x := engine4
    find 0 s.sweeps = some w ∧ find 0 w.engines = some x ∧ s.engineRuns w x = true ∧ x.phase = .claim ∧ w.built = true ∧
    w.stop = false ∧ x.claimed.2 = 0 ∧ w.nc ≤ x.cc ∧ x.drained = true) ∧
    (let s := pasture engine0
    let w := sweep engine0
    let x := engine0
    find 0 s.sweeps = some w ∧ find 0 w.engines = some x ∧ s.engineRuns w x = true ∧ x.phase = .claim ∧ w.built = true ∧
    w.stop = false ∧ x.claimed.2 = 0 ∧ x.cc < w.nc ∧
    (rowWords (max (w.range 0).1 x.cursor) (w.range 0).2).head? = some (0, 255) ∧
    ∃ v, s.rowTake (s.sweepAgent w x) w.record 0 x.cc 0 255 = .ok v ∧ v.1 = 0) ∧
    (let s := fold_ builder 0xFFFF
    let w := sweep builder
    let x := builder
    find 0 s.sweeps = some w ∧ find 0 w.engines = some x ∧ s.engineRuns w x = true ∧ x.phase = .build ∧ x.cleared = true ∧ 2 = x.next ∧
    2 < (w.range 0).2 ∧ ∃ t, s.buildParcel (s.sweepAgent w x) w x.pass 2 = .ok t) :=
  ⟨⟨rfl, rfl, by decide +kernel, rfl, rfl, rfl, rfl, by decide +kernel, by decide +kernel⟩,
    ⟨rfl, rfl, by decide +kernel, rfl, rfl, rfl, rfl, by decide +kernel, by decide +kernel, Ok.of (by decide +kernel)⟩,
    ⟨rfl, rfl, by decide +kernel, rfl, rfl, rfl, by decide +kernel, builds⟩⟩

/-- An engine that writes lane 0 of its group 1 back, at a step; where the sweep group holds parcel 2 in that lane. -/
def writer (lane step : Nat) : Engine := { engine with formed := [], places := [(0, 1)], wb := [(0, (1, lane, step))] }
def shepherd (lane step : Nat) : State :=
  { lab { gang (crew .user) with
      groups := [(0, crew .user), (1, { crew .user with st := (List.range 8).map (fun i => (i, 2)), sort := .sweep 0 0 0 0 [(0, 2)] })] } with
    mem := writeN tables 0x40003020 8 (6 * 2 ^ 16), cores := [], grids := [(0, { grid with hdr := kernel })]
    sweeps := [(0, sweep (writer lane step))] }

theorem meets_SweepEnginesStep_writes :
    (let s := shepherd 1 1
    let x := writer 1 1
    find 0 s.sweeps = some (sweep x) ∧ find 0 (sweep x).engines = some x ∧ s.engineRuns (sweep x) x = true ∧
    x.places.find? (fun p => ((s.team x.team).group p.2).finished) = some (0, 1) ∧ (s.group x.team 1).sort = .sweep 0 0 0 0 [(0, 2)] ∧
    (get (1, 0, 1) 0 x.wb).2 = (1, 1) ∧ find 1 ([(0, 2)] : SMap Nat) = none) ∧
    (let s := shepherd 0 1
    let x := writer 0 1
    let w := sweep x
    let a := s.sweepAgent w x
    let g := s.group x.team 1
    let s0 := s.onEngine 0 0 (fun x => { x with wb := put 0 (1, 0, 1) x.wb })
    let xs := wbStores w.record g 0 2
    s.engineRuns w x = true ∧ x.places.find? (fun p => ((s.team x.team).group p.2).finished) = some (0, 1) ∧
    (get (1, 0, 1) 0 x.wb).2 = (0, 1) ∧ w.wbBad x.pass 2 (find 0 g.carry) = false ∧ x.op = none ∧ xs.length = 1 ∧
    s0.obstacle a .write (xs.map (·.1)) = none ∧
    (∀ p ∈ s0.spots a .write (xs.map (·.1)), s.owned (lineNo p.addr) = false ∧ s.Plain w.ctx p.cls p.addr 8) ∧
    (xs.all (fun y => match s0.seek a .write y.1 with
      | .ok p => xs.all (fun z => !(s.walk a.core w.ctx z.1).lines.contains (lineNo p.addr))
      | .error _ => false)) = true ∧ s.Current s a.core w.ctx) ∧
    (let s := shepherd 0 2
    let x := writer 0 2
    let w := sweep x
    s.engineRuns w x = true ∧ (get (1, 0, 1) 0 x.wb).2 = (0, 2) ∧
    ∃ t, (s.onEngine 0 0 (fun x => { x with wb := put 0 (1, 0, 2) x.wb })).wbWord (s.sweepAgent w x) w x.pass 2
      (find 0 (s.group x.team 1).carry) = .ok t ∧ True) :=
  ⟨by decide +kernel, ⟨by decide +kernel, by decide +kernel, by decide +kernel, by decide +kernel, by decide +kernel, by decide +kernel,
    by decide +kernel, by decide +kernel, by decide +kernel, current_of (by decide +kernel) _⟩,
    ⟨by decide +kernel, by decide +kernel, Ok.of (by decide +kernel)⟩⟩

theorem meets_SweepEnginesStep_barriers :
    (let s := pasture waiter
    let w := sweep waiter
    let x := waiter
    find 0 s.sweeps = some w ∧ (∀ e ∈ w.engines, s.engineRuns w e.2 = true) ∧ w.engines.find? (fun e => e.2.phase == .barrier1) = some (0, x) ∧
    (∀ e ∈ w.engines, e.2.phase = .barrier1 ∨ e.2.phase = .barrier2) ∧ w.rowList (w.range 0).1 (w.range 0).2 x.next = some (0, 0, 255) ∧
    ∃ t, s.barrierNext (s.sweepAgent w x) w 0 0 255 = .ok t ∧ True) ∧
    (let x := { engine with phase := .done, formed := [] }
    let s := pasture x
    let w := sweep x
    find 0 s.sweeps = some w ∧ w.engines = [(0, x)] ∧ (∀ e ∈ w.engines, s.engineRuns w e.2 = true) ∧ (∀ e ∈ w.engines, e.2.phase = .done) ∧
    w.mode = .one ∧ w.broken = false ∧ s.has w.team w.grp = true ∧ (∀ e ∈ w.engines, e.2.held = false) ∧
    ∃ t, s.sweepTest 0 w (s.sweepAgent w x) = .ok t ∧ True) :=
  ⟨⟨by decide +kernel, by decide +kernel, by decide +kernel, by decide +kernel, by decide +kernel, Ok.of (by decide +kernel)⟩,
    ⟨by decide +kernel, by decide +kernel, by decide +kernel, by decide +kernel, rfl, rfl, by decide +kernel, by decide +kernel,
      Ok.of (by decide +kernel)⟩⟩

/-! A class 1 page and an operation's own translations: what an engine reads there does not rest on what the caches keep. -/

/-- A tree of one node at 0x9000: child 0 is a leaf of the two triangles at 0xA000, child 1 a box of the pair traverse; both have the
bounds 0 and 1 on each axis. A ray from the origin along z meets the first triangle at 0.5. -/
def node : Nat := 0xA000 * 2 ^ 192 + 2 * 2 ^ 256 + 4 * 2 ^ 264 + 2 ^ 736 + 2 * 2 ^ 960
def corners (xs : List Nat) : Nat := joinBits 32 xs
def nearTri : Nat := corners [0xBF800000, 0xBF800000, 0x3F000000, 0x3F800000, 0xBF800000, 0x3F000000, 0, 0x3F800000, 0x3F000000, 7, 9, 1]
def farTri : Nat := corners [0x40A00000, 0x40A00000, 0x3F000000, 0x40C00000, 0x40A00000, 0x3F000000, 0x40A00000, 0x40C00000, 0x3F000000, 8, 9, 1]

/-- The list at 0x5000 as above, vertices (0, 0), (4, 0) and (0, 4) at 0xB000 and, at 0xB800, the indices of a triangle seen from the
front, of one without area, and of one seen from behind. -/
def grove : List Host.Cell :=
  let m := writeN [(0x1000, 0x7B), (0x1003, 0x40), (0x200000, 0x01), (0x200001, 0x10)] 0x40005000 64 queue.image
  let m := writeN m 0x40009000 128 node
  let m := writeN m 0x4000A000 128 (nearTri + farTri * 2 ^ 512)
  let m := writeN m 0x4000B000 48 (0x40800000 * 2 ^ 128 + 0x40800000 * 2 ^ 288)
  writeN m 0x4000B800 36 (corners [0, 1, 2, 0, 0, 0, 0, 2, 1])

/-- Rays: one that has ended, one with nothing left, one whose entry lies beyond its distance, one that pops the node, and two at the
triangles of its leaf. -/
def beams : SMap Ray :=
  let r : Ray := { ray with status := 0, cand := none, bestValid := false }
  [(0, { r with status := 2 }), (1, r), (2, { r with stack := [(0x9000, 0x40000000, 0)] }), (3, { r with stack := [(0x9000, 0, 0)] }),
    (4, { r with node := some 0x9040 }), (5, { r with node := some 0x9040, tri := 1 })]

/-- An operation of the group that owns the lines of the target at 0x7800 and holds the translations of the pages from 0x5000 on. -/
def forged (b : Body) : Op :=
  { plain b with
    own := [0x10001E0, 0x10001E1]
    pages := (List.range 7).map (fun k => (k + 5, ⟨0x40005000 + 4096 * k, 1, true, true, true, 0⟩)) }

/-- The group with that operation in progress. -/
def forge (b : Body) : State :=
  { lab (gang { crew .user with rays := beams }) with
    mem := grove, grids := [(0, grid)], ops := [(0, forged b)] }

def beam (i : Nat) : Body := .ray { lanes := laneBit i, live := laneBit i, cont := false, packet := false }

theorem forge_plain (b : Body) : let o := forged b
    find 0 (forge b).ops = some o ∧ o.body = b ∧ o.park = none ∧ o.spent = false ∧ o.await = false ∧ o.held = false ∧
    (forge b).has o.team o.grp = true := ⟨rfl, rfl, rfl, rfl, rfl, rfl, rfl⟩

/-- The agent of the operation. -/
def hand : Agent := (plain .drain).agent

theorem meets_GraphicsEnginesStep_rays :
    (∀ i, i < 6 → (List.range 64).all (fun j => (laneBit i).getLsbD j == (j == i)) = true) ∧
    (let g := (forge .drain).group 0 0
    (find 0 g.rays).any (fun r => r.status != 0) = true ∧
    (find 1 g.rays).any (fun r => r.status == 0 && r.node == none && r.stack.isEmpty && r.spilled == 0) = true ∧
    (find 2 g.rays).any (fun r => r.status == 0 && r.node == none && (match r.stack with
      | e :: _ => decide (cmp32 r.tmax e.2.1 < 0)
      | [] => false)) = true) := ⟨by decide +kernel, by decide +kernel, by decide +kernel, by decide +kernel⟩

/-- What a sight shows, if it shows. -/
def shown (x : Seen) (p : Nat → State → Bool) : Bool :=
  match x with
  | .bits v t => p v t
  | .park _ | .wait | .poison _ => false

theorem meets_GraphicsEnginesStep_node :
    (let s := forge (beam 3)
    (find 3 (s.group 0 0).rays).any (fun r => (match r.stack with
      | e :: es =>
        let q : Ray := { r with stack := es, node := some e.1, level := e.2.2, tri := 0, child := 0 }
        decide (r.node = none ∧ ¬(cmp32 r.tmax e.2.1 < 0) ∧ e.1 % 128 = 0) && (match State.objectRay 0 hand s (q.recs.take q.level) (q.org, q.dir) [] with
          | .ok (t0, od, _) => shown (t0.sight 0 hand (e.1 / 128 * 128) 16) (fun v t1 => (nodeChildren v).any (fun cs =>
            let tests := (cs.filter (fun c => c.kind != .box && decide (q.child ≤ c.index))).map (fun c => (c, boxTest od.1 od.2 q.tmin q.tmax c.box))
            tests.length == 1 && tests.all (fun y => match y.2 with
              | .hit _ => true
              | .miss | .free => false) && decide (1 + q.stack.length ≤ 32 ∧ q.depth + 1 ≤ t1.rayDepth (plain (beam 3)))))
          | .error _ => false)
      | [] => false)) = true) := by decide +kernel

/-- A ray at a triangle of the leaf. -/
def meetsTriangle (i : Nat) (p : Ray → Nat → Tested (Nat × Nat × Nat) → Bool) : Bool :=
  let s := forge (beam i)
  (find i (s.group 0 0).rays).any (fun q => decide (q.node = some 0x9040) && (match State.objectRay 0 hand s (q.recs.take q.level) (q.org, q.dir) [] with
    | .ok (t0, od, _) => shown (t0.sight 0 hand (0x9040 / 128 * 128) 16) (fun v t1 => (nodeChildren v).any (fun cs =>
      (cs.find? (fun c => c.index == 0x9040 % 8)).any (fun c => decide (c.kind = .triangles ∧ q.tri < c.count) &&
        shown (t1.sight 0 hand ((c.ref + 64 * q.tri) % 2 ^ 64) 8) (fun w _ =>
          let f := fun (k : Nat) => (List.range 3).map (fun j => (w / 2 ^ (96 * k + 32 * j)) % 2 ^ 32)
          p q w (triTest od.1 od.2 [f 0, f 1, f 2])))))
    | .error _ => false))

theorem meets_GraphicsEnginesStep_triangles :
    meetsTriangle 4 (fun q w r => w.testBit 352 && !q.any && (match r with
      | .hit (d, _) => le32 q.tmin d && le32 d q.tmax
      | .miss | .free => false)) = true ∧
    meetsTriangle 5 (fun _ _ r => match r with
      | .miss => true
      | .hit _ | .free => false) = true := ⟨by decide +kernel, by decide +kernel⟩

/-- A traverse of the tree with itself: at its end, at a leaf with itself, and at its two leaves. -/
def selfPair (st : List (Nat × Nat)) : PairOp := { pairStart with self := true, stack := st }

theorem meets_GraphicsEnginesStep_pairs :
    (let p := selfPair []
    p.pending = none ∧ p.stack = [] ∧ p.spilled = 0) ∧
    (let s := forge (.pair (selfPair [(0x9040, 0x9040)]))
    (match s.pairStep 0 hand true 0x9040 0x9040 with
      | .ok (.visit ps, t0) => ps.isEmpty && decide (0 ≤ t0.pairDepth 0)
      | .ok (.bad, _) | .ok (.emit _ _, _) | .error _ => false) = true) ∧
    (let s := forge (.pair (selfPair [(0x9040, 0x9041)]))
    (match s.pairStep 0 hand true 0x9040 0x9041 with
      | .ok (.emit f g, t0) => decide (f = 0 ∧ g = 1 ∧ t0.obstacle hand .write [0x5000] = none) && (match t0.listAt hand 0x5000 with
        | .ok (q, l) => decide (l.iszc = 1 ∧ q.held = false ∧ t0.owned (lineNo q.addr) = false ∧ l.room ≠ 0 ∧
          t0.obstacle hand .write (l.itemWords l.puts) = none ∧ t0.itemFault hand .write l l.puts = none ∧
          t0.ownedAmong hand .write (l.itemWords l.puts) = [])
        | .error _ => false)
      | .ok (.bad, _) | .ok (.visit _, _) | .error _ => false) = true) :=
  ⟨⟨rfl, rfl, rfl⟩, by decide +kernel, by decide +kernel⟩

/-- A texture instruction of lanes 0 to 3 on the texture at 0x7600, at a quad. -/
def texel (q : Nat) : TexOp := { kind := .tex, desc := 0x7600 + 3 * 2 ^ 64 + 3 * 2 ^ 80, samp := 0, lanes := 0xF, done := 0, quad := q, a := 0, src := [], d := 8 }

theorem meets_GraphicsEnginesStep_texels :
    16 ≤ (texel 16).quad ∧
    (let x := texel 0
    let s := forge (.tex x)
    let g := s.group 0 0
    let on := (lanesOf x.lanes).filter (fun i => i / 4 == x.quad && !x.done.getLsbD i)
    let lanes := on.map (fun i => (i, x.lane (s.free 0) i))
    let real := x.vas (lanes.filter (fun y => !g.helper.getLsbD y.1))
    x.quad < 16 ∧ x.lanes &&& ~~~x.done ≠ 0 ∧ on = [0, 1, 2, 3] ∧ real = [0x7600] ∧ x.vas lanes = [0x7600] ∧
    s.texObstacle hand [0x7600] [0x7600] = none ∧ s.readsWait 0 hand [0x7600] = false ∧ s.badAt hand 0x7600 = false) :=
  ⟨by decide +kernel, by decide +kernel, by decide +kernel, by decide +kernel, by decide +kernel, by decide +kernel, by decide +kernel,
    by decide +kernel, by decide +kernel⟩

/-- A stream of the three triangles, at one of them, with a threshold of area. -/
def stream_ (frag : Bool) (area tri : Nat) : RastOp :=
  { RastOp.start (BitVec.ofNat 512 (0xB000 + 0xB800 * 2 ^ 64 + 3 * 2 ^ 128 + 3 * 2 ^ 256 + 3 * 2 ^ 272 + 0x7800 * 2 ^ 320 + 0x5000 * 2 ^ 384))
      0x6000 frag true 0 area 8 with tri := tri }

/-- The triangle that it reads. -/
def streams (r : RastOp) (p : Op → Option Tri → State → Bool) : Bool :=
  let s := forge (.rast r)
  let s0 := s.onOp 0 (fun o => { o with begun := true })
  decide (r.tri < r.ntri ∧ r.setup = none ∧ r.stage = 0 ∧ s.unitsRun 0 = true) && (find 0 s.ops).any (fun o =>
    decide (s.behindRast 0 o = false ∧ o.need = []) && (match s0.fetchTri 0 hand r with
      | .ok (xs, t0) => p o (triOf xs) (match triOf xs with
        | some y => t0.onRast 0 { r with setup := some y }
        | none => t0)
      | .error _ => false))

theorem meets_GraphicsEnginesStep_streams :
    (let r := stream_ false 0 3
    r.ntri ≤ r.tri ∧ r.places = []) ∧
    streams (stream_ false 0 1) (fun _ y _ => y == none) = true ∧
    streams (stream_ false 0 2) (fun _ y _ => y.any (fun y => y.back)) = true ∧
    streams (stream_ false 0 0) (fun o y s1 => y.any (fun y =>
      let r := stream_ false 0 0
      let box := y.clip r.width r.height
      let z := { r with setup := some y, stage := 1, fixed := r.fixed + 1, px := box.1, py := box.2.2.1 }
      decide (y.boxArea = 16) && !y.back && ((s1.onRast 0 z).mergePixels hand z y o.own o.timeOf (y.pixels r.width r.height z.px z.py)).1 == none)) = true ∧
    streams (stream_ true 0 0) (fun _ y _ => y.any (fun y =>
      let box := y.clip 4 4
      !(y.quads 4 4 box.1 box.2.2.1).isEmpty)) = true ∧
    streams (stream_ false 256 0) (fun _ y s1 => y.any (fun y =>
      let r := stream_ false 256 0
      let s2 := s1.onRast 0 { r with setup := some y, stage := 3 }
      decide (y.boxArea ≠ 0 ∧ y.boxArea < r.area ∧ s2.obstacle hand .write [r.list] = none) && (match s2.listAt hand r.list with
        | .ok (v, l) => decide (l.iszc = 1 ∧ v.held = false ∧ s2.owned (lineNo v.addr) = false ∧ l.room ≠ 0 ∧
          s2.obstacle hand .write (l.itemWords l.puts) = none ∧ s2.itemFault hand .write l l.puts = none ∧
          s2.ownedAmong hand .write (l.itemWords l.puts) = [])
        | .error _ => false))) = true :=
  ⟨by decide +kernel, by decide +kernel, by decide +kernel, by decide +kernel, by decide +kernel, by decide +kernel⟩

/-- The stream with the quads of its first triangle to launch. -/
def quads_ : RastOp :=
  { stream_ true 0 0 with stage := 2, setup := some ⟨(0, 0, 0), (1024, 0, 0), (0, 1024, 0), false, 1048576⟩, quads := [(0, 0, 15), (2, 0, 7)] }

theorem meets_PlacementAndEndsComplete_fragments :
    let s := { forge (.rast quads_) with grids := [(0, { grid with hdr := { kernel with roles := [⟨64, 1, 8⟩] } })] }
    (find 0 s.ops).any (fun o => decide (o.body = .rast quads_ ∧ o.park = none ∧ quads_.stage = 2 ∧ quads_.quads ≠ [] ∧ quads_.setup.isSome = true ∧
      (find o.team s.teams).isSome = true) && (s.headerOf o.team).any (fun h => h.roles[quads_.role]?.any (fun role =>
        (s.extraRoom o.team h.width (groupRows role.vcnt h.width)).isSome))) = true ∧
    (List.range 4).find? (fun q => (find q quads_.places).isNone) = some 0 := ⟨by decide +kernel, by decide +kernel⟩

/-- A device on port 0 of which the host has an open window into context 0, with a host-wait entry at 0x1000 of host memory. -/
def dock : State :=
  { lab (gang (crew .user)) with
    mem := tables ++ [(2 ^ 61 + 0x1001, 0x20), (2 ^ 61 + 0x1010, 1)], cores := []
    ports := [(0, { Port.down with up := true, window := true })], batches := [(0, (0, [5]))], fills := [⟨7, true, [7]⟩]
    regs := [{ ctx := 0, key := 0x2000, who := .lanes 0 0 0x10, retry := false, woken := false }]
    dev := { Device.reset with
      service := .normal, trained := true, tested := true, datum := 2000000, hostbeat := 5
      config := 4 ||| (1000 <<< 16) ||| (4 <<< 128) ||| (0x1000 <<< 256) ||| (0x2000 <<< 320) } }

theorem meets_HostEventsComplete :
    let s := dock
    s.dev.stopped = false ∧ s.dev.deep = false ∧ s.waiting = [] ∧ s.fills.find? (fun x => x.sector == 7) = some ⟨7, true, [7]⟩ ∧
    (({ s with fills := s.fills.erase ⟨7, true, [7]⟩ } : State).allotFrame (regionOf 7) (fun _ => true)).isSome = true ∧
    (∃ b, find 0 s.batches = some b ∧ b.1 + 256 ≤ s.dev.datum) ∧ s.snoopable (lineNo (backing 2 64)) = true ∧
    s.snoopable (lineNo (backing 1 64)) = true ∧ (s.windowSpot 1 64 8 .read = none ∧ s.windowSpot 1 64 8 .write = none) ∧
    (∃ v, s.windowSpot 0 64 8 .read = some v ∧ (v.2.held = false ∧ s.owned (lineNo v.2.addr) = false ∧ s.poisoned (s.keyOf v.1) (lineNo v.2.addr) = false ∧
      v.2.addr % 8 = 0)) ∧
    (∃ v, s.windowSpot 0 64 8 .write = some v ∧ (v.2.held = false ∧ s.owned (lineNo v.2.addr) = false ∧ v.2.addr % 8 = 0 ∧
      s.Plain v.1 v.2.cls v.2.addr 8)) ∧ (∀ e ∈ s.ports, e.2.posted = []) ∧ (find 0 s.ports).isSome = true ∧
    (s.signalFor 1 0 0x2000 = false ∧ s.signalFor 0 0 0x2000 = true ∧ (0x2000 : Word).extractLsb' 0 3 = 0) ∧
    (∀ r ∈ s.regs, r.retry = false ∧ r.ctx < 1024 ∧ ∃ t n ls, r.who = .lanes t n ls) ∧
    (let d : Word := 0x1000
    let e := (d.extractLsb' 0 52).toNat
    let w : BitVec 512 := BitVec.ofNat 512 (readN s.mem (backing 2 e) 64)
    let key := w.extractLsb' 0 64
    s.signalFor 0 0 d = true ∧ d.extractLsb' 0 6 = 0 ∧ d.extractLsb' 52 5 = 0 ∧ s.dev.fenced = false ∧
      (s.dev.config.extractLsb' 256 64).toNat ≤ e ∧ e < (s.dev.config.extractLsb' 320 64).toNat ∧ w.extractLsb' 128 8 = 1 ∧ w.extractLsb' 0 3 = 0 ∧
      w.extractLsb' 136 376 = 0 ∧ s.tableFull 0 key = false) ∧
    (let d : Word := 0x13
    s.signalFor 0 0 d = true ∧ d.extractLsb' 29 28 = 0 ∧ d.extractLsb' 5 24 = 0 ∧ s.has 0 0 = true) ∧
    (s.beatDue = true ∧ s.dev.fenced = false ∧ (s.line (lineNo (s.beatAddr 1))).key = 0 ∧ s.beatAddr 0 % 64 = 0 ∧
      BitVec.ofNat 64 (readN s.mem (s.beatAddr 0) 8) ≠ s.dev.hostbeat) := by
  refine ⟨rfl, rfl, rfl, by decide +kernel, by decide +kernel, ⟨_, rfl, by decide +kernel⟩, by decide +kernel, by decide +kernel, by decide +kernel,
    Some.of (by decide +kernel), Some.of (by decide +kernel), by decide +kernel, rfl, by decide +kernel, fun r hr => ?_, by decide +kernel, by decide +kernel, by decide +kernel⟩
  simp only [dock, List.mem_singleton] at hr
  subst hr
  exact ⟨rfl, by decide, _, _, _, rfl⟩

/-- The same with an operation that owns the lines that the window and two requests ask for. -/
def busyDock : State :=
  { dock with ops := [(0, { plain .drain with own := [0x1000001, lineNo (backing 2 64), lineNo (backing 1 64)] })] }

theorem meets_HostEventsComplete_waits :
    busyDock.snoopable (lineNo (backing 2 (1 * 64))) = false ∧ busyDock.snoopable (lineNo (backing 1 (1 * 64))) = false ∧
    (∀ use ∈ [Use.read, Use.write], (busyDock.windowSpot 0 64 8 use).any (fun v => busyDock.owned (lineNo v.2.addr)) = true) :=
  ⟨by decide +kernel, by decide +kernel, by decide +kernel⟩

/-- A partition with contexts 0 and 1 of it, of given states and priorities, each with a team; context 0 runs, or none does. -/
def court (p : Part) (st0 st1 : CtxSt) (p0 p1 : Nat) : State :=
  { lab (gang (crew .user)) with
    cores := [], parts := [(0, p)]
    ctxs := [(0, { Ctx.free with st := st0, ptroot := 0x200000, prio := p0, quant := 14000 }),
      (1, { Ctx.free with st := st1, ptroot := 0x200000, prio := p1, quant := 14000 })]
    teams := [(0, gang (crew .user)), (1, { gang (crew .user) with core := none, ctx := 1 })]
    dev := { Device.reset with service := .normal, trained := true, tested := true, config := 4, datum := 20000 } }

/-- The partition with context 0 running. -/
def bench : Part := { Part.new [0] with running := some 0 }

theorem meets_SchedulingEventsComplete_decisions :
    (let s := court bench .running .spilled 3 2
    find 0 s.parts = some bench ∧ bench.halting = false ∧ bench.swapping = false ∧ bench.halted = false ∧
      (s.readDescs 0).choice 0 bench = bench.running ∧ (s.readDescs 0).expired bench = true ∧
      ∀ c ∈ (s.readDescs 0).contenders 0 bench, c = 0 ∨ ((s.readDescs 0).ctx c).prio ≠ ((s.readDescs 0).ctx 0).prio) ∧
    (let s := court bench .running .spilled 2 3
    find 0 s.parts = some bench ∧ (s.readDescs 0).choice 0 bench = some 1 ∧ bench.running ≠ some 1) ∧
    (let s := court bench .running .spilled 3 3
    find 0 s.parts = some bench ∧ (s.readDescs 0).expired bench = true ∧
      ((s.readDescs 0).contenders 0 bench).filter (fun c => c != 0 && ((s.readDescs 0).ctx c).prio == ((s.readDescs 0).ctx 0).prio) = [1] ∧
      s.nextToRun 0 bench = some 1 ∧ (s.ctx 1).st = .spilled) := by
  decide +kernel

theorem meets_SchedulingEventsComplete_switch :
    (let p := { bench with halting := true, next := some 1 }
    let s := court p .running .spilled 2 3
    find 0 s.parts = some p ∧ p.running = some 0 ∧ p.halting = true ∧ s.ops = [] ∧ s.savesOf 0 = [] ∧ s.sweeps = [] ∧ (∀ y ∈ s.teams, y.2.seq = Seq.idle) ∧
      s.atBoundaries 0 = true ∧ (s.ctx 0).st ≠ .free) ∧
    (let p := { Part.new [0] with swapping := true, next := some 1 }
    let s := { court p .idle .spilled 2 3 with teams := [(0, gang (crew .user))] }
    find 0 s.parts = some p ∧ p.swapping = true ∧ p.next = some 1 ∧ p.running = none ∧ (s.ctx 1).st = .spilled ∧ s.shadowFails 1 = false ∧ (s.ctx 1).part = 0 ∧
      (∀ y ∈ s.teams, y.2.ctx ≠ 1) ∧ s.ops = [] ∧ s.sweeps = []) := by
  refine ⟨⟨rfl, rfl, rfl, rfl, rfl, rfl, fun y hy => ?_, by decide +kernel, by decide +kernel⟩, rfl, rfl, rfl, rfl, by decide +kernel, by decide +kernel, by decide +kernel,
    fun y hy => ?_, rfl, rfl⟩
  · simp only [court, List.mem_cons, List.not_mem_nil, or_false] at hy
    rcases hy with rfl | rfl <;> rfl
  · simp only [List.mem_singleton] at hy
    subst hy
    decide

/-! ### Hypotheses met: starts, security, observation -/

/-- Fuses of a device in lifecycle state 1 (R365). -/
def fuses7 : SMap Word := [(0, 1)]

/-- A start in which all but the image is in order. -/
def cold : StartIn :=
  { primary := [], recovery := [], mgmt := [1, 2, 3], testOk := true, testRestOk := true, portsUp := 15, gddrOk := true, retrain := false }

/-- What firmware gives at the end of a start. -/
def ready : CompleteIn :=
  { svn := 7, record := 4 ||| (1000 <<< 16) ||| (4 <<< 128), parts := [[0, 1], [2]], measured := [9], ctxTable := 0x100000, stores := [], controls := [] }

/-- A module with fuses, latched, in a service state. -/
def rack_ (fuses : SMap Word) (sv : Service) : State :=
  { State.reset with dev := { Device.reset with
      fuses := fuses, latched := fuses, service := sv, trained := true, tested := true, deadline := 5, datum := 9, identity := true } }

theorem meets_StartsComplete :
    (rack_ fuses7 .off).dev.tooHot = false ∧ ({ (rack_ fuses7 .off) with dev := { Device.reset with throttle := 3 } } : State).dev.tooHot = true ∧
    (lifecycleOf ((rack_ fuses7 .off).dev.fuse 0) = 1 ∧ lifecycleOf ((rack_ [(0, 8)] .off).dev.fuse 0) = 4 ∧
      startFailure cold false true = none ∧ startFailure cold true true = none ∧ startFailure { cold with portsUp := 7 } false true = some 6) ∧
    ((rack_ fuses7 .normal).dev.service ≠ .off ∧ (rack_ fuses7 .normal).dev.lifecycle ≠ 4 ∧ sorted (rack_ fuses7 .normal).ctxs = true) ∧
    ((rack_ fuses7 .reduced).dev.deadline ≠ 0 ∧ (configOk ready.record = true ∧ partsOk ready.parts = true) ∧
      ¬(configOk (177 : BitVec 512) = true ∧ partsOk ready.parts = true)) ∧
    ((rack_ fuses7 .reduced).dev.deadline ≠ 0 ∧ (rack_ fuses7 .reduced).dev.deadline ≤ (rack_ fuses7 .reduced).dev.datum) ∧
    (let s := (rack_ fuses7 .reduced).onDev (fun d => { d with deadline := 0 })
    s.dev.service = .reduced ∧ s.dev.deadline = 0 ∧ s.dev.trained = true ∧ s.dev.tested = true ∧ s.allAtBoundaries = true) := by
  decide +kernel

theorem meets_SecurityAndPowerEventsComplete :
    (rack_ [(0, 0)] .normal).dev.lifecycle = 0 ∧
    (let s := (rack_ fuses7 .normal).onDev (fun d => { d with identity := false })
    s.dev.lifecycle ≠ 0 ∧ s.dev.lifecycle ≠ 4 ∧ s.dev.identity = false) ∧
    (let s := (rack_ fuses7 .normal).onDev (fun d => { d with jtag := true })
    s.dev.lifecycle ≠ 0 ∧ s.dev.lifecycle ≠ 4 ∧ s.dev.nextIndex < 1048576 ∧ s.dev.identity = true ∧ s.dev.jtag = true ∧ s.dev.lifecycle ≤ 1 ∧
      16383 < 16384 ∧ (rack_ fuses7 .normal).dev.jtag = false) ∧
    (1200 ≤ 1475 ∧ 1475 ≤ 1500 ∧ 1475 % 25 = 0) ∧
    ((rack_ fuses7 .normal).dev.service = .normal ∧ (rack_ fuses7 .normal).dev.stopped = false ∧ (rack_ fuses7 .normal).dev.deep = false ∧
      1000000 ≤ 1350000 ∧ 1350000 ≤ 1400000 ∧ 1350000 % 50000 = 0) ∧
    (let x (k : Nat) : Sensors := { junction := [40, k], inlet := 30, outlet := 35, flow := 50, watts := 900, rails := [] }
    let hot (n k : Nat) : Prop := ∃ j ∈ (x k).junction, n ≤ j
    hot 105 105 ∧ (¬hot 105 96 ∧ hot 96 96) ∧ ¬hot 96 95 ∧ hot 110 110 ∧ ¬hot 110 109) ∧
    (∀ c ∈ keys (rack_ fuses7 .normal).ctxs, (rack_ fuses7 .normal).runnable c = false) := by
  decide +kernel

/-- Above its one cell a memory reads zero. -/
theorem readN_above (a : Nat) (v : Byte) : ∀ n b, a < b → readN [(a, v)] b n = 0
  | 0, _, _ => rfl
  | n + 1, b, h => by
    have : Machine.get 0 b [(a, v)] = (0 : Byte) := by
      unfold Machine.get
      simp [find, show ¬b = a by omega]
    unfold readN
    rw [this, readN_above a v n (b + 1) (by omega)]
    rfl

/-- A die whose control block has a reserved bit set, or is zero, with a snapshot due beside the block. -/
def watch (cells : List Host.Cell) : State :=
  { State.reset with
    mem := cells, dev := { Device.reset with service := .normal, jtag := true, stopat := 3, datum := 4 }
    traces := [(0, { Trace.zero with snap := true, snapb := if Config.traceBlock 0 < 24576 then 32768 else 0 })] }

theorem watch_zero (die : Nat) : (watch []).deviceRead (backing 0 (Config.traceBlock die)) 128 = 0 := by
  generalize backing 0 (Config.traceBlock die) = a
  have : ∀ n a, readN [] a n = 0 := by
    intro n
    induction n with
    | zero => intro a; rfl
    | succ n ih => intro a; unfold readN; rw [ih]; rfl
  exact this 128 a

theorem watch_bad : blockOk 0 ((watch [(backing 0 (Config.traceBlock 0), 8)]).deviceRead (backing 0 (Config.traceBlock 0)) 128) = false := by
  have : (watch [(backing 0 (Config.traceBlock 0), 8)]).deviceRead (backing 0 (Config.traceBlock 0)) 128 = 8 := by
    generalize backing 0 (Config.traceBlock 0) = a
    show readN [(a, 8)] a 128 = 8
    unfold readN
    rw [readN_above a 8 127 (a + 1) (by omega)]
    unfold Machine.get
    simp [find]
  rw [this]
  decide +kernel

theorem meets_ObservationCompletes :
    ((watch []).dev.stopped = false ∧ (watch []).untrained (Config.traceBlock 0 / 64) = false) ∧
    (blockOk 0 ((watch []).deviceRead (backing 0 (Config.traceBlock 0)) 128) = true ∧
      blockOk 0 ((watch [(backing 0 (Config.traceBlock 0), 8)]).deviceRead (backing 0 (Config.traceBlock 0)) 128) = false) ∧
    (let x := Machine.get Trace.zero 0 (watch []).traces
    x.snap = true ∧ x.snapTick ≤ (watch []).dev.datum ∧ (∀ l, ((watch []).line l).key = 0) ∧ x.snapb % 64 = 0 ∧
      (Config.traceBlock 0 < x.snapb ∨ x.snapb + 24576 ≤ Config.traceBlock 0)) ∧
    ((watch []).dev.stopat ≠ 0 ∧ (watch []).dev.stopat ≤ (watch []).dev.datum) ∧ (watch []).dev.jtag = true ∧
    (let s := (watch []).onDev (fun d => { d with stopped := true, chain := 1064 })
    s.dev.stopped = true ∧ s.dev.chain ≤ 1064 ∧ 1064 < ((watch []).onDev (fun d => { d with stopped := true, chain := 1065 })).dev.chain) ∧
    (0xFF : BitVec 8) ∉ jtagCodes ∧ State.reset.dev.jtag = false := by
  refine ⟨⟨rfl, rfl⟩, ⟨?_, watch_bad⟩, ⟨rfl, Nat.zero_le _, fun _ => rfl, ?_, ?_⟩, by decide +kernel, rfl, by decide +kernel, by decide +kernel, rfl⟩
  · rw [watch_zero]
    decide +kernel
  · show (if Config.traceBlock 0 < 24576 then 32768 else 0) % 64 = 0
    split <;> rfl
  · show Config.traceBlock 0 < (if Config.traceBlock 0 < 24576 then 32768 else 0) ∨
      (if Config.traceBlock 0 < 24576 then 32768 else 0) + 24576 ≤ Config.traceBlock 0
    split <;> omega

/-! ### The step, the encodings, and what every step keeps -/

/-- What a turn takes from the bytes at its place. -/
noncomputable def takes (body : List Byte) (pos : Nat) (ver : Nat) (i : Instr) : Bool :=
  (match decode (body.drop pos) with
    | .ok (j, _) => decide (j = i)
    | .error _ => false) && versionLegal ver (body.drop pos)

/-- A device in reduced service, the turn its own agents'. -/
def modest : State := { State.reset with dev := { Device.reset with service := .reduced } }

/-- A core whose clause ends before its next instruction does. -/
def cut : State := user.onCore 0 (fun k => { k with issue := some { clause with body := [0x0D, 0x78, 0, 0] } })

theorem meets_StepRunsTheDecodedInstruction_core :
    user.agenda = [] ∧ user.dev.still = false ∧ user.dev.deep = false ∧ user.turn = .core 0 ∧ user.inIssue 0 = some clause ∧
    takes clause.body clause.pos clause.ver (.exitShort ⟨15, false⟩) = true ∧
    takes clause.body 4 clause.ver (.exitShort ⟨15, false⟩) = true := by decide +kernel

theorem meets_StepRunsTheDecodedInstruction_cut :
    cut.dev.still = false ∧ cut.turn = .core 0 ∧ (∃ x, cut.inIssue 0 = some x ∧
      (match decode (x.body.drop x.pos) with | .ok _ => false | .error _ => true) = true) :=
  ⟨by decide +kernel, by decide +kernel, _, rfl, by decide +kernel⟩

theorem meets_StepRunsTheDecodedInstruction_seq :
    let s := (strand [] 0).onTeam 0 (fun t => { t with seq := { t.seq with body := [0x29, 0x7F, 0, 0, 0, 0, 0, 0] } })
    s.agenda = [] ∧ s.dev.still = false ∧ s.dev.deep = false ∧ s.turn = .seq 0 ∧ (s.team 0).seq.st = .running ∧
    takes (s.team 0).seq.body (s.team 0).seq.pos (s.seqVersion 0) .mend = true := by decide +kernel

theorem meets_StepRunsTheDecodedInstruction_inner : ∀ i, ({ State.reset with agenda := [i] } : State).agenda = i :: [] ∧
    State.reset.agenda = [] ∧ State.reset.dev.still = true := fun _ => ⟨rfl, rfl, rfl⟩

theorem meets_StepRunsTheDecodedInstruction_event :
    modest.agenda = [] ∧ modest.dev.still = false ∧ modest.dev.deep = false ∧ modest.turn = .inner ∧
    modest.event = some .fullServiceTransition := by
  refine ⟨rfl, rfl, rfl, rfl, ?_⟩
  have hd : modest.dev.deep = false := rfl
  have hn : modest.dueEvents.isEmpty = true := by decide +kernel
  have he : modest.events = [.fullServiceTransition] := by decide +kernel
  simp only [State.event, hd, hn, he, Bool.false_eq_true, if_false, if_true, List.length_singleton, Nat.mod_one]
  exact List.getElem?_cons_zero

theorem meets_EncodingsDecodeBack :
    (Instr.iadd ⟨1, true⟩ .i64 true 639 (.s 63) (.lit 0xFFFFFFFF)).wf = true ∧
    (Instr.ld ⟨15, false⟩ ⟨15, some 7⟩ .b32 false 636 ⟨.s 4, .v 639, 3, some 0xFFFFFFF⟩).wf = true ∧
    (Instr.rotShort ⟨0, false⟩ 63 63 63).wf = true := by decide +kernel

theorem meets_StepsKeepTheMachinePoised (x : Sensors) :
    let s : State := { State.reset with agenda := [.telemetryRefresh x] }
    s.Poised ∧ ∃ t, step s = .next t := by
  refine ⟨⟨?_, ?_, ?_, ?_, ?_⟩, ?_⟩
  · intro c h; cases h
  · intro c h; cases h
  · intro h; cases h
  · intro _; rfl
  · intro h; exact absurd rfl h
  · exact ⟨_, rfl⟩

/-! ### Words the specification prints, and words written out from its encoding tables -/

/-- Every lane. -/
def whole : Guard := ⟨15, false⟩

/-- The word is that instruction. -/
noncomputable def spells (w : Nat) (i : Instr) : Bool :=
  match decodeBits (BitVec.ofNat 96 w) with
  | .ok j => decide (j = i)
  | .error _ => false

/-- The word is refused, for that reason. -/
noncomputable def refusedAs (w : Nat) (e : DecodeErr) : Bool :=
  match decodeBits (BitVec.ofNat 96 w) with
  | .ok _ => false
  | .error x => decide (x = e)

/-- A long form with guard P15: OP at 2, D at 16, A at 26, B at 36, C or IMM10 at 46, MOD or LA at 56, TY at 60 (R204). -/
def long (op d a b c md ty : Nat) : Nat :=
  1 + op * 2 ^ 2 + 15 * 2 ^ 11 + d * 2 ^ 16 + a * 2 ^ 26 + b * 2 ^ 36 + c * 2 ^ 46 + md * 2 ^ 56 + ty * 2 ^ 60

/-- The literal form: length code 10, the literal at 64 (R202, R205). -/
def wide (op d a b c md ty lit : Nat) : Nat := long op d a b c md ty + 1 + lit * 2 ^ 64

/-- The words that the encoding chapter's example prints: IADD.i32x2, FFMA.f32x2, FFMA.f32 with the literal 1.5. -/
theorem test_decode_printed_arithmetic :
    spells 0x0810DE10 (.iaddShort whole 4 3 1 2) = true ∧
    spells 0xB001805010087C0D (.ffma whole .f32x2 8 (.v 4) (.v 5) (.reg (.v 6))) = true ∧
    spells 0x3FC00000D000007020097C0E (.ffma whole .f32 9 (.v 8) (.v 7) (.lit 0x3FC00000)) = true := by decide +kernel

/-- R224's example: BTAB J0, V5, S1, 5. ATOM.IADD.n64 V6, [S4], V5 with guard P1, and the refit program's with the offset 0x40. -/
theorem test_decode_printed_memory :
    spells 0x00013C101400780D (.btab whole 0 (.v 5) 1 4) = true ∧
    spells 0x80A0005F10060E25 (.atom ⟨1, false⟩ ⟨0, some 2⟩ .iadd .n64 .dev (some 6) (.s 4) none (.v 5)) = true ∧
    spells 0x000000408000009038147E26 (.atom whole ⟨0, none⟩ .iadd .n64 .dev (some 20) (.v 14) (some 0x40) (.v 9)) = true := by decide +kernel

/-- The printed `MMA` of the matrix program, and its narrow operands. -/
theorem test_decode_printed_matrix : spells 0x0000030040007F09 (.mma (.narrow .n8) 0 ⟨0, some 0⟩ ⟨0, some 1⟩) = true := by
  decide +kernel

/-- R229: SADD.i64 S3, S1, S2; SSHF.ROTL.b64 S1, S2, S3; SCMP.GE.n64 S0, S63, 5. -/
theorem test_decode_uniform :
    spells (long 0x042 963 961 962 0 0 7) (.sadd whole .i64 3 1 (.reg 2)) = true ∧
    spells (long 0x047 961 962 963 0 3 0) (.sshf whole .rotl .b64 1 2 (.reg 3)) = true ∧
    spells (wide 0x048 960 1023 0 0 5 8 5) (.scmp whole .ge .n64 0 63 (.lit 5)) = true := by decide +kernel

/-- R232-R239: IMAD.sat.i16x4, ISUB of S10 from V11, IADDX with carries, ICMP.LT.ANY, PMOV.S, RGET. -/
theorem test_decode_integer :
    spells (long 0x086 1 2 3 4 1 3) (.imad whole .i16x4 true 1 (.v 2) (.v 3) (.reg (.v 4))) = true ∧
    spells (long 0x083 10 11 970 0 0 7) (.isub whole .i64 false 10 (.v 11) (.reg (.s 10))) = true ∧
    spells (long 0x099 1 2 3 (6 + 5 * 16) 0 8) (.iaddx whole false 1 5 (.v 2) (.v 3) 6) = true ∧
    spells (long 0x096 4 5 6 0 10 5) (.icmp whole .lt true .i32x2 4 (.v 5) (.reg (.v 6))) = true ∧
    spells (long 0x171 3 965 0 0 1 0) (.pmovS whole 3 5) = true ∧
    spells (long 0x173 7 968 0 (9 * 64) 2 0) (.rget whole ⟨2, some 1⟩ 7 (.s 8)) = true := by decide +kernel

/-- R240-R249: RCP with lookahead and counter, the packing FCVT that R246 spells out, NCVT.ENC, NDOT with scales. -/
theorem test_decode_float :
    spells (long 0x110 2 1 0 (10 * 64) 1 11) (.rcp whole ⟨1, some 2⟩ .f32x2 2 (.v 1)) = true ∧
    spells (long 0x118 2 1 (2 * 16) 0 11 9) (.fcvt whole .f16x4 .f32x2 2 (.v 1) 0 2) = true ∧
    spells (long 0x121 4 5 960 (3 + 1 * 16 + 2 * 128) 5 9) (.ncvtEnc whole .n4 .f16x4 4 (.v 5) (.s 0) 3 1 2) = true ∧
    spells (long 0x122 8 9 10 (2 + 4) 0 13) (.ndot whole ⟨0, none⟩ .n8 8 (.v 9) (.v 10) true 2 none) = true := by decide +kernel

/-- R250, R254: PERM.UP with the member mask S4, VOTE.BALLOT, XALU.ADD in its literal form. -/
theorem test_decode_cross_lane :
    spells (long 0x160 1 2 963 (4 + 15 * 64) 2 0) (.perm whole .up 1 (.v 2) (.s 3) ⟨4, 15⟩) = true ∧
    spells (long 0x162 965 2 0 (15 * 64) 3 0) (.vote whole (.ballot (.s 5)) 2 ⟨0, 15⟩) = true ∧
    spells (wide 0x1CB 961 962 963 0 3 11 (100 + 8 * 2 ^ 28)) (.xalu whole ⟨3, some 0⟩ .f32x2 .add false 1 2 3 100) = true := by
  decide +kernel

/-- R208's load; R257's literal offset of −16 with a sign-extended 4-byte load; R261; R263 in shelf mode; R269; R270 with offset −8. -/
theorem test_decode_memory :
    spells (long 0x180 4 964 10 (3 + 3 * 4 + 9 * 64) 1 0) (.ld whole ⟨1, some 1⟩ .b8 false 4 ⟨.s 4, .v 10, 3, none⟩) = true ∧
    spells (wide 0x180 4 964 10 (3 + 2 * 4 + 32) 2 0 (0xFFFFFF0 + 9 * 2 ^ 28))
      (.ld whole ⟨2, some 1⟩ .b4 true 4 ⟨.s 4, .v 10, 3, some 0xFFFFFF0⟩) = true ∧
    spells (long 0x184 1 962 3 32 0 0) (.ldt whole ⟨0, none⟩ true 1 2 (.v 3)) = true ∧
    spells (long 0x187 960 962 963 (3 + 5 * 4) 0 0) (.cp whole ⟨0, none⟩ true (some 5) 0 2 3) = true ∧
    spells (long 0x18C 0 0 0 1 0 0) (.fence whole .host) = true ∧
    spells (long 0x18D 1 2 963 1023 5 8) (.waita whole .ge .n64 (some 1) (.v 2) (.short 1023) (.s 3)) = true := by decide +kernel

/-- R273, R275, R276: MCMP, LRQRY of word 7, SHACQ of three slots of H1. -/
theorem test_decode_near_memory :
    spells (long 0x192 961 962 963 0 0 0) (.mcmp whole ⟨0, none⟩ 1 2 3) = true ∧
    spells (long 0x19A 961 962 0 7 0 0) (.lrqry whole ⟨0, none⟩ 1 2 7) = true ∧
    spells (long 0x1A1 964 0 0 3 1 0) (.shacq whole 4 1 3) = true := by decide +kernel

/-- R280-R289: MSTART at the clause 32 bytes back, MSHR.TAKE H2, 5, MBAR.SYNC 3, 4, MDRAIN.AMAX, TQRY of word 3 of T9. -/
theorem test_decode_matrix :
    spells (wide 0x1C0 0 0 0 0 0 0 0xFFFFFFC) (.mstart whole ⟨0, none⟩ (.rel 0xFFFFFFC)) = true ∧
    spells (long 0x1C7 0 0 0 5 2 0) (.mshrTake 2 5) = true ∧
    spells (long 0x1C8 1 0 0 4 3 0) (.mbarSync 3 4) = true ∧
    spells (wide 0x1C5 0 6 4 2 0 0 0x2000) (.mdrain false (some 0x2000) 6 ⟨4, none⟩) = true ∧
    spells (long 0x1DD 961 0 0 3 9 0) (.tqry whole 1 9 3) = true := by decide +kernel

/-- R292, R295: WLAPP of two-register items with Po P2, PSWEEP.N.BUILD with role 3. -/
theorem test_decode_lists :
    spells (long 0x1D2 1 2 4 (2 + 1 * 16) 0 0) (.wlapp whole ⟨0, none⟩ 1 2 (some 1) (.v 2) (.v 4)) = true ∧
    spells (long 0x1D6 961 962 964 (3 + 1 * 8 + 32) 0 0) (.psweep whole ⟨0, none⟩ .n true 3 1 2 4) = true := by
  decide +kernel

/-- R299, R304, R309, R310: RAST.FRAG with role 5, TEXG of channel G, TRQRY of the weights, TRPAIR.SELF.RESUME, BOXT with Po P4. -/
theorem test_decode_graphics :
    spells (long 0x1E0 961 962 0 (1 + 5 * 4) 0 0) (.rast whole ⟨0, none⟩ true false 5 1 2) = true ∧
    spells (long 0x1E4 8 4 962 1 0 11) (.texg whole ⟨0, none⟩ 1 8 4 2) = true ∧
    spells (long 0x1EC 9 0 0 2 0 0) (.trqry whole ⟨0, none⟩ 2 9) = true ∧
    spells (long 0x1EB 961 962 963 3 0 0) (.trpair whole ⟨0, none⟩ true true 1 2 3) = true ∧
    spells (long 0x1EE 1 2 6 4 0 0) (.boxt whole ⟨0, none⟩ 4 1 2 6) = true := by decide +kernel

/-- R311-R316: TRAP 5, ERET, LAUNCH, CSAVE, PATOM.XCHG, KWIPE.ALL, MEASURE.EXT of M3; DBGOPEN and LMSVER.TOKEN
as the security chapter prints their words. -/
theorem test_decode_system :
    spells (long 0x1F0 0 0 0 5 0 0) (.trap whole 5) = true ∧ spells (long 0x1F1 0 0 0 0 0 0) .eret = true ∧
    spells (long 0x1F3 961 962 0 (12 * 64) 0 0) (.launch whole ⟨0, some 4⟩ 1 2) = true ∧
    spells (long 0x1F4 961 962 963 0 0 0) (.csave whole ⟨0, none⟩ 1 2 3) = true ∧
    spells (long 0x1F9 1 2 3 2 0 0) (.patom whole ⟨0, none⟩ .xchg 1 (.v 2) (.v 3)) = true ∧
    spells (long 0x1FC 961 0 0 1 0 0) (.kwipe whole 1 none) = true ∧
    spells (long 0x1FD 961 0 962 3 0 0) (.measureExt whole ⟨0, none⟩ 1 3 2) = true ∧
    spells 0x0000000003D07FF9 (.dbgopen whole 16) = true ∧
    spells 0x00807D6F53CE7FED (.lmsver whole ⟨0, some 0⟩ true 14 20 22) = true := by decide +kernel

/-- R51, R202, R207, R212-R214: a reserved register, a class the entry refuses, the reserved length code, a reserved counter, an
unassigned opcode, an unused field, an unlisted type, a short opcode that R213 leaves unassigned. -/
theorem test_decode_refuses :
    refusedAs (long 0x082 1 640 3 0 0 7) .regReserved = true ∧
    refusedAs (long 0x042 3 1 2 0 0 7) .regClass = true ∧
    refusedAs (long 0x082 1 2 3 0 0 7 + 2) .length = true ∧
    refusedAs (long 0x180 4 964 960 (1 * 64) 0 0) .dcn = true ∧
    refusedAs (long 0x01F 0 0 0 0 0 0) .opcode = true ∧
    refusedAs (long 0x171 3 5 1 0 0 0) .unusedField = true ∧
    refusedAs (long 0x0B9 0 0 0 0 0 0) .opcode = true ∧
    refusedAs (long 0x110 2 1 0 0 0 12) .ty = true ∧
    refusedAs (0x59 * 4 + 15 * 2 ^ 9) .opcode = true := by decide +kernel

/-! ### Ill-formed terms that WellFormed refuses, one for each of its limits -/

theorem test_wf_register : (Instr.mov whole 640 (.v 1)).defect = some .regReserved := by decide
theorem test_wf_class : (Instr.mov whole 960 (.v 1)).defect = some .regClass := by decide
theorem test_wf_laneid : (Instr.srd whole (.s 1) .laneid).defect = some .regClass := by decide
theorem test_wf_type : (Instr.iadd whole .f32x2 false 1 (.v 2) (.reg (.v 3))).defect = some .ty := by decide
theorem test_wf_special_type : (Instr.rcp whole ⟨0, none⟩ .f64 1 (.v 2)).defect = some .ty := by decide
theorem test_wf_value : (Instr.shacq whole 1 2 0).defect = some .value := by decide
theorem test_wf_count : (Instr.shacq whole 1 2 65).defect = some .value := by decide
theorem test_wf_element : (Instr.fcvt whole .f16x4 .f32x2 1 (.v 2) 2 0).defect = some .value := by decide
theorem test_wf_read_only : (Instr.swr whole .gts (.v 1)).defect = some .value := by decide
theorem test_wf_run : (Instr.ld whole ⟨0, none⟩ .b32 false 637 ⟨.s 4, .s 0, 0, none⟩).defect = some .run := by decide
theorem test_wf_uniform_run : (Instr.tbind whole 0 61).defect = some .run := by decide
theorem test_wf_unused : (Instr.bcast whole .first (.v 1) 2 3 ⟨0, 15⟩).defect = some .unusedField := by decide
theorem test_wf_overlap : (Instr.tex whole ⟨0, none⟩ 4 5 0).defect = some .value := by decide
theorem test_wf_event : Instr.heartbeat.defect = some .event := by decide

/-- The longest well-formed registers and runs are accepted: the limits are not too tight. -/
theorem test_wf_accepts :
    (Instr.mov whole 639 (.v 0)).defect = none ∧ (Instr.ld whole ⟨0, none⟩ .b32 false 636 ⟨.s 4, .s 0, 0, none⟩).defect = none ∧
    (Instr.tbind whole 0 60).defect = none ∧ (Instr.shacq whole 1 2 64).defect = none := by decide

/-- An instruction decodes to the one that its constructor's encoding gives back (R204, R205): bytes lowest first. -/
theorem test_encode_branch : encode (.bra whole (-32)) = [0x05, 0x78, 0xE0, 0xFF, 0xFF, 0xFF, 0xFF, 0x00] := by decide +kernel

/-- The FIPS 180 digest of the message abc, which R372's registers and R316's verification rest on. -/
theorem test_sha256_abc : numOf ((sha256 [0x61, 0x62, 0x63]).reverse) =
    0xba7816bf8f01cfea414140de5dae2223b00361a396177a9cb410ff61f20015ad := by decide +kernel

theorem test_reset_off : State.reset.dev.service = .off := by decide

/-! ### Single steps on the small state -/

/-- The instruction ends in a next state in which that holds of the group. -/
noncomputable def leaves (i : Instr) (s : State) (p : Group → Bool) : Bool :=
  match exec i s with
  | .next t => p (lanes.group t)
  | .fault _ => false
  | .refused _ => false

/-- The encoding chapter's run: 0 times 0 plus the literal 1.5 leaves 0x3FC00000 in every lane, bits [63:32] zero (R114, R205). -/
theorem test_ffma_literal : leaves (.ffma whole .f32 9 (.v 8) (.v 7) (.lit 0x3FC00000)) user
    (fun h => h.vreg 9 0 == 0x3FC00000 && h.vreg 9 7 == 0x3FC00000) = true := by decide +kernel

/-- R115: a signed 64-bit sum with saturation clamps at the largest value, and wraps without it: 1 less than 2^63 plus 1. -/
theorem test_iadd_wraps_and_clamps :
    let s := user.onGroup 0 0 (fun h => { h with s := [(4, 0x7FFFFFFFFFFFFFFF), (5, 1)] })
    leaves (.iadd whole .i64 false 1 (.s 4) (.reg (.s 5))) s (fun h => h.vreg 1 3 == 0x8000000000000000) = true ∧
    leaves (.iadd whole .i64 true 1 (.s 4) (.reg (.s 5))) s (fun h => h.vreg 1 3 == 0x7FFFFFFFFFFFFFFF) = true := by decide +kernel

/-- R236: with Pci P15 the carry-in is 1, so that 5 plus the inverse of 3 is 2, with a carry. -/
theorem test_iaddx_subtracts :
    leaves (.iaddx whole false 1 2 (.s 4) (.s 5) 15) (user.onGroup 0 0 (fun h => { h with s := [(4, 5), (5, 0xFFFFFFFFFFFFFFFC)] }))
      (fun h => h.vreg 1 6 == 2 && h.preg 2 6) = true := by decide +kernel

/-- R223's branch: OFF40 of −32 from the header 0x4000 goes to 0x3F00. -/
theorem test_bra_back : leaves (.bra whole (-32)) { user with cores := [(0, { Core.empty with issue := some { clause with pos := 4 } })] }
    (fun h => h.lanePc 5 == 0x3F00) = true := by decide +kernel

/-- R57, R221: CTXID of context 0 and the guard P3, which no lane has: nothing is written. -/
theorem test_guard_off : leaves (.mov ⟨3, false⟩ 1 (.s 4)) (user.onGroup 0 0 (fun h => { h with s := [(4, 5)] }))
    (fun h => h.vreg 1 0 == 0) = true := by decide +kernel

end Sys2Proof.Tests
end

section
/-!
SUPPORT. What a step is (Machine/Step.lean) and what follows one (Machine/Turn.lean), said once: the choice of what runs, the
instruction that a turn takes, and the fields that the passing of time may change.
-/
namespace Sys2Proof.Machine

/-! ### The instruction that the bytes at a place stand for -/

theorem fetched_of_decode {ver pos : Nat} {body : List Byte} {i : Instr} {rest : List Byte}
    (hd : decode (body.drop pos) = .ok (i, rest)) (hv : versionLegal ver (body.drop pos) = true) :
    fetched ver body pos = some i := by
  unfold fetched
  rw [hd]
  exact if_pos hv

theorem fetched_of_undecodable {pos : Nat} {body : List Byte} (ver : Nat) (hd : ∀ q, decode (body.drop pos) ≠ .ok q) :
    fetched ver body pos = none := by
  unfold fetched
  cases he : decode (body.drop pos) with
  | ok q => exact absurd he (hd q)
  | error e => rfl

/-! ### What a step runs -/

theorem step_of_due {s : State} {i : Instr} {rest : List Instr} (ha : s.agenda = i :: rest) :
    step s = settle (exec i { s with agenda := rest, turn := .inner }) := by
  unfold step
  rw [ha]

theorem step_of_still {s : State} (ha : s.agenda = []) (hs : s.dev.still = true) : step s = .fault .deviceHalted := by
  unfold step
  rw [ha]
  exact if_pos hs

theorem step_of_turn {s : State} (ha : s.agenda = []) (hs : s.dev.still = false) : step s = settle (turnStep s) := by
  unfold step
  rw [ha]
  exact if_neg (by simp [hs])

theorem turnStep_of_core {s : State} {c : Nat} (hd : s.dev.deep = false) (ht : s.turn = .core c) :
    turnStep s = coreStep c s := by
  simp only [turnStep, hd, ht, Bool.false_eq_true, if_false]

theorem turnStep_of_seq {s : State} {t : Nat} (hd : s.dev.deep = false) (ht : s.turn = .seq t) :
    turnStep s = seqStep t s := by
  simp only [turnStep, hd, ht, Bool.false_eq_true, if_false]

theorem turnStep_of_inner {s : State} (hd : s.dev.deep = false) (ht : s.turn = .inner) : turnStep s = innerStep s := by
  simp only [turnStep, hd, ht, Bool.false_eq_true, if_false]

theorem coreStep_of_fetched {s : State} {c : Nat} {x : Issue} {i : Instr} (hx : s.inIssue c = some x)
    (hf : fetched x.ver x.body x.pos = some i) : coreStep c s = exec i s := by
  simp only [coreStep, hx, hf]

theorem coreStep_of_not_fetched {s : State} {c : Nat} {x : Issue} (hx : s.inIssue c = some x)
    (hf : fetched x.ver x.body x.pos = none) : coreStep c s = .next (s.bundleIllegal x.body x.pos) := by
  simp only [coreStep, hx, hf]

theorem seqStep_of_fetched {s : State} {t : Nat} {i : Instr} (hr : (s.team t).seq.st = .running)
    (hf : fetched (s.seqVersion t) (s.team t).seq.body (s.team t).seq.pos = some i) : seqStep t s = exec i s := by
  simp only [seqStep, hr, hf, ne_eq, not_true_eq_false, if_false]

theorem innerStep_of_event {s : State} {i : Instr} (he : s.event = some i) : innerStep s = exec i s := by
  simp only [innerStep, he]

/-! ### What follows a step -/

theorem background_of_gated {s : State} (h : s.dev.still = true ∨ s.dev.deep = true) : s.background = s := by
  unfold State.background
  exact if_pos (by simpa using h)

theorem later_of_gated {s : State} (h : s.dev.stopped = true ∨ s.dev.deep = true) : s.later = s.dev.datum := by
  unfold State.later
  exact if_pos (by simpa using h)

/-- Beyond the device's own doings, the end of a step moves the datum alone and decides what comes next: the turn and the agenda
(entries 5, 6). -/
theorem settled_eq (s : State) :
    let u := { s with fresh := s.fresh + 1 }.background
    s.settled = { u with dev := { u.dev with datum := u.later }, turn := s.settled.turn, agenda := s.settled.agenda } := by
  intro u
  simp only [State.settled]
  split <;> split <;> rfl

end Sys2Proof.Machine

open Sys2Proof Sys2Proof.Machine

/-- Settles O1: the step's choice, turn by turn, and what the end of a step may change. That what is due comes first, that time
and the device's own doings follow, and that a turn is chosen is the model's own order (entries 3, 5, 6 and 136). -/
theorem stepRunsTheDecodedInstruction : Obligations.StepRunsTheDecodedInstruction := by
  refine ⟨fun s i rest ha => step_of_due ha, fun s ha => ⟨step_of_still ha, fun hs hd => ⟨?core, ?illegal, ?seq, ?inner⟩⟩,
    fun s => ⟨background_of_gated, ?after⟩⟩
  case core =>
    intro c x i rest ht hx hi hv
    rw [step_of_turn ha hs, turnStep_of_core hd ht, coreStep_of_fetched hx (fetched_of_decode hi hv)]
  case illegal =>
    intro c x ht hx hn
    rw [step_of_turn ha hs, turnStep_of_core hd ht, coreStep_of_not_fetched hx (fetched_of_undecodable x.ver hn)]
  case seq =>
    intro t i rest ht hr hi hv
    rw [step_of_turn ha hs, turnStep_of_seq hd ht, seqStep_of_fetched hr (fetched_of_decode hi hv)]
  case inner =>
    intro i ht he
    rw [step_of_turn ha hs, turnStep_of_inner hd ht, innerStep_of_event he]
  case after =>
    have hdatum : s.settled.dev.datum = ({ s with fresh := s.fresh + 1 }.background).later :=
      congrArg (fun t : State => t.dev.datum) (settled_eq s)
    refine ⟨s.settled, rfl, ?_, fun h => hdatum.trans (later_of_gated h)⟩
    rw [hdatum]
    exact settled_eq s
end

section
/-!
SUPPORT. Lanes moved by a mask: what a transfer, a wait and a change of lane state leave for each lane, said once.
-/
namespace Sys2Proof.Machine

/-- A change made lane by lane, each of which touches its own lane alone. -/
theorem foldl_lanes {β : Type} (read : Group → Nat → β) (step : Group → Nat → Group) (y : Nat → β)
    (h : ∀ g i j, read (step g i) j = if j = i then y i else read g j) (l : List Nat) (g : Group) (j : Nat) :
    read (l.foldl step g) j = if j ∈ l then y j else read g j := by
  induction l generalizing g with
  | nil => simp
  | cons i l ih =>
    rw [List.foldl_cons, ih, h]
    by_cases hj : j = i
    · subst hj; simp
    · simp [hj]

theorem goTo_rest (g : Group) (m : Lanes) (f : Nat → Word) : g.goTo m f =
    { g with pc := (g.goTo m f).pc, st := (g.goTo m f).st, wait := (g.goTo m f).wait, hdr := (g.goTo m f).hdr } := by
  unfold Group.goTo
  induction lanesOf m generalizing g with
  | nil => rfl
  | cons i l ih => rw [List.foldl_cons, ih]; rfl

theorem standAt_rest (g : Group) (m : Lanes) (code : Nat) (pc : Word) (hdr : Word × Nat) (w : Option Wait) :
    g.standAt m code pc hdr w = { g with
      pc := (g.standAt m code pc hdr w).pc, st := (g.standAt m code pc hdr w).st
      wait := (g.standAt m code pc hdr w).wait, hdr := (g.standAt m code pc hdr w).hdr } := by
  unfold Group.standAt
  induction lanesOf m generalizing g with
  | nil => rfl
  | cons i l ih => rw [List.foldl_cons, ih]; rfl

/-- The lanes of a mask, whose bits are below 64. -/
theorem if_mem_lanesOf {β : Type} (m : Lanes) (j : Nat) (hj : j < 64) (x y : β) :
    (if j ∈ lanesOf m then x else y) = if m.getLsbD j = true then x else y := by
  simp only [mem_lanesOf, hj, true_and]

section goTo

variable (g : Group) (m : Lanes) (f : Nat → Word) (j : Nat) (hj : j < 64)
include hj

theorem lanePc_goTo : (g.goTo m f).lanePc j = if m.getLsbD j = true then f j else g.lanePc j := by
  rw [← if_mem_lanesOf m j hj]
  refine foldl_lanes Group.lanePc _ f (fun g i k => ?_) _ g j
  exact get_set _ _ _ _ _

theorem state_goTo : (g.goTo m f).state j = if m.getLsbD j = true then 1 else g.state j := by
  rw [← if_mem_lanesOf m j hj]
  refine foldl_lanes Group.state _ (fun _ => 1) (fun g i k => ?_) _ g j
  exact get_set 0 _ _ 1 _

theorem find_wait_goTo : find j (g.goTo m f).wait = if m.getLsbD j = true then none else find j g.wait := by
  rw [← if_mem_lanesOf m j hj]
  refine foldl_lanes (fun g k => find k g.wait) _ (fun _ => none) (fun g i k => ?_) _ g j
  exact find_del _ _ _

theorem find_hdr_goTo : find j (g.goTo m f).hdr = if m.getLsbD j = true then none else find j g.hdr := by
  rw [← if_mem_lanesOf m j hj]
  refine foldl_lanes (fun g k => find k g.hdr) _ (fun _ => none) (fun g i k => ?_) _ g j
  exact find_del _ _ _

end goTo

section standAt

variable (g : Group) (m : Lanes) (code : Nat) (pc : Word) (hdr : Word × Nat) (w : Option Wait) (j : Nat) (hj : j < 64)
include hj

theorem lanePc_standAt : (g.standAt m code pc hdr w).lanePc j = if m.getLsbD j = true then pc else g.lanePc j := by
  rw [← if_mem_lanesOf m j hj]
  refine foldl_lanes Group.lanePc _ (fun _ => pc) (fun g i k => ?_) _ g j
  exact get_set _ _ _ _ _

theorem state_standAt : (g.standAt m code pc hdr w).state j = if m.getLsbD j = true then code else g.state j := by
  rw [← if_mem_lanesOf m j hj]
  refine foldl_lanes Group.state _ (fun _ => code) (fun g i k => ?_) _ g j
  exact get_set _ _ _ _ _

theorem find_wait_standAt : find j (g.standAt m code pc hdr w).wait = if m.getLsbD j = true then w else find j g.wait := by
  rw [← if_mem_lanesOf m j hj]
  refine foldl_lanes (fun g k => find k g.wait) _ (fun _ => w) (fun g i k => ?_) _ g j
  cases w with
  | none => exact find_del _ _ _
  | some x => exact find_put _ _ _ _

theorem find_hdr_standAt : find j (g.standAt m code pc hdr w).hdr = if m.getLsbD j = true then some hdr else find j g.hdr := by
  rw [← if_mem_lanesOf m j hj]
  refine foldl_lanes (fun g k => find k g.hdr) _ (fun _ => some hdr) (fun g i k => ?_) _ g j
  exact find_put _ _ _ _

end standAt

theorem setStates_rest (g : Group) (m : Lanes) (code : Nat) : g.setStates m code = { g with st := (g.setStates m code).st } := by
  unfold Group.setStates
  induction lanesOf m generalizing g with
  | nil => rfl
  | cons i l ih => rw [List.foldl_cons, ih]; rfl

theorem state_setStates (g : Group) (m : Lanes) (code j : Nat) (hj : j < 64) :
    (g.setStates m code).state j = if m.getLsbD j = true then code else g.state j := by
  rw [← if_mem_lanesOf m j hj]
  refine foldl_lanes Group.state _ (fun _ => code) (fun g i k => ?_) _ g j
  exact get_set _ _ _ _ _

end Sys2Proof.Machine
end

section
/-!
PROOF. Cross-lane instructions (R35, R250-R253): the visit sees the group's registers as they were, and what the writes of a
visit, its end and its waiting leave.
-/
namespace Sys2Proof.Machine

theorem Leaves.mono {s : State} {c : Nat} {x : Issue} {m : Member} {gone : Lanes} {o : Host.Outcome State Fault Refusal}
    {P Q : Group → Group → Prop} (h : Leaves s c x m gone o P) (hq : ∀ G, P (m.group s) G → Q (m.group s) G) :
    Leaves s c x m gone o Q := by
  obtain ⟨t, G, ho, ha, hp, hm⟩ := h
  exact ⟨t, G, ho, ha, hq G hp, hm⟩

/-- An instruction whose effect is a change of its group: what the group is when the clause goes on. -/
theorem leaves_of_run {s : State} {c : Nat} {x : Issue} {m : Member} (h : Sole s c x m) (sh : Shape) (f : Env → State → Res)
    (F : Group → Group) (gone : Lanes)
    (hll : ∀ l, sh.ll = some l → m.canCount s sh.g l) (hq : s.roomFor sh c m)
    (hw : sh.wait (s.env c x m sh.g) s = false) (hl : (m.group s).level.atLeast sh.level = true)
    (ht : sh.top ≤ (m.group s).n)
    (hf : f (s.env c x m sh.g) (s.begun sh c x m) = .ok ((s.begun sh c x m).onGroup m.team m.grp F) gone)
    (hF : (F (m.begun s sh)).calls = []) :
    Leaves s c x m gone (.next (s.run sh f)) (fun _ G => G = F (m.begun s sh)) := by
  obtain ⟨ha, hm⟩ := run_leaves h sh f F gone hll hq hw hl ht hf hF
  exact ⟨_, _, rfl, ha, rfl, hm⟩

/-- An instruction without an ordinal changes nothing of the group but the distances before its effect. -/
theorem begun_eq_pend (s : State) (m : Member) (g : Guard) (top : Nat) :
    m.begun s { g := g, top := top } = { m.group s with pend := (m.begun s { g := g, top := top }).pend } := by
  unfold Member.begun Group.advance Group.mapPend
  simp only [Bool.false_and, Bool.false_eq_true, if_false]

/-- The visit that an effect sees, with the distances advanced. -/
def Visit.withPend (v : Visit) (p : SMap Pend) : Visit := { v with src := { v.src with pend := p } }

theorem visit_pend (e : Env) (h : Group) (p : SMap Pend) (gd : Guard) (r : SReg) :
    e.visit { h with pend := p } gd r = (e.visit h gd r).withPend p := by
  unfold Env.visit Visit.withPend
  dsimp only
  cases hx : h.xsrc with
  | none => simp only [hx]; rfl
  | some y => dsimp only; split <;> simp only [hx] <;> rfl

/-! ### The register that a visit writes -/

/-- A vector register of b after a visit has written its destination. -/
def Visit.vregAfter (v : Visit) (b : Group) (d : Reg) (f : Nat → Word) (r i : Nat) : Word :=
  match d with
  | .v n => if r = n.toNat ∧ v.mine.getLsbD i = true then f i else b.vreg r i
  | .s _ => b.vreg r i

/-- A uniform register of b after it. -/
def Visit.sregAfter (b : Group) (d : Reg) (uni : Bool) (f : Nat → Word) (k : Nat) : Word :=
  match d with
  | .v _ => b.sreg k
  | .s n => if uni = true ∧ k = n.toNat ∧ k ≠ 0 ∧ k ≠ 2 then f 0 else b.sreg k

/-- The group D is b with the destination of a visit written, and flags gathered. -/
structure CrossWrote (b D : Group) (v : Visit) (d : Reg) (uni : Bool) (f : Nat → Word) (fl : Flags) : Prop where
  rest : D = { b with v := D.v, s := D.s, flags := fl, pend := D.pend }
  regs : ∀ r i, i < 64 → D.vreg r i = v.vregAfter b d f r i
  sregs : ∀ k, D.sreg k = Visit.sregAfter b d uni f k
  keeps : KeepsPends b D

namespace CrossWrote

variable {b D : Group} {v : Visit} {d : Reg} {uni : Bool} {f : Nat → Word} {fl : Flags}

theorem setVs (hfl : b.flags = fl) (v : Visit) (n : VReg) (uni : Bool) (f : Nat → Word) :
    CrossWrote b (b.setVs n.toNat v.mine f) v (.v n) uni f fl := by
  refine ⟨?_, fun r i hi => vreg_setVs _ _ _ _ _ _ hi, fun k => ?_, setVs_keeps _ _ _ _⟩
  · rw [setVs_rest, ← hfl]
  · rw [setVs_rest]; rfl

theorem setS (hfl : b.flags = fl) (v : Visit) (n : SReg) (y : Word) :
    CrossWrote b (b.setS n.toNat y) v (.s n) true (fun _ => y) fl := by
  refine ⟨?_, fun r i _ => ?_, fun k => ?_, .setS _ _ _⟩
  · rw [setS_rest, ← hfl]
  · rw [setS_rest]; rfl
  · rw [sreg_setS]; simp only [Visit.sregAfter, true_and]

/-- A uniform destination is left alone where no lane is active. -/
theorem skip (hfl : b.flags = fl) (v : Visit) (n : SReg) (f : Nat → Word) : CrossWrote b b v (.s n) false f fl := by
  refine ⟨by rw [← hfl], fun r i _ => rfl, fun k => ?_, .refl b⟩
  simp [Visit.sregAfter]

theorem setAll (hfl : b.flags = fl) (e : Env) (v : Visit) (d : Reg) (y : Word) :
    CrossWrote b (b.setAll e v d y) v d (e.act != 0) (fun _ => y) fl := by
  cases d with
  | v n => exact setVs hfl v n _ _
  | s n =>
    unfold Group.setAll
    by_cases ha : e.act = 0
    · simpa [ha] using skip hfl v n (fun _ => y)
    · have hb : (e.act != 0) = true := by simpa using ha
      rw [hb]
      simpa only [ha, if_false] using setS hfl v n y

theorem raise (h : CrossWrote b D v d uni f fl) (y : Flags) : CrossWrote b (D.raise y) v d uni f (fl ||| y) := by
  obtain ⟨hr, hv, hs, hk⟩ := h
  refine ⟨?_, hv, hs, hk.trans (.of_eq rfl)⟩
  unfold Group.raise
  rw [hr]

theorem raiseLanes (h : CrossWrote b D v d uni f fl) {hp : Lanes} (hh : b.helper = hp) (m : Lanes) (k : Nat → Flags) :
    CrossWrote b (D.raiseLanes m k) v d uni f (fl ||| (lanesOf (m &&& ~~~hp)).foldl (fun y i => y ||| k i) 0) := by
  have hD : D.helper = hp := by rw [h.rest, hh]
  unfold Group.raiseLanes
  rw [hD]
  exact h.raise _

theorem raiseFor (h : CrossWrote b D v d uni f fl) {hp : Lanes} (hh : b.helper = hp) (m : Lanes) (y : Flags) :
    CrossWrote b (D.raiseFor m y) v d uni f (if m &&& ~~~hp = 0 then fl else fl ||| y) := by
  have hD : D.helper = hp := by rw [h.rest, hh]
  unfold Group.raiseFor
  rw [hD]
  split
  · exact h
  · exact h.raise y

end CrossWrote

/-! ### The out-predicate and the end of a visit -/

theorem outPred_rest (g : Group) (v : Visit) (po : PReg) (q : Nat → Bool) :
    g.outPred v po q = { g with p := (g.outPred v po q).p, pend := (g.outPred v po q).pend } := by
  unfold Group.outPred
  rw [setPs_rest (g.setPs _ _ _), setPs_rest g]

theorem outPred_keeps (g : Group) (v : Visit) (po : PReg) (q : Nat → Bool) : KeepsPends g (g.outPred v po q) :=
  (setPs_keeps _ _ _ _).trans (setPs_keeps _ _ _ _)

theorem endVisit_rest (g : Group) (e : Env) (v : Visit) :
    g.endVisit e v = { g with xsrc := (g.endVisit e v).xsrc, arrive := (g.endVisit e v).arrive } := by
  unfold Group.endVisit
  extract_lets rest
  split <;> rfl

/-- Only the first half of a group of 64 lanes leaves its sources behind (R251). -/
theorem endVisit_xsrc (g : Group) (e : Env) (v : Visit) (h : g.width ≠ 64) : (g.endVisit e v).xsrc = none := by
  unfold Group.endVisit
  simp [h]

/-- Lanes that execute: no active lane that is a member is one that is not. -/
theorem visit_apart (e : Env) (h : Group) (gd : Guard) (r : SReg) (i : Nat)
    (hm : (e.visit h gd r).others.getLsbD i = true) : (e.visit h gd r).mine.getLsbD i = false := by
  have key : (e.visit h gd r).mine = e.act &&& h.members e.hdr r ∧ (e.visit h gd r).others = e.act &&& ~~~h.members e.hdr r := by
    unfold Env.visit
    cases h.xsrc with
    | none => exact ⟨rfl, rfl⟩
    | some y => dsimp only; split <;> exact ⟨rfl, rfl⟩
  rw [key.2] at hm
  rw [key.1]
  simp only [BitVec.getLsbD_and, BitVec.getLsbD_not, Bool.and_eq_true] at hm ⊢
  simp only [hm.1, Bool.true_and]
  simpa using hm.2.2

/-- The out-predicate after a visit: the second write does not meet the lanes of the first. -/
theorem preg_outPred (g : Group) (v : Visit) (po : PReg) (q : Nat → Bool) (k i : Nat) (hk : k < 16) (hi : i < 64)
    (hv : v.others.getLsbD i = true → v.mine.getLsbD i = false) : (g.outPred v po q).preg k i =
    if k = po.toNat ∧ k ≠ 15 ∧ v.mine.getLsbD i = true then q i
    else if k = po.toNat ∧ k ≠ 15 ∧ v.others.getLsbD i = true then false else g.preg k i := by
  unfold Group.outPred
  rw [preg_setPs _ _ po.isLt _ _ _ _ hk hi, preg_setPs _ _ po.isLt _ _ _ _ hk hi]
  by_cases ho : v.others.getLsbD i = true
  · simp [ho, hv ho]
  · simp [ho]

/-- What the writes and the end of a visit leave alone, from what each of them leaves alone. -/
theorem Group.rest_of_visit {g b D P E : Group} {fl : Flags} (hb : b = { g with pend := b.pend })
    (hD : D = { b with v := D.v, s := D.s, flags := fl, pend := D.pend }) (hP : P = { D with p := P.p, pend := P.pend })
    (hE : E = { P with xsrc := E.xsrc, arrive := E.arrive }) :
    E = { g with v := E.v, p := E.p, s := E.s, flags := fl, arrive := E.arrive, xsrc := E.xsrc, pend := E.pend } := by
  rw [hb] at hD
  rw [hD] at hP
  rw [hP] at hE
  rw [hE]

/-- What a group that differs in its outstanding instructions alone has in common with the first. -/
theorem Group.same_of_pend {g b : Group} (h : b = { g with pend := b.pend }) : b.width = g.width ∧ b.xsrc = g.xsrc ∧
    b.vreg = g.vreg ∧ b.sreg = g.sreg ∧ b.preg = g.preg ∧ b.badMembers = g.badMembers ∧ b.memberLacks = g.memberLacks := by
  rw [h]
  exact ⟨rfl, rfl, rfl, rfl, rfl, rfl, rfl⟩

/-- A visit that has written its register and its out-predicate, once it is over, in the statements' terms. -/
theorem CrossWrote.wroteX {g b D : Group} {mask : Lanes} {v : Visit} {d : Reg} {uni : Bool} {f : Nat → Word} {fl : Flags}
    (hb : b = { g with pend := b.pend }) (hpend : ∀ G, KeepsPends b G → SamePends g G ∧ Aged g G mask)
    (hD : CrossWrote b D v d uni f fl) (hv : ∀ i, v.others.getLsbD i = true → v.mine.getLsbD i = false) (po : PReg)
    (q : Nat → Bool) (e : Env) (w : Visit) : WroteX g ((D.outPred v po q).endVisit e w) mask v d uni f po q fl := by
  obtain ⟨hr, hregs, hsregs, hp⟩ := hD
  have hP := outPred_rest D v po q
  have hp' := outPred_keeps D v po q
  have preds := fun k i hk hi => preg_outPred D v po q k i hk hi (hv i)
  have hE := endVisit_rest (D.outPred v po q) e w
  have hx := endVisit_xsrc (D.outPred v po q) e w
  generalize D.outPred v po q = P at hP hp' hE hx preds
  generalize P.endVisit e w = E at hE hx
  have hpE : KeepsPends P E := .of_eq (by rw [hE])
  obtain ⟨h1, h2⟩ := hpend _ (hp.trans (hp'.trans hpE))
  obtain ⟨hwidth, -, hvreg, hsreg, hpreg, -, -⟩ := Group.same_of_pend hb
  refine ⟨Group.rest_of_visit hb hr hP hE, fun r i hi => ?regs, fun k => ?sregs, fun k i hk hi => ?preds, fun hw => hx ?_, h1, h2⟩
  case regs =>
    have : E.vreg r i = D.vreg r i := by rw [hE, hP]; rfl
    rw [this, hregs r i hi]
    cases d <;> simp only [Visit.vregAfter, hvreg]
  case sregs =>
    have : E.sreg k = D.sreg k := by rw [hE, hP]; rfl
    rw [this, hsregs k]
    cases d <;> simp only [Visit.sregAfter, hsreg]
  case preds =>
    have h3 : E.preg k i = P.preg k i := by rw [hE]; rfl
    have h4 : D.preg k i = g.preg k i := by rw [← hpreg, hr]; rfl
    rw [h3, preds k i hk hi, h4]
  · rwa [show P.width = b.width by rw [hP, hr], hwidth]

/-! ### Instructions whose members have arrived -/

section arrived

variable {s : State} {c : Nat} {x : Issue} {m : Member} {g : Guard} {k : Mbr} {top : Nat}

/-- The visit as the instruction starts, and as its effect sees it. -/
abbrev Member.visit (m : Member) (s : State) (c : Nat) (x : Issue) (g : Guard) (k : Mbr) : Visit :=
  (s.env c x m g).visit (m.group s) g k.m

theorem visit_begun (s : State) (c : Nat) (x : Issue) (m : Member) (g : Guard) (k : Mbr) (top : Nat) :
    (s.env c x m g).visit (m.begun s { g := g, top := top }) g k.m =
      (m.visit s c x g k).withPend (m.begun s { g := g, top := top }).pend := by
  conv_lhs => rw [begun_eq_pend]
  exact visit_pend _ _ _ _ _

/-- Every launched member is here or has exited, or this is the second half of the visit (R35, R251). -/
def Member.arrived (m : Member) (s : State) (x : Issue) (v : Visit) : Prop :=
  (m.group s).xsrc.any (fun y => y.hdr == x.hdr) = true ∨ (m.group s).memberLacks x.hdr m.lanes v.members = 0

/-- A cross-lane instruction that neither waits nor faults takes its effect and ends its visit. -/
theorem crossOp_does (h : Sole s c x m) (chk : Env → Visit → Option Res) (f : Env → Visit → Group → Group)
    (ht : top ≤ (m.group s).n) (hb : (m.group s).badMembers (m.visit s c x g k).members = 0)
    (ha : m.arrived s x (m.visit s c x g k))
    (hk : chk (s.env c x m g) ((m.visit s c x g k).withPend (m.begun s { g := g, top := top }).pend) = none)
    {D : Group} (hf : f (s.env c x m g) ((m.visit s c x g k).withPend (m.begun s { g := g, top := top }).pend)
      (m.begun s { g := g, top := top }) = D) (hD : D.calls = []) :
    Does s c x m (.next (s.crossOp g top k chk f)) (fun _ G =>
      G = D.endVisit (s.env c x m g) ((m.visit s c x g k).withPend (m.begun s { g := g, top := top }).pend)) := by
  have hg : (s.env c x m g).group (s.begun { g := g, top := top } c x m) = m.begun s { g := g, top := top } := begun_group h _
  obtain ⟨-, hxsrc, -, -, -, hbadM, hlacks⟩ := Group.same_of_pend (begun_eq_pend s m g top)
  have hstay : (!(m.begun s { g := g, top := top }).xsrc.any (fun y => y.hdr == x.hdr) && true &&
      (m.begun s { g := g, top := top }).memberLacks x.hdr m.lanes (m.visit s c x g k).members != 0) = false := by
    rw [hxsrc, hlacks]
    rcases ha with ha | ha <;> simp [ha]
  subst hf
  unfold State.crossOp
  refine leaves_of_run h _ _ (fun gr => (f (s.env c x m g) ((m.visit s c x g k).withPend (m.begun s { g := g, top := top }).pend)
    gr).endVisit (s.env c x m g) ((m.visit s c x g k).withPend (m.begun s { g := g, top := top }).pend)) 0
    (by simp) (by simp [State.roomFor]) rfl (atLeast_user _) ht ?_ (by rw [endVisit_rest]; exact hD)
  have e1 : (s.env c x m g).hdr = x.hdr := rfl
  have e2 : (s.env c x m g).path = m.lanes := rfl
  have e3 : ((m.visit s c x g k).withPend (m.begun s { g := g, top := top }).pend).members = (m.visit s c x g k).members := rfl
  simp only [hg, visit_begun, hk, hbadM, hb, e1, e2, e3, beq_self_eq_true, hstay]
  rfl

/-- Such an instruction that writes one register and the out-predicate. -/
theorem crossOp_writes (h : Sole s c x m) (chk : Env → Visit → Option Res) (f : Env → Visit → Group → Group)
    (ht : top ≤ (m.group s).n) (hb : (m.group s).badMembers (m.visit s c x g k).members = 0)
    (ha : m.arrived s x (m.visit s c x g k))
    (hk : chk (s.env c x m g) ((m.visit s c x g k).withPend (m.begun s { g := g, top := top }).pend) = none)
    {D : Group} {d : Reg} {uni : Bool} {val : Nat → Word} {q : Nat → Bool} {fl : Flags}
    (hD : CrossWrote (m.begun s { g := g, top := top }) D (m.visit s c x g k) d uni val fl)
    (hf : f (s.env c x m g) ((m.visit s c x g k).withPend (m.begun s { g := g, top := top }).pend)
      (m.begun s { g := g, top := top }) = D.outPred (m.visit s c x g k) k.po q) :
    Does s c x m (.next (s.crossOp g top k chk f)) (fun h G =>
      WroteX h G m.lanes (m.visit s c x g k) d uni val k.po q fl) := by
  refine Leaves.mono (crossOp_does h chk f ht hb ha hk hf ?calls) ?_
  case calls => rw [outPred_rest, hD.rest]; exact begun_calls h { g := g, top := top }
  rintro G rfl
  exact hD.wroteX (begun_eq_pend s m g top) (fun G hG => pends_of_begun hG) (visit_apart _ _ _ _) _ _ _ _
end arrived

end Sys2Proof.Machine
end

section
/-!
PROOF. The cross-lane instructions one by one, and the obligation about their completion (R35, R250-R253).
-/
namespace Sys2Proof.Machine

/-- A mask of quads holds each of them whole or not at all: the check of R253 passes. -/
theorem splitQuad_none {ms : Lanes} (h : ∀ q, q < 16 → (∀ j, j < 4 → ms.getLsbD (4 * q + j) = true) ∨
    (∀ j, j < 4 → ms.getLsbD (4 * q + j) = false)) : splitQuad ms = none := by
  unfold splitQuad
  rw [Option.map_eq_none_iff, List.find?_eq_none]
  intro q hq
  rcases h q (List.mem_range.mp hq) with h | h
  · have : (List.range 4).filter (fun k => ms.getLsbD (4 * q + k)) = List.range 4 :=
      List.filter_eq_self.mpr (fun k hk => h k (List.mem_range.mp hk))
    simp [this]
  · have : (List.range 4).filter (fun k => ms.getLsbD (4 * q + k)) = [] :=
      List.filter_eq_nil_iff.mpr (fun k hk => by simp [h k (List.mem_range.mp hk)])
    simp [this]

theorem quadCheck_none {v : Visit} (hq : splitQuad v.members = none) (e : Env) (p : SMap Pend) :
    quadCheck e (v.withPend p) = none := by
  unfold quadCheck
  rw [Option.map_eq_none_iff]
  exact hq

section arrived

variable {s : State} {c : Nat} {x : Issue} {m : Member} {g : Guard} {k : Mbr}

/-- What the statements say of an instruction that ends its visit. -/
abbrev CrossDoes (s : State) (c : Nat) (x : Issue) (m : Member) (g : Guard) (k : Mbr) (i : Instr) (d : Reg) (uni : Bool)
    (f : Nat → Word) (q : Nat → Bool) (fl : Flags) : Prop :=
  Does s c x m (exec i s) (fun h G => WroteX h G m.lanes (m.visit s c x g k) d uni f k.po q fl)

variable (h : Sole s c x m) (hb : (m.group s).badMembers (m.visit s c x g k).members = 0)
  (ha : m.arrived s x (m.visit s c x g k))
include h hb ha

theorem perm_does (md : PermMd) {d : VReg} {a b : Reg} (hd : d.toNat < (m.group s).n) (hra : Reg.fits a (m.group s).n)
    (hrb : Reg.fits b (m.group s).n) :
    let v := m.visit s c x g k
    let from_ := fun i => permFrom md v.members i (v.src.reg b i)
    CrossDoes s c x m g k (.perm g md d a b k) (.v d) false (fun i => v.src.reg a ((from_ i).getD i)) (fun i => (from_ i).isSome)
      (m.group s).flags :=
  crossOp_writes h _ _ (maxOf_le (by simpa [topV] using ⟨hd, topR_le hra, topR_le hrb⟩)) hb ha rfl
    (.setVs (begun_flags _ _ _) _ d false _) rfl

theorem bcast_lane_does {e : Reg} {av : VReg} {sb : SReg} (he : Reg.fits e (m.group s).n) (hav : av.toNat < (m.group s).n) :
    let v := m.visit s c x g k
    let l := ((v.src.sreg sb.toNat).extractLsb' 0 6).toNat
    v.members.getLsbD l = true → CrossDoes s c x m g k (.bcast g .lane e av sb k) e (m.active s g != 0)
      (fun _ => v.src.vreg av.toNat l) (fun _ => true) (m.group s).flags := by
  intro v l hl
  refine crossOp_writes h _ _ (maxOf_le (by simpa [topV] using ⟨topR_le he, hav⟩)) hb ha (if_neg ?_)
    (.setAll (begun_flags _ _ _) (s.env c x m g) _ e _) rfl
  rintro ⟨-, hn⟩
  exact absurd (hl.symm.trans hn) (by simp)

theorem bcast_edge_does {md : BcastMd} (hmd : md ≠ .lane) {e : Reg} {av : VReg} (sb : SReg) (he : Reg.fits e (m.group s).n)
    (hav : av.toNat < (m.group s).n) :
    let v := m.visit s c x g k
    v.act &&& v.members ≠ 0 → CrossDoes s c x m g k (.bcast g md e av sb k) e (m.active s g != 0)
      (fun _ => v.src.vreg av.toNat (bcastSource md v sb)) (fun _ => true) (m.group s).flags := by
  intro v hne
  refine crossOp_writes h _ _ (maxOf_le (by simpa [topV] using ⟨topR_le he, hav⟩)) hb ha (if_neg (fun hn => hmd hn.1))
    (.setAll (begun_flags _ _ _) (s.env c x m g) _ e _) ?_
  have hgo : ¬(md ≠ .lane ∧ v.act &&& v.members = 0) := fun hn => hne hn.2
  exact congrArg (fun y => Group.outPred y v k.po (fun _ => true)) (if_neg hgo)

theorem vote_ballot_does {e : Reg} (pa : PReg) (he : Reg.fits e (m.group s).n) :
    let v := m.visit s c x g k
    CrossDoes s c x m g k (.vote g (.ballot e) pa k) e (m.active s g != 0) (fun _ => ballot v pa) (fun _ => true)
      (m.group s).flags :=
  crossOp_writes h _ _ (topR_le he) hb ha rfl (.setAll (begun_flags _ _ _) (s.env c x m g) _ e _) rfl

/-- What the modes of `VOTE` make of a ballot (R252). -/
def voteHolds (md : VoteMd) (y ms : Lanes) : Bool :=
  match md with
  | .all => y == ms
  | .any => y != 0
  | .uni => y == ms || y == 0

theorem vote_pred_does (md : VoteMd) (pd pa : PReg) :
    let v := m.visit s c x g k
    Does s c x m (exec (.vote g (.pred md pd) pa k) s) (fun h G =>
      G = { h with p := G.p, arrive := G.arrive, xsrc := G.xsrc, pend := G.pend } ∧ SamePends h G ∧
      ∀ n i, n < 16 → i < 64 → G.preg n i = if n = pd.toNat ∧ n ≠ 15 ∧ v.mine.getLsbD i = true then
        voteHolds md (ballot v pa) v.members else h.preg n i) := by
  intro v
  have hD : ((m.begun s { g := g, top := 0 }).setPs pd.toNat v.mine (fun _ => voteHolds md (ballot v pa) v.members)).calls = [] := by
    rw [setPs_calls]; exact begun_calls h _
  refine Leaves.mono (crossOp_does h _ _ (Nat.zero_le _) hb ha rfl ?_ hD) ?_
  · cases md <;> rfl
  · rintro G rfl
    have hk := setPs_keeps (m.begun s { g := g, top := 0 }) pd.toNat v.mine (fun _ => voteHolds md (ballot v pa) v.members)
    refine ⟨?_, (pends_of_begun (hk.trans (.of_eq (by rw [endVisit_rest])))).1, fun n i hn hi => ?_⟩
    · rw [endVisit_rest, setPs_rest, begun_eq_pend]
    · rw [endVisit_rest]
      exact (preg_setPs _ _ pd.isLt _ _ _ _ hn hi).trans (by rw [begun_preg])

theorem redu_does (op : RedOp) (ty : Ty) {e : Reg} {av : VReg} (he : Reg.fits e (m.group s).n) (hav : av.toNat < (m.group s).n) :
    let v := m.visit s c x g k
    let r := redWords op ty ((lanesOf v.members).map (fun j => v.src.vreg av.toNat j))
    CrossDoes s c x m g k (.redu g op ty e av k) e (m.active s g != 0) (fun _ => r.1) (fun _ => true)
      (if v.mine &&& ~~~(m.group s).helper = 0 then (m.group s).flags else (m.group s).flags ||| r.2) :=
  crossOp_writes h _ _ (maxOf_le (by simpa [topV] using ⟨topR_le he, hav⟩)) hb ha rfl
    ((CrossWrote.setAll (begun_flags _ _ _) (s.env c x m g) _ e _).raiseFor (begun_helper _ _ _) _ _) rfl

variable {d av : VReg} (hd : d.toNat < (m.group s).n) (hav : av.toNat < (m.group s).n)
include hd hav

theorem scan_does (op : RedOp) (excl : Bool) (ty : Ty) :
    let v := m.visit s c x g k
    CrossDoes s c x m g k (.scan g op excl ty d av k) (.v d) false (fun i => (scanAt op excl ty v av i).1) (fun _ => true)
      (m.flagsAfter s v.mine (fun i => (scanAt op excl ty v av i).2)) :=
  crossOp_writes h _ _ (maxOf_le (by simpa [topV] using ⟨hd, hav⟩)) hb ha rfl
    ((CrossWrote.setVs (begun_flags _ _ _) _ d false _).raiseLanes (begun_helper _ _ _) _ _) rfl

theorem matchLanes_does :
    let v := m.visit s c x g k
    let same := fun i => maskOf (fun j => v.members.getLsbD j && v.src.vreg av.toNat j == v.src.vreg av.toNat i)
    CrossDoes s c x m g k (.matchLanes g d av k) (.v d) false same (fun i => same i == v.members) (m.group s).flags :=
  crossOp_writes h _ _ (maxOf_le (by simpa [topV] using ⟨hd, hav⟩)) hb ha rfl
    (.setVs (begun_flags _ _ _) _ d false _) rfl

variable (hq : splitQuad (m.visit s c x g k).members = none)
include hq

/-- `DERIVX` and `DERIVY`, by the pair of lanes of a quad that a lane's difference is taken from (R144, R253). -/
theorem deriv_does (ty : Ty) (pair : Nat → Nat × Nat) :
    let v := m.visit s c x g k
    let r := fun i => quadDiff ty v av (i / 4 * 4 + (pair (i % 4)).1) (i / 4 * 4 + (pair (i % 4)).2)
    Does s c x m (.next (s.deriv g ty d av k pair)) (fun h G => WroteX h G m.lanes v (.v d) false (fun i => (r i).1) k.po
      (fun _ => true) (m.flagsAfter s v.mine (fun i => (r i).2))) :=
  crossOp_writes h _ _ (maxOf_le (by simpa [topV] using ⟨hd, hav⟩)) hb ha (quadCheck_none hq _ _)
    ((CrossWrote.setVs (begun_flags _ _ _) _ d false _).raiseLanes (begun_helper _ _ _) _ _) rfl

theorem qswap_does (md : QMd) :
    let v := m.visit s c x g k
    CrossDoes s c x m g k (.qswap g md d av k) (.v d) false (fun i => v.src.vreg av.toNat (i ^^^ qswapMask md)) (fun _ => true)
      (m.group s).flags :=
  crossOp_writes h _ _ (maxOf_le (by simpa [topV] using ⟨hd, hav⟩)) hb ha (quadCheck_none hq _ _)
    (.setVs (begun_flags _ _ _) _ d false _) rfl

end arrived

end Sys2Proof.Machine

open Sys2Proof Sys2Proof.Machine

/-- Settles O22: each instruction's visit, member by member, from the shared form of them all. -/
theorem crossLaneInstructionsComplete : Obligations.CrossLaneInstructionsComplete := by
  intro s c x m h g k d e av a b ty hd he hav hra hrb act v src mem ms hb ha does flags all quad
  refine ⟨?perm, ?lane, ?edges, ?vote, ?redu, ?matching, ?quads⟩
  case perm => exact fun md => perm_does h hb ha md hd hra hrb
  case lane => exact fun sb hl => bcast_lane_does h hb ha he hav hl
  case edges =>
    exact fun sb hne => ⟨bcast_edge_does h hb ha (by decide) sb he hav hne, bcast_edge_does h hb ha (by decide) sb he hav hne⟩
  case vote =>
    refine fun pa => ⟨vote_ballot_does h hb ha pa he, fun md pd => ?_⟩
    cases md <;> exact vote_pred_does h hb ha _ pd pa
  case redu => exact fun op => ⟨redu_does h hb ha op ty he hav, fun excl => scan_does h hb ha hd hav op excl ty⟩
  case matching => exact matchLanes_does h hb ha hd hav
  case quads =>
    intro hquads
    have hq := splitQuad_none hquads
    exact ⟨deriv_does h hb ha hd hav hq ty _, deriv_does h hb ha hd hav hq ty _, deriv_does h hb ha hd hav hq ty _,
      deriv_does h hb ha hd hav hq ty _, qswap_does h hb ha hd hav hq .h, qswap_does h hb ha hd hav hq .v,
      qswap_does h hb ha hd hav hq .d⟩
end

section
/-!
PROOF. Cross-lane instructions whose members have not arrived (R35, R36, R251): their lanes block, and the obligation about it.
-/
namespace Sys2Proof.Machine

/-- What a cross-lane instruction that waits does to its group: the arrival noted, the out-predicate of the other lanes false,
and the members of the path back at the header in lane state 4. -/
def Group.await (b : Group) (hdr : Word) (path : Lanes) (v : Visit) (po : PReg) : Group :=
  ((({ b with arrive := put hdr.toNat v.members b.arrive }).outPred { v with mine := 0 } po (fun _ => false)).goTo
    (path &&& v.members) (fun _ => hdr)).setStates (path &&& v.members) 4

/-- What three changes in a row leave alone, from what each of them leaves alone. -/
theorem Group.rest_trans {b A T S : Group} {y : SMap Lanes} (hA : A = { { b with arrive := y } with p := A.p, pend := A.pend })
    (hT : T = { A with pc := T.pc, st := T.st, wait := T.wait, hdr := T.hdr }) (hS : S = { T with st := S.st }) :
    S = { b with p := S.p, pc := S.pc, st := S.st, wait := S.wait, hdr := S.hdr, pend := S.pend, arrive := y } := by
  rw [hA] at hT
  rw [hT] at hS
  rw [hS]

theorem Group.rest_of_begun {g b S : Group} {y : SMap Lanes} (hb : b = { g with pend := b.pend })
    (hS : S = { b with p := S.p, pc := S.pc, st := S.st, wait := S.wait, hdr := S.hdr, pend := S.pend, arrive := y }) :
    S = { g with p := S.p, pc := S.pc, st := S.st, wait := S.wait, hdr := S.hdr, arrive := S.arrive, pend := S.pend } := by
  rw [hb] at hS
  rw [hS]

section await

variable (b : Group) (hdr : Word) (path : Lanes) (v : Visit) (po : PReg)

theorem await_rest : b.await hdr path v po = { b with
    p := (b.await hdr path v po).p, pc := (b.await hdr path v po).pc, st := (b.await hdr path v po).st
    wait := (b.await hdr path v po).wait, hdr := (b.await hdr path v po).hdr, pend := (b.await hdr path v po).pend
    arrive := put hdr.toNat v.members b.arrive } :=
  Group.rest_trans (outPred_rest _ _ _ _) (goTo_rest _ _ _) (setStates_rest _ _ _)

theorem await_calls (hb : b.calls = []) : (b.await hdr path v po).calls = [] := by
  rw [await_rest]; exact hb

theorem await_pend : (b.await hdr path v po).pend =
    (({ b with arrive := put hdr.toNat v.members b.arrive }).outPred { v with mine := 0 } po (fun _ => false)).pend := by
  unfold Group.await
  rw [setStates_rest, goTo_rest]

theorem await_p : (b.await hdr path v po).p =
    (({ b with arrive := put hdr.toNat v.members b.arrive }).outPred { v with mine := 0 } po (fun _ => false)).p := by
  unfold Group.await
  rw [setStates_rest, goTo_rest]

theorem await_keeps : KeepsPends b (b.await hdr path v po) :=
  (KeepsPends.of_eq (g := b) (h := { b with arrive := put hdr.toNat v.members b.arrive }) rfl).trans
    ((outPred_keeps _ _ _ _).trans (.of_eq (await_pend b hdr path v po)))

/-- The members of the path are back at the header, blocked; every other lane is where it was. -/
theorem await_went : Went b (b.await hdr path v po) (path &&& v.members) 4 (fun _ => hdr) := by
  have hp : ∀ j, (({ b with arrive := put hdr.toNat v.members b.arrive }).outPred { v with mine := 0 } po
      (fun _ => false)).lanePc j = b.lanePc j ∧ (({ b with arrive := put hdr.toNat v.members b.arrive }).outPred
      { v with mine := 0 } po (fun _ => false)).state j = b.state j := fun j => by rw [outPred_rest]; exact ⟨rfl, rfl⟩
  have hw : (({ b with arrive := put hdr.toNat v.members b.arrive }).outPred { v with mine := 0 } po (fun _ => false)).wait =
      b.wait := by rw [outPred_rest]
  have hh : (({ b with arrive := put hdr.toNat v.members b.arrive }).outPred { v with mine := 0 } po (fun _ => false)).hdr =
      b.hdr := by rw [outPred_rest]
  have pc : ∀ j, j < 64 → (b.await hdr path v po).lanePc j =
      if (path &&& v.members).getLsbD j = true then hdr else b.lanePc j := fun j hj => by
    rw [← (hp j).1, ← lanePc_goTo _ _ (fun _ => hdr) j hj]
    unfold Group.await
    rw [setStates_rest]; rfl
  have st : ∀ j, j < 64 → (b.await hdr path v po).state j =
      if (path &&& v.members).getLsbD j = true then 4 else b.state j := fun j hj => by
    unfold Group.await
    rw [state_setStates _ _ _ _ hj, state_goTo _ _ _ _ hj, (hp j).2]
    split <;> rfl
  have wt : ∀ j, j < 64 → find j (b.await hdr path v po).wait =
      if (path &&& v.members).getLsbD j = true then none else find j b.wait := fun j hj => by
    rw [← hw, ← find_wait_goTo _ _ (fun _ => hdr) j hj]
    unfold Group.await
    rw [setStates_rest]
  have hd : ∀ j, j < 64 → find j (b.await hdr path v po).hdr =
      if (path &&& v.members).getLsbD j = true then none else find j b.hdr := fun j hj => by
    rw [← hh, ← find_hdr_goTo _ _ (fun _ => hdr) j hj]
    unfold Group.await
    rw [setStates_rest]
  exact ⟨fun j hj hm => by simp [pc j hj, st j hj, wt j hj, hd j hj, hm],
    fun j hj hm => by simp [pc j hj, st j hj, wt j hj, hd j hj, hm]⟩

theorem await_preg (k i : Nat) (hk : k < 16) (hi : i < 64) : (b.await hdr path v po).preg k i =
    if k = po.toNat ∧ k ≠ 15 ∧ v.others.getLsbD i = true then false else b.preg k i := by
  have h0 : (b.await hdr path v po).preg k i = (({ b with arrive := put hdr.toNat v.members b.arrive }).outPred
      { v with mine := 0 } po (fun _ => false)).preg k i := by unfold Group.preg; rw [await_p]
  rw [h0, preg_outPred _ _ _ _ _ _ hk hi (fun _ => BitVec.getLsbD_zero)]
  simp [Group.preg]

end await

/-- What the statement says of an instruction that waits (R35, R36, R251). -/
abbrev CrossWaits (s : State) (c : Nat) (x : Issue) (m : Member) (g : Guard) (k : Mbr) (i : Instr) : Prop :=
  Leaves s c x m (m.lanes &&& (m.visit s c x g k).members) (exec i s) (fun h G =>
    G = { h with p := G.p, pc := G.pc, st := G.st, wait := G.wait, hdr := G.hdr, arrive := G.arrive, pend := G.pend } ∧
    SamePends h G ∧ Went h G (m.lanes &&& (m.visit s c x g k).members) 4 (fun _ => x.hdr) ∧
    find x.hdr.toNat G.arrive = some (m.visit s c x g k).members ∧
    ∀ n j, n < 16 → j < 64 → G.preg n j =
      if n = k.po.toNat ∧ n ≠ 15 ∧ (m.visit s c x g k).others.getLsbD j = true then false else h.preg n j)

section waits

variable {s : State} {c : Nat} {x : Issue} {m : Member} {g : Guard} {k : Mbr} {top : Nat}

/-- The shared form of the cross-lane instructions waits before it looks at anything of its own. -/
theorem crossOp_waits (h : Sole s c x m) (chk : Env → Visit → Option Res) (f : Env → Visit → Group → Group)
    (ht : top ≤ (m.group s).n) (hx : (m.group s).xsrc = none)
    (hb : (m.group s).badMembers (m.visit s c x g k).members = 0)
    (ha : (m.group s).memberLacks x.hdr m.lanes (m.visit s c x g k).members ≠ 0) :
    Leaves s c x m (m.lanes &&& (m.visit s c x g k).members) (.next (s.crossOp g top k chk f)) (fun _ G =>
      G = (m.begun s { g := g, top := top }).await x.hdr m.lanes
        ((m.visit s c x g k).withPend (m.begun s { g := g, top := top }).pend) k.po) := by
  have hg : (s.env c x m g).group (s.begun { g := g, top := top } c x m) = m.begun s { g := g, top := top } := begun_group h _
  obtain ⟨-, hxsrc, -, -, -, hbadM, hlacks⟩ := Group.same_of_pend (begun_eq_pend s m g top)
  have hstay : (!(m.begun s { g := g, top := top }).xsrc.any (fun y => y.hdr == x.hdr) && true &&
      (m.begun s { g := g, top := top }).memberLacks x.hdr m.lanes (m.visit s c x g k).members != 0) = true := by
    rw [hxsrc, hlacks, hx]
    simpa using ha
  unfold State.crossOp
  refine leaves_of_run h _ _ (fun gr => gr.await x.hdr m.lanes
    ((m.visit s c x g k).withPend (m.begun s { g := g, top := top }).pend) k.po) _
    (by simp) (by simp [State.roomFor]) rfl (atLeast_user _) ht ?_ (await_calls _ _ _ _ _ (begun_calls h { g := g, top := top }))
  have e1 : (s.env c x m g).hdr = x.hdr := rfl
  have e2 : (s.env c x m g).path = m.lanes := rfl
  have e3 : ((m.visit s c x g k).withPend (m.begun s { g := g, top := top }).pend).members = (m.visit s c x g k).members := rfl
  simp only [hg, visit_begun, hbadM, hb, e1, e2, e3, beq_self_eq_true, hstay]
  rfl

theorem crossOp_crossWaits (h : Sole s c x m) (hx : (m.group s).xsrc = none)
    (hb : (m.group s).badMembers (m.visit s c x g k).members = 0)
    (ha : (m.group s).memberLacks x.hdr m.lanes (m.visit s c x g k).members ≠ 0)
    (chk : Env → Visit → Option Res) (f : Env → Visit → Group → Group) (ht : top ≤ (m.group s).n) {i : Instr}
    (hi : exec i s = .next (s.crossOp g top k chk f)) : CrossWaits s c x m g k i := by
  unfold CrossWaits
  rw [hi]
  refine Leaves.mono (crossOp_waits h chk f ht hx hb ha) ?_
  rintro G rfl
  obtain ⟨there, others⟩ := await_went (m.begun s { g := g, top := top }) x.hdr m.lanes
    ((m.visit s c x g k).withPend (m.begun s { g := g, top := top }).pend) k.po
  refine ⟨?rest, (pends_of_begun (await_keeps _ _ _ _ _)).1, ⟨there, fun i hi hm => ?others⟩, ?arrive, fun n j hn hj => ?preds⟩
  case rest => exact Group.rest_of_begun (begun_eq_pend s m g top) (await_rest _ _ _ _ _)
  case others =>
    obtain ⟨hpc, hst, hwait, hhdr⟩ := others i hi hm
    have hbegun := begun_eq_pend s m g top
    exact ⟨hpc.trans (by rw [hbegun]; rfl), hst.trans (by rw [hbegun]; rfl), hwait.trans (by rw [hbegun]),
      hhdr.trans (by rw [hbegun])⟩
  case arrive => rw [await_rest]; exact (find_put _ _ _ _).trans (if_pos rfl)
  case preds => rw [await_preg _ _ _ _ _ _ _ hn hj, begun_preg]; rfl

end waits

end Sys2Proof.Machine

open Sys2Proof Sys2Proof.Machine

/-- Settles O23: each instruction waits in the form they share, whatever it would do once its members are there. -/
theorem crossLaneMembersWait : Obligations.CrossLaneMembersWait := by
  intro s c x m h g k d e av a b sb ty hd he hav hra hrb v hx hb ha i hi
  have waits := fun {i : Instr} {top : Nat} (chk : Env → Visit → Option Res) (f : Env → Visit → Group → Group) (ht : top ≤ (m.group s).n)
    (hi : exec i s = .next (s.crossOp g top k chk f)) =>
    crossOp_crossWaits (i := i) h hx hb ha chk f ht hi
  have two : maxOf [topV d 1, topV av 1] ≤ (m.group s).n := maxOf_le (by simpa [topV] using ⟨hd, hav⟩)
  have twoE : maxOf [topR e 1, topV av 1] ≤ (m.group s).n := maxOf_le (by simpa [topV] using ⟨topR_le he, hav⟩)
  rcases hi with ⟨md, rfl | rfl | ⟨md, rfl⟩⟩ | rfl | ⟨op, rfl | ⟨ex, rfl⟩⟩ | ⟨co, rfl | rfl⟩ | ⟨pa, rfl⟩
  · exact waits _ _ (maxOf_le (by simpa [topV] using ⟨hd, topR_le hra, topR_le hrb⟩)) rfl
  · exact waits _ _ two rfl
  · exact waits _ _ twoE rfl
  · exact waits _ _ two rfl
  · exact waits _ _ twoE rfl
  · exact waits _ _ two rfl
  · exact waits _ _ two rfl
  · exact waits _ _ two rfl
  · exact waits _ _ (topR_le he) rfl
end

section
/-!
PROOF. Issue selection, aging credit and instruction-cache fills (R28-R31, R69): what the bookkeeping around them leaves, and the
obligation about them.
-/
namespace Sys2Proof.Machine

/-! ### What leaves the clauses in issue alone -/

theorem Touched.inIssue {b : Bool} {s t : State} (h : Touched b s t) (k : Nat) : t.inIssue k = s.inIssue k := by
  unfold State.inIssue
  rw [h.core k]

theorem inIssue_deviceStore (s : State) (a n v k : Nat) : (s.deviceStore a n v).inIssue k = s.inIssue k :=
  (Touched.deviceStore (b := false) s a n v).inIssue k

/-- The streams and trace blocks are no part of it. -/
theorem inIssue_logged (s : State) (x : SMap Trace) (y : SMap Stream) (k : Nat) :
    { s with traces := x, streams := y }.inIssue k = s.inIssue k := rfl

theorem inIssue_putRecord (s : State) (die key w0 w1 w2 w3 k : Nat) :
    (s.putRecord die key w0 w1 w2 w3).inIssue k = s.inIssue k := by
  unfold State.putRecord
  extract_lets tr st size lost t base t1 t2 t3
  split
  · rw [inIssue_deviceStore]; rfl
  · rw [inIssue_logged]
    simp only [t3, t2, t1, inIssue_deviceStore]

theorem inIssue_fullTick (s : State) (sunit src kind k : Nat) : (s.fullTick sunit src kind).inIssue k = s.inIssue k := by
  unfold State.fullTick
  extract_lets
  split
  · exact inIssue_putRecord _ _ _ _ _ _ _ _
  · rfl

theorem inIssue_lostRecord (s : State) (sunit src kind k : Nat) : (s.lostRecord sunit src kind).inIssue k = s.inIssue k := by
  unfold State.lostRecord
  extract_lets
  split
  · rfl
  · have put := inIssue_putRecord s (streamDie sunit src) (streamKey sunit src)
    split
    · exact (inIssue_logged _ _ _ _).trans (put _ _ _ _ _)
    · exact put _ _ _ _ _

theorem inIssue_emit (s : State) (sunit src ctx kind tag b1 b2 b3 k : Nat) :
    (s.emit sunit src ctx kind tag b1 b2 b3).inIssue k = s.inIssue k := by
  unfold State.emit
  extract_lets
  split
  · rfl
  · exact (inIssue_putRecord _ _ _ _ _ _ _ _).trans ((inIssue_lostRecord _ _ _ _ _).trans (inIssue_fullTick _ _ _ _ _))

theorem inIssue_onCore (s : State) (core : Nat) (f : Core → Core) :
    (s.onCore core f).inIssue core = (f (s.core core)).issue := by
  unfold State.inIssue
  rw [State.core_onCore, if_pos rfl]

theorem inIssue_sampleClause (s : State) (core : Nat) (c : Cand) (tag : Nat) :
    (s.sampleClause core c tag).inIssue core = s.inIssue core := by
  have h : (s.onCore core (fun k => { k with sampled := k.sampled + 1 })).inIssue core = s.inIssue core :=
    inIssue_onCore _ _ _
  unfold State.sampleClause
  dsimp only
  split
  · exact h
  · exact (inIssue_emit _ _ _ _ _ _ _ _ _ _).trans h

/-- A change of one group at a time changes no core. -/
theorem cores_foldl {α : Type} (f : State → α → State) (h : ∀ s y, (f s y).cores = s.cores) (l : List α) (s : State) :
    (l.foldl f s).cores = s.cores := by
  induction l generalizing s with
  | nil => rfl
  | cons y l ih => exact (ih _).trans (h s y)

theorem cores_arriveGroup (s : State) (t n : Nat) : (s.arriveGroup t n).cores = s.cores := by
  unfold State.arriveGroup
  refine cores_foldl _ (fun s y => ?_) _ _
  split
  · rfl
  · split <;> rfl
  all_goals rfl

/-- With no trap left until now, none is entered. -/
theorem lateTraps_none (s : State) (core : Nat) (h : ∀ e ∈ s.residents core, (s.group e.1 e.2.1).late = none) :
    s.lateTraps core = s := by
  unfold State.lateTraps
  generalize s.residents core = l at h
  induction l with
  | nil => rfl
  | cons e l ih =>
    rw [List.foldl_cons, h e List.mem_cons_self]
    exact ih (fun d hd => h d (List.mem_cons_of_mem _ hd))

/-- What a slot does to its core. -/
def Core.slot (leaf : Nat) (k : Core) : Core :=
  { k with clocks := k.clocks + 1, leaves := put leaf (get 0 leaf k.leaves + 1) k.leaves }

theorem slot_own (s : State) (c leaf : Nat) (ms : List Member) : (s.slot c leaf ms).core c = (s.core c).slot leaf := by
  rw [slot_eq]
  exact (State.core_onCore s c c (Core.slot leaf)).trans (if_pos rfl)

theorem emptySlot_core (s : State) (core : Nat) : (s.emptySlot core).inIssue core = s.inIssue core ∧
    ((s.emptySlot core).core core).clocks = (s.core core).clocks + 1 := by
  have h := slot_own (s.endMarks core) core (s.emptyLeaf core) []
  exact ⟨(congrArg Core.issue h :), (congrArg Core.clocks h :)⟩

/-- A bundle without a faulty member issues its head's clause for the lanes of each. -/
theorem issue_clause (s : State) (core : Nat) (second : Bool) {c : Cand} {rest : List Cand} {h : Head} {ver : Nat}
    {body : List Byte} (hf : ∀ d ∈ c :: rest, d.fault = none) (hc : c.got = .clause h ver body) :
    ∃ x, (s.issue core second (c :: rest)).inIssue core = some x ∧ x.hdr = c.path.hdr ∧ x.pos = c.path.pos ∧ x.body = body ∧
      x.ver = ver ∧ x.bodyw = h.bodyw ∧ ∀ m, m ∈ x.members ↔ ∃ d ∈ c :: rest, m = ⟨d.team, d.grp, d.path.lanes⟩ := by
  have good : (c :: rest).filter (fun c => c.fault.isNone) = c :: rest :=
    List.filter_eq_self.mpr (fun d hd => by rw [hf d hd]; rfl)
  have bad : (c :: rest).filter (fun c => c.fault.isSome) = [] :=
    List.filter_eq_nil_iff.mpr (fun d hd => by rw [hf d hd]; simp)
  unfold State.issue
  simp only [good, bad, hc]
  refine ⟨_, (inIssue_sampleClause _ _ _ _).trans (inIssue_onCore _ _ _), rfl, rfl, rfl, rfl, rfl, fun m => ?_⟩
  rw [List.mem_map]
  exact exists_congr fun d => and_congr (mem_arrange _ _ _) eq_comm

/-! ### The instruction cache -/

/-- Translations for an agent that no operation acts for read nothing else than before. -/
theorem Alike.walked (s : State) (a : Agent) (va : Word) (p : Spot) (h : a.op = none) : Alike s (s.walked a va p) := by
  have held : ∀ t : State, t.holdLeaf a.op (tlbKey a.ctx va) p.leaf = t := fun t => by unfold State.holdLeaf; rw [h]
  unfold State.walked
  dsimp only
  rw [held]
  have asked := (Paged.demand s a.core p).alike
  split
  · exact asked
  · next ls _ =>
    have kept : ∀ q : State, Alike q { q with l2 := q.l2, mids := q.mids } := Alike.refl
    exact (asked.trans (walkReads a a.core ls.1 _).1).trans ⟨rfl, rfl, fun _ => ⟨rfl, rfl⟩⟩

theorem length_put_le {α : Type} (k : Nat) (v : α) (m : SMap α) : (put k v m).length ≤ m.length + 1 := by
  induction m with
  | nil => exact Nat.le_refl _
  | cons e m ih =>
    obtain ⟨i, a⟩ := e
    unfold put
    split
    · exact Nat.le_refl _
    · split
      · exact Nat.le_succ _
      · exact Nat.succ_le_succ ih

theorem trimTo_of_le {α : Type} {n : Nat} (k : Nat) {m : SMap α} (h : m.length ≤ n) : trimTo n k m = m := if_pos h

end Sys2Proof.Machine

open Sys2Proof Sys2Proof.Machine

/-- Settles O49: the first selection after arrivals, the credit, and the line that a fill brings. -/
theorem issueSelectionCompletes : Obligations.IssueSelectionCompletes := by
  refine ⟨?select, ?credit, ?fill⟩
  case select =>
    intro s core hi hs hd hl a
    have ha : a.inIssue core = none ∧ (a.core core).clocks = (s.core core).clocks := by
      have h : a.cores = s.cores := cores_foldl _ (fun s (e : Nat × Nat × Group) => cores_arriveGroup s e.1 e.2.1) _ _
      unfold State.inIssue State.core
      rw [h]
      exact ⟨hi, rfl⟩
    have he : exec (.issueSelection core) s = .next (match a.chosen core with
        | [] => a.emptySlot core
        | cs => a.issue core false cs) := by
      rw [exec_issueSelection, execIssueSelection, hi, hd]
      simp only [Option.isSome_none, Bool.false_eq_true, if_false, State.select, hs, lateTraps_none s core hl]
      rfl
    refine ⟨_, he, fun hc => ?_, fun c rest h ver body hc hf hg => ?_⟩
    · rw [hc]
      obtain ⟨h1, h2⟩ := emptySlot_core a core
      exact ⟨h1.trans ha.1, h2.trans (by rw [ha.2])⟩
    · rw [hc]
      exact issue_clause a core false hf hg
  case credit =>
    intro s team grp hhas hage g
    refine ⟨_, exec_agingCredit s, ?_, fun n k hnk => onGroup_other _ _ _ _ _ _ hnk⟩
    rw [State.group_onGroup, if_pos ⟨rfl, rfl, hhas⟩, if_neg (Nat.not_lt.mpr hage)]
  case fill =>
    intro s core ctx line p bs hp hh ho1 ho2 hm hb w
    have touched : Touched false s w := .walked _ _ _ _ rfl
    have he : exec (.instructionCacheFill core ctx line) s = .next (w.onCore core (fun k =>
        { k with ic := trimTo Config.icLines (s.free 11) (put (icKey ctx (icLine line)) bs k.ic) })) := by
      rw [exec_instructionCacheFill, execInstructionCacheFill]
      simp only [hp, hh, ho1, ho2, hm, hb, Bool.or_self, Bool.false_eq_true, if_false, Option.isSome_none]
      rfl
    have own (f : Core → Core) : (w.onCore core f).core core = f (w.core core) := (State.core_onCore _ _ _ _).trans (if_pos rfl)
    refine ⟨_, he, rfl, (Alike.walked _ _ _ _ rfl).mem, fun k hk => (State.core_onCore _ _ _ _).trans (if_neg hk), by rw [own], fun hlen k => ?_⟩
    · have ic : (w.core core).ic = (s.core core).ic := by rw [touched.core core]
      rw [own, ic, trimTo_of_le _ ((length_put_le _ _ _).trans hlen)]
      exact find_put _ _ _ _
end

section
/-!
PROOF. Gangs placed, groups and grids that end (R39, R225, R313, R335).
-/
namespace Sys2Proof.Machine

/-! ### Gangs -/

/-- A team as the distributor places it: its core, its number and rank, its gang's size and number, its grid and context. -/
structure Placed (x : Team) (core no rank size grid ctx gang : Nat) : Prop where
  core : x.core = some core
  no : x.no = no
  rank : x.rank = rank
  size : x.gsize = size
  grid : x.grid = grid
  ctx : x.ctx = ctx
  gang : x.gang = gang

/-- What the teams started one after another leave: those that were there, and a new one for each core. -/
theorem startTeams (grid : Nat) (g : Grid) (gang n : Nat) (cs : List (Nat × Nat)) (s : State) :
    let t := cs.foldl (fun s (x : Nat × Nat) => s.startTeam grid g (g.next + x.2) gang x.2 n x.1) s
    t.mem = s.mem ∧ t.grids = s.grids ∧ (∀ k, (find k s.teams).isSome = true → find k t.teams = find k s.teams) ∧
    ∀ y ∈ cs, ∃ k x, find k s.teams = none ∧ find k t.teams = some x ∧ Placed x y.1 (g.next + y.2) y.2 n grid g.ctx gang := by
  induction cs generalizing s with
  | nil => exact ⟨rfl, rfl, fun _ _ => rfl, fun y hy => by cases hy⟩
  | cons z cs ih =>
    obtain ⟨hmem, hgrids, hold, hnew⟩ := ih (s.startTeam grid g (g.next + z.2) gang z.2 n z.1)
    have hfree := find_freeKey s.teams
    have kept : ∀ k, k ≠ freeKey s.teams →
        find k (s.startTeam grid g (g.next + z.2) gang z.2 n z.1).teams = find k s.teams :=
      fun k hk => (find_put _ _ _ _).trans (if_neg hk)
    obtain ⟨x, hx, hp⟩ : ∃ x, find (freeKey s.teams) (s.startTeam grid g (g.next + z.2) gang z.2 n z.1).teams = some x ∧
        Placed x z.1 (g.next + z.2) z.2 n grid g.ctx gang :=
      ⟨_, (find_put _ _ _ _).trans (if_pos rfl), rfl, rfl, rfl, rfl, rfl, rfl, rfl⟩
    refine ⟨hmem, hgrids, fun k hk => ?_, fun y hy => ?_⟩
    · have hk' := kept k (fun e => by rw [e, hfree] at hk; cases hk)
      exact (hold k (by rw [hk']; exact hk)).trans hk'
    · rcases List.mem_cons.mp hy with rfl | hy
      · exact ⟨_, x, hfree, (hold _ (by rw [hx]; rfl)).trans hx, hp⟩
      · obtain ⟨k, w, hk, hw⟩ := hnew y hy
        refine ⟨k, w, (kept k (fun e => ?_)).symm.trans hk, hw⟩
        rw [e, hx] at hk
        cases hk

theorem placeGang_places (s : State) (grid : Nat) (g : Grid) (cs : List Nat) :
    (∀ k, k < cs.length → ∃ n x, find n s.teams = none ∧ find n (s.placeGang grid g cs).teams = some x ∧ x.core = cs[k]? ∧
      x.no = g.next + k ∧ x.rank = k ∧ x.gsize = cs.length ∧ x.grid = grid ∧ x.ctx = g.ctx ∧ x.gang = g.gangs) ∧
    find grid (s.placeGang grid g cs).grids = some { g with
      next := g.next + cs.length, gangs := g.gangs + 1, live := g.live + cs.length
      queued := decide (g.next + cs.length < g.teams) } ∧
    (s.placeGang grid g cs).mem = s.mem := by
  obtain ⟨hmem, -, -, hnew⟩ := startTeams grid g g.gangs cs.length cs.zipIdx s
  refine ⟨fun k hk => ?_, (find_put _ _ _ _).trans (if_pos rfl), hmem⟩
  have hget : cs[k]? = some cs[k] := List.getElem?_eq_getElem hk
  obtain ⟨n, x, hn, hx, hp⟩ := hnew (cs[k], k) (List.mk_mem_zipIdx_iff_getElem?.mpr hget)
  exact ⟨n, x, hn, hx, hp.core.trans hget.symm, hp.no, hp.rank, hp.size, hp.grid, hp.ctx, hp.gang⟩

/-- The distributor with nothing before the next gang of the first grid. -/
theorem exec_gangPlacement_next {s : State} {part c id : Nat} {p : Part} {g : Grid} (hp : find part s.parts = some p)
    (hrun : p.running = some c) (hst : (s.ctx c).st = .running) (hh : p.halting = false) (hs : p.swapping = false)
    (hd : p.halted = false) (hw : p.waits = false) (hu : s.unplaced c = false) (hg : s.firstGrid c = some (id, g)) :
    exec (.gangPlacement part) s = .next (match s.nextGang p g with
      | none => { s with parts := adjust part (fun p => { p with waits := true }) s.parts }
      | some cs => s.placeGang id g cs) := by
  rw [exec_gangPlacement, execGangPlacement]
  simp only [hp, hrun, hst, hh, hs, hd, hw, hu, hg, Bool.or_self, bne_self_eq_false, Bool.false_eq_true, if_false]
    <;> cases s.nextGang p g <;> rfl

/-! ### Groups and grids that end -/

theorem endGroup_normal {s : State} {team grp : Nat} (h : (s.group team grp).sort = .normal)
    (ht : (find team s.teams).isSome = true) : (s.endGroup team grp).mem = s.mem ∧
    (s.endGroup team grp).team team = { s.team team with ended := (s.team team).ended + 1, groups := del grp (s.team team).groups } ∧
    ∀ n, n ≠ team → (s.endGroup team grp).team n = s.team n := by
  obtain ⟨u, hu, hteams, hmem⟩ : ∃ u : State, s.endGroup team grp = (u.onTeam team (fun t => { t with ended := t.ended + 1 })).onTeam
      team (fun t => { t with groups := del grp t.groups }) ∧ u.teams = s.teams ∧ u.mem = s.mem := by
    refine ⟨{ s with ops := s.ops.filter (fun o => !(o.2.team == team && o.2.grp == grp)) }, ?_, rfl, rfl⟩
    unfold State.endGroup
    simp only [h]
  have hteam : u.team = s.team := by unfold State.team; rw [hteams]
  rw [hu]
  refine ⟨hmem, ?_, fun n hn => ?_⟩
  · have h1 : (u.onTeam team (fun t => { t with ended := t.ended + 1 })).team team =
        { s.team team with ended := (s.team team).ended + 1 } := by
      rw [State.team_onTeam, if_pos ⟨rfl, by rw [hteams]; exact ht⟩, hteam]
    have h2 : (find team (u.onTeam team (fun t => { t with ended := t.ended + 1 })).teams).isSome = true := by
      rw [show find team (u.onTeam team _).teams = _ from find_adjust _ _ _ _, if_pos rfl, Option.isSome_map, hteams]
      exact ht
    rw [State.team_onTeam, if_pos ⟨rfl, h2⟩, h1]
  · rw [State.team_onTeam, if_neg (fun e => hn e.1), State.team_onTeam, if_neg (fun e => hn e.1), hteam]

theorem endTeam_rest (s : State) (team : Nat) : (s.endTeam team).mem = s.mem ∧
    (find team (s.endTeam team).teams = none ∨ (s.endTeam team).teams = s.teams) ∧
    ∀ n, n ≠ team → (s.endTeam team).team n = s.team n := by
  unfold State.endTeam
  split
  · exact ⟨rfl, .inl ((find_del _ _ _).trans (if_pos rfl)), fun n hn => (get_del _ _ _ _).trans (if_neg hn)⟩
  · exact ⟨rfl, .inr rfl, fun _ _ => rfl⟩

/-- From s to t nothing of a group changes but its timestamp, and no grid. -/
structure Descends (s t : State) : Prop where
  grids : t.grids = s.grids
  group : ∀ n k, t.group n k = { s.group n k with gts := (t.group n k).gts }

theorem Touched.descends {b : Bool} {s t : State} (h : Touched b s t) : Descends s t := ⟨by rw [h.rest], h.group⟩

theorem Descends.of_fields {s t : State} (hg : t.grids = s.grids) (ht : t.teams = s.teams) : Descends s t := by
  have h : t.group = s.group := by unfold State.group State.team; rw [ht]
  exact ⟨hg, fun n k => by rw [h]⟩

theorem Descends.trans {s t u : State} (h : Descends s t) (k : Descends t u) : Descends s u :=
  ⟨k.grids.trans h.grids, fun n j => by rw [k.group n j, h.group n j]⟩

theorem Descends.setCtxSt (s : State) (c : Nat) (st : CtxSt) : Descends s (s.setCtxSt c st) := by
  have hread : Descends s (s.readDesc c) := by
    unfold State.readDesc
    split <;> exact .of_fields rfl rfl
  have hwrite : ∀ u : State, Descends u (u.writeDesc c) := fun u => by
    unfold State.writeDesc
    split
    · exact .of_fields rfl rfl
    · exact (Touched.foldl (b := false) _ (fun s (w : Nat × Nat) => Touched.deviceStore s _ _ _) _ _).descends
  exact (hread.trans (.of_fields (t := (s.readDesc c).onCtx c (fun x => { x with st := st })) rfl rfl)).trans (hwrite _)

theorem Descends.ctxIdle (s : State) (c : Nat) : Descends s (s.ctxIdle c) := by
  unfold State.ctxIdle
  split
  · exact .of_fields rfl rfl
  · split
    · exact (Descends.setCtxSt s c .idle).trans (.of_fields rfl rfl)
    · exact .of_fields rfl rfl

/-- A grid that ends in s: its entry and the counter of its launch. -/
def State.gridOver (s : State) (grid : Nat) (g : Grid) : State :=
  match g.dc with
  | some k => { s with grids := del grid s.grids }.onGroup g.team g.grp (fun x =>
      if s.ctxOf g.team < 1024 then x.setD k (x.dreg k - 1) else { x with owed := set 0 k (get 0 k x.owed + 1) x.owed })
  | none => { s with grids := del grid s.grids }

theorem exec_gridCompletion_plain {s : State} {id : Nat} {g : Grid} (hg : find id s.grids = some g) (hc : g.complete = true)
    (hva : g.record.extractLsb' 288 64 = 0) : exec (.gridCompletion id) s = .next ((s.gridOver id g).ctxIdle g.ctx) := by
  rw [exec_gridCompletion, execGridCompletion]
  simp only [hg, hc, hva, bne_self_eq_false, Bool.not_true, Bool.false_and, Bool.or_self, Bool.false_eq_true, if_false, if_true]
  unfold State.gridOver
  cases g.dc <;> rfl

theorem gridOver_grids (s : State) (grid : Nat) (g : Grid) : (s.gridOver grid g).grids = del grid s.grids := by
  unfold State.gridOver
  split <;> rfl

theorem gridOver_dreg {s : State} {grid : Nat} {g : Grid} (h : s.has g.team g.grp = true) (hc : s.ctxOf g.team < 1024) (k : Nat) :
    ((s.gridOver grid g).group g.team g.grp).dreg k =
      if g.dc = some k then (s.group g.team g.grp).dreg k - 1 else (s.group g.team g.grp).dreg k := by
  unfold State.gridOver
  cases hd : g.dc with
  | none => rw [if_neg (by simp)]; rfl
  | some j =>
    rw [State.group_onGroup, if_pos ⟨rfl, rfl, h⟩]
    simp only [hc, if_true, Option.some.injEq]
    refine (get_set _ _ _ _ _).trans ?_
    by_cases hk : k = j
    · rw [hk, if_pos rfl, if_pos rfl]; rfl
    · rw [if_neg hk, if_neg (Ne.symm hk)]; rfl

theorem gridOver_owed {s : State} {grid : Nat} {g : Grid} (h : s.has g.team g.grp = true) (hc : 1024 ≤ s.ctxOf g.team) (k : Nat) :
    get 0 k ((s.gridOver grid g).group g.team g.grp).owed =
      get 0 k (s.group g.team g.grp).owed + (if g.dc = some k then 1 else 0) := by
  unfold State.gridOver
  cases hd : g.dc with
  | none => rw [if_neg (by simp)]; rfl
  | some j =>
    rw [State.group_onGroup, if_pos ⟨rfl, rfl, h⟩]
    simp only [Nat.not_lt.mpr hc, if_false, Option.some.injEq]
    refine (get_set _ _ _ _ _).trans ?_
    by_cases hk : k = j
    · rw [hk, if_pos rfl, if_pos rfl]; rfl
    · rw [if_neg hk, if_neg (Ne.symm hk)]; rfl

end Sys2Proof.Machine
end

section
/-!
PROOF. Extra groups that an engine or a rasteriser starts (R26, R171, R300), and the obligation about placement and ends.
-/
namespace Sys2Proof.Machine

/-! ### Tables written entry by entry -/

theorem get_foldl_set {α β : Type} [DecidableEq α] (d : α) (key : β → Nat) (val : β → α) (j : Nat) (w : α) (l : List β)
    (h : ∀ x ∈ l, key x = j → val x = w) (m : SMap α) :
    get d j (l.foldl (fun m x => set d (key x) (val x) m) m) = if ∃ x ∈ l, key x = j then w else get d j m := by
  induction l generalizing m with
  | nil => simp
  | cons x l ih =>
    rw [List.foldl_cons, ih (fun y hy => h y (List.mem_cons_of_mem _ hy)), get_set]
    by_cases hl : ∃ y ∈ l, key y = j
    · obtain ⟨y, hy, hk⟩ := hl
      rw [if_pos ⟨y, hy, hk⟩, if_pos ⟨y, List.mem_cons_of_mem _ hy, hk⟩]
    · rw [if_neg hl]
      by_cases hx : j = key x
      · rw [if_pos hx, if_pos ⟨x, List.mem_cons_self, hx.symm⟩, h x List.mem_cons_self hx.symm]
      · refine (if_neg hx).trans (if_neg ?_).symm
        rintro ⟨y, hy, hk⟩
        rcases List.mem_cons.mp hy with rfl | hy
        · exact hx hk.symm
        · exact hl ⟨y, hy, hk⟩

theorem get_foldl_set_lanes {α : Type} [DecidableEq α] (d w : α) (m : Lanes) (j : Nat) (hj : j < 64) (q : SMap α) :
    get d j ((lanesOf m).foldl (fun p i => set d i w p) q) = if m.getLsbD j = true then w else get d j q := by
  rw [← if_mem_lanesOf m j hj]
  refine (get_foldl_set d (fun i => i) (fun _ => w) j w _ (fun _ _ _ => rfl) q).trans ?_
  simp

theorem getLsbD_lowMask {n j : Nat} (hn : n ≤ 64) : (lowMask n).getLsbD j = decide (j < n) := by
  unfold lowMask
  rw [BitVec.getLsbD_ofNat, Nat.testBit_two_pow_sub_one]
  by_cases h : j < n
  · simp [h, Nat.lt_of_lt_of_le h hn]
  · simp [h]

/-! ### Sweep groups -/

theorem Touched.loadAt {s t : State} {a : Agent} {unit : Bool} {va : Word} {n v : Nat} (ha : a.op = none)
    (h : s.loadAt a unit va n = .ok (v, t)) : Touched true s t := by
  unfold State.loadAt at h
  split at h
  · cases h
  · split at h
    · cases h
    · obtain rfl : _ = t := congrArg Prod.snd (Except.ok.inj h)
      exact (Touched.walked _ _ _ _ ha).trans (Touched.load _ _ _ _ _ _)

theorem Touched.loadsAt {a : Agent} (ha : a.op = none) (unit : Bool) (n : Nat) : ∀ (s : State) (va : Word) (ws : List Nat) (t : State),
    State.loadsAt a unit s va n = .ok (ws, t) → Touched true s t := by
  induction n with
  | zero => intro s va ws t h; cases h; exact .refl _ _
  | succ n ih =>
    intro s va ws t h
    unfold State.loadsAt at h
    split at h
    · cases h
    · next w u hu =>
      split at h
      · cases h
      · next vs r hr =>
        cases h
        exact (Touched.loadAt ha hu).trans (ih _ _ _ _ hr)

theorem Touched.parcelRegs {s t : State} {a : Agent} (ha : a.op = none) {r : BitVec 768} {i : Nat} {ws : List Nat}
    (h : s.parcelRegs a r i = .ok (ws, t)) : Touched true s t := by
  unfold State.parcelRegs at h
  simp only [bind, Except.bind] at h
  split at h
  · cases h
  · next vs hvs =>
    split at h
    · cases h
    · next v hv =>
      cases h
      exact (Touched.loadsAt ha _ _ _ _ _ _ hvs).trans (Touched.loadAt ha hv)

theorem Touched.foldlM {α β : Type} {b : Bool} (f : α × State → β → Except Stop (α × State))
    (h : ∀ p x q, f p x = .ok q → Touched b p.2 q.2) (l : List β) : ∀ p q, l.foldlM f p = .ok q → Touched b p.2 q.2 := by
  induction l with
  | nil => intro p q hq; cases hq; exact .refl _ _
  | cons x l ih =>
    intro p q hq
    rw [List.foldlM_cons] at hq
    simp only [bind, Except.bind] at hq
    split at hq
    · cases hq
    · next r hr => exact (h p x r hr).trans (ih r q hq)

theorem Touched.formRegs {s t : State} {a : Agent} (ha : a.op = none) {r : BitVec 768} {is : List Nat} {vs : SMap Word}
    (h : s.formRegs a r is = .ok (vs, t)) : Touched true s t := by
  unfold State.formRegs at h
  refine Touched.foldlM _ (fun p x q hq => ?_) is.zipIdx _ _ h
  simp only [bind, Except.bind] at hq
  split at hq
  · cases hq
  · next w hw =>
    cases hq
    exact Touched.parcelRegs ha hw

/-- A team on a core is still there after accesses. -/
theorem Touched.team_there {b : Bool} {s t : State} (h : Touched b s t) {n : Nat} (hc : (s.team n).core ≠ none) :
    (find n t.teams).isSome = true := by
  have hcore : (t.team n).core = (s.team n).core := by rw [h.team n]
  cases hf : find n t.teams with
  | some x => rfl
  | none =>
    have hz : t.team n = Team.zero := by unfold State.team get; rw [hf]; rfl
    rw [hz] at hcore
    exact absurd hcore.symm hc

theorem core_of_extraRoom {s : State} {team width rows n : Nat} (h : s.extraRoom team width rows = some n) :
    (s.team team).core ≠ none := by
  intro hc
  unfold State.extraRoom at h
  simp only [hc] at h
  cases h

section newSweepGroup

variable (s : State) (w : Sweep) (sw rank q vcnt rows : Nat) (x : Engine) (entry : Word) (is : List Nat) (vs : SMap Word)

/-- A sweep group's registers and lanes at its start (R171). -/
theorem newSweepGroup_start (hl : is.length ≤ 32) : let G := s.newSweepGroup w sw rank q vcnt rows x entry is vs
    G.width = 32 ∧ G.n = vcnt ∧ (∀ i, i < 64 → G.state i = if i < is.length then 1 else 0) ∧
    (∀ i, i < is.length → G.lanePc i = entry ∧ (∀ r, G.vreg r i = get 0 (r * 64 + i) vs)) ∧
    G.sreg 3 = w.handle ∧ G.sreg 4 = BitVec.ofNat 64 x.cc ∧ G.sreg 5 = BitVec.ofNat 64 x.pass := by
  intro G
  have low : ∀ i, (lowMask is.length).getLsbD i = decide (i < is.length) := fun i => getLsbD_lowMask (by omega)
  refine ⟨rfl, rfl, fun i hi => ?_, fun i hi => ⟨?_, fun r => rfl⟩, ?_, ?_, ?_⟩
  · refine (get_foldl_set_lanes 0 1 (lowMask is.length) i hi []).trans ?_
    simp only [low, decide_eq_true_eq, get_nil]
  · refine (get_foldl_set_lanes 0 entry (lowMask is.length) i (by omega) []).trans ?_
    simp [low, hi]
  · refine (get_set _ _ _ _ _).trans ((if_neg (by decide)).trans ((get_set _ _ _ _ _).trans ((if_neg (by decide)).trans
      ((get_set _ _ _ _ _).trans (if_pos rfl)))))
  · exact (get_set _ _ _ _ _).trans ((if_neg (by decide)).trans ((get_set _ _ _ _ _).trans (if_pos rfl)))
  · exact (get_set _ _ _ _ _).trans (if_pos rfl)

end newSweepGroup

/-- The vector registers that a sweep's groups declare. -/
def State.sweepVcnt (s : State) (w : Sweep) (x : Engine) : Nat :=
  match s.headerOf x.team with
  | some h => (match h.roles[w.role]? with
    | some r => r.vcnt
    | none => 0)
  | none => 0

/-- The state in which a sweep group has started. -/
def State.sweepStarted (s : State) (w : Sweep) (sw rank n q vcnt : Nat) (x : Engine) (entry : Word) (is : List Nat)
    (vs : SMap Word) (rest : List (Word × List Nat)) : State :=
  (s.onTeam x.team (fun t => { t with
    groups := put n (s.newSweepGroup w sw rank q vcnt (groupRows vcnt 32) x entry is vs) t.groups })).onEngine sw rank
    (fun x => { x with formed := rest, places := put q n x.places })

theorem exec_extraGroupStart_sweep {s t : State} {sw rank n q : Nat} {w : Sweep} {x : Engine} {entry : Word} {is : List Nat}
    {rest : List (Word × List Nat)} {vs : SMap Word} (hw : find sw s.sweeps = some w) (hx : find rank w.engines = some x)
    (hr : s.engineRuns w x = true) (hf : x.formed = (entry, is) :: rest)
    (hn : s.extraRoom x.team 32 (groupRows (s.sweepVcnt w x) 32) = some n) (hq : s.freePlace x.team = some q)
    (hv : s.formRegs (s.sweepAgent w x) w.record is = .ok (vs, t)) :
    exec (.extraGroupStart true sw rank) s = .next (t.sweepStarted w sw rank n q (s.sweepVcnt w x) x entry is vs rest) := by
  rw [exec_extraGroupStart, execExtraGroupStart, if_pos rfl]
  have he : s.engine sw rank = some x := by unfold State.engine; rw [hw]; exact hx
  unfold State.sweepGroup
  simp only [hw, he, hf, hq]
  split
  · next heq hroom hplace =>
    cases heq
    cases hplace
    obtain rfl := Option.some.inj (hn.symm.trans hroom)
    unfold State.engineTry
    simp only [hr, hv, Bool.not_true, Bool.false_eq_true, if_false, bind, Except.bind]
    rfl
  · next h => exact absurd rfl (h entry is rest n q rfl hn)

theorem sweepStarted_engine {s : State} {w : Sweep} {sw rank : Nat} {x : Engine} (hw : find sw s.sweeps = some w)
    (hx : find rank w.engines = some x) (n q vcnt : Nat) (entry : Word) (is : List Nat) (vs : SMap Word)
    (rest : List (Word × List Nat)) :
    (find sw (s.sweepStarted w sw rank n q vcnt x entry is vs rest).sweeps).bind (fun w => find rank w.engines) =
      some { x with formed := rest, places := put q n x.places } := by
  have h1 : find sw (s.sweepStarted w sw rank n q vcnt x entry is vs rest).sweeps =
      some { w with engines := adjust rank (fun x => { x with formed := rest, places := put q n x.places }) w.engines } := by
    refine (find_adjust _ _ _ _).trans ((if_pos rfl).trans ?_)
    rw [State.onTeam_sweeps, hw]; rfl
  rw [h1]
  refine (find_adjust _ _ _ _).trans ((if_pos rfl).trans ?_)
  rw [hx]; rfl

theorem sweepStarted_group {s : State} {w : Sweep} {sw rank n q vcnt : Nat} {x : Engine} {entry : Word} {is : List Nat}
    {vs : SMap Word} {rest : List (Word × List Nat)} (ht : (find x.team s.teams).isSome = true) :
    find n ((s.sweepStarted w sw rank n q vcnt x entry is vs rest).team x.team).groups =
      some (s.newSweepGroup w sw rank q vcnt (groupRows vcnt 32) x entry is vs) := by
  have h : (s.sweepStarted w sw rank n q vcnt x entry is vs rest).team x.team = { s.team x.team with
      groups := put n (s.newSweepGroup w sw rank q vcnt (groupRows vcnt 32) x entry is vs) (s.team x.team).groups } :=
    (State.team_onTeam _ _ _ _).trans (if_pos ⟨rfl, ht⟩)
  rw [h]
  exact (find_put _ _ _ _).trans (if_pos rfl)

end Sys2Proof.Machine
end

section
/-!
PROOF. Fragment groups of a rasteriser (R26, R142, R300), and the obligation about placement, ends and extra groups.
-/
namespace Sys2Proof.Machine

/-! ### The lanes of quads -/

/-- The lanes that quads give a fragment group: lane, pixel, covered. -/
def fragLanes (qs : List (Nat × Nat × Nat)) : List (Nat × (Nat × Nat) × Bool) :=
  qs.zipIdx.flatMap (fun (x : (Nat × Nat × Nat) × Nat) =>
    (quadPixels x.1).zipIdx.map (fun (y : (Nat × Nat) × Nat) => (4 * x.2 + y.2, y.1, x.1.2.2 / 2 ^ y.2 % 2 == 1)))

theorem mem_fragLanes {qs : List (Nat × Nat × Nat)} {x : Nat × (Nat × Nat) × Bool} (h : x ∈ fragLanes qs) :
    x.1 < 4 * qs.length ∧ (quadPixels (qs.getD (x.1 / 4) (0, 0, 0)))[x.1 % 4]? = some x.2.1 ∧
    x.2.2 = (qs.getD (x.1 / 4) (0, 0, 0)).2.2.testBit (x.1 % 4) := by
  unfold fragLanes at h
  rw [List.mem_flatMap] at h
  obtain ⟨⟨q, k⟩, hq, hx⟩ := h
  rw [List.mem_map] at hx
  obtain ⟨⟨p, j⟩, hp, rfl⟩ := hx
  rw [List.mk_mem_zipIdx_iff_getElem?] at hq hp
  obtain ⟨hk, -⟩ := List.getElem?_eq_some_iff.mp hq
  obtain ⟨hj, -⟩ := List.getElem?_eq_some_iff.mp hp
  have hj : j < 4 := hj
  have hdiv : (4 * k + j) / 4 = k := by omega
  have hmod : (4 * k + j) % 4 = j := by omega
  dsimp only
  rw [hdiv, hmod, List.getD_eq_getElem?_getD, hq]
  refine ⟨by omega, hp, ?_⟩
  simp [Nat.testBit_eq_decide_div_mod_eq, beq_eq_decide]

theorem fragLanes_complete (qs : List (Nat × Nat × Nat)) {i : Nat} (h : i < 4 * qs.length) : ∃ x ∈ fragLanes qs, x.1 = i := by
  have hk : i / 4 < qs.length := by omega
  have hj : i % 4 < (quadPixels qs[i / 4]).length := Nat.mod_lt _ (by decide)
  refine ⟨(4 * (i / 4) + i % 4, (quadPixels qs[i / 4])[i % 4], qs[i / 4].2.2 / 2 ^ (i % 4) % 2 == 1), ?_, by dsimp only; omega⟩
  unfold fragLanes
  rw [List.mem_flatMap]
  refine ⟨(qs[i / 4], i / 4), List.mk_mem_zipIdx_iff_getElem?.mpr (List.getElem?_eq_getElem hk), ?_⟩
  exact List.mem_map.mpr ⟨((quadPixels qs[i / 4])[i % 4], i % 4),
    List.mk_mem_zipIdx_iff_getElem?.mpr (List.getElem?_eq_getElem hj), rfl⟩

theorem exists_fragLanes (qs : List (Nat × Nat × Nat)) (i : Nat) : (∃ x ∈ fragLanes qs, x.1 = i) ↔ i < 4 * qs.length :=
  ⟨fun ⟨_, hx, hi⟩ => hi ▸ (mem_fragLanes hx).1, fragLanes_complete qs⟩

theorem getLsbD_foldl_bits {β : Type} (key : β → Nat) (p : β → Bool) (j : Nat) (hj : j < 64) (l : List β) (m : Lanes) :
    (l.foldl (fun m x => if p x then m ||| laneBit (key x) else m) m).getLsbD j =
      (m.getLsbD j || l.any (fun x => p x && key x == j)) := by
  induction l generalizing m with
  | nil => simp
  | cons x l ih =>
    rw [List.foldl_cons, ih, List.any_cons]
    split
    · next hp => rw [BitVec.getLsbD_or, getLsbD_laneBit _ _ hj, hp, Bool.true_and, Bool.or_assoc, beq_eq_decide]
    · next hp => rw [Bool.eq_false_iff.mpr hp, Bool.false_and, Bool.false_or]

/-! ### A fragment group at its start -/

/-- The lanes of a fragment group, and those whose pixel is covered. -/
def fragMask (qs : List (Nat × Nat × Nat)) : Lanes := (fragLanes qs).foldl (fun m x => m ||| laneBit x.1) 0
def fragCovered (qs : List (Nat × Nat × Nat)) : Lanes := (fragLanes qs).foldl (fun m x => if x.2.2 then m ||| laneBit x.1 else m) 0

theorem getLsbD_fragMask (qs : List (Nat × Nat × Nat)) {i : Nat} (hi : i < 64) :
    (fragMask qs).getLsbD i = decide (i < 4 * qs.length) := by
  have h := getLsbD_foldl_bits (fun x : Nat × (Nat × Nat) × Bool => x.1) (fun _ => true) i hi (fragLanes qs) 0
  simp only [if_true, Bool.true_and] at h
  refine h.trans ?_
  rw [Bool.eq_iff_iff, decide_eq_true_eq, ← exists_fragLanes]
  simp

theorem getLsbD_fragCovered {qs : List (Nat × Nat × Nat)} {i : Nat} (hi : i < 64) (hl : i < 4 * qs.length) :
    (fragCovered qs).getLsbD i = (qs.getD (i / 4) (0, 0, 0)).2.2.testBit (i % 4) := by
  refine (getLsbD_foldl_bits (fun x : Nat × (Nat × Nat) × Bool => x.1) (fun x => x.2.2) i hi (fragLanes qs) 0).trans ?_
  rw [show BitVec.getLsbD (0 : Lanes) i = false from BitVec.getLsbD_zero, Bool.false_or, Bool.eq_iff_iff, List.any_eq_true]
  constructor
  · rintro ⟨x, hx, hb⟩
    rw [Bool.and_eq_true, beq_iff_eq] at hb
    obtain ⟨-, -, hc⟩ := mem_fragLanes hx
    rw [← hb.2, ← hc]
    exact hb.1
  · intro hb
    obtain ⟨x, hx, rfl⟩ := fragLanes_complete qs hl
    obtain ⟨-, -, hc⟩ := mem_fragLanes hx
    exact ⟨x, hx, by rw [hc, hb]; simp⟩

/-- What a fragment group is given at its start (R142, R300). -/
structure FragStart (s : State) (G : Group) (h : Header) (vcnt : Nat) (r : RastOp) (y : Tri) (qs : List (Nat × Nat × Nat)) : Prop where
  width : G.width = h.width
  n : G.n = vcnt
  v : G.v = (fragLanes qs).foldl (fun v x => (s.fragRegs r y x.1 x.2.1 x.2.2).foldl (fun v y => set 0 y.1 y.2 v) v) []
  p : G.p = (fragLanes qs).foldl (fun p x => set 0 x.1 ((if x.2.2 then 1 else 0) + (if y.back then 2 else 0)) p) []
  addr : G.sreg 3 = r.addr
  tri : G.sreg 4 = BitVec.ofNat 64 r.tri
  helper : G.helper = fragMask qs &&& ~~~fragCovered qs
  st : G.st = (lanesOf (fragMask qs)).foldl (fun p i => set 0 i 1 p) []

/-- Its lanes: ready where a quad gives one, with its pixel, its cover and its facing. -/
theorem FragStart.lane {s : State} {G : Group} {h : Header} {vcnt : Nat} {r : RastOp} {y : Tri} {qs : List (Nat × Nat × Nat)}
    (hG : FragStart s G h vcnt r y qs) {i : Nat} (hi : i < 64) : G.state i = (if i < 4 * qs.length then 1 else 0) ∧
    (i < 4 * qs.length → (G.helper.getLsbD i = !(qs.getD (i / 4) (0, 0, 0)).2.2.testBit (i % 4)) ∧
      G.preg 0 i = (qs.getD (i / 4) (0, 0, 0)).2.2.testBit (i % 4) ∧ G.preg 1 i = y.back ∧
      ∀ p, (quadPixels (qs.getD (i / 4) (0, 0, 0)))[i % 4]? = some p → G.vreg 0 i = BitVec.ofNat 64 (p.1 + p.2 * 2 ^ 32)) := by
  refine ⟨?_, fun hl => ?_⟩
  · unfold Group.state
    rw [hG.st, get_foldl_set_lanes _ _ _ _ hi, getLsbD_fragMask qs hi]
    simp
  have here : ∃ x ∈ fragLanes qs, x.1 = i := fragLanes_complete qs hl
  have preds : get 0 i G.p = (if (qs.getD (i / 4) (0, 0, 0)).2.2.testBit (i % 4) then 1 else 0) + (if y.back then 2 else 0) := by
    rw [hG.p]
    refine (get_foldl_set 0 (fun x : Nat × (Nat × Nat) × Bool => x.1) _ i _ _ (fun x hx hk => ?_) _).trans (if_pos here)
    rw [(mem_fragLanes hx).2.2, hk]
  refine ⟨?_, ?_, ?_, fun p hp => ?_⟩
  · rw [hG.helper, BitVec.getLsbD_and, BitVec.getLsbD_not, getLsbD_fragMask qs hi, getLsbD_fragCovered hi hl]
    simp [hl, hi]
  · unfold Group.preg
    rw [preds]
    cases (qs.getD (i / 4) (0, 0, 0)).2.2.testBit (i % 4) <;> cases y.back <;> decide
  · unfold Group.preg
    rw [preds]
    cases (qs.getD (i / 4) (0, 0, 0)).2.2.testBit (i % 4) <;> cases y.back <;> decide
  · unfold Group.vreg
    rw [hG.v, ← List.foldl_flatMap, Nat.zero_mul, Nat.zero_add]
    refine (get_foldl_set 0 (fun e : Nat × Word => e.1) (fun e => e.2) i _ _ (fun e he hk => ?_) _).trans (if_pos ?_)
    · obtain ⟨x, hx, he⟩ := List.mem_flatMap.mp he
      unfold State.fragRegs at he
      rcases List.mem_cons.mp he with rfl | he
      · obtain rfl : x.1 = i := hk
        rw [(mem_fragLanes hx).2.1] at hp
        cases hp
        rfl
      · rcases List.mem_cons.mp he with rfl | he
        · exact absurd hk (by dsimp only; omega)
        · rw [List.mem_singleton] at he
          subst he
          exact absurd hk (by dsimp only; omega)
    · obtain ⟨x, hx, hk⟩ := here
      exact ⟨_, List.mem_flatMap.mpr ⟨x, hx, List.mem_cons_self⟩, hk⟩

/-- The stream once a fragment group has its quads. -/
def RastOp.placed (r : RastOp) (q n : Nat) (rest : List (Nat × Nat × Nat)) : RastOp :=
  match rest with
  | [] => { r with places := put q n r.places, quads := [] }.next
  | x :: xs => { r with places := put q n r.places, quads := x :: xs, px := x.1, py := x.2.1 }

theorem exec_extraGroupStart_frag {s : State} {id : Nat} {o : Op} {r : RastOp} {h : Header} {y : Tri} {role : Role} {n q : Nat}
    (ho : find id s.ops = some o) (hb : o.body = .rast r) (hp : o.park = none) (hs : r.stage = 2) (hq : r.quads ≠ [])
    (hy : r.setup = some y) (hh : s.headerOf o.team = some h) (hrole : h.roles[r.role]? = some role)
    (hn : s.extraRoom o.team h.width (groupRows role.vcnt h.width) = some n)
    (hplace : (List.range 4).find? (fun q => (find q r.places).isNone) = some q) :
    ∃ G, FragStart s G h role.vcnt r y (r.quads.take (h.width / 4)) ∧ exec (.extraGroupStart false id 0) s = .next
      ((s.onTeam o.team (fun t => { t with groups := put n G t.groups })).onRast id (r.placed q n (r.quads.drop (h.width / 4)))) := by
  have hempty : r.quads.isEmpty = false := by simpa using hq
  rw [exec_extraGroupStart, execExtraGroupStart, if_neg (by decide)]
  unfold State.fragGroup
  simp only [ho, hb, hh, hy, hrole, hn, hplace, hp, hs, hempty, Option.isSome_none, bne_self_eq_false, Bool.or_self,
    Bool.false_eq_true, if_false]
  refine ⟨?G, ?fields, ?next⟩
  case next =>
    cases r.quads.drop (h.width / 4) with
    | nil => rfl
    | cons x xs =>
      unfold RastOp.placed
      dsimp only
      rw [hy, hs]
  case fields =>
    exact ⟨rfl, rfl, rfl, rfl, (get_set _ _ _ _ _).trans ((if_neg (by decide)).trans ((get_set _ _ _ _ _).trans (if_pos rfl))),
      (get_set _ _ _ _ _).trans (if_pos rfl), rfl, rfl⟩

end Sys2Proof.Machine

open Sys2Proof Sys2Proof.Machine

/-- Settles O53: the distributor's placement, the ends of groups and grids, and the two starts of extra groups. -/
theorem placementAndEndsComplete : Obligations.PlacementAndEndsComplete := by
  refine fun s => ⟨?gang, ?groupEnds, ?gridEnds, ?sweep, ?frag⟩
  case gang =>
    intro part p c id g hp hrun hst hh hs hd hw hu hg
    have he := exec_gangPlacement_next hp hrun hst hh hs hd hw hu hg
    refine ⟨fun cs hcs => ⟨_, he.trans (by rw [hcs]), placeGang_places s id g cs⟩, fun hnone => he.trans (by rw [hnone])⟩
  case groupEnds =>
    intro team grp hover hsort ht
    obtain ⟨hmem, hteam, hothers⟩ := endGroup_normal hsort ht
    obtain ⟨hmem', hends, hothers'⟩ := endTeam_rest (s.endGroup team grp) team
    refine ⟨(s.endGroup team grp).endTeam team, ?_, hmem'.trans hmem, ?_, fun n hn => (hothers' n hn).trans (hothers n hn)⟩
    · rw [exec_groupEnd, execGroupEnd, if_pos hover]
    · refine hends.imp_right (fun hsame => ?_)
      have hnow : ((s.endGroup team grp).endTeam team).team team = (s.endGroup team grp).team team := by
        unfold State.team; rw [hsame]
      rw [hnow, hteam]
      exact ⟨(find_del _ _ _).trans (if_pos rfl), rfl⟩
  case gridEnds =>
    intro id g hg hc hva hhas
    have hd := Descends.ctxIdle (s.gridOver id g) g.ctx
    have hgrids := hd.grids.trans (gridOver_grids s id g)
    refine ⟨_, exec_gridCompletion_plain hg hc hva, ?_, fun j hj => ?_, fun hlt k => ?_, fun hle k => ?_⟩
    · rw [hgrids, find_del, if_pos rfl]
    · rw [hgrids, find_del, if_neg hj]
    · rw [hd.group]
      exact gridOver_dreg hhas hlt k
    · rw [hd.group]
      exact gridOver_owed hhas hle k
  case sweep =>
    intro sw rank w x n q entry is rest vs t0 hw hx hr hf hl vcnt hn hq hv ht
    have touched : Touched true s t0 := Touched.formRegs rfl hv
    have hw0 : find sw t0.sweeps = some w := by rw [touched.rest]; exact hw
    have hthere := touched.team_there (core_of_extraRoom hn)
    obtain ⟨hwidth, hvcnt, hstate, hlanes, h3, h4, h5⟩ :=
      newSweepGroup_start t0 w sw rank q vcnt (groupRows vcnt 32) x entry is vs hl
    exact ⟨_, exec_extraGroupStart_sweep hw hx hr hf hn hq hv, rfl, _, sweepStarted_group hthere, hwidth, hvcnt, hstate, hlanes, h3,
      h4, h5, _, sweepStarted_engine hw0 hx n q vcnt entry is vs rest, rfl, (find_put _ _ _ _).trans (if_pos rfl)⟩
  case frag =>
    intro id o r h y role n q ho hb hp hs hq hy hh hrole ht hn hplace qs covered
    obtain ⟨G, hG, he⟩ := exec_extraGroupStart_frag ho hb hp hs hq hy hh hrole hn hplace
    refine ⟨_, he, rfl, G, ?_, hG.width, hG.n, hG.addr, hG.tri, fun i hi _ => hG.lane hi, r.placed q n (r.quads.drop (h.width / 4)),
      ?_, ?_, ?_⟩
    · have hteam : (((s.onTeam o.team (fun t => { t with groups := put n G t.groups })).onRast id
          (r.placed q n (r.quads.drop (h.width / 4)))).team o.team).groups = put n G (s.team o.team).groups :=
        congrArg Team.groups ((State.team_onTeam _ _ _ _).trans (if_pos ⟨rfl, ht⟩))
      rw [hteam]
      exact (find_put _ _ _ _).trans (if_pos rfl)
    · have hop : find id ((s.onTeam o.team (fun t => { t with groups := put n G t.groups })).onRast id
          (r.placed q n (r.quads.drop (h.width / 4)))).ops =
            some { o with body := .rast (r.placed q n (r.quads.drop (h.width / 4))) } := by
        refine (find_adjust _ _ _ _).trans ((if_pos rfl).trans ?_)
        rw [State.onTeam_ops, ho]; rfl
      rw [hop]; rfl
    · cases r.quads.drop (h.width / 4) <;> exact (find_put _ _ _ _).trans (if_pos rfl)
    · cases r.quads.drop (h.width / 4) with
      | nil => exact ⟨fun hne => absurd rfl hne, fun _ => ⟨rfl, rfl, rfl⟩⟩
      | cons x xs => exact ⟨fun _ => ⟨rfl, rfl⟩, fun he => by cases he⟩
end

section
/-!
PROOF. A copy holds the translations of the pages that it reads from their first use on (R350): the refutation of the obligation
about storage events, which has a row leave everything of its operation but the copy's body as it was.
-/
namespace Sys2Proof.Machine

/-- An operation is there and holds a translation. -/
def State.Holding (s : State) (id : Nat) : Prop := ∃ o, find id s.ops = some o ∧ o.pages ≠ []

theorem State.Holding.of_ops {s t : State} {id : Nat} (h : s.Holding id) (e : t.ops = s.ops) : t.Holding id := by
  unfold State.Holding
  rw [e]
  exact h

theorem Touched.ops {b : Bool} {s t : State} (h : Touched b s t) : t.ops = s.ops := by rw [h.rest]

theorem ops_foldl {α : Type} (f : State → α → State) (h : ∀ s y, (f s y).ops = s.ops) (l : List α) (s : State) :
    (l.foldl f s).ops = s.ops := by
  induction l generalizing s with
  | nil => rfl
  | cons y l ih => exact (ih _).trans (h s y)

theorem put_ne_nil {α : Type} (k : Nat) (v : α) (m : SMap α) : put k v m ≠ [] := by
  intro h
  have := find_put k k v m
  rw [h, if_pos rfl] at this
  cases this

/-- An operation changed without losing its translations. -/
theorem State.Holding.onOp {s : State} {id : Nat} (h : s.Holding id) (j : Nat) (f : Op → Op)
    (hf : ∀ o, o.pages ≠ [] → (f o).pages ≠ []) : (s.onOp j f).Holding id := by
  obtain ⟨o, ho, hp⟩ := h
  have e : find id (s.onOp j f).ops = if id = j then (find id s.ops).map f else find id s.ops := find_adjust _ _ _ _
  by_cases hj : id = j
  · exact ⟨f o, by rw [e, if_pos hj, ho]; rfl, hf o hp⟩
  · exact ⟨o, by rw [e, if_neg hj, ho], hp⟩

theorem State.Holding.holdLeaf {s : State} {id : Nat} (h : s.Holding id) (op : Option Nat) (key : Nat) (f : Leaf) :
    (s.holdLeaf op key f).Holding id := by
  unfold State.holdLeaf
  split
  · exact h
  · split
    · exact h
    · exact h.onOp _ _ (fun _ _ => put_ne_nil _ _ _)

/-- The first use of a page gives the operation its translation. -/
theorem holding_holdLeaf {s : State} {id : Nat} (h : (find id s.ops).isSome = true) (key : Nat) (f : Leaf) :
    (s.holdLeaf (some id) key f).Holding id := by
  obtain ⟨o, ho⟩ := Option.isSome_iff_exists.mp h
  unfold State.holdLeaf
  dsimp only
  split
  · next hk =>
    refine ⟨o, ho, fun hn => ?_⟩
    unfold State.heldLeaf at hk
    simp [ho, hn] at hk
  · exact ⟨_, (find_adjust _ _ _ _).trans ((if_pos rfl).trans (by rw [ho]; rfl)), put_ne_nil _ _ _⟩

/-- After it has asked for the place and held the leaf, a translation leaves the operations alone. -/
theorem ops_walked (s : State) (a : Agent) (va : Word) (p : Spot) :
    (s.walked a va p).ops = ((s.demand a.core p).holdLeaf a.op (tlbKey a.ctx va) p.leaf).ops := by
  unfold State.walked
  dsimp only
  split
  · rfl
  · exact (Touched.foldl (b := false) _ (fun s l => (Touched.demandLine s _ l).trans (Touched.homeClock _ a l)) _ _).ops

theorem State.Holding.sourceRead {s : State} {id : Nat} (h : s.Holding id) (a : Agent) (va : Word) (n : Nat) :
    (s.sourceRead a va n).2.2.2.Holding id := by
  unfold State.sourceRead
  split
  · exact h
  · next p _ =>
    have hd : (s.demand a.core p).Holding id := h.of_ops (Touched.demand (b := false) _ _ _).ops
    exact ((hd.holdLeaf _ _ _).of_ops (ops_walked s a va p)).of_ops (Touched.load (b := false) _ _ _ _ _ _).ops

theorem holding_sourceRead {s : State} {id : Nat} (h : (find id s.ops).isSome = true) {a : Agent} (ha : a.op = some id) {va : Word}
    {p : Spot} (hp : s.seekNow a .read va = .ok p) (n : Nat) : (s.sourceRead a va n).2.2.2.Holding id := by
  have hd : (find id (s.demand a.core p).ops).isSome = true := by rw [(Touched.demand (b := false) s a.core p).ops]; exact h
  unfold State.sourceRead
  rw [hp]
  have hw := ops_walked s a va p
  rw [ha] at hw
  exact ((holding_holdLeaf hd _ _).of_ops hw).of_ops (Touched.load (b := false) _ _ _ _ _ _).ops

theorem foldl_keeps {α β : Type} (P : β → Prop) (f : β → α → β) (h : ∀ b x, P b → P (f b x)) (l : List α) {b : β} (hb : P b) :
    P (l.foldl f b) := by
  induction l generalizing b with
  | nil => exact hb
  | cons x l ih => exact ih (h b x hb)

/-- The first datum of a row gives the operation a translation, which the others leave it. -/
theorem holding_readRow {s : State} {id : Nat} (h : (find id s.ops).isSome = true) {a : Agent} (ha : a.op = some id) {x : Cell}
    {xs : List Cell} {va : Word} {n : Nat} (hx : x.pieces = [(va, n)]) {p : Spot} (hp : s.seekNow a .read va = .ok p) :
    (s.readRow a (x :: xs)).2.2.2.Holding id := by
  unfold State.readRow
  rw [List.foldl_cons]
  refine foldl_keeps (fun r : Nat × Nat × List (Nat × Nat) × State => r.2.2.2.Holding id) _ (fun r y hr => ?_) xs ?_
  · dsimp only
    split
    · exact hr
    · exact foldl_keeps (fun q : Nat × Nat × Nat × Bool × State => q.2.2.2.2.Holding id) _ (fun q w hq => hq.sourceRead _ _ _) _ hr
  · simp only [hx, List.isEmpty_cons, Bool.false_eq_true, if_false, List.foldl_cons, List.foldl_nil]
    exact holding_sourceRead h ha hp n

theorem ops_writeShare (s : State) (o : Op) (c : CopyOp) (y v r : Nat) (bad : List (Nat × Nat)) :
    (s.writeShare o c y v r bad).2.ops = s.ops := by
  unfold State.writeShare
  refine (Touched.checkTime (b := false) _ _).ops.trans ((Touched.raisePts (b := false) _ _ _).ops.trans ?_)
  refine ops_foldl _ (fun s x => ?_) _ _
  exact (Touched.note (b := false) _ _ _ _ _ _).ops.trans (State.onTeam_ops _ _ _)

/-- A copy that is not over goes on with the translations that it has. -/
theorem State.Holding.copyNext {s : State} {id : Nat} (h : s.Holding id) {c : CopyOp} (own : List Nat) (hc : c.row < c.rows) :
    (s.copyNext id c own).Holding id := by
  have hk : (s.onOp id (fun o => { o with own := own, body := .copy c })).Holding id := h.onOp _ _ (fun _ ho => ho)
  unfold State.copyNext
  dsimp only
  split
  · exact hk
  · rw [if_pos hc]; exact hk

/-- A row of a copy that reads a page: the operation holds its translation then. -/
theorem holding_copyIn {s : State} {id : Nat} {o : Op} {c : CopyOp} {x : Cell} {xs : List Cell} {va : Word} {n : Nat} {p : Spot}
    (h : (find id s.ops).isSome = true) (ho : o.no = id) (hobs : s.obstacle o.agent .read (c.addrs c.row) = none)
    (hw : s.readsWait id o.agent (c.addrs c.row) = false) (hwl : s.writesLater id o c = false)
    (hrl : s.readsLater id o c (c.lines c.row) = false) (hc : c.cells c.row = x :: xs) (hx : x.pieces = [(va, n)])
    (hp : s.seekNow o.agent .read va = .ok p) (hrow : c.row + 1 < c.rows) : (s.copyIn id o c).Holding id := by
  have hread := holding_readRow h (a := o.agent) (congrArg some ho) (xs := xs) hx hp
  rw [← hc] at hread
  unfold State.copyIn
  simp only [hobs, hw, hwl, hrl, Bool.or_self, Bool.false_eq_true, if_false]
  have hwrite := fun v r bad => hread.of_ops (ops_writeShare _ o c c.row v r bad)
  exact State.Holding.copyNext ((hwrite _ _ _).of_ops (State.onTeam_ops _ _ _)) o.own hrow

theorem exec_copyRow_in {s : State} {id : Nat} {o : Op} {c : CopyOp} (ho : find id s.ops = some o) (hb : o.body = .copy c)
    (hbegun : o.begun = true) (hpark : o.park = none) (hshelf : c.shelf = none) (hout : c.out = false) (hrow : c.row < c.rows) :
    exec (.copyRow id) s = .next (s.copyIn id o c) := by
  rw [exec_copyRow, execCopyRow]
  simp only [ho, hb, hbegun, hpark, hshelf, hout, Nat.not_le.mpr hrow, Bool.not_true, Option.isSome_none, Bool.false_and, Bool.or_self,
    Bool.false_eq_true, if_false]

/-! ### A copy of the first rows of a page -/

/-- A copy of four rows of memory at 0x2000 into the share, begun. -/
def pageCopy : CopyOp :=
  { form := 4, handle := 0, record := 0, org := [], share := 0x400, mem := 0x2000, count := 4, row := 0, rows := 4, shelf := none
    slot := none, clears := [], stamp := 0, time := 0 }

/-- Its operation, which holds no translation yet. -/
def pageCopyOp : Op :=
  { no := 0, team := 0, grp := 0, core := 0, ctx := 0, level := .user, token := 0x4008, pend := none, begun := true, pts := 0, e := none
    need := [], own := [], etimes := [], pages := [], park := none, held := false, clause := (0x4000, 2), path := 1, await := false
    spent := false, ord := 0, body := .copy pageCopy }

/-- A device with 4 GiB of memory and one context, whose page table maps the first GiB; one team with one group; and the copy. -/
def pageCopyState : State :=
  { State.reset with
    mem := [(0x1000, 0x3B), (0x1003, 0x40), (0x200000, 0x01), (0x200001, 0x10)]
    dev := { Device.reset with service := .normal, trained := true, config := 4 }
    ctxs := [(0, { Ctx.free with st := .running, ptroot := 0x200000 })]
    teams := [(0, { Team.zero with core := some 0, size := 65536, groups := [(0, Group.zero)] })]
    ops := [(0, pageCopyOp)] }

/-- Nothing keeps the copy from its first row. -/
theorem pageCopy_ready : pageCopyState.obstacle pageCopyOp.agent .read (pageCopy.addrs pageCopy.row) = none ∧
    pageCopyState.readsWait 0 pageCopyOp.agent (pageCopy.addrs pageCopy.row) = false ∧
    pageCopyState.writesLater 0 pageCopyOp pageCopy = false ∧
    pageCopyState.readsLater 0 pageCopyOp pageCopy (pageCopy.lines pageCopy.row) = false ∧
    pageCopyState.recording pageCopyOp.ctx = false ∧ pageCopyState.has pageCopyOp.team pageCopyOp.grp = true := by
  decide +kernel

theorem pageCopy_translates : (pageCopy.addrs pageCopy.row).all (fun va => match pageCopyState.seek pageCopyOp.agent .read va with
    | .ok p => decide (p.cls ≠ 5)
    | .error _ => false) = true := by
  decide +kernel

theorem pageCopy_first : (match pageCopyState.seekNow pageCopyOp.agent .read 0x2000 with
    | .ok _ => true
    | .error _ => false) = true := by
  decide +kernel

end Sys2Proof.Machine

open Sys2Proof Sys2Proof.Machine

/-- Refutes O51: a row of a copy gives the copy's operation the translation of the page that it read (R350), which the statement
has unchanged. The counterexample is a copy of four rows from a mapped page, of which it holds no translation yet. -/
theorem not_storageEventsComplete : ¬ Obligations.StorageEventsComplete := by
  intro h
  obtain ⟨-, -, -, copies⟩ := h pageCopyState
  have found : find 0 pageCopyState.ops = some pageCopyOp := rfl
  obtain ⟨hobs, hwait, hwrites, hreads, hrec, hhas⟩ := pageCopy_ready
  have hcls : ∀ va ∈ pageCopy.addrs pageCopy.row, ∀ p, pageCopyState.seek pageCopyOp.agent .read va = .ok p → p.cls ≠ 5 := by
    intro va hva p hp
    have := List.all_eq_true.mp pageCopy_translates va hva
    rw [hp] at this
    exact of_decide_eq_true this
  obtain ⟨t, ht, -, ⟨c, hc, -⟩, -⟩ := (copies 0 pageCopyOp pageCopy found rfl rfl).2 rfl rfl rfl (by decide) hobs hwait hwrites
    hreads hcls hrec hhas (by decide)
  obtain ⟨p, hp⟩ : ∃ p, pageCopyState.seekNow pageCopyOp.agent .read 0x2000 = .ok p := by
    cases hs : pageCopyState.seekNow pageCopyOp.agent .read 0x2000 with
    | ok p => exact ⟨p, rfl⟩
    | error e => exact absurd (hs ▸ pageCopy_first) (by simp)
  have hexec : exec (.copyRow 0) pageCopyState = .next (pageCopyState.copyIn 0 pageCopyOp pageCopy) :=
    exec_copyRow_in found rfl rfl rfl rfl rfl (by decide)
  have holds : (pageCopyState.copyIn 0 pageCopyOp pageCopy).Holding 0 :=
    holding_copyIn (c := pageCopy) (x := { pos := 0, width := 64, pieces := [(0x2000, 8)], bit := 0, fill := 0 }) rfl rfl hobs hwait hwrites
      hreads rfl rfl hp (by decide)
  obtain rfl : pageCopyState.copyIn 0 pageCopyOp pageCopy = t := Host.Outcome.next.inj (hexec.symm.trans ht)
  obtain ⟨o, ho, hpages⟩ := holds
  rw [hc] at ho
  cases ho
  exact hpages rfl
end

section
/-!
SUPPORT. What an agent sees of memory: states that differ in nothing that a translation, a check or a read of a list depends on.
-/
namespace Sys2Proof.Machine

/-- Nothing that an agent's translations, checks and reads depend on differs. -/
structure Sight (s t : State) : Prop where
  alike : Alike s t
  core : ∀ k, (t.core k).tlb = (s.core k).tlb ∧ (t.core k).l1 = (s.core k).l1
  l2 : t.l2 = s.l2
  mids : t.mids = s.mids
  pts : ∀ a, t.pts a = s.pts a
  line : ∀ l, t.line l = s.line l

namespace Sight

variable {s t : State}

theorem leafFor (h : Sight s t) (core c : Nat) (op : Option Nat) (va : Word) : t.leafFor core c op va = s.leafFor core c op va := by
  unfold State.leafFor State.heldLeaf State.tlbLeaf State.walk State.midFor State.serves State.survives
  simp only [(h.core core).1, h.l2, h.mids, h.alike.walkFrom, h.alike.datum, h.alike.fresh, h.alike.ctx,
    show t.ops = s.ops by rw [h.alike.rest]]

theorem look (h : Sight s t) (core c : Nat) (level : Level) (use : Use) (va : Word) (op : Option Nat) (wait : Bool) :
    t.look core c level use va op wait = s.look core c level use va op wait := by
  have howned : t.owned = s.owned := funext h.alike.owned
  unfold State.look
  simp only [h.leafFor, howned, h.alike.hostLost]

theorem seek (h : Sight s t) (a : Agent) (use : Use) (va : Word) : t.seek a use va = s.seek a use va := h.look _ _ _ _ _ _ _

theorem classBad (h : Sight s t) (a : Agent) (use : Use) (ok : Nat → Bool) (va : Word) :
    t.classBad a use ok va = s.classBad a use ok va := by
  unfold State.classBad State.pageClass
  simp only [h.seek, h.leafFor]

theorem probe (h : Sight s t) (a : Agent) (use : Use) (rd : Bool) (va : Word) : t.probe a use rd va = s.probe a use rd va := by
  unfold State.probe
  simp only [h.seek, h.alike.owned, h.alike.poisoned, h.alike.keyOf]

theorem spots (h : Sight s t) (a : Agent) (use : Use) (vas : List Word) : t.spots a use vas = s.spots a use vas := by
  unfold State.spots
  simp only [h.seek]

theorem copyFor (h : Sight s t) (a : Agent) (cls l : Nat) : t.copyFor a cls l = s.copyFor a cls l := by
  unfold State.copyFor State.serves State.survives
  simp only [h.alike.recording, (h.core a.core).2, h.pts, h.alike.datum, h.alike.fresh]

theorem waitLine (h : Sight s t) (a : Agent) (l1 : Option Nat) (p : Spot) : t.waitLine a l1 p = s.waitLine a l1 p := by
  unfold State.waitLine State.l1Serves
  simp only [h.copyFor, h.alike.owned]

theorem waitLines (h : Sight s t) (a : Agent) (l1 : Bool) (ps : List Spot) : t.waitLines a l1 ps = s.waitLines a l1 ps := by
  have hw : t.waitLine a = s.waitLine a := funext fun b => funext fun p => h.waitLine a b p
  unfold State.waitLines State.ptsBound
  simp only [hw, h.pts, h.line]

theorem ownedHome (h : Sight s t) (a : Agent) (use : Use) (vas : List Word) : t.ownedHome a use vas = s.ownedHome a use vas := by
  unfold State.ownedHome
  rw [h.spots, h.waitLines]

theorem ownedAmong (h : Sight s t) (a : Agent) (use : Use) (vas : List Word) : t.ownedAmong a use vas = s.ownedAmong a use vas := by
  unfold State.ownedAmong
  rw [h.spots, h.waitLines]

theorem listAt (h : Sight s t) (a : Agent) (va : Word) : t.listAt a va = s.listAt a va := by
  unfold State.listAt
  simp only [h.seek, h.classBad, h.alike.readKey, h.alike.keyOf, h.alike.owned, h.alike.poisoned]

theorem itemFault (h : Sight s t) (a : Agent) (use : Use) (l : WList) (n : Nat) : t.itemFault a use l n = s.itemFault a use l n := by
  unfold State.itemFault
  simp only [h.classBad, h.probe]

theorem wlFault (h : Sight s t) (a : Agent) (take : Bool) (z : Nat) (m : Lanes) (va : Nat → Word) (i : Nat) :
    t.wlFault a take z m va i = s.wlFault a take z m va i := by
  unfold State.wlFault
  simp only [h.listAt, h.itemFault, h.alike.owned]

theorem wlOwned (h : Sight s t) (a : Agent) (use : Use) (m : Lanes) (va : Nat → Word) (item : WList → Nat → Nat) :
    t.wlOwned a use m va item = s.wlOwned a use m va item := by
  unfold State.wlOwned
  simp only [h.listAt, h.ownedAmong, h.alike.owned]

end Sight

/-- A change of cores and teams that leaves what an agent sees through alone. -/
theorem Sight.of_rest {s t : State} (h : t = { s with cores := t.cores, teams := t.teams })
    (hcore : ∀ k, (t.core k).tlb = (s.core k).tlb ∧ (t.core k).l1 = (s.core k).l1) (hpts : ∀ a, t.pts a = s.pts a) : Sight s t := by
  have hline : t.line = s.line := by rw [h]; rfl
  exact ⟨⟨by rw [h], by rw [h], fun l => by rw [hline]; exact ⟨rfl, rfl⟩⟩, hcore, by rw [h], by rw [h], hpts, fun l => by rw [hline]⟩

theorem begun_rest (s : State) (sh : Shape) (c : Nat) (x : Issue) (m : Member) :
    s.begun sh c x m = { s with cores := (s.begun sh c x m).cores, teams := (s.begun sh c x m).teams } := by
  have : ∀ T : SMap Team, { s.coverage c sh.once x.members with teams := T } = { s with
      cores := (s.coverage c sh.once x.members).cores, teams := T } := fun T => by rw [coverage_eq]
  exact this _

theorem begun_core (s : State) (sh : Shape) (c : Nat) (x : Issue) (m : Member) (k : Nat) : (s.begun sh c x m).core k =
    { s.core k with dmrunc := ((s.begun sh c x m).core k).dmrunc, dmrcmp := ((s.begun sh c x m).core k).dmrcmp } := by
  have h := coverage_core s c k sh.once x.members
  have he : (s.begun sh c x m).core k = (s.coverage c sh.once x.members).core k := rfl
  rw [he, h]
  split
  · next hk => rw [hk]
  · rfl

theorem begun_other (s : State) (sh : Shape) (c : Nat) (x : Issue) (m : Member) (n k : Nat) (h : ¬(n = m.team ∧ k = m.grp)) :
    (s.begun sh c x m).group n k = s.group n k := by
  have : (s.begun sh c x m).group n k = (s.coverage c sh.once x.members).group n k := onGroup_other _ _ _ _ _ _ h
  rw [this, coverage_group]

/-- An instruction finds memory as it was before its own step. -/
theorem Sight.begun {s : State} {c : Nat} {x : Issue} {m : Member} (h : Sole s c x m) (sh : Shape) : Sight s (s.begun sh c x m) := by
  refine .of_rest (begun_rest s sh c x m) (fun k => ?_) (fun a => ?_)
  · rw [begun_core]
    exact ⟨rfl, rfl⟩
  · unfold State.pts
    by_cases ha : a.team = m.team ∧ a.grp = m.grp
    · rw [ha.1, ha.2, begun_group h, begun_eq]; rfl
    · rw [begun_other _ _ _ _ _ _ _ ha]

end Sys2Proof.Machine
end

section
/-!
PROOF. Work lists (R42, R290-R294): what an instruction on lists leaves of the state beside memory, and the detector's release of
lanes that none waits in.
-/
namespace Sys2Proof.Machine

/-! ### The release of lanes that wait for a set -/

/-- Lanes of a group that wait for a set go on with a value (R294). -/
def Group.releaseQuiet (set_ : Nat) (v : Word) (g : Group) : Group :=
  let w := g.wait.filter (fun x => match x.2 with
    | .quiet k _ => k == set_
    | .barrier _ _ | .shelf _ _ | .word _ _ _ _ _ | .order | .lines _ _ _ | .owned _ | .sleep _ => false)
  let m : Lanes := w.foldl (fun m x => m ||| laneBit x.1) 0
  let gr := w.foldl (fun gr x => match x.2 with
    | .quiet _ d => gr.setS d.toNat v
    | .barrier _ _ | .shelf _ _ | .word _ _ _ _ _ | .order | .lines _ _ _ | .owned _ | .sleep _ => gr) g
  if m == 0 then g else gr.release m

/-- Those of a team, if it is of the context and on a core. -/
def Team.releaseQuiet (c set_ : Nat) (v : Word) (t : Team) : Team :=
  if t.ctx == c && t.core.isSome then { t with groups := t.groups.map (fun g => (g.1, g.2.releaseQuiet set_ v)) } else t

theorem releaseQuiet_eq (s : State) (c set_ : Nat) (v : Word) : s.releaseQuiet c set_ v =
    { s with teams := s.teams.map (fun t => (t.1, t.2.releaseQuiet c set_ v)) } := by
  unfold State.releaseQuiet
  congr 1
  refine List.map_congr_left (fun t _ => ?_)
  unfold Team.releaseQuiet
  split
  · refine congrArg (fun gs => (t.1, { t.2 with groups := gs })) (List.map_congr_left (fun g _ => ?_))
    exact (apply_ite (Prod.mk g.1) _ _ _).symm
  · rfl

/-- A group in which no lane waits for a set. -/
def Group.Unquiet (g : Group) : Prop := ∀ e ∈ g.wait, ∀ k d, e.2 ≠ .quiet k d

theorem Group.Unquiet.release {g : Group} (h : g.Unquiet) (set_ : Nat) (v : Word) : g.releaseQuiet set_ v = g := by
  unfold Group.releaseQuiet
  rw [List.filter_eq_nil_iff.mpr (fun e he => ?_)]
  · rfl
  · have := h e he
    cases hw : e.2 <;> simp_all

theorem Team.releaseQuiet_zero (c set_ : Nat) (v : Word) : Team.zero.releaseQuiet c set_ v = Team.zero := by
  unfold Team.releaseQuiet
  rw [if_neg (by simp [Team.zero])]

theorem find_releaseQuiet (s : State) (c set_ : Nat) (v : Word) (n : Nat) :
    find n (s.releaseQuiet c set_ v).teams = (find n s.teams).map (Team.releaseQuiet c set_ v) := by
  rw [releaseQuiet_eq]
  exact find_map_snd n (fun _ t => Team.releaseQuiet c set_ v t) _

theorem team_releaseQuiet (s : State) (c set_ : Nat) (v : Word) (n : Nat) :
    (s.releaseQuiet c set_ v).team n = (s.team n).releaseQuiet c set_ v := by
  unfold State.team get
  rw [find_releaseQuiet]
  cases find n s.teams with
  | none => exact (Team.releaseQuiet_zero _ _ _).symm
  | some t => rfl

theorem Team.releaseQuiet_rest (c set_ : Nat) (v : Word) (t : Team) :
    t.releaseQuiet c set_ v = { t with groups := (t.releaseQuiet c set_ v).groups } := by
  unfold Team.releaseQuiet
  split <;> rfl

/-- Without a lane that waits for a set, every group is found as it was. -/
theorem Team.find_releaseQuiet {c set_ : Nat} {v : Word} {t : Team} {k : Nat} (h : (t.group k).Unquiet) :
    find k (t.releaseQuiet c set_ v).groups = find k t.groups := by
  unfold Team.releaseQuiet
  split
  · refine (find_map_snd k (fun _ g => Group.releaseQuiet set_ v g) _).trans ?_
    unfold Team.group get at h
    cases hk : find k t.groups with
    | none => rfl
    | some g =>
      rw [hk] at h
      exact congrArg some (Group.Unquiet.release h _ _)
  · rfl

theorem Team.group_releaseQuiet {c set_ : Nat} {v : Word} {t : Team} {k : Nat} (h : (t.group k).Unquiet) :
    (t.releaseQuiet c set_ v).group k = t.group k := by
  have := Team.find_releaseQuiet (c := c) (set_ := set_) (v := v) h
  unfold Team.group get
  rw [this]

/-- With no lane that waits for a set, a release leaves every team and group as it was found. -/
theorem releaseQuiet_still {s : State} (h : ∀ n k, (s.group n k).Unquiet) (c set_ : Nat) (v : Word) (n : Nat) :
    (s.releaseQuiet c set_ v).team n = { s.team n with groups := ((s.releaseQuiet c set_ v).team n).groups } ∧
    ∀ k, (s.releaseQuiet c set_ v).group n k = s.group n k ∧ (s.releaseQuiet c set_ v).has n k = s.has n k := by
  refine ⟨?_, fun k => ⟨?_, ?_⟩⟩
  · rw [team_releaseQuiet, Team.releaseQuiet_rest]
  · unfold State.group
    rw [team_releaseQuiet]
    exact Team.group_releaseQuiet (h n k)
  · unfold State.has
    rw [find_releaseQuiet, team_releaseQuiet, Team.find_releaseQuiet (h n k), Option.isSome_map]

/-! ### What an instruction on lists leaves -/

/-- From s on an instruction of m has only accessed memory and changed counts of the detector: of its group only the distances,
the ordinal and the timestamp differ. -/
structure Listing (s t : State) (m : Member) (sh : Shape) : Prop where
  acc : Accessed false { s with ctxs := t.ctxs } t m
  own : m.group t = { m.begun s sh with gts := (m.group t).gts }
  has : t.has m.team m.grp = true

namespace Listing

variable {s t u : State} {m : Member} {sh : Shape}

theorem begun {c : Nat} {x : Issue} (h : Sole s c x m) (sh : Shape) : Listing s (s.begun sh c x m) m sh := by
  have hr := begun_rest s sh c x m
  have hc : (s.begun sh c x m).ctxs = s.ctxs := by rw [hr]
  have hteam : ∀ n, (s.begun sh c x m).team n = { s.team n with groups := ((s.begun sh c x m).team n).groups } := fun n => by
    have hrest : { (s.begun sh c x m).team n with groups := [] } = { s.team n with groups := [] } := by
      unfold State.begun
      exact (onGroup_team_rest _ _ _ _ _).trans (by rw [coverage_team])
    generalize (s.begun sh c x m).team n = y at hrest
    cases y
    cases hs : s.team n
    rw [hs] at hrest
    cases hrest
    rfl
  refine ⟨⟨?rest, ?dev, fun k => ?core, fun n => ?team, fun _ n => ?shares, fun n k hn => ?group⟩, ?own, begun_has h sh⟩
  case rest => rw [hc]; generalize s.begun sh c x m = u at hr; rw [hr]
  case dev => rw [hr]
  case core =>
    have hk := begun_core s sh c x m k
    generalize (s.begun sh c x m).core k = y at hk
    rw [hk]
    rfl
  case team =>
    have hn := hteam n
    generalize (s.begun sh c x m).team n = y at hn
    rw [hn]
    rfl
  case shares => rw [hteam n]; exact ⟨rfl, rfl, rfl⟩
  case group => rw [begun_other s sh c x m n k hn]; rfl
  case own => rw [show m.group (s.begun sh c x m) = m.begun s sh from begun_group h sh]

/-- Accesses to memory come after it. -/
theorem touched (h : Listing s t m sh) (k : Touched false t u) : Listing s u m sh := by
  obtain ⟨⟨hr, hd, hcore, hteam, hshares, hgroup⟩, hown, hhas⟩ := h
  have hc : u.ctxs = t.ctxs := by rw [k.rest]
  rw [← hc] at hr hd hcore hteam hshares hgroup
  refine ⟨⟨?rest, ?dev, fun n => ?core, fun n => ?team, fun hb n => ?shares, fun n j hn => ?group⟩, ?own, ?has⟩
  case rest => rw [k.rest, hr]
  case dev => rw [k.dev, hd]
  case core => rw [k.core n, hcore n]
  case team => rw [k.team n, hteam n]
  case shares =>
    have a := hshares hb n; have b := k.shares hb n
    exact ⟨b.1.trans a.1, b.2.1.trans a.2.1, b.2.2.trans a.2.2⟩
  case group => rw [k.group n j, hgroup n j hn]
  case own => rw [show m.group u = _ from k.group m.team m.grp, show t.group m.team m.grp = _ from hown]
  case has => rw [show u.has m.team m.grp = t.has m.team m.grp from k.has _ _]; exact hhas

/-- So does a change of a context. -/
theorem onCtx (h : Listing s t m sh) (c : Nat) (f : Ctx → Ctx) : Listing s (t.onCtx c f) m sh := by
  obtain ⟨⟨hr, hd, hcore, hteam, hshares, hgroup⟩, hown, hhas⟩ := h
  refine ⟨⟨?_, hd, hcore, hteam, hshares, hgroup⟩, hown, hhas⟩
  unfold State.onCtx
  dsimp only
  rw [hr]

/-- No lane waits for a set then that has not before. -/
theorem unquiet (h : Listing s t m sh) (hq : ∀ n k, (s.group n k).Unquiet) (n k : Nat) : (t.group n k).Unquiet := by
  by_cases hn : n = m.team ∧ k = m.grp
  · have hw : (t.group n k).wait = (s.group n k).wait := by
      rw [hn.1, hn.2, show t.group m.team m.grp = _ from h.own]
      exact begun_wait s m sh
    unfold Group.Unquiet
    rw [hw]
    exact hq n k
  · rw [h.acc.group n k hn]
    exact hq n k

theorem releaseQuiet (h : Listing s t m sh) (hq : ∀ n k, (s.group n k).Unquiet) (c set_ : Nat) (v : Word) :
    Listing s (t.releaseQuiet c set_ v) m sh := by
  have still := releaseQuiet_still (h.unquiet hq) c set_ v
  have hr' : t.releaseQuiet c set_ v = { t with teams := (t.releaseQuiet c set_ v).teams } := by rw [releaseQuiet_eq]
  obtain ⟨⟨hr, hd, hcore, hteam, hshares, hgroup⟩, hown, hhas⟩ := h
  generalize t.releaseQuiet c set_ v = u at still hr'
  have hc : u.ctxs = t.ctxs := by rw [hr']
  have hcores : u.core = t.core := by unfold State.core; rw [hr']
  rw [← hc] at hr hd hcore hteam hshares hgroup
  refine ⟨⟨?rest, ?dev, fun n => ?core, fun n => ?team, fun hb n => ?shares, fun n j hn => ?group⟩, ?own, ?has⟩
  case rest => rw [hr', hr]
  case dev => rw [show u.dev = t.dev by rw [hr'], hd]
  case core => rw [hcores]; exact hcore n
  case team =>
    have ht := (still n).1
    generalize u.team n = y at ht
    rw [ht, hteam n]
  case shares =>
    have ht := (still n).1
    generalize u.team n = y at ht
    rw [ht]
    exact hshares hb n
  case group => rw [((still n).2 j).1]; exact hgroup n j hn
  case own => rw [show m.group u = m.group t from ((still m.team).2 m.grp).1]; exact hown
  case has => rw [((still m.team).2 m.grp).2]; exact hhas

theorem ite {b : Prop} [Decidable b] (h : Listing s t m sh) (k : Listing s u m sh) : Listing s (if b then t else u) m sh := by
  split
  · exact h
  · exact k

end Listing

end Sys2Proof.Machine
end

section
/-!
PROOF. Work lists: accesses to lists, the detector's counts after them, and how an instruction on lists ends.
-/
namespace Sys2Proof.Machine

/-! ### Accesses -/

theorem Touched.gstore {b : Bool} (s : State) {a : Agent} (ha : a.op = none) (va : Word) (n v : Nat) :
    Touched b s (s.gstore a va n v) := by
  unfold State.gstore
  split
  · exact .refl _ _
  · exact (Touched.walked _ _ _ _ ha).trans (Touched.store _ _ _ _ _ _)

theorem Touched.gload {b : Bool} (s : State) {a : Agent} (ha : a.op = none) (va : Word) (n : Nat) :
    Touched b s (s.gload a va n).2 := by
  unfold State.gload
  split
  · exact .refl _ _
  · exact (Touched.walked _ _ _ _ ha).trans (Touched.load _ _ _ _ _ _)

theorem Touched.listRmw {b : Bool} (s : State) {a : Agent} (ha : a.op = none) (va : Word) (f : WList → WList) :
    Touched b s (s.listRmw a va f) := by
  unfold State.listRmw
  split
  · exact .refl _ _
  · exact (Touched.walked _ _ _ _ ha).trans (Touched.rmw _ _ _ _ _ _)

theorem Touched.takeItems {b : Bool} (s : State) {a : Agent} (ha : a.op = none) (l : WList) (d : Nat) (got : List Nat) :
    Touched b s (s.takeItems a l d got).2 := by
  unfold State.takeItems
  refine foldl_keeps (fun p : SMap Word × State => Touched b s p.2) _ (fun p x hp => ?_) _ (.refl _ _)
  refine foldl_keeps (fun p : SMap Word × State => Touched b s p.2) _ (fun p w hp => ?_) _ hp
  exact hp.trans (Touched.gload _ ha _ _)

/-! ### The detector (R42, R294) -/

/-- A context's counts after one list has changed from one header to another. -/
def Ctx.detect (old new : WList) (append : Bool) (x : Ctx) : Ctx :=
  let sub := set 0 old.set (get 0 old.set x.counts - (if old.cfgd then old.count else 0)) x.counts
  let subA := set 0 old.set (get 0 old.set x.avail - (if old.cfgd then old.pub - old.gets else 0)) x.avail
  let n := get 0 new.set sub + new.count
  { x with counts := set 0 new.set n sub
           avail := set 0 new.set (get 0 new.set subA + (new.pub - new.gets)) subA
           busy := if n = 0 then del new.set x.busy else if append then put new.set () x.busy else x.busy }

/-- The release of lanes that the detector's counts call for. -/
def State.releaseDue (s : State) (c : Nat) (old new : WList) : State :=
  let s := if old.pub < new.pub ∧ old.set = new.set then s.releaseQuiet c new.set 0 else s
  if (s.ctx c).quiet new.set then s.releaseQuiet c new.set 1 else s

theorem detect_eq (s : State) (c : Nat) (old new : WList) (append : Bool) :
    s.detect c old new append = (s.onCtx c (Ctx.detect old new append)).releaseDue c old new := rfl

theorem releaseQuiet_rest (s : State) (c set_ : Nat) (v : Word) :
    (s.releaseQuiet c set_ v).ctxs = s.ctxs ∧ (s.releaseQuiet c set_ v).mem = s.mem := by
  rw [releaseQuiet_eq]
  exact ⟨rfl, rfl⟩

theorem releaseDue_rest (s : State) (c : Nat) (old new : WList) :
    (s.releaseDue c old new).ctxs = s.ctxs ∧ (s.releaseDue c old new).mem = s.mem := by
  have first : ∀ u : State, u = s ∨ u = s.releaseQuiet c new.set 0 → u.ctxs = s.ctxs ∧ u.mem = s.mem := by
    rintro u (rfl | rfl)
    · exact ⟨rfl, rfl⟩
    · exact releaseQuiet_rest _ _ _ _
  unfold State.releaseDue
  extract_lets u
  have hu := first u (by
    show (if _ then _ else _) = s ∨ (if _ then _ else _) = _
    split
    · exact .inr rfl
    · exact .inl rfl)
  split
  · exact ⟨(releaseQuiet_rest _ _ _ _).1.trans hu.1, (releaseQuiet_rest _ _ _ _).2.trans hu.2⟩
  · exact hu

theorem detect_mem (s : State) (c : Nat) (old new : WList) (append : Bool) : (s.detect c old new append).mem = s.mem := by
  rw [detect_eq]
  exact (releaseDue_rest _ _ _ _).2

theorem detect_ctx (s : State) (c : Nat) (old new : WList) (append : Bool) :
    (s.detect c old new append).ctx c = (s.ctx c).detect old new append := by
  rw [detect_eq]
  unfold State.ctx
  rw [(releaseDue_rest _ _ _ _).1]
  exact (State.ctx_onCtx s c c _).trans (if_pos rfl)

/-- The counts of a set after one of its lists has changed. -/
theorem Ctx.detect_counts {x : Ctx} {old new : WList} (append : Bool) (hc : old.cfgd = true) (hs : new.set = old.set) :
    get 0 old.set (x.detect old new append).counts = get 0 old.set x.counts - old.count + new.count ∧
    get 0 old.set (x.detect old new append).avail = get 0 old.set x.avail - (old.pub - old.gets) + (new.pub - new.gets) := by
  unfold Ctx.detect
  constructor <;> simp only [hc, hs, if_true, get_set]

theorem Listing.detect {s t : State} {m : Member} {sh : Shape} (h : Listing s t m sh) (hq : ∀ n k, (s.group n k).Unquiet) (c : Nat)
    (old new : WList) (append : Bool) : Listing s (t.detect c old new append) m sh := by
  rw [detect_eq]
  have h0 := h.onCtx c (Ctx.detect old new append)
  exact Listing.ite ((h0.releaseQuiet hq _ _ _).ite h0 |>.releaseQuiet hq _ _ _) ((h0.releaseQuiet hq _ _ _).ite h0)

/-! ### The group at the end -/

namespace Listing

variable {s u : State} {m : Member} {sh : Shape}

theorem calls (h : Listing s u m sh) (hc : (m.group s).calls = []) : (m.group u).calls = [] := by
  rw [h.own, ← hc]
  exact begun_callsEq s m sh

theorem group (h : Listing s u m sh) :
    m.group u = { m.at_ s u with pend := (m.group u).pend, ordinal := (m.begun s sh).ordinal } := by
  have h1 := h.own
  have h2 := begun_eq s m sh
  unfold Member.at_
  generalize m.begun s sh = b at h1 h2
  generalize m.group u = g at h1
  rw [h2] at h1
  rw [h1]

end Listing

/-- An instruction on lists ends. -/
theorem Listing.ends {s : State} {c : Nat} {x : Issue} {m : Member} (h : Sole s c x m) (sh : Shape) (f : Env → State → Res) {u : State}
    (hu : Listing s u m sh) (hll : ∀ l, sh.ll = some l → m.canCount s sh.g l) (hreqs : sh.reqs = false)
    (hw : sh.wait (s.env c x m sh.g) s = false) (hl : (m.group s).level.atLeast sh.level = true) (ht : sh.top ≤ (m.group s).n)
    (hf : f (s.env c x m sh.g) (s.begun sh c x m) = .ok u 0) (P : State → Prop) (hP : P u) :
    Ends c x m 0 (.next (s.run sh f)) P :=
  run_ends h sh f u 0 hll (by simp [State.roomFor, hreqs]) hw hl ht hf hu.has (hu.calls h.calls) P hP

/-! ### Lanes -/

theorem laneFaults_none {m : Lanes} {f : Nat → Option (Kind × Nat)} (h : ∀ i, i < 64 → m.getLsbD i = true → f i = none) :
    laneFaults m f = none := by
  unfold laneFaults
  rw [List.filterMap_eq_nil_iff.mpr (fun i hi => ?_)]
  · rfl
  · obtain ⟨h1, h2⟩ := mem_lanesOf.mp hi
    rw [h i h1 h2]
    rfl

theorem lanesOf_single {m : Lanes} {i : Nat} (hi : i < 64) (h : ∀ j, j < 64 → (m.getLsbD j = true ↔ j = i)) : lanesOf m = [i] := by
  have hmem : ∀ j, j ∈ lanesOf m ↔ j = i := fun j => by
    rw [mem_lanesOf]
    exact ⟨fun ⟨h1, h2⟩ => (h j h1).mp h2, fun e => by subst e; exact ⟨hi, (h j hi).mpr rfl⟩⟩
  have hnodup := nodup_lanesOf m
  generalize lanesOf m = l at hmem hnodup
  match l with
  | [] => exact absurd ((hmem i).mpr rfl) (by simp)
  | [a] => rw [(hmem a).mp (by simp)]
  | a :: b :: l =>
    have ha := (hmem a).mp (by simp)
    have hb := (hmem b).mp (by simp)
    simp [ha, hb] at hnodup

end Sys2Proof.Machine
end

section
/-!
PROOF. Work lists: lanes that name one list in the order of their numbers, and the instructions that begin an outstanding one
(R292).
-/
namespace Sys2Proof.Machine

/-! ### Lanes of one list -/

theorem sorted_lanesOf (m : Lanes) : (lanesOf m).Pairwise (· < ·) := List.Pairwise.filter _ List.pairwise_lt_range

/-- The elements of a list below a number. -/
def below (l : List Nat) (i : Nat) : Nat := (l.filter (fun j => decide (j < i))).length

theorem below_head {a : Nat} {l : List Nat} (h : ∀ b ∈ l, a < b) : below (a :: l) a = 0 := by
  unfold below
  rw [List.length_eq_zero_iff, List.filter_eq_nil_iff]
  intro b hb
  rcases List.mem_cons.mp hb with rfl | hb
  · simp
  · have := h b hb
    simp only [decide_eq_true_eq]
    omega

theorem below_tail {a i : Nat} (l : List Nat) (h : a < i) : below (a :: l) i = below l i + 1 := by
  simp [below, h]

/-- The first n of an ascending list are those below which fewer than n are. -/
theorem mem_take_sorted {l : List Nat} (hs : l.Pairwise (· < ·)) (n i : Nat) : i ∈ l.take n ↔ i ∈ l ∧ below l i < n := by
  induction l generalizing n with
  | nil => simp
  | cons a l ih =>
    obtain ⟨ha, hl⟩ := List.pairwise_cons.mp hs
    cases n with
    | zero => simp
    | succ n =>
      rw [List.take_succ_cons, List.mem_cons, ih hl, List.mem_cons]
      by_cases hi : i = a
      · subst hi
        simp [below_head ha]
      · by_cases hm : i ∈ l
        · simp [hi, hm, below_tail l (ha i hm)]
        · simp [hi, hm]

/-- Tickets given to the first n of an ascending list, one by one. -/
theorem find_tickets {l : List Nat} (hs : l.Pairwise (· < ·)) (n base k i : Nat) (w : SMap Nat) :
    find i (((l.take n).zipIdx k).foldl (fun w x => put x.1 (base + x.2) w) w) =
      if i ∈ l.take n then some (base + (k + below l i)) else find i w := by
  induction l generalizing n k w with
  | nil => simp
  | cons a l ih =>
    obtain ⟨ha, hl⟩ := List.pairwise_cons.mp hs
    cases n with
    | zero => simp
    | succ n =>
      rw [List.take_succ_cons, List.zipIdx_cons, List.foldl_cons, ih hl]
      by_cases hi : i = a
      · have hn : i ∉ l.take n := fun hm => by
          have := ha i (List.mem_of_mem_take hm)
          omega
        rw [if_neg hn, if_pos (by simp [hi]), find_put, if_pos hi, hi, below_head ha]
        rfl
      · by_cases hm : i ∈ l.take n
        · rw [if_pos hm, if_pos (List.mem_cons_of_mem _ hm), below_tail l (ha i (List.mem_of_mem_take hm))]
          congr 1
          omega
        · rw [if_neg hm, if_neg (by simp [hi, hm]), find_put, if_neg hi]

theorem distinct_const {xs : List Word} {a : Word} (hx : xs ≠ []) (h : ∀ x ∈ xs, x = a) : distinct xs = [a] := by
  have grow : ∀ l : List Word, (∀ x ∈ l, x = a) → l.foldl (fun ys x => if ys.contains x then ys else ys ++ [x]) [a] = [a] := by
    intro l
    induction l with
    | nil => intro _; rfl
    | cons b l ih =>
      intro hl
      rw [List.foldl_cons, hl b (by simp)]
      simpa using ih (fun x hx => hl x (List.mem_cons_of_mem _ hx))
  cases xs with
  | nil => exact absurd rfl hx
  | cons b l =>
    obtain rfl : b = a := h b (by simp)
    exact grow l (fun x hx => h x (List.mem_cons_of_mem _ hx))

section oneList

variable {real : Lanes} {va : Nat → Word} {key : Word}

theorem namers_all (h : ∀ i, i < 64 → real.getLsbD i = true → va i = key) : namers real va key = lanesOf real := by
  unfold namers
  rw [List.filter_eq_self]
  intro i hi
  obtain ⟨h1, h2⟩ := mem_lanesOf.mp hi
  simp [h i h1 h2]

theorem listPlace_all (h : ∀ i, i < 64 → real.getLsbD i = true → va i = key) {i : Nat} (hi : i < 64) (hm : real.getLsbD i = true) :
    listPlace real va i = below (lanesOf real) i := by
  unfold listPlace below
  congr 1
  refine List.filter_congr (fun j hj => ?_)
  obtain ⟨h1, h2⟩ := mem_lanesOf.mp hj
  simp [h i hi hm, h j h1 h2]

theorem lanesOf_ne_nil (h : real ≠ 0) : lanesOf real ≠ [] := by
  intro hn
  refine h (BitVec.eq_of_getLsbD_eq (fun i hi => ?_))
  by_contra hb
  have : i ∈ lanesOf real := mem_lanesOf.mpr ⟨hi, by simpa using hb⟩
  simp [hn] at this

theorem distinct_all (hr : real ≠ 0) (h : ∀ i, i < 64 → real.getLsbD i = true → va i = key) :
    distinct ((lanesOf real).map va) = [key] := by
  refine distinct_const (by simpa using lanesOf_ne_nil hr) (fun x hx => ?_)
  obtain ⟨i, hi, rfl⟩ := List.mem_map.mp hx
  exact h i (mem_lanesOf.mp hi).1 (mem_lanesOf.mp hi).2

theorem mem_take_lanes (h : ∀ i, i < 64 → real.getLsbD i = true → va i = key) (n : Nat) {i : Nat} (hi : i < 64) :
    i ∈ (lanesOf real).take n ↔ real.getLsbD i = true ∧ listPlace real va i < n := by
  rw [mem_take_sorted (sorted_lanesOf real), mem_lanesOf]
  refine ⟨fun ⟨⟨_, h2⟩, h3⟩ => ⟨h2, (listPlace_all h hi h2).trans_lt h3⟩, fun ⟨h2, h3⟩ => ⟨⟨hi, h2⟩, ?_⟩⟩
  rwa [← listPlace_all h hi h2]

end oneList

theorem vWrites_congr {m : Lanes} {f g : Nat → Word} (r : Nat) (h : ∀ i ∈ lanesOf m, f i = g i) : vWrites r m f = vWrites r m g :=
  List.foldl_ext _ _ _ (fun w i hi => by rw [h i hi])

theorem pWrites_congr {m : Lanes} {f g : Nat → Bool} (r : Nat) (h : ∀ i ∈ lanesOf m, f i = g i) : pWrites r m f = pWrites r m g := by
  unfold pWrites
  rw [List.foldl_ext _ _ _ (fun w i hi => by rw [h i hi])]

/-! ### An outstanding instruction on lists -/

theorem begin_gts (g : Group) (t : Nat) (ll : Ll) (a : Lanes) (p : Pend) :
    (({ g with gts := t } : Group).begin ll a p).1 = { (g.begin ll a p).1 with gts := t } := by
  unfold Group.begin
  by_cases h : a = 0
  · simp only [h, if_true]
  · simp only [h, if_false]
    cases ll.dc <;> rfl

theorem Began.gts {g G : Group} {m act : Lanes} {ll : Ll} {p : Pend} (h : Began g G m act ll p) (t : Nat) :
    Began { g with gts := t } { G with gts := t } m act ll p :=
  ⟨congrArg (fun G : Group => { G with gts := t }) h.rest, h.new, h.old, h.aged, h.count⟩

theorem Accessed.onOwn {b : Bool} {s t : State} {m : Member} (h : Accessed b s t m) (F : Group → Group) :
    Accessed b s (t.onGroup m.team m.grp F) m := by
  obtain ⟨hr, hd, hcore, hteam, hshares, hgroup⟩ := h
  have ht : ∀ n, (t.onGroup m.team m.grp F).team n = { t.team n with groups := ((t.onGroup m.team m.grp F).team n).groups } := fun n => by
    have hrest := onGroup_team_rest t m.team m.grp F n
    generalize (t.onGroup m.team m.grp F).team n = y at hrest
    cases y
    cases hs : t.team n
    rw [hs] at hrest
    cases hrest
    rfl
  refine ⟨?rest, hd, hcore, fun n => ?team, fun hb n => ?shares, fun n k hn => ?group⟩
  case rest =>
    unfold State.onGroup State.onTeam
    dsimp only
    rw [hr]
  case team =>
    have hn := ht n
    generalize (t.onGroup m.team m.grp F).team n = y at hn
    rw [hn, hteam n]
  case shares => rw [ht n]; exact hshares hb n
  case group => rw [onGroup_other _ _ _ _ _ _ hn]; exact hgroup n k hn

/-- It completes with an outstanding instruction and the detector's counts of a set as given. -/
def ListBegins (s : State) (c : Nat) (x : Issue) (m : Member) (act : Lanes) (ll : Ll) (o : Host.Outcome State Fault Refusal)
    (p : Pend) (set_ n av : Nat) : Prop :=
  Ends c x m 0 o (fun u => Accessed false { s with ctxs := u.ctxs } u m ∧ Began (m.at_ s u) (m.group u) m.lanes act ll p ∧
    get 0 set_ (u.ctx (s.ctxOf m.team)).counts = n ∧ get 0 set_ (u.ctx (s.ctxOf m.team)).avail = av)

/-- What beginning an outstanding instruction after accesses to lists leaves. -/
theorem Listing.began {s u : State} {m : Member} {sh : Shape} (hu : Listing s u m sh) (ll : Ll) (act : Lanes) (p : Pend) :
    let v := u.onGroup m.team m.grp (fun g => (g.begin ll act p).1)
    Began (m.at_ s v) (m.group v) m.lanes act ll p := by
  intro v
  have hv : m.group v = { ((m.begun s sh).begin ll act p).1 with gts := (m.group u).gts } := by
    rw [← begin_gts, ← hu.own]
    exact (State.group_onGroup u m.team m.grp m.team m.grp _).trans (if_pos ⟨rfl, rfl, hu.has⟩)
  unfold Member.at_
  rw [hv]
  exact (began_begin s m sh ll act p).gts _

theorem Listing.begins {s : State} {c : Nat} {x : Issue} {m : Member} (h : Sole s c x m) (sh : Shape) (f : Env → State → Res) {u : State}
    (hu : Listing s u m sh) {ll : Ll} (hsl : sh.ll = some ll) (hll : m.canCount s sh.g ll) (hreqs : sh.reqs = false)
    (hw : sh.wait (s.env c x m sh.g) s = false) (hl : (m.group s).level.atLeast sh.level = true) (ht : sh.top ≤ (m.group s).n)
    (p : Pend) (hf : f (s.env c x m sh.g) (s.begun sh c x m) = .go ((s.env c x m sh.g).begin u ll p)) {set_ n av : Nat}
    (hn : get 0 set_ (u.ctx (s.ctxOf m.team)).counts = n) (ha : get 0 set_ (u.ctx (s.ctxOf m.team)).avail = av) :
    ListBegins s c x m (m.active s sh.g) ll (.next (s.run sh f)) p set_ n av := by
  have hv := hu.began ll (m.active s sh.g) p
  refine run_ends h sh f _ 0 (fun l e => ?_) (by simp [State.roomFor, hreqs]) hw hl ht hf ?_ ?_ _ ⟨?_, hv, hn, ha⟩
  · rw [hsl] at e; cases e; exact hll
  · exact (has_onGroup _ _ _ _ _ _).trans hu.has
  · exact (congrArg Group.calls hv.rest).trans h.calls
  · exact hu.acc.onOwn _

end Sys2Proof.Machine
end

section
/-!
PROOF. `WLAPP` and `WLTAKE` complete (R292).
-/
namespace Sys2Proof.Machine

theorem listAt_cfgd {s : State} {a : Agent} {va : Word} {p : Spot} {l : WList} (h : s.listAt a va = .ok (p, l)) (hh : p.held = false)
    (ho : s.owned (lineNo p.addr) = false) : l.cfgd = true := by
  unfold State.listAt at h
  split at h
  · cases h
  · split at h
    · cases h
    · split at h
      · cases h
      · dsimp only at h
        split at h
        · cases h
        · split at h
          · next hw => cases h; simp [hh, ho] at hw
          · split at h
            · cases h
            · next hc =>
              split at h
              · cases h
              · cases h; simpa using hc

/-- A list that a lane names and no line of which is awaited is free. -/
theorem wlOwned_free {s : State} {a : Agent} {use : Use} {real : Lanes} {va : Nat → Word} {item : WList → Nat → Nat}
    (h : s.wlOwned a use real va item = []) {i : Nat} (hi : i < 64) (hm : real.getLsbD i = true) {p : Spot} {l : WList}
    (hl : s.listAt a (va i) = .ok (p, l)) : p.held = false ∧ s.owned (lineNo p.addr) = false := by
  have := List.flatMap_eq_nil_iff.mp h i (mem_lanesOf.mpr ⟨hi, hm⟩)
  rw [hl] at this
  dsimp only at this
  split at this
  · cases this
  · next hw => simpa using hw

theorem lane_of_ne_zero {m : Lanes} (h : m ≠ 0) : lowest m < 64 ∧ m.getLsbD (lowest m) = true := by
  have hn := lanesOf_ne_nil h
  refine mem_lanesOf.mp ?_
  unfold lowest
  cases he : lanesOf m with
  | nil => exact absurd he hn
  | cons a l => simp

/-! ### Items appended and taken -/

/-- A header with n items more, published. -/
def WList.appended (l : WList) (n : Nat) : WList := { l with puts := l.puts + n, pub := l.puts + n }

/-- A header with n items taken. -/
def WList.taken (l : WList) (n : Nat) : WList := { l with gets := l.gets + n, held := l.held + n }

theorem listAppend_eq (s : State) {a : Agent} (ha : a.op = none) (va : Word) (l : WList) {its : List (List Nat)} (hn : its ≠ []) :
    ∃ t, Touched false s t ∧ s.listAppend a va l its = t.detect a.ctx l (l.appended its.length) true := by
  refine ⟨_, ?_, if_neg (by simpa using hn)⟩
  refine Touched.trans (foldl_keeps (Touched false s) _ (fun u x hu => ?_) _ (Touched.listRmw s ha _ _)) (Touched.listRmw _ ha _ _)
  exact foldl_keeps (Touched false s) _ (fun u w hu => hu.trans (Touched.gstore _ ha _ _ _)) _ hu

theorem Touched.ctx {b : Bool} {s t : State} (h : Touched b s t) (k : Nat) : t.ctx k = s.ctx k := by
  unfold State.ctx
  rw [h.rest]

theorem Listing.ctx_of_begun {s : State} {c : Nat} {x : Issue} {m : Member} (h : Sole s c x m) (sh : Shape) {t : State}
    (ht : Touched false (s.begun sh c x m) t) (k : Nat) : t.ctx k = s.ctx k := by
  rw [ht.ctx, (Sight.begun h sh).alike.ctx]

/-! ### Lanes that name one list -/

/-- The lanes of a mask name one list, and none of them faults. -/
structure OneList (s : State) (a : Agent) (take : Bool) (z : Nat) (real : Lanes) (va : Nat → Word) (p : Spot) (l : WList) : Prop where
  some : real ≠ 0
  at_ : ∀ i, i < 64 → real.getLsbD i = true →
    s.listAt a (va i) = .ok (p, l) ∧ va i = va (lowest real) ∧ s.wlFault a take z real va i = none

namespace OneList

variable {s t : State} {a : Agent} {take : Bool} {z : Nat} {real : Lanes} {va : Nat → Word} {p : Spot} {l : WList}

theorem same (h : OneList s a take z real va p l) (i : Nat) (hi : i < 64) (hm : real.getLsbD i = true) : va i = va (lowest real) :=
  (h.at_ i hi hm).2.1

theorem found (h : OneList s a take z real va p l) : s.listAt a (va (lowest real)) = .ok (p, l) :=
  have hlow := lane_of_ne_zero h.some
  (h.at_ _ hlow.1 hlow.2).1

theorem sound (h : OneList s a take z real va p l) : laneFaults real (fun i => s.wlFault a take z real va i) = none :=
  laneFaults_none (fun i hi hm => (h.at_ i hi hm).2.2)

theorem seen (h : OneList s a take z real va p l) (k : Sight s t) : OneList t a take z real va p l :=
  ⟨h.some, fun i hi hm => by rw [k.listAt, k.wlFault]; exact h.at_ i hi hm⟩

/-- It is configured, if no line that the lanes touch is awaited. -/
theorem cfgd (h : OneList s a take z real va p l) {use : Use} {item : WList → Nat → Nat} (free : s.wlOwned a use real va item = []) :
    l.cfgd = true := by
  have hlow := lane_of_ne_zero h.some
  obtain ⟨hheld, howned⟩ := wlOwned_free free hlow.1 hlow.2 h.found
  exact listAt_cfgd h.found hheld howned

/-- The first n of the lanes. -/
theorem length_take (h : OneList s a take z real va p l) {n : Nat} (hn : n ≠ 0) :
    ((lanesOf real).take n).length = min (countLanes real) n ∧ (lanesOf real).take n ≠ [] := by
  refine ⟨by rw [List.length_take, Nat.min_comm]; rfl, fun he => ?_⟩
  exact (List.take_eq_nil_iff.mp he).elim hn (lanesOf_ne_nil h.some)

end OneList

theorem checked_next (r : Res) : checked none [] r = r := rfl

theorem count_appended {l : WList} (h : l.gets ≤ l.puts) (n : Nat) : (l.appended n).count = l.count + n := by
  simp only [WList.count, WList.appended]
  omega

theorem count_taken {l : WList} {n : Nat} (h : n ≤ l.puts - l.gets) : (l.taken n).count = l.count := by
  simp only [WList.count, WList.taken]
  omega

/-! ### `WLAPP` -/

/-- The lanes that name a list take tickets of it, and their items are written. -/
def appendStep (a : Agent) (real : Lanes) (va : Nat → Word) (it : Nat → List Nat) (p : SMap Nat × State) (key : Word) :
    SMap Nat × State :=
  match p.2.listAt a key with
  | .error _ => p
  | .ok (_, l) =>
    let got := (namers real va key).take l.room
    (got.zipIdx.foldl (fun (w : SMap Nat) (x : Nat × Nat) => put x.1 (l.puts + x.2) w) p.1, p.2.listAppend a key l (got.map it))

/-- What a lane reads for a ticket, or for none. -/
def ticketWord (r : Option Nat) : Word :=
  match r with
  | some n => BitVec.ofNat 64 n
  | none => BitVec.allOnes 64

/-- What the lanes will read: their tickets, and who has one. -/
def appendPend (po : PReg) (dst : Option VReg) (act : Lanes) (r : Nat → Option Nat) : Pend :=
  { Pend.zero with
    vw := match dst with
      | some v => vWrites v.toNat act (fun i => ticketWord (r i))
      | none => []
    pw := pWrites po.toNat act (fun i => (r i).isSome) }

/-- What `WLAPP` does in its own step. -/
def wlappBody (ll : Ll) (z : BitVec 2) (po : PReg) (dst : Option VReg) (a b : Reg) (e : Env) (s : State) : Res :=
  let gr := e.group s
  let real := gr.real e.act
  let va := gr.reg a
  let r := (distinct ((lanesOf real).map va)).foldl
    (appendStep e.agent real va (fun i => (List.range (2 ^ z.toNat)).map (fun j => (gr.runReg b j i).toNat))) ([], s)
  checked (laneFaults real (fun i => s.wlFault e.agent false z.toNat real va i))
    (s.wlOwned e.agent .write real va (fun l p => l.puts + p)) (.go (e.begin r.2 ll (appendPend po dst e.act (fun i => find i r.1))))

/-- What an instruction on lists asks for in its issue step. -/
def listShape (g : Guard) (top : Nat) (ll : Option Ll) : Shape := { g := g, top := top, ll := ll, mem := true, acc := true }

theorem exec_wlapp_body (g : Guard) (ll : Ll) (z : BitVec 2) (po : PReg) (dst : Option VReg) (a b : Reg) (s : State) :
    exec (.wlapp g ll z po dst a b) s =
      .next (s.run (listShape g (maxOf [topD dst, topR a 1, topR b (2 ^ z.toNat)]) (some ll)) (wlappBody ll z po dst a b)) := rfl

theorem appendPend_congr (po : PReg) (dst : Option VReg) {act : Lanes} {r q : Nat → Option Nat} (h : ∀ i, i < 64 → r i = q i) :
    appendPend po dst act r = appendPend po dst act q := by
  have hr : ∀ i ∈ lanesOf act, r i = q i := fun i hi => h i (mem_lanesOf.mp hi).1
  unfold appendPend
  rw [pWrites_congr po.toNat (fun i hi => by rw [hr i hi])]
  cases dst with
  | none => rfl
  | some v =>
    dsimp only
    rw [vWrites_congr v.toNat (fun i hi => by rw [hr i hi])]

section

variable {s : State} {c : Nat} {x : Issue} {m : Member} {g : Guard} {ll : Ll} {z : BitVec 2} {po : PReg} {a : Reg} {p : Spot} {l : WList}

/-- Its lanes that are no helper lanes. -/
def Member.real (m : Member) (s : State) (g : Guard) : Lanes := m.active s g &&& ~~~(m.group s).helper

theorem begun_real (sh : Shape) (g : Guard) : (m.begun s sh).real (m.active s g) = m.real s g := by
  unfold Group.real
  rw [begun_helper]
  rfl

/-- The ticket of a lane, if its list has room for it. -/
def ticket (real : Lanes) (va : Nat → Word) (l : WList) (i : Nat) : Option Nat :=
  if real.getLsbD i && decide (listPlace real va i < l.room) then some (l.puts + listPlace real va i) else none

theorem appendStep_one {e : Agent} {real : Lanes} {va : Nat → Word} (he : e.op = none) (one : OneList s e false z.toNat real va p l)
    (it : Nat → List Nat) (hroom : l.room ≠ 0) : ∃ t w, Touched false s t ∧ (∀ i, i < 64 → find i w = ticket real va l i) ∧
      appendStep e real va it ([], s) (va (lowest real)) =
        (w, t.detect e.ctx l (l.appended (min (countLanes real) l.room)) true) := by
  obtain ⟨hlen, hne⟩ := one.length_take hroom
  obtain ⟨t, ht, hu⟩ := listAppend_eq s he (va (lowest real)) l
    (its := ((lanesOf real).take l.room).map it) (by simpa using hne)
  rw [List.length_map, hlen] at hu
  have hstep : appendStep e real va it ([], s) (va (lowest real)) = (((lanesOf real).take l.room).zipIdx.foldl
      (fun w x => put x.1 (l.puts + x.2) w) [], s.listAppend e (va (lowest real)) l (((lanesOf real).take l.room).map it)) := by
    unfold appendStep
    simp only [one.found, namers_all one.same]
  refine ⟨t, _, ht, fun i hi => ?_, hstep.trans (by rw [hu])⟩
  · rw [find_tickets (sorted_lanesOf real)]
    have hin := mem_take_lanes one.same l.room hi
    unfold ticket
    by_cases hm : i ∈ (lanesOf real).take l.room
    · obtain ⟨h1, h2⟩ := hin.mp hm
      rw [if_pos hm, if_pos (by simp [h1, h2]), listPlace_all one.same hi h1, Nat.zero_add]
    · rw [if_neg hm, if_neg (by simpa using fun h1 => by simpa [h1] using fun h2 => hm (hin.mpr ⟨h1, h2⟩))]
      rfl

theorem wlapp_begins (h : Sole s c x m) (hq : ∀ n k, (s.group n k).Unquiet) {dst : Option VReg} {b : Reg}
    (htop : maxOf [topD dst, topR a 1, topR b (2 ^ z.toNat)] ≤ (m.group s).n) (hll : m.canCount s g ll)
    (one : OneList s (m.agent s c) false z.toNat (m.real s g) ((m.group s).reg a) p l)
    (free : s.wlOwned (m.agent s c) .write (m.real s g) ((m.group s).reg a) (fun l q => l.puts + q) = [])
    (hg : l.gets ≤ l.puts) (hcount : l.count ≤ get 0 l.set (s.ctx (s.ctxOf m.team)).counts) (hroom : l.room ≠ 0) :
    let n := min (countLanes (m.real s g)) l.room
    ListBegins s c x m (m.active s g) ll (exec (.wlapp g ll z po dst a b) s)
      (appendPend po dst (m.active s g) (ticket (m.real s g) ((m.group s).reg a) l)) l.set
      (get 0 l.set (s.ctx (s.ctxOf m.team)).counts + n)
      (get 0 l.set (s.ctx (s.ctxOf m.team)).avail - (l.pub - l.gets) + (l.puts + n - l.gets)) := by
  intro n
  rw [exec_wlapp_body]
  let sh := listShape g (maxOf [topD dst, topR a 1, topR b (2 ^ z.toNat)]) (some ll)
  have seen := one.seen (Sight.begun h sh)
  have hfree := (Sight.begun h sh).wlOwned (m.agent s c) .write (m.real s g) ((m.group s).reg a) (fun l q => l.puts + q)
  obtain ⟨t, w, ht, hw, hu⟩ := appendStep_one rfl seen
    (fun i => (List.range (2 ^ z.toNat)).map (fun j => ((m.group s).runReg b j i).toNat)) hroom
  have hctx := detect_ctx t (s.ctxOf m.team) l (l.appended n) true
  rw [Listing.ctx_of_begun h sh ht] at hctx
  obtain ⟨hc1, hc2⟩ := Ctx.detect_counts (x := s.ctx (s.ctxOf m.team)) (new := l.appended n) true (one.cfgd free) rfl
  rw [← hctx] at hc1 hc2
  have hlist := ((Listing.begun h sh).touched ht).detect hq (s.ctxOf m.team) l (l.appended n) true
  refine Listing.begins h sh _ hlist rfl hll rfl rfl (atLeast_user _) htop _ ?_ (hc1.trans ?_) hc2
  · have hgroup : (s.env c x m sh.g).group (s.begun sh c x m) = m.begun s sh := begun_group h sh
    unfold wlappBody
    simp only [hgroup, begun_reg, begun_runReg, show (s.env c x m sh.g).act = m.active s g from rfl, begun_real,
      show (s.env c x m sh.g).agent = m.agent s c from rfl, seen.sound, hfree, free, checked_next, distinct_all one.some one.same,
      List.foldl_cons, List.foldl_nil, hu]
    rw [appendPend_congr po dst hw]
    rfl
  · rw [count_appended hg]
    omega

end

end Sys2Proof.Machine
end

section
/-!
PROOF. `WLTAKE` and `WLDONE` complete (R292, R293).
-/
namespace Sys2Proof.Machine

/-! ### `WLTAKE` -/

/-- The lanes that name a list take items of it. -/
def takeStep (a : Agent) (k : Nat) (real : Lanes) (va : Nat → Word) (d : VReg) (p : Lanes × SMap Word × State) (key : Word) :
    Lanes × SMap Word × State :=
  match p.2.2.listAt a key with
  | .error _ => p
  | .ok (_, l) =>
    let got := (namers real va key).take (l.pub - l.gets)
    let s := p.2.2.listRmw a key (fun x => { x with gets := x.gets + got.length, held := x.held + got.length })
    let q := s.takeItems a l d.toNat got
    let new := { l with gets := l.gets + got.length, held := l.held + got.length }
    (got.foldl (fun m i => m ||| laneBit i) p.1, q.1.foldl (fun w x => put x.1 x.2 w) p.2.1,
      q.2.detect k l new false)

/-- What `WLTAKE` does in its own step. -/
def wltakeBody (ll : Ll) (z : BitVec 2) (po : PReg) (d : VReg) (a : Reg) (e : Env) (s : State) : Res :=
  let gr := e.group s
  let real := gr.real e.act
  let va := gr.reg a
  let r := (distinct ((lanesOf real).map va)).foldl (takeStep e.agent e.ctx real va d) (0, [], s)
  checked (laneFaults real (fun i => s.wlFault e.agent true z.toNat real va i))
    (s.wlOwned e.agent .read real va (fun l p => l.gets + p))
    (.go (e.begin r.2.2 ll { Pend.zero with vw := r.2.1, pw := pWrites po.toNat e.act (fun i => r.1.getLsbD i) }))

theorem exec_wltake_body (g : Guard) (ll : Ll) (z : BitVec 2) (po : PReg) (d : VReg) (a : Reg) (s : State) :
    exec (.wltake g ll z po d a) s =
      .next (s.run (listShape g (maxOf [topV d (2 ^ z.toNat), topR a 1]) (some ll)) (wltakeBody ll z po d a)) := rfl

/-- Whether a lane takes an item. -/
def taker (real : Lanes) (va : Nat → Word) (l : WList) (i : Nat) : Bool :=
  real.getLsbD i && decide (listPlace real va i < l.pub - l.gets)

section

variable {s : State} {c : Nat} {x : Issue} {m : Member} {g : Guard} {ll : Ll} {z : BitVec 2} {po : PReg} {d : VReg} {a b : Reg} {p : Spot}
  {l : WList}

theorem takeStep_one {e : Agent} {real : Lanes} {va : Nat → Word} {k : Nat} (he : e.op = none) (one : OneList s e true z.toNat real va p l) (d : VReg) :
    ∃ t w vw, Touched false s t ∧ (∀ i, i < 64 → w.getLsbD i = taker real va l i) ∧
      takeStep e k real va d (0, [], s) (va (lowest real)) =
        (w, vw, t.detect k l (l.taken (min (countLanes real) (l.pub - l.gets))) false) := by
  have hlen : ((lanesOf real).take (l.pub - l.gets)).length = min (countLanes real) (l.pub - l.gets) := by
    rw [List.length_take, Nat.min_comm]
    rfl
  let got := (lanesOf real).take (l.pub - l.gets)
  let t := s.listRmw e (va (lowest real)) (fun x => { x with gets := x.gets + got.length, held := x.held + got.length })
  let q := t.takeItems e l d.toNat got
  have hstep : takeStep e k real va d (0, [], s) (va (lowest real)) = (got.foldl (fun m i => m ||| laneBit i) 0,
      q.1.foldl (fun w x => put x.1 x.2 w) [], q.2.detect k l (l.taken got.length) false) := by
    unfold takeStep
    simp only [one.found, namers_all one.same]
    rfl
  refine ⟨q.2, _, _, (Touched.listRmw s he _ _).trans (Touched.takeItems t he l d.toNat got), fun i hi => ?_, hstep.trans (by rw [hlen])⟩
  rw [show (got.foldl (fun m i => m ||| laneBit i) (0 : Lanes)).getLsbD i = decide (i ∈ got) by
    simpa using getLsbD_foldl_laneBit (fun _ => true) i hi got 0]
  unfold taker
  rw [decide_eq_decide.mpr (mem_take_lanes one.same (l.pub - l.gets) hi), Bool.decide_and, Bool.decide_eq_true]

theorem wltake_begins (h : Sole s c x m) (hq : ∀ n k, (s.group n k).Unquiet)
    (htop : maxOf [topV d (2 ^ z.toNat), topR a 1] ≤ (m.group s).n) (hll : m.canCount s g ll)
    (one : OneList s (m.agent s c) true z.toNat (m.real s g) ((m.group s).reg a) p l)
    (free : s.wlOwned (m.agent s c) .read (m.real s g) ((m.group s).reg a) (fun l q => l.gets + q) = [])
    (hg : l.gets ≤ l.pub) (hpub : l.pub ≤ l.puts) (hcount : l.count ≤ get 0 l.set (s.ctx (s.ctxOf m.team)).counts)
    (havail : l.pub - l.gets ≤ get 0 l.set (s.ctx (s.ctxOf m.team)).avail) :
    ∃ vw, ListBegins s c x m (m.active s g) ll (exec (.wltake g ll z po d a) s)
      { Pend.zero with vw := vw, pw := pWrites po.toNat (m.active s g) (taker (m.real s g) ((m.group s).reg a) l) } l.set
      (get 0 l.set (s.ctx (s.ctxOf m.team)).counts)
      (get 0 l.set (s.ctx (s.ctxOf m.team)).avail - min (countLanes (m.real s g)) (l.pub - l.gets)) := by
  rw [exec_wltake_body]
  let n := min (countLanes (m.real s g)) (l.pub - l.gets)
  let sh := listShape g (maxOf [topV d (2 ^ z.toNat), topR a 1]) (some ll)
  have seen := one.seen (Sight.begun h sh)
  have hfree := (Sight.begun h sh).wlOwned (m.agent s c) .read (m.real s g) ((m.group s).reg a) (fun l q => l.gets + q)
  obtain ⟨t, w, vw, ht, hw, hu⟩ := takeStep_one (k := s.ctxOf m.team) rfl seen d
  have hctx := detect_ctx t (s.ctxOf m.team) l (l.taken n) false
  rw [Listing.ctx_of_begun h sh ht] at hctx
  obtain ⟨hc1, hc2⟩ := Ctx.detect_counts (x := s.ctx (s.ctxOf m.team)) (new := l.taken n) false (one.cfgd free) rfl
  rw [← hctx] at hc1 hc2
  have hlist := ((Listing.begun h sh).touched ht).detect hq (s.ctxOf m.team) l (l.taken n) false
  have hn : n ≤ l.pub - l.gets := Nat.min_le_right _ _
  refine ⟨vw, Listing.begins h sh _ hlist rfl hll rfl rfl (atLeast_user _) htop _ ?_ (hc1.trans ?_) (hc2.trans ?_)⟩
  · have hgroup : (s.env c x m sh.g).group (s.begun sh c x m) = m.begun s sh := begun_group h sh
    unfold wltakeBody
    simp only [hgroup, begun_reg, show (s.env c x m sh.g).act = m.active s g from rfl, begun_real,
      show (s.env c x m sh.g).agent = m.agent s c from rfl,
      show (s.env c x m sh.g).ctx = s.ctxOf m.team from rfl, seen.sound, hfree, free, checked_next, distinct_all one.some one.same,
      List.foldl_cons, List.foldl_nil, hu]
    rw [pWrites_congr po.toNat (fun i hi => hw i (mem_lanesOf.mp hi).1)]
  · rw [count_taken (by omega)]
    omega
  · show _ - (l.pub - l.gets) + (l.pub - (l.gets + n)) = _ - n
    omega

/-! ### `WLDONE` -/

/-- What `WLDONE` does for one lane. -/
def doneStep (a : Agent) (k : Nat) (va : Nat → Word) (n : Nat → Nat) (s : State) (i : Nat) : State :=
  if n i = 0 then s
  else
    match s.listAt a (va i) with
    | .error _ => s
    | .ok (_, l) => (s.listRmw a (va i) (fun x => x.done (n i))).detect k l (l.done (n i)) false

/-- What a lane that names a list faults on. -/
def State.listFault (s : State) (a : Agent) (va : Word) : Option (Kind × Nat) :=
  match s.listAt a va with
  | .error f => some f
  | .ok _ => none

theorem listFault_none {s : State} {a : Agent} {va : Word} {q : Spot × WList} (h : s.listAt a va = .ok q) : s.listFault a va = none := by
  unfold State.listFault
  rw [h]

/-- What `WLDONE` does in its own step. -/
def wldoneBody (a b : Reg) (e : Env) (s : State) : Res :=
  let gr := e.group s
  let real := gr.real e.act
  checked (laneFaults real (fun i => s.listFault e.agent (gr.reg a i))) (s.ownedHome e.agent .write ((lanesOf real).map (gr.reg a)))
    (.go ((lanesOf real).foldl (doneStep e.agent e.ctx (gr.reg a) (fun i => (gr.reg b i).toNat)) s))

theorem exec_wldone_body (g : Guard) (a b : Reg) (s : State) :
    exec (.wldone g a b) s = .next (s.run (listShape g (maxOf [topR a 1, topR b 1]) none) (wldoneBody a b)) := rfl

theorem listAt_seek {e : Agent} {va : Word} (h : s.listAt e va = .ok (p, l)) : s.seek e .write va = .ok p ∧ ordered p.cls = true := by
  unfold State.listAt at h
  split at h
  · cases h
  · split at h
    · cases h
    · split at h
      · cases h
      · next q hs =>
        dsimp only at h
        split at h
        · cases h
        · next ho =>
          have : q = p := by
            split at h
            · cases h; rfl
            · split at h
              · cases h
              · split at h
                · cases h
                · cases h; rfl
          subst this
          exact ⟨hs, by simpa using ho⟩

/-- A header whose home line is not awaited is free. -/
theorem ownedHome_free {e : Agent} {va : Word} (hl : s.listAt e va = .ok (p, l)) (h : s.ownedHome e .write [va] = []) :
    p.held = false ∧ s.owned (lineNo p.addr) = false := by
  obtain ⟨hs, ho⟩ := listAt_seek hl
  unfold State.ownedHome State.waitLines State.spots at h
  simp only [List.filterMap_cons, List.filterMap_nil, hs] at h
  unfold State.waitLine at h
  cases hp : p.held <;> cases hw : s.owned (lineNo p.addr) <;> simp_all

theorem count_done {n : Nat} (h : l.held ≤ l.count) : (l.done n).count = l.count - min n l.held := by
  have hm : Nat.min n l.held ≤ l.held := Nat.min_le_right _ _
  have e : Nat.min n l.held = min n l.held := rfl
  simp only [WList.count, WList.done] at h ⊢
  omega

/-- One lane's release changes no list, or one. -/
theorem doneStep_cases {t : State} {e : Agent} {k : Nat} {va : Nat → Word} {i : Nat} (he : e.op = none) (hat : t.listAt e (va i) = .ok (p, l))
    (n : Nat → Nat) : (n i = 0 ∧ doneStep e k va n t i = t) ∨
      ∃ u, Touched false t u ∧ doneStep e k va n t i = u.detect k l (l.done (n i)) false := by
  unfold doneStep
  by_cases hn : n i = 0
  · exact .inl ⟨hn, if_pos hn⟩
  · rw [if_neg hn, hat]
    exact .inr ⟨_, Touched.listRmw t he _ _, rfl⟩

theorem doneStep_begun {e : Agent} {va : Nat → Word} {i : Nat} (h : Sole s c x m) (he : e.op = none) (hq : ∀ n k, (s.group n k).Unquiet)
    (sh : Shape) (hat : s.listAt e (va i) = .ok (p, l)) (hcfgd : l.cfgd = true) (k : Nat) (n : Nat → Nat) (hheld : l.held ≤ l.count)
    (hcount : l.count ≤ get 0 l.set (s.ctx k).counts) :
    Listing s (doneStep e k va n (s.begun sh c x m) i) m sh ∧
    get 0 l.set ((doneStep e k va n (s.begun sh c x m) i).ctx k).counts = get 0 l.set (s.ctx k).counts - min (n i) l.held := by
  rw [← (Sight.begun h sh).listAt] at hat
  rcases doneStep_cases (k := k) he hat n with ⟨hn, hu⟩ | ⟨t, ht, hu⟩
  · rw [hu, hn, Nat.zero_min, Nat.sub_zero, (Sight.begun h sh).alike.ctx]
    exact ⟨Listing.begun h sh, rfl⟩
  · rw [hu, detect_ctx, Listing.ctx_of_begun h sh ht]
    refine ⟨((Listing.begun h sh).touched ht).detect hq _ _ _ _, ?_⟩
    rw [(Ctx.detect_counts false hcfgd (show (l.done (n i)).set = l.set from rfl)).1, count_done hheld]
    omega

/-- Its ordinal apart, too, an instruction on lists leaves the group as it was. -/
theorem Listing.group_open {u : State} {sh : Shape} (h : Listing s u m sh) :
    m.group u = { m.at_ s u with pend := (m.group u).pend, ordinal := (m.group u).ordinal } := by
  have hg := h.group
  have ho : (m.group u).ordinal = (m.begun s sh).ordinal := by
    have := congrArg (fun G : Group => G.ordinal) hg
    exact this
  rw [← ho] at hg
  exact hg

theorem wldone_ends (h : Sole s c x m) (hq : ∀ n k, (s.group n k).Unquiet) (htop : maxOf [topR a 1, topR b 1] ≤ (m.group s).n) {i : Nat}
    (hreal : ∀ j, j < 64 → ((m.real s g).getLsbD j = true ↔ j = i)) (hi : i < 64)
    (hat : s.listAt (m.agent s c) ((m.group s).reg a i) = .ok (p, l))
    (free : s.ownedHome (m.agent s c) .write [(m.group s).reg a i] = []) (hheld : l.held ≤ l.count)
    (hcount : l.count ≤ get 0 l.set (s.ctx (s.ctxOf m.team)).counts) :
    Ends c x m 0 (exec (.wldone g a b) s) (fun u => Accessed false { s with ctxs := u.ctxs } u m ∧
      m.group u = { m.at_ s u with pend := (m.group u).pend, ordinal := (m.group u).ordinal } ∧
      get 0 l.set (u.ctx (s.ctxOf m.team)).counts =
        get 0 l.set (s.ctx (s.ctxOf m.team)).counts - min ((m.group s).reg b i).toNat l.held) := by
  rw [exec_wldone_body]
  let sh := listShape g (maxOf [topR a 1, topR b 1]) none
  obtain ⟨hfree, howned⟩ := ownedHome_free hat free
  obtain ⟨hlist, hcounts⟩ := doneStep_begun (e := m.agent s c) h rfl hq sh hat (listAt_cfgd hat hfree howned) (s.ctxOf m.team)
    (fun i => ((m.group s).reg b i).toNat) hheld hcount
  refine Listing.ends h sh _ hlist (fun l e => by cases e) rfl rfl (atLeast_user _) htop ?_ _ ⟨hlist.acc, hlist.group_open, hcounts⟩
  have hgroup : (s.env c x m sh.g).group (s.begun sh c x m) = m.begun s sh := begun_group h sh
  have hsound : laneFaults (m.real s g) (fun j => (s.begun sh c x m).listFault (m.agent s c) ((m.group s).reg a j)) = none := by
    refine laneFaults_none (fun j hj hm => listFault_none (q := (p, l)) ?_)
    rw [(hreal j hj).mp hm, (Sight.begun h sh).listAt, hat]
  unfold wldoneBody
  simp only [hgroup, begun_reg, show (s.env c x m sh.g).act = m.active s g from rfl, begun_real,
    show (s.env c x m sh.g).agent = m.agent s c from rfl, show (s.env c x m sh.g).ctx = s.ctxOf m.team from rfl,
    lanesOf_single hi hreal, List.map_cons, List.map_nil, (Sight.begun h sh).ownedHome, free, List.foldl_cons, List.foldl_nil]
  rw [hsound]
  rfl

end

end Sys2Proof.Machine
end

section
/-!
PROOF. `WLCFG` completes: the header it writes is the one that memory holds (R4, R291).
-/
namespace Sys2Proof.Machine

/-! ### Bytes read where they were written -/

theorem get_writeN_below (n : Nat) {a x : Nat} (h : x < a) (m : SMap Byte) (v : Nat) : get 0 x (writeN m a n v) = get 0 x m := by
  induction n generalizing a m v with
  | zero => rfl
  | succ n ih =>
    unfold writeN
    rw [ih (by omega), get_set, if_neg (by omega)]

theorem readN_writeN (n a v : Nat) (m : SMap Byte) : readN (writeN m a n v) a n = v % 256 ^ n := by
  induction n generalizing a v m with
  | zero => exact (Nat.mod_one v).symm
  | succ n ih =>
    unfold writeN readN
    rw [ih, get_writeN_below n (Nat.lt_succ_self a), get_set, if_pos rfl, Nat.pow_succ', Nat.mod_mul, BitVec.toNat_ofNat]

/-! ### A store -/

/-- Memory and what is recorded are the same. -/
def SameMem (s t : State) : Prop := t.mem = s.mem ∧ t.traces = s.traces

theorem SameMem.pushCores (s : State) (cs : List Nat) (l t : Nat) : SameMem s (s.pushCores cs l t) := by
  unfold State.pushCores
  exact foldl_keeps (SameMem s) _ (fun u c (hu : SameMem s u) => (show SameMem s (u.onCore c _) from hu)) _ ⟨rfl, rfl⟩

theorem SameMem.checkTime (s : State) (t : Nat) : SameMem s (s.checkTime t) := by
  unfold State.checkTime
  split <;> exact ⟨rfl, rfl⟩

theorem SameMem.trans {s t u : State} (h : SameMem s t) (k : SameMem t u) : SameMem s u := ⟨k.1.trans h.1, k.2.trans h.2⟩

theorem soil_rest (s : State) (l : Nat) : s.soil l = { s with homeOld := (s.soil l).homeOld } := by
  unfold State.soil
  split <;> rfl

/-- A key may write a line without changing its other bytes. -/
def State.open_ (s : State) (key l : Nat) : Prop := (s.line l).key = 0 ∨ (s.line l).key = key ∨ 2 ^ 61 ≤ l * 64

theorem SameMem.rekey {s : State} {key l : Nat} (h : s.open_ key l) : SameMem s (s.rekey key l) := by
  unfold State.rekey
  dsimp only
  split
  · exact ⟨rfl, rfl⟩
  · next hn =>
    have : (s.line l).key = 0 := by
      rcases h with h | h | h
      · exact h
      · exact absurd (.inr h) hn
      · exact absurd (.inl h) hn
    rw [if_pos this]
    exact ⟨rfl, rfl⟩

theorem writeKey_mem {s : State} {key a : Nat} (n v : Nat) (h : s.open_ key (lineNo a)) :
    (s.writeKey key a n v).mem = writeN s.mem a n v ∧ (s.writeKey key a n v).traces = s.traces := by
  unfold State.writeKey
  have hs : SameMem s (s.soil (lineNo a)) := by rw [soil_rest]; exact ⟨rfl, rfl⟩
  have hl : (s.soil (lineNo a)).line = s.line := by rw [soil_rest]; rfl
  generalize s.soil (lineNo a) = t at hs hl
  obtain ⟨h1, h2⟩ := hs.trans (SameMem.rekey (s := t) (key := key) (l := lineNo a) (by unfold State.open_; rw [hl]; exact h))
  unfold State.plainWrite
  dsimp only
  rw [← h1, ← h2]
  split <;> exact ⟨rfl, rfl⟩

theorem tableMask_plain {s : State} {a n : Nat} (v : Nat) (h : ∀ g ∈ s.guarded a, g.mask a n = 0) : s.tableMask a n v = v := by
  have : ∀ l : List Guarded, (∀ g ∈ l, g.mask a n = 0) → l.foldl (fun m g => m ||| g.mask a n) 0 = 0 := by
    intro l
    induction l with
    | nil => intro _; rfl
    | cons g l ih =>
      intro hl
      rw [List.foldl_cons, hl g (by simp)]
      exact ih (fun g hg => hl g (List.mem_cons_of_mem _ hg))
  unfold State.tableMask
  dsimp only
  rw [this _ h, if_pos rfl]

theorem storeAt_mem {s : State} {a : Agent} {cls addr n : Nat} (v t : Nat) (h : s.Plain a.ctx cls addr n) :
    (s.storeAt a cls addr n v t).mem = writeN s.mem addr n v ∧ (s.storeAt a cls addr n v t).traces = s.traces := by
  obtain ⟨-, hcls, hkey, hmask⟩ := h
  unfold State.storeAt
  dsimp only
  rw [if_neg hcls, tableMask_plain v hmask]
  have hw := writeKey_mem (s := s) (key := s.keyOf a.ctx) n v hkey
  generalize s.writeKey (s.keyOf a.ctx) addr n v = u at hw
  have hrest : ∀ w : State, SameMem u w → w.mem = writeN s.mem addr n v ∧ w.traces = s.traces :=
    fun w k => ⟨k.1.trans hw.1, k.2.trans hw.2⟩
  split
  · exact hw
  · exact hrest _ ((show SameMem u (u.setLine _ _) from ⟨rfl, rfl⟩).trans ((SameMem.pushCores _ _ _ _).trans (SameMem.checkTime _ _)))

theorem traces_recording {s t : State} (h : t.traces = s.traces) (c : Nat) :
    t.recording c = s.recording c ∧ t.replaying c = s.replaying c := by
  unfold State.recording State.replaying State.trace0
  rw [h]
  exact ⟨rfl, rfl⟩

/-- A plain store leaves its bytes in memory and changes no other (R4, R92). -/
theorem store_mem {s : State} {a : Agent} {cls addr n : Nat} (v : Nat) (h : s.Plain a.ctx cls addr n)
    (hrep : s.replaying a.ctx = false) : (s.store a cls addr n v).mem = writeN s.mem addr n v := by
  have hidle : ∀ t : State, t.traces = s.traces → ∀ k x y j, t.note a k x y j = t := fun t ht k x y j =>
    Loads.note_idle ((traces_recording ht a.ctx).1.trans h.1) ((traces_recording ht a.ctx).2.trans hrep) k x y j
  unfold State.store
  dsimp only
  split
  · exact (storeAt_mem v _ h).1
  · rw [hidle _ (show (State.raisePts _ a _).traces = s.traces from (storeAt_mem v _ h).2)]
    exact (storeAt_mem v _ h).1

theorem guarded_alike {s t : State} (h : Alike s t) (addr : Nat) : t.guarded addr = s.guarded addr := by
  unfold State.guarded
  rw [h.dev, show t.traces = s.traces by rw [h.rest]]

theorem State.Plain.alike {s t : State} {c cls addr n : Nat} (h : s.Plain c cls addr n) (k : Alike s t) : t.Plain c cls addr n := by
  obtain ⟨hrec, hcls, hkey, hmask⟩ := h
  refine ⟨(k.recording c).trans hrec, hcls, ?_, ?_⟩
  · rw [(k.line _).1, k.keyOf]; exact hkey
  · rw [guarded_alike k]; exact hmask

/-! ### A header -/

/-- A header without items. -/
def WList.fresh (n iszc set : Nat) (items : Word) : WList := ⟨n, iszc, set, false, true, 0, 0, 0, 0, items⟩

theorem image_fresh {n iszc set : Nat} (items : Word) (hn : n < 2 ^ 32) (hi : iszc < 4) (hs : set < 64) :
    (WList.fresh n iszc set items).image = n + iszc * 2 ^ 32 + set * 2 ^ 40 + 2 ^ 63 + 2 ^ 320 * items.toNat := by
  have hw := items.isLt
  simp only [WList.image, WList.fresh, joinBits, Bool.false_eq_true, if_false, if_true]
  omega

theorem image_fresh_lt {n iszc set : Nat} (items : Word) (hn : n < 2 ^ 32) (hi : iszc < 4) (hs : set < 64) :
    (WList.fresh n iszc set items).image < 256 ^ 64 := by
  have hw := items.isLt
  rw [image_fresh items hn hi hs]
  omega

/-- Memory keeps its fields. -/
theorem wlistOf_fresh {n iszc set : Nat} (items : Word) (hn : n < 2 ^ 32) (hi : iszc < 4) (hs : set < 64) :
    wlistOf (WList.fresh n iszc set items).image = .fresh n iszc set items := by
  have hw := items.isLt
  rw [image_fresh items hn hi hs]
  have hitems : BitVec.ofNat 64 (field (n + iszc * 2 ^ 32 + set * 2 ^ 40 + 2 ^ 63 + 2 ^ 320 * items.toNat) 320 64) = items := by
    rw [show field (n + iszc * 2 ^ 32 + set * 2 ^ 40 + 2 ^ 63 + 2 ^ 320 * items.toNat) 320 64 = items.toNat by unfold field; omega,
      BitVec.ofNat_toNat, BitVec.setWidth_eq]
  unfold wlistOf
  rw [hitems]
  unfold field WList.fresh
  simp only [WList.mk.injEq, beq_iff_eq, beq_eq_false_iff_ne, and_true]
  omega

end Sys2Proof.Machine
end

section
/-!
PROOF. `WLCFG` writes a header (R291).
-/
namespace Sys2Proof.Machine

section

variable {s : State} {c : Nat} {x : Issue} {m : Member} {g : Guard} {sa sb : SReg} {p : Spot}

/-- What `WLCFG` asks for in its issue step. -/
def cfgShape (g : Guard) : Shape := { g := g, mem := true, acc := true, once := true }

/-- The operands of `WLCFG` pass its checks (R291). -/
structure CfgFit (va w items : Word) : Prop where
  aligned : va.extractLsb' 0 6 = 0
  some : (w.extractLsb' 0 32).toNat ≠ 0
  most : (w.extractLsb' 0 32).toNat ≤ 16777216
  low : w.extractLsb' 34 6 = 0
  high : w.extractLsb' 46 18 = 0
  items : items.extractLsb' 0 6 = 0

theorem CfgFit.passes {va w items : Word} (h : CfgFit va w items) : ¬(bits va 0 6 ≠ 0 ∨ bits w 0 32 = 0 ∨ 16777216 < bits w 0 32 ∨
    bits w 34 6 ≠ 0 ∨ bits w 46 18 ≠ 0 ∨ bits items 0 6 ≠ 0) := by
  obtain ⟨h1, h2, h3, h4, h5, h6⟩ := h
  unfold bits
  rw [h1, h4, h5, h6]
  have h0 : ∀ n, (0 : BitVec n).toNat = 0 := fun n => BitVec.toNat_zero
  simp only [h0]
  omega

/-- The header that its operands give. -/
def cfgHeader (w items : Word) : WList := .fresh (bits w 0 32) (bits w 32 2) (bits w 40 6) items

theorem image_cfgHeader_lt (w items : Word) : (cfgHeader w items).image < 256 ^ 64 :=
  image_fresh_lt items (w.extractLsb' 0 32).isLt (w.extractLsb' 32 2).isLt (w.extractLsb' 40 6).isLt

theorem wlistOf_cfgHeader (w items : Word) : wlistOf (cfgHeader w items).image = cfgHeader w items :=
  wlistOf_fresh items (w.extractLsb' 0 32).isLt (w.extractLsb' 32 2).isLt (w.extractLsb' 40 6).isLt

theorem classBad_ordered {s : State} {a : Agent} {use : Use} {va : Word} {p : Spot} (hs : s.seek a use va = .ok p)
    (ho : ordered p.cls = true) : s.classBad a use ordered va = false := by
  unfold State.classBad
  rw [hs]
  simp only [ho, Bool.not_true, Bool.and_false]

theorem wlcfg_ends (h : Sole s c x m) (hq : ∀ n k, (s.group n k).Unquiet) (hact : m.active s g ≠ 0)
    (hfit : CfgFit ((m.group s).sreg sa.toNat) ((m.group s).sreg sb.toNat) ((m.group s).sreg (sb.toNat + 1)))
    (hs : s.seek (m.agent s c) .write ((m.group s).sreg sa.toNat) = .ok p) (hord : ordered p.cls = true) (hheld : p.held = false)
    (howned : s.owned (lineNo p.addr) = false) (hplain : s.Plain (s.ctxOf m.team) p.cls p.addr 64) :
    Ends c x m 0 (exec (.wlcfg g sa sb) s) (fun u => Accessed false { s with ctxs := u.ctxs } u m ∧
      m.group u = { m.at_ s u with pend := (m.group u).pend, ordinal := (m.group s).ordinal + 1 } ∧
      wlistOf (readN u.mem p.addr 64) = cfgHeader ((m.group s).sreg sb.toNat) ((m.group s).sreg (sb.toNat + 1))) := by
  let sh := cfgShape g
  let va := (m.group s).sreg sa.toNat
  let new := cfgHeader ((m.group s).sreg sb.toNat) ((m.group s).sreg (sb.toNat + 1))
  let old := wlistOf ((s.begun sh c x m).readKey ((s.begun sh c x m).keyOf (s.ctxOf m.team)) p.addr 64).1
  let t := (s.begun sh c x m).walked (m.agent s c) va p
  let u := (t.store (m.agent s c) p.cls p.addr 64 new.image).detect (s.ctxOf m.team) old new false
  have sight := Sight.begun h sh
  have hlist : Listing s u m sh :=
    (((Listing.begun h sh).touched (Touched.walked _ _ _ _ rfl)).touched (Touched.store _ _ _ _ _ _)).detect hq _ _ _ _
  have halike : Alike s t := sight.alike.trans (Alike.walked _ _ _ _ rfl)
  have hmem : u.mem = writeN s.mem p.addr 64 new.image := by
    rw [show u.mem = (t.store (m.agent s c) p.cls p.addr 64 new.image).mem from detect_mem _ _ _ _ _,
      store_mem _ (hplain.alike halike) ((halike.replaying _).trans h.live), show t.mem = s.mem by rw [halike.rest]]
  have hordinal : (m.begun s sh).ordinal = (m.group s).ordinal + 1 := if_pos (by simpa [sh, cfgShape] using hact)
  refine Listing.ends h sh _ hlist (fun l e => by cases e) rfl rfl (atLeast_user _) (Nat.zero_le _) ?_ _ ⟨hlist.acc, ?_, ?_⟩
  · have hgroup : (s.env c x m sh.g).group (s.begun sh c x m) = m.begun s sh := begun_group h sh
    have hact' : ¬(s.env c x m sh.g).act = 0 := hact
    have hs' : (s.begun sh c x m).seek (m.agent s c) .write va = .ok p := (sight.seek _ _ _).trans hs
    have hbad : (s.begun sh c x m).classBad (m.agent s c) .write ordered va = false := classBad_ordered hs' hord
    have howned' : (s.begun sh c x m).owned (lineNo p.addr) = false := (sight.alike.owned _).trans howned
    simp only [hgroup, begun_sreg, show (s.env c x m sh.g).agent = m.agent s c from rfl, if_neg hfit.passes, if_neg hact']
    rw [if_neg (by rw [hbad]; exact Bool.false_ne_true), hs']
    simp only [hheld, howned', Bool.or_self, Bool.false_eq_true, if_false]
    rfl
  · rw [← hordinal]
    exact hlist.group
  · rw [hmem, readN_writeN, Nat.mod_eq_of_lt (image_cfgHeader_lt _ _)]
    exact wlistOf_cfgHeader _ _

end

end Sys2Proof.Machine
end

section
/-!
PROOF. `TDWAIT` completes or waits (R294).
-/
namespace Sys2Proof.Machine

section

variable {s : State} {c : Nat} {x : Issue} {m : Member} {g : Guard} {sd : SReg} {td : TdSrc}

/-- What `TDWAIT` asks for in its issue step. -/
def tdShape (g : Guard) : Shape := { g := g, mem := true, once := true }

/-- Its lanes stay in the clause: the set is quiescent, or has items. -/
def Ctx.stays (y : Ctx) (k : Nat) : Bool := y.quiet k || decide (0 < get 0 k y.avail)

/-- What it does to the group. -/
def tdwaitGroup (y : Ctx) (x : Issue) (act : Lanes) (k : Nat) (sd : SReg) (gr : Group) : Group :=
  if act = 0 then gr
  else if y.quiet k = true then gr.setS sd.toNat 1
  else if 0 < get 0 k y.avail then gr.setS sd.toNat 0
  else gr.standAt act 7 x.pc (x.hdr, x.bodyw) (some (.quiet k sd))

theorem tdwaitGroup_calls (y : Ctx) (x : Issue) (act : Lanes) (k : Nat) (sd : SReg) (gr : Group) :
    (tdwaitGroup y x act k sd gr).calls = gr.calls := by
  unfold tdwaitGroup
  split
  · rfl
  · split
    · exact setS_calls _ _ _
    · split
      · exact setS_calls _ _ _
      · rw [standAt_rest]

theorem tdwait_leaves (h : Sole s c x m) (g : Guard) (sd : SReg) (td : TdSrc) :
    let k := (m.group s).tdSet td
    let y := s.ctx (s.ctxOf m.team)
    Leaves s c x m (if y.stays k then 0 else m.active s g) (exec (.tdwait g sd td) s)
      (fun _ G => G = tdwaitGroup y x (m.active s g) k sd (m.begun s (tdShape g))) := by
  intro k y
  refine leaves_of_run h (tdShape g) _ (tdwaitGroup y x (m.active s g) k sd) _ (fun l e => by cases e) (by simp [State.roomFor, tdShape]) rfl
    (atLeast_user _) (Nat.zero_le _) ?_ ((tdwaitGroup_calls _ _ _ _ _ _).trans (begun_calls h _))
  have hgroup : (s.env c x m (tdShape g).g).group (s.begun (tdShape g) c x m) = m.begun s (tdShape g) := begun_group h _
  have hset : (m.begun s (tdShape g)).tdSet td = k := by
    unfold Group.tdSet
    rw [begun_sreg]
    rfl
  have hctx : (s.begun (tdShape g) c x m).ctx (s.env c x m (tdShape g).g).ctx = y := (Sight.begun h (tdShape g)).alike.ctx _
  have hact : (s.env c x m (tdShape g).g).act = m.active s g := rfl
  simp only [hgroup, hset, hctx, hact]
  unfold tdwaitGroup Ctx.stays
  by_cases ha : m.active s g = 0
  · simp only [ha, if_true, ite_self, onGroup_id]
    rfl
  · by_cases hq : y.quiet k = true
    · simp only [ha, hq, if_true, if_false, Bool.true_or]
      rfl
    · by_cases hv : 0 < get 0 k y.avail
      · simp only [ha, hq, hv, if_true, if_false, decide_true, Bool.or_true]
        rfl
      · simp only [ha, hq, hv, if_false, decide_false, Bool.or_false]
        rfl

/-- A uniform register written after the group's own step, if a lane is active. -/
theorem wroteS_begun (sh : Shape) (act : Lanes) (d : Nat) (v : Word) :
    WroteS (m.group s) (if act = 0 then m.begun s sh else (m.begun s sh).setS d v) m.lanes act d v := by
  by_cases hz : act = 0
  · rw [if_pos hz]
    obtain ⟨h1, h2⟩ := pends_of_begun (KeepsPends.refl (m.begun s sh))
    exact ⟨begun_eq _ _ _, fun k => by rw [if_neg (fun c => c.1 hz), begun_sreg], h1, h2⟩
  · rw [if_neg hz]
    obtain ⟨h1, h2⟩ := pends_of_begun (KeepsPends.setS (m.begun s sh) d v)
    refine ⟨by rw [setS_rest, begun_eq], fun k => ?_, h1, h2⟩
    rw [sreg_setS, begun_sreg]
    simp only [ne_eq, hz, not_false_eq_true, true_and]

theorem tdwait_quiet (h : Sole s c x m) (hq : (s.ctx (s.ctxOf m.team)).quiet ((m.group s).tdSet td) = true) :
    DoesS s c x m g (exec (.tdwait g sd td) s) sd 1 := by
  have hl := tdwait_leaves h g sd td
  simp only [Ctx.stays, hq, Bool.true_or, if_true] at hl
  unfold DoesS Does
  refine Leaves.mono hl ?_
  rintro G rfl
  unfold tdwaitGroup
  rw [if_pos hq]
  exact wroteS_begun _ _ _ _

theorem tdwait_avail (h : Sole s c x m) (hq : (s.ctx (s.ctxOf m.team)).quiet ((m.group s).tdSet td) = false)
    (hv : 0 < get 0 ((m.group s).tdSet td) (s.ctx (s.ctxOf m.team)).avail) : DoesS s c x m g (exec (.tdwait g sd td) s) sd 0 := by
  have hl := tdwait_leaves h g sd td
  simp only [Ctx.stays, hv, decide_true, Bool.or_true, if_true] at hl
  unfold DoesS Does
  refine Leaves.mono hl ?_
  rintro G rfl
  unfold tdwaitGroup
  simp only [hq, hv, Bool.false_eq_true, if_false, if_true]
  exact wroteS_begun _ _ _ _

/-- Lanes that stand at an instruction after the group's own step. -/
theorem stood_begun (s : State) (m : Member) (g : Guard) (act : Lanes) (code : Nat) (pc : Word) (hdr : Word × Nat) (w : Option Wait) :
    let G := (m.begun s (tdShape g)).standAt act code pc hdr w
    G = { m.group s with pc := G.pc, st := G.st, wait := G.wait, hdr := G.hdr, pend := G.pend } ∧ SamePends (m.group s) G ∧
      Stood (m.group s) G act code pc hdr (fun _ => w) := by
  intro G
  have hb : m.begun s (tdShape g) = { m.group s with pend := (m.begun s (tdShape g)).pend } := by
    unfold Member.begun Group.advance Group.mapPend tdShape
    simp only [Bool.false_and, Bool.false_eq_true, if_false]
  have hr : G = _ := standAt_rest (m.begun s (tdShape g)) act code pc hdr w
  refine ⟨?rest, ?pends, ⟨fun i hi hm => ?there, fun i hi hm => ?others⟩⟩
  case rest => rw [hr, hb]
  case pends => exact (pends_of_begun (.of_eq (by rw [hr]))).1
  case there =>
    refine ⟨?_, ?_, ?_, ?_⟩
    · rw [lanePc_standAt _ _ _ _ _ _ _ hi, if_pos hm]
    · rw [state_standAt _ _ _ _ _ _ _ hi, if_pos hm]
    · rw [find_wait_standAt _ _ _ _ _ _ _ hi, if_pos hm]
    · rw [find_hdr_standAt _ _ _ _ _ _ _ hi, if_pos hm]
  case others =>
    have hn : ¬act.getLsbD i = true := by simp [hm]
    refine ⟨?_, ?_, ?_, ?_⟩
    · rw [lanePc_standAt _ _ _ _ _ _ _ hi, if_neg hn, hb]; rfl
    · rw [state_standAt _ _ _ _ _ _ _ hi, if_neg hn, hb]; rfl
    · rw [find_wait_standAt _ _ _ _ _ _ _ hi, if_neg hn, begun_wait]
    · rw [find_hdr_standAt _ _ _ _ _ _ _ hi, if_neg hn, begun_hdr]

theorem standAt_none (g : Group) (code : Nat) (pc : Word) (hdr : Word × Nat) (w : Option Wait) : g.standAt 0 code pc hdr w = g := by
  unfold Group.standAt
  rw [lanesOf_zero]
  rfl

theorem tdwait_waits (h : Sole s c x m) (hq : (s.ctx (s.ctxOf m.team)).quiet ((m.group s).tdSet td) = false)
    (hv : get 0 ((m.group s).tdSet td) (s.ctx (s.ctxOf m.team)).avail = 0) :
    Leaves s c x m (m.active s g) (exec (.tdwait g sd td) s) (fun h G =>
      G = { h with pc := G.pc, st := G.st, wait := G.wait, hdr := G.hdr, pend := G.pend } ∧ SamePends h G ∧
      Stood h G (m.active s g) 7 x.pc (x.hdr, x.bodyw) (fun _ => some (.quiet ((m.group s).tdSet td) sd))) := by
  have hl := tdwait_leaves h g sd td
  simp only [Ctx.stays, hq, hv, Nat.lt_irrefl, decide_false, Bool.or_false, Bool.false_eq_true, if_false] at hl
  refine Leaves.mono hl ?_
  rintro G rfl
  have hG : tdwaitGroup (s.ctx (s.ctxOf m.team)) x (m.active s g) ((m.group s).tdSet td) sd (m.begun s (tdShape g)) =
      (m.begun s (tdShape g)).standAt (m.active s g) 7 x.pc (x.hdr, x.bodyw) (some (.quiet ((m.group s).tdSet td) sd)) := by
    unfold tdwaitGroup
    by_cases ha : m.active s g = 0
    · rw [if_pos ha, ha, standAt_none]
    · rw [if_neg ha, if_neg (by rw [hq]; exact Bool.false_ne_true), if_neg (by omega)]
  rw [hG]
  exact stood_begun _ _ _ _ _ _ _ _

end

end Sys2Proof.Machine
end

section
/-!
PROOF. Obligation O36.
-/
namespace Sys2Proof.Machine

/-- One beyond the registers of a run of a value source. -/
theorem topR_run_le {b : Reg} {k n : Nat} (hk : 0 < k) (h : ∀ r, b = .v r → ∀ j, j < k → r.toNat + j < n) : topR b k ≤ n := by
  cases b with
  | v r =>
    have : r.toNat + (k - 1) < n := h r rfl (k - 1) (by omega)
    show r.toNat + k ≤ n
    omega
  | s r => exact Nat.zero_le _

theorem topR_one_le {b : Reg} {n : Nat} (h : ∀ r, b = .v r → r.toNat < n) : topR b 1 ≤ n := by
  cases b with
  | v r => exact h r rfl
  | s r => exact Nat.zero_le _

theorem topD_le {dst : Option VReg} {d : VReg} {n : Nat} (h : dst = none ∨ dst = some d) (hd : d.toNat < n) : topD dst ≤ n := by
  rcases h with rfl | rfl
  · exact Nat.zero_le _
  · exact hd

/-- Lanes with tickets, and those that have none, as the instruction answers them. -/
theorem appendPend_ticket (po : PReg) (dst : Option VReg) (act real : Lanes) (va : Nat → Word) (l : WList) :
    appendPend po dst act (ticket real va l) = { Pend.zero with
      vw := match dst with
        | some v => vWrites v.toNat act (fun i => if real.getLsbD i && decide (listPlace real va i < l.room) then
            BitVec.ofNat 64 (l.puts + listPlace real va i) else BitVec.allOnes 64)
        | none => []
      pw := pWrites po.toNat act (fun i => real.getLsbD i && decide (listPlace real va i < l.room)) } := by
  have hword : ∀ i, ticketWord (ticket real va l i) = if real.getLsbD i && decide (listPlace real va i < l.room) then
      BitVec.ofNat 64 (l.puts + listPlace real va i) else BitVec.allOnes 64 := fun i => by
    unfold ticket
    cases real.getLsbD i && decide (listPlace real va i < l.room) <;> rfl
  have hsome : ∀ i, (ticket real va l i).isSome = (real.getLsbD i && decide (listPlace real va i < l.room)) := fun i => by
    unfold ticket
    cases real.getLsbD i && decide (listPlace real va i < l.room) <;> rfl
  unfold appendPend
  cases dst with
  | none => simp only [hsome]
  | some v => simp only [hword, hsome]

end Sys2Proof.Machine

open Sys2Proof Sys2Proof.Machine

/-- Settles O36: each instruction on lists in its own step, and what the detector then counts. -/
theorem workListsComplete : Obligations.WorkListsComplete := by
  intro s c x m h g ll z po d dst a b sa sb sd td hd hdst ha hb hll hwait hrec
  have hq : ∀ n k, (s.group n k).Unquiet := hwait
  have hz : 0 < 2 ^ z.toNat := Nat.two_pow_pos _
  have hd1 : d.toNat < (m.group s).n := by omega
  refine ⟨?wlcfg, ?wlapp, ?wltake, ?wldone, ?quiet, ?avail, ?waits⟩
  case wlcfg =>
    intro p hact w items n hal hn0 hn hlow hhigh hitems hs hord hheld howned hplain
    exact wlcfg_ends h hq hact ⟨hal, hn0, hn, hlow, hhigh, hitems⟩ hs hord hheld howned hplain
  case wlapp =>
    intro p l hreal hat free hg hcount _ _ hroom
    have top : maxOf [topD dst, topR a 1, topR b (2 ^ z.toNat)] ≤ (m.group s).n :=
      maxOf_le (by simpa using ⟨topD_le hdst hd1, topR_le ha, topR_run_le hz (fun r e j hj => by subst e; exact hb j hj)⟩)
    have begins := wlapp_begins (po := po) h hq top hll ⟨hreal, hat⟩ free hg hcount hroom
    rw [appendPend_ticket] at begins
    exact begins
  case wltake =>
    intro p l hreal hat free hg hpub hcount havail
    have top : maxOf [topV d (2 ^ z.toNat), topR a 1] ≤ (m.group s).n := maxOf_le (by simpa [topV] using ⟨hd, topR_le ha⟩)
    exact wltake_begins h hq top hll ⟨hreal, hat⟩ free hg hpub hcount havail
  case wldone =>
    intro p l i hreal hi hat free hbn hheld hcount
    have top : maxOf [topR a 1, topR b 1] ≤ (m.group s).n := maxOf_le (by simpa using ⟨topR_le ha, topR_one_le hbn⟩)
    exact wldone_ends h hq top hreal hi hat free hheld hcount
  case quiet => exact fun hquiet => tdwait_quiet h hquiet
  case avail => exact fun hquiet hv => tdwait_avail h hquiet hv
  case waits => exact fun hquiet hv => tdwait_waits h hquiet hv
end

section
/-!
PROOF. Instructions on registers (R53, R57-R59, R222, R231, R239, R247): what the state before an effect shares with the state before
the instruction, and the shapes of effects on the group that these instructions have.
-/
namespace Sys2Proof.Machine

variable {s : State} {c : Nat} {x : Issue} {m : Member}

/-! ### The state before the effect -/

/-- An instruction that makes no recorded access changes nothing of the group but the distances before its effect. -/
theorem begun_eq_pend_of_acc {sh : Shape} (s : State) (m : Member) (hacc : sh.acc = false) :
    m.begun s sh = { m.group s with pend := (m.begun s sh).pend } := by
  unfold Member.begun Group.advance Group.mapPend
  simp only [hacc, Bool.false_and, Bool.false_eq_true, if_false]

theorem begun_team_rest (s : State) (sh : Shape) (c : Nat) (x : Issue) (m : Member) (n : Nat) :
    { (s.begun sh c x m).team n with groups := [] } = { s.team n with groups := [] } := by
  unfold State.begun
  exact (onGroup_team_rest _ _ _ _ _).trans (by rw [coverage_team])

theorem begun_team_there (h : Sole s c x m) (sh : Shape) : (find m.team (s.begun sh c x m).teams).isSome = true := by
  have has := begun_has h sh
  unfold State.has at has
  simp only [Bool.and_eq_true] at has
  exact has.1

theorem begun_ctx (s : State) (sh : Shape) (c : Nat) (x : Issue) (m : Member) (k : Nat) : (s.begun sh c x m).ctx k = s.ctx k := by
  rw [begun_rest]; rfl

theorem begun_dev (s : State) (sh : Shape) (c : Nat) (x : Issue) (m : Member) : (s.begun sh c x m).dev = s.dev := by
  rw [begun_rest]

theorem begun_traces (s : State) (sh : Shape) (c : Nat) (x : Issue) (m : Member) : (s.begun sh c x m).traces = s.traces := by
  rw [begun_rest]

/-- From b to u no core and no group changes, and no team but that of m, which is still there. -/
structure Aside (b u : State) (m : Member) : Prop where
  cores : u.cores = b.cores
  group : ∀ n k, u.group n k = b.group n k
  has : u.has m.team m.grp = b.has m.team m.grp
  teams : ∀ n, n ≠ m.team → u.team n = b.team n

theorem Aside.of_teams {b u : State} (hc : u.cores = b.cores) (ht : u.teams = b.teams) : Aside b u m := by
  have team : u.team = b.team := by unfold State.team; rw [ht]
  refine ⟨hc, fun n k => ?_, ?_, fun n _ => by rw [team]⟩
  · unfold State.group; rw [team]
  · unfold State.has; rw [ht, team]

theorem Aside.refl (b : State) : Aside b b m := .of_teams rfl rfl

theorem Aside.onTeam (b : State) {f : Team → Team} (hf : ∀ t, (f t).groups = t.groups) : Aside b (b.onTeam m.team f) m := by
  have groups : ∀ n, ((b.onTeam m.team f).team n).groups = (b.team n).groups := fun n => by
    rw [State.team_onTeam]
    split
    · exact hf _
    · rfl
  have there : (find m.team (b.onTeam m.team f).teams).isSome = (find m.team b.teams).isSome := by
    unfold State.onTeam
    rw [find_adjust, if_pos rfl, Option.isSome_map]
  refine ⟨rfl, fun n k => ?_, ?_, fun n hn => ?_⟩
  · unfold State.group Team.group; rw [groups]
  · unfold State.has; rw [there, groups]
  · rw [State.team_onTeam, if_neg (fun e => hn e.1)]

/-- What an instruction leaves alone whose own effect is aside from cores and groups. -/
theorem Aside.undisturbed (h : Sole s c x m) {sh : Shape} {u : State} (k : Aside (s.begun sh c x m) u m) : Undisturbed s u m := by
  have own : m.group u = m.begun s sh := (k.group _ _).trans (begun_group h sh)
  have pends := pends_of_begun (KeepsPends.refl (m.begun s sh))
  have core : ∀ n, u.core n = (s.begun sh c x m).core n := fun n => by unfold State.core; rw [k.cores]
  refine ⟨fun n => ?core, fun n j hn => ?groups, ?own, ?pends, ?aged, fun n hn => ?teams⟩
  case core => rw [core]; exact begun_core _ _ _ _ _ _
  case groups => rw [k.group, begun_other _ _ _ _ _ _ _ hn]
  case own => rw [own]; exact begun_eq _ _ _
  case pends => rw [own]; exact pends.1
  case aged => rw [own]; exact pends.2
  case teams => rw [k.teams n hn, begun_team_rest]

/-! ### Effects of the group, taken once (R222) -/

/-- An instruction that acts once for the group. -/
abbrev onceShape (g : Guard) (top : Nat) (level : Level) (wait : Env → State → Bool) : Shape :=
  { g := g, top := top, level := level, once := true, wait := wait }

/-- A change of its group alone. -/
theorem once_leaves (h : Sole s c x m) {g : Guard} {top : Nat} {level : Level} {wait : Env → State → Bool} {f : Env → State → State}
    (F : Group → Group) (hl : (m.group s).level.atLeast level = true) (ht : top ≤ (m.group s).n)
    (hw : wait (s.env c x m g) s = false)
    (hf : ∀ sh, f (s.env c x m g) (s.begun sh c x m) = (s.begun sh c x m).onGroup m.team m.grp F)
    (hF : ∀ k, (F k).calls = k.calls) :
    Does s c x m (.next (s.run (onceShape g top level wait) (fun e s => .go (e.once s (f e)))))
      (fun _ G => G = if m.active s g = 0 then m.begun s (onceShape g top level wait)
        else F (m.begun s (onceShape g top level wait))) := by
  refine leaves_of_run h _ _ (fun k => if m.active s g = 0 then k else F k) 0 (by simp) (by simp [State.roomFor]) hw hl ht ?effect ?calls
  case effect =>
    have act : (s.env c x m g).act = m.active s g := rfl
    unfold Env.once
    rw [act]
    by_cases ha : m.active s g = 0
    · simp only [if_pos ha, onGroup_id]; rfl
    · simp only [if_neg ha]; rw [hf]; rfl
  case calls =>
    split
    · exact begun_calls h _
    · rw [hF]; exact begun_calls h _

/-- A change of its group in which the outstanding instructions have no part. -/
theorem once_does (h : Sole s c x m) {g : Guard} {top : Nat} {level : Level} {wait : Env → State → Bool} {f : Env → State → State}
    (F : Group → Group) (hl : (m.group s).level.atLeast level = true) (ht : top ≤ (m.group s).n)
    (hw : wait (s.env c x m g) s = false)
    (hf : ∀ sh, f (s.env c x m g) (s.begun sh c x m) = (s.begun sh c x m).onGroup m.team m.grp F)
    (hF : ∀ k, (F k).calls = k.calls) (hp : ∀ k p, F { k with pend := p } = { F k with pend := p }) :
    Does s c x m (.next (s.run (onceShape g top level wait) (fun e s => .go (e.once s (f e)))))
      (fun k G => G = { (if m.active s g = 0 then k else F k) with pend := G.pend } ∧ SamePends k G) := by
  refine (once_leaves h F hl ht hw hf hF).mono (fun G hG => ?_)
  have hb := begun_eq_pend_of_acc (sh := onceShape g top level wait) s m rfl
  have same := (pends_of_begun (KeepsPends.refl (m.begun s (onceShape g top level wait)))).1
  generalize m.begun s (onceShape g top level wait) = b at hG hb same
  have hG' : G = { (if m.active s g = 0 then m.group s else F (m.group s)) with pend := b.pend } := by
    rw [hG]
    split
    · exact hb
    · rw [← hp, ← hb]
  have pend : G.pend = b.pend := by rw [hG']
  refine ⟨by rw [pend]; exact hG', fun id => ?_⟩
  rw [pend]
  exact same id

/-- A change aside from cores and groups. -/
theorem once_ends (h : Sole s c x m) {g : Guard} {top : Nat} {level : Level} {wait : Env → State → Bool} {f : Env → State → State}
    {P : State → Prop} (hl : (m.group s).level.atLeast level = true) (ht : top ≤ (m.group s).n) (hw : wait (s.env c x m g) s = false)
    (hf : ∀ sh, Aside (s.begun sh c x m) (f (s.env c x m g) (s.begun sh c x m)) m)
    (hnone : ∀ sh, m.active s g = 0 → P (s.begun sh c x m))
    (hsome : ∀ sh, m.active s g ≠ 0 → P (f (s.env c x m g) (s.begun sh c x m))) :
    Ends c x m 0 (.next (s.run (onceShape g top level wait) (fun e s => .go (e.once s (f e)))))
      (fun u => Undisturbed s u m ∧ P u) := by
  obtain ⟨u, hu, aside, hP⟩ : ∃ u, (s.env c x m g).once (s.begun (onceShape g top level wait) c x m) (f (s.env c x m g)) = u ∧
      Aside (s.begun (onceShape g top level wait) c x m) u m ∧ P u := by
    by_cases ha : m.active s g = 0
    · exact ⟨_, if_pos ha, .refl _, hnone _ ha⟩
    · exact ⟨_, if_neg ha, hf _, hsome _ ha⟩
  have und := aside.undisturbed h
  refine run_ends h _ _ u 0 (by simp) (by simp [State.roomFor]) hw hl ht (by rw [← hu]; rfl) ?has ?calls _ ⟨und, hP⟩
  case has => rw [aside.has]; exact begun_has h _
  case calls => rw [und.own]; exact h.calls

/-- The rest of the state is as it was, but for cores and teams, and a context. -/
theorem once_ctx (h : Sole s c x m) {g : Guard} {top : Nat} {level : Level} {wait : Env → State → Bool} {f : Env → State → State}
    (F : Ctx → Ctx) (hl : (m.group s).level.atLeast level = true) (ht : top ≤ (m.group s).n) (hw : wait (s.env c x m g) s = false)
    (hf : ∀ sh, f (s.env c x m g) (s.begun sh c x m) = (s.begun sh c x m).onCtx (s.ctxOf m.team) F) :
    Ends c x m 0 (.next (s.run (onceShape g top level wait) (fun e s => .go (e.once s (f e))))) (fun u =>
      Undisturbed s u m ∧ { u.team m.team with groups := [] } = { s.team m.team with groups := [] } ∧
      u = { s with ctxs := u.ctxs, cores := u.cores, teams := u.teams } ∧
      (∀ n, n ≠ s.ctxOf m.team → u.ctx n = s.ctx n) ∧
      u.ctx (s.ctxOf m.team) = if m.active s g = 0 then s.ctx (s.ctxOf m.team) else F (s.ctx (s.ctxOf m.team))) := by
  refine once_ends h hl ht hw (fun sh => by rw [hf]; exact .of_teams rfl rfl) (fun sh ha => ?none) (fun sh ha => ?some)
  case none =>
    refine ⟨begun_team_rest _ _ _ _ _ _, ?_, fun n _ => begun_ctx _ _ _ _ _ _, by rw [if_pos ha, begun_ctx]⟩
    rw [begun_rest]
  case some =>
    rw [hf]
    refine ⟨begun_team_rest _ _ _ _ _ _, ?_, fun n hn => ?_, ?_⟩
    · unfold State.onCtx; rw [begun_rest]
    · rw [State.ctx_onCtx, if_neg hn, begun_ctx]
    · rw [State.ctx_onCtx, if_pos rfl, begun_ctx, if_neg ha]

/-- A field of its team beside the groups. -/
theorem once_team (h : Sole s c x m) {g : Guard} {top : Nat} {level : Level} {wait : Env → State → Bool} {f : Env → State → State}
    (F : Team → Team) (hl : (m.group s).level.atLeast level = true) (ht : top ≤ (m.group s).n) (hw : wait (s.env c x m g) s = false)
    (hf : ∀ sh, f (s.env c x m g) (s.begun sh c x m) = (s.begun sh c x m).onTeam m.team F)
    (hF : ∀ t l, F { t with groups := l } = { F t with groups := l }) :
    Ends c x m 0 (.next (s.run (onceShape g top level wait) (fun e s => .go (e.once s (f e))))) (fun u =>
      Undisturbed s u m ∧ u = { s with cores := u.cores, teams := u.teams } ∧
      { u.team m.team with groups := [] } =
        { (if m.active s g = 0 then s.team m.team else F (s.team m.team)) with groups := [] }) := by
  have groups : ∀ t, (F t).groups = t.groups := fun t => by
    have e := congrArg Team.groups (hF t t.groups)
    exact e
  refine once_ends h hl ht hw (fun sh => by rw [hf]; exact .onTeam _ groups) (fun sh ha => ?none) (fun sh ha => ?some)
  case none => rw [if_pos ha]; exact ⟨begun_rest _ _ _ _ _, begun_team_rest _ _ _ _ _ _⟩
  case some =>
    rw [hf, if_neg ha]
    refine ⟨?_, ?_⟩
    · unfold State.onTeam; rw [begun_rest]
    · rw [State.team_onTeam, if_pos ⟨rfl, begun_team_there h sh⟩, ← hF, begun_team_rest, hF]

/-! ### Registers written by such instructions -/

theorem wroteS_setS (s : State) (m : Member) (sh : Shape) (act : Lanes) (d : Nat) (v : Word) :
    WroteS (m.group s) (if act = 0 then m.begun s sh else (m.begun s sh).setS d v) m.lanes act d v := by
  split
  · next ha =>
    obtain ⟨same, aged⟩ := pends_of_begun (KeepsPends.refl (m.begun s sh))
    exact ⟨begun_eq _ _ _, fun k => by rw [if_neg (fun e => e.1 ha), begun_sreg], same, aged⟩
  · next ha =>
    obtain ⟨same, aged⟩ := pends_of_begun (KeepsPends.setS (m.begun s sh) d v)
    refine ⟨by rw [setS_rest, begun_eq], fun k => ?_, same, aged⟩
    rw [sreg_setS, begun_sreg]
    simp only [ne_eq, ha, not_false_eq_true, true_and]

/-- A uniform register written once for the group. -/
theorem onceS_does (h : Sole s c x m) {g : Guard} {top : Nat} {level : Level} {wait : Env → State → Bool} {f : Env → State → State}
    (d : SReg) (v : Word) (hl : (m.group s).level.atLeast level = true) (ht : top ≤ (m.group s).n)
    (hw : wait (s.env c x m g) s = false)
    (hf : ∀ sh, f (s.env c x m g) (s.begun sh c x m) = (s.begun sh c x m).onGroup m.team m.grp (fun k => k.setS d.toNat v)) :
    DoesS s c x m g (.next (s.run (onceShape g top level wait) (fun e s => .go (e.once s (f e))))) d v := by
  unfold DoesS Does
  refine (once_leaves h (fun k => k.setS d.toNat v) hl ht hw hf (fun k => setS_calls k _ _)).mono (fun G hG => ?_)
  rw [hG]
  exact wroteS_setS _ _ _ _ _ _

/-- A vector register written in the active lanes with values that do not rest on the group's own step. -/
theorem lanesV_does (h : Sole s c x m) (sh : Shape) (f : Env → State → Res) (d : VReg) (v : Nat → Word) (hll : sh.ll = none)
    (hq : sh.reqs = false) (hw : sh.wait (s.env c x m sh.g) s = false) (hl : (m.group s).level.atLeast sh.level = true)
    (ht : sh.top ≤ (m.group s).n)
    (hf : f (s.env c x m sh.g) (s.begun sh c x m) =
      .go ((s.begun sh c x m).onGroup m.team m.grp (fun k => k.setVs d.toNat (m.active s sh.g) v))) :
    DoesV s c x m sh.g (.next (s.run sh f)) d v := by
  unfold DoesV Does
  refine (leaves_of_run h sh f (fun k => k.setVs d.toNat (m.active s sh.g) v) 0 (by simp [hll]) (by simp [State.roomFor, hq]) hw hl ht
    hf (by rw [setVs_calls]; exact begun_calls h sh)).mono (fun G hG => ?_)
  rw [hG]
  exact wroteV_setVs _ _ _ _ _ _

end Sys2Proof.Machine
end

section
/-!
PROOF. System registers as they are read, the datum and marks (R57-R59, R231, R312): obligation O19.
-/
namespace Sys2Proof.Machine

variable {s : State} {c : Nat} {x : Issue} {m : Member}

/-! ### Values -/

/-- What a system register reads rests on nothing that advances before the effect. -/
theorem sysRead_congr {t : State} {e : Env} {p : SMap Pend} {o : Nat}
    (hg : e.group t = { e.group s with pend := p, ordinal := o })
    (ht : { t.team e.team with groups := [] } = { s.team e.team with groups := [] })
    (hc : t.ctx e.ctx = s.ctx e.ctx) (hd : t.dev = s.dev) (r : SysReg) : t.sysRead e r = s.sysRead e r := by
  have id : (t.team e.team).idImage = (s.team e.team).idImage := (congrArg Team.idImage ht :)
  have pkten : (t.team e.team).pkten = (s.team e.team).pkten := (congrArg Team.pkten ht :)
  have sprio : (t.team e.team).sprio = (s.team e.team).sprio := (congrArg Team.sprio ht :)
  funext i
  unfold State.sysRead State.cap
  simp only [hg, hc, hd, id, pkten, sprio]
  cases r <;> rfl

theorem sysRead_begun (h : Sole s c x m) (sh : Shape) (g : Guard) (r : SysReg) :
    (s.begun sh c x m).sysRead (s.env c x m g) r = s.sysRead (s.env c x m g) r :=
  sysRead_congr (e := s.env c x m g) ((begun_group h sh).trans (begun_eq _ _ _)) (begun_team_rest _ _ _ _ _ _) (begun_ctx _ _ _ _ _ _)
    (begun_dev _ _ _ _ _) r

/-- Bits of a number held in a word. -/
theorem extract_ofNat {lo n a v : Nat} (hn : lo + n ≤ 64) (h : a / 2 ^ lo % 2 ^ n = v % 2 ^ n) :
    (BitVec.ofNat 64 a).extractLsb' lo n = BitVec.ofNat n v := by
  apply BitVec.eq_of_toNat_eq
  rw [BitVec.extractLsb'_toNat, BitVec.toNat_ofNat, BitVec.toNat_ofNat, Nat.shiftRight_eq_div_pow, ← h, ← Nat.mod_mul_right_div_self,
    ← Nat.mod_mul_right_div_self, ← Nat.pow_add, Nat.mod_mod_of_dvd _ (Nat.pow_dvd_pow 2 hn)]

theorem widthCode_lt (w : Nat) : widthCode w < 4 := by
  unfold widthCode
  split
  · decide
  · split
    · decide
    · split <;> decide

/-- `MODE`: its two bits and the pending user-level interrupts (R58). -/
theorem modeImage_fields (g : Group) : (BitVec.ofNat 64 g.modeImage).getLsbD 0 = g.dmr ∧
    (BitVec.ofNat 64 g.modeImage).getLsbD 1 = g.uien ∧ (BitVec.ofNat 64 g.modeImage).extractLsb' 16 16 = g.uipend := by
  have pend := g.uipend.isLt
  have bit : ∀ k, k < 64 → (BitVec.ofNat 64 g.modeImage).getLsbD k = decide (g.modeImage / 2 ^ k % 2 = 1) := fun k hk => by
    rw [BitVec.getLsbD_ofNat, Nat.testBit_eq_decide_div_mod_eq, decide_eq_true hk, Bool.true_and]
  have value : g.modeImage = g.dmr.toNat + 2 * g.uien.toNat + g.uipend.toNat * 65536 := by
    unfold Group.modeImage
    cases g.dmr <;> cases g.uien <;> rfl
  have dmr := Bool.toNat_lt g.dmr
  have uien := Bool.toNat_lt g.uien
  refine ⟨?_, ?_, ?_⟩
  · rw [bit 0 (by decide), show g.modeImage / 2 ^ 0 % 2 = g.dmr.toNat by omega]
    cases g.dmr <;> rfl
  · rw [bit 1 (by decide), show g.modeImage / 2 ^ 1 % 2 = g.uien.toNat by omega]
    cases g.uien <;> rfl
  · rw [extract_ofNat (v := g.uipend.toNat) (by decide) (by omega), BitVec.ofNat_toNat, BitVec.setWidth_eq]

/-! ### Instructions -/

theorem flagsWait_done (e : Env) (h : ∀ p ∈ (e.group s).pend, p.2.left_ = true) : flagsWait e s = false := by
  unfold flagsWait
  rw [List.any_eq_false.mpr (fun p hp => by simp [h p hp]), Bool.and_false]

theorem unfinished_lanes {g : Group} {act : Lanes} (hp : ∀ p ∈ g.pend, p.2.left_ = true ∨ p.2.lanes &&& act = 0)
    (hf : ∀ f ∈ g.fences, f.2.1 &&& act = 0) : g.unfinished false act = false := by
  unfold Group.unfinished
  dsimp only
  rw [List.any_eq_false.mpr (fun p h => ?pend), List.any_eq_false.mpr (fun f h => by simp [hf f h]), Bool.or_false]
  rcases hp p h with e | e <;> simp [e]

theorem unfinished_whole {g : Group} (act : Lanes) (hp : ∀ p ∈ g.pend, p.2.left_ = true) (hf : g.fences = []) :
    g.unfinished true act = false := by
  unfold Group.unfinished
  dsimp only
  rw [List.any_eq_false.mpr (fun p h => by simp [hp p h]), hf]
  rfl

/-- A register that the level may read, in the active lanes. -/
theorem srd_lanes (h : Sole s c x m) (g : Guard) (r : SysReg) (d : VReg) (hl : (m.group s).level.atLeast (readLevel r) = true)
    (hw : (r == .flags && flagsWait (s.env c x m g) s) = false) (hd : d.toNat < (m.group s).n) :
    DoesV s c x m g (exec (.srd g (.v d) r) s) d (s.sysRead (s.env c x m g) r) :=
  lanesV_does h (onceShape g (topR (.v d) 1) (readLevel r) (fun e s => r == .flags && flagsWait e s))
    (fun e s => .go (e.onGroup s (fun gr => gr.setVs d.toNat e.act (s.sysRead e r)))) d _ rfl rfl hw hl hd
    (by rw [sysRead_begun h]; rfl)

/-- The same, once. -/
theorem srd_once (h : Sole s c x m) (g : Guard) (r : SysReg) (d : SReg) (hl : (m.group s).level.atLeast (readLevel r) = true)
    (hw : (r == .flags && flagsWait (s.env c x m g) s) = false) :
    DoesS s c x m g (exec (.srd g (.s d) r) s) d (s.sysRead (s.env c x m g) r 0) :=
  onceS_does h (f := fun e s => e.onGroup s (fun gr => gr.setS d.toNat (s.sysRead e r 0)))
    (wait := fun e s => r == .flags && flagsWait e s) d _ hl (Nat.zero_le _) hw (fun sh => by rw [sysRead_begun h]; rfl)

theorem tick_lanes (h : Sole s c x m) (g : Guard) (d : VReg) (hd : d.toNat < (m.group s).n)
    (hp : ∀ p ∈ (m.group s).pend, p.2.left_ = true ∨ p.2.lanes &&& m.active s g = 0)
    (hf : ∀ f ∈ (m.group s).fences, f.2.1 &&& m.active s g = 0) :
    DoesV s c x m g (exec (.tick g (.v d)) s) d (fun _ => BitVec.ofNat 64 s.dev.datum) :=
  have hw : ((s.env c x m g).act != 0 && ((s.env c x m g).group s).unfinished false (s.env c x m g).act) = false :=
    (congrArg (_ && ·) (unfinished_lanes hp hf)).trans (Bool.and_false _)
  lanesV_does h { g := g, top := topR (.v d) 1, wait := fun e s => e.act != 0 && (e.group s).unfinished false e.act }
    (fun e s => .go (e.onGroup s (fun gr => gr.setVs d.toNat e.act (fun _ => BitVec.ofNat 64 s.dev.datum)))) d _ rfl rfl hw
    (atLeast_user _) hd (by rw [begun_dev]; rfl)

theorem tick_once (h : Sole s c x m) (g : Guard) (d : SReg) (hp : ∀ p ∈ (m.group s).pend, p.2.left_ = true)
    (hf : (m.group s).fences = []) : DoesS s c x m g (exec (.tick g (.s d)) s) d (BitVec.ofNat 64 s.dev.datum) :=
  have hw : ((s.env c x m g).act != 0 && ((s.env c x m g).group s).unfinished true (s.env c x m g).act) = false :=
    (congrArg (_ && ·) (unfinished_whole _ hp hf)).trans (Bool.and_false _)
  onceS_does h (f := fun e s => e.onGroup s (fun gr => gr.setS d.toNat (BitVec.ofNat 64 s.dev.datum)))
    (wait := fun e s => e.act != 0 && (e.group s).unfinished true e.act) d _ (atLeast_user _) (Nat.zero_le _) hw
    (fun sh => by rw [begun_dev]; rfl)

/-- A die that writes no trace takes no record of its cores (R381). -/
theorem emit_of_quiet (h : s.quiet c) (ctx kind tag b1 b2 b3 : Nat) : s.emit 0 c ctx kind tag b1 b2 b3 = s := by
  have off : (get Trace.zero (streamDie 0 c) s.traces).en = false := h
  unfold State.emit
  dsimp only
  rw [off]
  rfl

theorem begun_quiet (sh : Shape) (h : s.quiet c) : (s.begun sh c x m).quiet c := by
  unfold State.quiet
  rw [begun_traces]
  exact h

theorem mark_does (h : Sole s c x m) (g : Guard) (n : BitVec 10) {a : Reg} (ha : Reg.fits a (m.group s).n) (hq : s.quiet c) :
    Does s c x m (exec (.mark g n a) s) (fun k G => G = { k with pend := G.pend } ∧ SamePends k G) := by
  have does := once_does h (g := g) (top := topR a 1) (level := .user) (wait := fun _ _ => false)
    (f := fun e s => s.emit 0 e.core e.ctx 4 n.toNat (e.groupReg (e.group s) a).toNat (s.ident e.team e.grp) 0)
    (fun k => k) (atLeast_user _) (topR_le ha) rfl
    (fun sh => by rw [onGroup_id]; exact emit_of_quiet (begun_quiet sh hq) _ _ _ _ _ _) (fun _ => rfl) (fun _ _ => rfl)
  simp only [ite_self] at does
  exact does

end Sys2Proof.Machine

open Sys2Proof Sys2Proof.Machine

/-- Settles O19: the value read is that of the state before the instruction; each field by arithmetic. -/
theorem systemRegisterReadsComplete : Obligations.SystemRegisterReadsComplete := by
  refine ⟨?srd, ?fields, ?datum⟩
  case srd =>
    intro s c x m h g r hl hflags
    have hw : (r == .flags && flagsWait (s.env c x m g) s) = false := by
      by_cases hr : r = .flags
      · rw [flagsWait_done (s.env c x m g) (hflags hr), Bool.and_false]
      · rw [beq_eq_false_iff_ne.mpr hr, Bool.false_and]
    exact ⟨fun d hd => srd_lanes h g r d hl hw hd, fun d => srd_once h g r d hl hw⟩
  case fields =>
    intro s e i r g t x hctx hpart hgrp hrole hn hno hgang hrank hgsize hprio hcredit
    have gen := x.gen.isLt
    have code := widthCode_lt g.width
    have ctxid : r .ctxid = BitVec.ofNat 64 (e.ctx % 1024 + x.part % 128 * 2 ^ 16 + x.gen.toNat * 2 ^ 32) := rfl
    have grpid : r .grpid = BitVec.ofNat 64 (e.grp % 16 + g.role % 8 * 2 ^ 4 + widthCode g.width * 2 ^ 8 + g.n % 1024 * 2 ^ 16) := rfl
    have teamid : r .teamid = BitVec.ofNat 64
      (t.no % 2 ^ 24 + t.gang % 2 ^ 24 * 2 ^ 24 + t.rank % 8 * 2 ^ 48 + t.gsize % 16 * 2 ^ 52) := rfl
    have prio : r .prio = BitVec.ofNat 64 (g.prio % 16 + g.credit % 16 * 16) := rfl
    obtain ⟨dmr, uien, uipend⟩ := modeImage_fields g
    rw [ctxid, grpid, teamid, prio]
    refine ⟨extract_ofNat (by decide) (by omega), extract_ofNat (by decide) (by omega), ?gen, ?_, ?_, ?_, ?_, ?_, ?_, ?_, ?_, ?_, ?_,
      dmr, uien, uipend, rfl, rfl, rfl⟩
    case gen => rw [extract_ofNat (v := x.gen.toNat) (by decide) (by omega), BitVec.ofNat_toNat, BitVec.setWidth_eq]
    all_goals exact extract_ofNat (by decide) (by omega)
  case datum =>
    intro s c x m h g d y n a hd ha
    exact ⟨fun hp hf => tick_lanes h g d hd hp hf, fun hp hf => tick_once h g y hp hf, fun hq => mark_does h g n ha hq⟩
end

section
/-!
PROOF. System registers as they are written (R57-R59, R231, R384): obligation O20.
-/
namespace Sys2Proof.Machine

variable {s : State} {c : Nat} {x : Issue} {m : Member}

/-- The source of a group effect (R222). -/
def Member.source (m : Member) (s : State) (g : Guard) (a : Reg) : Word := (m.group s).reg a (lowest (m.active s g))

theorem groupReg_begun (h : Sole s c x m) (sh : Shape) (g : Guard) (a : Reg) :
    (s.env c x m g).groupReg ((s.env c x m g).group (s.begun sh c x m)) a = m.source s g a := by
  have group : (s.env c x m g).group (s.begun sh c x m) = m.begun s sh := begun_group h sh
  unfold Env.groupReg
  rw [group, begun_reg]
  rfl

/-- A write is an effect of the group, taken once, of the word in its source. -/
theorem swrOp_eq (s : State) (g : Guard) (level : Level) (a : Reg) (wait : Env → State → Bool) (f : Env → Word → State → State) :
    s.swrOp g level a wait f = s.run (onceShape g (topR a 1) level wait) (fun e s =>
      .go (e.once s (fun s => f e (e.groupReg (e.group s) a) s))) := rfl

section write

variable {g : Guard} {a : Reg} {level : Level} {wait : Env → State → Bool} {f : Env → Word → State → State}

/-- A write of the group's own fields. -/
theorem swrOp_group (h : Sole s c x m) (ha : Reg.fits a (m.group s).n) (F : Word → Group → Group)
    (hl : (m.group s).level.atLeast level = true) (hw : wait (s.env c x m g) s = false)
    (hf : ∀ w t, f (s.env c x m g) w t = t.onGroup m.team m.grp (F w)) (hF : ∀ w k, (F w k).calls = k.calls)
    (hp : ∀ w k p, F w { k with pend := p } = { F w k with pend := p }) :
    Does s c x m (.next (s.swrOp g level a wait f)) (fun k G =>
      G = { (if m.active s g = 0 then k else F (m.source s g a) k) with pend := G.pend } ∧ SamePends k G) := by
  rw [swrOp_eq]
  exact once_does h (F (m.source s g a)) hl (topR_le ha) hw (fun sh => by rw [groupReg_begun h, hf]) (hF _) (hp _)

/-- A write of a field of its context. -/
theorem swrOp_ctx (h : Sole s c x m) (ha : Reg.fits a (m.group s).n) (F : Word → Ctx → Ctx)
    (hl : (m.group s).level.atLeast level = true) (hw : wait (s.env c x m g) s = false)
    (hf : ∀ w t, f (s.env c x m g) w t = t.onCtx (s.ctxOf m.team) (F w)) :
    Ends c x m 0 (.next (s.swrOp g level a wait f)) (fun u =>
      Undisturbed s u m ∧ { u.team m.team with groups := [] } = { s.team m.team with groups := [] } ∧
      u = { s with ctxs := u.ctxs, cores := u.cores, teams := u.teams } ∧
      (∀ n, n ≠ s.ctxOf m.team → u.ctx n = s.ctx n) ∧
      u.ctx (s.ctxOf m.team) =
        if m.active s g = 0 then s.ctx (s.ctxOf m.team) else F (m.source s g a) (s.ctx (s.ctxOf m.team))) := by
  rw [swrOp_eq]
  exact once_ctx h (F (m.source s g a)) hl (topR_le ha) hw (fun sh => by rw [groupReg_begun h, hf])

/-- A write of a field of its team. -/
theorem swrOp_team (h : Sole s c x m) (ha : Reg.fits a (m.group s).n) (F : Word → Team → Team)
    (hl : (m.group s).level.atLeast level = true) (hw : wait (s.env c x m g) s = false)
    (hf : ∀ w t, f (s.env c x m g) w t = t.onTeam m.team (F w))
    (hF : ∀ w t l, F w { t with groups := l } = { F w t with groups := l }) :
    Ends c x m 0 (.next (s.swrOp g level a wait f)) (fun u =>
      Undisturbed s u m ∧ u = { s with cores := u.cores, teams := u.teams } ∧
      { u.team m.team with groups := [] } =
        { (if m.active s g = 0 then s.team m.team else F (m.source s g a) (s.team m.team)) with groups := [] }) := by
  rw [swrOp_eq]
  exact once_team h (F (m.source s g a)) hl (topR_le ha) hw (fun sh => by rw [groupReg_begun h, hf]) (hF _)

end write

/-- A register without a written field (R58). -/
theorem sysWrite_none (s : State) (e : Env) {r : SysReg} (w : Word)
    (hr : r = .capLo ∨ r = .capHi ∨ r = .ctxid ∨ r = .grpid ∨ r = .teamid ∨ r = .laneid ∨ r = .gts ∨ r = .tick) :
    s.sysWrite e r w = s ∧ writeLevel r = .user := by
  rcases hr with rfl | rfl | rfl | rfl | rfl | rfl | rfl | rfl <;> exact ⟨rfl, rfl⟩

/-- `STOPAT` as a write leaves it (R384). -/
def Device.stopAfter (d : Device) (w : Word) : Nat := if d.jtag = true ∧ d.datum < w.toNat then w.toNat else 0

/-- A write of `STOPAT`, with the record of an armed stop. -/
def writeStopat (e : Env) (w : Word) (s : State) : State :=
  let r := s.armStop w
  if r.1 then r.2.emit 0 e.core e.ctx 11 0 w.toNat 0 0 else r.2

theorem armStop_eq (s : State) (w : Word) : s.armStop w =
    (s.dev.jtag && decide (s.dev.datum < w.toNat), s.onDev (fun d => { d with stopat := d.stopAfter w })) := by
  unfold State.armStop Device.stopAfter State.onDev
  by_cases hs : s.dev.jtag = true ∧ s.dev.datum < w.toNat
  · have armed : (s.dev.jtag && decide (s.dev.datum < w.toNat)) = true := by simpa using hs
    rw [if_pos armed, armed]
    simp only [if_pos hs]
  · have armed : (s.dev.jtag && decide (s.dev.datum < w.toNat)) = false := by simpa using hs
    rw [armed]
    simp only [Bool.false_eq_true, if_false, if_neg hs]

theorem writeStopat_of_quiet (e : Env) (w : Word) (hq : s.quiet e.core) :
    writeStopat e w s = s.onDev (fun d => { d with stopat := d.stopAfter w }) := by
  have quiet : (s.onDev (fun d => { d with stopat := d.stopAfter w })).quiet e.core := hq
  unfold writeStopat
  rw [armStop_eq]
  generalize s.onDev (fun d => { d with stopat := d.stopAfter w }) = t at quiet ⊢
  dsimp only
  split
  · exact emit_of_quiet quiet _ _ _ _ _ _
  · rfl

theorem swrStopat_ends (h : Sole s c x m) (hq : s.quiet c) (g : Guard) {a : Reg} (ha : Reg.fits a (m.group s).n)
    (hl : (m.group s).level.atLeast .machine = true) :
    Ends c x m 0 (exec (.swrStopat g a) s) (fun u =>
      Undisturbed s u m ∧ u = { s with dev := u.dev, cores := u.cores, teams := u.teams } ∧
      u.dev = { s.dev with stopat := if m.active s g = 0 then s.dev.stopat else s.dev.stopAfter (m.source s g a) }) := by
  have wrote : ∀ sh, writeStopat (s.env c x m g) ((s.env c x m g).groupReg ((s.env c x m g).group (s.begun sh c x m)) a)
      (s.begun sh c x m) = (s.begun sh c x m).onDev (fun d => { d with stopat := d.stopAfter (m.source s g a) }) := fun sh => by
    rw [groupReg_begun h]
    exact writeStopat_of_quiet _ _ (begun_quiet sh hq)
  refine once_ends h (f := fun e s => writeStopat e (e.groupReg (e.group s) a) s) (wait := fun _ _ => false) hl (topR_le ha) rfl
    (fun sh => by rw [wrote]; exact .of_teams rfl rfl) (fun sh hz => ?none) (fun sh hz => ?some)
  case none =>
    rw [if_pos hz, begun_dev]
    exact ⟨by rw [begun_rest], rfl⟩
  case some =>
    rw [wrote, if_neg hz]
    refine ⟨?_, ?_⟩
    · unfold State.onDev; rw [begun_rest]
    · unfold State.onDev; rw [begun_dev]

end Sys2Proof.Machine

open Sys2Proof Sys2Proof.Machine

/-- Settles O20: each write by the owner of its field, the group, its context, its team or the device. -/
theorem systemRegisterWritesComplete : Obligations.SystemRegisterWritesComplete := by
  intro s c x m h hq g a ha act k w group context team
  have user : (m.group s).level.atLeast .user = true := atLeast_user _
  refine ⟨?prio, ?mode, ?flags, ?unwritten, ?rastthr, ?trvcfg, ?swpcfg, ?control, ?stopat⟩
  case prio =>
    exact swrOp_group h ha (fun w h => { h with prio := w.toNat % 16 }) user rfl (fun _ _ => rfl) (fun _ _ => rfl) (fun _ _ _ => rfl)
  case mode =>
    exact swrOp_group h ha (fun w h => { h with
      dmr := if h.level.atLeast .control then w.getLsbD 0 else h.dmr, uien := w.getLsbD 1 }) user rfl (fun _ _ => rfl)
      (fun _ _ => rfl) (fun _ _ _ => rfl)
  case flags =>
    intro hdone
    exact swrOp_group h ha (fun w h => { h with flags := h.flags &&& ~~~(w.setWidth 5) }) user
      (flagsWait_done (s.env c x m g) hdone) (fun _ _ => rfl) (fun _ _ => rfl) (fun _ _ _ => rfl)
  case unwritten =>
    intro r hr
    have unwritten := fun t e w => sysWrite_none t e w hr
    exact swrOp_group h ha (fun _ h => h) (by rw [(unwritten s (s.env c x m g) 0).2]; exact user) rfl
      (fun w t => by rw [(unwritten t (s.env c x m g) w).1, onGroup_id]) (fun _ _ => rfl) (fun _ _ _ => rfl)
  case rastthr => exact swrOp_ctx h ha (fun w y => { y with area := w.setWidth 32 }) user rfl (fun _ _ => rfl)
  case trvcfg =>
    exact swrOp_team h ha (fun w y => { y with pkten := w.getLsbD 0 }) user rfl (fun _ _ => rfl) (fun _ _ _ => rfl)
  case swpcfg =>
    exact swrOp_team h ha (fun w y => { y with sprio := w.setWidth 4 }) user rfl (fun _ _ => rfl) (fun _ _ _ => rfl)
  case control =>
    intro hl
    refine ⟨?faultinfo, ?faultlanes, ?trappc, ?tvec, ?lease⟩
    case faultinfo =>
      exact swrOp_group h ha (fun w h => { h with faultinfo := w &&& 0xFFFF0FFF }) hl rfl (fun _ _ => rfl) (fun _ _ => rfl)
        (fun _ _ _ => rfl)
    case faultlanes =>
      exact swrOp_group h ha (fun w h => { h with faultlanes := w }) hl rfl (fun _ _ => rfl) (fun _ _ => rfl) (fun _ _ _ => rfl)
    case trappc =>
      exact swrOp_group h ha (fun w h => { h with trappc := w }) hl rfl (fun _ _ => rfl) (fun _ _ => rfl) (fun _ _ _ => rfl)
    case tvec => exact swrOp_ctx h ha (fun w y => { y with tvec := w &&& ~~~7 }) hl rfl (fun _ _ => rfl)
    case lease =>
      exact swrOp_ctx h ha (fun w y => { y with lease := if w.setWidth 32 = (0 : BitVec 32) then 1 else w.setWidth 32 }) hl rfl
        (fun _ _ => rfl)
  case stopat => exact swrStopat_ends h hq g ha
end

section
/-!
PROOF. Indirect registers and format registers (R53, R239, R247): obligation O21.
-/
namespace Sys2Proof.Machine

variable {s : State} {c : Nat} {x : Issue} {m : Member}

/-! ### A register of each lane's own -/

/-- Each lane of a list writes a register that it names. -/
def Group.putEach (g : Group) (l : List Nat) (r : Nat → Nat) (f : Nat → Word) : Group := l.foldl (fun g i => g.setV (r i) i (f i)) g

theorem putEach_rest (g : Group) (l : List Nat) (r : Nat → Nat) (f : Nat → Word) :
    g.putEach l r f = { g with v := (g.putEach l r f).v, pend := (g.putEach l r f).pend } := by
  unfold Group.putEach
  induction l generalizing g with
  | nil => rfl
  | cons i l ih => rw [List.foldl_cons, ih]; rfl

theorem putEach_keeps (g : Group) (l : List Nat) (r : Nat → Nat) (f : Nat → Word) : KeepsPends g (g.putEach l r f) := by
  unfold Group.putEach
  induction l generalizing g with
  | nil => exact .refl g
  | cons i l ih => exact (KeepsPends.setV g (r i) i (f i)).trans (ih _)

theorem vreg_setV (g : Group) (r i : Nat) (w : Word) (q j : Nat) (hi : i < 64) (hj : j < 64) :
    (g.setV r i w).vreg q j = if q = r ∧ j = i then w else g.vreg q j := by
  unfold Group.setV
  rw [Group.vreg_putV _ _ _ _ _ _ hi hj, Group.vreg_mapPend]

theorem vreg_putEach (l : List Nat) (hl : l.Nodup) (h64 : ∀ i ∈ l, i < 64) (g : Group) (r : Nat → Nat) (f : Nat → Word) (q j : Nat)
    (hj : j < 64) : (g.putEach l r f).vreg q j = if j ∈ l ∧ q = r j then f j else g.vreg q j := by
  unfold Group.putEach
  induction l generalizing g with
  | nil => simp
  | cons i l ih =>
    obtain ⟨fresh, hl⟩ := List.nodup_cons.mp hl
    rw [List.foldl_cons, ih hl (fun k hk => h64 k (by simp [hk])), vreg_setV _ _ _ _ _ _ (h64 i (by simp)) hj]
    by_cases hji : j = i
    · subst hji; simp [fresh]
    · simp [hji]

/-! ### `RGET` and `RPUT` (R239) -/

theorem beyondN_none {e : Env} {g : Group} {idx : Reg} (h : ∀ i, i < 64 → e.act.getLsbD i = true → (g.reg idx i).toNat < g.n) :
    e.beyondN g idx = 0 := by
  apply BitVec.eq_of_getLsbD_eq
  intro i hi
  unfold Env.beyondN
  rw [getLsbD_maskOf, show (0 : Lanes).getLsbD i = false from BitVec.getLsbD_zero]
  by_cases ha : e.act.getLsbD i = true
  · simp [h i hi ha]
  · simp [ha]

/-- Indices in range before the instruction are in range where its effect checks them. -/
theorem begun_beyondN (h : Sole s c x m) (sh : Shape) (g : Guard) {idx : Reg}
    (hi : ∀ i, i < 64 → (m.active s g).getLsbD i = true → ((m.group s).reg idx i).toNat < (m.group s).n) :
    (s.env c x m g).group (s.begun sh c x m) = m.begun s sh ∧ (s.env c x m g).beyondN (m.begun s sh) idx = 0 := by
  refine ⟨begun_group h sh, beyondN_none ?_⟩
  rw [begun_reg, begun_n]
  exact hi

/-- What `RGET` has outstanding: register d of each lane, with the register that its index names. -/
def Group.gathered (k : Group) (d : VReg) (act : Lanes) (idx : Reg) : Pend :=
  { Pend.zero with vw := vWrites d.toNat act (fun i => k.vreg (k.reg idx i).toNat i) }

theorem rget_does (h : Sole s c x m) (g : Guard) (ll : Ll) (d : VReg) {idx : Reg} (hd : d.toNat < (m.group s).n)
    (hidx : Reg.fits idx (m.group s).n)
    (hi : ∀ i, i < 64 → (m.active s g).getLsbD i = true → ((m.group s).reg idx i).toNat < (m.group s).n)
    (hc : m.canCount s g ll) :
    Does s c x m (exec (.rget g ll d idx) s) (fun k G =>
      Began k G m.lanes (m.active s g) ll (k.gathered d (m.active s g) idx)) := by
  have inRange := fun sh => begun_beyondN h sh g hi
  refine (leaves_of_run h { g := g, top := maxOf [topV d 1, topR idx 1], ll := some ll } _
    (fun k => (k.begin ll (m.active s g) ((m.group s).gathered d (m.active s g) idx)).1) 0 ?counter (by simp [State.roomFor]) rfl
    (atLeast_user _) ?top ?effect ?calls).mono (fun G hG => by rw [hG]; exact began_begin s m _ ll _ _)
  case counter => intro l hl; cases hl; exact hc
  case top => exact maxOf_le (by simpa [topV] using ⟨hd, topR_le hidx⟩)
  case effect =>
    dsimp only
    rw [(inRange _).1, (inRange _).2, begun_vreg, begun_reg]
    exact if_neg (fun e => e rfl)
  case calls => rw [begin_calls]; exact begun_calls h _

theorem rput_does (h : Sole s c x m) (g : Guard) {idx a : Reg} (hidx : Reg.fits idx (m.group s).n) (ha : Reg.fits a (m.group s).n)
    (hi : ∀ i, i < 64 → (m.active s g).getLsbD i = true → ((m.group s).reg idx i).toNat < (m.group s).n) :
    Does s c x m (exec (.rput g idx a) s) (fun k G => G = { k with v := G.v, pend := G.pend } ∧ SamePends k G ∧
      ∀ r i, i < 64 → G.vreg r i = if (m.active s g).getLsbD i = true ∧ r = (k.reg idx i).toNat then k.reg a i else k.vreg r i) := by
  have inRange := fun sh => begun_beyondN h sh g hi
  refine (leaves_of_run h { g := g, top := maxOf [topR idx 1, topR a 1] } _
    (fun k => k.putEach (lanesOf (m.active s g)) (fun i => ((m.group s).reg idx i).toNat) ((m.group s).reg a)) 0 (by simp)
    (by simp [State.roomFor]) rfl (atLeast_user _) ?top ?effect ?calls).mono (fun G hG => ?after)
  case top => exact maxOf_le (by simpa using ⟨topR_le hidx, topR_le ha⟩)
  case effect =>
    dsimp only
    rw [(inRange _).1, (inRange _).2, begun_reg]
    exact if_neg (fun e => e rfl)
  case calls => rw [putEach_rest]; exact h.calls
  case after =>
    rw [hG]
    refine ⟨?rest, ?pends, fun r i h64 => ?regs⟩
    case rest => rw [putEach_rest, begun_eq_pend]
    case pends => exact (pends_of_begun (putEach_keeps _ _ _ _)).1
    case regs =>
      rw [vreg_putEach _ (nodup_lanesOf _) (fun i hi => (mem_lanesOf.mp hi).1) _ _ _ _ _ h64, begun_vreg]
      simp only [mem_lanesOf, h64, true_and]

/-! ### `FMTSET` (R247) -/

theorem Ends.mono {gone : Lanes} {o : Host.Outcome State Fault Refusal} {P Q : State → Prop} (h : Ends c x m gone o P)
    (hPQ : ∀ u, P u → Q u) : Ends c x m gone o Q := by
  obtain ⟨u, t, ho, hu, ha, hm⟩ := h
  exact ⟨u, t, ho, hPQ u hu, ha, hm⟩

theorem fmtset_ends (h : Sole s c x m) (g : Guard) (k : BitVec 4) (y : FmtSrc) :
    Ends c x m 0 (exec (.fmtset g k y) s) (fun u =>
      Undisturbed s u m ∧ u = { s with cores := u.cores, teams := u.teams } ∧
      { u.team m.team with groups := [] } = { (if m.active s g = 0 then s.team m.team else
        { s.team m.team with f := set 0 k.toNat ((m.group s).fmtSrc y) (s.team m.team).f }) with groups := [] }) := by
  refine once_team h (top := 0) (wait := fun _ _ => false)
    (f := fun e s => s.onTeam e.team (fun t => { t with f := set 0 k.toNat ((e.group s).fmtSrc y) t.f }))
    (fun t => { t with f := set 0 k.toNat ((m.group s).fmtSrc y) t.f }) (atLeast_user _) (Nat.zero_le _) rfl (fun sh => ?_)
    (fun _ _ => rfl)
  have group : (s.env c x m g).group (s.begun sh c x m) = m.begun s sh := begun_group h sh
  have source : (m.begun s sh).fmtSrc y = (m.group s).fmtSrc y := by unfold Group.fmtSrc; rw [begun_sreg]
  rw [group, source]
  rfl

/-- A format register of a team after it. -/
theorem fmt_of_rest {t u : Team} {act : Lanes} {k : Nat} {w : BitVec 16}
    (h : { u with groups := [] } = { (if act = 0 then t else { t with f := set 0 k w t.f }) with groups := [] }) :
    { u with groups := [], f := [] } = { t with groups := [], f := [] } ∧
    ∀ n, get 0 n u.f = if act ≠ 0 ∧ n = k then w else get 0 n t.f := by
  by_cases ha : act = 0
  · rw [if_pos ha] at h
    have f : u.f = t.f := (congrArg Team.f h :)
    exact ⟨(congrArg (fun y : Team => { y with f := [] }) h :), fun n => by rw [f, if_neg (fun e => e.1 ha)]⟩
  · rw [if_neg ha] at h
    have f : u.f = set 0 k w t.f := (congrArg Team.f h :)
    exact ⟨(congrArg (fun y : Team => { y with f := [] }) h :), fun n => by
      simp only [f, get_set, ne_eq, ha, not_false_eq_true, true_and]⟩

end Sys2Proof.Machine

open Sys2Proof Sys2Proof.Machine

/-- Settles O21: no index is refused; each active lane reads or writes the register it names, and the team its format register. -/
theorem indirectRegistersAndFormatsComplete : Obligations.IndirectRegistersAndFormatsComplete := by
  intro s c x m h g ll d idx a k y hd hidx ha act at_ fmt
  refine ⟨fun hi => ⟨fun hc => rget_does h g ll d hd hidx hi hc, rput_does h g hidx ha hi⟩, ?fmtset⟩
  case fmtset =>
    have source : (m.group s).fmtSrc y = fmt := by cases y <;> rfl
    refine (fmtset_ends h g k y).mono (fun u hu => ?_)
    obtain ⟨und, rest, team⟩ := hu
    rw [source] at team
    exact ⟨und, rest, fmt_of_rest team⟩
end

section
/-!
PROOF. Shelves (R41, R70-R72, R276, R277) and the wait for presence (R278): obligation O32.
-/
namespace Sys2Proof.Machine

variable {s : State} {c : Nat} {x : Issue} {m : Member}

/-! ### Shelves written -/

theorem shelf_setShelf (t : Team) (k j : Nat) (h : Shelf) : (t.setShelf k h).shelf j = if j = k then h else t.shelf j :=
  get_put _ _ _ _ _

/-- From s to u, of the team of m and beside its groups, shelf k alone has changed, to F; cores and teams apart, nothing has. -/
structure Shelved (s u : State) (m : Member) (k : Nat) (F : Shelf) : Prop where
  team : { u.team m.team with groups := [], h := [] } = { s.team m.team with groups := [], h := [] }
  rest : u = { s with cores := u.cores, teams := u.teams }
  shelf : (u.team m.team).shelf k = F
  others : ∀ j, j ≠ k → (u.team m.team).shelf j = (s.team m.team).shelf j

namespace Shelved

variable {b : State} {k : Nat} {F : Shelf}

/-- The statement's own form. -/
theorem said (h : Shelved s b m k F) : { b.team m.team with groups := [], h := [] } = { s.team m.team with groups := [], h := [] } ∧
    b = { s with cores := b.cores, teams := b.teams } ∧ (b.team m.team).shelf k = F ∧
    ∀ j, j ≠ k → (b.team m.team).shelf j = (s.team m.team).shelf j :=
  ⟨h.team, h.rest, h.shelf, h.others⟩

/-- A team that differs in its groups alone has the same shelves. -/
theorem of_groups (hr : b = { s with cores := b.cores, teams := b.teams })
    (ht : { b.team m.team with groups := [] } = { s.team m.team with groups := [] }) (k : Nat) :
    Shelved s b m k ((s.team m.team).shelf k) := by
  have hh : (b.team m.team).h = (s.team m.team).h := (congrArg Team.h ht :)
  have shelf : ∀ j, (b.team m.team).shelf j = (s.team m.team).shelf j := fun j => by unfold Team.shelf; rw [hh]
  exact ⟨congrArg (fun t : Team => { t with h := [] }) ht, hr, shelf k, fun j _ => shelf j⟩

theorem begun (s : State) (sh : Shape) (c : Nat) (x : Issue) (m : Member) (k : Nat) :
    Shelved s (s.begun sh c x m) m k ((s.team m.team).shelf k) :=
  of_groups (begun_rest _ _ _ _ _) (begun_team_rest _ _ _ _ _ _) k

theorem onShelf (h : Shelved s b m k F) (there : (find m.team b.teams).isSome = true) (f : Shelf → Shelf) :
    Shelved s (b.onShelf m.team k f) m k (f F) := by
  have team : (b.onShelf m.team k f).team m.team = (b.team m.team).setShelf k (f F) := by
    unfold State.onShelf
    rw [State.team_onTeam, if_pos ⟨rfl, there⟩, h.shelf]
  refine ⟨?team, ?rest, ?shelf, fun j hj => ?others⟩
  case team => rw [team]; exact h.team
  case rest => rw [h.rest]; rfl
  case shelf => rw [team, shelf_setShelf, if_pos rfl]
  case others => rw [team, shelf_setShelf, if_neg hj, h.others j hj]

theorem onGroup (h : Shelved s b m k F) (t g : Nat) (f : Group → Group) : Shelved s (b.onGroup t g f) m k F := by
  have same := of_groups (s := b) (m := m) (b := b.onGroup t g f) rfl (onGroup_team_rest _ _ _ _ _) k
  exact ⟨same.team.trans h.team, by rw [h.rest]; rfl, same.shelf.trans h.shelf,
    fun j hj => (same.others j hj).trans (h.others j hj)⟩

end Shelved

theorem Aside.trans {a b u : State} (h : Aside a b m) (k : Aside b u m) : Aside a u m :=
  ⟨k.cores.trans h.cores, fun n j => (k.group n j).trans (h.group n j), k.has.trans h.has,
    fun n hn => (k.teams n hn).trans (h.teams n hn)⟩

theorem Aside.onShelf (b : State) (k : Nat) (f : Shelf → Shelf) : Aside b (b.onShelf m.team k f) m := .onTeam b (fun _ => rfl)

theorem Aside.there {a b : State} (h : Aside a b m) (ha : a.has m.team m.grp = true) : (find m.team b.teams).isSome = true := by
  have hb := h.has.trans ha
  unfold State.has at hb
  exact (Bool.and_eq_true _ _ ▸ hb).1

/-! ### Instructions on shelves -/

/-- What instructions on shelves ask for: they act once for the group. -/
abbrev shelfShape (g : Guard) (mem : Bool) : Shape := { g := g, mem := mem, once := true }

/-- A shelf instruction that leaves cores and groups aside. -/
theorem shelf_ends (h : Sole s c x m) (g : Guard) (mem : Bool) (f : Env → State → Res) {k : Nat} {F : Shelf} {u : State}
    (hf : f (s.env c x m g) (s.begun (shelfShape g mem) c x m) = .ok u 0) (aside : Aside (s.begun (shelfShape g mem) c x m) u m)
    (hu : Shelved s u m k F) :
    Ends c x m 0 (.next (s.run (shelfShape g mem) f)) (fun u => Undisturbed s u m ∧ Shelved s u m k F) := by
  have und := aside.undisturbed h
  refine run_ends h _ f u 0 (by simp) (by simp [State.roomFor]) rfl (atLeast_user _) (Nat.zero_le _) hf ?has ?calls _ ⟨und, hu⟩
  case has => rw [aside.has]; exact begun_has h _
  case calls => rw [und.own]; exact h.calls

/-- One that acts on a shelf, once, if a lane is active. -/
theorem shelf_once_ends (h : Sole s c x m) (g : Guard) (mem : Bool) (f : Env → State → Res) {step : State → State} {k : Nat} {F : Shelf}
    (hf : f (s.env c x m g) (s.begun (shelfShape g mem) c x m) =
      .go ((s.env c x m g).once (s.begun (shelfShape g mem) c x m) step))
    (aside : Aside (s.begun (shelfShape g mem) c x m) (step (s.begun (shelfShape g mem) c x m)) m)
    (hstep : Shelved s (step (s.begun (shelfShape g mem) c x m)) m k F) :
    Ends c x m 0 (.next (s.run (shelfShape g mem) f)) (fun u => Undisturbed s u m ∧
      Shelved s u m k (if m.active s g = 0 then (s.team m.team).shelf k else F)) := by
  have act : (s.env c x m g).act = m.active s g := rfl
  unfold Env.once at hf
  rw [act] at hf
  by_cases ha : m.active s g = 0
  · rw [if_pos ha] at hf ⊢
    exact shelf_ends h g mem f hf (.refl _) (.begun s _ c x m k)
  · rw [if_neg ha] at hf ⊢
    exact shelf_ends h g mem f hf aside hstep

/-- The shelf as the instruction finds it. -/
theorem begun_shelf (s : State) (sh : Shape) (c : Nat) (x : Issue) (m : Member) (k : Nat) :
    ((s.begun sh c x m).team m.team).shelf k = (s.team m.team).shelf k := (Shelved.begun s sh c x m k).shelf

theorem begun_env_group (h : Sole s c x m) (g : Guard) (sh : Shape) : (s.env c x m g).group (s.begun sh c x m) = m.begun s sh :=
  begun_group h sh

/-! ### `SHCFG` (R70, R276) -/

theorem badShelf_congr {t u : Team} (h : { u with groups := [] } = { t with groups := [] }) (k : Nat) (y : Word) :
    u.badShelf k y = t.badShelf k y := by
  have size : u.size = t.size := (congrArg Team.size h :)
  have shelf : u.shelf = t.shelf := by
    have hh : u.h = t.h := (congrArg Team.h h :)
    funext j
    unfold Team.shelf
    rw [hh]
  unfold Team.badShelf
  rw [size, shelf]

theorem waitedOn_false {f : Shelf} (hw : f.wants = []) (hd : f.dues = []) : f.waitedOn = false := by
  unfold Shelf.waitedOn
  rw [hw, hd]
  rfl

theorem shcfg_ends (h : Sole s c x m) (g : Guard) (k : BitVec 4) (a : SReg) (hw : ((s.team m.team).shelf k.toNat).wants = [])
    (hd : ((s.team m.team).shelf k.toNat).dues = [])
    (hb : (s.team m.team).badShelf k.toNat ((m.group s).sreg a.toNat) = false) :
    Ends c x m 0 (exec (.shcfg g k a) s) (fun u => Undisturbed s u m ∧ Shelved s u m k.toNat
      (if m.active s g = 0 then (s.team m.team).shelf k.toNat else { Shelf.off with
        base := bits ((m.group s).sreg a.toNat) 0 13, slotl := bits ((m.group s).sreg a.toNat) 16 8
        nslot := bits ((m.group s).sreg a.toNat) 24 6 + 1, cfg := true, times := ((s.team m.team).shelf k.toNat).times })) := by
  refine shelf_once_ends h g false _ (step := fun b => b.onShelf m.team k.toNat (fun f => { Shelf.off with
      base := bits ((m.group s).sreg a.toNat) 0 13, slotl := bits ((m.group s).sreg a.toNat) 16 8
      nslot := bits ((m.group s).sreg a.toNat) 24 6 + 1, cfg := true, times := f.times })) ?effect
    (.onShelf _ _ _) ((Shelved.begun s _ c x m k.toNat).onShelf (begun_team_there h _) _)
  have team : (s.env c x m g).team = m.team := rfl
  simp only [begun_env_group h, team, badShelf_congr (begun_team_rest s _ c x m m.team), begun_sreg, begun_shelf, hb,
    waitedOn_false hw hd, Bool.or_self, Bool.false_eq_true, if_false]

theorem shcfgOff_ends (h : Sole s c x m) (g : Guard) (k : BitVec 4) (hw : ((s.team m.team).shelf k.toNat).wants = [])
    (hd : ((s.team m.team).shelf k.toNat).dues = []) :
    Ends c x m 0 (exec (.shcfgOff g k) s) (fun u => Undisturbed s u m ∧ Shelved s u m k.toNat
      (if m.active s g = 0 then (s.team m.team).shelf k.toNat else { (s.team m.team).shelf k.toNat with cfg := false })) := by
  refine shelf_once_ends h g false _ (step := fun s => s.onShelf m.team k.toNat (fun f => { f with cfg := false })) ?effect
    (.onShelf _ _ _) ((Shelved.begun s _ c x m k.toNat).onShelf (begun_team_there h _) _)
  have team : (s.env c x m g).team = m.team := rfl
  simp only [team, begun_shelf, waitedOn_false hw hd, Bool.false_eq_true, if_false]

/-! ### Acquires and takes (R41, R71, R277) -/

theorem advN_nslot (f : Shelf) (n : Nat) : ∀ (F : Shelf) (p : Nat × Bool), F.nslot = f.nslot → F.advN p n = f.advN p n := by
  induction n with
  | zero => exact fun _ _ _ => rfl
  | succ n ih =>
    intro F p hn
    have adv : F.adv p = f.adv p := by unfold Shelf.adv; rw [hn]
    exact (ih F _ hn).trans (by rw [adv]; rfl)

/-- A waiting acquire or take can fire (R41, R71, R277). -/
def Shelf.canFire (f : Shelf) (w : ShelfWant) : Bool :=
  f.cfg && decide (w.count ≤ if w.take then f.full else f.room) && f.dues.all (fun d => decide (w.ticket < d.place))

/-- The first waiting take, if it can fire. -/
def Shelf.readyTake (f : Shelf) : Option ShelfWant :=
  match f.wants.find? (fun w => w.take == true) with
  | some v => if f.canFire v then some v else none
  | none => none

theorem ready_eq (f : Shelf) : f.ready = match f.wants.find? (fun w => w.take == false) with
    | some w => if f.canFire w then some w else f.readyTake
    | none => f.readyTake := rfl

theorem canFire_of_ready {f : Shelf} {w : ShelfWant} (h : f.ready = some w) : f.canFire w = true := by
  have take : f.readyTake = some w → f.canFire w = true := fun ht => by
    unfold Shelf.readyTake at ht
    split at ht
    · split at ht
      · next hv => cases ht; exact hv
      · cases ht
    · cases ht
  rw [ready_eq] at h
  split at h
  · split at h
    · next hv => cases h; exact hv
    · exact take h
  · exact take h

theorem canFire_iff {f : Shelf} (hc : f.cfg = true) (hd : f.dues = []) (w : ShelfWant) :
    f.canFire w = true ↔ w.count ≤ if w.take then f.full else f.room := by
  unfold Shelf.canFire
  rw [hc, hd, List.all_nil, Bool.true_and, Bool.and_true, decide_eq_true_eq]

/-- The only one that waits fires if it can. -/
theorem ready_alone {f : Shelf} {w : ShelfWant} (hw : f.wants = [w]) (hf : f.canFire w = true) : f.ready = some w := by
  have take : w.take = true → f.readyTake = some w := fun ht => by
    unfold Shelf.readyTake
    rw [hw, List.find?_cons_of_pos (by rw [ht]; rfl)]
    exact if_pos hf
  rw [ready_eq, hw]
  cases ht : w.take with
  | false => rw [List.find?_cons_of_pos (by rw [ht]; rfl)]; exact if_pos hf
  | true => rw [List.find?_cons_of_neg (by rw [ht]; decide)]; exact take ht

/-- The acquire or take that an instruction asks for. -/
def Member.asks (m : Member) (take : Bool) (d : SReg) (n : Nat) (f : Shelf) : ShelfWant :=
  { ticket := f.place, take := take, count := n, who := .group m.grp, d := d, lanes := 0 }

/-- What a claim answers: the offset and the index of a slot (R276). -/
def Shelf.slotWord (f : Shelf) (j : Nat) : Word := BitVec.ofNat 64 (f.slotAt j + j * 2 ^ 32)

/-- The timestamp that a claim of slots brings (R103). -/
def Shelf.claimTime (f : Shelf) (take : Bool) (n : Nat) : Nat := if take then f.timeOf (f.claim take n).1 n else 0

/-- What a claim that fires leaves of its group: its answer, its lanes let go, and its timestamp raised. -/
def Group.fired (k : Group) (w : ShelfWant) (slot : Word) (time : Nat) : Group :=
  { (k.setS w.d.toNat slot).release w.lanes with gts := Nat.max k.gts time }

/-- What it leaves of its shelf. -/
def Shelf.fired (f : Shelf) (w : ShelfWant) : Shelf :=
  { (f.claim w.take w.count).2 with wants := f.wants.filter (fun y => y.ticket != w.ticket) }

/-- The shelf with one acquire or take more that waits. -/
def Shelf.waitFor (f : Shelf) (w : ShelfWant) : Shelf := { f with wants := f.wants ++ [w] }

theorem release_zero {k : Group} (h : k.calls = []) : k.release 0 = k := by
  unfold Group.release Group.goTo
  rw [lanesOf_zero]
  exact settle_of_none _ _ h

/-- A claim of a group that fires. -/
theorem fireShelf_group {b : State} {t k : Nat} {w : ShelfWant} {g : Nat} {f : Shelf} (hf : (b.team t).shelf k = f)
    (hw : w.who = .group g) : b.fireShelf t k w = (b.onShelf t k (fun _ => f.fired w)).onGroup t g (fun y =>
      y.fired w (f.slotWord (f.claim w.take w.count).1) (f.claimTime w.take w.count)) := by
  subst hf
  unfold State.fireShelf
  rw [hw]
  refine congrArg (State.onGroup _ t g) (funext fun y => ?_)
  have gts : (y.setS w.d.toNat (((b.team t).shelf k).slotWord (((b.team t).shelf k).claim w.take w.count).1)).gts = y.gts := by
    rw [setS_rest]
  unfold Group.fired
  rw [← gts]
  rfl

theorem claim_waitFor (f : Shelf) (w : ShelfWant) (take : Bool) (n : Nat) :
    (f.waitFor w).claim take n = ((f.claim take n).1, { (f.claim take n).2 with wants := f.wants ++ [w] }) := by
  have adv : ∀ p, (f.waitFor w).advN p n = f.advN p n := fun p => advN_nslot f n _ p rfl
  unfold Shelf.claim
  cases take <;> simp only [adv, Bool.false_eq_true, if_true, if_false] <;> rfl

/-- The only one that waits leaves none behind. -/
theorem fired_waitFor {f : Shelf} (hw : f.wants = []) (w : ShelfWant) : (f.waitFor w).fired w = (f.claim w.take w.count).2 := by
  have alone : (f.waitFor w).wants.filter (fun y => y.ticket != w.ticket) = f.wants := by
    unfold Shelf.waitFor
    simp [hw]
  have keeps : (f.claim w.take w.count).2.wants = f.wants := by
    unfold Shelf.claim
    split <;> rfl
  unfold Shelf.fired
  rw [alone, claim_waitFor, ← keeps]

theorem want_eq (b : State) (t k : Nat) (w : ShelfWant) : b.want t k w =
    if ((b.onShelf t k (fun f => f.waitFor w)).team t |>.shelf k).ready = some w
    then ((b.onShelf t k (fun f => f.waitFor w)).fireShelf t k w, true) else (b.onShelf t k (fun f => f.waitFor w), false) := rfl

theorem shelf_onShelf {b : State} {t k : Nat} {f : Shelf} (there : (find t b.teams).isSome = true) (hf : (b.team t).shelf k = f)
    (F : Shelf → Shelf) : ((b.onShelf t k F).team t).shelf k = F f := by
  unfold State.onShelf
  rw [State.team_onTeam, if_pos ⟨rfl, there⟩, shelf_setShelf, if_pos rfl, hf]

/-- A claim with nothing before it fires when it can. -/
theorem want_fires {b : State} {t k : Nat} {w : ShelfWant} {g : Nat} {f : Shelf} (there : (find t b.teams).isSome = true)
    (hf : (b.team t).shelf k = f) (hw : f.wants = []) (hd : f.dues = []) (hc : f.cfg = true)
    (hn : w.count ≤ if w.take then f.full else f.room) (hg : w.who = .group g) :
    b.want t k w = (((b.onShelf t k (fun f => f.waitFor w)).onShelf t k (fun _ => (f.claim w.take w.count).2)).onGroup t g (fun y =>
      y.fired w (f.slotWord (f.claim w.take w.count).1) (f.claimTime w.take w.count)), true) := by
  have shelf := shelf_onShelf there hf (fun f => f.waitFor w)
  have ready : (f.waitFor w).ready = some w :=
    ready_alone (by unfold Shelf.waitFor; rw [hw]; rfl) ((canFire_iff (f := f.waitFor w) hc hd w).mpr hn)
  have claim : ((f.waitFor w).claim w.take w.count).1 = (f.claim w.take w.count).1 := by rw [claim_waitFor]
  have time : (f.waitFor w).claimTime w.take w.count = f.claimTime w.take w.count := by unfold Shelf.claimTime; rw [claim]; rfl
  rw [want_eq, shelf, if_pos ready, fireShelf_group shelf hg, fired_waitFor hw, claim, time]
  rfl

/-- A claim that cannot fire waits. -/
theorem want_waits {b : State} {t k : Nat} {w : ShelfWant} {f : Shelf} (there : (find t b.teams).isSome = true)
    (hf : (b.team t).shelf k = f) (hn : ¬ w.count ≤ if w.take then f.full else f.room) :
    b.want t k w = (b.onShelf t k (fun f => f.waitFor w), false) := by
  rw [want_eq, shelf_onShelf there hf]
  refine if_neg (fun hr => hn ?_)
  have fire := canFire_of_ready hr
  unfold Shelf.canFire at fire
  simp only [Bool.and_eq_true, decide_eq_true_eq] at fire
  exact fire.1.2

/-- A claim of no lanes lets none go. -/
theorem fired_eq {k : Group} (hk : k.calls = []) {w : ShelfWant} (hw : w.lanes = 0) (slot : Word) (time : Nat) :
    k.fired w slot time = { k.setS w.d.toNat slot with gts := Nat.max k.gts time } := by
  unfold Group.fired
  rw [hw, release_zero (by rw [setS_calls]; exact hk)]

/-- A group that its own lanes' waits alone set apart, as the statements say it. -/
theorem stood_standAt (s : State) (m : Member) (sh : Shape) (act : Lanes) (code : Nat) (pc : Word) (hdr : Word × Nat) (w : Wait) :
    SamePends (m.group s) ((m.begun s sh).standAt act code pc hdr (some w)) ∧
    Stood (m.group s) ((m.begun s sh).standAt act code pc hdr (some w)) act code pc hdr (fun _ => some w) := by
  refine ⟨(pends_of_begun (.of_eq (by rw [standAt_rest]))).1, fun i hi ha => ?there, fun i hi ha => ?others⟩ <;>
    rw [lanePc_standAt _ _ _ _ _ _ _ hi, state_standAt _ _ _ _ _ _ _ hi, find_wait_standAt _ _ _ _ _ _ _ hi,
      find_hdr_standAt _ _ _ _ _ _ _ hi]
  case there => simp only [ha, if_true, and_self]
  case others => simp only [ha, Bool.false_eq_true, if_false, begun_lanePc, begun_state, begun_wait, begun_hdr, and_self]

section claims

variable {g : Guard} {take : Bool} {d : SReg} {k : BitVec 4} {n : BitVec 7} {f : Shelf}

/-- What a claim's own step is, once it asks in an active lane for slots that the shelf has. -/
theorem claim_effect {u : State} {gone : Lanes} (h : Sole s c x m) (ha : m.active s g ≠ 0)
    (hf : (s.team m.team).shelf k.toNat = f) (hc : f.cfg = true) (hs : n.toNat ≤ f.nslot)
    (hu : (match (s.begun (shelfShape g true) c x m).want m.team k.toNat (m.asks take d n.toNat f) with
      | (s', true) => Res.go s'
      | (_, false) => .ok ((s.env c x m g).block ((s.begun (shelfShape g true) c x m).onShelf m.team k.toNat (fun F =>
          F.waitFor { m.asks take d n.toNat f with lanes := m.active s g })) (m.active s g) 6 (.shelf k.toNat f.place)) (m.active s g)) =
      .ok u gone) (hhas : u.has m.team m.grp = true) (hcalls : (m.group u).calls = []) {P : State → Prop} (hP : P u) :
    Ends c x m gone (.next (s.claimShelf g take d k n)) P := by
  have shelf : ((s.begun (shelfShape g true) c x m).team m.team).shelf k.toNat = f := (begun_shelf ..).trans hf
  unfold State.claimShelf
  refine run_ends h (shelfShape g true) _ u gone (by simp) (by simp [State.roomFor]) rfl (atLeast_user _) (Nat.zero_le _) ?effect hhas
    hcalls P hP
  have team : (s.env c x m g).team = m.team := rfl
  have act : (s.env c x m g).act = m.active s g := rfl
  simp only [team, act, shelf, hc, Bool.not_true, Bool.false_or, decide_eq_true_eq, if_neg (Nat.not_lt.mpr hs), if_neg ha]
  exact hu

/-- A claim with nothing before it fires when it can. -/
theorem claim_fires (h : Sole s c x m) (ha : m.active s g ≠ 0) (hf : (s.team m.team).shelf k.toNat = f) (hc : f.cfg = true)
    (hs : n.toNat ≤ f.nslot) (hw : f.wants = []) (hd : f.dues = []) (hn : n.toNat ≤ if take then f.full else f.room) :
    Ends c x m 0 (.next (s.claimShelf g take d k n)) (fun u => Shelved s u m k.toNat (f.claim take n.toNat).2 ∧
      m.group u = (m.begun s (shelfShape g true)).fired (m.asks take d n.toNat f) (f.slotWord (f.claim take n.toNat).1)
        (f.claimTime take n.toNat) ∧
      ∀ r j, ¬(r = m.team ∧ j = m.grp) → u.group r j = s.group r j) := by
  have shelf : ((s.begun (shelfShape g true) c x m).team m.team).shelf k.toNat = f := (begun_shelf ..).trans hf
  have there := begun_team_there h (shelfShape g true)
  have has := begun_has h (shelfShape g true)
  obtain ⟨B, fires, aside, shelved⟩ : ∃ B, (s.begun (shelfShape g true) c x m).want m.team k.toNat (m.asks take d n.toNat f) =
      (B.onGroup m.team m.grp (fun y => y.fired (m.asks take d n.toNat f) (f.slotWord (f.claim take n.toNat).1)
        (f.claimTime take n.toNat)), true) ∧ Aside (s.begun (shelfShape g true) c x m) B m ∧
      Shelved s B m k.toNat (f.claim take n.toNat).2 :=
    ⟨_, want_fires there shelf hw hd hc hn rfl, (Aside.onShelf _ _ _).trans (.onShelf _ _ _),
      ((Shelved.begun s _ c x m _).onShelf there _).onShelf ((Aside.onShelf _ _ _).there has) (fun _ => (f.claim take n.toNat).2)⟩
  have own : m.group (B.onGroup m.team m.grp (fun y => y.fired (m.asks take d n.toNat f) (f.slotWord (f.claim take n.toNat).1)
      (f.claimTime take n.toNat))) = (m.begun s (shelfShape g true)).fired (m.asks take d n.toNat f)
        (f.slotWord (f.claim take n.toNat).1) (f.claimTime take n.toNat) := by
    show State.group _ m.team m.grp = _
    rw [State.group_onGroup, if_pos ⟨rfl, rfl, aside.has.trans has⟩, aside.group, begun_group h]
  refine claim_effect h ha hf hc hs (by rw [fires]; rfl) ?has ?calls ⟨shelved.onGroup _ _ _, own, fun r j hrj => ?groups⟩
  case has => rw [has_onGroup]; exact aside.has.trans has
  case calls => rw [own, fired_eq (begun_calls h _) rfl]; exact (setS_calls _ _ _).trans (begun_calls h _)
  case groups => rw [onGroup_other _ _ _ _ _ _ hrj, aside.group, begun_other _ _ _ _ _ _ _ hrj]

/-- The group after a claim that fires at once. -/
theorem fired_begun (h : Sole s c x m) (w : ShelfWant) (hw : w.lanes = 0) (slot : Word) (time : Nat) :
    let G := (m.begun s (shelfShape g true)).fired w slot time
    SamePends (m.group s) G ∧ G = { m.group s with s := G.s, pend := G.pend, gts := max (m.group s).gts time } ∧
    ∀ r, G.sreg r = if r = w.d.toNat ∧ r ≠ 0 ∧ r ≠ 2 then slot else (m.group s).sreg r := by
  intro G
  have hG : G = { (m.begun s (shelfShape g true)).setS w.d.toNat slot with gts := Nat.max (m.begun s (shelfShape g true)).gts time } :=
    fired_eq (begun_calls h _) hw slot time
  have keeps : KeepsPends (m.begun s (shelfShape g true)) G := (KeepsPends.setS _ w.d.toNat slot).trans (.of_eq (by rw [hG]))
  refine ⟨(pends_of_begun keeps).1, ?rest, fun r => ?sreg⟩
  case rest => rw [hG, setS_rest, begun_eq_pend_of_acc (sh := shelfShape g true) s m rfl]
  case sreg =>
    have same : G.sreg r = ((m.begun s (shelfShape g true)).setS w.d.toNat slot).sreg r := by rw [hG]; rfl
    rw [same, sreg_setS, begun_sreg]

/-- What it answers and leaves. -/
theorem claim_answers (h : Sole s c x m) (ha : m.active s g ≠ 0) (hf : (s.team m.team).shelf k.toNat = f) (hc : f.cfg = true)
    (hs : n.toNat ≤ f.nslot) (hw : f.wants = []) (hd : f.dues = []) (hn : n.toNat ≤ if take then f.full else f.room) :
    Ends c x m 0 (.next (s.claimShelf g take d k n)) (fun u => Shelved s u m k.toNat (f.claim take n.toNat).2 ∧
      SamePends (m.group s) (m.group u) ∧
      m.group u = { m.group s with
        s := (m.group u).s, pend := (m.group u).pend, gts := max (m.group s).gts (f.claimTime take n.toNat) } ∧
      (∀ r, (m.group u).sreg r =
        if r = d.toNat ∧ r ≠ 0 ∧ r ≠ 2 then f.slotWord (f.claim take n.toNat).1 else (m.group s).sreg r) ∧
      ∀ r j, ¬(r = m.team ∧ j = m.grp) → u.group r j = s.group r j) := by
  refine (claim_fires h ha hf hc hs hw hd hn).mono (fun u hu => ?_)
  obtain ⟨shelved, own, others⟩ := hu
  obtain ⟨same, rest, regs⟩ := fired_begun h (m.asks take d n.toNat f) rfl (f.slotWord (f.claim take n.toNat).1) (f.claimTime take n.toNat)
  rw [← own] at same rest regs
  exact ⟨shelved, same, rest, regs, others⟩

/-- A claim that cannot fire waits. -/
theorem claim_waits (h : Sole s c x m) (ha : m.active s g ≠ 0) (hf : (s.team m.team).shelf k.toNat = f) (hc : f.cfg = true)
    (hs : n.toNat ≤ f.nslot) (hn : ¬ n.toNat ≤ if take then f.full else f.room) :
    Ends c x m (m.active s g) (.next (s.claimShelf g take d k n)) (fun u =>
      Shelved s u m k.toNat (f.waitFor { m.asks take d n.toNat f with lanes := m.active s g }) ∧
      SamePends (m.group s) (m.group u) ∧
      Stood (m.group s) (m.group u) (m.active s g) 6 x.pc (x.hdr, x.bodyw) (fun _ => some (.shelf k.toNat f.place))) := by
  have shelf : ((s.begun (shelfShape g true) c x m).team m.team).shelf k.toNat = f := (begun_shelf ..).trans hf
  have there := begun_team_there h (shelfShape g true)
  have has := begun_has h (shelfShape g true)
  obtain ⟨B, hB, aside, shelved⟩ : ∃ B, (s.begun (shelfShape g true) c x m).onShelf m.team k.toNat (fun F =>
      F.waitFor { m.asks take d n.toNat f with lanes := m.active s g }) = B ∧ Aside (s.begun (shelfShape g true) c x m) B m ∧
      Shelved s B m k.toNat (f.waitFor { m.asks take d n.toNat f with lanes := m.active s g }) :=
    ⟨_, rfl, .onShelf _ _ _, hf ▸ (Shelved.begun s _ c x m _).onShelf there _⟩
  have own : ∀ F : Group → Group, m.group (B.onGroup m.team m.grp F) = F (m.begun s (shelfShape g true)) := fun F => by
    show State.group _ m.team m.grp = _
    rw [State.group_onGroup, if_pos ⟨rfl, rfl, aside.has.trans has⟩, aside.group, begun_group h]
  have stood := stood_standAt s m (shelfShape g true) (m.active s g) 6 x.pc (x.hdr, x.bodyw) (.shelf k.toNat f.place)
  rw [← own (fun y => y.standAt _ _ _ _ _)] at stood
  refine claim_effect h ha hf hc hs (by rw [want_waits there shelf hn, hB]; rfl) ?has ?calls
    ⟨shelved.onGroup _ _ _, stood⟩
  case has => rw [has_onGroup]; exact aside.has.trans has
  case calls => exact (congrArg Group.calls (own _)).trans (by rw [standAt_rest]; exact begun_calls h (shelfShape g true))

end claims

/-! ### Commits and releases (R71, R72) -/

/-- What a commit or release with nothing before it leaves of its shelf. -/
def Shelf.finished (f : Shelf) (release : Bool) (time n : Nat) : Shelf := if release then f.release n else f.commit time n

/-- The shelf with one commit or release more recorded. -/
def Shelf.record (f : Shelf) (d : ShelfDue) : Shelf := { f with dues := f.dues ++ [{ d with place := f.place }] }

/-- One recorded alone that waits for no copy takes effect in its own step. -/
theorem due_effect {b : State} {t k : Nat} {d : ShelfDue} {f : Shelf} (there : (find t b.teams).isSome = true)
    (hf : (b.team t).shelf k = f) (hd : f.dues = []) (ho : d.ops = []) (hp : d.pend = none) (hs : d.slots = none) :
    b.due t k d = (b.onShelf t k (fun f => f.record d)).onShelf t k (fun f =>
      ({ f with dues := f.dues.drop 1 } : Shelf).finished d.release
        (Nat.max d.time ((b.onShelf t k (fun f => f.record d)).group t d.grp).gts) d.count) := by
  have shelf := shelf_onShelf there hf (fun f => f.record d)
  have recorded : (f.record d).dues = [{ d with place := f.place }] := by unfold Shelf.record; rw [hd]; rfl
  have ready : (b.onShelf t k (fun f => f.record d)).dueReady t (f.record d) = some { d with place := f.place } := by
    unfold State.dueReady
    rw [recorded]
    simp only [ho, List.all_nil, if_true]
  have effect : (b.onShelf t k (fun f => f.record d)).dueEffect t k { d with place := f.place } =
      (b.onShelf t k (fun f => f.record d)).onShelf t k (fun f => ({ f with dues := f.dues.drop 1 } : Shelf).finished d.release
        (Nat.max d.time ((b.onShelf t k (fun f => f.record d)).group t d.grp).gts) d.count) := by
    unfold State.dueEffect
    simp only [hp, hs]
    rfl
  have recording : (fun f : Shelf => ({ f with dues := f.dues ++ [{ d with place := f.place }] } : Shelf)) = fun f => f.record d := rfl
  unfold State.due
  dsimp only
  rw [recording, shelf, recorded, if_pos List.length_singleton, ready]
  exact effect

theorem drop_record {f : Shelf} (hd : f.dues = []) (d : ShelfDue) : { f.record d with dues := (f.record d).dues.drop 1 } = f := by
  unfold Shelf.record
  rw [hd]
  obtain ⟨⟩ := f
  cases hd
  rfl

/-- The commit or release that an instruction asks for. -/
def Member.finishes (m : Member) (b : State) (release : Bool) (n : Nat) : ShelfDue :=
  { place := 0, release := release, count := n, time := (m.group b).gts, slots := none, grp := m.grp, pend := none
    ops := b.plainCopies m.team m.grp (some release) }

/-- A commit or release of slots that the shelf holds, with none before it and no copy to wait for. -/
theorem finish_ends (h : Sole s c x m) {g : Guard} {release : Bool} {k : BitVec 4} {n : BitVec 7} {f : Shelf}
    (hf : (s.team m.team).shelf k.toNat = f) (hc : f.cfg = true) (hd : f.dues = [])
    (hn : n.toNat ≤ if release then f.dist f.tak f.rel else f.dist f.acq f.com)
    (hp : s.plainCopies m.team m.grp (some release) = []) :
    Ends c x m 0 (.next (s.finishShelf g release k n)) (fun u => Undisturbed s u m ∧ Shelved s u m k.toNat
      (if m.active s g = 0 then (s.team m.team).shelf k.toNat else f.finished release (m.group s).gts n.toNat)) := by
  have shelf : ((s.begun (shelfShape g true) c x m).team m.team).shelf k.toNat = f := (begun_shelf ..).trans hf
  have there := begun_team_there h (shelfShape g true)
  have own : m.group (s.begun (shelfShape g true) c x m) = m.begun s (shelfShape g true) := begun_group h _
  have gts : (m.begun s (shelfShape g true)).gts = (m.group s).gts := by rw [begun_eq]
  have copies : (s.begun (shelfShape g true) c x m).plainCopies m.team m.grp (some release) = [] := by
    rw [← hp, begun_rest]
    rfl
  generalize hd' : m.finishes (s.begun (shelfShape g true) c x m) release n.toNat = d
  have aside : Aside (s.begun (shelfShape g true) c x m) ((s.begun (shelfShape g true) c x m).onShelf m.team k.toNat (fun f =>
    f.record d)) m := .onShelf _ _ _
  have due := due_effect (d := d) there shelf hd (by rw [← hd']; exact copies) (by rw [← hd']; rfl) (by rw [← hd']; rfl)
  have time : Nat.max d.time (((s.begun (shelfShape g true) c x m).onShelf m.team k.toNat (fun f => f.record d)).group m.team d.grp).gts =
      (m.group s).gts := by
    rw [aside.group, ← hd']
    show Nat.max (m.group (s.begun (shelfShape g true) c x m)).gts (m.group (s.begun (shelfShape g true) c x m)).gts = _
    rw [own, gts]
    exact Nat.max_self _
  rw [time] at due
  refine shelf_once_ends h g true _ (step := fun b => b.due m.team k.toNat (m.finishes b release n.toNat)) ?effect ?aside ?after
  case effect =>
    have team : (s.env c x m g).team = m.team := rfl
    simp only [team, shelf, hc, hd, List.foldl_nil, Nat.zero_add, Bool.not_true, Bool.false_or, decide_eq_true_eq,
      if_neg (Nat.not_lt.mpr hn)]
    rfl
  case aside =>
    rw [hd', due]
    exact aside.trans (.onShelf _ _ _)
  case after =>
    have last := ((Shelved.begun s (shelfShape g true) c x m k.toNat).onShelf there (fun f => f.record d)).onShelf
      (aside.there (begun_has h _)) (fun f => ({ f with dues := f.dues.drop 1 } : Shelf).finished d.release (m.group s).gts d.count)
    rw [hf, drop_record hd] at last
    rw [hd', due]
    rw [← hd'] at last ⊢
    exact last

/-! ### `PRWAIT` (R66, R278) -/

theorem adjust_adjust {α : Type} (k : Nat) (f F : α → α) (l : SMap α) : adjust k F (adjust k f l) = adjust k (fun a => F (f a)) l := by
  induction l with
  | nil => rfl
  | cons e l ih =>
    obtain ⟨i, a⟩ := e
    simp only [adjust]
    split
    · next hk => exact if_pos hk
    · next hk => rw [← ih]; exact if_neg hk

theorem onGroup_onGroup (b : State) (t k : Nat) (f F : Group → Group) :
    (b.onGroup t k f).onGroup t k F = b.onGroup t k (fun y => F (f y)) := by
  have team : (fun y : Team => (y.onGroup k f).onGroup k F) = fun y => y.onGroup k (fun g => F (f g)) := by
    funext y
    unfold Team.onGroup
    rw [adjust_adjust]
  unfold State.onGroup State.onTeam
  rw [adjust_adjust, team]

/-- Changes of one group, one after another. -/
theorem foldl_onGroup {α : Type} (t k : Nat) (step : Group → α → Group) (l : List α) (b : State) :
    l.foldl (fun b y => b.onGroup t k (fun g => step g y)) b = b.onGroup t k (fun g => l.foldl step g) := by
  induction l generalizing b with
  | nil => exact (onGroup_id b t k).symm
  | cons y l ih => rw [List.foldl_cons, ih, onGroup_onGroup]; rfl

/-- A change made lane by lane, seen in one lane that at most one of the changes touches. -/
theorem foldl_lane {β : Type} (read : Group → β) (step : Group → Nat → Group) (v : β) (j : Nat)
    (h : ∀ g i, read (step g i) = if i = j then v else read g) (l : List Nat) (g : Group) :
    read (l.foldl step g) = if j ∈ l then v else read g := by
  induction l generalizing g with
  | nil => simp
  | cons i l ih =>
    rw [List.foldl_cons, ih, h]
    by_cases hj : i = j
    · simp [hj]
    · simp [hj, Ne.symm hj]

/-- Lanes stand at an instruction, each with a wait of its own. -/
def Group.standEach (g : Group) (l : List Nat) (code : Nat) (pc : Word) (hdr : Word × Nat) (w : Nat → Wait) : Group :=
  l.foldl (fun g i => g.standAt (laneBit i) code pc hdr (some (w i))) g

theorem standEach_rest (g : Group) (l : List Nat) (code : Nat) (pc : Word) (hdr : Word × Nat) (w : Nat → Wait) :
    g.standEach l code pc hdr w = { g with
      pc := (g.standEach l code pc hdr w).pc, st := (g.standEach l code pc hdr w).st
      wait := (g.standEach l code pc hdr w).wait, hdr := (g.standEach l code pc hdr w).hdr } := by
  unfold Group.standEach
  induction l generalizing g with
  | nil => rfl
  | cons i l ih => rw [List.foldl_cons, ih, standAt_rest g]

/-- A lane of them. -/
theorem standEach_lane (g : Group) (l : List Nat) (code : Nat) (pc : Word) (hdr : Word × Nat) (w : Nat → Wait) {j : Nat} (hj : j < 64)
    (hl : j ∈ l) : (g.standEach l code pc hdr w).lanePc j = pc ∧ (g.standEach l code pc hdr w).state j = code ∧
      find j (g.standEach l code pc hdr w).hdr = some hdr := by
  have bit : ∀ i, ((laneBit i).getLsbD j = true) = (i = j) := fun i => by rw [getLsbD_laneBit i j hj, decide_eq_true_eq]
  refine ⟨?pc, ?state, ?hdr⟩
  case pc =>
    refine (foldl_lane (fun g => g.lanePc j) _ pc j (fun g i => ?_) l g).trans (if_pos hl)
    simp only [lanePc_standAt _ _ _ _ _ _ j hj, bit]
  case state =>
    refine (foldl_lane (fun g => g.state j) _ code j (fun g i => ?_) l g).trans (if_pos hl)
    simp only [state_standAt _ _ _ _ _ _ j hj, bit]
  case hdr =>
    refine (foldl_lane (fun g => find j g.hdr) _ (some hdr) j (fun g i => ?_) l g).trans (if_pos hl)
    simp only [find_hdr_standAt _ _ _ _ _ _ j hj, bit]

/-- The lines of a lane's range in the share of its team. -/
def State.ownLines (s : State) (team : Nat) (a n : Word) : List Nat :=
  match s.ownRange team a n with
  | none => []
  | some r => shareLines r.1 r.2

/-- The lanes of a mask with a line that is absent. -/
def State.lacking (s : State) (team : Nat) (act : Lanes) (va n : Nat → Word) : Lanes :=
  maskOf (fun i => act.getLsbD i && (s.ownLines team (va i) (n i)).any (fun l => !(s.team team).present l))

theorem ownRange_begun (s : State) (sh : Shape) (c : Nat) (x : Issue) (m : Member) (a n : Word) :
    (s.begun sh c x m).ownRange m.team a n = s.ownRange m.team a n := by
  have rest := begun_team_rest s sh c x m m.team
  have rank : ((s.begun sh c x m).team m.team).rank = (s.team m.team).rank := (congrArg Team.rank rest :)
  have size : ((s.begun sh c x m).team m.team).size = (s.team m.team).size := (congrArg Team.size rest :)
  unfold State.ownRange
  simp only [rank, size]

theorem present_begun (s : State) (sh : Shape) (c : Nat) (x : Issue) (m : Member) (l : Nat) :
    ((s.begun sh c x m).team m.team).present l = (s.team m.team).present l := by
  have absent : ((s.begun sh c x m).team m.team).absent = (s.team m.team).absent :=
    (congrArg Team.absent (begun_team_rest s sh c x m m.team) :)
  unfold Team.present
  rw [absent]

/-- The address of a lane's range. -/
def Group.rangeVa (g : Group) (a : Reg) (off : Option W32) (i : Nat) : Word :=
  g.reg a i + (match off with
    | some o => o.signExtend 64
    | none => 0)

/-- What `PRWAIT` asks for in its issue step. -/
abbrev prwaitShape (g : Guard) (a b : Reg) : Shape := { g := g, top := maxOf [topR a 1, topR b 1], mem := true }

/-- The wait of a lane for the lines of its range. -/
def State.rangeWait (s : State) (team : Nat) (va n : Nat → Word) (i : Nat) : Wait := .lines team (s.ownLines team (va i) (n i)) false

theorem prwait_leaves (h : Sole s c x m) (g : Guard) {a b : Reg} (ha : Reg.fits a (m.group s).n) (hb : Reg.fits b (m.group s).n)
    (off : Option W32) {va : Nat → Word} (hva : (m.group s).rangeVa a off = va)
    (hr : ∀ i, i < 64 → (m.active s g).getLsbD i = true → (s.ownRange m.team (va i) ((m.group s).reg b i)).isSome = true) :
    Leaves s c x m (s.lacking m.team (m.active s g) va ((m.group s).reg b)) (exec (.prwait g a b off) s) (fun h G =>
      G = { h with pc := G.pc, st := G.st, wait := G.wait, hdr := G.hdr, pend := G.pend } ∧ SamePends h G ∧
      ∀ i, i < 64 → (s.lacking m.team (m.active s g) va ((m.group s).reg b)).getLsbD i = true →
        G.lanePc i = x.pc ∧ G.state i = 8 ∧ find i G.hdr = some (x.hdr, x.bodyw)) := by
  generalize hheld : s.lacking m.team (m.active s g) va ((m.group s).reg b) = held
  refine (leaves_of_run h (prwaitShape g a b) _ (fun k => k.standEach (lanesOf held) 8 x.pc (x.hdr, x.bodyw)
    (s.rangeWait m.team va ((m.group s).reg b))) held (by simp) (by simp [State.roomFor]) rfl (atLeast_user _)
    (maxOf_le (by simpa using ⟨topR_le ha, topR_le hb⟩)) ?effect ?calls).mono ?after
  case effect =>
    have team : (s.env c x m g).team = m.team := rfl
    have sound : laneFaults (m.active s g) (fun i =>
        if (s.ownRange m.team (va i) ((m.group s).reg b i)).isNone then some (Kind.scratchRange, 0) else none) = none :=
      laneFaults_none (fun i hi hl => if_neg (by simp [Option.isSome_iff_ne_none.mp (hr i hi hl)]))
    subst hva hheld
    simp only [begun_env_group h, begun_reg, team, ownRange_begun, present_begun]
    show (match laneFaults (m.active s g) (fun i => if (s.ownRange m.team ((m.group s).rangeVa a off i) ((m.group s).reg b i)).isNone
        then some (Kind.scratchRange, 0) else none) with
      | some t => Res.trap t
      | none => Res.ok ((lanesOf (s.lacking m.team (m.active s g) ((m.group s).rangeVa a off) ((m.group s).reg b))).foldl (fun u i =>
          u.onGroup m.team m.grp (fun k => k.standAt (laneBit i) 8 x.pc (x.hdr, x.bodyw)
            (some (s.rangeWait m.team ((m.group s).rangeVa a off) ((m.group s).reg b) i)))) (s.begun (prwaitShape g a b) c x m))
          (s.lacking m.team (m.active s g) ((m.group s).rangeVa a off) ((m.group s).reg b))) = _
    rw [sound]
    exact congrArg (fun u => Res.ok u _) (foldl_onGroup _ _ _ _ _)
  case calls => rw [standEach_rest]; exact begun_calls h (prwaitShape g a b)
  case after =>
    rintro G rfl
    refine ⟨?rest, ?pends, fun i hi hl => standEach_lane _ _ _ _ _ _ hi (mem_lanesOf.mpr ⟨hi, hl⟩)⟩
    case rest => rw [standEach_rest, begun_eq_pend_of_acc (sh := prwaitShape g a b) s m rfl]
    case pends => exact (pends_of_begun (.of_eq (by rw [standEach_rest]))).1

/-- A lane lacks a line of its range if it is active and one of them is absent. -/
theorem lacking_iff (s : State) (team : Nat) (act : Lanes) (va n : Nat → Word) {i : Nat} (hi : i < 64) :
    (s.lacking team act va n).getLsbD i = true ↔ act.getLsbD i = true ∧ ∃ r, s.ownRange team (va i) (n i) = some r ∧
      ∃ l ∈ shareLines r.1 r.2, (s.team team).present l = false := by
  unfold State.lacking State.ownLines
  rw [getLsbD_maskOf]
  cases s.ownRange team (va i) (n i) <;> simp [hi]

end Sys2Proof.Machine

open Sys2Proof Sys2Proof.Machine

/-- Settles O32: each instruction on shelves finds its shelf as it was, and `PRWAIT` its share; what each leaves is said by its own
lemma. -/
theorem shelvesComplete : Obligations.ShelvesComplete := by
  intro s c x m hs g d a k n p q off hp hq h act t f y shelf sets slot fires waits va lacks held
  have said : ∀ {u F}, Shelved s u m k.toNat F → shelf u F := fun h => h.said
  refine ⟨fun hw hd => ⟨fun hb => ?shcfg, ?off⟩, fun ha hc hn => ⟨fun hw hd => ⟨fun hr => ?acq, fun hr => ?take⟩, fun hr => ?acqWaits,
    fun hr => ?takeWaits⟩, fun hc hd => ⟨fun hn hp => ?com, fun hn hp => ?rel⟩, fun hr => ?prwait⟩
  case shcfg => exact (shcfg_ends hs g k a hw hd hb).mono (fun u hu => ⟨hu.1, said hu.2⟩)
  case off => exact (shcfgOff_ends hs g k hw hd).mono (fun u hu => ⟨hu.1, said hu.2⟩)
  case acq => exact (claim_answers hs ha (take := false) rfl hc hn hw hd hr).mono (fun u hu => ⟨said hu.1, hu.2⟩)
  case take => exact (claim_answers hs ha (take := true) rfl hc hn hw hd hr).mono (fun u hu => ⟨said hu.1, hu.2⟩)
  case acqWaits => exact (claim_waits hs ha (take := false) rfl hc hn (Nat.not_le.mpr hr)).mono (fun u hu => ⟨said hu.1, hu.2⟩)
  case takeWaits => exact (claim_waits hs ha (take := true) rfl hc hn (Nat.not_le.mpr hr)).mono (fun u hu => ⟨said hu.1, hu.2⟩)
  case com => exact (finish_ends hs (release := false) rfl hc hd hn hp).mono (fun u hu => ⟨hu.1, said hu.2⟩)
  case rel => exact (finish_ends hs (release := true) rfl hc hd hn hp).mono (fun u hu => ⟨hu.1, said hu.2⟩)
  case prwait =>
    have same : held = s.lacking m.team act va (h.reg q) := by
      refine congrArg maskOf (funext fun i => congrArg (act.getLsbD i && ·) ?_)
      unfold State.ownLines
      cases s.ownRange m.team (va i) (h.reg q i) <;> rfl
    rw [same]
    exact (prwait_leaves hs g hp hq off (va := va) rfl hr).mono (fun G hG =>
      ⟨hG.1, hG.2.1, fun i hi => ⟨lacking_iff s m.team act va (h.reg q) hi, hG.2.2 i hi⟩⟩)
end

section
/-!
SUPPORT. Posted writes that land (R106) alike in states that differ in nothing that a translation or a read depends on.
-/
namespace Sys2Proof.Machine

/-! ### Writes in alike states -/

theorem Alike.set_mem {s t : State} (h : Alike s t) (m : SMap Byte) : Alike { s with mem := m } { t with mem := m } :=
  ⟨by rw [h.rest], h.dev, h.line⟩

theorem Alike.set_ports {s t : State} (h : Alike s t) (p : SMap Port) : Alike { s with ports := p } { t with ports := p } :=
  ⟨by rw [h.rest], h.dev, h.line⟩

theorem Alike.set_line {s t : State} (h : Alike s t) (l : Nat) {x y : Line} (hk : y.key = x.key) (hp : y.poison = x.poison) :
    Alike (s.setLine l x) (t.setLine l y) := by
  refine ⟨congrArg (fun u : State => { u with lines := (t.setLine l y).lines }) h.rest, h.dev, fun j => ?_⟩
  rw [line_setLine, line_setLine]
  split
  · exact ⟨hk, hp⟩
  · exact h.line j

theorem Alike.rekey {s t : State} (h : Alike s t) (key l : Nat) : Alike (s.rekey key l) (t.rekey key l) := by
  unfold State.rekey
  simp only [(h.line l).1, h.readKey, h.mem]
  split
  · exact h
  · split
    · exact h.set_line l rfl (h.line l).2
    · exact (h.set_mem _).set_line l rfl (h.line l).2

theorem Alike.plainWrite {s t : State} (h : Alike s t) (key a n v : Nat) : Alike (s.plainWrite key a n v) (t.plainWrite key a n v) := by
  have k := h.rekey key (lineNo a)
  have w := k.set_mem (writeN (s.rekey key (lineNo a)).mem a n v)
  unfold State.plainWrite
  simp only [k.mem]
  split
  · exact w.set_line _ (w.line _).1 rfl
  · exact w

theorem Alike.land {s t : State} (h : Alike s t) (p n : Nat) : Alike (s.land p n) (t.land p n) := by
  have lands : ∀ (ws : List (Nat × Nat × Nat)) {s t : State}, Alike s t → Alike
      (ws.foldl (fun s w => s.plainWrite 0 w.1 w.2.1 w.2.2) s) (ws.foldl (fun s w => s.plainWrite 0 w.1 w.2.1 w.2.2) t) := by
    intro ws
    induction ws with
    | nil => exact fun h => h
    | cons w ws ih => exact fun h => ih (h.plainWrite 0 w.1 w.2.1 w.2.2)
  unfold State.land
  rw [show t.ports = s.ports by rw [h.rest]]
  have k := lands ((get Port.down p s.ports).posted.take n) h
  simp only [show (((get Port.down p s.ports).posted.take n).foldl (fun s w => s.plainWrite 0 w.1 w.2.1 w.2.2) t).ports =
    (((get Port.down p s.ports).posted.take n).foldl (fun s w => s.plainWrite 0 w.1 w.2.1 w.2.2) s).ports by rw [k.rest]]
  exact k.set_ports _

/-! ### What a write leaves: caches and clocks -/

theorem Cached.plainWrite (s : State) (key a n v : Nat) : Cached s (s.plainWrite key a n v) := by
  unfold State.plainWrite State.rekey
  dsimp only
  split_ifs <;> exact ⟨rfl, rfl, rfl⟩

theorem Cached.land (s : State) (p n : Nat) : Cached s (s.land p n) :=
  (foldl_keeps (Cached s) _ (fun _ w h => h.trans (.plainWrite _ 0 w.1 w.2.1 w.2.2)) _ ⟨rfl, rfl, rfl⟩).trans ⟨rfl, rfl, rfl⟩

/-- Timestamps are bounded by the same numbers in both states. -/
def SameClocks (s t : State) : Prop := ∀ n ps, t.Calm n ps ↔ s.Calm n ps

theorem SameClocks.of_line {s t : State} (hdev : t.dev = s.dev) (hparts : t.parts = s.parts) (hteams : t.teams = s.teams)
    (hcores : t.cores = s.cores) (hline : ∀ l, (t.line l).wts = (s.line l).wts ∧ (t.line l).rts = (s.line l).rts) : SameClocks s t := by
  have hgroup : t.group = s.group := by unfold State.group State.team; rw [hteams]
  have hcore : t.core = s.core := by unfold State.core; rw [hcores]
  intro n ps
  constructor
  · rintro ⟨a, b, c, d, e, f⟩
    exact ⟨a, hdev ▸ b, hparts ▸ c, fun l => (hline l).1 ▸ (hline l).2 ▸ d l, hgroup ▸ e, hcore ▸ f⟩
  · rintro ⟨a, b, c, d, e, f⟩
    exact ⟨a, hdev ▸ b, hparts ▸ c, fun l => (hline l).1 ▸ (hline l).2 ▸ d l, hgroup ▸ e, hcore ▸ f⟩

theorem SameClocks.trans {s t u : State} (h : SameClocks s t) (k : SameClocks t u) : SameClocks s u :=
  fun n ps => (k n ps).trans (h n ps)

theorem SameClocks.setLine (s : State) (l : Nat) (x : Line) (hw : x.wts = (s.line l).wts) (hr : x.rts = (s.line l).rts) :
    SameClocks s (s.setLine l x) := by
  refine .of_line rfl rfl rfl rfl (fun j => ?_)
  rw [line_setLine]
  split
  · next e => rw [e]; exact ⟨hw, hr⟩
  · exact ⟨rfl, rfl⟩

theorem SameClocks.set_mem (s : State) (m : SMap Byte) : SameClocks s { s with mem := m } :=
  .of_line rfl rfl rfl rfl (fun _ => ⟨rfl, rfl⟩)

theorem SameClocks.rekey (s : State) (key l : Nat) : SameClocks s (s.rekey key l) := by
  unfold State.rekey
  dsimp only
  split
  · exact fun _ _ => Iff.rfl
  · split
    · exact .setLine s l _ rfl rfl
    · exact (set_mem s _).trans (.setLine _ l _ rfl rfl)

theorem SameClocks.plainWrite (s : State) (key a n v : Nat) : SameClocks s (s.plainWrite key a n v) := by
  unfold State.plainWrite
  dsimp only
  split
  · exact ((rekey s key _).trans (set_mem _ _)).trans (.setLine _ _ _ rfl rfl)
  · exact (rekey s key _).trans (set_mem _ _)

theorem SameClocks.land (s : State) (p n : Nat) : SameClocks s (s.land p n) :=
  (foldl_keeps (SameClocks s) _ (fun _ w h => h.trans (.plainWrite _ 0 w.1 w.2.1 w.2.2)) _ (fun _ _ => Iff.rfl)).trans
    (.of_line rfl rfl rfl rfl (fun _ => ⟨rfl, rfl⟩))

/-! ### What a walk leaves in the caches -/

theorem Cached.walkReads (a : Agent) (c : Nat) (ls : List Nat) (s : State) :
    Cached s (ls.foldl (fun s l => (s.demandLine c l).homeClock a l) s) := (Machine.walkReads a c ls s).2.1

/-- A walk from empty caches leaves in them what it found, and no copy of a line. -/
theorem walked_caches {s : State} {a : Agent} (va : Word) {p : Spot} {ls : List Nat} {ms : List (Nat × Mid)} (hop : a.op = none)
    (hp : p.walk = some (ls, ms)) (htlb : (s.core a.core).tlb = []) (hl2 : s.l2 = []) (hmids : s.mids = []) :
    ((s.walked a va p).core a.core).tlb = [(tlbKey a.ctx va, p.leaf)] ∧
    ((s.walked a va p).core a.core).l1 = (s.core a.core).l1 ∧
    get [] (a.core / 8) (s.walked a va p).l2 = [(tlbKey a.ctx va, p.leaf)] ∧
    get [] (a.core / 8) (s.walked a va p).mids = ms.foldl (fun m x => put x.1 x.2 m) [] := by
  have hh : ∀ t : State, t.holdLeaf a.op (tlbKey a.ctx va) p.leaf = t := fun t => by unfold State.holdLeaf; rw [hop]
  have cached := (Cached.paged (Paged.demand s a.core p)).trans (Cached.walkReads a a.core ls (s.demand a.core p))
  unfold State.walked
  simp only [hh, hp]
  generalize ls.foldl (fun s l => (s.demandLine a.core l).homeClock a l) (s.demand a.core p) = q at cached
  obtain ⟨hcores, h2, hm⟩ := cached
  have hcore : q.core a.core = s.core a.core := by unfold State.core; rw [hcores]
  rw [hl2] at h2
  rw [hmids] at hm
  refine ⟨?_, ?_, ?_, ?_⟩
  · rw [State.core_onCore, if_pos rfl]
    show trimTo _ _ (put _ _ (q.core a.core).tlb) = _
    rw [hcore, htlb]
    rfl
  · rw [State.core_onCore, if_pos rfl]
    show (q.core a.core).l1 = _
    rw [hcore]
  · show get [] _ (put _ (trimTo _ _ (put _ _ (get [] _ q.l2))) q.l2) = _
    rw [get_put_self, h2]
    rfl
  · show get [] _ (put _ (ms.foldl (fun (m : SMap Mid) (x : Nat × Mid) => put x.1 x.2 m) (get [] _ q.mids)) q.mids) = _
    rw [get_put_self, hm]
    rfl

end Sys2Proof.Machine
end

section
/-!
PROOF. Binding reads its record as loads of the group (R91, R275), and a load from a host-posted page lets the posted writes land
first (R106): the refutation of the obligation about the binding table, whose conditions on the table are those before that.
-/
namespace Sys2Proof.Machine

/-! ### A record read behind a posted write into the table -/

/-- A clause of instructions in issue for the eight lanes of a group. -/
def postedPath : Member := ⟨0, 0, 0xFF⟩

def postedClause : Issue :=
  { members := [postedPath], hdr := 0x4000, body := List.replicate 64 0, pos := 0, ver := 3, bodyw := 16, yieldh := 0 }

/-- The group, in whose S8 the address of a record stands. -/
def postedGroup : Group :=
  { Group.zero with
    width := 8, n := 64, s := [(8, 0x2000)]
    st := (List.range 8).map (fun i => (i, 1)), pc := (List.range 8).map (fun i => (i, 0x4000)) }

/-- A device with 4 GiB of memory and one context, whose page table maps the first GiB host-posted, and whose binding table stands
at 1 MiB. A record of rank 1 stands at the address in S8. The second line of the table's entry 0 was written under key generation
7, which has been erased, so that the device reads zeros there: the entry is free. A posted write on its way writes the bytes that
the line holds, among them the bit that marks the entry as bound, under no key. -/
def postedState : State :=
  { State.reset with
    mem := [(0x1000, 0x7B), (0x1001, 0x01), (0x1003, 0x40), (0x100064, 0x01), (0x200000, 0x01), (0x200001, 0x10),
      (0x2000000040002000, 0x11), (0x2000000040002010, 0x10)]
    lines := [(0x4001, { Line.at 0 with key := 7 })]
    dev := { Device.reset with service := .normal, trained := true, config := 4, erased := [(7, ())] }
    ports := [(0, { Port.down with up := true, posted := [(0x100040, 64, 2 ^ 288)] })]
    ctxs := [(0, { Ctx.free with st := .running, ptroot := 0x200000, bindt := 0x100000 })]
    teams := [(0, { Team.zero with core := some 0, size := 65536, groups := [(0, postedGroup)] })]
    cores := [(0, { Core.empty with issue := some postedClause })], turn := .core 0 }

/-- The state with the posted write at the host. -/
def landedState : State := postedState.land 0 1

/-- The group's agent. -/
def postedAgent : Agent := { core := 0, ctx := 0, team := 0, grp := 0, level := .user }

theorem posted_sole : Sole postedState 0 postedClause postedPath :=
  ⟨rfl, rfl, rfl, by decide, rfl, rfl, by decide +kernel, by decide +kernel, by decide +kernel, by decide +kernel, rfl,
    ⟨rfl, rfl, rfl⟩⟩

theorem landed_mem : landedState.mem = postedState.mem := by decide +kernel

theorem landed_ports : landedState.ports = [(0, { Port.down with up := true })] := by decide +kernel

theorem landed_bound : landedState.bindFree 0 0 = false := by decide +kernel

theorem posted_free : postedState.bindFree 0 0 = true ∧ handleOf 0 (postedState.bindGen 0 0) = 0 := by decide +kernel

/-! ### Its one port -/

theorem portOf_single {s : State} (h : keys s.ports = [0]) (x : Nat) : s.portOf x = some 0 := by
  unfold State.portOf
  simp only [h, List.isEmpty_cons, Bool.false_eq_true, if_false, List.length_singleton, Nat.mod_one]
  rfl

theorem hostLost_posted {s : State} (h : s.ports = postedState.ports ∨ s.ports = landedState.ports)
    (hf : s.dev.fenced = false) (cls x : Nat) : s.hostLost cls x = none := by
  have hk : keys s.ports = [0] ∧ (get Port.down 0 s.ports).up = true := by
    rcases h with h | h
    · rw [h]; exact ⟨rfl, rfl⟩
    · rw [h, landed_ports]; exact ⟨rfl, rfl⟩
  unfold State.hostLost
  rw [portOf_single hk.1]
  simp only [hk.2, hf, Bool.false_and, Bool.not_true, Bool.or_self, Bool.false_eq_true, if_false, ite_self]

/-- Once the posted write has landed, none is before a read. -/
theorem landBefore_landed {s : State} (h : s.ports = landedState.ports) (x : Nat) : s.landBefore x = s := by
  unfold State.landBefore
  rw [portOf_single (by rw [h, landed_ports]; rfl), h, landed_ports]
  show s.land 0 0 = s
  unfold State.land
  dsimp only
  rw [List.take_zero, List.foldl_nil, show adjust 0 (fun x : Port => { x with posted := x.posted.drop 0 }) s.ports = s.ports by
    rw [h, landed_ports]; rfl]

theorem landBefore_posted {s : State} (h : s.ports = postedState.ports) (x : Nat) : s.landBefore x = s.land 0 1 := by
  unfold State.landBefore
  rw [portOf_single (by rw [h]; rfl), h]
  rfl

/-! ### The record's page -/

/-- The leaf of the record's page, in class 5. -/
def postedLeaf : Leaf := { pa := 0x40002000, cls := 5, w := true, x := true, u := true, tick := 0 }

def postedSpot : Spot :=
  { cls := 5, addr := 0x2000000040002000, leaf := postedLeaf
    walk := some ([0x8000, 0x40], [(midKey 0 3 0x2000, { loc := 0, table := 0x1000, tick := 0 })]) }

theorem posted_leafFor : (postedState.leafFor 0 0 none 0x2000).1.leaf = .ok postedLeaf ∧
    some ((postedState.leafFor 0 0 none 0x2000).1.lines, (postedState.leafFor 0 0 none 0x2000).1.mids) = postedSpot.walk ∧
    (postedState.leafFor 0 0 none 0x2000).2 = true := by
  decide +kernel

theorem landed_leaf : landedState.tableLeaf 0 0x2000 = .ok postedLeaf := by
  decide +kernel

theorem posted_unowned (l : Nat) : postedState.owned l = false := rfl

theorem posted_look (wait : Bool) : postedState.look 0 0 .user .read 0x2000 none wait = .ok postedSpot := by
  obtain ⟨hleaf, hwalk, hwalked⟩ := posted_leafFor
  have free : (if wait then (postedState.leafFor 0 0 none 0x2000).1.lines.find? postedState.owned else none) = none := by
    split
    · exact List.find?_eq_none.mpr (fun l _ => by rw [posted_unowned]; exact Bool.false_ne_true)
    · rfl
  unfold State.look
  simp only [free, hleaf, hwalked, hwalk, if_true, hostLost_posted (.inl rfl) rfl]
  rfl

/-- Where no line is owned no place is held. -/
theorem unheld_of_unowned {s : State} (h : ∀ l, s.owned l = false) {core c : Nat} {level : Level} {use : Use} {va : Word} {op : Option Nat}
    {wait : Bool} {p : Spot} (hp : s.look core c level use va op wait = .ok p) : p.held = false := by
  unfold State.look at hp
  dsimp only at hp
  split at hp
  · cases hp
  · split at hp
    · next l hl =>
      split at hl
      · have := List.find?_some hl
        rw [h] at this
        cases this
      · cases hl
    · split at hp
      · cases hp
      · split at hp
        · cases hp
        · split at hp
          · cases hp
          · cases hp; rfl

/-! ### What reads of the record leave -/

section reads

variable {s t : State}

/-- Before it, caches hold nothing. -/
theorem posted_current (h : Sight postedState s) : postedState.Current s 0 0 := by
  refine ⟨fun e he => ?_, fun e he => ?_, fun e he => ?_⟩
  · rw [(h.core 0).1] at he; cases he
  · rw [h.l2] at he; cases he
  · rw [h.mids] at he; cases he

theorem posted_loads (h : Sight postedState s) (hcalm : ∀ n ps, postedState.Calm n ps → s.Calm n ps) :
    Loads postedAgent postedState s :=
  ⟨rfl, posted_unowned, h.alike, posted_current (.of_rest rfl (fun _ => ⟨rfl, rfl⟩) (fun _ => rfl)), posted_current h,
    fun e he => (by rw [show (s.core postedAgent.core).l1 = _ from (h.core 0).2] at he; cases he), hcalm⟩

/-- An address of the first 512 GiB is looked up in the table that the root's entry names. -/
theorem landed_tables {va : Word} (h : va.toNat / 2 ^ 39 = 0) :
    timeless (landedState.walkFrom 0 va 0 2 0 0x1000).leaf = landedState.tableLeaf 0 va := by
  have hindex : indexAt va 3 = 0 := (bits_high (vb := 0) h 39 18 (by decide)).trans rfl
  have hdown : landedState.descends (landedState.entry 0 0x200000 (indexAt va (2 + 1))).1 = some (0, 0x1000) := by
    rw [hindex]; decide +kernel
  exact (congrArg timeless (landedState.walkLevel_down 0 va 2 0 0x200000 0 (landedState.walkFrom 0 va 0 2) hdown).1).symm

/-- The posted write leaves them so. -/
theorem landed_current : landedState.Current landedState 0 0 := by
  obtain ⟨htlb, hl2, hmids⟩ : (landedState.core 0).tlb = [] ∧ landedState.l2 = [] ∧ landedState.mids = [] := by decide +kernel
  refine ⟨fun e he => ?_, fun e he => ?_, fun e he => ?_⟩
  · rw [htlb] at he; cases he
  · rw [hl2] at he; cases he
  · rw [hmids] at he; cases he

/-- The first load from the record's page leaves translations as the table has them, and the posted write at the host. -/
theorem landed_loads (h : Sight postedState s) (hcalm : ∀ n ps, postedState.Calm n ps → s.Calm n ps) :
    Loads postedAgent landedState ((s.walked postedAgent 0x2000 postedSpot).land 0 1) := by
  have look : s.look 0 0 .user .read 0x2000 none true = .ok postedSpot := (h.look _ _ _ _ _ _ _).trans (posted_look true)
  have walked := (posted_loads h hcalm).walked (va := 0x2000) (p := postedSpot) look
  obtain ⟨htlb, hl1, hl2, hmids⟩ := walked_caches (a := postedAgent) 0x2000 (p := postedSpot) rfl rfl (h.core 0).1 h.l2 h.mids
  obtain ⟨hcores, hl2', hmids'⟩ := Cached.land (s.walked postedAgent 0x2000 postedSpot) 0 1
  generalize hu : (s.walked postedAgent 0x2000 postedSpot).land 0 1 = u at hcores hl2' hmids' ⊢
  have hcore : u.core 0 = (s.walked postedAgent 0x2000 postedSpot).core 0 := by unfold State.core; rw [hcores]
  have leaf : ∀ va, tlbKey 0 0x2000 = tlbKey 0 va → timeless (.ok postedLeaf) = landedState.tableLeaf 0 va := fun va hk => by
    rw [← State.tableLeaf_page _ (page_of_tlbKey hk), landed_leaf]
    rfl
  refine ⟨rfl, fun _ => rfl, ?alike, ?start, ⟨fun e he va hk => ?tlb, fun e he va hk => ?l2, fun e he l va h1 h3 hk => ?mids⟩,
    fun e he => ?l1, fun n ps hn => ?calm⟩
  case alike => rw [← hu]; exact walked.alike.land 0 1
  case start => exact landed_current
  case tlb =>
    rw [show (u.core postedAgent.core).tlb = _ from (congrArg Core.tlb hcore).trans htlb, List.mem_singleton] at he
    rw [he] at hk ⊢
    exact leaf va hk
  case l2 =>
    rw [hl2', hl2, List.mem_singleton] at he
    rw [he] at hk ⊢
    exact leaf va hk
  case mids =>
    rw [hmids', hmids] at he
    have he' := List.mem_singleton.mp he
    rw [he'] at hk ⊢
    obtain ⟨rfl, hva⟩ := midKey_eq (l1 := 3) (by decide) h3 hk
    exact landed_tables (hva.symm.trans (by decide))
  case l1 =>
    rw [show (u.core postedAgent.core).l1 = _ from (congrArg Core.l1 hcore).trans (hl1.trans (h.core 0).2)] at he
    cases he
  case calm =>
    rw [← hu]
    exact (SameClocks.land _ 0 1 n ps).mpr (walked.calm n ps ((SameClocks.land postedState 0 1 n ps).mp hn))

/-- The address of a word of the record. -/
def postedVa (k : Nat) : Word := 0x2000 + BitVec.ofNat 64 (8 * k)

/-- The word there. -/
def postedWord (k : Nat) : Nat := readN landedState.mem (0x2000000040002000 + 8 * k) 8

theorem postedVa_page : ∀ k < 12, canonicalVa (postedVa k) = true ∧ (postedVa k).toNat = 0x2000 + 8 * k := by decide

theorem postedVa_next (k : Nat) : postedVa k + 8 = postedVa (k + 1) := by
  unfold postedVa
  rw [Nat.mul_add, BitVec.ofNat_add, ← BitVec.add_assoc]
  rfl

theorem landed_look (h : Loads postedAgent landedState t) {k : Nat} (hk : k < 12) (wait : Bool) :
    ∃ q, t.look 0 0 .user .read (postedVa k) none wait = .ok q ∧ q.cls = 5 ∧ q.addr = 0x2000000040002000 + 8 * k ∧ q.held = false := by
  obtain ⟨hcanon, hva⟩ := postedVa_page k hk
  have hpage : landedState.tableLeaf 0 (postedVa k) = .ok postedLeaf := by
    rw [← landed_leaf]
    refine State.tableLeaf_page _ ?_ 0
    rw [hva]
    show (0x2000 + 8 * k) / 4096 = 2
    omega
  refine ok_of_bare (p := { postedSpot with addr := 0x2000000040002000 + 8 * k, leaf := postedLeaf, walk := none })
    ((h.look .read (postedVa k) wait wait).trans ?_) rfl
  refine (bare_look (fun _ => rfl)).trans ?_
  rw [show timeless (landedState.leafFor postedAgent.core postedAgent.ctx none (postedVa k)).1.leaf = _ from
    (leafFor_current (.refl _) h.start _).trans hpage, hcanon]
  have haddr : backing (classSpace 5) (0x40002000 + (postedVa k).toNat % 4096) = 0x2000000040002000 + 8 * k := by
    rw [hva]
    show 2 * 2 ^ 60 + (0x40002000 + (0x2000 + 8 * k) % 4096) = _
    omega
  simp only [hostLost_posted (.inr rfl) (show landedState.dev.fenced = false by decide +kernel)]
  exact congrArg (fun x => Except.ok { postedSpot with addr := x, walk := none }) haddr

theorem landed_unpoisoned {s : State} (h : Alike landedState s) {key k : Nat} (hk : k < 12) :
    s.poisoned key (lineNo (0x2000000040002000 + 8 * k)) = false := by
  have hl : lineNo (0x2000000040002000 + 8 * k) * 64 ≥ 2 ^ 61 := by unfold lineNo; omega
  have hline : (landedState.line (lineNo (0x2000000040002000 + 8 * k))).poison = false := by
    unfold State.line
    rw [show landedState.lines = [] by decide +kernel]
    rfl
  unfold State.poisoned State.readKey
  rw [if_pos (.inr (.inr hl)), (h.line _).2, hline]
  rfl

/-- A word of the record is read, and the next ones are found as it was. -/
theorem landed_word (h : Loads postedAgent landedState t) {k : Nat} (hk : k < 12) :
    t.probe postedAgent .read true (postedVa k) = none ∧
    ∃ u, t.gload postedAgent (postedVa k) 8 = (postedWord k, u) ∧ Loads postedAgent landedState u := by
  obtain ⟨q, hq, hcls, haddr, -⟩ := landed_look h hk true
  have hseek : t.seek postedAgent .read (postedVa k) = .ok q := hq
  have walked := h.walked (w := true) (p := q) hq
  refine ⟨?_, ?_⟩
  · unfold State.probe
    simp only [hseek, haddr, landed_unpoisoned h.alike hk, Bool.and_false, Bool.false_eq_true, if_false]
  · refine ⟨_, ?_, walked⟩
    unfold State.gload
    simp only [hseek]
    unfold State.load
    simp only [hcls, if_true, haddr]
    rw [landBefore_landed (by rw [walked.alike.rest])]
    unfold State.readKey
    rw [if_pos (.inr (.inr (by omega))), walked.alike.mem]
    rfl

/-- So are the words that follow. -/
theorem landed_words : ∀ (n k : Nat) (t : State), k + n = 12 → Loads postedAgent landedState t →
    ∃ u, State.readWords postedAgent t (postedVa k) n = .ok ((List.range' k n).map postedWord, u) ∧ Loads postedAgent landedState u
  | 0, _, t, _, h => ⟨t, rfl, h⟩
  | n + 1, k, t, hk, h => by
    obtain ⟨hprobe, v, hload, hv⟩ := landed_word h (show k < 12 by omega)
    obtain ⟨u, hwords, hu⟩ := landed_words n (k + 1) v (by omega) hv
    refine ⟨u, ?_, hu⟩
    unfold State.readWords
    simp only [hprobe, hload, postedVa_next, hwords]
    rfl

/-- The whole record is read, and the posted write has landed. -/
theorem posted_words (h : Sight postedState s) (hcalm : ∀ n ps, postedState.Calm n ps → s.Calm n ps) :
    ∃ u, State.readWords postedAgent s 0x2000 12 = .ok ((List.range' 0 12).map postedWord, u) ∧ Loads postedAgent landedState u := by
  have hlook : s.look 0 0 .user .read 0x2000 none true = .ok postedSpot := (h.look _ _ _ _ _ _ _).trans (posted_look true)
  have hseek : s.seek postedAgent .read 0x2000 = .ok postedSpot := hlook
  have walked := (posted_loads h hcalm).walked (va := 0x2000) (p := postedSpot) hlook
  have landed := landed_loads h hcalm
  have hprobe : s.probe postedAgent .read true 0x2000 = none := by
    rw [h.probe]
    unfold State.probe State.seek
    rw [show postedState.look postedAgent.core postedAgent.ctx postedAgent.level .read 0x2000 postedAgent.op true = _ from posted_look true]
    have sound : postedState.poisoned (postedState.keyOf 0) (lineNo 0x2000000040002000) = false := by decide +kernel
    show (if true && !false && postedState.poisoned (postedState.keyOf 0) (lineNo 0x2000000040002000) then _ else _) = _
    rw [sound]
    rfl
  have hload : s.gload postedAgent 0x2000 8 = (postedWord 0, (s.walked postedAgent 0x2000 postedSpot).land 0 1) := by
    unfold State.gload
    simp only [hseek]
    unfold State.load
    simp only [show postedSpot.cls = 5 from rfl, if_true]
    rw [landBefore_posted (by rw [walked.alike.rest])]
    unfold State.readKey
    rw [if_pos (.inr (.inr (by decide))), landed.alike.mem, show postedSpot.addr = 0x2000000040002000 + 8 * 0 from rfl]
    unfold postedWord
    rfl
  obtain ⟨u, hwords, hu⟩ := landed_words 11 1 _ rfl landed
  refine ⟨u, ?_, hu⟩
  unfold State.readWords
  simp only [hprobe, hload]
  rw [show (0x2000 : Word) + 8 = postedVa 1 from rfl, hwords]
  rfl

/-- No line that the reads need is owned. -/
theorem posted_wordsOwned (h : Sight postedState s) : s.wordsOwned postedAgent 0x2000 12 = [] := by
  unfold State.wordsOwned
  rw [h.ownedAmong]
  refine (posted_loads (s := postedState) (.of_rest rfl (fun _ => ⟨rfl, rfl⟩) (fun _ => rfl)) (fun _ _ h => h)).waitless _ _
    (fun va _ p hp => unheld_of_unowned posted_unowned hp)

end reads

/-! ### What the instruction answers -/

theorem Touched.readWords {b : Bool} {a : Agent} (ha : a.op = none) (n : Nat) : ∀ (s : State) (va : Word) (ws : List Nat) (t : State),
    State.readWords a s va n = .ok (ws, t) → Touched b s t := by
  induction n with
  | zero => intro s va ws t h; cases h; exact .refl b s
  | succ n ih =>
    intro s va ws t h
    unfold State.readWords at h
    split at h
    · cases h
    · dsimp only at h
      split at h
      · cases h
      · next q hq =>
        cases h
        exact (Touched.gload s ha va 8).trans (ih _ _ _ _ hq)

theorem Touched.bind {b : Bool} (s : State) (c i : Nat) (r : BitVec 768) : Touched b s (s.bind c i r) := by
  unfold State.bind State.deviceWords
  exact (foldl _ (fun s _ => deviceStore s _ _ _) _ _).trans (deviceStore _ _ _ _)

theorem Alike.bindFree {s t : State} (h : Alike s t) (c i : Nat) : t.bindFree c i = s.bindFree c i := by
  unfold State.bindFree State.bindUsed State.bindGen State.bindEntry State.deviceRead
  simp only [h.readKey, h.ctx, show t.dev.platform = s.dev.platform by rw [h.dev]]

theorem handleOf_ne_zero {i gen : Nat} (h : i ≠ 0) (hi : i < 4096) : handleOf i gen ≠ 0 := by
  intro hz
  have := congrArg BitVec.toNat hz
  unfold handleOf at this
  rw [BitVec.toNat_ofNat] at this
  change (i + gen * 2 ^ 16) % 2 ^ 64 = 0 at this
  omega

theorem begun_calm {s : State} {c : Nat} {x : Issue} {m : Member} (h : Sole s c x m) (sh : Shape) (n : Nat) (ps : SMap Part)
    (hs : s.Calm n ps) : (s.begun sh c x m).Calm n ps := by
  have sight := Sight.begun h sh
  have rest := begun_rest s sh c x m
  generalize s.begun sh c x m = t at sight rest
  refine ⟨hs.room, ?_, ?_, fun l => ?_, fun t' g => ?_, fun k => ?_⟩
  · rw [rest]; exact hs.live
  · rw [rest]; exact hs.parts
  · rw [sight.line]; exact hs.line l
  · have hp := sight.pts { core := 0, ctx := 0, team := t', grp := g, level := .user }
    unfold State.pts at hp
    exact hp ▸ hs.pts t' g
  · rw [(sight.core k).2]; exact hs.copy k

/-- The checks that the instruction has before its effect. -/
def postedShape : Shape := { g := Guard.always, ll := some ⟨0, none⟩, mem := true, acc := true, once := true }

/-- The instruction begins with a destination, once its record is read. -/
theorem posted_begins {f : Env → State → Res} {u : State} (y : Word) (hu : Touched false (postedState.begun postedShape 0 postedClause postedPath) u)
    (hf : f (postedState.env 0 postedClause postedPath Guard.always) (postedState.begun postedShape 0 postedClause postedPath) =
      .go ((postedState.env 0 postedClause postedPath Guard.always).begin u ⟨0, none⟩ { Pend.zero with sw := [(5, y)] })) :
    Ends 0 postedClause postedPath 0 (.next (postedState.run postedShape f)) (fun u =>
      Began (postedPath.at_ postedState u) (postedPath.group u) postedPath.lanes (postedPath.active postedState Guard.always)
        ⟨0, none⟩ { Pend.zero with sw := [(5, y)] }) := by
  have listing := (Listing.begun posted_sole postedShape).touched hu
  have began := listing.began ⟨0, none⟩ (postedPath.active postedState Guard.always) { Pend.zero with sw := [(5, y)] }
  refine run_ends posted_sole postedShape f _ 0 (fun l e => ?_) (by simp [State.roomFor, postedShape]) rfl rfl (Nat.zero_le _) hf ?_ ?_ _ began
  · cases e; exact fun _ hk => by cases hk
  · exact (has_onGroup _ _ _ _ _ _).trans listing.has
  · exact (congrArg Group.calls began.rest).trans posted_sole.calls

/-- What `LRBIND` does with a record without defect: it binds the first entry that is free then, if one is. -/
def bindFirst (e : Env) (s : State) (ll : Ll) (d : SReg) (r : BitVec 768) : Res :=
  match (List.range 4096).find? (fun i => s.bindFree e.ctx i) with
  | none => .go (e.begin s ll { Pend.zero with sw := [(d.toNat, BitVec.allOnes 64)] })
  | some i => .go (e.begin (s.bind e.ctx i r) ll { Pend.zero with sw := [(d.toNat, handleOf i (s.bindGen e.ctx i))] })

theorem bindFirst_none {e : Env} {s : State} {ll : Ll} {d : SReg} {r : BitVec 768}
    (h : (List.range 4096).find? (fun i => s.bindFree e.ctx i) = none) :
    bindFirst e s ll d r = .go (e.begin s ll { Pend.zero with sw := [(d.toNat, BitVec.allOnes 64)] }) := by
  unfold bindFirst
  rw [h]

theorem bindFirst_some {e : Env} {s : State} {ll : Ll} {d : SReg} {r : BitVec 768} {i : Nat}
    (h : (List.range 4096).find? (fun i => s.bindFree e.ctx i) = some i) :
    bindFirst e s ll d r =
      .go (e.begin (s.bind e.ctx i r) ll { Pend.zero with sw := [(d.toNat, handleOf i (s.bindGen e.ctx i))] }) := by
  unfold bindFirst
  rw [h]

/-- What it does with the words that it has read. -/
def bindWords (ll : Ll) (d : SReg) (e : Env) (ws : List Nat) (s : State) : Res :=
  match recDefect (BitVec.ofNat 768 (joinWords ws)) with
  | some x => e.fault .layoutRecord x
  | none => if e.act = 0 then .go s else bindFirst e s ll d (BitVec.ofNat 768 (joinWords ws))

/-- The effect of `LRBIND`, as its execution runs it. -/
def bindEffect (ll : Ll) (d a : SReg) (e : Env) (s : State) : Res :=
  if bits ((e.group s).sreg a.toNat) 0 5 ≠ 0 then e.fault .illegalOperand 0
  else e.withWords s ((e.group s).sreg a.toNat) 12 (bindWords ll d e)

theorem execLrbind_effect (g : Guard) (ll : Ll) (d a : SReg) (s : State) : execLrbind g ll d a s =
    .next (s.run { g := g, ll := some ll, mem := true, acc := true, once := true } (bindEffect ll d a)) := by
  refine congrArg (fun f => Host.Outcome.next (s.run _ f)) (funext fun e => funext fun s => ?_)
  refine congrArg (fun f => if bits ((e.group s).sreg a.toNat) 0 5 ≠ 0 then e.fault .illegalOperand 0
    else e.withWords s ((e.group s).sreg a.toNat) 12 f) (funext fun ws => funext fun u => ?_)
  unfold bindWords bindFirst
  dsimp only <;>
    (generalize recDefect (BitVec.ofNat 768 (joinWords ws)) = x
     generalize (List.range 4096).find? (fun i => u.bindFree e.ctx i) = i
     cases x with
     | some x => rfl
     | none => cases i <;> rfl)

theorem bindEffect_read {e : Env} {s u : State} {ll : Ll} {d a : SReg} {ws : List Nat} {va : Word} (hva : (e.group s).sreg a.toNat = va)
    (haligned : bits va 0 5 = 0) (hact : e.act ≠ 0) (hwords : State.readWords e.agent s va 12 = .ok (ws, u))
    (howned : s.wordsOwned e.agent va 12 = []) (hdefect : recDefect (BitVec.ofNat 768 (joinWords ws)) = none) :
    bindEffect ll d a e s = bindFirst e u ll d (BitVec.ofNat 768 (joinWords ws)) := by
  unfold bindEffect Env.withWords Env.withRead bindWords
  simp only [hva, haligned, hwords, howned, hact, hdefect, ne_eq, not_true_eq_false, if_false]

/-- It will answer a handle other than that of the table's first entry. -/
theorem posted_binds : ∃ y : Word, y ≠ 0 ∧ Ends 0 postedClause postedPath 0 (exec (.lrbind Guard.always ⟨0, none⟩ 5 8) postedState)
    (fun u => Began (postedPath.at_ postedState u) (postedPath.group u) postedPath.lanes (postedPath.active postedState Guard.always)
      ⟨0, none⟩ { Pend.zero with sw := [(5, y)] }) := by
  have sight := Sight.begun posted_sole postedShape
  obtain ⟨u, hwords, hu⟩ := posted_words sight (begun_calm posted_sole postedShape)
  have howned := posted_wordsOwned sight
  have touched := Touched.readWords (b := false) (a := postedAgent) rfl 12 _ _ _ _ hwords
  have hva : ((postedState.env 0 postedClause postedPath Guard.always).group
      (postedState.begun postedShape 0 postedClause postedPath)).sreg 8 = 0x2000 := by
    show (postedPath.group (postedState.begun postedShape 0 postedClause postedPath)).sreg 8 = _
    rw [show postedPath.group _ = _ from begun_group posted_sole postedShape, begun_sreg]
    decide
  have hfirst : u.bindFree 0 0 = false := (hu.alike.bindFree 0 0).trans landed_bound
  have hdefect : recDefect (BitVec.ofNat 768 (joinWords ((List.range' 0 12).map postedWord))) = none := by decide +kernel
  have effect := bindEffect_read (ll := ⟨0, none⟩) (d := 5) (a := 8) hva (by decide) (by decide) hwords howned hdefect
  rw [exec_lrbind, execLrbind_effect]
  cases hfind : (List.range 4096).find? (fun i => u.bindFree 0 i) with
  | none =>
    have answers := effect.trans (bindFirst_none hfind)
    exact ⟨BitVec.allOnes 64, by decide, posted_begins (f := bindEffect ⟨0, none⟩ 5 8) _ touched answers⟩
  | some i =>
    have hi := List.mem_range.mp (List.mem_of_find?_eq_some hfind)
    have hne : i ≠ 0 := fun h => by
      have := List.find?_some hfind
      rw [h, hfirst] at this
      cases this
    have answers := effect.trans (bindFirst_some hfind)
    exact ⟨_, handleOf_ne_zero hne hi, posted_begins (f := bindEffect ⟨0, none⟩ 5 8) _ (touched.trans (.bind u 0 i _)) answers⟩

end Sys2Proof.Machine

open Sys2Proof Sys2Proof.Machine

/-- Refutes O31: the entry that `LRBIND` binds is the first that is free once its record is read, and the statement takes the first
that is free before. The counterexample is a record in a host-posted page: its load lets a posted write land (R106), which leaves
the bytes of memory as they were and its line under no key, so that what the device read there as zeros marks entry 0 as bound. -/
theorem not_bindingTableInstructionsBegin : ¬ Obligations.BindingTableInstructionsBegin := by
  unfold Obligations.BindingTableInstructionsBegin
  intro h
  obtain ⟨t, hwords, ht⟩ := posted_words (s := postedState) (.of_rest rfl (fun _ => ⟨rfl, rfl⟩) (fun _ => rfl)) (fun _ _ h => h)
  obtain ⟨hfree, hhandle⟩ := posted_free
  have act : postedPath.active postedState Guard.always ≠ 0 := by decide
  have binds := (h postedState 0 postedClause postedPath posted_sole Guard.always ⟨0, none⟩ 5 8 0 (fun _ hk => nomatch hk) act rfl).1
    _ t rfl hwords (ht.alike.mem.trans landed_mem) (posted_wordsOwned (.of_rest rfl (fun _ => ⟨rfl, rfl⟩) (fun _ => rfl)))
    (by decide +kernel) (by decide +kernel)
  obtain ⟨u, t1, ht1, ⟨-, began, -⟩, -, moved⟩ := binds.2 0 (by omega) hfree (fun j hj => absurd hj (Nat.not_lt_zero j))
  obtain ⟨y, hy, v, t2, ht2, began', -, moved'⟩ := posted_binds
  obtain rfl : t1 = t2 := by rw [ht1] at ht2; cases ht2; rfl
  have group : postedPath.group u = postedPath.group v :=
    (moved.inside (by decide) (by decide)).2.symm.trans (moved'.inside (by decide) (by decide)).2
  have pend := began.new act
  rw [group, show freeKey (postedPath.at_ postedState u).pend = freeKey (postedPath.at_ postedState v).pend from rfl, began'.new act] at pend
  have handle : [(5, y)] = [(5, handleOf 0 (postedState.bindGen 0 0))] := congrArg (fun p => (p.map Pend.sw).getD []) pend
  rw [hhandle] at handle
  exact hy (Prod.mk.inj (List.cons.inj handle).1).2
end

section
/-!
SUPPORT. Tables whose keys rise: what is found is the only entry of its key, and what writing their entries one by one leaves.
-/
namespace Sys2Proof.Machine

variable {α : Type}

theorem find_of_risesFrom {j k : Nat} (h : k ≤ j) {m : SMap α} (hm : risesFrom j m = true) : find k m = none := by
  induction m generalizing j with
  | nil => rfl
  | cons e m ih =>
    obtain ⟨i, a⟩ := e
    simp only [risesFrom, Bool.and_eq_true, decide_eq_true_eq] at hm
    unfold find
    rw [if_neg (by omega)]
    exact ih (by omega) hm.2

theorem find_of_mem {k : Nat} {x : α} {m : SMap α} (hm : sorted m = true) (h : (k, x) ∈ m) : find k m = some x := by
  induction m with
  | nil => cases h
  | cons e m ih =>
    obtain ⟨i, a⟩ := e
    rcases List.mem_cons.mp h with e | h
    · cases e
      unfold find
      rw [if_pos rfl]
    · have htail := ih (sorted_of_risesFrom hm) h
      have hne : k ≠ i := fun e => by
        rw [find_of_risesFrom (Nat.le_of_eq e) hm] at htail
        cases htail
      unfold find
      rw [if_neg hne]
      exact htail

/-- Steps that a reading does not see. -/
theorem foldl_same {β γ δ : Type} (read : γ → β) (step : γ → δ → γ) (same : ∀ g e, read (step g e) = read g) (l : List δ) (g : γ) :
    read (l.foldl step g) = read g :=
  foldl_keeps (fun h => read h = read g) step (fun h e k => (same h e).trans k) l rfl

/-- What a reading gives after a step for each entry of a table, of which only that of a key may change it. -/
theorem foldl_table {β γ : Type} (read : γ → β) (step : γ → Nat × α → γ) (k : Nat) (val : α → β) (c : Prop) [Decidable c]
    (other : ∀ g e, e.1 ≠ k → read (step g e) = read g) (own : ∀ g x, read (step g (k, x)) = if c then val x else read g)
    {m : SMap α} (hm : sorted m = true) (g : γ) :
    read (m.foldl step g) = if c then ((find k m).map val).getD (read g) else read g := by
  by_cases hc : c
  · simp only [hc, if_true] at own ⊢
    induction m generalizing g with
    | nil => rfl
    | cons e m ih =>
      obtain ⟨i, a⟩ := e
      rw [List.foldl_cons, ih (sorted_of_risesFrom hm), show find k ((i, a) :: m) = if k = i then some a else find k m from rfl]
      by_cases hk : k = i
      · subst hk
        rw [if_pos rfl, find_of_risesFrom (Nat.le_refl _) hm, own]
        rfl
      · rw [if_neg hk, other g (i, a) (fun e => hk e.symm)]
  · simp only [hc, if_false] at own ⊢
    refine foldl_same read step (fun g e => ?_) m g
    by_cases he : e.1 = k
    · rw [show e = (k, e.2) by rw [← he], own]
    · exact other g e he

end Sys2Proof.Machine
end

section
/-!
SUPPORT. What the completion of an outstanding instruction leaves (R64, R209): its destinations in the completing lanes, and with
its last lane its uniform destinations, its flags and its counter.
-/
namespace Sys2Proof.Machine

section writes

variable (g : Group) (id : Nat) (p : Pend) (m : Lanes)

theorem find_mapOlder (f : Pend → Pend) : find id (g.mapOlder id f).pend = find id g.pend := by
  show find id (g.pend.map (fun e => if e.1 < id then (e.1, f e.2) else e)) = _
  rw [show g.pend.map (fun e => if e.1 < id then (e.1, f e.2) else e) = g.pend.map (fun e => (e.1, if e.1 < id then f e.2 else e.2)) from
    List.map_congr_left (fun e _ => by split <;> rfl)]
  rw [find_map_snd id (fun k x => if k < id then f x else x)]
  cases find id g.pend with
  | none => rfl
  | some x => exact congrArg some (if_neg (Nat.lt_irrefl id))

/-- A predicate of a number that names none is not written. -/
theorem preg_putP_of_ge {r : Nat} (hr : 16 ≤ r) (i : Nat) (x : Bool) : (g.putP r i x).preg = g.preg := by
  have hbit : BitVec.ofNat 16 (2 ^ r) = 0 := by
    obtain ⟨k, rfl⟩ := Nat.exists_eq_add_of_le hr
    refine BitVec.eq_of_toNat_eq ?_
    rw [BitVec.toNat_ofNat, Nat.pow_add]
    exact Nat.mul_mod_right _ _
  funext q j
  unfold Group.putP Group.preg
  rw [if_neg (by omega)]
  have same : (if x then get 0 i g.p ||| BitVec.ofNat 16 (2 ^ r) else get 0 i g.p &&& ~~~BitVec.ofNat 16 (2 ^ r)) = get 0 i g.p := by
    rw [hbit]
    cases x
    · exact BitVec.and_allOnes
    · exact BitVec.or_zero
  simp only [same, get_set]
  split
  · next h => rw [h]
  · rfl

/-- The writes to vector registers. -/
def Group.applyV (g : Group) (id : Nat) (p : Pend) (m : Lanes) : Group :=
  p.vw.foldl (fun g e =>
    if m.getLsbD (e.1 % 64) && (find e.1 p.deadV).isNone
    then (g.mapOlder id (Pend.kill e.1)).putV (e.1 / 64) (e.1 % 64) e.2 else g) g

/-- The writes to predicates. -/
def Group.applyP (g : Group) (id : Nat) (p : Pend) (m : Lanes) : Group :=
  p.pw.foldl (fun g e =>
    if m.getLsbD (e.1 % 64) && (find (e.1 + 640 * 64) p.deadV).isNone
    then (g.mapOlder id (Pend.kill (e.1 + 640 * 64))).putP (e.1 / 64) (e.1 % 64) e.2 else g) g

/-- The writes to uniform registers. -/
def Group.applyS (g : Group) (id : Nat) (p : Pend) : Group :=
  p.sw.foldl (fun g e => if (find e.1 p.deadS).isNone then (g.mapOlder id (Pend.killS e.1)).putS e.1 e.2 else g) g

theorem applyWrites_eq : g.applyWrites id p m = (g.applyV id p m).applyP id p m := rfl

/-! ### What the writes leave -/

theorem applyV_rest : g.applyV id p m = { g with v := (g.applyV id p m).v, pend := (g.applyV id p m).pend } := by
  refine foldl_keeps (fun h : Group => h = { g with v := h.v, pend := h.pend }) _ (fun h e k => ?_) p.vw rfl
  split
  · unfold Group.putV Group.mapOlder
    rw [k]
  · exact k

theorem applyP_rest : g.applyP id p m = { g with p := (g.applyP id p m).p, pend := (g.applyP id p m).pend } := by
  refine foldl_keeps (fun h : Group => h = { g with p := h.p, pend := h.pend }) _ (fun h e k => ?_) p.pw rfl
  split
  · unfold Group.putP Group.mapOlder
    split <;> rw [k]
  · exact k

theorem applyS_rest : g.applyS id p = { g with s := (g.applyS id p).s, pend := (g.applyS id p).pend } := by
  refine foldl_keeps (fun h : Group => h = { g with s := h.s, pend := h.pend }) _ (fun h e k => ?_) p.sw rfl
  split
  · unfold Group.putS Group.mapOlder
    split <;> rw [k]
  · exact k

theorem find_applyV : find id (g.applyV id p m).pend = find id g.pend := by
  refine foldl_same (fun h : Group => find id h.pend) _ (fun h e => ?_) p.vw g
  split
  · exact find_mapOlder h id _
  · rfl

theorem find_applyP : find id (g.applyP id p m).pend = find id g.pend := by
  refine foldl_same (fun h : Group => find id h.pend) _ (fun h e => ?_) p.pw g
  split
  · rw [Group.putP_pend]
    exact find_mapOlder h id _
  · rfl

variable {r i : Nat} (hi : i < 64)
include hi

theorem vreg_applyV (hv : sorted p.vw = true) : (g.applyV id p m).vreg r i =
    if m.getLsbD i = true ∧ find (r * 64 + i) p.deadV = none then (find (r * 64 + i) p.vw).getD (g.vreg r i) else g.vreg r i := by
  have hlane : (r * 64 + i) % 64 = i := by omega
  have hput : ∀ (h : Group) (k : Nat) (x : Word), ((h.mapOlder id (Pend.kill k)).putV (k / 64) (k % 64) x).vreg r i =
      if k = r * 64 + i then x else h.vreg r i := fun h k x => by
    rw [Group.vreg_putV _ _ _ _ _ _ (Nat.mod_lt _ (by decide)) hi]
    exact if_congr (by omega) rfl rfl
  refine (foldl_table (fun h : Group => h.vreg r i) _ (r * 64 + i) (fun x => x)
    (m.getLsbD i = true ∧ find (r * 64 + i) p.deadV = none) (fun h e hne => ?_) (fun h x => ?_) hv g).trans ?_
  · split
    · rw [hput, if_neg hne]
    · rfl
  · have written := hput h (r * 64 + i) x
    rw [if_pos rfl, hlane] at written
    simp only [hlane, Bool.and_eq_true, Option.isNone_iff_eq_none]
    split
    · exact written
    · rfl
  · rw [Option.map_id']

theorem preg_applyP (hr : r < 15) (hp : sorted p.pw = true) : (g.applyP id p m).preg r i =
    if m.getLsbD i = true ∧ find ((r + 640) * 64 + i) p.deadV = none then (find (r * 64 + i) p.pw).getD (g.preg r i) else g.preg r i := by
  have hlane : (r * 64 + i) % 64 = i := by omega
  have hkey : r * 64 + i + 640 * 64 = (r + 640) * 64 + i := by omega
  have hput : ∀ (h : Group) (k : Nat) (x : Bool), ((h.mapOlder id (Pend.kill (k + 640 * 64))).putP (k / 64) (k % 64) x).preg r i =
      if k = r * 64 + i then x else h.preg r i := fun h k x => by
    by_cases hk : k / 64 < 16
    · rw [Group.preg_putP _ _ _ _ _ _ hk (by omega)]
      exact if_congr (by omega) rfl rfl
    · rw [preg_putP_of_ge _ (by omega), if_neg (by omega)]
      rfl
  refine (foldl_table (fun h : Group => h.preg r i) _ (r * 64 + i) (fun x => x)
    (m.getLsbD i = true ∧ find ((r + 640) * 64 + i) p.deadV = none) (fun h e hne => ?_) (fun h x => ?_) hp g).trans ?_
  · split
    · rw [hput, if_neg hne]
    · rfl
  · have written := hput h (r * 64 + i) x
    rw [if_pos rfl, hlane, hkey] at written
    simp only [hlane, hkey, Bool.and_eq_true, Option.isNone_iff_eq_none]
    split
    · exact written
    · rfl
  · rw [Option.map_id']

omit hi

theorem sreg_applyS {k : Nat} (h0 : k ≠ 0) (h2 : k ≠ 2) (hs : sorted p.sw = true) : (g.applyS id p).sreg k =
    if find k p.deadS = none then (find k p.sw).getD (g.sreg k) else g.sreg k := by
  have hput : ∀ (h : Group) (j : Nat) (x : Word), ((h.mapOlder id (Pend.killS j)).putS j x).sreg k =
      if j = k then x else h.sreg k := fun h j x => by
    rw [Group.sreg_putS]
    exact if_congr (by simp only [h0, h2, ne_eq, not_false_eq_true, and_true, eq_comm]) rfl rfl
  refine (foldl_table (fun h : Group => h.sreg k) _ k (fun x => x) (find k p.deadS = none) (fun h e hne => ?_) (fun h x => ?_) hs g).trans ?_
  · split
    · rw [hput, if_neg hne]
    · rfl
  · simp only [Option.isNone_iff_eq_none]
    split
    · rw [hput, if_pos rfl]
    · rfl
  · rw [Option.map_id']

theorem retire_rest : g.retire id p = { g with
    s := (g.applyS id p).s, flags := g.flags ||| p.flags, d := (g.retire id p).d, pend := del id (g.applyS id p).pend
    calls := p.calls.foldl (fun m e => put e.1 e.2 m) g.calls } := by
  have h := applyS_rest g id p
  have hs : g.retire id p = (let a := (g.applyS id p).raise p.flags
      let b := match p.dc with
        | some k => a.setD k.toNat (a.dreg k.toNat - 1)
        | none => a
      { b with pend := del id b.pend, calls := p.calls.foldl (fun m e => put e.1 e.2 m) b.calls }) := rfl
  rw [hs]
  dsimp only
  generalize g.applyS id p = a at h
  rw [h]
  cases p.dc <;> rfl

theorem dreg_retire (k : Nat) : (g.retire id p).dreg k = if p.dc.map BitVec.toNat = some k then g.dreg k - 1 else g.dreg k := by
  have hd : (g.applyS id p).dreg = g.dreg := by unfold Group.dreg; rw [applyS_rest]
  have hs : (g.retire id p).dreg = Group.dreg (match p.dc with
      | some k => ((g.applyS id p).raise p.flags).setD k.toNat (((g.applyS id p).raise p.flags).dreg k.toNat - 1)
      | none => (g.applyS id p).raise p.flags) := rfl
  rw [hs]
  cases p.dc with
  | none => rw [if_neg (by simp)]; exact congrFun hd k
  | some j =>
    have set_ : ∀ (h : Group) (n x : Nat), (h.setD n x).dreg k = if k = n then x else h.dreg k := fun h n x => get_set 0 n k x h.d
    rw [set_, show ((g.applyS id p).raise p.flags).dreg = g.dreg from hd]
    simp only [Option.map_some, Option.some.injEq, eq_comm]
    split
    · next e => rw [e]
    · rfl

/-! ### Completion in some lanes -/

/-- It retires with its last lane, and stays outstanding in the others before. -/
theorem complete_eq (lanes : Lanes) (h : find id g.pend = some p) : g.complete id lanes =
    if p.lanes &&& ~~~lanes = 0 then (g.applyWrites id p (p.lanes &&& lanes)).retire id p
    else { g.applyWrites id p (p.lanes &&& lanes) with
      pend := adjust id (fun q => { q with lanes := p.lanes &&& ~~~lanes }) (g.applyWrites id p (p.lanes &&& lanes)).pend } := by
  unfold Group.complete
  rw [h, BitVec.and_comm p.lanes lanes]

theorem applyWrites_rest : g.applyWrites id p m = { g with
    v := (g.applyV id p m).v, p := (g.applyWrites id p m).p, pend := (g.applyWrites id p m).pend } := by
  rw [applyWrites_eq, applyP_rest, applyV_rest]

theorem find_applyWrites : find id (g.applyWrites id p m).pend = find id g.pend := by
  rw [applyWrites_eq, find_applyP, find_applyV]

/-- What completion in some lanes leaves of a group without program calls. -/
theorem complete_calls (lanes : Lanes) (h : find id g.pend = some p) (hg : g.calls = []) (hp : p.calls = []) :
    (g.complete id lanes).calls = [] := by
  have hw : (g.applyWrites id p (p.lanes &&& lanes)).calls = [] := (congrArg Group.calls (applyWrites_rest g id p _)).trans hg
  rw [complete_eq g id p lanes h]
  split
  · rw [retire_rest, hp]
    exact hw
  · exact hw

theorem complete_vp (lanes : Lanes) (h : find id g.pend = some p) : (g.complete id lanes).v = (g.applyV id p (p.lanes &&& lanes)).v ∧
    (g.complete id lanes).p = (g.applyWrites id p (p.lanes &&& lanes)).p := by
  have hv : (g.applyWrites id p (p.lanes &&& lanes)).v = _ := congrArg Group.v (applyWrites_rest g id p _)
  rw [complete_eq g id p lanes h]
  split
  · rw [retire_rest]
    exact ⟨hv, rfl⟩
  · exact ⟨hv, rfl⟩

theorem vreg_complete {r i : Nat} (hi : i < 64) (lanes : Lanes) (h : find id g.pend = some p) (hv : sorted p.vw = true) :
    (g.complete id lanes).vreg r i = if (p.lanes &&& lanes).getLsbD i = true ∧ find (r * 64 + i) p.deadV = none then
      (find (r * 64 + i) p.vw).getD (g.vreg r i) else g.vreg r i := by
  rw [← vreg_applyV g id p (p.lanes &&& lanes) hi hv]
  unfold Group.vreg
  rw [(complete_vp g id p lanes h).1]

theorem preg_complete {r i : Nat} (hi : i < 64) (hr : r < 15) (lanes : Lanes) (h : find id g.pend = some p) (hp : sorted p.pw = true) :
    (g.complete id lanes).preg r i = if (p.lanes &&& lanes).getLsbD i = true ∧ find ((r + 640) * 64 + i) p.deadV = none then
      (find (r * 64 + i) p.pw).getD (g.preg r i) else g.preg r i := by
  have hg : (g.applyV id p (p.lanes &&& lanes)).preg = g.preg := by unfold Group.preg; rw [applyV_rest]
  rw [← hg, ← preg_applyP _ id p (p.lanes &&& lanes) hi hr hp]
  unfold Group.preg
  rw [(complete_vp g id p lanes h).2]
  rfl

/-- Before its last lane it stays outstanding in the lanes that are left, and nothing else of it takes effect. -/
theorem complete_some {lanes : Lanes} (h : find id g.pend = some p) (hrest : p.lanes &&& ~~~lanes ≠ 0) :
    (find id (g.complete id lanes).pend).map (·.lanes) = some (p.lanes &&& ~~~lanes) ∧ (g.complete id lanes).flags = g.flags ∧
      (g.complete id lanes).d = g.d ∧ (g.complete id lanes).s = g.s := by
  have hw := applyWrites_rest g id p (p.lanes &&& lanes)
  have hflags := congrArg Group.flags hw
  have hd := congrArg Group.d hw
  have hs := congrArg Group.s hw
  rw [complete_eq g id p lanes h, if_neg hrest]
  refine ⟨?_, hflags, hd, hs⟩
  show (find id (adjust id _ _)).map _ = _
  rw [find_adjust, if_pos rfl, find_applyWrites, h]
  rfl

/-- With its last lane the rest of it takes effect, and it is no longer outstanding. -/
theorem complete_all {lanes : Lanes} (h : find id g.pend = some p) (hrest : p.lanes &&& ~~~lanes = 0) (hs : sorted p.sw = true) :
    find id (g.complete id lanes).pend = none ∧ (g.complete id lanes).flags = g.flags ||| p.flags ∧
      (∀ k, (g.complete id lanes).dreg k = if p.dc.map BitVec.toNat = some k then g.dreg k - 1 else g.dreg k) ∧
      ∀ k, k ≠ 0 → k ≠ 2 → (g.complete id lanes).sreg k =
        if find k p.deadS = none then (find k p.sw).getD (g.sreg k) else g.sreg k := by
  have hw := applyWrites_rest g id p (p.lanes &&& lanes)
  rw [complete_eq g id p lanes h, if_pos hrest]
  generalize g.applyWrites id p (p.lanes &&& lanes) = w at hw
  have hr := retire_rest w id p
  have hwd : w.dreg = g.dreg := by unfold Group.dreg; rw [hw]
  have hws : w.sreg = g.sreg := by unfold Group.sreg; rw [hw]
  refine ⟨?_, ?_, fun k => ?_, fun k h0 h2 => ?_⟩
  · rw [hr]
    exact (find_del id id _).trans (if_pos rfl)
  · rw [hr, hw]
  · rw [dreg_retire, hwd]
  · have hsreg : (w.retire id p).sreg k = (w.applyS id p).sreg k := by
      unfold Group.sreg
      rw [if_neg h0, if_neg h0, if_neg h2, if_neg h2, hr]
    rw [hsreg, sreg_applyS w id p h0 h2 hs, hws]

end writes

/-- `LONG_LATENCY_COMPLETION` of an outstanding instruction that is done completes it in its lanes. -/
theorem exec_completion {s : State} {team grp id : Nat} {lanes : Lanes} {p : Pend} (hcalls : (s.group team grp).calls = [])
    (hp : find id (s.group team grp).pend = some p) (hmay : s.mayComplete (s.ctxOf team) p = true) (hlanes : p.lanes &&& lanes ≠ 0)
    (hpc : p.calls = []) : ∃ f : Group → Group, f (s.group team grp) = (s.group team grp).complete id lanes ∧
      exec (.longLatencyCompletion team grp id lanes) s = .next (s.onGroup team grp f) := by
  refine ⟨fun g => (g.complete id lanes).settle (g.launched &&& ~~~s.issuing team grp), settle_of_none _ _ (complete_calls _ id p lanes hp hcalls hpc), ?_⟩
  have hsome : (p.lanes != 0 && (lanes &&& p.lanes) == 0) = false := by
    rw [BitVec.and_comm, beq_eq_false_iff_ne.mpr hlanes, Bool.and_false]
  rw [exec_longLatencyCompletion]
  unfold execLongLatencyCompletion
  rw [hp]
  dsimp only
  rw [hmay, hsome]
  rfl

end Sys2Proof.Machine
end

section
/-!
SUPPORT. What the end of a fence leaves (R107): posted writes that have arrived at the host, and copies of the pool's lines that are
gone.
-/
namespace Sys2Proof.Machine

/-! ### Posted writes that arrive -/

/-- Every posted write of a port arrives. -/
def State.landPort (s : State) (p : Nat) : State := s.land p (get Port.down p s.ports).posted.length

theorem plainWrites_rest (s : State) (ws : List (Nat × Nat × Nat)) : ws.foldl (fun s w => s.plainWrite 0 w.1 w.2.1 w.2.2) s = { s with
    mem := (ws.foldl (fun s w => s.plainWrite 0 w.1 w.2.1 w.2.2) s).mem
    lines := (ws.foldl (fun s w => s.plainWrite 0 w.1 w.2.1 w.2.2) s).lines } := by
  have write : ∀ (t : State) (key a n v : Nat), t.plainWrite key a n v = { t with
      mem := (t.plainWrite key a n v).mem, lines := (t.plainWrite key a n v).lines } := fun t key a n v => by
    unfold State.plainWrite State.rekey
    dsimp only
    split_ifs <;> rfl
  exact foldl_keeps (fun t : State => t = { s with mem := t.mem, lines := t.lines }) _ (fun t w ht => by rw [write, ht]) ws rfl

theorem landPort_rest (s : State) (p : Nat) : s.landPort p = { s with
    mem := (s.landPort p).mem, lines := (s.landPort p).lines, ports := (s.landPort p).ports } := by
  unfold State.landPort State.land
  dsimp only
  rw [plainWrites_rest]

theorem find_landPort (s : State) (p q : Nat) : find q (s.landPort p).ports =
    if q = p then (find q s.ports).map (fun x => { x with posted := [] }) else find q s.ports := by
  have hports : (s.landPort p).ports = adjust p (fun x => { x with posted := x.posted.drop (get Port.down p s.ports).posted.length }) s.ports := by
    unfold State.landPort State.land
    dsimp only
    rw [plainWrites_rest]
  rw [hports, find_adjust]
  split
  · next h =>
    subst h
    unfold get
    cases find q s.ports with
    | none => rfl
    | some x => simp
  · rfl

/-- A port with none on its way leaves memory as it is. -/
theorem landPort_mem {s : State} {p : Nat} (h : (get Port.down p s.ports).posted = []) : (s.landPort p).mem = s.mem := by
  unfold State.landPort State.land
  rw [h]
  rfl

/-- All ports of the device, in turn. -/
def State.landAll (s : State) : State := (keys s.ports).foldl State.landPort s

theorem landAll_rest (s : State) : s.landAll = { s with mem := s.landAll.mem, lines := s.landAll.lines, ports := s.landAll.ports } :=
  foldl_keeps (fun t : State => t = { s with mem := t.mem, lines := t.lines, ports := t.ports }) _
    (fun t p ht => by rw [landPort_rest, ht]) _ rfl

/-- No posted write is on its way after it. -/
theorem landAll_posted (s : State) (p : Nat) (x : Port) (h : find p s.landAll.ports = some x) : x.posted = [] := by
  have landed : ∀ (ps : List Nat) (t : State), (∀ p x, find p t.ports = some x → p ∉ ps → x.posted = []) →
      ∀ p x, find p (ps.foldl State.landPort t).ports = some x → x.posted = [] := by
    intro ps
    induction ps with
    | nil => exact fun t ht p x h => ht p x h (List.not_mem_nil)
    | cons q ps ih =>
      intro t ht
      refine ih _ (fun p x h hp => ?_)
      rw [find_landPort] at h
      split at h
      · obtain ⟨y, -, rfl⟩ := Option.map_eq_some_iff.mp h
        rfl
      · next hpq => exact ht p x h (fun hm => (List.mem_cons.mp hm).elim hpq hp)
  refine landed (keys s.ports) s (fun p x h hp => ?_) p x h
  exact absurd (List.mem_map.mpr ⟨(p, x), mem_of_find h, rfl⟩) hp

theorem landAll_mem {s : State} (h : ∀ p x, find p s.ports = some x → x.posted = []) : s.landAll.mem = s.mem := by
  refine (foldl_keeps (fun t : State => t.mem = s.mem ∧ ∀ p x, find p t.ports = some x → x.posted = []) _ (fun t q ht => ?_)
    (keys s.ports) ⟨rfl, h⟩).1
  obtain ⟨hmem, hposted⟩ := ht
  refine ⟨(landPort_mem ?_).trans hmem, fun p x hp => ?_⟩
  · unfold get
    cases hq : find q t.ports with
    | none => rfl
    | some x => exact hposted q x hq
  · rw [find_landPort] at hp
    split at hp
    · obtain ⟨y, -, rfl⟩ := Option.map_eq_some_iff.mp hp
      rfl
    · exact hposted p x hp

/-! ### Copies of pool lines -/

theorem find_dropPool (k : Core) (c : Nat) {l : Nat} (hlo : 2 ^ 54 ≤ l) (hhi : l < 2 * 2 ^ 54) :
    find (l1Key c l) (k.dropPool c).l1 = none := by
  refine find_of_all_ne _ _ (fun e he hk => ?_)
  have hdrop := (List.mem_filter.mp he).2
  unfold l1Key at hk
  rw [hk, show (c * 2 ^ 70 + l) / 2 ^ 70 = c by omega, show (c * 2 ^ 70 + l) % 2 ^ 70 / 2 ^ 54 = 1 by omega] at hdrop
  simp at hdrop

end Sys2Proof.Machine
end

section
/-!
PROOF. What a group waits for arrives (R64, R66, R107, R209, R227, R271, R278).
-/
namespace Sys2Proof.Machine

section events

variable {s : State} {team grp : Nat}

/-! ### Fences -/

/-- The state with a fence of a group ended. -/
def State.endFence (s : State) (team grp id : Nat) : State := s.onGroup team grp (fun g => { g with fences := del id g.fences })

theorem endFence_group (hhas : s.has team grp = true) (id : Nat) :
    (s.endFence team grp id).group team grp = { s.group team grp with fences := del id (s.group team grp).fences } :=
  (State.group_onGroup s team grp team grp _).trans (if_pos ⟨rfl, rfl, hhas⟩)

theorem exec_fence_end {id : Nat} {f : Lanes × Scope} (hf : find id (s.group team grp).fences = some f) :
    exec (.fenceComplete team grp id) s = .next (match f.2 with
      | .dev => s.endFence team grp id
      | .host => (s.endFence team grp id).landAll
      | .pool =>
        match ((s.endFence team grp id).team team).core with
        | some c => (s.endFence team grp id).writeBackAll.onCore c (fun k => k.dropPool ((s.endFence team grp id).ctxOf team))
        | none => (s.endFence team grp id).writeBackAll) := by
  rw [exec_fenceComplete]
  unfold execFenceComplete
  rw [hf]
  dsimp only
  cases f.2 <;> rfl

theorem endFence_team (id : Nat) : ((s.endFence team grp id).team team).core = (s.team team).core ∧
    (s.endFence team grp id).ctxOf team = s.ctxOf team :=
  have rest := onGroup_team_rest s team grp (fun g => { g with fences := del id g.fences }) team
  have hcore := congrArg Team.core rest
  have hctx := congrArg Team.ctx rest
  ⟨hcore, hctx⟩

/-- A fence ends: its group knows of it no more, and what it orders has arrived or is written back. -/
theorem fence_ends (hhas : s.has team grp = true) {id : Nat} {f : Lanes × Scope} (hf : find id (s.group team grp).fences = some f) :
    ∃ t, exec (.fenceComplete team grp id) s = .next t ∧
      t.group team grp = { s.group team grp with fences := del id (s.group team grp).fences } ∧
      (∀ n k, ¬(n = team ∧ k = grp) → t.group n k = s.group n k) ∧
      (f.2 = .dev → t = { s with teams := t.teams }) ∧
      (f.2 = .pool → t = { s with teams := t.teams, cores := t.cores, homeOld := [], frameOld := [] } ∧
        ∀ c l, (s.team team).core = some c → 2 ^ 54 ≤ l → l < 2 * 2 ^ 54 →
          find (l1Key (s.ctxOf team) l) (t.core c).l1 = none) ∧
      (f.2 = .host → t = { s with teams := t.teams, ports := t.ports, mem := t.mem, lines := t.lines } ∧
        (∀ p x, find p t.ports = some x → x.posted = []) ∧
        ((∀ p x, find p s.ports = some x → x.posted = []) → t.mem = s.mem)) := by
  have own := endFence_group hhas id
  have other : ∀ n k, ¬(n = team ∧ k = grp) → (s.endFence team grp id).group n k = s.group n k :=
    fun n k h => onGroup_other s team grp _ n k h
  obtain ⟨hcore, hctx⟩ := endFence_team (s := s) (team := team) (grp := grp) id
  have groups : ∀ t : State, t.teams = (s.endFence team grp id).teams → t.group = (s.endFence team grp id).group := fun t h => by
    unfold State.group State.team
    rw [h]
  refine ⟨_, exec_fence_end hf, ?_⟩
  obtain ⟨lanes, scope⟩ := f
  cases scope with
  | dev =>
    dsimp only
    exact ⟨own, other, fun _ => rfl, nofun, nofun⟩
  | host =>
    have rest := landAll_rest (s.endFence team grp id)
    have hteams := congrArg State.teams rest
    have same := groups (s.endFence team grp id).landAll hteams
    dsimp only
    rw [same]
    exact ⟨own, other, nofun, nofun, fun _ => ⟨by rw [hteams]; exact rest, landAll_posted _, fun h => landAll_mem h⟩⟩
  | pool =>
    dsimp only
    rw [hcore, hctx]
    cases (s.team team).core with
    | none => exact ⟨own, other, nofun, fun _ => ⟨rfl, nofun⟩, nofun⟩
    | some c =>
      refine ⟨own, other, nofun, fun _ => ⟨rfl, fun d l hd hlo hhi => ?_⟩, nofun⟩
      cases hd
      rw [State.core_onCore, if_pos rfl]
      exact find_dropPool _ _ hlo hhi

end events

end Sys2Proof.Machine
end

section
/-!
PROOF. Lanes that a group's wait keeps go on, or execute their instruction again (R66, R227, R278).
-/
namespace Sys2Proof.Machine

/-- The lanes whose wait satisfies a test. -/
theorem getLsbD_waiting {g : Group} (hg : sorted g.wait = true) (p : Nat → Wait → Bool) {i : Nat} (hi : i < 64) :
    (g.waiting p).getLsbD i = (find i g.wait).any (p i) := by
  refine (getLsbD_foldl_bits (fun e : Nat × Wait => e.1) (fun e => p e.1 e.2) i hi g.wait 0).trans ?_
  rw [show (0 : Lanes).getLsbD i = false from BitVec.getLsbD_zero, Bool.false_or, Bool.eq_iff_iff, List.any_eq_true, Option.any_eq_true]
  constructor
  · rintro ⟨⟨j, w⟩, hmem, hw⟩
    simp only [Bool.and_eq_true, beq_iff_eq] at hw
    obtain ⟨hp, rfl⟩ := hw
    exact ⟨w, find_of_mem hg hmem, hp⟩
  · rintro ⟨w, hw, hp⟩
    exact ⟨(i, w), mem_of_find hw, by simp only [hp, beq_self_eq_true, Bool.and_self]⟩

/-! ### Lanes that execute again -/

section retry

variable (g : Group) (m : Lanes) (j : Nat) (hj : j < 64)
include hj

theorem state_retry : (g.retry m).state j = if m.getLsbD j = true then 1 else g.state j := by
  rw [← if_mem_lanesOf m j hj]
  refine foldl_lanes Group.state _ (fun _ => 1) (fun g i k => ?_) _ g j
  exact get_set 0 _ _ 1 _

theorem find_wait_retry : find j (g.retry m).wait = if m.getLsbD j = true then none else find j g.wait := by
  rw [← if_mem_lanesOf m j hj]
  refine foldl_lanes (fun g k => find k g.wait) _ (fun _ => none) (fun g i k => ?_) _ g j
  exact find_del _ _ _

omit hj

theorem lanePc_retry : (g.retry m).lanePc j = g.lanePc j := by
  unfold Group.retry
  refine foldl_same (fun g : Group => g.lanePc j) _ (fun _ _ => ?_) _ g
  rfl

theorem hdr_retry : (g.retry m).hdr = g.hdr := by
  unfold Group.retry
  refine foldl_same (fun g : Group => g.hdr) _ (fun _ _ => ?_) _ g
  rfl

end retry

/-- Lanes released go on at their successor header where no program call is due. -/
theorem release_goTo {g : Group} (m : Lanes) (h : g.calls = []) : g.release m = g.goTo m (fun i => match find i g.hdr with
    | some h => successor h.1 h.2
    | none => g.lanePc i) :=
  settle_of_none _ _ ((goTo_calls _ _ _).trans h)

section events

variable {s : State} {team grp : Nat}

/-- The wait of a sleeper is over at a datum. -/
def Wait.expired (datum : Nat) (w : Wait) : Bool :=
  match w with
  | .sleep t => decide (t ≤ datum)
  | .barrier _ _ | .shelf _ _ | .word _ _ _ _ _ | .quiet _ _ | .order | .lines _ _ _ | .owned _ => false

/-- Sleepers whose time has come are ready where they stand. -/
theorem sleep_expires (hhas : s.has team grp = true) (hcalls : (s.group team grp).calls = []) (lanes : Lanes) :
    ∃ t, exec (.sleepExpiry team grp lanes) s = .next t ∧ t.group team grp = (s.group team grp).goTo
      (lanes &&& (s.group team grp).waiting (fun _ => Wait.expired s.dev.datum)) (s.group team grp).lanePc := by
  refine ⟨_, rfl, (State.group_onGroup s team grp team grp _).trans ((if_pos ⟨rfl, rfl, hhas⟩).trans ?_)⟩
  refine (settle_of_none _ _ ((goTo_calls _ _ _).trans hcalls)).trans ?_
  refine congrArg (fun p => (s.group team grp).goTo (lanes &&& (s.group team grp).waiting p) (s.group team grp).lanePc) ?_
  funext _ w
  cases w <;> rfl

/-- What the lanes that wait for lines wait for is there (R66, R100, R278): those that go on after their instruction, or those that
execute it again. -/
def State.linesThere (s : State) (again : Bool) (w : Wait) : Bool :=
  match w with
  | .lines t ls r => r == again && ls.all (fun l => (s.team t).present l)
  | .owned ls => again && ls.all (fun l => !s.owned l)
  | .barrier _ _ | .shelf _ _ | .word _ _ _ _ _ | .quiet _ _ | .order | .sleep _ => false

theorem linesDone_eq (g : Group) : s.linesDone g =
    (g.waiting (fun _ => s.linesThere false), g.waiting (fun _ => s.linesThere true)) := by
  have same : ∀ again, g.waiting (fun _ w => match w with
      | .lines t ls r => r == again && ls.all (fun l => (s.team t).present l)
      | .owned ls => again && ls.all (fun l => !s.owned l)
      | .barrier _ _ | .shelf _ _ | .word _ _ _ _ _ | .quiet _ _ | .order | .sleep _ => false) =
      g.waiting (fun _ => s.linesThere again) := fun again => by
    refine congrArg g.waiting ?_
    funext _ w
    cases w <;> rfl
  exact Prod.ext (same false) (same true)

theorem presence_resumes (hhas : s.has team grp = true) (hcalls : (s.group team grp).calls = []) :
    ∃ t, exec (.presenceResume team grp) s = .next t ∧ t.group team grp =
      ((s.group team grp).goTo ((s.group team grp).waiting (fun _ => s.linesThere false)) (fun i =>
        match find i (s.group team grp).hdr with
        | some h => successor h.1 h.2
        | none => (s.group team grp).lanePc i)).retry ((s.group team grp).waiting (fun _ => s.linesThere true)) := by
  refine ⟨_, rfl, (State.group_onGroup s team grp team grp _).trans ((if_pos ⟨rfl, rfl, hhas⟩).trans ?_)⟩
  rw [linesDone_eq, release_goTo _ hcalls]

section waits

variable {i : Nat} (hi : i < 64) (hwait : sorted (s.group team grp).wait = true)
include hi hwait

/-- A sleeper whose time has come is ready, and another sleeps on. -/
theorem sleeper_after {lanes : Lanes} {tick : Nat} (hw : find i (s.group team grp).wait = some (.sleep tick)) {G : Group}
    (hG : G = (s.group team grp).goTo (lanes &&& (s.group team grp).waiting (fun _ => Wait.expired s.dev.datum)) (s.group team grp).lanePc) :
    if lanes.getLsbD i = true ∧ tick ≤ s.dev.datum then
      G.state i = 1 ∧ G.lanePc i = (s.group team grp).lanePc i ∧ find i G.wait = none
    else G.state i = (s.group team grp).state i ∧ find i G.wait = find i (s.group team grp).wait := by
  have hbit : (lanes &&& (s.group team grp).waiting (fun _ => Wait.expired s.dev.datum)).getLsbD i = true ↔
      lanes.getLsbD i = true ∧ tick ≤ s.dev.datum := by
    rw [BitVec.getLsbD_and, getLsbD_waiting hwait _ hi, hw, Bool.and_eq_true]
    exact and_congr_right fun _ => decide_eq_true_iff
  rw [hG, state_goTo _ _ _ i hi, lanePc_goTo _ _ _ i hi, find_wait_goTo _ _ _ i hi]
  split
  · next h => exact ⟨if_pos (hbit.mpr h), (if_pos (hbit.mpr h)), if_pos (hbit.mpr h)⟩
  · next h => exact ⟨if_neg (mt hbit.mp h), if_neg (mt hbit.mp h)⟩

variable {w : Wait} {hdr : Word × Nat} (hw : find i (s.group team grp).wait = some w) (hhdr : find i (s.group team grp).hdr = some hdr)
  {G : Group} (hG : G = ((s.group team grp).goTo ((s.group team grp).waiting (fun _ => s.linesThere false)) (fun i =>
    match find i (s.group team grp).hdr with
    | some h => successor h.1 h.2
    | none => (s.group team grp).lanePc i)).retry ((s.group team grp).waiting (fun _ => s.linesThere true)))
include hw hhdr hG

theorem lines_after : (G.state i = if s.linesThere true w = true ∨ s.linesThere false w = true then 1 else (s.group team grp).state i) ∧
    (G.lanePc i = if s.linesThere false w = true then successor hdr.1 hdr.2 else (s.group team grp).lanePc i) ∧
    (find i G.wait = if s.linesThere true w = true ∨ s.linesThere false w = true then none else some w) ∧
    find i G.hdr = if s.linesThere false w = true then none else some hdr := by
  have bit : ∀ again, ((s.group team grp).waiting (fun _ => s.linesThere again)).getLsbD i = s.linesThere again w := fun again => by
    rw [getLsbD_waiting hwait _ hi, hw]
    rfl
  rw [hG, state_retry _ _ i hi, lanePc_retry, find_wait_retry _ _ i hi, hdr_retry, state_goTo _ _ _ i hi, lanePc_goTo _ _ _ i hi,
    find_wait_goTo _ _ _ i hi, find_hdr_goTo _ _ _ i hi, bit, bit, hhdr, hw]
  cases s.linesThere true w <;> exact ⟨by simp, rfl, by simp, rfl⟩

/-- A lane that waits behind `PRWAIT` goes on when its lines are present. -/
theorem present_after {n : Nat} {ls : List Nat} (he : w = .lines n ls false) (hls : ∀ l ∈ ls, (s.team n).present l = true) :
    G.state i = 1 ∧ G.lanePc i = successor hdr.1 hdr.2 ∧ find i G.wait = none := by
  obtain ⟨hst, hpc, hwt, -⟩ := lines_after hi hwait hw hhdr hG
  have there : s.linesThere false w = true := by
    rw [he]
    exact List.all_eq_true.mpr hls
  rw [there] at hst hpc hwt
  exact ⟨hst.trans (if_pos (.inr rfl)), hpc, hwt.trans (if_pos (.inr rfl))⟩

/-- A lane whose lines are there for its instruction executes it again. -/
theorem again_after (he : (∃ n ls, w = .lines n ls true ∧ ∀ l ∈ ls, (s.team n).present l = true) ∨
      ∃ ls, w = .owned ls ∧ ∀ l ∈ ls, s.owned l = false) :
    G.state i = 1 ∧ G.lanePc i = (s.group team grp).lanePc i ∧ find i G.hdr = some hdr ∧ find i G.wait = none := by
  obtain ⟨hst, hpc, hwt, hhd⟩ := lines_after hi hwait hw hhdr hG
  have there : s.linesThere true w = true ∧ s.linesThere false w = false := by
    rcases he with ⟨n, ls, rfl, hls⟩ | ⟨ls, rfl, hls⟩
    · exact ⟨List.all_eq_true.mpr hls, rfl⟩
    · exact ⟨List.all_eq_true.mpr (fun l hl => by rw [hls l hl]; rfl), rfl⟩
  obtain ⟨again, on⟩ := there
  rw [again] at hst hwt
  rw [on] at hpc hhd
  exact ⟨hst.trans (if_pos (.inl rfl)), hpc, hhd, hwt.trans (if_pos (.inl rfl))⟩

end waits

end events

end Sys2Proof.Machine
end

section
/-!
PROOF. A woken lane tests its word again (R271): it goes on with the value that it saw, or waits again.
-/
namespace Sys2Proof.Machine

/-! ### The test -/

/-- The place of an ordered word that no operation owns is not held, and its class is ordered. -/
theorem key_place {s : State} {a : Agent} {va : Word} {p : Spot} (hp : s.seek a .read va = .ok p)
    (hkey : s.keyFault a true va = none) (hfree : s.ownedHome a .read [va] = []) : ordered p.cls = true := by
  have hheld : p.held = false := by
    unfold State.ownedHome State.waitLines State.spots at hfree
    simp only [List.filterMap_cons, List.filterMap_nil, hp] at hfree
    unfold State.waitLine at hfree
    cases hh : p.held
    · rfl
    · simp [hh] at hfree
  have hclass : s.classBad a .read ordered va = false := by
    unfold State.keyFault at hkey
    split at hkey
    · cases hkey
    · split at hkey
      · cases hkey
      · next h => exact Bool.eq_false_iff.mpr h
  unfold State.classBad at hclass
  rw [hp] at hclass
  simpa [hheld] using hclass

/-- An ordered load at the home slice answers what memory holds, and leaves it. -/
theorem load_home {s : State} {a : Agent} (hrec : s.recording a.ctx = false) {cls : Nat} (hcls : ordered cls = true) (addr n : Nat) :
    (s.load a false cls addr n).1 = (s.readKey (s.keyOf a.ctx) addr n).1 ∧ (s.load a false cls addr n).2.mem = s.mem := by
  have h5 : cls ≠ 5 := fun e => by rw [e] at hcls; exact absurd hcls (by decide)
  have hnote : ∀ (t : State), t.recording a.ctx = false → ∀ k t', (t.note a k true false t').mem = t.mem := fun t ht k t' => by
    unfold State.note
    rw [ht]
    simp only [Bool.false_eq_true, if_false]
    split <;> rfl
  have home := Alike.homeClock s a (lineNo addr)
  unfold State.load
  simp only [h5, hcls, Bool.not_true, Bool.false_eq_true, if_false, Bool.false_and]
  exact ⟨trivial, (hnote _ ((home.recording _).trans hrec) _ _).trans home.mem⟩

/-- What a lane's test answers, and in which state. -/
structure Retested (s t : State) (a : Agent) (p : Spot) (v : Nat) : Prop where
  value : v = (s.readKey (s.keyOf a.ctx) p.addr 8).1
  mem : t.mem = s.mem
  touched : Touched false s t

theorem tests_word {s : State} {a : Agent} {va : Word} {p : Spot} (hop : a.op = none) (hrec : s.recording a.ctx = false)
    (hcls : ordered p.cls = true) :
    Retested s ((s.walked a va p).load a false p.cls p.addr 8).2 a p ((s.walked a va p).load a false p.cls p.addr 8).1 := by
  have walk := Alike.walked s a va p hop
  obtain ⟨hvalue, hmem⟩ := load_home ((walk.recording _).trans hrec) hcls p.addr 8
  exact ⟨by rw [hvalue, walk.readKey, walk.keyOf], hmem.trans walk.mem, (Touched.walked _ _ _ _ hop).trans (Touched.load _ _ _ _ _ _)⟩

theorem testLanes_error {s : State} {a : Agent} {va : Word} {x : Kind × Nat} (h : s.seek a .read va = .error x) (cc : Cc) (ty : Ty)
    (y : Word) (i : Nat) : State.testLanes a cc ty (fun _ => va) (fun _ => y) s [i] = ([], s) := by
  unfold State.testLanes State.testLanes
  rw [h]

theorem testLanes_ok {s : State} {a : Agent} {va : Word} {p : Spot} (h : s.seek a .read va = .ok p) (cc : Cc) (ty : Ty)
    (y : Word) (i : Nat) : State.testLanes a cc ty (fun _ => va) (fun _ => y) s [i] =
      (if waitHolds cc ty (BitVec.ofNat 64 ((s.walked a va p).load a false p.cls p.addr 8).1) y
        then [(i, BitVec.ofNat 64 ((s.walked a va p).load a false p.cls p.addr 8).1)] else [],
        ((s.walked a va p).load a false p.cls p.addr 8).2) := by
  unfold State.testLanes State.testLanes
  rw [h]

/-! ### Registrations change no translation -/

section regs

variable (s : State) (R : List Reg_)

theorem walkFrom_regs (c : Nat) (va : Word) (k : Nat) : ∀ l, ({ s with regs := R } : State).walkFrom c va k l = s.walkFrom c va k l
  | 0 => rfl
  | l + 1 => by
    funext x b
    unfold State.walkFrom
    rw [walkFrom_regs c va k l]
    rfl

theorem leafFor_regs (core c : Nat) (op : Option Nat) (va : Word) :
    ({ s with regs := R } : State).leafFor core c op va = s.leafFor core c op va := by
  unfold State.leafFor State.walk
  simp only [walkFrom_regs]
  rfl

theorem look_regs (core c : Nat) (level : Level) (use : Use) (va : Word) (op : Option Nat) (wait : Bool) :
    ({ s with regs := R } : State).look core c level use va op wait = s.look core c level use va op wait := by
  unfold State.look
  simp only [leafFor_regs]
  rfl
end regs

/-! ### The retest of one lane -/

section retest

variable {s : State} {team grp i : Nat} {cc : Cc} {ty : Ty} {y : Word} {dst : Option VReg} {va : Word}

/-- A registration made apart joins those before it as it is. -/
theorem mergeWaiters_one {old : List Reg_} {r : Reg_} {ls : Lanes} (h : s.regs = old ++ [r]) (hr : r.who = .lanes team grp ls) :
    s.mergeWaiters team grp old = s := by
  have hdrop : s.regs.drop old.length = [r] := by rw [h, List.drop_left]
  unfold State.mergeWaiters
  dsimp only
  rw [hdrop, List.foldl_cons, List.foldl_nil]
  simp only [hr, List.any_nil, Bool.false_eq_true, if_false, List.nil_append]
  rw [← hr, ← h]

theorem mergeWaiters_none : s.mergeWaiters team grp s.regs = s := by
  unfold State.mergeWaiters
  dsimp only
  rw [List.drop_length, List.foldl_nil, List.append_nil]

theorem testOf_word (h : find i (s.group team grp).wait = some (.word cc ty y dst va)) :
    (s.group team grp).testOf i = some (cc, ty, y, dst, va) := by
  unfold Group.testOf
  rw [h]

/-- One woken lane whose word can be read tests it, with no registration of its own left. -/
theorem exec_retest {lanes : Lanes} (hi : i < 64) (hlanes : lanes &&& s.wokenLanes team grp = laneBit i)
    (hwait : find i (s.group team grp).wait = some (.word cc ty y dst va)) (hcore : (s.team team).core.isSome = true)
    (hissue : s.mayIssue (s.groupAgent team grp).ctx = true) (hkey : s.keyFault (s.groupAgent team grp) true va = none)
    (hfree : s.ownedHome (s.groupAgent team grp) .read [va] = []) :
    exec (.waitaRetest team grp lanes) s = .next (((s.dropLanes team grp (laneBit i)).retestLane team grp i).mergeWaiters team grp
      (s.dropLanes team grp (laneBit i)).regs) := by
  have bit : ∀ j, j < 64 → ((laneBit i).getLsbD j = true ↔ j = i) := fun j hj => by
    rw [getLsbD_laneBit i j hj, decide_eq_true_eq, eq_comm]
  have single := lanesOf_single hi bit
  have some_ : laneBit i ≠ 0 := fun h => by
    have := (bit i hi).mpr rfl
    rw [h] at this
    simp at this
  have htest := testOf_word hwait
  have hgo : ¬(laneBit i = 0 ∨ (s.team team).core.isNone = true ∨ s.mayIssue (s.groupAgent team grp).ctx = false) := by
    rw [Option.isNone_eq_false_iff.mpr hcore, hissue]
    exact fun h => h.elim some_ (fun h => h.elim Bool.false_ne_true (fun h => Bool.false_ne_true h.symm))
  rw [exec_waitaRetest]
  unfold execWaitaRetest
  simp only [hlanes, if_neg hgo]
  rw [laneFaults_none (m := laneBit i) (fun j hj hm => ?sound)]
  case sound =>
    rw [(bit j hj).mp hm, htest]
    exact hkey
  simp only [single, List.map_cons, List.map_nil, htest, hfree, List.isEmpty_nil, if_true, List.foldl_cons, List.foldl_nil]

/-- The group of a lane that goes on with a word. -/
def Group.goesOn (g : Group) (dst : Option VReg) (i : Nat) (w : Word) : Group :=
  (match dst with
    | some v => g.setV v.toNat i w
    | none => g).release (laneBit i)

theorem retestLane_error {x : Kind × Nat} (hwait : find i (s.group team grp).wait = some (.word cc ty y dst va))
    (hs : s.seek (s.groupAgent team grp) .read va = .error x) :
    s.retestLane team grp i = s.register (s.groupAgent team grp).ctx (signVa va) (.lanes team grp (laneBit i)) := by
  unfold State.retestLane
  simp only [testOf_word hwait, testLanes_error hs]

theorem retestLane_ok {p : Spot} (hwait : find i (s.group team grp).wait = some (.word cc ty y dst va))
    (hs : s.seek (s.groupAgent team grp) .read va = .ok p) :
    let a := s.groupAgent team grp
    let r := (s.walked a va p).load a false p.cls p.addr 8
    s.retestLane team grp i = if waitHolds cc ty (BitVec.ofNat 64 r.1) y = true
      then r.2.onGroup team grp (fun g => g.goesOn dst i (BitVec.ofNat 64 r.1))
      else r.2.register a.ctx (signVa va) (.lanes team grp (laneBit i)) := by
  intro a r
  unfold State.retestLane
  simp only [testOf_word hwait, testLanes_ok hs]
  by_cases h : waitHolds cc ty (BitVec.ofNat 64 r.1) y = true
  · rw [if_pos h, if_pos h]
    rfl
  · rw [if_neg h, if_neg h]

theorem goesOn_after {g : Group} {hdr : Word × Nat} (hi : i < 64) (hcalls : g.calls = []) (hhdr : find i g.hdr = some hdr) (w : Word) :
    (g.goesOn dst i w).state i = 1 ∧ (g.goesOn dst i w).lanePc i = successor hdr.1 hdr.2 ∧ find i (g.goesOn dst i w).wait = none ∧
      ∀ r : VReg, dst = some r → (g.goesOn dst i w).vreg r.toNat i = w := by
  have bit : (laneBit i).getLsbD i = true := by rw [getLsbD_laneBit i i hi, decide_eq_true rfl]
  have written : ∃ k : Group, k.calls = [] ∧ find i k.hdr = some hdr ∧ (∀ r : VReg, dst = some r → k.vreg r.toNat i = w) ∧
      g.goesOn dst i w = k.release (laneBit i) := by
    cases dst with
    | none => exact ⟨g, hcalls, hhdr, nofun, rfl⟩
    | some v =>
      refine ⟨g.setV v.toNat i w, hcalls, hhdr, fun r hr => ?_, rfl⟩
      cases hr
      unfold Group.setV
      rw [Group.vreg_putV _ _ _ _ _ _ hi hi, if_pos ⟨rfl, rfl⟩]
  obtain ⟨k, kcalls, khdr, kreg, keq⟩ := written
  rw [keq, release_goTo _ kcalls, state_goTo _ _ _ i hi, lanePc_goTo _ _ _ i hi, find_wait_goTo _ _ _ i hi, if_pos bit, if_pos bit,
    if_pos bit, khdr]
  refine ⟨rfl, rfl, rfl, fun r hr => ?_⟩
  rw [← kreg r hr, goTo_rest]
  rfl

/-- A woken lane goes on with the word that it saw, or waits for it again. -/
theorem waita_retests {lanes : Lanes} {hdr : Word × Nat} (hhas : s.has team grp = true) (hcalls : (s.group team grp).calls = [])
    (hi : i < 64) (hlanes : lanes &&& s.wokenLanes team grp = laneBit i)
    (hwait : find i (s.group team grp).wait = some (.word cc ty y dst va)) (hhdr : find i (s.group team grp).hdr = some hdr)
    (hcore : (s.team team).core.isSome = true) (hissue : s.mayIssue (s.groupAgent team grp).ctx = true)
    (hkey : s.keyFault (s.groupAgent team grp) true va = none) (hfree : s.ownedHome (s.groupAgent team grp) .read [va] = [])
    (hrec : s.recording (s.groupAgent team grp).ctx = false) :
    ∃ t, exec (.waitaRetest team grp lanes) s = .next t ∧ t.mem = s.mem ∧
      ∀ p, s.seek (s.groupAgent team grp) .read va = .ok p →
      (let w := BitVec.ofNat 64 (s.readKey (s.keyOf (s.groupAgent team grp).ctx) p.addr 8).1
      let g := s.group team grp
      let G := t.group team grp
      if waitHolds cc ty w y = true then
        G.state i = 1 ∧ G.lanePc i = successor hdr.1 hdr.2 ∧ find i G.wait = none ∧ (∀ r : VReg, dst = some r → G.vreg r.toNat i = w)
      else G.state i = g.state i ∧ find i G.wait = find i g.wait ∧ G.lanePc i = g.lanePc i ∧
        ∃ r ∈ t.regs, r.ctx = (s.groupAgent team grp).ctx ∧ r.key = signVa va ∧ r.woken = false ∧
          ∃ ls, r.who = .lanes team grp ls ∧ ls.getLsbD i = true) := by
  have bit : (laneBit i).getLsbD i = true := by rw [getLsbD_laneBit i i hi, decide_eq_true rfl]
  refine ⟨_, exec_retest hi hlanes hwait hcore hissue hkey hfree, ?_⟩
  cases hs : s.seek (s.groupAgent team grp) .read va with
  | error x =>
    rw [retestLane_error (s := s.dropLanes team grp (laneBit i)) hwait ((look_regs s _ _ _ _ _ _ _ _).trans hs),
      mergeWaiters_one (old := (s.dropLanes team grp (laneBit i)).regs) rfl rfl]
    exact ⟨rfl, nofun⟩
  | ok p =>
    have hs' : (s.dropLanes team grp (laneBit i)).seek (s.groupAgent team grp) .read va = .ok p := (look_regs s _ _ _ _ _ _ _ _).trans hs
    have tested := tests_word (s := s.dropLanes team grp (laneBit i)) (a := s.groupAgent team grp) (va := va) (p := p) rfl hrec
      (key_place hs hkey hfree)
    have hretest := retestLane_ok (s := s.dropLanes team grp (laneBit i)) hwait hs'
    simp only [show (s.dropLanes team grp (laneBit i)).groupAgent team grp = s.groupAgent team grp from rfl] at hretest
    generalize ((s.dropLanes team grp (laneBit i)).walked (s.groupAgent team grp) va p).load (s.groupAgent team grp) false p.cls p.addr 8 = r
      at tested hretest
    obtain ⟨hvalue, hmem, touched⟩ := tested
    have hword : r.1 = (s.readKey (s.keyOf (s.groupAgent team grp).ctx) p.addr 8).1 := hvalue
    have hgroup : r.2.group team grp = { s.group team grp with gts := (r.2.group team grp).gts } := touched.group team grp
    have hregs : r.2.regs = (s.dropLanes team grp (laneBit i)).regs := by rw [touched.rest]
    rw [hretest, hword]
    by_cases holds : waitHolds cc ty (BitVec.ofNat 64 (s.readKey (s.keyOf (s.groupAgent team grp).ctx) p.addr 8).1) y = true
    · rw [if_pos holds, ← hregs]
      have hthere : r.2.has team grp = true := (touched.has team grp).trans hhas
      have hmerge := mergeWaiters_none (s := r.2.onGroup team grp (fun g =>
        g.goesOn dst i (BitVec.ofNat 64 (s.readKey (s.keyOf (s.groupAgent team grp).ctx) p.addr 8).1))) (team := team) (grp := grp)
      rw [show r.2.regs = (r.2.onGroup team grp (fun g =>
        g.goesOn dst i (BitVec.ofNat 64 (s.readKey (s.keyOf (s.groupAgent team grp).ctx) p.addr 8).1))).regs from rfl, hmerge]
      refine ⟨hmem, fun q hq => ?_⟩
      cases hq
      dsimp only
      rw [if_pos holds, State.group_onGroup, if_pos ⟨rfl, rfl, hthere⟩]
      refine goesOn_after hi ?_ ?_ _
      · rw [hgroup]; exact hcalls
      · rw [hgroup]; exact hhdr
    · rw [if_neg holds, ← hregs, mergeWaiters_one (old := r.2.regs) rfl rfl]
      refine ⟨hmem, fun q hq => ?_⟩
      cases hq
      dsimp only
      rw [if_neg holds, show (r.2.register (s.groupAgent team grp).ctx (signVa va) (.lanes team grp (laneBit i))).group team grp =
        r.2.group team grp from rfl, hgroup]
      exact ⟨rfl, rfl, rfl, _, List.mem_append_right _ List.mem_cons_self, rfl, rfl, rfl, _, rfl, bit⟩

end retest

end Sys2Proof.Machine
end

section
open Sys2Proof Sys2Proof.Machine

/-- Settles O50, event by event: the writes of an outstanding instruction one by one, the scope of a fence, and the lanes that a
wait of a table whose keys rise keeps. -/
theorem waitsComplete : Obligations.WaitsComplete := by
  unfold Obligations.WaitsComplete
  intro s team grp hhas g hcalls
  refine ⟨fun id p lanes hp hmay hlanes hpc hv hpw hs => ?completion, fun id f hf => fence_ends hhas hf, fun lanes => ?sleep, ?lines,
    fun i cc ty y dst va h lanes hi hlanes hwait hhdr hcore hissue hkey hfree hrec =>
      waita_retests hhas hcalls hi hlanes hwait hhdr hcore hissue hkey hfree hrec⟩
  case completion =>
    obtain ⟨f, hf, hexec⟩ := exec_completion hcalls hp hmay hlanes hpc
    have own : (s.onGroup team grp f).group team grp = g.complete id lanes := by
      rw [State.group_onGroup, if_pos ⟨rfl, rfl, hhas⟩, hf]
    refine ⟨_, hexec, rfl, fun n k h => onGroup_other s team grp f n k h, ?_⟩
    rw [own]
    exact ⟨fun r i hi => vreg_complete g id p hi lanes hp hv, fun r i hr hi => preg_complete g id p hi hr lanes hp hpw,
      fun hrest => complete_some g id p hp hrest, fun hrest => complete_all g id p hp hrest hs⟩
  case sleep =>
    obtain ⟨t, hexec, hgroup⟩ := sleep_expires hhas hcalls lanes
    refine ⟨t, hexec, ?_, fun i tick hi hsorted hw => sleeper_after hi hsorted hw hgroup⟩
    rw [hgroup]
    exact goTo_rest _ _ _
  case lines =>
    obtain ⟨t, hexec, hgroup⟩ := presence_resumes hhas hcalls
    refine ⟨t, hexec, fun i hi hsorted n ls h hhdr => ⟨fun hw hls => present_after hi hsorted hw hhdr hgroup rfl hls, fun hw => ?_⟩⟩
    rcases hw with ⟨hw, hls⟩ | ⟨hw, hls⟩
    · exact again_after hi hsorted hw hhdr hgroup (.inl ⟨n, ls, rfl, hls⟩)
    · exact again_after hi hsorted hw hhdr hgroup (.inr ⟨ls, rfl, hls⟩)
end

section
/-!
PROOF. Lease lengths (R95): obligation O7.
-/
open Sys2Proof Sys2Proof.Machine

/-- Settles O7: the lease in effect is the field's, at most 4,096, and a write of the field touches no timestamp. -/
theorem leaseLengths : Obligations.LeaseLengths := by
  refine ⟨fun s c => ?effect, fun s e i => ?read, ?write⟩
  case effect =>
    unfold State.lease
    show min _ 4096 = _
    split <;> omega
  case read =>
    show ((s.ctx e.ctx).lease.setWidth 64).setWidth 32 = (s.ctx e.ctx).lease
    rw [BitVec.setWidth_setWidth_of_le _ (by decide), BitVec.setWidth_eq]
  case write =>
    intro s c x m h hl g a ha hact k w
    refine (swrOp_ctx h ha (fun w y => { y with lease := if w.setWidth 32 = (0 : BitVec 32) then 1 else w.setWidth 32 }) hl rfl
      (fun _ _ => rfl)).mono (fun u hu => ?_)
    obtain ⟨und, -, rest, others, own⟩ := hu
    rw [if_neg hact] at own
    refine ⟨by rw [rest], fun n => by rw [und.core], others, own, ?_⟩
    unfold State.lease
    rw [own]
    show min (if w = (0 : BitVec 32) then (1 : BitVec 32) else w).toNat 4096 = _
    rw [apply_ite BitVec.toNat]
    rfl
end

section
/-!
PROOF. A write through a window that reaches into the context table (R4, R332, R357): the refutation of the obligation about the
outside acts, whose condition on the written bytes asks what guards their first address alone.
-/
namespace Sys2Proof.Machine

/-- A device with 4 GiB of memory and one context, whose page table maps its first GiB to device memory. The context is the window
context of a port, and firmware has placed the context table (R332 names no alignment) eight bytes behind the window's first byte. -/
def tableBehindState : State :=
  { State.reset with
    mem := [(0x1000, 0x3B), (0x1003, 0x40), (0x200000, 0x01), (0x200001, 0x10)]
    dev := { Device.reset with service := .normal, trained := true, config := 4, ctxTable := some 0x40000008 }
    ports := [(0, { Port.down with up := true, window := true })]
    ctxs := [(0, { Ctx.free with st := .running, ptroot := 0x200000 })] }

/-- The place of the window's first byte. -/
def tableBehindSpot : Spot :=
  { cls := 0, addr := 0x40000000, leaf := { pa := 0x40000000, cls := 0, w := true, x := true, u := true, tick := 0 }
    walk := some ([0x8000, 0x40], [(midKey 0 3 0, { loc := 0, table := 0x1000, tick := 0 })]) }

/-- Two words of ones. -/
def tableBehindData : BitVec 512 := 2 ^ 128 - 1

theorem tableBehind_spot : tableBehindState.windowSpot 0 0 16 .write = some (0, tableBehindSpot) := by decide +kernel

theorem tableBehind_plain : tableBehindState.Plain 0 tableBehindSpot.cls tableBehindSpot.addr 16 :=
  ⟨rfl, by decide, .inl (by decide +kernel), by decide +kernel⟩

/-- Of the second word, which is the first of a descriptor, memory keeps what is read-only (R4). -/
theorem tableBehind_written :
    readN (tableBehindState.request (.hostWindowWrite 0 0 16 tableBehindData)).mem 0x40000000 16 =
      2 ^ 64 - 1 + 0xFFFFFFFF00000F00 * 2 ^ 64 := by
  decide +kernel

end Sys2Proof.Machine

open Sys2Proof Sys2Proof.Machine

/-- Refutes O56: a write of sixteen bytes through a window, from eight bytes before the context table on. Nothing guards its first
address, but its second word lies in a descriptor, whose read-only fields keep their values (R4, R332), so that memory does not hold
the data. -/
theorem not_hostEventsComplete : ¬ Obligations.HostEventsComplete := by
  intro h
  obtain ⟨-, -, -, -, -, -, write, -⟩ := h tableBehindState rfl rfl (fun i hi => nomatch hi)
  obtain ⟨-, writes⟩ := write 0 0 16 tableBehindData 0 tableBehindSpot tableBehind_spot
  obtain ⟨t, ht, -, hread, -⟩ := writes rfl rfl (by decide) rfl tableBehind_plain
  have next : tableBehindState.request (.hostWindowWrite 0 0 16 tableBehindData) = t := Host.Outcome.next.inj ht
  rw [← next] at hread
  exact absurd (tableBehind_written.symm.trans hread) (by decide +kernel)
end

section
/-!
SUPPORT. Bytes that a run of writes leaves: those of ranges that lie apart, and those outside every range.
-/
namespace Sys2Proof.Machine

/-- A run of bytes to be written: where from, and the number they are of. -/
abbrev Run := Nat × Nat

/-- Runs of n bytes written in order. -/
def writeRuns (n : Nat) (rs : List Run) (m : SMap Byte) : SMap Byte := rs.foldl (fun m r => writeN m r.1 n r.2) m

theorem writeRuns_cons (n : Nat) (r : Run) (rs : List Run) (m : SMap Byte) :
    writeRuns n (r :: rs) m = writeRuns n rs (writeN m r.1 n r.2) := rfl

/-- A byte outside every run stays. -/
theorem get_writeRuns_outside {n a : Nat} {rs : List Run} (h : ∀ r ∈ rs, a < r.1 ∨ r.1 + n ≤ a) (m : SMap Byte) :
    get 0 a (writeRuns n rs m) = get 0 a m := by
  induction rs generalizing m with
  | nil => rfl
  | cons r rs ih =>
    have hr := h r List.mem_cons_self
    rw [writeRuns_cons, ih (fun q hq => h q (List.mem_cons_of_mem _ hq)), get_writeN, if_neg (by omega)]

/-- Runs that lie apart hold what was written to them. -/
theorem get_writeRuns_apart {n : Nat} {rs : List Run} (h : rs.Pairwise (fun q r => q.1 + n ≤ r.1 ∨ r.1 + n ≤ q.1)) {q : Run} (hq : q ∈ rs)
    {j : Nat} (hj : j < n) (m : SMap Byte) : get 0 (q.1 + j) (writeRuns n rs m) = BitVec.ofNat 8 (q.2 / 256 ^ j) := by
  induction rs generalizing m with
  | nil => cases hq
  | cons r rs ih =>
    obtain ⟨hr, hrs⟩ := List.pairwise_cons.mp h
    rw [writeRuns_cons]
    rcases List.mem_cons.mp hq with rfl | hq
    · rw [get_writeRuns_outside (fun p hp => by have := hr p hp; omega), get_writeN, if_pos (by omega), Nat.add_sub_cancel_left]
    · exact ih hrs hq _

/-- Byte j of the low n bytes of a register. -/
theorem byte_of_low (w : Word) {n j : Nat} (hj : j < n) :
    BitVec.ofNat 8 (w.toNat % 2 ^ (8 * n) / 256 ^ j) = w.extractLsb' (8 * j) 8 := by
  refine BitVec.eq_of_toNat_eq ?_
  have h256 : (256 : Nat) ^ j = 2 ^ (8 * j) := by rw [show (256 : Nat) = 2 ^ 8 from rfl, Nat.pow_mul]
  rw [BitVec.toNat_ofNat, BitVec.extractLsb'_toNat, Nat.shiftRight_eq_div_pow, ← h256]
  have := Loads.part_mod w.toNat j 1 (8 * n) (by omega)
  rwa [← h256] at this

end Sys2Proof.Machine
end

section
/-!
SUPPORT. An instruction that begins after accesses of its group, said once for memory and for shares.
-/
namespace Sys2Proof.Machine

variable {s t u : State} {c : Nat} {x : Issue} {m : Member} {b : Bool}

/-- Accesses to memory come after what an instruction has changed. -/
theorem Accessed.touched (h : Accessed b s t m) (k : Touched b t u) : Accessed b s u m := by
  obtain ⟨hr, hd, hcore, hteam, hshares, hgroup⟩ := h
  refine ⟨?rest, ?dev, fun n => ?core, fun n => ?team, fun hb n => ?shares, fun n j hn => ?group⟩
  case rest => rw [k.rest, hr]
  case dev => rw [k.dev, hd]
  case core => rw [k.core n, hcore n]
  case team => rw [k.team n, hteam n]
  case shares =>
    obtain ⟨h1, h2, h3⟩ := hshares hb n
    obtain ⟨k1, k2, k3⟩ := k.shares hb n
    exact ⟨k1.trans h1, k2.trans h2, k3.trans h3⟩
  case group => rw [k.group n j, hgroup n j hn]

theorem Accessed.weaken (h : Accessed false s t m) : Accessed b s t m :=
  ⟨h.rest, h.dev, h.core, h.team, fun _ => h.shares rfl, h.group⟩

theorem begun_accessed (h : Sole s c x m) (sh : Shape) (b : Bool) : Accessed b s (s.begun sh c x m) m := by
  have hacc := (Listing.begun h sh).acc
  have hctxs : (s.begun sh c x m).ctxs = s.ctxs := by rw [begun_rest]
  rw [hctxs] at hacc
  exact hacc.weaken

/-- After accesses of its group an instruction begins, and P holds of what is left. -/
theorem access_begins (h : Sole s c x m) (sh : Shape) (f : Env → State → Res) (hu : Touched b (s.begun sh c x m) u) {ll : Ll}
    (hsl : sh.ll = some ll) (hll : m.canCount s sh.g ll) (hreqs : s.roomFor sh c m)
    (hw : sh.wait (s.env c x m sh.g) s = false) (hl : (m.group s).level.atLeast sh.level = true) (ht : sh.top ≤ (m.group s).n)
    (p : Pend) (hf : f (s.env c x m sh.g) (s.begun sh c x m) = .go ((s.env c x m sh.g).begin u ll p)) {P : State → Prop}
    (hP : P ((s.env c x m sh.g).begin u ll p)) :
    Ends c x m 0 (.next (s.run sh f)) (fun u =>
      Accessed b s u m ∧ Began (m.at_ s u) (m.group u) m.lanes (m.active s sh.g) ll p ∧ P u) := by
  have has : u.has m.team m.grp = true := (hu.has m.team m.grp).trans (begun_has h sh)
  have hgts : m.group u = { m.begun s sh with gts := (m.group u).gts } := by
    rw [← begun_group h sh]
    exact hu.group m.team m.grp
  have hgroup : m.group ((s.env c x m sh.g).begin u ll p) =
      { ((m.begun s sh).begin ll (m.active s sh.g) p).1 with gts := (m.group u).gts } := by
    rw [← begin_gts, ← hgts]
    exact (State.group_onGroup u m.team m.grp m.team m.grp _).trans (if_pos ⟨rfl, rfl, has⟩)
  have hbegan : Began (m.at_ s ((s.env c x m sh.g).begin u ll p)) (m.group ((s.env c x m sh.g).begin u ll p)) m.lanes
      (m.active s sh.g) ll p := by
    unfold Member.at_
    rw [hgroup]
    exact (began_begin s m sh ll (m.active s sh.g) p).gts _
  refine run_ends h sh f _ 0 (fun l e => ?_) hreqs hw hl ht hf ?_ ?_ _ ⟨?_, hbegan, hP⟩
  · rw [hsl] at e; cases e; exact hll
  · exact (has_onGroup _ _ _ _ _ _).trans has
  · exact (congrArg Group.calls hbegan.rest).trans h.calls
  · exact ((begun_accessed h sh b).touched hu).onOwn _

end Sys2Proof.Machine
end

section
/-!
SUPPORT. What accesses find: hits, slots and pieces are the same in states that an agent sees alike.
-/
namespace Sys2Proof.Machine

namespace Sight

variable {s t : State}

theorem memFault (h : Sight s t) (a : Agent) (use : Use) (rd : Bool) (va : Word) (n : Nat) :
    t.memFault a use rd va n = s.memFault a use rd va n := by
  unfold State.memFault
  simp only [h.probe]

theorem hits (h : Sight s t) (a : Agent) (use : Use) (m : Lanes) (va : Nat → Word) (n : Nat) : t.hits a use m va n = s.hits a use m va n := by
  unfold State.hits
  simp only [h.seek]

theorem ownedHits (h : Sight s t) (a : Agent) (l1 : Bool) (hs : List Hit) : t.ownedHits a l1 hs = s.ownedHits a l1 hs :=
  h.waitLines _ _ _

theorem elementFault (h : Sight s t) (a : Agent) (use : Use) (r : BitVec 768) (at_ : List Int) :
    t.elementFault a use r at_ = s.elementFault a use r at_ := by
  unfold State.elementFault
  simp only [h.probe]

theorem elementOwned (h : Sight s t) (a : Agent) (use : Use) (r : BitVec 768) (at_ : List Int) :
    t.elementOwned a use r at_ = s.elementOwned a use r at_ := by
  unfold State.elementOwned
  simp only [h.ownedAmong]

theorem pieces (h : Sight s t) (a : Agent) (r : BitVec 768) (m : Lanes) (at_ : Nat → List Int) : t.pieces a r m at_ = s.pieces a r m at_ := by
  unfold State.pieces
  simp only [h.seek]

end Sight

theorem Alike.resolve {s t : State} (h : Alike s t) (c : Nat) (w : Word) : t.resolve c w = s.resolve c w := by
  unfold State.resolve State.bindRecord State.bindUsed State.bindGen State.bindEntry State.deviceRead
  simp only [h.readKey, h.ctx, show t.dev.platform = s.dev.platform by rw [h.dev]]

/-! ### Shares -/

/-- A search of a table that a change of one entry does not concern finds the same key. -/
theorem find?_adjust {α : Type} (q : Nat × α → Bool) (k : Nat) (f : α → α) (hq : ∀ j y, q (j, f y) = q (j, y)) (l : SMap α) :
    ((adjust k f l).find? q).map (·.1) = (l.find? q).map (·.1) := by
  induction l with
  | nil => rfl
  | cons e l ih =>
    obtain ⟨i, y⟩ := e
    unfold adjust
    split
    · rw [List.find?_cons, List.find?_cons, hq]
      cases q (i, y) <;> rfl
    · rw [List.find?_cons, List.find?_cons]
      cases q (i, y)
      · exact ih
      · rfl

section begun

variable (s : State) (sh : Shape) (c : Nat) (x : Issue) (m : Member)

theorem begun_team_field {α : Type} (f : Team → α) (hf : ∀ t : Team, f { t with groups := [] } = f t) (n : Nat) :
    f ((s.begun sh c x m).team n) = f (s.team n) := by
  rw [← hf, begun_team_rest, hf]

theorem begun_peer (n rank : Nat) : (s.begun sh c x m).peer n rank = s.peer n rank := by
  unfold State.peer
  dsimp only
  rw [begun_team_field s sh c x m (·.grid) (fun _ => rfl), begun_team_field s sh c x m (·.gang) (fun _ => rfl)]
  refine (find?_adjust _ m.team _ (fun j y => ?_) (s.coverage c sh.once x.members).teams).trans (by rw [coverage_teams])
  rfl

theorem begun_shareOf (n : Nat) (va : Word) : (s.begun sh c x m).shareOf n va = s.shareOf n va := by
  unfold State.shareOf
  simp only [begun_peer, begun_team_field s sh c x m (·.gsize) (fun _ => rfl)]

theorem begun_inShare (n : Nat) (va : Word) (k : Nat) : (s.begun sh c x m).inShare n va k = s.inShare n va k := by
  unfold State.inShare
  simp only [begun_shareOf, begun_team_field s sh c x m (·.size) (fun _ => rfl)]

theorem begun_shareFault (n : Nat) (rd : Bool) (va : Word) (k : Nat) :
    (s.begun sh c x m).shareFault n rd va k = s.shareFault n rd va k := by
  unfold State.shareFault
  simp only [begun_inShare, begun_team_field s sh c x m (fun t => t.badHere) (fun _ => rfl)]

theorem begun_slots (n : Nat) (l : Lanes) (va : Nat → Word) (k : Nat) : (s.begun sh c x m).slots n l va k = s.slots n l va k := by
  unfold State.slots
  simp only [begun_inShare]

theorem begun_absentLines (rs : List (Nat × Nat × Nat)) : (s.begun sh c x m).absentLines rs = s.absentLines rs := by
  unfold State.absentLines
  simp only [begun_team_field s sh c x m (fun t => t.present) (fun _ => rfl)]

end begun

end Sys2Proof.Machine
end

section
/-!
SUPPORT. Places that stay plain: what accesses of a context leave of the lines' keys (R375), and the bytes that stores in order leave
in memory (R4, R92, R259).
-/
namespace Sys2Proof.Machine

/-- From s to t every line keeps its key or takes the one given. -/
def KeysTo (key : Nat) (s t : State) : Prop := ∀ l, (t.line l).key = (s.line l).key ∨ (t.line l).key = key

namespace KeysTo

variable {key : Nat} {s t u : State}

theorem refl (key : Nat) (s : State) : KeysTo key s s := fun _ => .inl rfl

theorem trans (h : KeysTo key s t) (k : KeysTo key t u) : KeysTo key s u := fun l => by
  rcases k l with e | e
  · rw [e]; exact h l
  · exact .inr e

theorem of_line (h : t.line = s.line) : KeysTo key s t := fun l => by rw [h]; exact .inl rfl

theorem setLine (s : State) (l : Nat) (x : Line) (h : x.key = (s.line l).key ∨ x.key = key) : KeysTo key s (s.setLine l x) := fun j => by
  rw [line_setLine]
  split
  · next e => rw [e]; exact h
  · exact .inl rfl

theorem rekey (s : State) (key l : Nat) : KeysTo key s (s.rekey key l) := by
  have hmem : ∀ w : SMap Byte, KeysTo key s ({ s with mem := w }.setLine l { s.line l with key := key }) := fun w =>
    (of_line (t := { s with mem := w }) rfl).trans (setLine _ _ _ (.inr rfl))
  unfold State.rekey
  dsimp only
  split
  · exact refl _ _
  · split
    · exact setLine _ _ _ (.inr rfl)
    · exact hmem _

theorem plainWrite (s : State) (key a n v : Nat) : KeysTo key s (s.plainWrite key a n v) := by
  have hmem : KeysTo key s { s.rekey key (lineNo a) with mem := writeN (s.rekey key (lineNo a)).mem a n v } :=
    (rekey s key (lineNo a)).trans (of_line rfl)
  unfold State.plainWrite
  dsimp only
  split
  · exact hmem.trans (setLine _ _ _ (.inl rfl))
  · exact hmem

theorem writeKey (s : State) (key a n v : Nat) : KeysTo key s (s.writeKey key a n v) :=
  (of_line (by rw [soil_rest]; rfl)).trans (plainWrite _ _ _ _ _)

theorem pushCores (s : State) (cs : List Nat) (l t : Nat) : KeysTo key s (s.pushCores cs l t) := by
  unfold State.pushCores
  exact foldl_keeps (KeysTo key s) _ (fun u c (hu : KeysTo key s u) => (show KeysTo key s (u.onCore c _) from hu)) _ (refl _ _)

theorem checkTime (s : State) (t : Nat) : KeysTo key s (s.checkTime t) := by
  unfold State.checkTime
  split <;> exact of_line rfl

theorem storeAt (s : State) (a : Agent) {cls : Nat} (hcls : cls ≠ 5) (addr n v t : Nat) :
    KeysTo (s.keyOf a.ctx) s (s.storeAt a cls addr n v t) := by
  unfold State.storeAt
  dsimp only
  rw [if_neg hcls]
  have hw := writeKey s (s.keyOf a.ctx) addr n (s.tableMask addr n v)
  generalize s.writeKey (s.keyOf a.ctx) addr n (s.tableMask addr n v) = u at hw
  split
  · exact hw
  · refine (hw.trans (setLine u (lineNo addr) { u.line (lineNo addr) with wts := t, rts := t } (.inl rfl))).trans ?_
    unfold State.pushL1
    exact (pushCores _ _ _ _).trans (checkTime _ _)

end KeysTo

theorem Touched.keyOf {b : Bool} {s t : State} (h : Touched b s t) (c : Nat) : t.keyOf c = s.keyOf c := by
  unfold State.keyOf
  rw [h.ctx, h.dev]

theorem guarded_of {s t : State} (hdev : t.dev.ctxTable = s.dev.ctxTable ∧ t.dev.config = s.dev.config) (htr : t.traces = s.traces)
    (addr : Nat) : t.guarded addr = s.guarded addr := by
  unfold State.guarded
  rw [hdev.1, hdev.2, htr]

/-- A place stays plain while nothing is logged and no line takes another context's key. -/
theorem State.Plain.kept {b : Bool} {s t : State} {k cls addr n : Nat} (h : s.Plain k cls addr n) (ht : Touched b s t)
    (htr : t.traces = s.traces) (hkey : KeysTo (s.keyOf k) s t) : t.Plain k cls addr n := by
  obtain ⟨hrec, hcls, hopen, hmask⟩ := h
  refine ⟨(traces_recording htr k).1.trans hrec, hcls, ?_, ?_⟩
  · rw [ht.keyOf]
    rcases hkey (lineNo addr) with e | e
    · rw [e]; exact hopen
    · exact .inr (.inl e)
  · rw [guarded_of (by rw [ht.dev]; exact ⟨rfl, rfl⟩) htr]
    exact hmask

/-- What a plain store leaves beside memory: nothing is logged, and its line alone may take its key. -/
theorem store_quiet {s : State} {a : Agent} {cls addr n : Nat} (v : Nat) (h : s.Plain a.ctx cls addr n)
    (hrep : s.replaying a.ctx = false) :
    (s.store a cls addr n v).traces = s.traces ∧ KeysTo (s.keyOf a.ctx) s (s.store a cls addr n v) := by
  have hidle : ∀ t : State, t.traces = s.traces → ∀ k x y j, t.note a k x y j = t := fun t ht k x y j =>
    Loads.note_idle ((traces_recording ht a.ctx).1.trans h.1) ((traces_recording ht a.ctx).2.trans hrep) k x y j
  unfold State.store
  dsimp only
  split
  · exact ⟨(storeAt_mem v _ h).2, .storeAt s a h.2.1 _ _ _ _⟩
  · rw [hidle _ (show (State.raisePts _ a _).traces = s.traces from (storeAt_mem v _ h).2)]
    exact ⟨(storeAt_mem v _ h).2, (KeysTo.storeAt s a h.2.1 _ _ _ _).trans (.of_line rfl)⟩

/-- One store of a group at a place found before: what it leaves. -/
structure StoredAt (s : State) (a : Agent) (p : Spot) (n v : Nat) (t : State) : Prop where
  mem : t.mem = writeN s.mem p.addr n v
  replaying : t.replaying a.ctx = false
  keyOf : t.keyOf a.ctx = s.keyOf a.ctx
  plain : ∀ cls addr k, s.Plain a.ctx cls addr k → t.Plain a.ctx cls addr k

theorem storedAt_store {s : State} {a : Agent} (ha : a.op = none) {p : Spot} {n : Nat} (va : Word) (v : Nat)
    (h : s.Plain a.ctx p.cls p.addr n) (hrep : s.replaying a.ctx = false) :
    StoredAt s a p n v ((s.walked a va p).store a p.cls p.addr n v) := by
  have halike := Alike.walked s a va p ha
  have hplain := h.alike halike
  have hrep' := (halike.replaying a.ctx).trans hrep
  obtain ⟨htr, hkeys⟩ := store_quiet v hplain hrep'
  have ht : Touched false _ _ := Touched.store (s.walked a va p) a p.cls p.addr n v
  refine ⟨?_, ?_, ?_, fun cls addr k hk => ?_⟩
  · rw [store_mem v hplain hrep', halike.mem]
  · exact (traces_recording htr _).2.trans hrep'
  · rw [ht.keyOf, halike.keyOf]
  · exact (hk.alike halike).kept ht htr hkeys

/-- The hits of an access as the runs of bytes that their stores write. -/
def hitRuns (n : Nat) (data : Hit → Nat) (hs : List Hit) : List Run := hs.map (fun q => (q.spot.addr, data q % 2 ^ (8 * n)))

/-- Stores at places found before leave their runs of bytes in memory. -/
theorem storeHits_mem {a : Agent} (ha : a.op = none) (n : Nat) (data : Hit → Nat) (hs : List Hit) {s : State}
    (h : ∀ q ∈ hs, s.Plain a.ctx q.spot.cls q.spot.addr n) (hrep : s.replaying a.ctx = false) :
    (State.storeHits a n data s hs).mem = writeRuns n (hitRuns n data hs) s.mem := by
  induction hs generalizing s with
  | nil => rfl
  | cons q hs ih =>
    have hq := storedAt_store ha q.va (data q % 2 ^ (8 * n)) (h q List.mem_cons_self) hrep
    unfold State.storeHits
    rw [ih (fun r hr => hq.plain _ _ _ (h r (List.mem_cons_of_mem _ hr))) hq.replaying, hq.mem]
    rfl

theorem hitRuns_apart {n : Nat} (data : Hit → Nat) {hs : List Hit}
    (h : hs.Pairwise (fun q r => q.spot.addr + n ≤ r.spot.addr ∨ r.spot.addr + n ≤ q.spot.addr)) :
    (hitRuns n data hs).Pairwise (fun q r => q.1 + n ≤ r.1 ∨ r.1 + n ≤ q.1) := List.pairwise_map.mpr h

theorem mem_hitRuns {n : Nat} (data : Hit → Nat) {hs : List Hit} {q : Hit} (h : q ∈ hs) :
    (q.spot.addr, data q % 2 ^ (8 * n)) ∈ hitRuns n data hs := List.mem_map_of_mem h

theorem Touched.storeHits {b : Bool} {a : Agent} (ha : a.op = none) (n : Nat) (data : Hit → Nat) (hs : List Hit) (s : State) :
    Touched b s (State.storeHits a n data s hs) := by
  induction hs generalizing s with
  | nil => exact .refl b s
  | cons q hs ih => exact ((Touched.walked _ _ _ _ ha).trans (Touched.store _ _ _ _ _ _)).trans (ih _)

end Sys2Proof.Machine
end

section
/-!
PROOF. Elements stored piece by piece (R80, R261).
-/
namespace Sys2Proof.Machine

/-- The bytes that a piece takes, its neighbours' bits kept. -/
def State.pieceBytes (s : State) (a : Agent) (r : BitVec 768) (bit v : Nat) (x : Piece) : Nat :=
  let old := (s.readKey (s.keyOf a.ctx) x.spot.addr x.n).1
  let lo := bit - 8 * x.before
  let hi := Nat.min (8 * x.n) (bit + recEs r - 8 * x.before)
  old - field old lo (hi - lo) * 2 ^ lo + v / 2 ^ (8 * x.before + lo - bit) % 2 ^ (hi - lo) * 2 ^ lo

theorem pieceStore_eq (s : State) (a : Agent) (r : BitVec 768) (bit v : Nat) (x : Piece) :
    s.pieceStore a r bit v x = (s.walked a x.va x.spot).store a x.spot.cls x.spot.addr x.n (s.pieceBytes a r bit v x) := rfl

/-- A piece that is the whole element takes the element's bits. -/
theorem pieceBytes_whole (s : State) (a : Agent) {r : BitVec 768} {v : Nat} {x : Piece} (hbefore : x.before = 0) (hn : 8 * x.n = recEs r) :
    s.pieceBytes a r 0 v x % 256 ^ x.n = v % 2 ^ recEs r := by
  have h256 : 256 ^ x.n = 2 ^ recEs r := by rw [← hn, Nat.pow_mul]
  unfold State.pieceBytes field
  simp only [hbefore, Nat.mul_zero, Nat.zero_add, Nat.sub_zero, hn, Nat.min_self, Nat.pow_zero, Nat.div_one, Nat.mul_one, h256]
  generalize (s.readKey _ _ _).1 = old
  generalize 2 ^ recEs r = w
  rw [Nat.add_mod, show old - old % w = w * (old / w) by have := Nat.div_add_mod old w; omega, Nat.mul_mod_right, Nat.zero_add,
    Nat.mod_mod, Nat.mod_mod]

/-- Pieces stored in order, each of its own element. -/
def State.storePieces (a : Agent) (r : BitVec 768) (bit v : Nat → Nat) (s : State) (xs : List Piece) : State :=
  xs.foldl (fun s x => s.pieceStore a r (bit x.lane) (v x.lane) x) s

theorem Touched.storePieces {b : Bool} {a : Agent} (ha : a.op = none) (r : BitVec 768) (bit v : Nat → Nat) (s : State) (xs : List Piece) :
    Touched b s (s.storePieces a r bit v xs) :=
  foldl_keeps (Touched b s) _ (fun _ _ h => h.trans ((Touched.walked _ _ _ _ ha).trans (Touched.store _ _ _ _ _ _))) _ (.refl b s)

/-- A byte outside every piece stays. -/
theorem storePieces_outside {a : Agent} (ha : a.op = none) {r : BitVec 768} {bit v : Nat → Nat} {y : Nat} {xs : List Piece} {s : State}
    (h : ∀ x ∈ xs, s.Plain a.ctx x.spot.cls x.spot.addr x.n) (hrep : s.replaying a.ctx = false)
    (hy : ∀ x ∈ xs, y < x.spot.addr ∨ x.spot.addr + x.n ≤ y) : get 0 y (s.storePieces a r bit v xs).mem = get 0 y s.mem := by
  induction xs generalizing s with
  | nil => rfl
  | cons x xs ih =>
    have hx := storedAt_store ha x.va (s.pieceBytes a r (bit x.lane) (v x.lane) x) (h x List.mem_cons_self) hrep
    have hout := hy x List.mem_cons_self
    refine (ih (fun q hq => hx.plain _ _ _ (h q (List.mem_cons_of_mem _ hq))) hx.replaying
      (fun q hq => hy q (List.mem_cons_of_mem _ hq))).trans ?_
    rw [hx.mem, get_writeN, if_neg (by omega)]

/-- A place of an in-bounds element's piece, and its length. -/
def State.elementPlace (s : State) (a : Agent) (r : BitVec 768) (at_ : List Int) (p : Spot × Nat) : Prop :=
  outOfBounds r at_ = none ∧ ∃ q ∈ elementPieces r at_, s.seek a .write q.1 = .ok p.1 ∧ p.2 = q.2

theorem mem_pieces {s : State} {a : Agent} {r : BitVec 768} {m : Lanes} {at_ : Nat → List Int} {x : Piece} (h : x ∈ s.pieces a r m at_) :
    ∃ i, i < 64 ∧ m.getLsbD i = true ∧ s.elementPlace a r (at_ i) (x.spot, x.n) := by
  obtain ⟨i, hi, hx⟩ := List.mem_flatMap.mp h
  obtain ⟨hi, hm⟩ := mem_lanesOf.mp hi
  refine ⟨i, hi, hm, ?_⟩
  split at hx
  · cases hx
  · next hin =>
    obtain ⟨q, hq, hx⟩ := List.mem_filterMap.mp hx
    split at hx
    · cases hx
    · next p hp =>
      cases hx
      exact ⟨hin, q.1, List.fst_mem_of_mem_zipIdx hq, hp, rfl⟩

theorem elementAt_bit {r : BitVec 768} {at_ : List Int} (h : 8 ∣ recEs r) : (elementAt r at_).2 = 0 := by
  unfold elementAt
  split
  · rfl
  · exact Nat.mod_eq_zero_of_dvd (h.mul_right _)

theorem dvd_recEs {r : BitVec 768} (h : 8 ≤ recEs r) : 8 ∣ recEs r := by
  revert h
  unfold recEs efmtBits
  split <;> omega

/-- An element of whole bytes of one lane is one piece. -/
theorem pieces_single {s : State} {a : Agent} {r : BitVec 768} {m : Lanes} {at_ : Nat → List Int} {i : Nat} (hi : i < 64)
    (hm : ∀ j, j < 64 → (m.getLsbD j = true ↔ j = i)) (hes : 8 ≤ recEs r) {p : Spot × Nat} (hp : s.elementPlace a r (at_ i) p) :
    p.2 = recEs r / 8 ∧ s.pieces a r m at_ = [⟨i, 0, (elementAt r (at_ i)).1, recEs r / 8, p.1⟩] := by
  obtain ⟨hin, q, hq, hseek, hlen⟩ := hp
  have hwhole : elementPieces r (at_ i) = [((elementAt r (at_ i)).1, recEs r / 8)] := by
    unfold elementPieces
    rw [if_pos hes]
  rw [hwhole] at hq
  obtain rfl := List.mem_singleton.mp hq
  refine ⟨hlen, ?_⟩
  unfold State.pieces
  rw [lanesOf_single hi hm]
  simp [hin, hwhole, hseek]

/-- Its place holds its bits after the store. -/
theorem storePieces_single {s : State} {a : Agent} (ha : a.op = none) {r : BitVec 768} {at_ : Nat → List Int} (v : Nat → Nat) {i : Nat}
    (hes : 8 ≤ recEs r) {p : Spot × Nat} (hlen : p.2 = recEs r / 8) (hplain : s.Plain a.ctx p.1.cls p.1.addr p.2)
    (hrep : s.replaying a.ctx = false) :
    readN (s.storePieces a r (fun i => (elementAt r (at_ i)).2) v [⟨i, 0, (elementAt r (at_ i)).1, recEs r / 8, p.1⟩]).mem p.1.addr p.2 =
      v i % 2 ^ recEs r := by
  have hdvd := dvd_recEs hes
  rw [hlen] at hplain ⊢
  show readN (s.pieceStore a r (elementAt r (at_ i)).2 (v i) ⟨i, 0, (elementAt r (at_ i)).1, recEs r / 8, p.1⟩).mem _ _ = _
  rw [elementAt_bit hdvd, pieceStore_eq, (storedAt_store ha _ _ hplain hrep).mem, readN_writeN]
  exact pieceBytes_whole (x := ⟨i, 0, (elementAt r (at_ i)).1, recEs r / 8, p.1⟩) s a rfl (Nat.mul_div_cancel' hdvd)

end Sys2Proof.Machine
end

section
/-!
PROOF. Stores to shares (R60, R103, R260): the bytes of their slots change alone, and memory does not.
-/
namespace Sys2Proof.Machine

theorem team_found {s : State} {k : Nat} (h : (s.team k).size ≠ 0) : (find k s.teams).isSome = true := by
  cases hf : find k s.teams with
  | some x => rfl
  | none =>
    refine absurd ?_ h
    unfold State.team get
    rw [hf]
    rfl

/-- A store to a share that has bytes writes there alone. -/
theorem sstore_scratch {s : State} (a : Agent) {k : Nat} (h : (s.team k).size ≠ 0) (off n v j : Nat) :
    ((s.sstore a k off n v).team j).scratch = if k = j then writeN (s.team j).scratch off n v else (s.team j).scratch := by
  have quiet : ∀ (t : State) (x y : Nat), Touched false t (((t.raisePts a x).checkTime x).note a (chunkKey k off) false true y) :=
    fun t x y => ((Touched.raisePts _ _ _).trans (Touched.checkTime _ _)).trans (Touched.note _ _ _ _ _ _)
  unfold State.sstore
  dsimp only
  rw [((quiet _ _ _).shares rfl j).1, State.team_onTeam]
  by_cases hj : j = k
  · subst hj
    rw [if_pos ⟨rfl, team_found h⟩, if_pos rfl]
    unfold Team.write Team.setClock
    dsimp only
    split <;> rfl
  · rw [if_neg (fun e => hj e.1), if_neg (fun e => hj e.symm)]

theorem Touched.size {b : Bool} {s t : State} (h : Touched b s t) (k : Nat) : (t.team k).size = (s.team k).size := by
  rw [h.team k]

/-- The slots of a team as the runs of bytes that their stores write. -/
def slotRuns (n : Nat) (data : Slot → Nat) (j : Nat) (xs : List Slot) : List Run :=
  (xs.filter (fun x => decide (x.team = j))).map (fun x => (x.off, data x % 2 ^ (8 * n)))

theorem sstoreSlots_scratch (a : Agent) (n : Nat) (data : Slot → Nat) (j : Nat) (xs : List Slot) {s : State}
    (h : ∀ x ∈ xs, (s.team x.team).size ≠ 0) :
    ((State.sstoreSlots a n data s xs).team j).scratch = writeRuns n (slotRuns n data j xs) (s.team j).scratch := by
  induction xs generalizing s with
  | nil => rfl
  | cons x xs ih =>
    unfold State.sstoreSlots
    rw [ih (fun y hy => by rw [(Touched.sstore s a _ _ _ _).size]; exact h y (List.mem_cons_of_mem _ hy)),
      sstore_scratch a (h x List.mem_cons_self)]
    unfold slotRuns
    by_cases hx : x.team = j
    · rw [if_pos hx, List.filter_cons_of_pos (by simpa using hx)]
      rfl
    · rw [if_neg hx, List.filter_cons_of_neg (by simpa using hx)]

theorem Touched.sstoreSlots (a : Agent) (n : Nat) (data : Slot → Nat) (xs : List Slot) (s : State) :
    Touched true s (State.sstoreSlots a n data s xs) := by
  induction xs generalizing s with
  | nil => exact .refl true s
  | cons x xs ih => exact (Touched.sstore _ _ _ _ _ _).trans (ih _)

/-- Without a recording a store to a share logs nothing in memory. -/
theorem SameMem.sstoreSlots {a : Agent} (n : Nat) (data : Slot → Nat) (xs : List Slot) {s : State} (hrec : s.recording a.ctx = false)
    (hrep : s.replaying a.ctx = false) : SameMem s (State.sstoreSlots a n data s xs) := by
  induction xs generalizing s with
  | nil => exact ⟨rfl, rfl⟩
  | cons x xs ih =>
    have hx : SameMem s (s.sstore a x.team x.off n (data x % 2 ^ (8 * n))) := by
      unfold State.sstore
      dsimp only
      have htime : ∀ (t : State) (y : Nat), SameMem t ((t.raisePts a y).checkTime y) := fun t y =>
        SameMem.trans (t := t.raisePts a y) ⟨rfl, rfl⟩ (SameMem.checkTime _ _)
      have hteam : ∀ f : Team → Team, SameMem s (s.onTeam x.team f) := fun _ => ⟨rfl, rfl⟩
      have hsame := fun f y => (hteam f).trans (htime (s.onTeam x.team f) y)
      rw [Loads.note_idle ((traces_recording (hsame _ _).2 _).1.trans hrec) ((traces_recording (hsame _ _).2 _).2.trans hrep)]
      exact hsame _ _
    exact hx.trans (ih ((traces_recording hx.2 _).1.trans hrec) ((traces_recording hx.2 _).2.trans hrep))

theorem szBytes_pos (sz : Sz) : 0 < szBytes sz := by cases sz <;> decide

theorem regs_pos (sz : Sz) : 0 < sz.regs := by cases sz <;> decide

/-- A slot of an access of some bytes lies in a share that has bytes. -/
theorem size_of_slot {s : State} {k : Nat} {m : Lanes} {va : Nat → Word} {n : Nat} (hn : 0 < n) {x : Slot} (h : x ∈ s.slots k m va n) :
    (s.team x.team).size ≠ 0 := by
  obtain ⟨i, -, hx⟩ := List.mem_flatMap.mp h
  split at hx
  · cases hx
  · next p hp =>
    obtain ⟨j, -, rfl⟩ := List.mem_map.mp hx
    unfold State.inShare at hp
    split at hp
    · cases hp
    · split at hp
      · next hle =>
        cases hp
        show (s.team p.1).size ≠ 0
        omega
      · cases hp

/-- A byte outside every slot of a share stays. -/
theorem slotRuns_outside {n j a : Nat} (data : Slot → Nat) {xs : List Slot} (h : ∀ q ∈ xs, q.team = j → a < q.off ∨ q.off + n ≤ a) :
    ∀ r ∈ slotRuns n data j xs, a < r.1 ∨ r.1 + n ≤ a := by
  intro r hr
  obtain ⟨q, hq, rfl⟩ := List.mem_map.mp hr
  obtain ⟨hq, hj⟩ := List.mem_filter.mp hq
  exact h q hq (by simpa using hj)

/-- The slots of a share lie apart if those of all shares do. -/
theorem slotRuns_apart {n j : Nat} (data : Slot → Nat) {xs : List Slot}
    (h : xs.Pairwise (fun q r => q.team = r.team → q.off + n ≤ r.off ∨ r.off + n ≤ q.off)) :
    (slotRuns n data j xs).Pairwise (fun q r => q.1 + n ≤ r.1 ∨ r.1 + n ≤ q.1) := by
  refine List.pairwise_map.mpr ((List.Pairwise.filter _ h).imp_of_mem (fun hq hr hapart => hapart ?_))
  have hq := (List.mem_filter.mp hq).2
  have hr := (List.mem_filter.mp hr).2
  simp only [decide_eq_true_eq] at hq hr
  exact hq.trans hr.symm

theorem mem_slotRuns {n : Nat} (data : Slot → Nat) {xs : List Slot} {q : Slot} (h : q ∈ xs) :
    (q.off, data q % 2 ^ (8 * n)) ∈ slotRuns n data q.team xs :=
  List.mem_map_of_mem (List.mem_filter.mpr ⟨h, by simp⟩)

end Sys2Proof.Machine
end

section
/-!
PROOF. Stores begin (R92, R259-R261): obligation O26.
-/
namespace Sys2Proof.Machine

section

variable {s : State} {c : Nat} {x : Issue} {m : Member}

theorem topM_le {mo : MemOp} {n : Nat} (hb : Reg.fits mo.base n) (hi : Reg.fits mo.index n) : topM mo ≤ n :=
  Nat.max_le.mpr ⟨topR_le hb, topR_le hi⟩

theorem st_begins (h : Sole s c x m) {g : Guard} {ll : Ll} {sz : Sz} {d : Reg} {mo : MemOp}
    (htop : maxOf [topR d sz.regs, topM mo] ≤ (m.group s).n) (hll : m.canCount s g ll) (hreq : m.canRequest s c g)
    (hfault : ∀ i, i < 64 → (m.active s g &&& ~~~(m.group s).helper).getLsbD i = true →
      s.memFault (m.agent s c) .write false ((m.group s).memAddr mo i) (szBytes sz) = none) {hs : List Hit}
    (hhs : hs = s.hits (m.agent s c) .write (m.active s g &&& ~~~(m.group s).helper) ((m.group s).memAddr mo) (szBytes sz))
    (howned : s.ownedHits (m.agent s c) false hs = []) :
    Ends c x m 0 (exec (.st g ll sz d mo) s) (fun u => Accessed false s u m ∧
      Began (m.at_ s u) (m.group u) m.lanes (m.active s g) ll Pend.access ∧
      ((∀ q ∈ hs, s.Plain (s.ctxOf m.team) q.spot.cls q.spot.addr (wordBytes (szBytes sz))) →
        u.mem = writeRuns (wordBytes (szBytes sz)) (hitRuns (wordBytes (szBytes sz))
          (fun q => ((m.group s).runReg d q.k q.lane).toNat) hs) s.mem)) := by
  let sh : Shape := { g := g, top := maxOf [topR d sz.regs, topM mo], ll := some ll, mem := true, reqs := true, acc := true }
  let data := fun q : Hit => ((m.group s).runReg d q.k q.lane).toNat
  have sight := Sight.begun h sh
  refine access_begins h sh _ (Touched.storeHits (a := m.agent s c) rfl (wordBytes (szBytes sz)) data hs _) rfl hll (fun _ => hreq) rfl
    (atLeast_user _) htop Pend.access ?_ (fun hplain => ?_)
  · have hgroup : (s.env c x m sh.g).group (s.begun sh c x m) = m.begun s sh := begun_group h sh
    simp only [hgroup, begun_memAddr, begun_runReg, Group.real, begun_helper, sight.memFault, sight.hits, sight.ownedHits,
      show (s.env c x m sh.g).agent = m.agent s c from rfl, show (s.env c x m sh.g).act = m.active s g from rfl]
    rw [laneFaults_none hfault, ← hhs, howned, checked_next]
  · have hmem := storeHits_mem (a := m.agent s c) rfl (wordBytes (szBytes sz)) data hs (s := s.begun sh c x m)
      (fun q hq => (hplain q hq).alike sight.alike) ((sight.alike.replaying _).trans h.live)
    rw [sight.alike.mem] at hmem
    exact hmem

theorem sts_begins (h : Sole s c x m) {g : Guard} {ll : Ll} {sz : Sz} {d : Reg} {mo : MemOp}
    (htop : maxOf [topR d sz.regs, topM mo] ≤ (m.group s).n) (hll : m.canCount s g ll)
    (hfault : ∀ i, i < 64 → (m.active s g &&& ~~~(m.group s).helper).getLsbD i = true →
      s.shareFault m.team false ((m.group s).memAddr mo i) (szBytes sz) = none) {xs : List Slot}
    (hxs : xs = s.slots m.team (m.active s g &&& ~~~(m.group s).helper) ((m.group s).memAddr mo) (szBytes sz))
    (habsent : s.absentLines (xs.map (fun y => (y.team, y.off, wordBytes (szBytes sz)))) = none) :
    Ends c x m 0 (exec (.sts g ll sz d mo) s) (fun u => Accessed true s u m ∧
      Began (m.at_ s u) (m.group u) m.lanes (m.active s g) ll Pend.zero ∧
      (s.recording (s.ctxOf m.team) = false → u.mem = s.mem) ∧
      ∀ n, (u.team n).scratch = writeRuns (wordBytes (szBytes sz)) (slotRuns (wordBytes (szBytes sz))
        (fun q => ((m.group s).runReg d q.k q.lane).toNat) n xs) (s.team n).scratch) := by
  let sh : Shape := { g := g, top := maxOf [topR d sz.regs, topM mo], ll := some ll, mem := true, acc := true }
  let data := fun q : Slot => ((m.group s).runReg d q.k q.lane).toNat
  have sight := Sight.begun h sh
  have hfield := fun {α : Type} => begun_team_field (α := α) s sh c x m
  refine access_begins h sh _ (Touched.sstoreSlots (m.agent s c) (wordBytes (szBytes sz)) data xs _) rfl hll
    (by simp [State.roomFor, sh]) rfl (atLeast_user _) htop Pend.zero ?_ ⟨fun hrec => ?_, fun n => ?_⟩
  · have hgroup : (s.env c x m sh.g).group (s.begun sh c x m) = m.begun s sh := begun_group h sh
    simp only [hgroup, begun_memAddr, begun_runReg, Group.real, begun_helper, begun_shareFault, begun_slots, begun_absentLines,
      show (s.env c x m sh.g).team = m.team from rfl,
      show (s.env c x m sh.g).agent = m.agent s c from rfl, show (s.env c x m sh.g).act = m.active s g from rfl]
    rw [laneFaults_none hfault, ← hxs, habsent]
  · have hmem := (SameMem.sstoreSlots (a := m.agent s c) (wordBytes (szBytes sz)) data xs (s := s.begun sh c x m)
      ((sight.alike.recording _).trans hrec) ((sight.alike.replaying _).trans h.live)).1
    exact hmem.trans sight.alike.mem
  · have hscratch := sstoreSlots_scratch (m.agent s c) (wordBytes (szBytes sz)) data n xs (s := s.begun sh c x m) (fun q hq => by
      rw [hfield (·.size) (fun _ => rfl)]
      rw [hxs] at hq
      exact size_of_slot (szBytes_pos sz) hq)
    rw [hfield (·.scratch) (fun _ => rfl)] at hscratch
    exact (congrArg Team.scratch (onGroup_team_rest _ m.team m.grp (fun g => (g.begin ll (m.active s sh.g) Pend.zero).1) n) :).trans
      hscratch

theorem stt_begins (h : Sole s c x m) {g : Guard} {ll : Ll} {d : Reg} {hd : SReg} {cr : Reg}
    (htop : maxOf [topR d 1, topR cr 3] ≤ (m.group s).n) (hll : m.canCount s g ll) (hreq : m.canRequest s c g) {r : BitVec 768}
    (hr : s.resolve (s.ctxOf m.team) ((m.group s).sreg hd.toNat) = some r) (hwrite : r.getLsbD 25 = true) {at_ : Nat → List Int}
    (hat : at_ = fun i => ((m.group s).coords cr i).take (recRank r))
    (hsound : ∀ i, i < 64 → (m.active s g &&& ~~~(m.group s).helper).getLsbD i = true →
      s.elementFault (m.agent s c) .write r (at_ i) = none ∧ s.elementOwned (m.agent s c) .write r (at_ i) = []) :
    Ends c x m 0 (exec (.stt g ll d hd cr) s) (fun u => Accessed false s u m ∧
      Began (m.at_ s u) (m.group u) m.lanes (m.active s g) ll { Pend.access with uses := some ((m.group s).sreg hd.toNat) } ∧
      ∃ b : State, Alike s b ∧ u.mem = (b.storePieces (m.agent s c) r (fun i => (elementAt r (at_ i)).2)
        (fun i => ((m.group s).reg d i).toNat % 2 ^ recEs r)
        (s.pieces (m.agent s c) r (m.active s g &&& ~~~(m.group s).helper) at_)).mem) := by
  let sh : Shape := { g := g, top := maxOf [topR d 1, topR cr 3], ll := some ll, mem := true, reqs := true, acc := true }
  have sight := Sight.begun h sh
  refine access_begins h sh _ (Touched.storePieces (a := m.agent s c) rfl r (fun i => (elementAt r (at_ i)).2)
    (fun i => ((m.group s).reg d i).toNat % 2 ^ recEs r) _
    (s.pieces (m.agent s c) r (m.active s g &&& ~~~(m.group s).helper) at_)) rfl hll (fun _ => hreq) rfl (atLeast_user _) htop
    { Pend.access with uses := some ((m.group s).sreg hd.toNat) } ?_ ⟨s.begun sh c x m, sight.alike, rfl⟩
  have hgroup : (s.env c x m sh.g).group (s.begun sh c x m) = m.begun s sh := begun_group h sh
  have hhandle : (s.begun sh c x m).handle (s.env c x m sh.g) ((m.group s).sreg hd.toNat) 1 (some (25, 9)) = .ok r := by
    unfold State.handle
    rw [sight.alike.resolve, show (s.env c x m sh.g).ctx = s.ctxOf m.team from rfl, hr]
    exact if_pos hwrite
  have hcoords : (m.begun s sh).coords = (m.group s).coords := by
    unfold Group.coords
    rw [begun_runReg]
  have howned : (lanesOf (m.active s g &&& ~~~(m.group s).helper)).flatMap (fun i => s.elementOwned (m.agent s c) .write r (at_ i)) = [] :=
    List.flatMap_eq_nil_iff.mpr (fun i hi => (hsound i (mem_lanesOf.mp hi).1 (mem_lanesOf.mp hi).2).2)
  subst hat
  simp only [hgroup, begun_sreg, begun_reg, hhandle, hcoords, Group.real, begun_helper, sight.elementFault, sight.elementOwned,
    sight.pieces, show (s.env c x m sh.g).agent = m.agent s c from rfl, show (s.env c x m sh.g).act = m.active s g from rfl]
  rw [laneFaults_none (fun i hi hm => (hsound i hi hm).1), howned, checked_next]
  rfl

end

end Sys2Proof.Machine

open Sys2Proof Sys2Proof.Machine

/-- Settles O26: stores at issue leave the runs of bytes of their hits, slots and pieces, and nothing beside them. -/
theorem storesBegin : Obligations.StoresBegin := by
  intro s c x m h g ll sz d mo hd cr hdata hbase hindex hcoords hll hreq
  have htop : maxOf [topR d sz.regs, topM mo] ≤ (m.group s).n := maxOf_le (by
    simp only [List.forall_mem_cons]
    exact ⟨topR_run_le (regs_pos sz) (fun q e j hj => by subst e; exact hdata j hj), topM_le hbase hindex, by simp⟩)
  refine ⟨?st, ?sts, ?stt⟩
  case st =>
    intro hfault hs howned
    refine (st_begins h htop hll hreq hfault rfl howned).mono (fun u => ?_)
    rintro ⟨hacc, hbegan, hmem⟩
    refine ⟨hacc, hbegan, fun hplain => ?_⟩
    rw [hmem hplain]
    refine ⟨fun a ha => get_writeRuns_outside (by simpa [hitRuns] using ha) _, fun hapart q hq j hj => ?_⟩
    exact (get_writeRuns_apart (hitRuns_apart _ hapart) (mem_hitRuns _ hq) hj _).trans (byte_of_low _ hj)
  case sts =>
    intro hfault xs habsent
    refine (sts_begins h htop hll hfault rfl habsent).mono (fun u => ?_)
    rintro ⟨hacc, hbegan, hmem, hscratch⟩
    refine ⟨hacc, hbegan, hmem, fun n a ha => ?_, fun hapart q hq j hj => ?_⟩
    · rw [hscratch]
      exact get_writeRuns_outside (slotRuns_outside _ ha) _
    · rw [hscratch]
      exact (get_writeRuns_apart (slotRuns_apart _ hapart) (mem_slotRuns _ hq) hj _).trans (byte_of_low _ hj)
  case stt =>
    intro r hr hwrite at_ places hsound
    have htop' : maxOf [topR d 1, topR cr 3] ≤ (m.group s).n := maxOf_le (by
      simp only [List.forall_mem_cons]
      refine ⟨topR_one_le (fun q e => ?_), topR_run_le (by decide) (fun q e j hj => ?_), by simp⟩
      · subst e
        exact hdata 0 (regs_pos sz)
      · subst e
        exact hcoords j hj)
    refine (stt_begins h htop' hll hreq hr hwrite rfl hsound).mono (fun u => ?_)
    rintro ⟨hacc, hbegan, b, halike, hmem⟩
    refine ⟨hacc, hbegan, fun hplain => ?_⟩
    have hrep : b.replaying (s.ctxOf m.team) = false := (halike.replaying _).trans h.live
    rw [hmem, ← halike.mem]
    refine ⟨fun a ha => ?_, fun i p hone hi hp hes => ?_⟩
    · refine storePieces_outside (a := m.agent s c) rfl (fun y hy => ?_) hrep (fun y hy => ?_)
      · obtain ⟨i, hi, hreal, hp⟩ := mem_pieces hy
        exact (hplain i (y.spot, y.n) hi hreal hp).alike halike
      · obtain ⟨i, hi, hreal, hp⟩ := mem_pieces hy
        exact ha i (y.spot, y.n) hi hreal hp
    · obtain ⟨hlen, hpieces⟩ := pieces_single hi hone hes hp
      rw [hpieces]
      refine (storePieces_single (a := m.agent s c) rfl _ hes hlen ((hplain i p hi ((hone i hi).mpr rfl) hp).alike halike) hrep).trans ?_
      exact Nat.mod_mod _ _
end

section
/-!
PROOF. Integer arithmetic, moves, logic, shifts, fields, selection and addresses (R115, R232-R237): obligation O9.
-/
namespace Sys2Proof.Machine

variable {s : State} {c : Nat} {x : Issue} {m : Member}

/-! ### A vector register from value sources -/

section sources

variable (h : Sole s c x m) (g : Guard) {d : VReg} (hd : d.toNat < (m.group s).n)
include h hd

/-- A constant in every active lane. -/
theorem vecConst_does (w : Word) : DoesV s c x m g (.next (s.vecV g 0 d (fun _ _ => w))) d (fun _ => w) :=
  vecV_does h g 0 d _ (fun _ => rfl) (Nat.zero_le _) hd

variable {a : Reg} (ha : Reg.fits a (m.group s).n)
include ha

theorem vec1_does (f : Word → Word) : DoesV s c x m g (.next (s.vec1 g d a f)) d (fun i => f ((m.group s).reg a i)) :=
  vecV_does h g (topR a 1) d (fun k i => f (k.reg a i)) (fun sh => by rw [begun_reg]) (topR_le ha) hd

theorem vec2_does {o : Opnd} (ho : Opnd.fits o (m.group s).n) (ty : Ty) (f : Word → Word → Word) :
    DoesV s c x m g (.next (s.vec2 g ty d a o f)) d (fun i => f ((m.group s).reg a i) ((m.group s).opnd ty o i)) :=
  vecV_does h g (maxOf [topR a 1, topO o]) d (fun k i => f (k.reg a i) (k.opnd ty o i))
    (fun sh => by rw [begun_reg, begun_opnd]) (maxOf_le (by simpa using ⟨topR_le ha, topO_le ho⟩)) hd

variable {b : Reg} (hb : Reg.fits b (m.group s).n)
include hb

theorem vec3_does {o : Opnd} (ho : Opnd.fits o (m.group s).n) (ty : Ty) (f : Word → Word → Word → Word) :
    DoesV s c x m g (.next (s.vec3 g ty d a b o f)) d
      (fun i => f ((m.group s).reg a i) ((m.group s).reg b i) ((m.group s).opnd ty o i)) :=
  vecV_does h g (maxOf [topR a 1, topR b 1, topO o]) d (fun k i => f (k.reg a i) (k.reg b i) (k.opnd ty o i))
    (fun sh => by rw [begun_reg, begun_opnd]) (maxOf_le (by simpa using ⟨topR_le ha, topR_le hb, topO_le ho⟩)) hd

end sources

/-! ### Instructions beside those shapes -/

/-- The high half of a register from a literal; its low half stays (R237). -/
theorem liHi_does (h : Sole s c x m) (g : Guard) (ty : Ty) {d : VReg} (hd : d.toNat < (m.group s).n) (y : W32) :
    DoesV s c x m g (exec (.liHi g ty d y) s) d (fun i => y ++ ((m.group s).vreg d.toNat i).setWidth 32) :=
  vecV_does h g 0 d (fun k i => y ++ (k.vreg d.toNat i).setWidth 32) (fun sh => by rw [begun_vreg]) (Nat.zero_le _) hd

/-- The low six bits of a count are its residue modulo 64. -/
theorem bits_low_six (y : Word) : bits y 0 6 = y.toNat % 64 := by
  simp [bits, BitVec.extractLsb'_toNat]

theorem rotL_low_six (w y : Word) : rotL w (bits y 0 6) = w.rotateLeft (y.toNat % 64) := by
  rw [bits_low_six, rotL, Nat.mod_mod]

theorem rotR_low_six (w y : Word) : rotR w (bits y 0 6) = w.rotateRight (y.toNat % 64) := by
  rw [bits_low_six, rotR, Nat.mod_mod]

/-- The offset of an address: a literal extended by its sign, or none (R236). -/
def leaOffset (off : Option W32) : Word :=
  match off with
  | some y => y.signExtend 64
  | none => 0

section beside

variable (h : Sole s c x m) (g : Guard) {d : VReg} (hd : d.toNat < (m.group s).n) {a : Reg} (ha : Reg.fits a (m.group s).n)
include h hd ha

theorem rotLeft_does {o : Opnd} (ho : Opnd.fits o (m.group s).n) : DoesV s c x m g (exec (.rot g false d a o) s) d
    (fun i => ((m.group s).reg a i).rotateLeft (((m.group s).opnd .b64 o i).toNat % 64)) := by
  simp only [← rotL_low_six]
  exact vec2_does h g hd ha ho .b64 (fun w y => rotL w (bits y 0 6))

theorem rotRight_does {o : Opnd} (ho : Opnd.fits o (m.group s).n) : DoesV s c x m g (exec (.rot g true d a o) s) d
    (fun i => ((m.group s).reg a i).rotateRight (((m.group s).opnd .b64 o i).toNat % 64)) := by
  simp only [← rotR_low_six]
  exact vec2_does h g hd ha ho .b64 (fun w y => rotR w (bits y 0 6))

variable {b : Reg} (hb : Reg.fits b (m.group s).n)
include hb

theorem sel_does (pc : PReg) : DoesV s c x m g (exec (.sel g d a b pc) s) d
    (fun i => if (m.group s).preg pc.toNat i then (m.group s).reg a i else (m.group s).reg b i) :=
  vecV_does h g (maxOf [topR a 1, topR b 1]) d (fun k i => if k.preg pc.toNat i then k.reg a i else k.reg b i)
    (fun sh => by rw [begun_preg, begun_reg]) (maxOf_le (by simpa using ⟨topR_le ha, topR_le hb⟩)) hd

theorem lea_does (scl : BitVec 2) (off : Option W32) : DoesV s c x m g (exec (.lea g scl d a b off) s) d
    (fun i => (m.group s).reg a i + ((m.group s).reg b i <<< scl.toNat) + leaOffset off) :=
  vecV_does h g (maxOf [topR a 1, topR b 1]) d (fun k i => k.reg a i + (k.reg b i <<< scl.toNat) + leaOffset off)
    (fun sh => by rw [begun_reg]) (maxOf_le (by simpa using ⟨topR_le ha, topR_le hb⟩)) hd

end beside

/-! ### `IADDX` (R236) -/

/-- The sum of two sources and of the carry in, before it is wrapped. -/
def Group.carrySum (k : Group) (nc : Bool) (a b : Reg) (pci : PReg) (i : Nat) : Nat :=
  (k.reg a i).toNat + (k.reg b i).toNat + (if nc = false ∧ k.preg pci.toNat i = true then 1 else 0)

/-- The sum as `IADDX` forms it where its effect finds the group. -/
theorem begun_carrySum (s : State) (m : Member) (sh : Shape) (nc : Bool) (a b : Reg) (pci : PReg) :
    (fun i => ((m.begun s sh).reg a i).toNat + ((m.begun s sh).reg b i).toNat
      + (if !nc && (m.begun s sh).preg pci.toNat i then 1 else 0)) = (m.group s).carrySum nc a b pci := by
  funext i
  rw [begun_reg, begun_preg]
  cases nc <;> simp [Group.carrySum]

/-- A vector register and a predicate written in the lanes of a mask. -/
def Group.setSum (k : Group) (d : VReg) (pco : PReg) (act : Lanes) (sum : Nat → Nat) : Group :=
  (k.setVs d.toNat act (fun i => BitVec.ofNat 64 (sum i))).setPs pco.toNat act (fun i => decide (2 ^ 64 ≤ sum i))

section sum

variable (k : Group) (d : VReg) (pco : PReg) (act : Lanes) (sum : Nat → Nat)

theorem setSum_rest : k.setSum d pco act sum =
    { k with v := (k.setSum d pco act sum).v, p := (k.setSum d pco act sum).p, pend := (k.setSum d pco act sum).pend } := by
  unfold Group.setSum
  rw [setPs_rest, setVs_rest]

theorem setSum_keeps : KeepsPends k (k.setSum d pco act sum) := (setVs_keeps _ _ _ _).trans (setPs_keeps _ _ _ _)

theorem setSum_vreg (r i : Nat) (hi : i < 64) : (k.setSum d pco act sum).vreg r i =
    if r = d.toNat ∧ act.getLsbD i = true then BitVec.ofNat 64 (sum i) else k.vreg r i := by
  unfold Group.setSum
  rw [setPs_rest]
  exact vreg_setVs k d.toNat act _ r i hi

theorem setSum_preg (q i : Nat) (hq : q < 16) (hi : i < 64) : (k.setSum d pco act sum).preg q i =
    if q = pco.toNat ∧ q ≠ 15 ∧ act.getLsbD i = true then decide (2 ^ 64 ≤ sum i) else k.preg q i := by
  unfold Group.setSum
  rw [preg_setPs _ _ pco.isLt _ _ _ _ hq hi, setVs_rest]
  rfl

end sum

theorem iaddx_does (h : Sole s c x m) (g : Guard) (nc : Bool) {d : VReg} (pco pci : PReg) {a b : Reg}
    (hd : d.toNat < (m.group s).n) (ha : Reg.fits a (m.group s).n) (hb : Reg.fits b (m.group s).n) :
    Does s c x m (exec (.iaddx g nc d pco a b pci) s) (fun k G =>
      G = { k with v := G.v, p := G.p, pend := G.pend } ∧ SamePends k G ∧
      (∀ r i, i < 64 → G.vreg r i = if r = d.toNat ∧ (m.active s g).getLsbD i = true then
        BitVec.ofNat 64 ((m.group s).carrySum nc a b pci i) else k.vreg r i) ∧
      (∀ q i, q < 16 → i < 64 → G.preg q i = if q = pco.toNat ∧ q ≠ 15 ∧ (m.active s g).getLsbD i = true then
        decide (2 ^ 64 ≤ (m.group s).carrySum nc a b pci i) else k.preg q i)) := by
  refine (leaves_of_run h { g := g, top := maxOf [topV d 1, topR a 1, topR b 1] } _
    (fun k => k.setSum d pco (m.active s g) ((m.group s).carrySum nc a b pci)) 0 (by simp) (by simp [State.roomFor]) rfl
    (atLeast_user _) ?top ?effect ?calls).mono (fun G hG => ?after)
  case top => exact maxOf_le (by simpa [topV] using ⟨hd, topR_le ha, topR_le hb⟩)
  case effect =>
    have group : ∀ sh, (s.env c x m g).group (s.begun sh c x m) = m.begun s sh := fun sh => begun_group h sh
    dsimp only
    rw [group, ← begun_carrySum s m { g := g, top := maxOf [topV d 1, topR a 1, topR b 1] }]
    rfl
  case calls => rw [setSum_rest]; exact h.calls
  case after =>
    rw [hG]
    refine ⟨?rest, (pends_of_begun (setSum_keeps _ _ _ _ _)).1, fun r i hi => ?vregs, fun q i hq hi => ?pregs⟩
    case rest => rw [setSum_rest, begun_eq_pend]
    case vregs => rw [setSum_vreg _ _ _ _ _ _ _ hi, begun_vreg]
    case pregs => rw [setSum_preg _ _ _ _ _ _ _ hq hi, begun_preg]

end Sys2Proof.Machine

open Sys2Proof Sys2Proof.Machine

/-- Settles O9: each result is a word function of the lane's sources, written by the shape its instruction shares with others. -/
theorem integerInstructionsComplete : Obligations.IntegerInstructionsComplete := by
  refine ⟨?arithmetic, ?fields, ?carries⟩
  case arithmetic =>
    intro s c x m h g ty sat d a b o hd ha hb ho r z
    have one := vec1_does h g hd ha
    have two := vec2_does h g hd ha ho ty
    refine ⟨one id, fun y => vecConst_does h g hd (liWord ty y), liHi_does h g ty hd, ?iadd, ?isub, ?imul, ?imulh, ?imad, ?imin, ?imax,
      ?iabs, ?ineg, fun op => vec2_does h g hd ha ho .b64 (logWord op)⟩
    case iadd => exact two (int2 ty sat (fun p q => p + q))
    case isub => exact two (int2 ty sat (fun p q => p - q))
    case imul => exact two (int2 ty sat (fun p q => p * q))
    case imulh => exact two (int2 ty false (mulHigh ty))
    case imad =>
      exact vec3_does h g hd ha hb ho ty (map3 ty (fun p q w => deliver ty sat (elemInt ty p * elemInt ty q + elemInt ty w)))
    case imin => exact two (int2 ty false min)
    case imax => exact two (int2 ty false max)
    case iabs => exact one (int1 ty sat (fun p => (p.natAbs : Int)))
    case ineg => exact one (int1 ty sat (fun p => -p))
  case fields =>
    intro s c x m h g ty d a b o hd ha hb ho r z w
    have one := vec1_does h g hd ha
    have two := vec2_does h g hd ha ho ty
    have three := vec3_does h g hd ha hb ho .b64
    refine ⟨?shl, ?shr, ?sar, rotLeft_does h g hd ha ho, rotRight_does h g hd ha ho, ?popc, ?clz, ?brev, ?bfe, ?bfi, ?bperm,
      sel_does h g hd ha hb, lea_does h g hd ha hb⟩
    case shl => exact two (map2 ty (shlNat ty.width))
    case shr => exact two (map2 ty (shrNat ty.width))
    case sar => exact two (map2 ty (sarNat ty.width))
    case popc => exact one (map1 ty (popNat ty.width))
    case clz => exact one (map1 ty (clzNat ty.width))
    case brev => exact one revWord
    case bfe => exact two (bfeWord ty.signed)
    case bfi => exact three bfiWord
    case bperm => exact three bpermWord
  case carries =>
    intro s c x m h g nc d pco pci a b hd ha hb
    exact iaddx_does h g nc pco pci hd ha hb
end

section
/-!
SUPPORT. Writes that an instruction will deliver, one entry after another: what is found of runs of registers and of predicates.
-/
namespace Sys2Proof.Machine

/-- Entries put into a table in order, of which all with the key asked for hold one value. -/
theorem find_foldl_put {α β : Type} (key : β → Nat) (val : β → α) (j : Nat) (w : α) (l : List β)
    (h : ∀ x ∈ l, key x = j → val x = w) (m : SMap α) :
    find j (l.foldl (fun m x => put (key x) (val x) m) m) = if ∃ x ∈ l, key x = j then some w else find j m := by
  induction l generalizing m with
  | nil => simp
  | cons x l ih =>
    rw [List.foldl_cons, ih (fun y hy => h y (List.mem_cons_of_mem _ hy)), find_put]
    by_cases hl : ∃ y ∈ l, key y = j
    · obtain ⟨y, hy, hk⟩ := hl
      rw [if_pos ⟨y, hy, hk⟩, if_pos ⟨y, List.mem_cons_of_mem _ hy, hk⟩]
    · rw [if_neg hl]
      by_cases hx : j = key x
      · rw [if_pos hx, if_pos ⟨x, List.mem_cons_self, hx.symm⟩, h x List.mem_cons_self hx.symm]
      · refine (if_neg hx).trans (if_neg ?_).symm
        rintro ⟨y, hy, hk⟩
        rcases List.mem_cons.mp hy with rfl | hy
        · exact hx hk.symm
        · exact hl ⟨y, hy, hk⟩

/-- The entries of a run of registers: of each lane, each value with its place in the run. -/
def runEntries (ls : List Nat) (f : Nat → List Nat) : List (Nat × Nat × Nat) := ls.flatMap (fun i => (f i).zipIdx.map (fun x => (i, x)))

theorem mem_runEntries {ls : List Nat} {f : Nat → List Nat} {y : Nat × Nat × Nat} :
    y ∈ runEntries ls f ↔ y.1 ∈ ls ∧ (f y.1)[y.2.2]? = some y.2.1 := by
  obtain ⟨i, v, k⟩ := y
  simp only [runEntries, List.mem_flatMap, List.mem_map, Prod.mk.injEq]
  constructor
  · rintro ⟨_, hi, x, hx, rfl, rfl⟩
    exact ⟨hi, List.mk_mem_zipIdx_iff_getElem?.mp hx⟩
  · rintro ⟨hi, hv⟩
    exact ⟨i, hi, (v, k), List.mk_mem_zipIdx_iff_getElem?.mpr hv, rfl, rfl⟩

theorem runWrites_eq (d : Nat) (m : Lanes) (f : Nat → List Nat) : runWrites d m f =
    (runEntries (lanesOf m) f).foldl (fun w y => put ((d + y.2.2) * 64 + y.1) (BitVec.ofNat 64 y.2.1) w) [] := by
  unfold runWrites runEntries
  rw [List.foldl_flatMap]
  refine List.foldl_ext _ _ _ (fun w i hi => ?_)
  rw [List.foldl_map]

/-- A register that a run writes in a lane. -/
theorem find_runWrites (d : Nat) {m : Lanes} {f : Nat → List Nat} {i k v : Nat} (hi : i < 64) (hm : m.getLsbD i = true)
    (hv : (f i)[k]? = some v) : find ((d + k) * 64 + i) (runWrites d m f) = some (BitVec.ofNat 64 v) := by
  rw [runWrites_eq, find_foldl_put (w := BitVec.ofNat 64 v),
    if_pos ⟨(i, v, k), mem_runEntries.mpr ⟨mem_lanesOf.mpr ⟨hi, hm⟩, hv⟩, rfl⟩]
  rintro ⟨j, u, l⟩ hy hkey
  obtain ⟨hj, hu⟩ := mem_runEntries.mp hy
  have hj64 := (mem_lanesOf.mp hj).1
  dsimp only at hkey hu ⊢
  obtain rfl : j = i := by omega
  obtain rfl : l = k := by omega
  rw [hv] at hu
  rw [Option.some.inj hu]

theorem find_pWrites {p : Nat} (hp : p ≠ 15) {m : Lanes} (f : Nat → Bool) {i : Nat} (hi : i < 64) (hm : m.getLsbD i = true) :
    find (p * 64 + i) (pWrites p m f) = some (f i) := by
  unfold pWrites
  rw [if_neg hp, find_foldl_put (w := f i), if_pos ⟨i, mem_lanesOf.mpr ⟨hi, hm⟩, rfl⟩]
  intro j hj hkey
  obtain rfl : j = i := by omega
  rfl

end Sys2Proof.Machine
end

section
/-!
PROOF. Tests of boxes and triangles (R154, R155, R309): obligation O42.
-/
namespace Sys2Proof.Machine

variable {s : State} {c : Nat} {x : Issue} {m : Member}

theorem begun_rayComp (s : State) (m : Member) (sh : Shape) : (m.begun s sh).rayComp = (m.group s).rayComp := by
  funext a i k
  unfold Group.rayComp
  rw [begun_vreg]

/-- An instruction has begun that will write the registers and the predicate that a test gives each active lane. -/
def TestsBegun (s : State) (m : Member) (g : Guard) (ll : Ll) (d : VReg) (po : PReg) (f : State → Group → Nat → List Nat × Bool)
    (h G : Group) : Prop :=
  ∃ vw pw, Began h G m.lanes (m.active s g) ll { Pend.zero with vw := vw, pw := pw } ∧
    ∃ u, ∀ i, i < 64 → (m.active s g).getLsbD i = true →
      (∀ k v, (f u h i).1[k]? = some v → find ((d.toNat + k) * 64 + i) vw = some (BitVec.ofNat 64 v)) ∧
      (po ≠ 15 → find (po.toNat * 64 + i) pw = some (f u h i).2)

theorem laneTests_do (h : Sole s c x m) (g : Guard) (ll : Ll) (top : Nat) (d : VReg) (po : PReg)
    (f : State → Group → Nat → List Nat × Bool) (hc : m.canCount s g ll) (hf : ∀ u sh, f u (m.begun s sh) = f u (m.group s))
    (ht : top ≤ (m.group s).n) : Does s c x m (.next (s.run { g := g, top := top, ll := some ll } (fun e u =>
      .go (e.begin u ll (testWrites d.toNat po e.act (f u (e.group u)))))))
      (TestsBegun s m g ll d po f) := by
  let sh : Shape := { g := g, top := top, ll := some ll }
  let u := s.begun sh c x m
  have group : (s.env c x m g).group u = m.begun s sh := begun_group h sh
  refine (leaves_of_run h sh _ (fun k => (k.begin ll (m.active s g)
      (testWrites d.toNat po (m.active s g) (f u (m.group s)))).1) 0
    (by intro l hl; cases hl; exact hc) (by simp [State.roomFor, sh]) rfl (atLeast_user _) ht ?effect ?calls).mono (fun G hG => ?after)
  case effect =>
    show Res.ok _ 0 = _
    rw [group, hf]
    rfl
  case calls => rw [begin_calls]; exact begun_calls h _
  case after =>
    refine ⟨_, _, hG ▸ began_begin s m sh ll _ _, u,
      fun i hi hact => ⟨fun k v hv => find_runWrites d.toNat hi hact hv, fun hpo => ?_⟩⟩
    exact find_pWrites (fun e => hpo (BitVec.eq_of_toNat_eq e)) _ hi hact

/-- The ray of a lane's registers ends at once (R154). -/
def Group.laneVoid (k : Group) (a i : Nat) : Bool :=
  let c := k.rayComp a i
  rayVoid [c 0, c 1, c 2] [c 4, c 5, c 6] (c 3) (c 7)

/-- The test of the box in a lane's registers (R154). -/
def Group.laneBox (k : Group) (a b i : Nat) : Tested (Nat × Nat) :=
  let c := k.rayComp a i
  let q := k.rayComp b i
  boxTest [c 0, c 1, c 2] [c 4, c 5, c 6] (c 3) (c 7) { lo := [q 0, q 1, q 2], hi := [q 3, q 4, q 5] }

/-- The test of the triangle in a lane's registers (R155). -/
def Group.laneTri (k : Group) (a b i : Nat) : Tested (Nat × Nat × Nat) :=
  let c := k.rayComp a i
  let q := k.rayComp b i
  triTest [c 0, c 1, c 2] [c 4, c 5, c 6] [[q 0, q 1, q 2], [q 3, q 4, q 5], [q 6, q 7, q 8]]

/-- What `BOXT` gives a lane: near and far bounds as a pair of FP32 values, and whether the box is hit (R309). -/
def boxGives (a b : Nat) (u : State) (k : Group) (i : Nat) : List Nat × Bool :=
  if k.laneVoid a i then ([inf32 + ninf32 * 2 ^ 32], false)
  else
    match k.laneBox a b i with
    | .hit n => ([n.1 + n.2 * 2 ^ 32], true)
    | .miss => ([inf32 + ninf32 * 2 ^ 32], false)
    | .free => ([freeWord (u.free (2 * i)) 64], freeWord (u.free (2 * i + 1)) 1 == 1)

/-- What `TRIT` gives a lane: distance and weights, and whether the triangle is hit within the ray's bounds (R309). -/
def triGives (a b : Nat) (u : State) (k : Group) (i : Nat) : List Nat × Bool :=
  if k.laneVoid a i then ([0, 0], false)
  else
    match k.laneTri a b i with
    | .hit (t, w1, w2) =>
      if le32 (k.rayComp a i 3) t && le32 t (k.rayComp a i 7) then ([t, w1 + w2 * 2 ^ 32], true) else ([0, 0], false)
    | .miss => ([0, 0], false)
    | .free => ([freeWord (u.free (4 * i)) 32, freeWord (u.free (4 * i + 1)) 64], freeWord (u.free (4 * i + 2)) 1 == 1)

section gives

variable {a b i : Nat} {u : State} {k : Group}

theorem boxGives_none (h : k.laneVoid a i = true ∨ k.laneBox a b i = .miss) :
    boxGives a b u k i = ([inf32 + ninf32 * 2 ^ 32], false) := by
  unfold boxGives
  rcases h with hv | hmiss
  · rw [if_pos hv]
  · rw [hmiss, ite_self]

theorem boxGives_hit {n : Nat × Nat} (hv : k.laneVoid a i = false) (hhit : k.laneBox a b i = .hit n) :
    boxGives a b u k i = ([n.1 + n.2 * 2 ^ 32], true) := by
  unfold boxGives
  rw [hv, hhit]
  rfl

theorem triGives_none (h : k.laneVoid a i = true ∨ k.laneTri a b i = .miss) : triGives a b u k i = ([0, 0], false) := by
  unfold triGives
  rcases h with hv | hmiss
  · rw [if_pos hv]
  · rw [hmiss, ite_self]

theorem triGives_hit {t w1 w2 : Nat} (hv : k.laneVoid a i = false) (hhit : k.laneTri a b i = .hit (t, w1, w2)) :
    triGives a b u k i = if le32 (k.rayComp a i 3) t = true ∧ le32 t (k.rayComp a i 7) = true then ([t, w1 + w2 * 2 ^ 32], true)
      else ([0, 0], false) := by
  unfold triGives
  rw [hv, hhit]
  simp only [Bool.false_eq_true, if_false, Bool.and_eq_true]

end gives

theorem boxt_does (h : Sole s c x m) (g : Guard) (ll : Ll) (po : PReg) (d a b : VReg) (hc : m.canCount s g ll)
    (hd : d.toNat + 1 ≤ (m.group s).n) (ha : a.toNat + 4 ≤ (m.group s).n) (hb : b.toNat + 3 ≤ (m.group s).n) :
    Does s c x m (exec (.boxt g ll po d a b) s) (TestsBegun s m g ll d po (boxGives a.toNat b.toNat)) :=
  laneTests_do h g ll (maxOf [topV d 1, topV a 4, topV b 3]) d po (boxGives a.toNat b.toNat) hc
    (fun u sh => by unfold boxGives Group.laneVoid Group.laneBox; rw [begun_rayComp]) (maxOf_le (by simpa [topV] using ⟨hd, ha, hb⟩))

theorem trit_does (h : Sole s c x m) (g : Guard) (ll : Ll) (po : PReg) (d a b : VReg) (hc : m.canCount s g ll)
    (hd : d.toNat + 2 ≤ (m.group s).n) (ha : a.toNat + 4 ≤ (m.group s).n) (hb : b.toNat + 5 ≤ (m.group s).n) :
    Does s c x m (exec (.trit g ll po d a b) s) (TestsBegun s m g ll d po (triGives a.toNat b.toNat)) :=
  laneTests_do h g ll (maxOf [topV d 2, topV a 4, topV b 5]) d po (triGives a.toNat b.toNat) hc
    (fun u sh => by unfold triGives Group.laneVoid Group.laneTri; rw [begun_rayComp]) (maxOf_le (by simpa [topV] using ⟨hd, ha, hb⟩))

end Sys2Proof.Machine

open Sys2Proof Sys2Proof.Machine

/-- Settles O42: both tests begin in the form they share, and what each gives follows the cases of R309. -/
theorem rayTestsBegin : Obligations.RayTestsBegin := by
  intro s c x m h g ll po d a b hd ha hb hc act comp o dir void gives box tri
  have given : ∀ {vw : SMap Word} {pw : SMap Bool} {i : Nat} {r : List Nat × Bool} {ws : List Nat} {p : Bool},
      ((∀ k v, r.1[k]? = some v → find ((d.toNat + k) * 64 + i) vw = some (BitVec.ofNat 64 v)) ∧
        (po ≠ 15 → find (po.toNat * 64 + i) pw = some r.2)) → r = (ws, p) → gives vw pw i ws p := by
    rintro vw pw i _ ws p ⟨hv, hp⟩ rfl
    exact ⟨fun k hk => hv k _ (by rw [List.getD_eq_getElem _ _ hk, List.getElem?_eq_getElem hk]), hp⟩
  refine ⟨?boxt, ?trit⟩
  case boxt =>
    refine (boxt_does h g ll po d a b hc (by omega) ha (by omega)).mono ?_
    rintro G ⟨vw, pw, hbegan, u, hgives⟩
    exact ⟨vw, pw, hbegan, fun i hi hact => ⟨fun hnone => given (hgives i hi hact) (boxGives_none hnone),
      fun near far hv hhit => given (hgives i hi hact) (boxGives_hit hv hhit)⟩⟩
  case trit =>
    refine (trit_does h g ll po d a b hc hd ha hb).mono ?_
    rintro G ⟨vw, pw, hbegan, u, hgives⟩
    refine ⟨vw, pw, hbegan, fun i hi hact => ⟨fun hnone => given (hgives i hi hact) (triGives_none hnone), fun t w1 w2 hv hhit => ?_⟩⟩
    have hit := triGives_hit (u := u) hv hhit
    split
    · next within => exact given (hgives i hi hact) (hit.trans (if_pos within))
    · next beyond => exact given (hgives i hi hact) (hit.trans (if_neg beyond))
end

section
/-!
SUPPORT. What the accesses of an operation's engine leave (R101, R350): operations may gain translations and none is gone, and of a
group only its timestamp differs.
-/
namespace Sys2Proof.Machine

/-- No operation comes or goes from s to t. -/
def KeepsOps (s t : State) : Prop := ∀ id, (find id t.ops).isSome = (find id s.ops).isSome

/-- From s to t an engine has made accesses for its operation. -/
structure Worked (s t : State) : Prop where
  ops : KeepsOps s t
  group : ∀ n k, t.group n k = { s.group n k with gts := (t.group n k).gts }
  has : ∀ n k, t.has n k = s.has n k

namespace KeepsOps

theorem of_eq {s t : State} (h : t.ops = s.ops) : KeepsOps s t := fun id => by rw [h]

theorem trans {s t u : State} (h : KeepsOps s t) (k : KeepsOps t u) : KeepsOps s u := fun id => (k id).trans (h id)

theorem onOp (s : State) (j : Nat) (f : Op → Op) : KeepsOps s (s.onOp j f) := fun id => by
  rw [show (s.onOp j f).ops = adjust j f s.ops from rfl, find_adjust]
  split
  · exact Option.isSome_map
  · rfl

theorem found {s t : State} (h : KeepsOps s t) {id : Nat} {o : Op} (ho : find id s.ops = some o) : (find id t.ops).isSome = true := by
  rw [h id, ho]
  rfl

end KeepsOps

namespace Worked

variable {s t u : State}

theorem refl (s : State) : Worked s s := ⟨fun _ => rfl, fun _ _ => rfl, fun _ _ => rfl⟩

theorem trans (h : Worked s t) (k : Worked t u) : Worked s u :=
  ⟨h.ops.trans k.ops, fun n j => by rw [k.group n j, h.group n j], fun n j => (k.has n j).trans (h.has n j)⟩

theorem of_touched {b : Bool} (h : Touched b s t) : Worked s t := ⟨.of_eq h.ops, h.group, h.has⟩

theorem onOp (s : State) (j : Nat) (f : Op → Op) : Worked s (s.onOp j f) := ⟨.onOp s j f, fun _ _ => rfl, fun _ _ => rfl⟩

theorem holdLeaf (s : State) (op : Option Nat) (key : Nat) (f : Leaf) : Worked s (s.holdLeaf op key f) := by
  unfold State.holdLeaf
  split
  · exact refl s
  · split
    · exact refl s
    · exact onOp s _ _

theorem walked (s : State) (a : Agent) (va : Word) (p : Spot) : Worked s (s.walked a va p) := by
  have held := (of_touched (Touched.demand (b := false) s a.core p)).trans (holdLeaf _ a.op (tlbKey a.ctx va) p.leaf)
  unfold State.walked
  dsimp only
  split
  · exact held
  · refine held.trans (of_touched (b := false) ?_)
    exact ((Touched.foldl _ (fun s l => (Touched.demandLine s _ l).trans (Touched.homeClock _ a l)) _ _).trans
      (Touched.of_rest _ rfl)).trans (Touched.onCore _ _ _ (fun _ => rfl))

theorem sourceRead (s : State) (a : Agent) (va : Word) (n : Nat) : Worked s (s.sourceRead a va n).2.2.2 := by
  unfold State.sourceRead
  split
  · exact refl s
  · exact (walked s _ _ _).trans (of_touched (Touched.load (b := false) _ _ _ _ _ _))

theorem gstore (s : State) (a : Agent) (va : Word) (n v : Nat) : Worked s (s.gstore a va n v) := by
  unfold State.gstore
  split
  · exact refl s
  · exact (walked s _ _ _).trans (of_touched (Touched.store (b := false) _ _ _ _ _ _))

theorem listRmw (s : State) (a : Agent) (va : Word) (f : WList → WList) : Worked s (s.listRmw a va f) := by
  unfold State.listRmw
  split
  · exact refl s
  · exact (walked s _ _ _).trans (of_touched (Touched.rmw (b := false) _ _ _ _ _ _))

/-- Source reads in order. -/
theorem sourceReads (a : Agent) (n : Nat) (vas : List Word) (s : State) :
    Worked s (vas.foldl (fun (p : List Nat × State) va => (p.1 ++ [(p.2.sourceRead a va n).1], (p.2.sourceRead a va n).2.2.2)) ([], s)).2 :=
  foldl_keeps (fun p : List Nat × State => Worked s p.2) _ (fun _ _ h => h.trans (sourceRead _ _ _ _)) _ (refl s)

end Worked

theorem ops_releaseQuiet (s : State) (c set_ : Nat) (v : Word) : (s.releaseQuiet c set_ v).ops = s.ops := by
  rw [releaseQuiet_eq]

theorem ops_detect (s : State) (c : Nat) (old new : WList) (append : Bool) : (s.detect c old new append).ops = s.ops := by
  have first : ∀ (b : Prop) [Decidable b] (u : State) (v : Word), (if b then u.releaseQuiet c new.set v else u).ops = u.ops := by
    intro b _ u v
    split
    · exact ops_releaseQuiet _ _ _ _
    · rfl
  rw [detect_eq]
  unfold State.releaseDue
  exact (first _ _ _).trans (first _ _ _)

theorem KeepsOps.listAppend (s : State) (a : Agent) (va : Word) (l : WList) (its : List (List Nat)) :
    KeepsOps s (s.listAppend a va l its) := by
  have items : ∀ u : State, Worked u (its.zipIdx.foldl (fun (s : State) (it : List Nat × Nat) =>
      ((l.itemWords (l.puts + it.2)).zip it.1).foldl (fun s w => s.gstore a w.1 8 w.2) s) u) := fun u =>
    foldl_keeps (Worked u) _ (fun v it hv => foldl_keeps (Worked u) _ (fun w _ hw => hw.trans (.gstore w _ _ _ _)) _ hv) _ (.refl u)
  obtain ⟨t, written, appended⟩ : ∃ t, Worked s t ∧ s.listAppend a va l its =
      if its.length = 0 then t else t.detect a.ctx l (l.appended its.length) true :=
    ⟨_, ((Worked.listRmw s a va _).trans (items _)).trans (.listRmw _ a va _), rfl⟩
  rw [appended]
  split
  · exact written.ops
  · exact written.ops.trans (.of_eq (ops_detect _ _ _ _ _))

end Sys2Proof.Machine
end

section
/-!
SUPPORT. How an operation's step ends (R193, R209): it is over, with what its instruction will write, or it goes on with another body.
-/
namespace Sys2Proof.Machine

/-- An operation that is not parked, of which no record is held, whose instruction has been issued and waits for it, and whose group is
there. -/
structure OpRuns (s : State) (id : Nat) (o : Op) : Prop where
  found : find id s.ops = some o
  park : o.park = none
  spent : o.spent = false
  await : o.await = false
  held : o.held = false
  there : s.has o.team o.grp = true

/-- The operation of an instruction of group g is over in t, and the instruction, changed by f, has done its work. -/
structure Over (g : Group) (id : Nat) (o : Op) (f : Pend → Pend) (t : State) : Prop where
  gone : find id t.ops = none
  ready : ∀ k q, o.pend = some k → find k g.pend = some q →
    find k (t.group o.team o.grp).pend = some { f q with ready := true }

theorem find_results (g : Group) (k : Nat) (f : Pend → Pend) : find k (g.results (some k) f).pend = (find k g.pend).map f :=
  (find_adjust _ _ _ _).trans (if_pos rfl)

theorem endOp_over {g : Group} {u : State} {id : Nat} {o : Op} {f : Pend → Pend} (ho : find id u.ops = some o) (hheld : o.held = false)
    (hawait : o.await = false) (hhas : u.has o.team o.grp = true)
    (hpend : ∀ k, o.pend = some k → find k (u.group o.team o.grp).pend = (find k g.pend).map f) : Over g id o f (u.endOp id) := by
  have ended : u.endOp id = { u.onGroup o.team o.grp (fun g => g.readied o.pend) with ops := del id u.ops } := by
    unfold State.endOp State.clearRecord
    simp only [ho, hheld, hawait, Bool.false_eq_true, if_false]
    rfl
  rw [ended]
  refine ⟨(find_del id id u.ops).trans (if_pos rfl), fun k q hk hq => ?_⟩
  show find k ((u.onGroup o.team o.grp (fun g => g.readied o.pend)).group o.team o.grp).pend = _
  rw [State.group_onGroup, if_pos ⟨rfl, rfl, hhas⟩, hk]
  refine (find_adjust _ _ _ _).trans ((if_pos rfl).trans ?_)
  rw [hpend k hk, hq]
  rfl

/-- An operation gives its instruction what it has found, and is over. -/
theorem results_over {s : State} {id : Nat} {o : Op} {f : Pend → Pend} {F : Group → Group} (h : OpRuns s id o)
    (hF : ∀ g, (F g).pend = (g.results o.pend f).pend) :
    Over (s.group o.team o.grp) id o f ((s.onGroup o.team o.grp F).endOp id) := by
  refine endOp_over h.found h.held h.await ((has_onGroup _ _ _ _ _ _).trans h.there) (fun k hk => ?_)
  rw [State.group_onGroup, if_pos ⟨rfl, rfl, h.there⟩, hF, hk]
  exact find_results _ k f

/-- The body of an operation that its step has changed. -/
theorem body_onOp {s u : State} {id : Nat} {o : Op} (ho : find id s.ops = some o) (h : KeepsOps s u) (b : Body) :
    (find id (u.onOp id (fun o => { o with body := b })).ops).map (·.body) = some b := by
  obtain ⟨p, hp⟩ := Option.isSome_iff_exists.mp (h.found ho)
  rw [show (u.onOp id (fun o => { o with body := b })).ops = adjust id (fun o => { o with body := b }) u.ops from rfl, find_adjust,
    if_pos rfl, hp]
  rfl

end Sys2Proof.Machine
end

section
/-!
SUPPORT. A unit's reads of a structure (R101, R153, R161).
-/
namespace Sys2Proof.Machine

theorem Worked.sight {s t : State} {id : Nat} {a : Agent} {va n v : Nat} (h : s.sight id a va n = .bits v t) : Worked s t := by
  unfold State.sight at h
  dsimp only at h
  split at h
  · cases h
  · split at h
    · cases h
    · split at h
      · cases h
      · cases h
        exact .sourceReads a 8 _ _

theorem Worked.objectRay {id : Nat} {a : Agent} {vas : List Nat} {s t : State} {od od' : List Nat × List Nat} {ids ids' : List Nat}
    (h : State.objectRay id a s vas od ids = .ok (t, od', ids')) : Worked s t := by
  induction vas generalizing s od ids with
  | nil =>
    cases h
    exact .refl _
  | cons va vas ih =>
    unfold State.objectRay at h
    split at h
    · next hs => exact (Worked.sight hs).trans (ih h)
    · cases h

end Sys2Proof.Machine
end

section
/-!
PROOF. A ray's step (R154-R157, R307).
-/
namespace Sys2Proof.Machine

variable {s : State} {id : Nat} {o : Op}

theorem exec_traverseStep_over {x : RayOp} (h : OpRuns s id o) (hb : o.body = .ray x)
    (hall : ∀ i r, i < 64 → x.lanes.getLsbD i = true → find i (s.group o.team o.grp).rays = some r → r.status ≠ 0) :
    exec (.traverseStep id) s = .next (s.rayDone id o x) := by
  rw [exec_traverseStep, execTraverseStep]
  simp only [h.found, hb, h.park, h.spent, Option.isSome_none, Bool.or_self, Bool.false_eq_true, if_false]
  rw [List.findSome?_eq_none_iff.mpr (fun i hi => ?_)]
  obtain ⟨hi64, hlane⟩ := mem_lanesOf.mp hi
  split
  · rfl
  · next r hr => exact if_neg (hall i r hi64 hlane hr)

theorem rayDone_over {x : RayOp} (h : OpRuns s id o) : ∃ f, Over (s.group o.team o.grp) id o f (s.rayDone id o x) :=
  ⟨_, results_over h (fun _ => rfl)⟩

/-! ### One test -/

/-- The first lane of a mask for which something is found. -/
theorem findSome?_lanesOf {β : Type} {m : Lanes} {f : Nat → Option β} {i : Nat} {b : β} (hi : i < 64) (hm : m.getLsbD i = true)
    (hf : f i = some b) (hbefore : ∀ j, j < i → m.getLsbD j = true → f j = none) : (lanesOf m).findSome? f = some b := by
  obtain ⟨l1, l2, hl⟩ := List.append_of_mem (mem_lanesOf.mpr ⟨hi, hm⟩)
  have rises : (l1 ++ i :: l2).Pairwise (· < ·) := hl ▸ sorted_lanesOf m
  refine List.findSome?_eq_some_iff.mpr ⟨l1, i, l2, hl, hf, fun j hj => ?_⟩
  have lane : j ∈ lanesOf m := hl ▸ List.mem_append_left _ hj
  exact hbefore j ((List.pairwise_append.mp rises).2.2 j hj i List.mem_cons_self) (mem_lanesOf.mp lane).2

theorem exec_traverseStep_ray {x : RayOp} {i : Nat} {r : Ray} (h : OpRuns s id o) (hb : o.body = .ray x) (hi : i < 64)
    (hlane : x.lanes.getLsbD i = true) (hr : find i (s.group o.team o.grp).rays = some r) (hstatus : r.status = 0)
    (hbefore : ∀ j q, j < i → x.lanes.getLsbD j = true → find j (s.group o.team o.grp).rays = some q → q.status ≠ 0) :
    ∃ f, exec (.traverseStep id) s = .next ((s.rayStep id o i r).onOp id f) := by
  rw [exec_traverseStep, execTraverseStep]
  simp only [h.found, hb, h.park, h.spent, Option.isSome_none, Bool.or_self, Bool.false_eq_true, if_false]
  rw [findSome?_lanesOf (b := (i, r)) hi hlane ?own (fun j hj hlane => ?before)]
  case own => simp only [hr, hstatus, if_true]
  case before =>
    split
    · rfl
    · next q hq => exact if_neg (hbefore j q hj hlane hq)
  exact ⟨_, rfl⟩

/-- The rays and the memory after a step that changes one ray. -/
structure RayBecame (s : State) (id : Nat) (o : Op) (i : Nat) (q : Ray) (mem : SMap Byte) (t : State) : Prop where
  mem : t.mem = mem
  op : (find id t.ops).isSome = true
  others : ∀ j, j ≠ i → find j (t.group o.team o.grp).rays = find j (s.group o.team o.grp).rays
  own : find i (t.group o.team o.grp).rays = some q

/-- A ray is changed after accesses. -/
theorem rayBecame_put {u : State} (h : OpRuns s id o) (hu : Worked s u) (i : Nat) (q : Ray)
    (f : Op → Op) : RayBecame s id o i q u.mem ((u.putRay o i q).onOp id f) := by
  have rays : (((u.putRay o i q).onOp id f).group o.team o.grp).rays = put i q (s.group o.team o.grp).rays := by
    show ((u.onGroup o.team o.grp _).group o.team o.grp).rays = _
    rw [State.group_onGroup, if_pos ⟨rfl, rfl, (hu.has _ _).trans h.there⟩, hu.group]
  refine ⟨rfl, ?op, fun j hj => ?others, ?own⟩
  case op => exact (hu.ops.trans (KeepsOps.onOp u id f)).found h.found
  case others => rw [rays, find_put, if_neg hj]
  case own => rw [rays, find_put, if_pos rfl]

theorem rayStep_ended {i : Nat} {r : Ray} (hnode : r.node = none) (hstack : r.stack = []) (hspilled : r.spilled = 0) :
    s.rayStep id o i r = s.putRay o i (r.ended (if r.bestValid then 1 else 2)) := by
  unfold State.rayStep
  simp only [hnode, hstack, hspilled, if_true]
  rfl

theorem rayStep_beyond {i : Nat} {r : Ray} {e : Nat × Nat × Nat} {es : List (Nat × Nat × Nat)} (hnode : r.node = none)
    (hstack : r.stack = e :: es) (hfar : cmp32 r.tmax e.2.1 < 0) : s.rayStep id o i r = s.putRay o i { r with stack := es } := by
  unfold State.rayStep
  simp only [hnode, hstack]
  exact if_pos hfar

/-- The ray as it stands at a reference: it has reached it, or it pops it. -/
def Ray.At (r : Ray) (ref : Nat) (q : Ray) : Prop :=
  (r.node = some ref ∧ q = r) ∨ (r.node = none ∧ ∃ e es, r.stack = e :: es ∧ ¬(cmp32 r.tmax e.2.1 < 0) ∧ ref = e.1 ∧
    q = { r with stack := es, node := some e.1, level := e.2.2, tri := 0, child := 0 })

theorem rayStep_at {i ref : Nat} {r q : Ray} (h : r.At ref q) : s.rayStep id o i r = s.rayTest id o i q ref := by
  unfold State.rayStep
  rcases h with ⟨hnode, rfl⟩ | ⟨hnode, e, es, hstack, hnear, rfl, rfl⟩
  · simp only [hnode]
  · simp only [hnode, hstack]
    exact if_neg hnear

/-! ### A node's children (R154, R156, R157) -/

/-- The tests of a node's children, from the ray's next child on. -/
def Ray.tests (q : Ray) (od : List Nat × List Nat) (cs : List Child) : List (Child × Tested (Nat × Nat)) :=
  (cs.filter (fun c => c.kind != .box && decide (q.child ≤ c.index))).map (fun c => (c, boxTest od.1 od.2 q.tmin q.tmax c.box))

/-- The entries of the children hit, in the order in which they are popped. -/
def Ray.pushed (q : Ray) (od : List Nat × List Nat) (ref : Nat) (cs : List Child) : List (Nat × Nat × Nat) :=
  (popOrder ((q.tests od cs).filterMap (fun y => match y.2 with
    | .hit n => some (n.1, y.1.index, childRef ref y.1)
    | .miss | .free => none))).map (fun h => (h.2.2, h.1, q.level))

theorem pushRay_fits {i : Nat} {q : Ray} {es : List (Nat × Nat × Nat)} (hroom : es.length + q.stack.length ≤ 32)
    (hdepth : q.depth + es.length ≤ s.rayDepth o) :
    s.pushRay id o i q es = s.putRay o i { q with node := none, child := 0, stack := es ++ q.stack } := by
  have hlen : (es ++ q.stack).length ≤ 32 := by rw [List.length_append]; exact hroom
  unfold State.pushRay
  dsimp only
  rw [if_neg (Nat.not_lt.mpr hdepth), List.drop_eq_nil_of_le hlen, List.take_of_length_le hlen, Nat.sub_eq_zero_of_le hlen]
  rfl

theorem testNode_pushes {i va v : Nat} {q : Ray} {od : List Nat × List Nat} {cs : List Child} (hcs : nodeChildren v = some cs)
    (hfree : ∀ y ∈ q.tests od cs, y.2 ≠ .free) : s.testNode id o i q od va v = s.pushRay id o i q (q.pushed od va cs) := by
  unfold State.testNode
  simp only [hcs]
  refine (if_neg fun h => ?_).trans rfl
  obtain ⟨y, hy, hfound⟩ := List.any_eq_true.mp h
  cases hres : y.2 with
  | free => exact hfree y hy hres
  | miss => rw [hres] at hfound; cases hfound
  | hit n => rw [hres] at hfound; cases hfound

theorem rayTest_node {i ref v : Nat} {q : Ray} {od : List Nat × List Nat} {ids : List Nat} {t0 t1 : State}
    (hray : State.objectRay id o.agent s (q.recs.take q.level) (q.org, q.dir) [] = .ok (t0, od, ids))
    (hsight : t0.sight id o.agent (ref / 128 * 128) 16 = .bits v t1) (href : ref % 128 = 0) :
    s.rayTest id o i q ref = t1.testNode id o i q od ref v := by
  have hnode : ref / 128 * 128 = ref := by omega
  unfold State.rayTest
  dsimp only
  rw [hray]
  dsimp only
  rw [if_neg (fun h => h.1 href), hsight]
  dsimp only
  rw [if_pos href, hnode]

/-! ### A triangle (R155, R307) -/

/-- The corners of a triangle as memory holds them. -/
def corner (w k : Nat) : List Nat := (List.range 3).map (fun j => field w (96 * k + 32 * j) 32)

/-- The ray after its triangle: at the next one of the leaf, or beyond the leaf. -/
def Ray.beyond (q : Ray) (count : Nat) : Ray :=
  if count ≤ q.tri + 1 then { q with node := none, tri := 0 } else { q with tri := q.tri + 1 }

theorem rayTest_triangle {i ref v w : Nat} {q : Ray} {od : List Nat × List Nat} {ids : List Nat} {t0 t1 t2 : State} {cs : List Child}
    {c : Child} (hray : State.objectRay id o.agent s (q.recs.take q.level) (q.org, q.dir) [] = .ok (t0, od, ids))
    (hsight : t0.sight id o.agent (ref / 128 * 128) 16 = .bits v t1) (href : ref / 64 % 2 = 1) (hcs : nodeChildren v = some cs)
    (hc : cs.find? (fun c => c.index == ref % 8) = some c) (hkind : c.kind = .triangles) (htri : q.tri < c.count)
    (hleaf : t1.sight id o.agent ((c.ref + 64 * q.tri) % 2 ^ 64) 8 = .bits w t2) :
    s.rayTest id o i q ref = t2.testTriangle o i q od ids w c.count := by
  unfold State.rayTest
  dsimp only
  rw [hray]
  dsimp only
  rw [if_neg (fun h => by omega), hsight]
  dsimp only
  rw [if_neg (by omega), hcs]
  simp only [Option.bind_some, hc, hkind, hleaf]
  exact if_neg (Nat.not_le.mpr htri)

theorem testTriangle_miss {i w count : Nat} {q : Ray} {od : List Nat × List Nat} {ids : List Nat}
    (hmiss : triTest od.1 od.2 [corner w 0, corner w 1, corner w 2] = .miss) :
    s.testTriangle o i q od ids w count = s.putRay o i (q.beyond count) := by
  unfold corner at hmiss
  unfold State.testTriangle
  dsimp only
  rw [hmiss]
  rfl

theorem testTriangle_opaque {i w count d w1 w2 : Nat} {q : Ray} {od : List Nat × List Nat} {ids : List Nat}
    (hhit : triTest od.1 od.2 [corner w 0, corner w 1, corner w 2] = .hit (d, w1, w2)) (hopaque : w.testBit 352 = true)
    (hany : q.any = false) : s.testTriangle o i q od ids w count = s.putRay o i (
      if le32 q.tmin d = true ∧ le32 d q.tmax = true then
        (q.beyond count).accept d (w / 2 ^ 288 % 2 ^ 32) (w / 2 ^ 320 % 2 ^ 32) (pathIds ids)
      else q.beyond count) := by
  have bit : field w 352 1 ≠ 0 := by
    rw [Nat.testBit_eq_decide_div_mod_eq, decide_eq_true_eq] at hopaque
    unfold field
    rw [pow_one, hopaque]
    decide
  unfold corner at hhit
  unfold State.testTriangle
  dsimp only
  rw [hhit]
  dsimp only
  by_cases within : le32 q.tmin d = true ∧ le32 d q.tmax = true
  · rw [if_pos within, if_neg (by simp [within]), if_neg bit]
    exact congrArg (s.putRay o i) (if_neg (by simp [hany]))
  · rw [if_neg within, if_pos (by simpa [or_comm, imp_iff_not_or] using within)]
    rfl

end Sys2Proof.Machine
end

section
/-!
PROOF. A step of a pair of nodes (R162-R164, R310).
-/
namespace Sys2Proof.Machine

variable {s : State} {id : Nat} {o : Op} {p : PairOp}

theorem Worked.pairNode {s t : State} {a : Agent} {node : Nat} {cs : Option (List PairItem)}
    (h : s.pairNode id a node = .ok (cs, t)) : Worked s t := by
  unfold State.pairNode at h
  split at h
  · cases h
    exact .refl _
  · split at h
    · next hs =>
      cases h
      exact .sight hs
    · cases h

theorem Worked.pairItem {s t : State} {a : Agent} {ref : Nat} {x : Option PairItem} (h : s.pairItem id a ref = .ok (x, t)) :
    Worked s t := by
  unfold State.pairItem at h
  split at h
  · split at h
    · cases h
    · next hn => cases h; exact .pairNode hn
    · next hn => cases h; exact .pairNode hn
  · split at h
    · cases h
    · next hn => cases h; exact .pairNode hn
    · next hn => cases h; exact .pairNode hn

/-- What a choice answers with one state goes with that state. -/
theorem state_of_ite {ε α : Type} {c : Prop} [Decidable c] {a b r : α} {s t : State}
    (h : (if c then .ok (a, s) else .ok (b, s) : Except ε (α × State)) = .ok (r, t)) : s = t := by
  split at h <;> (cases h; rfl)

theorem Worked.pairStep {s t : State} {a : Agent} {self : Bool} {x y : Nat} {r : PairStep}
    (h : s.pairStep id a self x y = .ok (r, t)) :
    Worked s t := by
  unfold State.pairStep at h
  split at h
  · cases h
  · next hp => cases h; exact .pairItem hp
  · next hp =>
    split at h
    · cases h
    · next hq => cases h; exact (Worked.pairItem hp).trans (.pairItem hq)
    · next hq =>
      have read := (Worked.pairItem hp).trans (.pairItem hq)
      split at h
      · split at h
        · cases h; exact read
        · exact state_of_ite h ▸ read
      · dsimp only at h
        split at h
        · cases h
        · next hn => cases h; exact read.trans (.pairNode hn)
        · next hn =>
          split at h
          · cases h; exact read.trans (.pairNode hn)
          · exact state_of_ite h ▸ read.trans (.pairNode hn)

/-- The pair that the traverse takes, with those left: it is pending, or on top of the stack. -/
def PairOp.Takes (p : PairOp) (x : Nat × Nat) (rest : List (Nat × Nat)) : Prop :=
  (p.pending = none ∧ p.stack = x :: rest) ∨ (p.pending = some x ∧ p.stack = rest)

theorem exec_pairStep_over (h : OpRuns s id o) (hb : o.body = .pair p)
    (hpending : p.pending = none) (hstack : p.stack = []) (hspilled : p.spilled = 0) :
    exec (.pairStep id) s = .next (s.pairDone id o p 0) := by
  rw [exec_pairStep, execPairStep]
  simp only [h.found, hb, h.park, h.spent, hpending, hstack, hspilled, Option.isSome_none, Bool.or_self, Bool.false_eq_true, if_false,
    if_true]

theorem pairDone_over (h : OpRuns s id o) : Over (s.group o.team o.grp) id o
      (fun q => { q with sw := [(p.d.toNat, BitVec.ofNat 64 (0 + p.appended * 2 ^ 32))] }) (s.pairDone id o p 0) :=
  results_over h (fun _ => rfl)

/-- The traverse goes on with what the step of the pair that it took yields. -/
def State.pairGoesOn (s : State) (id : Nat) (o : Op) (p : PairOp) (x : Nat × Nat) : PairStep → State
  | .bad => s.pairDone id o p 2
  | .emit f g => s.pairEmit id o p x f g
  | .visit ps => s.pushPairs id o p x ps

theorem exec_pairStep_takes {x : Nat × Nat} {rest : List (Nat × Nat)} {t0 : State} {r : PairStep} (h : OpRuns s id o)
    (hb : o.body = .pair p) (htakes : p.Takes x rest)
    (hstep : s.pairStep id o.agent p.self x.1 x.2 = .ok (r, t0)) :
    exec (.pairStep id) s = .next (t0.pairGoesOn id o { p with stack := rest } x r) := by
  rw [exec_pairStep, execPairStep]
  rcases htakes with ⟨hpending, hstack⟩ | ⟨hpending, hstack⟩
  · simp only [h.found, hb, h.park, h.spent, hpending, hstack, Option.isSome_none, Bool.or_self, Bool.false_eq_true, if_false, hstep]
    cases r <;> rfl
  · have same : ({ p with stack := rest } : PairOp) = p := hstack ▸ rfl
    rw [same]
    simp only [h.found, hb, h.park, h.spent, hpending, Option.isSome_none, Bool.or_self, Bool.false_eq_true, if_false, hstep]
    cases r <;> rfl

theorem pushPairs_fits {x : Nat × Nat} {ps : List (Nat × Nat)} (hroom : ps.length + p.stack.length ≤ 64)
    (hdepth : p.spilled + (ps.length + p.stack.length) ≤ s.pairDepth o.team) :
    s.pushPairs id o p x ps = s.onPair id { p with pending := none, stack := ps ++ p.stack } := by
  have hlen : (ps ++ p.stack).length ≤ 64 := by rw [List.length_append]; exact hroom
  rw [← List.length_append] at hdepth
  unfold State.pushPairs
  dsimp only
  rw [if_neg (Nat.not_lt.mpr hdepth), List.drop_eq_nil_of_le hlen, List.take_of_length_le hlen, Nat.sub_eq_zero_of_le hlen]
  rfl

/-- The list at an address has room for an item that an agent can write now. -/
structure Appendable (s : State) (a : Agent) (va : Word) (q : Spot) (l : WList) : Prop where
  reach : s.obstacle a .write [va] = none
  list : s.listAt a va = .ok (q, l)
  size : l.iszc = 1
  free : q.held = false
  unowned : s.owned (lineNo q.addr) = false
  room : l.room ≠ 0
  itemReach : s.obstacle a .write (l.itemWords l.puts) = none
  itemFault : s.itemFault a .write l l.puts = none
  itemUnowned : s.ownedAmong a .write (l.itemWords l.puts) = []

theorem pairEmit_appends {x : Nat × Nat} {f g : Nat} {q : Spot} {l : WList} (h : Appendable s o.agent p.list q l) :
    s.pairEmit id o p x f g = (s.listAppend o.agent p.list l [[f + g * 2 ^ 32, p.tag + p.seqno * 2 ^ 32]]).onPair id
      { p with pending := none, seqno := (p.seqno + 1) % 2 ^ 32, appended := p.appended + 1 } := by
  obtain ⟨reach, list, size, free, unowned, room, itemReach, itemFault, itemUnowned⟩ := h
  unfold State.pairEmit
  simp only [reach, list, size, free, unowned, room, itemReach, itemFault, itemUnowned, Bool.or_self, Bool.false_eq_true, if_false,
    ne_eq, not_true_eq_false, List.isEmpty_nil, Bool.not_true]

end Sys2Proof.Machine
end

section
/-!
PROOF. A quad of a texture instruction (R198, R304).
-/
namespace Sys2Proof.Machine

variable {s : State} {id : Nat} {o : Op} {x : TexOp}

theorem Worked.readTexel (s : State) (a : Agent) (d : BitVec 512) (t : Nat × Nat × Nat × Nat) : Worked s (s.readTexel a d t).2 := by
  unfold State.readTexel
  dsimp only
  split
  · exact .refl s
  · exact foldl_keeps (fun p : Nat × Nat × State => Worked s p.2.2) _ (fun p w h => h.trans (.sourceRead _ _ _ _)) _ (.refl s)

theorem Worked.readTexels (s : State) (a : Agent) (d : BitVec 512) (ts : List (Nat × Nat × Nat × Nat)) :
    Worked s (s.readTexels a d ts).2 := by
  unfold State.readTexels
  exact foldl_keeps (fun p : List ((Nat × Nat × Nat × Nat) × Nat) × State => Worked s p.2) _
    (fun p t h => h.trans (.readTexel _ _ _ _)) _ (.refl s)

/-- The lanes of a quad that the unit has not done. -/
def TexOp.on (x : TexOp) : List Nat := (lanesOf x.lanes).filter (fun i => i / 4 == x.quad && !x.done.getLsbD i)

theorem TexOp.on_lt (x : TexOp) : ∀ i ∈ x.on, i < 64 := fun _ hi => (mem_lanesOf.mp (List.mem_filter.mp hi).1).1

/-- What the lanes of the quad need. -/
def TexOp.onLanes (x : TexOp) (s : State) : List (Nat × LaneTex) := x.on.map (fun i => (i, x.lane (s.free 0) i))

/-- The addresses of texels of the lanes that are no helper lanes. -/
def TexOp.realVas (x : TexOp) (s : State) (g : Group) : List Word := x.vas ((x.onLanes s).filter (fun y => !g.helper.getLsbD y.1))

/-- The texels of the quad, read. -/
def TexOp.texels (x : TexOp) (s : State) (a : Agent) : List ((Nat × Nat × Nat × Nat) × Nat) × State :=
  s.readTexels a x.desc ((x.onLanes s).flatMap (fun y => x.wanted y.2)).eraseDups

/-- The result registers of a lane of the quad. -/
def TexOp.laneResult (x : TexOp) (s : State) (a : Agent) (i : Nat) : List Nat :=
  x.result (x.lane (s.free 0) i) (fun y => match (x.texels s a).1.find? (fun z => z.1 == y) with
    | some z => z.2
    | none => 0)

/-- A group with registers from d on written in lanes. -/
def Group.setRuns (g : Group) (d : Nat) (ls : List Nat) (f : Nat → List Nat) : Group :=
  ls.foldl (fun g i => (f i).zipIdx.foldl (fun (g : Group) (w : Nat × Nat) => g.setV (d + w.2) i (BitVec.ofNat 64 w.1)) g) g

theorem vreg_setRuns (g : Group) (d : Nat) {ls : List Nat} (hls : ∀ i ∈ ls, i < 64) (f : Nat → List Nat) (r : Nat) {i : Nat}
    (hi : i < 64) : (g.setRuns d ls f).vreg r i = if i ∈ ls ∧ d ≤ r then ((f i)[r - d]?.map (BitVec.ofNat 64)).getD (g.vreg r i) else g.vreg r i := by
  have flat : g.setRuns d ls f = (runEntries ls f).foldl (fun g y => g.setV (d + y.2.2) y.1 (BitVec.ofNat 64 y.2.1)) g := by
    unfold Group.setRuns runEntries
    rw [List.foldl_flatMap]
    exact List.foldl_ext _ _ _ (fun w i hi => by rw [List.foldl_map])
  have table : (g.setRuns d ls f).v = (runEntries ls f).foldl (fun v y => set 0 ((d + y.2.2) * 64 + y.1) (BitVec.ofNat 64 y.2.1) v) g.v := by
    rw [flat]
    exact (List.foldl_hom Group.v (fun _ _ => rfl)).symm
  have entry : ∀ y ∈ runEntries ls f, (d + y.2.2) * 64 + y.1 = r * 64 + i → y.1 = i ∧ d + y.2.2 = r := fun y hy hkey => by
    have hlane := hls _ (mem_runEntries.mp hy).1
    omega
  have written := get_foldl_set 0 (fun y : Nat × Nat × Nat => (d + y.2.2) * 64 + y.1) (fun y => BitVec.ofNat 64 y.2.1) (r * 64 + i)
    (BitVec.ofNat 64 ((f i).getD (r - d) 0)) (runEntries ls f) (fun y hy hkey => ?value) g.v
  case value =>
    obtain ⟨hlane, hreg⟩ := entry y hy hkey
    have hval := (mem_runEntries.mp hy).2
    rw [hlane, show y.2.2 = r - d by omega] at hval
    rw [List.getD_eq_getElem?_getD, hval]
    rfl
  have lookup : (g.setRuns d ls f).vreg r i = if ∃ y ∈ runEntries ls f, (d + y.2.2) * 64 + y.1 = r * 64 + i then
      BitVec.ofNat 64 ((f i).getD (r - d) 0) else g.vreg r i := (congrArg (get 0 (r * 64 + i)) table).trans written
  rw [lookup]
  by_cases there : i ∈ ls ∧ d ≤ r ∧ r - d < (f i).length
  · obtain ⟨hmem, hd, hlen⟩ := there
    have hv : (f i)[r - d]? = some (f i)[r - d] := List.getElem?_eq_getElem hlen
    rw [if_pos ⟨(i, _, r - d), mem_runEntries.mpr ⟨hmem, hv⟩, by dsimp only; rw [Nat.add_sub_cancel' hd]⟩, if_pos ⟨hmem, hd⟩,
      List.getD_eq_getElem?_getD, hv]
    rfl
  · have absent : ¬∃ y ∈ runEntries ls f, (d + y.2.2) * 64 + y.1 = r * 64 + i := by
      rintro ⟨y, hy, hkey⟩
      obtain ⟨hlane, hreg⟩ := entry y hy hkey
      obtain ⟨hmem, hval⟩ := mem_runEntries.mp hy
      obtain ⟨hlen, -⟩ := List.getElem?_eq_some_iff.mp hval
      rw [hlane] at hmem hlen
      exact there ⟨hmem, by omega, by omega⟩
    rw [if_neg absent]
    split
    · next h => rw [List.getElem?_eq_none (Nat.not_lt.mp (fun hlt => there ⟨h.1, h.2, hlt⟩))]; rfl
    · rfl

theorem exec_textureQuad_over (h : OpRuns s id o) (hb : o.body = .tex x)
    (hdone : 16 ≤ x.quad ∨ x.lanes &&& ~~~x.done = 0) : exec (.textureQuad id) s = .next (s.endOp id) := by
  rw [exec_textureQuad, execTextureQuad]
  simp only [h.found, hb, h.park, h.spent, Option.isSome_none, Bool.or_self, Bool.false_eq_true, if_false]
  exact congrArg _ (if_pos (by simpa using hdone))

theorem exec_textureQuad_quad (h : OpRuns s id o) (hb : o.body = .tex x)
    (hquad : x.quad < 16) (hleft : x.lanes &&& ~~~x.done ≠ 0) : exec (.textureQuad id) s = .next (s.texQuad id o x) := by
  rw [exec_textureQuad, execTextureQuad]
  simp only [h.found, hb, h.park, h.spent, Option.isSome_none, Bool.or_self, Bool.false_eq_true, if_false]
  exact congrArg _ (if_neg (by simpa using ⟨hquad, hleft⟩))

theorem texture_over (h : OpRuns s id o) : Over (s.group o.team o.grp) id o (fun q => q) (s.endOp id) :=
  endOp_over h.found h.held h.await h.there (fun _ _ => Option.map_id'.symm)

/-- The results of a quad are written, and the instruction is at its next quad. -/
def State.writeQuad (s : State) (id : Nat) (o : Op) (x : TexOp) (f : Nat → List Nat) : State :=
  (s.onGroup o.team o.grp (fun g => g.setRuns x.d x.on f)).onOp id
    (fun o => { o with body := .tex { x with done := x.on.foldl (fun m i => m ||| laneBit i) x.done, quad := x.quad + 1 } })

section written

variable {u : State} (f : Nat → List Nat)

theorem writeQuad_mem : (u.writeQuad id o x f).mem = u.mem := rfl

theorem writeQuad_body (h : OpRuns s id o) (hu : Worked s u) : (find id (u.writeQuad id o x f).ops).map (·.body) =
    some (.tex { x with done := x.on.foldl (fun m i => m ||| laneBit i) x.done, quad := x.quad + 1 }) :=
  body_onOp h.found (hu.ops.trans (.of_eq rfl)) _

theorem writeQuad_vreg (h : OpRuns s id o) (hu : Worked s u) (r : Nat) {i : Nat} (hi : i < 64) :
    ((u.writeQuad id o x f).group o.team o.grp).vreg r i = if i ∈ x.on ∧ x.d ≤ r then
      ((f i)[r - x.d]?.map (BitVec.ofNat 64)).getD ((s.group o.team o.grp).vreg r i) else (s.group o.team o.grp).vreg r i := by
  show ((u.onGroup o.team o.grp _).group o.team o.grp).vreg r i = _
  rw [State.group_onGroup, if_pos ⟨rfl, rfl, (hu.has _ _).trans h.there⟩, vreg_setRuns _ _ x.on_lt _ _ hi, hu.group]
  rfl

end written

theorem texQuad_writes (hobs : s.texObstacle o.agent (x.realVas s (s.group o.team o.grp)) (x.vas (x.onLanes s)) = none)
    (hwait : s.readsWait id o.agent (x.vas (x.onLanes s)) = false)
    (hbad : ∀ va ∈ x.realVas s (s.group o.team o.grp), s.badAt o.agent va = false) :
    s.texQuad id o x = (x.texels s o.agent).2.writeQuad id o x (x.laneResult s o.agent) := by
  have clean : (x.realVas s (s.group o.team o.grp)).find? (fun va => s.badAt o.agent va) = none :=
    List.find?_eq_none.mpr (fun va hva => by simp [hbad va hva])
  simp only [TexOp.realVas, TexOp.onLanes, TexOp.on] at hobs hwait clean
  unfold State.texQuad
  dsimp only
  rw [hobs]
  dsimp only
  rw [if_neg (by rw [hwait]; exact Bool.false_ne_true), clean]
  dsimp only
  refine congrArg (State.onOp · id _) (congrArg (State.onGroup _ o.team o.grp) (funext fun g => ?_))
  rw [List.foldl_map]
  rfl

end Sys2Proof.Machine
end

section
/-!
PROOF. A triangle of a rasteriser's stream (R139-R142, R300).
-/
namespace Sys2Proof.Machine

variable {s : State} {id : Nat} {o : Op} {r : RastOp}

theorem Worked.fetch4 {s t : State} {a : Agent} {vas : List Word} {vs : List Nat} (h : s.fetch4 id a vas = .ok (vs, t)) : Worked s t := by
  unfold State.fetch4 at h
  dsimp only at h
  split at h
  · cases h
  · split at h
    · cases h
    · split at h
      · cases h
      · have read : _ = t := congrArg Prod.snd (Except.ok.inj h)
        exact read ▸ .sourceReads a 4 _ _

theorem Worked.fetchTri {s t : State} {a : Agent} {xs : List Nat} (h : s.fetchTri id a r = .ok (xs, t)) : Worked s t := by
  unfold State.fetchTri at h
  split at h
  · cases h
  · next hi => exact (Worked.fetch4 hi).trans (.fetch4 h)

theorem Worked.mergePixels (a : Agent) (r : RastOp) (y : Tri) (own : List Nat) (time : Nat → Nat) (ps : List (Nat × Nat)) (s : State) :
    Worked s (s.mergePixels a r y own time ps).2 := by
  induction ps generalizing s with
  | nil => exact .refl s
  | cons p ps ih =>
    unfold State.mergePixels
    dsimp only
    split
    · exact ih s
    · split
      · exact .refl s
      · exact .refl s
      · split
        · exact .refl s
        · split
          · exact .refl s
          · split
            · exact .refl s
            · refine Worked.trans ?_ (ih _)
              exact (walked s _ _ _).trans (of_touched (b := false) ((Touched.storeAt _ _ _ _ _ _ _).trans (Touched.note _ _ _ _ _ _)))

theorem Worked.merged {s t : State} {a : Agent} {r : RastOp} {y : Tri} {own : List Nat} {time : Nat → Nat} {ps : List (Nat × Nat)}
    {p : Option (Nat × Nat × Option Park)} (h : s.mergePixels a r y own time ps = (p, t)) : Worked s t := by
  have written := Worked.mergePixels a r y own time ps s
  rwa [h] at written

/-- The state of a stream as its step finds it. -/
abbrev State.rastBegun (s : State) (id : Nat) : State := s.onOp id (fun o => { o with begun := true })

/-- What lets a stream's step go on (R99, R192). -/
structure Rasterises (s : State) (id : Nat) (o : Op) (r : RastOp) : Prop extends OpRuns s id o where
  body : o.body = .rast r
  first : s.behindRast id o = false
  need : o.need = []
  runs : s.unitsRun o.ctx = true

theorem exec_rasterTriangle_over (h : Rasterises s id o r) (hall : r.ntri ≤ r.tri) :
    exec (.rasterTriangle id) s = .next ((s.rastBegun id).rastDone id o r) := by
  rw [exec_rasterTriangle, execRasterTriangle]
  simp only [h.found, h.body, h.park, h.first, h.need, h.runs, hall, Option.isSome_none, List.isEmpty_nil, Bool.not_true,
    Bool.or_self, Bool.false_eq_true, if_false, if_true]

theorem OpRuns.begun (h : OpRuns s id o) : OpRuns (s.rastBegun id) id { o with begun := true } := by
  refine ⟨?_, h.park, h.spent, h.await, h.held, h.there⟩
  rw [show (s.rastBegun id).ops = adjust id (fun o => { o with begun := true }) s.ops from rfl, find_adjust, if_pos rfl, h.found]
  rfl

theorem rastDone_over (h : OpRuns s id o) (hplaces : r.places = []) : Over (s.group o.team o.grp) id o
    (fun p => { p with sw := [(r.d.toNat, BitVec.ofNat 64 (r.fixed + r.appended * 2 ^ 32))] }) ((s.rastBegun id).rastDone id o r) := by
  unfold State.rastDone
  rw [hplaces, List.isEmpty_nil, if_pos rfl]
  obtain ⟨gone, ready⟩ := results_over (F := fun g => g.results o.pend (fun p =>
    { p with sw := [(r.d.toNat, BitVec.ofNat 64 (r.fixed + r.appended * 2 ^ 32))] })) h.begun (fun _ => rfl)
  exact ⟨gone, ready⟩

theorem exec_rasterTriangle_nothing {xs : List Nat} {t0 : State} (h : Rasterises s id o r) (hleft : r.tri < r.ntri) (hsetup : r.setup = none)
    (hfetch : (s.rastBegun id).fetchTri id o.agent r = .ok (xs, t0)) (hnone : triOf xs = none) :
    exec (.rasterTriangle id) s = .next (t0.onRast id r.next) := by
  rw [exec_rasterTriangle, execRasterTriangle]
  simp only [h.found, h.body, h.park, h.first, h.need, h.runs, Nat.not_le.mpr hleft, hsetup, hfetch, hnone, Option.isSome_none,
    List.isEmpty_nil, Bool.not_true, Bool.or_self, Bool.false_eq_true, if_false]

/-- The triangle in progress, its stream and the state: it was set up before, or its coordinates are read now. -/
def SetUp (s : State) (id : Nat) (o : Op) (r : RastOp) (y : Tri) (q : RastOp) (s1 : State) : Prop :=
  (r.setup = some y ∧ q = r ∧ s1 = s.rastBegun id) ∨ (r.setup = none ∧ ∃ xs t0,
    (s.rastBegun id).fetchTri id o.agent r = .ok (xs, t0) ∧ triOf xs = some y ∧ q = { r with setup := some y } ∧ s1 = t0.onRast id q)

/-- The stream differs in the triangle in progress alone. -/
theorem SetUp.stream {y : Tri} {q : RastOp} {s1 : State} (h : SetUp s id o r y q s1) : ∃ m, q = { r with setup := m } := by
  rcases h with ⟨-, rfl, -⟩ | ⟨-, xs, t0, -, -, rfl, -⟩
  · exact ⟨q.setup, rfl⟩
  · exact ⟨some y, rfl⟩

theorem SetUp.worked {y : Tri} {q : RastOp} {s1 : State} (h : SetUp s id o r y q s1) : Worked s s1 := by
  have begun : Worked s (s.rastBegun id) := .onOp s id _
  rcases h with ⟨-, -, rfl⟩ | ⟨-, xs, t0, hfetch, -, -, rfl⟩
  · exact begun
  · exact (begun.trans (.fetchTri hfetch)).trans (.onOp _ _ _)

theorem exec_rasterTriangle_stage {y : Tri} {q : RastOp} {s1 : State} (h : Rasterises s id o r) (hleft : r.tri < r.ntri)
    (hset : SetUp s id o r y q s1) : exec (.rasterTriangle id) s = .next (s1.rastStage id o q y) := by
  rw [exec_rasterTriangle, execRasterTriangle]
  rcases hset with ⟨hsetup, rfl, rfl⟩ | ⟨hsetup, xs, t0, hfetch, htri, rfl, rfl⟩
  · simp only [h.found, h.body, h.park, h.first, h.need, h.runs, Nat.not_le.mpr hleft, hsetup, Option.isSome_none, List.isEmpty_nil,
      Bool.not_true, Bool.or_self, Bool.false_eq_true, if_false]
  · simp only [h.found, h.body, h.park, h.first, h.need, h.runs, Nat.not_le.mpr hleft, hsetup, hfetch, htri, Option.isSome_none,
      List.isEmpty_nil, Bool.not_true, Bool.or_self, Bool.false_eq_true, if_false]

/-! ### The first stage of a triangle (R139) -/

section stage

variable {y : Tri} (hstage : r.stage = 0)
include hstage

theorem rastStage_covers_nothing (hno : y.boxArea = 0 ∨ (y.back = true ∧ r.cullb = true)) :
    s.rastStage id o r y = s.onRast id r.next := by
  unfold State.rastStage
  rw [hstage]
  exact if_pos (by simpa using hno)

theorem rastStage_fixed (harea : y.boxArea ≠ 0) (hfront : ¬(y.back = true ∧ r.cullb = true)) (hfixed : r.area ≤ y.boxArea) :
    s.rastStage id o r y =
      let q := { r with stage := 1, fixed := r.fixed + 1, px := (y.clip r.width r.height).1, py := (y.clip r.width r.height).2.2.1 }
      (s.onRast id q).rastCover id o q y := by
  unfold State.rastStage
  rw [hstage]
  exact (if_neg (by simpa [harea] using hfront)).trans (if_pos hfixed)

theorem rastStage_software (harea : y.boxArea ≠ 0) (hfront : ¬(y.back = true ∧ r.cullb = true)) (hsmall : y.boxArea < r.area) :
    s.rastStage id o r y = (s.onRast id { r with stage := 3 }).rastAppend id o { r with stage := 3 } y := by
  unfold State.rastStage
  rw [hstage]
  exact (if_neg (by simpa [harea] using hfront)).trans (if_neg (Nat.not_le.mpr hsmall))

end stage

theorem rastCover_merges {y : Tri} {t0 : State} (hfrag : r.frag = false)
    (hmerge : s.mergePixels o.agent r y o.own o.timeOf (y.pixels r.width r.height r.px r.py) = (none, t0)) :
    s.rastCover id o r y = (t0.rastWritten id o.agent r y).onRast id r.next := by
  unfold State.rastCover
  rw [hfrag, if_neg Bool.false_ne_true]
  dsimp only
  rw [hmerge]

theorem rastCover_quads {y : Tri} {v : Nat × Nat × Nat} {vs : List (Nat × Nat × Nat)} (hfrag : r.frag = true)
    (hquads : y.quads r.width r.height r.px r.py = v :: vs) :
    s.rastCover id o r y = s.onRast id { r with stage := 2, px := v.1, py := v.2.1, quads := v :: vs } := by
  unfold State.rastCover
  rw [hfrag, if_pos rfl, hquads]

theorem rastAppend_appends {y : Tri} {q : Spot} {l : WList} (h : Appendable s o.agent r.list q l) :
    s.rastAppend id o r y = (s.listAppend o.agent r.list l [[r.addr.toNat, r.tri + (if y.back then 2 ^ 32 else 0)]]).onRast id
      { r with appended := r.appended + 1 }.next := by
  obtain ⟨reach, list, size, free, unowned, room, itemReach, itemFault, itemUnowned⟩ := h
  unfold State.rastAppend
  simp only [reach, list, size, free, unowned, room, itemReach, itemFault, itemUnowned, Bool.or_self, Bool.false_eq_true, if_false, ne_eq,
    not_true_eq_false, List.isEmpty_nil, Bool.not_true]

end Sys2Proof.Machine
end

section
/-!
PROOF. Engines that traverse and render take their steps: obligation O54.
-/
open Sys2Proof Sys2Proof.Machine

/-- Settles O54, engine by engine: the operation ends, or its step leaves one ray, one body or one quad's registers changed. -/
theorem graphicsEnginesStep : Obligations.GraphicsEnginesStep := by
  intro s id o ho hpark hspent hawait hheld hhas g ag over_ gives body
  have h : OpRuns s id o := ⟨ho, hpark, hspent, hawait, hheld, hhas⟩
  have ended : ∀ {f : Pend → Pend} {t : State}, Over g id o f t → over_ t :=
    fun h => ⟨h.gone, fun k q hk hq => ⟨_, h.ready k q hk hq, rfl⟩⟩
  have given : ∀ {d : SReg} {w : Word} {t : State}, Over g id o (fun q => { q with sw := [(d.toNat, w)] }) t → gives t d w :=
    fun h k q hk hq => ⟨_, h.ready k q hk hq, rfl⟩
  refine ⟨fun x hb => ⟨fun hall => ?raysOver, ?ray⟩,
    fun p hb => ⟨fun hpending hstack hspilled => ?pairsOver, fun x rest htakes => ⟨?visit, ?emit⟩⟩,
    fun x hb => ⟨fun hdone => ?textureOver, ?quad⟩, ?stream⟩
  case raysOver =>
    obtain ⟨f, hover⟩ := rayDone_over (x := x) h
    exact ⟨_, exec_traverseStep_over h hb hall, ended hover⟩
  case ray =>
    intro i r hi hlane hr hstatus hbefore becomes
    obtain ⟨f, hexec⟩ := exec_traverseStep_ray h hb hi hlane hr hstatus hbefore
    have became : ∀ {u : State} {q : Ray}, Worked s u → s.rayStep id o i r = u.putRay o i q → becomes q u.mem := by
      intro u q hu hstep
      rw [hstep] at hexec
      obtain ⟨mem, op, others, own⟩ := rayBecame_put h hu i q f
      exact ⟨_, hexec, mem, op, others, own⟩
    refine ⟨fun hnode hstack hspilled => became (.refl s) (rayStep_ended hnode hstack hspilled),
      fun e es hnode hstack hfar => became (.refl s) (rayStep_beyond hnode hstack hfar), ?_⟩
    intro q ref od ids t0 v t1 hat hray hsight
    have read : Worked s t1 := (Worked.objectRay hray).trans (.sight hsight)
    refine ⟨fun href cs hcs => ?node, fun cs c w t2 href hcs hc hkind htri hleaf => ?triangle⟩
    case node =>
      intro tests hits hfree hroom hdepth
      refine became read ?_
      rw [rayStep_at hat, rayTest_node hray hsight href, testNode_pushes hcs hfree]
      exact pushRay_fits hroom hdepth
    case triangle =>
      have tested := (rayStep_at hat).trans (rayTest_triangle (i := i) hray hsight href hcs hc hkind htri hleaf)
      have both := read.trans (.sight hleaf)
      exact ⟨fun hmiss => became both (tested.trans (testTriangle_miss hmiss)),
        fun d w1 w2 hhit hopaque hany => became both (tested.trans (testTriangle_opaque hhit hopaque hany))⟩
  case pairsOver =>
    have hover := pairDone_over (p := p) h
    rw [Nat.zero_add] at hover
    exact ⟨_, exec_pairStep_over h hb hpending hstack hspilled, ended hover, given hover⟩
  case visit =>
    intro ps t0 hstep hroom hdepth
    exact ⟨_, (exec_pairStep_takes h hb htakes hstep).trans (congrArg _ (pushPairs_fits hroom hdepth)), rfl,
      body_onOp ho (Worked.pairStep hstep).ops _⟩
  case emit =>
    intro f f' t0 q l hstep reach list size free unowned room itemReach itemFault itemUnowned
    have appendable : Appendable t0 ag p.list q l := ⟨reach, list, size, free, unowned, room, itemReach, itemFault, itemUnowned⟩
    exact ⟨_, (exec_pairStep_takes h hb htakes hstep).trans
      (congrArg _ (pairEmit_appends (p := { p with stack := rest }) appendable)), rfl,
      body_onOp ho ((Worked.pairStep hstep).ops.trans (.listAppend _ _ _ _ _)) _⟩
  case textureOver => exact ⟨_, exec_textureQuad_over h hb hdone, ended (texture_over h)⟩
  case quad =>
    intro hquad hleft on lanes real texels fetch result hobs hwait hbad
    have read : Worked s texels.2 := .readTexels s ag x.desc _
    exact ⟨_, (exec_textureQuad_quad h hb hquad hleft).trans (congrArg _ (texQuad_writes hobs hwait hbad)), writeQuad_mem _,
      writeQuad_body _ h read, fun r i hi => writeQuad_vreg _ h read r hi⟩
  case stream =>
    intro r hb hfirst hneed hruns s0 steps
    have hr : Rasterises s id o r := ⟨h, hb, hfirst, hneed, hruns⟩
    have stepped : ∀ {u : State} {q : RastOp}, KeepsOps s u → exec (.rasterTriangle id) s = .next (u.onRast id q) → steps u.mem q :=
      fun hu hexec => ⟨_, hexec, rfl, body_onOp ho hu _⟩
    refine ⟨fun hall hplaces => ?done, fun xs t0 hleft hsetup hfetch hnone => ?nothing, fun y q s1 hleft hset hstage => ?triangle⟩
    case done =>
      have hover := rastDone_over h hplaces
      exact ⟨_, exec_rasterTriangle_over hr hall, ended hover, given hover⟩
    case nothing =>
      exact stepped ((KeepsOps.onOp s id _).trans (Worked.fetchTri hfetch).ops) (exec_rasterTriangle_nothing hr hleft hsetup hfetch hnone)
    case triangle =>
      have kept : KeepsOps s s1 := (SetUp.worked hset).ops
      have hexec := exec_rasterTriangle_stage hr hleft hset
      obtain ⟨m, rfl⟩ := SetUp.stream hset
      refine ⟨fun hno => stepped kept (hexec.trans (congrArg _ (rastStage_covers_nothing hstage hno))), ?fixed, ?software⟩
      case fixed =>
        intro harea hfront hfixed box z
        have covered := hexec.trans (congrArg _ (rastStage_fixed hstage harea hfront hfixed))
        refine ⟨fun t0 hfrag hmerge => ?merges, fun v vs hfrag hquads => ?quads⟩
        case merges =>
          have merged : Worked (s1.onRast id z) t0 := .merged hmerge
          exact stepped (u := t0.rastWritten id ag z y) (((kept.trans (.onOp _ _ _)).trans merged.ops).trans (.onOp _ _ _))
            (covered.trans (congrArg _ (rastCover_merges hfrag hmerge)))
        case quads =>
          exact stepped (u := s1.onRast id z) (kept.trans (.onOp _ _ _))
            (covered.trans (congrArg _ (rastCover_quads hfrag hquads)))
      case software =>
        intro v l harea hfront hsmall z s2 reach list size free unowned room itemReach itemFault itemUnowned
        have appendable : Appendable s2 ag z.list v l := ⟨reach, list, size, free, unowned, room, itemReach, itemFault, itemUnowned⟩
        exact stepped ((kept.trans (.onOp _ _ _)).trans (.listAppend _ _ _ _ _))
          ((hexec.trans (congrArg _ (rastStage_software hstage harea hfront hsmall))).trans (congrArg _ (rastAppend_appends appendable)))
end

section
/-!
PROOF. A lane that waits in a sweep group exits (R173, R296), and an exit releases the lanes of the team that wait for raster order and
no longer need to (R145), entry by entry of the team's table: the refutation of the obligation about the lane instructions on parcels,
whose condition on those waits sees a group only at the first entry of its number.
-/
namespace Sys2Proof.Machine

/-- Where every lane of the path leaves the clause, the group is the one that the instruction left. -/
theorem Leaves.over {s : State} {c : Nat} {x : Issue} {m : Member} {o : Host.Outcome State Fault Refusal}
    {effect : Group → Group → Prop} (h : Leaves s c x m m.lanes o effect) : ∃ t, o = .next t ∧ effect (m.group s) (m.group t) := by
  obtain ⟨t, G, ho, -, heffect, hmoved⟩ := h
  obtain ⟨-, hgroup⟩ := hmoved.over_ (BitVec.and_not_self _)
  exact ⟨t, ho, hgroup.symm ▸ heffect⟩

/-! ### A group number listed twice -/

/-- A sweep group of eight lanes in a clause. -/
def sweepGroup : Group := { postedGroup with sort := .sweep 0 0 0 0 [] }

/-- A group whose lane 0 waits for raster order. -/
def orderedGroup : Group := { Group.zero with wait := [(0, .order)] }

/-- One team, whose table lists group 0 twice: as a sweep group, which is the group of that number, and after it as one that waits for
raster order. -/
def twiceListedState : State :=
  { State.reset with
    dev := { Device.reset with service := .normal, trained := true, config := 4 }
    ctxs := [(0, { Ctx.free with st := .running })]
    teams := [(0, { Team.zero with core := some 0, size := 65536, groups := [(0, sweepGroup), (0, orderedGroup)] })]
    cores := [(0, { Core.empty with issue := some postedClause })], turn := .core 0 }

theorem twiceListed_sole : Sole twiceListedState 0 postedClause postedPath :=
  ⟨rfl, rfl, rfl, by decide, rfl, rfl, by decide +kernel, by decide +kernel, by decide +kernel, by decide +kernel, rfl,
    ⟨rfl, rfl, rfl⟩⟩

theorem twiceListed_active : postedPath.active twiceListedState Guard.always = postedPath.lanes := by decide +kernel

/-- Read by number, no group of the team waits for raster order. -/
theorem twiceListed_noOrder (n : Nat) : ∀ v ∈ (twiceListedState.group 0 n).wait, v.2 ≠ .order := by
  have hnone : (twiceListedState.group 0 n).wait = [] := by
    by_cases hn : n = 0
    · subst hn; rfl
    · show (get Group.zero n [(0, sweepGroup), (0, orderedGroup)]).wait = []
      rw [show get Group.zero n [(0, sweepGroup), (0, orderedGroup)] = Group.zero by simp only [get, find, hn, if_false]; rfl]
      rfl
  simp only [hnone, List.not_mem_nil, false_implies, implies_true]

/-- The state of lane 0 after a step. -/
def waitLaneAfter (o : Host.Outcome State Fault Refusal) : Option Nat :=
  match o with
  | .next t => some ((postedPath.group t).state 0)
  | .fault _ | .refused _ => none

/-- The second entry has lane 0 released into the first, where it had exited. -/
theorem twiceListed_released : waitLaneAfter (exec (.pwait Guard.always 0 (.s 0) (.s 0)) twiceListedState) = some 1 := by
  decide +kernel

end Sys2Proof.Machine

open Sys2Proof Sys2Proof.Machine

/-- Refutes O37: in a team whose table of groups lists a number twice, and so is not in canonical form. The condition of `PWAIT` that no
lane of the team waits for raster order reads each group by its number, which gives the first entry alone; the release at the exit (R145)
goes through all entries, finds lane 0 waiting in the second, and has lane 0 of the group ready again where the statement has it exited
(R173, R225). -/
theorem not_parcelLaneInstructionsComplete : ¬ Obligations.ParcelLaneInstructionsComplete := by
  intro h
  have waits := (h _ _ _ _ twiceListed_sole Guard.always ⟨0, none⟩ 0 0 (.s 0) (.s 0) 0 0 (by decide +kernel) trivial
    (fun _ hk => nomatch hk) (fun _ _ => trivial) (by decide +kernel)).1 ⟨_, _, _, _, _, rfl⟩ nofun twiceListed_noOrder
  rw [twiceListed_active] at waits
  obtain ⟨t, hnext, -, -, hwent, -⟩ := waits.over
  obtain ⟨-, hexited, -⟩ := hwent.there 0 (by decide) (by decide)
  have hreleased := twiceListed_released
  rw [hnext] at hreleased
  exact absurd (hexited.symm.trans (Option.some.inj hreleased)) (by decide)
end

section
/-!
PROOF. The first step of a write-back stores registers and element one after the other, each translated when its turn comes (R99, R173,
R345): the refutation of the obligation about sweep engines, which has them stand in memory afterwards also where the tensor is not
aligned and a word runs over the end of its line and page.
-/
namespace Sys2Proof.Machine

/-- Where nothing is cached nothing cached is out of date. -/
theorem State.Current.of_cold {s t : State} {core c : Nat} (htlb : (t.core core).tlb = []) (hl2 : get [] (core / 8) t.l2 = [])
    (hmids : get [] (core / 8) t.mids = []) : s.Current t core c := by
  refine ⟨fun e he => ?_, fun e he => ?_, fun e he => ?_⟩
  · rw [htlb] at he; cases he
  · rw [hl2] at he; cases he
  · rw [hmids] at he; cases he

/-! ### A word that runs over the end of a page into a page table -/

/-- The record of a tensor of parcels with one register each and elements of 64 bits, whose first parcel stands 15 bytes before 512 GiB:
its register lies across that address. -/
def straddlingRecord : BitVec 768 := BitVec.ofNat 768 (3 * 2 ^ 8 + 2 ^ 20 + 2 ^ 21 + (2 ^ 39 - 15) * 2 ^ 64)

/-- A sweep group whose one lane has ended, with 0 as its parcel's register and 1 as its element. -/
def endedGroup : Group :=
  { Group.zero with width := 32, n := 8, sort := .sweep 0 0 0 0 [(0, 0)], v := [(128, 1)], st := [(0, 2)] }

def straddlingEngine : Engine :=
  { team := 0, phase := .claim, cc := 0, cursor := 0, claimed := (0, 0), forming := [], entry := 0, formed := [], cleared := true,
    admitted := 1, wb := [], places := [(0, 1)], next := 0, pass := 0, op := none, park := none, held := false, abandoned := false }

def straddlingSweep : Sweep :=
  { grid := 0, team := 0, grp := 0, ctx := 0, pend := none, d := 0, token := 0, handle := 0, record := straddlingRecord, table := 0,
    area := 0, role := 0, mode := .one, left := 0, build := false, passes := 0, stop := false, broken := false, nc := 1, s1 := 0,
    level := .user, ord := 0, engines := [(0, straddlingEngine)] }

/-- A device with 4 GiB of memory and one context. Its page table maps the last GiB below 512 GiB to the second GiB of memory, by a table
at 4 KiB, and the first GiB from there on to the fourth, by a table at the start of the third. -/
def straddlingState : State :=
  { State.reset with
    mem := [(0x1FF8, 0x3B), (0x1FFB, 0x40), (0x200000, 0x01), (0x200001, 0x10), (0x200008, 0x01), (0x20000B, 0x80),
      (0x80000000, 0x3B), (0x80000003, 0xC0)]
    dev := { Device.reset with service := .normal, trained := true, config := 4 }
    ctxs := [(0, { Ctx.free with st := .running, ptroot := 0x200000 })]
    teams := [(0, { Team.zero with core := some 0, size := 65536, groups := [(0, Group.zero), (1, endedGroup)] })]
    cores := [(0, Core.empty)], sweeps := [(0, straddlingSweep)], turn := .core 0 }

/-- The state with the write-back of the place on record. -/
def straddlingBegun : State := straddlingState.onEngine 0 0 (fun x => { x with wb := put 0 (1, 0, 1) x.wb })

def straddlingAgent : Agent := { core := 0, ctx := 0, team := 0, grp := 0, level := .user, ord := some 0 }

theorem straddling_engine : find 0 straddlingState.sweeps = some straddlingSweep ∧
    find 0 straddlingSweep.engines = some straddlingEngine ∧ straddlingState.engineRuns straddlingSweep straddlingEngine = true := by
  decide +kernel

theorem straddling_place :
    straddlingEngine.places.find? (fun p => ((straddlingState.team straddlingEngine.team).group p.2).finished) = some (0, 1) := by
  decide +kernel

/-- What the step stores: the register's word and the element's. -/
def straddlingStores : List (Word × Nat × Nat) := [(2 ^ 39 - 7, 8, 0), (2 ^ 39 + 1, 8, 1)]

theorem wbStores_straddling : wbStores straddlingRecord endedGroup 0 0 = straddlingStores := by decide +kernel

/-! ### Where the two words stand before the step -/

/-- The register's word: its first byte is among the last of the second GiB, its last among those of the table behind. -/
def registerSpot : Spot :=
  { cls := 0, addr := 0x7FFFFFF9, leaf := { pa := 0x7FFFF000, cls := 0, w := true, x := true, u := true, tick := 0 }
    walk := some ([0x8000, 0x7F], [(midKey 0 3 (2 ^ 39 - 7), { loc := 0, table := 0x1000, tick := 0 })]) }

/-- The element's word. -/
def elementSpot : Spot :=
  { cls := 0, addr := 0xC0000001, leaf := { pa := 0xC0000000, cls := 0, w := true, x := true, u := true, tick := 0 }
    walk := some ([0x8000, 0x2000000], [(midKey 0 3 (2 ^ 39 + 1), { loc := 0, table := 0x80000000, tick := 0 })]) }

theorem register_seek : straddlingBegun.seek straddlingAgent .write (2 ^ 39 - 7) = .ok registerSpot := by decide +kernel

theorem element_seek : straddlingBegun.seek straddlingAgent .write (2 ^ 39 + 1) = .ok elementSpot := by decide +kernel

theorem straddling_spots :
    straddlingBegun.spots straddlingAgent .write (straddlingStores.map (·.1)) = [registerSpot, elementSpot] := by decide +kernel

theorem straddling_reach : straddlingBegun.obstacle straddlingAgent .write (straddlingStores.map (·.1)) = none := by decide +kernel

theorem straddling_plain : ∀ p ∈ [registerSpot, elementSpot], straddlingState.owned (lineNo p.addr) = false ∧
    straddlingState.Plain 0 p.cls p.addr 8 := by decide +kernel

/-- Neither word begins in a line with an entry that translates one of them. -/
theorem straddling_walks : ∀ z ∈ straddlingStores, lineNo registerSpot.addr ∉ (straddlingState.walk 0 0 z.1).lines ∧
    lineNo elementSpot.addr ∉ (straddlingState.walk 0 0 z.1).lines := by decide +kernel

theorem straddling_seeks : ∀ y ∈ straddlingStores, ∃ p, straddlingBegun.seek straddlingAgent .write y.1 = .ok p ∧
    ∀ z ∈ straddlingStores, lineNo p.addr ∉ (straddlingState.walk 0 0 z.1).lines := by
  refine List.forall_mem_cons.mpr ⟨⟨_, register_seek, fun z hz => (straddling_walks z hz).1⟩, ?_⟩
  exact List.forall_mem_singleton.mpr ⟨_, element_seek, fun z hz => (straddling_walks z hz).2⟩

/-- The words do not overlap. -/
theorem straddling_apart : ∀ y ∈ straddlingStores, ∀ z ∈ straddlingStores, ∀ p q, y.1 ≠ z.1 →
    straddlingBegun.seek straddlingAgent .write y.1 = .ok p → straddlingBegun.seek straddlingAgent .write z.1 = .ok q →
    p.addr + y.2.1 ≤ q.addr ∨ q.addr + z.2.1 ≤ p.addr := by
  intro y hy z hz p q hne hp hq
  simp only [straddlingStores, List.mem_cons, List.not_mem_nil, or_false] at hy hz
  obtain rfl | rfl := hy <;> obtain rfl | rfl := hz
  · exact absurd rfl hne
  · cases register_seek.symm.trans hp; cases element_seek.symm.trans hq
    exact .inl (by decide)
  · cases element_seek.symm.trans hp; cases register_seek.symm.trans hq
    exact .inr (by decide)
  · exact absurd rfl hne

theorem straddling_current : straddlingState.Current straddlingState 0 0 := .of_cold rfl rfl rfl

/-! ### After the step -/

/-- The bytes at an address after a step. -/
def bytesAfter (a n : Nat) (o : Host.Outcome State Fault Refusal) : Option Nat :=
  match o with
  | .next t => some (readN t.mem a n)
  | .fault _ | .refused _ => none

/-- The end of the register's word has made the entry for the element's invalid: the element is not stored. -/
theorem straddling_lost : bytesAfter 0xC0000001 8 (exec (.sweepWriteback 0 0) straddlingState) = some 0 := by decide +kernel

end Sys2Proof.Machine

open Sys2Proof Sys2Proof.Machine

/-- Refutes O55: in the write-back of a parcel (R173) of a tensor whose record's base is not a multiple of 8, which the statement does not
exclude. The parcel's register is stored across the end of a line and of its page, and its last bytes fall into the page-table entry that
translates the element after it; the statement keeps the lines at which the words begin apart from those of the walks, but not the lines
into which they run on. The element's translation then fails, and memory does not hold the element that the statement has in it. -/
theorem not_sweepEnginesStep : ¬ Obligations.SweepEnginesStep := by
  intro h
  obtain ⟨hsweep, hengine, hruns⟩ := straddling_engine
  obtain ⟨-, -, writes, -⟩ := h straddlingState 0 0 straddlingSweep straddlingEngine hsweep hengine hruns
  obtain ⟨-, stores, -⟩ := writes 0 1 0 0 0 0 [(0, 0)] 0 straddling_place rfl
  obtain ⟨t, hnext, -, hread⟩ := (wbStores_straddling ▸ stores rfl rfl (by decide +kernel) rfl) straddling_reach
    (straddling_spots ▸ straddling_plain) straddling_seeks straddling_apart straddling_current
  have stored := hread _ (.tail _ (.head _)) elementSpot element_seek
  have lost := straddling_lost
  rw [hnext] at lost
  exact absurd ((Option.some.inj lost).symm.trans stored) (by decide)
end

section
/-!
SUPPORT. A recording (R389, R390): what a load and a store of a recorded context note and log, what leaves the log alone, and that loads
find memory whatever is recorded beside them.
-/
namespace Sys2Proof.Machine

/-! ### Loads beside what is recorded -/

/-- The state with another record of what has been accessed (R389). -/
def State.withRecorded (s : State) (r : SMap Recorded) : State := { s with recorded := r }

theorem walkFrom_withRecorded (s : State) (r : SMap Recorded) (c : Nat) (va : Word) (k : Nat) :
    ∀ l, (s.withRecorded r).walkFrom c va k l = s.walkFrom c va k l
  | 0 => rfl
  | l + 1 => by funext x b; unfold State.walkFrom; rw [walkFrom_withRecorded s r c va k l]; rfl

theorem tableLeaf_withRecorded (s : State) (r : SMap Recorded) (c : Nat) (va : Word) :
    (s.withRecorded r).tableLeaf c va = s.tableLeaf c va := by
  unfold State.tableLeaf; rw [walkFrom_withRecorded]; rfl

theorem State.Current.withRecorded {s t : State} {core c : Nat} (h : s.Current t core c) (r : SMap Recorded) :
    (s.withRecorded r).Current (t.withRecorded r) core c :=
  ⟨fun e he va hk => by rw [tableLeaf_withRecorded]; exact h.tlb e he va hk,
   fun e he va hk => by rw [tableLeaf_withRecorded]; exact h.l2 e he va hk,
   fun e he l va h1 h3 hk => by rw [tableLeaf_withRecorded, walkFrom_withRecorded]; exact h.mids e he l va h1 h3 hk⟩

theorem State.Calm.withRecorded {s : State} {n : Nat} {ps : SMap Part} (h : s.Calm n ps) (r : SMap Recorded) :
    (s.withRecorded r).Calm n ps :=
  ⟨h.room, h.live, h.parts, h.line, h.pts, h.copy⟩

theorem State.Calm.of_withRecorded {s : State} {n : Nat} {ps : SMap Part} {r : SMap Recorded} (h : (s.withRecorded r).Calm n ps) :
    s.Calm n ps :=
  ⟨h.room, h.live, h.parts, h.line, h.pts, h.copy⟩

/-- Loads find the same, whatever is recorded beside them. -/
theorem Loads.withRecorded {a : Agent} {s t : State} (h : Loads a s t) (r : SMap Recorded) :
    Loads a (s.withRecorded r) (t.withRecorded r) := by
  refine ⟨h.op, h.free, ⟨?_, h.alike.dev, h.alike.line⟩, h.start.withRecorded r, h.current.withRecorded r, h.l1,
    fun n ps k => (h.calm n ps k.of_withRecorded).withRecorded r⟩
  unfold State.withRecorded
  conv_lhs => rw [h.alike.rest]

/-! ### What leaves a recording alone -/

/-- Nothing of a recording differs. -/
def SameLogs (s t : State) : Prop := t.traces = s.traces ∧ t.writers = s.writers ∧ t.recorded = s.recorded

namespace SameLogs

variable {s t u : State}

theorem refl (s : State) : SameLogs s s := ⟨rfl, rfl, rfl⟩

theorem trans (h : SameLogs s t) (k : SameLogs t u) : SameLogs s u :=
  ⟨k.1.trans h.1, k.2.1.trans h.2.1, k.2.2.trans h.2.2⟩

theorem rekey (s : State) (key l : Nat) : SameLogs s (s.rekey key l) := by
  unfold State.rekey
  dsimp only
  split
  · exact refl _
  · split <;> exact ⟨rfl, rfl, rfl⟩

theorem plainWrite (s : State) (key a n v : Nat) : SameLogs s (s.plainWrite key a n v) := by
  have hrekey := rekey s key (lineNo a)
  unfold State.plainWrite
  dsimp only
  split <;> exact hrekey.trans ⟨rfl, rfl, rfl⟩

theorem writeKey (s : State) (key a n v : Nat) : SameLogs s (s.writeKey key a n v) := by
  have hsoil : SameLogs s (s.soil (lineNo a)) := by rw [soil_rest]; exact ⟨rfl, rfl, rfl⟩
  exact hsoil.trans (plainWrite _ _ _ _ _)

theorem pushCores (s : State) (cs : List Nat) (l t : Nat) : SameLogs s (s.pushCores cs l t) := by
  unfold State.pushCores
  exact foldl_keeps (SameLogs s) _ (fun u c (hu : SameLogs s u) => (show SameLogs s (u.onCore c _) from hu)) _ (refl _)

theorem checkTime (s : State) (t : Nat) : SameLogs s (s.checkTime t) := by
  unfold State.checkTime
  split <;> exact ⟨rfl, rfl, rfl⟩

theorem storeAt (s : State) (a : Agent) {cls : Nat} (hcls : cls ≠ 5) (addr n v t : Nat) :
    SameLogs s (s.storeAt a cls addr n v t) := by
  unfold State.storeAt
  dsimp only
  rw [if_neg hcls]
  have hw := writeKey s (s.keyOf a.ctx) addr n (s.tableMask addr n v)
  generalize s.writeKey (s.keyOf a.ctx) addr n (s.tableMask addr n v) = u at hw
  split
  · exact hw
  · have hline : SameLogs s (u.setLine (lineNo addr) { u.line (lineNo addr) with wts := t, rts := t }) := hw.trans ⟨rfl, rfl, rfl⟩
    exact (hline.trans (pushCores _ _ _ _)).trans (checkTime _ _)

end SameLogs

/-! ### What an access notes and logs -/

/-- A load of a line that few have read since its last store is noted, and nothing is logged. -/
theorem note_reads {s : State} {a : Agent} {l t : Nat} {rs : List (Nat × Nat × Nat × Nat)} (hrec : s.recording a.ctx = true)
    (hl : get { store := none, readers := [] } l s.recorded = { store := none, readers := rs }) (hsize : rs.length < 8) :
    s.note a l true false t = s.withRecorded (put l { store := none, readers := rs ++
      [((s.groupName a).1, (s.groupName a).2, a.ord.getD (s.group a.team a.grp).ordinal, t)] } s.recorded) := by
  unfold State.note
  simp only [hrec, if_true, hl, hsize, Bool.false_eq_true, if_false]
  rfl

/-- A store of a line is logged after its readers. -/
theorem note_stores {s : State} {a : Agent} {l t : Nat} {ld : Bool} {rs : List (Nat × Nat × Nat × Nat)} (hrec : s.recording a.ctx = true)
    (hl : get { store := none, readers := [] } l s.recorded = { store := none, readers := rs }) :
    (s.note a l ld true t).mem =
      (rs.foldl (fun u b => u.logPair a 2 b (a.ord.getD (s.group a.team a.grp).ordinal) t) s).mem := by
  unfold State.note
  simp only [hrec, if_true, hl]

/-- The state with a record written in the log, the log's block moved on, and what is logged of other groups. -/
def State.withPair (s : State) (key a v : Nat) (tr : Trace) (me : Nat) (seen : SMap Nat) : State :=
  { s.writeKey key a 32 v with
    traces := put 0 tr (s.writeKey key a 32 v).traces, writers := put me seen (s.writeKey key a 32 v).writers }

/-- The record of a pair of accesses (R390). -/
def pairRecord (me : Nat × Nat) (kind : Nat) (b : Nat × Nat × Nat × Nat) (ord t : Nat) : Nat :=
  b.1 + b.2.1 * 2 ^ 24 + me.2 * 2 ^ 28 + me.1 * 2 ^ 32 + kind * 2 ^ 56 + b.2.2.2 * 2 ^ 64 + t * 2 ^ 128 + b.2.2.1 * 2 ^ 192 +
    ord * 2 ^ 224

/-- A pair with a group of which none is logged yet goes into a log that has room. -/
theorem logPair_new {s : State} {a : Agent} {no ord t kind : Nat} {seen : SMap Nat} {tr : Trace} (hother : (no, 0) ≠ s.groupName a)
    (hseen : get [] (nameKey (s.groupName a)) s.writers = seen) (hnew : find (nameKey (no, 0)) seen = none) (hsize : seen.length < 64)
    (htrace : s.trace0 = tr) (hroom : tr.rrptr + 32 < tr.rrlogs * 4096) :
    s.logPair a kind (no, 0, 1, 0) ord t =
      (s.withPair s.dev.platform (backing 0 (tr.rrlog + tr.rrptr)) (pairRecord (s.groupName a) kind (no, 0, 1, 0) ord t)
        { tr with rrptr := tr.rrptr + 32 } (nameKey (s.groupName a)) (put (nameKey (no, 0)) 1 seen)).showReplay := by
  have hzero : get 0 (nameKey (no, 0)) seen = 0 := by unfold Machine.get; rw [hnew]; rfl
  have hfirst : ¬((no, 0) = s.groupName a ∨ 1 ≤ get 0 (nameKey (no, 0)) seen) := by
    rw [hzero]
    rintro (e | e)
    · exact hother e
    · exact absurd e (by decide)
  have hkept : (decide (64 ≤ seen.length) && (find (nameKey (no, 0)) seen).isNone) = false := by
    rw [decide_eq_false (by omega), Bool.false_and]
  unfold State.logPair
  dsimp only
  rw [hseen, htrace, if_neg hfirst, if_neg (by omega), if_neg (by omega), hkept]
  rfl

/-- No pair of a group with itself is logged. -/
theorem logPair_own {s : State} {a : Agent} {kind ord t : Nat} {b : Nat × Nat × Nat × Nat} (h : (b.1, b.2.1) = s.groupName a) :
    s.logPair a kind b ord t = s := by
  unfold State.logPair
  dsimp only
  rw [if_pos (.inl h)]

end Sys2Proof.Machine
end

section
/-!
SUPPORT. Loads and atomics at the home slice, each as one equation for a page that takes part in the order of R88, and what of a state a run
of loads touches.
-/
namespace Sys2Proof.Machine

/-- A load at the home slice from an ordered page takes its clocks and is noted. -/
theorem vload_ordered {s : State} {a : Agent} {va : Word} {n : Nat} {p : Spot} (hseek : s.seekNow a .read va = .ok p)
    (hsound : s.poisoned (s.keyOf a.ctx) (lineNo p.addr) = false) (hcls : p.cls ≠ 5) (hordered : ordered p.cls = true) :
    s.vload a va n = .ok (((s.walked a va p).readKey ((s.walked a va p).keyOf a.ctx) p.addr n).1,
      ((s.walked a va p).homeClock a (lineNo p.addr)).note a (lineNo p.addr) true false
        (Nat.max ((s.walked a va p).pts a) ((s.walked a va p).line (lineNo p.addr)).wts)) := by
  unfold State.vload State.load
  simp only [hseek, hsound, hcls, hordered, Bool.false_eq_true, Bool.false_and, Bool.not_true, if_false]

/-- An atomic on an ordered page whose line nothing owns. -/
theorem atomAt_ordered {s : State} {a : Agent} {va : Word} {n : Nat} {p : Spot} {f : Nat → Nat} (hseek : s.seek a .write va = .ok p)
    (hordered : ordered p.cls = true) (hheld : p.held = false) (howned : s.owned (lineNo p.addr) = false)
    (hsound : s.poisoned (s.keyOf a.ctx) (lineNo p.addr) = false) :
    s.atomAt a false va n f = .ok ((s.walked a va p).rmw a p.cls p.addr n f) := by
  have hclass : s.classBad a .write ordered va = false := by
    unfold State.classBad
    simp only [hseek, hordered, Bool.not_true, Bool.and_false]
  have hplace : s.place a false .write va = .ok p := by
    unfold State.place State.waitLine
    simp only [hseek, hheld, howned, Bool.false_or, Bool.and_false, Bool.false_and, Bool.false_eq_true, if_false]
  unfold State.atomAt
  simp only [hclass, hplace, hsound, Bool.false_eq_true, if_false]

theorem Touched.vload {b : Bool} {a : Agent} (ha : a.op = none) {s t : State} {va : Word} {n w : Nat} (h : s.vload a va n = .ok (w, t)) :
    Touched b s t := by
  unfold State.vload at h
  split at h
  · cases h
  · next p hp =>
    split at h
    · cases h
    · have touched : Touched b s ((s.walked a va p).load a false p.cls p.addr n).2 :=
        (Touched.walked s a va p ha).trans (.load _ _ _ _ _ _)
      rw [Except.ok.inj h] at touched
      exact touched

theorem Touched.loadWords {b : Bool} {a : Agent} (ha : a.op = none) (n : Nat) : ∀ (s : State) (va : Word) (ws : List Nat) (t : State),
    State.loadWords a s va n = .ok (ws, t) → Touched b s t := by
  induction n with
  | zero => intro s va ws t h; cases h; exact .refl b s
  | succ n ih =>
    intro s va ws t h
    unfold State.loadWords at h
    split at h
    · cases h
    · next w u hu =>
      split at h
      · cases h
      · next xs v hv =>
        cases h
        exact (Touched.vload ha hu).trans (ih _ _ _ _ hv)

/-- Where no line is owned nothing waits for one. -/
theorem ownedHome_unowned {s : State} (h : ∀ l, s.owned l = false) (a : Agent) (use : Use) (vas : List Word) :
    s.ownedHome a use vas = [] := by
  unfold State.ownedHome State.waitLines
  rw [List.filterMap_eq_nil_iff]
  intro p hp
  obtain ⟨va, -, hva⟩ := List.mem_filterMap.mp hp
  split at hva
  · cases hva
  · next q hq =>
    cases hva
    unfold State.waitLine
    simp only [h, unheld_of_unowned h hq, Bool.and_false, Bool.false_and, Bool.or_false, Bool.false_eq_true, if_false]

end Sys2Proof.Machine
end

section
/-!
SUPPORT. `PSWEEP` in one step (R295): with its checks passed it marks the plat header and starts the sweep.
-/
namespace Sys2Proof.Machine

/-- What `PSWEEP` makes of the header's first word. -/
def activate (y : Nat) : Nat := if y / 2 ^ 16 % 2 = 1 then y else y + 2 ^ 16

theorem psweepBusy_idle {s : State} (h : s.sweeps = []) {n : Nat} {hd : Header} (hextra : hd.noExtra 32 = false) :
    s.psweepBusy n (some hd) = none := by
  have hidle : ∀ t, s.sweeping t = false := fun t => by unfold State.sweeping; rw [h]; rfl
  unfold State.psweepBusy
  simp only [hidle, List.any_eq_true, Bool.false_eq_true, and_false, exists_false, if_false, hextra]

/-- What `PSWEEP` comes to where its checks pass (R295). -/
theorem psweep_effect {e : Env} {s t v : State} {ll : Ll} {md : SweepMode} {build : Bool} {role : BitVec 3} {d h b : SReg} {r : BitVec 768}
    {ws : List Nat} {old : Nat} (hact : e.act ≠ 0) (hhandle : s.handle e ((e.group s).sreg h.toNat) 1 (some (26, 10)) = .ok r)
    (hbad : psweepBad r (s.headerOf e.team) md role.toNat ((e.group s).sreg b.toNat) ((e.group s).sreg (b.toNat + 1))
      ((e.group s).sreg (b.toNat + 2)) = false) (hwords : State.loadWords e.agent s (recPlat r) 32 = .ok (ws, t))
    (howned : s.ownedHome e.agent .read ((List.range 32).map (fun k => recPlat r + BitVec.ofNat 64 (8 * k))) = [])
    (hplat : platBad ws = false)
    (hbusy : t.psweepBusy e.team (t.headerOf e.team) = none)
    (hatom : t.atomAt e.agent false (recPlat r) 8 activate = .ok (old, v)) (hold : old / 2 ^ 16 % 2 ≠ 1) (g : Guard) (S : State) :
    ∃ f : Env → State → Res, execPsweep g ll md build role d h b S =
      .next (S.run { g := g, ll := some ll, mem := true, acc := true, once := true } f) ∧
      f e s = .go (v.psweepStart e ll r (field old 0 16) (ws.getD 1 0) md build role.toNat d ((e.group s).sreg h.toNat)
        ((e.group s).sreg b.toNat) ((e.group s).sreg (b.toNat + 1)) ((e.group s).sreg (b.toNat + 2))) := by
  refine ⟨_, rfl, ?_⟩
  unfold activate at hatom
  unfold Env.withPlat Env.withRead
  simp only [hhandle, hbad, hwords, howned, hact, hplat, hbusy, hatom, hold, Bool.false_eq_true, if_false, Option.getD_some]

/-- `PSWEEP` then ends in a state with the memory that its atomic left. -/
theorem psweepStart_ends {s v : State} {c : Nat} {x : Issue} {m : Member} {sh : Shape} (hsole : Sole s c x m)
    (hv : Listing s v m sh) {ll : Ll} {r : BitVec 768} {nc pass role : Nat} {md : SweepMode} {build : Bool} {d : SReg}
    {hd table area n : Word} {f : Env → State → Res} (hll : ∀ l, sh.ll = some l → m.canCount s sh.g l) (hq : s.roomFor sh c m)
    (hw : sh.wait (s.env c x m sh.g) s = false) (hl : (m.group s).level.atLeast sh.level = true) (ht : sh.top ≤ (m.group s).n)
    (hf : f (s.env c x m sh.g) (s.begun sh c x m) =
      .go (v.psweepStart (s.env c x m sh.g) ll r nc pass md build role d hd table area n)) :
    ∃ t, (Host.Outcome.next (s.run sh f) : Host.Outcome State Fault Refusal) = .next t ∧ t.mem = v.mem := by
  have hgroup : m.group (v.psweepStart (s.env c x m sh.g) ll r nc pass md build role d hd table area n) =
      ((m.group v).begin ll (s.env c x m sh.g).act { Pend.zero with ready := false, sw := [(d.toNat, 0)] }).1 := by
    show (v.onGroup m.team m.grp _).group m.team m.grp = _
    rw [State.group_onGroup, if_pos ⟨rfl, rfl, by simpa [State.has] using hv.has⟩]
    rfl
  obtain ⟨u, t, hnext, hmem, hapart, -⟩ := run_ends hsole sh f _ 0 hll hq hw hl ht hf ((has_onGroup _ _ _ _ _ _).trans hv.has)
    (by rw [hgroup, begin_calls, hv.own]; exact hsole.calls) (fun u => u.mem = v.mem) rfl
  refine ⟨t, hnext, ?_⟩
  rw [hapart.rest]
  exact hmem

end Sys2Proof.Machine
end

section
/-!
PROOF. `PSWEEP` takes an ordinal at its issue, and its accesses are recorded under it (R389): the refutation of the obligation about sweeps'
start and stop, whose memory is what the same accesses leave before the issue.
-/
namespace Sys2Proof.Machine

theorem get_single_ne {α : Type} (d v : α) {k j : Nat} (h : k ≠ j) : get d k [(j, v)] = d := by
  unfold Machine.get find
  rw [if_neg h]
  rfl

/-! ### A recorded context -/

/-- A kernel of one role of 64 registers with one group of eight lanes. -/
def sweepHeader : Header :=
  { ver := 3, wcode := 0, codelen := 4096, scratch := 65536, accn := 0, z := 16384, payload := 8, recurse := 4, uient := 0x40
    roles := [⟨64, 1, 64⟩], shelves := [] }

/-- Its grid. -/
def sweepGrid : Grid :=
  { ctx := 0, part := 0, from_ := 0, team := 0, grp := 0, dc := none, record := 0, code := 0x3000, hdr := sweepHeader, teams := 1
    next := 1, gangs := 1, live := 1, queued := false }

/-- The control block of a recording with a log of one page at 0x9000, of which so many bytes are written. -/
def logTrace (ptr : Nat) : Trace := { Trace.zero with rrmode := 1, rrst := 1, rrlogs := 1, rrlog := 0x9000, rrptr := ptr }

/-- What is recorded of the line of the plat header: two groups of other teams have read it. -/
def platReaders : List (Nat × Nat × Nat × Nat) := [(1, 0, 1, 0), (2, 0, 1, 0)]

/-- A device with 4 GiB of memory that records its one context. Its page table maps the first GiB of addresses to the second of memory, and
the next, host-posted, to the host. Entry 0 of the binding table binds a parcel tensor whose plat header has its first word, an `NC` of 4,
at the end of the one and its other words at the start of the other: loads of those are not ordered, and so are not noted. -/
def recordingState : State :=
  { State.reset with
    mem := [(0x1000, 0x3B), (0x1003, 0x40), (0x1008, 0x7B), (0x1009, 0x01), (0x100B, 0x40), (0x100002, 0x10), (0x100003, 0x04),
      (0x100058, 0xF8), (0x100059, 0xFF), (0x10005A, 0xFF), (0x10005B, 0x3F), (0x100064, 0x01), (0x200000, 0x01), (0x200001, 0x10),
      (0x7FFFFFF8, 0x04)]
    dev := { Device.reset with service := .normal, trained := true, config := 4 }
    ctxs := [(0, { Ctx.free with st := .running, ptroot := 0x200000, bindt := 0x100000 })]
    teams := [(0, { Team.zero with core := some 0, size := 65536, groups := [(0, postedGroup)] })]
    grids := [(0, sweepGrid)]
    cores := [(0, { Core.empty with issue := some postedClause })], turn := .core 0
    traces := [(0, logTrace 0)], recorded := [(0x1FFFFFF, { store := none, readers := platReaders })] }

/-! ### The log -/

/-- The group's side of the log: so many bytes of it are written, and the pairs logged say so much of the other groups. -/
structure Logging (s : State) (ptr : Nat) (seen : SMap Nat) : Prop where
  trace : s.traces = [(0, logTrace ptr)]
  writers : get [] 0 s.writers = seen
  no : (s.team 0).no = 0
  platform : s.dev.platform = 0
  keys : ∀ l, (s.line l).key = 0

/-- The bytes in which the control block shows the log's state (R380). -/
def Shown (x : Nat) : Prop := Config.traceBlock 0 + 72 ≤ x ∧ x < Config.traceBlock 0 + 81

theorem keyless_writeKey {s : State} (h : ∀ l, (s.line l).key = 0) (a n v : Nat) :
    (∀ l, ((s.writeKey 0 a n v).line l).key = 0) ∧ (s.writeKey 0 a n v).mem = writeN s.mem a n v ∧
    (s.writeKey 0 a n v).traces = s.traces := by
  refine ⟨fun l => ?_, writeKey_mem n v (.inl (h _))⟩
  rcases KeysTo.writeKey s 0 a n v l with k | k
  · rw [k, h l]
  · exact k

theorem showReplay_mem {s : State} (hp : s.dev.platform = 0) (h : ∀ l, (s.line l).key = 0) {x : Nat} (hx : ¬ Shown x) :
    get 0 x s.showReplay.mem = get 0 x s.mem := by
  unfold State.showReplay backing
  obtain ⟨k1, m1, -⟩ := keyless_writeKey h (0 * 2 ^ 60 + (Config.traceBlock 0 + 72)) 8 s.trace0.rrptr
  obtain ⟨-, m2, -⟩ := keyless_writeKey k1 (0 * 2 ^ 60 + (Config.traceBlock 0 + 80)) 1 s.trace0.rrst
  unfold Shown at hx
  rw [hp, m2, get_writeN, if_neg (by omega), m1, get_writeN, if_neg (by omega)]

theorem Logging.touched {s t : State} {ptr : Nat} {seen : SMap Nat} (h : Logging s ptr seen) (ht : Touched false s t)
    (hlogs : SameLogs s t) (hkeys : ∀ l, (t.line l).key = 0) : Logging t ptr seen := by
  obtain ⟨htraces, hwriters, -⟩ := hlogs
  exact ⟨htraces.trans h.trace, by rw [hwriters]; exact h.writers, by rw [ht.team 0]; exact h.no, by rw [ht.dev]; exact h.platform,
    hkeys⟩

theorem Logging.withPair {s : State} {ptr : Nat} {seen : SMap Nat} (h : Logging s ptr seen) (a v p : Nat) (m : SMap Nat) :
    Logging (s.withPair 0 a v (logTrace p) 0 m) p m := by
  obtain ⟨hkeys, -, htraces⟩ := keyless_writeKey h.keys a 32 v
  have touched : Touched false s (s.writeKey 0 a 32 v) := .writeKey _ _ _ _ _
  unfold State.withPair
  generalize s.writeKey 0 a 32 v = u at hkeys touched htraces
  refine ⟨?_, get_put_self _ _ _ _, ?_, ?_, hkeys⟩
  · show put 0 _ u.traces = _
    rw [htraces, h.trace]
    rfl
  · exact (congrArg Team.no (touched.team 0)).trans h.no
  · exact (congrArg Device.platform touched.dev).trans h.platform

theorem Logging.showReplay {s : State} {ptr : Nat} {seen : SMap Nat} (h : Logging s ptr seen) : Logging s.showReplay ptr seen := by
  unfold State.showReplay
  rw [h.platform]
  obtain ⟨k1, -, -⟩ := keyless_writeKey h.keys (backing 0 (Config.traceBlock 0 + 72)) 8 s.trace0.rrptr
  obtain ⟨k2, -, -⟩ := keyless_writeKey k1 (backing 0 (Config.traceBlock 0 + 80)) 1 s.trace0.rrst
  exact h.touched ((Touched.writeKey _ _ _ _ _).trans (.writeKey _ _ _ _ _))
    ((SameLogs.writeKey _ _ _ _ _).trans (.writeKey _ _ _ _ _)) k2

/-- The bytes from 28 on of a record hold the ordinal of the access. -/
theorem pairRecord_ordinal {no ord t : Nat} (hno : no < 2 ^ 24) (ht : t < 2 ^ 64) :
    pairRecord (0, 0) 2 (no, 0, 1, 0) ord t / 256 ^ 28 = ord := by
  unfold pairRecord
  rw [show (256 : Nat) ^ 28 = 2 ^ 224 by decide]
  dsimp only
  omega

section logged

variable {s : State} {ptr no : Nat} {seen : SMap Nat} (h : Logging s ptr seen) (ord t : Nat) (hno : no ≠ 0)
  (hnew : find (nameKey (no, 0)) seen = none) (hsize : seen.length < 64) (hroom : ptr + 32 < 4096)
include h hno hnew hsize hroom

/-- A store of the group after a read by a group of another team goes into the log. -/
theorem Logging.logPair_eq : s.logPair postedAgent 2 (no, 0, 1, 0) ord t =
    (s.withPair 0 (0x9000 + ptr) (pairRecord (0, 0) 2 (no, 0, 1, 0) ord t) (logTrace (ptr + 32)) 0
      (put (nameKey (no, 0)) 1 seen)).showReplay := by
  have hname : s.groupName postedAgent = (0, 0) := congrArg (·, 0) h.no
  have htrace : s.trace0 = logTrace ptr := by unfold State.trace0; rw [h.trace]; rfl
  have haddr : backing 0 ((logTrace ptr).rrlog + (logTrace ptr).rrptr) = 0x9000 + ptr := by
    unfold backing logTrace
    rw [Nat.zero_mul, Nat.zero_add]
  have hother : (no, 0) ≠ s.groupName postedAgent := fun e => hno (Prod.mk.inj (e.trans hname)).1
  rw [logPair_new hother (by rw [hname]; exact h.writers) hnew hsize htrace (by unfold logTrace; dsimp only; omega), hname, haddr,
    h.platform]
  rfl

/-- The log goes on behind it. -/
theorem Logging.logPair : Logging (s.logPair postedAgent 2 (no, 0, 1, 0) ord t) (ptr + 32) (put (nameKey (no, 0)) 1 seen) := by
  rw [h.logPair_eq ord t hno hnew hsize hroom]
  exact (h.withPair _ _ _ _).showReplay

theorem Logging.logPair_mem {x : Nat} (hx : ¬ Shown x) : get 0 x (s.logPair postedAgent 2 (no, 0, 1, 0) ord t).mem =
    get 0 x (writeN s.mem (0x9000 + ptr) 32 (pairRecord (0, 0) 2 (no, 0, 1, 0) ord t)) := by
  rw [h.logPair_eq ord t hno hnew hsize hroom]
  have logged := h.withPair (0x9000 + ptr) (pairRecord (0, 0) 2 (no, 0, 1, 0) ord t) (ptr + 32) (put (nameKey (no, 0)) 1 seen)
  rw [showReplay_mem logged.platform logged.keys hx]
  obtain ⟨-, hmem, -⟩ := keyless_writeKey h.keys (0x9000 + ptr) 32 (pairRecord (0, 0) 2 (no, 0, 1, 0) ord t)
  exact congrArg (Machine.get 0 x) hmem

end logged

/-- The byte of the log in which the ordinal of the k-th record begins. -/
def ordinalByte (k : Nat) : Nat := 0x9000 + 32 * k + 28

/-- One of the two records is not reached by what the control block shows. -/
theorem unshown : ∃ k, k < 2 ∧ ¬ Shown (ordinalByte k) := by
  by_cases h : Shown (ordinalByte 0)
  · refine ⟨1, by decide, fun h' => ?_⟩
    unfold Shown ordinalByte at h h'
    omega
  · exact ⟨0, by decide, h⟩

/-- Both records say the ordinal. -/
theorem logged_ordinals {s : State} (h : Logging s 0 []) {e : Nat × Nat × Nat × Nat} (he : (e.1, e.2.1) = (0, 0)) (ord : Nat) {t : Nat}
    (ht : t < 2 ^ 64) {k : Nat} (hk : k < 2) (hshown : ¬ Shown (ordinalByte k)) :
    get 0 (ordinalByte k) ((platReaders ++ [e]).foldl (fun u b => u.logPair postedAgent 2 b ord t) s).mem = BitVec.ofNat 8 ord := by
  have first := h.logPair ord t (no := 1) (by decide) rfl (by decide) (by decide)
  have second := first.logPair ord t (no := 2) (by decide) (by decide) (by decide) (by decide)
  show get 0 (ordinalByte k) (((s.logPair postedAgent 2 (1, 0, 1, 0) ord t).logPair postedAgent 2 (2, 0, 1, 0) ord t).logPair
    postedAgent 2 e ord t).mem = _
  rw [logPair_own (he.trans (congrArg (·, 0) second.no).symm),
    first.logPair_mem ord t (no := 2) (by decide) (by decide) (by decide) (by decide) hshown, get_writeN]
  obtain rfl | rfl : k = 0 ∨ k = 1 := by omega
  · rw [if_neg (by unfold ordinalByte; omega), h.logPair_mem ord t (no := 1) (by decide) rfl (by decide) (by decide) hshown, get_writeN,
      if_pos (by unfold ordinalByte; omega)]
    exact congrArg (BitVec.ofNat 8) (pairRecord_ordinal (by decide) ht)
  · rw [if_pos (by unfold ordinalByte; omega)]
    exact congrArg (BitVec.ofNat 8) (pairRecord_ordinal (by decide) ht)

/-! ### The plat header -/

theorem recording_sole : Sole recordingState 0 postedClause postedPath :=
  ⟨rfl, rfl, rfl, by decide, rfl, rfl, by decide +kernel, by decide +kernel, by decide +kernel, by decide +kernel, rfl,
    ⟨rfl, rfl, rfl⟩⟩

/-- The place of the plat header. -/
def platSpot : Spot :=
  { cls := 0, addr := 0x7FFFFFF8, leaf := { pa := 0x7FFFF000, cls := 0, w := true, x := true, u := true, tick := 0 }
    walk := some ([0x8000, 0x40], [(midKey 0 3 0x3FFFFFF8, { loc := 0, table := 0x1000, tick := 0 })]) }

theorem plat_look : recordingState.look 0 0 .user .read 0x3FFFFFF8 none false = .ok platSpot := by decide +kernel

theorem plat_leaf : recordingState.tableLeaf 0 0x3FFFFFF8 = .ok platSpot.leaf := by decide +kernel

/-- The leaf of the page behind it, in class 5. -/
def behindLeaf : Leaf := { pa := 0x40000000, cls := 5, w := true, x := true, u := true, tick := 0 }

theorem behind_leaf : recordingState.tableLeaf 0 0x40000000 = .ok behindLeaf := by decide +kernel

theorem recording_unowned (l : Nat) : recordingState.owned l = false := rfl

theorem recording_current : recordingState.Current recordingState 0 0 := .of_cold rfl rfl rfl

theorem recording_pts (t g : Nat) : (recordingState.group t g).gts = 0 := by
  by_cases ht : t = 0
  · subst ht
    by_cases hg : g = 0
    · subst hg; rfl
    · exact congrArg Group.gts (get_single_ne Group.zero postedGroup hg)
  · rw [show recordingState.group t g = (recordingState.team t).group g from rfl,
      show recordingState.team t = Team.zero from get_single_ne _ _ ht]
    rfl

theorem recording_copies (c : Nat) : (recordingState.core c).l1 = [] := by
  by_cases hc : c = 0
  · subst hc; rfl
  · exact congrArg Core.l1 (get_single_ne Core.empty _ hc)

/-- No timestamp has been given. -/
theorem recording_calm : recordingState.Calm 0 [] := by
  refine ⟨by decide, rfl, rfl, fun l => ⟨Nat.le_refl 0, Nat.zero_le _⟩, fun t g => Nat.le_of_eq (recording_pts t g),
    fun c e he => ?_⟩
  rw [recording_copies] at he
  cases he

theorem behind_zero : ∀ k < 31, readN recordingState.mem (0x2000000040000000 + 8 * k) 8 = 0 := by decide +kernel

section reads

variable {s t : State}

theorem recording_loads (h : Sight recordingState s) (hcalm : ∀ n ps, recordingState.Calm n ps → s.Calm n ps) :
    Loads postedAgent recordingState s := by
  refine ⟨rfl, recording_unowned, h.alike, recording_current, .of_cold (h.core 0).1 ?_ ?_, fun e he => ?_, hcalm⟩
  · rw [h.l2]; rfl
  · rw [h.mids]; rfl
  · rw [(h.core _).2] at he; cases he

/-- What is recorded of the header's line after the group has read it. -/
def readBy (e : Nat × Nat × Nat × Nat) : SMap Recorded := [(0x1FFFFFF, { store := none, readers := platReaders ++ [e] })]

/-- The first word of the header is read, and the access noted. -/
theorem plat_first (h : Sight recordingState s) (hcalm : ∀ n ps, recordingState.Calm n ps → s.Calm n ps) (hno : (s.team 0).no = 0) :
    ∃ e u, e.1 = 0 ∧ e.2.1 = 0 ∧ s.vload postedAgent 0x3FFFFFF8 8 = .ok (4, u) ∧
      Loads postedAgent (recordingState.withRecorded (readBy e)) u := by
  have hlook : s.look 0 0 .user .read 0x3FFFFFF8 none false = .ok platSpot := (h.look _ _ _ _ _ _ _).trans plat_look
  have walked := (recording_loads h hcalm).walked (va := 0x3FFFFFF8) (p := platSpot) hlook
  have clocked := walked.still (Alike.homeClock _ postedAgent 0x1FFFFFF) (Cached.homeClock _ _ _) (fun _ _ w => w.homeClock _ _)
  have touched : Touched false s ((s.walked postedAgent 0x3FFFFFF8 platSpot).homeClock postedAgent 0x1FFFFFF) :=
    (Touched.walked _ _ _ _ rfl).trans (.homeClock _ _ _)
  have hword : ((s.walked postedAgent 0x3FFFFFF8 platSpot).readKey
      ((s.walked postedAgent 0x3FFFFFF8 platSpot).keyOf 0) 0x7FFFFFF8 8).1 = 4 := by
    rw [walked.alike.readKey, walked.alike.keyOf]
    decide +kernel
  have hsound : s.poisoned (s.keyOf 0) 0x1FFFFFF = false := by
    rw [h.alike.poisoned, h.alike.keyOf]
    decide +kernel
  have hload := vload_ordered (n := 8) (p := platSpot) (a := postedAgent) hlook hsound (by decide) rfl
  rw [show lineNo platSpot.addr = 0x1FFFFFF from rfl, show platSpot.addr = 0x7FFFFFF8 from rfl, show postedAgent.ctx = 0 from rfl,
    hword] at hload
  generalize (s.walked postedAgent 0x3FFFFFF8 platSpot).homeClock postedAgent 0x1FFFFFF = c at clocked touched hload
  have hrec : c.recording postedAgent.ctx = true := by
    rw [clocked.alike.recording]
    rfl
  have hrecorded : c.recorded = recordingState.recorded := by rw [clocked.alike.rest]
  rw [note_reads (rs := platReaders) hrec (by rw [hrecorded]; rfl) (by decide), hrecorded] at hload
  have hname : c.groupName postedAgent = (0, 0) := congrArg (·, 0) ((congrArg Team.no (touched.team 0)).trans hno)
  rw [hname] at hload
  exact ⟨_, _, rfl, rfl, hload, clocked.withRecorded _⟩

/-- The addresses of the words behind it. -/
def behindVa (k : Nat) : Word := 0x40000000 + BitVec.ofNat 64 (8 * k)

theorem behindVa_page : ∀ k < 31, canonicalVa (behindVa k) = true ∧ (behindVa k).toNat = 0x40000000 + 8 * k := by decide

theorem behindVa_next (k : Nat) : behindVa k + 8 = behindVa (k + 1) := by
  unfold behindVa
  rw [Nat.mul_add, BitVec.ofNat_add, ← BitVec.add_assoc]
  rfl

/-- A page of the context is found with the leaf that its table gives it. -/
theorem page_look {r : SMap Recorded} (h : Loads postedAgent (recordingState.withRecorded r) t) {use : Use} {va : Word} {f : Leaf}
    (hcanon : canonicalVa va = true) (hleaf : recordingState.tableLeaf 0 va = .ok f) (hfetch : (use == .fetch) = false) (hu : f.u = true)
    (hw : f.w = true) (htick : { f with tick := 0 } = f) (wait : Bool) :
    ∃ q, t.look 0 0 .user use va none wait = .ok q ∧ q.cls = f.cls ∧
      q.addr = backing (classSpace f.cls) (f.pa + va.toNat % 4096) ∧ q.held = false := by
  have hhost : ∀ x, (recordingState.withRecorded r).hostLost f.cls x = none := fun x => by
    unfold State.hostLost
    split <;> rfl
  refine ok_of_bare (p := ⟨f.cls, backing (classSpace f.cls) (f.pa + va.toNat % 4096), f, none, false⟩)
    ((h.look use va wait wait).trans ((bare_look h.free).trans ?_)) rfl
  rw [show timeless ((recordingState.withRecorded r).leafFor postedAgent.core postedAgent.ctx none va).1.leaf = .ok f from
    (leafFor_current (.refl _) h.start _).trans ((tableLeaf_withRecorded _ _ _ _).trans hleaf), hcanon]
  simp only [hfetch, hu, hw, hhost, Bool.not_true, Bool.and_false, Bool.false_and, Bool.or_false, Bool.false_eq_true, if_false]
  exact congrArg (fun l => Except.ok (Spot.mk f.cls _ l none false)) htick.symm

theorem behind_look {r : SMap Recorded} (h : Loads postedAgent (recordingState.withRecorded r) t) {k : Nat} (hk : k < 31) :
    ∃ q, t.look 0 0 .user .read (behindVa k) none false = .ok q ∧ q.cls = 5 ∧ q.addr = 0x2000000040000000 + 8 * k := by
  obtain ⟨hcanon, hva⟩ := behindVa_page k hk
  have hpage : recordingState.tableLeaf 0 (behindVa k) = .ok behindLeaf := by
    rw [← behind_leaf]
    refine State.tableLeaf_page _ ?_ 0
    rw [hva]
    show (0x40000000 + 8 * k) / 4096 = 0x40000
    omega
  obtain ⟨q, hq, hcls, haddr, -⟩ := page_look h (use := .read) hcanon hpage rfl rfl rfl rfl false
  refine ⟨q, hq, hcls, haddr.trans ?_⟩
  rw [hva]
  show 2 * 2 ^ 60 + (0x40000000 + (0x40000000 + 8 * k) % 4096) = _
  omega

/-- A word behind it is read as zero, and nothing is noted. -/
theorem behind_word {r : SMap Recorded} (h : Loads postedAgent (recordingState.withRecorded r) t) {k : Nat} (hk : k < 31) :
    ∃ u, t.vload postedAgent (behindVa k) 8 = .ok (0, u) ∧ Loads postedAgent (recordingState.withRecorded r) u := by
  obtain ⟨q, hq, hcls, haddr⟩ := behind_look h hk
  have walked := h.walked (w := false) (p := q) hq
  have hseek : t.seekNow postedAgent .read (behindVa k) = .ok q := hq
  have hhost : 2 ^ 61 ≤ q.addr := by omega
  have hsound : t.poisoned (t.keyOf postedAgent.ctx) (lineNo q.addr) = false := by
    unfold State.poisoned State.readKey
    rw [if_pos (.inr (.inr (by unfold lineNo; omega))), (h.alike.line _).2]
    rfl
  have hland : (t.walked postedAgent (behindVa k) q).landBefore q.addr = t.walked postedAgent (behindVa k) q := by
    unfold State.landBefore State.portOf
    rw [show (t.walked postedAgent (behindVa k) q).ports = [] by rw [walked.alike.rest]; rfl]
    rfl
  have hzero : ((t.walked postedAgent (behindVa k) q).readKey ((t.walked postedAgent (behindVa k) q).keyOf postedAgent.ctx) q.addr 8).1 =
      0 := by
    unfold State.readKey
    rw [if_pos (.inr (.inr hhost)), walked.alike.mem, haddr]
    exact behind_zero k hk
  refine ⟨_, ?_, walked⟩
  unfold State.vload State.load
  simp only [hseek, hsound, hcls, if_true, hland, hzero, Bool.false_eq_true, if_false]

theorem behind_words {r : SMap Recorded} : ∀ (n k : Nat) (t : State), k + n = 31 →
    Loads postedAgent (recordingState.withRecorded r) t →
    ∃ u, State.loadWords postedAgent t (behindVa k) n = .ok (List.replicate n 0, u) ∧
      Loads postedAgent (recordingState.withRecorded r) u
  | 0, _, t, _, h => ⟨t, rfl, h⟩
  | n + 1, k, t, hk, h => by
    obtain ⟨v, hload, hv⟩ := behind_word h (show k < 31 by omega)
    obtain ⟨u, hwords, hu⟩ := behind_words n (k + 1) v (by omega) hv
    refine ⟨u, ?_, hu⟩
    unfold State.loadWords
    simp only [hload, behindVa_next, hwords]
    rfl

/-- The words of the header. -/
def platWords : List Nat := 4 :: List.replicate 31 0

/-- The header is read. -/
theorem plat_words (h : Sight recordingState s) (hcalm : ∀ n ps, recordingState.Calm n ps → s.Calm n ps) (hno : (s.team 0).no = 0) :
    ∃ e u, e.1 = 0 ∧ e.2.1 = 0 ∧ State.loadWords postedAgent s 0x3FFFFFF8 32 = .ok (platWords, u) ∧
      Loads postedAgent (recordingState.withRecorded (readBy e)) u := by
  obtain ⟨e, v, hteam, hgrp, hfirst, hv⟩ := plat_first h hcalm hno
  obtain ⟨u, hwords, hu⟩ := behind_words 31 0 v rfl hv
  refine ⟨e, u, hteam, hgrp, ?_, hu⟩
  unfold State.loadWords
  simp only [hfirst]
  rw [show (0x3FFFFFF8 : Word) + 8 = behindVa 0 from rfl, hwords]
  rfl

/-- What the group has of the recording behind its reads. -/
theorem plat_logging {r : SMap Recorded} (h : Loads postedAgent (recordingState.withRecorded r) t) (hno : (t.team 0).no = 0) :
    Logging t 0 [] := by
  refine ⟨?_, ?_, hno, ?_, fun l => (h.alike.line l).1⟩
  · rw [h.alike.rest]; rfl
  · rw [h.alike.rest]; rfl
  · rw [h.alike.dev]; rfl

/-- An atomic on the header's word says the group's ordinal in the log. -/
theorem rmw_ordinals {e : Nat × Nat × Nat × Nat} (he : (e.1, e.2.1) = (0, 0))
    (h : Loads postedAgent (recordingState.withRecorded (readBy e)) t) (hno : (t.team 0).no = 0) {k : Nat} (hk : k < 2)
    (hshown : ¬ Shown (ordinalByte k)) : get 0 (ordinalByte k) (t.rmw postedAgent 0 0x7FFFFFF8 8 activate).2.mem =
      BitVec.ofNat 8 (t.group 0 0).ordinal := by
  have htime : t.storeTime postedAgent 0 0x1FFFFFF < 2 ^ 64 := by
    have calm := h.calm 0 [] (recording_calm.withRecorded _)
    have hrts := (calm.line 0x1FFFFFF).2
    have hpts : t.pts postedAgent ≤ 0 := calm.pts 0 0
    unfold State.storeTime
    rw [if_neg (by decide)]
    exact Nat.max_lt.mpr ⟨by omega, by omega⟩
  have hkey : t.keyOf postedAgent.ctx = 0 := by rw [h.alike.keyOf]; rfl
  unfold State.rmw
  dsimp only
  rw [show lineNo 0x7FFFFFF8 = 0x1FFFFFF from rfl]
  generalize t.storeTime postedAgent 0 0x1FFFFFF = τ at htime ⊢
  generalize activate _ = v
  have touched : Touched false t ((t.storeAt postedAgent 0 0x7FFFFFF8 8 v τ).raisePts postedAgent τ) :=
    (Touched.storeAt _ _ _ _ _ _ _).trans (.raisePts _ _ _)
  have hlogs : SameLogs t ((t.storeAt postedAgent 0 0x7FFFFFF8 8 v τ).raisePts postedAgent τ) :=
    SameLogs.storeAt t postedAgent (by decide) 0x7FFFFFF8 8 v τ
  have hkeys : ∀ l, (((t.storeAt postedAgent 0 0x7FFFFFF8 8 v τ).raisePts postedAgent τ).line l).key = 0 := fun l => by
    rcases KeysTo.storeAt t postedAgent (cls := 0) (by decide) 0x7FFFFFF8 8 v τ l with k | k
    · exact k.trans (h.alike.line l).1
    · exact k.trans hkey
  generalize (t.storeAt postedAgent 0 0x7FFFFFF8 8 v τ).raisePts postedAgent τ = x at touched hlogs hkeys
  have logging := (plat_logging h hno).touched touched hlogs hkeys
  have hrecording : x.recording postedAgent.ctx = true := by
    unfold State.recording State.trace0
    rw [logging.trace]
    rfl
  have hrecorded : x.recorded = readBy e := by
    rw [hlogs.2.2, h.alike.rest]
    rfl
  rw [note_stores (rs := platReaders ++ [e]) hrecording (by rw [hrecorded]; rfl), logged_ordinals logging he _ htime hk hshown,
    show (x.group postedAgent.team postedAgent.grp) = _ from touched.group 0 0]
  rfl

/-- The atomic on the header takes effect. -/
theorem plat_atomic {e : Nat × Nat × Nat × Nat} (he : (e.1, e.2.1) = (0, 0))
    (h : Loads postedAgent (recordingState.withRecorded (readBy e)) t) (hno : (t.team 0).no = 0) :
    ∃ v, t.atomAt postedAgent false 0x3FFFFFF8 8 activate = .ok (4, v) ∧ Touched false t v ∧
      ∀ k < 2, ¬ Shown (ordinalByte k) → get 0 (ordinalByte k) v.mem = BitVec.ofNat 8 (t.group 0 0).ordinal := by
  obtain ⟨q, hq, hcls, haddr, hheld⟩ := page_look h (use := .write) (va := 0x3FFFFFF8) (by decide) plat_leaf rfl rfl rfl rfl true
  replace haddr : q.addr = 0x7FFFFFF8 := haddr.trans (by decide)
  replace hcls : q.cls = 0 := hcls
  have hsound : t.poisoned (t.keyOf 0) (lineNo q.addr) = false := by
    rw [h.alike.poisoned, h.alike.keyOf, haddr]
    show recordingState.poisoned (recordingState.keyOf 0) (lineNo 0x7FFFFFF8) = false
    decide +kernel
  have hatom := atomAt_ordered (n := 8) (f := activate) (a := postedAgent) (p := q) hq (by rw [hcls]; rfl) hheld
    ((h.alike.owned _).trans (h.free _)) hsound
  have walked := h.walked (w := true) (p := q) hq
  have touched : Touched false t (t.walked postedAgent 0x3FFFFFF8 q) := .walked _ _ _ _ rfl
  rw [hcls, haddr] at hatom
  generalize t.walked postedAgent 0x3FFFFFF8 q = w at hatom walked touched
  have hold : (w.rmw postedAgent 0 0x7FFFFFF8 8 activate).1 = 4 := by
    unfold State.rmw
    dsimp only
    rw [walked.alike.readKey, walked.alike.keyOf]
    show (recordingState.readKey (recordingState.keyOf 0) 0x7FFFFFF8 8).1 = 4
    decide +kernel
  refine ⟨_, hatom.trans (congrArg Except.ok (Prod.ext hold rfl)), touched.trans (.rmw _ _ _ _ _ _), fun k hk hshown => ?_⟩
  rw [rmw_ordinals he walked ((congrArg Team.no (touched.team 0)).trans hno) hk hshown, touched.group 0 0]

end reads

/-- The header is read and marked, and the log says the group's ordinal. -/
theorem plat_run {s : State} (h : Sight recordingState s) (hcalm : ∀ n ps, recordingState.Calm n ps → s.Calm n ps)
    (hno : (s.team 0).no = 0) : ∃ t v, State.loadWords postedAgent s 0x3FFFFFF8 32 = .ok (platWords, t) ∧
      t.atomAt postedAgent false 0x3FFFFFF8 8 activate = .ok (4, v) ∧ Touched false s v ∧
      ∀ k < 2, ¬ Shown (ordinalByte k) → get 0 (ordinalByte k) v.mem = BitVec.ofNat 8 (s.group 0 0).ordinal := by
  obtain ⟨e, t, hteam, hgrp, hwords, ht⟩ := plat_words h hcalm hno
  have touched := Touched.loadWords (b := false) (a := postedAgent) rfl 32 _ _ _ _ hwords
  obtain ⟨v, hatom, htouched, hbytes⟩ := plat_atomic (Prod.ext hteam hgrp) ht ((congrArg Team.no (touched.team 0)).trans hno)
  refine ⟨t, v, hwords, hatom, touched.trans htouched, fun k hk hshown => ?_⟩
  rw [hbytes k hk hshown, touched.group 0 0]

/-! ### `PSWEEP` on it -/

/-- The record of the tensor, bound under handle 0. -/
def sweepTensor : BitVec 768 := BitVec.ofNat 768 (2 ^ 20 + 2 ^ 26 + 0x3FFFFFF8 * 2 ^ 704)

theorem tensor_resolves : recordingState.resolve 0 0 = some sweepTensor := by decide +kernel

theorem tensor_plat : recPlat sweepTensor = 0x3FFFFFF8 := by decide +kernel

theorem tensor_grants : sweepTensor.getLsbD 26 = true := by decide +kernel

theorem tensor_sweeps : psweepBad sweepTensor (some sweepHeader) .one 0 0 0 0 = false := by decide +kernel

theorem plat_sound : platBad platWords = false := by decide

theorem posted_sregs : postedGroup.sreg 0 = 0 ∧ postedGroup.sreg 3 = 0 ∧ postedGroup.sreg 4 = 0 ∧ postedGroup.sreg 5 = 0 := by decide

/-- The header of the kernel that a team runs, by the grid it belongs to. -/
theorem headerOf_recording {s : State} (hgrids : s.grids = recordingState.grids) (hgrid : (s.team 0).grid = 0) :
    s.headerOf 0 = some sweepHeader := by
  unfold State.headerOf
  rw [hgrids, hgrid]
  rfl

/-- The instruction: its handle in S0, its table, area and count in S3 to S5. -/
def sweepInstr : Instr := .psweep Guard.always ⟨0, none⟩ .one false 0 5 0 3

/-- From a state that the group sees as it stood, the instruction starts its sweep behind the atomic on the header. -/
theorem psweep_starts {b : State} (sight : Sight recordingState b) (hcalm : ∀ n ps, recordingState.Calm n ps → b.Calm n ps)
    (hteam : { b.team 0 with groups := [] } = { recordingState.team 0 with groups := [] })
    (hsreg : (postedPath.group b).sreg = postedGroup.sreg) (hgrids : b.grids = recordingState.grids) (hsweeps : b.sweeps = []) :
    ∃ f v, exec sweepInstr recordingState = .next (recordingState.run postedShape f) ∧ Touched false b v ∧
      f (recordingState.env 0 postedClause postedPath Guard.always) b =
        .go (v.psweepStart (recordingState.env 0 postedClause postedPath Guard.always) ⟨0, none⟩ sweepTensor 4 0 .one false 0 5 0 0 0 0) ∧
      ∀ k < 2, ¬ Shown (ordinalByte k) → get 0 (ordinalByte k) v.mem = BitVec.ofNat 8 (b.group 0 0).ordinal := by
  obtain ⟨t, v, hwords, hatom, touched, hbytes⟩ := plat_run sight hcalm (congrArg Team.no hteam)
  have hread := Touched.loadWords (b := false) (a := postedAgent) rfl 32 _ _ _ _ hwords
  obtain ⟨h0, h3, h4, h5⟩ := posted_sregs
  have hgroup : (recordingState.env 0 postedClause postedPath Guard.always).group b = postedPath.group b := rfl
  have hhandle : b.handle (recordingState.env 0 postedClause postedPath Guard.always) 0 1 (some (26, 10)) = .ok sweepTensor := by
    unfold State.handle
    rw [show b.resolve (recordingState.env 0 postedClause postedPath Guard.always).ctx 0 = some sweepTensor from
      (sight.alike.resolve 0 0).trans tensor_resolves]
    dsimp only
    rw [tensor_grants, if_pos rfl]
  have hheader := headerOf_recording hgrids (congrArg Team.grid hteam)
  have hbusy : t.psweepBusy 0 (t.headerOf 0) = none := by
    rw [headerOf_recording (by rw [hread.rest]; exact hgrids) ((congrArg Team.grid (hread.team 0)).trans (congrArg Team.grid hteam))]
    exact psweepBusy_idle (by rw [hread.rest]; exact hsweeps) (by decide)
  obtain ⟨f, hexec, hf⟩ := psweep_effect (e := recordingState.env 0 postedClause postedPath Guard.always) (s := b) (t := t) (v := v)
    (ll := ⟨0, none⟩) (md := .one) (build := false) (role := 0) (d := 5) (h := 0) (b := 3) (r := sweepTensor) (ws := platWords) (old := 4)
    (by decide) (by rw [hgroup, hsreg, show (0 : SReg).toNat = 0 from rfl, h0]; exact hhandle)
    (by rw [hgroup, hsreg, show (3 : SReg).toNat = 3 from rfl, h3, h4, h5]; exact hheader ▸ tensor_sweeps)
    (by rw [tensor_plat]; exact hwords) (ownedHome_unowned (fun l => (sight.alike.owned l).trans (recording_unowned l)) _ _ _)
    plat_sound hbusy (by rw [tensor_plat]; exact hatom) (by decide) Guard.always recordingState
  rw [hgroup, hsreg, show (0 : SReg).toNat = 0 from rfl, show (3 : SReg).toNat = 3 from rfl, h0, h3, h4, h5] at hf
  exact ⟨f, v, hexec, touched, hf, hbytes⟩

/-- Its execution logs the ordinal that it takes, which is one more than that of the group before (R389). -/
theorem psweep_logs : ∃ t, exec sweepInstr recordingState = .next t ∧
    ∀ k < 2, ¬ Shown (ordinalByte k) → get 0 (ordinalByte k) t.mem = BitVec.ofNat 8 1 := by
  have hbegun : postedPath.group (recordingState.begun postedShape 0 postedClause postedPath) = _ := begun_group recording_sole postedShape
  have hrest := begun_rest recordingState postedShape 0 postedClause postedPath
  obtain ⟨f, v, hexec, touched, hf, hbytes⟩ := psweep_starts (Sight.begun recording_sole postedShape)
    (begun_calm recording_sole postedShape) (begun_team_rest recordingState postedShape 0 postedClause postedPath 0)
    (by rw [hbegun, begun_sreg]; rfl) (by rw [hrest]) (by rw [hrest]; rfl)
  obtain ⟨t, hnext, hmem⟩ := psweepStart_ends recording_sole ((Listing.begun recording_sole postedShape).touched touched)
    (fun _ e => by cases e; exact fun _ hk => nomatch hk) (by simp [State.roomFor, postedShape]) rfl rfl (Nat.zero_le _) hf
  refine ⟨t, hexec.trans hnext, fun k hk hshown => ?_⟩
  rw [hmem, hbytes k hk hshown, show ((recordingState.begun postedShape 0 postedClause postedPath).group 0 0).ordinal = 1 from
    (congrArg Group.ordinal hbegun).trans (by decide +kernel)]

end Sys2Proof.Machine

open Sys2Proof Sys2Proof.Machine

/-- Refutes O38: in a context that is recorded, which the statement does not exclude. `PSWEEP` takes an ordinal when it issues, and the
records that its atomic on the plat header has the device write to the replay log in memory bear it (R389, R390); the statement has memory
as the same accesses leave it in the state before, where the group's ordinal is one less. The counterexample is a plat header that two
groups of other teams have read, so that the log takes two records of 32 bytes: wherever the control block of the log is, it shows the log's
state in none of the bytes of one of them. -/
theorem not_sweepsStartAndStop : ¬ Obligations.SweepsStartAndStop := by
  intro h
  obtain ⟨t, v, hwords, hatom, -, hbefore⟩ := plat_run (s := recordingState) (.of_rest rfl (fun _ => ⟨rfl, rfl⟩) (fun _ => rfl))
    (fun _ _ h => h) rfl
  obtain ⟨u, hnext, hafter⟩ := psweep_logs
  obtain ⟨starts, -⟩ := h recordingState 0 postedClause postedPath recording_sole Guard.always ⟨0, none⟩ .one false 0 5 0 3
    (fun _ hk => nomatch hk) (by decide) sweepTensor tensor_resolves tensor_grants
  obtain ⟨u1, u2, hnext', ⟨_, _, _, _, -, -, -, hmem, -⟩, hapart, -⟩ := starts platWords t v 4 tensor_sweeps
    (psweepBusy_idle rfl (by decide)) (by rw [tensor_plat]; exact hwords) (ownedHome_unowned recording_unowned _ _ _) plat_sound
    (by rw [tensor_plat]; exact hatom) (by decide)
  obtain rfl : u2 = u := Host.Outcome.next.inj (hnext'.symm.trans hnext)
  obtain ⟨k, hk, hshown⟩ := unshown
  have same : get 0 (ordinalByte k) v.mem = get 0 (ordinalByte k) u2.mem := by rw [hapart.rest, ← hmem]
  rw [hbefore k hk hshown, hafter k hk hshown] at same
  exact absurd same (by decide +kernel)

end

section
/-!
PROOF. The frame of a trap holds a lane's state in one byte (R188): the refutation of the obligation about trap instructions, which has that
byte hold whatever number stands as a lane's state.
-/
namespace Sys2Proof.Machine

/-! ### A group with a number in its lane states that no byte holds -/

/-- A group of eight lanes of which the first stands at the header 0x4000, and with 256 as the state of lane 8. -/
def overcodedGroup : Group :=
  { Group.zero with width := 8, n := 64, st := [(0, 1), (8, 256)], pc := [(0, 0x4000)], level := .user, s2 := 0x10000 }

/-- A clause of two `NOP`s in issue for the first lane. -/
def overcodedClause : Issue :=
  { members := [⟨0, 0, 1⟩], hdr := 0x4000, body := [0x88, 0x1F, 0, 0, 0x88, 0x1F, 0, 0], pos := 0, ver := 3, bodyw := 2, yieldh := 0 }

def overcodedPath : Member := ⟨0, 0, 1⟩

/-- A device with 4 GiB of memory and one context, whose page table maps the first GiB of addresses to the second of memory. -/
def overcodedState : State :=
  { State.reset with
    mem := [(0x1000, 0x3B), (0x1003, 0x40), (0x200000, 0x01), (0x200001, 0x10)]
    dev := { Device.reset with service := .normal, trained := true, config := 4 }
    ctxs := [(0, { Ctx.free with st := .running, ptroot := 0x200000, tvec := 0x8000 })]
    teams := [(0, { Team.zero with core := some 0, size := 65536, groups := [(0, overcodedGroup)] })]
    cores := [(0, { Core.empty with issue := some overcodedClause })], turn := .core 0 }

theorem overcoded_sole : Sole overcodedState 0 overcodedClause overcodedPath :=
  ⟨rfl, rfl, rfl, by decide, rfl, rfl, by decide +kernel, by decide +kernel, by decide +kernel, by decide +kernel, rfl,
    ⟨rfl, rfl, rfl⟩⟩

/-! ### The frame of its trap -/

/-- For whom the frame is stored. -/
def overcodedAgent : Agent := { core := 0, ctx := 0, team := 0, grp := 0, level := .control }

/-- The addresses of the words of the frame. -/
def overcodedVa (k : Nat) : Word := 0x10000 + BitVec.ofNat 64 (8 * k)

/-- Their places, one after another. -/
def overcodedSpot (k : Nat) : Spot :=
  { cls := 0, addr := 0x40010000 + 8 * k, leaf := { pa := 0x40010000, cls := 0, w := true, x := true, u := true, tick := 0 }
    walk := some ([0x8000, 0x40], [(midKey 0 3 0x10000, { loc := 0, table := 0x1000, tick := 0 })]) }

theorem overcoded_seek : ∀ k < 128, overcodedState.seek overcodedAgent .write (overcodedVa k) = .ok (overcodedSpot k) := by
  decide +kernel

theorem overcoded_walk : ∀ k < 128, (overcodedState.walk overcodedAgent.core overcodedAgent.ctx (overcodedVa k)).lines = [0x8000, 0x40] := by
  decide +kernel

theorem overcoded_poisoned : ∀ k < 128, overcodedState.poisoned 0 (lineNo (overcodedSpot k).addr) = false := by decide +kernel

/-- The lines of the frame hold no entry that translates it. -/
theorem overcoded_line {k : Nat} (hk : k < 128) : lineNo (overcodedSpot k).addr ∉ [0x8000, 0x40] := by
  have : lineNo (overcodedSpot k).addr = (0x40010000 + 8 * k) / 64 := rfl
  simp only [this, List.mem_cons, List.not_mem_nil, or_false]
  omega

theorem overcoded_storable : Storable overcodedState overcodedAgent 0x10000 128 := by
  refine ⟨rfl, .of_cold rfl rfl rfl, fun k hk => ⟨_, overcoded_seek k hk, ?within, rfl, rfl, overcoded_poisoned k hk, fun j hj => ?apart⟩⟩
  case within => show (0x40010000 + 8 * k) % 64 + 8 ≤ 64; omega
  case apart => rw [show (0x10000 : Word) + BitVec.ofNat 64 (8 * j) = overcodedVa j from rfl, overcoded_walk j hj]; exact overcoded_line hk

theorem overcoded_plain : ∀ k < 128, overcodedState.Plain 0 (overcodedSpot k).cls (overcodedSpot k).addr 8 := by decide +kernel

/-- Where a word of the frame is. -/
theorem overcoded_place {k a : Nat} (hk : k < 128)
    (h : ∃ p, overcodedState.seek overcodedAgent .write (overcodedVa k) = .ok p ∧ p.addr = a) : a = 0x40010000 + 8 * k := by
  obtain ⟨p, hp, rfl⟩ := h
  cases (overcoded_seek k hk).symm.trans hp
  rfl

end Sys2Proof.Machine

open Sys2Proof Sys2Proof.Machine

/-- Refutes O43: where the number that stands as a lane's state is above 255, which the statement does not exclude. A frame keeps the state
of each lane in a byte (R188), and the statement has that byte equal to the number. No lane has such a state (R55), but no hypothesis of the
statement says so, and the statement speaks of lanes beyond the group's width too. The counterexample is a `TRAP` of lane 0 in a group with
256 as the state of lane 8, which is the first byte of word 81 of the frame. -/
theorem not_trapInstructionsEnterTheHandler : ¬ Obligations.TrapInstructionsEnterTheHandler := by
  intro h
  obtain ⟨-, traps⟩ := h overcodedState 0 overcodedClause overcodedPath overcoded_sole Guard.always 0 _ _ (.inl ⟨rfl, rfl⟩)
  obtain ⟨u, t, -, ⟨-, -, -, -, -, -, -, -, -, -, -, frame⟩, -, -⟩ :=
    traps (by decide) rfl rfl rfl rfl (by decide +kernel) overcoded_storable
  obtain ⟨-, words⟩ := frame
    (fun k hk p hp => by cases (overcoded_seek k hk).symm.trans hp; exact overcoded_plain k hk)
    (fun k j hkj hj a b ha hb => by
      rw [overcoded_place (by omega) ha, overcoded_place hj hb]; omega)
  obtain ⟨-, -, codes, -⟩ := words 81 _ (by decide) ⟨_, overcoded_seek 81 (by decide), rfl⟩
  have byte : readN u.mem (overcodedSpot 81).addr 8 / 256 ^ 0 % 256 = 256 := codes (by decide) (by decide) 0 (by decide)
  exact absurd byte (Nat.ne_of_lt (Nat.mod_lt _ (by decide)))
end

section
/-!
PROOF. `ERET` and `UIRET` (O44): the words of the frame as the loads of a return find them, and the group as the frame has it.
-/
namespace Sys2Proof.Machine

/-! ### Loads where lines elsewhere are owned -/

/-- From s on an agent of a group has only loaded: translation finds what the table has in s. Unlike `Loads` it says nothing of
owned lines nor of L1 copies, which loads at the home slice do not use. -/
structure Reads (a : Agent) (s t : State) : Prop where
  op : a.op = none
  alike : Alike s t
  start : s.Current s a.core a.ctx
  current : s.Current t a.core a.ctx

/-- A place that no owned entry of a walk holds is the one that the device's own steps find. -/
theorem look_unheld {s : State} {core c : Nat} {level : Level} {use : Use} {va : Word} {op : Option Nat} {p : Spot}
    (h : s.look core c level use va op true = .ok p) (hheld : p.held = false) : s.look core c level use va op false = .ok p := by
  unfold State.look at h ⊢
  dsimp only at h ⊢
  split at h
  · cases h
  · next hc =>
    rw [if_neg hc]
    rw [if_pos rfl] at h
    split at h
    · cases h; cases hheld
    · simpa using h

/-- Translation depends on the leaf found, but for its datum, and on the ports (R345, R348). -/
theorem bare_look_same {s t : State} {core c : Nat} {level : Level} {use : Use} {va : Word} {op : Option Nat} (h : Alike s t)
    (hl : timeless (t.leafFor core c op va).1.leaf = timeless (s.leafFor core c op va).1.leaf) :
    bare (t.look core c level use va op false) = bare (s.look core c level use va op false) := by
  unfold State.look
  dsimp only
  by_cases hc : (!canonicalVa va) = true
  · rw [if_pos hc, if_pos hc]
  rw [if_neg hc, if_neg hc]
  simp only [Bool.false_eq_true, if_false, h.hostLost]
  generalize hf : (t.leafFor core c op va).1.leaf = f at hl ⊢
  generalize hg : (s.leafFor core c op va).1.leaf = g at hl ⊢
  cases f with
  | error l => cases g with
    | error k => cases hl; rfl
    | ok g => cases hl
  | ok f => cases g with
    | error k => cases hl
    | ok g =>
      simp only [timeless, Except.ok.injEq, Leaf.mk.injEq, and_true] at hl
      obtain ⟨hpa, hcls, hw, hx, hu⟩ := hl
      simp only [hpa, hcls, hw, hx, hu]
      split
      · rfl
      · split
        · rfl
        · simp only [bare, hpa, hcls, hw, hx, hu]

/-- What a place found says of the leaf behind it, and of the walk that found it. -/
theorem leaf_of_look_now {s : State} {core c : Nat} {level : Level} {use : Use} {va : Word} {p : Spot}
    (h : s.look core c level use va none false = .ok p) : (s.leafFor core c none va).1.leaf = .ok p.leaf ∧
    ∀ ls, p.walk = some ls → ls.2 = (s.walk core c va).mids := by
  unfold State.look at h
  dsimp only at h
  split at h
  · cases h
  simp only [Bool.false_eq_true, if_false] at h
  split at h
  · cases h
  · next f hf =>
    split at h
    · cases h
    · split at h
      · cases h
      · cases h
        refine ⟨hf, fun ls hls => ?_⟩
        dsimp only at hls
        split at hls
        · next hwalk => cases hls; rw [leafFor_walks hwalk]
        · cases hls

theorem mem_foldl_put {α : Type} {e : Nat × α} : ∀ {xs : List (Nat × α)} {m : SMap α},
    e ∈ xs.foldl (fun m x => put x.1 x.2 m) m → e ∈ xs ∨ e ∈ m
  | [], _, h => .inr h
  | _ :: xs, _, h => by
    rcases mem_foldl_put (xs := xs) h with h | h
    · exact .inl (List.mem_cons_of_mem _ h)
    · rcases mem_put h with rfl | h
      · exact .inl List.mem_cons_self
      · exact .inr h

namespace Reads

variable {a : Agent} {s t u : State}

/-- The agent's caches stay. -/
theorem still (h : Reads a s t) (k : Alike t u) (c : Cached t u) : Reads a s u := by
  obtain ⟨hcores, hl2, hmids⟩ := c
  have hcore : u.core a.core = t.core a.core := by unfold State.core; rw [hcores]
  exact ⟨h.op, h.alike.trans k, h.start, by rw [hcore]; exact h.current.tlb, by rw [hl2]; exact h.current.l2,
    by rw [hmids]; exact h.current.mids⟩

/-- A place for the device's own steps is where it was in s. -/
theorem seekNow (h : Reads a s t) {use : Use} {va : Word} {p : Spot} (hp : s.seekNow a use va = .ok p) :
    ∃ q, t.seekNow a use va = .ok q ∧ q.cls = p.cls ∧ q.addr = p.addr := by
  unfold State.seekNow at hp ⊢
  have hl : timeless (t.leafFor a.core a.ctx a.op va).1.leaf = timeless (s.leafFor a.core a.ctx a.op va).1.leaf := by
    rw [h.op, leafFor_current h.alike h.current, leafFor_current (Alike.refl s) h.start]
  obtain ⟨q, hq, hcls, haddr, -⟩ := ok_of_bare (bare_look_same h.alike hl) hp
  exact ⟨q, hq, hcls, haddr⟩

/-- The caches after a translation hold what the table gives, as before. -/
theorem walked (h : Reads a s t) {use : Use} {va : Word} {p : Spot} (hp : t.seekNow a use va = .ok p) :
    Reads a s (t.walked a va p) := by
  unfold State.seekNow at hp
  rw [h.op] at hp
  obtain ⟨hleaf, hmids⟩ := leaf_of_look_now hp
  have hl : timeless (.ok p.leaf) = s.tableLeaf a.ctx va := by rw [← hleaf]; exact leafFor_current h.alike h.current va
  have hold : ∀ t : State, t.holdLeaf a.op (tlbKey a.ctx va) p.leaf = t := fun t => by unfold State.holdLeaf; rw [h.op]
  have paged := Paged.demand t a.core p
  have hd := h.still paged.alike (Cached.paged paged)
  unfold State.walked
  dsimp only
  rw [hold]
  split
  · exact hd
  next ls hls =>
    obtain ⟨halike, hcached, -⟩ := walkReads a a.core ls.1 (t.demand a.core p)
    have hr := hd.still halike hcached
    generalize ls.1.foldl (fun s l => (s.demandLine a.core l).homeClock a l) (t.demand a.core p) = r at hr
    have mine : ∀ vb, tlbKey a.ctx va = tlbKey a.ctx vb → timeless (.ok p.leaf) = s.tableLeaf a.ctx vb := fun vb k => by
      rw [hl]; exact s.tableLeaf_page (page_of_tlbKey k) _
    have found := (walk_current h.alike h.current va).2
    rw [← hmids ls hls] at found
    refine ⟨h.op, hr.alike.trans ⟨rfl, rfl, fun _ => ⟨rfl, rfl⟩⟩, h.start, ?tlb, ?l2, ?mids⟩
    case tlb =>
      intro e he vb k
      rw [State.core_onCore, if_pos rfl] at he
      rcases mem_put (mem_trimTo he) with rfl | he
      · exact mine vb k
      · exact hr.current.tlb e he vb k
    case l2 =>
      intro e he vb k
      change e ∈ get [] (a.core / 8) (put (a.core / 8) _ r.l2) at he
      rw [get_put_self] at he
      rcases mem_put (mem_trimTo he) with rfl | he
      · exact mine vb k
      · exact hr.current.l2 e he vb k
    case mids =>
      intro e he l vb h1 h3 k
      change e ∈ get [] (a.core / 8) (put (a.core / 8) _ r.mids) at he
      rw [get_put_self] at he
      rcases mem_foldl_put he with he | he
      · exact found e he l vb h1 h3 k
      · exact hr.current.mids e he l vb h1 h3 k

/-- A load at the home slice answers what memory holds. -/
theorem load (h : Reads a s t) (hrec : s.recording a.ctx = false) (hrep : s.replaying a.ctx = false) {cls : Nat} (hcls : cls ≠ 5)
    (addr n : Nat) : (t.load a false cls addr n).1 = (s.readKey (s.keyOf a.ctx) addr n).1 ∧ Reads a s (t.load a false cls addr n).2 := by
  have hv : (t.readKey (t.keyOf a.ctx) addr n).1 = (s.readKey (s.keyOf a.ctx) addr n).1 := by rw [h.alike.readKey, h.alike.keyOf]
  have hc := h.still (Alike.homeClock t a (lineNo addr)) (Cached.homeClock t a (lineNo addr))
  unfold State.load
  simp only [hcls, Bool.false_eq_true, Bool.false_and, if_false]
  split
  · exact ⟨hv, h⟩
  · refine ⟨hv, ?_⟩
    rw [Loads.note_idle (by rw [hc.alike.recording, hrec]) (by rw [hc.alike.replaying, hrep])]
    exact hc

/-- A place that the device loads 8 bytes from: unheld, sound, and not host-posted. -/
def At (a : Agent) (s : State) (va : Word) : Prop :=
  ∃ p, s.seek a .read va = .ok p ∧ p.held = false ∧ s.poisoned (s.keyOf a.ctx) (lineNo p.addr) = false ∧ p.cls ≠ 5

theorem vload (h : Reads a s t) (hrec : s.recording a.ctx = false) (hrep : s.replaying a.ctx = false) {va : Word} (hva : At a s va) :
    ∃ u, t.vload a va 8 = .ok (s.peek a va 8, u) ∧ Reads a s u := by
  obtain ⟨p, hseek, hheld, hsound, hcls⟩ := hva
  have hnow : s.seekNow a .read va = .ok p := look_unheld hseek hheld
  obtain ⟨q, hq, hqcls, hqaddr⟩ := h.seekNow hnow
  have hsound' : t.poisoned (t.keyOf a.ctx) (lineNo q.addr) = false := by rw [h.alike.keyOf, h.alike.poisoned, hqaddr, hsound]
  obtain ⟨hv, hr⟩ := (h.walked hq).load hrec hrep (hqcls ▸ hcls) q.addr 8
  refine ⟨_, ?_, hr⟩
  unfold State.vload State.peek
  simp only [hq, hnow, hsound', Bool.false_eq_true, if_false]
  rw [← hqaddr, ← hv]

theorem wordsAt_succ (s : State) (a : Agent) (va : Word) (n : Nat) :
    s.wordsAt a va (n + 1) = s.peek a va 8 :: s.wordsAt a (va + 8) n := by
  have hnext : ∀ k, va + BitVec.ofNat 64 (8 * (k + 1)) = va + 8 + BitVec.ofNat 64 (8 * k) := fun k => by
    rw [Nat.mul_add, Nat.mul_one, BitVec.ofNat_add, BitVec.add_comm (BitVec.ofNat 64 (8 * k)), ← BitVec.add_assoc]
    rfl
  unfold State.wordsAt
  rw [List.range_succ_eq_map, List.map_cons, List.map_map]
  refine congrArg₂ List.cons (by simp) (List.map_congr_left (fun k _ => ?_))
  exact congrArg (fun v => s.peek a v 8) (hnext k)

/-- Words are loaded as they stand. -/
theorem loadWords (hrec : s.recording a.ctx = false) (hrep : s.replaying a.ctx = false) : ∀ (n : Nat) {t : State} {va : Word},
    Reads a s t → (∀ k, k < n → At a s (va + BitVec.ofNat 64 (8 * k))) →
    ∃ u, State.loadWords a t va n = .ok (s.wordsAt a va n, u) ∧ Reads a s u
  | 0, t, _, h, _ => ⟨t, rfl, h⟩
  | n + 1, t, va, h, hat => by
    obtain ⟨hfirst, hrest⟩ := Loads.next_word (P := At a s) hat
    obtain ⟨u, hu, hr⟩ := h.vload hrec hrep hfirst
    obtain ⟨v, hv, hr'⟩ := loadWords hrec hrep n hr hrest
    refine ⟨v, ?_, hr'⟩
    unfold State.loadWords
    simp only [hu, hv, wordsAt_succ]

end Reads

/-- Nothing waits for a line where each place found is unheld and its line unowned. -/
theorem ownedHome_nil {s : State} {a : Agent} {use : Use} {vas : List Word}
    (h : ∀ va ∈ vas, ∃ p, s.seek a use va = .ok p ∧ p.held = false ∧ s.owned (lineNo p.addr) = false) : s.ownedHome a use vas = [] := by
  unfold State.ownedHome State.waitLines State.spots
  rw [List.filterMap_eq_nil_iff]
  intro p hp
  obtain ⟨va, hva, hspot⟩ := List.mem_filterMap.mp hp
  obtain ⟨q, hq, hheld, howned⟩ := h va hva
  rw [hq] at hspot
  cases hspot
  unfold State.waitLine
  simp only [hheld, howned, Bool.and_false, Bool.false_and, Bool.or_false, Bool.false_eq_true, if_false]

end Sys2Proof.Machine
end

section
/-!
PROOF. The group as a frame restores it (R189): its lanes, its predicates and `S60`-`S63`, and what the frame does not hold.
-/
namespace Sys2Proof.Machine

/-! ### One lane -/

/-- The lane state that a lane returns to. -/
def returnedState (ws : List Nat) (i : Nat) : Nat :=
  let code := ws.getD (80 + i / 8) 0 / 256 ^ (i % 8) % 256
  if code = 0 ∨ code = 2 ∨ code = 3 ∨ code = 4 then code else 1

/-- The predicates that a lane returns with: `P15` is not in the frame. -/
def returnedPreds (ws : List Nat) (i : Nat) : BitVec 16 :=
  BitVec.ofNat 16 (ws.getD (64 + i / 4) 0 / 2 ^ (16 * (i % 4))) &&& 0x7FFF

theorem returnedPreds_bit (ws : List Nat) (i : Nat) {r : Nat} (hr : r < 15) :
    (returnedPreds ws i).getLsbD r = (ws.getD (64 + i / 4) 0).testBit (16 * (i % 4) + r) := by
  have hmask : (0x7FFF : BitVec 16).getLsbD r = true := by
    revert r; decide
  unfold returnedPreds
  rw [BitVec.getLsbD_and, hmask, Bool.and_true, BitVec.getLsbD_ofNat, Nat.testBit_div_two_pow, decide_eq_true (by omega),
    Bool.true_and, Nat.add_comm r]

theorem restoreLane_eq (hdrs : SMap (Word × Nat)) (ws : List Nat) (g : Group) (i : Nat) :
    g.restoreLane hdrs ws i = { g with
      p := set 0 i (returnedPreds ws i) g.p, wait := del i g.wait, pc := set 0 i (BitVec.ofNat 64 (ws.getD i 0)) g.pc
      st := set 0 i (returnedState ws i) g.st, hdr := (g.restoreLane hdrs ws i).hdr } := by
  unfold Group.restoreLane returnedState returnedPreds
  dsimp only
  by_cases hcode : ws.getD (80 + i / 8) 0 / 256 ^ (i % 8) % 256 = 0 ∨ ws.getD (80 + i / 8) 0 / 256 ^ (i % 8) % 256 = 2 ∨
      ws.getD (80 + i / 8) 0 / 256 ^ (i % 8) % 256 = 3 ∨ ws.getD (80 + i / 8) 0 / 256 ^ (i % 8) % 256 = 4
  · simp only [if_pos hcode]
    rfl
  · simp only [if_neg hcode]
    split
    · rfl
    · split
      · split <;> rfl
      · rfl

/-! ### All lanes -/

/-- The lanes of a frame restored. -/
def Group.restoreLanes (g : Group) (hdrs : SMap (Word × Nat)) (ws : List Nat) (l : List Nat) : Group :=
  l.foldl (Group.restoreLane hdrs ws) g

section lanes

variable (g : Group) (hdrs : SMap (Word × Nat)) (ws : List Nat) (l : List Nat) (j : Nat)

theorem restoreLanes_rest : g.restoreLanes hdrs ws l = { g with
    p := (g.restoreLanes hdrs ws l).p, wait := (g.restoreLanes hdrs ws l).wait, pc := (g.restoreLanes hdrs ws l).pc
    st := (g.restoreLanes hdrs ws l).st, hdr := (g.restoreLanes hdrs ws l).hdr } := by
  induction l generalizing g with
  | nil => rfl
  | cons i l ih =>
    have hi := ih (g.restoreLane hdrs ws i)
    rw [restoreLane_eq] at hi
    unfold Group.restoreLanes at hi ⊢
    rw [List.foldl_cons, restoreLane_eq, hi]

theorem lanePc_restoreLanes :
    (g.restoreLanes hdrs ws l).lanePc j = if j ∈ l then BitVec.ofNat 64 (ws.getD j 0) else g.lanePc j :=
  foldl_lanes Group.lanePc _ (fun i => BitVec.ofNat 64 (ws.getD i 0))
    (fun g i j => by rw [restoreLane_eq]; exact get_set 0 i j _ g.pc) l g j

theorem state_restoreLanes : (g.restoreLanes hdrs ws l).state j = if j ∈ l then returnedState ws j else g.state j :=
  foldl_lanes Group.state _ (returnedState ws) (fun g i j => by rw [restoreLane_eq]; exact get_set 0 i j _ g.st) l g j

theorem wait_restoreLanes : find j (g.restoreLanes hdrs ws l).wait = if j ∈ l then none else find j g.wait :=
  foldl_lanes (fun g j => find j g.wait) _ (fun _ => none)
    (fun g i j => by rw [restoreLane_eq]; exact find_del i j g.wait) l g j

theorem preds_restoreLanes : get 0 j (g.restoreLanes hdrs ws l).p = if j ∈ l then returnedPreds ws j else get 0 j g.p :=
  foldl_lanes (fun g j => get 0 j g.p) _ (returnedPreds ws)
    (fun g i j => by rw [restoreLane_eq]; exact get_set 0 i j _ g.p) l g j

end lanes

/-! ### Uniform registers -/

/-- `S60` on, of a list of them, restored. -/
def Group.restoreUniform (g : Group) (ws : List Nat) (l : List Nat) : Group :=
  l.foldl (fun g k => g.setS (60 + k) (BitVec.ofNat 64 (ws.getD (88 + k) 0))) g

theorem restoreUniform_rest (g : Group) (ws l : List Nat) : g.restoreUniform ws l =
    { g with s := (g.restoreUniform ws l).s, pend := (g.restoreUniform ws l).pend } := by
  induction l generalizing g with
  | nil => rfl
  | cons k l ih =>
    have hk := ih (g.setS (60 + k) (BitVec.ofNat 64 (ws.getD (88 + k) 0)))
    rw [setS_rest] at hk
    unfold Group.restoreUniform at hk ⊢
    rw [List.foldl_cons, setS_rest, hk]

theorem sreg_restoreUniform (g : Group) (ws l : List Nat) (r : Nat) : (g.restoreUniform ws l).sreg r =
    if 60 ≤ r ∧ r - 60 ∈ l then BitVec.ofNat 64 (ws.getD (28 + r) 0) else g.sreg r := by
  induction l generalizing g with
  | nil => rw [if_neg (fun h => List.not_mem_nil h.2)]; rfl
  | cons k l ih =>
    unfold Group.restoreUniform at ih ⊢
    rw [List.foldl_cons, ih, sreg_setS]
    by_cases hr : r = 60 + k
    · have hword : 88 + k = 28 + r := by omega
      have hown : r = 60 + k ∧ r ≠ 0 ∧ r ≠ 2 := by omega
      have hlist : 60 ≤ r ∧ r - 60 ∈ k :: l := ⟨by omega, List.mem_cons.mpr (.inl (by omega))⟩
      rw [if_pos hown, if_pos hlist, hword, ite_self]
    · have hlist : (60 ≤ r ∧ r - 60 ∈ k :: l) ↔ (60 ≤ r ∧ r - 60 ∈ l) :=
        and_congr_right fun h60 => by rw [List.mem_cons, or_iff_right (by omega)]
      simp only [hlist, hr, false_and, if_false]

/-! ### The group restored -/

/-- The clause headers that a return puts lanes back in. -/
def Group.hdrsFor (g : Group) (ui : Bool) : SMap (Word × Nat) := if ui then g.uiHdr else g.trapHdr

/-- What a return does after lanes and registers: program calls, the level and `UIEN`. -/
def Group.leaveHandler (g : Group) (ui : Bool) (ws : List Nat) : Group :=
  { (if ui then { g with uiHdr := [], calls := g.uiCalls, uiCalls := [] }
     else { g with trapHdr := [], calls := g.trapCalls, trapCalls := [] } : Group) with
    level := if ws.getD 92 0 % 256 = 1 then .control else .user, uien := ws.getD 92 0 / 256 % 2 == 1 }

theorem restore_eq (g : Group) (ui : Bool) (ws : List Nat) : g.restore ui ws =
    ((g.restoreLanes (g.hdrsFor ui) ws (List.range g.width)).restoreUniform ws (List.range 4)).leaveHandler ui ws := rfl

theorem leaveHandler_rest (g : Group) (ui : Bool) (ws : List Nat) : g.leaveHandler ui ws = { g with
    uiHdr := (g.leaveHandler ui ws).uiHdr, trapHdr := (g.leaveHandler ui ws).trapHdr
    calls := if ui then g.uiCalls else g.trapCalls
    uiCalls := (g.leaveHandler ui ws).uiCalls, trapCalls := (g.leaveHandler ui ws).trapCalls
    level := if ws.getD 92 0 % 256 = 1 then .control else .user, uien := ws.getD 92 0 / 256 % 2 == 1 } := by
  cases ui <;> rfl

/-- What a return leaves of a group: all but its lanes, its predicates, its uniform registers, the level and `UIEN`, and what it
has set aside for a return. -/
theorem restore_rest (g : Group) (ui : Bool) (ws : List Nat) : g.restore ui ws = { g with
    p := (g.restore ui ws).p, wait := (g.restore ui ws).wait, pc := (g.restore ui ws).pc, st := (g.restore ui ws).st
    hdr := (g.restore ui ws).hdr, s := (g.restore ui ws).s, pend := (g.restore ui ws).pend
    uiHdr := (g.restore ui ws).uiHdr, trapHdr := (g.restore ui ws).trapHdr, calls := if ui then g.uiCalls else g.trapCalls
    uiCalls := (g.restore ui ws).uiCalls, trapCalls := (g.restore ui ws).trapCalls
    level := if ws.getD 92 0 % 256 = 1 then .control else .user, uien := ws.getD 92 0 / 256 % 2 == 1 } := by
  rw [restore_eq]
  have hlanes := restoreLanes_rest g (g.hdrsFor ui) ws (List.range g.width)
  generalize g.restoreLanes (g.hdrsFor ui) ws (List.range g.width) = lanes at hlanes
  have hregs := restoreUniform_rest lanes ws (List.range 4)
  generalize lanes.restoreUniform ws (List.range 4) = regs at hregs
  have hlast := leaveHandler_rest regs ui ws
  generalize regs.leaveHandler ui ws = last at hlast
  rw [hlast, hregs, hlanes]

section restore

variable (g : Group) (ui : Bool) (ws : List Nat)

/-- The lanes of a restored group are those of the frame: the uniform registers come after them. -/
theorem restore_lanes : let G := g.restoreLanes (g.hdrsFor ui) ws (List.range g.width)
    (g.restore ui ws).p = G.p ∧ (g.restore ui ws).wait = G.wait ∧ (g.restore ui ws).pc = G.pc ∧ (g.restore ui ws).st = G.st := by
  rw [restore_eq, leaveHandler_rest, restoreUniform_rest]
  exact ⟨rfl, rfl, rfl, rfl⟩

variable {g} {j : Nat} (hj : j < g.width)
include hj

theorem lanePc_restore : (g.restore ui ws).lanePc j = BitVec.ofNat 64 (ws.getD j 0) := by
  obtain ⟨-, -, hpc, -⟩ := restore_lanes g ui ws
  have h := lanePc_restoreLanes g (g.hdrsFor ui) ws (List.range g.width) j
  rw [if_pos (List.mem_range.mpr hj)] at h
  unfold Group.lanePc at h ⊢
  rw [hpc, h]

theorem state_restore : (g.restore ui ws).state j = returnedState ws j := by
  obtain ⟨-, -, -, hst⟩ := restore_lanes g ui ws
  have h := state_restoreLanes g (g.hdrsFor ui) ws (List.range g.width) j
  rw [if_pos (List.mem_range.mpr hj)] at h
  unfold Group.state at h ⊢
  rw [hst, h]

theorem wait_restore : find j (g.restore ui ws).wait = none := by
  obtain ⟨-, hwait, -, -⟩ := restore_lanes g ui ws
  rw [hwait, wait_restoreLanes, if_pos (List.mem_range.mpr hj)]

theorem preg_restore {r : Nat} (hr : r < 15) :
    (g.restore ui ws).preg r j = (ws.getD (64 + j / 4) 0).testBit (16 * (j % 4) + r) := by
  obtain ⟨hp, -, -, -⟩ := restore_lanes g ui ws
  unfold Group.preg
  rw [hp, preds_restoreLanes, if_pos (List.mem_range.mpr hj), returnedPreds_bit ws j hr, beq_false_of_ne (by omega), Bool.false_or]

end restore

theorem sreg_restore (g : Group) (ui : Bool) (ws : List Nat) (r : Nat) : (g.restore ui ws).sreg r =
    if 60 ≤ r ∧ r < 64 then BitVec.ofNat 64 (ws.getD (28 + r) 0) else g.sreg r := by
  have hlast : (g.restore ui ws).sreg r =
      ((g.restoreLanes (g.hdrsFor ui) ws (List.range g.width)).restoreUniform ws (List.range 4)).sreg r := by
    rw [restore_eq, leaveHandler_rest]
    rfl
  have hlanes : (g.restoreLanes (g.hdrsFor ui) ws (List.range g.width)).sreg r = g.sreg r := by
    rw [restoreLanes_rest]
    rfl
  have hrange : (60 ≤ r ∧ r - 60 ∈ List.range 4) ↔ (60 ≤ r ∧ r < 64) := by rw [List.mem_range]; omega
  rw [hlast, sreg_restoreUniform, hlanes]
  simp only [hrange]

end Sys2Proof.Machine
end

section
/-!
PROOF. `ERET` and `UIRET` (O44): the state that a return leaves.
-/
namespace Sys2Proof.Machine

/-! ### Units and waits of a group that returns -/

theorem unitsOf_congr {s t : State} (hops : t.ops = s.ops) (hsweeps : t.sweeps = s.sweeps)
    (hseq : ∀ n, (t.team n).seq = (s.team n).seq) (team grp : Nat) : t.unitsOf team grp = s.unitsOf team grp := by
  have hpark : t.parkOf = s.parkOf := by
    funext u
    cases u with
    | op id => unfold State.parkOf; rw [hops]
    | engine sw r => unfold State.parkOf; rw [hsweeps]
    | seq n => exact congrArg Seq.park (hseq n)
  unfold State.unitsOf
  simp only [hops, hsweeps, hseq, hpark]

/-- Without a parked unit none resumes. -/
theorem returnUnits_none {s : State} {team grp : Nat} (h : s.unitsOf team grp = []) : s.returnUnits team grp = (false, s) := by
  unfold State.returnUnits
  rw [h]
  rfl

/-- From s on, waits of the group of m are given up: nothing else of it differs. -/
theorem withdraw_group {s : State} {m : Member} (h : s.has m.team m.grp = true) :
    ∃ w, m.group (s.withdraw m.team m.grp) = { m.group s with wait := w } := by
  unfold State.withdraw
  dsimp only
  generalize maskOf (fun i => decide (5 ≤ (s.group m.team m.grp).state i) && decide ((s.group m.team m.grp).state i ≤ 9)) = lanes
  have haside := Aside.onTeam (m := m) (s.dropLanes m.team m.grp lanes)
    (f := fun t => { t with h := t.h.map (fun e => (e.1, e.2.dropGroup m.grp)) }) (fun _ => rfl)
  refine ⟨(m.group s).wait.filter (fun e => !lanes.getLsbD e.1), ?_⟩
  unfold Member.group
  rw [State.group_onGroup, if_pos ⟨rfl, rfl, haside.has.trans h⟩, haside.group]
  rfl

theorem withdraw_has {s : State} {m : Member} : (s.withdraw m.team m.grp).has m.team m.grp = s.has m.team m.grp := by
  unfold State.withdraw
  dsimp only
  rw [has_onGroup]
  exact (Aside.onTeam (m := m) _ (f := fun t => { t with h := t.h.map (fun e => (e.1, e.2.dropGroup m.grp)) }) (fun _ => rfl)).has

/-! ### The state after a return -/

/-- What a return does once its frame is read and no unit stands parked. -/
def State.goBack (s : State) (m : Member) (ui : Bool) (ws : List Nat) : State :=
  let s2 := (s.withdraw m.team m.grp).onGroup m.team m.grp (fun g => g.restore ui ws)
  if ui then s2 else s2.settleWaits m.team m.grp

section goBack

variable (s : State) (m : Member) (ui : Bool) (ws : List Nat)

theorem goBack_mem : (s.goBack m ui ws).mem = s.mem := by cases ui <;> rfl

theorem goBack_teams : (s.goBack m ui ws).teams =
    ((s.withdraw m.team m.grp).onGroup m.team m.grp (fun g => g.restore ui ws)).teams := by cases ui <;> rfl

theorem goBack_has : (s.goBack m ui ws).has m.team m.grp = s.has m.team m.grp := by
  have h := (has_onGroup (s.withdraw m.team m.grp) m.team m.grp m.team m.grp (fun g => g.restore ui ws)).trans withdraw_has
  rw [← h]
  unfold State.has State.team
  rw [goBack_teams]

variable {s} {m}

theorem goBack_group (h : s.has m.team m.grp = true) :
    ∃ w, m.group (s.goBack m ui ws) = Group.restore { m.group s with wait := w } ui ws := by
  obtain ⟨w, hw⟩ := withdraw_group h
  refine ⟨w, ?_⟩
  rw [← hw]
  unfold Member.group State.group State.team
  rw [goBack_teams]
  exact (State.group_onGroup _ _ _ _ _ _).trans (if_pos ⟨rfl, rfl, withdraw_has.trans h⟩)

end goBack

/-! ### The group after a return, in the statement's terms -/

/-- A group after its return from a frame, beside what it was (R189, R311). -/
def Group.Returned (h G : Group) (ws : List Nat) : Prop :=
  let w := fun k => ws.getD k 0
  G.level = (if w 92 % 256 = 1 then .control else .user) ∧ G.uien = (w 92 / 256 % 2 == 1) ∧
  (∀ r j, G.vreg r j = h.vreg r j) ∧ (∀ r, G.dreg r = h.dreg r) ∧ (∀ r, G.jreg r = h.jreg r) ∧
  (∀ r, G.sreg r = if 60 ≤ r ∧ r < 64 then BitVec.ofNat 64 (w (28 + r)) else h.sreg r) ∧
  G.trappc = h.trappc ∧ G.faultinfo = h.faultinfo ∧ G.faultlanes = h.faultlanes ∧
  ∀ j, j < h.width → j < 64 →
    let code := w (80 + j / 8) / 256 ^ (j % 8) % 256
    G.lanePc j = BitVec.ofNat 64 (w j) ∧ find j G.wait = none ∧
    G.state j = (if code = 0 ∨ code = 2 ∨ code = 3 ∨ code = 4 then code else 1) ∧
    ∀ r, r < 15 → G.preg r j = (w (64 + j / 4)).testBit (16 * (j % 4) + r)

/-- Waits, outstanding instructions and timestamps of the group that returns do not matter. -/
theorem restore_returned (h : Group) (w : SMap Wait) (p : SMap Pend) (o t : Nat) (ui : Bool) (ws : List Nat) :
    h.Returned (Group.restore { h with wait := w, pend := p, ordinal := o, gts := t } ui ws) ws := by
  generalize hg : ({ h with wait := w, pend := p, ordinal := o, gts := t } : Group) = g
  have hrest := restore_rest g ui ws
  have hsreg : g.sreg = h.sreg := by subst hg; rfl
  have hwidth : g.width = h.width := by subst hg; rfl
  refine ⟨?level, ?uien, fun r j => ?vreg, fun r => ?dreg, fun r => ?jreg, fun r => ?sreg, ?trappc, ?faultinfo, ?faultlanes,
    fun j hj _ => ?lane⟩
  case level | uien => rw [hrest]
  case vreg | dreg | jreg | trappc | faultinfo | faultlanes => rw [hrest]; subst hg; rfl
  case sreg => rw [sreg_restore, hsreg]
  case lane =>
    have hjg : j < g.width := hwidth ▸ hj
    exact ⟨lanePc_restore ui ws hjg, wait_restore ui ws hjg, state_restore ui ws hjg, fun r hr => preg_restore ui ws hjg hr⟩

/-! ### A return completes -/

variable {s : State} {c : Nat} {x : Issue} {m : Member}

/-- The agent that reads a frame: the group at control level. -/
abbrev Member.keeper (m : Member) (s : State) (c : Nat) : Agent := { m.agent s c with level := .control }

/-- A frame's words read by a return, with no line to wait for. -/
theorem frame_read (h : Sole s c x m) (sh : Shape) {va : Word} (hload : Loadable s (m.keeper s c) va 128)
    (hcls : ∀ k p, k < 128 → s.seek (m.keeper s c) .read (va + BitVec.ofNat 64 (8 * k)) = .ok p → p.cls ≠ 5) :
    (s.begun sh c x m).frameOwned (m.agent s c) va .read = [] ∧
    ∃ t, State.loadWords (m.keeper s c) (s.begun sh c x m) va 128 = .ok (s.wordsAt (m.keeper s c) va 128, t) ∧
      t.mem = s.mem ∧ Touched false (s.begun sh c x m) t := by
  have hsight := Sight.begun h sh
  constructor
  · unfold State.frameOwned
    rw [hsight.ownedHome]
    refine ownedHome_nil (fun a ha => ?_)
    obtain ⟨k, hk, rfl⟩ := List.mem_map.mp ha
    obtain ⟨p, hseek, -, hheld, howned, -⟩ := hload.at_ k (List.mem_range.mp hk)
    exact ⟨p, hseek, hheld, howned⟩
  · have hcurrent : s.Current (s.begun sh c x m) (m.keeper s c).core (m.keeper s c).ctx := by
      obtain ⟨htlb, hl2, hmids⟩ := hload.current
      exact ⟨by rw [(hsight.core _).1]; exact htlb, by rw [hsight.l2]; exact hl2, by rw [hsight.mids]; exact hmids⟩
    have hat : ∀ k, k < 128 → Reads.At (m.keeper s c) s (va + BitVec.ofNat 64 (8 * k)) := fun k hk => by
      obtain ⟨p, hseek, -, hheld, -, hsound⟩ := hload.at_ k hk
      exact ⟨p, hseek, hheld, hsound, hcls k p hk hseek⟩
    obtain ⟨t, ht, hreads⟩ := Reads.loadWords hload.live h.live 128 ⟨rfl, hsight.alike, hload.current, hcurrent⟩ hat
    exact ⟨t, ht, hreads.alike.mem, Touched.loadWords rfl 128 _ _ _ _ ht⟩

/-- A return whose frame can be read and is in order ends: the group is restored from the frame's words. -/
theorem returnFrom_ends (h : Sole s c x m) {level : Level} {ui : Bool} {va : Word} (hlevel : (m.group s).level.atLeast level = true)
    (hva : (m.group s).s2 + (if ui then 0x2000 else 0) = va)
    (hcalls : (if ui then (m.group s).uiCalls else (m.group s).trapCalls) = [])
    (hunits : ui = false → s.unitsOf m.team m.grp = []) (hload : Loadable s (m.keeper s c) va 128)
    (hok : frameOk (s.wordsAt (m.keeper s c) va 128) = true)
    (hcls : ∀ k p, k < 128 → s.seek (m.keeper s c) .read (va + BitVec.ofNat 64 (8 * k)) = .ok p → p.cls ≠ 5) :
    Ends c x m m.lanes (.next (s.returnFrom level ui)) (fun u => u.mem = s.mem ∧
      (m.group s).Returned (m.group u) (s.wordsAt (m.keeper s c) va 128)) := by
  generalize hsh : ({ g := .always, level := level } : Shape) = sh
  obtain ⟨howned, t, ht, hmem, htouched⟩ := frame_read h sh hload hcls
  generalize s.wordsAt (m.keeper s c) va 128 = ws at hok ht
  have hhas : t.has m.team m.grp = true := (htouched.has _ _).trans (begun_has h sh)
  have hgroup : m.group t = { m.group s with
      pend := (m.begun s sh).pend, ordinal := (m.begun s sh).ordinal, gts := (m.group t).gts } := by
    have hown := htouched.group m.team m.grp
    rw [begun_group h sh, begun_eq] at hown
    exact hown
  obtain ⟨w, hw⟩ := goBack_group ui ws hhas
  rw [hgroup] at hw
  have hact : (s.env c x m sh.g).act ≠ 0 := by
    subst hsh
    exact h.path
  have hbase : (m.begun s sh).s2 + (if ui then 0x2000 else 0) = va := by rw [begun_s2]; exact hva
  have hback : (if ui then (false, t) else t.returnUnits m.team m.grp) = (false, t) := by
    cases ui with
    | true => rfl
    | false =>
      refine returnUnits_none ((unitsOf_congr ?_ ?_ (fun n => ?_) _ _).trans (hunits rfl))
      · rw [htouched.rest, begun_rest]
      · rw [htouched.rest, begun_rest]
      · rw [htouched.team]
        exact begun_team_field s sh c x m Team.seq (fun _ => rfl) n
  unfold State.returnFrom
  rw [hsh]
  refine run_ends h sh _ (t.goBack m ui ws) m.lanes ?counter ?room ?wait ?level ?top ?effect ?has ?calls _
    ⟨?mem, hw ▸ restore_returned _ _ _ _ _ _ _⟩
  case counter => subst hsh; exact fun _ hl => nomatch hl
  case room => subst hsh; exact fun hr => nomatch hr
  case wait => subst hsh; rfl
  case level => subst hsh; exact hlevel
  case top => subst hsh; exact Nat.zero_le _
  case effect =>
    dsimp only
    rw [show (s.env c x m sh.g).group (s.begun sh c x m) = m.begun s sh from begun_group h sh, hbase,
      show (s.env c x m sh.g).agent = m.agent s c from rfl, ht, howned]
    unfold Env.withRead
    simp only [hact, hok, hback, if_false, Option.getD_some, Bool.not_true, Bool.false_eq_true,
      show (s.env c x m sh.g).team = m.team from rfl, show (s.env c x m sh.g).grp = m.grp from rfl]
    rfl
  case has => rw [goBack_has]; exact hhas
  case calls => rw [hw, restore_rest]; exact hcalls
  case mem => rw [goBack_mem, hmem]

end Sys2Proof.Machine

open Sys2Proof Sys2Proof.Machine

/-- Settles O44: a return finds the frame's words as they stand and puts the group there. -/
theorem returnsRestoreTheFrame : Obligations.ReturnsRestoreTheFrame := by
  unfold Obligations.ReturnsRestoreTheFrame
  intro s c x m hsole
  refine ⟨fun hlevel hcalls hunits hload hok hcls => ?eret, fun hcalls hload hok hcls => ?uiret⟩
  case eret => exact returnFrom_ends hsole hlevel (BitVec.add_zero _) hcalls (fun _ => hunits) hload hok hcls
  case uiret => exact returnFrom_ends hsole (atLeast_user _) rfl hcalls (fun hui => nomatch hui) hload hok hcls
end
